-- ==== Sys2Proof/Word.lean ====
section
/-! DEFINITION. Word sizes of the machine and the plainest readings of them (R4, R54, R55). -/

namespace Sys2Proof

/-- One byte of memory. -/
abbrev Byte := BitVec 8
/-- A register of class v, g, t or s, and one instruction word (R45, R54). -/
abbrev Word := BitVec 32
/-- A 64-bit operand, address, literal or control register (R55, R233). -/
abbrev Dword := BitVec 64

end Sys2Proof
end

