-- ==== Sys2Proof/Syntax.lean ====
section
/-! DEFINITION. The instructions and device events of the opcode table, as data: one constructor of
`Instr` per row. Rows 0 to 59 are the base words of R67, rows 60 to 191 the extended operations of R68,
rows 192 to 300 steps of the device that no instruction word names. -/

namespace Sys2Proof

/-- Register class of an operand (R51): class v is s in the lead slice. -/
inductive RClass where | v | g | t | f
  deriving DecidableEq, Repr

/-- A register operand: class and number (R50, R51). -/
structure Opd where
  cls : RClass
  no : BitVec 7
  deriving DecidableEq, Repr

/-- Operand b of an extended instruction: a register or the literal of L = 11 (R52). -/
inductive OpdB where
  | reg (o : Opd)
  | lit (w : Dword)
  deriving DecidableEq, Repr

/-- Operand b of a base word: a v register or the literal of L = 10 (R49). -/
inductive BaseB where
  | reg (no : BitVec 7)
  | lit (w : Dword)
  deriving DecidableEq, Repr

/-- Displacement of a base load or store: signed 7 bits scaled by the width, or a literal (R67). -/
inductive BaseDisp where
  | short (n : BitVec 7)
  | lit (w : Dword)
  deriving DecidableEq, Repr

/-- Branch target of a base word: signed 14-bit word offset, or a literal byte offset (R67). -/
inductive BaseOff where
  | short (n : BitVec 14)
  | lit (w : Dword)
  deriving DecidableEq, Repr

/-- Branch target of the extended form: signed 30-bit word offset, or a literal byte offset (R146). -/
inductive ExtOff where
  | short (n : BitVec 30)
  | lit (w : Dword)
  deriving DecidableEq, Repr

/-- Address offset of a load, store or escorted load (R171). -/
inductive AddrOff where
  | none
  | reg (o : Opd)
  | lit (w : Dword)
  deriving DecidableEq, Repr

/-- What every extended instruction carries: stall count (R62) and guard (R61). -/
structure XHead where
  stall : BitVec 3
  pg : BitVec 3
  pn : Bool
  deriving DecidableEq, Repr

/-- Type codes of R65, sub[3:0]; code 12 is FP64, a conversion source only. -/
inductive Ty where
  | i32 | n32 | i64 | n64 | f32 | f16 | b16 | e4m3 | e5m2 | zb3 | zb5 | zb8 | f64
  deriving DecidableEq, Repr

/-- Rounding modes of mod[1:0] (R66). -/
inductive Rm where | rn | rz | ru | rd
  deriving DecidableEq, Repr

/-- Conditions of R65. -/
inductive Cond where | eq | ne | lt | le | gt | ge | num | nan
  deriving DecidableEq, Repr

/-- Scope codes of R65. -/
inductive Scope where | l | q | g | t | c | d | y
  deriving DecidableEq, Repr

/-- Order and scope of a memory access (R53, R173). -/
structure MOrd where
  acq : Bool
  rel : Bool
  scope : Scope
  deriving DecidableEq, Repr

/-- Widths of R172. -/
inductive Wid where | w8 | w16 | w32 | w64 | w128
  deriving DecidableEq, Repr

/-- Element counts of R172. -/
inductive Elt where | x1 | x2 | x4 | x8 | x16
  deriving DecidableEq, Repr

/-- A load's form: raw with optional sign extension, or elements of a formatted page (R176, R178). -/
inductive LdFmt where
  | raw (w : Wid) (sx : Bool)
  | elems (n : Elt) (ty : Ty)
  deriving DecidableEq, Repr

/-- A store's form: raw, or elements with rounding and dither (R176, R179). -/
inductive StFmt where
  | raw (w : Wid)
  | elems (n : Elt) (ty : Ty) (rm : Rm) (sr : Bool)
  deriving DecidableEq, Repr

/-- Atomic operations of R192. -/
inductive Aop where | add | min | max | iand | ior | ixor | exch | cas | fadd
  deriving DecidableEq, Repr

/-- Combining operations of R167. -/
inductive Opn where | add | min | max | iand | ior | ixor
  deriving DecidableEq, Repr

/-- Escort set of R180; a count of 0 is no escort. -/
structure EscSet where
  base : BitVec 7
  cnt : BitVec 4
  deriving DecidableEq, Repr

/-- Rounding and flushing modifiers of R140. -/
structure FpMod where
  rm : Rm
  ftz : Bool
  deriving DecidableEq, Repr

/-- Modifiers of a conversion (R143). -/
structure CvMod where
  sr : Bool
  sat : Bool
  ftz : Bool
  rm : Rm
  deriving DecidableEq, Repr

/-- Modifiers of MST (R267). -/
structure MstMod where
  sr : Bool
  sat : Bool
  qc : Bool
  rm : Rm
  deriving DecidableEq, Repr

/-- Modes of CBAR (R152). -/
inductive CbarMode where | sync | arv | wait
  deriving DecidableEq, Repr

/-- Resume actions (R217, R235). -/
inductive Action where | retry | skip | kill
  deriving DecidableEq, Repr

/-- The ONE inductive of instructions and device events, a constructor per row of the opcode table. -/
inductive Instr where
  -- base words (R67)
  | mov (stl : BitVec 3) (d a : BitVec 7)
  | movi (stl : BitVec 3) (d : BitVec 7) (imm : Dword)
  | iadd (stl : BitVec 3) (d a : BitVec 7) (b : BaseB)
  | isub (stl : BitVec 3) (d a : BitVec 7) (b : BaseB)
  | imul (stl : BitVec 3) (d a : BitVec 7) (b : BaseB)
  | imulh (stl : BitVec 3) (d a : BitVec 7) (b : BaseB)
  | imin (stl : BitVec 3) (d a : BitVec 7) (b : BaseB)
  | imax (stl : BitVec 3) (d a : BitVec 7) (b : BaseB)
  | iand (stl : BitVec 3) (d a : BitVec 7) (b : BaseB)
  | ior (stl : BitVec 3) (d a : BitVec 7) (b : BaseB)
  | ixor (stl : BitVec 3) (d a : BitVec 7) (b : BaseB)
  | inot (stl : BitVec 3) (d a : BitVec 7)
  | shl (stl : BitVec 3) (d a : BitVec 7) (b : BaseB)
  | shr (stl : BitVec 3) (d a : BitVec 7) (b : BaseB)
  | sar (stl : BitVec 3) (d a : BitVec 7) (b : BaseB)
  | lea (stl : BitVec 3) (d a : BitVec 7) (b : BaseB)
  | fadd (stl : BitVec 3) (d a : BitVec 7) (b : BaseB)
  | fsub (stl : BitVec 3) (d a : BitVec 7) (b : BaseB)
  | fmul (stl : BitVec 3) (d a : BitVec 7) (b : BaseB)
  | fmin (stl : BitVec 3) (d a : BitVec 7) (b : BaseB)
  | fmax (stl : BitVec 3) (d a : BitVec 7) (b : BaseB)
  | ftoi (stl : BitVec 3) (d a : BitVec 7)
  | itof (stl : BitVec 3) (d a : BitVec 7)
  | frnd (stl : BitVec 3) (d a : BitVec 7)
  | fcvtF16F32 (stl : BitVec 3) (d a : BitVec 7)
  | fcvtF32F16 (stl : BitVec 3) (d a : BitVec 7)
  | fcvtB16F32 (stl : BitVec 3) (d a : BitVec 7)
  | fcvtF32B16 (stl : BitVec 3) (d a : BitVec 7)
  | icmpI32 (stl : BitVec 3) (cc : Cond) (p : BitVec 3) (a : BitVec 7) (b : BaseB)
  | icmpN32 (stl : BitVec 3) (cc : Cond) (p : BitVec 3) (a : BitVec 7) (b : BaseB)
  | fcmpF32 (stl : BitVec 3) (cc : Cond) (p : BitVec 3) (a : BitVec 7) (b : BaseB)
  | pand (stl : BitVec 3) (p q r : BitVec 3)
  | por (stl : BitVec 3) (p q r : BitVec 3)
  | pxor (stl : BitVec 3) (p q r : BitVec 3)
  | pnot (stl : BitVec 3) (p q : BitVec 3)
  | pmov (stl : BitVec 3) (p q : BitVec 3)
  | bra (stl : BitVec 3) (off : BaseOff)
  | call (stl : BitVec 3) (d : BitVec 7) (off : BaseOff)
  | ret (stl : BitVec 3) (a : BitVec 7)
  | brx (stl : BitVec 3) (a : BitVec 7)
  | exit (stl : BitVec 3)
  | nop (stl : BitVec 3)
  | yieldB (stl : BitVec 3)
  | bkpt (stl : BitVec 3) (code : BitVec 14)
  | ld32 (stl : BitVec 3) (d a : BitVec 7) (disp : BaseDisp)
  | ld64 (stl : BitVec 3) (d a : BitVec 7) (disp : BaseDisp)
  | ld128 (stl : BitVec 3) (d a : BitVec 7) (disp : BaseDisp)
  | st32 (stl : BitVec 3) (d a : BitVec 7) (disp : BaseDisp)
  | st64 (stl : BitVec 3) (d a : BitVec 7) (disp : BaseDisp)
  | st128 (stl : BitVec 3) (d a : BitVec 7) (disp : BaseDisp)
  | ld32Ro (stl : BitVec 3) (d a : BitVec 7) (disp : BaseDisp)
  | ld128Ro (stl : BitVec 3) (d a : BitVec 7) (disp : BaseDisp)
  | shflIdx (stl : BitVec 3) (d a : BitVec 7) (b : BaseB)
  | shflUp (stl : BitVec 3) (d a : BitVec 7) (b : BaseB)
  | shflDown (stl : BitVec 3) (d a : BitVec 7) (b : BaseB)
  | shflXor (stl : BitVec 3) (d a : BitVec 7) (b : BaseB)
  | qxchH (stl : BitVec 3) (d a : BitVec 7)
  | qxchV (stl : BitVec 3) (d a : BitVec 7)
  | qxchD (stl : BitVec 3) (d a : BitVec 7)
  | ballot (stl : BitVec 3) (d : BitVec 7) (q : BitVec 3)
  -- integer and address, major 0x00 (R135)
  | movExt (x : XHead) (ty : Ty) (d a : Opd)
  | moviExt (x : XHead) (ty : Ty) (d : Opd) (imm : Dword)
  | iaddExt (x : XHead) (ty : Ty) (sat : Bool) (d a : Opd) (b : OpdB)
  | isubExt (x : XHead) (ty : Ty) (sat : Bool) (d a : Opd) (b : OpdB)
  | imulExt (x : XHead) (ty : Ty) (sat : Bool) (d a : Opd) (b : OpdB)
  | imulhExt (x : XHead) (ty : Ty) (d a : Opd) (b : OpdB)
  | imad (x : XHead) (ty : Ty) (sat : Bool) (d a : Opd) (b : OpdB) (c : Opd)
  | iminExt (x : XHead) (ty : Ty) (d a : Opd) (b : OpdB)
  | imaxExt (x : XHead) (ty : Ty) (d a : Opd) (b : OpdB)
  | iabs (x : XHead) (ty : Ty) (sat : Bool) (d a : Opd)
  | ineg (x : XHead) (ty : Ty) (sat : Bool) (d a : Opd)
  | andExt (x : XHead) (ty : Ty) (d a : Opd) (b : OpdB)
  | orExt (x : XHead) (ty : Ty) (d a : Opd) (b : OpdB)
  | xorExt (x : XHead) (ty : Ty) (d a : Opd) (b : OpdB)
  | notExt (x : XHead) (ty : Ty) (d a : Opd)
  | shlExt (x : XHead) (ty : Ty) (d a : Opd) (b : OpdB)
  | shrExt (x : XHead) (ty : Ty) (d a : Opd) (b : OpdB)
  | sarExt (x : XHead) (ty : Ty) (d a : Opd) (b : OpdB)
  | bfx (x : XHead) (ty : Ty) (d a : Opd) (b : OpdB)
  | bfi (x : XHead) (ty : Ty) (d a : Opd) (b : OpdB) (c : Opd)
  | popc (x : XHead) (ty : Ty) (d a : Opd)
  | clz (x : XHead) (ty : Ty) (d a : Opd)
  | brev (x : XHead) (ty : Ty) (d a : Opd)
  | leaExt (x : XHead) (ty : Ty) (k : BitVec 3) (d a : Opd) (b : OpdB)
  | sel (x : XHead) (ty : Ty) (d a : Opd) (b : OpdB) (q : BitVec 3) (nq : Bool)
  -- floating point, majors 0x01 and 0x02 (R140)
  | faddExt (x : XHead) (ty : Ty) (m : FpMod) (d a : Opd) (b : OpdB)
  | fsubExt (x : XHead) (ty : Ty) (m : FpMod) (d a : Opd) (b : OpdB)
  | fmulExt (x : XHead) (ty : Ty) (m : FpMod) (d a : Opd) (b : OpdB)
  | ffma (x : XHead) (ty : Ty) (m : FpMod) (d a : Opd) (b : OpdB) (c : Opd)
  | fminExt (x : XHead) (ty : Ty) (ftz : Bool) (d a : Opd) (b : OpdB)
  | fmaxExt (x : XHead) (ty : Ty) (ftz : Bool) (d a : Opd) (b : OpdB)
  | frndExt (x : XHead) (ty : Ty) (m : FpMod) (d a : Opd)
  | fdiv (x : XHead) (m : FpMod) (d a : Opd) (b : OpdB)
  | rcp (x : XHead) (m : FpMod) (d a : Opd)
  | rsq (x : XHead) (m : FpMod) (d a : Opd)
  | sqrt (x : XHead) (m : FpMod) (d a : Opd)
  | ex2 (x : XHead) (m : FpMod) (d a : Opd)
  | lg2 (x : XHead) (m : FpMod) (d a : Opd)
  -- conversion and compare, majors 0x03 to 0x05 (R142, R144, R145)
  | fcvt (x : XHead) (dt sty : Ty) (m : CvMod) (d a : Opd) (b : Option OpdB)
  | ftoiExt (x : XHead) (dt sty : Ty) (rm : Rm) (d a : Opd)
  | itofExt (x : XHead) (dt sty : Ty) (m : FpMod) (d a : Opd)
  | icmp (x : XHead) (ty : Ty) (cc : Cond) (p : BitVec 3) (a : Opd) (b : OpdB)
  | fcmp (x : XHead) (ty : Ty) (cc : Cond) (ftz : Bool) (p : BitVec 3) (a : Opd) (b : OpdB)
  | pandExt (x : XHead) (p q : BitVec 3) (nq : Bool) (r : BitVec 3) (nr : Bool)
  | porExt (x : XHead) (p q : BitVec 3) (nq : Bool) (r : BitVec 3) (nr : Bool)
  | pxorExt (x : XHead) (p q : BitVec 3) (nq : Bool) (r : BitVec 3) (nr : Bool)
  | pnotExt (x : XHead) (p q : BitVec 3) (nq : Bool)
  | pmovExt (x : XHead) (p q : BitVec 3) (nq : Bool)
  -- control, major 0x08 (R146)
  | braExt (x : XHead) (off : ExtOff)
  | brxExt (x : XHead) (a : Opd)
  | callExt (x : XHead) (d : BitVec 7) (off : ExtOff)
  | retExt (x : XHead) (a : Opd)
  | exitExt (x : XHead)
  | yieldExt (x : XHead)
  | nopExt (x : XHead)
  -- reconvergence, barriers, lead and system, majors 0x09 to 0x0B (R151, R152, R155)
  | rcvSet (x : XHead) (slot : BitVec 4)
  | rcvWait (x : XHead) (p : BitVec 3) (slot : BitVec 4) (n : BitVec 20)
  | barArv (x : XHead) (n : BitVec 4) (k : BitVec 6)
  | barWait (x : XHead) (n : BitVec 4)
  | barSync (x : XHead) (n : BitVec 4) (k : BitVec 6)
  | cbar (x : XHead) (m : CbarMode)
  | dqpush (x : XHead) (b : OpdB)
  | dqpushAll (x : XHead) (b : OpdB)
  | dqpop (x : XHead) (gd : BitVec 7) (p : BitVec 3)
  | mfsr (x : XHead) (d : BitVec 7) (sl : BitVec 8)
  | trap (x : XHead) (code : BitVec 16)
  | bkptExt (x : XHead) (code : BitVec 14)
  | waitt (x : XHead) (a : Opd)
  -- cross-lane, major 0x0C (R160)
  | shflIdxExt (x : XHead) (ty : Ty) (seg : BitVec 3) (d : BitVec 7) (a : Opd) (b : OpdB)
  | shflUpExt (x : XHead) (ty : Ty) (seg : BitVec 3) (d : BitVec 7) (a : Opd) (b : OpdB)
  | shflDownExt (x : XHead) (ty : Ty) (seg : BitVec 3) (d : BitVec 7) (a : Opd) (b : OpdB)
  | shflXorExt (x : XHead) (ty : Ty) (seg : BitVec 3) (d : BitVec 7) (a : Opd) (b : OpdB)
  | qxchHExt (x : XHead) (ty : Ty) (d a : BitVec 7)
  | qxchVExt (x : XHead) (ty : Ty) (d a : BitVec 7)
  | qxchDExt (x : XHead) (ty : Ty) (d a : BitVec 7)
  | voteAny (x : XHead) (seg : BitVec 3) (p q : BitVec 3)
  | voteAll (x : XHead) (seg : BitVec 3) (p q : BitVec 3)
  | voteEq (x : XHead) (seg : BitVec 3) (p q : BitVec 3)
  | ballotExt (x : XHead) (d : BitVec 7) (q : BitVec 3)
  | matchX (x : XHead) (ty : Ty) (d a : BitVec 7)
  | compact (x : XHead) (d : BitVec 7) (q : BitVec 3)
  | gscan (x : XHead) (ty : Ty) (opn : Opn) (ex : Bool) (seg : BitVec 3) (d a : BitVec 7)
  | gred (x : XHead) (ty : Ty) (opn : Opn) (seg : BitVec 3) (d a : BitVec 7)
  -- memory, majors 0x10 to 0x16 (R171 to R207)
  | ld (x : XHead) (hint : BitVec 2) (o : MOrd) (fmt : LdFmt) (d a : Opd) (off : AddrOff)
  | st (x : XHead) (hint : BitVec 2) (o : MOrd) (fmt : StFmt) (a : Opd) (off : AddrOff) (c : Opd)
  | ldC (x : XHead) (hint : BitVec 2) (o : MOrd) (w : Wid) (sx : Bool) (cap : BitVec 3) (d a : Opd) (disp : Option Dword)
  | stC (x : XHead) (hint : BitVec 2) (o : MOrd) (w : Wid) (cap : BitVec 3) (a : Opd) (disp : Option Dword) (c : Opd)
  | lde (x : XHead) (hint : BitVec 2) (o : MOrd) (w : Wid) (d : BitVec 7) (a : Opd) (off : AddrOff) (rp : BitVec 3) (e : EscSet)
  | atom (x : XHead) (hint : BitVec 2) (o : MOrd) (op : Aop) (ty : Ty) (d : BitVec 7) (a : Opd) (b : OpdB) (c : Opd) (rp : BitVec 3) (e : EscSet)
  | red (x : XHead) (hint : BitVec 2) (o : MOrd) (op : Aop) (ty : Ty) (a : Opd) (b : OpdB)
  | atomC (x : XHead) (hint : BitVec 2) (o : MOrd) (op : Aop) (ty : Ty) (cap : BitVec 3) (d : BitVec 7) (a : Opd) (b : OpdB) (c : Opd) (rp : BitVec 3) (e : EscSet)
  | redC (x : XHead) (hint : BitVec 2) (o : MOrd) (op : Aop) (ty : Ty) (cap : BitVec 3) (a : Opd) (b : OpdB)
  | chs (x : XHead) (hint : BitVec 2) (d : BitVec 7) (a : Opd) (b : OpdB) (rp : BitVec 3) (e : EscSet)
  | fnc (x : XHead) (hint : BitVec 2) (sc : Scope) (gd : Opd)
  | waitf (x : XHead) (hint : BitVec 2) (ga : Opd)
  | acp (x : XHead) (hint : BitVec 2) (gd a : Opd) (b : OpdB) (c : Opd)
  | sraff (x : XHead) (hint : BitVec 2) (k : BitVec 4) (lsh : BitVec 4) (lon : Bool) (a : Opd) (b : OpdB) (c : Opd)
  | srind (x : XHead) (hint : BitVec 2) (k : BitVec 4) (lsh : BitVec 4) (lon : Bool) (sc : BitVec 3) (a : Opd) (b : OpdB) (c : Opd)
  | srprb (x : XHead) (hint : BitVec 2) (k : BitVec 4) (rp : BitVec 3)
  | srstop (x : XHead) (hint : BitVec 2) (k : BitVec 4)
  | gath (x : XHead) (hint : BitVec 2) (km1 : BitVec 4) (sc : BitVec 3) (d : BitVec 7) (a : Opd) (b : OpdB) (rp : BitVec 3) (e : EscSet)
  | scat (x : XHead) (hint : BitVec 2) (km1 : BitVec 4) (sc : BitVec 3) (a : Opd) (b : OpdB) (c : BitVec 7)
  | scatAdd (x : XHead) (hint : BitVec 2) (ty : Ty) (km1 : BitVec 4) (sc : BitVec 3) (a : Opd) (b : OpdB) (c : BitVec 7)
  -- capabilities and privileged, majors 0x17 and 0x18 (R211, R235, R328)
  | capld (x : XHead) (cd : BitVec 3) (a : Opd) (disp : Option Dword)
  | capst (x : XHead) (a : Opd) (disp : Option Dword) (cs : BitVec 3)
  | capnar (x : XHead) (cd ca : BitVec 3) (b : OpdB) (c : Opd) (mask : BitVec 4)
  | caprst (x : XHead) (cd : BitVec 3)
  | capchk (x : XHead) (p ca : BitVec 3) (b : OpdB) (c : Opd) (mask : BitVec 4)
  | csrr (x : XHead) (d : BitVec 7) (n : BitVec 12)
  | csrw (x : XHead) (n : BitVec 12) (a : Opd)
  | eret (x : XHead) (act : Action)
  | capmk (x : XHead) (cd : BitVec 3) (b : Opd)
  | capmkRec (x : XHead) (a b : Opd) (w : BitVec 7)
  -- scheduling, major 0x19 (R253, R256)
  | regroup (x : XHead) (slot : BitVec 4) (w : BitVec 10)
  | launch (x : XHead) (gd a : Opd) (q : BitVec 10)
  | evsig (x : XHead) (b : OpdB)
  | evwait (x : XHead) (a : Opd) (b : OpdB)
  -- matrix and tile cutter, majors 0x1C and 0x1D (R267)
  | mzero (x : XHead) (md : BitVec 6)
  | mrd (x : XHead) (d : Opd) (md : BitVec 6) (b : OpdB)
  | mwr (x : XHead) (md : BitVec 6) (a : Opd) (b : OpdB)
  | mwmk (x : XHead) (d : Opd) (md : BitVec 6)
  | mldb (x : XHead) (ty : Ty) (bl : Bool) (a : Opd) (stride : BitVec 24)
  | mgata (x : XHead) (ty : Ty) (a : Opd) (b : OpdB) (stride : BitVec 24)
  | mmq (x : XHead) (md : BitVec 6) (bl : Bool)
  | mms (x : XHead) (md : BitVec 6) (a : Opd) (gs : Opd) (c : Opd)
  | mst (x : XHead) (ty : Ty) (m : MstMod) (gd a : Opd) (md : BitVec 6) (stride : BitVec 24)
  | tcut (x : XHead) (gd a : Opd) (bud : BitVec 9) (sc : BitVec 2)
  -- attention and cache, major 0x1E (R292)
  | infl (x : XHead) (n : BitVec 2) (a : Opd)
  | attn (x : XHead) (absorb : Bool) (gd a : Opd) (md : BitVec 6) (n : BitVec 2)
  | kvapp (x : XHead) (rm : Rm) (sat : Bool) (gd : Opd) (p : BitVec 3) (a : Opd) (b : OpdB) (c : Opd)
  | kvtrim (x : XHead) (gd : Opd) (p : BitVec 3) (a c : Opd)
  | kvqry (x : XHead) (d a : Opd) (sl : BitVec 3)
  -- device events: issue, scoreboard, waits, admission
  | pcAging (team grp : Nat)
  | pendingForcedDemotion (core sub : Nat)
  | rcvTimeout (team grp : Nat) (slot : BitVec 4)
  | scoreboardWriteback (id : Nat)
  | waitfRelease (team grp : Nat)
  | waittRelease (team grp : Nat)
  | evwaitRelease (team grp : Nat)
  | fncTokenWrite (id : Nat)
  | teamAdmission (team : Nat)
  | bankConversion (core bank : Nat)
  | reply (req lane : Nat)
  | refill (team : Nat)
  | homeRequest (id : Nat)
  | storeCompletion (id : Nat)
  | tableWalk (core : Nat) (world : Nat) (va : Dword)
  | escortAccept (req lane : Nat)
  | escortDrop (req lane : Nat)
  | backoffExpiry (req lane : Nat)
  | hop (id : Nat)
  | remoteEscortTimeout (id : Nat)
  | localEscortTimeout (req lane : Nat)
  | streamElementFetch (team grp : Nat) (k : BitVec 4) (lane : Nat)
  | probePass (id : Nat)
  | acpCompletion (id : Nat)
  | scatCompletion (id : Nat)
  | matrixOpCompletion (id : Nat)
  | mstCompletion (id : Nat)
  | attnCompletion (id : Nat)
  | kvtrimFramePush (id : Nat)
  | conjugatorExpiry (team : Nat)
  | conjugateGroupFormation (team : Nat)
  -- device events: errors, fault queues, invalidates, save and restore
  | integrityError (launch : Nat) (line : Nat) (source : Nat)
  | unconsumedError (world : Nat) (line : Nat) (source : Nat)
  | correctedError (die cls : Nat)
  | faultRecordWrite (world : Nat)
  | faultQueueSetup (world : Nat) (size : Bool) (val : Dword)
  | fqheadWrite (world : Nat) (val : Dword)
  | retry (world : Nat) (tag : Word)
  | skip (world : Nat) (tag : Word)
  | kill (world : Nat) (tag : Word)
  | translationInvalidate (world : Nat) (val : Dword)
  | invalidateCompletion (id : Nat)
  | preemptionRequest (team : Nat)
  | stopTime (team : Nat)
  | saveDone (team : Nat)
  | restore (team core : Nat)
  -- device events: launch and scheduling
  | lqnotify (fn q : Nat) (val : Word)
  | lqctlWrite (fn q : Nat) (val : Dword)
  | launchRecordTake (q : Nat)
  | launchWaitCheck (q : Nat)
  | dispatchDecision
  | launchCompletion (launch : Nat)
  | eventSignal (world ev : Nat)
  | fcoresWrite (world j : Nat) (val : Dword)
  | sliceEnd
  | kvpush (world : Nat) (tier : Bool) (cls : BitVec 2) (val : Dword)
  | kvrclWrite (world : Nat) (val : Dword)
  | errorCounterWrite (die cls : Nat)
  | registerWrite (fn offset : Nat) (val : Dword)
  -- device events: bring-up, host and trust
  | perstDeassert
  | firmwareCheck (ok : Bool) (unit : BitVec 5)
  | pllLock (ok : Bool) (unit : BitVec 5)
  | hbmTraining (ok : Bool) (unit : BitVec 5)
  | memoryZeroing (ok : Bool) (unit : BitVec 5)
  | gtcStart (ok : Bool) (unit : BitVec 5)
  | configurationRequest
  | bar2Read (fn : Nat) (off : Nat) (n : Nat) (viaIde : Bool)
  | bar2Write (fn : Nat) (off : Nat) (data : List Byte) (viaIde : Bool)
  | lockInterface (world sess : Nat)
  | startInterface (world sess : Nat)
  | stopInterface (world sess : Nat)
  | functionLevelReset (world : Nat)
  | ideIntegrityFailure (world : Nat)
  | lockedRegisterWrite (world offset : Nat) (val : Dword)
  | getVersion
  | getCapabilities
  | negotiateAlgorithms
  | getDigests
  | getCertificate
  | challenge
  | getMeasurements (index : Nat)
  | keyExchange
  | finish (sess : Nat)
  | heartbeat (sess : Nat)
  | keyUpdate (sess : Nat)
  | endSession (sess : Nat)
  | l2waysWrite (world : Nat) (val : Dword)
  | migExport (world : Nat)
  | migImport (world : Nat)
  | migConfirm (world : Nat)
  | migRelease (world : Nat)
  | migClear (world : Nat)
  | migrationExpiry (world : Nat)
  | migrationDeadline (world : Nat)
  -- device events: fabric, power, links
  | fabricIngressRequest (port sdev sworld : Nat) (va : Dword) (n : Nat) (op : Nat) (data : List Byte)
  | remoteReply (id : Nat) (err : Option Nat) (data : List Byte) (w : Dword)
  | portDown (port : Nat)
  | timeSync (port : Nat) (now : Dword)
  | laneSample (port : Nat) (lanes : List (Nat × Nat))
  | quietPoint (port : Nat)
  | forcedIdleGap (port : Nat)
  | dvfsWindow (points : BitVec 16) (temp : BitVec 16)
  | thermalThrottle
  | thermalTrip
  | perstAssert
  | hostLinkDown (link : Bool)
  | hostLinkUp (link : Bool)
  | portUp (port : Nat)
  | firmwareActivation
  deriving DecidableEq, Repr

end Sys2Proof
end

