-- ==== Sys2Proof/WellFormed.lean ====
section
/-! DEFINITION. What an instruction names (`Instr.uses`) and which instructions are well formed whatever
the kernel's header and whoever issues them (`Instr.wf`): R49, R51 to R57, R65, R66, R69 and the field
rules of each family. What depends on the header or on the issuer is `Instr.legal` in Machine/Legal.lean. -/

namespace Sys2Proof

/-- Register files an instruction can name (R54). -/
inductive UCls where | v | g | t | f | p | c | m
  deriving DecidableEq, Repr

/-- The classes an operand accepts (R51 and the instruction's description): `src` any source class, `dst`
v, g or t, `addr` v, g or t, `lane` v or g, `uni` g or t (s or t at lead), `tok` g (s at lead), `vee` v,
`gee` g, `pred`, `capa`, `tile`, and `esc` an escort set (R56). -/
inductive UKind where | src | dst | addr | lane | uni | tok | vee | gee | pred | capa | tile | esc
  deriving DecidableEq, Repr

/-- One operand as named: its class, first number, count, alignment (R55) and whether it is written. -/
structure Use where
  kind : UKind
  cls : UCls
  no : Nat
  cnt : Nat
  al : Nat
  wr : Bool
  deriving DecidableEq, Repr

def RClass.u : RClass → UCls
  | .v => .v
  | .g => .g
  | .t => .t
  | .f => .f

/-- Types of two registers (R133). -/
def Ty.wide : Ty → Bool
  | .i64 => true
  | .n64 => true
  | .f64 => true
  | _ => false

def Ty.signed : Ty → Bool
  | .i32 => true
  | .i64 => true
  | _ => false

/-- Registers an operand of the type takes. -/
def Ty.regs (t : Ty) : Nat := if t.wide then 2 else 1

def Ty.isInt : Ty → Bool
  | .i32 => true
  | .n32 => true
  | .i64 => true
  | .n64 => true
  | _ => false

def Ty.isNat : Ty → Bool
  | .n32 => true
  | .n64 => true
  | _ => false

/-- The arithmetic formats of R140. -/
def Ty.isFp : Ty → Bool
  | .f32 => true
  | .f16 => true
  | .b16 => true
  | _ => false

def Ty.isFp8 : Ty → Bool
  | .e4m3 => true
  | .e5m2 => true
  | _ => false

def Ty.isZb : Ty → Bool
  | .zb3 => true
  | .zb5 => true
  | .zb8 => true
  | _ => false

/-- The operand types of R267. -/
def Ty.isOperand : Ty → Bool
  | .f16 => true
  | .b16 => true
  | t => t.isFp8 || t.isZb

/-- Bytes of a raw access (R172). -/
def Wid.bytes : Wid → Nat
  | .w8 => 1
  | .w16 => 2
  | .w32 => 4
  | .w64 => 8
  | .w128 => 16

/-- Registers of a raw access (R172). -/
def Wid.regs : Wid → Nat
  | .w64 => 2
  | .w128 => 4
  | _ => 1

/-- Elements of an element form (R172). -/
def Elt.n : Elt → Nat
  | .x1 => 1
  | .x2 => 2
  | .x4 => 4
  | .x8 => 8
  | .x16 => 16

/-- Registers of an element form (R178). -/
def eltRegs (n : Elt) (ty : Ty) : Nat := if ty = .f32 then n.n else (n.n + 1) / 2

/-- One named operand. -/
def mkUse (k : UKind) (o : Opd) (cnt : Nat) (wr : Bool) : Use :=
  { kind := k, cls := o.cls.u, no := o.no.toNat, cnt := cnt, al := if cnt = 2 then 2 else if cnt = 4 then 4 else 1, wr := wr }

def rd (k : UKind) (o : Opd) (cnt : Nat) : List Use := [mkUse k o cnt false]
def wrt (k : UKind) (o : Opd) (cnt : Nat) : List Use := [mkUse k o cnt true]
/-- Operand b: a literal names no register. -/
def rdB (k : UKind) (b : OpdB) (cnt : Nat) : List Use :=
  match b with
  | .reg o => rd k o cnt
  | .lit _ => []
def vr (n : BitVec 7) (cnt : Nat) : List Use := rd .vee ⟨.v, n⟩ cnt
def vw (n : BitVec 7) (cnt : Nat) : List Use := wrt .vee ⟨.v, n⟩ cnt
def vrB (b : BaseB) (cnt : Nat) : List Use :=
  match b with
  | .reg n => vr n cnt
  | .lit _ => []
def pr (n : BitVec 3) : List Use := [⟨.pred, .p, n.toNat, 1, 1, false⟩]
def pw (n : BitVec 3) : List Use := [⟨.pred, .p, n.toNat, 1, 1, true⟩]
def cr (n : BitVec 3) : List Use := [⟨.capa, .c, n.toNat, 1, 1, false⟩]
def cw (n : BitVec 3) : List Use := [⟨.capa, .c, n.toNat, 1, 1, true⟩]
def tile (n : BitVec 6) (wr : Bool) : List Use := [⟨.tile, .m, n.toNat, 1, 1, wr⟩]
/-- The escort set, which leaves and comes home: written (R181). -/
def escU (e : EscSet) : List Use :=
  if e.cnt = 0 then [] else [⟨.esc, .v, e.base.toNat, e.cnt.toNat, 1, true⟩]
/-- The guard (R61): p7 is no register. -/
def XHead.gu (x : XHead) : List Use := if x.pg = 7 then [] else pr x.pg
def offU (o : AddrOff) : List Use :=
  match o with
  | .none => []
  | .reg r => rd .src r 1
  | .lit _ => []
/-- A register range with its own alignment (R178, R205). -/
def vrange (n : BitVec 7) (cnt al : Nat) (wr : Bool) : List Use := [⟨.vee, .v, n.toNat, cnt, al, wr⟩]
def eltU (o : Opd) (n : Elt) (ty : Ty) (wr : Bool) : List Use :=
  [⟨.vee, o.cls.u, o.no.toNat, eltRegs n ty, min (eltRegs n ty) 4, wr⟩]
/-- The refusal predicate is written only by an escorted form (R172). -/
def rpU (rp : BitVec 3) (e : EscSet) : List Use := if e.cnt = 0 then [] else pw rp

/-- Every operand an instruction names (R50 to R56); the guard is added for the extended form. The datum of `ST.128` and
`ST.C.128` may be of class `g` or `t`, as R176 lists, though R55 names `v` and `s` for 128-bit operands: DESIGN CHOICE
(log 39). -/
def Instr.uses : Instr → List Use
  | .mov _ d a => vw d 1 ++ vr a 1
  | .movi _ d _ => vw d 1
  | .iadd _ d a b => vw d 1 ++ vr a 1 ++ vrB b 1
  | .isub _ d a b => vw d 1 ++ vr a 1 ++ vrB b 1
  | .imul _ d a b => vw d 1 ++ vr a 1 ++ vrB b 1
  | .imulh _ d a b => vw d 1 ++ vr a 1 ++ vrB b 1
  | .imin _ d a b => vw d 1 ++ vr a 1 ++ vrB b 1
  | .imax _ d a b => vw d 1 ++ vr a 1 ++ vrB b 1
  | .iand _ d a b => vw d 1 ++ vr a 1 ++ vrB b 1
  | .ior _ d a b => vw d 1 ++ vr a 1 ++ vrB b 1
  | .ixor _ d a b => vw d 1 ++ vr a 1 ++ vrB b 1
  | .inot _ d a => vw d 1 ++ vr a 1
  | .shl _ d a b => vw d 1 ++ vr a 1 ++ vrB b 1
  | .shr _ d a b => vw d 1 ++ vr a 1 ++ vrB b 1
  | .sar _ d a b => vw d 1 ++ vr a 1 ++ vrB b 1
  | .lea _ d a b => vw d 2 ++ vr a 2 ++ vrB b 1
  | .fadd _ d a b => vw d 1 ++ vr a 1 ++ vrB b 1
  | .fsub _ d a b => vw d 1 ++ vr a 1 ++ vrB b 1
  | .fmul _ d a b => vw d 1 ++ vr a 1 ++ vrB b 1
  | .fmin _ d a b => vw d 1 ++ vr a 1 ++ vrB b 1
  | .fmax _ d a b => vw d 1 ++ vr a 1 ++ vrB b 1
  | .ftoi _ d a => vw d 1 ++ vr a 1
  | .itof _ d a => vw d 1 ++ vr a 1
  | .frnd _ d a => vw d 1 ++ vr a 1
  | .fcvtF16F32 _ d a => vw d 1 ++ vr a 1
  | .fcvtF32F16 _ d a => vw d 1 ++ vr a 1
  | .fcvtB16F32 _ d a => vw d 1 ++ vr a 1
  | .fcvtF32B16 _ d a => vw d 1 ++ vr a 1
  | .icmpI32 _ _ p a b => pw p ++ vr a 1 ++ vrB b 1
  | .icmpN32 _ _ p a b => pw p ++ vr a 1 ++ vrB b 1
  | .fcmpF32 _ _ p a b => pw p ++ vr a 1 ++ vrB b 1
  | .pand _ p q r => pw p ++ pr q ++ pr r
  | .por _ p q r => pw p ++ pr q ++ pr r
  | .pxor _ p q r => pw p ++ pr q ++ pr r
  | .pnot _ p q => pw p ++ pr q
  | .pmov _ p q => pw p ++ pr q
  | .bra _ _ => []
  | .call _ d _ => vw d 2
  | .ret _ a => vr a 2
  | .brx _ a => vr a 2
  | .exit _ => []
  | .nop _ => []
  | .yieldB _ => []
  | .bkpt _ _ => []
  | .ld32 _ d a _ => vw d 1 ++ vr a 2
  | .ld64 _ d a _ => vw d 2 ++ vr a 2
  | .ld128 _ d a _ => vw d 4 ++ vr a 2
  | .st32 _ d a _ => vr d 1 ++ vr a 2
  | .st64 _ d a _ => vr d 2 ++ vr a 2
  | .st128 _ d a _ => vr d 4 ++ vr a 2
  | .ld32Ro _ d a _ => vw d 1 ++ vr a 2
  | .ld128Ro _ d a _ => vw d 4 ++ vr a 2
  | .shflIdx _ d a b => vw d 1 ++ vr a 1 ++ vrB b 1
  | .shflUp _ d a b => vw d 1 ++ vr a 1 ++ vrB b 1
  | .shflDown _ d a b => vw d 1 ++ vr a 1 ++ vrB b 1
  | .shflXor _ d a b => vw d 1 ++ vr a 1 ++ vrB b 1
  | .qxchH _ d a => vw d 1 ++ vr a 1
  | .qxchV _ d a => vw d 1 ++ vr a 1
  | .qxchD _ d a => vw d 1 ++ vr a 1
  | .ballot _ d q => vw d 1 ++ pr q
  | .movExt x ty d a => x.gu ++ wrt .dst d ty.regs ++ rd .src a ty.regs
  | .moviExt x ty d _ => x.gu ++ wrt .dst d ty.regs
  | .iaddExt x ty _ d a b => x.gu ++ wrt .dst d ty.regs ++ rd .src a ty.regs ++ rdB .src b ty.regs
  | .isubExt x ty _ d a b => x.gu ++ wrt .dst d ty.regs ++ rd .src a ty.regs ++ rdB .src b ty.regs
  | .imulExt x ty _ d a b => x.gu ++ wrt .dst d ty.regs ++ rd .src a ty.regs ++ rdB .src b ty.regs
  | .imulhExt x ty d a b => x.gu ++ wrt .dst d ty.regs ++ rd .src a ty.regs ++ rdB .src b ty.regs
  | .imad x ty _ d a b c => x.gu ++ wrt .dst d ty.regs ++ rd .src a ty.regs ++ rdB .src b ty.regs ++ rd .src c ty.regs
  | .iminExt x ty d a b => x.gu ++ wrt .dst d ty.regs ++ rd .src a ty.regs ++ rdB .src b ty.regs
  | .imaxExt x ty d a b => x.gu ++ wrt .dst d ty.regs ++ rd .src a ty.regs ++ rdB .src b ty.regs
  | .iabs x ty _ d a => x.gu ++ wrt .dst d ty.regs ++ rd .src a ty.regs
  | .ineg x ty _ d a => x.gu ++ wrt .dst d ty.regs ++ rd .src a ty.regs
  | .andExt x ty d a b => x.gu ++ wrt .dst d ty.regs ++ rd .src a ty.regs ++ rdB .src b ty.regs
  | .orExt x ty d a b => x.gu ++ wrt .dst d ty.regs ++ rd .src a ty.regs ++ rdB .src b ty.regs
  | .xorExt x ty d a b => x.gu ++ wrt .dst d ty.regs ++ rd .src a ty.regs ++ rdB .src b ty.regs
  | .notExt x ty d a => x.gu ++ wrt .dst d ty.regs ++ rd .src a ty.regs
  | .shlExt x ty d a b => x.gu ++ wrt .dst d ty.regs ++ rd .src a ty.regs ++ rdB .src b 1
  | .shrExt x ty d a b => x.gu ++ wrt .dst d ty.regs ++ rd .src a ty.regs ++ rdB .src b 1
  | .sarExt x ty d a b => x.gu ++ wrt .dst d ty.regs ++ rd .src a ty.regs ++ rdB .src b 1
  | .bfx x ty d a b => x.gu ++ wrt .dst d ty.regs ++ rd .src a ty.regs ++ rdB .src b 1
  | .bfi x ty d a b c => x.gu ++ wrt .dst d ty.regs ++ rd .src a ty.regs ++ rdB .src b 1 ++ rd .src c ty.regs
  | .popc x ty d a => x.gu ++ wrt .dst d 1 ++ rd .src a ty.regs
  | .clz x ty d a => x.gu ++ wrt .dst d 1 ++ rd .src a ty.regs
  | .brev x ty d a => x.gu ++ wrt .dst d ty.regs ++ rd .src a ty.regs
  | .leaExt x _ _ d a b => x.gu ++ wrt .dst d 2 ++ rd .src a 2 ++ rdB .src b 1
  | .sel x ty d a b q _ => x.gu ++ wrt .dst d ty.regs ++ rd .src a ty.regs ++ rdB .src b ty.regs ++ pr q
  | .faddExt x _ _ d a b => x.gu ++ wrt .dst d 1 ++ rd .src a 1 ++ rdB .src b 1
  | .fsubExt x _ _ d a b => x.gu ++ wrt .dst d 1 ++ rd .src a 1 ++ rdB .src b 1
  | .fmulExt x _ _ d a b => x.gu ++ wrt .dst d 1 ++ rd .src a 1 ++ rdB .src b 1
  | .ffma x _ _ d a b c => x.gu ++ wrt .dst d 1 ++ rd .src a 1 ++ rdB .src b 1 ++ rd .src c 1
  | .fminExt x _ _ d a b => x.gu ++ wrt .dst d 1 ++ rd .src a 1 ++ rdB .src b 1
  | .fmaxExt x _ _ d a b => x.gu ++ wrt .dst d 1 ++ rd .src a 1 ++ rdB .src b 1
  | .frndExt x _ _ d a => x.gu ++ wrt .dst d 1 ++ rd .src a 1
  | .fdiv x _ d a b => x.gu ++ wrt .dst d 1 ++ rd .src a 1 ++ rdB .src b 1
  | .rcp x _ d a => x.gu ++ wrt .dst d 1 ++ rd .src a 1
  | .rsq x _ d a => x.gu ++ wrt .dst d 1 ++ rd .src a 1
  | .sqrt x _ d a => x.gu ++ wrt .dst d 1 ++ rd .src a 1
  | .ex2 x _ d a => x.gu ++ wrt .dst d 1 ++ rd .src a 1
  | .lg2 x _ d a => x.gu ++ wrt .dst d 1 ++ rd .src a 1
  | .fcvt x _ sty _ d a b => x.gu ++ wrt .dst d 1 ++ rd .src a sty.regs ++ (match b with | some b => rdB .src b 1 | none => [])
  | .ftoiExt x dt _ _ d a => x.gu ++ wrt .dst d dt.regs ++ rd .src a 1
  | .itofExt x _ sty _ d a => x.gu ++ wrt .dst d 1 ++ rd .src a sty.regs
  | .icmp x ty _ p a b => x.gu ++ pw p ++ rd .src a ty.regs ++ rdB .src b ty.regs
  | .fcmp x _ _ _ p a b => x.gu ++ pw p ++ rd .src a 1 ++ rdB .src b 1
  | .pandExt x p q _ r _ => x.gu ++ pw p ++ pr q ++ pr r
  | .porExt x p q _ r _ => x.gu ++ pw p ++ pr q ++ pr r
  | .pxorExt x p q _ r _ => x.gu ++ pw p ++ pr q ++ pr r
  | .pnotExt x p q _ => x.gu ++ pw p ++ pr q
  | .pmovExt x p q _ => x.gu ++ pw p ++ pr q
  | .braExt x _ => x.gu
  | .brxExt x a => x.gu ++ rd .lane a 2
  | .callExt x d _ => x.gu ++ vw d 2
  | .retExt x a => x.gu ++ rd .lane a 2
  | .exitExt x => x.gu
  | .yieldExt x => x.gu
  | .nopExt x => x.gu
  | .rcvSet x _ => x.gu
  | .rcvWait x p _ _ => x.gu ++ pw p
  | .barArv x _ _ => x.gu
  | .barWait x _ => x.gu
  | .barSync x _ _ => x.gu
  | .cbar x _ => x.gu
  | .dqpush x b => x.gu ++ rdB .uni b 1
  | .dqpushAll x b => x.gu ++ rdB .uni b 1
  | .dqpop x gd p => x.gu ++ wrt .gee ⟨.g, gd⟩ 1 ++ pw p
  | .mfsr x d sl => x.gu ++ vw d (if sl = 0x0A then 2 else 1)
  | .trap x _ => x.gu
  | .bkptExt x _ => x.gu
  | .waitt x a => x.gu ++ rd .lane a 2
  | .shflIdxExt x ty _ d a b => x.gu ++ vw d ty.regs ++ rd .vee a ty.regs ++ rdB .src b 1
  | .shflUpExt x ty _ d a b => x.gu ++ vw d ty.regs ++ rd .vee a ty.regs ++ rdB .src b 1
  | .shflDownExt x ty _ d a b => x.gu ++ vw d ty.regs ++ rd .vee a ty.regs ++ rdB .src b 1
  | .shflXorExt x ty _ d a b => x.gu ++ vw d ty.regs ++ rd .vee a ty.regs ++ rdB .src b 1
  | .qxchHExt x ty d a => x.gu ++ vw d ty.regs ++ vr a ty.regs
  | .qxchVExt x ty d a => x.gu ++ vw d ty.regs ++ vr a ty.regs
  | .qxchDExt x ty d a => x.gu ++ vw d ty.regs ++ vr a ty.regs
  | .voteAny x _ p q => x.gu ++ pw p ++ pr q
  | .voteAll x _ p q => x.gu ++ pw p ++ pr q
  | .voteEq x _ p q => x.gu ++ pw p ++ pr q
  | .ballotExt x d q => x.gu ++ vw d 1 ++ pr q
  | .matchX x ty d a => x.gu ++ vw d 1 ++ vr a ty.regs
  | .compact x d q => x.gu ++ vw d 1 ++ pr q
  | .gscan x ty _ _ _ d a => x.gu ++ vw d ty.regs ++ vr a ty.regs
  | .gred x ty _ _ d a => x.gu ++ vw d ty.regs ++ vr a ty.regs
  | .ld x _ _ fmt d a off => x.gu ++ (match fmt with | .raw w _ => wrt .dst d w.regs | .elems n ty => eltU d n ty true) ++ rd .addr a 2 ++ offU off
  | .st x _ _ fmt a off c => x.gu ++ (match fmt with | .raw w => rd (if w.bytes ≤ 4 then .src else .dst) c w.regs | .elems n ty _ _ => eltU c n ty false) ++ rd .addr a 2 ++ offU off
  | .ldC x _ _ w _ cap d a _ => x.gu ++ wrt .dst d w.regs ++ rd .addr a 2 ++ cr cap
  | .stC x _ _ w cap a _ c => x.gu ++ rd (if w.bytes ≤ 4 then .src else .dst) c w.regs ++ rd .addr a 2 ++ cr cap
  | .lde x _ _ w d a off rp e => x.gu ++ vw d w.regs ++ rd .addr a 2 ++ offU off ++ rpU rp e ++ escU e
  | .atom x _ _ op ty d a b c rp e => x.gu ++ vw d ty.regs ++ rd .addr a 2 ++ rdB .src b ty.regs ++ (if op = .cas then rd .src c ty.regs else []) ++ rpU rp e ++ escU e
  | .red x _ _ _ ty a b => x.gu ++ rd .addr a 2 ++ rdB .src b ty.regs
  | .atomC x _ _ op ty cap d a b c rp e => x.gu ++ vw d ty.regs ++ rd .addr a 2 ++ rdB .src b ty.regs ++ (if op = .cas then rd .src c ty.regs else []) ++ rpU rp e ++ escU e ++ cr cap
  | .redC x _ _ _ ty cap a b => x.gu ++ rd .addr a 2 ++ rdB .src b ty.regs ++ cr cap
  | .chs x _ d a b rp e => x.gu ++ vw d 2 ++ rd .addr a 2 ++ rdB .src b 1 ++ rpU rp e ++ escU e
  | .fnc x _ _ gd => x.gu ++ wrt .tok gd 1
  | .waitf x _ ga => x.gu ++ rd .tok ga 1
  | .acp x _ gd a b c => x.gu ++ wrt .tok gd 1 ++ rd .uni a 2 ++ rdB .uni b 2 ++ rd .uni c 1
  | .sraff x _ _ _ _ a b c => x.gu ++ rd .addr a 2 ++ rdB .src b 1 ++ rd .src c 1
  | .srind x _ _ _ _ _ a b c => x.gu ++ rd .addr a 2 ++ rdB .addr b 2 ++ rd .src c 1
  | .srprb x _ _ rp => x.gu ++ pw rp
  | .srstop x _ _ => x.gu
  | .gath x _ km1 _ d a b rp e => x.gu ++ vrange d (km1.toNat + 1) 1 true ++ rd .lane a 2 ++ rdB .lane b 2 ++ rpU rp e ++ escU e
  | .scat x _ km1 _ a b c => x.gu ++ vrange c (km1.toNat + 1) 1 false ++ rd .lane a 2 ++ rdB .lane b 2
  | .scatAdd x _ _ km1 _ a b c => x.gu ++ vrange c (km1.toNat + 1) 1 false ++ rd .lane a 2 ++ rdB .lane b 2
  | .capld x cd a _ => x.gu ++ cw cd ++ rd .lane a 2
  | .capst x a _ cs => x.gu ++ cr cs ++ rd .lane a 2
  | .capnar x cd ca b c _ => x.gu ++ cw cd ++ cr ca ++ rdB .lane b 2 ++ rd .lane c 2
  | .caprst x cd => x.gu ++ cw cd
  | .capchk x p ca b c _ => x.gu ++ pw p ++ cr ca ++ rdB .lane b 2 ++ rd .lane c 2
  | .csrr x d _ => x.gu ++ vw d 2
  | .csrw x _ a => x.gu ++ rd .lane a 2
  | .eret x _ => x.gu
  | .capmk x cd b => x.gu ++ cw cd ++ rd .lane b 4
  | .capmkRec x a b _ => x.gu ++ rd .lane a 2 ++ rd .lane b 4
  | .regroup x _ _ => x.gu
  | .launch x gd a _ => x.gu ++ wrt .tok gd 1 ++ rd .uni a 2
  | .evsig x b => x.gu ++ rdB .uni b 1
  | .evwait x a b => x.gu ++ rd .uni a 2 ++ rdB .uni b 1
  | .mzero x md => x.gu ++ tile md true
  | .mrd x d md b => x.gu ++ wrt .dst d 1 ++ tile md false ++ rdB .src b 1
  | .mwr x md a b => x.gu ++ tile md true ++ rd .dst a 1 ++ rdB .src b 1
  | .mwmk x d md => x.gu ++ wrt .dst d 1 ++ tile md false
  | .mldb x _ _ a _ => x.gu ++ rd .uni a 2
  | .mgata x _ a b _ => x.gu ++ rd .uni a 2 ++ rdB .vee b 1
  | .mmq x md _ => x.gu ++ tile md true
  | .mms x md a gs c => x.gu ++ tile md true ++ rd .uni a 2 ++ rd .gee gs 4 ++ rd .uni c 1
  | .mst x _ _ gd a md _ => x.gu ++ wrt .tok gd 1 ++ rd .uni a 2 ++ tile md false
  | .tcut x gd a _ _ => x.gu ++ wrt .tok gd 4 ++ rd .uni a 2
  | .infl x _ a => x.gu ++ rd .uni a 2
  | .attn x _ gd a md _ => x.gu ++ wrt .tok gd 1 ++ rd .uni a 2 ++ tile md true
  | .kvapp x _ _ gd p a b c => x.gu ++ wrt .tok gd 1 ++ pw p ++ rd .lane a 2 ++ rdB .lane b 2 ++ rd .lane c 1
  | .kvtrim x gd p a c => x.gu ++ wrt .tok gd 1 ++ pw p ++ rd .lane a 2 ++ rd .lane c 1
  | .kvqry x d a _ => x.gu ++ wrt .dst d 1 ++ rd .lane a 2
  | .pcAging _ _ => []
  | .pendingForcedDemotion _ _ => []
  | .rcvTimeout _ _ _ => []
  | .scoreboardWriteback _ => []
  | .waitfRelease _ _ => []
  | .waittRelease _ _ => []
  | .evwaitRelease _ _ => []
  | .fncTokenWrite _ => []
  | .teamAdmission _ => []
  | .bankConversion _ _ => []
  | .reply _ _ => []
  | .refill _ => []
  | .homeRequest _ => []
  | .storeCompletion _ => []
  | .tableWalk _ _ _ => []
  | .escortAccept _ _ => []
  | .escortDrop _ _ => []
  | .backoffExpiry _ _ => []
  | .hop _ => []
  | .remoteEscortTimeout _ => []
  | .localEscortTimeout _ _ => []
  | .streamElementFetch _ _ _ _ => []
  | .probePass _ => []
  | .acpCompletion _ => []
  | .scatCompletion _ => []
  | .matrixOpCompletion _ => []
  | .mstCompletion _ => []
  | .attnCompletion _ => []
  | .kvtrimFramePush _ => []
  | .conjugatorExpiry _ => []
  | .conjugateGroupFormation _ => []
  | .integrityError _ _ _ => []
  | .unconsumedError _ _ _ => []
  | .correctedError _ _ => []
  | .faultRecordWrite _ => []
  | .faultQueueSetup _ _ _ => []
  | .fqheadWrite _ _ => []
  | .retry _ _ => []
  | .skip _ _ => []
  | .kill _ _ => []
  | .translationInvalidate _ _ => []
  | .invalidateCompletion _ => []
  | .preemptionRequest _ => []
  | .stopTime _ => []
  | .saveDone _ => []
  | .restore _ _ => []
  | .lqnotify _ _ _ => []
  | .lqctlWrite _ _ _ => []
  | .launchRecordTake _ => []
  | .launchWaitCheck _ => []
  | .dispatchDecision => []
  | .launchCompletion _ => []
  | .eventSignal _ _ => []
  | .fcoresWrite _ _ _ => []
  | .sliceEnd => []
  | .kvpush _ _ _ _ => []
  | .kvrclWrite _ _ => []
  | .errorCounterWrite _ _ => []
  | .registerWrite _ _ _ => []
  | .perstDeassert => []
  | .firmwareCheck _ _ => []
  | .pllLock _ _ => []
  | .hbmTraining _ _ => []
  | .memoryZeroing _ _ => []
  | .gtcStart _ _ => []
  | .configurationRequest => []
  | .bar2Read _ _ _ _ => []
  | .bar2Write _ _ _ _ => []
  | .lockInterface _ _ => []
  | .startInterface _ _ => []
  | .stopInterface _ _ => []
  | .functionLevelReset _ => []
  | .ideIntegrityFailure _ => []
  | .lockedRegisterWrite _ _ _ => []
  | .getVersion => []
  | .getCapabilities => []
  | .negotiateAlgorithms => []
  | .getDigests => []
  | .getCertificate => []
  | .challenge => []
  | .getMeasurements _ => []
  | .keyExchange => []
  | .finish _ => []
  | .heartbeat _ => []
  | .keyUpdate _ => []
  | .endSession _ => []
  | .l2waysWrite _ _ => []
  | .migExport _ => []
  | .migImport _ => []
  | .migConfirm _ => []
  | .migRelease _ => []
  | .migClear _ => []
  | .migrationExpiry _ => []
  | .migrationDeadline _ => []
  | .fabricIngressRequest _ _ _ _ _ _ _ => []
  | .remoteReply _ _ _ _ => []
  | .portDown _ => []
  | .timeSync _ _ => []
  | .laneSample _ _ => []
  | .quietPoint _ => []
  | .forcedIdleGap _ => []
  | .dvfsWindow _ _ => []
  | .thermalThrottle => []
  | .thermalTrip => []
  | .perstAssert => []
  | .hostLinkDown _ => []
  | .hostLinkUp _ => []
  | .portUp _ => []
  | .firmwareActivation => []

/-- The literal of a 32-bit operand has a zero upper half (R49). -/
def baseLit32 : BaseB → Bool
  | .reg _ => true
  | .lit w => w.toNat < 2 ^ 32

/-- A row index of `MGATA` is a register (R267). -/
def isReg : OpdB → Bool
  | .reg _ => true
  | .lit _ => false

def litOk (wide : Bool) : OpdB → Bool
  | .reg _ => true
  | .lit w => wide || w.toNat < 2 ^ 32

/-- A literal branch offset is a multiple of 4 (R67). -/
def offOk14 : BaseOff → Bool
  | .short _ => true
  | .lit w => w.toNat % 4 = 0

def offOk30 : ExtOff → Bool
  | .short _ => true
  | .lit w => w.toNat % 4 = 0

/-- Conditions of ICMP: 0 to 5 (R67, R144). -/
def Cond.isInt : Cond → Bool
  | .num => false
  | .nan => false
  | _ => true

/-- Scopes G to Y (R173). -/
def Scope.ordered : Scope → Bool
  | .l => false
  | .q => false
  | _ => true

/-- Scope present exactly with an order (R173). -/
def MOrd.scopeOk (o : MOrd) : Bool := if o.acq || o.rel then o.scope.ordered else o.scope = .l
def MOrd.okLoad (o : MOrd) : Bool := !o.rel && o.scopeOk
def MOrd.okStore (o : MOrd) : Bool := !o.acq && o.scopeOk
def MOrd.okAtom (o : MOrd) : Bool := o.scopeOk
def MOrd.okRemote (o : MOrd) : Bool := !(o.acq || o.rel) || o.scope = .y

/-- Types each atomic operation accepts (R192). -/
def aopOk (op : Aop) (ty : Ty) : Bool :=
  match op with
  | .add => ty.isInt
  | .min => ty.isInt
  | .max => ty.isInt
  | .fadd => ty = .f32
  | _ => ty.isNat

/-- Types each combining operation accepts (R167). -/
def opnOk (op : Opn) (ty : Ty) : Bool :=
  match op with
  | .add => ty.isInt || ty = .f32
  | .min => ty.isInt || ty = .f32
  | .max => ty.isInt || ty = .f32
  | _ => ty.isNat

/-- An escort set of at most 8 registers that the destination does not overlap (R56, R180); without one,
its base and the refusal predicate are zero (R53, R172). -/
def escOk (e : EscSet) (rp : BitVec 3) (d : BitVec 7) (cnt : Nat) : Bool :=
  if e.cnt = 0 then e.base = 0 && rp = 0
  else e.cnt.toNat ≤ 8 && (d.toNat + cnt ≤ e.base.toNat || e.base.toNat + e.cnt.toNat ≤ d.toNat)

/-- The conversions FCVT accepts, with their modifiers and operand b (R142, R143). -/
def fcvtOk (dt sty : Ty) (m : CvMod) (b : Option OpdB) : Bool :=
  let wideF := dt.isFp || dt.isFp8
  let pair := (wideF && (sty.isFp || sty.isFp8) && dt ≠ sty) || (dt.isFp && sty = .f64) ||
    (dt = .f32 && sty.isZb) || (dt.isZb && sty = .f32)
  let inexact := dt = .f16 || dt = .b16 || dt.isFp8 || dt.isZb || (dt = .f32 && sty = .f64)
  pair && (!m.ftz || dt.isFp) && (!m.sat || dt.isFp8) && (!m.sr || (inexact && m.rm = .rn)) &&
    (match b with
     | some b => dt.isZb && litOk false b
     | none => !dt.isZb)

/-- The control-register numbers of R233. -/
def csrKnown (n : BitVec 12) : Bool :=
  let k := n.toNat
  k ≤ 3 || (0x10 ≤ k && k ≤ 0x16) || (0x20 ≤ k && k ≤ 0x24) || k = 0x30 || (0x40 ≤ k && k ≤ 0x43) ||
    (0x50 ≤ k && k ≤ 0x55)

/-- The classes an operand accepts whoever issues it (R51). A port is a 32-bit source (R133). -/
def Use.clsOk (u : Use) : Bool :=
  match u.kind with
  | .src => u.cls ≠ .f || u.cnt = 1
  | .dst => u.cls ≠ .f
  | .addr => u.cls ≠ .f
  | .lane => u.cls = .v || u.cls = .g
  | .uni => u.cls ≠ .f
  | .tok => u.cls = .v || u.cls = .g
  | .vee => u.cls = .v
  | .gee => u.cls = .g
  | _ => true

/-- Class and alignment of one operand (R51, R55). -/
def Use.ok (u : Use) : Bool := u.clsOk && u.no % u.al = 0

/-- Conditions of each row beyond the classes and alignment of its operands. -/
def Instr.fieldsOk : Instr → Bool
  | .mov _ _ _ => true
  | .movi _ _ imm => imm.toNat < 2 ^ 32
  | .iadd _ _ _ b => baseLit32 b
  | .isub _ _ _ b => baseLit32 b
  | .imul _ _ _ b => baseLit32 b
  | .imulh _ _ _ b => baseLit32 b
  | .imin _ _ _ b => baseLit32 b
  | .imax _ _ _ b => baseLit32 b
  | .iand _ _ _ b => baseLit32 b
  | .ior _ _ _ b => baseLit32 b
  | .ixor _ _ _ b => baseLit32 b
  | .inot _ _ _ => true
  | .shl _ _ _ b => baseLit32 b
  | .shr _ _ _ b => baseLit32 b
  | .sar _ _ _ b => baseLit32 b
  | .lea _ _ _ _ => true
  | .fadd _ _ _ b => baseLit32 b
  | .fsub _ _ _ b => baseLit32 b
  | .fmul _ _ _ b => baseLit32 b
  | .fmin _ _ _ b => baseLit32 b
  | .fmax _ _ _ b => baseLit32 b
  | .ftoi _ _ _ => true
  | .itof _ _ _ => true
  | .frnd _ _ _ => true
  | .fcvtF16F32 _ _ _ => true
  | .fcvtF32F16 _ _ _ => true
  | .fcvtB16F32 _ _ _ => true
  | .fcvtF32B16 _ _ _ => true
  | .icmpI32 _ cc _ _ b => baseLit32 b && cc.isInt
  | .icmpN32 _ cc _ _ b => baseLit32 b && cc.isInt
  | .fcmpF32 _ _ _ _ b => baseLit32 b
  | .pand _ _ _ _ => true
  | .por _ _ _ _ => true
  | .pxor _ _ _ _ => true
  | .pnot _ _ _ => true
  | .pmov _ _ _ => true
  | .bra _ off => offOk14 off
  | .call _ _ off => offOk14 off
  | .ret _ _ => true
  | .brx _ _ => true
  | .exit _ => true
  | .nop _ => true
  | .yieldB _ => true
  | .bkpt _ _ => true
  | .ld32 _ _ _ _ => true
  | .ld64 _ _ _ _ => true
  | .ld128 _ _ _ _ => true
  | .st32 _ _ _ _ => true
  | .st64 _ _ _ _ => true
  | .st128 _ _ _ _ => true
  | .ld32Ro _ _ _ _ => true
  | .ld128Ro _ _ _ _ => true
  | .shflIdx _ _ _ b => baseLit32 b
  | .shflUp _ _ _ b => baseLit32 b
  | .shflDown _ _ _ b => baseLit32 b
  | .shflXor _ _ _ b => baseLit32 b
  | .qxchH _ _ _ => true
  | .qxchV _ _ _ => true
  | .qxchD _ _ _ => true
  | .ballot _ _ _ => true
  | .movExt _ ty _ _ => ty.isInt
  | .moviExt _ ty _ imm => ty.isInt && (ty.wide || imm.toNat < 2 ^ 32)
  | .iaddExt _ ty _ _ _ b => ty.isInt && litOk ty.wide b
  | .isubExt _ ty _ _ _ b => ty.isInt && litOk ty.wide b
  | .imulExt _ ty _ _ _ b => ty.isInt && litOk ty.wide b
  | .imulhExt _ ty _ _ b => ty.isInt && litOk ty.wide b
  | .imad _ ty _ _ _ b _ => ty.isInt && litOk ty.wide b
  | .iminExt _ ty _ _ b => ty.isInt && litOk ty.wide b
  | .imaxExt _ ty _ _ b => ty.isInt && litOk ty.wide b
  | .iabs _ ty _ _ _ => ty.isInt && ty.signed
  | .ineg _ ty _ _ _ => ty.isInt
  | .andExt _ ty _ _ b => ty.isNat && litOk ty.wide b
  | .orExt _ ty _ _ b => ty.isNat && litOk ty.wide b
  | .xorExt _ ty _ _ b => ty.isNat && litOk ty.wide b
  | .notExt _ ty _ _ => ty.isNat
  | .shlExt _ ty _ _ b => ty.isNat && litOk false b
  | .shrExt _ ty _ _ b => ty.isNat && litOk false b
  | .sarExt _ ty _ _ b => ty.isInt && ty.signed && litOk false b
  | .bfx _ ty _ _ b => ty.isInt && litOk false b
  | .bfi _ ty _ _ b _ => ty.isNat && litOk false b
  | .popc _ ty _ _ => ty.isNat
  | .clz _ ty _ _ => ty.isNat
  | .brev _ ty _ _ => ty.isNat
  | .leaExt _ ty _ _ _ _ => (ty = .i64 || ty = .n64)
  | .sel _ ty _ _ b _ _ => ty.isInt && litOk ty.wide b
  | .faddExt _ ty _ _ _ b => ty.isFp && litOk false b
  | .fsubExt _ ty _ _ _ b => ty.isFp && litOk false b
  | .fmulExt _ ty _ _ _ b => ty.isFp && litOk false b
  | .ffma _ ty _ _ _ b _ => ty.isFp && litOk false b
  | .fminExt _ ty _ _ _ b => ty.isFp && litOk false b
  | .fmaxExt _ ty _ _ _ b => ty.isFp && litOk false b
  | .frndExt _ ty _ _ _ => ty.isFp
  | .fdiv _ _ _ _ b => litOk false b
  | .rcp _ _ _ _ => true
  | .rsq _ _ _ _ => true
  | .sqrt _ _ _ _ => true
  | .ex2 _ _ _ _ => true
  | .lg2 _ _ _ _ => true
  | .fcvt _ dt sty m _ _ b => fcvtOk dt sty m b
  | .ftoiExt _ dt sty _ _ _ => dt.isInt && sty.isFp
  | .itofExt _ dt sty _ _ _ => dt.isFp && sty.isInt
  | .icmp _ ty cc _ _ b => ty.isInt && litOk ty.wide b && cc.isInt
  | .fcmp _ ty _ _ _ _ b => ty.isFp && litOk false b
  | .pandExt _ _ _ _ _ _ => true
  | .porExt _ _ _ _ _ _ => true
  | .pxorExt _ _ _ _ _ _ => true
  | .pnotExt _ _ _ _ => true
  | .pmovExt _ _ _ _ => true
  | .braExt _ off => offOk30 off
  | .brxExt _ _ => true
  | .callExt _ _ off => offOk30 off
  | .retExt _ _ => true
  | .exitExt _ => true
  | .yieldExt _ => true
  | .nopExt _ => true
  | .rcvSet _ _ => true
  | .rcvWait _ _ _ _ => true
  | .barArv _ _ k => k.toNat ≤ 33
  | .barWait _ _ => true
  | .barSync _ _ k => k.toNat ≤ 33
  | .cbar _ _ => true
  | .dqpush _ b => litOk false b
  | .dqpushAll _ b => litOk false b
  | .dqpop _ _ _ => true
  | .mfsr _ _ sl => sl.toNat ≤ 0x0D
  | .trap _ _ => true
  | .bkptExt _ _ => true
  | .waitt _ _ => true
  | .shflIdxExt _ ty seg _ _ b => (ty = .i32 || ty = .i64) && seg.toNat ≤ 4 && litOk false b
  | .shflUpExt _ ty seg _ _ b => (ty = .i32 || ty = .i64) && seg.toNat ≤ 4 && litOk false b
  | .shflDownExt _ ty seg _ _ b => (ty = .i32 || ty = .i64) && seg.toNat ≤ 4 && litOk false b
  | .shflXorExt _ ty seg _ _ b => (ty = .i32 || ty = .i64) && seg.toNat ≤ 4 && litOk false b
  | .qxchHExt _ ty _ _ => (ty = .i32 || ty = .i64)
  | .qxchVExt _ ty _ _ => (ty = .i32 || ty = .i64)
  | .qxchDExt _ ty _ _ => (ty = .i32 || ty = .i64)
  | .voteAny _ seg _ _ => seg.toNat ≤ 4
  | .voteAll _ seg _ _ => seg.toNat ≤ 4
  | .voteEq _ seg _ _ => seg.toNat ≤ 4
  | .ballotExt _ _ _ => true
  | .matchX _ ty _ _ => (ty = .i32 || ty = .i64)
  | .compact _ _ _ => true
  | .gscan _ ty opn _ seg _ _ => seg.toNat ≤ 4 && opnOk opn ty
  | .gred _ ty opn seg _ _ => seg.toNat ≤ 4 && opnOk opn ty
  | .ld _ _ o fmt d _ _ => o.okLoad && (match fmt with | .raw w sx => (!sx || w.bytes ≤ 2) && (w ≠ .w128 || d.cls = .v) | .elems _ ty => ty.isFp)
  | .st _ _ o fmt _ _ _ => o.okStore && (match fmt with | .raw _ => true | .elems _ ty rm sr => ty.isFp && (!sr || rm = .rn))
  | .ldC _ _ o w sx _ d _ _ => o.okLoad && o.okRemote && (!sx || w.bytes ≤ 2) && (w ≠ .w128 || d.cls = .v)
  | .stC _ _ o _ _ _ _ _ => o.okStore && o.okRemote
  | .lde _ _ o w d _ _ rp e => o.okLoad && 4 ≤ w.bytes && escOk e rp d w.regs
  | .atom _ _ o op ty d _ b c rp e => o.okAtom && aopOk op ty && litOk ty.wide b && (op = .cas || c = ⟨.v, 0⟩) && escOk e rp d ty.regs
  | .red _ _ o op ty _ b => o.okStore && op ≠ .exch && op ≠ .cas && aopOk op ty && litOk ty.wide b
  | .atomC _ _ o op ty _ d _ b c rp e => o.okAtom && o.okRemote && aopOk op ty && litOk ty.wide b && (op = .cas || c = ⟨.v, 0⟩) && escOk e rp d ty.regs
  | .redC _ _ o op ty _ _ b => o.okStore && o.okRemote && op ≠ .exch && op ≠ .cas && aopOk op ty && litOk ty.wide b
  | .chs _ _ d _ b rp e => litOk false b && 2 ≤ e.cnt.toNat && escOk e rp d 2
  | .fnc _ _ sc _ => sc.ordered
  | .waitf _ _ _ => true
  | .acp _ _ _ _ _ _ => true
  | .sraff _ _ _ _ _ _ b _ => litOk false b
  | .srind _ _ _ _ _ _ _ _ _ => true
  | .srprb _ _ _ _ => true
  | .srstop _ _ _ => true
  | .gath _ _ km1 _ d _ _ rp e => escOk e rp d (km1.toNat + 1)
  | .scat _ _ _ _ _ _ _ => true
  | .scatAdd _ _ ty _ _ _ _ _ => (ty = .n32 || ty = .f32)
  | .capld _ _ _ _ => true
  | .capst _ _ _ _ => true
  | .capnar _ _ _ _ _ _ => true
  | .caprst _ _ => true
  | .capchk _ _ _ _ _ _ => true
  | .csrr _ _ n => csrKnown n
  | .csrw _ n _ => csrKnown n
  | .eret x _ => x.pg = 7 && !x.pn
  | .capmk _ _ _ => true
  | .capmkRec _ _ _ w => w.toNat ≤ 64
  | .regroup _ _ _ => true
  | .launch _ _ _ _ => true
  | .evsig _ b => litOk false b
  | .evwait _ _ b => litOk false b
  | .mzero _ _ => true
  | .mrd _ _ _ b => litOk false b
  | .mwr _ _ _ b => litOk false b
  | .mwmk _ _ _ => true
  | .mldb _ ty _ _ _ => ty.isOperand
  | .mgata _ ty _ b _ => ty.isOperand && isReg b
  | .mmq _ _ _ => true
  | .mms _ _ _ _ _ => true
  | .mst _ ty m _ _ _ _ => (ty.isOperand || ty = .f32) && (!m.sr || m.rm = .rn) && (!m.sat || ty.isFp8)
  | .tcut _ _ _ bud sc => sc.toNat ≠ 3 && 8 * 8 * 2 ^ sc.toNat ≤ bud.toNat && bud.toNat ≤ 256
  | .infl _ _ _ => true
  | .attn _ _ _ _ _ _ => true
  | .kvapp _ _ _ _ _ _ _ _ => true
  | .kvtrim _ _ _ _ _ => true
  | .kvqry _ _ _ sl => sl.toNat ≤ 5
  | .pcAging _ _ => true
  | .pendingForcedDemotion _ _ => true
  | .rcvTimeout _ _ _ => true
  | .scoreboardWriteback _ => true
  | .waitfRelease _ _ => true
  | .waittRelease _ _ => true
  | .evwaitRelease _ _ => true
  | .fncTokenWrite _ => true
  | .teamAdmission _ => true
  | .bankConversion _ _ => true
  | .reply _ _ => true
  | .refill _ => true
  | .homeRequest _ => true
  | .storeCompletion _ => true
  | .tableWalk _ _ _ => true
  | .escortAccept _ _ => true
  | .escortDrop _ _ => true
  | .backoffExpiry _ _ => true
  | .hop _ => true
  | .remoteEscortTimeout _ => true
  | .localEscortTimeout _ _ => true
  | .streamElementFetch _ _ _ _ => true
  | .probePass _ => true
  | .acpCompletion _ => true
  | .scatCompletion _ => true
  | .matrixOpCompletion _ => true
  | .mstCompletion _ => true
  | .attnCompletion _ => true
  | .kvtrimFramePush _ => true
  | .conjugatorExpiry _ => true
  | .conjugateGroupFormation _ => true
  | .integrityError _ _ _ => true
  | .unconsumedError _ _ _ => true
  | .correctedError _ _ => true
  | .faultRecordWrite _ => true
  | .faultQueueSetup _ _ _ => true
  | .fqheadWrite _ _ => true
  | .retry _ _ => true
  | .skip _ _ => true
  | .kill _ _ => true
  | .translationInvalidate _ _ => true
  | .invalidateCompletion _ => true
  | .preemptionRequest _ => true
  | .stopTime _ => true
  | .saveDone _ => true
  | .restore _ _ => true
  | .lqnotify _ _ _ => true
  | .lqctlWrite _ _ _ => true
  | .launchRecordTake _ => true
  | .launchWaitCheck _ => true
  | .dispatchDecision => true
  | .launchCompletion _ => true
  | .eventSignal _ _ => true
  | .fcoresWrite _ _ _ => true
  | .sliceEnd => true
  | .kvpush _ _ _ _ => true
  | .kvrclWrite _ _ => true
  | .errorCounterWrite _ _ => true
  | .registerWrite _ _ _ => true
  | .perstDeassert => true
  | .firmwareCheck _ _ => true
  | .pllLock _ _ => true
  | .hbmTraining _ _ => true
  | .memoryZeroing _ _ => true
  | .gtcStart _ _ => true
  | .configurationRequest => true
  | .bar2Read _ _ _ _ => true
  | .bar2Write _ _ _ _ => true
  | .lockInterface _ _ => true
  | .startInterface _ _ => true
  | .stopInterface _ _ => true
  | .functionLevelReset _ => true
  | .ideIntegrityFailure _ => true
  | .lockedRegisterWrite _ _ _ => true
  | .getVersion => true
  | .getCapabilities => true
  | .negotiateAlgorithms => true
  | .getDigests => true
  | .getCertificate => true
  | .challenge => true
  | .getMeasurements _ => true
  | .keyExchange => true
  | .finish _ => true
  | .heartbeat _ => true
  | .keyUpdate _ => true
  | .endSession _ => true
  | .l2waysWrite _ _ => true
  | .migExport _ => true
  | .migImport _ => true
  | .migConfirm _ => true
  | .migRelease _ => true
  | .migClear _ => true
  | .migrationExpiry _ => true
  | .migrationDeadline _ => true
  | .fabricIngressRequest _ _ _ _ _ _ _ => true
  | .remoteReply _ _ _ _ => true
  | .portDown _ => true
  | .timeSync _ _ => true
  | .laneSample _ _ => true
  | .quietPoint _ => true
  | .forcedIdleGap _ => true
  | .dvfsWindow _ _ => true
  | .thermalThrottle => true
  | .thermalTrip => true
  | .perstAssert => true
  | .hostLinkDown _ => true
  | .hostLinkUp _ => true
  | .portUp _ => true
  | .firmwareActivation => true

/-- A row of R67 or R68, not a step of the device. -/
def Instr.isEvent : Instr → Bool
  | .mov _ _ _ => false
  | .movi _ _ _ => false
  | .iadd _ _ _ _ => false
  | .isub _ _ _ _ => false
  | .imul _ _ _ _ => false
  | .imulh _ _ _ _ => false
  | .imin _ _ _ _ => false
  | .imax _ _ _ _ => false
  | .iand _ _ _ _ => false
  | .ior _ _ _ _ => false
  | .ixor _ _ _ _ => false
  | .inot _ _ _ => false
  | .shl _ _ _ _ => false
  | .shr _ _ _ _ => false
  | .sar _ _ _ _ => false
  | .lea _ _ _ _ => false
  | .fadd _ _ _ _ => false
  | .fsub _ _ _ _ => false
  | .fmul _ _ _ _ => false
  | .fmin _ _ _ _ => false
  | .fmax _ _ _ _ => false
  | .ftoi _ _ _ => false
  | .itof _ _ _ => false
  | .frnd _ _ _ => false
  | .fcvtF16F32 _ _ _ => false
  | .fcvtF32F16 _ _ _ => false
  | .fcvtB16F32 _ _ _ => false
  | .fcvtF32B16 _ _ _ => false
  | .icmpI32 _ _ _ _ _ => false
  | .icmpN32 _ _ _ _ _ => false
  | .fcmpF32 _ _ _ _ _ => false
  | .pand _ _ _ _ => false
  | .por _ _ _ _ => false
  | .pxor _ _ _ _ => false
  | .pnot _ _ _ => false
  | .pmov _ _ _ => false
  | .bra _ _ => false
  | .call _ _ _ => false
  | .ret _ _ => false
  | .brx _ _ => false
  | .exit _ => false
  | .nop _ => false
  | .yieldB _ => false
  | .bkpt _ _ => false
  | .ld32 _ _ _ _ => false
  | .ld64 _ _ _ _ => false
  | .ld128 _ _ _ _ => false
  | .st32 _ _ _ _ => false
  | .st64 _ _ _ _ => false
  | .st128 _ _ _ _ => false
  | .ld32Ro _ _ _ _ => false
  | .ld128Ro _ _ _ _ => false
  | .shflIdx _ _ _ _ => false
  | .shflUp _ _ _ _ => false
  | .shflDown _ _ _ _ => false
  | .shflXor _ _ _ _ => false
  | .qxchH _ _ _ => false
  | .qxchV _ _ _ => false
  | .qxchD _ _ _ => false
  | .ballot _ _ _ => false
  | .movExt _ _ _ _ => false
  | .moviExt _ _ _ _ => false
  | .iaddExt _ _ _ _ _ _ => false
  | .isubExt _ _ _ _ _ _ => false
  | .imulExt _ _ _ _ _ _ => false
  | .imulhExt _ _ _ _ _ => false
  | .imad _ _ _ _ _ _ _ => false
  | .iminExt _ _ _ _ _ => false
  | .imaxExt _ _ _ _ _ => false
  | .iabs _ _ _ _ _ => false
  | .ineg _ _ _ _ _ => false
  | .andExt _ _ _ _ _ => false
  | .orExt _ _ _ _ _ => false
  | .xorExt _ _ _ _ _ => false
  | .notExt _ _ _ _ => false
  | .shlExt _ _ _ _ _ => false
  | .shrExt _ _ _ _ _ => false
  | .sarExt _ _ _ _ _ => false
  | .bfx _ _ _ _ _ => false
  | .bfi _ _ _ _ _ _ => false
  | .popc _ _ _ _ => false
  | .clz _ _ _ _ => false
  | .brev _ _ _ _ => false
  | .leaExt _ _ _ _ _ _ => false
  | .sel _ _ _ _ _ _ _ => false
  | .faddExt _ _ _ _ _ _ => false
  | .fsubExt _ _ _ _ _ _ => false
  | .fmulExt _ _ _ _ _ _ => false
  | .ffma _ _ _ _ _ _ _ => false
  | .fminExt _ _ _ _ _ _ => false
  | .fmaxExt _ _ _ _ _ _ => false
  | .frndExt _ _ _ _ _ => false
  | .fdiv _ _ _ _ _ => false
  | .rcp _ _ _ _ => false
  | .rsq _ _ _ _ => false
  | .sqrt _ _ _ _ => false
  | .ex2 _ _ _ _ => false
  | .lg2 _ _ _ _ => false
  | .fcvt _ _ _ _ _ _ _ => false
  | .ftoiExt _ _ _ _ _ _ => false
  | .itofExt _ _ _ _ _ _ => false
  | .icmp _ _ _ _ _ _ => false
  | .fcmp _ _ _ _ _ _ _ => false
  | .pandExt _ _ _ _ _ _ => false
  | .porExt _ _ _ _ _ _ => false
  | .pxorExt _ _ _ _ _ _ => false
  | .pnotExt _ _ _ _ => false
  | .pmovExt _ _ _ _ => false
  | .braExt _ _ => false
  | .brxExt _ _ => false
  | .callExt _ _ _ => false
  | .retExt _ _ => false
  | .exitExt _ => false
  | .yieldExt _ => false
  | .nopExt _ => false
  | .rcvSet _ _ => false
  | .rcvWait _ _ _ _ => false
  | .barArv _ _ _ => false
  | .barWait _ _ => false
  | .barSync _ _ _ => false
  | .cbar _ _ => false
  | .dqpush _ _ => false
  | .dqpushAll _ _ => false
  | .dqpop _ _ _ => false
  | .mfsr _ _ _ => false
  | .trap _ _ => false
  | .bkptExt _ _ => false
  | .waitt _ _ => false
  | .shflIdxExt _ _ _ _ _ _ => false
  | .shflUpExt _ _ _ _ _ _ => false
  | .shflDownExt _ _ _ _ _ _ => false
  | .shflXorExt _ _ _ _ _ _ => false
  | .qxchHExt _ _ _ _ => false
  | .qxchVExt _ _ _ _ => false
  | .qxchDExt _ _ _ _ => false
  | .voteAny _ _ _ _ => false
  | .voteAll _ _ _ _ => false
  | .voteEq _ _ _ _ => false
  | .ballotExt _ _ _ => false
  | .matchX _ _ _ _ => false
  | .compact _ _ _ => false
  | .gscan _ _ _ _ _ _ _ => false
  | .gred _ _ _ _ _ _ => false
  | .ld _ _ _ _ _ _ _ => false
  | .st _ _ _ _ _ _ _ => false
  | .ldC _ _ _ _ _ _ _ _ _ => false
  | .stC _ _ _ _ _ _ _ _ => false
  | .lde _ _ _ _ _ _ _ _ _ => false
  | .atom _ _ _ _ _ _ _ _ _ _ _ => false
  | .red _ _ _ _ _ _ _ => false
  | .atomC _ _ _ _ _ _ _ _ _ _ _ _ => false
  | .redC _ _ _ _ _ _ _ _ => false
  | .chs _ _ _ _ _ _ _ => false
  | .fnc _ _ _ _ => false
  | .waitf _ _ _ => false
  | .acp _ _ _ _ _ _ => false
  | .sraff _ _ _ _ _ _ _ _ => false
  | .srind _ _ _ _ _ _ _ _ _ => false
  | .srprb _ _ _ _ => false
  | .srstop _ _ _ => false
  | .gath _ _ _ _ _ _ _ _ _ => false
  | .scat _ _ _ _ _ _ _ => false
  | .scatAdd _ _ _ _ _ _ _ _ => false
  | .capld _ _ _ _ => false
  | .capst _ _ _ _ => false
  | .capnar _ _ _ _ _ _ => false
  | .caprst _ _ => false
  | .capchk _ _ _ _ _ _ => false
  | .csrr _ _ _ => false
  | .csrw _ _ _ => false
  | .eret _ _ => false
  | .capmk _ _ _ => false
  | .capmkRec _ _ _ _ => false
  | .regroup _ _ _ => false
  | .launch _ _ _ _ => false
  | .evsig _ _ => false
  | .evwait _ _ _ => false
  | .mzero _ _ => false
  | .mrd _ _ _ _ => false
  | .mwr _ _ _ _ => false
  | .mwmk _ _ _ => false
  | .mldb _ _ _ _ _ => false
  | .mgata _ _ _ _ _ => false
  | .mmq _ _ _ => false
  | .mms _ _ _ _ _ => false
  | .mst _ _ _ _ _ _ _ => false
  | .tcut _ _ _ _ _ => false
  | .infl _ _ _ => false
  | .attn _ _ _ _ _ _ => false
  | .kvapp _ _ _ _ _ _ _ _ => false
  | .kvtrim _ _ _ _ _ => false
  | .kvqry _ _ _ _ => false
  | .pcAging _ _ => true
  | .pendingForcedDemotion _ _ => true
  | .rcvTimeout _ _ _ => true
  | .scoreboardWriteback _ => true
  | .waitfRelease _ _ => true
  | .waittRelease _ _ => true
  | .evwaitRelease _ _ => true
  | .fncTokenWrite _ => true
  | .teamAdmission _ => true
  | .bankConversion _ _ => true
  | .reply _ _ => true
  | .refill _ => true
  | .homeRequest _ => true
  | .storeCompletion _ => true
  | .tableWalk _ _ _ => true
  | .escortAccept _ _ => true
  | .escortDrop _ _ => true
  | .backoffExpiry _ _ => true
  | .hop _ => true
  | .remoteEscortTimeout _ => true
  | .localEscortTimeout _ _ => true
  | .streamElementFetch _ _ _ _ => true
  | .probePass _ => true
  | .acpCompletion _ => true
  | .scatCompletion _ => true
  | .matrixOpCompletion _ => true
  | .mstCompletion _ => true
  | .attnCompletion _ => true
  | .kvtrimFramePush _ => true
  | .conjugatorExpiry _ => true
  | .conjugateGroupFormation _ => true
  | .integrityError _ _ _ => true
  | .unconsumedError _ _ _ => true
  | .correctedError _ _ => true
  | .faultRecordWrite _ => true
  | .faultQueueSetup _ _ _ => true
  | .fqheadWrite _ _ => true
  | .retry _ _ => true
  | .skip _ _ => true
  | .kill _ _ => true
  | .translationInvalidate _ _ => true
  | .invalidateCompletion _ => true
  | .preemptionRequest _ => true
  | .stopTime _ => true
  | .saveDone _ => true
  | .restore _ _ => true
  | .lqnotify _ _ _ => true
  | .lqctlWrite _ _ _ => true
  | .launchRecordTake _ => true
  | .launchWaitCheck _ => true
  | .dispatchDecision => true
  | .launchCompletion _ => true
  | .eventSignal _ _ => true
  | .fcoresWrite _ _ _ => true
  | .sliceEnd => true
  | .kvpush _ _ _ _ => true
  | .kvrclWrite _ _ => true
  | .errorCounterWrite _ _ => true
  | .registerWrite _ _ _ => true
  | .perstDeassert => true
  | .firmwareCheck _ _ => true
  | .pllLock _ _ => true
  | .hbmTraining _ _ => true
  | .memoryZeroing _ _ => true
  | .gtcStart _ _ => true
  | .configurationRequest => true
  | .bar2Read _ _ _ _ => true
  | .bar2Write _ _ _ _ => true
  | .lockInterface _ _ => true
  | .startInterface _ _ => true
  | .stopInterface _ _ => true
  | .functionLevelReset _ => true
  | .ideIntegrityFailure _ => true
  | .lockedRegisterWrite _ _ _ => true
  | .getVersion => true
  | .getCapabilities => true
  | .negotiateAlgorithms => true
  | .getDigests => true
  | .getCertificate => true
  | .challenge => true
  | .getMeasurements _ => true
  | .keyExchange => true
  | .finish _ => true
  | .heartbeat _ => true
  | .keyUpdate _ => true
  | .endSession _ => true
  | .l2waysWrite _ _ => true
  | .migExport _ => true
  | .migImport _ => true
  | .migConfirm _ => true
  | .migRelease _ => true
  | .migClear _ => true
  | .migrationExpiry _ => true
  | .migrationDeadline _ => true
  | .fabricIngressRequest _ _ _ _ _ _ _ => true
  | .remoteReply _ _ _ _ => true
  | .portDown _ => true
  | .timeSync _ _ => true
  | .laneSample _ _ => true
  | .quietPoint _ => true
  | .forcedIdleGap _ => true
  | .dvfsWindow _ _ => true
  | .thermalThrottle => true
  | .thermalTrip => true
  | .perstAssert => true
  | .hostLinkDown _ => true
  | .hostLinkUp _ => true
  | .portUp _ => true
  | .firmwareActivation => true

/-- Well formed: every operand of a legal class and alignment, every field in its range (R69). Device
events have no encoding and are well formed as they stand. -/
def Instr.wf (i : Instr) : Bool := i.uses.all Use.ok && i.fieldsOk

end Sys2Proof
end

