-- ==== Sys2Proof/Decode.lean ====
section
/-! DEFINITION. Instruction words: their fields (R47, R50, R53), the decoder, and after it the encoder,
both written from the encoding tables of R65 to R68 and of each family. The decoder reads the fields, and
then refuses words that the encoding of what it read does not give back: every reserved field, unused
register or class field and literal beside a register is found so (R69). -/

namespace Sys2Proof

/-- The fields of R47 and R50, each where the tables put it; what a form does not have is zero. -/
structure Raw where
  len : BitVec 2 := 0
  stall : BitVec 3 := 0
  op : BitVec 6 := 0
  d : BitVec 7 := 0
  a : BitVec 7 := 0
  b : BitVec 7 := 0
  md : BitVec 5 := 0
  kc : BitVec 2 := 0
  kb : BitVec 2 := 0
  ka : BitVec 2 := 0
  c : BitVec 7 := 0
  pn : Bool := false
  pg : BitVec 3 := 0
  sub : BitVec 10 := 0
  kd : BitVec 2 := 0
  low : BitVec 30 := 0
  lit : Dword := 0
  deriving DecidableEq, Repr

/-- Why bytes are no instruction (R69). -/
inductive DecodeError where
  /-- fewer bytes than the L field asks for -/
  | truncated
  /-- an unassigned major or operation, or a code the fields do not accept -/
  | unassigned
  /-- a reserved field or bit that is not zero, or a literal the operation does not take -/
  | reserved
  /-- an operand or field the instruction does not accept -/
  | illFormed
  deriving DecidableEq, Repr

def bit (b : Bool) : BitVec 1 := if b then 1 else 0

/-- Words of an instruction, by its L field (R45). -/
def wordsOfLen (l : BitVec 2) : Nat := if l = 0 then 1 else if l = 3 then 5 else 3

/-- The words, first word first; a literal goes low word first (R49). -/
def Raw.words (r : Raw) : List Word :=
  let w0 : Word := r.b ++ r.a ++ r.d ++ r.op ++ r.stall ++ r.len
  let w1 : Word := r.md ++ r.kc ++ r.kb ++ r.ka ++ r.c ++ bit r.pn ++ r.pg ++ r.sub
  let w2 : Word := r.kd ++ r.low
  let l : List Word := [r.lit.extractLsb' 0 32, r.lit.extractLsb' 32 32]
  if r.len = 0 then [w0] else if r.len = 1 then [w0, w1, w2] else if r.len = 2 then w0 :: l
  else [w0, w1, w2] ++ l

/-- The fields of the first word (R47). -/
def Raw.ofWord0 (w : Word) : Raw :=
  { len := w.extractLsb' 0 2, stall := w.extractLsb' 2 3, op := w.extractLsb' 5 6, d := w.extractLsb' 11 7,
    a := w.extractLsb' 18 7, b := w.extractLsb' 25 7 }

/-- The fields of words 1 and 2 (R50). -/
def Raw.withExt (r : Raw) (w1 w2 : Word) : Raw :=
  { r with
    md := w1.extractLsb' 27 5, kc := w1.extractLsb' 25 2, kb := w1.extractLsb' 23 2, ka := w1.extractLsb' 21 2,
    c := w1.extractLsb' 14 7, pn := w1.extractLsb' 13 1 = 1, pg := w1.extractLsb' 10 3,
    sub := w1.extractLsb' 0 10, kd := w2.extractLsb' 30 2, low := w2.extractLsb' 0 30 }

def Raw.withLit (r : Raw) (lo hi : Word) : Raw := { r with lit := hi ++ lo }

/-- The fields of the words that stand at a program counter; the L field says how many there are. -/
def Raw.ofWords (ws : List Word) : Option Raw :=
  match ws with
  | [] => none
  | w0 :: rest =>
    let r := Raw.ofWord0 w0
    if r.len = 0 then some r
    else if r.len = 1 then
      match rest with
      | w1 :: w2 :: _ => some (r.withExt w1 w2)
      | _ => none
    else if r.len = 2 then
      match rest with
      | l0 :: l1 :: _ => some (r.withLit l0 l1)
      | _ => none
    else
      match rest with
      | w1 :: w2 :: l0 :: l1 :: _ => some ((r.withExt w1 w2).withLit l0 l1)
      | _ => none

/-! ### Codes -/

def RClass.code : RClass → BitVec 2
  | .v => 0
  | .g => 1
  | .t => 2
  | .f => 3

def RClass.ofCode (k : BitVec 2) : RClass :=
  if k = 0 then .v else if k = 1 then .g else if k = 2 then .t else .f

def Ty.code : Ty → BitVec 4
  | .i32 => 0
  | .n32 => 1
  | .i64 => 2
  | .n64 => 3
  | .f32 => 4
  | .f16 => 5
  | .b16 => 6
  | .e4m3 => 7
  | .e5m2 => 8
  | .zb3 => 9
  | .zb5 => 10
  | .zb8 => 11
  | .f64 => 12

def Ty.ofCode (k : BitVec 4) : Option Ty :=
  if k = 0 then some .i32 else if k = 1 then some .n32 else if k = 2 then some .i64
  else if k = 3 then some .n64 else if k = 4 then some .f32 else if k = 5 then some .f16
  else if k = 6 then some .b16 else if k = 7 then some .e4m3 else if k = 8 then some .e5m2
  else if k = 9 then some .zb3 else if k = 10 then some .zb5 else if k = 11 then some .zb8
  else if k = 12 then some .f64 else none

def Rm.code : Rm → BitVec 2
  | .rn => 0
  | .rz => 1
  | .ru => 2
  | .rd => 3

def Rm.ofCode (k : BitVec 2) : Rm :=
  if k = 0 then .rn else if k = 1 then .rz else if k = 2 then .ru else .rd

def Cond.code : Cond → BitVec 4
  | .eq => 0
  | .ne => 1
  | .lt => 2
  | .le => 3
  | .gt => 4
  | .ge => 5
  | .num => 6
  | .nan => 7

def Cond.ofCode (k : BitVec 4) : Option Cond :=
  if k = 0 then some .eq else if k = 1 then some .ne else if k = 2 then some .lt
  else if k = 3 then some .le else if k = 4 then some .gt else if k = 5 then some .ge
  else if k = 6 then some .num else if k = 7 then some .nan else none

def Scope.code : Scope → BitVec 3
  | .l => 0
  | .q => 1
  | .g => 2
  | .t => 3
  | .c => 4
  | .d => 5
  | .y => 6

def Scope.ofCode (k : BitVec 3) : Option Scope :=
  if k = 0 then some .l else if k = 1 then some .q else if k = 2 then some .g else if k = 3 then some .t
  else if k = 4 then some .c else if k = 5 then some .d else if k = 6 then some .y else none

def Wid.code : Wid → BitVec 3
  | .w8 => 0
  | .w16 => 1
  | .w32 => 2
  | .w64 => 3
  | .w128 => 4

def Wid.ofCode (k : BitVec 3) : Option Wid :=
  if k = 0 then some .w8 else if k = 1 then some .w16 else if k = 2 then some .w32
  else if k = 3 then some .w64 else if k = 4 then some .w128 else none

def Elt.code : Elt → BitVec 3
  | .x1 => 1
  | .x2 => 2
  | .x4 => 3
  | .x8 => 4
  | .x16 => 5

def Elt.ofCode (k : BitVec 3) : Option Elt :=
  if k = 1 then some .x1 else if k = 2 then some .x2 else if k = 3 then some .x4
  else if k = 4 then some .x8 else if k = 5 then some .x16 else none

def Aop.code : Aop → BitVec 4
  | .add => 0
  | .min => 1
  | .max => 2
  | .iand => 3
  | .ior => 4
  | .ixor => 5
  | .exch => 6
  | .cas => 7
  | .fadd => 8

def Aop.ofCode (k : BitVec 4) : Option Aop :=
  if k = 0 then some .add else if k = 1 then some .min else if k = 2 then some .max
  else if k = 3 then some .iand else if k = 4 then some .ior else if k = 5 then some .ixor
  else if k = 6 then some .exch else if k = 7 then some .cas else if k = 8 then some .fadd else none

def Opn.code : Opn → BitVec 3
  | .add => 0
  | .min => 1
  | .max => 2
  | .iand => 3
  | .ior => 4
  | .ixor => 5

def Opn.ofCode (k : BitVec 3) : Option Opn :=
  if k = 0 then some .add else if k = 1 then some .min else if k = 2 then some .max
  else if k = 3 then some .iand else if k = 4 then some .ior else if k = 5 then some .ixor else none

def CbarMode.code : CbarMode → BitVec 2
  | .sync => 0
  | .arv => 1
  | .wait => 2

def CbarMode.ofCode (k : BitVec 2) : Option CbarMode :=
  if k = 0 then some .sync else if k = 1 then some .arv else if k = 2 then some .wait else none

def Action.code : Action → BitVec 2
  | .retry => 0
  | .skip => 1
  | .kill => 2

def Action.ofCode (k : BitVec 2) : Option Action :=
  if k = 0 then some .retry else if k = 1 then some .skip else if k = 2 then some .kill else none

/-! ### Reading fields -/

def Raw.head (r : Raw) : XHead := ⟨r.stall, r.pg, r.pn⟩
def Raw.od (r : Raw) : Opd := ⟨RClass.ofCode r.kd, r.d⟩
def Raw.oa (r : Raw) : Opd := ⟨RClass.ofCode r.ka, r.a⟩
def Raw.obr (r : Raw) : Opd := ⟨RClass.ofCode r.kb, r.b⟩
def Raw.oc (r : Raw) : Opd := ⟨RClass.ofCode r.kc, r.c⟩
def Raw.isLit (r : Raw) : Bool := r.len = 2 || r.len = 3
def Raw.ob (r : Raw) : OpdB := if r.isLit then .lit r.lit else .reg r.obr
def Raw.baseB (r : Raw) : BaseB := if r.isLit then .lit r.lit else .reg r.b
def Raw.baseDisp (r : Raw) : BaseDisp := if r.isLit then .lit r.lit else .short r.b
def Raw.baseOff (r : Raw) : BaseOff := if r.isLit then .lit r.lit else .short (r.b ++ r.a)
def Raw.extOff (r : Raw) : ExtOff := if r.isLit then .lit r.lit else .short r.low
def Raw.disp (r : Raw) : Option Dword := if r.isLit then some r.lit else none
def Raw.ty (r : Raw) : Option Ty := Ty.ofCode (r.sub.extractLsb' 0 4)
def Raw.rm (r : Raw) : Rm := Rm.ofCode (r.md.extractLsb' 0 2)
def Raw.m2 (r : Raw) : Bool := r.md.extractLsb' 2 1 = 1
def Raw.m3 (r : Raw) : Bool := r.md.extractLsb' 3 1 = 1
def Raw.m4 (r : Raw) : Bool := r.md.extractLsb' 4 1 = 1
def Raw.fpm (r : Raw) : FpMod := ⟨r.rm, r.m2⟩
def Raw.hint (r : Raw) : BitVec 2 := r.md.extractLsb' 0 2
/-- Bits hi:lo of word 2. -/
def Raw.f (r : Raw) (lo n : Nat) : BitVec n := r.low.extractLsb' lo n
def Raw.flag (r : Raw) (lo : Nat) : Bool := r.low.extractLsb' lo 1 = 1
def Raw.dp (r : Raw) : BitVec 3 := r.d.extractLsb' 0 3
def Raw.ap (r : Raw) : BitVec 3 := r.a.extractLsb' 0 3
def Raw.bp (r : Raw) : BitVec 3 := r.b.extractLsb' 0 3
def Raw.cp (r : Raw) : BitVec 3 := r.c.extractLsb' 0 3
def Raw.esc (r : Raw) : EscSet := ⟨r.f 0 7, r.f 7 4⟩
/-- Order and scope of R53: word 2 [26:25] has `.ACQ` in its low bit. -/
def Raw.ord (r : Raw) : Option MOrd := (Scope.ofCode (r.f 27 3)).map fun s => ⟨r.flag 25, r.flag 26, s⟩
/-- BOFF in word 2 [17] (R171, R172). -/
def Raw.off (r : Raw) : AddrOff :=
  if r.isLit then .lit r.lit else if r.flag 17 then .reg r.obr else .none
def Raw.aop (r : Raw) : Option Aop := Aop.ofCode (r.f 18 4)

/-! ### The decoder -/

/-- Base majors (R67). -/
def parseBase (r : Raw) : Option Instr :=
  let cc := Cond.ofCode (r.d.extractLsb' 3 4)
  match r.op.toNat with
  | 0x00 => some (.mov r.stall r.d r.a)
  | 0x01 => some (.movi r.stall r.d r.lit)
  | 0x02 => some (.iadd r.stall r.d r.a r.baseB)
  | 0x03 => some (.isub r.stall r.d r.a r.baseB)
  | 0x04 => some (.imul r.stall r.d r.a r.baseB)
  | 0x05 => some (.imulh r.stall r.d r.a r.baseB)
  | 0x06 => some (.imin r.stall r.d r.a r.baseB)
  | 0x07 => some (.imax r.stall r.d r.a r.baseB)
  | 0x08 => some (.iand r.stall r.d r.a r.baseB)
  | 0x09 => some (.ior r.stall r.d r.a r.baseB)
  | 0x0A => some (.ixor r.stall r.d r.a r.baseB)
  | 0x0B => some (.inot r.stall r.d r.a)
  | 0x0C => some (.shl r.stall r.d r.a r.baseB)
  | 0x0D => some (.shr r.stall r.d r.a r.baseB)
  | 0x0E => some (.sar r.stall r.d r.a r.baseB)
  | 0x0F => some (.lea r.stall r.d r.a r.baseB)
  | 0x10 => some (.fadd r.stall r.d r.a r.baseB)
  | 0x11 => some (.fsub r.stall r.d r.a r.baseB)
  | 0x12 => some (.fmul r.stall r.d r.a r.baseB)
  | 0x13 => some (.fmin r.stall r.d r.a r.baseB)
  | 0x14 => some (.fmax r.stall r.d r.a r.baseB)
  | 0x15 => some (.ftoi r.stall r.d r.a)
  | 0x16 => some (.itof r.stall r.d r.a)
  | 0x17 => some (.frnd r.stall r.d r.a)
  | 0x18 => some (.fcvtF16F32 r.stall r.d r.a)
  | 0x19 => some (.fcvtF32F16 r.stall r.d r.a)
  | 0x1A => some (.fcvtB16F32 r.stall r.d r.a)
  | 0x1B => some (.fcvtF32B16 r.stall r.d r.a)
  | 0x1C => cc.map fun c => .icmpI32 r.stall c r.dp r.a r.baseB
  | 0x1D => cc.map fun c => .icmpN32 r.stall c r.dp r.a r.baseB
  | 0x1E => cc.map fun c => .fcmpF32 r.stall c r.dp r.a r.baseB
  | 0x1F =>
    match (r.d.extractLsb' 3 4).toNat with
    | 0 => some (.pand r.stall r.dp r.ap r.bp)
    | 1 => some (.por r.stall r.dp r.ap r.bp)
    | 2 => some (.pxor r.stall r.dp r.ap r.bp)
    | 3 => some (.pnot r.stall r.dp r.ap)
    | 4 => some (.pmov r.stall r.dp r.ap)
    | _ => none
  | 0x20 => some (.bra r.stall r.baseOff)
  | 0x21 => some (.call r.stall r.d r.baseOff)
  | 0x22 => some (.ret r.stall r.a)
  | 0x23 => some (.brx r.stall r.a)
  | 0x24 => some (.exit r.stall)
  | 0x25 => some (.nop r.stall)
  | 0x26 => some (.yieldB r.stall)
  | 0x27 => some (.bkpt r.stall (r.b ++ r.a))
  | 0x28 => some (.ld32 r.stall r.d r.a r.baseDisp)
  | 0x29 => some (.ld64 r.stall r.d r.a r.baseDisp)
  | 0x2A => some (.ld128 r.stall r.d r.a r.baseDisp)
  | 0x2B => some (.st32 r.stall r.d r.a r.baseDisp)
  | 0x2C => some (.st64 r.stall r.d r.a r.baseDisp)
  | 0x2D => some (.st128 r.stall r.d r.a r.baseDisp)
  | 0x2E => some (.ld32Ro r.stall r.d r.a r.baseDisp)
  | 0x2F => some (.ld128Ro r.stall r.d r.a r.baseDisp)
  | 0x30 => some (.shflIdx r.stall r.d r.a r.baseB)
  | 0x31 => some (.shflUp r.stall r.d r.a r.baseB)
  | 0x32 => some (.shflDown r.stall r.d r.a r.baseB)
  | 0x33 => some (.shflXor r.stall r.d r.a r.baseB)
  | 0x34 => some (.qxchH r.stall r.d r.a)
  | 0x35 => some (.qxchV r.stall r.d r.a)
  | 0x36 => some (.qxchD r.stall r.d r.a)
  | 0x37 => some (.ballot r.stall r.d r.ap)
  | _ => none

/-- Major 0x00 (R135). -/
def parseInt (r : Raw) (op : Nat) : Option Instr :=
  let x := r.head
  match r.ty with
  | none => none
  | some t =>
    match op with
    | 0 => some (.movExt x t r.od r.oa)
    | 1 => some (.moviExt x t r.od r.lit)
    | 2 => some (.iaddExt x t r.m3 r.od r.oa r.ob)
    | 3 => some (.isubExt x t r.m3 r.od r.oa r.ob)
    | 4 => some (.imulExt x t r.m3 r.od r.oa r.ob)
    | 5 => some (.imulhExt x t r.od r.oa r.ob)
    | 6 => some (.imad x t r.m3 r.od r.oa r.ob r.oc)
    | 7 => some (.iminExt x t r.od r.oa r.ob)
    | 8 => some (.imaxExt x t r.od r.oa r.ob)
    | 9 => some (.iabs x t r.m3 r.od r.oa)
    | 10 => some (.ineg x t r.m3 r.od r.oa)
    | 11 => some (.andExt x t r.od r.oa r.ob)
    | 12 => some (.orExt x t r.od r.oa r.ob)
    | 13 => some (.xorExt x t r.od r.oa r.ob)
    | 14 => some (.notExt x t r.od r.oa)
    | 15 => some (.shlExt x t r.od r.oa r.ob)
    | 16 => some (.shrExt x t r.od r.oa r.ob)
    | 17 => some (.sarExt x t r.od r.oa r.ob)
    | 18 => some (.bfx x t r.od r.oa r.ob)
    | 19 => some (.bfi x t r.od r.oa r.ob r.oc)
    | 20 => some (.popc x t r.od r.oa)
    | 21 => some (.clz x t r.od r.oa)
    | 22 => some (.brev x t r.od r.oa)
    | 23 => some (.leaExt x t (r.f 0 3) r.od r.oa r.ob)
    | 24 => some (.sel x t r.od r.oa r.ob (r.f 0 3) (r.flag 3))
    | _ => none

/-- Majors 0x01 and 0x02 (R140). -/
def parseFp (r : Raw) (major op : Nat) : Option Instr :=
  let x := r.head
  match major, op with
  | 1, 0 => r.ty.map fun t => .faddExt x t r.fpm r.od r.oa r.ob
  | 1, 1 => r.ty.map fun t => .fsubExt x t r.fpm r.od r.oa r.ob
  | 1, 2 => r.ty.map fun t => .fmulExt x t r.fpm r.od r.oa r.ob
  | 1, 3 => r.ty.map fun t => .ffma x t r.fpm r.od r.oa r.ob r.oc
  | 1, 4 => r.ty.map fun t => .fminExt x t r.m2 r.od r.oa r.ob
  | 1, 5 => r.ty.map fun t => .fmaxExt x t r.m2 r.od r.oa r.ob
  | 1, 6 => r.ty.map fun t => .frndExt x t r.fpm r.od r.oa
  | 2, 0 => some (.fdiv x r.fpm r.od r.oa r.ob)
  | 2, 1 => some (.rcp x r.fpm r.od r.oa)
  | 2, 2 => some (.rsq x r.fpm r.od r.oa)
  | 2, 3 => some (.sqrt x r.fpm r.od r.oa)
  | 2, 4 => some (.ex2 x r.fpm r.od r.oa)
  | 2, 5 => some (.lg2 x r.fpm r.od r.oa)
  | _, _ => none

/-- Majors 0x03 to 0x05 (R142, R144, R145). -/
def parseCvt (r : Raw) (major op : Nat) : Option Instr :=
  let x := r.head
  let dt := Ty.ofCode (r.f 4 4)
  let sty := Ty.ofCode (r.f 0 4)
  let cc := Cond.ofCode (r.f 0 4)
  match major, op with
  | 3, 0 => dt.bind fun dt => sty.map fun sty =>
      .fcvt x dt sty ⟨r.m4, r.m3, r.m2, r.rm⟩ r.od r.oa (if dt.isZb then some r.ob else none)
  | 3, 1 => dt.bind fun dt => sty.map fun sty => .ftoiExt x dt sty r.rm r.od r.oa
  | 3, 2 => dt.bind fun dt => sty.map fun sty => .itofExt x dt sty r.fpm r.od r.oa
  | 4, 0 => r.ty.bind fun t => cc.map fun c => .icmp x t c r.dp r.oa r.ob
  | 4, 1 => r.ty.bind fun t => cc.map fun c => .fcmp x t c r.m2 r.dp r.oa r.ob
  | 5, 0 => some (.pandExt x r.dp r.ap (r.flag 0) r.bp (r.flag 1))
  | 5, 1 => some (.porExt x r.dp r.ap (r.flag 0) r.bp (r.flag 1))
  | 5, 2 => some (.pxorExt x r.dp r.ap (r.flag 0) r.bp (r.flag 1))
  | 5, 3 => some (.pnotExt x r.dp r.ap (r.flag 0))
  | 5, 4 => some (.pmovExt x r.dp r.ap (r.flag 0))
  | _, _ => none

/-- Majors 0x08 to 0x0B (R146, R151, R152, R155). -/
def parseCtl (r : Raw) (major op : Nat) : Option Instr :=
  let x := r.head
  match major, op with
  | 8, 0 => some (.braExt x r.extOff)
  | 8, 1 => some (.brxExt x r.oa)
  | 8, 2 => some (.callExt x r.d r.extOff)
  | 8, 3 => some (.retExt x r.oa)
  | 8, 4 => some (.exitExt x)
  | 8, 5 => some (.yieldExt x)
  | 8, 6 => some (.nopExt x)
  | 9, 0 => some (.rcvSet x (r.f 0 4))
  | 9, 1 => some (.rcvWait x r.dp (r.f 0 4) (r.f 4 20))
  | 10, 0 => some (.barArv x (r.f 0 4) (r.f 4 6))
  | 10, 1 => some (.barWait x (r.f 0 4))
  | 10, 2 => some (.barSync x (r.f 0 4) (r.f 4 6))
  | 10, 3 => (CbarMode.ofCode (r.f 0 2)).map fun m => .cbar x m
  | 11, 0 => some (.dqpush x r.ob)
  | 11, 1 => some (.dqpushAll x r.ob)
  | 11, 2 => some (.dqpop x r.d (r.f 0 3))
  | 11, 3 => some (.mfsr x r.d (r.f 0 8))
  | 11, 4 => some (.trap x (r.f 0 16))
  | 11, 5 => some (.bkptExt x (r.f 0 14))
  | 11, 6 => some (.waitt x r.oa)
  | _, _ => none

/-- Major 0x0C (R160). -/
def parseXlane (r : Raw) (op : Nat) : Option Instr :=
  let x := r.head
  let seg := r.f 0 3
  match r.ty with
  | none => none
  | some t =>
    match op with
    | 0 => some (.shflIdxExt x t seg r.d r.oa r.ob)
    | 1 => some (.shflUpExt x t seg r.d r.oa r.ob)
    | 2 => some (.shflDownExt x t seg r.d r.oa r.ob)
    | 3 => some (.shflXorExt x t seg r.d r.oa r.ob)
    | 4 => some (.qxchHExt x t r.d r.a)
    | 5 => some (.qxchVExt x t r.d r.a)
    | 6 => some (.qxchDExt x t r.d r.a)
    | 7 => some (.voteAny x seg r.dp r.ap)
    | 8 => some (.voteAll x seg r.dp r.ap)
    | 9 => some (.voteEq x seg r.dp r.ap)
    | 10 => some (.ballotExt x r.d r.ap)
    | 11 => some (.matchX x t r.d r.a)
    | 12 => some (.compact x r.d r.ap)
    | 13 => (Opn.ofCode (r.f 4 3)).map fun o => .gscan x t o (r.flag 7) seg r.d r.a
    | 14 => (Opn.ofCode (r.f 4 3)).map fun o => .gred x t o seg r.d r.a
    | _ => none

/-- Majors 0x10 and 0x11 (R172, R176, R190). -/
def parseMem (r : Raw) (major op : Nat) : Option Instr :=
  let x := r.head
  let h := r.hint
  let wid := Wid.ofCode (r.f 22 3)
  let sx := r.flag 18
  let cap := r.f 11 3
  let rp := r.f 14 3
  match r.ord with
  | none => none
  | some o =>
    match major, op with
    | 0x10, 0 =>
      if r.f 19 3 = 0 then wid.map fun w => .ld x h o (.raw w sx) r.od r.oa r.off
      else (Elt.ofCode (r.f 19 3)).bind fun n => r.ty.map fun t => .ld x h o (.elems n t) r.od r.oa r.off
    | 0x10, 1 =>
      if r.f 19 3 = 0 then wid.map fun w => .st x h o (.raw w) r.oa r.off r.oc
      else (Elt.ofCode (r.f 19 3)).bind fun n => r.ty.map fun t =>
        .st x h o (.elems n t (Rm.ofCode (r.md.extractLsb' 2 2)) r.m4) r.oa r.off r.oc
    | 0x10, 2 => wid.map fun w => .ldC x h o w sx cap r.od r.oa r.disp
    | 0x10, 3 => wid.map fun w => .stC x h o w cap r.oa r.disp r.oc
    | 0x11, 0 => wid.map fun w => .lde x h o w r.d r.oa r.off rp r.esc
    | 0x11, 1 => r.ty.bind fun t => r.aop.map fun p => .atom x h o p t r.d r.oa r.ob r.oc rp r.esc
    | 0x11, 2 => r.ty.bind fun t => r.aop.map fun p => .red x h o p t r.oa r.ob
    | 0x11, 3 => r.ty.bind fun t => r.aop.map fun p => .atomC x h o p t cap r.d r.oa r.ob r.oc rp r.esc
    | 0x11, 4 => r.ty.bind fun t => r.aop.map fun p => .redC x h o p t cap r.oa r.ob
    | _, _ => none

/-- Majors 0x12 to 0x16 (R193, R196, R197, R200, R205). -/
def parseEng (r : Raw) (major op : Nat) : Option Instr :=
  let x := r.head
  let h := r.hint
  let rp := r.f 14 3
  let k : BitVec 4 := r.d.extractLsb' 0 4
  match major, op with
  | 0x12, 0 => some (.chs x h r.d r.oa r.ob rp r.esc)
  | 0x13, 0 => (Scope.ofCode (r.f 27 3)).map fun s => .fnc x h s r.od
  | 0x13, 1 => some (.waitf x h r.oa)
  | 0x14, 0 => some (.acp x h r.od r.oa r.ob r.oc)
  | 0x15, 0 => some (.sraff x h k (r.f 21 4) (r.flag 20) r.oa r.ob r.oc)
  | 0x15, 1 => some (.srind x h k (r.f 21 4) (r.flag 20) (r.f 17 3) r.oa r.ob r.oc)
  | 0x15, 2 => some (.srprb x h k rp)
  | 0x15, 3 => some (.srstop x h k)
  | 0x16, 0 => some (.gath x h (r.f 21 4) (r.f 18 3) r.d r.oa r.ob rp r.esc)
  | 0x16, 1 => some (.scat x h (r.f 21 4) (r.f 18 3) r.oa r.ob r.c)
  | 0x16, 2 => r.ty.map fun t => .scatAdd x h t (r.f 21 4) (r.f 18 3) r.oa r.ob r.c
  | _, _ => none

/-- Majors 0x17 to 0x19 (R211, R235, R253, R256, R328). `CAPMK` and `CAPMK.REC` have no form with a literal: DESIGN CHOICE
(log 37), since no rule gives a literal a width of 128 bits. -/
def parseSys (r : Raw) (major op : Nat) : Option Instr :=
  let x := r.head
  match major, op with
  | 0x17, 0 => some (.capld x r.dp r.oa r.disp)
  | 0x17, 1 => some (.capst x r.oa r.disp r.cp)
  | 0x17, 2 => some (.capnar x r.dp r.ap r.ob r.oc (r.f 0 4))
  | 0x17, 3 => some (.caprst x r.dp)
  | 0x17, 4 => some (.capchk x r.dp r.ap r.ob r.oc (r.f 0 4))
  | 0x18, 0 => some (.csrr x r.d (r.f 0 12))
  | 0x18, 1 => some (.csrw x (r.f 0 12) r.oa)
  | 0x18, 2 => (Action.ofCode (r.f 0 2)).map fun a => .eret x a
  | 0x18, 3 => if r.flag 7 then some (.capmkRec x r.oa r.obr (r.f 0 7)) else some (.capmk x r.dp r.obr)
  | 0x19, 0 => some (.regroup x (r.f 0 4) (r.f 4 10))
  | 0x19, 1 => some (.launch x r.od r.oa (r.f 0 10))
  | 0x19, 2 => some (.evsig x r.ob)
  | 0x19, 3 => some (.evwait x r.oa r.ob)
  | _, _ => none

/-- Majors 0x1C to 0x1E (R267, R292). -/
def parseMat (r : Raw) (major op : Nat) : Option Instr :=
  let x := r.head
  let td : BitVec 6 := r.d.extractLsb' 0 6
  let ta : BitVec 6 := r.a.extractLsb' 0 6
  let tb : BitVec 6 := r.b.extractLsb' 0 6
  match major, op with
  | 0x1C, 0 => some (.mzero x td)
  | 0x1C, 1 => some (.mrd x r.od ta r.ob)
  | 0x1C, 2 => some (.mwr x td r.oa r.ob)
  | 0x1C, 3 => some (.mwmk x r.od ta)
  | 0x1C, 4 => r.ty.map fun t => .mldb x t (r.d.extractLsb' 0 1 = 1) r.oa (r.f 0 24)
  | 0x1C, 5 => r.ty.map fun t => .mgata x t r.oa r.ob (r.f 0 24)
  | 0x1C, 6 => some (.mmq x td (r.a.extractLsb' 0 1 = 1))
  | 0x1C, 7 => some (.mms x td r.oa r.obr r.oc)
  | 0x1C, 8 => r.ty.map fun t => .mst x t ⟨r.m4, r.m3, r.m2, r.rm⟩ r.od r.oa tb (r.f 0 24)
  | 0x1D, 0 => some (.tcut x r.od r.oa (r.f 0 9) (r.f 9 2))
  | 0x1E, 0 => some (.infl x (r.f 0 2) r.oa)
  | 0x1E, 1 => some (.attn x (r.flag 2) r.od r.oa tb (r.f 0 2))
  | 0x1E, 2 => some (.kvapp x r.rm r.m3 r.od (r.f 0 3) r.oa r.ob r.oc)
  | 0x1E, 3 => some (.kvtrim x r.od (r.f 0 3) r.oa r.oc)
  | 0x1E, 4 => some (.kvqry x r.od r.oa (r.f 0 3))
  | _, _ => none

/-- The extended opcode map (R68). -/
def parseExt (r : Raw) : Option Instr :=
  let major := r.op.toNat
  let op := (r.sub.extractLsb' 4 6).toNat
  if major = 0 then parseInt r op
  else if major ≤ 2 then parseFp r major op
  else if major ≤ 5 then parseCvt r major op
  else if major ≤ 0x0B then parseCtl r major op
  else if major = 0x0C then parseXlane r op
  else if major ≤ 0x11 then parseMem r major op
  else if major ≤ 0x16 then parseEng r major op
  else if major ≤ 0x19 then parseSys r major op
  else parseMat r major op

/-- What the fields name: the base map for L = 00 and 10, the extended map otherwise (R47). -/
def Raw.parse (r : Raw) : Option Instr := if r.len = 0 || r.len = 2 then parseBase r else parseExt r

/-! ### The encoder -/

/-- A base word of a major (R47, R67). -/
def rawB (st : BitVec 3) (op : BitVec 6) : Raw := { stall := st, op := op }
/-- An extended instruction of a major and operation (R50, R68). -/
def rawX (x : XHead) (op : BitVec 6) (o : BitVec 6) : Raw :=
  { len := 1, stall := x.stall, op := op, pg := x.pg, pn := x.pn, sub := o ++ 0#4 }

def Raw.bB (r : Raw) (b : BaseB) : Raw :=
  match b with
  | .reg n => { r with b := n }
  | .lit w => { r with len := 2, lit := w }
def Raw.bDisp (r : Raw) (b : BaseDisp) : Raw :=
  match b with
  | .short n => { r with b := n }
  | .lit w => { r with len := 2, lit := w }
def Raw.bOff (r : Raw) (b : BaseOff) : Raw :=
  match b with
  | .short n => { r with b := n.extractLsb' 7 7, a := n.extractLsb' 0 7 }
  | .lit w => { r with len := 2, lit := w }
def Raw.xOff (r : Raw) (b : ExtOff) : Raw :=
  match b with
  | .short n => { r with low := n }
  | .lit w => { r with len := 3, lit := w }
def Raw.t (r : Raw) (ty : Ty) : Raw := { r with sub := r.sub.extractLsb' 4 6 ++ ty.code }
def Raw.mods (r : Raw) (m4 m3 m2 : Bool) (rm : Rm) : Raw := { r with md := bit m4 ++ bit m3 ++ bit m2 ++ rm.code }
def Raw.hintM (r : Raw) (h : BitVec 2) : Raw := { r with md := 0#3 ++ h }
def Raw.oD (r : Raw) (o : Opd) : Raw := { r with d := o.no, kd := o.cls.code }
def Raw.oA (r : Raw) (o : Opd) : Raw := { r with a := o.no, ka := o.cls.code }
def Raw.oB (r : Raw) (b : OpdB) : Raw :=
  match b with
  | .reg o => { r with b := o.no, kb := o.cls.code }
  | .lit w => { r with len := 3, lit := w }
def Raw.oBo (r : Raw) (b : Option OpdB) : Raw :=
  match b with
  | some b => r.oB b
  | none => r
def Raw.oC (r : Raw) (o : Opd) : Raw := { r with c := o.no, kc := o.cls.code }
def Raw.oOff (r : Raw) (o : AddrOff) : Raw :=
  match o with
  | .none => r
  | .reg b => r.oB (.reg b)
  | .lit w => r.oB (.lit w)
def Raw.oDisp (r : Raw) (o : Option Dword) : Raw :=
  match o with
  | none => r
  | some w => r.oB (.lit w)
def Raw.dP (r : Raw) (p : BitVec 3) : Raw := { r with d := 0#4 ++ p }
def Raw.aP (r : Raw) (p : BitVec 3) : Raw := { r with a := 0#4 ++ p }
def Raw.bP (r : Raw) (p : BitVec 3) : Raw := { r with b := 0#4 ++ p }
def Raw.cP (r : Raw) (p : BitVec 3) : Raw := { r with c := 0#4 ++ p }
def Raw.dM (r : Raw) (m : BitVec 6) : Raw := { r with d := 0#1 ++ m }
def Raw.aM (r : Raw) (m : BitVec 6) : Raw := { r with a := 0#1 ++ m }
def Raw.bM (r : Raw) (m : BitVec 6) : Raw := { r with b := 0#1 ++ m }
def Raw.w2 (r : Raw) (low : BitVec 30) : Raw := { r with low := low }
/-- Scope and order in word 2 [29:25] (R53). -/
def MOrd.bits (o : MOrd) : BitVec 5 := o.scope.code ++ bit o.rel ++ bit o.acq
/-- ecnt and ebase in word 2 [10:0] (R53). -/
def EscSet.bits (e : EscSet) : BitVec 11 := e.cnt ++ e.base
def AddrOff.boff : AddrOff → BitVec 1
  | .reg _ => 1
  | _ => 0
/-- WID, ELT and SX in word 2 [24:18] (R172). -/
def LdFmt.bits : LdFmt → BitVec 7
  | .raw w sx => w.code ++ 0#3 ++ bit sx
  | .elems n _ => 0#3 ++ n.code ++ 0#1
/-- WID and ELT in word 2 [24:19] (R172). -/
def StFmt.bits : StFmt → BitVec 6
  | .raw w => w.code ++ 0#3
  | .elems n _ _ _ => 0#3 ++ n.code
def Raw.ldF (r : Raw) (f : LdFmt) (h : BitVec 2) : Raw :=
  match f with
  | .raw _ _ => r.hintM h
  | .elems _ ty => (r.t ty).hintM h
/-- Element stores carry their rounding in mod[4:2] (R179). -/
def Raw.stF (r : Raw) (f : StFmt) (h : BitVec 2) : Raw :=
  match f with
  | .raw _ => r.hintM h
  | .elems _ ty rm sr => { r.t ty with md := bit sr ++ rm.code ++ h }

/-- The fields of an instruction; a device event has none. -/
def Instr.raw : Instr → Option Raw
  | .mov stl d a => some ({ rawB stl 0x0 with d := d, a := a })
  | .movi stl d imm => some ({ rawB stl 0x01 with len := 2, d := d, lit := imm })
  | .iadd stl d a b => some ({ rawB stl 0x2 with d := d, a := a }.bB b)
  | .isub stl d a b => some ({ rawB stl 0x3 with d := d, a := a }.bB b)
  | .imul stl d a b => some ({ rawB stl 0x4 with d := d, a := a }.bB b)
  | .imulh stl d a b => some ({ rawB stl 0x5 with d := d, a := a }.bB b)
  | .imin stl d a b => some ({ rawB stl 0x6 with d := d, a := a }.bB b)
  | .imax stl d a b => some ({ rawB stl 0x7 with d := d, a := a }.bB b)
  | .iand stl d a b => some ({ rawB stl 0x8 with d := d, a := a }.bB b)
  | .ior stl d a b => some ({ rawB stl 0x9 with d := d, a := a }.bB b)
  | .ixor stl d a b => some ({ rawB stl 0xa with d := d, a := a }.bB b)
  | .inot stl d a => some ({ rawB stl 0xb with d := d, a := a })
  | .shl stl d a b => some ({ rawB stl 0xc with d := d, a := a }.bB b)
  | .shr stl d a b => some ({ rawB stl 0xd with d := d, a := a }.bB b)
  | .sar stl d a b => some ({ rawB stl 0xe with d := d, a := a }.bB b)
  | .lea stl d a b => some ({ rawB stl 0xf with d := d, a := a }.bB b)
  | .fadd stl d a b => some ({ rawB stl 0x10 with d := d, a := a }.bB b)
  | .fsub stl d a b => some ({ rawB stl 0x11 with d := d, a := a }.bB b)
  | .fmul stl d a b => some ({ rawB stl 0x12 with d := d, a := a }.bB b)
  | .fmin stl d a b => some ({ rawB stl 0x13 with d := d, a := a }.bB b)
  | .fmax stl d a b => some ({ rawB stl 0x14 with d := d, a := a }.bB b)
  | .ftoi stl d a => some ({ rawB stl 0x15 with d := d, a := a })
  | .itof stl d a => some ({ rawB stl 0x16 with d := d, a := a })
  | .frnd stl d a => some ({ rawB stl 0x17 with d := d, a := a })
  | .fcvtF16F32 stl d a => some ({ rawB stl 0x18 with d := d, a := a })
  | .fcvtF32F16 stl d a => some ({ rawB stl 0x19 with d := d, a := a })
  | .fcvtB16F32 stl d a => some ({ rawB stl 0x1a with d := d, a := a })
  | .fcvtF32B16 stl d a => some ({ rawB stl 0x1b with d := d, a := a })
  | .icmpI32 stl cc p a b => some ({ rawB stl 0x1c with d := cc.code ++ p, a := a }.bB b)
  | .icmpN32 stl cc p a b => some ({ rawB stl 0x1d with d := cc.code ++ p, a := a }.bB b)
  | .fcmpF32 stl cc p a b => some ({ rawB stl 0x1e with d := cc.code ++ p, a := a }.bB b)
  | .pand stl p q r => some ({ rawB stl 0x1F with d := 0#4 ++ p, a := 0#4 ++ q, b := 0#4 ++ r })
  | .por stl p q r => some ({ rawB stl 0x1F with d := 1#4 ++ p, a := 0#4 ++ q, b := 0#4 ++ r })
  | .pxor stl p q r => some ({ rawB stl 0x1F with d := 2#4 ++ p, a := 0#4 ++ q, b := 0#4 ++ r })
  | .pnot stl p q => some ({ rawB stl 0x1F with d := 3#4 ++ p, a := 0#4 ++ q })
  | .pmov stl p q => some ({ rawB stl 0x1F with d := 4#4 ++ p, a := 0#4 ++ q })
  | .bra stl off => some ((rawB stl 0x20).bOff off)
  | .call stl d off => some ({ rawB stl 0x21 with d := d }.bOff off)
  | .ret stl a => some ({ rawB stl 0x22 with a := a })
  | .brx stl a => some ({ rawB stl 0x23 with a := a })
  | .exit stl => some (rawB stl 0x24)
  | .nop stl => some (rawB stl 0x25)
  | .yieldB stl => some (rawB stl 0x26)
  | .bkpt stl code => some ({ rawB stl 0x27 with b := code.extractLsb' 7 7, a := code.extractLsb' 0 7 })
  | .ld32 stl d a disp => some ({ rawB stl 0x28 with d := d, a := a }.bDisp disp)
  | .ld64 stl d a disp => some ({ rawB stl 0x29 with d := d, a := a }.bDisp disp)
  | .ld128 stl d a disp => some ({ rawB stl 0x2a with d := d, a := a }.bDisp disp)
  | .st32 stl d a disp => some ({ rawB stl 0x2b with d := d, a := a }.bDisp disp)
  | .st64 stl d a disp => some ({ rawB stl 0x2c with d := d, a := a }.bDisp disp)
  | .st128 stl d a disp => some ({ rawB stl 0x2d with d := d, a := a }.bDisp disp)
  | .ld32Ro stl d a disp => some ({ rawB stl 0x2e with d := d, a := a }.bDisp disp)
  | .ld128Ro stl d a disp => some ({ rawB stl 0x2f with d := d, a := a }.bDisp disp)
  | .shflIdx stl d a b => some ({ rawB stl 0x30 with d := d, a := a }.bB b)
  | .shflUp stl d a b => some ({ rawB stl 0x31 with d := d, a := a }.bB b)
  | .shflDown stl d a b => some ({ rawB stl 0x32 with d := d, a := a }.bB b)
  | .shflXor stl d a b => some ({ rawB stl 0x33 with d := d, a := a }.bB b)
  | .qxchH stl d a => some ({ rawB stl 0x34 with d := d, a := a })
  | .qxchV stl d a => some ({ rawB stl 0x35 with d := d, a := a })
  | .qxchD stl d a => some ({ rawB stl 0x36 with d := d, a := a })
  | .ballot stl d q => some ({ rawB stl 0x37 with d := d, a := 0#4 ++ q })
  | .movExt x ty d a => some ((rawX x 0x00 0).t ty |>.oD d |>.oA a)
  | .moviExt x ty d imm => some ((rawX x 0x00 1).t ty|>.oD d |>.oB (.lit imm))
  | .iaddExt x ty sat d a b => some ((rawX x 0x00 2).t ty |>.mods false sat false .rn |>.oD d |>.oA a |>.oB b)
  | .isubExt x ty sat d a b => some ((rawX x 0x00 3).t ty |>.mods false sat false .rn |>.oD d |>.oA a |>.oB b)
  | .imulExt x ty sat d a b => some ((rawX x 0x00 4).t ty |>.mods false sat false .rn |>.oD d |>.oA a |>.oB b)
  | .imulhExt x ty d a b => some ((rawX x 0x00 5).t ty |>.oD d |>.oA a |>.oB b)
  | .imad x ty sat d a b c => some ((rawX x 0x00 6).t ty |>.mods false sat false .rn |>.oD d |>.oA a |>.oB b |>.oC c)
  | .iminExt x ty d a b => some ((rawX x 0x00 7).t ty |>.oD d |>.oA a |>.oB b)
  | .imaxExt x ty d a b => some ((rawX x 0x00 8).t ty |>.oD d |>.oA a |>.oB b)
  | .iabs x ty sat d a => some ((rawX x 0x00 9).t ty |>.mods false sat false .rn |>.oD d |>.oA a)
  | .ineg x ty sat d a => some ((rawX x 0x00 10).t ty |>.mods false sat false .rn |>.oD d |>.oA a)
  | .andExt x ty d a b => some ((rawX x 0x00 11).t ty |>.oD d |>.oA a |>.oB b)
  | .orExt x ty d a b => some ((rawX x 0x00 12).t ty |>.oD d |>.oA a |>.oB b)
  | .xorExt x ty d a b => some ((rawX x 0x00 13).t ty |>.oD d |>.oA a |>.oB b)
  | .notExt x ty d a => some ((rawX x 0x00 14).t ty |>.oD d |>.oA a)
  | .shlExt x ty d a b => some ((rawX x 0x00 15).t ty |>.oD d |>.oA a |>.oB b)
  | .shrExt x ty d a b => some ((rawX x 0x00 16).t ty |>.oD d |>.oA a |>.oB b)
  | .sarExt x ty d a b => some ((rawX x 0x00 17).t ty |>.oD d |>.oA a |>.oB b)
  | .bfx x ty d a b => some ((rawX x 0x00 18).t ty |>.oD d |>.oA a |>.oB b)
  | .bfi x ty d a b c => some ((rawX x 0x00 19).t ty |>.oD d |>.oA a |>.oB b |>.oC c)
  | .popc x ty d a => some ((rawX x 0x00 20).t ty |>.oD d |>.oA a)
  | .clz x ty d a => some ((rawX x 0x00 21).t ty |>.oD d |>.oA a)
  | .brev x ty d a => some ((rawX x 0x00 22).t ty |>.oD d |>.oA a)
  | .leaExt x ty k d a b => some ((rawX x 0x00 23).t ty |>.oD d |>.oA a |>.oB b |>.w2 (0#27 ++ k))
  | .sel x ty d a b q nq => some ((rawX x 0x00 24).t ty |>.oD d |>.oA a |>.oB b |>.w2 (0#26 ++ bit nq ++ q))
  | .faddExt x ty m d a b => some ((rawX x 0x01 0).t ty |>.mods false false m.ftz m.rm |>.oD d |>.oA a |>.oB b)
  | .fsubExt x ty m d a b => some ((rawX x 0x01 1).t ty |>.mods false false m.ftz m.rm |>.oD d |>.oA a |>.oB b)
  | .fmulExt x ty m d a b => some ((rawX x 0x01 2).t ty |>.mods false false m.ftz m.rm |>.oD d |>.oA a |>.oB b)
  | .ffma x ty m d a b c => some ((rawX x 0x01 3).t ty |>.mods false false m.ftz m.rm |>.oD d |>.oA a |>.oB b |>.oC c)
  | .fminExt x ty ftz d a b => some ((rawX x 0x01 4).t ty |>.mods false false ftz .rn |>.oD d |>.oA a |>.oB b)
  | .fmaxExt x ty ftz d a b => some ((rawX x 0x01 5).t ty |>.mods false false ftz .rn |>.oD d |>.oA a |>.oB b)
  | .frndExt x ty m d a => some ((rawX x 0x01 6).t ty |>.mods false false m.ftz m.rm |>.oD d |>.oA a)
  | .fdiv x m d a b => some ((rawX x 0x02 0).t .f32 |>.mods false false m.ftz m.rm |>.oD d |>.oA a |>.oB b)
  | .rcp x m d a => some ((rawX x 0x02 1).t .f32 |>.mods false false m.ftz m.rm |>.oD d |>.oA a)
  | .rsq x m d a => some ((rawX x 0x02 2).t .f32 |>.mods false false m.ftz m.rm |>.oD d |>.oA a)
  | .sqrt x m d a => some ((rawX x 0x02 3).t .f32 |>.mods false false m.ftz m.rm |>.oD d |>.oA a)
  | .ex2 x m d a => some ((rawX x 0x02 4).t .f32 |>.mods false false m.ftz m.rm |>.oD d |>.oA a)
  | .lg2 x m d a => some ((rawX x 0x02 5).t .f32 |>.mods false false m.ftz m.rm |>.oD d |>.oA a)
  | .fcvt x dt sty m d a b => some ((rawX x 0x03 0).mods m.sr m.sat m.ftz m.rm |>.oD d |>.oA a |>.oBo b |>.w2 (0#22 ++ dt.code ++ sty.code))
  | .ftoiExt x dt sty rm d a => some ((rawX x 0x03 1).mods false false false rm |>.oD d |>.oA a |>.w2 (0#22 ++ dt.code ++ sty.code))
  | .itofExt x dt sty m d a => some ((rawX x 0x03 2).mods false false m.ftz m.rm |>.oD d |>.oA a |>.w2 (0#22 ++ dt.code ++ sty.code))
  | .icmp x ty cc p a b => some ((rawX x 0x04 0).t ty |>.dP p |>.oA a |>.oB b |>.w2 (0#26 ++ cc.code))
  | .fcmp x ty cc ftz p a b => some ((rawX x 0x04 1).t ty |>.mods false false ftz .rn |>.dP p |>.oA a |>.oB b |>.w2 (0#26 ++ cc.code))
  | .pandExt x p q nq r nr => some ((rawX x 0x05 0).dP p |>.aP q |>.bP r |>.w2 (0#28 ++ bit nr ++ bit nq))
  | .porExt x p q nq r nr => some ((rawX x 0x05 1).dP p |>.aP q |>.bP r |>.w2 (0#28 ++ bit nr ++ bit nq))
  | .pxorExt x p q nq r nr => some ((rawX x 0x05 2).dP p |>.aP q |>.bP r |>.w2 (0#28 ++ bit nr ++ bit nq))
  | .pnotExt x p q nq => some ((rawX x 0x05 3).dP p |>.aP q |>.w2 (0#29 ++ bit nq))
  | .pmovExt x p q nq => some ((rawX x 0x05 4).dP p |>.aP q |>.w2 (0#29 ++ bit nq))
  | .braExt x off => some ((rawX x 0x08 0).xOff off)
  | .brxExt x a => some ((rawX x 0x08 1).oA a)
  | .callExt x d off => some ((rawX x 0x08 2).oD ⟨.v, d⟩ |>.xOff off)
  | .retExt x a => some ((rawX x 0x08 3).oA a)
  | .exitExt x => some (rawX x 0x08 4)
  | .yieldExt x => some (rawX x 0x08 5)
  | .nopExt x => some (rawX x 0x08 6)
  | .rcvSet x slot => some ((rawX x 0x09 0).w2 (0#26 ++ slot))
  | .rcvWait x p slot n => some ((rawX x 0x09 1).dP p |>.w2 (0#6 ++ n ++ slot))
  | .barArv x n k => some ((rawX x 0x0A 0).w2 (0#20 ++ k ++ n))
  | .barWait x n => some ((rawX x 0x0A 1).w2 (0#26 ++ n))
  | .barSync x n k => some ((rawX x 0x0A 2).w2 (0#20 ++ k ++ n))
  | .cbar x m => some ((rawX x 0x0A 3).w2 (0#28 ++ m.code))
  | .dqpush x b => some ((rawX x 0x0B 0).oB b)
  | .dqpushAll x b => some ((rawX x 0x0B 1).oB b)
  | .dqpop x gd p => some ((rawX x 0x0B 2).oD ⟨.g, gd⟩ |>.w2 (0#27 ++ p))
  | .mfsr x d sl => some ((rawX x 0x0B 3).oD ⟨.v, d⟩ |>.w2 (0#22 ++ sl))
  | .trap x code => some ((rawX x 0x0B 4).w2 (0#14 ++ code))
  | .bkptExt x code => some ((rawX x 0x0B 5).w2 (0#16 ++ code))
  | .waitt x a => some ((rawX x 0x0B 6).oA a)
  | .shflIdxExt x ty seg d a b => some ((rawX x 0x0C 0).t ty |>.oD ⟨.v, d⟩ |>.oA a |>.oB b |>.w2 (0#27 ++ seg))
  | .shflUpExt x ty seg d a b => some ((rawX x 0x0C 1).t ty |>.oD ⟨.v, d⟩ |>.oA a |>.oB b |>.w2 (0#27 ++ seg))
  | .shflDownExt x ty seg d a b => some ((rawX x 0x0C 2).t ty |>.oD ⟨.v, d⟩ |>.oA a |>.oB b |>.w2 (0#27 ++ seg))
  | .shflXorExt x ty seg d a b => some ((rawX x 0x0C 3).t ty |>.oD ⟨.v, d⟩ |>.oA a |>.oB b |>.w2 (0#27 ++ seg))
  | .qxchHExt x ty d a => some ((rawX x 0x0C 4).t ty |>.oD ⟨.v, d⟩ |>.oA ⟨.v, a⟩)
  | .qxchVExt x ty d a => some ((rawX x 0x0C 5).t ty |>.oD ⟨.v, d⟩ |>.oA ⟨.v, a⟩)
  | .qxchDExt x ty d a => some ((rawX x 0x0C 6).t ty |>.oD ⟨.v, d⟩ |>.oA ⟨.v, a⟩)
  | .voteAny x seg p q => some ((rawX x 0x0C 7).dP p |>.aP q |>.w2 (0#27 ++ seg))
  | .voteAll x seg p q => some ((rawX x 0x0C 8).dP p |>.aP q |>.w2 (0#27 ++ seg))
  | .voteEq x seg p q => some ((rawX x 0x0C 9).dP p |>.aP q |>.w2 (0#27 ++ seg))
  | .ballotExt x d q => some ((rawX x 0x0C 10).oD ⟨.v, d⟩ |>.aP q)
  | .matchX x ty d a => some ((rawX x 0x0C 11).t ty |>.oD ⟨.v, d⟩ |>.oA ⟨.v, a⟩)
  | .compact x d q => some ((rawX x 0x0C 12).oD ⟨.v, d⟩ |>.aP q)
  | .gscan x ty opn ex seg d a => some ((rawX x 0x0C 13).t ty |>.oD ⟨.v, d⟩ |>.oA ⟨.v, a⟩ |>.w2 (0#22 ++ bit ex ++ opn.code ++ 0#1 ++ seg))
  | .gred x ty opn seg d a => some ((rawX x 0x0C 14).t ty |>.oD ⟨.v, d⟩ |>.oA ⟨.v, a⟩ |>.w2 (0#23 ++ opn.code ++ 0#1 ++ seg))
  | .ld x hint o fmt d a off => some ((rawX x 0x10 0).ldF fmt hint |>.oD d |>.oA a |>.oOff off |>.w2 (o.bits ++ fmt.bits ++ off.boff ++ 0#17))
  | .st x hint o fmt a off c => some ((rawX x 0x10 1).stF fmt hint |>.oA a |>.oOff off |>.oC c |>.w2 (o.bits ++ fmt.bits ++ 0#1 ++ off.boff ++ 0#17))
  | .ldC x hint o w sx cap d a disp => some ((rawX x 0x10 2).hintM hint |>.oD d |>.oA a |>.oDisp disp |>.w2 (o.bits ++ w.code ++ 0#3 ++ bit sx ++ 0#4 ++ cap ++ 0#11))
  | .stC x hint o w cap a disp c => some ((rawX x 0x10 3).hintM hint |>.oA a |>.oDisp disp |>.oC c |>.w2 (o.bits ++ w.code ++ 0#8 ++ cap ++ 0#11))
  | .lde x hint o w d a off rp e => some ((rawX x 0x11 0).hintM hint |>.oD ⟨.v, d⟩ |>.oA a |>.oOff off |>.w2 (o.bits ++ w.code ++ 0#4 ++ off.boff ++ rp ++ 0#3 ++ e.bits))
  | .atom x hint o op ty d a b c rp e => some ((rawX x 0x11 1).t ty |>.hintM hint |>.oD ⟨.v, d⟩ |>.oA a |>.oB b |>.oC c |>.w2 (o.bits ++ 0#3 ++ op.code ++ 0#1 ++ rp ++ 0#3 ++ e.bits))
  | .red x hint o op ty a b => some ((rawX x 0x11 2).t ty |>.hintM hint |>.oA a |>.oB b |>.w2 (o.bits ++ 0#3 ++ op.code ++ 0#18))
  | .atomC x hint o op ty cap d a b c rp e => some ((rawX x 0x11 3).t ty |>.hintM hint |>.oD ⟨.v, d⟩ |>.oA a |>.oB b |>.oC c |>.w2 (o.bits ++ 0#3 ++ op.code ++ 0#1 ++ rp ++ cap ++ e.bits))
  | .redC x hint o op ty cap a b => some ((rawX x 0x11 4).t ty |>.hintM hint |>.oA a |>.oB b |>.w2 (o.bits ++ 0#3 ++ op.code ++ 0#4 ++ cap ++ 0#11))
  | .chs x hint d a b rp e => some ((rawX x 0x12 0).hintM hint |>.oD ⟨.v, d⟩ |>.oA a |>.oB b |>.w2 (0#13 ++ rp ++ 0#3 ++ e.bits))
  | .fnc x hint sc gd => some ((rawX x 0x13 0).hintM hint |>.oD gd |>.w2 (sc.code ++ 0#27))
  | .waitf x hint ga => some ((rawX x 0x13 1).hintM hint |>.oA ga)
  | .acp x hint gd a b c => some ((rawX x 0x14 0).hintM hint |>.oD gd |>.oA a |>.oB b |>.oC c)
  | .sraff x hint k lsh lon a b c => some ({ rawX x 0x15 0 with d := 0#3 ++ k }.hintM hint |>.oA a |>.oB b |>.oC c |>.w2 (0#5 ++ lsh ++ bit lon ++ 0#20))
  | .srind x hint k lsh lon sc a b c => some ({ rawX x 0x15 1 with d := 0#3 ++ k }.hintM hint |>.oA a |>.oB b |>.oC c |>.w2 (0#5 ++ lsh ++ bit lon ++ sc ++ 0#17))
  | .srprb x hint k rp => some ({ rawX x 0x15 2 with d := 0#3 ++ k }.hintM hint |>.w2 (0#13 ++ rp ++ 0#14))
  | .srstop x hint k => some ({ rawX x 0x15 3 with d := 0#3 ++ k }.hintM hint)
  | .gath x hint km1 sc d a b rp e => some ((rawX x 0x16 0).hintM hint |>.oD ⟨.v, d⟩ |>.oA a |>.oB b |>.w2 (0#5 ++ km1 ++ sc ++ 0#1 ++ rp ++ 0#3 ++ e.bits))
  | .scat x hint km1 sc a b c => some ((rawX x 0x16 1).hintM hint |>.oA a |>.oB b |>.oC ⟨.v, c⟩ |>.w2 (0#5 ++ km1 ++ sc ++ 0#18))
  | .scatAdd x hint ty km1 sc a b c => some ((rawX x 0x16 2).t ty |>.hintM hint |>.oA a |>.oB b |>.oC ⟨.v, c⟩ |>.w2 (0#5 ++ km1 ++ sc ++ 0#18))
  | .capld x cd a disp => some ((rawX x 0x17 0).dP cd |>.oA a |>.oDisp disp)
  | .capst x a disp cs => some ((rawX x 0x17 1).cP cs |>.oA a |>.oDisp disp)
  | .capnar x cd ca b c mask => some ((rawX x 0x17 2).dP cd |>.aP ca |>.oB b |>.oC c |>.w2 (0#26 ++ mask))
  | .caprst x cd => some ((rawX x 0x17 3).dP cd)
  | .capchk x p ca b c mask => some ((rawX x 0x17 4).dP p |>.aP ca |>.oB b |>.oC c |>.w2 (0#26 ++ mask))
  | .csrr x d n => some ((rawX x 0x18 0).oD ⟨.v, d⟩ |>.w2 (0#18 ++ n))
  | .csrw x n a => some ((rawX x 0x18 1).oA a |>.w2 (0#18 ++ n))
  | .eret x act => some ((rawX x 0x18 2).w2 (0#28 ++ act.code))
  | .capmk x cd b => some ((rawX x 0x18 3).dP cd |>.oB (.reg b))
  | .capmkRec x a b w => some ((rawX x 0x18 3).oA a |>.oB (.reg b) |>.w2 (0#22 ++ 1#1 ++ w))
  | .regroup x slot w => some ((rawX x 0x19 0).w2 (0#16 ++ w ++ slot))
  | .launch x gd a q => some ((rawX x 0x19 1).oD gd |>.oA a |>.w2 (0#20 ++ q))
  | .evsig x b => some ((rawX x 0x19 2).oB b)
  | .evwait x a b => some ((rawX x 0x19 3).oA a |>.oB b)
  | .mzero x md => some ((rawX x 0x1C 0).dM md)
  | .mrd x d md b => some ((rawX x 0x1C 1).oD d |>.aM md |>.oB b)
  | .mwr x md a b => some ((rawX x 0x1C 2).dM md |>.oA a |>.oB b)
  | .mwmk x d md => some ((rawX x 0x1C 3).oD d |>.aM md)
  | .mldb x ty bl a stride => some ({ rawX x 0x1C 4 with d := 0#6 ++ bit bl }.t ty |>.oA a |>.w2 (0#6 ++ stride))
  | .mgata x ty a b stride => some ((rawX x 0x1C 5).t ty |>.oA a |>.oB b |>.w2 (0#6 ++ stride))
  | .mmq x md bl => some ({ rawX x 0x1C 6 with a := 0#6 ++ bit bl }.dM md)
  | .mms x md a gs c => some ((rawX x 0x1C 7).dM md |>.oA a |>.oB (.reg gs) |>.oC c)
  | .mst x ty m gd a md stride => some ((rawX x 0x1C 8).t ty |>.mods m.sr m.sat m.qc m.rm |>.oD gd |>.oA a |>.bM md |>.w2 (0#6 ++ stride))
  | .tcut x gd a bud sc => some ((rawX x 0x1D 0).oD gd |>.oA a |>.w2 (0#19 ++ sc ++ bud))
  | .infl x n a => some ((rawX x 0x1E 0).oA a |>.w2 (0#28 ++ n))
  | .attn x absorb gd a md n => some ((rawX x 0x1E 1).oD gd |>.oA a |>.bM md |>.w2 (0#27 ++ bit absorb ++ n))
  | .kvapp x rm sat gd p a b c => some ((rawX x 0x1E 2).mods false sat false rm |>.oD gd |>.oA a |>.oB b |>.oC c |>.w2 (0#27 ++ p))
  | .kvtrim x gd p a c => some ((rawX x 0x1E 3).oD gd |>.oA a |>.oC c |>.w2 (0#27 ++ p))
  | .kvqry x d a sl => some ((rawX x 0x1E 4).oD d |>.oA a |>.w2 (0#27 ++ sl))
  | .pcAging _ _ => none
  | .pendingForcedDemotion _ _ => none
  | .rcvTimeout _ _ _ => none
  | .scoreboardWriteback _ => none
  | .waitfRelease _ _ => none
  | .waittRelease _ _ => none
  | .evwaitRelease _ _ => none
  | .fncTokenWrite _ => none
  | .teamAdmission _ => none
  | .bankConversion _ _ => none
  | .reply _ _ => none
  | .refill _ => none
  | .homeRequest _ => none
  | .storeCompletion _ => none
  | .tableWalk _ _ _ => none
  | .escortAccept _ _ => none
  | .escortDrop _ _ => none
  | .backoffExpiry _ _ => none
  | .hop _ => none
  | .remoteEscortTimeout _ => none
  | .localEscortTimeout _ _ => none
  | .streamElementFetch _ _ _ _ => none
  | .probePass _ => none
  | .acpCompletion _ => none
  | .scatCompletion _ => none
  | .matrixOpCompletion _ => none
  | .mstCompletion _ => none
  | .attnCompletion _ => none
  | .kvtrimFramePush _ => none
  | .conjugatorExpiry _ => none
  | .conjugateGroupFormation _ => none
  | .integrityError _ _ _ => none
  | .unconsumedError _ _ _ => none
  | .correctedError _ _ => none
  | .faultRecordWrite _ => none
  | .faultQueueSetup _ _ _ => none
  | .fqheadWrite _ _ => none
  | .retry _ _ => none
  | .skip _ _ => none
  | .kill _ _ => none
  | .translationInvalidate _ _ => none
  | .invalidateCompletion _ => none
  | .preemptionRequest _ => none
  | .stopTime _ => none
  | .saveDone _ => none
  | .restore _ _ => none
  | .lqnotify _ _ _ => none
  | .lqctlWrite _ _ _ => none
  | .launchRecordTake _ => none
  | .launchWaitCheck _ => none
  | .dispatchDecision => none
  | .launchCompletion _ => none
  | .eventSignal _ _ => none
  | .fcoresWrite _ _ _ => none
  | .sliceEnd => none
  | .kvpush _ _ _ _ => none
  | .kvrclWrite _ _ => none
  | .errorCounterWrite _ _ => none
  | .registerWrite _ _ _ => none
  | .perstDeassert => none
  | .firmwareCheck _ _ => none
  | .pllLock _ _ => none
  | .hbmTraining _ _ => none
  | .memoryZeroing _ _ => none
  | .gtcStart _ _ => none
  | .configurationRequest => none
  | .bar2Read _ _ _ _ => none
  | .bar2Write _ _ _ _ => none
  | .lockInterface _ _ => none
  | .startInterface _ _ => none
  | .stopInterface _ _ => none
  | .functionLevelReset _ => none
  | .ideIntegrityFailure _ => none
  | .lockedRegisterWrite _ _ _ => none
  | .getVersion => none
  | .getCapabilities => none
  | .negotiateAlgorithms => none
  | .getDigests => none
  | .getCertificate => none
  | .challenge => none
  | .getMeasurements _ => none
  | .keyExchange => none
  | .finish _ => none
  | .heartbeat _ => none
  | .keyUpdate _ => none
  | .endSession _ => none
  | .l2waysWrite _ _ => none
  | .migExport _ => none
  | .migImport _ => none
  | .migConfirm _ => none
  | .migRelease _ => none
  | .migClear _ => none
  | .migrationExpiry _ => none
  | .migrationDeadline _ => none
  | .fabricIngressRequest _ _ _ _ _ _ _ => none
  | .remoteReply _ _ _ _ => none
  | .portDown _ => none
  | .timeSync _ _ => none
  | .laneSample _ _ => none
  | .quietPoint _ => none
  | .forcedIdleGap _ => none
  | .dvfsWindow _ _ => none
  | .thermalThrottle => none
  | .thermalTrip => none
  | .perstAssert => none
  | .hostLinkDown _ => none
  | .hostLinkUp _ => none
  | .portUp _ => none
  | .firmwareActivation => none

/-- The words of an instruction (R45 to R68); an event has none. -/
def Instr.encode (i : Instr) : List Word :=
  match i.raw with
  | some r => r.words
  | none => []

/-- Decoding of the words at a program counter: fields, then meaning, then what R69 calls illegal whatever
the header. The number is the instruction's length in words. -/
def decodeWords (ws : List Word) : Except DecodeError (Instr × Nat) :=
  match Raw.ofWords ws with
  | none => .error .truncated
  | some r =>
    match r.parse with
    | none => .error .unassigned
    | some i =>
      if i.raw = some r then
        if i.wf then .ok (i, wordsOfLen r.len) else .error .illFormed
      else .error .reserved

/-- Little-endian words of bytes (R4). -/
def wordsOfBytes : List Byte → List Word
  | b0 :: b1 :: b2 :: b3 :: rest => (b3 ++ b2 ++ b1 ++ b0 : Word) :: wordsOfBytes rest
  | _ => []

def bytesOfWord (w : Word) : List Byte :=
  [w.extractLsb' 0 8, w.extractLsb' 8 8, w.extractLsb' 16 8, w.extractLsb' 24 8]

/-- Decoding of the bytes at a program counter, total on any bytes. -/
def decode (bs : List Byte) : Except DecodeError (Instr × Nat) := decodeWords (wordsOfBytes bs)

/-- The bytes in memory of an instruction given as a number whose bit 0 is the least significant bit of its
first word: the longest instruction has 20 bytes, and bits the number does not give are zero. -/
def tableBytes (w : Nat) : List Byte := (List.range 20).map fun i => BitVec.ofNat 8 (w / 2 ^ (8 * i))

/-- What the decoder reads from a table word (the host's question). -/
def decodeTableWord (nbits w : Nat) : Option Instr :=
  match decode (tableBytes (w % 2 ^ nbits)) with
  | .ok (i, _) => some i
  | .error _ => none

end Sys2Proof
end

