-- ==== Sys2Proof/Machine/State.lean ====
section
/-! DEFINITION. The machine's state as plain data, the reasons a step can stop, and the state after reset.
Every field names the rule of spec/ that gives it. What no rule names is the model's own and says so. -/

namespace Sys2Proof.Machine

/-- Why the machine stops with a fault. -/
inductive Fault where
  /-- An access to a physical address that R102 reserves. No meaning raises it: a program's access to one takes the translation
  fault of R104, and what MIGBUF names there is neither read nor written (log 4). Safe. -/
  | noSuchAddress
  deriving DecidableEq, Repr

/-- Why a step is refused. -/
inductive Refusal where
  /-- No meaning was given. Raised by arms of `exec` not yet written. Safe. -/
  | notModelled (mnemonic : String)
  /-- The agenda names an instruction word where only a device event can stand. Raised by `step`. Safe:
  the agenda is the model's own. -/
  | turnNotEvent
  deriving DecidableEq, Repr

/-- A map by number in canonical form: keys rising, nothing listed that equals the default. -/
abbrev Tab (α : Type) := List (Nat × α)

/-- Privilege levels (R218). -/
inductive Level where | u | h | s
  deriving DecidableEq, Repr

/-- A capability register: 128 bits and a hidden tag (R208). -/
structure Capa where
  val : BitVec 128 := 0
  tag : Bool := false
  deriving DecidableEq, Repr

/-- Who issues: a group, a conjugate group or the lead thread of a team (R7, R28, R258). -/
inductive Actor where
  | grp (n : Nat)
  | conj (k : Nat)
  | lead
  deriving DecidableEq, Repr

/-- What holds a thread (R13, R112, R257). -/
inductive TState where
  | run
  /-- waits at RCV.WAIT of a slot for a predicate (R19) -/
  | rcv (slot : Nat) (p : BitVec 3)
  /-- waits for a generation of a team barrier, or of the cluster barrier as number 16 (R153, R154) -/
  | bar (n gen : Nat)
  /-- waits in WAITF for a token (R125) -/
  | tok (t : Word)
  /-- waits in WAITT (R159) -/
  | time (t : Dword)
  /-- waits in EVWAIT, of a length in bytes (R255) -/
  | event (e : Nat) (thr : Dword) (len : Nat)
  /-- parked under an issue tag (R112) -/
  | parked (tag : Word)
  /-- parked for a handler class, waiting for the handler (R219) -/
  | trapWait (tag : Word)
  /-- submitted to the Conjugator (R257) -/
  | submitted
  /-- executed EXIT with registers abroad (R35) -/
  | exiting
  | exited
  deriving DecidableEq, Repr

/-- A thread and the registers of its home lane (R8, R54); the lead thread holds s in `v`. -/
structure Thread where
  pc : Dword := 0
  v : Tab Word := []
  p : BitVec 8 := 0x80
  c : Tab Capa := []
  level : Level := .u
  st : TState := .run
  /-- earliest cycle of the next issue (R62) -/
  ready : Nat := 0
  /-- slot words: member and arrived bits (R19) -/
  member : BitVec 16 := 0
  arrived : BitVec 16 := 0
  deriving DecidableEq, Repr

/-- A latch: decoded elements as FP32 images at 32·row + element, and its K (R270). -/
structure Latch where
  k : Nat := 32
  e : Tab Word := []
  deriving DecidableEq, Repr

/-- What a check found wrong with an access (R110, R213, R215). -/
structure Flt where
  cls : Nat
  kind : Nat
  addr : Dword
  peer : Nat := 0
  deriving DecidableEq, Repr

/-- An element a stream holds ahead of its read: its value, or the fault its read will raise (R202). -/
inductive BufVal where
  | val (w : Word)
  | flt (f : Flt)
  deriving DecidableEq, Repr

structure BufEnt where
  lane : Nat
  idx : Nat
  val : BufVal
  /-- when the element performed (R196) -/
  at_ : Nat
  deriving DecidableEq, Repr

/-- A stream register (R200 to R204). -/
structure Stream where
  active : Bool := false
  ind : Bool := false
  /-- base, index base, stride and count, by lane (R76, R201) -/
  a : Tab Dword := []
  b : Tab Dword := []
  stride : Tab Word := []
  count : Tab Nat := []
  lsh : Nat := 0
  lon : Bool := false
  sc : Nat := 0
  /-- the hint of its element loads (R174) -/
  hint : Nat := 0
  /-- next element to be read, per lane -/
  cur : Tab Nat := []
  buf : List BufEnt := []
  /-- pages pinned by SRPRB, by number va / 65536 -/
  pins : List Nat := []
  /-- what had been issued as it was configured, whose names lie below, and what acquires allow (R121, R126, R202) -/
  cfg : Nat := 0
  floor : Nat := 0
  /-- acquires without a time stood before it -/
  acqs : Bool := false
  deriving DecidableEq, Repr

/-- TCAUSE, TPC, TADDR, TMASK, TWORD (R233). -/
structure TrapRegs where
  cause : Dword := 0
  pc : Dword := 0
  addr : Dword := 0
  mask : Dword := 0
  word : Dword := 0
  deriving DecidableEq, Repr

/-- Age of a program counter of a group: issue cycles unselected in a row (R16). -/
structure Age where
  pc : Dword
  n : Nat
  aged : Bool
  deriving DecidableEq, Repr

/-- A group; also a conjugate group (`pos` says which thread stands where) and the lead thread as a group of
one thread (R7, R28, R54, R258). -/
structure Group where
  g : Tab Word := []
  /-- token marks with their 64-bit times (R125) -/
  marks : Tab Dword := []
  /-- dither phase (R96) -/
  phase : BitVec 6 := 0
  bl : Tab Latch := []
  al : Tab Latch := []
  streams : Tab Stream := []
  trap : TrapRegs := {}
  threads : List Thread := []
  /-- conjugate group: its number, and home group and lane at each position (R258) -/
  id : Nat := 0
  pos : List (Option (Nat × Nat)) := []
  /-- slot of the REGROUP that formed it (R260) -/
  slot : Nat := 0
  sub : Nat := 0
  active : Bool := false
  /-- cycle since when it is issuable in the pending set (R27), and since when it is pending (R38) -/
  since : Option Nat := none
  pendSince : Nat := 0
  /-- last issue cycle, or cycle of promotion if later, and earliest issue after a promotion (R26, R27) -/
  lastIssue : Nat := 0
  notBefore : Nat := 0
  ages : List Age := []
  /-- expiry of each reconvergence slot, in core cycles; absent: none (R19) -/
  expiry : Tab Nat := []
  /-- generation plus 1 of the last arrival at each barrier; 16 is the cluster barrier (R153) -/
  arr : Tab Nat := []
  /-- invalidates started and not completed, and the latest completion time (R234) -/
  invs : List Nat := []
  invT : Dword := 0
  /-- latest known perform or completion time of its accesses, remote ones apart (R124) -/
  doneT : Nat := 0
  doneY : Nat := 0
  /-- acquire accesses without a time yet, and the earliest time for accesses after those known (R126) -/
  acqs : List (Nat × Bool) := []
  floor : Nat := 0
  /-- ellipsis registers that stand in the landing share or are to leave it (R37, R38) -/
  landed : List Nat := []
  /-- ellipsis registers spilled, and the cycle of spilling (R38, R40) -/
  spilled : List Nat := []
  spillAt : Nat := 0
  /-- refilled and not yet issued since (R40) -/
  fresh : Bool := false
  /-- 1 more than the cycle in which it last issued YIELD (R150) -/
  yieldAt : Nat := 0
  deriving DecidableEq, Repr

/-- The kernel header (R72). -/
structure Header where
  check : Bool := false
  h : Nat := 1
  e : Nat := 0
  d : Nat := 0
  gcount : Nat := 16
  tregs : Nat := 0
  acc : Nat := 0
  streams : Nat := 0
  scratch : Nat := 0
  esccap : Nat := 0
  leadoff : Nat := 0
  groupoff : Nat := 64
  codebytes : Nat := 4
  deriving DecidableEq, Repr

/-- A result whose cycle of landing is known (R62): due cycle, order within a cycle (R34, R59). -/
structure PipeW where
  /-- name of a `t` write, which fences and barriers wait for (R123, R124) -/
  id : Nat := 0
  due : Nat
  ord : Nat
  who : Actor
  /-- home group and lane of the thread written; the lead thread is lane 0 of no group -/
  grp : Nat
  lane : Nat
  cls : Nat
  no : Nat
  val : Word
  /-- a scoreboarded result on its last step: its readers still wait (R34, R62) -/
  sb : Bool := false
  /-- a cross-lane result, which fences cover until it is written (R124) -/
  xl : Bool := false
  /-- the time a token names (R125) -/
  tok : Option Nat := none
  deriving DecidableEq, Repr

/-- A completed generation whose lanes wait for scratchpad accesses and `t` writes, by id (R123). -/
structure BarHold where
  gen : Nat
  ids : List Nat
  deriving DecidableEq, Repr

/-- A barrier: generation, count of the first arrival, arrivals (R153). -/
structure Bar where
  gen : Nat := 0
  k : Nat := 0
  arr : List Nat := []
  /-- accesses and writes outstanding as participants arrived, by name (R123) -/
  ids : List Nat := []
  holds : List BarHold := []
  deriving DecidableEq, Repr

/-- An entry of the decision queue (R31). -/
structure DqEnt where
  val : Word
  bcast : Bool
  taken : List Nat
  deriving DecidableEq, Repr

/-- An accumulator tile: FP32 at 16·row + column, and the watermark before and after cycle `cyc` (R263, R265). -/
structure Tile where
  c : Tab Word := []
  wm : Nat := 32
  wmNew : Nat := 32
  cyc : Nat := 0
  deriving DecidableEq, Repr

/-- A filled Inflector slot (R290). -/
structure InflSlot where
  uk : Dword
  uv : Dword
  dl : Nat
  dh : Nat
  wt : Ty
  deriving DecidableEq, Repr

/-- A candidate of the Conjugator (R257): thread, program counter, submission and expiry cycle, slot. -/
structure Cand where
  grp : Nat
  lane : Nat
  pc : Dword
  sub : Nat
  expiry : Nat
  slot : Nat
  deriving DecidableEq, Repr

/-- An entry of the token table of a saved context (R227). -/
structure TokEnt where
  eng : Nat
  who : Actor
  reg : Nat
  done : Bool
  tok : Dword
  deriving DecidableEq, Repr

/-- Where a team stands (R36, R224, R225). -/
inductive Place where
  /-- placed and waiting for admission (R42) -/
  | admitting
  | resident
  /-- past its stop time, save not done (R224) -/
  | stopped (ts : Nat)
  | saved
  /-- saved, and placed by a dispatch decision on `core`: its restore is under way (R230, R251) -/
  | restoring
  deriving DecidableEq, Repr

/-- Actions of resumes recorded for a saved context (R217). -/
structure Resume where
  tag : Word
  act : Action
  deriving DecidableEq, Repr

/-- A team (R7, R35). -/
structure Team where
  id : Nat
  launch : Nat
  num : Nat
  core : Nat
  place : Place := .admitting
  t : Tab Word := []
  lead : Option Group := none
  groups : List Group := []
  conj : List Group := []
  cands : List Cand := []
  pipe : List PipeW := []
  /-- scratchpad bytes (R99) -/
  scratch : Tab Byte := []
  banks : List Nat := []
  tiles : Tab Tile := []
  infl : Tab InflSlot := []
  bars : Tab Bar := []
  dq : List DqEnt := []
  /-- work slot (R243) -/
  wslot : Nat := 0
  /-- escort sectors charged (R182) -/
  esc : Nat := 0
  /-- token table (R227), resumes recorded (R217), address of its save (R226), when saved (R251) -/
  toks : List TokEnt := []
  resumes : List Resume := []
  saveArea : Dword := 0
  savedAt : Nat := 0
  /-- a pre-emption was requested (R224) -/
  preempt : Bool := false
  /-- space of its landing share became free, and no refill has been tried since (R40) -/
  freed : Bool := false
  /-- 1 more than the latest GTC at which a reply to it was diverted (R229) -/
  divT : Nat := 0
  deriving DecidableEq, Repr

/-- Fields of a launch record (R239). -/
structure LaunchRec where
  hdr : Dword := 0
  teams : Nat := 1
  g : Nat := 1
  c : Nat := 1
  lead : Bool := false
  prio : Nat := 0
  waits : List (Nat × Dword) := []
  ranges : List (Nat × Nat) := []
  sig : Option Nat := none
  args : List Word := []
  deriving DecidableEq, Repr

/-- Progress of a taken launch (R240 to R246). -/
inductive LStage where
  | waiting
  /-- tags of migration requests not yet answered (R246) -/
  | migrating (tags : List Word)
  | placing
  | running
  deriving DecidableEq, Repr

/-- A launch (R239 to R242) with its error registers (R214). -/
structure Launch where
  id : Nat
  q : Nat
  k : Nat
  world : Nat
  r : LaunchRec := {}
  hdr : Header := {}
  level : Level := .u
  stage : LStage := .waiting
  /-- when its waits and requests were met (R251) -/
  readyAt : Nat := 0
  placed : Nat := 0
  ended : Nat := 0
  refused : Bool := false
  aborted : Bool := false
  ctxerr : BitVec 9 := 0
  errSet : Bool := false
  errpc : Dword := 0
  errword : Word := 0
  /-- latest perform or completion time of its accesses, remote ones plus 64 (R242) -/
  latest : Nat := 0
  /-- cluster barriers by cluster number (R154) -/
  cbars : Tab Bar := []
  deriving DecidableEq, Repr

/-- A launch queue (R237). -/
structure Queue where
  slots : Nat := 0
  stk : Nat := 0
  owner : Nat := 0
  size : Nat := 4
  priv : Bool := false
  devq : Bool := false
  status : Nat := 0
  en : Bool := false
  base : Dword := 0
  cbase : Dword := 0
  work : Dword := 0
  slotsz : Nat := 0
  head : Word := 0
  tail : Word := 0
  /-- time before which record `tail` - 1 is not read: completion of LAUNCH's store (R240) -/
  avail : Nat := 0
  /-- ring stores of LAUNCH without a completion time (R254) -/
  stores : List Nat := []
  held : List Nat := []
  deriving DecidableEq, Repr

/-- A fault record before it is written (R215, R335). -/
structure FRec where
  cls : Nat
  kind : Nat := 5
  flags : Nat := 1
  peer : Nat := 0
  tag : Word := 0
  lanes : Word := 0
  addr : Dword := 0
  pc : Dword := 0
  word : Word := 0
  world : Nat := 0
  source : Nat := 0
  team : Nat := 0
  grp : Nat := 0xFFFF
  code : Nat := 0
  launch : Nat := 0
  gtc : Nat := 0
  deriving DecidableEq, Repr

/-- A posted write to the host (R306, R310): the world whose function it names, the link it takes (none while both are
down), the host address and the bytes. -/
structure HostPost where
  world : Nat
  link : Option Bool
  addr : Nat
  data : List Byte
  deriving DecidableEq, Repr

/-- TDI states (R308). -/
inductive Tdi where | unlocked | locked | run | error
  deriving DecidableEq, Repr

/-- A free list with its registers (R288): base, capacity, count, frames of KVTRIM not yet pushed. -/
structure FreeList where
  base : Dword := 0
  cap : Nat := 0
  count : Nat := 0
  pending : Nat := 0
  deriving DecidableEq, Repr

/-- Migration states (R322). -/
inductive Mig where | idle | sent | done | waitrel | run | lost
  deriving DecidableEq, Repr

/-- A world (R6, R308) and its registers. -/
structure World where
  root : Nat := 0
  ctxctl : Dword := 0
  tvec : Dword := 0
  tvlen : Dword := 0
  fqbase : Dword := 0
  fqsize : Nat := 0
  fqhead : Word := 0
  fqtail : Word := 0
  /-- records held in order (R216) -/
  held : List FRec := []
  roshift : Nat := 4
  lease : Nat := 256
  hwin : Dword := 0
  evbase : Dword := 0
  hbmch : Dword := 0xFFFFFFFFFFFFFFFF
  hostlnk : Bool := false
  prot : Bool := false
  l2ways : BitVec 16 := 0
  weight : Nat := 1
  slice : Nat := 1000
  age : Nat := 16
  fcores : BitVec 256 := 0
  free : Tab FreeList := []
  quota : List Nat := [0, 0]
  borrow : List Nat := [0, 0]
  used : List Nat := [0, 0]
  kvrcl : BitVec 5 := 0
  tdi : Tdi := .unlocked
  /-- epoch of its keys: none when not held (R308) -/
  keys : Option Nat := none
  /-- sealing on: PROT as it stood at LOCK_INTERFACE (R313) -/
  sealing : Bool := false
  /-- CTXERR, ERRPC, ERRWORD of the last launch that completed in error (R214) -/
  lastErr : BitVec 9 := 0
  lastPc : Dword := 0
  lastWord : Word := 0
  mig : Mig := .idle
  migsess : Nat := 0
  migwin : Nat := 1000000
  migbuf : Dword := 0
  miglen : Dword := 0
  migEnd : Nat := 0
  migNo : Nat := 0
  /-- an EXPORT was accepted and waits for its saves: the model's own -/
  migGo : Bool := false
  /-- MSI-X table, every vector masked at reset (log 16), and pending bits (R314) -/
  msix : Tab Byte := [(12, 1), (28, 1), (44, 1), (60, 1), (76, 1), (92, 1), (108, 1), (124, 1)]
  msiPend : BitVec 8 := 0
  /-- invalidates of the host not completed, and the completion of the world's latest (R234) -/
  hostInvs : List Nat := []
  invT : Dword := 0
  /-- latest time of a BAR2 write (R309) -/
  bar2T : Nat := 0
  deriving DecidableEq, Repr

/-- A translation held by a TLB (R108): base, log2 of its size, and the leaf's fields. -/
structure TlbEnt where
  world : Nat
  base : Nat
  bits : Nat
  pa : Nat
  rd : Bool
  wr : Bool
  roc : Bool
  mt : Nat
  fmt : Nat
  geo : Nat
  stride : Nat
  deriving DecidableEq, Repr

/-- A non-leaf entry held by a die's TLB (R108). -/
structure NodeEnt where
  world : Nat
  level : Nat
  tag : Nat
  node : Nat
  deriving DecidableEq, Repr

/-- A line of an L1 under lease (R118). Its bytes are the home's: no store completes before the expiry. -/
structure L1Line where
  world : Nat
  line : Nat
  sectors : BitVec 4
  expiry : Nat
  /-- first candidate for eviction (R174) -/
  first : Bool := false
  deriving DecidableEq, Repr

/-- A stack sector held by an L1 (R100). -/
structure StackSec where
  team : Nat
  sec : Nat
  bytes : List Byte
  dirty : Bool
  deriving DecidableEq, Repr

/-- A core: ESCBUD (R182), L1 (R113), L1 TLB (R108), banks not owned and not L1 (R41), issue cursors. -/
structure Core where
  budget : Nat := 8192
  used : Nat := 0
  l1 : List L1Line := []
  /-- lines of the Inflector weight cache (R290) -/
  wc : List L1Line := []
  stack : List StackSec := []
  tlb : List TlbEnt := []
  /-- banks converted and unowned (R42), and banks that ended teams released in this cycle (R41) -/
  free : List Nat := []
  rel : List Nat := []
  /-- team and group order last selected per sub-core, and team whose lead thread last issued (R14, R28) -/
  last : Tab (Nat × Nat) := []
  leadLast : Nat := 0
  /-- 1 more than the last cycle in which it issued -/
  lastCyc : Nat := 0
  deriving DecidableEq, Repr

/-- A compute die: cycle counter (R19), ESCRPL (R186), ESCTO (R222), error counters (R315), die TLB (R108). -/
structure Die where
  cycle : Nat := 0
  win : Nat := 64
  maxsh : Nat := 6
  backoff : Nat := 32
  toLocal : Nat := 100000
  toRemote : Nat := 2000
  errs : Tab Nat := []
  thresh : Nat := 0
  errSig : Tab Nat := []
  tlb : List TlbEnt := []
  nodes : List NodeEnt := []
  deriving DecidableEq, Repr

/-- A fabric port (R323, R327). -/
structure Port where
  up : Bool := false
  sync : Bool := false
  weak : Nat := 0
  spared : Nat := 15
  quiet : Nat := 10000
  margin : Nat := 0x400
  cerate : Nat := 100
  /-- weak samples in a row per lane, and the lane chosen for sparing -/
  runs : Tab Nat := []
  cand : Option Nat := none
  candAt : Nat := 0
  deriving DecidableEq, Repr

/-- Where an access acts: a physical address, a scratchpad offset, or a stack byte at a physical address. -/
inductive Space where
  | glob (pa : Nat)
  | scr (off : Nat)
  | stk (pa : Nat)
  deriving DecidableEq, Repr

/-- Where an access delivers: part `i` of a scoreboarded result, or word `i` of a lane of an escorted request. -/
inductive Tgt where
  | none
  | pend (id i : Nat)
  | esc (req lane i : Nat)
  /-- a reply over the fabric to a device (R324) -/
  | out (dev : Nat)
  deriving DecidableEq, Repr

/-- What an access does (R177 to R179, R192). -/
inductive FOp where
  /-- `n` bytes extended into registers -/
  | load (tgt : Tgt) (n : Nat) (sx : Bool)
  /-- elements of a record: position and result index (R178) -/
  | eload (tgt : Tgt) (fmt : Nat) (items : List (Nat × Nat)) (ty : Ty)
  | store (data : List Byte)
  /-- elements into a record: position and FP32 image; rounding, and the phase under dither (R179) -/
  | estore (fmt : Nat) (items : List (Nat × Word)) (rm : Rm) (sr : Option Nat) (whole : Bool)
  /-- a sequence record read for `KVQRY` (R302): selector and world -/
  | kvqry (tgt : Tgt) (sel world : Nat)
  /-- a signal of an event: COUNT up by one, TIME its W (R244) -/
  | signal
  /-- one atomic per lane, in home order: where the old value goes, operand, compare value (R192) -/
  | atomic (op : Aop) (ty : Ty) (parts : List (Tgt × Dword × Dword))
  deriving DecidableEq, Repr

/-- An access issued and not finished (R117 to R128). -/
structure Flight where
  id : Nat
  team : Nat
  who : Actor
  /-- home group and lane of the thread, for program order (R121) -/
  grp : Nat
  lane : Nat
  source : Nat
  world : Nat
  launch : Nat
  core : Nat
  space : Space
  /-- bytes touched -/
  n : Nat
  op : FOp
  /-- 0 no fill, 1 fill, 2 fill with the long lease, 3 as a first candidate for eviction (R118, R174) -/
  fill : Nat
  /-- earliest time, and accesses whose time must be known first (R121, R126) -/
  floor : Nat
  after : List Nat
  /-- an access of an engine does not wait for the engine's own lines (R127) -/
  eng : Option Nat
  /-- acquire, acquire at scope Y, and release at scope Y (R126) -/
  acq : Bool
  acqY : Bool
  relY : Bool
  /-- other threads whose atomics it carries (R121, R192) -/
  peers : List (Nat × Nat) := []
  deriving DecidableEq, Repr

/-- The last request that a home or a scratchpad served at the present GTC: its source, its name, and whether any of
them was a load (R117, R129, R333). -/
structure Served where
  src : Nat
  id : Nat
  rd : Bool
  deriving DecidableEq, Repr

/-- A store or atomic at its home, completing at W in home order (R119). -/
structure HomeSt where
  id : Nat
  world : Nat
  team : Nat
  who : Actor
  launch : Nat
  pa : Nat
  n : Nat
  w : Nat
  op : FOp
  /-- the engine that writes -/
  eng : Option Nat
  /-- reached from the host or as raw ciphertext (R321) -/
  raw : Bool
  /-- the write-back of a stack sector (R100) -/
  wb : Bool := false
  /-- the threads whose access it is, for program order (R121) -/
  lanes : List (Nat × Nat) := []
  deriving DecidableEq, Repr

/-- How parts become registers: as they are, or two 16-bit elements each (R178). -/
inductive Pack where | words | halves
  deriving DecidableEq, Repr

/-- A scoreboarded result not yet written (R62). -/
structure Pend where
  id : Nat
  team : Nat
  who : Actor
  grp : Nat
  lane : Nat
  cls : Nat
  no : Nat
  cnt : Nat
  vals : List (Option Word)
  pack : Pack := .words
  /-- tile operations that come first (R265) -/
  tiles : List Nat := []
  /-- a capability register takes all four words and this tag -/
  tag : Bool := false
  /-- the time a token names (R125) -/
  tok : Option Nat := none
  /-- counts as a cross-lane result for fences (R124) -/
  xlane : Bool := false
  /-- destination abroad: GATH without escort (R207); the results of one issue share a name, and each knows the threads -/
  abroad : Bool := false
  issue : Nat := 0
  peers : List (Nat × Nat) := []
  /-- token of an `ACP`, which a team may have 64 of (R227) -/
  acp : Bool := false
  deriving DecidableEq, Repr

/-- Holding points of an escort (R185). -/
inductive Hold where
  | port
  | slice (n : Nat)
  | die (n : Nat)
  | egress (n : Nat)
  deriving DecidableEq, Repr

inductive EStat where
  | out
  /-- results known, reply under way -/
  | replied
  /-- a fault reply under way (R188) -/
  | faulted
  | landed
  | diverted
  | divPark
  deriving DecidableEq, Repr

/-- One lane of an escorted request (R181, R228). -/
structure EscLane where
  grp : Nat
  lane : Nat
  orig : List Word
  esc : List Word
  dest : List (Option Word)
  stat : EStat := .out
  hold : Hold := .port
  /-- where it goes next: slice of its home, base die, egress port -/
  path : Hold := .slice 0
  /-- its place in the sending order of where it stands (R186) -/
  arr : Nat := 0
  dropped : Bool := false
  drops : Nat := 0
  retryAt : Nat := 0
  /-- the physical line that its access asks for (R223) -/
  line : Nat := 0
  /-- its faults, and when they were detected (R188, R215) -/
  flts : List Flt := []
  detAt : Nat := 0
  /-- its fault has come home and is not recorded yet; it was diverted (R229) -/
  due : Bool := false
  div : Bool := false
  deriving DecidableEq, Repr

/-- An accepted escorted request (R182, R228). -/
structure EscReq where
  id : Nat
  slot : Nat
  team : Nat
  who : Actor
  core : Nat
  world : Nat
  launch : Nat
  ebase : Nat
  ecnt : Nat
  dreg : Nat
  dcnt : Nat
  charge : Nat
  /-- the core whose USED holds the charge; none: the saved context holds it (R225) -/
  on : Option Nat
  depart : Nat
  pc : Dword
  len : Nat
  word : Word
  lanes : List EscLane
  /-- landed before the stop time (R228) -/
  landed0 : Word := 0
  tag : Word := 0
  /-- its probe pass faulted: every lane parks (R206) -/
  probe : Bool := false
  /-- faults that its issue raised before it was sent, which are recorded with its own: thread, fault, time (R215) -/
  early : List ((Nat × Nat) × Flt × Nat) := []
  deriving DecidableEq, Repr

/-- A hop-engine walk of one lane (R194). -/
structure Walk where
  id : Nat
  team : Nat
  who : Actor
  grp : Nat
  lane : Nat
  world : Nat
  launch : Nat
  core : Nat
  desc : Word
  start : Dword
  node : Dword
  hops : Nat
  e : List Word
  /-- escorted: request and index of its lane; refused: results of d, then of the escort registers (R195) -/
  esc : Option (Nat × Nat)
  dPend : Nat
  ePends : List Nat
  floor : Nat
  after : List Nat
  pc : Dword
  len : Nat
  word : Word
  /-- shared by the walks of one issue -/
  issue : Nat
  deriving DecidableEq, Repr

/-- A fence whose token is not written (R124). -/
structure Fence where
  id : Nat
  team : Nat
  who : Actor
  pend : Nat
  waits : List Nat
  latest : Nat
  y : Bool
  deriving DecidableEq, Repr

/-- One write of an engine, or one addition of SCAT.ADD. -/
structure EWrite where
  space : Space
  op : FOp
  n : Nat
  deriving DecidableEq, Repr

/-- What an engine past its checks does (R127, R199, R207, R264, R277, R297, R300, R301). -/
inductive EngKind where
  /-- copy: destination and source space per 32-byte sector -/
  | acp (secs : List (Space × Space))
  | scat (writes : List EWrite)
  /-- a tile operation: tile numbers and rows it writes, and the cycle in which a write of registers or of zeros is
  complete; 0 for an operation of an engine (R265, R275) -/
  | tile (ts : List Nat) (rows : Word) (due : Nat)
  /-- tile operations that come first, and the writes captured (R277) -/
  | mst (first : List Nat) (writes : List EWrite)
  | attn (ts : List Nat) (rows : Word) (pend : Nat)
  /-- past its serving: owns the record lines until the time of its token -/
  | kvapp
  /-- frames to push after the invalidate: tier and class code, frame; the invalidate's id -/
  | kvtrim (frames : List (Nat × Nat)) (inv : Option Nat)
  deriving DecidableEq, Repr

structure Engine where
  id : Nat
  team : Nat
  who : Actor
  launch : Nat
  world : Nat
  core : Nat
  kind : EngKind
  /-- result to receive the token -/
  pend : Option Nat
  /-- lines owned at their homes (R127) -/
  lines : List Nat
  /-- pages pinned -/
  pins : List Nat
  floor : Nat
  after : List Nat
  /-- the threads that issued it (R121, R124) -/
  lanes : List (Nat × Nat) := []
  deriving DecidableEq, Repr

/-- A lane of a probe: position, home group and lane, data base, index base, sources. -/
structure PLane where
  pos : Nat
  grp : Nat
  lane : Nat
  a : Dword
  b : Dword
  src : List Word
  deriving DecidableEq, Repr

/-- What had been issued before a cycle by an actor, which a fence of that cycle covers (R124): names below `cut`, and the
latest times known then, remote ones apart. -/
structure Before where
  cut : Nat
  known : Nat
  knownY : Nat
  deriving DecidableEq, Repr

/-- The issuing context of the instruction in hand: the model's own field (log 2). -/
structure IssueCtx where
  core : Nat := 0
  team : Nat := 0
  who : Actor := .grp 0
  /-- positions of the issuing path -/
  mask : BitVec 32 := 0
  level : Level := .u
  pc : Dword := 0
  len : Nat := 4
  word : Word := 0
  /-- 0 first slot or alone, 1 second slot (R14) -/
  slot : Nat := 0
  /-- what had been issued before the cycle of issue (R124); none: all that has been issued -/
  before : Option Before := none
  /-- names of what was issued later than the instruction begin here; none: nothing was -/
  limit : Option Nat := none
  deriving DecidableEq, Repr

/-- The registers of an instruction that issued and has not acted, as its issue found them (R58): the group's, the team's,
those of each lane. -/
structure Issued where
  ctx : IssueCtx
  g : Tab Word
  phase : BitVec 6
  streams : Tab Stream
  t : Tab Word
  /-- `v` registers and predicates, lane by lane -/
  regs : List (Tab Word × BitVec 8)
  /-- who stood where in a conjugate group (R258) -/
  pos : List (Option (Nat × Nat))
  /-- the bytes that it touches; none: they depend on what it reads -/
  touch : Option (List (Space × Nat))
  /-- tiles and rows that it writes (R265) -/
  tiles : List Nat
  rows : Word
  deriving DecidableEq, Repr

/-- A GATH, SCAT or SCAT.ADD in its probe pass (R206), with everything its lanes named at issue; and an instruction of
another kind that issued and has not acted (`held`). -/
structure Probe where
  id : Nat
  team : Nat
  who : Actor
  launch : Nat
  world : Nat
  core : Nat
  instr : Instr
  pc : Dword
  len : Nat
  word : Word
  lanes : List PLane
  /-- results of GATH: per lane, or the escorted request -/
  pends : List Nat
  req : Option Nat
  floor : Nat
  after : List Nat
  /-- global lines owned from issue (R127) -/
  lines : List Nat
  /-- the pass is over without a fault, and pins pages; the index words are to be read again (R206) -/
  passed : Bool := false
  pins : List Nat := []
  held : Option Issued := none
  deriving DecidableEq, Repr

/-- A translation invalidate in progress (R234). -/
structure Inval where
  id : Nat
  world : Nat
  /-- 0 to 3 of SPAN, and the page number -/
  span : Nat
  page : Nat
  by_ : Option (Nat × Actor)
  /-- accesses whose names lie below it began before it; none: it begins when stores complete at `start` (R301) -/
  cut : Option Nat := none
  start : Nat := 0
  deriving DecidableEq, Repr

/-- A remote request sent and not answered (R189, R209, R324). -/
structure Remote where
  id : Nat
  team : Nat
  who : Actor
  grp : Nat
  lane : Nat
  world : Nat
  launch : Nat
  core : Nat
  peer : Nat
  group : Bool
  va : Dword
  n : Nat
  op : FOp
  esc : Option (Nat × Nat)
  sentAt : Nat
  acq : Bool
  floor : Nat
  after : List Nat
  pc : Dword
  len : Nat
  word : Word
  /-- shared by the requests of one issue -/
  issue : Nat
  deriving DecidableEq, Repr

/-- Faults of an issue whose lanes are still answering, so not recorded yet (R215): thread, fault, time of
detection. -/
structure Late where
  key : Nat
  core : Nat
  team : Nat
  who : Actor
  pc : Dword
  len : Nat
  word : Word
  tag : Word
  flts : List ((Nat × Nat) × Flt × Nat) := []
  deriving DecidableEq, Repr

/-- Lanes parked under an issue tag (R215, R217). -/
structure Park where
  tag : Word
  world : Nat
  team : Nat
  who : Actor
  /-- home group, home lane -/
  lanes : List (Nat × Nat)
  cls : Nat
  fetch : Bool
  trapCls : Bool
  pc : Dword
  len : Nat
  word : Word
  /-- waiting to enter the handler, with the fields of its record for the lowest page (R219) -/
  handler : Option FRec := none
  /-- the threads whose faults that record names, and the core cycle of the park (R219, R236) -/
  low : List (Nat × Nat) := []
  cyc : Nat := 0
  /-- in the handler now: ERET ends it -/
  inH : Bool := false
  deriving DecidableEq, Repr

/-- An SPDM session (R317, R318). -/
structure Session where
  id : Nat
  mgen : Nat
  finished : Bool
  ended : Bool
  worlds : List Nat
  deriving DecidableEq, Repr

/-- Why a security request is refused (R305, R317, R318): a device not ready or full, a session that a generation
ended, or a request that names no session, interface or measurement in the state it needs. -/
inductive ReqErr where | busy | requestResynch | notAccepted
  deriving DecidableEq, Repr

/-- What a security or host request is answered with (R305, R309, R317). The code of an SPDM answer is the place of its
request in the list of R317. -/
inductive Answer where
  | retryStatus
  | success
  | unsupported
  | data (bs : List Byte)
  | spdm (code : Nat) (body : BitVec 256)
  | reqError (e : ReqErr)
  /-- a reply over the fabric to a device: error class, data, time (R324) -/
  | fabric (dev : Nat) (err : Option Nat) (ws : List Word) (w : Nat)
  deriving DecidableEq, Repr

/-- Whose turn it is: the model's own (log 2). -/
inductive Turn where
  /-- a device event of the opcode table -/
  | event (i : Instr)
  /-- one cycle of the issue stages of a core's sub-cores and of its scalar front end: selection, and the first
  instruction selected (R14, R28) -/
  | issue (core : Nat)
  /-- time passes: nanoseconds of the GTC, and cycles of each die -/
  | time (ns : Nat) (cycles : Nat)
  /-- an L1 drops a line, or writes back and drops a stack sector (R100, R118) -/
  | evict (core line : Nat)
  | evictStack (core sec : Nat)
  /-- a TLB drops the entry of a page (R108) -/
  | tlbDrop (die core : Nat) (world page : Nat)
  /-- the physical function gives a world its root node (R103) -/
  | setRoot (w pa : Nat)
  /-- host software changes its own memory behind the host window (R310) -/
  | hostStore (pa : Nat) (data : List Byte)
  deriving DecidableEq, Repr

/-- The whole machine. -/
structure State where
  gtc : Nat := 0
  gtcOn : Bool := false
  rdy : Bool := false
  memz : Bool := false
  fail : Bool := false
  therm : Bool := false
  stage : Nat := 0
  failcode : BitVec 8 := 0
  powered : Bool := false
  clocks : Bool := false
  mgen : Nat := 1
  fabid : Nat := 0
  fbind : Tab Dword := []
  temp : BitVec 16 := 0
  point : BitVec 16 := 0
  limit : Nat := 1500
  links : Bool × Bool := (true, true)
  ports : Tab Port := []
  dies : Tab Die := []
  cores : Tab Core := []
  mem : List Host.Cell := []
  /-- sectors held sealed: world and key epoch (R320) -/
  seals : Tab (Nat × Nat) := []
  leases : Tab Nat := []
  lastW : Tab Nat := []
  /-- what homes, scratchpads and launch queues served at the present GTC: by line, by 2^48 plus the team, by 2^50 plus the
  queue; 2^49 stands for reads of many lines (R117, R129, R261, R333) -/
  served : Tab Served := []
  flights : List Flight := []
  homes : List HomeSt := []
  pends : List Pend := []
  escs : List EscReq := []
  walks : List Walk := []
  fences : List Fence := []
  engines : List Engine := []
  probes : List Probe := []
  invals : List Inval := []
  egress : List Remote := []
  lates : List Late := []
  parks : List Park := []
  teams : List Team := []
  launches : List Launch := []
  queues : Tab Queue := []
  worlds : Tab World := []
  /-- holder of the shared cores, the end of its slice (0: not begun), and the round-robin state (R250, R252) -/
  holder : Option Nat := some 0
  sliceEnd : Nat := 0
  /-- pre-emptions of the holder whose saves the next slice waits for (R252) -/
  handing : Option Nat := none
  rrNext : Nat := 0
  rrLeft : Nat := 0
  sessions : List Session := []
  hostPosts : List HostPost := []
  signals : List (Nat × Nat) := []
  replies : List Answer := []
  /-- instructions selected in the cycle under way and not yet executed: ascending group, lead last, first slot
  before second (R14, R34, R153) -/
  issueQ : List (IssueCtx × Instr) := []
  cur : IssueCtx := {}
  agenda : List Turn := []
  free : Nat := 0
  nextId : Nat := 1
  nextTeam : Nat := 1
  deriving DecidableEq, Repr

/-- The machine at reset (R304, R305): every register at its reset value, STAGE 0. PERST# deassertion begins stage 1
(log 3). -/
def State.reset : State := {}

end Sys2Proof.Machine
end

