-- ==== Sys2Proof/Machine/Tab.lean ====
section
/-! DEFINITION. Maps by number in canonical form: reading, writing, and the form itself. Memory is such a map
from addresses to bytes whose default is zero (R102, R304). -/

namespace Sys2Proof.Machine

/-- The value at a key; the default where nothing is listed. -/
def tabGet {α : Type} (t : List (Nat × α)) (k : Nat) (d : α) : α :=
  match t with
  | [] => d
  | (k', v) :: r => if k = k' then v else if k < k' then d else tabGet r k d

/-- Drops a key. -/
def tabDel {α : Type} (t : List (Nat × α)) (k : Nat) : List (Nat × α) :=
  match t with
  | [] => []
  | (k', v) :: r => if k = k' then tabDel r k else if k < k' then (k', v) :: r else (k', v) :: tabDel r k

/-- Lists a key with a value. -/
def tabPut {α : Type} (t : List (Nat × α)) (k : Nat) (x : α) : List (Nat × α) :=
  match t with
  | [] => [(k, x)]
  | (k', v) :: r => if k = k' then (k, x) :: r else if k < k' then (k, x) :: (k', v) :: r else (k', v) :: tabPut r k x

/-- Writes a value: the default is not listed. -/
def tabSet {α : Type} [DecidableEq α] (t : List (Nat × α)) (k : Nat) (x d : α) : List (Nat × α) :=
  if x = d then tabDel t k else tabPut t k x

/-- Keys from `lo` upward, rising, and no listed default. -/
def tabFrom {α : Type} [DecidableEq α] (t : List (Nat × α)) (lo : Nat) (d : α) : Bool :=
  match t with
  | [] => true
  | (k, v) :: r => decide (lo ≤ k) && decide (v ≠ d) && tabFrom r (k + 1) d

/-- The canonical form. -/
def tabWf {α : Type} [DecidableEq α] (t : List (Nat × α)) (d : α) : Bool := tabFrom t 0 d

/-- Keys rise. -/
abbrev tabRises {α : Type} (t : List (Nat × α)) : Prop := (t.map (·.1)).Pairwise (· < ·)

/-- The value listed at a key. -/
def tabFind {α : Type} (t : List (Nat × α)) (k : Nat) : Option α :=
  match t with
  | [] => none
  | (k', v) :: r => if k = k' then some v else if k < k' then none else tabFind r k

/-! ### Bytes of memory -/

/-- The canonical form of memory: addresses rising, no zero byte listed. -/
def Memory.wf (m : List Host.Cell) : Bool := tabWf m 0

/-- One byte; an address that nothing lists reads as zero (log 4). -/
def memByte (m : List Host.Cell) (a : Nat) : Byte := tabGet m a 0

def memSetByte (m : List Host.Cell) (a : Nat) (b : Byte) : List Host.Cell := tabSet m a b 0

/-- `n` bytes from an address upward. -/
def memBytes (m : List Host.Cell) (a : Nat) (n : Nat) : List Byte :=
  match n with
  | 0 => []
  | n + 1 => memByte m a :: memBytes m (a + 1) n

def memWrite (m : List Host.Cell) (a : Nat) (bs : List Byte) : List Host.Cell :=
  match bs with
  | [] => m
  | b :: r => memWrite (memSetByte m a b) (a + 1) r

/-- Little-endian value of bytes (R4, R75). -/
def leNat (bs : List Byte) : Nat :=
  match bs with
  | [] => 0
  | b :: r => b.toNat + 256 * leNat r

/-- The `n` low bytes of a value, low byte first (R4). -/
def leBytes (n v : Nat) : List Byte :=
  match n with
  | 0 => []
  | n + 1 => BitVec.ofNat 8 v :: leBytes n (v / 256)

end Sys2Proof.Machine
end

