-- ==== Sys2Proof/Machine/Fp.lean ====
section
/-! DEFINITION. Number formats and arithmetic (R77 to R89, R95, R97): values read exactly, one rounding. -/

namespace Sys2Proof.Machine

/-- A value read exactly: NaN, infinity, or (-1)^neg · m · 2^e (R77, R79). -/
inductive FVal where
  | nan
  | inf (neg : Bool)
  | fin (neg : Bool) (m : Nat) (e : Int)
  deriving DecidableEq, Repr

/-- A format (R77): fraction bits, exponent bits, bias, largest finite code without sign, NaN code, and
whether it has infinities. -/
structure FFmt where
  fb : Nat
  eb : Nat
  bias : Nat
  maxc : Nat
  nan : Nat
  hasInf : Bool
  deriving DecidableEq, Repr

/-- The formats of R77; integer and ZB codes are not read through this table. -/
def fpFmt : Ty → FFmt
  | .f16 => ⟨10, 5, 15, 0x7BFF, 0x7E00, true⟩
  | .b16 => ⟨7, 8, 127, 0x7F7F, 0x7FC0, true⟩
  | .e4m3 => ⟨3, 4, 7, 0x7E, 0x7F, false⟩
  | .e5m2 => ⟨2, 5, 15, 0x7B, 0x7E, true⟩
  | .f64 => ⟨52, 11, 1023, 0x7FEFFFFFFFFFFFFF, 0x7FF8000000000000, true⟩
  | _ => ⟨23, 8, 127, 0x7F7FFFFF, 0x7FC00000, true⟩

def FFmt.width (f : FFmt) : Nat := 1 + f.eb + f.fb

/-- The value of a register image (R77, R78): only the bits the format names are read. -/
def FFmt.dec (f : FFmt) (bits : Nat) : FVal :=
  let fr := bits % 2 ^ f.fb
  let ex := bits / 2 ^ f.fb % 2 ^ f.eb
  let neg := bits / 2 ^ (f.fb + f.eb) % 2 = 1
  let code := bits % 2 ^ (f.fb + f.eb)
  if code > f.maxc then
    if f.hasInf && fr = 0 then .inf neg else .nan
  else if ex = 0 then .fin neg fr (1 - (f.bias : Int) - f.fb)
  else .fin neg (fr + 2 ^ f.fb) ((ex : Int) - f.bias - f.fb)

def FFmt.withSign (f : FFmt) (neg : Bool) (code : Nat) : Nat :=
  if neg then code + 2 ^ (f.fb + f.eb) else code

/-- Subnormal operands read as zero of their sign under `.FTZ` (R80). -/
def FFmt.flush (f : FFmt) (ftz : Bool) (v : FVal) : FVal :=
  match v with
  | .fin neg m e => if ftz && m < 2 ^ f.fb && e = 1 - (f.bias : Int) - f.fb then .fin neg 0 e else v
  | _ => v

/-- How a magnitude between two grid points goes up (R79): quotient, remainder and divisor. -/
def roundsUp (rm : Rm) (neg : Bool) (q r d : Nat) : Bool :=
  match rm with
  | .rn => 2 * r > d || (2 * r = d && q % 2 = 1)
  | .rz => false
  | .ru => !neg && r > 0
  | .rd => neg && r > 0

/-- The dither matrix of R95, index row · 8 + column. -/
def ditherTab : List Nat :=
  [0, 32, 8, 40, 2, 34, 10, 42, 48, 16, 56, 24, 50, 18, 58, 26,
   12, 44, 4, 36, 14, 46, 6, 38, 60, 28, 52, 20, 62, 30, 54, 22,
   3, 35, 11, 43, 1, 33, 9, 41, 51, 19, 59, 27, 49, 17, 57, 25,
   15, 47, 7, 39, 13, 45, 5, 37, 63, 31, 55, 23, 61, 29, 53, 21]

/-- A rounding rule: a mode, or the dither of R95 with its index (R96). -/
inductive RndRule where
  | mode (rm : Rm)
  | dither (i : Nat)
  deriving DecidableEq, Repr

/-- The mode in which a result beyond the largest finite value overflows (R79, R95). -/
def RndRule.ovf : RndRule → Rm
  | .mode rm => rm
  | .dither _ => .rn

/-- Whether the magnitude q + r/d goes up; dither goes up when f · 64 > D[i] + 0.5 (R95). -/
def RndRule.up (rule : RndRule) (neg : Bool) (q r d : Nat) : Bool :=
  match rule with
  | .mode rm => roundsUp rm neg q r d
  | .dither i => 128 * r > (2 * (ditherTab.getD (i % 64) 0) + 1) * d

/-- m · 2^e as a whole number of steps 2^g, rounded under a rule. -/
def stepRound (rule : RndRule) (neg : Bool) (m : Nat) (e g : Int) : Nat :=
  if g ≤ e then m * 2 ^ (e - g).toNat
  else
    let d := 2 ^ (g - e).toNat
    let q := m / d
    if rule.up neg q (m % d) d then q + 1 else q

/-- Overflow of R79: infinity, the largest finite value, NaN where the format has no infinity, or the clamp
of `.SAT` (R86). -/
def FFmt.over (f : FFmt) (rm : Rm) (sat neg : Bool) : Nat :=
  let big := match rm with
    | .rn => true
    | .rz => false
    | .ru => !neg
    | .rd => neg
  if sat || !big then f.withSign neg f.maxc
  else if f.hasInf then f.withSign neg (f.maxc + 1)
  else f.nan

/-- Rounds (-1)^neg · m · 2^e once to the format (R79, R80, R86, R95). -/
def FFmt.round (f : FFmt) (rule : RndRule) (ftz sat neg : Bool) (m : Nat) (e : Int) : Nat :=
  if m = 0 then f.withSign neg 0
  else
    let emin : Int := 1 - (f.bias : Int) - f.fb
    let top : Int := e + Nat.log2 m
    let g : Int := max (top - f.fb) emin
    let q := stepRound rule neg m e g
    -- a carry into the next binade moves the step
    let q' := if q = 2 ^ (f.fb + 1) then 2 ^ f.fb else q
    let g' := if q = 2 ^ (f.fb + 1) then g + 1 else g
    let code := if q' < 2 ^ f.fb then q' else ((g' - emin).toNat + 1) * 2 ^ f.fb + (q' - 2 ^ f.fb)
    if code > f.maxc then f.over rule.ovf sat neg
    else if ftz && code < 2 ^ f.fb then f.withSign neg 0
    else f.withSign neg code

/-- A value encoded in the format; NaN is the canonical NaN of the format (R81). -/
def FFmt.enc (f : FFmt) (rule : RndRule) (ftz sat : Bool) (v : FVal) : Nat :=
  match v with
  | .nan => f.nan
  | .inf neg => if sat then f.withSign neg f.maxc else if f.hasInf then f.withSign neg (f.maxc + 1) else f.nan
  | .fin neg m e => f.round rule ftz sat neg m e

def FVal.neg : FVal → FVal
  | .nan => .nan
  | .inf n => .inf (!n)
  | .fin n m e => .fin (!n) m e

/-- Signed multiple of 2^g; g is at most the exponent. -/
def signedAt (neg : Bool) (m : Nat) (e g : Int) : Int :=
  let k : Int := (m * 2 ^ (e - g).toNat : Nat)
  if neg then -k else k

/-- A signed whole number of steps; zero takes the sign given. -/
def FVal.ofInt (zeroNeg : Bool) (k : Int) (g : Int) : FVal :=
  if k = 0 then .fin zeroNeg 0 g else .fin (k < 0) k.natAbs g

/-- Exact sum (R79, R141): x + (-x) is +0, and -0 under `.RD`. -/
def FVal.add (rm : Rm) (x y : FVal) : FVal :=
  match x, y with
  | .nan, _ => .nan
  | _, .nan => .nan
  | .inf a, .inf b => if a = b then .inf a else .nan
  | .inf a, _ => .inf a
  | _, .inf b => .inf b
  | .fin a m e, .fin b n f =>
    let g := min e f
    let zn := if m = 0 && n = 0 && a = b then a else rm = .rd
    .ofInt zn (signedAt a m e g + signedAt b n f g) g

/-- Exact product. -/
def FVal.mul (x y : FVal) : FVal :=
  match x, y with
  | .nan, _ => .nan
  | _, .nan => .nan
  | .inf a, .inf b => .inf (a != b)
  | .inf a, .fin b n _ => if n = 0 then .nan else .inf (a != b)
  | .fin a m _, .inf b => if m = 0 then .nan else .inf (a != b)
  | .fin a m e, .fin b n f => .fin (a != b) (m * n) (e + f)

/-- Quotient of two whole numbers with `k` more bits, its last bit set when it is not exact. -/
def divSticky (m n k : Nat) : Nat :=
  let q := m * 2 ^ k / n
  2 * q + (if m * 2 ^ k % n = 0 then 0 else 1)

/-- x / y (R83): enough bits for every rounding of the formats, the last one standing for the rest. -/
def FVal.div (x y : FVal) : FVal :=
  match x, y with
  | .nan, _ => .nan
  | _, .nan => .nan
  | .inf _, .inf _ => .nan
  | .inf a, .fin b _ _ => .inf (a != b)
  | .fin a _ _, .inf b => .fin (a != b) 0 0
  | .fin a m e, .fin b n f =>
    if n = 0 then (if m = 0 then .nan else .inf (a != b))
    else .fin (a != b) (divSticky m n 64) (e - f - 65)

/-- Whole square root, one bit at a time from bit `k - 1` down. -/
def isqrtFrom (n r k : Nat) : Nat :=
  match k with
  | 0 => r
  | k + 1 =>
    let r' := r + 2 ^ k
    if r' * r' ≤ n then isqrtFrom n r' k else isqrtFrom n r k

def isqrt (n : Nat) : Nat := isqrtFrom n 0 (Nat.log2 n / 2 + 1)

/-- m · 2^e with an even exponent. -/
def evenExp (m : Nat) (e : Int) : Nat × Int := if e % 2 = 0 then (m, e) else (2 * m, e - 1)

/-- √x (R83): square root of -0 is -0. -/
def FVal.sqrt (x : FVal) : FVal :=
  match x with
  | .nan => .nan
  | .inf neg => if neg then .nan else .inf false
  | .fin neg m e =>
    if m = 0 then .fin neg 0 e
    else if neg then .nan
    else
      let (m', e') := evenExp m e
      let n := m' * 2 ^ 64
      let s := isqrt n
      .fin false (2 * s + (if s * s = n then 0 else 1)) ((e' - 64) / 2 - 1)

/-- 1 / √x (R83). -/
def FVal.rsq (x : FVal) : FVal :=
  match x with
  | .nan => .nan
  | .inf neg => if neg then .nan else .fin false 0 0
  | .fin neg m e =>
    if m = 0 then .inf neg
    else if neg then .nan
    else
      let (m', e') := evenExp m e
      let n := 2 ^ 160
      let t := n / m'
      let s := isqrt t
      .fin false (2 * s + (if s * s * m' = n then 0 else 1)) ((-e') / 2 - 81)

/-- Bits of the fixed-point series below. -/
def fxBits : Nat := 192

/-- ln 2 in fixed point, rounded down. -/
def fxLn2 : Nat := 4350955369971217654477563090224794165364344896676135745069

/-- Terms of the exponential series: t^k / k! from k on, in fixed point. -/
def expTerms (t term k fuel : Nat) : Nat :=
  match fuel with
  | 0 => 0
  | fuel + 1 => term + expTerms t (term * t / 2 ^ fxBits / k) (k + 1) fuel

/-- 2^f for a fixed-point fraction f below 1. -/
def fxExp2 (f : Nat) : Nat := expTerms (f * fxLn2 / 2 ^ fxBits) (2 ^ fxBits) 1 60

/-- 2^x (R83). A value that is no whole number has no exact power: the last bit stands for the rest (log 15). -/
def FVal.ex2 (x : FVal) : FVal :=
  match x with
  | .nan => .nan
  | .inf neg => if neg then .fin false 0 0 else .inf false
  | .fin neg m e =>
    if m = 0 then .fin false 1 0
    else if 0 ≤ e || m % 2 ^ (-e).toNat = 0 then
      let k : Int := signedAt neg m (max e 0) 0
      let k' : Int := if 0 ≤ e then k else signedAt neg (m / 2 ^ (-e).toNat) 0 0
      if k' > 4096 then .fin false 1 4096 else if k' < -4096 then .fin false 1 (-4096) else .fin false 1 k'
    else if Nat.log2 m + e > 12 then .fin false 3 (if neg then -4096 else 4096)
    else
      let k : Int := if neg then -(m / 2 ^ (-e).toNat : Nat) - 1 else (m / 2 ^ (-e).toNat : Nat)
      let fr := m % 2 ^ (-e).toNat
      let d := 2 ^ (-e).toNat
      let f := if neg then (d - fr) * 2 ^ fxBits / d else fr * 2 ^ fxBits / d
      .fin false (2 * min (fxExp2 f) (2 ^ (fxBits + 1) - 1) + 1) (k - fxBits - 1)

/-- Odd terms of the inverse hyperbolic tangent: z^(2k+1) / (2k+1), in fixed point. -/
def atanhTerms (z2 pow k fuel : Nat) : Nat :=
  match fuel with
  | 0 => 0
  | fuel + 1 => pow / (2 * k + 1) + atanhTerms z2 (pow * z2 / 2 ^ fxBits) (k + 1) fuel

/-- log2 x (R83). A number that is no power of two has no exact logarithm (log 15). -/
def FVal.lg2 (x : FVal) : FVal :=
  match x with
  | .nan => .nan
  | .inf neg => if neg then .nan else .inf false
  | .fin neg m e =>
    if m = 0 then .inf true
    else if neg then .nan
    else
      let l := Nat.log2 m
      if m = 2 ^ l then .ofInt false (e + l) 0
      else
        -- m · 2^e = y · 2^k with y from 3/4 up to 3/2
        let up := 2 * m ≥ 3 * 2 ^ l
        let l' := if up then l + 1 else l
        let k : Int := e + l'
        let d := 2 ^ l'
        let num := if m < d then d - m else m - d
        let z := num * 2 ^ fxBits / (m + d)
        let fr := 2 * atanhTerms (z * z / 2 ^ fxBits) z 0 50 * 2 ^ fxBits / fxLn2
        let s : Int := k * (2 ^ fxBits : Nat) + (if m < d then -(fr : Int) else fr)
        let a := if (decide (k < 0) == decide (m < d)) || k = 0 then s.natAbs else s.natAbs - 1
        .fin (s < 0) (2 * a + 1) (-(fxBits : Int) - 1)

/-- x rounded to an integral value (R85): the sign of zero stays. -/
def FVal.rint (rm : Rm) (x : FVal) : FVal :=
  match x with
  | .fin neg m e => .fin neg (stepRound (.mode rm) neg m e 0) 0
  | v => v

/-- x rounded to an integer and clamped to a range; NaN gives 0 (R85). -/
def FVal.toInt (rm : Rm) (lo hi : Int) (x : FVal) : Int :=
  match x with
  | .nan => 0
  | .inf neg => if neg then lo else hi
  | .fin neg m e =>
    -- beyond 2^80 the magnitude is beyond every type
    let a : Int := if m ≠ 0 && e + Nat.log2 m > 80 then (2 ^ 81 : Nat) else (stepRound (.mode rm) neg m e 0 : Nat)
    let k := if neg then -a else a
    max lo (min hi k)

/-- Order of two numbers: none when one is NaN; -0 equals +0 (R144). -/
def FVal.cmp (x y : FVal) : Option Ordering :=
  match x, y with
  | .nan, _ => none
  | _, .nan => none
  | .inf a, .inf b => some (if a = b then .eq else if a then .lt else .gt)
  | .inf a, _ => some (if a then .lt else .gt)
  | _, .inf b => some (if b then .gt else .lt)
  | .fin a m e, .fin b n f =>
    let g := min e f
    let p := signedAt a m e g
    let q := signedAt b n f g
    some (if p < q then .lt else if p = q then .eq else .gt)

def FVal.isNeg : FVal → Bool
  | .nan => false
  | .inf n => n
  | .fin n _ _ => n

/-- minimumNumber and maximumNumber (R82): -0 is less than +0, and a number beats a NaN. -/
def FVal.minMax (isMax : Bool) (x y : FVal) : FVal :=
  match FVal.cmp x y with
  | none => if x = .nan then y else x
  | some .lt => if isMax then y else x
  | some .gt => if isMax then x else y
  | some .eq => if isMax then (if x.isNeg then y else x) else (if x.isNeg then x else y)

/-! ### FP32 images -/

def f32 (w : Word) : FVal := (fpFmt .f32).dec w.toNat

/-- `RoundF32(x, RN, no flush)` (R75). -/
def rnF32 (v : FVal) : Word := BitVec.ofNat 32 ((fpFmt .f32).enc (.mode .rn) false false v)

def addF32 (a b : Word) : Word := rnF32 (FVal.add .rn (f32 a) (f32 b))
def mulF32 (a b : Word) : Word := rnF32 (FVal.mul (f32 a) (f32 b))

/-- Exact sum of products of FP32 images, as R97 gives its NaN cases. A sum of nothing but negative zeros is +0, a sign
R97 does not give: DESIGN CHOICE (log 37). -/
def dotVal (ps : List (Word × Word)) : FVal :=
  ps.foldl (fun acc p => FVal.add .rn acc (FVal.mul (f32 p.1) (f32 p.2))) (.fin false 0 0)

/-! ### ZB blocks (R87 to R93) -/

/-- Magnitude bits m of a format (R87). -/
def zbM : Ty → Nat
  | .zb3 => 2
  | .zb5 => 4
  | _ => 7

/-- The element format of a page's code (R90). -/
def fmtTy (f : Nat) : Ty := if f = 1 then .zb3 else if f = 2 then .zb5 else .zb8

/-- Record bytes (R87). -/
def zbRec (t : Ty) : Nat := 8 * (zbM t + 1) + 8

/-- A block: exponent, micro-exponents, codes by position (R88). -/
structure ZbBlock where
  e : Nat
  mu : List Bool
  codes : List Nat
  deriving DecidableEq, Repr

/-- Value of an element (R87): s and M of a code, E and μ. -/
def zbVal (t : Ty) (e : Nat) (mu : Bool) (code : Nat) : FVal :=
  if e = 255 then .nan
  else
    let m := code % 2 ^ zbM t
    let s := code / 2 ^ zbM t % 2 = 1
    .fin (s && m ≠ 0) m ((e : Int) - 127 - (if mu then 1 else 0) - (zbM t - 1 : Nat))

/-- Grid step of R89 and R93: 2^(E-127) / 2^(m-1), halved under μ = 1, as a power of two. -/
def zbStep (t : Ty) (e : Nat) (mu : Bool) : Int := (e : Int) - 127 - (zbM t - 1 : Nat) - (if mu then 1 else 0)

/-- The magnitude of a number on a grid; infinities exceed every grid. -/
def zbMag (rule : RndRule) (t : Ty) (e : Nat) (mu : Bool) (v : FVal) : Nat :=
  match v with
  | .fin neg m ex => stepRound rule neg m ex (zbStep t e mu)
  | _ => 2 ^ 64

def zbMax (t : Ty) : Nat := 2 ^ zbM t - 1

def zbCode (t : Ty) (v : FVal) (m : Nat) : Nat := (if v.isNeg && m ≠ 0 then 2 ^ zbM t else 0) + m

/-- `FCVT.ZBn.F32` (R89): the ZB image of R77. -/
def zbEncode (t : Ty) (rule : RndRule) (v : FVal) (e : Nat) : Nat :=
  if e = 255 || v = .nan then 0x00FF0000
  else
    let m1 := zbMag rule t e true v
    let mu := m1 ≤ zbMax t
    let m := min (if mu then m1 else zbMag rule t e false v) (zbMax t)
    e * 65536 + (if mu then 256 else 0) + zbCode t v m

/-- The block in a record's bytes (R88). -/
def zbParse (t : Ty) (bs : List Byte) : ZbBlock :=
  let w := zbM t + 1
  let data := leNat (bs.take (8 * w))
  let mu := leNat ((bs.drop (8 * w + 1)).take 4)
  { e := (bs.getD (8 * w) 0).toNat
    mu := (List.range 32).map fun j => mu / 2 ^ j % 2 = 1
    codes := (List.range 64).map fun i => data / 2 ^ (w * i) % 2 ^ w }

/-- The bytes of a block (R88). -/
def zbBytes (t : Ty) (b : ZbBlock) : List Byte :=
  let w := zbM t + 1
  let data := b.codes.foldr (fun c acc => c + 2 ^ w * acc) 0
  let mu := b.mu.foldr (fun m acc => (if m then 1 else 0) + 2 * acc) 0
  leBytes (8 * w) data ++ leBytes 1 b.e ++ leBytes 4 mu ++ [0, 0, 0]

def ZbBlock.val (t : Ty) (b : ZbBlock) (i : Nat) : FVal :=
  zbVal t b.e (b.mu.getD (i / 2) false) (b.codes.getD i 0)

def zbNan : ZbBlock := { e := 255, mu := List.replicate 32 false, codes := List.replicate 64 0 }

/-- An element to be encoded: its value and its rounding. -/
abbrev ZbEl := FVal × RndRule

/-- The pair rule of R93 step 3: μ and both codes at an exponent; none when an M exceeds 2^m - 1. -/
def zbPair (t : Ty) (e : Nat) (x y : ZbEl) : Option (Bool × Nat × Nat) :=
  let fit (mu : Bool) := zbMag x.2 t e mu x.1 ≤ zbMax t && zbMag y.2 t e mu y.1 ≤ zbMax t
  let mk (mu : Bool) := (mu, zbCode t x.1 (zbMag x.2 t e mu x.1), zbCode t y.1 (zbMag y.2 t e mu y.1))
  if fit true then some (mk true) else if fit false then some (mk false) else none

/-- Whether every element fits at an exponent on the μ = 0 grid. -/
def zbFits (t : Ty) (e : Nat) (els : List ZbEl) : Bool := els.all fun x => zbMag x.2 t e false x.1 ≤ zbMax t

/-- The least exponent from `e` up at which every element fits; none beyond 0xFE. -/
def zbLeast (t : Ty) (els : List ZbEl) (e fuel : Nat) : Option Nat :=
  match fuel with
  | 0 => none
  | fuel + 1 => if e > 254 then none else if zbFits t e els then some e else zbLeast t els (e + 1) fuel

/-- All 32 pairs at one exponent. -/
def zbAll (t : Ty) (e : Nat) (els : List ZbEl) : ZbBlock :=
  let ps := (List.range 32).map fun j =>
    match zbPair t e (els.getD (2 * j) (.fin false 0 0, .mode .rn)) (els.getD (2 * j + 1) (.fin false 0 0, .mode .rn)) with
    | some p => p
    | none => (false, 0, 0)
  { e := e, mu := ps.map (·.1), codes := ps.flatMap fun p => [p.2.1, p.2.2] }

def FVal.isFinite : FVal → Bool
  | .fin _ _ _ => true
  | _ => false

/-- A store into a block (R93): new values by position, with the rounding of each position; `whole` asks for
step 1 whatever positions are written, the others being +0 (R299). A pair that a partial store does not touch keeps its
codes, also a zero with a sign: DESIGN CHOICE (log 37), since R93 does not say that such a code is written again. -/
def zbStore (t : Ty) (old : ZbBlock) (items : List (Nat × FVal)) (rule : Nat → RndRule) (whole : Bool) : ZbBlock :=
  let new (i : Nat) : Option FVal := (items.reverse.find? fun p => p.1 = i).map (·.2)
  let full := whole || (List.range 64).all fun i => (new i).isSome
  let finite := items.all fun p => p.2.isFinite
  if full && finite then
    let els : List ZbEl := (List.range 64).map fun i => ((new i).getD (.fin false 0 0), rule i)
    if els.all fun x => x.1.isFinite && (match x.1 with | .fin _ m _ => m = 0 | _ => false) then
      { e := 0, mu := List.replicate 32 true, codes := List.replicate 64 0 }
    else
      match zbLeast t els 0 256 with
      | some e => zbAll t e els
      | none => zbNan
  else if !finite || old.e = 255 then zbNan
  else
    let els : List ZbEl := (List.range 64).map fun i =>
      match new i with
      | some v => (v, rule i)
      | none => (old.val t i, .mode .rn)
    let touched (j : Nat) : Bool := (new (2 * j)).isSome || (new (2 * j + 1)).isSome
    let pairs := (List.range 32).map fun j =>
      if touched j then zbPair t old.e (els.getD (2 * j) (.nan, .mode .rn)) (els.getD (2 * j + 1) (.nan, .mode .rn))
      else some (old.mu.getD j false, old.codes.getD (2 * j) 0, old.codes.getD (2 * j + 1) 0)
    if pairs.all (·.isSome) then
      let ps := pairs.map fun p => p.getD (false, 0, 0)
      { e := old.e, mu := ps.map (·.1), codes := ps.flatMap fun p => [p.2.1, p.2.2] }
    else
      match zbLeast t els old.e 256 with
      | some e => zbAll t e els
      | none => zbNan

/-- Block and position of a logical byte of a formatted page (R91). -/
def zbPlace (geo stride o : Nat) : Nat × Nat :=
  let rl := 16 * 2 ^ stride
  let row := o / rl
  let col := o % rl
  if geo = 0 then (o / 64, o % 64)
  else if geo = 1 then ((row / 64) * rl + col, row % 64)
  else ((row / 8) * (rl / 8) + col / 8, (row % 8) * 8 + col % 8)

end Sys2Proof.Machine
end

