-- ==== Sys2Proof/Machine/Flags.lean ====
section
/-! DEFINITION. Conditions of compares (R65, R144) and the exact integer results with their wrapping and
saturation (R84, R135 to R138). The device keeps no flags (R81): a condition's only place is a predicate. -/

namespace Sys2Proof.Machine

/-- The value of raw bits read by an integer type (R133). -/
def tyInt (ty : Ty) (v : Dword) : Int :=
  match ty with
  | .i32 => (v.extractLsb' 0 32).toInt
  | .i64 => v.toInt
  | .n32 => ((v.extractLsb' 0 32).toNat : Int)
  | _ => (v.toNat : Int)

/-- Width W of a type (R133). -/
def tyBits (ty : Ty) : Nat := if ty.wide then 64 else 32

/-- Ends of an integer type (R84). -/
def tyMin (ty : Ty) : Int := if ty.signed then -((2 ^ (tyBits ty - 1) : Nat) : Int) else 0
def tyMax (ty : Ty) : Int := if ty.signed then ((2 ^ (tyBits ty - 1) : Nat) : Int) - 1 else ((2 ^ tyBits ty : Nat) : Int) - 1

/-- `e mod 2^W`, or the clamp of `.SAT` (R136). -/
def narrow (ty : Ty) (sat : Bool) (e : Int) : Dword :=
  let r := if sat then min (max e (tyMin ty)) (tyMax ty) else e
  if ty.wide then BitVec.ofInt 64 r else (BitVec.ofInt 32 r).zeroExtend 64

/-- Registers of a result of a type: one, or a pair with the low half first (R55). -/
def resWords (wide : Bool) (v : Dword) : List Word :=
  if wide then [v.extractLsb' 0 32, v.extractLsb' 32 32] else [v.extractLsb' 0 32]

/-- A condition on the order of two integers (R144). -/
def condInt (cc : Cond) (x y : Int) : Bool :=
  match cc with
  | .eq => x = y
  | .ne => x ≠ y
  | .lt => x < y
  | .le => x ≤ y
  | .gt => x > y
  | .ge => x ≥ y
  | .num => true
  | .nan => false

/-- A condition on two floating-point values: but for NE and NAN, false when either is NaN (R65, R144). -/
def condFp (cc : Cond) (x y : FVal) : Bool :=
  match FVal.cmp x y with
  | none => cc = .ne || cc = .nan
  | some o =>
    match cc with
    | .eq => o = .eq
    | .ne => o ≠ .eq
    | .lt => o = .lt
    | .le => o ≠ .gt
    | .gt => o = .gt
    | .ge => o ≠ .lt
    | .num => true
    | .nan => false

/-! ### Bit operations (R135, R137) -/

/-- Shift left by n: 0 from W on (R136). -/
def shlTy (ty : Ty) (x : Dword) (n : Nat) : Dword := if n ≥ tyBits ty then 0 else narrow ty false ((x.toNat * 2 ^ n : Nat) : Int)
/-- floor(x / 2^n) of the value as its type reads it (R135). -/
def shrTy (ty : Ty) (x : Dword) (n : Nat) : Dword :=
  if n ≥ tyBits ty then (if tyInt ty x < 0 then narrow ty false (-1) else 0)
  else narrow ty false (tyInt ty x / ((2 ^ n : Nat) : Int))

/-- Bits of the field named by y: from `pos` up to the first number (R137). -/
def fieldOf (ty : Ty) (y : Word) : Nat × Nat :=
  let pos := y.toNat % 256
  let len := y.toNat / 256 % 256
  (pos, min (pos + len) (tyBits ty))

/-- `BFX` (R137). -/
def bfxTy (ty : Ty) (x : Dword) (y : Word) : Dword :=
  let (pos, top) := fieldOf ty y
  if top ≤ pos then 0
  else
    let n := top - pos
    let v := x.toNat / 2 ^ pos % 2 ^ n
    if ty.signed && v / 2 ^ (n - 1) % 2 = 1 then narrow ty false ((v : Int) - ((2 ^ n : Nat) : Int))
    else narrow ty false (v : Int)

/-- `BFI` (R137): z with the field replaced by the low bits of x. -/
def bfiTy (ty : Ty) (x : Dword) (y : Word) (z : Dword) : Dword :=
  let (pos, top) := fieldOf ty y
  if top ≤ pos then narrow ty false (z.toNat : Int)
  else
    let n := top - pos
    let below := z.toNat % 2 ^ pos
    let above := z.toNat % 2 ^ tyBits ty / 2 ^ top
    narrow ty false ((below + x.toNat % 2 ^ n * 2 ^ pos + above * 2 ^ top : Nat) : Int)

def popcount (n bits : Nat) : Nat := ((List.range bits).filter fun i => n.testBit i).length
/-- Leading zero bits; W for zero (R135). -/
def clzTy (ty : Ty) (x : Dword) : Nat :=
  let v := x.toNat % 2 ^ tyBits ty
  if v = 0 then tyBits ty else tyBits ty - 1 - Nat.log2 v
def brevTy (ty : Ty) (x : Dword) : Dword :=
  let w := tyBits ty
  w64' ((List.range w).foldl (fun acc i => acc + (if x.toNat.testBit i then 2 ^ (w - 1 - i) else 0)) 0)
where
  w64' (n : Nat) : Dword := BitVec.ofNat 64 n

end Sys2Proof.Machine
end

