-- ==== Sys2Proof/Config.lean ====
section
/-! DEFINITION. What the spec leaves to the implementation, as constants without a body: nothing in
Lean can evaluate one or prove a value of it. Keys are named by epochs (plain numbers), never by bits. -/

namespace Sys2Proof.Config

/-- A free value, one per value of the counter `State.free` (log 7): whatever the spec calls undefined. -/
opaque freeWord : Nat → BitVec 32
/-- First 120 bits of the keyed SM3 hash of a capability (R211), as 15 bytes, lowest first: key epoch,
the 16 bytes of the capability as one number, and the world. -/
opaque capCheck : Nat → BitVec 128 → Nat → BitVec 120
/-- First 128 bits of the keyed SM3 hash over the opaque sections of a saved context and its area
address (R226): key epoch, the bytes, the address. -/
opaque ctxCheck : Nat → List (BitVec 8) → Nat → BitVec 128
/-- The byte at an offset of an opaque section of one save (R226): save number, section, offset. -/
opaque ctxByte : Nat → Nat → Nat → BitVec 8
/-- One sealed 32-byte sector (R321): key epoch, sector number pa[47:5], plaintext as one number. -/
opaque sealSector : Nat → Nat → BitVec 256 → BitVec 256
/-- A sector read as ciphertext and opened (R321): key epoch, sector number, stored bits. -/
opaque openSector : Nat → Nat → BitVec 256 → BitVec 256
/-- Bytes of a migration package past its page list (R322): session, package number, offset. -/
opaque packageByte : Nat → Nat → Nat → BitVec 8
/-- Length in bytes of a migration package (R322): session and package number. -/
opaque packageLen : Nat → Nat → Nat
/-- Tokens of a migration (R322): session, package number, kind (0 CONFIRM, 1 RELEASE), as 32 bytes. -/
opaque migToken : Nat → Nat → Nat → BitVec 256
/-- Whether a package found in the buffer opens under the session (R322), and the number of the
package it was made from: session, buffer bytes. -/
opaque packageOpens : Nat → List (BitVec 8) → Option Nat
/-- Body of the answer to a security request (R317): request code, session, MGEN, a running number. -/
opaque spdmBody : Nat → Nat → Nat → Nat → BitVec 256
/-- Measurement digests (R316): index and the measured value. -/
opaque measure : Nat → Nat → BitVec 256

/-- What a read of the host window gives a world to which it is refused (R308): address and time. -/
opaque refusedByte : Nat → Nat → BitVec 8

/-- The device is a UZ9400-M module, which accepts the higher power limit (R329). -/
opaque isModule : Bool

end Sys2Proof.Config
end

