-- ==== Sys2Proof/Machine/Access.lean ====
section
/-! DEFINITION. Reading and replacing parts of the state: worlds, dies, cores, queues, launches, teams, groups,
threads and registers. Every other file goes through these. -/

namespace Sys2Proof.Machine

/-! ### Lists -/

/-- Replaces the elements that satisfy a test. -/
def mapIf {α : Type} (l : List α) (p : α → Bool) (f : α → α) : List α := l.map fun x => if p x then f x else x

def insertNat (l : List Nat) (n : Nat) : List Nat :=
  match l with
  | [] => [n]
  | x :: r => if n = x then x :: r else if n < x then n :: x :: r else x :: insertNat r n

/-- Stable insertion by a key. -/
def insertBy {α : Type} (key : α → Nat) (x : α) (l : List α) : List α :=
  match l with
  | [] => [x]
  | y :: r => if key x < key y then x :: y :: r else y :: insertBy key x r

def sortBy {α : Type} (key : α → Nat) (l : List α) : List α := l.foldl (fun acc x => insertBy key x acc) []

def maxOf (l : List Nat) (d : Nat) : Nat := l.foldl max d

/-- Positions set in a mask, ascending (R76). -/
def bits32 (m : BitVec 32) : List Nat := (List.range 32).filter fun i => m.getLsbD i

def maskOf (l : List Nat) : BitVec 32 := l.foldl (fun m i => m ||| BitVec.ofNat 32 (2 ^ i)) 0

def w32 (n : Nat) : Word := BitVec.ofNat 32 n
def w64 (n : Nat) : Dword := BitVec.ofNat 64 n
def i32 (k : Int) : Word := BitVec.ofInt 32 k
def lo (d : Dword) : Word := d.extractLsb' 0 32
def hi (d : Dword) : Word := d.extractLsb' 32 32
def pair (l h : Word) : Dword := h ++ l
/-- `SignExt(x, 32)` (R75). -/
def sext32 (w : Word) : Dword := w.signExtend 64
def zext32 (w : Word) : Dword := w.zeroExtend 64
def setBit (m : BitVec 16) (i : Nat) (b : Bool) : BitVec 16 :=
  if b then m ||| BitVec.ofNat 16 (2 ^ i) else m &&& ~~~ (BitVec.ofNat 16 (2 ^ i))
def setBit8 (m : BitVec 8) (i : Nat) (b : Bool) : BitVec 8 :=
  if b then m ||| BitVec.ofNat 8 (2 ^ i) else m &&& ~~~ (BitVec.ofNat 8 (2 ^ i))

/-! ### Machine parts -/

def State.world (s : State) (w : Nat) : World := tabGet s.worlds w {}
def State.setWorld (s : State) (w : Nat) (x : World) : State := { s with worlds := tabSet s.worlds w x {} }
def State.modWorld (s : State) (w : Nat) (f : World → World) : State := s.setWorld w (f (s.world w))
def State.core (s : State) (c : Nat) : Core := tabGet s.cores c {}
def State.modCore (s : State) (c : Nat) (f : Core → Core) : State :=
  { s with cores := tabSet s.cores c (f (s.core c)) {} }
def State.die (s : State) (d : Nat) : Die := tabGet s.dies d {}
def State.modDie (s : State) (d : Nat) (f : Die → Die) : State :=
  { s with dies := tabSet s.dies d (f (s.die d)) {} }
def State.port (s : State) (k : Nat) : Port := tabGet s.ports k {}
def State.modPort (s : State) (k : Nat) (f : Port → Port) : State :=
  { s with ports := tabSet s.ports k (f (s.port k)) {} }
def State.queue (s : State) (q : Nat) : Queue := tabGet s.queues q {}
def State.modQueue (s : State) (q : Nat) (f : Queue → Queue) : State :=
  { s with queues := tabSet s.queues q (f (s.queue q)) {} }
def State.launch? (s : State) (id : Nat) : Option Launch := s.launches.find? fun l => l.id = id
def State.launch (s : State) (id : Nat) : Launch := (s.launch? id).getD { id := id, q := 0, k := 0, world := 0 }
def State.modLaunch (s : State) (id : Nat) (f : Launch → Launch) : State :=
  { s with launches := mapIf s.launches (fun l => l.id = id) f }

/-- Die of a core (R129). -/
def dieOf (core : Nat) : Nat := core / 64

/-- The core cycle counter (R19). -/
def State.cycle (s : State) (core : Nat) : Nat := (s.die (dieOf core)).cycle

/-- GTC()[31:0] (R75, R124). -/
def State.gtc32 (s : State) : Word := w32 s.gtc

/-- A fresh name. -/
def State.fresh (s : State) : Nat × State := (s.nextId, { s with nextId := s.nextId + 1 })

/-! ### Teams, groups, threads -/

def State.team? (s : State) (t : Nat) : Option Team := s.teams.find? fun x => x.id = t
def State.team (s : State) (t : Nat) : Team := (s.team? t).getD { id := t, launch := 0, num := 0, core := 0 }
def State.modTeam (s : State) (t : Nat) (f : Team → Team) : State :=
  { s with teams := mapIf s.teams (fun x => x.id = t) f }

/-- Home group number under which the lead thread's own registers are addressed: the model's own. -/
def leadGrp : Nat := 32

/-- A thread that no team holds reads as exited. -/
def noThread : Thread := { st := .exited }

def Team.groupAt (t : Team) (g : Nat) : Group :=
  if g = leadGrp then t.lead.getD {} else t.groups.getD g {}

def Team.setGroupAt (t : Team) (g : Nat) (x : Group) : Team :=
  if g = leadGrp then { t with lead := t.lead.map fun _ => x } else { t with groups := t.groups.set g x }

def Team.modGroupAt (t : Team) (g : Nat) (f : Group → Group) : Team := t.setGroupAt g (f (t.groupAt g))

def Team.thread (t : Team) (g l : Nat) : Thread := (t.groupAt g).threads.getD l noThread

def Team.modThread (t : Team) (g l : Nat) (f : Thread → Thread) : Team :=
  t.modGroupAt g fun x => { x with threads := x.threads.set l (f (x.threads.getD l noThread)) }

/-- The group-scope object of an actor: its group, conjugate group, or the lead thread. -/
def Team.actor (t : Team) (a : Actor) : Group :=
  match a with
  | .grp n => t.groupAt n
  | .conj k => (t.conj.find? fun c => c.id = k).getD {}
  | .lead => t.groupAt leadGrp

def Team.modActor (t : Team) (a : Actor) (f : Group → Group) : Team :=
  match a with
  | .grp n => t.modGroupAt n f
  | .conj k => { t with conj := mapIf t.conj (fun c => c.id = k) f }
  | .lead => t.modGroupAt leadGrp f

/-- Home group and home lane of the thread at a position (R8, R259). -/
def Team.place? (t : Team) (a : Actor) (L : Nat) : Option (Nat × Nat) :=
  match a with
  | .grp n => some (n, L)
  | .conj k => ((t.conj.find? fun c => c.id = k).getD {}).pos.getD L none
  | .lead => if L = 0 then some (leadGrp, 0) else none

/-- The thread at a position; an empty position of a conjugate group reads as an exited thread. -/
def Team.threadAt (t : Team) (a : Actor) (L : Nat) : Thread :=
  match t.place? a L with
  | some (g, l) => t.thread g l
  | none => noThread

/-- `HomeLane(L)` (R75). -/
def Team.homeLane (t : Team) (a : Actor) (L : Nat) : Nat :=
  match t.place? a L with
  | some (_, l) => l
  | none => L

def Team.modThreadAt (t : Team) (a : Actor) (L : Nat) (f : Thread → Thread) : Team :=
  match t.place? a L with
  | some (g, l) => t.modThread g l f
  | none => t

/-- Positions whose thread an actor may issue for. -/
def Team.positions (t : Team) (a : Actor) : List Nat := (List.range 32).filter fun L => (t.place? a L).isSome

def Team.allGroups (t : Team) : List Nat := List.range t.groups.length

def Thread.gone (th : Thread) : Bool := th.st = .exited

/-- A group is exited when its 32 threads are (R8). -/
def Group.exited (g : Group) : Bool := g.threads.all Thread.gone

/-- The team's groups and its lead thread that have not exited. -/
def Team.live (t : Team) : List Nat :=
  (t.allGroups.filter fun g => !(t.groupAt g).exited) ++
    (match t.lead with
     | some l => if l.exited then [] else [leadGrp]
     | none => [])

/-! ### Registers of a thread, a group and a team -/

def Thread.getV (th : Thread) (n : Nat) : Word := tabGet th.v n 0
def Thread.setV (th : Thread) (n : Nat) (w : Word) : Thread := { th with v := tabSet th.v n w 0 }
/-- Predicates: p7 reads as true (R57). -/
def Thread.getP (th : Thread) (n : Nat) : Bool := n = 7 || th.p.getLsbD n
/-- A write to p7 is discarded (R57). -/
def Thread.setP (th : Thread) (n : Nat) (b : Bool) : Thread :=
  if n = 7 then th else { th with p := setBit8 th.p n b }
def Thread.getC (th : Thread) (n : Nat) : Capa := tabGet th.c n {}
def Thread.setC (th : Thread) (n : Nat) (x : Capa) : Thread := { th with c := tabSet th.c n x {} }
def Group.getG (g : Group) (n : Nat) : Word := tabGet g.g n 0
/-- Any write clears the token mark (R125). -/
def Group.setG (g : Group) (n : Nat) (w : Word) : Group :=
  { g with g := tabSet g.g n w 0, marks := tabDel g.marks n }
/-- A token and its mark (R125). -/
def Group.setTok (g : Group) (n : Nat) (t : Nat) : Group :=
  { g with g := tabSet g.g n (w32 t) 0, marks := tabPut g.marks n (w64 t) }
def Team.getT (t : Team) (n : Nat) : Word := tabGet t.t n 0
def Team.setT (t : Team) (n : Nat) (w : Word) : Team := { t with t := tabSet t.t n w 0 }
def Group.latchB (g : Group) (n : Nat) : Latch := tabGet g.bl n {}
def Group.latchA (g : Group) (n : Nat) : Latch := tabGet g.al n {}
def Group.stream (g : Group) (k : Nat) : Stream := tabGet g.streams k {}
def Group.setStream (g : Group) (k : Nat) (x : Stream) : Group := { g with streams := tabSet g.streams k x {} }
def Team.tile (t : Team) (n : Nat) : Tile := tabGet t.tiles n {}
def Team.setTile (t : Team) (n : Nat) (x : Tile) : Team := { t with tiles := tabSet t.tiles n x {} }
def Tile.cell (x : Tile) (r c : Nat) : Word := tabGet x.c (16 * r + c) 0
def Tile.setCell (x : Tile) (r c : Nat) (w : Word) : Tile := { x with c := tabSet x.c (16 * r + c) w 0 }
def Team.bar (t : Team) (n : Nat) : Bar := tabGet t.bars n {}

/-- The launch identifier (R240); `id` is the model's own name, which no other launch ever has. -/
def Launch_lid (l : Launch) : Nat := l.q * 2 ^ 32 + l.k

/-- The launch of a team, and its header. -/
def State.launchOf (s : State) (t : Team) : Launch := s.launch t.launch
def State.hdrOf (s : State) (t : Team) : Header := (s.launchOf t).hdr
def State.worldOf (s : State) (t : Team) : Nat := (s.launchOf t).world

/-- Time of a launch's accesses for its completion (R242). -/
def State.noteLaunch (s : State) (launch t : Nat) : State := s.modLaunch launch fun l => { l with latest := max l.latest t }

/-! ### The issuing context -/

def State.ct (s : State) : Team := s.team s.cur.team
/-- Group-scope object of the issuer. -/
def State.cg (s : State) : Group := s.ct.actor s.cur.who
def State.cw (s : State) : Nat := s.worldOf s.ct
def State.modCt (s : State) (f : Team → Team) : State := s.modTeam s.cur.team f
def State.modCg (s : State) (f : Group → Group) : State := s.modCt fun t => t.modActor s.cur.who f
def State.cth (s : State) (L : Nat) : Thread := s.ct.threadAt s.cur.who L
def State.isLead (s : State) : Bool := s.cur.who = .lead
/-- Cycle in which the instruction issues. -/
def State.now (s : State) : Nat := s.cycle s.cur.core
/-- Positions of the issuing path, ascending. -/
def State.path (s : State) : List Nat := bits32 s.cur.mask

end Sys2Proof.Machine
end

