-- ==== Sys2Proof/Machine/Mem.lean ====
section
/-! DEFINITION. Physical memory and its homes: sealing (R320, R321), leases and completion times (R117 to
R119), what an access does to memory (R177, R179, R192), and what follows when its time is known (R121,
R124, R126). -/

namespace Sys2Proof.Machine

/-! ### The physical map (R102) -/

def hbmTop : Nat := 0x8000000000
def hostBase : Nat := 0x400000000000
def hostTop : Nat := 0x800000000000
def inHbm (pa n : Nat) : Bool := pa + n ≤ hbmTop
def inHost (pa n : Nat) : Bool := hostBase ≤ pa && pa + n ≤ hostTop
def physExists (pa n : Nat) : Bool := inHbm pa n || inHost pa n
def lineOf (pa : Nat) : Nat := pa / 128
def sectorOf (pa : Nat) : Nat := pa / 32
/-- Lines that n bytes touch. -/
def linesOf (pa n : Nat) : List Nat := (List.range ((pa + n - 1) / 128 - pa / 128 + 1)).map fun i => pa / 128 + i
def sectorsOf (pa n : Nat) : List Nat := (List.range ((pa + n - 1) / 32 - pa / 32 + 1)).map fun i => pa / 32 + i
/-- Home die of an HBM address (R114). -/
def homeDie (pa : Nat) : Nat := pa / 2 ^ 37 % 4
/-- L2SLMj (R115): bit i set exactly when i mod 6 = j. -/
def slm (j : Nat) : Nat := ((List.range 41).filter fun i => i % 6 = j).foldl (fun a i => a + 2 ^ i) 0
def parity (n : Nat) : Nat := (List.range 41).foldl (fun a i => (a + n / 2 ^ i) % 2) 0
/-- Home slice (R114), numbered over the device. -/
def homeSlice (pa : Nat) : Nat :=
  64 * homeDie pa + (List.range 6).foldl (fun a j => a + 2 ^ j * parity (Nat.land (pa / 128) (slm j))) 0

/-! ### Sealing (R320, R321) -/

/-- The key epoch under which a world's accesses are sealed and opened; none for raw access. -/
def State.sealKey (s : State) (who : Option Nat) : Option Nat :=
  match who with
  | some w => if (s.world w).sealing then (s.world w).keys else none
  | none => none

def packSector (bs : List Byte) : BitVec 256 := BitVec.ofNat 256 (leNat bs)
def unpackSector (x : BitVec 256) : List Byte := leBytes 32 x.toNat

/-- One sector as an accessor sees it: its own sealed sectors in plain, everything else as it stands in memory,
opened under its key when its accesses are sealed. -/
def State.viewSector (s : State) (who : Option Nat) (sec : Nat) : List Byte :=
  let held := memBytes s.mem (32 * sec) 32
  let tag := tabGet s.seals sec (0, 0)
  let key := s.sealKey who
  if 32 * sec ≥ hbmTop then held
  else
    let raw := if tag.2 = 0 then held else unpackSector (Config.sealSector tag.2 sec (packSector held))
    match key with
    | none => raw
    | some k => if tag.2 = k then held else unpackSector (Config.openSector k sec (packSector raw))

/-- `Mem(pa, n)` (R75) as an accessor sees it. -/
def State.phys (s : State) (who : Option Nat) (pa n : Nat) : List Byte :=
  if s.seals = [] && s.sealKey who = none then memBytes s.mem pa n
  else (((sectorsOf pa n).flatMap fun sec => s.viewSector who sec).drop (pa % 32)).take n

/-- Bytes of a sector with a range replaced: `off` may lie before the sector. -/
def overlay (old : List Byte) (base pa : Nat) (bs : List Byte) : List Byte :=
  (List.range old.length).map fun i =>
    if pa ≤ base + i && base + i < pa + bs.length then bs.getD (base + i - pa) 0 else old.getD i 0

def State.putSector (s : State) (who : Option Nat) (sec pa : Nat) (bs : List Byte) : State :=
  let new := overlay (s.viewSector who sec) (32 * sec) pa bs
  let tag : Nat × Nat := match s.sealKey who, who with
    | some k, some w => if 32 * sec ≥ hbmTop then (0, 0) else (w, k)
    | _, _ => (0, 0)
  { s with mem := memWrite s.mem (32 * sec) new, seals := tabSet s.seals sec tag (0, 0) }

/-- `Mem(pa, n) := bytes` (R75). -/
def State.setPhys (s : State) (who : Option Nat) (pa : Nat) (bs : List Byte) : State :=
  if s.seals = [] && s.sealKey who = none then { s with mem := memWrite s.mem pa bs }
  else (sectorsOf pa bs.length).foldl (fun t sec => t.putSector who sec pa bs) s

/-! ### The host window (R306, R308, R310) -/

/-- A world in CONFIG_LOCKED or ERROR: its launches are not dispatched, its queues stand, and its host-window traffic is
refused (R308). -/
def State.frozen (s : State) (w : Nat) : Bool :=
  match (s.world w).tdi with
  | .locked => true
  | .error => true
  | _ => false

/-- An access of a world to the host window is refused. -/
def State.refused (s : State) (w pa : Nat) : Bool := decide (pa ≥ hostBase) && s.frozen w

/-- Link of a world's host-window requests: the chosen one, or the other while it is down (R306, R313). -/
def State.linkOf (s : State) (w : Nat) : Option Bool :=
  let want := (s.world w).hostlnk
  let up (l : Bool) : Bool := if l then s.links.2 else s.links.1
  if up want then some want else if up (!want) then some (!want) else none

/-- What an access of a world reads: a free value where the host window is refused to it, since R308 gives none (log 37). -/
def State.seen (s : State) (who : Option Nat) (w pa n : Nat) : List Byte :=
  if s.refused w pa then (List.range n).map fun i => Config.refusedByte (pa + i) s.gtc else s.phys who pa n

/-- What an access of a world writes: nothing where the host window is refused to it; a change of a host-window line is
posted to the host as well (R308, R310). -/
def State.write (s : State) (who : Option Nat) (w pa : Nat) (bs : List Byte) : State :=
  if s.refused w pa then s
  else if pa ≥ hostBase then
    let s' := s.setPhys who pa bs
    { s' with hostPosts := s'.hostPosts ++ [⟨w, s.linkOf w, pa - hostBase, bs⟩] }
  else s.setPhys who pa bs

/-! ### Leases and completion times -/

def State.leaseOf (s : State) (line : Nat) : Nat := tabGet s.leases line 0
def State.lastWOf (s : State) (line : Nat) : Nat := tabGet s.lastW line 0

/-- `W := max(a, latest lease, previous W)` over the lines touched (R119). -/
def State.wTime (s : State) (pa n a : Nat) : Nat :=
  (linesOf pa n).foldl (fun w l => max w (max (s.leaseOf l) (s.lastWOf l))) a

def State.noteW (s : State) (pa n w : Nat) : State :=
  { s with lastW := (linesOf pa n).foldl (fun t l => tabSet t l w 0) s.lastW }

/-- A store waits at the home of a line (R118): its W caps new leases. -/
def State.capOf (s : State) (line : Nat) : Option Nat :=
  ((s.homes.filter fun h => decide (h.w > s.gtc) && (linesOf h.pa h.n).contains line).map (·.w)).head?

/-- Expiry of a fill at the present time (R118): LEASE, or the long lease. -/
def State.expiry (s : State) (world line : Nat) (long : Bool) : Nat :=
  let w := s.world world
  let e := s.gtc + (if long then w.lease * 2 ^ w.roshift else w.lease)
  match s.capOf line with
  | some c => min e c
  | none => e

/-- Sectors of a line that n bytes at pa touch. -/
def sectorBits (pa n : Nat) : BitVec 4 :=
  (sectorsOf pa n).foldl (fun m sec => if sec / 4 = pa / 128 then m ||| BitVec.ofNat 4 (2 ^ (sec % 4)) else m) 0

/-- Teams with a core of their own. -/
def State.onCore (s : State) : List Team := s.teams.filter fun t => match t.place with
  | .resident => true
  | .stopped _ => true
  | _ => false

/-- L1 banks of a core (R41). -/
def State.l1Banks (s : State) (core : Nat) : List Nat :=
  let used := ((s.onCore.filter fun t => t.core = core).flatMap (·.banks)) ++ (s.core core).free ++ (s.core core).rel
  (List.range 16).filter fun b => !used.contains b

/-- Lines that an L1 can hold: its banks have 32 KiB each (R2, R41, R44). -/
def State.l1Cap (s : State) (core : Nat) : Nat := 256 * (s.l1Banks core).length

/-- Lines that hold stack sectors. -/
def Core_stackLines (c : Core) : List Nat := (c.stack.map fun x => x.sec / 4).foldl insertNat []

/-- Global lines leave an L1 to make room for n of them: those past their lease, then the first candidates (R174), then
those filled longest ago. Which line leaves is not stated: DESIGN CHOICE (log 6). -/
def L1_keep (l : List L1Line) (gtc n : Nat) : List L1Line :=
  let rank (x : L1Line) : Nat := if x.expiry ≤ gtc then 0 else if x.first then 1 else 2
  let out := (sortBy rank l).take (l.length - n)
  l.filter fun x => !out.contains x

/-- An L1 keeps its global lines within its capacity, beside its stack lines (R44, R100). -/
def State.l1Trim (s : State) (core : Nat) : State :=
  let room := s.l1Cap core - (Core_stackLines (s.core core)).length
  if (s.core core).l1.length ≤ room then s
  else s.modCore core fun c => { c with l1 := L1_keep c.l1 s.gtc room }

/-- The home grants a line's lease (R118). -/
def State.grant (s : State) (line e : Nat) : State :=
  { s with leases := tabSet s.leases line (max e (s.leaseOf line)) 0 }

/-- Lines of a cache after a fill with the sectors an access touches, under a lease to `e` (R113, R118). A line still under
its lease to which a fill adds sectors keeps the earlier of the two expiries: R118 has one lease a line and speaks of no
second fill: DESIGN CHOICE (log 39). -/
def L1_fill (l : List L1Line) (gtc world pa n e : Nat) (first : Bool) : List L1Line :=
  let mine (x : L1Line) : Bool := x.line = lineOf pa && x.world = world
  let x : L1Line := match l.find? fun x => mine x && decide (gtc < x.expiry) with
    | some o => { o with sectors := o.sectors ||| sectorBits pa n, expiry := min o.expiry e, first := first }
    | none => { world := world, line := lineOf pa, sectors := sectorBits pa n, expiry := e, first := first }
  l.filter (fun x => !mine x) ++ [x]

/-- A hit: a lease not passed and every sector held (R118). -/
def L1_hit (l : List L1Line) (gtc world pa n : Nat) : Bool :=
  l.any fun x =>
    x.line = lineOf pa && x.world = world && decide (gtc < x.expiry) &&
      (x.sectors &&& sectorBits pa n = sectorBits pa n)

/-- Fills an L1 with the sectors an access touches and grants the lease (R113, R118); `.ST` makes the line a first
candidate for eviction (R174). -/
def State.fillL1 (s : State) (core world pa n : Nat) (long first : Bool) : State :=
  let e := s.expiry world (lineOf pa) long
  ((s.grant (lineOf pa) e).modCore core fun c => { c with l1 := L1_fill c.l1 s.gtc world pa n e first }).l1Trim core

def State.hitL1 (s : State) (core world pa n : Nat) : Bool := L1_hit (s.core core).l1 s.gtc world pa n

/-- Fills the Inflector weight cache of 1 MiB (R290). -/
def State.fillWc (s : State) (core world pa n : Nat) (long : Bool) : State :=
  if L1_hit (s.core core).wc s.gtc world pa n then s
  else
    let e := s.expiry world (lineOf pa) long
    (s.grant (lineOf pa) e).modCore core fun c => { c with wc := L1_keep (L1_fill c.wc s.gtc world pa n e false) s.gtc 8192 }

/-- How a load fills L1 (R113, R118, R174): 0 not, 1 with a lease, 2 with the long lease, 3 as a first candidate for
eviction. -/
def fillOf (hint : BitVec 2) (e : Option TlbEnt) : Nat :=
  match e with
  | none => 0
  | some e => if e.mt = 1 || hint = 2 then 0 else if hint = 1 && e.roc then 2 else if hint = 3 then 3 else 1

/-- The fill of a load that misses. -/
def State.fillBy (s : State) (core world pa n fill : Nat) : State :=
  if fill = 0 || s.hitL1 core world pa n then s else s.fillL1 core world pa n (fill = 2) (fill = 3)

/-! ### Serving (R117, R129, R333) -/

/-- Under what a home or a scratchpad notes what it serves at one GTC. A stack line is the core's own. -/
def spaceKeys (team : Nat) (sp : Space) (n : Nat) : List Nat :=
  match sp with
  | .glob pa => linesOf pa n
  | .scr _ => [2 ^ 48 + team]
  | .stk _ => []

/-- Key of reads that an instruction makes of many lines at once. -/
def manyKey : Nat := 2 ^ 49

/-- A request of a source may be served at the present GTC: nothing of a higher source, or issued later by its own, has
been; and a store comes after no load, which it would have had to show its bytes (R117). -/
def State.mayServe (s : State) (keys : List Nat) (src id : Nat) (store : Bool) : Bool :=
  keys.all (fun k => match tabFind s.served k with
    | some x => (decide (x.src < src) || (decide (x.src = src) && decide (x.id ≤ id))) && !(store && x.rd && decide (k < 2 ^ 48))
    | none => true) &&
  !(store && (tabFind s.served manyKey).isSome)

/-- Notes that lines have been read now, by whatever source: a store that arrives later at this GTC would have had to show
its bytes, so it arrives at a later one (R117). -/
def State.noteRead (s : State) (keys : List Nat) : State :=
  { s with served := keys.foldl (fun t k => tabPut t k { (tabFind t k).getD ⟨0, 0, false⟩ with rd := true }) s.served }

def State.readAt (s : State) (pa n : Nat) : Bool :=
  ((linesOf pa n).any fun l => (tabFind s.served l).any (·.rd)) || (tabFind s.served manyKey).isSome

/-- Completion time of a store that takes its place at a home at a time of `a` or later (R117, R119). -/
def State.wAt (s : State) (a pa n : Nat) : Nat := s.wTime pa n (max a (if s.readAt pa n then s.gtc + 1 else s.gtc))

/-- Notes that a request has been served now. -/
def State.serve (s : State) (keys : List Nat) (src id : Nat) (load : Bool) : State :=
  { s with served := keys.foldl (fun t k =>
      tabPut t k { src := src, id := id, rd := load || (tabFind t k).any (·.rd) }) s.served }

/-! ### Results -/

/-- Puts a word of a result where it is awaited (R62, R181). -/
def State.deliver (s : State) (t : Tgt) (ws : List Word) : State :=
  match t with
  | .none => s
  | .pend id i =>
    { s with pends := mapIf s.pends (fun p => p.id = id) fun p =>
        { p with vals := (ws.zipIdx).foldl (fun v x => v.set (i + x.2) (some x.1)) p.vals } }
  | .esc r l i =>
    { s with escs := mapIf s.escs (fun q => q.id = r) fun q =>
        { q with lanes := mapIf q.lanes (fun x => x.grp * 32 + x.lane = l) fun x =>
          { x with dest := (ws.zipIdx).foldl (fun v y => v.set (i + y.2) (some y.1)) x.dest } } }
  | .out dev => { s with replies := s.replies ++ [.fabric dev none ws s.gtc] }

/-- Words of n bytes in registers: sign or zero extended to 32, 64 or 128 bits (R177). -/
def loadWords (bs : List Byte) (sx : Bool) : List Word :=
  let n := bs.length
  let v := leNat bs
  if n ≤ 2 then
    [if sx && v ≥ 2 ^ (8 * n - 1) then w32 (v + 2 ^ 32 - 2 ^ (8 * n)) else w32 v]
  else (List.range ((n + 3) / 4)).map fun i => w32 (v / 2 ^ (32 * i))

/-- Register image of an element decoded to a type (R87, R178). -/
def elemImage (t : Ty) (v : FVal) : Word := w32 ((fpFmt t).enc (.mode .rn) false false v)

/-! ### Atomics (R192) -/

/-- The new value of an atomic. -/
def atomNew (op : Aop) (ty : Ty) (old b c : Nat) : Nat :=
  let w := if ty.wide then 64 else 32
  let sg (x : Nat) : Int := if ty.signed && x ≥ 2 ^ (w - 1) then (x : Int) - (2 ^ w : Nat) else x
  match op with
  | .add => (old + b) % 2 ^ w
  | .min => if sg old ≤ sg b then old else b
  | .max => if sg old ≤ sg b then b else old
  | .iand => Nat.land old b
  | .ior => Nat.lor old b
  | .ixor => Nat.xor old b
  | .exch => b
  | .cas => if old = c then b else old
  | .fadd => (addF32 (w32 old) (w32 b)).toNat

def wordsOfVal (wide : Bool) (v : Nat) : List Word := if wide then [w32 v, w32 (v / 2 ^ 32)] else [w32 v]

/-! ### A known time -/

/-- The latest times known of a group's own accesses: on this device, and remote. -/
def Group_done (t : Nat) (y : Bool) (g : Group) : Group :=
  { g with doneT := if y then g.doneT else max g.doneT t, doneY := if y then max g.doneY t else g.doneY }

/-- An actor's access is known to be done at a time; for a conjugate group its threads' home groups know it too. -/
def State.noteDone (s : State) (team : Nat) (who : Actor) (grp t : Nat) (y : Bool) : State :=
  s.modTeam team fun tm =>
    let tm1 := tm.modActor who (Group_done t y)
    match who with
    | .conj k =>
      (((tm.conj.find? fun c => c.id = k).getD {}).pos.foldl
        (fun acc p => match p with | some (g, _) => insertNat acc g | none => acc) [grp]).foldl
          (fun tm g => tm.modGroupAt g (Group_done t y)) tm1
    | _ => tm1

/-- What follows when the perform or completion time of an access is known: later accesses that wait for it,
fences that cover it (R124), acquires (R126), and the launch's latest time (R242). `y` marks a remote access. -/
def State.settle (s : State) (id team : Nat) (who : Actor) (grp launch t : Nat) (y : Bool) : State :=
  let lift (fl : Nat) (after : List Nat) := if after.contains id then max fl t else fl
  let drop (after : List Nat) := after.filter fun a => decide (a ≠ id)
  let s1 : State := { s with
    flights := s.flights.map (fun f : Flight => { f with floor := lift f.floor f.after, after := drop f.after }),
    walks := s.walks.map (fun f : Walk => { f with floor := lift f.floor f.after, after := drop f.after }),
    probes := s.probes.map (fun f : Probe => { f with floor := lift f.floor f.after, after := drop f.after }),
    engines := s.engines.map (fun f : Engine => { f with floor := lift f.floor f.after, after := drop f.after }),
    egress := s.egress.map (fun f : Remote => { f with floor := lift f.floor f.after, after := drop f.after }),
    fences := s.fences.map (fun f : Fence => { f with latest := lift f.latest f.waits, waits := drop f.waits }),
    queues := s.queues.map (fun q : Nat × Queue =>
      (q.1, { q.2 with avail := lift q.2.avail q.2.stores, stores := drop q.2.stores })) }
  let s2 := (s1.noteDone team who grp t y).modTeam team fun tm => tm.modActor who fun g =>
    { g with
      floor := (g.acqs.filter (fun a => decide (a.1 = id))).foldl (fun f a => max f (if a.2 then t + 64 else t)) g.floor,
      acqs := g.acqs.filter (fun a => decide (a.1 ≠ id)) }
  s2.noteLaunch launch (if y then t + 64 else t)

/-- A list of names with one name replaced by others. -/
def swapIn (old : Nat) (news l : List Nat) : List Nat :=
  if l.contains old then l.filter (fun x => decide (x ≠ old)) ++ news else l

/-- What a barrier's arrivals and completed generations wait for, likewise. -/
def Bar_swap (old : Nat) (news : List Nat) (b : Bar) : Bar :=
  { b with ids := swapIn old news b.ids, holds := b.holds.map fun h => { h with ids := swapIn old news h.ids } }

/-- Everything that waits for one access waits for others instead. -/
def State.swapId (s : State) (old : Nat) (news : List Nat) : State :=
  let sw (l : List Nat) : List Nat := swapIn old news l
  { s with
    flights := s.flights.map (fun f : Flight => { f with after := sw f.after }),
    walks := s.walks.map (fun f : Walk => { f with after := sw f.after }),
    probes := s.probes.map (fun f : Probe => { f with after := sw f.after }),
    engines := s.engines.map (fun f : Engine => { f with after := sw f.after }),
    egress := s.egress.map (fun f : Remote => { f with after := sw f.after }),
    fences := s.fences.map (fun f : Fence => { f with waits := sw f.waits }),
    teams := s.teams.map (fun t : Team => if t.bars = [] then t else { t with bars := t.bars.map fun b => (b.1, Bar_swap old news b.2) }),
    launches := s.launches.map (fun l : Launch => if l.cbars = [] then l else { l with cbars := l.cbars.map fun b => (b.1, Bar_swap old news b.2) }) }

/-! ### Stores and atomics at their home -/

/-- Applies a store or atomic to bytes at its W: the new bytes, and what it delivers. -/
def applyOp (w : Nat) (op : FOp) (old : List Byte) : List Byte × List (Tgt × List Word) :=
  match op with
  | .store d => (d, [])
  | .signal => (leBytes 8 (leNat (old.take 8) + 1) ++ leBytes 8 w, [])
  | .estore fmt items rm sr whole =>
    let t := fmtTy fmt
    let rule (i : Nat) : RndRule := match sr with
      | some ph => .dither (i + ph)
      | none => .mode rm
    (zbBytes t (zbStore t (zbParse t old) (items.map fun p => (p.1, f32 p.2)) rule whole), [])
  | .atomic op ty parts =>
    let n := if ty.wide then 8 else 4
    let r := parts.foldl (fun (acc : Nat × List (Tgt × List Word)) p =>
      (atomNew op ty acc.1 (p.2.1.toNat % 2 ^ (8 * n)) (p.2.2.toNat % 2 ^ (8 * n)),
        acc.2 ++ [(p.1, wordsOfVal ty.wide acc.1)])) (leNat old, [])
    (leBytes n r.1, r.2)
  | _ => (old, [])

/-- A home store or atomic takes effect at its W (R117, R128). -/
def State.applyHome (s : State) (h : HomeSt) : State :=
  let who := if h.raw then none else some h.world
  let r := applyOp h.w h.op (s.seen who h.world h.pa h.n)
  let s1 := { s.write who h.world h.pa r.1 with homes := s.homes.filter fun x => x.id ≠ h.id }
  r.2.foldl (fun t d => t.deliver d.1 d.2) s1

/-- The first home store in order whose W has come. -/
def State.dueHome (s : State) : Option HomeSt :=
  ((sortBy (fun h : HomeSt => h.w) s.homes).filter fun h => decide (h.w ≤ s.gtc)).head?

def applyDueFuel (s : State) (fuel : Nat) : State :=
  match fuel with
  | 0 => s
  | fuel + 1 =>
    match s.dueHome with
    | none => s
    | some h => applyDueFuel (s.applyHome h) fuel

/-- Every store whose W has come, in home order (R117). -/
def State.applyDue (s : State) : State := applyDueFuel s s.homes.length

/-- A store or atomic takes its place in home order, arriving at a time of `a` or later (R117, R119). -/
def State.arriveAt (s : State) (a id world team : Nat) (who : Actor) (grp launch pa n : Nat) (op : FOp) (eng : Option Nat)
    (raw y : Bool) : State :=
  let w := s.wAt a pa n
  let s1 := (s.noteW pa n w).settle id team who grp launch w y
  { s1 with homes := s1.homes ++ [{ id := id, world := world, team := team, who := who, launch := launch, pa := pa, n := n,
                                    w := w, op := op, eng := eng, raw := raw }] }

/-- Notes whose access stands at its home (R121). -/
def State.homeLanes (s : State) (id : Nat) (ls : List (Nat × Nat)) : State :=
  { s with homes := mapIf s.homes (fun h => h.id = id) fun h => { h with lanes := ls } }

/-- The same at the present time. -/
def State.arrive (s : State) (id world team : Nat) (who : Actor) (grp launch pa n : Nat) (op : FOp) (eng : Option Nat)
    (raw y : Bool) : State := s.arriveAt s.gtc id world team who grp launch pa n op eng raw y

/-! ### Scratchpad and stack (R99, R100, R123) -/

def State.scratchBytes (s : State) (team off n : Nat) : List Byte := memBytes (s.team team).scratch off n
def State.setScratch (s : State) (team off : Nat) (bs : List Byte) : State :=
  s.modTeam team fun t => { t with scratch := memWrite t.scratch off bs }

/-- Bytes that a team's hardware, and none of its threads, stores at their home: a stack sector written back (R100), or
registers spilled (R39). No fence covers it; the launch completes after it (R242). -/
def State.hwStore (s : State) (team pa : Nat) (bs : List Byte) (wb : Bool) : State :=
  let t := s.team team
  let (id, s1) := s.fresh
  let w := s1.wAt s.gtc pa bs.length
  let h : HomeSt :=
    { id := id, world := s.worldOf t, team := team, who := .lead, launch := t.launch, pa := pa, n := bs.length, w := w,
      op := .store bs, eng := none, raw := false, wb := wb }
  { s1.noteW pa bs.length w with homes := s1.homes ++ [h] }.noteLaunch t.launch w

/-- The write-back of a sector that no longer stands in L1 has not come to its W: its owner waits for it (R100, R121). -/
def State.wbPending (s : State) (pa n : Nat) : Bool :=
  s.homes.any fun h => h.wb && decide (h.w > s.gtc) && (sectorsOf pa n).contains (sectorOf h.pa)

/-- A place in a thread's stack whose write-back is still to complete (R100, R121). -/
def State.stackWaits (s : State) (sp : Space) (n : Nat) : Bool :=
  match sp with
  | .stk pa => s.wbPending pa n
  | _ => false

/-- Sectors of a core's stack lines leave its L1, each dirty one by a write-back to its home (R100). -/
def State.dropStack (s : State) (core : Nat) (out : StackSec → Bool) : State :=
  let s1 := ((s.core core).stack.filter fun x => out x && x.dirty).foldl (fun s x => s.hwStore x.team (32 * x.sec) x.bytes true) s
  s1.modCore core fun c => { c with stack := c.stack.filter fun x => !out x }

/-- Stack lines leave an L1 that global lines no longer fill, the longest held first (R44, R100; log 6). -/
def State.stackTrim (s : State) (core : Nat) : State :=
  let ls := ((s.core core).stack.map fun x => x.sec / 4).foldl (fun acc l => if acc.contains l then acc else acc ++ [l]) []
  let out := ls.take (ls.length - s.l1Cap core)
  if out = [] then s else s.dropStack core fun x => out.contains (x.sec / 4)

/-- A stack sector in an L1, filled from its home when it is not there (R100), as the team's world sees it (R308). -/
def State.stackSec (s : State) (core team world sec : Nat) : StackSec :=
  match (s.core core).stack.find? fun x => x.sec = sec with
  | some x => x
  | none => { team := team, sec := sec, bytes := s.seen (some world) world (32 * sec) 32, dirty := false }

def State.putStack (s : State) (core : Nat) (x : StackSec) : State :=
  ((s.modCore core fun c => { c with stack := c.stack.filter (fun y => y.sec ≠ x.sec) ++ [x] }).l1Trim core).stackTrim core

/-- Reads of the stack go through the sectors they touch. -/
def State.stackBytes (s : State) (core team world pa n : Nat) : List Byte :=
  (((sectorsOf pa n).flatMap fun sec => (s.stackSec core team world sec).bytes).drop (pa % 32)).take n

def State.touchStack (s : State) (core team world pa n : Nat) : State :=
  (sectorsOf pa n).foldl (fun s sec => s.putStack core (s.stackSec core team world sec)) s

def State.setStack (s : State) (core team world pa : Nat) (bs : List Byte) : State :=
  (sectorsOf pa bs.length).foldl (fun s sec =>
    let x := s.stackSec core team world sec
    s.putStack core { x with bytes := overlay x.bytes (32 * sec) pa bs, dirty := true }) s

/-! ### Ownership by engines (R127) -/

/-- Under what a launch queue notes what reaches it at one GTC: a `LAUNCH`, a notify, a write of LQCTL (R129, R261). -/
def State.queueTurn (s : State) (q src : Nat) : Bool := s.mayServe [2 ^ 50 + q] src 0 false
def State.queueServe (s : State) (q src : Nat) : State := s.serve [2 ^ 50 + q] src 0 false

/-- Lines of a place. -/
def spaceLines (sp : Space) (n : Nat) : List Nat :=
  match sp with
  | .glob pa => linesOf pa n
  | _ => []

def placeLines (sps : List (Space × Nat)) : List Nat := sps.flatMap fun x => spaceLines x.1 x.2

def linesMeet (ls ms : List Nat) : Bool := ls.any fun l => ms.contains l

/-- Engines and probes that own one of some lines, by name (R127). -/
def State.owners (s : State) (lines : List Nat) : List Nat :=
  (s.engines.filter fun e => linesMeet e.lines lines).map (·.id) ++ (s.probes.filter fun p => linesMeet p.lines lines).map (·.id)

/-- What things of some names wait for: what comes before them, and the engines that own a line of theirs. -/
def State.waitStep (s : State) (ids : List Nat) : List Nat :=
  ((s.engines.filter fun e => ids.contains e.id).flatMap fun e => e.after ++ s.owners e.lines) ++
  ((s.probes.filter fun p => ids.contains p.id).flatMap fun p => p.after ++ s.owners p.lines) ++
  ((s.walks.filter fun w => ids.contains w.id).flatMap (·.after)) ++
  ((s.flights.filter fun f => ids.contains f.id).flatMap fun f => f.after ++ s.owners (spaceLines f.space f.n))

/-- The same, and whatever that waits for in turn. -/
def State.waitsFor (s : State) (ids : List Nat) (fuel : Nat) : List Nat :=
  match fuel with
  | 0 => ids
  | fuel + 1 =>
    let more := (s.waitStep ids).filter fun id => !ids.contains id
    if more = [] then ids else s.waitsFor (more.foldl insertNat ids) fuel

/-- An engine awaits an access of one of some names, itself or by what it must wait for: the access therefore does not wait
for the engine (R127; log 21). -/
def State.awaits (s : State) (eng : Nat) (names : List Nat) : Bool :=
  let fuel := s.flights.length + s.walks.length + s.probes.length + s.engines.length
  (s.waitsFor (s.waitStep [eng]) fuel).any fun id => names.contains id

/-- An engine's write to a line has not come to its W. -/
def State.writePending (s : State) (lines : List Nat) : Bool :=
  s.homes.any fun h => h.eng.isSome && decide (h.w > s.gtc) && linesMeet (linesOf h.pa h.n) lines

/-- An access of a thread, under its names, must wait for an engine that owns a line of it and does not await it, or whose
write there has not come to its W (R127). -/
def State.ownedFor (s : State) (names lines : List Nat) : Bool :=
  ((s.owners lines).any fun e => !names.contains e && !s.awaits e names) || s.writePending lines

/-- An engine must wait for an engine that issued before it and owns a line of it, or whose write there has not come to its W
(R127). -/
def State.ownedBefore (s : State) (k : Nat) (lines : List Nat) : Bool :=
  ((s.owners lines).any fun e => decide (e < k)) || s.writePending lines

/-- An engine other than the asker's owns a line, or its write to the line has not come to its W. -/
def State.owned (s : State) (eng : Option Nat) (lines : List Nat) : Bool :=
  ((s.owners lines).any fun e => decide (some e ≠ eng)) || s.writePending lines

end Sys2Proof.Machine
end

