-- ==== Sys2Proof/Machine/Walk.lean ====
section
/-! DEFINITION. Address apertures, page tables, TLBs and the checks of an access in their order (R98 to R111,
R313), and the layout of a work slot (R226, R243). -/

namespace Sys2Proof.Machine

/-! ### Work slots (R226, R243) -/

def up (n k : Nat) : Nat := (n + k - 1) / k * k

/-- Bytes of one group's section (R226). -/
def grpSecBytes (h : Header) : Nat := 8704 + (h.h + h.e + h.d) * 128 + h.streams * 64
/-- Ellipsis slots of a team (R226, R228). -/
def escSlots (h : Header) : Nat := min h.esccap 8192

/-- Offsets of the sections in the save area: team state, team registers, lead registers, accumulators,
scratchpad, token table, first group, ellipsis slots, end. -/
structure SaveMap where
  team : Nat
  tregs : Nat
  lead : Nat
  acc : Nat
  scr : Nat
  toks : Nat
  grp : Nat
  slots : Nat
  fin : Nat
  deriving DecidableEq, Repr

def saveMap (h : Header) (g : Nat) (lead : Bool) : SaveMap :=
  let team := 256
  let tregs := up (team + 4096) 256
  let ld := up (tregs + 64) 256
  let acc := up (ld + (if lead then 256 else 0)) 256
  let scr := up (acc + h.acc * 2112) 256
  let toks := up (scr + up h.scratch 256) 256
  let grp := up (toks + 1024) 256
  let slots := grp + g * up (grpSecBytes h) 256
  { team := team, tregs := tregs, lead := ld, acc := acc, scr := scr, toks := toks, grp := grp, slots := slots,
    fin := slots + escSlots h * 3104 }

/-- Offset of the backing area, and of the stack area, in a work slot (R243). -/
def backOff (h : Header) (g : Nat) (lead : Bool) : Nat := up (saveMap h g lead).fin 4096
def stackOff (h : Header) (g : Nat) (lead : Bool) : Nat := up (backOff h g lead + h.e * 128 * g) 4096

/-- Bytes of a whole work slot (R241, R243). -/
def slotBytes (h : Header) (g : Nat) (lead : Bool) (stk : Nat) : Nat := stackOff h g lead + 32 * g * stk

/-- The kernel has a lead slice (R72), whether or not its lead thread runs. -/
def State.hasLead (s : State) (t : Team) : Bool := (s.hdrOf t).leadoff ≠ 0
/-- Address of a team's work slot (R243). -/
def State.slotAddr (s : State) (t : Team) : Nat :=
  let q := s.queue (s.launchOf t).q
  q.work.toNat + t.wslot * q.slotsz
def State.stkBytes (s : State) (t : Team) : Nat := (s.queue (s.launchOf t).q).stk * 16
/-- Global address of a byte of a thread's stack window (R100). -/
def State.stackVa (s : State) (t : Team) (g l off : Nat) : Dword :=
  w64 (s.slotAddr t + stackOff (s.hdrOf t) (s.launchOf t).r.g (s.hasLead t) + (32 * g + l) * s.stkBytes t + off)

/-! ### Page tables (R103 to R106) -/

/-- Fields of an entry (R104). -/
structure Pte where
  v : Bool
  leaf : Bool
  rd : Bool
  wr : Bool
  roc : Bool
  mt : Nat
  contig : Bool
  res : Nat
  fmt : Nat
  geo : Nat
  stride : Nat
  rsv : Nat
  frame : Nat
  deriving DecidableEq, Repr

def pteOf (x : Nat) : Pte :=
  { v := x.testBit 63, leaf := x.testBit 62, rd := x.testBit 61, wr := x.testBit 60, roc := x.testBit 59,
    mt := x / 2 ^ 57 % 4, contig := x.testBit 56, res := x / 2 ^ 54 % 4, fmt := x / 2 ^ 51 % 8,
    geo := x / 2 ^ 49 % 4, stride := x / 2 ^ 45 % 16, rsv := x / 2 ^ 36 % 512, frame := x % 2 ^ 36 }

/-- A walker's read of an entry: raw, at the home (R107). -/
def State.pteRaw (s : State) (node idx : Nat) : Nat := leNat (s.phys none (node + 8 * idx) 8)

def nodeOk (pa : Nat) : Bool := pa % 8192 = 0 && inHbm pa 8192

/-- Check of a non-leaf entry in the order of R105: the class of the first failure. -/
def checkNode (level x : Nat) : Option Nat :=
  let p := pteOf x
  if !p.v then some 1
  else if p.leaf then (if level ≥ 2 then some 3 else none)
  else if level = 0 then some 3
  else if x / 2 ^ 56 % 64 ≠ 0 || x / 2 ^ 36 % 2 ^ 18 ≠ 0 then some 3
  else if p.res ≠ 0 || !nodeOk (p.frame * 4096) then some 6
  else none

/-- Units of 4 KiB of a formatted leaf (R91). -/
def fmtUnits (f : Nat) : Nat := if f = 1 then 8 else if f = 2 then 12 else if f = 3 then 18 else 16

/-- HBM channels of an extent lie in a mask (R313). -/
def channelsOk (mask : Dword) (pa n : Nat) : Bool :=
  mask.getLsbD (pa / 2 ^ 33 % 64) && mask.getLsbD ((pa + n - 1) / 2 ^ 33 % 64)

/-- Base address and bytes of what a leaf maps (R106). -/
def leafExtent (level frame0 : Nat) (p : Pte) : Nat × Nat :=
  if level = 1 then (p.frame * 4096, 2 ^ 26)
  else if p.contig then (frame0 * 4096, 2 ^ 21)
  else if p.fmt ≠ 0 then (p.frame * 4096, fmtUnits p.fmt * 4096)
  else (p.frame * 4096, 65536)

/-- The 32 entries of a contiguous group agree (R106). -/
def contigOk (s : State) (node idx : Nat) : Bool :=
  let j := idx / 32 * 32
  let x0 := s.pteRaw node j
  let f0 := x0 % 2 ^ 36
  f0 % 512 = 0 && (List.range 32).all fun i =>
    let x := s.pteRaw node (j + i)
    (pteOf x).contig && x / 2 ^ 36 = x0 / 2 ^ 36 && x % 2 ^ 36 = f0 + 16 * i

/-- Checks of a leaf in the order of R106: entry, format, residency. A reserved stride code of a plain page raises no
fault: DESIGN CHOICE (log 37), since R90 lets the geometry alone be ignored and R106 checks STRIDE under FMT ≠ 0. -/
def checkLeaf (s : State) (mask : Dword) (level node idx x : Nat) : Option Nat :=
  let p := pteOf x
  let f0 := s.pteRaw node (idx / 32 * 32) % 2 ^ 36
  let ext := leafExtent level f0 p
  let shape := if level = 1 then p.frame % 2 ^ 14 = 0 && !p.contig
    else (p.fmt ≠ 0 || p.frame % 16 = 0) && (!p.contig || contigOk s node idx)
  let range := if p.res = 0 then inHbm ext.1 ext.2 && channelsOk mask ext.1 ext.2
    else if p.res = 2 then inHost ext.1 ext.2 else true
  if !shape || !range || p.rsv ≠ 0 || p.res = 3 || p.mt ≥ 2 || (p.wr && !p.rd) then some 3
  else if p.fmt ≠ 0 && (level = 1 || p.contig || p.fmt > 3 || p.geo = 3 || p.stride > 6 ||
      (p.geo = 0 && p.stride ≠ 0)) then some 4
  else if p.res = 1 then some 5
  else none

def vaIndex (level va : Nat) : Nat := va / 2 ^ (16 + 10 * level) % 1024

/-- The TLB entry of a leaf (R108). -/
def leafEnt (s : State) (world level node va x : Nat) : TlbEnt :=
  let p := pteOf x
  let idx := vaIndex level va
  let bits := if level = 1 then 26 else if p.contig then 21 else 16
  let frame := if level = 0 && p.contig then s.pteRaw node (idx / 32 * 32) % 2 ^ 36 else p.frame
  { world := world, base := va / 2 ^ bits, bits := bits, pa := frame * 4096, rd := p.rd, wr := p.wr, roc := p.roc,
    mt := p.mt, fmt := p.fmt, geo := p.geo, stride := p.stride }

/-- A walk from a node of a level downward (R103, R111): the class of the first failure, or the leaf and the
non-leaf entries met. -/
def walkFrom (s : State) (world va node level : Nat) (seen : List NodeEnt) : Except Nat (TlbEnt × List NodeEnt) :=
  let x := s.pteRaw node (vaIndex level va)
  match checkNode level x with
  | some c => .error c
  | none =>
    if (pteOf x).leaf then
      match checkLeaf s (s.world world).hbmch level node (vaIndex level va) x with
      | some c => .error c
      | none => .ok (leafEnt s world level node va x, seen)
    else
      match level with
      | 0 => .error 3
      | l + 1 =>
        let next := (pteOf x).frame * 4096
        walkFrom s world va next l (seen ++ [⟨world, l, va / 2 ^ (26 + 10 * l), next⟩])

/-- Lines that a walk from a node downward reads: an entry of each level, and the whole of a contiguous group (R103, R106). -/
def walkLines (s : State) (va node level : Nat) : List Nat :=
  let i := vaIndex level va
  let p := pteOf (s.pteRaw node i)
  let own := lineOf (node + 8 * i)
  if p.leaf then (if level = 0 && p.contig then own :: linesOf (node + 8 * (i / 32 * 32)) 256 else [own])
  else
    match level with
    | 0 => [own]
    | l + 1 => if (checkNode (l + 1) (s.pteRaw node i)).isSome then [own] else own :: walkLines s va (p.frame * 4096) l

/-- The node from which a walk on a die starts, with its level (R103, R108). -/
def State.walkStart (s : State) (die world va : Nat) : Nat × Nat :=
  let have? (l : Nat) := (s.die die).nodes.find? fun n => n.world = world && n.level = l && n.tag = va / 2 ^ (26 + 10 * l)
  match have? 0, have? 1, have? 2 with
  | some n, _, _ => (n.node, 0)
  | none, some n, _ => (n.node, 1)
  | none, none, some n => (n.node, 2)
  | none, none, none => ((s.world world).root, 3)

/-- A walk of a virtual address on a die (R103, R108): from the lowest node the die's TLB holds, else the root. What a
TLB holds outlasts a change of the root, until an invalidate drops it: DESIGN CHOICE (log 37). -/
def State.walk (s : State) (die world va : Nat) : Except Nat (TlbEnt × List NodeEnt) :=
  let n := s.walkStart die world va
  if n.2 = 3 && !nodeOk n.1 then .error 6 else walkFrom s world va n.1 n.2 []

/-- A walker's reads perform now (R107, R117). -/
def State.noteWalk (s : State) (start : Nat × Nat) (va : Nat) : State :=
  if start.2 = 3 && !nodeOk start.1 then s else s.noteRead (walkLines s va start.1 start.2)

def tlbHit (l : List TlbEnt) (world va : Nat) : Option TlbEnt :=
  l.find? fun e => e.world = world && e.base = va / 2 ^ e.bits

/-- A translation by the core's TLB, the die's TLB, or a walk that fills both (R108). -/
def State.translate (s : State) (core world va : Nat) : Except Nat TlbEnt × State :=
  match tlbHit (s.core core).tlb world va with
  | some e => (.ok e, s)
  | none =>
    match tlbHit (s.die (dieOf core)).tlb world va with
    | some e => (.ok e, s.modCore core fun c => { c with tlb := (e :: c.tlb).take 4096 })
    | none =>
      let s := s.noteWalk (s.walkStart (dieOf core) world va) va
      match s.walk (dieOf core) world va with
      | .error c => (.error c, s)
      | .ok (e, ns) =>
        (.ok e, (s.modCore core fun c => { c with tlb := (e :: c.tlb).take 4096 }).modDie (dieOf core) fun d =>
          { d with tlb := (e :: d.tlb).take 262144, nodes := ns ++ d.nodes })

/-- First address and bytes of the span of an invalidate (R234): the page, its 2 MiB or 64 MiB range, the world. -/
def spanRange (span page : Nat) : Nat × Nat :=
  let b := if span = 0 then 16 else if span = 1 then 21 else 26
  if span = 3 then (0, 2 ^ 56) else (page * 65536 / 2 ^ b * 2 ^ b, 2 ^ b)

def rangeTouches (r : Nat × Nat) (base n : Nat) : Bool := base < r.1 + r.2 && r.1 < base + n

/-- The pins of streams that touch a range end (R212). -/
def Group_endPins (g : Group) (r : Nat × Nat) : Group :=
  { g with streams := g.streams.map fun x =>
      (x.1, { x.2 with pins := x.2.pins.filter fun p => !rangeTouches r (p * 65536) 65536 }) }

/-- Drops every translation of a span, and every non-leaf entry of the world (R234); ends the pins of streams there. -/
def State.dropSpan (s : State) (world span page : Nat) : State :=
  let r := spanRange span page
  let keep (e : TlbEnt) : Bool := !(e.world = world && rangeTouches r (e.base * 2 ^ e.bits) (2 ^ e.bits))
  let unpin (t : Team) : Team :=
    { t with groups := t.groups.map (fun g => Group_endPins g r), conj := t.conj.map fun g => Group_endPins g r }
  { s with
    teams := s.teams.map (fun t => if s.worldOf t = world then unpin t else t),
    cores := s.cores.map (fun c => if c.2.tlb = [] then c else (c.1, { c.2 with tlb := c.2.tlb.filter keep })),
    dies := s.dies.map (fun d => (d.1, { d.2 with
      tlb := d.2.tlb.filter keep, nodes := d.2.nodes.filter fun n => decide (n.world ≠ world) })) }

/-- Physical address of a virtual address under an entry. -/
def TlbEnt_pa (e : TlbEnt) (va : Nat) : Nat := e.pa + va % 2 ^ e.bits

/-! ### Apertures (R98) -/

inductive Aper where | scr | stk | glob
  deriving DecidableEq, Repr

def aperOf (va : Dword) : Aper :=
  let t := va.toNat / 2 ^ 48
  if t = 0xFFFE then .scr else if t = 0xFFFD then .stk else .glob

def canonical (va : Dword) : Bool :=
  let t := va.toNat / 2 ^ 55
  t = 0 || t = 511

/-- Kinds of access, by their KIND code (R215). -/
def kRead : Nat := 0
def kWrite : Nat := 1
def kAtomic : Nat := 2
def kFetch : Nat := 3

/-- Permission for a kind (R107). -/
def permOk (e : TlbEnt) (kind : Nat) : Bool :=
  if kind = kWrite then e.wr else if kind = kAtomic then e.rd && e.wr else e.rd

/-- What an access meets: where it acts, and the entry that maps it (none in the scratchpad). -/
structure Acc where
  space : Space
  ent : Option TlbEnt
  deriving DecidableEq, Repr

/-- A global access checked from canonical form on (R111): format of use (`elem` asks for a formatted page) and
permission follow the leaf's own checks. -/
def State.globAcc (s : State) (core world : Nat) (va : Dword) (kind : Nat) (elem : Bool) : Except Nat Acc × State :=
  if !canonical va then (.error 7, s)
  else
    match s.translate core world (va.toNat % 2 ^ 56) with
    | (.error c, s') => (.error c, s')
    | (.ok e, s') =>
      if (e.fmt ≠ 0) ≠ elem then (.error 4, s')
      else if !permOk e kind then (.error 2, s')
      else (.ok ⟨.glob (TlbEnt_pa e (va.toNat % 2 ^ 56)), some e⟩, s')

/-- One lane's access of n bytes, aligned to `al`, checked in the order of R111. -/
def State.access (s : State) (core team g l : Nat) (va : Dword) (n al kind : Nat) (elem : Bool) : Except Flt Acc × State :=
  let t := s.team team
  let off := va.toNat % 2 ^ 48
  let bad (c : Nat) : Except Flt Acc := .error ⟨c, kind, va, 0⟩
  let tag (r : Except Nat Acc × State) : Except Flt Acc × State :=
    match r with
    | (.error c, s') => (bad c, s')
    | (.ok a, s') => (.ok a, s')
  match aperOf va with
  | .scr =>
    if off + n > (s.hdrOf t).scratch then (bad 8, s)
    else if va.toNat % al ≠ 0 then (bad 9, s)
    else if elem then (bad 4, s)
    else (.ok ⟨.scr off, none⟩, s)
  | .stk =>
    if off + n > s.stkBytes t then (bad 8, s)
    else if va.toNat % al ≠ 0 then (bad 9, s)
    else
      match tag (s.globAcc core (s.worldOf t) (s.stackVa t g l off) kind elem) with
      | (.ok ⟨.glob pa, e⟩, s') => (.ok ⟨.stk pa, e⟩, s')
      | r => r
  | .glob =>
    if !canonical va then (bad 7, s)
    else if va.toNat % al ≠ 0 then (bad 9, s)
    else tag (s.globAcc core (s.worldOf t) va kind elem)

/-- Record address, position and format of a logical byte of a formatted page (R91). -/
def elemPlace (e : TlbEnt) (va : Nat) : Nat × Nat :=
  let p := zbPlace e.geo e.stride (va % 65536)
  (e.pa + p.1 * zbRec (fmtTy e.fmt), p.2)

end Sys2Proof.Machine
end

