-- ==== Sys2Proof/Machine/Ops.lean ====
section
/-! DEFINITION. Shared operations: error registers, kills, exits and the end of a team; barriers, reconvergence
and the decision queue; taking an exception and returning from one (R19 to R22, R31, R32, R35, R71, R112, R131,
R153, R154, R213 to R221). -/

namespace Sys2Proof.Machine

/-! ### Error registers (R214) -/

def eIll : Nat := 0
def eScb : Nat := 1
def eRcv : Nat := 2
def eBnds : Nat := 3
def ePriv : Nat := 4
def eFlt : Nat := 5
def eDtrap : Nat := 6
def eInteg : Nat := 7
def eCtx : Nat := 8

/-- Sets a sticky bit; the first bit tied to an instruction records its address and first word. -/
def Launch_sticky (l : Launch) (bit : Nat) (tied : Option (Dword × Word)) : Launch :=
  let l1 := { l with ctxerr := l.ctxerr ||| BitVec.ofNat 9 (2 ^ bit) }
  match tied with
  | some (pc, w) => if l.errSet then l1 else { l1 with errSet := true, errpc := pc, errword := w }
  | none => l1

def State.sticky (s : State) (launch bit : Nat) (tied : Option (Dword × Word)) : State :=
  s.modLaunch launch fun l => Launch_sticky l bit tied

/-! ### Registers abroad (R181) -/

def EStat_away (e : EStat) : Bool :=
  match e with
  | .landed => false
  | .diverted => false
  | .divPark => false
  | _ => true

def inRange (n base cnt : Nat) : Bool := base ≤ n && n < base + cnt

/-- `Abroad(reg, L)` (R75, R181) for a thread given by its home. -/
def State.abroad (s : State) (team g l reg : Nat) : Bool :=
  (s.escs.any fun r => r.team = team && (inRange reg r.ebase r.ecnt || inRange reg r.dreg r.dcnt) &&
    r.lanes.any fun x => x.grp = g && x.lane = l && EStat_away x.stat) ||
  (s.pends.any fun p => p.abroad && p.team = team && p.grp = g && p.lane = l && inRange reg p.no p.cnt)

/-- Whether any register of a thread is abroad, or an instruction of it is in its probe pass, which may put it back
(R35, R206). -/
def State.anyAbroad (s : State) (team g l : Nat) : Bool :=
  (s.escs.any fun r => r.team = team && r.lanes.any fun x => x.grp = g && x.lane = l && EStat_away x.stat) ||
  (s.pends.any fun p => p.abroad && p.team = team && p.grp = g && p.lane = l) ||
  (s.probes.any fun p => p.team = team && p.lanes.any fun x => x.grp = g && x.lane = l)

/-! ### Reconvergence (R19 to R21) -/

def Thread_memberOf (th : Thread) (b : Nat) : Bool := th.member.getLsbD b
def Thread_arrivedAt (th : Thread) (b : Nat) : Bool := th.arrived.getLsbD b

/-- Ends a wait at a slot: the predicate, and on to the next instruction; RCV.WAIT has 12 bytes (R45, R151). -/
def Thread_rcvEnd (th : Thread) (val : Bool) : Thread :=
  match th.st with
  | .rcv _ p => { (th.setP p.toNat val) with st := .run, pc := th.pc + 12 }
  | _ => th

/-- Completion of a slot (R19): every member arrived or exited, and somebody waits. -/
def Group_rcvComplete (g : Group) (b : Nat) : Group :=
  let ready := g.threads.all fun th => !Thread_memberOf th b || Thread_arrivedAt th b || th.gone
  let some_ := g.threads.any fun th => Thread_arrivedAt th b && !th.gone
  if ready && some_ then
    { g with
      expiry := tabDel g.expiry b,
      threads := g.threads.map fun th =>
        let th' := if Thread_arrivedAt th b then Thread_rcvEnd th true else th
        { th' with member := setBit th'.member b false, arrived := setBit th'.arrived b false } }
  else g

/-- Timeout of a slot (R19): arrived threads leave with p false; the others stay members. -/
def Group_rcvTimeout (g : Group) (b : Nat) : Group :=
  { g with
    expiry := tabDel g.expiry b,
    threads := g.threads.map fun th =>
      if Thread_arrivedAt th b then
        let th' := Thread_rcvEnd th false
        { th' with member := setBit th'.member b false, arrived := setBit th'.arrived b false }
      else th }

def Group_rcvAll (g : Group) : Group := (List.range 16).foldl Group_rcvComplete g

/-! ### Tile order and watermarks (R264, R265, R275) -/

/-- Rows of a tile that an engine still writes. -/
def EngKind_rows (k : EngKind) (md : Nat) : Word :=
  match k with
  | .tile ts rows _ => if ts.contains md then rows else 0
  | .attn ts rows _ => if ts.contains md then rows else 0
  | _ => 0

/-- Incomplete writers of any of some rows of a tile (R265). -/
def State.tileWriters (s : State) (team md : Nat) (rows : Word) : List Nat :=
  (s.engines.filter fun e => decide (e.team = team) && decide (EngKind_rows e.kind md &&& rows ≠ 0)).map (·.id)

/-- Rows of a tile that an instruction writes that issued and has not acted. -/
def Probe_rows (p : Probe) (md : Nat) : Word :=
  match p.held with
  | some h => if h.tiles.contains md then h.rows else 0
  | none => 0

/-- The least row with an incomplete writer, or 32 (R265). -/
def State.leadingFinal (s : State) (team md : Nat) : Nat :=
  let busy := (s.engines.filter fun e => decide (e.team = team)).foldl (fun m e => m ||| EngKind_rows e.kind md) (0 : Word)
  let held := (s.probes.filter fun p => decide (p.team = team)).foldl (fun m p => m ||| Probe_rows p md) busy
  (bits32 held).headD 32

/-- The watermark as it stands at the start of a cycle (R265, R275). -/
def Tile_wmAt (x : Tile) (now : Nat) : Nat := if x.cyc < now then x.wmNew else x.wm

/-- A change of the watermark shows from the next cycle on. -/
def Tile_wmSet (x : Tile) (now new : Nat) : Tile :=
  if x.cyc < now then { x with wm := x.wmNew, wmNew := new, cyc := now } else { x with wmNew := new }

/-- The watermarks of tiles after a change of cycle `at_`. -/
def State.wmUpdateAt (s : State) (at_ team : Nat) (ts : List Nat) : State :=
  ts.foldl (fun s' md => s'.modTeam team fun t => t.setTile md (Tile_wmSet (t.tile md) at_ (s.leadingFinal team md))) s

def State.wmUpdate (s : State) (team : Nat) (ts : List Nat) : State :=
  s.wmUpdateAt (s.cycle (s.team team).core) team ts

/-! ### Barriers (R123, R153, R154) -/

/-- Lanes of a group-like object that wait for a generation of a barrier go on. -/
def Thread_barEnd (th : Thread) (n gen : Nat) : Thread :=
  if th.st = .bar n gen then { th with st := .run, pc := th.pc + 12 } else th

def Group_barEnd (g : Group) (n gen : Nat) : Group :=
  { g with threads := g.threads.map fun th => Thread_barEnd th n gen }

def Team_barEnd (t : Team) (n gen : Nat) : Team :=
  { t with groups := t.groups.map (fun g => Group_barEnd g n gen), lead := t.lead.map fun g => Group_barEnd g n gen }

/-- A place in the scratchpad. -/
def Space_scr (sp : Space) : Bool :=
  match sp with
  | .scr _ => true
  | _ => false

/-- Whether an engine reads or writes the scratchpad. -/
def EngKind_scr (k : EngKind) : Bool :=
  match k with
  | .acp secs => secs.any fun x => Space_scr x.1 || Space_scr x.2
  | .scat ws => ws.any fun w => Space_scr w.space
  | .mst _ ws => ws.any fun w => Space_scr w.space
  | _ => false

/-- The group, or the lead thread, that a participant number of a barrier names (R153). -/
def partActor (n : Nat) : Actor := if n = leadGrp then .lead else .grp n

/-- An instruction that issued and has not acted may touch the scratchpad or writes a `t` register. -/
def Probe_bars (p : Probe) : Bool :=
  match p.held with
  | some h => h.touch.all (fun ps => ps.any fun x => Space_scr x.1) || p.instr.uses.any fun u => u.wr && u.cls = .t
  | none => true

/-- Scratchpad accesses and `t` writes outstanding of participants, by name: accesses under way, those of probes, which
may go there, and of engines, and results of both kinds (R123). -/
def State.barIds (s : State) (team : Nat) (parts : List Nat) : List Nat :=
  let who (a : Actor) : Bool := parts.any fun n => partActor n = a
  (s.flights.filter fun f => f.team = team && parts.contains f.grp && Space_scr f.space).map (·.id) ++
  (s.probes.filter fun p => p.team = team && who p.who && Probe_bars p).map (·.id) ++
  (s.engines.filter fun e => e.team = team && who e.who && EngKind_scr e.kind).map (·.id) ++
  (s.pends.filter fun p => p.team = team && p.cls = 2 && parts.contains p.grp).map (·.id) ++
  ((s.team team).pipe.filter fun p => p.cls = 2 && parts.contains p.grp).map (·.id)

/-- Whether none of the names stands for an outstanding access or write; the elements of a gather stand for its probe. -/
def State.idsDone (s : State) (ids : List Nat) : Bool :=
  ids.all fun i => (s.flights.all fun f => f.id ≠ i && f.eng ≠ some i) && (s.probes.all fun p => p.id ≠ i) &&
    (s.engines.all fun e => e.id ≠ i) && (s.pends.all fun p => p.id ≠ i) && s.teams.all fun t => t.pipe.all fun p => p.id ≠ i

/-- A generation completes when every live participant has arrived, or at its k-th arrival (R153). -/
def barDone (b : Bar) (live : List Nat) : Bool :=
  b.arr ≠ [] && (if b.k = 0 then live.all fun p => b.arr.contains p else b.arr.length ≥ b.k)

/-- The barrier after a completion: the next generation, no arrivals, and what its lanes wait for: what was outstanding of
each participant as it arrived (R123). -/
def barNext (b : Bar) : Bar := { gen := b.gen + 1, k := 0, arr := [], ids := [], holds := b.holds ++ [⟨b.gen, b.ids⟩] }

def State.barCheck (s : State) (team n : Nat) : State :=
  let t := s.team team
  let b := t.bar n
  if barDone b t.live then
    s.modTeam team fun t => { t with bars := tabSet t.bars n (barNext b) {} }
  else s

/-- Releases the lanes of completed generations whose accesses and writes are done. -/
def State.barRelease (s : State) (team n : Nat) : State :=
  let t := s.team team
  let b := t.bar n
  let ok (h : BarHold) : Bool := s.idsDone h.ids
  let done := b.holds.filter ok
  s.modTeam team fun t =>
    let t1 := done.foldl (fun t h => Team_barEnd t n h.gen) t
    { t1 with bars := tabSet t1.bars n { b with holds := b.holds.filter fun h => !ok h } {} }

/-- Cluster number of a team (R10). -/
def Launch_cluster (l : Launch) (num : Nat) : Nat := num / l.r.c
/-- Teams of a cluster that have not ended. -/
def State.clusterTeams (s : State) (launch cl : Nat) : List Team :=
  s.teams.filter fun t => t.launch = launch && Launch_cluster (s.launch launch) t.num = cl

/-- Participants of a cluster barrier: team number · 64 + group, lead as 32 (R154). -/
def State.clusterLive (s : State) (launch cl : Nat) : List Nat :=
  (s.clusterTeams launch cl).flatMap fun t => t.live.map fun g => t.num * 64 + g

def State.cbarCheck (s : State) (launch cl : Nat) : State :=
  let b := tabGet (s.launch launch).cbars cl {}
  if barDone b (s.clusterLive launch cl) then
    s.modLaunch launch fun l => { l with cbars := tabSet l.cbars cl (barNext b) {} }
  else s

def State.cbarRelease (s : State) (launch cl : Nat) : State :=
  let b := tabGet (s.launch launch).cbars cl {}
  let ts := s.clusterTeams launch cl
  let ok (h : BarHold) : Bool := s.idsDone h.ids
  let done := b.holds.filter ok
  let s1 := done.foldl (fun s h => ts.foldl (fun s t => s.modTeam t.id fun t => Team_barEnd t 16 h.gen) s) s
  s1.modLaunch launch fun l => { l with cbars := tabSet l.cbars cl { b with holds := b.holds.filter fun h => !ok h } {} }

/-- Every barrier of a team and of its cluster: completion and release. -/
def State.barAll (s : State) (team : Nat) : State :=
  let t := s.team team
  let s1 := (t.bars.map (·.1)).foldl (fun s n => (s.barCheck team n).barRelease team n) s
  let cl := Launch_cluster (s.launchOf t) t.num
  (s1.cbarCheck t.launch cl).cbarRelease t.launch cl

/-! ### The decision queue (R31, R32) -/

/-- Groups of the team that have not exited. -/
def Team_liveGroups (t : Team) : List Nat := t.allGroups.filter fun g => !(t.groupAt g).exited

/-- A plain entry retires when taken, a broadcast one when every group that has not exited has taken it. -/
def Team_dqRetire (t : Team) : Team :=
  let live := Team_liveGroups t
  { t with dq := t.dq.filter fun e => if e.bcast then !(live.all fun g => e.taken.contains g) else e.taken = [] }

/-- Index of the oldest entry open to a group. -/
def dqOpen (dq : List DqEnt) (g i : Nat) : Option Nat :=
  match dq with
  | [] => none
  | e :: r => if e.bcast then (if e.taken.contains g then dqOpen r g (i + 1) else some i) else some i

/-! ### Exits, kills and the end of a team (R8, R35, R71, R100) -/

/-- Dirty stack sectors of a team go to their homes, and the team's sectors leave the L1 (R100). -/
def State.flushStack (s : State) (team : Nat) : State :=
  s.dropStack (s.team team).core fun x => x.team = team

/-- Every stack write-back of a team has completed (R100). -/
def State.flushed (s : State) (team : Nat) : Bool :=
  s.homes.all fun h => !(h.wb && decide (h.team = team)) || decide (h.w ≤ s.gtc)

/-- A store to a team's stack is still to act: an access, or an engine's write (R100). -/
def State.stackStores (s : State) (team : Nat) : Bool :=
  let stk (sp : Space) : Bool := match sp with
    | .stk _ => true
    | _ => false
  (s.flights.any fun f => f.team = team && stk f.space && (match f.op with
    | .load .. | .eload .. | .kvqry .. => false
    | _ => true)) ||
  (s.engines.any fun e => e.team = team && (match e.kind with
    | .acp secs => secs.any fun x => stk x.1
    | .scat ws => ws.any fun w => stk w.space
    | .mst _ ws => ws.any fun w => stk w.space
    | _ => false))

/-- Every store to a team's stack has acted and is written back (R100). -/
def State.stackDone (s : State) (team : Nat) : Bool := s.flushed team && !s.stackStores team

/-- A resident team's resources go back to its core; its banks may be claimed in this cycle (R35, R41). -/
def State.freeCore (s : State) (team : Nat) : State :=
  let t := s.team team
  ((s.flushStack team).modCore t.core fun c => { c with rel := t.banks.foldl insertNat c.rel }).modTeam team fun t =>
    { t with banks := [] }

/-- Nothing waits any more for things of some names. -/
def State.forget (s : State) (ids : List Nat) : State := ids.foldl (fun s id => s.swapId id []) s

/-- Requests whose probe pass is dropped: nothing more happens to them, and the escorts come home to be discarded (R71). What
waited for one waits no more, and the rows it was to write are final (R265). -/
def State.dropProbes (s : State) (gone : Probe → Bool) : State :=
  let out := s.probes.filter gone
  let ids := out.filterMap (·.req)
  let s1 : State := { s with
    probes := s.probes.filter fun p => !gone p,
    escs := mapIf s.escs (fun q => ids.contains q.id) fun q => { q with lanes := q.lanes.map fun l => { l with stat := .replied } } }
  out.foldl (fun s p => s.wmUpdate p.team ((p.held.map (·.tiles)).getD [])) (s1.forget (out.map (·.id)))

/-- A lane whose reply stands in a slot that nothing will read: its escort is discarded. -/
def EscLane_orphan (l : EscLane) : EscLane :=
  match l.stat with
  | .diverted => { l with stat := .replied }
  | .divPark => { l with stat := .replied }
  | _ => l

/-- The team is gone: its work slot is freed and the launch has one team less (R242, R243). -/
def State.dropTeam (s : State) (team : Nat) : State :=
  let t := s.team team
  let s1 := match t.place with
    | .resident => s.freeCore team
    | .stopped _ => s.freeCore team
    | _ => s
  let s2 := s1.modQueue (s.launchOf t).q fun q => { q with held := q.held.filter (· ≠ t.wslot) }
  let s3 := s2.modLaunch t.launch fun l => { l with ended := l.ended + 1, latest := max l.latest s.gtc }
  let s4 := s3.dropProbes fun p => decide (p.team = team)
  { s4 with
    teams := s4.teams.filter (fun x => decide (x.id ≠ team)),
    pends := s4.pends.filter (fun p => decide (p.team ≠ team)),
    fences := s4.fences.filter (fun p => decide (p.team ≠ team)),
    escs := mapIf s4.escs (fun q => q.team = team) fun q => { q with lanes := q.lanes.map EscLane_orphan },
    lates := s3.lates.filter (fun x => decide (x.team ≠ team)),
    parks := s3.parks.filter (fun p => decide (p.team ≠ team)) }

/-- Every thread of a team is exited. -/
def Team_exitAll (t : Team) : Team :=
  let all (g : Group) : Group := { g with threads := g.threads.map (fun th => { th with st := .exited }), active := false }
  { t with groups := t.groups.map all, lead := t.lead.map all, conj := [], cands := [] }

/-- A team of an aborted launch (R131): it ends, and one that stands on a core keeps its resources until the write-backs
of its stack lines are complete, those of stores still under way among them (R100). -/
def State.abandonTeam (s : State) (team : Nat) : State :=
  let s1 := s.flushStack team
  match (s.team team).place with
  | .resident => if s1.stackDone team then s1.dropTeam team else s1.modTeam team Team_exitAll
  | .stopped _ => if s1.stackDone team then s1.dropTeam team else s1.modTeam team Team_exitAll
  | _ => s.dropTeam team

/-- The team ends when its last group and its lead thread have exited (R35), once its stores to its stack have acted and the
write-backs of its stack lines are complete (R100). -/
def State.endTeam (s : State) (team : Nat) : State :=
  match s.team? team with
  | none => s
  | some t =>
    if t.live = [] && t.place ≠ .admitting then
      let s1 := s.flushStack team
      if s1.stackDone team then s1.dropTeam team else s1
    else s

/-- Space of a landing share becomes free: a refill is tried while a group has spilled registers (R40). -/
def Team_freeSpace (t : Team) : Team := { t with freed := t.freed || t.groups.any fun g => g.spilled ≠ [] }

/-- A group without a live thread leaves its place and its space in the landing share (R23, R40). -/
def Group_retire (g : Group) : Group :=
  if g.exited then { g with active := false, landed := [], spilled := [] } else g

/-- What the exit of threads of a group brings about: reconvergence, barriers, the decision queue, the group's
place, the team's end. -/
def State.afterExit (s : State) (team g : Nat) : State :=
  let s1 := s.modTeam team fun t =>
    let t1 := t.modGroupAt g fun x => Group_retire (Group_rcvAll x)
    if (t1.groupAt g).exited then Team_freeSpace t1 else t1
  let s2 := s1.modTeam team Team_dqRetire
  (s2.barAll team).endTeam team

/-- A thread executes EXIT: it is exited at once, or when its registers are home (R35, R149). -/
def State.exitThread (s : State) (team g l : Nat) : State :=
  let st : TState := if s.anyAbroad team g l then .exiting else .exited
  s.modTeam team fun t => t.modThread g l fun th => { th with st := st }

/-- A thread stands in a conjugate group. -/
def Team_inConj (t : Team) (g l : Nat) : Bool := t.conj.any fun c => c.pos.contains (some (g, l))

/-- Whether a thread stands in an actor: one that stands in a conjugate group does not stand in its home group (R8,
R259). -/
def Team_standsIn (t : Team) (a : Actor) (L : Nat) : Bool :=
  match a with
  | .grp n => !Team_inConj t n L
  | _ => true

/-- A thread leaves the conjugate group it stands in; an empty one frees its entry (R260). -/
def Team_leaveConj (t : Team) (g l : Nat) : Team :=
  let cs := t.conj.map fun c => { c with pos := c.pos.map fun p => if p = some (g, l) then none else p }
  { t with conj := cs.filter fun c => c.pos.any Option.isSome }

/-- A result of a home group that goes with it: what it wrote to `t` registers lands (R62), and so does what a conjugate group
that lives on has in its own `g` registers (log 13). -/
def goesWith (g cls grp : Nat) (who : Actor) : Bool := grp = g && cls ≠ 2 && (cls ≠ 1 || decide (who = .grp g) || decide (who = .lead))

/-- A probe without the lanes of a home group. -/
def Probe_without (g : Nat) (p : Probe) : Probe :=
  let keep := p.lanes.zipIdx.filter fun x => decide (x.1.grp ≠ g)
  if keep.length = p.lanes.length then p
  else
    { p with
      lanes := keep.map (·.1), pends := if p.pends = [] then [] else keep.map fun x => p.pends.getD x.2 0,
      held := p.held.map fun h =>
        { h with regs := keep.map (fun x => h.regs.getD x.2 ([], 0x80)), ctx := { h.ctx with mask := maskOf (keep.map fun x => x.1.pos) } } }

/-- A home group's lanes leave the probes of a team; one without lanes is dropped (R71). -/
def State.leaveProbes (s : State) (team g : Nat) : State :=
  let ids := (s.probes.filter fun p => p.team = team && p.lanes.any fun x => x.grp = g).filterMap (·.req)
  let s1 : State := { s with
    probes := mapIf s.probes (fun p => p.team = team) (Probe_without g),
    escs := mapIf s.escs (fun q => ids.contains q.id) fun q =>
      { q with lanes := mapIf q.lanes (fun l => l.grp = g) fun l => { l with stat := .replied } } }
  s1.dropProbes fun p => p.team = team && p.lanes = []

/-- One home group dies: its threads become exited, nothing waits for it, what is abroad is discarded (R71). -/
def State.killOne (s : State) (team g : Nat) : State :=
  let s1 := s.modTeam team fun t =>
    let t1 := (List.range 32).foldl (fun t l => Team_leaveConj t g l) t
    let t2 := t1.modGroupAt g fun x =>
      { x with threads := x.threads.map fun th => { th with st := .exited }, streams := [] }
    { t2 with
      cands := t2.cands.filter (fun c => decide (c.grp ≠ g)),
      pipe := t2.pipe.filter fun p => !goesWith g p.cls p.grp p.who }
  let lost := (s1.pends.filter fun p => p.team = team && goesWith g p.cls p.grp p.who).map (·.id) ++
    (((s.team team).pipe.filter fun p => goesWith g p.cls p.grp p.who).map (·.id)).filter (fun i => decide (i ≠ 0))
  let s1' := (s1.leaveProbes team g).forget lost
  let s2 : State := { s1' with
    pends := s1'.pends.filter (fun p => !(decide (p.team = team) && goesWith g p.cls p.grp p.who)),
    fences := s1'.fences.filter (fun f => !(decide (f.team = team) && decide (f.who = .grp g))),
    parks := (s1'.parks.map (fun p => if p.team = team then { p with lanes := p.lanes.filter fun x => x.1 ≠ g } else p)).filter
      (fun p => p.lanes ≠ []) }
  s2.afterExit team g

/-- Home groups of the threads an actor holds (R71, R260). -/
def Team_homes (t : Team) (a : Actor) : List Nat :=
  match a with
  | .grp n => [n]
  | .conj k => ((t.conj.find? fun c => c.id = k).getD {}).pos.foldl
      (fun acc p => match p with | some (g, _) => insertNat acc g | none => acc) []
  | .lead => [leadGrp]

/-- A kill (R213): the group, every home group of a conjugate group, or the whole team for the lead thread. -/
def State.killActor (s : State) (team : Nat) (a : Actor) (bit : Nat) (tied : Option (Dword × Word)) : State :=
  let t := s.team team
  let s1 := s.sticky t.launch bit tied
  let gs := match a with
    | .lead => t.allGroups ++ [leadGrp]
    | _ => Team_homes t a
  gs.foldl (fun s g => if (s.team? team).isSome then s.killOne team g else s) s1

/-- A kill by the instruction in hand, tied to it. -/
def State.killCur (s : State) (bit : Nat) : State :=
  s.killActor s.cur.team s.cur.who bit (some (s.cur.pc, s.cur.word))

/-! ### Interrupts and records (R215, R216, R314) -/

/-- Mask bit of a vector in the MSI-X table (log 16). -/
def World_masked (w : World) (vec : Nat) : Bool := (memByte w.msix (16 * vec + 12)).getLsbD 0

/-- Signals a vector: a message, or the pending bit while the vector is masked, which coalesces (R314, log 16). -/
def State.signal (s : State) (world vec : Nat) : State :=
  if World_masked (s.world world) vec then s.modWorld world fun w => { w with msiPend := setBit8 w.msiPend vec true }
  else { s with signals := s.signals ++ [(world, vec)] }

/-- Pending vectors that a write of the table unmasked are signalled now. -/
def State.flushVectors (s : State) (world : Nat) : State :=
  (List.range 8).foldl (fun s v =>
    if (s.world world).msiPend.getLsbD v && !World_masked (s.world world) v then
      (s.modWorld world fun w => { w with msiPend := setBit8 w.msiPend v false }).signal world v
    else s) s

/-- A record does not come after one of a GTC of detection and a source (R216). -/
def FRec_upTo (r : FRec) (gtc source : Nat) : Bool := r.gtc < gtc || (r.gtc = gtc && decide (r.source ≤ source))

/-- Records of one issue take their place among those held, in (GTC of detection, source) order (R216): after every
record detected no later, and never between the records of another issue (R215). -/
def heldInsert (held rs : List FRec) : List FRec :=
  match rs with
  | [] => held
  | r :: _ =>
    let gtc := (rs.map (·.gtc)).foldl min r.gtc
    let k := (held.reverse.takeWhile fun x => !FRec_upTo x gtc r.source).length
    let pre := held.take (held.length - k)
    let post := held.drop (held.length - k)
    let j := match pre.getLast? with
      | some x => if x.flags.testBit 0 then 0 else (post.takeWhile fun y => !y.flags.testBit 0).length + 1
      | none => 0
    pre ++ post.take j ++ rs ++ post.drop j

/-- Records of one issue that go to one queue: LAST on the last (R215, R216). -/
def State.pushRecs (s : State) (world : Nat) (rs : List FRec) : State :=
  let marked := (rs.zipIdx).map fun x => if x.2 + 1 = rs.length then { x.1 with flags := x.1.flags ||| 1 } else x.1
  s.modWorld world fun w => { w with held := heldInsert w.held marked }

/-- A record that stands alone (R335). -/
def State.pushRec (s : State) (world : Nat) (r : FRec) : State := s.pushRecs world [r]

/-! ### Taking an exception (R112, R213, R215, R219, R220) -/

/-- A fault of one thread, given by its home. -/
abbrev LaneFlt := (Nat × Nat) × Flt

/-- Whether a class enters the world's handler (R218). -/
def State.handled (s : State) (world cls : Nat) : Bool :=
  (s.world world).ctxctl.getLsbD cls && ((1 ≤ cls && cls ≤ 5) || (7 ≤ cls && cls ≤ 13))

def pageOf (a : Dword) : Nat := a.toNat / 65536

/-- Distinct keys in ascending order. -/
def keysOf (l : List Nat) : List Nat := l.foldl insertNat []

/-- Flags of a record: PROBE, ESC, DIV (R215). -/
structure FltWay where
  probe : Option (List (Nat × Nat)) := none
  esc : Bool := false
  /-- threads of it whose registers never left -/
  stayed : List (Nat × Nat) := []
  /-- threads whose fault was diverted -/
  div : List (Nat × Nat) := []
  /-- when the faults of threads were detected; now, where not listed -/
  times : List ((Nat × Nat) × Nat) := []
  code : Nat := 0
  fetch : Bool := false
  trap : Bool := false
  /-- the tag its issue has already -/
  tag : Option Word := none
  deriving DecidableEq, Repr

/-- Bit of a thread in LANES: its home lane; in a conjugate group's handler registers its position (R215, R221). -/
def laneBits (ls : List (Nat × Nat)) : BitVec 32 := maskOf (ls.map (·.2))

/-- When the fault of a thread was detected (R215). -/
def FltWay_time (way : FltWay) (now : Nat) (h : Nat × Nat) : Nat := ((way.times.find? fun x => x.1 = h).map (·.2)).getD now

/-- The records of an issue: one for each home group, class and 64 KiB page, in ascending order (R215, R221). -/
def faultRecs (s : State) (c : IssueCtx) (tag : Word) (fs : List LaneFlt) (way : FltWay) : List FRec :=
  let t := s.team c.team
  let base : FRec :=
    { cls := 0, flags := if way.probe.isSome then 2 else 0,
      tag := tag, pc := c.pc, word := if way.fetch then 0 else c.word, world := s.worldOf t, source := c.core,
      team := t.num, code := way.code, launch := Launch_lid (s.launch t.launch), gtc := s.gtc }
  let gs := keysOf (fs.map (·.1.1))
  gs.flatMap fun g =>
    let fg := fs.filter fun f => f.1.1 = g
    let pages := keysOf (fg.map fun f => pageOf f.2.addr)
    pages.flatMap fun pg =>
      let fp := fg.filter fun f => pageOf f.2.addr = pg
      (keysOf (fp.map fun f => f.2.cls)).map fun k =>
        let fk := fp.filter fun f => f.2.cls = k
        let low := (fk.map fun f => f.2.addr.toNat).foldl min (2 ^ 64)
        let first := (fk.map (·.2)).head?
        { base with
          flags := base.flags + (if way.esc && fk.any fun f => !way.stayed.contains f.1 then 4 else 0) +
            (if fk.any fun f => way.div.contains f.1 then 8 else 0),
          gtc := (fk.map fun f => FltWay_time way s.gtc f.1).foldl min s.gtc,
          cls := k, kind := (first.map (·.kind)).getD 5, peer := (first.map (·.peer)).getD 0, lanes := laneBits (fk.map (·.1)),
          addr := if way.trap then 0 else w64 low, grp := if g = leadGrp then 0xFFFF else g }

/-- Whether any lane that stands in an actor is at level H (R219, R221). -/
def Team_inHandler (t : Team) (a : Actor) : Bool :=
  (t.positions a).any fun L => (t.threadAt a L).level = .h && !(t.threadAt a L).gone && Team_standsIn t a L

/-- A sub-group that has entered the handler and has run nothing there stands outside again, waiting. -/
def State.leaveHandler (s : State) (p : Park) : State :=
  let s1 := s.modTeam p.team fun t => p.lanes.foldl (fun t x => t.modThread x.1 x.2 fun th =>
    if th.gone then th else { th with level := .u, st := .trapWait p.tag, pc := p.pc }) t
  { s1 with parks := mapIf s1.parks (fun q => q.tag = p.tag && q.inH) fun q => { q with inH := false } }

/-- Of sub-groups of one group that raise handler classes in one cycle, the one at the lower program counter enters
first (R236): one that entered in this cycle gives way, having run nothing. -/
def State.yieldHandler (s : State) (team : Nat) (a : Actor) : State :=
  match s.parks.find? fun p => p.team = team && p.who = a && p.inH with
  | none => s
  | some p =>
    let t := s.team team
    let tv := (s.world (s.worldOf t)).tvec
    let fresh := p.lanes.all fun x => (t.thread x.1 x.2).gone || decide ((t.thread x.1 x.2).pc = tv)
    let lower := s.parks.any fun q => q.team = team && q.who = a && !q.inH && q.handler.isSome && q.cyc = p.cyc &&
      decide (q.pc.toNat < p.pc.toNat)
    if fresh && lower && decide (p.cyc = s.cycle t.core) then s.leaveHandler p else s

/-- The sub-group that entered first, then the one at the lower program counter, enters the handler when no lane
of its group is there (R219, R236). Among waiting ones of different cycles the earliest GTC of detection comes first, which
R219 does not say: DESIGN CHOICE (log 39). -/
def State.enterHandler (s : State) (team : Nat) (a : Actor) : State :=
  let t := s.team team
  let waiting := s.parks.filter fun p => p.team = team && p.who = a && !p.inH && p.handler.isSome
  let best := waiting.foldl (fun b p => match b, p.handler with
    | none, _ => some p
    | some q, some r =>
      match q.handler with
      | some r' => if r.gtc < r'.gtc || (r.gtc = r'.gtc && r.pc.toNat < r'.pc.toNat) then some p else some q
      | none => some p
    | some q, none => some q) (none : Option Park)
  match best with
  | none => s
  | some p =>
    if Team_inHandler t a then s
    else
      let r := p.handler.getD { cls := 0 }
      let w := s.worldOf t
      let mask := match a with
        | .conj _ => maskOf ((t.positions a).filter fun L => match t.place? a L with
            | some x => p.low.contains x
            | none => false)
        | _ => laneBits p.low
      let regs : TrapRegs :=
        { cause := w64 (r.code + r.kind * 65536 + r.cls * 2 ^ 24), pc := r.pc, addr := r.addr,
          mask := zext32 mask, word := zext32 r.word }
      let s1 := s.modTeam team fun t =>
        p.lanes.foldl (fun t x => t.modThread x.1 x.2 fun th =>
            { th with level := .h, st := .run, pc := (s.world w).tvec })
          (t.modActor a fun g => { g with trap := regs })
      -- a sub-group whose lanes all exited in the handler has left it
      let rest := s1.parks.filter fun q => !(decide (q.team = team) && decide (q.who = a) && q.inH)
      { s1 with parks := mapIf rest (fun q => q.tag = p.tag && q.handler.isSome) fun q => { q with inH := true } }

/-- Parks threads under a tag; they stand at the instruction. -/
def Team_park (t : Team) (ls : List (Nat × Nat)) (st : TState) (pc : Dword) : Team :=
  ls.foldl (fun t x => t.modThread x.1 x.2 fun th => { th with st := st, pc := pc }) t

/-- TAKES AN EXCEPTION (R112, R213, R215, R219, R220): at level H the group dies with DTRAP; otherwise the faulting
threads, or all of a probe's, park at the instruction under a new tag, and enter the handler when their class
does, or leave records in the physical function's queue (walk-node) and the world's. Of two handler classes on the lowest
page the lowest class gives TCAUSE to TWORD, which R219 leaves open: DESIGN CHOICE (log 39). -/
def State.takeFault (s : State) (c : IssueCtx) (fs : List LaneFlt) (way : FltWay) : State :=
  let t := s.team c.team
  let w := s.worldOf t
  let lanes := way.probe.getD (fs.map (·.1))
  if fs = [] then s
  else if lanes.any fun x => (t.thread x.1 x.2).level = .h then
    s.killActor c.team c.who eDtrap (some (c.pc, c.word))
  else
    let (id, s0) := s.fresh
    let tag := way.tag.getD (w32 id)
    let firstH := match faultRecs s c tag fs way with
      | r :: _ => s.handled w r.cls
      | [] => false
    let inHandler (f : LaneFlt) : Bool := if way.probe.isSome then firstH else s.handled w f.2.cls
    let fh := fs.filter inHandler
    let fq := fs.filter fun f => !inHandler f
    let mk (ls : List (Nat × Nat)) (cls : Nat) (h : Option FRec) : Park :=
      { tag := tag, world := w, team := c.team, who := c.who, lanes := ls, cls := cls, fetch := way.fetch,
        trapCls := way.trap, pc := c.pc, len := c.len, word := c.word, handler := h, cyc := s.cycle t.core }
    let recs := faultRecs s c tag fq way
    let pf := recs.filter fun r => r.cls = 6
    let wd := recs.filter fun r => r.cls ≠ 6
    let s1 := if fq = [] then s0 else
      let ls := way.probe.getD (fq.map (·.1))
      let s1 := s0.modTeam c.team fun t => Team_park t ls (.parked tag) c.pc
      -- a resume of walk-node faults comes by another queue (R217)
      let part (walk : Bool) : List Park :=
        match fq.filter fun f => (f.2.cls = 6) = walk with
        | [] => []
        | f :: r => [mk (way.probe.getD ((f :: r).map (·.1))) f.2.cls none]
      ({ s1 with parks := s1.parks ++ part true ++ part false }.pushRecs 0 pf).pushRecs w wd
    if fh = [] then s1 else
      let ls := way.probe.getD (fh.map (·.1))
      let low : Option FRec := (sortBy (fun r : FRec => pageOf r.addr) (faultRecs s c tag fh way)).head?
      -- the threads that its record names, and their lowest address
      let onPage := fh.filter fun f => low.any fun r => (way.trap || decide (pageOf f.2.addr = pageOf r.addr)) && decide (f.2.cls = r.cls)
      let least := (onPage.map fun f => f.2.addr.toNat).foldl min (2 ^ 64)
      let rec_ : Option FRec := low.map fun r => { r with addr := if way.trap then 0 else w64 least }
      let s2 := s1.modTeam c.team fun t => Team_park t ls (.trapWait tag) c.pc
      let park : Park := { mk ls ((low.map FRec.cls).getD 0) rec_ with low := onPage.map (·.1) }
      (({ s2 with parks := s2.parks ++ [park] }).yieldHandler c.team c.who).enterHandler c.team c.who

/-! ### Resumes and the return from an exception (R217, R219, R221, R235) -/

/-- Where a thread goes on: the instruction again, or past it; a software trap or breakpoint always past it, a fetch
always again. -/
def resumePc (p : Park) (act : Action) : Dword :=
  let next := p.pc + w64 p.len
  if p.trapCls then next
  else
    match act with
    | .skip => if p.fetch then p.pc else next
    | _ => p.pc

/-- Puts parked threads back to run. -/
def Team_unpark (t : Team) (p : Park) (act : Action) : Team :=
  p.lanes.foldl (fun t x => t.modThread x.1 x.2 fun th =>
    if th.st = .parked p.tag then { th with st := .run, pc := resumePc p act } else th) t

/-- A resume of one park: RETRY, SKIP, or KILL with FLT tied to the parked instruction (R214, R217). -/
def State.resumePark (s : State) (p : Park) (act : Action) : State :=
  let s1 : State := { s with parks := s.parks.filter (fun q => !(decide (q.tag = p.tag) && q.handler.isNone)) }
  match act with
  | .kill =>
    let t := s.team p.team
    -- of a conjugate group's issue, every home group of the threads that stand in it (R71)
    let gs := match p.who with
      | .conj _ => (Team_homes t p.who).foldl insertNat (keysOf (p.lanes.map (·.1)))
      | _ => keysOf (p.lanes.map (·.1))
    let s2 := s1.sticky t.launch eFlt (some (p.pc, p.word))
    let gs' := if gs.contains leadGrp then t.allGroups ++ [leadGrp] else gs
    gs'.foldl (fun s g => if (s.team? p.team).isSome then s.killOne p.team g else s) s2
  | _ => s1.modTeam p.team fun t => Team_unpark t p act

/-- A resume of every lane parked under a tag (R217). -/
def State.resumeTag (s : State) (tag : Word) (act : Action) : State :=
  match s.parks.filter fun p => p.tag = tag && p.handler.isNone with
  | [] => s
  | p :: r => s.resumePark { p with lanes := (p :: r).flatMap (·.lanes) } act

/-- Which FQRES names a park: the physical function's for a walk-node fault, else its world's (R217). -/
def parkQueue (p : Park) : Nat := if p.cls = 6 then 0 else p.world

/-- An answer to a migration request (R246): RETRY and SKIP let the launch proceed, KILL refuses it. -/
def Launch_answer (l : Launch) (tag : Word) (act : Action) (gtc : Nat) : Launch :=
  match l.stage with
  | .migrating tags =>
    if tags.contains tag then
      match act with
      | .kill => { l with refused := true, stage := .running, latest := max l.latest gtc }
      | _ =>
        let rest := tags.filter fun x => decide (x ≠ tag)
        if rest = [] then { l with stage := .placing, readyAt := gtc } else { l with stage := .migrating rest }
    else l
  | _ => l

/-- FQRES (R217): a tag that no parked issue of the world has is ignored; for a context that is not resident the
resume is recorded and applied at restore. -/
def State.resume (s : State) (world : Nat) (tag : Word) (act : Action) : State :=
  match s.parks.find? fun p => p.tag = tag && parkQueue p = world && p.handler.isNone with
  | none => if world = 0 then { s with launches := s.launches.map fun l => Launch_answer l tag act s.gtc } else s
  | some p =>
    match (s.team p.team).place with
    | .resident => s.resumeTag tag act
    | .admitting => s
    | _ => s.modTeam p.team fun t => { t with resumes := t.resumes ++ [⟨tag, act⟩] }

/-- ERET (R219, R235): every thread of the group at level H goes back to level U, by the action and TPC; then the next
waiting sub-group enters. -/
def State.eretActor (s : State) (team : Nat) (a : Actor) (act : Action) : State :=
  let t := s.team team
  match s.parks.find? fun p => p.team = team && p.who = a && p.inH with
  | none => s
  | some p =>
    let s1 : State := { s with parks := s.parks.filter (fun q => !(decide (q.tag = p.tag) && q.inH)) }
    match act with
    | .kill => s1.killActor team a eFlt (some (p.pc, p.word))
    | _ =>
      let pc := resumePc { p with pc := (t.actor a).trap.pc } act
      let s2 := s1.modTeam team fun t => (t.positions a).foldl (fun t L => t.modThreadAt a L fun th =>
        if th.level = .h && th.st ≠ .exited && th.st ≠ .exiting && Team_standsIn t a L then { th with level := .u, st := .run, pc := pc }
        else th) t
      s2.enterHandler team a

/-! ### Aborts (R131, R242) -/

/-- A launch is aborted: its teams are gone, its outstanding replies are discarded as they come. -/
def State.abortLaunch (s : State) (id : Nat) : State :=
  let ts := (s.teams.filter fun t => t.launch = id).map (·.id)
  let s1 := s.modLaunch id fun l => { l with aborted := true, stage := .running, latest := max l.latest s.gtc }
  ts.foldl (fun s t => s.abandonTeam t) s1

/-- An integrity error of a launch: INTEG, abort, and a record in both queues (R131, R132, R213). -/
def State.integrity (s : State) (id line source : Nat) : State :=
  let l := s.launch id
  let (tag, s0) := s.fresh
  let r : FRec := {
    cls := 0x10, tag := w32 tag, addr := w64 (line * 128), world := l.world,
    source := source, launch := Launch_lid l, gtc := s.gtc }
  let s1 := ((s0.sticky id eInteg none).abortLaunch id).pushRec 0 r
  let s2 := if l.world = 0 then s1 else s1.pushRec l.world r
  s2.signal l.world 2

end Sys2Proof.Machine
end

