-- ==== Sys2Proof/Machine/Operands.lean ====
section
/-! DEFINITION. How an instruction reads its operands and writes its results: guards and helper lanes (R11, R61),
sources and FIFO ports (R58, R60, R133, R200 to R202), results of fixed latency and scoreboarded ones (R33, R62,
R134), and the advance of the program counter. -/

namespace Sys2Proof.Machine

/-! ### Who executes -/

/-- The head of a base word: its stall count, and a guard that always holds (R48, R67). -/
def baseHead (stl : BitVec 3) : XHead := ⟨stl, 7, false⟩

/-- `p[pg]` XOR pn (R61). -/
def guardHolds (th : Thread) (x : XHead) : Bool := xor (th.getP x.pg.toNat) x.pn

/-- Active lanes of the issuing path, ascending (R61). -/
def State.active (s : State) (x : XHead) : List Nat := s.path.filter fun L => guardHolds (s.cth L) x

/-- The lowest lane of a quad whose thread is not exited (R11). -/
def State.quadLead (s : State) (L : Nat) : Option Nat :=
  ((List.range 4).map fun i => L / 4 * 4 + i).find? fun j => !(s.cth j).gone

/-- Helper lanes that execute alongside: exited lanes of a group whose quad is led by a lane of the path, and whose
own guard holds (R11). A conjugate group and the lead thread have none (R259). -/
def State.helpers (s : State) (x : XHead) : List Nat :=
  match s.cur.who with
  | .grp _ => (List.range 32).filter fun L => (s.cth L).gone &&
      (match s.quadLead L with
       | some j => s.cur.mask.getLsbD j
       | none => false) && guardHolds (s.cth L) x
  | _ => []

/-! ### Streams as ports (R200 to R204) -/

def Stream_cursor (x : Stream) (L : Nat) : Nat := tabGet x.cur L 0
/-- A lane whose stream is inactive or exhausted reads 0 (R200). -/
def Stream_live (x : Stream) (L : Nat) : Bool := x.active && Stream_cursor x L < tabGet x.count L 0
def Stream_held (x : Stream) (L : Nat) : Option BufEnt :=
  x.buf.find? fun e => e.lane = L && e.idx = Stream_cursor x L

/-- Bytes as they stand at a place of a team (R117, R333, R100). -/
def State.spaceBytes (s : State) (core team : Nat) (sp : Space) (n : Nat) : List Byte :=
  match sp with
  | .glob pa => let w := s.worldOf (s.team team); s.seen (some w) w pa n
  | .scr off => s.scratchBytes team off n
  | .stk pa => s.stackBytes core team (s.worldOf (s.team team)) pa n

/-- Home group and lane under which a position's accesses are made. -/
def Team_homeOf (t : Team) (a : Actor) (L : Nat) : Nat × Nat := (t.place? a L).getD (0, L)

/-- `lane(L)` of R201. -/
def laneTerm (x : Stream) (home : Nat × Nat) : Nat :=
  if x.lon then ((32 * home.1 + home.2) % 2 ^ 32) * 2 ^ x.lsh else 0

/-- What a read of a place leaves in the L1: a fill, or the stack sector (R100, R113, R118). -/
def State.readTrace (s : State) (core team : Nat) (a : Acc) (n : Nat) (hint : BitVec 2) : State :=
  let w := s.worldOf (s.team team)
  match a.space with
  | .glob pa => s.fillBy core w pa n (fillOf hint a.ent)
  | .stk pa => s.touchStack core team w pa n
  | .scr _ => s

/-- A read that performs now is noted where it is served: a hit in L1 is served by no home (R117, R129, R333). -/
def State.readHits (s : State) (core team : Nat) (a : Acc) (n : Nat) (hint : BitVec 2) : Bool :=
  match a.space with
  | .glob pa => fillOf hint a.ent ≠ 0 && s.hitL1 core (s.worldOf (s.team team)) pa n
  | _ => false

def State.readServed (s : State) (core team : Nat) (a : Acc) (n : Nat) (hint : BitVec 2) : State :=
  if s.readHits core team a n hint then s else s.serve (spaceKeys team a.space n) core s.nextId true

/-- One 32-bit READ of a stream: its word or its fault. -/
def State.streamWord (s : State) (team : Nat) (home : Nat × Nat) (x : Stream) (va : Dword) : BufVal × State :=
  let t := s.team team
  match s.access t.core team home.1 home.2 va 4 4 kRead false with
  | (.ok a, s1) =>
    (.val (w32 (leNat (s1.spaceBytes t.core team a.space 4))),
      (s1.readServed t.core team a 4 (BitVec.ofNat 2 x.hint)).readTrace t.core team a 4 (BitVec.ofNat 2 x.hint))
  | (.error f, s1) => (.flt f, s1)

/-- Address of element i of a lane, or the fault of its index load (R201). -/
def State.elemAddr (s : State) (team : Nat) (home : Nat × Nat) (x : Stream) (L i : Nat) : Except Flt Dword × State :=
  let off := w64 (laneTerm x home)
  if x.ind then
    match s.streamWord team home x (tabGet x.b L 0 + w64 (4 * i) + off) with
    | (.val w, s1) => (.ok (tabGet x.a L 0 + (zext32 w <<< x.sc)), s1)
    | (.flt f, s1) => (.error f, s1)
  else (.ok (tabGet x.a L 0 + w64 i * sext32 (tabGet x.stride L 0) + off), s)

/-- Element i of a lane, read now (R202). -/
def State.elemNow (s : State) (team : Nat) (home : Nat × Nat) (x : Stream) (L i : Nat) : BufVal × State :=
  match s.elemAddr team home x L i with
  | (.ok va, s1) => s1.streamWord team home x va
  | (.error f, s1) => (.flt f, s1)

/-- The element a port delivers to a lane now: the one held, else read at this moment. A helper lane reads 0. -/
def State.portRead (s : State) (k L : Nat) : BufVal :=
  let x := s.cg.stream k
  if (s.cth L).gone || !Stream_live x L then .val 0
  else
    match Stream_held x L with
    | some e => e.val
    | none => (s.elemNow s.cur.team (Team_homeOf s.ct s.cur.who L) x L (Stream_cursor x L)).1

def State.portVal (s : State) (k L : Nat) : Word :=
  match s.portRead k L with
  | .val w => w
  | .flt _ => 0

def State.portFlt (s : State) (k L : Nat) : Option Flt :=
  match s.portRead k L with
  | .val _ => none
  | .flt f => some f

/-- Takes one element per lane; an exhausted stream releases its pins (R200, R204). -/
def Stream_take (x : Stream) (ls : List Nat) (lanes : List Nat) : Stream :=
  let took := ls.filter fun L => Stream_live x L
  let x1 := { x with
    cur := took.foldl (fun c L => tabSet c L (tabGet c L 0 + 1) 0) x.cur,
    buf := x.buf.filter fun e => !(took.contains e.lane && decide (e.idx = Stream_cursor x e.lane)) }
  if lanes.all fun L => !Stream_live x1 L then { x1 with pins := [] } else x1

/-- Positions whose thread is not exited. -/
def Team_alive (t : Team) (a : Actor) : List Nat := (t.positions a).filter fun L => !(t.threadAt a L).gone

/-- When the element that a port delivers to a lane performed (R196, R202). -/
def State.portTime (s : State) (k L : Nat) : Option Nat :=
  let x := s.cg.stream k
  if Stream_live x L then some (((Stream_held x L).map (·.at_)).getD s.gtc) else none

/-- Element loads count for fences once a port has delivered them (R196). -/
def State.delivered (s : State) (ks ls : List Nat) : State :=
  match ks.flatMap fun k => ls.filterMap fun L => s.portTime k L with
  | [] => s
  | ts => s.noteDone s.cur.team s.cur.who (Team_homeOf s.ct s.cur.who 0).1 (ts.foldl max 0) false

/-- Lanes whose port reads deliver a fault, with the first. -/
def State.portBad (s : State) (ks act : List Nat) : List (Nat × Flt) :=
  act.filterMap fun L => (ks.filterMap fun k => s.portFlt k L).head?.map fun f => (L, f)

/-- The ports are read: lanes without a fault take their elements. Answers the lanes that faulted, the others, and the state
in which none has parked yet. -/
def State.pullPorts (s : State) (ks act : List Nat) : List (Nat × Flt) × List Nat × State :=
  if ks = [] then ([], act, s)
  else
    let bad := s.portBad ks act
    let go := act.filter fun L => bad.all fun b => b.1 ≠ L
    let alive := Team_alive s.ct s.cur.who
    -- the fault is raised once: after service the load is made again
    let drop (x : Stream) : Stream :=
      { x with buf := x.buf.filter fun e => !(bad.any fun b => decide (b.1 = e.lane) && decide (e.idx = Stream_cursor x e.lane)) }
    (bad, go, (s.delivered ks go).modCg fun g => ks.foldl (fun g k => g.setStream k (Stream_take (drop (g.stream k)) go alive)) g)

/-- Reads of the ports an instruction names: lanes whose element faulted park at the instruction (R202), the others
take their elements. Answers the lanes that go on. -/
def State.takePorts (s : State) (ks act : List Nat) : List Nat × State :=
  if ks = [] then (act, s)
  else
    let r := s.pullPorts ks act
    let s2 := r.2.2.takeFault r.2.2.cur (r.1.map fun b => (Team_homeOf s.ct s.cur.who b.1, b.2)) {}
    (r.2.1.filter fun L => (s2.cth L).st = .run, s2)

/-! ### Sources (R133) -/

/-- Register `k` places after an operand's first, as position L reads it. -/
def State.regAt (s : State) (o : Opd) (k L : Nat) : Word :=
  match o.cls with
  | .v => (s.cth L).getV (o.no.toNat + k)
  | .g => s.cg.getG (o.no.toNat + k)
  | .t => s.ct.getT (o.no.toNat + k)
  | .f => s.portVal o.no.toNat L

def State.reg1 (s : State) (o : Opd) (L : Nat) : Word := s.regAt o 0 L
/-- `Pair(reg)` (R75). -/
def State.reg2 (s : State) (o : Opd) (L : Nat) : Dword := pair (s.regAt o 0 L) (s.regAt o 1 L)

def State.src1 (s : State) (b : OpdB) (L : Nat) : Word :=
  match b with
  | .reg o => s.reg1 o L
  | .lit w => lo w

def State.src2 (s : State) (b : OpdB) (L : Nat) : Dword :=
  match b with
  | .reg o => s.reg2 o L
  | .lit w => w

/-- `Src(x)` of a type as raw bits: 32 bits zero-extended, or a pair. -/
def State.srcTy (s : State) (wide : Bool) (b : OpdB) (L : Nat) : Dword :=
  if wide then s.src2 b L else zext32 (s.src1 b L)

/-- Base-word operands as extended ones (R48, R67). -/
def vOpd (n : BitVec 7) : Opd := ⟨.v, n⟩
def vB (b : BaseB) : OpdB :=
  match b with
  | .reg n => .reg (vOpd n)
  | .lit w => .lit w

/-- Ports that operands name, each once (R60). -/
def portsOf (bs : List OpdB) : List Nat :=
  bs.foldl (fun acc b => match b with
    | .reg o => if o.cls = .f then insertNat acc o.no.toNat else acc
    | .lit _ => acc) []

/-! ### Results -/

/-- Place of an actor in the ascending group order; a conjugate group comes right after its lowest member (R34,
R259). -/
def Team_order (t : Team) (a : Actor) : Nat :=
  match a with
  | .grp n => n * 4096
  | .conj k =>
    let low := ((Team_homes t a).head?).getD 0
    let idx := (t.conj.takeWhile fun c => c.id ≠ k).length
    low * 4096 + (idx + 1) * 64
  | .lead => 32 * 4096

/-- Codes of register classes in results: 0 v, 1 g, 2 t, 3 predicate, 4 capability. -/
def clsCode : RClass → Nat
  | .v => 0
  | .g => 1
  | .t => 2
  | .f => 0

def State.addPipe (s : State) (ws : List PipeW) : State := s.modCt fun t => { t with pipe := t.pipe ++ ws }

/-- Writes of consecutive registers of one lane. -/
def State.pipeWs (s : State) (id lat L cls no : Nat) (vs : List Word) : List PipeW :=
  let h := Team_homeOf s.ct s.cur.who L
  (vs.zipIdx).map fun x =>
    { id := id, due := s.now + lat, ord := Team_order s.ct s.cur.who + L, who := s.cur.who, grp := h.1, lane := h.2,
      cls := cls, no := no + x.2, val := x.1 }

/-- A result of fixed latency: each active and helper lane of a `v` destination; the highest active lane of a `g` or
`t` destination (R33, R62, R134). -/
def State.pushRes (s : State) (lat : Nat) (act help : List Nat) (d : Opd) (f : Nat → List Word) : State :=
  match d.cls with
  | .g =>
    match act.getLast? with
    | some L => s.addPipe (s.pipeWs 0 lat L 1 d.no.toNat (f L))
    | none => s
  | .t =>
    match act.getLast? with
    | some L =>
      let (id, s1) := s.fresh
      s1.addPipe (s1.pipeWs id lat L 2 d.no.toNat (f L))
    | none => s
  | _ => s.addPipe ((act ++ help).flatMap fun L => s.pipeWs 0 lat L 0 d.no.toNat (f L))

/-- A predicate result of fixed latency. -/
def State.pushPred (s : State) (lat : Nat) (lanes : List Nat) (p : BitVec 3) (f : Nat → Bool) : State :=
  s.addPipe (lanes.flatMap fun L => s.pipeWs 0 lat L 3 p.toNat [if f L then 1 else 0])

/-- One write lands (R57); a token leaves its mark on a `g` register (R125). -/
def Team_land (t : Team) (w : PipeW) : Team :=
  match w.cls with
  | 0 => t.modThread w.grp w.lane fun th => th.setV w.no w.val
  | 1 => t.modActor w.who fun g =>
      match w.tok with
      | some x => (g.setG w.no w.val).setTok w.no x
      | none => g.setG w.no w.val
  | 2 => t.setT w.no w.val
  | _ => t.modThread w.grp w.lane fun th => th.setP w.no (w.val ≠ 0)

/-- Every write that a cycle finds due, in landing order (R34, R59, R62, R63); a `t` write completes now (R123), and a
cross-lane result counts (R124). -/
def State.landDue (s : State) (team : Nat) : State :=
  let t := s.team team
  let now := s.cycle t.core
  let due := t.pipe.filter fun w => w.due ≤ now
  if due = [] then s
  else
    let ws := sortBy (fun w : PipeW => w.due) (sortBy (fun w : PipeW => w.ord) due)
    let s1 := s.modTeam team fun t => ws.foldl Team_land { t with pipe := t.pipe.filter fun w => !decide (w.due ≤ now) }
    (ws.filter fun w => w.cls = 2 || w.xl).foldl (fun s w => s.settle w.id team w.who w.grp t.launch s.gtc false) s1

/-- Adds a scoreboarded result of one lane (R62); answers its name. -/
def State.addPend (s : State) (p : Nat → Pend) : Nat × State :=
  let (id, s1) := s.fresh
  (id, { s1 with pends := s1.pends ++ [p id] })

/-- A scoreboarded result of a position, not known yet: `cnt` registers whose parts come by `Tgt.pend`. -/
def State.mkPend (s : State) (L cls no cnt parts : Nat) (id : Nat) : Pend :=
  let h := Team_homeOf s.ct s.cur.who L
  { id := id, team := s.cur.team, who := s.cur.who, grp := h.1, lane := h.2, cls := cls, no := no, cnt := cnt,
    vals := List.replicate parts none }

/-- Scoreboarded results known at issue: a special function, a cross-lane result (R62, R124). -/
def State.pendRes (s : State) (act help : List Nat) (d : Opd) (xlane : Bool) (f : Nat → List Word) : State :=
  let lanes := if d.cls = .v then act ++ help else act.getLast?.toList
  lanes.foldl (fun s1 L =>
    let ws := f L
    (s1.addPend fun id => { s.mkPend L (clsCode d.cls) d.no.toNat ws.length ws.length id with
      vals := ws.map some, xlane := xlane }).2) s

def State.pendPred (s : State) (lanes : List Nat) (p : BitVec 3) (xlane : Bool) (f : Nat → Bool) : State :=
  lanes.foldl (fun s1 L =>
    (s1.addPend fun id => { s.mkPend L 3 p.toNat 1 1 id with
      vals := [some (if f L then 1 else 0)], xlane := xlane }).2) s

/-- A token destination: a `g` register with its mark, or `s` in the lead slice (R125). Its time is not known yet. -/
def State.pendTok (s : State) (d : Opd) : Nat × State :=
  s.addPend fun id => { s.mkPend 0 (clsCode d.cls) d.no.toNat 1 1 id with vals := [none] }

/-! ### The end of an issue -/

/-- The path moves on: each thread that still runs at the instruction, to its target or to the next instruction; none
issues again before its stall count has elapsed (R61, R62). -/
def State.retireTo (s : State) (x : XHead) (tgt : Nat → Option Dword) : State :=
  let next := s.cur.pc + w64 s.cur.len
  let at_ := s.now + max x.stall.toNat 1
  s.modCt fun t => s.path.foldl (fun t L => t.modThreadAt s.cur.who L fun th =>
    if th.st = .run ∧ th.pc = s.cur.pc ∧ th.level = s.cur.level then { th with pc := (tgt L).getD next, ready := at_ }
    else { th with ready := at_ }) t

def State.retire (s : State) (x : XHead) : State := s.retireTo x fun _ => none

/-- AN OPERATION ON REGISTERS with a fixed latency (R134, R136, R141): every source is read as it stands at issue. -/
def State.execAlu (s : State) (x : XHead) (lat : Nat) (d : Opd) (srcs : List OpdB) (f : Nat → List Word) : State :=
  let r := s.takePorts (portsOf srcs) (s.active x)
  (r.2.pushRes lat r.1 (s.helpers x) d f).retire x

/-- A compare: the same with a predicate destination. -/
def State.execCmp (s : State) (x : XHead) (lat : Nat) (p : BitVec 3) (srcs : List OpdB) (f : Nat → Bool) : State :=
  let r := s.takePorts (portsOf srcs) (s.active x)
  (r.2.pushPred lat (r.1 ++ s.helpers x) p f).retire x

/-- A special function: scoreboarded (R141). -/
def State.execSfu (s : State) (x : XHead) (d : Opd) (srcs : List OpdB) (f : Nat → List Word) : State :=
  let r := s.takePorts (portsOf srcs) (s.active x)
  (r.2.pendRes r.1 (s.helpers x) d false f).retire x

end Sys2Proof.Machine
end

