-- ==== Sys2Proof/Machine/Integer.lean ====
section
/-! DEFINITION. Integer and address instructions (R135 to R139), integer compares (R144), predicate logic (R145)
and their base words (R67). A base word is its extended form with the guard always true, and calls the same shared
operation. -/

namespace Sys2Proof.Machine

/-- What every meaning answers. -/
abbrev Out := Host.Outcome State Fault Refusal

/-- Latency of integer and logic results (R62). -/
def latInt : Nat := 2

/-! ### Shared operations -/

/-- One source (R136): exact result from the value of a. -/
def intUn (x : XHead) (ty : Ty) (sat : Bool) (d a : Opd) (e : Int → Int) (s : State) : Out :=
  .next (s.execAlu x latInt d [.reg a] fun L =>
    resWords ty.wide (narrow ty sat (e (tyInt ty (s.srcTy ty.wide (.reg a) L)))))

/-- Two sources (R136). -/
def intBin (x : XHead) (ty : Ty) (sat : Bool) (d a : Opd) (b : OpdB) (e : Int → Int → Int) (s : State) : Out :=
  .next (s.execAlu x latInt d [.reg a, b] fun L =>
    resWords ty.wide (narrow ty sat (e (tyInt ty (s.srcTy ty.wide (.reg a) L)) (tyInt ty (s.srcTy ty.wide b L)))))

/-- Bitwise operations of two sources on raw bits (R135). -/
def bitBin (x : XHead) (ty : Ty) (d a : Opd) (b : OpdB) (e : Dword → Dword → Dword) (s : State) : Out :=
  .next (s.execAlu x latInt d [.reg a, b] fun L =>
    resWords ty.wide (e (s.srcTy ty.wide (.reg a) L) (s.srcTy ty.wide b L)))

/-- A 32-bit second operand whatever the type (R135). -/
def bitSh (x : XHead) (ty : Ty) (d a : Opd) (b : OpdB) (e : Dword → Word → Dword) (s : State) : Out :=
  .next (s.execAlu x latInt d [.reg a, b] fun L =>
    resWords ty.wide (e (s.srcTy ty.wide (.reg a) L) (s.src1 b L)))

/-- One source, raw bits; `wide` is the width of the destination. -/
def bitUn (x : XHead) (ty : Ty) (wide : Bool) (d a : Opd) (e : Dword → Dword) (s : State) : Out :=
  .next (s.execAlu x latInt d [.reg a] fun L => resWords wide (e (s.srcTy ty.wide (.reg a) L)))

/-- floor(x · y / 2^W) (R135). -/
def mulHigh (ty : Ty) (x y : Int) : Int := x * y / ((2 ^ tyBits ty : Nat) : Int)

/-- `LEA` (R138): a register addend is extended by the type, a literal is the whole addend. -/
def leaOp (x : XHead) (ty : Ty) (k : Nat) (d a : Opd) (b : OpdB) (s : State) : Out :=
  .next (s.execAlu x latInt d [.reg a, b] fun L =>
    let y : Dword := match b with
      | .lit w => w
      | .reg o => if ty.signed then sext32 (s.reg1 o L) else zext32 (s.reg1 o L)
    resWords true (s.reg2 a L + (y <<< k)))

/-- Predicate logic on two predicates, each with its negation (R145). -/
def predOp (x : XHead) (p q : BitVec 3) (nq : Bool) (r : BitVec 3) (nr : Bool) (e : Bool → Bool → Bool) (s : State) : Out :=
  .next (s.execCmp x latInt p [] fun L =>
    e (xor ((s.cth L).getP q.toNat) nq) (xor ((s.cth L).getP r.toNat) nr))

/-- `ICMP` (R144). -/
def icmpOp (x : XHead) (ty : Ty) (cc : Cond) (p : BitVec 3) (a : Opd) (b : OpdB) (s : State) : Out :=
  .next (s.execCmp x latInt p [.reg a, b] fun L =>
    condInt cc (tyInt ty (s.srcTy ty.wide (.reg a) L)) (tyInt ty (s.srcTy ty.wide b L)))

/-! ### Extended forms -/

def execMovExt (x : XHead) (ty : Ty) (d a : Opd) (s : State) : Out := bitUn x ty ty.wide d a (fun v => v) s

/-- The literal (R135). -/
def execMoviExt (x : XHead) (ty : Ty) (d : Opd) (imm : Dword) (s : State) : Out :=
  .next (s.execAlu x latInt d [] fun _ => resWords ty.wide imm)

def execIaddExt (x : XHead) (ty : Ty) (sat : Bool) (d a : Opd) (b : OpdB) (s : State) : Out :=
  intBin x ty sat d a b (fun x y => x + y) s
def execIsubExt (x : XHead) (ty : Ty) (sat : Bool) (d a : Opd) (b : OpdB) (s : State) : Out :=
  intBin x ty sat d a b (fun x y => x - y) s
def execImulExt (x : XHead) (ty : Ty) (sat : Bool) (d a : Opd) (b : OpdB) (s : State) : Out :=
  intBin x ty sat d a b (fun x y => x * y) s
def execImulhExt (x : XHead) (ty : Ty) (d a : Opd) (b : OpdB) (s : State) : Out :=
  intBin x ty false d a b (mulHigh ty) s
def execImad (x : XHead) (ty : Ty) (sat : Bool) (d a : Opd) (b : OpdB) (c : Opd) (s : State) : Out :=
  .next (s.execAlu x latInt d [.reg a, b, .reg c] fun L =>
    let v (o : OpdB) : Int := tyInt ty (s.srcTy ty.wide o L)
    resWords ty.wide (narrow ty sat (v (.reg a) * v b + v (.reg c))))
def execIminExt (x : XHead) (ty : Ty) (d a : Opd) (b : OpdB) (s : State) : Out := intBin x ty false d a b min s
def execImaxExt (x : XHead) (ty : Ty) (d a : Opd) (b : OpdB) (s : State) : Out := intBin x ty false d a b max s
def execIabs (x : XHead) (ty : Ty) (sat : Bool) (d a : Opd) (s : State) : Out :=
  intUn x ty sat d a (fun x => if x < 0 then -x else x) s
def execIneg (x : XHead) (ty : Ty) (sat : Bool) (d a : Opd) (s : State) : Out := intUn x ty sat d a (fun x => -x) s
def execAndExt (x : XHead) (ty : Ty) (d a : Opd) (b : OpdB) (s : State) : Out := bitBin x ty d a b (fun x y => x &&& y) s
def execOrExt (x : XHead) (ty : Ty) (d a : Opd) (b : OpdB) (s : State) : Out := bitBin x ty d a b (fun x y => x ||| y) s
def execXorExt (x : XHead) (ty : Ty) (d a : Opd) (b : OpdB) (s : State) : Out := bitBin x ty d a b (fun x y => x ^^^ y) s
def execNotExt (x : XHead) (ty : Ty) (d a : Opd) (s : State) : Out := bitUn x ty ty.wide d a (fun v => ~~~v) s
def execShlExt (x : XHead) (ty : Ty) (d a : Opd) (b : OpdB) (s : State) : Out :=
  bitSh x ty d a b (fun v n => shlTy ty v n.toNat) s
def execShrExt (x : XHead) (ty : Ty) (d a : Opd) (b : OpdB) (s : State) : Out :=
  bitSh x ty d a b (fun v n => shrTy ty v n.toNat) s
def execSarExt (x : XHead) (ty : Ty) (d a : Opd) (b : OpdB) (s : State) : Out :=
  bitSh x ty d a b (fun v n => shrTy ty v n.toNat) s
def execBfx (x : XHead) (ty : Ty) (d a : Opd) (b : OpdB) (s : State) : Out := bitSh x ty d a b (bfxTy ty) s
def execBfi (x : XHead) (ty : Ty) (d a : Opd) (b : OpdB) (c : Opd) (s : State) : Out :=
  .next (s.execAlu x latInt d [.reg a, b, .reg c] fun L =>
    resWords ty.wide (bfiTy ty (s.srcTy ty.wide (.reg a) L) (s.src1 b L) (s.srcTy ty.wide (.reg c) L)))
def execPopc (x : XHead) (ty : Ty) (d a : Opd) (s : State) : Out :=
  bitUn x ty false d a (fun v => w64 (popcount v.toNat (tyBits ty))) s
def execClz (x : XHead) (ty : Ty) (d a : Opd) (s : State) : Out := bitUn x ty false d a (fun v => w64 (clzTy ty v)) s
def execBrev (x : XHead) (ty : Ty) (d a : Opd) (s : State) : Out := bitUn x ty ty.wide d a (brevTy ty) s
def execLeaExt (x : XHead) (ty : Ty) (k : BitVec 3) (d a : Opd) (b : OpdB) (s : State) : Out := leaOp x ty k.toNat d a b s

/-- x when q holds, else y (R138). -/
def execSel (x : XHead) (ty : Ty) (d a : Opd) (b : OpdB) (q : BitVec 3) (nq : Bool) (s : State) : Out :=
  .next (s.execAlu x latInt d [.reg a, b] fun L =>
    resWords ty.wide (if xor ((s.cth L).getP q.toNat) nq then s.srcTy ty.wide (.reg a) L else s.srcTy ty.wide b L))

def execIcmp (x : XHead) (ty : Ty) (cc : Cond) (p : BitVec 3) (a : Opd) (b : OpdB) (s : State) : Out := icmpOp x ty cc p a b s

def execPandExt (x : XHead) (p q : BitVec 3) (nq : Bool) (r : BitVec 3) (nr : Bool) (s : State) : Out :=
  predOp x p q nq r nr and s
def execPorExt (x : XHead) (p q : BitVec 3) (nq : Bool) (r : BitVec 3) (nr : Bool) (s : State) : Out :=
  predOp x p q nq r nr or s
def execPxorExt (x : XHead) (p q : BitVec 3) (nq : Bool) (r : BitVec 3) (nr : Bool) (s : State) : Out :=
  predOp x p q nq r nr xor s
def execPnotExt (x : XHead) (p q : BitVec 3) (nq : Bool) (s : State) : Out :=
  predOp x p q nq 7 false (fun a _ => !a) s
def execPmovExt (x : XHead) (p q : BitVec 3) (nq : Bool) (s : State) : Out :=
  predOp x p q nq 7 false (fun a _ => a) s

/-! ### Base words (R67) -/

def execMov (stl : BitVec 3) (d a : BitVec 7) (s : State) : Out :=
  bitUn (baseHead stl) .i32 false (vOpd d) (vOpd a) (fun v => v) s
def execMovi (stl : BitVec 3) (d : BitVec 7) (imm : Dword) (s : State) : Out :=
  .next (s.execAlu (baseHead stl) latInt (vOpd d) [] fun _ => resWords false imm)
def execIadd (stl : BitVec 3) (d a : BitVec 7) (b : BaseB) (s : State) : Out :=
  intBin (baseHead stl) .i32 false (vOpd d) (vOpd a) (vB b) (fun x y => x + y) s
def execIsub (stl : BitVec 3) (d a : BitVec 7) (b : BaseB) (s : State) : Out :=
  intBin (baseHead stl) .i32 false (vOpd d) (vOpd a) (vB b) (fun x y => x - y) s
def execImul (stl : BitVec 3) (d a : BitVec 7) (b : BaseB) (s : State) : Out :=
  intBin (baseHead stl) .i32 false (vOpd d) (vOpd a) (vB b) (fun x y => x * y) s
def execImulh (stl : BitVec 3) (d a : BitVec 7) (b : BaseB) (s : State) : Out :=
  intBin (baseHead stl) .i32 false (vOpd d) (vOpd a) (vB b) (mulHigh .i32) s
def execImin (stl : BitVec 3) (d a : BitVec 7) (b : BaseB) (s : State) : Out :=
  intBin (baseHead stl) .i32 false (vOpd d) (vOpd a) (vB b) min s
def execImax (stl : BitVec 3) (d a : BitVec 7) (b : BaseB) (s : State) : Out :=
  intBin (baseHead stl) .i32 false (vOpd d) (vOpd a) (vB b) max s
def execIand (stl : BitVec 3) (d a : BitVec 7) (b : BaseB) (s : State) : Out :=
  bitBin (baseHead stl) .n32 (vOpd d) (vOpd a) (vB b) (fun x y => x &&& y) s
def execIor (stl : BitVec 3) (d a : BitVec 7) (b : BaseB) (s : State) : Out :=
  bitBin (baseHead stl) .n32 (vOpd d) (vOpd a) (vB b) (fun x y => x ||| y) s
def execIxor (stl : BitVec 3) (d a : BitVec 7) (b : BaseB) (s : State) : Out :=
  bitBin (baseHead stl) .n32 (vOpd d) (vOpd a) (vB b) (fun x y => x ^^^ y) s
def execInot (stl : BitVec 3) (d a : BitVec 7) (s : State) : Out :=
  bitUn (baseHead stl) .n32 false (vOpd d) (vOpd a) (fun v => ~~~v) s
def execShl (stl : BitVec 3) (d a : BitVec 7) (b : BaseB) (s : State) : Out :=
  bitSh (baseHead stl) .n32 (vOpd d) (vOpd a) (vB b) (fun v n => shlTy .n32 v n.toNat) s
def execShr (stl : BitVec 3) (d a : BitVec 7) (b : BaseB) (s : State) : Out :=
  bitSh (baseHead stl) .n32 (vOpd d) (vOpd a) (vB b) (fun v n => shrTy .n32 v n.toNat) s
def execSar (stl : BitVec 3) (d a : BitVec 7) (b : BaseB) (s : State) : Out :=
  bitSh (baseHead stl) .i32 (vOpd d) (vOpd a) (vB b) (fun v n => shrTy .i32 v n.toNat) s
def execLea (stl : BitVec 3) (d a : BitVec 7) (b : BaseB) (s : State) : Out :=
  leaOp (baseHead stl) .i64 0 (vOpd d) (vOpd a) (vB b) s
def execIcmpI32 (stl : BitVec 3) (cc : Cond) (p : BitVec 3) (a : BitVec 7) (b : BaseB) (s : State) : Out :=
  icmpOp (baseHead stl) .i32 cc p (vOpd a) (vB b) s
def execIcmpN32 (stl : BitVec 3) (cc : Cond) (p : BitVec 3) (a : BitVec 7) (b : BaseB) (s : State) : Out :=
  icmpOp (baseHead stl) .n32 cc p (vOpd a) (vB b) s
def execPand (stl : BitVec 3) (p q r : BitVec 3) (s : State) : Out := predOp (baseHead stl) p q false r false and s
def execPor (stl : BitVec 3) (p q r : BitVec 3) (s : State) : Out := predOp (baseHead stl) p q false r false or s
def execPxor (stl : BitVec 3) (p q r : BitVec 3) (s : State) : Out := predOp (baseHead stl) p q false r false xor s
def execPnot (stl : BitVec 3) (p q : BitVec 3) (s : State) : Out :=
  predOp (baseHead stl) p q false 7 false (fun a _ => !a) s
def execPmov (stl : BitVec 3) (p q : BitVec 3) (s : State) : Out :=
  predOp (baseHead stl) p q false 7 false (fun a _ => a) s

end Sys2Proof.Machine
end

