-- ==== Sys2Proof/Machine/Float.lean ====
section
/-! DEFINITION. Floating-point arithmetic, special functions, conversions and floating-point compares (R79 to R89,
R95, R96, R140 to R144), with their base words (R67). -/

namespace Sys2Proof.Machine

/-- Latency of FP and conversion results (R62). -/
def latFp : Nat := 4

/-! ### Shared operations -/

/-- The value of an operand as its type reads it, subnormals flushed under `.FTZ` (R77, R80). -/
def fpIn (ty : Ty) (ftz : Bool) (w : Dword) : FVal := (fpFmt ty).flush ftz ((fpFmt ty).dec w.toNat)

/-- One rounding to the destination type (R141). -/
def fpOut (ty : Ty) (m : FpMod) (v : FVal) : List Word := [w32 ((fpFmt ty).enc (.mode m.rm) m.ftz false v)]

def fpUn (x : XHead) (ty : Ty) (m : FpMod) (d a : Opd) (e : FVal → FVal) (s : State) : Out :=
  .next (s.execAlu x latFp d [.reg a] fun L => fpOut ty m (e (fpIn ty m.ftz (zext32 (s.reg1 a L)))))

def fpBin (x : XHead) (ty : Ty) (m : FpMod) (d a : Opd) (b : OpdB) (e : FVal → FVal → FVal) (s : State) : Out :=
  .next (s.execAlu x latFp d [.reg a, b] fun L =>
    fpOut ty m (e (fpIn ty m.ftz (zext32 (s.reg1 a L))) (fpIn ty m.ftz (zext32 (s.src1 b L)))))

/-- Exact difference: the sum with the second operand negated. -/
def fpSub (rm : Rm) (p q : FVal) : FVal := FVal.add rm p (FVal.neg q)

/-- FP32 special functions: scoreboarded (R141). -/
def sfuUn (x : XHead) (m : FpMod) (d a : Opd) (e : FVal → FVal) (s : State) : Out :=
  .next (s.execSfu x d [.reg a] fun L => fpOut .f32 m (e (fpIn .f32 m.ftz (zext32 (s.reg1 a L)))))

/-- 1.0 -/
def fpOne : FVal := .fin false 1 0

/-- The rounding rule of a conversion: its mode, or the dither at the home lane plus the phase (R95, R96, R143). -/
def cvRule (s : State) (m : CvMod) (L : Nat) : RndRule :=
  if m.sr then .dither (s.ct.homeLane s.cur.who L + s.cg.phase.toNat) else .mode m.rm

/-- `FCVT` between floating formats (R86). A source flushes its subnormals under `.FTZ` (R143). -/
def cvFloat (dt sty : Ty) (m : CvMod) (rule : RndRule) (v : Dword) : Word :=
  w32 ((fpFmt dt).enc rule m.ftz m.sat (fpIn sty m.ftz v))

/-- `FCVT.F32.ZBn` of a register image (R77, R87, R89). -/
def zbDecode (sty : Ty) (m : CvMod) (w : Word) : Word :=
  let v := zbVal sty (w.toNat / 65536 % 256) (w.toNat / 256 % 2 = 1) (w.toNat % 2 ^ (zbM sty + 1))
  w32 ((fpFmt .f32).enc (.mode m.rm) m.ftz false v)

/-- `FTOI` (R85). -/
def fpToInt (dt sty : Ty) (rm : Rm) (w : Word) : List Word :=
  resWords dt.wide (narrow dt false (((fpFmt sty).dec w.toNat).toInt rm (tyMin dt) (tyMax dt)))

/-- `ITOF` (R85): the exact integer rounded once. -/
def intToFp (dt sty : Ty) (m : FpMod) (v : Dword) : List Word := fpOut dt m (FVal.ofInt false (tyInt sty v) 0)

def cvOp (x : XHead) (lat : Nat) (d : Opd) (srcs : List OpdB) (f : Nat → List Word) (s : State) : Out :=
  .next (s.execAlu x lat d srcs f)

/-- The default of a base word: nearest-even, no flushing (R67). -/
def rnMod : FpMod := ⟨.rn, false⟩
def rnCv : CvMod := ⟨false, false, false, .rn⟩

/-- `FCMP` (R144). -/
def fcmpOp (x : XHead) (ty : Ty) (cc : Cond) (ftz : Bool) (p : BitVec 3) (a : Opd) (b : OpdB) (s : State) : Out :=
  .next (s.execCmp x latFp p [.reg a, b] fun L =>
    condFp cc (fpIn ty ftz (zext32 (s.reg1 a L))) (fpIn ty ftz (zext32 (s.src1 b L))))

/-! ### Extended forms -/

def execFaddExt (x : XHead) (ty : Ty) (m : FpMod) (d a : Opd) (b : OpdB) (s : State) : Out := fpBin x ty m d a b (FVal.add m.rm) s
def execFsubExt (x : XHead) (ty : Ty) (m : FpMod) (d a : Opd) (b : OpdB) (s : State) : Out := fpBin x ty m d a b (fpSub m.rm) s
def execFmulExt (x : XHead) (ty : Ty) (m : FpMod) (d a : Opd) (b : OpdB) (s : State) : Out := fpBin x ty m d a b FVal.mul s
def execFfma (x : XHead) (ty : Ty) (m : FpMod) (d a : Opd) (b : OpdB) (c : Opd) (s : State) : Out :=
  .next (s.execAlu x latFp d [.reg a, b, .reg c] fun L =>
    let v (o : OpdB) : FVal := fpIn ty m.ftz (zext32 (s.src1 o L))
    fpOut ty m (FVal.add m.rm (FVal.mul (v (.reg a)) (v b)) (v (.reg c))))
def execFminExt (x : XHead) (ty : Ty) (ftz : Bool) (d a : Opd) (b : OpdB) (s : State) : Out :=
  fpBin x ty ⟨.rn, ftz⟩ d a b (FVal.minMax false) s
def execFmaxExt (x : XHead) (ty : Ty) (ftz : Bool) (d a : Opd) (b : OpdB) (s : State) : Out :=
  fpBin x ty ⟨.rn, ftz⟩ d a b (FVal.minMax true) s
def execFrndExt (x : XHead) (ty : Ty) (m : FpMod) (d a : Opd) (s : State) : Out := fpUn x ty m d a (FVal.rint m.rm) s
def execFdiv (x : XHead) (m : FpMod) (d a : Opd) (b : OpdB) (s : State) : Out :=
  .next (s.execSfu x d [.reg a, b] fun L =>
    fpOut .f32 m (FVal.div (fpIn .f32 m.ftz (zext32 (s.reg1 a L))) (fpIn .f32 m.ftz (zext32 (s.src1 b L)))))
def execRcp (x : XHead) (m : FpMod) (d a : Opd) (s : State) : Out := sfuUn x m d a (FVal.div fpOne) s
def execRsq (x : XHead) (m : FpMod) (d a : Opd) (s : State) : Out := sfuUn x m d a FVal.rsq s
def execSqrt (x : XHead) (m : FpMod) (d a : Opd) (s : State) : Out := sfuUn x m d a FVal.sqrt s
def execEx2 (x : XHead) (m : FpMod) (d a : Opd) (s : State) : Out := sfuUn x m d a FVal.ex2 s
def execLg2 (x : XHead) (m : FpMod) (d a : Opd) (s : State) : Out := sfuUn x m d a FVal.lg2 s

/-- Every accepted pair of R142. -/
def execFcvt (x : XHead) (dt sty : Ty) (m : CvMod) (d a : Opd) (b : Option OpdB) (s : State) : Out :=
  cvOp x latFp d (.reg a :: b.toList) (fun L =>
    if dt.isZb then
      let e := match b with
        | some o => (s.src1 o L).toNat % 256
        | none => 255
      [w32 (zbEncode dt (cvRule s m L) (f32 (s.reg1 a L)) e)]
    else if sty.isZb then [zbDecode sty m (s.reg1 a L)]
    else [cvFloat dt sty m (cvRule s m L) (s.srcTy sty.wide (.reg a) L)]) s
def execFtoiExt (x : XHead) (dt sty : Ty) (rm : Rm) (d a : Opd) (s : State) : Out :=
  cvOp x latFp d [.reg a] (fun L => fpToInt dt sty rm (s.reg1 a L)) s
def execItofExt (x : XHead) (dt sty : Ty) (m : FpMod) (d a : Opd) (s : State) : Out :=
  cvOp x latFp d [.reg a] (fun L => intToFp dt sty m (s.srcTy sty.wide (.reg a) L)) s
def execFcmp (x : XHead) (ty : Ty) (cc : Cond) (ftz : Bool) (p : BitVec 3) (a : Opd) (b : OpdB) (s : State) : Out :=
  fcmpOp x ty cc ftz p a b s

/-! ### Base words (R67) -/

def execFadd (stl : BitVec 3) (d a : BitVec 7) (b : BaseB) (s : State) : Out :=
  fpBin (baseHead stl) .f32 rnMod (vOpd d) (vOpd a) (vB b) (FVal.add .rn) s
def execFsub (stl : BitVec 3) (d a : BitVec 7) (b : BaseB) (s : State) : Out :=
  fpBin (baseHead stl) .f32 rnMod (vOpd d) (vOpd a) (vB b) (fpSub .rn) s
def execFmul (stl : BitVec 3) (d a : BitVec 7) (b : BaseB) (s : State) : Out :=
  fpBin (baseHead stl) .f32 rnMod (vOpd d) (vOpd a) (vB b) FVal.mul s
def execFmin (stl : BitVec 3) (d a : BitVec 7) (b : BaseB) (s : State) : Out :=
  fpBin (baseHead stl) .f32 rnMod (vOpd d) (vOpd a) (vB b) (FVal.minMax false) s
def execFmax (stl : BitVec 3) (d a : BitVec 7) (b : BaseB) (s : State) : Out :=
  fpBin (baseHead stl) .f32 rnMod (vOpd d) (vOpd a) (vB b) (FVal.minMax true) s
def execFtoi (stl : BitVec 3) (d a : BitVec 7) (s : State) : Out :=
  cvOp (baseHead stl) latFp (vOpd d) [.reg (vOpd a)] (fun L => fpToInt .i32 .f32 .rn (s.reg1 (vOpd a) L)) s
def execItof (stl : BitVec 3) (d a : BitVec 7) (s : State) : Out :=
  cvOp (baseHead stl) latFp (vOpd d) [.reg (vOpd a)] (fun L => intToFp .f32 .i32 rnMod (zext32 (s.reg1 (vOpd a) L))) s
def execFrnd (stl : BitVec 3) (d a : BitVec 7) (s : State) : Out :=
  fpUn (baseHead stl) .f32 rnMod (vOpd d) (vOpd a) (FVal.rint .rn) s
def execFcvtF16F32 (stl : BitVec 3) (d a : BitVec 7) (s : State) : Out :=
  cvOp (baseHead stl) latFp (vOpd d) [.reg (vOpd a)]
    (fun L => [cvFloat .f16 .f32 rnCv (.mode .rn) (zext32 (s.reg1 (vOpd a) L))]) s
def execFcvtF32F16 (stl : BitVec 3) (d a : BitVec 7) (s : State) : Out :=
  cvOp (baseHead stl) latFp (vOpd d) [.reg (vOpd a)]
    (fun L => [cvFloat .f32 .f16 rnCv (.mode .rn) (zext32 (s.reg1 (vOpd a) L))]) s
def execFcvtB16F32 (stl : BitVec 3) (d a : BitVec 7) (s : State) : Out :=
  cvOp (baseHead stl) latFp (vOpd d) [.reg (vOpd a)]
    (fun L => [cvFloat .b16 .f32 rnCv (.mode .rn) (zext32 (s.reg1 (vOpd a) L))]) s
def execFcvtF32B16 (stl : BitVec 3) (d a : BitVec 7) (s : State) : Out :=
  cvOp (baseHead stl) latFp (vOpd d) [.reg (vOpd a)]
    (fun L => [cvFloat .f32 .b16 rnCv (.mode .rn) (zext32 (s.reg1 (vOpd a) L))]) s
def execFcmpF32 (stl : BitVec 3) (cc : Cond) (p : BitVec 3) (a : BitVec 7) (b : BaseB) (s : State) : Out :=
  fcmpOp (baseHead stl) .f32 cc false p (vOpd a) (vB b) s

end Sys2Proof.Machine
end

