-- ==== Sys2Proof/Machine/Cross.lean ====
section
/-! DEFINITION. Cross-lane instructions (R160 to R170) and their base words (R67). -/

namespace Sys2Proof.Machine

/-- Lanes of a segment: n = 32 >> SEG (R160). -/
def segSize (seg : BitVec 3) : Nat := 32 / 2 ^ seg.toNat

/-- Positions of the segment that holds L, ascending. -/
def segLanes (n L : Nat) : List Nat := (List.range n).map fun i => L / n * n + i

/-- A value of lane j as its type reads it. -/
def State.laneVal (s : State) (wide : Bool) (a : BitVec 7) (j : Nat) : Dword := s.srcTy wide (.reg (vOpd a)) j

/-- Which lane a shuffle reads (R163): none keeps the lane's own value. -/
inductive ShflMode where | idx | up | down | bxor
  deriving DecidableEq, Repr

def shflLane (m : ShflMode) (n L k : Nat) : Option Nat :=
  let base := L / n * n
  let i := L % n
  match m with
  | .idx => some (base + k % n)
  | .up => if k ≤ i then some (L - k) else none
  | .down => if i + k < n then some (L + k) else none
  | .bxor => if k < n then some (base + Nat.xor i k) else none

/-- Cross-lane results are scoreboarded and count for fences (R62, R124). -/
def State.execX (s : State) (x : XHead) (d : BitVec 7) (srcs : List OpdB) (helpers : Bool) (f : List Nat → Nat → List Word) : Out :=
  let r := s.takePorts (portsOf srcs) (s.active x)
  .next ((r.2.pendRes r.1 (if helpers then s.helpers x else []) (vOpd d) true (f (s.active x))).retire x)

/-- `SHFL` (R163). -/
def shflOp (x : XHead) (m : ShflMode) (ty : Ty) (seg : BitVec 3) (d : BitVec 7) (a : Opd) (b : OpdB) (s : State) : Out :=
  s.execX x d [b] true fun _ L =>
    let j := (shflLane m (segSize seg) L (s.src1 b L).toNat).getD L
    resWords ty.wide (s.srcTy ty.wide (.reg a) j)

/-- `QXCH` (R164): lane L XOR k. -/
def qxchOp (x : XHead) (k : Nat) (ty : Ty) (d a : BitVec 7) (s : State) : Out :=
  s.execX x d [] true fun _ L => resWords ty.wide (s.laneVal ty.wide a (Nat.xor L k))

/-- `VOTE` (R165) over the active lanes of each active lane's segment. -/
def voteOp (x : XHead) (seg : BitVec 3) (p q : BitVec 3) (e : List Bool → Bool) (s : State) : Out :=
  let act := s.active x
  .next ((s.pendPred act p true fun L =>
    e (((segLanes (segSize seg) L).filter act.contains).map fun j => (s.cth j).getP q.toNat)).retire x)

/-- `BALLOT` (R166). -/
def ballotOp (x : XHead) (d : BitVec 7) (q : BitVec 3) (s : State) : Out :=
  s.execX x d [] false fun act _ => [maskOf (act.filter fun j => (s.cth j).getP q.toNat)]

/-- One combination (R167). -/
def combine (op : Opn) (ty : Ty) (u v : Dword) : Dword :=
  if ty = .f32 then
    match op with
    | .add => zext32 (addF32 (lo u) (lo v))
    | .min => zext32 (rnF32 (FVal.minMax false (f32 (lo u)) (f32 (lo v))))
    | _ => zext32 (rnF32 (FVal.minMax true (f32 (lo u)) (f32 (lo v))))
  else
    match op with
    | .add => narrow ty false (tyInt ty u + tyInt ty v)
    | .min => narrow ty false (min (tyInt ty u) (tyInt ty v))
    | .max => narrow ty false (max (tyInt ty u) (tyInt ty v))
    | .iand => u &&& v
    | .ior => u ||| v
    | .ixor => u ^^^ v

/-- The identity value I (R167): 0, or -0 for `.F32`; canonical NaN for `.F32` minimum and maximum. -/
def combineId (op : Opn) (ty : Ty) : Dword :=
  if ty = .f32 then (match op with | .add => 0x80000000 | _ => 0x7FC00000)
  else
    match op with
    | .add => 0
    | .min => narrow ty false (tyMax ty)
    | .max => narrow ty false (tyMin ty)
    | .iand => narrow ty false (-1)
    | _ => 0

/-- A scan of a segment's active lanes in ascending order: the result of each (R168). -/
def scanSeg (op : Opn) (ty : Ty) (ex : Bool) (val : Nat → Dword) (ls : List Nat) (acc : Dword) : List (Nat × Dword) :=
  match ls with
  | [] => []
  | L :: r =>
    let acc' := combine op ty acc (val L)
    (L, if ex then acc else acc') :: scanSeg op ty ex val r acc'

/-- One level of the fixed tree: neighbours combined (R169). -/
def treeLevel (op : Opn) (ty : Ty) (us : List Dword) : List Dword :=
  match us with
  | u :: v :: r => combine op ty u v :: treeLevel op ty r
  | us => us

def treeRed (op : Opn) (ty : Ty) (us : List Dword) (fuel : Nat) : Dword :=
  match fuel with
  | 0 => us.headD 0
  | fuel + 1 => treeRed op ty (treeLevel op ty us) fuel

/-! ### Extended forms -/

def execShflIdxExt (x : XHead) (ty : Ty) (seg : BitVec 3) (d : BitVec 7) (a : Opd) (b : OpdB) (s : State) : Out :=
  shflOp x .idx ty seg d a b s
def execShflUpExt (x : XHead) (ty : Ty) (seg : BitVec 3) (d : BitVec 7) (a : Opd) (b : OpdB) (s : State) : Out :=
  shflOp x .up ty seg d a b s
def execShflDownExt (x : XHead) (ty : Ty) (seg : BitVec 3) (d : BitVec 7) (a : Opd) (b : OpdB) (s : State) : Out :=
  shflOp x .down ty seg d a b s
def execShflXorExt (x : XHead) (ty : Ty) (seg : BitVec 3) (d : BitVec 7) (a : Opd) (b : OpdB) (s : State) : Out :=
  shflOp x .bxor ty seg d a b s
def execQxchHExt (x : XHead) (ty : Ty) (d a : BitVec 7) (s : State) : Out := qxchOp x 1 ty d a s
def execQxchVExt (x : XHead) (ty : Ty) (d a : BitVec 7) (s : State) : Out := qxchOp x 2 ty d a s
def execQxchDExt (x : XHead) (ty : Ty) (d a : BitVec 7) (s : State) : Out := qxchOp x 3 ty d a s
def execVoteAny (x : XHead) (seg : BitVec 3) (p q : BitVec 3) (s : State) : Out := voteOp x seg p q (fun l => l.any id) s
def execVoteAll (x : XHead) (seg : BitVec 3) (p q : BitVec 3) (s : State) : Out := voteOp x seg p q (fun l => l.all id) s
def execVoteEq (x : XHead) (seg : BitVec 3) (p q : BitVec 3) (s : State) : Out :=
  voteOp x seg p q (fun l => l.all id || l.all (!·)) s
def execBallotExt (x : XHead) (d : BitVec 7) (q : BitVec 3) (s : State) : Out := ballotOp x d q s

/-- `MATCH` (R166). -/
def execMatchX (x : XHead) (ty : Ty) (d a : BitVec 7) (s : State) : Out :=
  s.execX x d [] false fun act L => [maskOf (act.filter fun j => s.laneVal ty.wide a j = s.laneVal ty.wide a L)]

/-- `COMPACT` (R166). -/
def execCompact (x : XHead) (d : BitVec 7) (q : BitVec 3) (s : State) : Out :=
  s.execX x d [] false fun act L =>
    let on (j : Nat) : Bool := (s.cth j).getP q.toNat
    let below := act.filter fun j => decide (j < L)
    if on L then [w32 (below.filter on).length]
    else [w32 ((act.filter on).length + (below.filter fun j => !on j).length)]

/-- `GSCAN` (R168). -/
def execGscan (x : XHead) (ty : Ty) (opn : Opn) (ex : Bool) (seg : BitVec 3) (d a : BitVec 7) (s : State) : Out :=
  s.execX x d [] false fun act L =>
    let r := scanSeg opn ty ex (s.laneVal ty.wide a) ((segLanes (segSize seg) L).filter act.contains) (combineId opn ty)
    resWords ty.wide (((r.find? fun y => y.1 = L).map (·.2)).getD 0)

/-- `GRED` (R169). -/
def execGred (x : XHead) (ty : Ty) (opn : Opn) (seg : BitVec 3) (d a : BitVec 7) (s : State) : Out :=
  s.execX x d [] false fun act L =>
    let us := (segLanes (segSize seg) L).map fun j => if act.contains j then s.laneVal ty.wide a j else combineId opn ty
    resWords ty.wide (treeRed opn ty us 5)

/-! ### Base words (R67) -/

def execShflIdx (stl : BitVec 3) (d a : BitVec 7) (b : BaseB) (s : State) : Out :=
  shflOp (baseHead stl) .idx .i32 0 d (vOpd a) (vB b) s
def execShflUp (stl : BitVec 3) (d a : BitVec 7) (b : BaseB) (s : State) : Out :=
  shflOp (baseHead stl) .up .i32 0 d (vOpd a) (vB b) s
def execShflDown (stl : BitVec 3) (d a : BitVec 7) (b : BaseB) (s : State) : Out :=
  shflOp (baseHead stl) .down .i32 0 d (vOpd a) (vB b) s
def execShflXor (stl : BitVec 3) (d a : BitVec 7) (b : BaseB) (s : State) : Out :=
  shflOp (baseHead stl) .bxor .i32 0 d (vOpd a) (vB b) s
def execQxchH (stl : BitVec 3) (d a : BitVec 7) (s : State) : Out := qxchOp (baseHead stl) 1 .i32 d a s
def execQxchV (stl : BitVec 3) (d a : BitVec 7) (s : State) : Out := qxchOp (baseHead stl) 2 .i32 d a s
def execQxchD (stl : BitVec 3) (d a : BitVec 7) (s : State) : Out := qxchOp (baseHead stl) 3 .i32 d a s
def execBallot (stl : BitVec 3) (d : BitVec 7) (q : BitVec 3) (s : State) : Out := ballotOp (baseHead stl) d q s

end Sys2Proof.Machine
end

