-- ==== Sys2Proof/Machine/Legal.lean ====
section
/-! DEFINITION. What makes a well-formed instruction an illegal encoding under a kernel's header and for its
issuer: R22, R29, R51, R55, R56, R175, R262. -/

namespace Sys2Proof.Machine

/-- A register range of class v lies wholly among the home registers or wholly in the ellipsis range (R55). -/
def rangeOk (h : Header) (no cnt : Nat) : Bool := no + cnt ≤ h.h || (h.h ≤ no && no + cnt ≤ h.h + h.e)

/-- One operand under the header, for a group or for the lead thread (R29, R51, R56). -/
def useLegal (h : Header) (lead : Bool) (u : Use) : Bool :=
  let top := u.no + u.cnt
  match u.kind with
  | .pred => if lead then u.no = 7 else true
  | .capa => true
  | .tile => u.no < h.acc
  | .esc => !lead && h.h ≤ u.no && top ≤ h.h + h.e && u.cnt ≤ 8
  | k =>
    (match u.cls with
     | .v => if lead then top ≤ 64 else rangeOk h u.no u.cnt
     | .g => !lead && top ≤ h.gcount
     | .t => top ≤ h.tregs
     | .f => !lead && u.no < h.streams
     | _ => true) &&
    (match k with
     | .uni => if lead then u.cls = .v || u.cls = .t else u.cls = .g || u.cls = .t
     | .tok => if lead then u.cls = .v else u.cls = .g
     | .lane => if lead then u.cls = .v else true
     | _ => true)

/-- Instructions the lead slice forbids (R29, R175, R262). -/
def leadLegal : Instr → Bool
  | .shflIdx .. => false
  | .shflUp .. => false
  | .shflDown .. => false
  | .shflXor .. => false
  | .qxchH .. => false
  | .qxchV .. => false
  | .qxchD .. => false
  | .ballot .. => false
  | .rcvSet .. => false
  | .rcvWait .. => false
  | .dqpop .. => false
  | .shflIdxExt .. => false
  | .shflUpExt .. => false
  | .shflDownExt .. => false
  | .shflXorExt .. => false
  | .qxchHExt .. => false
  | .qxchVExt .. => false
  | .qxchDExt .. => false
  | .voteAny .. => false
  | .voteAll .. => false
  | .voteEq .. => false
  | .ballotExt .. => false
  | .matchX .. => false
  | .compact .. => false
  | .gscan .. => false
  | .gred .. => false
  | .ldC .. => false
  | .stC .. => false
  | .lde .. => false
  | .atom _ _ _ _ _ _ _ _ _ _ e => e.cnt = 0
  | .atomC .. => false
  | .redC .. => false
  | .chs .. => false
  | .srprb .. => false
  | .gath .. => false
  | .scat .. => false
  | .scatAdd .. => false
  | .capld .. => false
  | .capst .. => false
  | .capnar .. => false
  | .caprst .. => false
  | .capchk .. => false
  | .regroup .. => false
  | .mldb .. => false
  | .mgata .. => false
  | .mmq .. => false
  | .mms .. => false
  | .mfsr _ _ sl => sl ≠ 0 && sl ≠ 1 && sl ≠ 2 && sl ≠ 0x0C
  | _ => true

/-- Instructions only the lead slice may hold (R29). -/
def groupLegal : Instr → Bool
  | .dqpush .. => false
  | .dqpushAll .. => false
  | _ => true

/-- Stream register and reconvergence slot numbers (R22, R56). -/
def numbersLegal (h : Header) : Instr → Bool
  | .rcvSet _ b => b.toNat < h.d
  | .rcvWait _ _ b _ => b.toNat < h.d
  | .regroup _ b _ => b.toNat < h.d
  | .sraff _ _ k .. => k.toNat < h.streams
  | .srind _ _ k .. => k.toNat < h.streams
  | .srprb _ _ k _ => k.toNat < h.streams
  | .srstop _ _ k => k.toNat < h.streams
  | _ => true

/-- The guard's predicate; a base word has none (R48, R61). -/
def headOf : Instr → Option XHead
  | .movExt x .. => some x
  | .moviExt x .. => some x
  | .iaddExt x .. => some x
  | .isubExt x .. => some x
  | .imulExt x .. => some x
  | .imulhExt x .. => some x
  | .imad x .. => some x
  | .iminExt x .. => some x
  | .imaxExt x .. => some x
  | .iabs x .. => some x
  | .ineg x .. => some x
  | .andExt x .. => some x
  | .orExt x .. => some x
  | .xorExt x .. => some x
  | .notExt x .. => some x
  | .shlExt x .. => some x
  | .shrExt x .. => some x
  | .sarExt x .. => some x
  | .bfx x .. => some x
  | .bfi x .. => some x
  | .popc x .. => some x
  | .clz x .. => some x
  | .brev x .. => some x
  | .leaExt x .. => some x
  | .sel x .. => some x
  | .faddExt x .. => some x
  | .fsubExt x .. => some x
  | .fmulExt x .. => some x
  | .ffma x .. => some x
  | .fminExt x .. => some x
  | .fmaxExt x .. => some x
  | .frndExt x .. => some x
  | .fdiv x .. => some x
  | .rcp x .. => some x
  | .rsq x .. => some x
  | .sqrt x .. => some x
  | .ex2 x .. => some x
  | .lg2 x .. => some x
  | .fcvt x .. => some x
  | .ftoiExt x .. => some x
  | .itofExt x .. => some x
  | .icmp x .. => some x
  | .fcmp x .. => some x
  | .pandExt x .. => some x
  | .porExt x .. => some x
  | .pxorExt x .. => some x
  | .pnotExt x .. => some x
  | .pmovExt x .. => some x
  | .braExt x .. => some x
  | .brxExt x .. => some x
  | .callExt x .. => some x
  | .retExt x .. => some x
  | .exitExt x => some x
  | .yieldExt x => some x
  | .nopExt x => some x
  | .rcvSet x .. => some x
  | .rcvWait x .. => some x
  | .barArv x .. => some x
  | .barWait x .. => some x
  | .barSync x .. => some x
  | .cbar x .. => some x
  | .dqpush x .. => some x
  | .dqpushAll x .. => some x
  | .dqpop x .. => some x
  | .mfsr x .. => some x
  | .trap x .. => some x
  | .bkptExt x .. => some x
  | .waitt x .. => some x
  | .shflIdxExt x .. => some x
  | .shflUpExt x .. => some x
  | .shflDownExt x .. => some x
  | .shflXorExt x .. => some x
  | .qxchHExt x .. => some x
  | .qxchVExt x .. => some x
  | .qxchDExt x .. => some x
  | .voteAny x .. => some x
  | .voteAll x .. => some x
  | .voteEq x .. => some x
  | .ballotExt x .. => some x
  | .matchX x .. => some x
  | .compact x .. => some x
  | .gscan x .. => some x
  | .gred x .. => some x
  | .ld x .. => some x
  | .st x .. => some x
  | .ldC x .. => some x
  | .stC x .. => some x
  | .lde x .. => some x
  | .atom x .. => some x
  | .red x .. => some x
  | .atomC x .. => some x
  | .redC x .. => some x
  | .chs x .. => some x
  | .fnc x .. => some x
  | .waitf x .. => some x
  | .acp x .. => some x
  | .sraff x .. => some x
  | .srind x .. => some x
  | .srprb x .. => some x
  | .srstop x .. => some x
  | .gath x .. => some x
  | .scat x .. => some x
  | .scatAdd x .. => some x
  | .capld x .. => some x
  | .capst x .. => some x
  | .capnar x .. => some x
  | .caprst x .. => some x
  | .capchk x .. => some x
  | .csrr x .. => some x
  | .csrw x .. => some x
  | .eret x .. => some x
  | .capmk x .. => some x
  | .capmkRec x .. => some x
  | .regroup x .. => some x
  | .launch x .. => some x
  | .evsig x .. => some x
  | .evwait x .. => some x
  | .mzero x .. => some x
  | .mrd x .. => some x
  | .mwr x .. => some x
  | .mwmk x .. => some x
  | .mldb x .. => some x
  | .mgata x .. => some x
  | .mmq x .. => some x
  | .mms x .. => some x
  | .mst x .. => some x
  | .tcut x .. => some x
  | .infl x .. => some x
  | .attn x .. => some x
  | .kvapp x .. => some x
  | .kvtrim x .. => some x
  | .kvqry x .. => some x
  | _ => none

/-- In the lead slice pg must be 7 (R61). -/
def guardLegal (lead : Bool) (i : Instr) : Bool :=
  match headOf i with
  | some x => !lead || x.pg = 7
  | none => true

/-- Legal under the header for a group or the lead thread, once well formed. -/
def legalIn (h : Header) (lead : Bool) (i : Instr) : Bool :=
  i.uses.all (useLegal h lead) && numbersLegal h i && guardLegal lead i &&
    (if lead then leadLegal i else groupLegal i)

end Sys2Proof.Machine
end

