-- ==== Sys2Proof/Machine/Control.lean ====
section
/-! DEFINITION. Control transfer (R146 to R150), traps and breakpoints (R157, R158), the clock wait (R159) and the
system registers (R156), with their base words (R67). -/

namespace Sys2Proof.Machine

/-! ### Shared operations -/

/-- Byte offset of a base branch (R67). -/
def baseOff (o : BaseOff) : Dword :=
  match o with
  | .short n => n.signExtend 64 <<< (2 : Nat)
  | .lit w => w

/-- Byte offset of an extended branch (R146). -/
def extOff (o : ExtOff) : Dword :=
  match o with
  | .short n => n.signExtend 64 <<< (2 : Nat)
  | .lit w => w

/-- `BRA` (R147). -/
def braOp (x : XHead) (off : Dword) (s : State) : Out :=
  let act := s.active x
  .next (s.retireTo x fun L => if act.contains L then some (s.cur.pc + off) else none)

/-- `CALL` (R147): the return address with the integer latency; helper lanes take no part (R11). -/
def callOp (x : XHead) (d : BitVec 7) (off : Dword) (s : State) : Out :=
  let act := s.active x
  let s1 := s.pushRes latInt act [] (vOpd d) fun _ => resWords true (s.cur.pc + w64 s.cur.len)
  .next (s1.retireTo x fun L => if act.contains L then some (s.cur.pc + off) else none)

/-- `BRX` and `RET` (R147); a target off a word boundary kills (R148). -/
def brxOp (x : XHead) (a : Opd) (s : State) : Out :=
  let act := s.active x
  if act.any fun L => (s.reg2 a L).toNat % 4 ≠ 0 then .next (s.killCur eIll)
  else .next (s.retireTo x fun L => if act.contains L then some (s.reg2 a L) else none)

/-- `EXIT` (R149, R35, R260): the active threads exit, in their home groups. -/
def exitOp (x : XHead) (s : State) : Out :=
  let homes := (s.active x).map fun L => Team_homeOf s.ct s.cur.who L
  let s1 := homes.foldl (fun s h => (s.exitThread s.cur.team h.1 h.2).modCt fun t => Team_leaveConj t h.1 h.2) s
  let s2 := s1.retire x
  .next ((keysOf (homes.map (·.1))).foldl (fun s g => s.afterExit s.cur.team g) s2)

/-- `YIELD` (R150): its group counts as blocked in this cycle. -/
def yieldOp (x : XHead) (s : State) : Out :=
  .next ((if s.isLead then s else s.modCg fun g => { g with yieldAt := s.now + 1 }).retire x)

/-- A trap of the active lanes: parks them at the instruction (R157, R158, R213, R215). -/
def trapOp (x : XHead) (cls code : Nat) (s : State) : Out :=
  let fs := (s.active x).map fun L => (Team_homeOf s.ct s.cur.who L, (⟨cls, 5, 0, 0⟩ : Flt))
  .next ((s.takeFault s.cur fs { trap := true, code := code }).retire x)

/-- Debug enable of the context (R218). -/
def State.debugOn (s : State) : Bool := (s.world s.cw).ctxctl.getLsbD 17

/-- `BKPT` (R158). -/
def bkptOp (x : XHead) (code : BitVec 14) (s : State) : Out :=
  if s.debugOn then trapOp x 0x0D code.toNat s else .next (s.retire x)

/-! ### Extended forms -/

def execBraExt (x : XHead) (off : ExtOff) (s : State) : Out := braOp x (extOff off) s
def execBrxExt (x : XHead) (a : Opd) (s : State) : Out := brxOp x a s
def execCallExt (x : XHead) (d : BitVec 7) (off : ExtOff) (s : State) : Out := callOp x d (extOff off) s
def execRetExt (x : XHead) (a : Opd) (s : State) : Out := brxOp x a s
def execExitExt (x : XHead) (s : State) : Out := exitOp x s
def execYieldExt (x : XHead) (s : State) : Out := yieldOp x s
def execNopExt (x : XHead) (s : State) : Out := .next (s.retire x)
def execTrap (x : XHead) (code : BitVec 16) (s : State) : Out := trapOp x 0x0C code.toNat s
def execBkptExt (x : XHead) (code : BitVec 14) (s : State) : Out := bkptOp x code s

/-- `WAITT` (R159): each active lane waits until the GTC has reached its pair. -/
def execWaitt (x : XHead) (a : Opd) (s : State) : Out :=
  let blk := (s.active x).filter fun L => decide (s.gtc % 2 ^ 64 < (s.reg2 a L).toNat)
  let s1 := s.modCt fun t => blk.foldl (fun t L => t.modThreadAt s.cur.who L fun th => { th with st := .time (s.reg2 a L) }) t
  .next (s1.retire x)

/-- The special value of a selector (R156); a helper lane reads as its own thread. -/
def State.special (s : State) (sl : BitVec 8) (L : Nat) : List Word :=
  let t := s.ct
  let l := s.launchOf t
  let h := Team_homeOf t s.cur.who L
  match sl.toNat with
  | 0x00 => [w32 h.2]
  | 0x01 => [w32 L]
  | 0x02 => [w32 h.1]
  | 0x03 => [w32 l.r.g]
  | 0x04 => [w32 t.num]
  | 0x05 => [w32 (l.r.teams - 1)]
  | 0x06 => [w32 (t.num % l.r.c)]
  | 0x07 => [w32 l.r.c]
  | 0x08 => [w32 t.core]
  | 0x09 => [w32 l.world]
  | 0x0A => resWords true (w64 s.gtc)
  | 0x0B => [s.gtc32]
  | 0x0C => [s.cg.phase.zeroExtend 32]
  | _ => [w32 (s.cycle t.core)]

def execMfsr (x : XHead) (d : BitVec 7) (sl : BitVec 8) (s : State) : Out :=
  .next (s.execAlu x latInt (vOpd d) [] fun L => s.special sl L)

/-! ### Base words (R67) -/

def execBra (stl : BitVec 3) (off : BaseOff) (s : State) : Out := braOp (baseHead stl) (baseOff off) s
def execCall (stl : BitVec 3) (d : BitVec 7) (off : BaseOff) (s : State) : Out := callOp (baseHead stl) d (baseOff off) s
def execRet (stl : BitVec 3) (a : BitVec 7) (s : State) : Out := brxOp (baseHead stl) (vOpd a) s
def execBrx (stl : BitVec 3) (a : BitVec 7) (s : State) : Out := brxOp (baseHead stl) (vOpd a) s
def execExit (stl : BitVec 3) (s : State) : Out := exitOp (baseHead stl) s
def execNop (stl : BitVec 3) (s : State) : Out := .next (s.retire (baseHead stl))
def execYieldB (stl : BitVec 3) (s : State) : Out := yieldOp (baseHead stl) s
def execBkpt (stl : BitVec 3) (code : BitVec 14) (s : State) : Out := bkptOp (baseHead stl) code s

end Sys2Proof.Machine
end

