-- ==== Sys2Proof/Machine/Seq.lean ====
section
/-! DEFINITION. Sequence records (R284 to R286), free lists, tiers and quotas (R287 to R289). -/

namespace Sys2Proof.Machine

/-- A sequence record's fields (R284). -/
structure SeqRec where
  base : Dword
  pte : Dword
  len : Nat
  cap : Nat
  dl : Nat
  ct : Ty
  tier : Nat
  deriving DecidableEq, Repr

/-- Cache types by their codes. -/
def cacheTy (code : Nat) : Option Ty :=
  match code with
  | 6 => some .b16
  | 7 => some .e4m3
  | 8 => some .e5m2
  | 9 => some .zb3
  | 10 => some .zb5
  | 11 => some .zb8
  | _ => none

/-- Latent dimensions: a power of two, 16 to 1,024. -/
def latentOk (dl : Nat) : Bool := [16, 32, 64, 128, 256, 512, 1024].contains dl

/-- Row bytes of a cache. -/
def rowBytes (ct : Ty) (dl : Nat) : Nat := if ct = .b16 then 2 * dl else dl

/-- `Pages(n)`. -/
def seqPages (rb n : Nat) : Nat := (n * rb + 65535) / 65536

def SeqRec_rb (r : SeqRec) : Nat := rowBytes r.ct r.dl

/-- Page class and format code of a cache type (R286, R287). -/
def cacheClass (ct : Ty) : Nat := if ct = .zb3 then 1 else if ct = .zb5 then 2 else if ct = .zb8 then 3 else 0

/-- A record's 32 bytes: none when they break R284. -/
def parseSeq (bs : List Byte) : Option SeqRec :=
  let f (o n : Nat) : Nat := leNat ((bs.drop o).take n)
  match cacheTy (f 26 1) with
  | none => none
  | some ct =>
    let r : SeqRec :=
      { base := w64 (f 0 8), pte := w64 (f 8 8), len := f 16 4, cap := f 20 4, dl := f 24 2, ct := ct, tier := f 27 1 }
    let last := r.base.toNat + seqPages (SeqRec_rb r) r.cap * 65536 - 1
    if canonical r.base && r.base.toNat % 65536 = 0 && r.pte.toNat % 8 = 0 && r.len ≤ r.cap && 1 ≤ r.cap &&
        r.cap ≤ 2 ^ 24 && latentOk r.dl && r.tier ≤ 1 && f 28 4 = 0 && r.base.toNat / 2 ^ 26 = last / 2 ^ 26 then some r
    else none

/-- The leaf entry of a popped frame (R286). -/
def seqEntry (r : SeqRec) (frame : Nat) : Nat :=
  15 * 2 ^ 60 + (if r.tier = 1 then 2 * 2 ^ 54 else 0) +
    (if cacheClass r.ct = 0 then 0
     else cacheClass r.ct * 2 ^ 51 + 2 ^ 49 + Nat.log2 (r.dl / 16) * 2 ^ 45) + frame

/-! ### Free lists (R287, R288) -/

/-- Key of a list: tier and class. -/
def listKey (t k : Nat) : Nat := 4 * t + k

def World_list (w : World) (key : Nat) : FreeList := tabGet w.free key {}
def World_setList (w : World) (key : Nat) (l : FreeList) : World := { w with free := tabSet w.free key l {} }

/-- Units of a frame's run by class. -/
def classUnits (k : Nat) : Nat := if k = 1 then 8 else if k = 2 then 12 else if k = 3 then 18 else 16

/-- A frame that R287 admits for a tier and class. -/
def frameOk (t k frame : Nat) : Bool :=
  (k ≠ 0 || frame % 16 = 0) &&
    (if t = 0 then inHbm (frame * 4096) (classUnits k * 4096) else inHost (frame * 4096) (classUnits k * 4096))

/-- Raises the reclaim interrupt (R289, R314). -/
def State.reclaim (s : State) (w bit : Nat) : State :=
  (s.modWorld w fun x => { x with kvrcl := x.kvrcl ||| BitVec.ofNat 5 (2 ^ bit) }).signal w 1

/-- A push by KVPUSH: discarded, with BAD, when the frame breaks R287 or the list is full (R288). -/
def State.pushFrame (s : State) (w t k frame : Nat) : State :=
  let l := World_list (s.world w) (listKey t k)
  if frameOk t k frame && l.count < l.cap then
    (s.setPhys none (l.base.toNat + 8 * l.count) (leBytes 8 frame)).modWorld w fun x =>
      World_setList x (listKey t k) { l with count := l.count + 1 }
  else s.modWorld w fun x => { x with kvrcl := x.kvrcl ||| 16 }

/-- A pop (R287, R289): the frame; OVER and the interrupt when USED rises above QUOTA. -/
def State.popFrame (s : State) (w t k : Nat) : Nat × State :=
  let x := s.world w
  let l := World_list x (listKey t k)
  let frame := leNat (s.phys none (l.base.toNat + 8 * (l.count - 1)) 8) % 2 ^ 36
  let used := x.used.getD t 0
  let s1 := s.modWorld w fun x => { World_setList x (listKey t k) { l with count := l.count - 1 } with used := x.used.set t (used + 1) }
  (frame, if used ≤ x.quota.getD t 0 && used + 1 > x.quota.getD t 0 then s1.reclaim w (2 + t) else s1)

/-- Whether `p` pages can be popped (R289, R299). -/
def State.canPop (s : State) (w t k p : Nat) : Bool :=
  let x := s.world w
  decide (p ≤ (World_list x (listKey t k)).count) && decide (x.used.getD t 0 + p ≤ x.quota.getD t 0 + x.borrow.getD t 0)

/-- The value of a selector of `KVQRY` (R302): 0 for a record that breaks R284. -/
def State.seqValue (s : State) (w sel : Nat) (bs : List Byte) : Nat :=
  match parseSeq bs with
  | none => 0
  | some r =>
    let x := s.world w
    match sel with
    | 0 => r.len
    | 1 => r.cap
    | 2 => seqPages (SeqRec_rb r) r.len
    | 3 => x.used.getD r.tier 0
    | 4 => (World_list x (listKey r.tier (cacheClass r.ct))).count
    | _ => x.quota.getD r.tier 0 + x.borrow.getD r.tier 0 - x.used.getD r.tier 0

end Sys2Proof.Machine
end

