-- ==== Sys2Proof/Machine/Lsu.lean ====
section
/-! DEFINITION. Shared operations of the memory instructions: addresses (R171), order (R121, R126), accesses issued,
performed and completed (R117, R123, R128, R177 to R179, R192), escorted requests (R180 to R189, R228) and the
landing pool (R35, R38 to R40). -/

namespace Sys2Proof.Machine

/-! ### Addresses -/

/-- Address of a lane (R171). -/
def State.addrOf (s : State) (a : Opd) (off : AddrOff) (L : Nat) : Dword :=
  match off with
  | .none => s.reg2 a L
  | .reg o => s.reg2 a L + sext32 (s.reg1 o L)
  | .lit w => s.reg2 a L + w

def offPorts (off : AddrOff) : List OpdB :=
  match off with
  | .reg o => [.reg o]
  | _ => []

/-- Displacement of a base load or store of n bytes (R67). -/
def baseDisp (n : Nat) (o : BaseDisp) : AddrOff :=
  match o with
  | .short k => .lit (k.signExtend 64 * w64 n)
  | .lit w => .lit w

/-! ### Order -/

def spaceKey (sp : Space) : Nat × Nat :=
  match sp with
  | .glob pa => (0, pa)
  | .scr off => (1, off)
  | .stk pa => (2, pa)

/-- Two accesses touch overlapping bytes. -/
def overlaps (p : Space) (n : Nat) (q : Space) (m : Nat) : Bool :=
  let a := spaceKey p
  let b := spaceKey q
  a.1 = b.1 && decide (a.2 < b.2 + m) && decide (b.2 < a.2 + n)

/-- Places that an engine reads or writes. -/
def EngKind_spaces (k : EngKind) : List (Space × Nat) :=
  match k with
  | .acp secs => secs.flatMap fun x => [(x.1, 32), (x.2, 32)]
  | .scat ws => ws.map fun w => (w.space, w.n)
  | .mst _ ws => ws.map fun w => (w.space, w.n)
  | _ => []

def spacesMeet (ps qs : List (Space × Nat)) : Bool := ps.any fun p => qs.any fun q => overlaps p.1 p.2 q.1 q.2

/-- Everything a team's actor has issued before this cycle and whose time is not known, as a fence covers it (R124). -/
def State.covered (s : State) (team : Nat) (who : Actor) (y : Bool) : List Nat :=
  let t := s.team team
  let homes := match who with
    | .conj _ => Team_homes t who
    | .grp n => [n]
    | .lead => [leadGrp]
  let mine (tm : Nat) (w : Actor) (g : Nat) : Bool := tm = team && (decide (w = who) || homes.contains g)
  let ours (tm : Nat) (w : Actor) (gs : List Nat) : Bool := tm = team && (decide (w = who) || gs.any fun g => homes.contains g)
  let cut := (s.cur.before.map (·.cut)).getD s.nextId
  let old (id : Nat) : Bool := id < cut
  ((s.flights.filter fun f => mine f.team f.who f.grp && old (f.eng.getD f.id)).map (·.id) ++
  (s.walks.filter fun f => mine f.team f.who f.grp && old f.id).map (·.id) ++
  (s.probes.filter fun f => ours f.team f.who (f.lanes.map (·.grp)) && old f.id).map (·.id) ++
  (s.engines.filter fun f => ours f.team f.who (f.lanes.map (·.1)) && old f.id && (match f.kind with | .tile .. => false | _ => true)).map (·.id) ++
  (s.pends.filter fun p => (p.xlane || decide (p.cls = 2)) && mine p.team p.who p.grp && old p.id).map (·.id) ++
  (t.pipe.filter fun p => (p.xl || decide (p.cls = 2)) && mine team p.who p.grp && old p.id).map (·.id) ++
  (if y then (s.egress.filter fun f => mine f.team f.who f.grp && old f.id).map (·.id) else []))

/-- Latest time of an actor's accesses whose times are known now; 0 when there is none (R124). -/
def State.doneNow (s : State) (team : Nat) (who : Actor) (y : Bool) : Nat :=
  let t := s.team team
  let own := t.actor who
  let gs := match who with
    | .conj _ => own :: (Team_homes t who).map t.groupAt
    | _ => [own]
  gs.foldl (fun m g => max m (if y then max g.doneT g.doneY else g.doneT)) 0

/-- The same, of accesses issued before the cycle of the instruction in hand. -/
def State.knownT (s : State) (team : Nat) (who : Actor) (y : Bool) : Nat :=
  match s.cur.before with
  | some b => if y then max b.known b.knownY else b.known
  | none => s.doneNow team who y

/-- The token of a known time: scope `.Y` adds 64 ns (R124). -/
def tokenOf (y : Bool) (t : Nat) : Nat := if t = 0 then 0 else if y then t + 64 else t

/-- What an access of the issuer must wait for: acquires before it, and for `.REL` everything its fence covers (R126). -/
structure Order where
  floor : Nat
  after : List Nat
  deriving DecidableEq, Repr

def State.orderOf (s : State) (o : MOrd) (first : Nat) : Order :=
  let y := o.scope = .y
  let g := s.cg
  -- the lanes of one instruction do not wait for each other
  let acqs := (g.acqs.map (·.1)).filter fun id => decide (id < first)
  if o.rel then
    { floor := max g.floor (s.knownT s.cur.team s.cur.who y),
      after := acqs ++ (s.covered s.cur.team s.cur.who y).filter fun id => decide (id < first) }
  else { floor := g.floor, after := acqs }

/-- Whether an instruction that issued and has not acted may touch some places. -/
def Probe_meets (p : Probe) (sps : List (Space × Nat)) : Bool :=
  match p.held with
  | some h => (match h.touch with
    | some ps => spacesMeet sps ps
    | none => true)
  | none => true

/-- Names from here on are of what was issued later than the instruction in hand. -/
def State.nameLim (s : State) : Nat := s.cur.limit.getD s.nextId

/-- Accesses of some threads with names below `lim` that overlap some places: accesses, engines, and walks and probes whose
addresses are not known (R121). -/
def State.threadsBefore (s : State) (team lim : Nat) (hs : List (Nat × Nat)) (sps : List (Space × Nat)) : List Nat :=
  (s.flights.filter fun f => f.team = team && decide (f.id < lim) && spacesMeet [(f.space, f.n)] sps &&
    (hs.contains (f.grp, f.lane) || f.peers.any hs.contains)).map (·.id) ++
  (s.walks.filter fun f => f.team = team && decide (f.id < lim) && hs.contains (f.grp, f.lane)).map (·.id) ++
  (s.probes.filter fun f => f.team = team && decide (f.id < lim) && Probe_meets f sps &&
    f.lanes.any fun p => hs.contains (p.grp, p.lane)).map (·.id) ++
  (s.engines.filter fun f => f.team = team && decide (f.id < lim) && f.lanes.any hs.contains &&
    spacesMeet (EngKind_spaces f.kind) sps).map (·.id)

/-- Those of one thread that were issued before the instruction in hand. -/
def State.programAfter (s : State) (team g l : Nat) (sp : Space) (n : Nat) : List Nat :=
  s.threadsBefore team s.nameLim [(g, l)] [(sp, n)]

/-- Latest W of the stores of some threads that stand at their homes and overlap, issued under names below `lim` (R121). -/
def State.threadsFloor (s : State) (team lim : Nat) (hs : List (Nat × Nat)) (sps : List (Space × Nat)) : Nat :=
  (s.homes.filter fun x => x.team = team && decide (x.eng.getD x.id < lim) && x.lanes.any hs.contains &&
    spacesMeet [(.glob x.pa, x.n)] sps).foldl (fun m x => max m x.w) 0

def State.programFloor (s : State) (team g l : Nat) (sp : Space) (n : Nat) : Nat :=
  s.threadsFloor team s.nameLim [(g, l)] [(sp, n)]

/-! ### Accesses -/

/-- An access of one position, not yet started: its order against what the issuer did before its instruction, whose
names begin at `first`, and, where they are stores in order, against the overlapping accesses of the same instruction
(R177, R192). -/
def State.mkFlight (s : State) (id L : Nat) (o : MOrd) (sp : Space) (n : Nat) (op : FOp) (fill first : Nat)
    (chain : Bool) : Flight :=
  let h := Team_homeOf s.ct s.cur.who L
  let ord := s.orderOf o first
  { id := id, team := s.cur.team, who := s.cur.who, grp := h.1, lane := h.2, source := s.cur.core, world := s.cw,
    launch := s.ct.launch, core := s.cur.core, space := sp, n := n, op := op, fill := fill,
    floor := max ord.floor (s.programFloor s.cur.team h.1 h.2 sp n),
    after := ord.after ++ s.programAfter s.cur.team h.1 h.2 sp n ++
      (if chain then (s.flights.filter fun f => f.team = s.cur.team && decide (f.id ≥ first) && overlaps sp n f.space f.n).map (·.id)
       else []),
    eng := none, acq := o.acq, acqY := o.scope = .y, relY := o.rel && o.scope = .y }

/-- Words that a load delivers. -/
def State.deliverLoad (s : State) (op : FOp) (bs : List Byte) : State :=
  match op with
  | .load tgt _ sx => s.deliver tgt (loadWords bs sx)
  | .eload tgt fmt items ty =>
    let b := zbParse (fmtTy fmt) bs
    items.foldl (fun s it => match tgt with
      | .pend id i => s.deliver (.pend id (i + it.2)) [elemImage ty (b.val (fmtTy fmt) it.1)]
      | .esc r l i => s.deliver (.esc r l (i + it.2)) [elemImage ty (b.val (fmtTy fmt) it.1)]
      | _ => s) s
  | .kvqry tgt sel w => s.deliver tgt [w32 (s.seqValue w sel bs)]
  | _ => s

/-- Bytes written at a bank or a stack line. -/
def State.putSpace (s : State) (core team : Nat) (sp : Space) (bs : List Byte) : State :=
  match sp with
  | .glob pa => let w := s.worldOf (s.team team); s.write (some w) w pa bs
  | .scr off => s.setScratch team off bs
  | .stk pa => s.setStack core team (s.worldOf (s.team team)) pa bs

/-- Threads whose access it is. -/
def Flight_lanes (f : Flight) : List (Nat × Nat) := (f.grp, f.lane) :: f.peers

/-- AN ACCESS ACTS NOW: a load performs, by a hit, or with its fill and lease; an access to a bank or stack line performs and
completes; a global store or atomic takes its place in home order (R117 to R119, R123, R128, R333). An element store in the
stack window changes its record in the core's stack sectors, which R93 puts at the home slice and R100 in L1: DESIGN CHOICE
(log 39). -/
def State.perform (s : State) (f : Flight) : State :=
  let s0 : State := { s with flights := s.flights.filter fun x => decide (x.id ≠ f.id) }
  let old := s0.spaceBytes f.core f.team f.space f.n
  match f.op with
  | .load .. | .eload .. | .kvqry .. =>
    let s1 := match f.space with
      | .glob pa => s0.fillBy f.core f.world pa f.n f.fill
      | .stk pa => s0.touchStack f.core f.team f.world pa f.n
      | .scr _ => s0
    (s1.deliverLoad f.op old).settle f.id f.team f.who f.grp f.launch s.gtc false
  | _ =>
    match f.space with
    | .glob pa => (s0.arrive f.id f.world f.team f.who f.grp f.launch pa f.n f.op f.eng false false).homeLanes f.id (Flight_lanes f)
    | _ =>
      let r := applyOp s.gtc f.op old
      let s1 := s0.putSpace f.core f.team f.space r.1
      (r.2.foldl (fun s d => s.deliver d.1 d.2) s1).settle f.id f.team f.who f.grp f.launch s.gtc false

/-- Nothing holds an access back (R121, R126): a release at `.Y` arrives 64 ns after what it covers. -/
def Flight_free (f : Flight) (gtc : Nat) : Bool := f.after = [] && decide (f.floor + (if f.relY then 64 else 0) ≤ gtc)

/-- A load that hits in its L1 performs there, without a trip to the home (R113, R117, R118). -/
def State.hits (s : State) (f : Flight) : Bool :=
  match f.space, f.op with
  | .glob pa, .load .. => f.fill ≠ 0 && s.hitL1 f.core f.world pa f.n
  | _, _ => false

/-- Starts an access: it is under way, and acts at some GTC from now on (R117, R123). -/
def State.start (s : State) (f : Flight) : State :=
  let s1 := if f.acq then s.modTeam f.team fun t => t.modActor f.who fun g => { g with acqs := g.acqs ++ [(f.id, f.acqY)] } else s
  { s1 with flights := s1.flights ++ [f] }

/-- Checks of positions in ascending order; TLBs fill on the way (R111). -/
def State.checkAll (s : State) (vas : List (Nat × Dword)) (n al kind : Nat) (elem : Bool) : List (Nat × Dword × Except Flt Acc) × State :=
  vas.foldl (fun (acc : List (Nat × Dword × Except Flt Acc) × State) v =>
    let h := Team_homeOf acc.2.ct acc.2.cur.who v.1
    let r := acc.2.access acc.2.cur.core acc.2.cur.team h.1 h.2 v.2 n al kind elem
    (acc.1 ++ [(v.1, v.2, r.1)], r.2)) ([], s)

/-- Positions that passed, with their places. -/
def passed (r : List (Nat × Dword × Except Flt Acc)) : List (Nat × Dword × Acc) :=
  r.filterMap fun x => match x.2.2 with
    | .ok a => some (x.1, x.2.1, a)
    | .error _ => none

def failed (r : List (Nat × Dword × Except Flt Acc)) : List (Nat × Flt) :=
  r.filterMap fun x => match x.2.2 with
    | .ok _ => none
    | .error f => some (x.1, f)

/-- Parks the positions that failed (R112). -/
def State.parkFailed (s : State) (fs : List (Nat × Flt)) (way : FltWay) : State :=
  s.takeFault s.cur (fs.map fun f => (Team_homeOf s.ct s.cur.who f.1, f.2)) way

/-- Ascending home lane (R177, R192). -/
def State.byHome (s : State) {α : Type} (key : α → Nat) (l : List α) : List α :=
  sortBy (fun x => s.ct.homeLane s.cur.who (key x)) l

/-! ### Loads -/

/-- A load's result of one position: registers, parts, packing. -/
structure LoadShape where
  d : Opd
  cnt : Nat
  parts : Nat
  pack : Pack
  deriving DecidableEq, Repr

/-- Element indices of one position by record (R91, R178): record address and its items. `off` is the logical offset in
the page of the first element. -/
def recItems (e : TlbEnt) (off n : Nat) : List (Nat × List (Nat × Nat)) :=
  let ps := (List.range n).map fun i => (elemPlace e (off + i), i)
  (keysOf (ps.map (·.1.1))).map fun r => (r, (ps.filter fun p => p.1.1 = r).map fun p => (p.1.2, p.2))

/-- The offset in its page of a place, and the same kind of place at another address: an element of the stack window
lies where its translated address says (R91, R100). -/
def Acc_off (a : Acc) (e : TlbEnt) : Nat :=
  match a.space with
  | .glob pa => pa - e.pa
  | .stk pa => pa - e.pa
  | .scr o => o

def Acc_at (a : Acc) (pa : Nat) : Space :=
  match a.space with
  | .stk _ => .stk pa
  | _ => .glob pa

/-- Starts the accesses of one position's load: one, or one per record. -/
def State.startLoad (s : State) (L : Nat) (a : Acc) (o : MOrd) (hint : BitVec 2) (fmt : LdFmt) (tgt : Tgt) (first : Nat) : State :=
  let fill := match tgt with
    | .esc .. => 0
    | _ => fillOf hint a.ent
  match fmt with
  | .raw w sx =>
    let (id, s1) := s.fresh
    s1.start (s1.mkFlight id L o a.space w.bytes (.load tgt w.bytes sx) fill first false)
  | .elems n ty =>
    match a.ent with
    | none => s
    | some e =>
      (recItems e (Acc_off a e) n.n).foldl (fun s r =>
        let (id, s1) := s.fresh
        s1.start (s1.mkFlight id L o (Acc_at a r.1) (zbRec (fmtTy e.fmt)) (.eload tgt e.fmt r.2 ty) fill first false)) s

/-- Width of an access: bytes, or elements (R101). -/
def ldWidth (f : LdFmt) : Nat :=
  match f with
  | .raw w _ => w.bytes
  | .elems n _ => n.n

def ldElem (f : LdFmt) : Bool :=
  match f with
  | .raw .. => false
  | .elems .. => true

def ldShape (f : LdFmt) (d : Opd) : LoadShape :=
  match f with
  | .raw w _ => ⟨d, w.regs, w.regs, .words⟩
  | .elems n ty => if ty = .f32 then ⟨d, n.n, n.n, .words⟩ else ⟨d, eltRegs n ty, n.n, .halves⟩

/-- Adds the pending result of a load at a position. -/
def State.loadPend (s : State) (sh : LoadShape) (L : Nat) : Nat × State :=
  s.addPend fun id => { s.mkPend L (clsCode sh.d.cls) sh.d.no.toNat sh.cnt sh.parts id with pack := sh.pack }

/-- LD (R177, R178, R134, R11): active lanes that fault park; helper lanes that would fault receive zero. -/
def loadOp (x : XHead) (helpers : Bool) (hint : BitVec 2) (o : MOrd) (fmt : LdFmt) (d a : Opd) (off : AddrOff) (s : State) : Out :=
  let p := s.pullPorts (portsOf (offPorts off)) (s.active x)
  let s1 := p.2.2
  let n := ldWidth fmt
  let help := if helpers then s.helpers x else []
  let chk := s1.checkAll (p.2.1.map fun L => (L, s.addrOf a off L)) n n kRead (ldElem fmt)
  let hchk := chk.2.checkAll (help.map fun L => (L, s.addrOf a off L)) n n kRead (ldElem fmt)
  let s2 := hchk.2.parkFailed (p.1 ++ failed chk.1) {}
  let ok := (passed chk.1).filter fun r => !(s2.cth r.1).gone
  let sh := ldShape fmt d
  let top := (ok.map (·.1)).getLast?
  -- active lanes
  let s3 := ok.foldl (fun s r =>
    if d.cls = .v || top = some r.1 then
      let (id, s') := s.loadPend sh r.1
      s'.startLoad r.1 r.2.2 o hint fmt (.pend id 0) s2.nextId
    else s.startLoad r.1 r.2.2 o hint fmt .none s2.nextId) s2
  -- helper lanes: `v` destinations only
  let s4 := if d.cls ≠ .v then s3 else (passed hchk.1).foldl (fun s r =>
    let (id, s') := s.loadPend sh r.1
    s'.startLoad r.1 r.2.2 o hint fmt (.pend id 0) s2.nextId) s3
  let s5 := if d.cls ≠ .v then s4 else (failed hchk.1).foldl (fun s r =>
    (s.addPend fun id => { s.mkPend r.1 0 d.no.toNat sh.cnt sh.parts id with
      vals := List.replicate sh.parts (some 0), pack := sh.pack }).2) s4
  .next (s5.retire x)

/-! ### Stores -/

/-- Registers of a store's data at a position. -/
def State.dataWords (s : State) (c : Opd) (cnt L : Nat) : List Word := (List.range cnt).map fun k => s.regAt c k L

/-- The low n bytes of registers (R177). -/
def wordBytes (ws : List Word) (n : Nat) : List Byte := (ws.flatMap fun w => leBytes 4 w.toNat).take n

/-- Element k of a store's data as an FP32 image (R178, R179): narrower types widen exactly. -/
def elemOf (ty : Ty) (ws : List Word) (k : Nat) : Word :=
  if ty = .f32 then ws.getD k 0
  else
    let w := ws.getD (k / 2) 0
    let h := if k % 2 = 0 then w.toNat % 65536 else w.toNat / 65536
    rnF32 ((fpFmt ty).dec h)

def stWidth (f : StFmt) : Nat :=
  match f with
  | .raw w => w.bytes
  | .elems n _ _ _ => n.n

def stElem (f : StFmt) : Bool :=
  match f with
  | .raw _ => false
  | .elems .. => true

def stRegs (f : StFmt) : Nat :=
  match f with
  | .raw w => w.regs
  | .elems n ty _ _ => eltRegs n ty

/-- Starts the store of one position: one access, or one per record (R179). -/
def State.startStore (s : State) (L : Nat) (a : Acc) (o : MOrd) (fmt : StFmt) (ws : List Word) (first : Nat) : State :=
  match fmt with
  | .raw w =>
    let (id, s1) := s.fresh
    s1.start (s1.mkFlight id L o a.space w.bytes (.store (wordBytes ws w.bytes)) 0 first true)
  | .elems n ty rm sr =>
    match a.ent with
    | none => s
    | some e =>
      (recItems e (Acc_off a e) n.n).foldl (fun s r =>
        let (id, s1) := s.fresh
        let items := r.2.map fun p => (p.1, elemOf ty ws p.2)
        s1.start (s1.mkFlight id L o (Acc_at a r.1) (zbRec (fmtTy e.fmt))
          (.estore e.fmt items rm (if sr then some s.cg.phase.toNat else none) false) 0 first true)) s

/-- ST (R177, R179). -/
def storeOp (x : XHead) (o : MOrd) (fmt : StFmt) (a : Opd) (off : AddrOff) (c : Opd) (s : State) : Out :=
  let p := s.pullPorts (portsOf (offPorts off ++ [.reg c])) (s.active x)
  let n := stWidth fmt
  let chk := p.2.2.checkAll (p.2.1.map fun L => (L, s.addrOf a off L)) n n kWrite (stElem fmt)
  let s2 := chk.2.parkFailed (p.1 ++ failed chk.1) {}
  let ok := s.byHome (fun r : Nat × Dword × Acc => r.1) ((passed chk.1).filter fun r => !(s2.cth r.1).gone)
  let s3 := ok.foldl (fun s' r => s'.startStore r.1 r.2.2 o fmt (s.dataWords c (stRegs fmt) r.1) s2.nextId) s2
  .next (s3.retire x)

/-! ### The landing pool (R38 to R40) -/

/-- Units of 128 bytes in a team's landing share (R35). -/
def shareUnits (h : Header) (g : Nat) : Nat :=
  if h.e = 0 then 0 else up (max (h.e * 64 * g) (h.e * 128)) 1024 / 128

def Team_landedUnits (t : Team) : Nat := (t.groups.map fun g => g.landed.length).foldl (· + ·) 0

/-- Global address of an ellipsis register's 128 bytes in the backing area (R39, R243). -/
def State.backVa (s : State) (t : Team) (g j : Nat) : Dword :=
  let h := s.hdrOf t
  w64 (s.slotAddr t + backOff h (s.launchOf t).r.g (s.hasLead t) + (g * h.e + j) * 128)

/-- Writes a group's registers to the backing area and marks them spilled. -/
def State.spill (s : State) (team g : Nat) (regs : List Nat) : State :=
  let t := s.team team
  let h := s.hdrOf t
  let s1 := regs.foldl (fun s r =>
    let bs := (List.range 32).flatMap fun l => leBytes 4 ((t.thread g l).getV r).toNat
    match s.globAcc t.core (s.worldOf t) (s.backVa t g (r - h.h)) kWrite false with
    | (.ok ⟨.glob pa, _⟩, s') => s'.hwStore team pa bs false
    | (_, s') => s') s
  s1.modTeam team fun t => t.modGroupAt g fun x =>
    { x with landed := x.landed.filter fun r => !regs.contains r, spilled := regs.foldl insertNat x.spilled,
             spillAt := if x.spilled = [] then s.cycle t.core else x.spillAt, fresh := false }

/-- Space of the landing share becomes free when a register of every live thread of a group stands at a holding point, the
core's request port the first (R181, R185): the 128 bytes hold all lanes (R37). -/
def State.releasePool (s : State) (team g : Nat) (regs : List Nat) : State :=
  let t := s.team team
  let away (r l : Nat) : Bool := s.escs.any fun q => q.team = team && (inRange r q.ebase q.ecnt || inRange r q.dreg q.dcnt) &&
    q.lanes.any fun x => x.grp = g && x.lane = l && EStat_away x.stat
  let out := (t.groupAt g).landed.filter fun r => regs.contains r &&
    (List.range 32).all fun l => (t.thread g l).gone || away r l
  if out = [] then s
  else s.modTeam team fun t => Team_freeSpace
    (t.modGroupAt g fun x => { x with landed := x.landed.filter fun r => !out.contains r })

/-- Ellipsis registers that stand in the landing share at launch, in group order, as far as it reaches: DESIGN CHOICE
(log 38). -/
def poolAtLaunch (h : Header) (gs g : Nat) : List Nat :=
  (List.range h.e).filterMap fun j => if g * h.e + j < shareUnits h gs then some (h.h + j) else none

/-- The others are spilled, since a register that is not abroad stands in the share or is spilled (R8, R37, R38): DESIGN CHOICE
(log 38). -/
def spilledAtLaunch (h : Header) (gs g : Nat) : List Nat :=
  (List.range h.e).filterMap fun j => if g * h.e + j < shareUnits h gs then none else some (h.h + j)

/-- The victim (R38 step 2, R40): pending, with landed registers, pending longest; not just refilled. -/
def Team_victim (t : Team) (not_ : Nat) : Option Nat :=
  let cs := t.allGroups.filter fun g => decide (g ≠ not_) && !(t.groupAt g).active && !(t.groupAt g).exited &&
    (t.groupAt g).landed ≠ [] && !(t.groupAt g).fresh
  (sortBy (fun g => (t.groupAt g).pendSince) cs).head?

/-- Brings registers of a group into the share (R38): free space, else a victim's, else the backing area. -/
def State.landRegs (s : State) (team g : Nat) (regs : List Nat) : State :=
  let t := s.team team
  let h := s.hdrOf t
  let cap := shareUnits h (s.launchOf t).r.g
  let new := (keysOf regs).filter fun r => decide (h.h ≤ r) && !(t.groupAt g).landed.contains r
  let put (s : State) : State := s.modTeam team fun t => t.modGroupAt g fun x =>
    { x with landed := new.foldl insertNat x.landed, spilled := x.spilled.filter fun r => !new.contains r }
  if new = [] then s
  else if Team_landedUnits t + new.length ≤ cap then put s
  else
    match Team_victim t g with
    | some v =>
      let s1 := (s.spill team v (t.groupAt v).landed).modTeam team Team_freeSpace
      if Team_landedUnits (s1.team team) + new.length ≤ cap then put s1 else s1.spill team g new
    | none => s.spill team g new

/-- A refill that space becoming free brings about (R40): the group spilled earliest, from free space or a victim's. With
neither it waits for the next freeing of space. -/
def State.refillTeam (s : State) (team : Nat) : Option State :=
  let t := s.team team
  let cap := shareUnits (s.hdrOf t) (s.launchOf t).r.g
  match (sortBy (fun g => (t.groupAt g).spillAt) (t.allGroups.filter fun g => (t.groupAt g).spilled ≠ [])).head? with
  | none => none
  | some g =>
    let regs := (t.groupAt g).spilled
    let put (s : State) : State := s.modTeam team fun t => t.modGroupAt g fun x =>
      { x with landed := regs.foldl insertNat x.landed, spilled := [], fresh := true }
    if Team_landedUnits t + regs.length ≤ cap then some (put s)
    else
      match Team_victim t g with
      | some v =>
        let s1 := (s.spill team v (t.groupAt v).landed).modTeam team Team_freeSpace
        if Team_landedUnits (s1.team team) + regs.length ≤ cap then some (put s1) else none
      | none => none

/-! ### Escorted requests -/

/-- Charge in 32-byte sectors (R182). -/
def escCharge (lanes cnt : Nat) : Nat := (lanes * cnt * 4 + 31) / 32

/-- The refusal decision (R182, R183, R220). -/
def State.escAccepts (s : State) (act : List Nat) (e : EscSet) (addrs : List Dword) : Bool :=
  let ch := escCharge act.length e.cnt.toNat
  let c := s.core s.cur.core
  e.cnt ≠ 0 && act ≠ [] && decide (s.cur.level ≠ Level.h) && decide (c.used + ch ≤ c.budget) &&
    decide (s.ct.esc + ch ≤ escSlots (s.hdrOf s.ct)) &&
    addrs.all fun a => match aperOf a with | .glob => true | _ => false

/-- Lowest free slot number of a team (R228). -/
def State.freeSlot (s : State) (team : Nat) : Nat :=
  let used := (s.escs.filter fun r => r.team = team).map (·.slot)
  ((List.range (used.length + 1)).find? fun n => !used.contains n).getD 0

/-- The key under which a lane of a request is found. -/
def laneKey (h : Nat × Nat) : Nat := h.1 * 32 + h.2

/-- Sends an accepted request: the core's request port takes its lanes' registers, which leave the landing share, and its
charge is added (R181, R182, R185, R228). `path` says where each lane goes next, and `line` for which line. -/
def State.escSend (s : State) (e : EscSet) (act : List Nat) (dreg dcnt : Nat) (line : Nat → Nat) (path : Nat → Hold) : Nat × State :=
  let (id, s1) := s.fresh
  let ch := escCharge act.length e.cnt.toNat
  let lanes : List EscLane := act.map fun L =>
    let h := Team_homeOf s.ct s.cur.who L
    let ws := (List.range e.cnt.toNat).map fun k => (s.cth L).getV (e.base.toNat + k)
    { grp := h.1, lane := h.2, orig := ws, esc := ws, dest := List.replicate dcnt none, path := path L, line := line L, arr := id }
  let r : EscReq :=
    { id := id, slot := s.freeSlot s.cur.team, team := s.cur.team, who := s.cur.who, core := s.cur.core, world := s.cw,
      launch := s.ct.launch, ebase := e.base.toNat, ecnt := e.cnt.toNat, dreg := dreg, dcnt := dcnt, charge := ch,
      on := some s.cur.core, depart := s.gtc, pc := s.cur.pc, len := s.cur.len, word := s.cur.word, lanes := lanes }
  let s2 := s1.modCore s.cur.core fun c => { c with used := c.used + ch }
  let s3 := s2.modCt fun t => { t with esc := t.esc + ch }
  let regs := (List.range e.cnt.toNat).map (· + e.base.toNat) ++ (List.range dcnt).map (· + dreg)
  (id, (keysOf (lanes.map (·.grp))).foldl (fun s g => s.releasePool s.cur.team g regs) { s3 with escs := s3.escs ++ [r] })

def State.esc? (s : State) (id : Nat) : Option EscReq := s.escs.find? fun r => r.id = id

def State.modEscLane (s : State) (id key : Nat) (f : EscLane → EscLane) : State :=
  { s with escs := mapIf s.escs (fun r => r.id = id) fun r =>
      { r with lanes := mapIf r.lanes (fun l => laneKey (l.grp, l.lane) = key) f } }

/-- A lane of a request needs nothing more. -/
def EStat_home (e : EStat) : Bool :=
  match e with
  | .landed => true
  | .diverted => true
  | .divPark => true
  | _ => false

/-- A lane has landed or been discarded. -/
def EStat_done (e : EStat) : Bool :=
  match e with
  | .landed => true
  | _ => false

/-! ### Faults found after issue (R112, R188, R215) -/

/-- The context of an instruction that issued earlier. -/
def lateCtx (core team : Nat) (who : Actor) (pc : Dword) (len : Nat) (word : Word) : IssueCtx :=
  { core := core, team := team, who := who, pc := pc, len := len, word := word }

def reqCtx (r : EscReq) : IssueCtx := lateCtx r.core r.team r.who r.pc r.len r.word

/-- The tag of a request's faults: one for the whole issue (R215). -/
def State.reqTag (s : State) (r : EscReq) : Word × State :=
  if r.tag ≠ 0 then (r.tag, s)
  else
    let (id, s1) := s.fresh
    (w32 id, { s1 with escs := mapIf s1.escs (fun q => q.id = r.id) fun q => { q with tag := w32 id } })

/-! ### Faults of lanes that answer one by one (R112, R215) -/

/-- A lane of an issue faults after the issue: it stands at its instruction again, parked; its fault is recorded with
those of the issue's other lanes. -/
def State.lateFault (s : State) (key : Nat) (c : IssueCtx) (h : Nat × Nat) (f : Flt) : State :=
  match s.team? c.team with
  | none => s
  | some t =>
    let th := t.thread h.1 h.2
    if th.gone then s
    else if th.level = .h then s.killActor c.team c.who eDtrap (some (c.pc, c.word))
    else
      let (tag, s1) : Word × State := match s.lates.find? fun x => x.key = key with
        | some x => (x.tag, s)
        | none =>
          let (id, s1) := s.fresh
          (w32 id, { s1 with lates := s1.lates ++ [{ key := key, core := c.core, team := c.team, who := c.who, pc := c.pc,
                                                     len := c.len, word := c.word, tag := w32 id }] })
      let s2 := s1.modTeam c.team fun t => Team_park t [h] (.parked tag) c.pc
      { s2 with lates := mapIf s2.lates (fun x => x.key = key) fun x => { x with flts := x.flts ++ [(h, f, s.gtc)] } }

/-- The last lane of an issue has answered: its faults are recorded together (R215). -/
def State.lateDone (s : State) (key : Nat) : State :=
  if s.walks.any (fun w => w.issue = key) || s.egress.any (fun r => r.issue = key && r.esc.isNone) then s
  else
    match s.lates.find? fun x => x.key = key with
    | none => s
    | some x =>
      let s1 : State := { s with lates := s.lates.filter fun y => decide (y.key ≠ key) }
      match s1.team? x.team with
      | none => s1
      | some t =>
        let live := x.flts.filter fun y => !(t.thread y.1.1 y.1.2).gone
        s1.takeFault (lateCtx x.core x.team x.who x.pc x.len x.word) (live.map fun y => (y.1, y.2.1))
          { tag := some x.tag, times := live.map fun y => (y.1, y.2.2) }

/-- Parks the lanes that failed; beside lanes that send a remote request their faults are recorded with those of the
issue (R215). -/
def State.capPark (s : State) (key : Nat) (bad : List (Nat × Flt)) (sends : Bool) : State :=
  if sends then bad.foldl (fun s' f => s'.lateFault key s.cur (Team_homeOf s.ct s.cur.who f.1) f.2) s else s.parkFailed bad {}

/-- Lanes of a request whose faults can be recorded: all while the context is resident; otherwise those whose classes
enter no handler, and of a probe all or none (R229). -/
def State.dueLanes (s : State) (r : EscReq) (t : Team) : List EscLane :=
  let live := r.lanes.filter fun l => l.due && !(t.thread l.grp l.lane).gone
  let free (l : EscLane) : Bool := l.flts.all fun f => !s.handled r.world f.cls
  if t.place = .resident then live
  else if r.probe then (if live.all free then live else [])
  else live.filter free

/-- Faults that a request's issue raised before it was sent, and that can be recorded now. -/
def State.dueEarly (s : State) (r : EscReq) (t : Team) : List ((Nat × Nat) × Flt × Nat) :=
  r.early.filter fun x => !(t.thread x.1.1 x.1.2).gone && (decide (t.place = .resident) || !s.handled r.world x.2.1.cls)

/-- Lanes whose port read faulted beside lanes that sent a request park under its tag (R202, R215). -/
def State.escEarly (s : State) (id : Nat) (fs : List LaneFlt) : State :=
  match s.esc? id with
  | some r =>
    if fs = [] then s
    else
      let (tag, s1) := s.reqTag r
      let s2 := s1.modTeam r.team fun t => Team_park t (fs.map (·.1)) (.parked tag) r.pc
      { s2 with escs := mapIf s2.escs (fun q => q.id = id) fun q => { q with early := fs.map fun f => (f.1, f.2, s.gtc) } }
  | none => s

/-- The faults of a request whose lanes have all answered are recorded, or enter the handler (R215, R219, R229). -/
def State.reqFaults (s : State) (id : Nat) : State :=
  match s.esc? id with
  | none => s
  | some r =>
    match s.team? r.team with
    | none => s
    | some t =>
      let now := s.dueLanes r t
      let first := s.dueEarly r t
      let home (l : EscLane) : Nat × Nat := (l.grp, l.lane)
      if now = [] && first = [] then s
      else
        let s1 : State := { s with escs := mapIf s.escs (fun q => q.id = id) fun q =>
          { q with
            early := q.early.filter fun x => !first.contains x,
            lanes := mapIf q.lanes (fun l => now.any fun m => home m = home l) fun l => { l with due := false } } }
        s1.takeFault (reqCtx r) ((first.map fun x => (x.1, x.2.1)) ++ now.flatMap fun l => l.flts.map fun f => (home l, f))
          { probe := if r.probe then some (now.map home) else none, esc := true, stayed := first.map (·.1), tag := some r.tag,
            div := (now.filter (·.div)).map home, times := (first.map fun x => (x.1, x.2.2)) ++ now.map fun l => (home l, l.detAt) }

/-- When no lane's reply is to come, the charge is released, from the core or from the context that holds it (R182,
R225, R229); when every lane has landed or been discarded, the slot number is free too (R228). -/
def State.escDone (s : State) (id : Nat) : State :=
  match s.esc? id with
  | none => s
  | some r =>
    if r.lanes.all fun l => EStat_home l.stat then
      let s0 := (s.reqFaults id).modTeam r.team fun t => { t with esc := t.esc - r.charge }
      let s1 := match r.on with
        | some c => s0.modCore c fun x => { x with used := x.used - r.charge }
        | none => s0
      if r.lanes.all fun l => EStat_done l.stat then { s1 with escs := s1.escs.filter fun q => decide (q.id ≠ id) }
      else { s1 with escs := mapIf s1.escs (fun q => q.id = id) fun q => { q with charge := 0, on := none } }
    else s

/-- A thread that executed EXIT finishes when its registers are home (R35). -/
def State.finishExit (s : State) (team g l : Nat) : State :=
  if ((s.team team).thread g l).st = .exiting then
    if s.anyAbroad team g l then s
    else (s.modTeam team fun t => t.modThread g l fun th => { th with st := .exited }).afterExit team g
  else s

/-- Registers written to a thread. -/
def Thread_putRegs (th : Thread) (no : Nat) (ws : List Word) : Thread :=
  (ws.zipIdx).foldl (fun th w => th.setV (no + w.2) w.1) th

/-- A LANE LANDS (R38, R181, R187): its escort and, unless it faulted, its destination come home. -/
def State.landOne (s : State) (r : EscReq) (l : EscLane) (withDest : Bool) : State :=
  let dead := ((s.team r.team).thread l.grp l.lane).gone
  let s1 := s.modEscLane r.id (laneKey (l.grp, l.lane)) fun x => { x with stat := .landed }
  if dead then s1
    else
      let ds := if withDest then l.dest.map fun w => w.getD 0 else []
      let s2 := s1.modTeam r.team fun t => t.modThread l.grp l.lane fun th =>
        Thread_putRegs (Thread_putRegs th r.ebase l.esc) r.dreg ds
      s2.landRegs r.team l.grp ((List.range r.ecnt).map (· + r.ebase) ++ (List.range r.dcnt).map (· + r.dreg))

/-- A lane lands: the last one of its request releases the charge (R38, R182, R188). -/
def State.landLane (s : State) (r : EscReq) (l : EscLane) (withDest : Bool) : State :=
  ((s.landOne r l withDest).escDone r.id).finishExit r.team l.grp l.lane

/-- A lane lands whose access faulted: its escort comes home unchanged and it stands at the instruction, parked; at
level H its group dies (R188, R220). -/
def State.landFault (s : State) (r : EscReq) (l : EscLane) : State :=
  let th := (s.team r.team).thread l.grp l.lane
  let home : EscLane := { l with esc := l.orig }
  if th.gone then s.landLane r home false
  else if th.level = .h then (s.killActor r.team r.who eDtrap (some (r.pc, r.word))).landLane r home false
  else
    let (tag, s1) := s.reqTag r
    let s2 := s1.modTeam r.team fun t => Team_park t [(l.grp, l.lane)] (.parked tag) r.pc
    (s2.modEscLane r.id (laneKey (l.grp, l.lane)) fun x => { x with due := true }).landLane r home false

/-- Lanes of a request that faulted: fault replies set out (R188). -/
def State.escFaulted (s : State) (req : Nat) (fs : List LaneFlt) : State :=
  { s with escs := mapIf s.escs (fun q => q.id = req) fun q => { q with lanes := q.lanes.map fun l =>
      let mine := (fs.filter fun f => f.1 = (l.grp, l.lane)).map (·.2)
      if mine = [] then l else { l with stat := .faulted, flts := mine, detAt := s.gtc } } }

/-- The refusal predicate, with the integer latency (R183). -/
def State.pushRp (s : State) (act : List Nat) (e : EscSet) (rp : BitVec 3) (ok : Bool) : State :=
  if e.cnt = 0 then s else s.pushPred latInt act rp fun _ => ok

/-- Where the lane's home is. -/
def accSlice (a : Acc) : Hold :=
  match a.space with
  | .glob pa => .slice (homeSlice pa)
  | _ => .slice 0

end Sys2Proof.Machine
end

