-- ==== Sys2Proof/Machine/Sync.lean ====
section
/-! DEFINITION. Reconvergence (R19 to R22, R151), team and cluster barriers (R152 to R154), the decision queue
(R31, R32, R155). -/

namespace Sys2Proof.Machine

/-- What a conjugate group may not issue kills every home group of its threads with RCV (R260). -/
def State.wholeGroup (s : State) (f : State → Out) : Out :=
  match s.cur.who with
  | .conj _ => .next (s.killCur eRcv)
  | _ => f s

/-! ### Reconvergence -/

/-- Some thread of a home group waits at a slot. -/
def Team_waitsAt (t : Team) (g b : Nat) : Bool :=
  (t.groupAt g).threads.any fun th => Thread_arrivedAt th b && !th.gone

/-- The homes of positions. -/
def State.homesOf (s : State) (ls : List Nat) : List (Nat × Nat) := ls.map fun L => Team_homeOf s.ct s.cur.who L

/-- `RCV.SET` of lanes on their home groups' slot words; none when it kills (R22). -/
def State.rcvSetOp (s : State) (act : List Nat) (b : Nat) : Option State :=
  let hs := s.homesOf act
  if hs.any fun h => Team_waitsAt s.ct h.1 b then none
  else some (s.modCt fun t => hs.foldl (fun t h => t.modThread h.1 h.2 fun th =>
    { th with member := setBit th.member b true, arrived := setBit th.arrived b false }) t)

def execRcvSet (x : XHead) (slot : BitVec 4) (s : State) : Out :=
  match s.rcvSetOp (s.active x) slot.toNat with
  | none => .next (s.killCur eRcv)
  | some s1 => .next (s1.retire x)

/-- One arrival at a slot of a home group (R19): the first sets the expiry. -/
def Group_arrive (g : Group) (l b : Nat) (p : BitVec 3) (exp : Option Nat) : Group :=
  let first := !(g.threads.any fun th => Thread_arrivedAt th b && !th.gone)
  let th := g.threads.getD l noThread
  { g with
    expiry := match exp with
      | some e => if first then tabPut g.expiry b e else g.expiry
      | none => g.expiry,
    threads := g.threads.set l { th with arrived := setBit th.arrived b true, st := .rcv b p } }

/-- `RCV.WAIT` (R19 to R21, R260, R221): a lane of a conjugate group at level U leaves it at its REGROUP's slot. -/
def execRcvWait (x : XHead) (p : BitVec 3) (slot : BitVec 4) (n : BitVec 20) (s : State) : Out :=
  let b := slot.toNat
  let act := s.active x
  let hs := s.homesOf act
  let isConjSlot := match s.cur.who with
    | .conj _ => decide (s.cg.slot = b) && decide (s.cur.level ≠ Level.h)
    | _ => false
  let exp := if n = 0 then none else some (s.now + n.toNat)
  let mem := hs.filter fun h : Nat × Nat => Thread_memberOf (s.ct.thread h.1 h.2) b
  let non := hs.filter fun h : Nat × Nat => !Thread_memberOf (s.ct.thread h.1 h.2) b
  -- no wait for a non-member
  let s1 := s.modCt fun t => non.foldl (fun t h => t.modThread h.1 h.2 fun th => th.setP p.toNat true) t
  let s2 := s1.modCt fun t => mem.foldl (fun t h => t.modGroupAt h.1 fun g => Group_arrive g h.2 b p exp) t
  let s3 := s2.retire x
  let s4 := if isConjSlot then s3.modCt fun t => hs.foldl (fun t h => Team_leaveConj t h.1 h.2) t else s3
  .next (s4.modCt fun t => (keysOf (hs.map (·.1))).foldl (fun t g => t.modGroupAt g fun y => Group_rcvComplete y b) t)

/-! ### Barriers -/

/-- Participant number of an issuer (R153). -/
def Actor_part (a : Actor) : Nat :=
  match a with
  | .grp n => n
  | .conj k => 64 + k
  | .lead => leadGrp

/-- An arrival at a barrier: once per generation; the first gives the count (R153). `ids` names what the participant has
outstanding (R123). -/
def Bar_arrive (b : Bar) (part k : Nat) (ids : List Nat) : Bar :=
  if b.arr.contains part then b
  else { b with k := if b.arr = [] then k else b.k, arr := b.arr ++ [part], ids := b.ids ++ ids }

/-- Active lanes wait for a generation. -/
def State.barWaitFor (s : State) (act : List Nat) (n gen : Nat) : State :=
  s.modCt fun t => act.foldl (fun t L => t.modThreadAt s.cur.who L fun th => { th with st := .bar n gen }) t

/-- Arrival of the issuer at team barrier n; notes the generation it arrived at. -/
def State.arriveBar (s : State) (n k : Nat) : State :=
  let gen := (s.ct.bar n).gen
  let ids := s.barIds s.cur.team [Actor_part s.cur.who]
  (s.modCt fun t => { t with bars := tabSet t.bars n (Bar_arrive (t.bar n) (Actor_part s.cur.who) k ids) {} }).modCg fun g =>
    { g with arr := tabPut g.arr n (gen + 1) }

/-- The generation at which the issuer last arrived, when it has not completed (R153). -/
def barOpen (b : Bar) (last : Nat) : Option Nat := if last = 0 || decide (last - 1 < b.gen) then none else some (last - 1)

def execBarArv (x : XHead) (n : BitVec 4) (k : BitVec 6) (s : State) : Out :=
  s.wholeGroup fun s =>
    if s.active x = [] then .next (s.retire x)
    else .next ((((s.arriveBar n.toNat k.toNat).retire x).barCheck s.cur.team n.toNat).barRelease s.cur.team n.toNat)

def execBarWait (x : XHead) (n : BitVec 4) (s : State) : Out :=
  s.wholeGroup fun s =>
    match barOpen (s.ct.bar n.toNat) (tabGet s.cg.arr n.toNat 0) with
    | none => .next (s.retire x)
    | some gen => .next ((s.barWaitFor (s.active x) n.toNat gen).retire x)

def execBarSync (x : XHead) (n : BitVec 4) (k : BitVec 6) (s : State) : Out :=
  s.wholeGroup fun s =>
    let act := s.active x
    if act = [] then .next (s.retire x)
    else
      let gen := (s.ct.bar n.toNat).gen
      let s1 := ((s.arriveBar n.toNat k.toNat).barWaitFor act n.toNat gen).retire x
      .next ((s1.barCheck s.cur.team n.toNat).barRelease s.cur.team n.toNat)

/-- Cluster number of the issuer's team (R10). -/
def State.cluster (s : State) : Nat := Launch_cluster (s.launchOf s.ct) s.ct.num
def State.cbar (s : State) : Bar := tabGet (s.launchOf s.ct).cbars s.cluster {}

/-- Arrival at the cluster barrier (R154): its participants are numbered over the cluster. -/
def State.arriveCbar (s : State) : State :=
  let gen := s.cbar.gen
  let part := s.ct.num * 64 + Actor_part s.cur.who
  let cl := s.cluster
  let ids := s.barIds s.cur.team [Actor_part s.cur.who]
  (s.modLaunch s.ct.launch fun l =>
    { l with cbars := tabSet l.cbars cl (Bar_arrive (tabGet l.cbars cl {}) part 0 ids) {} }).modCg fun g =>
    { g with arr := tabPut g.arr 16 (gen + 1) }

def execCbar (x : XHead) (m : CbarMode) (s : State) : Out :=
  s.wholeGroup fun s =>
    let act := s.active x
    let done (s1 : State) : State := (s1.cbarCheck s.ct.launch s.cluster).cbarRelease s.ct.launch s.cluster
    if act = [] then .next (s.retire x)
    else
      match m with
      | .sync => .next (done ((s.arriveCbar.barWaitFor act 16 s.cbar.gen).retire x))
      | .arv => .next (done (s.arriveCbar.retire x))
      | .wait =>
        match barOpen s.cbar (tabGet s.cg.arr 16 0) with
        | none => .next (s.retire x)
        | some gen => .next ((s.barWaitFor act 16 gen).retire x)

/-! ### The decision queue -/

/-- A push (R31, R32): discarded when every group has exited. -/
def dqPushOp (x : XHead) (bcast : Bool) (b : OpdB) (s : State) : Out :=
  let v := s.src1 b 0
  let s1 := if s.active x = [] || Team_liveGroups s.ct = [] then s
    else s.modCt fun t => { t with dq := t.dq ++ [⟨v, bcast, []⟩] }
  .next (s1.retire x)

def execDqpush (x : XHead) (b : OpdB) (s : State) : Out := dqPushOp x false b s
def execDqpushAll (x : XHead) (b : OpdB) (s : State) : Out := dqPushOp x true b s

/-- The team's lead thread can push no more: exited, or none (R31). -/
def Team_noLead (t : Team) : Bool :=
  match t.lead with
  | some l => l.exited
  | none => true

/-- Results of `DQPOP`: the uniform register once, the predicate in every active lane (R31, R155). -/
def State.dqResult (s : State) (act : List Nat) (gd : BitVec 7) (p : BitVec 3) (v : Word) (ok : Bool) : State :=
  (s.pendRes act [] ⟨.g, gd⟩ false fun _ => [v]).pendPred act p false fun _ => ok

/-- `DQPOP` (R31, R32, R155): with nothing open and a lead thread that may still push, the group waits here. -/
def execDqpop (x : XHead) (gd : BitVec 7) (p : BitVec 3) (s : State) : Out :=
  s.wholeGroup fun s =>
    let act := s.active x
    if act = [] then .next (s.retire x)
    else
      let g := Actor_part s.cur.who
      match dqOpen s.ct.dq g 0 with
      | some i =>
        let v := (s.ct.dq.getD i ⟨0, false, []⟩).val
        let s1 := s.modCt fun t =>
          Team_dqRetire { t with dq := t.dq.modify i fun e => { e with taken := insertNat e.taken g } }
        .next ((s1.dqResult act gd p v true).retire x)
      | none =>
        if Team_noLead s.ct then .next ((s.dqResult act gd p 0 false).retire x) else .next s

end Sys2Proof.Machine
end

