-- ==== Sys2Proof/Machine/MemInstr.lean ====
section
/-! DEFINITION. Loads, stores, escorted loads, atomics, hop-engine walks, fences, the asynchronous copy, streams,
gather and scatter (R176 to R207), with the base loads and stores (R67). -/

namespace Sys2Proof.Machine

/-- A plain access (R173). -/
def plainOrd : MOrd := ⟨false, false, .l⟩

/-! ### Loads and stores -/

def execLd (x : XHead) (hint : BitVec 2) (o : MOrd) (fmt : LdFmt) (d a : Opd) (off : AddrOff) (s : State) : Out :=
  loadOp x true hint o fmt d a off s
def execSt (x : XHead) (_hint : BitVec 2) (o : MOrd) (fmt : StFmt) (a : Opd) (off : AddrOff) (c : Opd) (s : State) : Out :=
  storeOp x o fmt a off c s

def baseLoad (stl : BitVec 3) (hint : BitVec 2) (w : Wid) (d a : BitVec 7) (disp : BaseDisp) (s : State) : Out :=
  loadOp (baseHead stl) true hint plainOrd (.raw w false) (vOpd d) (vOpd a) (baseDisp w.bytes disp) s
def baseStore (stl : BitVec 3) (w : Wid) (d a : BitVec 7) (disp : BaseDisp) (s : State) : Out :=
  storeOp (baseHead stl) plainOrd (.raw w) (vOpd a) (baseDisp w.bytes disp) (vOpd d) s

def execLd32 (stl : BitVec 3) (d a : BitVec 7) (disp : BaseDisp) (s : State) : Out := baseLoad stl 0 .w32 d a disp s
def execLd64 (stl : BitVec 3) (d a : BitVec 7) (disp : BaseDisp) (s : State) : Out := baseLoad stl 0 .w64 d a disp s
def execLd128 (stl : BitVec 3) (d a : BitVec 7) (disp : BaseDisp) (s : State) : Out := baseLoad stl 0 .w128 d a disp s
def execSt32 (stl : BitVec 3) (d a : BitVec 7) (disp : BaseDisp) (s : State) : Out := baseStore stl .w32 d a disp s
def execSt64 (stl : BitVec 3) (d a : BitVec 7) (disp : BaseDisp) (s : State) : Out := baseStore stl .w64 d a disp s
def execSt128 (stl : BitVec 3) (d a : BitVec 7) (disp : BaseDisp) (s : State) : Out := baseStore stl .w128 d a disp s
def execLd32Ro (stl : BitVec 3) (d a : BitVec 7) (disp : BaseDisp) (s : State) : Out := baseLoad stl 1 .w32 d a disp s
def execLd128Ro (stl : BitVec 3) (d a : BitVec 7) (disp : BaseDisp) (s : State) : Out := baseLoad stl 1 .w128 d a disp s

/-! ### Escorted loads and atomics -/

/-- The part of an escortable access that all share: the decision, the request, the faults of its accesses and, before them,
of its ports (R181 to R183, R188, R202). Answers the request, if one was sent. -/
def State.escIssue (s : State) (act : List Nat) (e : EscSet) (rp : BitVec 3) (dreg dcnt : Nat) (addrs : List Dword) (line : Nat → Nat)
    (path : Nat → Hold) (bad early : List (Nat × Flt)) (late : Option Nat) : Option Nat × State :=
  let ok := s.escAccepts act e addrs
  let s1 := s.pushRp act e rp ok
  let at_ (fs : List (Nat × Flt)) : List LaneFlt := fs.map fun f => (Team_homeOf s.ct s.cur.who f.1, f.2)
  if ok then
    let r := s1.escSend e act dreg dcnt line path
    (some r.1, (r.2.escFaulted r.1 (at_ bad)).escEarly r.1 (at_ early))
  else (none, match late with
    | some key => s1.capPark key (early ++ bad) (bad.length < act.length)
    | none => s1.parkFailed (early ++ bad) {})

/-- Line that a position asks for (R223). -/
def lineAt (ok : List (Nat × Dword × Acc)) (L : Nat) : Nat :=
  match ok.find? fun r => r.1 = L with
  | some (_, _, ⟨.glob pa, _⟩) => lineOf pa
  | _ => 0

def pathOf (ok : List (Nat × Dword × Acc)) (L : Nat) : Hold :=
  match ok.find? fun r => r.1 = L with
  | some r => accSlice r.2.2
  | none => .slice 0

/-- `LDE` (R190, R191): with no escort set, the plain load of its width. -/
def execLde (x : XHead) (hint : BitVec 2) (o : MOrd) (w : Wid) (d : BitVec 7) (a : Opd) (off : AddrOff) (rp : BitVec 3)
    (e : EscSet) (s : State) : Out :=
  if e.cnt = 0 then loadOp x false hint o (.raw w false) (vOpd d) a off s
  else
    let p := s.pullPorts (portsOf (offPorts off)) (s.active x)
    let n := w.bytes
    let chk := p.2.2.checkAll (p.2.1.map fun L => (L, s.addrOf a off L)) n n kRead false
    let ok := passed chk.1
    let r := chk.2.escIssue p.2.1 e rp d.toNat w.regs (p.2.1.map (s.addrOf a off)) (lineAt ok) (pathOf ok) (failed chk.1) p.1 none
    let s1 := (ok.filter fun q => !(r.2.cth q.1).gone).foldl (fun s' q =>
      match r.1 with
      | some req => s'.startLoad q.1 q.2.2 o hint (.raw w false) (.esc req (laneKey (Team_homeOf s.ct s.cur.who q.1)) 0) r.2.nextId
      | none =>
        let (id, s2) := s'.loadPend (ldShape (.raw w false) (vOpd d)) q.1
        s2.startLoad q.1 q.2.2 o hint (.raw w false) (.pend id 0) r.2.nextId) r.2
    .next (s1.retire x)

/-- Starts the atomics of one instruction: one access per word, its lanes in ascending home lane, after the overlapping
accesses of every one of them (R121, R192). -/
def State.startAtoms (s : State) (o : MOrd) (op : Aop) (ty : Ty) (ps : List (Nat × Space × Tgt × Dword × Dword)) : State :=
  let n := if ty.wide then 8 else 4
  let words := ps.foldl (fun (acc : List (Nat × Space)) p => if acc.any fun q => q.2 = p.2.1 then acc else acc ++ [(p.1, p.2.1)]) []
  let first := s.nextId
  words.foldl (fun s w =>
    let (id, s1) := s.fresh
    let mine := ps.filter fun p => p.2.1 = w.2
    let f := s1.mkFlight id w.1 o w.2 n (.atomic op ty (mine.map fun p => p.2.2)) 0 first true
    let hs := mine.map fun p => Team_homeOf s.ct s.cur.who p.1
    s1.start { f with
      peers := hs, floor := hs.foldl (fun m h => max m (s.programFloor s.cur.team h.1 h.2 w.2 n)) f.floor,
      after := f.after ++ hs.flatMap fun h => (s.programAfter s.cur.team h.1 h.2 w.2 n).filter fun i => decide (i < first) }) s

/-- `ATOM` (R190, R192). -/
def execAtom (x : XHead) (_hint : BitVec 2) (o : MOrd) (op : Aop) (ty : Ty) (d : BitVec 7) (a : Opd) (b : OpdB) (c : Opd)
    (rp : BitVec 3) (e : EscSet) (s : State) : Out :=
  let p := s.pullPorts (portsOf [b, .reg c]) (s.active x)
  let n := if ty.wide then 8 else 4
  let chk := p.2.2.checkAll (p.2.1.map fun L => (L, s.reg2 a L)) n n kAtomic false
  let ok := passed chk.1
  let r := chk.2.escIssue p.2.1 e rp d.toNat ty.regs (p.2.1.map (s.reg2 a)) (lineAt ok) (pathOf ok) (failed chk.1) p.1 none
  let go := s.byHome (fun q : Nat × Dword × Acc => q.1) (ok.filter fun q => !(r.2.cth q.1).gone)
  let mk := go.foldl (fun (acc : List (Nat × Space × Tgt × Dword × Dword) × State) q =>
    let key := laneKey (Team_homeOf s.ct s.cur.who q.1)
    let bv := s.srcTy ty.wide b q.1
    let cv := s.srcTy ty.wide (.reg c) q.1
    match r.1 with
    | some req => (acc.1 ++ [(q.1, q.2.2.space, .esc req key 0, bv, cv)], acc.2)
    | none =>
      let (id, s2) := acc.2.loadPend ⟨vOpd d, ty.regs, ty.regs, .words⟩ q.1
      (acc.1 ++ [(q.1, q.2.2.space, .pend id 0, bv, cv)], s2)) ([], r.2)
  .next ((mk.2.startAtoms o op ty mk.1).retire x)

/-- `RED` (R190, R192). -/
def execRed (x : XHead) (_hint : BitVec 2) (o : MOrd) (op : Aop) (ty : Ty) (a : Opd) (b : OpdB) (s : State) : Out :=
  let p := s.pullPorts (portsOf [b]) (s.active x)
  let n := if ty.wide then 8 else 4
  let chk := p.2.2.checkAll (p.2.1.map fun L => (L, s.reg2 a L)) n n kAtomic false
  let s1 := chk.2.parkFailed (p.1 ++ failed chk.1) {}
  let go := s.byHome (fun q : Nat × Dword × Acc => q.1) ((passed chk.1).filter fun q => !(s1.cth q.1).gone)
  .next ((s1.startAtoms o op ty (go.map fun q => (q.1, q.2.2.space, Tgt.none, s.srcTy ty.wide b q.1, 0))).retire x)

/-! ### Hop-engine walks -/

/-- The places where the start nodes' homes are, when they translate. -/
def State.slicesAt (s : State) (act : List Nat) (va : Nat → Dword) (L : Nat) : Hold :=
  if act.contains L then
    match (s.globAcc s.cur.core s.cw (va L) kRead false).1 with
    | .ok ⟨.glob pa, _⟩ => .slice (homeSlice pa)
    | _ => .slice 0
  else .slice 0

/-- The line of an address, when it translates. -/
def State.lineFor (s : State) (va : Nat → Dword) (L : Nat) : Nat :=
  match (s.globAcc s.cur.core s.cw (va L) kRead false).1 with
  | .ok ⟨.glob pa, _⟩ => lineOf pa
  | _ => 0

/-- `CHS` (R193 to R195): each active lane's walk begins; its escort travels, or, refused, its registers wait for the
results. What its hops come after is looked at as each of them reads. -/
def execChs (x : XHead) (_hint : BitVec 2) (d : BitVec 7) (a : Opd) (b : OpdB) (rp : BitVec 3) (e : EscSet) (s : State) : Out :=
  let p := s.takePorts (portsOf [b]) (s.active x)
  let act := p.1
  let r := p.2.escIssue act e rp d.toNat 2 (act.map (s.reg2 a)) (s.lineFor (s.reg2 a)) (s.slicesAt act (s.reg2 a)) [] [] none
  let s1 := act.foldl (fun s' L =>
    let h := Team_homeOf s.ct s.cur.who L
    let ws := (List.range e.cnt.toNat).map fun k => (s.cth L).getV (e.base.toNat + k)
    let mk (s' : State) (esc : Option (Nat × Nat)) (dP : Nat) (eP : List Nat) : State :=
      let (id, s2) := s'.fresh
      let w : Walk :=
        { id := id, team := s.cur.team, who := s.cur.who, grp := h.1, lane := h.2, world := s.cw, launch := s.ct.launch,
          core := s.cur.core, desc := s.src1 b L, start := s.reg2 a L, node := s.reg2 a L, hops := 0, e := ws, esc := esc,
          dPend := dP, ePends := eP, floor := s.cg.floor, after := s.cg.acqs.map (·.1),
          pc := s.cur.pc, len := s.cur.len, word := s.cur.word, issue := s.nextId }
      { s2 with walks := s2.walks ++ [w] }
    match r.1 with
    | some req => mk s' (some (req, laneKey h)) 0 []
    | none =>
      let (dp, s2) := s'.addPend fun id => s.mkPend L 0 d.toNat 2 2 id
      let ep := (List.range e.cnt.toNat).foldl (fun (acc : List Nat × State) k =>
        let (id, s3) := acc.2.addPend fun id => s.mkPend L 0 (e.base.toNat + k) 1 1 id
        (acc.1 ++ [id], s3)) ([], s2)
      mk ep.2 none dp ep.1) r.2
  .next (s1.retire x)

/-! ### Fences -/

/-- `FNC` (R124, R196): the token waits for every covered time. -/
def execFnc (x : XHead) (_hint : BitVec 2) (sc : Scope) (gd : Opd) (s : State) : Out :=
  if s.active x = [] then .next (s.retire x)
  else
    let y := sc = .y
    let waits := s.covered s.cur.team s.cur.who y
    let known := s.knownT s.cur.team s.cur.who y
    let (pid, s1) := s.pendTok gd
    let (id, s2) := s1.fresh
    -- with no access covered, the GTC at issue
    let f : Fence :=
      if waits = [] && known = 0 then { id := id, team := s.cur.team, who := s.cur.who, pend := pid, waits := [], latest := s.gtc, y := false }
      else { id := id, team := s.cur.team, who := s.cur.who, pend := pid, waits := waits, latest := known, y := y }
    .next ({ s2 with fences := s2.fences ++ [f] }.retire x)

/-- A token is reached: (GTC[31:0] - g) mod 2^32 < 2^31 (R125). -/
def tokReached (gtc tok : Word) : Bool := (gtc - tok).toNat < 2 ^ 31

/-- `WAITF` (R125, R196). -/
def execWaitf (x : XHead) (_hint : BitVec 2) (ga : Opd) (s : State) : Out :=
  let blk := (s.active x).filter fun L => !tokReached s.gtc32 (s.reg1 ga L)
  let s1 := s.modCt fun t => blk.foldl (fun t L => t.modThreadAt s.cur.who L fun th => { th with st := .tok (s.reg1 ga L) }) t
  .next (s1.retire x)

/-! ### Asynchronous copy -/

/-- Pages of 64 KiB that a region touches: the first address of the region in each. -/
def pageStarts (base : Dword) (n : Nat) : List Dword :=
  if n = 0 then []
  else
    let b := base.toNat
    (List.range ((b + n - 1) / 65536 - b / 65536 + 1)).map fun i => w64 (max b ((b / 65536 + i) * 65536))

/-- A region that R198 step 1 does not allow. One that begins in global space and would reach into the stack window is
judged by its first byte, since the rule names regions by where they lie: DESIGN CHOICE (log 39). -/
def regionBad (scratch : Nat) (base : Dword) (n : Nat) : Bool :=
  match aperOf base with
  | .stk => true
  | .scr => base.toNat % 2 ^ 48 + n > scratch
  | .glob => false

def regionsMeet (p q : Dword) (n : Nat) : Bool :=
  aperOf p = aperOf q && decide (p.toNat < q.toNat + n) && decide (q.toNat < p.toNat + n)

/-- Translates the pages of a region (R198 step 3): faults, or the 32-byte sectors' places. A formatted page raises the
format fault: DESIGN CHOICE (log 37), since no rule says how the copy would take a record apart. -/
def State.regionWalk (s : State) (base : Dword) (n kind : Nat) : List Flt × List (Dword × Acc) × State :=
  (pageStarts base n).foldl (fun (acc : List Flt × List (Dword × Acc) × State) va =>
    let r := acc.2.2.access acc.2.2.cur.core acc.2.2.cur.team 0 0 va 32 32 kind false
    match r.1 with
    | .ok a => (acc.1, acc.2.1 ++ [(va, a)], r.2)
    | .error f => (acc.1 ++ [f], acc.2.1, r.2)) ([], [], s)

def spaceAdd (sp : Space) (k : Nat) : Space :=
  match sp with
  | .glob pa => .glob (pa + k)
  | .scr o => .scr (o + k)
  | .stk pa => .stk (pa + k)

/-- Reads of many lines, and of the scratchpad, by the instruction in hand have performed now (R117, R333). -/
def State.readMany (s : State) : State := s.serve [manyKey, 2 ^ 48 + s.cur.team] s.cur.core s.nextId true

/-- Places of consecutive 32-byte sectors of a region whose pages are known. -/
def sectorPlaces (pages : List (Dword × Acc)) (base : Dword) (n : Nat) : List Space :=
  (List.range (n / 32)).map fun i =>
    let va := base.toNat + 32 * i
    match pages.find? fun p => p.1.toNat / 65536 = va / 65536 with
    | some p => spaceAdd p.2.space (va - p.1.toNat)
    | none => .scr 0

def globLines (sps : List Space) : List Nat :=
  sps.foldl (fun acc sp => match sp with | .glob pa => insertNat acc (lineOf pa) | _ => acc) []

/-- Pages a region's global part pins. -/
def pinsOf (pages : List (Dword × Acc)) : List Nat :=
  (pages.filter fun p => match p.2.space with | .glob _ => true | _ => false).map fun p => p.1.toNat % 2 ^ 56 / 65536

/-- Names, and whatever the accesses they name wait for. -/
def State.withDeps (s : State) (ids : List Nat) (fuel : Nat) : List Nat :=
  match fuel with
  | 0 => ids
  | fuel + 1 =>
    let more := ((s.flights.filter fun f => ids.contains f.id).flatMap (·.after) ++
      (s.walks.filter fun f => ids.contains f.id).flatMap (·.after) ++
      (s.probes.filter fun f => ids.contains f.id).flatMap (·.after)).filter fun id => !ids.contains id
    if more = [] then ids else s.withDeps (more.foldl insertNat ids) fuel

/-- Threads of some positions of the issuer. -/
def State.lanesOf (s : State) (act : List Nat) : List (Nat × Nat) := act.map fun L => Team_homeOf s.ct s.cur.who L

/-- What an engine of some of the issuer's threads comes after (R121, R126): acquires; what they did before that touches the
same bytes, or whose addresses are not known; and what those wait for, so that nothing the engine waits for waits for the
engine's lines. -/
def State.beforeEngine (s : State) (hs : List (Nat × Nat)) (sps : List (Space × Nat)) : List Nat :=
  s.withDeps (s.cg.acqs.map (·.1) ++ s.threadsBefore s.cur.team s.nameLim hs sps)
    (s.flights.length + s.walks.length + s.probes.length)

/-- The time before which none of an engine's accesses acts (R121, R126). -/
def State.engineFloor (s : State) (hs : List (Nat × Nat)) (sps : List (Space × Nat)) : Nat :=
  max s.cg.floor (s.threadsFloor s.cur.team s.nameLim hs sps)

/-- Starts an engine of some of the issuer's threads. -/
def State.addEngine (s : State) (hs : List (Nat × Nat)) (k : EngKind) (pend : Option Nat) (lines pins : List Nat) : Nat × State :=
  let (id, s1) := s.fresh
  let sps := EngKind_spaces k
  let e : Engine :=
    { id := id, team := s.cur.team, who := s.cur.who, launch := s.ct.launch, world := s.cw, core := s.cur.core, kind := k,
      pend := pend, lines := lines, pins := pins, floor := s.engineFloor hs sps, after := s.beforeEngine hs sps, lanes := hs }
  (id, { s1 with engines := s1.engines ++ [e] })

/-- Every active lane of the path parks for a fault of a region they share (R215). -/
def State.parkAll (s : State) (act : List Nat) (fs : List Flt) : State :=
  s.takeFault s.cur (fs.flatMap fun f => (s.lanesOf act).map fun h => (h, f)) { probe := some (s.lanesOf act) }

/-- A token known at issue. -/
def State.tokNow (s : State) (gd : Opd) : State :=
  (s.addPend fun id => { s.mkPend 0 (clsCode gd.cls) gd.no.toNat 1 1 id with vals := [some s.gtc32], tok := some s.gtc }).2

/-- `ACP` (R197 to R199): the checks in their order, then the copy. -/
def execAcp (x : XHead) (_hint : BitVec 2) (gd a : Opd) (b : OpdB) (c : Opd) (s : State) : Out :=
  let act := s.active x
  let dst := s.reg2 a 0
  let src := s.src2 b 0
  let n := (s.reg1 c 0).toNat
  let scratch := (s.hdrOf s.ct).scratch
  let park (fs : List Flt) (s' : State) : Out := .next ((s'.parkAll act fs).retire x)
  if act = [] then .next (s.retire x)
  else if n = 0 then .next ((s.tokNow gd).retire x)
  else if regionBad scratch dst n || regionBad scratch src n || regionsMeet dst src n then .next (s.killCur eBnds)
  else if dst.toNat % 32 ≠ 0 then park [⟨9, kWrite, dst, 0⟩] s
  else if src.toNat % 32 ≠ 0 then park [⟨9, kRead, src, 0⟩] s
  else if n > 2 ^ 24 || n % 32 ≠ 0 then park [⟨9, kWrite, dst, 0⟩] s
  else
    let rs := s.regionWalk src n kRead
    let rd := rs.2.2.regionWalk dst n kWrite
    if rs.1 ≠ [] || rd.1 ≠ [] then park (rs.1 ++ rd.1) rd.2.2
    else
      let dsts := sectorPlaces rd.2.1 dst n
      let srcs := sectorPlaces rs.2.1 src n
      let (pid, s0) := rd.2.2.pendTok gd
      let s1 : State := { s0 with pends := mapIf s0.pends (fun p => p.id = pid) fun p => { p with acp := true } }
      let (_, s2) := s1.addEngine (s.lanesOf act) (.acp (dsts.zip srcs)) (some pid) (globLines dsts) (pinsOf rd.2.1 ++ pinsOf rs.2.1)
      .next (s2.retire x)

/-! ### Streams -/

/-- A stream as its instruction configures it for every position, lanes of other paths and inactive ones too, of which R201
does not speak: DESIGN CHOICE (log 39). -/
def State.mkStream (s : State) (ind : Bool) (lsh : Nat) (lon : Bool) (sc : Nat) (a : Opd) (b : OpdB) (c : Opd) : Stream :=
  let ls := List.range 32
  -- the lead thread's one value stands for every lane
  let at_ (L : Nat) : Nat := if s.isLead then 0 else L
  { active := true, ind := ind, lsh := lsh, lon := lon, sc := sc,
    a := ls.foldl (fun t L => tabSet t L (s.reg2 a (at_ L)) 0) [],
    b := if ind then ls.foldl (fun t L => tabSet t L (s.src2 b (at_ L)) 0) [] else [],
    stride := if ind then [] else ls.foldl (fun t L => tabSet t L (s.src1 b (at_ L)) 0) [],
    count := ls.foldl (fun t L => tabSet t L (s.reg1 c (at_ L)).toNat 0) [] }

/-- A group's stream register is configured anew, under a name; its loads come after what its lanes did before (R121, R126,
R202). -/
def Group_configure (k id : Nat) (x : Stream) (g : Group) : Group :=
  g.setStream k { x with cfg := id, floor := g.floor, acqs := g.acqs ≠ [] }

/-- Replaces a stream register of the issuer, or of every group in the lead slice (R200). -/
def State.putStream (s : State) (k : Nat) (x : Stream) : State :=
  let (id, s1) := s.fresh
  if s.isLead then s1.modCt fun t => { t with groups := t.groups.map fun g => if g.exited then g else Group_configure k id x g }
  else s1.modCg (Group_configure k id x)

def execSraff (x : XHead) (hint : BitVec 2) (k lsh : BitVec 4) (lon : Bool) (a : Opd) (b : OpdB) (c : Opd) (s : State) : Out :=
  let p := s.takePorts (portsOf [b, .reg c]) (s.active x)
  if p.1 = [] then .next (p.2.retire x)
  else .next ((p.2.putStream k.toNat { s.mkStream false lsh.toNat lon 0 a b c with hint := hint.toNat }).retire x)

def execSrind (x : XHead) (hint : BitVec 2) (k lsh : BitVec 4) (lon : Bool) (sc : BitVec 3) (a : Opd) (b : OpdB) (c : Opd) (s : State) : Out :=
  let p := s.takePorts (portsOf [.reg c]) (s.active x)
  if p.1 = [] then .next (p.2.retire x)
  else .next ((p.2.putStream k.toNat { s.mkStream true lsh.toNat lon sc.toNat a b c with hint := hint.toNat }).retire x)

/-- Pages that places pin: those that translate their addresses, in the stack window too; the scratchpad has none (R100,
R203, R206). -/
def accPins (as : List Acc) : List Nat := as.filterMap fun a => match a.space, a.ent with
  | .glob pa, some e => some ((e.base * 2 ^ e.bits + (pa - e.pa)) / 65536)
  | .stk pa, some e => some ((e.base * 2 ^ e.bits + (pa - e.pa)) / 65536)
  | _, _ => none

/-- The index word of an element of a stream. -/
def idxVa (x : Stream) (home : Nat × Nat) (L i : Nat) : Dword := tabGet x.b L 0 + w64 (4 * i) + w64 (laneTerm x home)

/-- The page of a place, or of a global address that faults. -/
def pinsAt (va : Dword) (r : Except Flt Acc) : List Nat :=
  match r with
  | .ok a => accPins [a]
  | .error _ => if aperOf va = .glob then [va.toNat % 2 ^ 56 / 65536] else []

/-- Remaining elements of a lane: index words' and elements' pages, and faults (R203). -/
def State.probeLane (s : State) (x : Stream) (L : Nat) : List Nat × List Flt × State :=
  let home := Team_homeOf s.ct s.cur.who L
  let c := Stream_cursor x L
  let look (s : State) (va : Dword) : Except Flt Acc × State := s.access s.cur.core s.cur.team home.1 home.2 va 4 4 kRead false
  (List.range (tabGet x.count L 0 - c)).foldl (fun (acc : List Nat × List Flt × State) j =>
    let i := c + j
    let idx := if x.ind then pinsAt (idxVa x home L i) (look acc.2.2 (idxVa x home L i)).1 else []
    let r := acc.2.2.elemAddr s.cur.team home x L i
    match r.1 with
    | .error f => (idx.foldl insertNat acc.1, acc.2.1 ++ [f], r.2)
    | .ok va =>
      let q := look r.2 va
      let fl := match q.1 with
        | .ok _ => []
        | .error f => [f]
      ((pinsAt va q.1 ++ idx).foldl insertNat acc.1, acc.2.1 ++ fl, q.2)) ([], [], s)

/-- Index words that a probe of a stream reads. -/
def State.probeWords (s : State) (x : Stream) : List (Space × Nat) :=
  if x.ind then
    ((Team_alive s.ct s.cur.who).filter fun L => Stream_live x L).flatMap fun L =>
      let home := Team_homeOf s.ct s.cur.who L
      (List.range (tabGet x.count L 0 - Stream_cursor x L)).filterMap fun j =>
        match (s.access s.cur.core s.cur.team home.1 home.2 (idxVa x home L (Stream_cursor x L + j)) 4 4 kRead false).1 with
        | .ok a => some (a.space, 4)
        | .error _ => none
  else []

/-- `SRPRB` (R203). Of a stream that is not active it gives true and pins nothing, since the rule speaks of active ones:
DESIGN CHOICE (log 39). -/
def execSrprb (x : XHead) (_hint : BitVec 2) (k : BitVec 4) (rp : BitVec 3) (s : State) : Out :=
  let act := s.active x
  let st := s.cg.stream k.toNat
  if act = [] then .next (s.retire x)
  else
    let alive := (Team_alive s.ct s.cur.who).filter fun L => Stream_live st L
    let r := alive.foldl (fun (acc : List Nat × List (Nat × Flt) × State) L =>
      let q := acc.2.2.probeLane st L
      (q.1.foldl insertNat acc.1, acc.2.1 ++ q.2.1.map (fun f => (L, f)), q.2.2)) ([], [], s)
    if r.1.length > 512 then .next ((r.2.2.pendPred act rp false fun _ => false).retire x)
    else if r.2.1 ≠ [] then
      let hs := act.map fun L => Team_homeOf s.ct s.cur.who L
      .next ((r.2.2.takeFault s.cur (r.2.1.map fun f => (Team_homeOf s.ct s.cur.who f.1, f.2)) { probe := some hs }).retire x)
    else
      .next (((r.2.2.modCg fun g => g.setStream k.toNat { st with pins := r.1 }).pendPred act rp false fun _ => true).retire x)

/-- `SRSTOP` (R204). -/
def execSrstop (x : XHead) (_hint : BitVec 2) (k : BitVec 4) (s : State) : Out :=
  if s.active x = [] then .next (s.retire x) else .next ((s.putStream k.toNat {}).retire x)

/-! ### Gather and scatter -/

/-- Every lane's bases and sources as read at issue (R58, R205). -/
def State.probeLanes (s : State) (act : List Nat) (a : Opd) (b : OpdB) (c cnt : Nat) : List PLane :=
  act.map fun L =>
    let h := Team_homeOf s.ct s.cur.who L
    { pos := L, grp := h.1, lane := h.2, a := s.reg2 a L, b := s.src2 b L,
      src := (List.range cnt).map fun j => (s.cth L).getV (c + j) }

/-- K, SC, kind and what is done of a gather or scatter. -/
def probeShape (i : Instr) : Nat × Nat × Nat :=
  match i with
  | .gath _ _ k sc .. => (k.toNat + 1, sc.toNat, kRead)
  | .scat _ _ k sc .. => (k.toNat + 1, sc.toNat, kWrite)
  | .scatAdd _ _ _ k sc .. => (k.toNat + 1, sc.toNat, kAtomic)
  | _ => (0, 0, kRead)

/-- The place of an index word of a lane. -/
def State.probeIndex (s : State) (p : Probe) (x : PLane) (j : Nat) : Except Flt Acc × State :=
  s.access p.core p.team x.grp x.lane (x.b + w64 (4 * j)) 4 4 kRead false

/-- One element of a lane: its place, or the fault of its index or of itself. A formatted page raises the format fault:
DESIGN CHOICE (log 37). -/
def State.probeElem (s : State) (p : Probe) (x : PLane) (sc kind j : Nat) : Except Flt Acc × State :=
  match s.probeIndex p x j with
  | (.error f, s1) => (.error f, s1)
  | (.ok a, s1) =>
    let i := w32 (leNat (s1.spaceBytes p.core p.team a.space 4))
    s1.access p.core p.team x.grp x.lane (x.a + (zext32 i <<< sc)) 4 4 kind false

/-- Every element of a lane. -/
def State.probeLaneAll (s : State) (p : Probe) (x : PLane) (k sc kind : Nat) : List (Except Flt Acc) × State :=
  (List.range k).foldl (fun (acc : List (Except Flt Acc) × State) j =>
    let r := acc.2.probeElem p x sc kind j
    (acc.1 ++ [r.1], r.2)) ([], s)

def okAccs (l : List (Except Flt Acc)) : List Acc := l.filterMap fun r => match r with
  | .ok a => some a
  | .error _ => none

/-- Places of a probe's elements with the index words as they read now. -/
def State.elemSpaces (s : State) (p : Probe) : List Space :=
  let sh := probeShape p.instr
  p.lanes.flatMap fun x => (okAccs (s.probeLaneAll p x sh.1 sh.2.1 sh.2.2).1).map (·.space)

/-- Places of a probe's index words. -/
def State.indexAccs (s : State) (p : Probe) : List Acc :=
  p.lanes.flatMap fun x => okAccs ((List.range (probeShape p.instr).1).map fun j => (s.probeIndex p x j).1)

/-- Every place that a probe's instruction touches. -/
def State.probeSpaces (s : State) (p : Probe) : List (Space × Nat) :=
  ((s.indexAccs p).map (·.space) ++ s.elemSpaces p).map fun sp => (sp, 4)

/-- Global lines a scatter would write with the index words as they read now: an engine takes them at issue (R127). -/
def State.scatLines (s : State) (p : Probe) : List Nat :=
  match p.instr with
  | .gath .. => []
  | _ => globLines (s.elemSpaces p)

/-- The instruction enters its probe pass (R206); a scatter owns its lines from here on (R127). -/
def State.addProbe (s : State) (i : Instr) (lanes : List PLane) (pends : List Nat) (req : Option Nat) : State :=
  let (id, s1) := s.fresh
  let p : Probe :=
    { id := id, team := s.cur.team, who := s.cur.who, launch := s.ct.launch, world := s.cw, core := s.cur.core, instr := i,
      pc := s.cur.pc, len := s.cur.len, word := s.cur.word, lanes := lanes, pends := pends, req := req, floor := 0,
      after := [], lines := [] }
  let sps := s.probeSpaces p
  let hs := lanes.map fun x => (x.grp, x.lane)
  { s1 with probes := s1.probes ++ [{ p with
      lines := s.scatLines p, floor := s.engineFloor hs sps, after := s.beforeEngine hs sps }] }

/-- `GATH` (R205 to R207): its destinations are abroad, escorted or not. -/
def execGath (x : XHead) (hint : BitVec 2) (km1 : BitVec 4) (sc : BitVec 3) (d : BitVec 7) (a : Opd) (b : OpdB) (rp : BitVec 3)
    (e : EscSet) (s : State) : Out :=
  let act := s.active x
  let k := km1.toNat + 1
  if act = [] then .next (s.retire x)
  else
    let r := s.escIssue act e rp d.toNat k (act.map (s.reg2 a) ++ act.map (s.src2 b)) (s.lineFor (s.src2 b)) (s.slicesAt act (s.src2 b)) [] [] none
    let q := match r.1 with
      | some _ => ([], r.2)
      | none => act.foldl (fun (acc : List Nat × State) L =>
          let (id, s2) := acc.2.addPend fun id => { s.mkPend L 0 d.toNat k k id with
            abroad := true, issue := r.2.nextId, peers := act.map fun L => Team_homeOf s.ct s.cur.who L }
          (acc.1 ++ [id], s2)) ([], r.2)
    .next ((q.2.addProbe (.gath x hint km1 sc d a b rp e) (s.probeLanes act a b 0 0) q.1 r.1).retire x)

def execScat (x : XHead) (hint : BitVec 2) (km1 : BitVec 4) (sc : BitVec 3) (a : Opd) (b : OpdB) (c : BitVec 7) (s : State) : Out :=
  let act := s.active x
  if act = [] then .next (s.retire x)
  else .next ((s.addProbe (.scat x hint km1 sc a b c) (s.probeLanes act a b c.toNat (km1.toNat + 1)) [] none).retire x)

def execScatAdd (x : XHead) (hint : BitVec 2) (ty : Ty) (km1 : BitVec 4) (sc : BitVec 3) (a : Opd) (b : OpdB) (c : BitVec 7) (s : State) : Out :=
  let act := s.active x
  if act = [] then .next (s.retire x)
  else .next ((s.addProbe (.scatAdd x hint ty km1 sc a b c) (s.probeLanes act a b c.toNat (km1.toNat + 1)) [] none).retire x)

end Sys2Proof.Machine
end

