-- ==== Sys2Proof/Machine/Matrix.lean ====
section
/-! DEFINITION. Matrix engine and tile cutter (R262 to R283). A tile changes when its instruction issues, in issue
order, which is tile order (R264); the engine that carries the operation out stays until its completion, which the
watermark and the readers wait for (R265). -/

namespace Sys2Proof.Machine

/-! ### Tiles and tile order -/

/-- Active quarters (R262). -/
def State.quarters (s : State) (act : List Nat) : List Nat :=
  (List.range 4).filter fun q => (s.isLead && act ≠ []) || act.any fun L => L / 8 = q

def quarterRows (qs : List Nat) : List Nat := qs.flatMap fun q => (List.range 8).map fun i => 8 * q + i

/-- Takes a place in tile order as a writer (R264). -/
def State.tileOp (s : State) (md : Nat) (rows : Word) (due : Nat) : State :=
  ((s.addEngine [] (.tile [md] rows due) none [] []).2).wmUpdate s.cur.team [md]

/-- An engine's operation on tiles completes in a cycle: its rows are final for what follows (R265). -/
def State.tileDone (s : State) (id at_ : Nat) : State :=
  match s.engines.find? fun e => e.id = id with
  | some e =>
    match e.kind with
    | .tile ts _ _ => { s with engines := s.engines.filter fun x => decide (x.id ≠ id) }.wmUpdateAt at_ e.team ts
    | _ => s
  | none => s

/-- The cycle in which a write of registers or zeros is complete; 0 for what an engine carries out. -/
def EngKind_due (k : EngKind) : Nat :=
  match k with
  | .tile _ _ d => d
  | _ => 0

/-- Writes of registers or zeros that a team's cycle finds complete, each as of its own cycle (R275). -/
def State.tilesDue (s : State) (team : Nat) : State :=
  let now := s.cycle (s.team team).core
  let due := s.engines.filter fun e => decide (e.team = team) && decide (EngKind_due e.kind ≠ 0) && decide (EngKind_due e.kind ≤ now)
  (sortBy (fun e : Engine => EngKind_due e.kind) due).foldl (fun s e => s.tileDone e.id (EngKind_due e.kind)) s

/-- What the issuer's own accesses of this instruction performed by now (R269): fences cover them, and no store arrives at
a home any more at this GTC (R117). -/
def State.performedNow (s : State) : State :=
  s.readMany.settle 0 s.cur.team s.cur.who 0 s.ct.launch s.gtc false

/-! ### The probe and the gather unit's reads (R268, R269) -/

/-- Bytes of an element. -/
def elemSize (ty : Ty) : Nat := if ty = .f32 then 4 else if ty = .f16 || ty = .b16 then 2 else 1

/-- The page format that a type asks for (R269). -/
def fmtWant (ty : Ty) : Nat := if ty = .zb3 then 1 else if ty = .zb5 then 2 else if ty = .zb8 then 3 else 0

/-- One access of the probe: the format comes before permission (R92, R111). -/
def State.fmtAccess (s : State) (va : Dword) (kind want : Nat) : Except Flt Acc × State :=
  let r := s.access s.cur.core s.cur.team 0 0 va 1 1 kind (want ≠ 0)
  if want = 0 || aperOf va ≠ .glob || !canonical va then r
  else
    match (s.translate s.cur.core s.cw (va.toNat % 2 ^ 56)).1 with
    | .ok e => if e.fmt ≠ 0 && e.fmt ≠ want then (.error ⟨4, kind, va, 0⟩, r.2) else r
    | .error _ => r

/-- A region wholly outside what step 1 of the probe allows. -/
def State.regionKills (s : State) (r : Dword × Nat) : Bool := r.2 ≠ 0 && regionBad (s.hdrOf s.ct).scratch r.1 r.2

/-- Pages of regions: faults, and the first address met on each page with its place (R268 step 3). -/
def State.probePages (s : State) (rs : List (Dword × Nat)) (kind want : Nat) : List Flt × List (Dword × Acc) × State :=
  (rs.flatMap fun r => pageStarts r.1 r.2).foldl (fun (acc : List Flt × List (Dword × Acc) × State) va =>
    if acc.2.1.any fun p => p.1.toNat / 65536 = va.toNat / 65536 then acc
    else
      let r := acc.2.2.fmtAccess va kind want
      match r.1 with
      | .ok a => (acc.1, acc.2.1 ++ [(va, a)], r.2)
      | .error f => (acc.1 ++ [f], acc.2.1, r.2)) ([], [], s)

/-- Place of an address on a page whose place at another address is known. -/
def placeOn (p : Dword × Acc) (va : Dword) : Space :=
  let at_ (base : Nat) : Nat := base - p.1.toNat % 65536 + va.toNat % 65536
  match p.2.space with
  | .glob pa => .glob (at_ pa)
  | .scr o => .scr (at_ o)
  | .stk pa => .stk (at_ pa)

def pageOn (pages : List (Dword × Acc)) (va : Dword) : Option (Dword × Acc) :=
  pages.find? fun p => p.1.toNat / 65536 = va.toNat / 65536

/-- Bytes that do not cross a page. -/
def State.bytesOn (s : State) (pages : List (Dword × Acc)) (va : Dword) (n : Nat) : List Byte :=
  match pageOn pages va with
  | some p => s.spaceBytes s.cur.core s.cur.team (placeOn p va) n
  | none => List.replicate n 0

def State.wordOn (s : State) (pages : List (Dword × Acc)) (va : Dword) : Nat := leNat (s.bytesOn pages va 4)

/-- One element of a type, decoded, as an FP32 image (R77, R87, R269). -/
def State.elemOn (s : State) (pages : List (Dword × Acc)) (ty : Ty) (va : Dword) : Word :=
  if fmtWant ty = 0 then rnF32 ((fpFmt ty).dec (leNat (s.bytesOn pages va (elemSize ty))))
  else
    match pageOn pages va with
    | some (_, ⟨_, some e⟩) =>
      let q := elemPlace e va.toNat
      rnF32 ((zbParse ty (s.seen (some s.cw) s.cw q.1 (zbRec ty))).val ty q.2)
    | _ => 0

/-- Ends at a fault of step 2 or 3: every active lane parks, nothing changes (R268). -/
def State.probeFault (s : State) (x : XHead) (act : List Nat) (fs : List Flt) : Out := .next ((s.parkAll act fs).retire x)

/-! ### Tiles and registers (R275) -/

/-- Row and column of an index operand. -/
def rowCol (w : Word) : Nat × Nat := (w.toNat % 32, w.toNat / 256 % 16)

def execMzero (x : XHead) (md : BitVec 6) (s : State) : Out :=
  s.wholeGroup fun s =>
    if s.active x = [] then .next (s.retire x)
    else
      let s1 := s.modCt fun t => t.setTile md.toNat { t.tile md.toNat with c := [] }
      .next ((s1.tileOp md.toNat 0xFFFFFFFF (s.now + 1)).retire x)

/-- `MRD`: the value in tile order; the result waits until its row is final (R264, R265). -/
def execMrd (x : XHead) (d : Opd) (md : BitVec 6) (b : OpdB) (s : State) : Out :=
  s.wholeGroup fun s =>
    let p := s.takePorts (portsOf [b]) (s.active x)
    let lanes := if d.cls = .v then p.1 else p.1.getLast?.toList
    let s1 := lanes.foldl (fun s' L =>
      let rc := rowCol (s.src1 b L)
      (s'.addPend fun id => { s.mkPend L (clsCode d.cls) d.no.toNat 1 1 id with
        vals := [some ((s.ct.tile md.toNat).cell rc.1 rc.2)],
        tiles := s.tileWriters s.cur.team md.toNat (w32 (2 ^ rc.1)) }).2) p.2
    .next (s1.retire x)

def execMwr (x : XHead) (md : BitVec 6) (a : Opd) (b : OpdB) (s : State) : Out :=
  s.wholeGroup fun s =>
    let p := s.takePorts (portsOf [.reg a, b]) (s.active x)
    if p.1 = [] then .next (p.2.retire x)
    else
      let ls := s.byHome (fun L : Nat => L) p.1
      let s1 := p.2.modCt fun t => t.setTile md.toNat (ls.foldl (fun c L =>
        let rc := rowCol (s.src1 b L)
        c.setCell rc.1 rc.2 (s.reg1 a L)) (t.tile md.toNat))
      .next ((s1.tileOp md.toNat (maskOf (ls.map fun L => (rowCol (s.src1 b L)).1)) (s.now + 1)).retire x)

def execMwmk (x : XHead) (d : Opd) (md : BitVec 6) (s : State) : Out :=
  s.wholeGroup fun s =>
    .next ((s.pushRes latInt (s.active x) [] d fun _ => [w32 (Tile_wmAt (s.ct.tile md.toNat) s.now)]).retire x)

/-! ### Operand latches (R270 to R272) -/

def latchK (ty : Ty) : Nat := if ty = .f16 || ty = .b16 then 16 else 32

/-- `MLDB`: the load acts once for the path. -/
def execMldb (x : XHead) (ty : Ty) (bl : Bool) (a : Opd) (stride : BitVec 24) (s : State) : Out :=
  s.wholeGroup fun s =>
    let act := s.active x
    let base := s.reg2 a 0
    let k := latchK ty
    let row (r : Nat) : Dword := base + w64 (r * stride.toNat)
    let rs := (List.range k).map fun r => (row r, 16 * elemSize ty)
    if act = [] then .next (s.retire x)
    else if rs.any s.regionKills then .next (s.killCur eBnds)
    else if base.toNat % 16 ≠ 0 || stride.toNat % 16 ≠ 0 then s.probeFault x act [⟨9, kRead, base, 0⟩]
    else
      let p := s.probePages rs kRead (fmtWant ty)
      if p.1 ≠ [] then p.2.2.probeFault x act p.1
      else
        let e := (List.range (32 * k)).foldl (fun t i =>
          if i % 32 < 16 then tabSet t i (s.elemOn p.2.1 ty (row (i / 32) + w64 (i % 32 * elemSize ty))) 0 else t) ([] : Tab Word)
        let s1 := p.2.2.modCg fun g => { g with bl := tabSet g.bl (if bl then 1 else 0) { k := k, e := e } {} }
        .next (s1.performedNow.retire x)

/-- `MGATA`: a row of 32 bytes for each active lane. -/
def execMgata (x : XHead) (ty : Ty) (a : Opd) (b : OpdB) (stride : BitVec 24) (s : State) : Out :=
  s.wholeGroup fun s =>
    let act := s.active x
    let base := s.reg2 a 0
    let k := latchK ty
    let row (L : Nat) : Dword := base + zext32 (s.src1 b L) * w64 stride.toNat
    if act = [] then .next (s.retire x)
    else if act.any fun L => s.regionKills (row L, 32) then .next (s.killCur eBnds)
    else if base.toNat % 32 ≠ 0 || stride.toNat % 32 ≠ 0 then s.probeFault x act [⟨9, kRead, base, 0⟩]
    else
      let r := act.foldl (fun (acc : List (Nat × Flt) × List (Dword × Acc) × State) L =>
        let q := acc.2.2.probePages [(row L, 32)] kRead (fmtWant ty)
        (acc.1 ++ q.1.map (fun f => (L, f)), acc.2.1 ++ q.2.1, q.2.2)) ([], [], s)
      if r.1 ≠ [] then
        let hs := act.map fun L => Team_homeOf s.ct s.cur.who L
        .next ((r.2.2.takeFault s.cur (r.1.map fun f => (Team_homeOf s.ct s.cur.who f.1, f.2)) { probe := some hs }).retire x)
      else
        let latch (q : Nat) : Latch :=
          { k := k, e := (List.range 256).foldl (fun t i =>
              let L := 8 * q + i / 32
              if act.contains L && decide (i % 32 < k) then tabSet t i (s.elemOn r.2.1 ty (row L + w64 (i % 32 * elemSize ty))) 0
              else t) ([] : Tab Word) }
        let s1 := r.2.2.modCg fun g => { g with al := (s.quarters act).foldl (fun t q => tabSet t q (latch q) {}) g.al }
        .next (s1.performedNow.retire x)

/-! ### Quarter operations (R273, R281) -/

/-- One rounding of the exact sum, one of the addition (R97). -/
def macInto (c : Word) (ps : List (Word × Word)) : Word := addF32 c (rnF32 (dotVal ps))

/-- `MMQ`. -/
def execMmq (x : XHead) (md : BitVec 6) (bl : Bool) (s : State) : Out :=
  s.wholeGroup fun s =>
    let act := s.active x
    let qs := s.quarters act
    let bL := s.cg.latchB (if bl then 1 else 0)
    if act = [] then .next (s.retire x)
    else
      let s1 := s.modCt fun t => t.setTile md.toNat ((quarterRows qs).foldl (fun c r =>
        let aL := s.cg.latchA (r / 8)
        (List.range 16).foldl (fun c j =>
          c.setCell r j (macInto (c.cell r j) ((List.range bL.k).map fun k =>
            (tabGet aL.e (32 * (r % 8) + k) 0, tabGet bL.e (32 * k + j) 0)))) c) (t.tile md.toNat))
      .next ((s1.tileOp md.toNat (maskOf (quarterRows qs)) 0).retire x)

/-! ### Tile stores (R276, R277) -/

/-- Address of an element of a stored tile. -/
def mstAddr (qc : Bool) (base : Dword) (stride esize i j : Nat) : Dword :=
  if qc then base + w64 (i % 8 * stride + i / 8 * 16 * esize + j * esize)
  else base + w64 (i * stride + j * esize)

/-- Rounding of an element of `MST` to a type that is no ZB type. -/
def mstRule (m : MstMod) (phase i j : Nat) : RndRule :=
  if m.sr then .dither (i % 8 * 8 + j % 8 + phase) else .mode m.rm

/-- Writes of a plain destination: 16 bytes at a time, ascending (i, j). -/
def State.mstPlain (s : State) (ty : Ty) (m : MstMod) (tile : Tile) (pages : List (Dword × Acc)) (rows : List Nat)
    (addr : Nat → Nat → Dword) : List EWrite :=
  let es := elemSize ty
  let img (i j : Nat) : List Byte :=
    let w := tile.cell i j
    if ty = .f32 then leBytes 4 w.toNat
    else leBytes es ((fpFmt ty).enc (mstRule m s.cg.phase.toNat i j) false m.sat (f32 w))
  rows.flatMap fun i => (List.range es).flatMap fun c =>
    let j0 := c * (16 / es)
    match pageOn pages (addr i j0) with
    | some p => [⟨placeOn p (addr i j0), .store ((List.range (16 / es)).flatMap fun k => img i (j0 + k)), 16⟩]
    | none => []

/-- Writes of a formatted destination: one store for each block (R93). -/
def State.mstZb (s : State) (ty : Ty) (m : MstMod) (tile : Tile) (pages : List (Dword × Acc)) (rows : List Nat)
    (addr : Nat → Nat → Dword) : List EWrite :=
  let items : List (Nat × Nat × Word) := rows.flatMap fun i => (List.range 16).flatMap fun j =>
    match pageOn pages (addr i j) with
    | some (_, ⟨_, some e⟩) =>
      let q := elemPlace e (addr i j).toNat
      [(q.1, q.2, tile.cell i j)]
    | _ => []
  (keysOf (items.map (·.1))).map fun r =>
    ⟨.glob r, .estore (fmtWant ty) ((items.filter fun q => q.1 = r).map (·.2)) m.rm
      (if m.sr then some s.cg.phase.toNat else none) false, zbRec ty⟩

/-- `MST`. -/
def execMst (x : XHead) (ty : Ty) (m : MstMod) (gd a : Opd) (md : BitVec 6) (stride : BitVec 24) (s : State) : Out :=
  s.wholeGroup fun s =>
    let act := s.active x
    let base := s.reg2 a 0
    let es := elemSize ty
    let rows := quarterRows (s.quarters act)
    let addr := mstAddr m.qc base stride.toNat es
    let rs := rows.map fun i => (addr i 0, 16 * es)
    if act = [] then .next (s.retire x)
    else if rs.any s.regionKills then .next (s.killCur eBnds)
    else if base.toNat % 16 ≠ 0 || stride.toNat % 16 ≠ 0 then s.probeFault x act [⟨9, kWrite, base, 0⟩]
    else
      let p := s.probePages rs kWrite (fmtWant ty)
      if p.1 ≠ [] then p.2.2.probeFault x act p.1
      else
        let tile := s.ct.tile md.toNat
        let ws := if fmtWant ty = 0 then s.mstPlain ty m tile p.2.1 rows addr else s.mstZb ty m tile p.2.1 rows addr
        let lines := ws.foldl (fun acc w => match w.space with
          | .glob pa => (linesOf pa w.n).foldl insertNat acc
          | _ => acc) ([] : List Nat)
        let first := s.tileWriters s.cur.team md.toNat (maskOf rows)
        let (pid, s1) := p.2.2.pendTok gd
        let (_, s2) := s1.addEngine (s.lanesOf (s.ct.positions s.cur.who)) (.mst first ws) (some pid) lines (pinsOf p.2.1)
        let s3 := if m.sr then s2.modCg fun g => { g with phase := g.phase + 17 } else s2
        .next (s3.retire x)

/-! ### The sparse header (R278) -/

structure SparseHdr where
  rowptr : Dword
  colidx : Dword
  vals : Dword
  bbase : Dword
  m : Nat
  k : Nat
  n : Nat
  bstride : Nat
  vt : Ty
  bt : Ty
  deriving DecidableEq, Repr

/-- Types by their codes (R65). -/
def matTy (code : Nat) : Option Ty :=
  match code with
  | 5 => some .f16
  | 6 => some .b16
  | 7 => some .e4m3
  | 8 => some .e5m2
  | 9 => some .zb3
  | 10 => some .zb5
  | 11 => some .zb8
  | _ => none

/-- The header's 64 bytes: none when a field is out of its range or a reserved byte is set. -/
def parseSparse (bs : List Byte) : Option SparseHdr :=
  let f (o n : Nat) : Nat := leNat ((bs.drop o).take n)
  let ty := f 0x30 4
  match matTy (ty % 16), matTy (ty / 16 % 16) with
  | some vt, some bt =>
    if f 0x20 4 ≤ 2 ^ 24 && 1 ≤ f 0x24 4 && f 0x24 4 ≤ 2 ^ 24 && f 0x28 4 ≤ 2 ^ 24 && f 0x2C 4 % 16 = 0 &&
        fmtWant vt = 0 && ty / 256 = 0 && f 0x34 12 = 0 then
      some {
        rowptr := w64 (f 0 8), colidx := w64 (f 8 8), vals := w64 (f 16 8), bbase := w64 (f 24 8), m := f 0x20 4,
        k := f 0x24 4, n := f 0x28 4, bstride := f 0x2C 4, vt := vt, bt := bt }
    else none
  | _, _ => none

/-- What reading on the way to a sparse operation can come to. -/
inductive Got (α : Type) where
  | ok (a : α) (s : State)
  | kill (s : State)
  | flt (fs : List Flt) (s : State)

def Got_then {α β : Type} (g : Got α) (f : α → State → Got β) : Got β :=
  match g with
  | .ok a s => f a s
  | .kill s => .kill s
  | .flt fs s => .flt fs s

/-- The header at an address: outside the scratchpad it kills, misaligned it faults (R278). -/
def State.sparseHdr (s : State) (va : Dword) : Got SparseHdr :=
  let off := va.toNat % 2 ^ 48
  if aperOf va ≠ .scr || off + 64 > (s.hdrOf s.ct).scratch then .kill s
  else if va.toNat % 64 ≠ 0 then .flt [⟨9, kRead, va, 0⟩] s
  else
    match parseSparse (s.scratchBytes s.cur.team off 64) with
    | some h => .ok h s
    | none => .kill s

/-- Regions of one source: its base, the base's alignment, the regions, the page format asked for. -/
structure SrcRegs where
  base : Dword
  al : Nat
  rs : List (Dword × Nat)
  want : Nat
  deriving DecidableEq, Repr

def SrcRegs_bad (g : SrcRegs) : Bool := g.rs.any (fun r => r.2 ≠ 0) && g.base.toNat % g.al ≠ 0

/-- Pages of sources: each step of R268 over every region before the next. -/
def State.gatherAll (s : State) (gs : List SrcRegs) : Got (List (List (Dword × Acc))) :=
  if gs.any fun g => g.rs.any s.regionKills then .kill s
  else if gs.any SrcRegs_bad then .flt ((gs.filter SrcRegs_bad).map fun g => ⟨9, kRead, g.base, 0⟩) s
  else
    let p := gs.foldl (fun (acc : List Flt × List (List (Dword × Acc)) × State) g =>
      let q := acc.2.2.probePages g.rs kRead g.want
      (acc.1 ++ q.1, acc.2.1 ++ [q.2.1], q.2.2)) ([], [], s)
    if p.1 ≠ [] then .flt p.1 p.2.2 else .ok p.2.1 p.2.2

/-- Pages of the regions of one source. -/
def State.gatherPages (s : State) (base : Dword) (al : Nat) (rs : List (Dword × Nat)) (want : Nat) : Got (List (Dword × Acc)) :=
  Got_then (s.gatherAll [⟨base, al, rs, want⟩]) fun ps s1 => .ok (ps.headD []) s1

/-- Entries of a band of 8 rows (R278): row within the band, column, index; only columns below K. -/
def State.bandEntries (s : State) (h : SparseHdr) (row : Nat) : Got (List (Nat × Nat × Nat)) :=
  let cnt := min 8 (h.m - row)
  if cnt = 0 then .ok [] s
  else
    let at_ (b : Dword) (i : Nat) : Dword := b + w64 (4 * i)
    Got_then (s.gatherPages h.rowptr 4 [(at_ h.rowptr row, 4 * (cnt + 1))] 0) fun pages s1 =>
      let ptr (i : Nat) : Nat := s1.wordOn pages (at_ h.rowptr (row + i))
      let runs := (List.range cnt).map fun i => (i, ptr i, ptr (i + 1) - ptr i)
      Got_then (s1.gatherPages h.colidx 4 (runs.map fun r => (at_ h.colidx r.2.1, 4 * r.2.2)) 0) fun cpages s2 =>
        .ok ((runs.flatMap fun r => (List.range r.2.2).map fun j =>
          (r.1, s2.wordOn cpages (at_ h.colidx (r.2.1 + j)), r.2.1 + j)).filter fun e => decide (e.2.1 < h.k)) s2

/-! ### The tile cutter (R279) -/

def statBD : Nat := 2 ^ 31
def statDONE : Nat := 2 ^ 30
def statEMPTY : Nat := 2 ^ 29

/-- Entries with a column in [x, min(y, K)). -/
def nzIn (cols : List Nat) (k x y : Nat) : Nat := (cols.filter fun c => decide (x ≤ c) && decide (c < min y k)).length

/-- Skips empty steps. -/
def skipSteps (cols : List Nat) (kk st k fuel : Nat) : Nat :=
  match fuel with
  | 0 => k
  | fuel + 1 => if k < kk && nzIn cols kk k (k + st) = 0 then skipSteps cols kk st (k + st) fuel else k

/-- Grows a tile step by step: KHI and the count; none when its one step holds more than 256. -/
def growTile (cols : List Nat) (kk st bud hi n fuel : Nat) : Option (Nat × Nat) :=
  match fuel with
  | 0 => some (hi, n)
  | fuel + 1 =>
    if hi < kk then
      let c := nzIn cols kk hi (hi + st)
      if c = 0 || (n > 0 && decide (n + c > bud)) then some (hi, n)
      else if c > 256 then none
      else growTile cols kk st bud (min (hi + st) kk) (n + c) fuel
    else some (hi, n)

/-- ROW, KLO, KHI and STAT of the next tile of a band, from its columns and the column reached; none for BNDS. -/
def cutBand (cols : List Nat) (kk st bud row k0 : Nat) : Option (List Nat) :=
  let k := skipSteps cols kk st k0 (kk / st + 1)
  if k ≥ kk then some [row, kk, kk, statBD + (if k0 = 0 then statEMPTY else 0)]
  else
    match growTile cols kk st bud k 0 (kk / st + 1) with
    | none => none
    | some (hi, n) => some [row, k, hi, n + (if hi = kk then statBD else 0)]

/-- Ends a sparse instruction whose reading failed. -/
def State.gotBad (s : State) (x : XHead) (act : List Nat) (fs : Option (List Flt)) : Out :=
  match fs with
  | some fs => s.probeFault x act fs
  | none => .next (s.killCur eBnds)

/-- The four result registers, written together (R279). -/
def State.tcutResult (s : State) (gd : Opd) (ws : List Nat) : State :=
  (s.addPend fun id => { s.mkPend 0 (clsCode gd.cls) gd.no.toNat 4 4 id with vals := ws.map fun n => some (w32 n) }).2

/-- `TCUT`. -/
def execTcut (x : XHead) (gd a : Opd) (bud : BitVec 9) (sc : BitVec 2) (s : State) : Out :=
  s.wholeGroup fun s =>
    let act := s.active x
    let r (k : Nat) : Nat := (s.regAt gd k 0).toNat
    let stat := r 3
    if act = [] || stat.testBit 30 then .next (s.retire x)
    else
      let row := if stat.testBit 31 then r 0 + 8 else r 0
      let k0 := if stat.testBit 31 then 0 else r 2
      match s.sparseHdr (s.reg2 a 0) with
      | .kill s1 => s1.gotBad x act none
      | .flt fs s1 => s1.gotBad x act (some fs)
      | .ok h s1 =>
        if row ≥ h.m then .next ((s1.performedNow.tcutResult gd [row, h.k, h.k, statBD + statDONE]).retire x)
        else
          match s1.bandEntries h row with
          | .kill s2 => s2.gotBad x act none
          | .flt fs s2 => s2.gotBad x act (some fs)
          | .ok es s2 =>
            match cutBand (es.map fun e => e.2.1) h.k (8 * 2 ^ sc.toNat) bud.toNat row k0 with
            | none => .next (s2.killCur eBnds)
            | some ws => .next ((s2.performedNow.tcutResult gd ws).retire x)

/-- `MMS`: what it reads, and the entries it takes. -/
def State.mmsRead (s : State) (va : Dword) (row klo khi cb : Nat) (qs : List Nat) :
    Got (SparseHdr × List (Nat × Nat × Nat) × List (Dword × Acc) × List (Dword × Acc)) :=
  Got_then (s.sparseHdr va) fun h s1 =>
    Got_then (s1.bandEntries h row) fun all s2 =>
      let es := all.filter fun e => decide (klo ≤ e.2.1) && decide (e.2.1 < min khi h.k)
      if es.length > 256 then .kill s2
      else
        let vs := elemSize h.vt
        let bs := elemSize h.bt
        let rows := keysOf (es.map fun e => e.2.1)
        let rs := rows.flatMap fun c => qs.map fun q =>
          let n0 := cb + 16 * q
          (h.bbase + w64 (c * h.bstride + n0 * bs), (min (n0 + 16) h.n - n0) * bs)
        Got_then (s2.gatherAll [⟨h.vals, vs, es.map fun e => (h.vals + w64 (e.2.2 * vs), vs), 0⟩, ⟨h.bbase, bs, rs, fmtWant h.bt⟩])
          fun ps s3 => .ok (h, es, ps.getD 0 [], ps.getD 1 []) s3

def execMms (x : XHead) (md : BitVec 6) (a gs c : Opd) (s : State) : Out :=
  s.wholeGroup fun s =>
    let act := s.active x
    let qs := s.quarters act
    let r (k : Nat) : Nat := (s.regAt gs k 0).toNat
    let cb := (s.reg1 c 0).toNat
    if act = [] || r 3 % 512 = 0 || r 1 ≥ r 2 then .next (s.retire x)
    else
      match s.mmsRead (s.reg2 a 0) (r 0) (r 1) (r 2) cb qs with
      | .kill s1 => s1.gotBad x act none
      | .flt fs s1 => s1.gotBad x act (some fs)
      | .ok (h, es, vp, bp) s1 =>
        let val (e : Nat × Nat × Nat) : Word := s1.elemOn vp h.vt (h.vals + w64 (e.2.2 * elemSize h.vt))
        let bel (col n : Nat) : Word :=
          if n < h.n then s1.elemOn bp h.bt (h.bbase + w64 (col * h.bstride + n * elemSize h.bt)) else 0
        let s2 := s1.modCt fun t => t.setTile md.toNat ((quarterRows qs).foldl (fun t' rr =>
          let mine := es.filter fun e => e.1 = rr % 8
          (List.range 16).foldl (fun t' j =>
            t'.setCell rr j (macInto (t'.cell rr j) (mine.map fun e => (val e, bel e.2.1 (cb + 16 * (rr / 8) + j))))) t')
          (t.tile md.toNat))
        .next ((s2.performedNow.tileOp md.toNat (maskOf (quarterRows qs)) 0).retire x)

end Sys2Proof.Machine
end

