-- ==== Sys2Proof/Machine/Attn.lean ====
section
/-! DEFINITION. The Inflector and attention (R290 to R297), appending to, trimming and querying sequences (R298 to
R302). -/

namespace Sys2Proof.Machine

/-! ### The Inflector (R290, R291) -/

/-- Weight types of R290. -/
def weightTy (code : Nat) : Option Ty :=
  match code with
  | 5 => some .f16
  | 6 => some .b16
  | 7 => some .e4m3
  | 8 => some .e5m2
  | _ => none

def headOk (dh : Nat) : Bool := dh % 16 = 0 && 16 ≤ dh && dh ≤ 256

/-- An Inflector record's 32 bytes: none when they break R290. -/
def parseInfl (bs : List Byte) : Option InflSlot :=
  let f (o n : Nat) : Nat := leNat ((bs.drop o).take n)
  match weightTy (f 20 1) with
  | none => none
  | some wt =>
    if f 0 8 % 32 = 0 && f 8 8 % 32 = 0 && latentOk (f 16 2) && headOk (f 18 2) && f 21 11 = 0 then
      some { uk := w64 (f 0 8), uv := w64 (f 8 8), dl := f 16 2, dh := f 18 2, wt := wt }
    else none

/-- Sizes of a slot's weights: each is DH rows of DL elements. -/
def InflSlot_bytes (sl : InflSlot) : Nat := sl.dh * sl.dl * elemSize sl.wt

/-- The lines of a region whose pages are known enter the Inflector weight cache under lease, the long lease on pages with
ROC = 1 (R118, R290). -/
def State.cacheWeights (s : State) (pages : List (Dword × Acc)) (base : Dword) (n : Nat) : State :=
  (pages.filter fun p => base.toNat ≤ p.1.toNat && decide (p.1.toNat < base.toNat + n)).foldl (fun s p =>
    match p.2.space with
    | .glob pa =>
      let len := min (base.toNat + n) ((p.1.toNat / 65536 + 1) * 65536) - p.1.toNat
      match fillOf 1 p.2.ent with
      | 0 => s
      | f => (linesOf pa len).foldl (fun s l =>
          let lo := max pa (128 * l)
          s.fillWc s.cur.core s.cw lo (min (pa + len) (128 * l + 128) - lo) (f = 2)) s
    | _ => s) s

/-- `INFL` starts the fills of a slot's weights, of the pages that translate. That they start, and end, with the
instruction: DESIGN CHOICE (log 6). -/
def State.startWeights (s : State) (sl : InflSlot) : State :=
  [sl.uk, sl.uv].foldl (fun s base =>
    let p := (pageStarts base (InflSlot_bytes sl)).foldl (fun (acc : List (Dword × Acc) × State) va =>
      let r := acc.2.access s.cur.core s.cur.team 0 0 va 32 32 kRead false
      match r.1 with
      | .ok a => (acc.1 ++ [(va, a)], r.2)
      | .error _ => (acc.1, r.2)) ([], s)
    p.2.cacheWeights p.1 base (InflSlot_bytes sl)) s

/-- `INFL`: fills a slot from its record. A fault of the record read parks the active lanes (R291). -/
def execInfl (x : XHead) (n : BitVec 2) (a : Opd) (s : State) : Out :=
  s.wholeGroup fun s =>
    let act := s.active x
    let va := s.reg2 a 0
    if act = [] then .next (s.retire x)
    else if regionBad (s.hdrOf s.ct).scratch va 32 || va.toNat % 32 ≠ 0 then .next (s.killCur eBnds)
    else
      let r := s.access s.cur.core s.cur.team 0 0 va 32 32 kRead false
      match r.1 with
      | .error f => .next ((r.2.takeFault s.cur (act.map fun L => (Team_homeOf s.ct s.cur.who L, f)) {}).retire x)
      | .ok p =>
        match parseInfl (r.2.spaceBytes s.cur.core s.cur.team p.space 32) with
        | none => .next (r.2.killCur eBnds)
        | some sl =>
          .next ((((r.2.modCt fun t => { t with infl := tabPut t.infl n.toNat sl }).performedNow).startWeights sl).retire x)

/-! ### The attention descriptor (R294) -/

structure AttnDesc where
  q : Dword
  seq : Dword
  t0 : Nat
  t1 : Nat
  scale : Word
  qstride : Nat
  dl : Nat
  dh : Nat
  rows : Nat
  qt : Ty
  ct : Ty
  causal : Bool
  init : Bool
  fin : Bool
  deriving DecidableEq, Repr

def queryTy (code : Nat) : Option Ty :=
  match code with
  | 4 => some .f32
  | 5 => some .f16
  | 6 => some .b16
  | _ => none

/-- The descriptor's 64 bytes under a slot: none when a field breaks R294. -/
def parseDesc (sl : InflSlot) (bs : List Byte) : Option AttnDesc :=
  let f (o n : Nat) : Nat := leNat ((bs.drop o).take n)
  match queryTy (f 0x25 1), cacheTy (f 0x26 1) with
  | some qt, some ct =>
    let fl := f 0x27 1
    if f 0 8 % 4 = 0 && f 8 8 % 65536 = 0 && f 16 4 ≤ f 20 4 && f 20 4 ≤ f 16 4 + 2 ^ 24 &&
        (f32 (w32 (f 24 4))).isFinite && f 28 4 % 4 = 0 && f 32 2 = sl.dl && f 34 2 = sl.dh && 1 ≤ f 36 1 && f 36 1 ≤ 32 &&
        fl / 8 = 0 && f 40 24 = 0 then
      some {
        q := w64 (f 0 8), seq := w64 (f 8 8), t0 := f 16 4, t1 := f 20 4, scale := w32 (f 24 4), qstride := f 28 4,
        dl := f 32 2, dh := f 34 2, rows := f 36 1, qt := qt, ct := ct, causal := fl.testBit 0, init := fl.testBit 1,
        fin := fl.testBit 2 }
    else none
  | _, _ => none

/-! ### The probe of attention (R295) -/

/-- A region outside what its aperture holds: the aperture fault of R111. -/
def State.apertureFlt (s : State) (r : Dword × Nat) : List Flt :=
  if r.2 ≠ 0 && regionBad (s.hdrOf s.ct).scratch r.1 r.2 then [⟨8, kRead, r.1, 0⟩] else []

/-- A page of a cache must be in column geometry with RL = DL when it is formatted (R285). -/
def State.seqPageFlt (s : State) (va : Dword) (kind : Nat) (ct : Ty) (dl : Nat) : Except Flt Acc × State :=
  let r := s.fmtAccess va kind (fmtWant ct)
  if fmtWant ct = 0 || aperOf va ≠ .glob || !canonical va then r
  else
    match (s.translate s.cur.core s.cw (va.toNat % 2 ^ 56)).1 with
    | .ok e => if e.fmt = fmtWant ct && (e.geo ≠ 1 || 16 * 2 ^ e.stride ≠ dl) then (.error ⟨4, kind, va, 0⟩, r.2) else r
    | .error _ => r

/-- Pages of a token range. -/
def State.seqProbe (s : State) (base : Dword) (n kind : Nat) (ct : Ty) (dl : Nat) : List Flt × List (Dword × Acc) × State :=
  (pageStarts base n).foldl (fun (acc : List Flt × List (Dword × Acc) × State) va =>
    let r := acc.2.2.seqPageFlt va kind ct dl
    match r.1 with
    | .ok a => (acc.1, acc.2.1 ++ [(va, a)], r.2)
    | .error f => (acc.1 ++ [f], acc.2.1, r.2)) ([], [], s)

/-- Pages of the regions of an `ATTN`: faults; query rows and weights; tokens. -/
def State.attnProbe (s : State) (sl : InflSlot) (d : AttnDesc) :
    List Flt × List (Dword × Acc) × List (Dword × Acc) × State :=
  let wbytes := InflSlot_bytes sl
  let rb := rowBytes d.ct d.dl
  let plain := ((List.range d.rows).map fun i => (d.q + w64 (i * d.qstride), d.dh * elemSize d.qt)) ++ [(sl.uk, wbytes), (sl.uv, wbytes)]
  let tok : Dword × Nat := (d.seq + w64 (d.t0 * rb), (d.t1 - d.t0) * rb)
  let ap := (plain ++ [tok]).flatMap s.apertureFlt
  let p := s.probePages (plain.filter fun r => !regionBad (s.hdrOf s.ct).scratch r.1 r.2) kRead 0
  let q := if regionBad (s.hdrOf s.ct).scratch tok.1 tok.2 then ([], [], p.2.2) else p.2.2.seqProbe tok.1 tok.2 kRead d.ct d.dl
  (ap ++ p.1 ++ q.1, p.2.1, q.2.1, q.2.2)

/-! ### Attention arithmetic (R296) -/

def nanF32 : Word := 0x7FC00000
def infF32 : Word := 0x7F800000
def ninfF32 : Word := 0xFF800000

/-- A row's running maximum, running sum and output, and whether a NaN stopped it. -/
structure AttnRow where
  m : Word
  l : Word
  o : List Word
  stop : Bool := false
  deriving DecidableEq, Repr

/-- What the blocks of a row work with: weights by row, and the score and the weighted value of a block. -/
structure AttnEnv where
  dl : Nat
  dh : Nat
  scale : Word
  absorb : Bool
  uk : Nat → Nat → Word
  uv : Nat → Nat → Word
  tok : Nat → Nat → Word

def dotRnd (ps : List (Word × Word)) : Word := rnF32 (dotVal ps)

/-- Rounds SCALE times an exact sum. -/
def scaled (sc : Word) (ps : List (Word × Word)) : Word := rnF32 (FVal.mul (f32 sc) (dotVal ps))

def isBad (w : Word) : Bool := !(f32 w).isFinite

/-- Maximum of two numbers as FP32 images. -/
def maxF32 (a b : Word) : Word := rnF32 (FVal.minMax true (f32 a) (f32 b))

/-- Rnd(2 ^ Rnd(x - y)). -/
def expDiff (x y : Word) : Word := rnF32 (FVal.ex2 (f32 (rnF32 (FVal.add .rn (f32 x) (f32 y).neg))))

/-- One block of up to 32 tokens of a row. `qv` is the query row, or the absorbed query. -/
def attnBlock (v : AttnEnv) (qv : List Word) (ts : List Nat) (r : AttnRow) : AttnRow :=
  if r.stop || ts = [] then r
  else
    let es := List.range v.dl
    let ds := List.range v.dh
    let score (t : Nat) : Word :=
      if v.absorb then scaled v.scale (es.map fun e => (qv.getD e 0, v.tok t e))
      else scaled v.scale (ds.map fun d => (qv.getD d 0, dotRnd (es.map fun e => (v.uk d e, v.tok t e))))
    let ss := ts.map score
    if ss.any isBad || f32 r.m = .nan || f32 r.l = .nan then
      { m := nanF32, l := nanF32, o := r.o.map fun _ => nanF32, stop := true }
    else
      let mn := ss.foldl maxF32 r.m
      let a : Word := if FVal.cmp (f32 mn) (f32 r.m) = some .eq then 0x3F800000 else expDiff r.m mn
      let ps := ss.map fun x => expDiff x mn
      let l := ps.foldl addF32 (mulF32 a r.l)
      let w (j : Nat) : Word :=
        if v.absorb then
          dotRnd (es.map fun e => (v.uv j e, dotRnd ((ts.zip ps).map fun x => (x.2, v.tok x.1 e))))
        else dotRnd ((ts.zip ps).map fun x => (x.2, dotRnd (es.map fun e => (v.uv j e, v.tok x.1 e))))
      { m := mn, l := l, o := (r.o.zipIdx).map fun x => addF32 (mulF32 a x.1) (w x.2), stop := false }

/-- Tokens of block b of a row. -/
def blockTokens (d : AttnDesc) (i b : Nat) : List Nat :=
  let lim := if d.causal then d.t1 + 1 + i - d.rows else d.t1
  let b0 := d.t0 + 32 * b
  (List.range 32).filterMap fun k => if b0 + k < d.t1 && b0 + k < lim then some (b0 + k) else none

/-- The final division: NaN stays NaN. -/
def attnFin (r : AttnRow) : List Word :=
  r.o.map fun o =>
    if f32 o = .nan then nanF32
    else if FVal.cmp (f32 r.l) (.fin false 0 0) = some .gt then rnF32 (FVal.div (f32 o) (f32 r.l)) else 0

/-- One row of `ATTN`. -/
def attnRow (v : AttnEnv) (d : AttnDesc) (i : Nat) (q : List Word) (r0 : AttnRow) : AttnRow :=
  let qv := if v.absorb then
      (List.range v.dl).map fun e => dotRnd ((List.range v.dh).map fun k => (v.uk k e, q.getD k 0))
    else q
  let r := (List.range ((d.t1 - d.t0 + 31) / 32)).foldl (fun r b => attnBlock v qv (blockTokens d i b) r) r0
  if d.fin then { r with o := attnFin r } else r

/-- The tiles after an `ATTN` (R295): output tiles, and the state tile. -/
def attnTiles (t : Team) (v : AttnEnv) (d : AttnDesc) (md : Nat) (query : Nat → Nat → Word) : Team :=
  let st := md + d.dh / 16
  (List.range d.rows).foldl (fun t i =>
    let r0 : AttnRow := if d.init then { m := ninfF32, l := 0, o := List.replicate d.dh 0 }
      else
        { m := (t.tile st).cell i 0, l := (t.tile st).cell i 1,
          o := (List.range d.dh).map fun j => (t.tile (md + j / 16)).cell i (j % 16) }
    let r := attnRow v d i ((List.range d.dh).map (query i)) r0
    let t1 := (r.o.zipIdx).foldl (fun t x => t.setTile (md + x.2 / 16) ((t.tile (md + x.2 / 16)).setCell i (x.2 % 16) x.1)) t
    t1.setTile st ((List.range 16).foldl (fun c j => c.setCell i j (if j = 0 then r.m else if j = 1 then r.l else 0)) (t1.tile st))) t

/-- Weights and tokens of an `ATTN`, read from pages whose places are known. -/
def State.attnEnv (s : State) (plain toks : List (Dword × Acc)) (absorb : Bool) (sl : InflSlot) (d : AttnDesc) : AttnEnv :=
  let ws := elemSize sl.wt
  let rb := rowBytes d.ct d.dl
  { dl := d.dl, dh := d.dh, scale := d.scale, absorb := absorb,
    uk := fun k e => s.elemOn plain sl.wt (sl.uk + w64 ((k * d.dl + e) * ws)),
    uv := fun k e => s.elemOn plain sl.wt (sl.uv + w64 ((k * d.dl + e) * ws)),
    tok := fun t e => s.elemOn toks d.ct (d.seq + w64 (t * rb + e * (rb / d.dl))) }

/-- Element k of query row i. -/
def State.attnQuery (s : State) (plain : List (Dword × Acc)) (d : AttnDesc) (i k : Nat) : Word :=
  s.elemOn plain d.qt (d.q + w64 (i * d.qstride + k * elemSize d.qt))

/-- `ATTN` (R293 to R297). -/
def execAttn (x : XHead) (absorb : Bool) (gd a : Opd) (md : BitVec 6) (n : BitVec 2) (s : State) : Out :=
  s.wholeGroup fun s =>
    let act := s.active x
    let va := s.reg2 a 0
    let off := va.toNat % 2 ^ 48
    let scr := (s.hdrOf s.ct).scratch
    let desc := match tabFind s.ct.infl n.toNat with
      | some sl => (parseDesc sl (s.scratchBytes s.cur.team off 64)).map fun d => (sl, d)
      | none => none
    if act = [] then .next (s.retire x)
    else if aperOf va ≠ .scr || off + 64 > scr || va.toNat % 64 ≠ 0 then .next (s.killCur eBnds)
    else
      match desc with
      | none => .next (s.killCur eBnds)
      | some (sl, d) =>
        if md.toNat + d.dh / 16 ≥ (s.hdrOf s.ct).acc then .next (s.killCur eBnds)
        else
          let p := s.attnProbe sl d
          let s1 := p.2.2.2
          if p.1 ≠ [] then s1.probeFault x act p.1
          else
            let v := s1.attnEnv p.2.1 p.2.2.1 absorb sl d
            let query := s1.attnQuery p.2.1 d
            let ts := (List.range (d.dh / 16 + 1)).map (md.toNat + ·)
            let (pid, s2) := ((s1.cacheWeights p.2.1 sl.uk (InflSlot_bytes sl)).cacheWeights p.2.1 sl.uv (InflSlot_bytes sl)).pendTok gd
            let s3 := s2.modCt fun t => attnTiles t v d md.toNat query
            let rows := maskOf (List.range d.rows)
            let s4 := (s3.addEngine [] (.attn ts rows pid) (some pid) [] (pinsOf p.2.1 ++ pinsOf p.2.2.1)).2
            .next ((s4.wmUpdate s.cur.team ts).retire x)

/-! ### Appending and trimming (R298 to R301) -/

/-- One lane of an append or trim: position, record address and place, count, source rows. -/
structure KvLane where
  pos : Nat
  va : Dword
  n : Nat
  src : Dword
  pa : Nat := 0
  r : SeqRec
  deriving DecidableEq, Repr

/-- Checks of a record: read, then write (R298 step 2). -/
def State.recAccess (s : State) (va : Dword) : Except Flt Acc × State :=
  let r := s.access s.cur.core s.cur.team 0 0 va 32 32 kRead false
  match r.1 with
  | .error _ => r
  | .ok _ => r.2.access s.cur.core s.cur.team 0 0 va 32 32 kWrite false

/-- The record LEN that lanes before leave, by physical address. -/
def lenOf (lens : List (Nat × Nat)) (q : KvLane) : Nat :=
  match lens.find? fun x => x.1 = q.pa with
  | some x => x.2
  | none => q.r.len

def setLen (lens : List (Nat × Nat)) (pa n : Nat) : List (Nat × Nat) := (pa, n) :: lens.filter fun x => decide (x.1 ≠ pa)

/-- Addresses at which a region of a lane's source rows is checked: once a page; each word in the stack window, whose
pages lie elsewhere. -/
def rowStarts (src : Dword) (n : Nat) : List Dword :=
  if aperOf src = .stk then (List.range (n / 4)).map fun i => src + w64 (4 * i) else pageStarts src n

/-- Accesses of one position in order: the faults. -/
def State.checkList (s : State) (L : Nat) (vas : List Dword) (n al kind : Nat) : List (Nat × Flt) × State :=
  let h := Team_homeOf s.ct s.cur.who L
  vas.foldl (fun (acc : List (Nat × Flt) × State) va =>
    let r := acc.2.access s.cur.core s.cur.team h.1 h.2 va n al kind false
    match r.1 with
    | .ok _ => (acc.1, r.2)
    | .error f => (acc.1 ++ [(L, f)], r.2)) ([], s)

def entryVa (r : SeqRec) (j : Nat) : Dword := r.pte + w64 (8 * j)

/-- Step 4 of an append's probe for one lane: source rows, leaf entries, the page holding token LEN. -/
def State.appendCheck (s : State) (q : KvLane) (len : Nat) : List (Nat × Flt) × State :=
  let rb := SeqRec_rb q.r
  let size := q.n * q.r.dl * 4
  let src := if q.src.toNat % 4 ≠ 0 then ([(q.pos, (⟨9, kRead, q.src, 0⟩ : Flt))], s)
    else if aperOf q.src = .scr && q.src.toNat % 2 ^ 48 + size > (s.hdrOf s.ct).scratch then
      ([(q.pos, (⟨8, kRead, q.src, 0⟩ : Flt))], s)
    else s.checkList q.pos (rowStarts q.src size) 4 4 kRead
  let p0 := seqPages rb len
  let es := src.2.checkList q.pos ((List.range (seqPages rb (len + q.n) - p0)).map fun i => entryVa q.r (p0 + i)) 8 8 kWrite
  if len * rb % 65536 = 0 then (src.1 ++ es.1, es.2)
  else
    let t := es.2.seqPageFlt (q.r.base + w64 (len * rb)) kWrite q.r.ct q.r.dl
    match t.1 with
    | .ok _ => (src.1 ++ es.1, t.2)
    | .error f => (src.1 ++ es.1 ++ [(q.pos, f)], t.2)

/-- Step 4 of a trim's probe for one lane: the leaf entries it would return. -/
def State.trimCheck (s : State) (q : KvLane) (len : Nat) : List (Nat × Flt) × State :=
  let rb := SeqRec_rb q.r
  let p0 := seqPages rb q.n
  let vas := (List.range (seqPages rb len - p0)).map fun i => entryVa q.r (p0 + i)
  let r := s.checkList q.pos vas 8 8 kRead
  let w := r.2.checkList q.pos vas 8 8 kWrite
  (if r.1 = [] then w.1 else r.1, w.2)

/-- The probe of `KVAPP` and `KVTRIM` (R298): lanes with their records, or how it ends. -/
def State.kvProbe (s : State) (trim : Bool) (lanes : List KvLane) : Got (List KvLane) ⊕ (List (Nat × Flt) × State) :=
  if lanes.any fun q => aperOf q.va ≠ .glob || q.va.toNat % 32 ≠ 0 || (!trim && q.n > 4096) then .inl (.kill s)
  else
    -- the records
    let p := lanes.foldl (fun (acc : List KvLane × List (Nat × Flt) × State) q =>
      let r := acc.2.2.recAccess q.va
      match r.1 with
      | .ok ⟨.glob pa, _⟩ => (acc.1 ++ [{ q with pa := pa }], acc.2.1, r.2)
      | .ok _ => (acc.1, acc.2.1, r.2)
      | .error f => (acc.1, acc.2.1 ++ [(q.pos, f)], r.2)) ([], [], s)
    let s1 := p.2.2
    if p.2.1 ≠ [] then .inr (p.2.1, s1)
    else
      let recs := p.1.map fun q => (parseSeq (s1.seen (some s.cw) s.cw q.pa 32)).map fun r => { q with r := r }
      if recs.any Option.isNone then .inl (.kill s1)
      else
        let qs := recs.filterMap id
        let c := qs.foldl (fun (acc : List (Nat × Nat) × List (Nat × Flt) × State) q =>
          let len := lenOf acc.1 q
          if trim then
            if q.n > len then acc
            else
              let r := acc.2.2.trimCheck q len
              (setLen acc.1 q.pa q.n, acc.2.1 ++ r.1, r.2)
          else if len + q.n > q.r.cap then acc
          else if q.n = 0 then acc
          else
            let r := acc.2.2.appendCheck q len
            (setLen acc.1 q.pa (len + q.n), acc.2.1 ++ r.1, r.2)) ([], [], s1)
        if c.2.1 ≠ [] then .inr (c.2.1, c.2.2) else .inl (.ok qs c.2.2)

/-- One write of an engine at a time of `a` or later: its completion time; its home serves it as a request of the core
(R127, R129, R300). -/
def State.engWrite (s : State) (a : Nat) (sp : Space) (op : FOp) (n : Nat) : Nat × State :=
  match sp with
  | .glob pa =>
    let (id, s1) := s.fresh
    (s1.wAt a pa n, (s1.arriveAt a id s.cw s.cur.team s.cur.who (s.lanesOf s.path |>.headD (0, 0)).1 s.ct.launch pa n op (some id)
      false false).serve (linesOf pa n) s.cur.core s.nameLim false)
  | _ =>
    let old := s.spaceBytes s.cur.core s.cur.team sp n
    (max a s.gtc, (s.putSpace s.cur.core s.cur.team sp (applyOp s.gtc op old).1).performedNow)

/-- A leaf entry written under the world's translation (R286). -/
def State.writeEntry (s : State) (r : SeqRec) (j v : Nat) : Nat × State :=
  match s.access s.cur.core s.cur.team 0 0 (entryVa r j) 8 8 kWrite false with
  | (.ok p, s1) => s1.engWrite s1.gtc p.space (.store (leBytes 8 v)) 8
  | (.error _, s1) => (s1.gtc, s1)

/-- What serving has come to: LEN by record, frames mapped by record and page, predicates, the latest completion,
whether a write was made. -/
structure KvRun where
  lens : List (Nat × Nat) := []
  frames : List (Nat × Nat × Nat) := []
  ps : List (Nat × Bool) := []
  last : Nat := 0
  any : Bool := false
  dry : Bool := false
  /-- pages cleared by a trim: numbers va / 65536; frames queued: list key and frame -/
  cleared : List Nat := []
  queued : List (Nat × Nat) := []
  deriving DecidableEq, Repr

/-- Physical base of page j of a record: a frame mapped by this instruction, or the page's translation. -/
def State.seqPageBase (s : State) (run : KvRun) (q : KvLane) (j : Nat) : Nat :=
  match run.frames.find? fun f => f.1 = q.pa && f.2.1 = j with
  | some f => f.2.2 * 4096
  | none =>
    match (s.translate s.cur.core s.cw ((q.r.base.toNat + j * 65536) % 2 ^ 56)).1 with
    | .ok e => TlbEnt_pa e ((q.r.base.toNat + j * 65536) % 2 ^ 56)
    | .error _ => 0

/-- A value of a source row of a lane. -/
def State.srcRow (s : State) (q : KvLane) (i : Nat) : Word :=
  let h := Team_homeOf s.ct s.cur.who q.pos
  match s.access s.cur.core s.cur.team h.1 h.2 (q.src + w64 (4 * i)) 4 4 kRead false with
  | (.ok p, s1) => w32 (leNat (s1.spaceBytes s.cur.core s.cur.team p.space 4))
  | (.error _, _) => 0

/-- Writes of a lane's tokens (R285, R299): one per token of a raw cache; one per block of a formatted one. -/
def State.appendWrites (s : State) (run : KvRun) (q : KvLane) (len : Nat) (rm : Rm) (sat : Bool) : List (Nat × FOp × Nat) :=
  let rb := SeqRec_rb q.r
  let dl := q.r.dl
  let place (t : Nat) : Nat := s.seqPageBase run q (t * rb / 65536)
  if cacheClass q.r.ct = 0 then
    let fp8 := q.r.ct ≠ .b16
    (List.range q.n).map fun r =>
      let t := len + r
      (place t + t * rb % 65536,
        .store ((List.range dl).flatMap fun e =>
          leBytes (rb / dl) ((fpFmt q.r.ct).enc (.mode rm) false (sat && fp8) (f32 (s.srcRow q (r * dl + e))))), rb)
  else
    -- positions by block: the block's address, its position, its value, and whether its tokens are all new
    let items : List (Nat × Nat × Word × Bool) := (List.range q.n).flatMap fun r =>
      let t := len + r
      (List.range dl).map fun e =>
        let p := zbPlace 1 (Nat.log2 (dl / 16)) (t * rb % 65536 + e)
        (place t + p.1 * zbRec q.r.ct, p.2, s.srcRow q (r * dl + e), decide (t / 64 * 64 ≥ len))
    (keysOf (items.map (·.1))).map fun b =>
      let mine := items.filter fun i => i.1 = b
      (b, .estore (fmtWant q.r.ct) (mine.map fun i => (i.2.1, i.2.2.1)) rm none (mine.all fun i => i.2.2.2), zbRec q.r.ct)

/-- Serves one lane of an append (R299, R300). -/
def appendLane (rm : Rm) (sat : Bool) (st : KvRun × State) (q : KvLane) : KvRun × State :=
  let run := st.1
  let s := st.2
  let no : KvRun := { run with ps := run.ps ++ [(q.pos, false)] }
  let rb := SeqRec_rb q.r
  let len := lenOf run.lens q
  let p0 := seqPages rb len
  let p := seqPages rb (len + q.n) - p0
  let k := cacheClass q.r.ct
  if len + q.n > q.r.cap then (no, s)
  else if run.dry || !s.canPop s.cw q.r.tier k p then
    ({ no with dry := true }, if run.dry then s else s.reclaim s.cw q.r.tier)
  else
    -- entries
    let e := (List.range p).foldl (fun (acc : KvRun × Nat × State) i =>
      let (fr, s1) := acc.2.2.popFrame s.cw q.r.tier k
      let w := s1.writeEntry q.r (p0 + i) (seqEntry q.r fr)
      ({ acc.1 with frames := (q.pa, p0 + i, fr) :: acc.1.frames }, max acc.2.1 w.1, w.2)) (run, s.gtc, s)
    -- data, after the entries are complete
    let d := (s.appendWrites e.1 q len rm sat).foldl (fun (acc : Nat × State) w =>
      let r := acc.2.engWrite e.2.1 (.glob w.1) w.2.1 w.2.2
      (max acc.1 r.1, r.2)) (e.2.1, e.2.2)
    -- LEN last, of every lane that is served
    let r := d.2.engWrite d.1 (.glob (q.pa + 16)) (.store (leBytes 4 (len + q.n))) 4
    ({ e.1 with
        lens := setLen run.lens q.pa (len + q.n), ps := run.ps ++ [(q.pos, true)], last := max run.last r.1, any := true }, r.2)

/-- Token of an instruction whose completion time is known; when no lane was served, and so nothing written, its value is
free (log 7). -/
def State.tokAt (s : State) (gd : Opd) (any : Bool) (t : Nat) : State :=
  if any then
    (s.addPend fun id => { s.mkPend 0 (clsCode gd.cls) gd.no.toNat 1 1 id with vals := [some (w32 t)], tok := some t }).2
  else
    { (s.addPend fun id => { s.mkPend 0 (clsCode gd.cls) gd.no.toNat 1 1 id with vals := [some (Config.freeWord s.free)] }).2 with
      free := s.free + 1 }

/-- The lanes of an append or trim as their registers name them. -/
def State.kvLanes (s : State) (act : List Nat) (a : Opd) (src : Option OpdB) (c : Opd) : List KvLane :=
  act.map fun L =>
    { pos := L, va := s.reg2 a L, n := (s.reg1 c L).toNat,
      src := match src with
        | some b => s.src2 b L
        | none => 0,
      r := ⟨0, 0, 0, 0, 16, .b16, 0⟩ }

/-- A probe that faults parks every active lane (R298). -/
def State.kvFault (s : State) (x : XHead) (act : List Nat) (fs : List (Nat × Flt)) : Out :=
  let hs := act.map fun L => Team_homeOf s.ct s.cur.who L
  .next ((s.takeFault s.cur (fs.map fun f => (Team_homeOf s.ct s.cur.who f.1, f.2)) { probe := some hs }).retire x)

/-- An engine that owns lines until a time (R127, R298). -/
def State.ownUntil (s : State) (k : EngKind) (pend : Option Nat) (lines : List Nat) (t : Nat) : State :=
  let r := s.addEngine (s.lanesOf s.path) k pend lines []
  { r.2 with engines := mapIf r.2.engines (fun e => e.id = r.1) fun e => { e with floor := t } }

/-- `KVAPP`. -/
def execKvapp (x : XHead) (rm : Rm) (sat : Bool) (gd : Opd) (p : BitVec 3) (a : Opd) (b : OpdB) (c : Opd) (s : State) : Out :=
  let act := s.active x
  if act = [] then .next (s.retire x)
  else
    match s.kvProbe false (s.kvLanes act a (some b) c) with
    | .inr (fs, s1) => s1.kvFault x act fs
    | .inl (.kill s1) => .next (s1.killCur eBnds)
    | .inl (.flt fs s1) => s1.probeFault x act fs
    | .inl (.ok qs s1) =>
      let r := qs.foldl (appendLane rm sat) ({}, s1.readMany)
      let s2 := r.2.pendPred act p false fun L => (r.1.ps.find? fun q => q.1 = L).any (·.2)
      let s3 := s2.tokAt gd r.1.any r.1.last
      .next ((if r.1.any then s3.ownUntil .kvapp none (keysOf (qs.map fun q => lineOf q.pa)) r.1.last else s3).retire x)

/-- Serves one lane of a trim (R301). -/
def trimLane (st : KvRun × State) (q : KvLane) : KvRun × State :=
  let run := st.1
  let s := st.2
  let rb := SeqRec_rb q.r
  let len := lenOf run.lens q
  let key := listKey q.r.tier (cacheClass q.r.ct)
  let l := World_list (s.world s.cw) key
  let p0 := seqPages rb q.n
  let p := seqPages rb len - p0
  if q.n > len || l.count + l.pending + p > l.cap then ({ run with ps := run.ps ++ [(q.pos, false)] }, s)
  else
    let e := (List.range p).foldl (fun (acc : KvRun × Nat × State) i =>
      let j := p0 + i
      let s0 := acc.2.2
      let x := match s0.access s.cur.core s.cur.team 0 0 (entryVa q.r j) 8 8 kRead false with
        | (.ok pl, s') => leNat (s'.spaceBytes s.cur.core s.cur.team pl.space 8)
        | (.error _, _) => 0
      let live := x.testBit 63
      let s1 := if live then s0.modWorld s.cw fun w =>
          { World_setList w key { World_list w key with pending := (World_list w key).pending + 1 } with
            used := w.used.set q.r.tier (w.used.getD q.r.tier 0 - 1) }
        else s0
      let w := s1.writeEntry q.r j 0
      ({ acc.1 with
          cleared := acc.1.cleared ++ [(q.r.base.toNat / 65536 + j) % 2 ^ 40],
          queued := if live then acc.1.queued ++ [(key, x % 2 ^ 36)] else acc.1.queued }, max acc.2.1 w.1, w.2)) (run, s.gtc, s)
    let r := e.2.2.engWrite e.2.1 (.glob (q.pa + 16)) (.store (leBytes 4 q.n)) 4
    ({ e.1 with
        lens := setLen run.lens q.pa q.n, ps := run.ps ++ [(q.pos, true)],
        last := max run.last (max e.2.1 r.1), any := true }, r.2)

/-- The smallest SPAN that covers pages, and its page number (R234, R301). -/
def spanOf (pages : List Nat) : Nat × Nat :=
  let lo := pages.foldl min (pages.headD 0)
  let hi := pages.foldl max 0
  if lo = hi then (0, lo) else if lo / 32 = hi / 32 then (1, lo) else if lo / 1024 = hi / 1024 then (2, lo) else (3, lo)

/-- `KVTRIM`. -/
def execKvtrim (x : XHead) (gd : Opd) (p : BitVec 3) (a c : Opd) (s : State) : Out :=
  let act := s.active x
  if act = [] then .next (s.retire x)
  else
    match s.kvProbe true (s.kvLanes act a none c) with
    | .inr (fs, s1) => s1.kvFault x act fs
    | .inl (.kill s1) => .next (s1.killCur eBnds)
    | .inl (.flt fs s1) => s1.probeFault x act fs
    | .inl (.ok qs s1) =>
      let r := qs.foldl trimLane ({}, s1.readMany)
      let s2 := r.2.pendPred act p false fun L => (r.1.ps.find? fun q => q.1 = L).any (·.2)
      let lines := keysOf (qs.map fun q => lineOf q.pa)
      if r.1.cleared = [] then
        let s3 := s2.tokAt gd r.1.any r.1.last
        .next ((if r.1.any then s3.ownUntil .kvapp none lines r.1.last else s3).retire x)
      else
        -- the invalidate begins when the stores are complete
        let sp := spanOf r.1.cleared
        let (iid, s3) := s2.fresh
        let s4 : State := { s3 with invals := s3.invals ++ [{ id := iid, world := s.cw, span := sp.1, page := sp.2, by_ := none, start := r.1.last }] }
        let (pid, s5) := s4.pendTok gd
        let s6 := s5.ownUntil (.kvtrim r.1.queued (some iid)) (some pid) lines r.1.last
        .next (s6.retire x)

/-- `KVQRY` (R302). -/
def execKvqry (x : XHead) (d a : Opd) (sl : BitVec 3) (s : State) : Out :=
  let act := s.active x
  let legal (L : Nat) : Bool := aperOf (s.reg2 a L) = .glob && (s.reg2 a L).toNat % 32 = 0
  let chk := s.checkAll ((act.filter legal).map fun L => (L, s.reg2 a L)) 32 32 kRead false
  let s1 := chk.2.parkFailed (failed chk.1) {}
  let ok := (passed chk.1).filter fun r => !(s1.cth r.1).gone
  let no := (act.filter fun L => !legal L).filter fun L => !(s1.cth L).gone
  let top := (insertAll no (ok.map (·.1))).getLast?
  let s2 := ok.foldl (fun s' r =>
    if d.cls = .v || top = some r.1 then
      let (pid, s2) := s'.addPend fun id => s'.mkPend r.1 (clsCode d.cls) d.no.toNat 1 1 id
      let (id, s3) := s2.fresh
      s3.start (s3.mkFlight id r.1 plainOrd r.2.2.space 32 (.kvqry (.pend pid 0) sl.toNat s.cw) 0 s1.nextId false)
    else s') s1
  let s3 := no.foldl (fun s' L =>
    if d.cls = .v || top = some L then
      (s'.addPend fun id => { s'.mkPend L (clsCode d.cls) d.no.toNat 1 1 id with vals := [some 0] }).2
    else s') s2
  .next (s3.retire x)
where
  insertAll (l m : List Nat) : List Nat := m.foldl insertNat (l.foldl insertNat [])

end Sys2Proof.Machine
end

