-- ==== Sys2Proof/Machine/Capa.lean ====
section
/-! DEFINITION. Capabilities and remote accesses (R208 to R211, R328): the checks at the egress port, the requests sent,
and the instructions on capability registers and records. -/

namespace Sys2Proof.Machine

/-! ### Fields of a capability (R208) -/

def capBase (c : Capa) : Nat := (c.val.extractLsb' 0 56).toNat
def capLen (c : Capa) : Nat := (c.val.extractLsb' 56 48).toNat
def capPeer (c : Capa) : Nat := (c.val.extractLsb' 104 13).toNat
def capPerm (c : Capa) : BitVec 4 := c.val.extractLsb' 117 4
def capRsv (c : Capa) : BitVec 7 := c.val.extractLsb' 121 7
/-- Usable: tagged, with its reserved bits zero. -/
def capOk (c : Capa) : Bool := c.tag && capRsv c = 0

def capMake (base len peer : Nat) (perm : BitVec 4) (rsv : BitVec 7) : BitVec 128 :=
  BitVec.ofNat 128 (base % 2 ^ 56 + len % 2 ^ 48 * 2 ^ 56 + peer % 2 ^ 13 * 2 ^ 104 + perm.toNat * 2 ^ 117 + rsv.toNat * 2 ^ 121)

def capWords (c : Capa) : List Word := (List.range 4).map fun i => c.val.extractLsb' (32 * i) 32

def wordsCap (ws : List Word) : BitVec 128 :=
  ws.getD 3 0 ++ (ws.getD 2 0 ++ (ws.getD 1 0 ++ ws.getD 0 0 : BitVec 64) : BitVec 96)

/-! ### The check of a record (R211) -/

/-- Bytes 16 to 31 of a tagged record of a world. Under which key a world that holds none checks is not stated: the check
is that of epoch 0, which no world's keys have: DESIGN CHOICE (log 37). -/
def State.capSeal (s : State) (w : Nat) (v : BitVec 128) : List Byte :=
  1 :: leBytes 15 (Config.capCheck ((s.world w).keys.getD 0) v w).toNat

/-- Whether a record's bytes load tagged. -/
def State.capTagged (s : State) (w : Nat) (v : BitVec 128) (tail : List Byte) : Bool := tail = s.capSeal w v

/-! ### The check at the egress port (R209) -/

/-- Which right an access asks for. -/
inductive CapUse where | rd | wr | atom | red
  deriving DecidableEq, Repr

def capGrants (c : Capa) (u : CapUse) : Bool :=
  let p := capPerm c
  let group := p.getLsbD 3
  match u with
  | .rd => p.getLsbD 0 && !group
  | .wr => p.getLsbD 1
  | .atom => p.getLsbD 2 && !group
  | .red => p.getLsbD 2

def capPasses (c : Capa) (u : CapUse) (off : Dword) (n : Nat) : Bool :=
  capOk c && capGrants c u && off.toNat % n = 0 && off.toNat + n ≤ capLen c && capBase c + off.toNat < 2 ^ 56

def capVa (c : Capa) (off : Dword) : Dword := w64 (capBase c) + off

/-- Offset of a lane. -/
def State.capOff (s : State) (a : Opd) (disp : Option Dword) (L : Nat) : Dword := s.reg2 a L + disp.getD 0

def capKind (u : CapUse) : Nat :=
  match u with
  | .rd => kRead
  | .wr => kWrite
  | _ => kAtomic

/-- Lanes that fail the check. -/
def State.capFails (s : State) (act : List Nat) (cap : BitVec 3) (u : CapUse) (n : Nat) (off : Nat → Dword) : List (Nat × Flt) :=
  act.filterMap fun L =>
    let c := (s.cth L).getC cap.toNat
    if capPasses c u (off L) n then none else some (L, ⟨0x0A, capKind u, capVa c (off L), 0⟩)

/-- Sends one lane's request (R209, R324). -/
def State.sendRemote (s : State) (key : Nat) (L : Nat) (cap : BitVec 3) (off : Dword) (n : Nat) (o : MOrd) (op : FOp)
    (esc : Option (Nat × Nat)) : State :=
  let (id, s1) := s.fresh
  let h := Team_homeOf s.ct s.cur.who L
  let c := (s.cth L).getC cap.toNat
  let ord := s.orderOf o key
  let r : Remote :=
    { id := id, team := s.cur.team, who := s.cur.who, grp := h.1, lane := h.2, world := s.cw, launch := s.ct.launch,
      core := s.cur.core, peer := capPeer c, group := (capPerm c).getLsbD 3, va := capVa c off, n := n, op := op, esc := esc,
      sentAt := s.gtc, acq := o.acq, floor := ord.floor, after := ord.after, pc := s.cur.pc, len := s.cur.len, word := s.cur.word,
      issue := key }
  let s2 := if o.acq then s1.modCg fun g => { g with acqs := g.acqs ++ [(id, decide (o.scope = .y))] } else s1
  { s2 with egress := s2.egress ++ [r] }

/-- At level H every remote form is a privilege violation (R220), also with no active lane, of which R61 and R220 do not
speak: DESIGN CHOICE (log 37). -/
def State.notAtH (s : State) (f : State → Out) : Out :=
  if s.cur.level = .h then .next (s.killCur ePriv) else f s

/-- `LD.C` (R209). -/
def execLdC (x : XHead) (_hint : BitVec 2) (o : MOrd) (w : Wid) (sx : Bool) (cap : BitVec 3) (d a : Opd) (disp : Option Dword)
    (s : State) : Out :=
  s.notAtH fun s =>
    let act := s.active x
    let off := s.capOff a disp
    let bad := s.capFails act cap .rd w.bytes off
    let key := s.nextId
    let s1 := s.capPark key bad (bad.length < act.length)
    let ok := act.filter fun L => (bad.all fun b => b.1 ≠ L) && !(s1.cth L).gone
    let sh := ldShape (.raw w sx) d
    let s2 := ok.foldl (fun s' L =>
      if d.cls = .v || ok.getLast? = some L then
        let (id, s2) := s'.loadPend sh L
        s2.sendRemote key L cap (off L) w.bytes o (.load (.pend id 0) w.bytes sx) none
      else s'.sendRemote key L cap (off L) w.bytes o (.load .none w.bytes sx) none) s1
    .next (s2.retire x)

/-- `ST.C` (R209, R326). -/
def execStC (x : XHead) (_hint : BitVec 2) (o : MOrd) (w : Wid) (cap : BitVec 3) (a : Opd) (disp : Option Dword) (c : Opd)
    (s : State) : Out :=
  s.notAtH fun s =>
    let p := s.pullPorts (portsOf [.reg c]) (s.active x)
    let off := s.capOff a disp
    let bad := s.capFails p.2.1 cap .wr w.bytes off
    let key := p.2.2.nextId
    let s1 := p.2.2.capPark key (p.1 ++ bad) (bad.length < p.2.1.length)
    let ok := s.byHome (fun L : Nat => L) (p.2.1.filter fun L => (bad.all fun b => b.1 ≠ L) && !(s1.cth L).gone)
    let s2 := ok.foldl (fun s' L =>
      s'.sendRemote key L cap (off L) w.bytes o (.store (wordBytes (s.dataWords c w.regs L) w.bytes)) none) s1
    .next (s2.retire x)

/-- `ATOM.C` (R183, R189, R190). -/
def execAtomC (x : XHead) (_hint : BitVec 2) (o : MOrd) (op : Aop) (ty : Ty) (cap : BitVec 3) (d : BitVec 7) (a : Opd) (b : OpdB)
    (c : Opd) (rp : BitVec 3) (e : EscSet) (s : State) : Out :=
  s.notAtH fun s =>
    let p := s.pullPorts (portsOf [b, .reg c]) (s.active x)
    let n := if ty.wide then 8 else 4
    let off := s.capOff a none
    let bad := s.capFails p.2.1 cap .atom n off
    let key := p.2.2.nextId
    let r := p.2.2.escIssue p.2.1 e rp d.toNat ty.regs [] (fun _ => 0) (fun _ => .egress 0) bad p.1 (some key)
    let ok := s.byHome (fun L : Nat => L) (p.2.1.filter fun L => (bad.all fun b => b.1 ≠ L) && !(r.2.cth L).gone)
    let s2 := ok.foldl (fun s' L =>
      let bv := s.srcTy ty.wide b L
      let cv := s.srcTy ty.wide (.reg c) L
      match r.1 with
      | some req =>
        let at_ := laneKey (Team_homeOf s.ct s.cur.who L)
        s'.sendRemote key L cap (off L) n o (.atomic op ty [(.esc req at_ 0, bv, cv)]) (some (req, at_))
      | none =>
        let (id, s2) := s'.loadPend ⟨vOpd d, ty.regs, ty.regs, .words⟩ L
        s2.sendRemote key L cap (off L) n o (.atomic op ty [(.pend id 0, bv, cv)]) none) r.2
    .next (s2.retire x)

/-- `RED.C` (R190, R326). -/
def execRedC (x : XHead) (_hint : BitVec 2) (o : MOrd) (op : Aop) (ty : Ty) (cap : BitVec 3) (a : Opd) (b : OpdB) (s : State) : Out :=
  s.notAtH fun s =>
    let p := s.pullPorts (portsOf [b]) (s.active x)
    let n := if ty.wide then 8 else 4
    let off := s.capOff a none
    let bad := s.capFails p.2.1 cap .red n off
    let key := p.2.2.nextId
    let s1 := p.2.2.capPark key (p.1 ++ bad) (bad.length < p.2.1.length)
    let ok := s.byHome (fun L : Nat => L) (p.2.1.filter fun L => (bad.all fun b => b.1 ≠ L) && !(s1.cth L).gone)
    let s2 := ok.foldl (fun s' L =>
      s'.sendRemote key L cap (off L) n o (.atomic op ty [(.none, s.srcTy ty.wide b L, 0)]) none) s1
    .next (s2.retire x)

/-! ### Capability records (R211) -/

def capDisp (disp : Option Dword) : AddrOff :=
  match disp with
  | some w => .lit w
  | none => .none

/-- `CAPLD`: the tag is decided from the bytes that the load finds. -/
def execCapld (x : XHead) (cd : BitVec 3) (a : Opd) (disp : Option Dword) (s : State) : Out :=
  let act := s.active x
  let chk := s.checkAll (act.map fun L => (L, s.addrOf a (capDisp disp) L)) 32 32 kRead false
  let s1 := chk.2.parkFailed (failed chk.1) {}
  let s2 := ((passed chk.1).filter fun r => !(s1.cth r.1).gone).foldl (fun s' r =>
    let (pid, s2) := s'.addPend fun id => s'.mkPend r.1 4 cd.toNat 1 8 id
    let (id, s3) := s2.fresh
    s3.start (s3.mkFlight id r.1 plainOrd r.2.2.space 32 (.load (.pend pid 0) 32 false) (fillOf 0 r.2.2.ent) s1.nextId false)) s1
  .next (s2.retire x)

/-- A store of 32 bytes of each active lane, in home order. -/
def State.store32 (s : State) (x : XHead) (va : Nat → Dword) (bytes : Nat → List Byte) : Out :=
  let act := s.active x
  let chk := s.checkAll (act.map fun L => (L, va L)) 32 32 kWrite false
  let s1 := chk.2.parkFailed (failed chk.1) {}
  let ok := s.byHome (fun r : Nat × Dword × Acc => r.1) ((passed chk.1).filter fun r => !(s1.cth r.1).gone)
  let s2 := ok.foldl (fun s' r =>
    let (id, s2) := s'.fresh
    s2.start (s2.mkFlight id r.1 plainOrd r.2.2.space 32 (.store (bytes r.1)) 0 s1.nextId true)) s1
  .next (s2.retire x)

/-- A record's 32 bytes. -/
def State.capRecord (s : State) (w : Nat) (c : Capa) : List Byte :=
  leBytes 16 c.val.toNat ++ (if c.tag then s.capSeal w c.val else List.replicate 16 0)

/-- `CAPST`. -/
def execCapst (x : XHead) (a : Opd) (disp : Option Dword) (cs : BitVec 3) (s : State) : Out :=
  s.store32 x (s.addrOf a (capDisp disp)) fun L => s.capRecord s.cw ((s.cth L).getC cs.toNat)

/-! ### Capability registers -/

/-- A capability result of each active lane (R62). -/
def State.pendCap (s : State) (act : List Nat) (cd : BitVec 3) (f : Nat → Capa) : State :=
  act.foldl (fun s' L => (s'.addPend fun id => { s.mkPend L 4 cd.toNat 1 4 id with
    vals := (capWords (f L)).map some, tag := (f L).tag }).2) s

/-- `CAPNAR`. -/
def capNarrow (c : Capa) (b l : Dword) (mask : BitVec 4) : Capa :=
  { val := capMake (capBase c + b.toNat) l.toNat (capPeer c) (capPerm c &&& mask) (capRsv c),
    tag := capOk c && b.toNat + l.toNat ≤ capLen c && l.toNat < 2 ^ 48 }

def execCapnar (x : XHead) (cd ca : BitVec 3) (b : OpdB) (c : Opd) (mask : BitVec 4) (s : State) : Out :=
  let act := s.active x
  .next ((s.pendCap act cd fun L => capNarrow ((s.cth L).getC ca.toNat) (s.src2 b L) (s.reg2 c L) mask).retire x)

/-- `CAPRST`. -/
def execCaprst (x : XHead) (cd : BitVec 3) (s : State) : Out := .next ((s.pendCap (s.active x) cd fun _ => {}).retire x)

/-- `CAPCHK`. -/
def capCheck (c : Capa) (b l : Dword) (mask : BitVec 4) : Bool :=
  capOk c && b.toNat + l.toNat ≤ capLen c && capPerm c &&& mask = mask

def execCapchk (x : XHead) (p ca : BitVec 3) (b : OpdB) (c : Opd) (mask : BitVec 4) (s : State) : Out :=
  .next ((s.pendPred (s.active x) p false fun L => capCheck ((s.cth L).getC ca.toNat) (s.src2 b L) (s.reg2 c L) mask).retire x)

/-- Only at level S (R328), also with no active lane: DESIGN CHOICE (log 37). -/
def State.atS (s : State) (f : State → Out) : Out := if s.cur.level = .s then f s else .next (s.killCur ePriv)

def State.cap128 (s : State) (b : Opd) (L : Nat) : BitVec 128 := wordsCap ((List.range 4).map fun k => s.regAt b k L)

/-- `CAPMK` (R328). -/
def execCapmk (x : XHead) (cd : BitVec 3) (b : Opd) (s : State) : Out :=
  s.atS fun s => .next ((s.pendCap (s.active x) cd fun L => { val := s.cap128 b L, tag := true }).retire x)

/-- `CAPMK.REC` (R328): for a world without keys the record is untagged. -/
def execCapmkRec (x : XHead) (a b : Opd) (w : BitVec 7) (s : State) : Out :=
  s.atS fun s => s.store32 x (s.reg2 a) fun L =>
    s.capRecord w.toNat { val := s.cap128 b L, tag := (s.world w.toNat).keys.isSome }

end Sys2Proof.Machine
end

