-- ==== Sys2Proof/Machine/Csr.lean ====
section
/-! DEFINITION. Control registers (R120, R182, R186, R214, R216 to R218, R222, R233, R234) and the privileged
instructions CSRR, CSRW and ERET (R235). -/

namespace Sys2Proof.Machine

/-! ### Registers of a world -/

def field (v : Dword) (lo n : Nat) : Nat := v.toNat / 2 ^ lo % 2 ^ n

/-- CTXCTL's writable bits: HEN 1 to 5 and 7 to 13, CHECK, DBG (R218). -/
def ctxctlMask : Dword := 0x33FBE

/-- A ring of a fault queue lies in HBM (R216). -/
def fqFits (base size : Nat) : Bool := base % 64 = 0 && inHbm base (if size = 0 then 0 else 64 * 2 ^ size)

/-- Sets up a fault queue by FQBASE or FQSIZE (R216). -/
def World_fqSetup (w : World) (size : Bool) (v : Dword) : World :=
  let base := if size then w.fqbase else w64 (field v 0 48)
  let sz := if size then field v 0 5 else w.fqsize
  let ok := fqFits base.toNat sz && (sz = 0 || (6 ≤ sz && sz ≤ 16))
  if ok then { w with fqbase := base, fqsize := sz, fqhead := 0, fqtail := 0 } else w

/-- A write of FQHEAD (R216). -/
def World_fqHead (w : World) (v : Dword) : World :=
  if (w.fqtail - lo v).toNat ≤ 2 ^ w.fqsize then { w with fqhead := lo v } else w

/-- A write of MEMCTL: LEASE outside its range leaves the field (R120). -/
def World_memctl (w : World) (v : Dword) : World :=
  let l := field v 0 13
  { w with roshift := field v 13 3, lease := if 16 ≤ l && l ≤ 4096 then l else w.lease }

/-- Starts a translation invalidate (R234): SPAN and the page of VA. -/
def State.startInval (s : State) (w : Nat) (v : Dword) (by_ : Option (Nat × Actor)) : State :=
  let (id, s1) := s.fresh
  let span := field v 6 2
  let s2 := State.dropSpan { s1 with invals := s1.invals ++ [⟨id, w, span, field v 16 40, by_, some id, 0⟩] } w span
    (field v 16 40)
  match by_ with
  | some (t, a) => s2.modTeam t fun tm => tm.modActor a fun g => { g with invs := g.invs ++ [id] }
  | none => s2.modWorld w fun x => { x with hostInvs := x.hostInvs ++ [id] }

/-- FQRES (R217): reserved bits set discard the write; action 3 is ignored. -/
def State.fqres (s : State) (w : Nat) (v : Dword) : State :=
  if field v 34 30 ≠ 0 then s
  else
    match field v 32 2 with
    | 0 => s.resume w (lo v) .retry
    | 1 => s.resume w (lo v) .skip
    | 2 => s.resume w (lo v) .kill
    | _ => s

/-- A write of a register of a world, by a privileged instruction or the host. -/
def State.ctlWrite (s : State) (w n : Nat) (v : Dword) (by_ : Option (Nat × Actor)) : State :=
  match n with
  | 0x000 => s.modWorld w fun x => { x with ctxctl := v &&& ctxctlMask }
  | 0x015 => s.modWorld w fun x => { x with tvec := v &&& 0xFFFFFFFFFFFFFFFC }
  | 0x016 => s.modWorld w fun x => { x with tvlen := v }
  | 0x020 => s.modWorld w fun x => World_fqSetup x false v
  | 0x021 => s.modWorld w fun x => World_fqSetup x true v
  | 0x022 => s.modWorld w fun x => World_fqHead x v
  | 0x024 => s.fqres w v
  | 0x030 => s.startInval w v by_
  | 0x040 => s.modWorld w fun x => World_memctl x v
  | _ => s

def memctlVal (w : World) : Dword := w64 (w.lease % 8192 + w.roshift * 8192)

/-- Registers that a world's copy holds; the others read zero here. -/
def World_ctl (w : World) (n : Nat) : Dword :=
  match n with
  | 0x000 => w.ctxctl
  | 0x015 => w.tvec
  | 0x016 => w.tvlen
  | 0x020 => w.fqbase
  | 0x021 => w64 w.fqsize
  | 0x022 => zext32 w.fqhead
  | 0x023 => zext32 w.fqtail
  | 0x040 => memctlVal w
  | _ => 0

/-! ### Registers of cores and dies -/

/-- ESCBUD (R182). -/
def Core_escbud (c : Core) : Dword := w64 (c.budget + c.used * 2 ^ 24)

/-- ESCRPL (R186). -/
def Die_escrpl (d : Die) : Dword := w64 (d.backoff + d.maxsh * 2 ^ 12 + d.win * 2 ^ 16)
def Die_setEscrpl (d : Die) (v : Dword) : Die :=
  { d with
    backoff := if field v 0 12 = 0 then d.backoff else field v 0 12,
    maxsh := field v 12 4,
    win := if field v 16 8 = 0 then d.win else field v 16 8 }

/-- ESCTO (R222). -/
def Die_escto (d : Die) : Dword := w64 (d.toRemote + d.toLocal * 2 ^ 24)
def Die_setEscto (d : Die) (v : Dword) : Die :=
  { d with
    toRemote := if field v 0 24 = 0 then d.toRemote else field v 0 24,
    toLocal := if field v 24 24 = 0 then d.toLocal else field v 24 24 }

def State.hwWrite (s : State) (core n : Nat) (v : Dword) : State :=
  match n with
  | 0x041 => s.modCore core fun c => { c with budget := field v 0 24 }
  | 0x042 => s.modDie (dieOf core) fun d => Die_setEscrpl d v
  | 0x043 => s.modDie (dieOf core) fun d => Die_setEscto d v
  | _ => s

/-! ### Access by level (R233) -/

def csrReads (l : Level) (n : Nat) : Bool :=
  let isS := l = .s
  let hs := l = .h || isS
  if n = 0x000 || n = 0x001 || n = 0x002 || n = 0x003 || n = 0x015 || n = 0x016 || n = 0x041 then hs
  else if 0x010 ≤ n && n ≤ 0x014 then l = .h
  else if n = 0x040 then true
  else if n = 0x020 || n = 0x021 || n = 0x022 || n = 0x023 || n = 0x030 || n = 0x042 || n = 0x043 then isS
  else if 0x050 ≤ n && n ≤ 0x055 then isS
  else false

def csrWrites (l : Level) (n : Nat) : Bool :=
  l = .s && [0x000, 0x015, 0x016, 0x020, 0x021, 0x022, 0x024, 0x030, 0x040, 0x041, 0x042, 0x043].contains n

/-- Value of a control register as the issuer reads it. -/
def State.csrValue (s : State) (n : Nat) : Dword :=
  let l := s.launchOf s.ct
  let t := s.cg.trap
  match n with
  | 0x001 => l.ctxerr.zeroExtend 64
  | 0x002 => l.errpc
  | 0x003 => zext32 l.errword
  | 0x010 => t.cause
  | 0x011 => t.pc
  | 0x012 => t.addr
  | 0x013 => t.mask
  | 0x014 => t.word
  | 0x030 => s.cg.invT
  | 0x041 => Core_escbud (s.core s.cur.core)
  | 0x042 => Die_escrpl (s.die (dieOf s.cur.core))
  | 0x043 => Die_escto (s.die (dieOf s.cur.core))
  | _ => if 0x050 ≤ n && n ≤ 0x055 then w64 (slm (n - 0x050)) else World_ctl (s.world s.cw) n

/-- `CSRR` (R234, R235): a read of TLBINV waits at the instruction for the group's invalidates. The level is tested
before the active lanes: DESIGN CHOICE (log 37). -/
def execCsrr (x : XHead) (d : BitVec 7) (n : BitVec 12) (s : State) : Out :=
  if !csrReads s.cur.level n.toNat then .next (s.killCur ePriv)
  else if n = 0x030 && s.cg.invs ≠ [] then .next s
  else
    let v := s.csrValue n.toNat
    .next ((s.pendRes (s.active x) [] (vOpd d) false fun _ => resWords true v).retire x)

/-- `CSRW` (R235): the pair of the highest active lane. The level is tested before the active lanes: DESIGN CHOICE
(log 37). -/
def execCsrw (x : XHead) (n : BitVec 12) (a : Opd) (s : State) : Out :=
  if !csrWrites s.cur.level n.toNat then .next (s.killCur ePriv)
  else
    match (s.active x).getLast? with
    | none => .next (s.retire x)
    | some L =>
      let v := s.reg2 a L
      let s1 := s.retire x
      .next ((s1.ctlWrite s.cw n.toNat v (some (s.cur.team, s.cur.who))).hwWrite s.cur.core n.toNat v)

/-- `ERET` (R219, R221, R235). -/
def execEret (x : XHead) (act : Action) (s : State) : Out :=
  if s.cur.level ≠ .h then .next (s.killCur ePriv)
  else .next ((s.eretActor s.cur.team s.cur.who act).retire x)

end Sys2Proof.Machine
end

