-- ==== Sys2Proof/Machine/Sched.lean ====
section
/-! DEFINITION. REGROUP and the Conjugator's candidates (R256, R257), LAUNCH, EVSIG and EVWAIT (R253 to R255), with
the events they act on (R244). -/

namespace Sys2Proof.Machine

/-! ### REGROUP (R257) -/

def execRegroup (x : XHead) (slot : BitVec 4) (w : BitVec 10) (s : State) : Out :=
  s.wholeGroup fun s =>
    let act := s.active x
    match s.rcvSetOp act slot.toNat with
    | none => .next (s.killCur eRcv)
    | some s1 =>
      let s2 := s1.retire x
      let next := s.cur.pc + w64 s.cur.len
      let hs := s.homesOf act
      let cs : List Cand := hs.map fun h => ⟨h.1, h.2, next, s.now, s.now + w.toNat, slot.toNat⟩
      .next (s2.modCt fun t =>
        let t1 := hs.foldl (fun t h => t.modThread h.1 h.2 fun th => { th with st := .submitted }) t
        { t1 with cands := t1.cands ++ cs })

/-! ### Events (R244) -/

/-- Physical address of an event's record. -/
def State.eventPa (s : State) (w e : Nat) : Nat := (s.world w).evbase.toNat + 16 * e

/-- COUNT as its home holds it now. -/
def State.eventCount (s : State) (w e : Nat) : Nat := leNat (s.phys (some w) (s.eventPa w e) 8)

/-- A signal that comes from no instruction: an atomic in home order (R128, R244). -/
def State.signalEvent (s : State) (w e a : Nat) : State :=
  let (id, s1) := s.fresh
  s1.arriveAt a id w 0 .lead leadGrp 0 (s.eventPa w e) 16 .signal none false false

/-- Order of `.REL` and `.ACQ` at scope `.D` (R126). -/
def relD : MOrd := ⟨false, true, .d⟩

/-- `EVSIG` (R255). -/
def execEvsig (x : XHead) (b : OpdB) (s : State) : Out :=
  match (s.active x).getLast? with
  | none => .next (s.retire x)
  | some L =>
    let e := (s.src1 b L).toNat
    if e ≥ 4096 then .next (s.killCur eBnds)
    else
      let (id, s1) := s.fresh
      .next ((s1.start (s1.mkFlight id L relD (.glob (s.eventPa s.cw e)) 16 .signal 0 s.nextId false)).retire x)

/-- The read of a wait that is met acts as an acquire now, and a fence covers it (R124, R126, R255). -/
def Group_acquireNow (g : Group) (gtc : Nat) : Group := Group_done gtc false { g with floor := max g.floor gtc }

/-- The read of COUNT by threads of an actor may perform now: it comes after their acquires and their own accesses to the record,
waits for an engine that owns the line, and has its turn there (R121, R126, R127, R129). -/
def State.evReady (s : State) (t : Team) (a : Actor) (hs : List (Nat × Nat)) (e : Nat) : Bool :=
  let g := t.actor a
  let sps : List (Space × Nat) := [(.glob (s.eventPa (s.worldOf t) e), 8)]
  g.acqs = [] && decide (max g.floor (s.threadsFloor t.id s.nextId hs sps) ≤ s.gtc) && s.threadsBefore t.id s.nextId hs sps = [] &&
    !s.ownedFor [] (placeLines sps) && s.mayServe (placeLines sps) t.core s.nextId false

/-- Such a read performs. -/
def State.evRead (s : State) (t : Team) (e : Nat) : State := s.serve (linesOf (s.eventPa (s.worldOf t) e) 8) t.core s.nextId true

/-- `EVWAIT` (R255): a condition already met does not block, once its read may perform. -/
def execEvwait (x : XHead) (a : Opd) (b : OpdB) (s : State) : Out :=
  let act := s.active x
  match act.getLast? with
  | none => .next (s.retire x)
  | some L =>
    let e := (s.src1 b L).toNat
    let thr := s.reg2 a L
    if e ≥ 4096 then .next (s.killCur eBnds)
    else if s.evReady s.ct s.cur.who (s.lanesOf act) e && decide (thr.toNat ≤ s.eventCount s.cw e) then
      .next (((s.evRead s.ct e).modCg fun g => Group_acquireNow g s.gtc).retire x)
    else
      .next ((s.modCt fun t => act.foldl (fun t L => t.modThreadAt s.cur.who L fun th =>
        { th with st := .event e thr s.cur.len }) t).retire x)

/-! ### LAUNCH (R254) -/

/-- Every active lane parks for a fault they share. -/
def State.parkShared (s : State) (act : List Nat) (f : Flt) : State :=
  s.takeFault s.cur (act.map fun L => (Team_homeOf s.ct s.cur.who L, f)) {}

/-- Virtual address of record k of a queue (R238). -/
def Queue_recVa (q : Queue) (k : Nat) : Dword := q.base + w64 (128 * (k % 2 ^ q.size))

/-- A queue that an issuer may feed (R254 step 2). -/
def State.mayLaunch (s : State) (q : Queue) : Bool :=
  q.slots ≠ 0 && q.owner = s.cw && (!q.priv || s.cur.level = .s)

def execLaunch (x : XHead) (gd a : Opd) (qn : BitVec 10) (s : State) : Out :=
  let act := s.active x
  match act.getLast? with
  | none => .next (s.retire x)
  | some L =>
    let s := s.queueServe qn.toNat s.cur.core
    let h := Team_homeOf s.ct s.cur.who L
    let r := s.access s.cur.core s.cur.team h.1 h.2 (s.reg2 a L) 128 128 kRead false
    let q := s.queue qn.toNat
    let put (s' : State) (v : Word) : State :=
      (s'.addPend fun id => { s.mkPend L (clsCode gd.cls) gd.no.toNat 1 1 id with vals := [some v] }).2
    match r.1 with
    | .error f => .next ((r.2.parkShared act f).retire x)
    | .ok p =>
      let bs := r.2.spaceBytes s.cur.core s.cur.team p.space 128
      if !s.mayLaunch q then .next (r.2.killCur ePriv)
      else if !q.en || !q.devq || (q.tail - q.head).toNat = 2 ^ q.size then .next ((put r.2.performedNow 0xFFFFFFFF).retire x)
      else
        let va := Queue_recVa q q.tail.toNat
        let w := r.2.globAcc s.cur.core s.cw va kWrite false
        match w.1 with
        | .error c => .next ((w.2.parkShared act ⟨c, kWrite, va, 0⟩).retire x)
        | .ok d =>
          let (id, s1) := w.2.performedNow.fresh
          let s2 := s1.modQueue qn.toNat fun q => { q with tail := q.tail + 1, stores := q.stores ++ [id] }
          let s3 := s2.start (s2.mkFlight id L relD d.space 128 (.store bs) 0 w.2.nextId false)
          .next ((put s3 q.tail).retire x)

end Sys2Proof.Machine
end

