-- ==== Sys2Proof/Machine/Issue.lean ====
section
/-! DEFINITION. Fetching and decoding (R46, R74, R219), which threads are issuable (R13, R39, R63), the checking
scoreboard (R64), the choice of groups and paths (R14 to R16, R28), and what an issue that cannot execute comes to
(R46, R71). -/

namespace Sys2Proof.Machine

/-! ### Fetch -/

/-- What the words at a program counter are. -/
inductive Fetched where
  | ok (i : Instr) (len : Nat) (word : Word)
  | illegal (word : Word)
  /-- a word lies outside the code region; the first word when it lies inside -/
  | outside (word : Word)
  | fault (f : Flt)
  /-- a line of it is owned by an engine -/
  | wait
  deriving DecidableEq, Repr

/-- The code region at a level: first address and bytes (R72, R74, R219). -/
def State.region (s : State) (t : Team) (l : Level) : Nat × Nat :=
  let w := s.world (s.worldOf t)
  if l = .h then (w.tvec.toNat, w.tvlen.toNat)
  else ((s.launchOf t).r.hdr.toNat + 64, (s.hdrOf t).codebytes)

def inRegion (r : Nat × Nat) (pc n : Nat) : Bool := r.1 ≤ pc && pc + n ≤ r.1 + r.2

/-- Place of one word of code. -/
def State.codeWord (s : State) (t : Team) (pc : Dword) : Except Flt (Nat × TlbEnt) :=
  match (s.globAcc t.core (s.worldOf t) pc kFetch false).1 with
  | .ok ⟨.glob pa, some e⟩ => .ok (pa, e)
  | .ok _ => .error ⟨7, kFetch, pc, 0⟩
  | .error c => .error ⟨c, kFetch, pc, 0⟩

def State.wordAt (s : State) (t : Team) (pa : Nat) : Word := w32 (leNat (s.seen (some (s.worldOf t)) (s.worldOf t) pa 4))

/-- The first n words from a program counter, or the first fault. -/
def State.codeWords (s : State) (t : Team) (pc : Dword) (n : Nat) : Except Flt (List Word) :=
  match n with
  | 0 => .ok []
  | n + 1 =>
    match s.codeWord t pc with
    | .error f => .error f
    | .ok (pa, _) =>
      match s.codeWords t (pc + 4) n with
      | .error f => .error f
      | .ok ws => .ok (s.wordAt t pa :: ws)

/-- One fetch and decode (R46, R69, R70), without its traces in the caches. -/
def State.peek (s : State) (t : Team) (lead : Bool) (l : Level) (pc : Dword) : Fetched :=
  let r := s.region t l
  if !inRegion r pc.toNat 4 then .outside 0
  else
    match s.codeWord t pc with
    | .error f => .fault f
    | .ok (pa, _) =>
      let w0 := s.wordAt t pa
      let n := wordsOfLen (Raw.ofWord0 w0).len
      if s.owned none (linesOf pa 4) then .wait
      else if !inRegion r pc.toNat (4 * n) then .outside w0
      else
        match s.codeWords t pc n with
        | .error f => .fault f
        | .ok ws =>
          match decodeWords ws with
          | .error _ => .illegal w0
          | .ok (i, k) => if legalIn (s.hdrOf t) lead i then .ok i (4 * k) w0 else .illegal w0

/-- Traces of a fetch: translations, and the lines filled on the read-only path (R46, R113, R118). -/
def State.fetchTrace (s : State) (t : Team) (pc : Dword) (n : Nat) : State :=
  match n with
  | 0 => s
  | n + 1 =>
    let r := s.globAcc t.core (s.worldOf t) pc kFetch false
    let s1 := match r.1 with
      | .ok ⟨.glob pa, e⟩ => r.2.fillBy t.core (s.worldOf t) pa 4 (fillOf 1 e)
      | _ => r.2
    s1.fetchTrace t (pc + 4) n

/-! ### What an instruction waits for (R13, R39, R63) -/

def rangesMeet (a n b m : Nat) : Bool := a < b + m && b < a + n

/-- Class code of an operand in results; 9 for what no result writes. -/
def useCode (u : Use) : Nat :=
  match u.cls with
  | .v => 0
  | .g => 1
  | .t => 2
  | .p => 3
  | .c => 4
  | _ => 9

/-- A register range of a thread that an outstanding result, one of an instruction that has not acted among them, or a register
abroad or spilled holds up. -/
def State.useHeld (s : State) (t : Team) (a : Actor) (h : Nat × Nat) (u : Use) : Bool :=
  let k := useCode u
  let same (who : Actor) (g l : Nat) : Bool := if k = 1 then decide (who = a) else k = 2 || (g = h.1 && l = h.2)
  (s.pends.any fun p => p.team = t.id && p.cls = k && rangesMeet u.no u.cnt p.no p.cnt && same p.who p.grp p.lane) ||
  (t.pipe.any fun p => p.sb && p.cls = k && rangesMeet u.no u.cnt p.no 1 && same p.who p.grp p.lane) ||
  (s.probes.any fun p => p.held.isSome && p.team = t.id && (p.instr.uses.any fun w =>
    w.wr && useCode w = k && rangesMeet u.no u.cnt w.no w.cnt) &&
    (if k = 1 then decide (p.who = a) else k = 2 || p.lanes.any fun x => x.grp = h.1 && x.lane = h.2)) ||
  (k = 0 && ((List.range u.cnt).any fun i =>
    s.abroad t.id h.1 h.2 (u.no + i) || (t.groupAt h.1).spilled.contains (u.no + i)))

/-- Lanes whose value a shuffle can read for a lane: one, for a literal; else any of the segment (R161, R163). -/
def shflReads (m : ShflMode) (seg : BitVec 3) (b : OpdB) (L : Nat) : List Nat :=
  match b with
  | .lit w => [(shflLane m (segSize seg) L (lo w).toNat).getD L]
  | .reg _ => segLanes (segSize seg) L

/-- The register, and the lanes in which an instruction can read it for a lane, whatever their state (R161). Votes, ballots,
matches, compactions, scans and reductions read the path's own active lanes. -/
def xReads (i : Instr) (L : Nat) : Option (Opd × Nat × List Nat) :=
  match i with
  | .shflIdx _ _ a b => some (vOpd a, 1, shflReads .idx 0 (vB b) L)
  | .shflUp _ _ a b => some (vOpd a, 1, shflReads .up 0 (vB b) L)
  | .shflDown _ _ a b => some (vOpd a, 1, shflReads .down 0 (vB b) L)
  | .shflXor _ _ a b => some (vOpd a, 1, shflReads .bxor 0 (vB b) L)
  | .qxchH _ _ a => some (vOpd a, 1, [Nat.xor L 1])
  | .qxchV _ _ a => some (vOpd a, 1, [Nat.xor L 2])
  | .qxchD _ _ a => some (vOpd a, 1, [Nat.xor L 3])
  | .shflIdxExt _ ty sg _ a b => some (a, ty.regs, shflReads .idx sg b L)
  | .shflUpExt _ ty sg _ a b => some (a, ty.regs, shflReads .up sg b L)
  | .shflDownExt _ ty sg _ a b => some (a, ty.regs, shflReads .down sg b L)
  | .shflXorExt _ ty sg _ a b => some (a, ty.regs, shflReads .bxor sg b L)
  | .qxchHExt _ ty _ a => some (vOpd a, ty.regs, [Nat.xor L 1])
  | .qxchVExt _ ty _ a => some (vOpd a, ty.regs, [Nat.xor L 2])
  | .qxchDExt _ ty _ a => some (vOpd a, ty.regs, [Nat.xor L 3])
  | _ => none

/-- A test of the other lanes' registers that an instruction can read for a lane. -/
def xAny (t : Team) (a : Actor) (i : Instr) (L : Nat) (test : Nat × Nat → Use → Bool) : Bool :=
  match xReads i L with
  | some (o, n, js) => js.any fun j => match t.place? a j with
    | some h => test h { kind := .src, cls := o.cls.u, no := o.no.toNat, cnt := n, al := 1, wr := false }
    | none => false
  | none => false

/-- Instructions that a helper lane executes alongside (R11). -/
def helperRuns : Instr → Bool
  | .bra .. | .call .. | .ret .. | .brx .. | .exit .. | .nop .. | .yieldB .. | .bkpt .. => false
  | .st32 .. | .st64 .. | .st128 .. | .ballot .. => false
  | .braExt .. | .brxExt .. | .callExt .. | .retExt .. | .exitExt .. | .yieldExt .. | .nopExt .. => false
  | .rcvSet .. | .rcvWait .. | .barArv .. | .barWait .. | .barSync .. | .cbar .. | .dqpush .. | .dqpushAll .. => false
  | .dqpop .. | .mfsr .. | .trap .. | .bkptExt .. | .waitt .. => false
  | .voteAny .. | .voteAll .. | .voteEq .. | .ballotExt .. | .matchX .. | .compact .. | .gscan .. | .gred .. => false
  | .st .. | .ldC .. | .stC .. | .lde .. | .atom .. | .red .. | .atomC .. | .redC .. | .chs .. | .fnc .. | .waitf .. => false
  | .acp .. | .sraff .. | .srind .. | .srprb .. | .srstop .. | .gath .. | .scat .. | .scatAdd .. => false
  | .capld .. | .capst .. | .capnar .. | .caprst .. | .capchk .. | .csrr .. | .csrw .. | .eret .. => false
  | .capmk .. | .capmkRec .. | .regroup .. | .launch .. | .evsig .. | .evwait .. => false
  | .mzero .. | .mrd .. | .mwr .. | .mwmk .. | .mldb .. | .mgata .. | .mmq .. | .mms .. | .mst .. | .tcut .. => false
  | .infl .. | .attn .. | .kvapp .. | .kvtrim .. | .kvqry .. => false
  | _ => true

/-- Whole-group instructions (R15, R162). -/
def isWhole : Instr → Bool
  | .shflIdx .. | .shflUp .. | .shflDown .. | .shflXor .. | .ballot .. => true
  | .shflIdxExt _ _ sg .. | .shflUpExt _ _ sg .. | .shflDownExt _ _ sg .. | .shflXorExt _ _ sg .. => sg = 0
  | .voteAny _ sg .. | .voteAll _ sg .. | .voteEq _ sg .. => sg = 0
  | .gscan _ _ _ _ sg .. | .gred _ _ _ sg .. => sg = 0
  | .ballotExt .. | .matchX .. | .compact .. => true
  | .barArv .. | .barWait .. | .barSync .. | .cbar .. | .dqpop .. | .regroup .. | .eret .. => true
  | .mzero .. | .mrd .. | .mwr .. | .mwmk .. | .mldb .. | .mgata .. | .mmq .. | .mms .. | .mst .. | .tcut .. => true
  | .infl .. | .attn .. => true
  | _ => false

/-- An access that changes what it touches. -/
def FOp_writes : FOp → Bool
  | .load .. | .eload .. | .kvqry .. => false
  | _ => true

/-- Escorted requests standing in a core's request port (R185). -/
def State.portCount (s : State) (core : Nat) : Nat :=
  (s.escs.filter fun r => r.core = core && r.lanes.any fun l => l.hold = .port && l.stat = .out).length

/-- The escort set of an instruction. -/
def escOf : Instr → EscSet
  | .lde _ _ _ _ _ _ _ _ e => e
  | .atom _ _ _ _ _ _ _ _ _ _ e => e
  | .atomC _ _ _ _ _ _ _ _ _ _ _ e => e
  | .chs _ _ _ _ _ _ e => e
  | .gath _ _ _ _ _ _ _ _ e => e
  | _ => ⟨0, 0⟩

/-- The guard of an instruction holds in a thread; a base word has none (R48, R61). -/
def guardOn (i : Instr) (th : Thread) : Bool :=
  match headOf i with
  | some x => guardHolds th x
  | none => true

/-- What holds an instruction up besides its registers, when any of the lanes at it is active: an empty or full decision
queue, 64 copies outstanding, invalidates, a full request port (R31, R155, R184, R227, R234). -/
def State.instrHeld (s : State) (t : Team) (a : Actor) (i : Instr) (ls : List Nat) : Bool :=
  (ls.any fun L => guardOn i (t.threadAt a L)) &&
  ((match i with
    | .dqpop .. => (dqOpen t.dq (Actor_part a) 0).isNone && !Team_noLead t
    | .dqpush .. | .dqpushAll .. => decide (t.dq.length ≥ 64) && Team_liveGroups t ≠ []
    | .acp .. => (s.pends.filter fun p => p.team = t.id && p.acp).length ≥ 64
    | .csrr _ _ n => n = 0x030 && (t.actor a).invs ≠ []
    | _ => false) || ((escOf i).cnt ≠ 0 && decide (s.portCount t.core ≥ 64)))

/-- A stream port of an instruction has no element for a lane yet (R202). -/
def State.portHeld (s : State) (t : Team) (a : Actor) (L : Nat) (u : Use) : Bool :=
  let _ := s
  if u.cls = .f then
    let x := (t.actor a).stream u.no
    Stream_live x L && (Stream_held x L).isNone
  else false

/-- Helper lanes that would execute beside a thread (R11). -/
def Team_helpersOf (t : Team) (a : Actor) (L : Nat) : List Nat :=
  match a with
  | .grp _ =>
    let quad := (List.range 4).map fun i => L / 4 * 4 + i
    if quad.find? (fun j => !(t.threadAt a j).gone) = some L then quad.filter fun j => (t.threadAt a j).gone else []
  | _ => []

/-- A thread that nothing but its instruction can hold up (R13). -/
def State.standing (s : State) (t : Team) (a : Actor) (L : Nat) : Bool :=
  let th := t.threadAt a L
  let h := Team_homeOf t a L
  th.st = .run && decide (th.ready ≤ s.cycle t.core) &&
    (match a with | .grp _ => !Team_inConj t h.1 h.2 | _ => true)

/-- Whether the instruction at its program counter, where `ls` stand, lets a thread issue, with the helper lanes beside it
(R11, R13, R39, R63, R161). -/
def State.letsIssue (s : State) (t : Team) (a : Actor) (f : Fetched) (ls : List Nat) (L : Nat) : Bool :=
  match f with
  | .wait => false
  | .ok i _ _ =>
    let us := i.uses
    let h := Team_homeOf t a L
    (us.all fun u => !s.useHeld t a h u && !s.portHeld t a L u) &&
      (!helperRuns i || (Team_helpersOf t a L).all fun j => us.all fun u =>
        u.cls ≠ .v && u.cls ≠ .p || !s.useHeld t a (Team_homeOf t a j) u) &&
      (L :: if helperRuns i then Team_helpersOf t a L else []).all (fun j => !xAny t a i j (s.useHeld t a)) && !s.instrHeld t a i ls
  | _ => true

/-! ### Paths (R13 to R16) -/

/-- A path: its program counter and level, and its positions. -/
structure Path where
  pc : Dword
  level : Level
  ls : List Nat
  deriving DecidableEq, Repr

def addPath (ps : List Path) (pc : Dword) (l : Level) (L : Nat) : List Path :=
  match ps with
  | [] => [⟨pc, l, [L]⟩]
  | p :: r => if p.pc = pc ∧ p.level = l then { p with ls := p.ls ++ [L] } :: r else p :: addPath r pc l L

/-- Paths with their instructions: the issuable threads of each program counter (R13). -/
def State.pathsF (s : State) (t : Team) (a : Actor) : List (Path × Fetched) :=
  let ps := ((t.positions a).filter fun L => s.standing t a L).foldl
    (fun ps L => addPath ps (t.threadAt a L).pc (t.threadAt a L).level L) []
  (ps.map fun p =>
    let f := s.peek t (a = .lead) p.level p.pc
    ({ p with ls := p.ls.filter fun L => s.letsIssue t a f p.ls L }, f)).filter fun p => p.1.ls ≠ []

/-- R14: most threads, then the lower program counter. -/
def betterPath (p q : Path) : Bool := p.ls.length > q.ls.length || (p.ls.length = q.ls.length && decide (p.pc.toNat < q.pc.toNat))

def bestOf (better : Path → Path → Bool) (ps : List Path) : Option Path :=
  ps.foldl (fun b p => match b with
    | none => some p
    | some q => if better p q then some p else some q) none

def ageOf (ages : List Age) (pc : Dword) : Option Age := ages.find? fun a => a.pc = pc && a.aged

/-- R16: aged longest, then the lower program counter. -/
def olderPath (ages : List Age) (p q : Path) : Bool :=
  let n (x : Path) : Nat := ((ageOf ages x.pc).map (·.n)).getD 0
  n p > n q || (n p = n q && decide (p.pc.toNat < q.pc.toNat))

def pickPath (ages : List Age) (ps : List Path) : Option Path :=
  match bestOf (olderPath ages) (ps.filter fun p => (ageOf ages p.pc).isSome) with
  | some p => some p
  | none => bestOf betterPath ps

/-- Whether the instruction of a path is a whole-group one. -/
def Fetched_whole (f : Fetched) : Bool :=
  match f with
  | .ok i _ _ => isWhole i
  | _ => false

/-- The one or two paths that issue (R14 to R16), out of those that could. -/
def picksOf (ages : List Age) (pf : List (Path × Fetched)) : List (Path × Fetched) :=
  let at_ (p : Path) : Option (Path × Fetched) := pf.find? fun x => x.1 = p
  let ps := pf.map (·.1)
  match (pickPath ages ps).bind at_ with
  | none => []
  | some p =>
    if Fetched_whole p.2 then [p]
    else
      match (pickPath ages (ps.filter fun q => q ≠ p.1)).bind at_ with
      | none => [p]
      | some q => if Fetched_whole q.2 then [p] else [p, q]

/-- Ages after an issue cycle (R16). -/
def nextAges (ages : List Age) (ps sel : List Path) : List Age :=
  let up (p : Path) : Option Age :=
    if sel.any fun q => q.pc = p.pc then none
    else
      match ages.find? fun a => a.pc = p.pc with
      | some a => some { a with n := a.n + 1, aged := a.aged || decide (a.n + 1 ≥ 64) }
      | none => some ⟨p.pc, 1, false⟩
  -- an aged program counter without an issuable path stays aged
  let kept := (ages.filter fun a => a.aged && (ps.all fun p => p.pc ≠ a.pc) && (sel.all fun p => p.pc ≠ a.pc)).map
    fun a => { a with n := a.n + 1 }
  (ps.filterMap up).foldl (fun acc a => if acc.any fun b => b.pc = a.pc then acc else acc ++ [a]) kept

/-! ### The checking scoreboard (R64) -/

def State.checking (s : State) (t : Team) : Bool := (s.hdrOf t).check || (s.world (s.worldOf t)).ctxctl.getLsbD 16

/-- A fixed-latency result of a register of a thread is still to come. -/
def Team_early (t : Team) (a : Actor) (h : Nat × Nat) (u : Use) : Bool :=
  let k := useCode u
  t.pipe.any fun p => !p.sb && p.cls = k && rangesMeet u.no u.cnt p.no 1 && !(k = 3 && p.no = 7) &&
    (if k = 1 then decide (p.who = a) else if k = 2 then true else p.grp = h.1 && p.lane = h.2)

/-- A scoreboard hazard: of the guard in any lane of the path or helper lane beside it, of the other operands in those
where it holds, and of a cross-lane source in every lane that they can read (R11, R64, R161). -/
def State.hazard (s : State) (t : Team) (a : Actor) (p : Path) (i : Instr) : Bool :=
  let help := if helperRuns i then p.ls.flatMap (Team_helpersOf t a) else []
  s.checking t && (p.ls ++ help).any fun L =>
    let early := Team_early t a (Team_homeOf t a L)
    (match headOf i with
      | some x => x.gu.any early
      | none => false) ||
    (guardOn i (t.threadAt a L) && (i.uses.any early || xAny t a i L (Team_early t a)))

/-! ### One cycle of a core -/

/-- Group-like objects of a team with a sub-core and an active set: groups, then conjugate groups (R23, R259). -/
def Team_actors (t : Team) : List Actor := (t.allGroups.map Actor.grp) ++ t.conj.map fun c => Actor.conj c.id

/-- What a slot comes to: a kill with its sticky bit, a fetch fault, or an instruction. -/
inductive SlotUse where
  | kill (bit : Nat) (word : Word)
  | fault (f : Flt)
  | run (i : Instr) (len : Nat) (word : Word)
  deriving DecidableEq, Repr

def State.slotUse (s : State) (t : Team) (a : Actor) (p : Path) (f : Fetched) : SlotUse :=
  match f with
  | .ok i len w => if s.hazard t a p i then .kill (if p.level = .h then eDtrap else eScb) w else .run i len w
  | .illegal w => .kill eIll w
  | .outside w => .kill eIll w
  | .fault f => .fault f
  | .wait => .kill eIll 0

def ctxOf (core team : Nat) (a : Actor) (p : Path) (len : Nat) (w : Word) (slot : Nat) (b : Option Before) : IssueCtx :=
  { core := core, team := team, who := a, mask := maskOf p.ls, level := p.level, pc := p.pc, len := len, word := w, slot := slot,
    before := b }

/-- What an actor has issued and what is known of it as a cycle begins, whose names begin at `cut` (R124). -/
def State.beforeNow (s : State) (team : Nat) (a : Actor) (cut : Nat) : Before :=
  { cut := cut, known := s.doneNow team a false, knownY := s.doneNow team a true }

/-- Issues the picked paths of one group or lead thread: a kill of either path executes neither (R71). -/
def State.issueActor (s : State) (core : Nat) (t : Team) (a : Actor) (cut : Nat) : State :=
  let pf := s.pathsF t a
  let ps := picksOf (t.actor a).ages pf
  let us := ps.map fun p => (p.1, s.slotUse t a p.1 p.2)
  let now := s.cycle core
  let s0 := s.modTeam t.id fun tm => tm.modActor a fun g =>
    { g with ages := nextAges g.ages (pf.map (·.1)) (ps.map (·.1)), lastIssue := now, fresh := false, since := none }
  match us.find? fun u => match u.2 with | .kill .. => true | _ => false with
  | some (p, .kill bit w) => s0.killActor t.id a bit (some (p.pc, w))
  | _ =>
    (us.zipIdx).foldl (fun s' u =>
      match u.1.2 with
      | .run i len w =>
        let s1 := s'.fetchTrace t u.1.1.pc (len / 4)
        { s1 with issueQ := s1.issueQ ++ [(ctxOf core t.id a u.1.1 len w u.2 (some (s.beforeNow t.id a cut)), i)] }
      | .fault f =>
        s'.takeFault (ctxOf core t.id a u.1.1 4 0 u.2 none)
          (u.1.1.ls.map fun L => (Team_homeOf t a L, f)) { fetch := true }
      | .kill .. => s') s0

/-- Key of a group-like object in round-robin order: team, then group, a conjugate group after its lowest member. R14
names no cyclic order: DESIGN CHOICE (log 38). -/
def rrKey (t : Team) (a : Actor) : Nat × Nat := (t.id, Team_order t a)
def keyLt (x y : Nat × Nat) : Bool := x.1 < y.1 || (x.1 = y.1 && decide (x.2 < y.2))

/-- Next after the last selected, wrapping (R14). -/
def rrPick (last : Option (Nat × Nat)) (cs : List (Team × Actor)) : Option (Team × Actor) :=
  let least (l : List (Team × Actor)) : Option (Team × Actor) :=
    l.foldl (fun b c => match b with
      | none => some c
      | some x => if keyLt (rrKey c.1 c.2) (rrKey x.1 x.2) then some c else some x) none
  match last with
  | none => least cs
  | some k =>
    match least (cs.filter fun c => keyLt k (rrKey c.1 c.2)) with
    | some c => some c
    | none => least cs

/-- Resident teams of a core. -/
def State.residents (s : State) (core : Nat) : List Team := s.teams.filter fun t => t.core = core && t.place = .resident

/-- Members of a sub-core's active set with an issuable path, past their promotion (R14, R26). -/
def State.ready (s : State) (core sub : Nat) : List (Team × Actor) :=
  (s.residents core).flatMap fun t => ((Team_actors t).filter fun a =>
    let g := t.actor a
    g.active && g.sub = sub && decide (g.notBefore ≤ s.cycle core) && s.pathsF t a ≠ []).map fun a => (t, a)

/-- Issue of one sub-core (R14). -/
def State.issueSub (s : State) (core cut sub : Nat) : State :=
  match rrPick (tabFind (s.core core).last sub) (s.ready core sub) with
  | none => s
  | some (t, a) =>
    (s.modCore core fun c => { c with last := tabPut c.last sub (rrKey t a), lastCyc := s.cycle core + 1 }).issueActor core ((s.team? t.id).getD t) a cut

/-- Issue of the scalar front end: at most one lead thread (R28). -/
def State.issueLead (s : State) (core cut : Nat) : State :=
  let cs := (s.residents core).filter fun t => t.lead.isSome && s.pathsF t .lead ≠ []
  match rrPick (some ((s.core core).leadLast, 2 ^ 40)) (cs.map fun t => (t, Actor.lead)) with
  | none => s
  | some (t, a) => (s.modCore core fun c => { c with leadLast := t.id, lastCyc := s.cycle core + 1 }).issueActor core t a cut

/-- Entries of a cycle in order: ascending team, group order, slot; a port read in the second slot goes before the
configuration of its stream in the first (R34, R153, R212, R264). -/
def queueKey (s : State) (e : IssueCtx × Instr) : Nat :=
  e.1.team * 2 ^ 24 + Team_order (s.team e.1.team) e.1.who * 2 + e.1.slot

def configures : Instr → Option Nat
  | .sraff _ _ k .. => some k.toNat
  | .srind _ _ k .. => some k.toNat
  | .srstop _ _ k => some k.toNat
  | _ => none

def swapPorts : List (IssueCtx × Instr) → List (IssueCtx × Instr)
  | e :: f :: r =>
    let swap := e.1.team = f.1.team && e.1.who = f.1.who && (match configures e.2 with
      | some k => f.2.uses.any fun u => u.cls = .f && u.no = k
      | none => false)
    if swap then f :: e :: swapPorts r else e :: swapPorts (f :: r)
  | l => l

/-- ONE CYCLE OF A CORE'S ISSUE STAGES (R14, R28): the instructions selected, in their order. A cycle issues once. -/
def State.selectCore (s : State) (core : Nat) : State :=
  if (s.core core).lastCyc > s.cycle core then s
  else
    let s1 := (List.range 4).foldl (fun t j => t.issueSub core s.nextId j) { s with issueQ := [] }
    let s2 := s1.issueLead core s.nextId
    { s2 with issueQ := s.issueQ ++ swapPorts (sortBy (queueKey s2) s2.issueQ) }

/-- The issuing context of an entry as it stands now: threads that earlier entries stopped no longer issue. -/
def State.liveCtx (s : State) (c : IssueCtx) : IssueCtx :=
  match s.team? c.team with
  | none => { c with mask := 0 }
  | some t =>
    if t.place = .resident then
      { c with mask := maskOf ((bits32 c.mask).filter fun L =>
          let th := t.threadAt c.who L
          th.st = .run && th.pc = c.pc && th.level = c.level) }
    else { c with mask := 0 }

end Sys2Proof.Machine
end

