-- ==== Sys2Proof/Machine/Cycle.lean ====
section
/-! DEFINITION. The passing of time: promotion and demotion (R23 to R27), results that land (R62), releases of waits
(R19, R123, R125, R159, R255), results and tokens written (R62, R124), and admission, bank conversion and refill (R35,
R36, R40 to R42). -/

namespace Sys2Proof.Machine

/-! ### Active and pending sets (R25 to R27) -/

/-- A group that frees its place; a conjugate group is gone with its last thread. -/
def Team_actorGone (t : Team) (a : Actor) : Bool :=
  match a with
  | .grp n => (t.groupAt n).exited
  | _ => false

/-- Members of one set of a sub-core. -/
def State.members (s : State) (core sub : Nat) (active : Bool) : List (Team × Actor) :=
  (s.residents core).flatMap fun t => ((Team_actors t).filter fun a =>
    let g := t.actor a
    g.sub = sub && g.active = active && !Team_actorGone t a).map fun a => (t, a)

/-- Positions that stand at a program counter and level. -/
def State.sharers (s : State) (t : Team) (a : Actor) (pc : Dword) (l : Level) : List Nat :=
  (t.positions a).filter fun L => s.standing t a L && (t.threadAt a L).pc = pc && (t.threadAt a L).level = l

/-- A thread is blocked by a long-latency dependence (R25). -/
def State.longBlocked (s : State) (t : Team) (a : Actor) (L : Nat) : Bool :=
  let th := t.threadAt a L
  let h := Team_homeOf t a L
  match th.st with
  | .run =>
    (match a with | .grp _ => Team_inConj t h.1 h.2 | _ => false) ||
    (match s.peek t false th.level th.pc with
     | .ok i _ _ =>
       (i.uses.any fun u => u.cls = .v && (List.range u.cnt).any fun k => s.abroad t.id h.1 h.2 (u.no + k)) ||
       (match i with
        | .dqpop .. => s.instrHeld t a i (s.sharers t a th.pc th.level)
        | _ => false)
     | _ => false)
  | _ => true

/-- A group of the active set that may be demoted (R25, R150). -/
def State.demotable (s : State) (t : Team) (a : Actor) : Bool :=
  let g := t.actor a
  g.yieldAt = s.cycle t.core + 1 ||
    (s.pathsF t a = [] && ((t.positions a).filter fun L => !(t.threadAt a L).gone).all fun L => s.longBlocked t a L)

/-- A pending group that may be promoted (R26, R39). -/
def State.promotable (s : State) (t : Team) (a : Actor) : Bool :=
  s.pathsF t a ≠ [] && (t.actor a).spilled = []

def State.promote (s : State) (x : Team × Actor) : State :=
  s.modTeam x.1.id fun t => t.modActor x.2 fun g =>
    { g with active := true, notBefore := s.cycle t.core + 4, since := none, lastIssue := s.cycle t.core }

def State.demote (s : State) (x : Team × Actor) : State :=
  s.modTeam x.1.id fun t => t.modActor x.2 fun g =>
    { g with active := false, since := none, pendSince := s.cycle t.core }

/-- Pending groups in the order of promotion: issuable longest first (R27). -/
def promotionOrder (l : List (Team × Actor)) : List (Team × Actor) :=
  sortBy (fun x : Team × Actor => ((x.1.actor x.2).since).getD (2 ^ 64)) l

/-- A pending group that has been issuable for 384 cycles makes room (R27): the active group that has gone longest without
an issue cycle leaves, ties to the first in team and group order: DESIGN CHOICE (log 38). -/
def State.forceSub (s : State) (core sub : Nat) : State :=
  let act := s.members core sub true
  let due := (s.members core sub false).filter fun x =>
    s.promotable x.1 x.2 && (match (x.1.actor x.2).since with
      | some c => decide (s.cycle core ≥ c + 384)
      | none => false)
  match (promotionOrder due).head?, (sortBy (fun x : Team × Actor => (x.1.actor x.2).lastIssue) act).head? with
  | some p, some a => if act.length < 8 then s.promote p else (s.demote a).promote p
  | _, _ => s

/-- The end of a cycle in one sub-core: free places first, then exchanges, then a forced one (R25, R27). Which of several
demotable groups leaves first is not stated: the first in team and group order, DESIGN CHOICE (log 38). -/
def State.balanceSub (s : State) (core sub : Nat) : State :=
  let pend := s.members core sub false
  if pend = [] then s
  else
    let iss := pend.filter fun x => s.pathsF x.1 x.2 ≠ []
    let s1 := pend.foldl (fun s' x => s'.modTeam x.1.id fun t => t.modActor x.2 fun g =>
      { g with since := if iss.any (fun y => y.1.id = x.1.id && y.2 = x.2) then some (g.since.getD (s.cycle core)) else none }) s
    let act := s.members core sub true
    let outs := (List.replicate (8 - act.length) (none : Option (Team × Actor))) ++
      (act.filter fun x => s.demotable x.1 x.2).map some
    ((outs.zip (promotionOrder (iss.filter fun x => s.promotable x.1 x.2))).foldl (fun s' p =>
      let s2 := match p.1 with
        | some x => s'.demote x
        | none => s'
      s2.promote p.2) s1).forceSub core sub

/-- Cores that hold a team. -/
def State.busyCores (s : State) : List Nat := keysOf ((s.teams.filter fun t => t.place = .resident).map (·.core))

def State.balance (s : State) : State :=
  s.busyCores.foldl (fun s c => (List.range 4).foldl (fun s j => s.balanceSub c j) s) s

/-! ### Resources (R35, R36, R42) -/

/-- Bytes of the register store of a team (R35). -/
def regBytes (h : Header) (g : Nat) : Nat := (h.h + h.d) * 128 * g + shareUnits h g * 128

/-- Banks of a team (R35). -/
def bankCount (h : Header) : Nat := (h.scratch + 32767) / 32768

/-- Groups and conjugate groups standing in a sub-core (R23). -/
def State.places (s : State) (core sub : Nat) : Nat :=
  ((s.onCore.filter fun t => t.core = core).flatMap fun t => ((Team_actors t).filter fun a =>
    (t.actor a).sub = sub && !Team_actorGone t a)).length

def sumOf (l : List Nat) : Nat := l.foldl (· + ·) 0

/-- Free group places of a core. -/
def State.freePlaces (s : State) (core : Nat) : Nat := sumOf ((List.range 4).map fun j => 32 - s.places core j)

/-- Resources other than banks are free at once for a team of a header and a group count (R35, R36); the places may lie in
any sub-cores (R24), and a team that still waits holds nothing (R42). -/
def State.fits (s : State) (core : Nat) (h : Header) (g : Nat) : Bool :=
  let ts := s.onCore.filter fun x => x.core = core
  decide (ts.length < 32) && decide (g ≤ s.freePlaces core) &&
    decide (sumOf (ts.map fun x => regBytes (s.hdrOf x) (s.launchOf x).r.g) + regBytes h g ≤ 524288) &&
    decide (sumOf (ts.map fun x => (s.hdrOf x).acc) + h.acc ≤ 128)

/-- A core that could take such a team, with banks just released or that it could convert (R41 to R43). -/
def State.roomFor (s : State) (core : Nat) (h : Header) (g : Nat) : Bool :=
  s.fits core h g && decide (bankCount h ≤ (s.core core).free.length + (s.core core).rel.length + ((s.l1Banks core).length - 1))

def State.admitting (s : State) (core : Nat) (t : Team) : Bool := s.roomFor core (s.hdrOf t) (s.launchOf t).r.g

/-- Every resource is free now (R36). -/
def State.admitNow (s : State) (core : Nat) (t : Team) : Bool :=
  s.fits core (s.hdrOf t) (s.launchOf t).r.g && decide (bankCount (s.hdrOf t) ≤ (s.core core).free.length)

/-! ### Time -/

/-- The cycle that an expiry names ends without completion: its slots time out (R19, R20). -/
def Group_expire (g : Group) (now : Nat) : Group :=
  (g.expiry.filter fun e => decide (e.2 ≤ now)).foldl (fun g e => Group_rcvTimeout g e.1) g

def State.expire (s : State) : State :=
  { s with teams := mapIf s.teams (fun t => t.place = .resident) fun t =>
      { t with groups := t.groups.map fun g => Group_expire g (s.cycle t.core) } }

/-- Banks that ended teams released in this cycle: teams that wait for banks claim them, the rest become L1 (R41). -/
def State.claimBanks (s : State) (core : Nat) : State :=
  if (s.core core).rel = [] then s
  else
    let want := (s.teams.filter fun t => t.core = core && (t.place = .admitting || t.place = .restoring) && s.admitting core t).foldl
      (fun m t => max m (bankCount (s.hdrOf t))) 0
    s.modCore core fun c =>
      { c with rel := [], free := (c.rel.take (want - c.free.length)).foldl insertNat c.free }

/-- A token whose time is known goes to its result (R125). -/
def State.giveToken (s : State) (pend : Option Nat) (t : Nat) : State :=
  match pend with
  | none => s
  | some id => { s with pends := mapIf s.pends (fun p => p.id = id) fun p => { p with vals := [some (w32 t)], tok := some t } }

/-- A home group of an engine's threads. -/
def Engine_grp (e : Engine) : Nat := (e.lanes.headD (0, 0)).1

/-- An engine is done at a time: its lines and pins are released, its time is known. -/
def State.engineDone (s : State) (e : Engine) (t : Nat) : State :=
  ({ s with engines := s.engines.filter fun x => decide (x.id ≠ e.id) }.giveToken e.pend t).settle e.id e.team e.who (Engine_grp e)
    e.launch t false

/-- A `KVAPP` gives up the record lines at the time of its token (R298). -/
def State.kvappsDone (s : State) : State :=
  (s.engines.filter fun e => e.kind = .kvapp && decide (e.floor ≤ s.gtc)).foldl (fun s e => s.engineDone e e.floor) s

/-- The end of a cycle (R19, R25, R27, R41). -/
def State.endCycle (s : State) : State :=
  let s1 := s.balance.expire
  (s1.cores.map (·.1)).foldl (fun s c => s.claimBanks c) s1

/-- The counters advance. A home or scratchpad that has served at one GTC serves anew at the next (R129). -/
def State.tick (s : State) (ns cycles : Nat) : State :=
  let gtc := if s.gtcOn then s.gtc + ns else s.gtc
  { s with
    gtc := gtc, served := if gtc = s.gtc then s.served else [],
    dies := if s.clocks then (List.range 4).foldl (fun t d =>
      tabSet t d { tabGet t d {} with cycle := (tabGet t d {}).cycle + cycles } {}) s.dies else s.dies }

/-- What a team finds as a cycle begins: results landed, tile operations complete, barriers complete; and its end, when
nothing but write-backs kept it (R35, R62, R100, R123, R265). -/
def State.dawn (s : State) (team : Nat) : State := (((s.landDue team).tilesDue team).barAll team).endTeam team

/-- TIME PASSES: at most one cycle ends, the counters advance, what is due lands and completes (R19, R62, R117, R119). -/
def State.timeTurn (s : State) (ns cycles : Nat) : State :=
  let s1 := if s.clocks && decide (cycles ≠ 0) then s.endCycle else s
  let s2 := ((s1.tick ns (min cycles 1)).applyDue).kvappsDone
  s2.onCore.foldl (fun s t => s.dawn t.id) s2

/-! ### Events of the issue stages -/

/-- An actor by its number in an event: groups, 32 for the lead thread, 64 + k for conjugate group k. -/
def actorOf (n : Nat) : Actor := if n < 32 then .grp n else if n = 32 then .lead else .conj (n - 64)

def State.resident (s : State) (team : Nat) : Bool :=
  match s.team? team with
  | some t => t.place = .resident
  | none => false

/-- `PC_AGING` (R16). -/
def execPcAging (team grp : Nat) (s : State) : Out :=
  .next (s.modTeam team fun t => t.modActor (actorOf grp) fun g =>
    { g with ages := g.ages.map fun a => { a with aged := a.aged || decide (a.n ≥ 64) } })

/-- `PENDING_FORCED_DEMOTION` (R27): the active group that has gone longest without an issue cycle makes room. -/
def execPendingForcedDemotion (core sub : Nat) (s : State) : Out := .next (s.forceSub core sub)

/-- `RCV_TIMEOUT` (R19, R20): a cycle that reached the expiry has passed without completion. Time brings it about by itself
as that cycle ends; in that cycle it does nothing, since an arrival would still complete (log 6). -/
def execRcvTimeout (team grp : Nat) (slot : BitVec 4) (s : State) : Out :=
  let t := s.team team
  match tabFind (t.groupAt grp).expiry slot.toNat with
  | some e =>
    if s.resident team && decide (s.cycle t.core > e) then
      .next (s.modTeam team fun t => t.modGroupAt grp fun g => Group_rcvTimeout g slot.toNat)
    else .next s
  | none => .next s

/-! ### Results (R62, R124, R125) -/

/-- A result's registers, out of its parts. -/
def Pend_words (p : Pend) : List Word :=
  let ws := p.vals.map fun v => v.getD 0
  match p.pack with
  | .words => ws
  | .halves => (List.range ((ws.length + 1) / 2)).map fun i =>
      w32 ((ws.getD (2 * i) 0).toNat % 65536 + (ws.getD (2 * i + 1) 0).toNat % 65536 * 65536)

/-- Everything a result waits for is known (R62, R265). -/
def State.pendReady (s : State) (p : Pend) : Bool :=
  (p.vals.all Option.isSome) && s.engines.all fun e => !p.tiles.contains e.id

/-- Writes a result to its registers; a token leaves its mark on a `g` register (R125). -/
def Team_writePend (t : Team) (p : Pend) : Team :=
  let ws := Pend_words p
  match p.cls with
  | 0 => t.modThread p.grp p.lane fun th =>
      (ws.zipIdx).foldl (fun th w => th.setV (p.no + w.2) w.1) th
  | 1 => t.modActor p.who fun g =>
      let g1 := (ws.zipIdx).foldl (fun g w => g.setG (p.no + w.2) w.1) g
      match p.tok with
      | some x => g1.setTok p.no x
      | none => g1
  | 2 => (ws.zipIdx).foldl (fun t w => t.setT (p.no + w.2) w.1) t
  | 3 => t.modThread p.grp p.lane fun th => th.setP p.no (ws.headD 0 ≠ 0)
  | _ => t.modThread p.grp p.lane fun th => th.setC p.no { val := wordsCap ws, tag := p.tag }

/-- The capability a loaded record gives: tagged when its check passes (R211). -/
def State.pendTag (s : State) (p : Pend) : Pend :=
  if p.cls = 4 && p.vals.length = 8 then
    let ws := Pend_words p
    let bs := ws.flatMap fun w => leBytes 4 w.toNat
    let v := wordsCap (ws.take 4)
    { p with vals := (ws.take 4).map some, tag := s.capTagged (s.worldOf (s.team p.team)) v (bs.drop 16) }
  else p

/-- `FNC_TOKEN_WRITE` (R124): every covered time is known. -/
def execFncTokenWrite (id : Nat) (s : State) : Out :=
  match s.fences.find? fun f => f.id = id with
  | none => .next s
  | some f =>
    if f.waits = [] then
      let tok := tokenOf f.y f.latest
      .next { s with
        fences := s.fences.filter (fun x => decide (x.id ≠ id)),
        pends := mapIf s.pends (fun p => p.id = f.pend) (fun p => { p with vals := [some (w32 tok)], tok := some tok }) }
    else .next s

/-! ### Waits that end -/

/-- Threads of a home group whose wait is over, by lane and state, go on at the next instruction. -/
def State.releaseThreads (s : State) (team grp : Nat) (gone : Nat → TState → Option Nat) : State :=
  if s.resident team then
    s.modTeam team fun t => t.modGroupAt grp fun g =>
      { g with threads := g.threads.zipIdx.map fun th => match gone th.2 th.1.st with
          | some len => { th.1 with st := .run, pc := th.1.pc + w64 len }
          | none => th.1 }
  else s

/-- `WAITF_RELEASE` (R125). -/
def execWaitfRelease (team grp : Nat) (s : State) : Out :=
  .next (s.releaseThreads team grp fun _ st => match st with
    | .tok t => if tokReached s.gtc32 t then some 12 else none
    | _ => none)

/-- `WAITT_RELEASE` (R159). -/
def execWaittRelease (team grp : Nat) (s : State) : Out :=
  .next (s.releaseThreads team grp fun _ st => match st with
    | .time t => if t.toNat ≤ s.gtc % 2 ^ 64 then some 12 else none
    | _ => none)

/-- The group-like object in which a thread of a home group stands. -/
def Team_actorOf (t : Team) (h : Nat × Nat) : Actor :=
  match t.conj.find? fun c => c.pos.contains (some h) with
  | some c => .conj c.id
  | none => partActor h.1

/-- A wait on an event that its count has met, as a read shows that may perform now (R255). -/
def State.eventOver (s : State) (t : Team) (grp lane : Nat) (st : TState) : Option Nat :=
  match st with
  | .event e thr len =>
    if s.evReady t (Team_actorOf t (grp, lane)) [(grp, lane)] e && decide (thr.toNat ≤ s.eventCount (s.worldOf t) e) then some len else none
  | _ => none

/-- `EVWAIT_RELEASE` (R255): its read acts as an acquire. -/
def execEvwaitRelease (team grp : Nat) (s : State) : Out :=
  let t := s.team team
  let met := ((t.groupAt grp).threads.zipIdx).filter fun th => (s.eventOver t grp th.2 th.1.st).isSome
  if met ≠ [] && s.resident team then
    let s1 := met.foldl (fun s' th => match th.1.st with
      | .event e _ _ => s'.evRead t e
      | _ => s') (s.releaseThreads team grp (s.eventOver t grp))
    .next (s1.modTeam team fun t =>
      { t.modGroupAt grp (fun g => Group_acquireNow g s.gtc) with
        conj := t.conj.map fun c => if c.pos.any (fun p => match p with | some x => x.1 = grp | none => false)
          then Group_acquireNow c s.gtc else c })
  else .next s

/-! ### Admission (R24, R35, R36, R42) -/

/-- The sub-core with the most free places, ties to the lower number (R24). -/
def State.bestSub (s : State) (core : Nat) : Nat :=
  (List.range 4).foldl (fun b j => if s.places core j < s.places core b then j else b) 0

/-- Places one group (R24). It counts as having gone longest without an issue cycle: DESIGN CHOICE (log 38). -/
def State.placeGroup (s : State) (team g : Nat) : State :=
  let core := (s.team team).core
  -- a group not yet placed stands in no sub-core
  let j := s.bestSub core
  let act := decide ((s.members core j true).length < 8)
  s.modTeam team fun t => t.modGroupAt g fun x =>
    { x with sub := j, active := act, since := none, pendSince := s.cycle core, notBefore := 0, lastIssue := 0 }

/-- Allots banks and places, and makes the team resident (R24, R35, R42). -/
def State.seat (s : State) (team : Nat) : State :=
  let t := s.team team
  let k := bankCount (s.hdrOf t)
  let free := (s.core t.core).free
  let s1 := s.modCore t.core fun c => { c with free := free.drop k }
  let s2 := s1.modTeam team fun t => { t with
    place := .resident, banks := free.take k, groups := t.groups.map (fun g => { g with sub := 4, active := false }),
    conj := t.conj.map (fun g => { g with sub := 4, active := false }) }
  t.allGroups.foldl (fun s g => s.placeGroup team g) s2

/-- Teams placed together with a team: its cluster's that wait too (R36). -/
def State.mates (s : State) (t : Team) : List Team :=
  s.teams.filter fun x => x.launch = t.launch && x.place = .admitting &&
    Launch_cluster (s.launchOf t) x.num = Launch_cluster (s.launchOf t) t.num

/-- `TEAM_ADMISSION` (R36). -/
def execTeamAdmission (team : Nat) (s : State) : Out :=
  match s.team? team with
  | none => .next s
  | some t =>
    let ms := s.mates t
    if t.place = .admitting && ms.all fun m => s.admitNow m.core m then
      .next (ms.foldl (fun s m => s.seat m.id) s)
    else .next s

/-- Write-back and drop of every stack sector of a core, and drop of its lines (R42, R100, R118). -/
def State.emptyL1 (s : State) (core : Nat) : State :=
  (s.dropStack core fun _ => true).modCore core fun c => { c with l1 := [] }

/-- Whether a team waits for more banks on a core. -/
def State.wantsBank (s : State) (core : Nat) : Bool :=
  s.teams.any fun t => t.core = core && (t.place = .admitting || t.place = .restoring) && s.admitting core t && !s.admitNow core t

/-- `BANK_CONVERSION` (R42): the highest-numbered L1 bank, while one remains. Which lines a bank holds is not stated:
they all leave. -/
def execBankConversion (core bank : Nat) (s : State) : Out :=
  let l1 := s.l1Banks core
  if s.wantsBank core && l1.length > 1 && l1.getLast? = some bank then
    .next ((s.emptyL1 core).modCore core fun c => { c with free := insertNat c.free bank })
  else .next s

/-- `REFILL` (R40): attempted after space became free, until neither free space nor a victim suffices. -/
def execRefill (team : Nat) (s : State) : Out :=
  if s.resident team && (s.team team).freed then
    .next ((s.refillTeam team).getD (s.modTeam team fun t => { t with freed := false }))
  else .next s

end Sys2Proof.Machine
end

