-- ==== Sys2Proof/Machine/Place.lean ====
section
/-! DEFINITION. A loaded program: what loading one instruction for the next step to run takes (log 3). -/

namespace Sys2Proof.Machine

/-- The header of the loaded program (R72): every kind of register is declared. -/
def slotHeader : Header :=
  { h := 96, e := 16, d := 16, gcount := 32, tregs := 16, acc := 64, streams := 16, scratch := 32768, esccap := 8192,
    leadoff := 64, groupoff := 64, codebytes := 64 }

def slotRoot : Nat := 0x10000
def slotHdr : Nat := 0x20000

/-- Page tables that map the first 64 MiB of the address space to themselves (R103, R104), and the code. -/
def slotBytes_ (code : List Byte) (m : List Host.Cell) : List Host.Cell :=
  let node (pa : Nat) : List Byte := leBytes 8 (2 ^ 63 + pa / 4096)
  let leaf : List Byte := leBytes 8 (2 ^ 63 + 2 ^ 62 + 2 ^ 61 + 2 ^ 60)
  let m1 := memWrite m slotRoot (node 0x12000)
  let m2 := memWrite m1 0x12000 (node 0x14000)
  let m3 := memWrite m2 0x14000 leaf
  memWrite m3 (slotHdr + 64) code

/-- A group or lead thread at the entry. -/
def slotGroup (n : Nat) : Group :=
  { threads := List.replicate n { pc := w64 (slotHdr + 64) }, active := true,
    landed := if n = 32 then poolAtLaunch slotHeader 1 0 else [] }

/-- The state with one team resident on core 0 whose next instruction is `code`; a lead-slice instruction stands in
the lead thread, any other in the one group. -/
def State.loadCode (s : State) (code : List Byte) (lead : Bool) : State :=
  let q : Queue := { slots := 1, stk := 64, en := true, base := 0x100000, cbase := 0x180000, work := 0x200000,
                     slotsz := 0x100000, head := 1, tail := 1, held := [0] }
  let l : Launch :=
    { id := 1, q := 0, k := 0, world := 0, hdr := slotHeader, stage := .running, placed := 1,
      r := { hdr := w64 slotHdr, lead := lead } }
  let t : Team :=
    { id := 1, launch := 1, num := 0, core := 0, place := .resident, banks := [15],
      lead := if lead then some (slotGroup 1) else none,
      groups := [if lead then { slotGroup 32 with threads := List.replicate 32 { st := .exited } } else slotGroup 32] }
  { s with
    gtcOn := true, rdy := true, memz := true, fail := false, therm := false, stage := 6, powered := true, clocks := true,
    mem := slotBytes_ code s.mem, seals := [], homes := [], flights := [], pends := [], engines := [], probes := [],
    parks := [], issueQ := [], cores := [], worlds := tabPut s.worlds 0 { s.world 0 with root := slotRoot, sealing := false, hbmch := 0xFFFFFFFFFFFFFFFF, ctxctl := 0 },
    escs := [], walks := [], fences := [], egress := [], lates := [], invals := [],
    queues := tabPut s.queues 0 q, launches := [l], teams := [t], nextTeam := max s.nextTeam 2, nextId := max s.nextId 2, agenda := [.issue 0] }

/-- Whether an instruction is one that only the lead thread may issue (R29). -/
def leadOnly (code : List Byte) : Bool :=
  match decode code with
  | .ok (i, _) => !legalIn slotHeader false i && legalIn slotHeader true i
  | .error _ => false

end Sys2Proof.Machine
end

