-- ==== Sys2Proof/Machine/Held.lean ====
section
/-! DEFINITION. Instructions that issue and act later. R13 lets a path issue whatever its accesses wait for: where what a matrix,
cutter, Inflector, attention or sequence instruction, a `LAUNCH` or an `SRPRB` reads may not be read yet (R121, R126, R127,
R129), or the tile, latch, slot or queue that it works on has an earlier instruction to come (R264, R271, R291), it stands as a
probe that holds its registers as its issue found them (R58), and acts when it may. -/

namespace Sys2Proof.Machine

/-! ### What an instruction touches -/

/-- Places of a region of one page format, where its pages translate: its pieces on plain pages, or the records of its
elements. -/
def State.regionPlaces (s : State) (kind want : Nat) (r : Dword × Nat) : List (Space × Nat) :=
  let pages := (s.probePages [r] kind want).2.1
  if want = 0 then
    (pageStarts r.1 r.2).filterMap fun va => (pageOn pages va).map fun p =>
      (placeOn p va, min (r.1.toNat + r.2 - va.toNat) (65536 - va.toNat % 65536))
  else
    let recs := (List.range r.2).filterMap fun i => match pageOn pages (r.1 + w64 i) with
      | some (_, ⟨_, some e⟩) => some (elemPlace e (r.1 + w64 i).toNat).1
      | _ => none
    (keysOf recs).map fun a => (.glob a, zbRec (fmtTy want))

/-- The place of one access of a thread. -/
def State.onePlace (s : State) (h : Nat × Nat) (va : Dword) (n kind : Nat) : List (Space × Nat) :=
  match (s.access s.cur.core s.cur.team h.1 h.2 va n n kind false).1 with
  | .ok a => [(a.space, n)]
  | .error _ => []

/-- The 64 bytes of a header or descriptor, where they lie in the scratchpad (R278, R294). -/
def State.scrPlace (s : State) (va : Dword) : List (Space × Nat) :=
  let off := va.toNat % 2 ^ 48
  if aperOf va = .scr && decide (off + 64 ≤ (s.hdrOf s.ct).scratch) && decide (va.toNat % 64 = 0) then [(.scr off, 64)] else []

/-- Regions of row pointers and column indexes of a band (R278). -/
def State.bandRegions (s : State) (h : SparseHdr) (row : Nat) : List (Dword × Nat) :=
  let cnt := min 8 (h.m - row)
  let at_ (b : Dword) (i : Nat) : Dword := b + w64 (4 * i)
  let r0 := (at_ h.rowptr row, 4 * (cnt + 1))
  if cnt = 0 then []
  else
    match s.gatherPages h.rowptr 4 [r0] 0 with
    | .ok pages s1 =>
      let ptr (i : Nat) : Nat := s1.wordOn pages (at_ h.rowptr (row + i))
      r0 :: (List.range cnt).map fun i => (at_ h.colidx (ptr i), 4 * (ptr (i + 1) - ptr i))
    | _ => []

def State.tcutTouch (s : State) (va : Dword) (row : Nat) : List (Space × Nat) :=
  s.scrPlace va ++ (match s.sparseHdr va with
    | .ok h s1 => (s1.bandRegions h row).flatMap (s1.regionPlaces kRead 0)
    | _ => [])

def State.mmsTouch (s : State) (va : Dword) (row klo khi cb : Nat) (qs : List Nat) : List (Space × Nat) :=
  s.tcutTouch va row ++ (match s.sparseHdr va with
    | .ok h s1 =>
      (match s1.bandEntries h row with
      | .ok all s2 =>
        let es := all.filter fun e => decide (klo ≤ e.2.1) && decide (e.2.1 < min khi h.k)
        let vs := elemSize h.vt
        let bs := elemSize h.bt
        (es.flatMap fun e => s2.regionPlaces kRead 0 (h.vals + w64 (e.2.2 * vs), vs)) ++
          (keysOf (es.map fun e => e.2.1)).flatMap fun c => qs.flatMap fun q =>
            let n0 := cb + 16 * q
            s2.regionPlaces kRead (fmtWant h.bt) (h.bbase + w64 (c * h.bstride + n0 * bs), (min (n0 + 16) h.n - n0) * bs)
      | _ => [])
    | _ => [])

def State.attnTouch (s : State) (va : Dword) (n : Nat) : List (Space × Nat) :=
  s.scrPlace va ++ (match tabFind s.ct.infl n with
    | some sl =>
      (match parseDesc sl (s.scratchBytes s.cur.team (va.toNat % 2 ^ 48) 64) with
      | some d =>
        let rb := rowBytes d.ct d.dl
        (((List.range d.rows).map fun i => (d.q + w64 (i * d.qstride), d.dh * elemSize d.qt)) ++
            [(sl.uk, InflSlot_bytes sl), (sl.uv, InflSlot_bytes sl)]).flatMap (s.regionPlaces kRead 0) ++
          s.regionPlaces kRead (fmtWant d.ct) (d.seq + w64 (d.t0 * rb), (d.t1 - d.t0) * rb)
      | none => [])
    | none => [])

/-- Places of an append or trim: records; source rows, leaf entries and rows of tokens that it would write (R298, R301). -/
def State.kvTouch (s : State) (trim : Bool) (lanes : List KvLane) : List (Space × Nat) :=
  let entries (q : KvLane) (a b : Nat) : List (Space × Nat) :=
    (List.range (b - a)).flatMap fun i => s.onePlace (0, 0) (entryVa q.r (a + i)) 8 kWrite
  let rows (q : KvLane) : List (Space × Nat) :=
    let size := q.n * q.r.dl * 4
    (rowStarts q.src size).flatMap fun va => (s.onePlace (Team_homeOf s.ct s.cur.who q.pos) va 4 kRead).map fun p =>
      (p.1, if aperOf q.src = .stk then 4 else min (q.src.toNat + size - va.toNat) (65536 - va.toNat % 65536))
  (lanes.flatMap fun q => s.onePlace (0, 0) q.va 32 kRead) ++ (match s.kvProbe trim lanes with
    | .inl (.ok qs _) => (qs.foldl (fun (acc : List (Nat × Nat) × List (Space × Nat)) q =>
        let len := lenOf acc.1 q
        let rb := SeqRec_rb q.r
        if trim then
          if q.n > len then acc else (setLen acc.1 q.pa q.n, acc.2 ++ entries q (seqPages rb q.n) (seqPages rb len))
        else if len + q.n > q.r.cap || q.n = 0 then acc
        else (setLen acc.1 q.pa (len + q.n), acc.2 ++ rows q ++ entries q (seqPages rb len) (seqPages rb (len + q.n)) ++
          s.regionPlaces kWrite (fmtWant q.r.ct) (q.r.base + w64 (len * rb), q.n * rb))) ([], [])).2
    | _ => [])

/-- Places of some regions, unless they kill or are misaligned. -/
def State.regionsTouch (s : State) (base : Dword) (al kind want : Nat) (rs : List (Dword × Nat)) : List (Space × Nat) :=
  if rs.any s.regionKills || base.toNat % al ≠ 0 then [] else rs.flatMap (s.regionPlaces kind want)

/-- WHAT AN INSTRUCTION WOULD TOUCH if it acted now; nothing where it would touch no memory. -/
def State.touches (s : State) (i : Instr) : List (Space × Nat) :=
  match i with
  | .mldb _ ty _ a st =>
    s.regionsTouch (s.reg2 a 0 ||| zext32 (st.setWidth 32)) 16 kRead (fmtWant ty)
      ((List.range (latchK ty)).map fun r => (s.reg2 a 0 + w64 (r * st.toNat), 16 * elemSize ty))
  | .mgata x ty a b st =>
    s.regionsTouch (s.reg2 a 0 ||| zext32 (st.setWidth 32)) 32 kRead (fmtWant ty)
      ((s.active x).map fun L => (s.reg2 a 0 + zext32 (s.src1 b L) * w64 st.toNat, 32))
  | .mst x ty m _ a _ st =>
    s.regionsTouch (s.reg2 a 0 ||| zext32 (st.setWidth 32)) 16 kWrite (fmtWant ty)
      ((quarterRows (s.quarters (s.active x))).map fun i => (mstAddr m.qc (s.reg2 a 0) st.toNat (elemSize ty) i 0, 16 * elemSize ty))
  | .mms x _ a gs c =>
    let r (k : Nat) : Nat := (s.regAt gs k 0).toNat
    if r 3 % 512 = 0 || r 1 ≥ r 2 then []
    else s.mmsTouch (s.reg2 a 0) (r 0) (r 1) (r 2) (s.reg1 c 0).toNat (s.quarters (s.active x))
  | .tcut _ gd a _ _ =>
    let r (k : Nat) : Nat := (s.regAt gd k 0).toNat
    if (r 3).testBit 30 then [] else s.tcutTouch (s.reg2 a 0) (if (r 3).testBit 31 then r 0 + 8 else r 0)
  | .infl _ _ a => if regionBad (s.hdrOf s.ct).scratch (s.reg2 a 0) 32 then [] else s.onePlace (0, 0) (s.reg2 a 0) 32 kRead
  | .attn _ _ _ a _ n => s.attnTouch (s.reg2 a 0) n.toNat
  | .kvapp x _ _ _ _ a b c => s.kvTouch false (s.kvLanes (s.active x) a (some b) c)
  | .kvtrim x _ _ a c => s.kvTouch true (s.kvLanes (s.active x) a none c)
  | .launch x _ a _ =>
    (match (s.active x).getLast? with
    | some L => s.onePlace (Team_homeOf s.ct s.cur.who L) (s.reg2 a L) 128 kRead
    | none => [])
  | .srprb _ _ k _ => s.probeWords (s.cg.stream k.toNat)
  | _ => []

/-- What an instruction touches depends on what it reads. -/
def touchReads : Instr → Bool
  | .mms .. | .tcut .. | .attn .. | .kvapp .. | .kvtrim .. | .srprb .. => true
  | _ => false

/-- An instruction that issued and has not acted will write memory. -/
def heldWrites : Instr → Bool
  | .mst .. | .kvapp .. | .kvtrim .. | .scat .. | .scatAdd .. => true
  | _ => false

/-! ### What an instruction works on -/

/-- Tiles, latches, slots, queues and the sequence unit that an instruction works on, by kind, number and owner: instructions
that share one act in the order of issue (R254, R264, R271, R291, R293). -/
def heldOn (i : Instr) (a : Actor) : List (Nat × Nat × Actor) :=
  match i with
  | .mzero _ md => [(0, md.toNat, .lead)]
  | .mrd _ _ md _ => [(0, md.toNat, .lead)]
  | .mwr _ md _ _ => [(0, md.toNat, .lead)]
  | .mms _ md _ _ _ => [(0, md.toNat, .lead)]
  | .mst _ _ _ _ _ md _ => [(0, md.toNat, .lead)]
  | .mmq _ md bl => [(0, md.toNat, .lead), (1, bl.toNat, a), (2, 0, a)]
  | .mldb _ _ bl _ _ => [(1, bl.toNat, a)]
  | .mgata .. => [(2, 0, a)]
  | .infl _ n _ => [(3, n.toNat, .lead)]
  | .attn _ _ _ _ md n => (3, n.toNat, .lead) :: (List.range (64 - md.toNat)).map fun k => (0, md.toNat + k, .lead)
  | .launch _ _ _ q => [(4, q.toNat, .lead)]
  | .kvapp .. | .kvtrim .. => [(5, 0, a)]
  | _ => []

/-- Instructions that may act later than they issue. -/
def mayWait (i : Instr) : Bool :=
  match i with
  | .tcut .. | .srprb .. => true
  | i => heldOn i .lead ≠ []

/-- Tiles and rows that an instruction writes. Of an `ATTN` whose descriptor is still to be read, row 0 is one of them, and
its tiles are read off the slot as it stands: DESIGN CHOICE (log 39). -/
def State.tileRows (s : State) (i : Instr) (act : List Nat) : List Nat × Word :=
  match i with
  | .mzero _ md => ([md.toNat], 0xFFFFFFFF)
  | .mwr _ md _ b => ([md.toNat], maskOf (act.map fun L => (rowCol (s.src1 b L)).1))
  | .mmq _ md _ => ([md.toNat], maskOf (quarterRows (s.quarters act)))
  | .mms _ md _ gs _ =>
    let r (k : Nat) : Nat := (s.regAt gs k 0).toNat
    if r 3 % 512 = 0 || r 1 ≥ r 2 then ([], 0) else ([md.toNat], maskOf (quarterRows (s.quarters act)))
  | .attn _ _ _ _ md n =>
    (match tabFind s.ct.infl n.toNat with
    | some sl => ((List.range (sl.dh / 16 + 1)).map (md.toNat + ·), 0xFFFFFFFF)
    | none => ([], 0))
  | _ => ([], 0)

/-! ### Holding and acting -/

/-- The head of an instruction that may wait. -/
def heldHead (i : Instr) : XHead := (headOf i).getD (baseHead 0)

/-- The instruction in hand, for some lanes of its path, as a probe under a name. -/
def State.heldProbe (s : State) (id : Nat) (i : Instr) (act : List Nat) : Probe :=
  let sps := s.touches i
  let tr := s.tileRows i act
  { id := id, team := s.cur.team, who := s.cur.who, launch := s.ct.launch, world := s.cw, core := s.cur.core, instr := i,
    pc := s.cur.pc, len := s.cur.len, word := s.cur.word,
    lanes := act.map fun L =>
      let h := Team_homeOf s.ct s.cur.who L
      { pos := L, grp := h.1, lane := h.2, a := 0, b := 0, src := [] },
    pends := [], req := none, floor := s.cg.floor, after := s.cg.acqs.map (·.1),
    lines := match i with
      | .mst .. => placeLines sps
      | _ => [],
    held := some
      { ctx := { s.cur with mask := maskOf act }, g := s.cg.g, phase := s.cg.phase, streams := s.cg.streams, t := s.ct.t,
        regs := act.map fun L => ((s.cth L).v, (s.cth L).p), pos := s.cg.pos, touch := if touchReads i then none else some sps,
        tiles := tr.1, rows := tr.2 } }

/-- The issue of such an instruction as the instruction in hand, with the registers that it found. A release of it comes after
what its actor has done by now. -/
def State.installed (s : State) (p : Probe) (h : Issued) : State :=
  let conj (t : Team) : Team := match p.who with
    | .conj k =>
      if t.conj.any fun c => c.id = k then { t with conj := mapIf t.conj (fun c => c.id = k) fun c => { c with pos := h.pos } }
      else { t with conj := t.conj ++ [{ id := k, pos := h.pos }] }
    | _ => t
  let s1 := s.modTeam p.team fun t =>
    (p.lanes.zip h.regs).foldl (fun t x => t.modThread x.1.grp x.1.lane fun th =>
        { th with v := x.2.1, p := x.2.2, st := .run, pc := h.ctx.pc })
      (({ conj t with t := h.t }).modActor p.who fun g =>
        { g with g := h.g, phase := h.phase, streams := h.streams, acqs := [], floor := p.floor })
  { s1 with cur := { h.ctx with
      limit := some p.id,
      before := h.ctx.before.map fun b => { b with known := s.doneNow p.team p.who false, knownY := s.doneNow p.team p.who true } } }

/-- Pins that an `SRPRB` gained go to its stream, unless it has been configured anew or is exhausted (R203). -/
def heldPins (t : Team) (p : Probe) (h : Issued) (now old : Tab Stream) : Tab Stream :=
  match p.instr with
  | .srprb _ _ k _ =>
    let n := tabGet now k.toNat {}
    let o := tabGet old k.toNat {}
    if n.pins ≠ (tabGet h.streams k.toNat {}).pins && n.cfg = o.cfg && o.active && (Team_alive t p.who).any (Stream_live o) then
      tabSet old k.toNat { o with pins := n.pins } {}
    else old
  | _ => old

/-- Registers and threads after it acted are again what they were, but for threads that it parked or killed, and those that
entered the handler. -/
def State.putBack (s o : State) (p : Probe) (h : Issued) : State :=
  let ot := o.team p.team
  let og := ot.actor p.who
  let conj (t : Team) : Team := match p.who with
    | .conj k =>
      (match ot.conj.find? fun c => c.id = k with
      | some oc => { t with conj := mapIf t.conj (fun c => c.id = k) fun c =>
          { c with pos := oc.pos.map fun q => q.bind fun x => if (t.thread x.1 x.2).gone then none else q } }
      | none => { t with conj := t.conj.filter fun c => decide (c.id ≠ k) })
    | _ => t
  s.modTeam p.team fun t =>
    let t1 := p.lanes.foldl (fun (t : Team) (x : PLane) => t.modThread x.grp x.lane fun th =>
      let oth := ot.thread x.grp x.lane
      let regs : Thread := { th with v := oth.v, p := oth.p }
      if th.st = .run ∧ th.level = oth.level then { regs with st := oth.st, pc := oth.pc, ready := oth.ready } else regs) t
    conj (({ t1 with t := ot.t }).modActor p.who fun g =>
      { g with g := og.g, phase := og.phase, streams := heldPins ot p h g.streams og.streams, acqs := og.acqs, floor := max g.floor og.floor })

/-- Threads whose earlier accesses an instruction's come after: all of a whole-group one's group (R269), else those of its
lanes (R121). -/
def State.heldThreads (s : State) (p : Probe) : List (Nat × Nat) :=
  if isWhole p.instr then
    let t := s.team p.team
    (t.positions p.who).map (Team_homeOf t p.who)
  else p.lanes.map fun x => (x.grp, x.lane)

/-- A name of what only reads. -/
def State.onlyReads (s : State) (id : Nat) : Bool :=
  (s.flights.any fun f => f.id = id && !FOp_writes f.op) || (s.walks.any fun w => w.id = id) ||
    s.probes.any fun p => p.id = id && !heldWrites p.instr

/-- Places may be touched now by an instruction that issued under a name (R121, R126, R127, R129, R269): its acquires are done,
what its threads did there before, if it or that writes, no other engine owns a line, and it has its turn. -/
def State.heldReady (s : State) (p : Probe) (sps : List (Space × Nat)) : Bool :=
  let hs := s.heldThreads p
  p.after = [] && decide (max p.floor (s.threadsFloor p.team p.id hs sps) ≤ s.gtc) &&
    ((s.threadsBefore p.team p.id hs sps).all fun i => !heldWrites p.instr && s.onlyReads i) &&
    !s.ownedFor [p.id] (placeLines sps) && (sps.all fun x => !s.stackWaits x.1 x.2) &&
    s.mayServe (sps.flatMap fun x => spaceKeys p.team x.1 x.2) p.core p.id false

/-- An earlier instruction of its team that has not acted works on something that an instruction works on. -/
def State.heldBehind (s : State) (p : Probe) : Bool :=
  s.probes.any fun q => q.held.isSome && q.team = p.team && decide (q.id < p.id) &&
    (heldOn q.instr q.who).any fun r => (heldOn p.instr p.who).contains r

/-- An instruction that issued may act now. A tile store's accesses are its engine's, which waits by itself. -/
def State.heldFree (s : State) (p : Probe) (h : Issued) : Bool :=
  !s.heldBehind p && (match p.instr with
    | .mst .. => true
    | i =>
      let sps := (s.installed p h).touches i
      (sps = [] || s.heldReady p sps) && (match i with
        | .launch _ _ _ q => s.queueTurn q.toNat p.core
        | _ => true))

/-- The instruction in hand issues and does not act yet (R13). -/
def State.mustWait (s : State) (i : Instr) : Bool :=
  let act := s.active (heldHead i)
  mayWait i && act ≠ [] && !(isWhole i && (match s.cur.who with | .conj _ => true | _ => false)) &&
    (let p := s.heldProbe s.nextId i act
     !p.held.any fun h => s.heldFree p h)

/-- Ports that such an instruction reads at issue. -/
def heldPorts : Instr → List Nat
  | .mrd _ _ _ b => portsOf [b]
  | .mwr _ _ a b => portsOf [.reg a, b]
  | _ => []

/-- It issues: what it reads from registers and ports is kept, its lanes go on. -/
def State.holdInstr (s : State) (i : Instr) : State :=
  let x := heldHead i
  let r := s.takePorts (heldPorts i) (s.active x)
  if r.1 = [] then r.2.retire x
  else
    let (id, s1) := r.2.fresh
    let p := s.heldProbe id i r.1
    let s2 : State := { s1 with probes := s1.probes ++ [p] }
    let s3 := match i with
      | .mst _ _ m .. => if m.sr then s2.modCg fun g => { g with phase := g.phase + 17 } else s2
      | _ => s2
    (s3.wmUpdate s.cur.team ((p.held.map (·.tiles)).getD [])).retire x

/-- The meaning of such an instruction. -/
def execHeld (i : Instr) (s : State) : Out :=
  match i with
  | .mzero x md => execMzero x md s
  | .mrd x d md b => execMrd x d md b s
  | .mwr x md a b => execMwr x md a b s
  | .mldb x ty bl a st => execMldb x ty bl a st s
  | .mgata x ty a b st => execMgata x ty a b st s
  | .mmq x md bl => execMmq x md bl s
  | .mms x md a gs c => execMms x md a gs c s
  | .mst x ty m gd a md st => execMst x ty m gd a md st s
  | .tcut x gd a bud sc => execTcut x gd a bud sc s
  | .infl x n a => execInfl x n a s
  | .attn x ab gd a md n => execAttn x ab gd a md n s
  | .kvapp x rm sat gd p a b c => execKvapp x rm sat gd p a b c s
  | .kvtrim x gd p a c => execKvtrim x gd p a c s
  | .launch x gd a q => execLaunch x gd a q s
  | .srprb x hint k rp => execSrprb x hint k rp s
  | _ => .next s

/-- Names, from one on, of what an instruction started that fences, barriers and later accesses wait for. -/
def State.namesFrom (s : State) (n : Nat) : List Nat :=
  ((s.flights.filter fun f => decide (n ≤ f.id)).map (·.id)) ++
  ((s.engines.filter fun e => decide (n ≤ e.id) && (match e.kind with | .tile .. => false | _ => true)).map (·.id)) ++
  ((s.pends.filter fun p => decide (n ≤ p.id) && decide (p.cls = 2)).map (·.id))

/-- AN INSTRUCTION THAT ISSUED ACTS NOW, as its issue found its registers (R58): what waited for it waits for what it
started. -/
def State.runHeld (s : State) (p : Probe) (h : Issued) : Out :=
  let s0 : State := { s with probes := s.probes.filter fun x => decide (x.id ≠ p.id) }
  match execHeld p.instr (s0.installed p h) with
  | .next s1 =>
    let s2 : State := { s1.putBack s0 p h with cur := s.cur }
    let s3 := (s2.swapId p.id (p.id :: s2.namesFrom s.nextId)).settle p.id p.team p.who ((p.lanes.map (·.grp)).headD 0) p.launch s.gtc false
    .next (p.lanes.foldl (fun s x => s.finishExit p.team x.grp x.lane) (s3.wmUpdate p.team h.tiles))
  | o => o

end Sys2Proof.Machine
end

