-- ==== Sys2Proof/Machine/MemEvents.lean ====
section
/-! DEFINITION. Accesses and engines at work: home requests and completions (R117, R119), walks of the tables (R103),
escorts on their way (R185 to R187), hop-engine walks (R194, R195), escort timeouts (R223), stream fetches (R202),
probe passes (R206, R207) and the completions of engines (R199, R207, R265, R277, R297, R301). -/

namespace Sys2Proof.Machine

/-! ### Homes -/

/-- Where an access delivers. -/
def opTgts (op : FOp) : List Tgt :=
  match op with
  | .load t _ _ => [t]
  | .eload t _ _ _ => [t]
  | .kvqry t _ _ => [t]
  | .atomic _ _ ps => ps.map (·.1)
  | _ => []

/-- An escorted lane still waits in its core's request port (R185). -/
def State.inPort (s : State) (t : Tgt) : Bool :=
  match t with
  | .esc req key _ => s.escs.any fun r => r.id = req && r.lanes.any fun l => laneKey (l.grp, l.lane) = key && l.hold = .port
  | _ => false

/-- The name under which an access is ordered: an element of a gather issued with it. -/
def Flight_name (f : Flight) : Nat := f.eng.getD f.id

/-- Where an access acts, its turn has come: a hit in L1 needs none (R117, R127, R129, R333). -/
def State.itsTurn (s : State) (f : Flight) : Bool :=
  s.hits f ||
    (!s.ownedFor [f.id, Flight_name f] (spaceLines f.space f.n) &&
      !s.stackWaits f.space f.n && s.mayServe (spaceKeys f.team f.space f.n) f.source (Flight_name f) (FOp_writes f.op))

/-- An access may act now (R121, R126, R127, R185). -/
def State.mayAct (s : State) (f : Flight) : Bool :=
  Flight_free f s.gtc && s.itsTurn f && (opTgts f.op).all fun t => !s.inPort t

/-- An access acts, and its home or bank notes it (R129, R333). -/
def State.act (s : State) (f : Flight) : State :=
  let s1 := s.perform f
  if s.hits f then s1 else s1.serve (spaceKeys f.team f.space f.n) f.source (Flight_name f) (!FOp_writes f.op)

/-- `HOME_REQUEST` (R117). -/
def execHomeRequest (id : Nat) (s : State) : Out :=
  match s.flights.find? fun f => f.id = id with
  | none => .next s
  | some f => if s.mayAct f then .next ((s.applyDue.act f).barAll f.team) else .next s

/-- `STORE_COMPLETION` (R119): its W has come, and with it that of every store before it in home order. -/
def execStoreCompletion (id : Nat) (s : State) : Out :=
  if s.homes.any fun h => h.id = id && decide (h.w ≤ s.gtc) then .next s.applyDue else .next s

/-- `TABLE_WALK` (R103, R108): a walk of an address that faults leaves no trace. -/
def execTableWalk (core world : Nat) (va : Dword) (s : State) : Out :=
  if canonical va && aperOf va = .glob then .next (s.translate core world (va.toNat % 2 ^ 56)).2 else .next s

/-! ### Escorts on their way (R185 to R187) -/

/-- Capacity of a holding point in escort sectors (R185); the port is counted in requests. -/
def holdCap (h : Hold) : Nat :=
  match h with
  | .port => 0
  | .slice _ => 8192
  | .die _ => 131072
  | .egress _ => 65536

/-- Lanes of a request at a holding point. -/
def EscReq_at (r : EscReq) (h : Hold) : Nat := (r.lanes.filter fun l => l.hold = h && EStat_away l.stat).length

/-- Sectors a holding point holds: the lanes of one request are packed together (R185). -/
def State.holdUse (s : State) (h : Hold) : Nat := sumOf (s.escs.map fun r => escCharge (EscReq_at r h) r.ecnt)

/-- Room for one more lane of a request. -/
def State.holdRoom (s : State) (r : EscReq) (h : Hold) : Bool :=
  decide (s.holdUse h + escCharge (EscReq_at r h + 1) r.ecnt ≤ holdCap h + escCharge (EscReq_at r h) r.ecnt)

/-- Compute die of a sender (R186). -/
def holdDie (core : Nat) (h : Hold) : Nat :=
  match h with
  | .port => dieOf core
  | .slice n => n / 64
  | .die n => n / 2
  | .egress _ => dieOf core

/-- Two lanes leave one sender for one receiver. -/
def samePath (r q : EscReq) (l m : EscLane) : Bool :=
  l.hold = m.hold && l.path = m.path && (decide (l.hold ≠ .port) || decide (r.core = q.core))

/-- Lanes that wait at the same sender for the same receiver, in sending order, with their requests: in the order in which
their way there was known to the sender. -/
def State.sendQueue (s : State) (r : EscReq) (l : EscLane) : List (EscReq × EscLane) :=
  sortBy (fun x : EscReq × EscLane => x.2.arr)
    (s.escs.flatMap fun q => (q.lanes.filter fun m => samePath r q l m && m.stat = .out && m.path ≠ m.hold).map fun m => (q, m))

/-- A lane is to go on from its holding point to another. -/
def State.sendOn (s : State) (req key : Nat) (h : Hold) (line : Option Nat) : State :=
  let (id, s1) := s.fresh
  s1.modEscLane req key fun x => { x with path := h, line := line.getD x.line, arr := id }

def State.escLane? (s : State) (req key : Nat) : Option (EscReq × EscLane) :=
  match s.esc? req with
  | none => none
  | some r => (r.lanes.find? fun l => laneKey (l.grp, l.lane) = key).map fun l => (r, l)

/-- The walk of an escorted lane, if it is one's. -/
def State.walkOf (s : State) (req key : Nat) : Option Walk := s.walks.find? fun w => w.esc = some (req, key)

/-- Physical address of a walk's node, when it translates; the format fault stands as for a load of bytes, though R92 names
the engines, since no rule says how a hop would take a record apart: DESIGN CHOICE (log 39). -/
def State.nodePa (s : State) (w : Walk) : Option Nat :=
  match (s.globAcc w.core w.world w.node kRead false).1 with
  | .ok ⟨.glob pa, _⟩ => some pa
  | _ => none

/-- Base die where a walk's next hop is made: that of the node's stack (R114, R194). -/
def State.walkDie (s : State) (w : Walk) : Nat := ((s.nodePa w).getD 0) / 2 ^ 36 % 8

/-- Ports that may send: up and synchronised (R324, R325). -/
def State.upPorts (s : State) : List Nat := (List.range 16).filter fun k => (s.port k).up && (s.port k).sync

/-- The port with the least queue (R324): fewest sectors held. -/
def State.egressPort (s : State) : Option Nat :=
  s.upPorts.foldl (fun b k => match b with
    | none => some k
    | some j => if s.holdUse (.egress k) < s.holdUse (.egress j) then some k else some j) none

/-- Where a lane's next holding point is. -/
def State.nextHold (s : State) (l : EscLane) : Option Hold :=
  match l.path with
  | .egress _ => s.egressPort.map Hold.egress
  | h => some h

/-- `ESCORT_ACCEPT` (R185, R186): the first of its path that is not dropped moves on, when there is room. -/
def execEscortAccept (req lane : Nat) (s : State) : Out :=
  match s.escLane? req lane with
  | none => .next s
  | some (r, l) =>
    if l.stat ≠ .out || l.path = l.hold || l.dropped then .next s
    else
      match s.nextHold l, (s.sendQueue r l).head? with
      | some h, some (q, m) =>
        if q.id = r.id && laneKey (m.grp, m.lane) = lane && s.holdRoom r h then
          let next : Hold := match h, s.walkOf req lane with
            | .slice _, some w => .die (s.walkDie w)
            | _, _ => h
          .next ((s.modEscLane req lane fun x => { x with hold := h, drops := 0 }).sendOn req lane next none)
        else .next s
      | _, _ => .next s

/-- `ESCORT_DROP` (R186): no room, or an earlier one of the path was dropped; at most WIN stand sent and not
acknowledged. -/
def execEscortDrop (req lane : Nat) (s : State) : Out :=
  match s.escLane? req lane with
  | none => .next s
  | some (r, l) =>
    let q := s.sendQueue r l
    let d := s.die (holdDie r.core l.hold)
    let before := q.takeWhile fun x => !(x.1.id = r.id && laneKey (x.2.grp, x.2.lane) = lane)
    let full := match s.nextHold l with
      | some h => !s.holdRoom r h
      | none => true
    if l.stat = .out && l.path ≠ l.hold && !l.dropped && (full || before.any (·.2.dropped)) &&
        decide ((q.filter (·.2.dropped)).length < d.win) then
      .next (s.modEscLane req lane fun x =>
        { x with dropped := true, drops := x.drops + 1, retryAt := s.gtc + d.backoff * 2 ^ min x.drops d.maxsh })
    else .next s

/-- `BACKOFF_EXPIRY` (R186): it is sent again. -/
def execBackoffExpiry (req lane : Nat) (s : State) : Out :=
  match s.escLane? req lane with
  | some (_, l) =>
    if l.dropped && decide (l.retryAt ≤ s.gtc) then .next (s.modEscLane req lane fun x => { x with dropped := false })
    else .next s
  | none => .next s

def State.setEscStat (s : State) (req key : Nat) (st : EStat) : State := s.modEscLane req key fun x => { x with stat := st }

/-- The access of an escorted lane failed (R188). -/
def State.failEsc (s : State) (req key : Nat) (f : Flt) : State :=
  s.modEscLane req key fun x => { x with stat := .faulted, flts := [f], detAt := s.gtc }

/-! ### Hop-engine walks (R193 to R195) -/

def descLim (d : Word) : Nat := min (d.toNat / 2 ^ 24 % 128) 64
/-- Byte offsets of the payload, the key and the next pointer. -/
def descOff (d : Word) (lo_ unit : Nat) : Nat := d.toNat / 2 ^ lo_ % 128 / unit * unit

/-- One read of a hop. -/
def State.hopRead (s : State) (w : Walk) (off n : Nat) : Except Flt Nat × State :=
  let va := w.node + w64 off
  match s.globAcc w.core w.world va kRead false with
  | (.ok ⟨.glob pa, _⟩, s1) => (.ok (leNat (s1.seen (some w.world) w.world pa n)), s1)
  | (.ok _, s1) => (.ok 0, s1)
  | (.error c, s1) => (.error ⟨c, kRead, va, 0⟩, s1)

/-- Checks of a node's address (R194). -/
def nodeFault (va : Dword) : Option Flt :=
  if aperOf va ≠ .glob then some ⟨8, kRead, va, 0⟩
  else if !canonical va then some ⟨7, kRead, va, 0⟩
  else if va.toNat % 8 ≠ 0 then some ⟨9, kRead, va, 0⟩
  else none

/-- What one hop comes to: the working values, and the next node unless the walk ends here. -/
inductive HopRes where
  | flt (f : Flt)
  | stop (e : List Word)
  | go (e : List Word) (node : Dword)
  deriving DecidableEq, Repr

/-- One hop (R194): payload, count, key, next pointer. -/
def State.hopStep (s : State) (w : Walk) : HopRes × State :=
  let d := w.desc
  match nodeFault w.node with
  | some f => (.flt f, s)
  | none =>
    let pay := if d.getLsbD 21 then s.hopRead w (descOff d 7 4) 4 else (.ok 0, s)
    match pay.1 with
    | .error f => (.flt f, pay.2)
    | .ok p =>
      let e0 := w.e.getD 0 0
      let e0' := if !d.getLsbD 21 then e0 else if d.getLsbD 22 then addF32 e0 (w32 p) else e0 + w32 p
      let e := (w.e.set 0 e0').set 1 (w.e.getD 1 0 + 1)
      let key := if d.getLsbD 23 then pay.2.hopRead w (descOff d 14 4) 4 else (.ok 0, pay.2)
      match key.1 with
      | .error f => (.flt f, key.2)
      | .ok k =>
        if d.getLsbD 23 && w32 k = e.getD 2 0 then (.stop e, key.2)
        else
          match key.2.hopRead w (descOff d 0 8) 8 with
          | (.error f, s1) => (.flt f, s1)
          | (.ok nx, s1) => if nx = 0 || w.hops + 1 = descLim d then (.stop e, s1) else (.go e (w64 nx), s1)

def State.dropWalk (s : State) (w : Walk) : State :=
  { s with walks := s.walks.filter fun x => decide (x.id ≠ w.id) }.settle w.id w.team w.who w.grp w.launch s.gtc false

/-- The walk ends: the reply carries the working values and the last node. -/
def State.endWalk (s : State) (w : Walk) (e : List Word) : State :=
  let s1 := s.dropWalk w
  match w.esc with
  | some (req, key) => s1.modEscLane req key fun x =>
      { x with esc := e, dest := [some (lo w.node), some (hi w.node)], stat := .replied }
  | none =>
    ((w.ePends.zipIdx).foldl (fun s p => s.deliver (.pend p.1 0) [e.getD p.2 0])
      (s1.deliver (.pend w.dPend 0) [lo w.node, hi w.node])).lateDone w.issue

/-- A hop faulted: the values from issue come home, the lane parks (R188, R195). -/
def State.faultWalk (s : State) (w : Walk) (f : Flt) : State :=
  let s1 := s.dropWalk w
  match w.esc with
  | some (req, key) => s1.failEsc req key f
  | none =>
    let s2 : State := { s1 with pends := s1.pends.filter fun p => !(p.id = w.dPend || w.ePends.contains p.id) }
    (s2.lateFault w.issue (lateCtx w.core w.team w.who w.pc w.len w.word) (w.grp, w.lane) f).lateDone w.issue

/-- Places that the next hop of a walk reads, each where its own page lies. -/
def State.hopPlaces (s : State) (w : Walk) : List (Space × Nat) :=
  let d := w.desc
  if (nodeFault w.node).isSome || descLim d = 0 then []
  else
    ((if d.getLsbD 21 then [(descOff d 7 4, 4)] else []) ++ (if d.getLsbD 23 then [(descOff d 14 4, 4)] else []) ++
        [(descOff d 0 8, 8)]).filterMap fun (x : Nat × Nat) =>
      match (s.globAcc w.core w.world (w.node + w64 x.1) kRead false).1 with
      | .ok ⟨.glob pa, _⟩ => some (.glob pa, x.2)
      | _ => none

/-- A hop waits: for an acquire; for what its lane did before at the bytes that it reads; for an engine that owns a line of
them (R121, R126, R127). -/
def State.walkHeld (s : State) (w : Walk) : Bool :=
  let sps := s.hopPlaces w
  w.after ≠ [] || s.threadsBefore w.team w.id [(w.grp, w.lane)] sps ≠ [] ||
    decide (max w.floor (s.threadsFloor w.team w.id [(w.grp, w.lane)] sps) > s.gtc) || s.ownedFor [w.id] (placeLines sps)

/-- Where the escort of a walk stands: in the base die of its node, or where the node does not translate, it hops; in
another it goes there first; on its way it does neither (R195). -/
inductive WalkAt where | here | gone | away
  deriving DecidableEq, Repr

def State.walkAt (s : State) (w : Walk) : WalkAt :=
  match w.esc with
  | none => .here
  | some (req, key) =>
    match s.escLane? req key with
    | some (_, l) =>
      (match l.hold with
      | .die d => if l.path ≠ l.hold then .away else if (s.nodePa w).all fun _ => d = s.walkDie w then .here else .gone
      | _ => .away)
    | none => .away

/-- `HOP` (R194). -/
def execHop (id : Nat) (s : State) : Out :=
  match s.walks.find? fun w => w.id = id with
  | none => .next s
  | some w =>
    -- the escort goes on to the base die of a node
    let onward (s : State) (w : Walk) : State := match w.esc with
      | some (req, key) => s.sendOn req key (.die (s.walkDie w)) (some ((s.nodePa w).elim 0 lineOf))
      | none => s
    match s.walkAt w with
    | .away => .next s
    | .gone => .next (onward s w)
    | .here =>
      if s.walkHeld w then .next s
      else if descLim w.desc = 0 then .next (s.endWalk w w.e)
      else
        match (s.applyDue.noteRead (placeLines (s.hopPlaces w))).hopStep w with
        | (.flt f, s1) => .next (s1.faultWalk w f)
        | (.stop e, s1) => .next (s1.endWalk w e)
        | (.go e n, s1) =>
          let w' := { w with e := e, node := n, hops := w.hops + 1 }
          .next (onward { s1 with walks := mapIf s1.walks (fun x => x.id = id) fun _ => w' } w')

/-! ### Timeouts (R222, R223) -/

/-- A remote request that failed: its escort comes home, its lane parks with 0x0B and the peer's class (R188, R189,
R210). -/
def State.remoteFault (s : State) (r : Remote) (cls : Nat) : State :=
  let kind := match r.op with
    | .load .. => kRead
    | .store _ => kWrite
    | _ => kAtomic
  let f : Flt := ⟨0x0B, kind, r.va, cls⟩
  let s1 := { s with egress := s.egress.filter fun x => decide (x.id ≠ r.id) }.settle r.id r.team r.who r.grp r.launch s.gtc true
  match r.esc with
  | some (req, key) => s1.failEsc req key f
  | none =>
    let ids := (opTgts r.op).filterMap fun t => match t with
      | .pend id _ => some id
      | _ => none
    let s2 : State := { s1 with pends := s1.pends.filter fun p => !ids.contains p.id }
    (s2.lateFault r.issue (lateCtx r.core r.team r.who r.pc r.len r.word) (r.grp, r.lane) f).lateDone r.issue

/-- `REMOTE_ESCORT_TIMEOUT` (R223). -/
def execRemoteEscortTimeout (id : Nat) (s : State) : Out :=
  match s.egress.find? fun r => r.id = id with
  | none => .next s
  | some r =>
    let stored := match r.esc.bind fun e => s.escLane? e.1 e.2 with
      | some (_, l) => (match l.hold with | .egress _ => true | _ => false)
      | none => true
    if stored && decide (s.gtc ≥ r.sentAt + 1000 * (s.die (dieOf r.core)).toRemote) then .next (s.remoteFault r 0) else .next s

/-- Forgets a request: escort discarded, charge released (R182, R223). -/
def State.discardEsc (s : State) (req : Nat) : State :=
  match s.esc? req with
  | none => s
  | some r =>
    { s with escs := mapIf s.escs (fun q => q.id = req) fun q =>
        { q with lanes := q.lanes.map fun l : EscLane => if EStat_home l.stat then l else { l with stat := .landed } } }.escDone r.id

/-- `LOCAL_ESCORT_TIMEOUT` (R223): an integrity error of the launch; a request that leaves the device is not local. -/
def execLocalEscortTimeout (req lane : Nat) (s : State) : Out :=
  match s.escLane? req lane with
  | none => .next s
  | some (r, l) =>
    let remote := match l.path with | .egress _ => true | _ => false
    if !EStat_home l.stat && !remote && decide (s.gtc ≥ r.depart + 1000 * (s.die (dieOf r.core)).toLocal) then
      .next ((s.discardEsc req).integrity r.launch l.line r.core)
    else .next s

/-! ### Streams (R201, R202) -/

/-- Places that element i of a lane's stream reads: its index word, and itself. -/
def State.elemPlaces (s : State) (team : Nat) (home : Nat × Nat) (x : Stream) (L i : Nat) : List Acc :=
  let at_ (va : Dword) : List Acc := match (s.access (s.team team).core team home.1 home.2 va 4 4 kRead false).1 with
    | .ok a => [a]
    | .error _ => []
  (if x.ind then at_ (idxVa x home L i) else []) ++ (match (s.elemAddr team home x L i).1 with
    | .ok va => at_ va
    | .error _ => [])

/-- Element i of a lane's stream may be read now: it comes after the acquires, and after what the lane did at its bytes, that
stood before the configuring instruction (R121, R126, R202); and where it is served it waits for owners and has its turn
(R100, R127, R333). -/
def State.readNow (s : State) (team : Nat) (a : Actor) (home : Nat × Nat) (x : Stream) (L i : Nat) : Bool :=
  let t := s.team team
  let g := t.actor a
  let as := s.elemPlaces team home x L i
  let sps := as.map fun p => (p.space, 4)
  let home_ := as.filter fun p => !s.readHits t.core team p 4 (BitVec.ofNat 2 x.hint)
  (g.acqs.all fun q => decide (x.cfg ≤ q.1)) && decide (max x.floor (if x.acqs then g.floor else 0) ≤ s.gtc) &&
    s.threadsBefore team x.cfg [home] sps = [] && decide (s.threadsFloor team x.cfg [home] sps ≤ s.gtc) &&
    !s.ownedFor [] (placeLines (home_.map fun p => (p.space, 4))) && (sps.all fun p => !s.stackWaits p.1 p.2) &&
    s.mayServe (home_.flatMap fun p => spaceKeys team p.space 4) t.core s.nextId false

/-- `STREAM_ELEMENT_FETCH` (R202): at most 16 elements ahead; a fault is kept for the port read. -/
def execStreamElementFetch (team grp : Nat) (k : BitVec 4) (lane : Nat) (s : State) : Out :=
  let t := s.team team
  let a := actorOf grp
  let x := (t.actor a).stream k.toNat
  let h := Team_homeOf t a lane
  let n := (x.buf.filter fun e => e.lane = lane).length
  let i := Stream_cursor x lane + n
  if s.resident team && x.active && !(t.threadAt a lane).gone && decide (n < 16) && decide (i < tabGet x.count lane 0) &&
      s.readNow team a h x lane i then
    let r := s.applyDue.elemNow team h x lane i
    let s1 := r.2.modTeam team fun t => t.modActor a fun g =>
      g.setStream k.toNat { g.stream k.toNat with buf := (g.stream k.toNat).buf ++ [⟨lane, i, r.1, s.gtc⟩] }
    .next (s1.noteLaunch t.launch s.gtc)
  else .next s

/-! ### Engine writes -/

/-- One write of an engine now: its completion time (R127). -/
def State.engineWrite (s : State) (e : Engine) (w : EWrite) : Nat × State :=
  match w.space with
  | .glob pa =>
    let (id, s1) := s.fresh
    (s1.wAt s.gtc pa w.n, s1.arrive id e.world e.team e.who 0 e.launch pa w.n w.op (some e.id) false false)
  | sp =>
    let old := s.spaceBytes e.core e.team sp w.n
    (s.gtc, s.putSpace e.core e.team sp (applyOp s.gtc w.op old).1)

/-- All writes of an engine, in order; the latest completion time. -/
def State.engineWrites (s : State) (e : Engine) (ws : List EWrite) : Nat × State :=
  ws.foldl (fun (acc : Nat × State) w =>
    let r := acc.2.engineWrite e w
    (max acc.1 r.1, r.2)) (s.gtc, s)

/-- Source number of an engine (R129). -/
def Engine_source (e : Engine) : Nat :=
  match e.kind with
  | .acp _ => 384 + e.core / 8
  | .scat _ => 416 + e.core / 8
  | _ => e.core

/-- An engine may act now at its places: it waits for nothing before it, owns its lines before every other, and has its turn
where it writes and where it reads (R117, R121, R127, R129, R333). -/
def State.engineFree (s : State) (e : Engine) (ws rs : List (Space × Nat)) : Bool :=
  let keys (l : List (Space × Nat)) : List Nat := l.flatMap fun p => spaceKeys e.team p.1 p.2
  e.after = [] && decide (e.floor ≤ s.gtc) &&
    !s.ownedBefore e.id (e.lines ++ rs.flatMap fun p => spaceLines p.1 p.2) &&
    ((ws ++ rs).all fun p => !s.stackWaits p.1 p.2) &&
    s.mayServe (keys ws) (Engine_source e) e.id true && s.mayServe (keys rs) (Engine_source e) e.id false

/-- An engine has acted. -/
def State.engineServed (s : State) (e : Engine) (ws rs : List (Space × Nat)) : State :=
  let keys (l : List (Space × Nat)) : List Nat := l.flatMap fun p => spaceKeys e.team p.1 p.2
  (s.serve (keys rs) (Engine_source e) e.id true).serve (keys ws) (Engine_source e) e.id false

/-- An engine makes its writes, when it may: its lines are released and its token is the latest completion (R127). -/
def State.runEngine (s : State) (e : Engine) (ws : List EWrite) (rs : List (Space × Nat)) : State :=
  let ps := ws.map fun w => (w.space, w.n)
  if s.engineFree e ps rs then
    let r := s.engineWrites e ws
    (r.2.engineDone e r.1).engineServed e ps rs
  else s

def State.engine? (s : State) (id : Nat) : Option Engine := s.engines.find? fun e => e.id = id

/-- A copy acts (R199): every sector is read now and written, all at one GTC between issue and token, which R127 leaves
open: DESIGN CHOICE (log 37). -/
def State.runAcp (s : State) (e : Engine) (secs : List (Space × Space)) : State :=
  let s0 := s.applyDue
  s0.runEngine e (secs.map fun x => ⟨x.1, .store (s0.spaceBytes e.core e.team x.2 32), 32⟩) (secs.map fun x => (x.2, 32))

/-- `SCAT_COMPLETION` (R207). -/
def execScatCompletion (id : Nat) (s : State) : Out :=
  match s.engine? id with
  | some e =>
    match e.kind with
    | .scat ws => .next (s.applyDue.runEngine e ws [])
    | _ => .next s
  | none => .next s

/-- `MATRIX_OP_COMPLETION` (R265). -/
def execMatrixOpCompletion (id : Nat) (s : State) : Out :=
  match s.engine? id with
  | some e =>
    match e.kind with
    | .tile _ _ 0 => .next (s.tileDone id (s.cycle (s.team e.team).core))
    | _ => .next s
  | none => .next s

/-- `MST_COMPLETION` (R277): once every row it stores is final. -/
def execMstCompletion (id : Nat) (s : State) : Out :=
  match s.engine? id with
  | some e =>
    match e.kind with
    | .mst first ws => if s.engines.all fun x => !first.contains x.id then .next (s.applyDue.runEngine e ws []) else .next s
    | _ => .next s
  | none => .next s

/-- `ATTN_COMPLETION` (R265, R297). -/
def execAttnCompletion (id : Nat) (s : State) : Out :=
  match s.engine? id with
  | some e =>
    match e.kind with
    | .attn ts rows _ =>
      -- its rows are final only once every writer before it is complete (R265)
      if ts.any fun md => (s.tileWriters e.team md rows).any fun i => decide (i < id) then .next s
      else .next ((s.engineDone e s.gtc).wmUpdate e.team ts)
    | _ => .next s
  | none => .next s

/-- A frame of `KVTRIM` comes back to its list (R301). -/
def State.pushQueued (s : State) (w : Nat) (x : Nat × Nat) : State :=
  let l := World_list (s.world w) x.1
  (s.setPhys none (l.base.toNat + 8 * l.count) (leBytes 8 x.2)).modWorld w fun v =>
    World_setList v x.1 { l with count := l.count + 1, pending := l.pending - 1 }

/-- `KVTRIM_FRAME_PUSH` (R301). -/
def execKvtrimFramePush (id : Nat) (s : State) : Out :=
  match s.engine? id with
  | some e =>
    match e.kind with
    | .kvtrim frames none =>
      if e.floor ≤ s.gtc then
        let s1 := frames.foldl (fun s x => s.pushQueued e.world x) s
        .next (s1.engineDone e e.floor)
      else .next s
    | _ => .next s
  | none => .next s

/-! ### Probe passes (R206, R207) -/

def errFlts (l : List (Except Flt Acc)) : List Flt := l.filterMap fun r => match r with
  | .ok _ => none
  | .error f => some f

/-- A probe that faulted: every lane parks, an escorted one as its fault reply comes home (R188, R206). -/
def State.probeFaulted (s : State) (p : Probe) (fs : List LaneFlt) : State :=
  let s1 : State := { s with
    probes := s.probes.filter (fun x => decide (x.id ≠ p.id)),
    pends := s.pends.filter fun q => !p.pends.contains q.id }
  let s2 := s1.settle p.id p.team p.who ((p.lanes.map (·.grp)).headD 0) p.launch s.gtc false
  let s3 : State := match p.req with
    | none => s2
    | some req =>
      { s2 with escs := mapIf s2.escs (fun q => q.id = req) fun q => { q with probe := true, lanes := q.lanes.map fun l =>
          { l with stat := .faulted, detAt := s.gtc,
                   flts := (fs.filter fun f => f.1 = (l.grp, l.lane)).map (·.2) } } }
  let hs := p.lanes.map fun x => (x.grp, x.lane)
  match s3.team? p.team with
  | none => s3
  | some t =>
    if p.req.isNone || hs.any fun h => (t.thread h.1 h.2).level = .h then
      s3.takeFault (lateCtx p.core p.team p.who p.pc p.len p.word) fs { probe := some hs }
    else s3

/-- The hint of a gather (R174). -/
def gatherHint (i : Instr) : BitVec 2 :=
  match i with
  | .gath _ hint .. => hint
  | _ => 0

/-- Source number of the gather engine of a core's cluster (R129). -/
def gatherSource (core : Nat) : Nat := 416 + core / 8

/-- Starts the element loads of a gather, each after what its lane did there before the gather (R121, R207). Those of an
accepted request fill no L1, whatever their hint, since they are read for an escort at the homes: DESIGN CHOICE (log 39). -/
def State.startGather (s : State) (p : Probe) (ls : List (PLane × List Acc)) : State :=
  let r := (ls.zipIdx).foldl (fun (acc : List Nat × State) x =>
    (x.1.2.zipIdx).foldl (fun (acc : List Nat × State) a =>
      let (id, s1) := acc.2.fresh
      let tgt : Tgt := match p.req with
        | some req => .esc req (laneKey (x.1.1.grp, x.1.1.lane)) a.2
        | none => .pend (p.pends.getD x.2 0) a.2
      let f : Flight :=
        { id := id, team := p.team, who := p.who, grp := x.1.1.grp, lane := x.1.1.lane,
          source := gatherSource p.core, world := p.world, launch := p.launch, core := p.core, space := a.1.space, n := 4,
          op := .load tgt 4 false, fill := if p.req.isSome then 0 else fillOf (gatherHint p.instr) a.1.ent,
          floor := max p.floor (s.threadsFloor p.team p.id [(x.1.1.grp, x.1.1.lane)] [(a.1.space, 4)]),
          after := s.threadsBefore p.team p.id [(x.1.1.grp, x.1.1.lane)] [(a.1.space, 4)], eng := some p.id,
          acq := false, acqY := false, relY := false }
      (acc.1 ++ [id], { s1 with flights := s1.flights ++ [f] })) acc) ([], s)
  { r.2 with probes := r.2.probes.filter fun x => decide (x.id ≠ p.id) }.swapId p.id r.1

/-- What a scatter writes, in its order: ascending home lane, then ascending j (R207). -/
def scatWrites (i : Instr) (ls : List (PLane × List Acc)) : List EWrite :=
  let op (v : Word) : FOp := match i with
    | .scatAdd _ _ ty .. => .atomic (if ty = .f32 then .fadd else .add) ty [(.none, zext32 v, 0)]
    | _ => .store (leBytes 4 v.toNat)
  (sortBy (fun x : PLane × List Acc => x.1.lane) ls).flatMap fun x =>
    (x.2.zipIdx).map fun a => ⟨a.1.space, op (x.1.src.getD a.2 0), 4⟩

/-- Every element of every lane, as the tables and the index words stand. -/
def State.probeAll (s : State) (p : Probe) : List (PLane × List (Except Flt Acc)) × State :=
  let sh := probeShape p.instr
  p.lanes.foldl (fun (acc : List (PLane × List (Except Flt Acc)) × State) x =>
    let q := acc.2.probeLaneAll p x sh.1 sh.2.1 sh.2.2
    (acc.1 ++ [(x, q.1)], q.2)) ([], s)

/-- Under what homes and the scratchpad note the index words that a probe reads. -/
def State.probeKeys (s : State) (p : Probe) : List Nat := (s.indexAccs p).flatMap fun a => spaceKeys p.team a.space 4

/-- A team's probes go on: it stands on its core, also while it stops (R224). -/
def State.onGoing (s : State) (p : Probe) : Bool :=
  match s.team? p.team with
  | some t => (match t.place with
    | .resident | .stopped _ => true
    | _ => false)
  | none => false

/-- A probe waits: for what came before it, for lines of its own that an engine owns, for its lanes' stores and write-backs
where it reads, and for its turn at its index words (R100, R121, R126, R127, R333). Past its pass it goes on while its team
stops (R224). -/
def State.probeHeld (s : State) (p : Probe) : Bool :=
  let sps := s.probeSpaces p
  let hs := p.lanes.map fun x => (x.grp, x.lane)
  p.after ≠ [] || decide (max p.floor (s.threadsFloor p.team p.id hs sps) > s.gtc) || !s.onGoing p ||
    s.ownedBefore p.id (placeLines sps) || (sps.any fun x => s.stackWaits x.1 x.2) ||
    !s.mayServe (s.probeKeys p) (gatherSource p.core) p.id false

/-- The data of a probe's instruction move, with the index words as they read now (R206, R207): a gather's loads begin, a
scatter goes on as an engine that owns its lines and pins its pages (R127). -/
def State.afterProbe (s : State) (p : Probe) (ls : List (PLane × List Acc)) : State :=
  match p.instr with
  | .gath .. => s.startGather p ls
  | _ =>
    let ws := scatWrites p.instr ls
    let sps := ws.map fun w => (w.space, w.n)
    let hs := p.lanes.map fun x => (x.grp, x.lane)
    let e : Engine :=
      { id := p.id, team := p.team, who := p.who, launch := p.launch, world := p.world, core := p.core, kind := .scat ws,
        pend := none, lines := globLines (ws.map (·.space)), pins := accPins (ls.flatMap (·.2)),
        floor := max p.floor (s.threadsFloor p.team p.id hs sps), after := s.threadsBefore p.team p.id hs sps, lanes := hs }
    let s1 : State := { s with probes := s.probes.filter (fun x => decide (x.id ≠ p.id)), engines := s.engines ++ [e] }
    p.lanes.foldl (fun s x => s.finishExit p.team x.grp x.lane) s1

/-- `PROBE_PASS` (R206): any fault parks every lane; and an instruction that issued and waited acts. The first time the pass
ends and its pages are pinned; the next time the index words are read again and used. A fault of an element that an index word
has come to name since: DESIGN CHOICE (log 37), as in the pass. -/
def execProbePass (id : Nat) (s : State) : Out :=
  match s.probes.find? fun p => p.id = id with
  | none => .next s
  | some p =>
    match p.held with
    | some h => if s.onGoing p && s.applyDue.heldFree p h then s.applyDue.runHeld p h else .next s
    | none =>
    if s.probeHeld p then .next s
    else
      let s0 := s.applyDue.serve (s.probeKeys p) (gatherSource p.core) p.id true
      let r := s0.probeAll p
      let fs : List LaneFlt := r.1.flatMap fun x => (errFlts x.2).map fun f => ((x.1.grp, x.1.lane), f)
      let ls := r.1.map fun x => (x.1, okAccs x.2)
      if fs ≠ [] then .next (r.2.probeFaulted p fs)
      else if p.passed then .next (r.2.afterProbe p ls)
      else
        let pins := keysOf (accPins (ls.flatMap (·.2)) ++ accPins (s0.indexAccs p))
        .next { r.2 with probes := mapIf r.2.probes (fun x => x.id = id) fun x => { x with passed := true, pins := pins } }

end Sys2Proof.Machine
end

