-- ==== Sys2Proof/Machine/Regroup.lean ====
section
/-! DEFINITION. The Conjugator (R256 to R260): when a conjugate group forms, and of whom. -/

namespace Sys2Proof.Machine

/-- Candidates of a program counter, in the order of the selection (R258). -/
def candOrder (cs : List Cand) : List Cand :=
  sortBy (fun c : Cand => c.sub) (sortBy (fun c : Cand => c.grp * 32 + c.lane) cs)

/-- The selection (R258). -/
def chooseCands (cs : List Cand) : List Cand :=
  cs.foldl (fun acc x =>
    let groups := keysOf (acc.map (·.grp))
    if acc.all (fun y => y.lane ≠ x.lane) && (groups.contains x.grp || decide (groups.length < 8)) then acc ++ [x] else acc) []

/-- The program counters of a team's candidates, oldest candidate first. -/
def candPcs (cs : List Cand) : List Dword :=
  (candOrder cs).foldl (fun acc c => if acc.contains c.pc then acc else acc ++ [c.pc]) []

/-- A trigger holds: 32 positions are filled, or the oldest candidate's expiry is reached (R258). -/
def candTrigger (cs : List Cand) (now : Nat) (full : Bool) : Bool :=
  (full && (chooseCands cs).length = 32) || (match cs.head? with
    | some c => decide (now ≥ c.expiry)
    | none => false)

/-- Conjugator entries in use on a core. -/
def State.conjUsed (s : State) (core : Nat) : Nat := sumOf ((s.onCore.filter fun t => t.core = core).map fun t => t.conj.length)

/-- Forms the conjugate group of some chosen candidates (R258, R259): positions in ascending home lane. -/
def State.formConj (s : State) (team : Nat) (cs : List Cand) : State :=
  let t := s.team team
  let ls := sortBy (fun c : Cand => c.lane) cs
  let (id, s1) := s.fresh
  let low := (keysOf (cs.map (·.grp))).headD 0
  let sub := (t.groupAt low).sub
  let g : Group :=
    { id := id, slot := (cs.map (·.slot)).headD 0, sub := sub, active := decide ((s.members t.core sub true).length < 8),
      pendSince := s.cycle t.core,
      pos := (List.range 32).map fun i => (ls[i]?).map fun c => (c.grp, c.lane) }
  s1.modTeam team fun t =>
    let t1 := cs.foldl (fun t c => t.modThread c.grp c.lane fun th => { th with st := .run, pc := c.pc }) t
    { t1 with conj := t1.conj ++ [g], cands := t1.cands.filter fun c => !cs.contains c }

/-- One formation, when a trigger holds and an entry and a place are free (R258). Of several program counters whose triggers
hold, that of the oldest candidate comes first: DESIGN CHOICE (log 39). -/
def State.tryConj (s : State) (team : Nat) (full : Bool) : State :=
  let t := s.team team
  let of_ (pc : Dword) : List Cand := candOrder (t.cands.filter fun c => c.pc = pc)
  if !s.resident team || s.conjUsed t.core ≥ 32 then s
  else
    match (candPcs t.cands).find? fun pc =>
      candTrigger (of_ pc) (s.cycle t.core) full &&
        decide (s.places t.core (t.groupAt ((keysOf ((chooseCands (of_ pc)).map (·.grp))).headD 0)).sub < 32) with
    | some pc => s.formConj team (chooseCands (of_ pc))
    | none => s

/-- `CONJUGATOR_EXPIRY` (R258). -/
def execConjugatorExpiry (team : Nat) (s : State) : Out := .next (s.tryConj team false)

/-- Formations repeat while a trigger holds: a core has no more than 32 entries (R258). -/
def State.conjTeam (s : State) (team n : Nat) : State :=
  match n with
  | 0 => s
  | n + 1 =>
    let s1 := s.tryConj team true
    if (s1.team team).conj.length = (s.team team).conj.length then s else s1.conjTeam team n

/-- As a cycle begins, groups form whose triggers are met (R258). -/
def State.conjAll (s : State) : State := (s.teams.filter fun t => t.cands ≠ []).foldl (fun s t => s.conjTeam t.id 32) s

/-- `CONJUGATE_GROUP_FORMATION` (R258). -/
def execConjugateGroupFormation (team : Nat) (s : State) : Out := .next (s.tryConj team true)

end Sys2Proof.Machine
end

