-- ==== Sys2Proof/Machine/Errors.lean ====
section
/-! DEFINITION. Integrity errors and error counters (R130 to R132, R315), fault queues and resumes (R215 to R217),
translation invalidates (R234). -/

namespace Sys2Proof.Machine

/-! ### Errors -/

/-- `INTEGRITY_ERROR` (R131). -/
def execIntegrityError (launch : Nat) (line : Nat) (source : Nat) (s : State) : Out :=
  match s.launch? launch with
  | some l => if l.aborted || l.refused then .next s else .next (s.integrity launch line source)
  | none => .next s

/-- `UNCONSUMED_ERROR` (R132): recorded only. -/
def execUnconsumedError (world : Nat) (line : Nat) (source : Nat) (s : State) : Out :=
  let (tag, s0) := s.fresh
  let r : FRec := { cls := 0x10, tag := w32 tag, addr := w64 (line * 128), world := world, source := source, gtc := s.gtc }
  let s1 := s0.pushRec 0 r
  let s2 := if world = 0 then s1 else s1.pushRec world r
  .next (s2.signal world 2)

/-- Counts a corrected error; the signal follows the threshold (R315). -/
def Die_count (d : Die) (cls : Nat) : Die × Bool :=
  let n := min (tabGet d.errs cls 0 + 1) (2 ^ 64 - 1)
  let hit := d.thresh ≠ 0 && decide (n - tabGet d.errSig cls 0 ≥ d.thresh)
  ({ d with errs := tabSet d.errs cls n 0, errSig := if hit then tabSet d.errSig cls n 0 else d.errSig }, hit)

/-- `CORRECTED_ERROR` (R130, R315): array class 0 to 7. -/
def execCorrectedError (die cls : Nat) (s : State) : Out :=
  if die < 4 && cls < 8 then
    let r := Die_count (s.die die) cls
    let s1 := s.modDie die fun _ => r.1
    .next (if r.2 then s1.signal 0 5 else s1)
  else .next s

/-- `ERROR_COUNTER_WRITE` (R315): any value clears the counter. -/
def execErrorCounterWrite (die cls : Nat) (s : State) : Out :=
  if die < 4 && cls < 8 then
    .next (s.modDie die fun d => { d with errs := tabSet d.errs cls 0 0, errSig := tabSet d.errSig cls 0 0 })
  else .next s

/-! ### Device writes to fixed physical addresses -/

/-- Nothing holds a write of these bytes back (R119, R127). -/
def State.quiet (s : State) (pa n : Nat) : Bool :=
  decide (s.wTime pa n 0 ≤ s.gtc) && !s.readAt pa n && !s.owned none (linesOf pa n)

/-- A write that completes now. -/
def State.putNow (s : State) (who : Option Nat) (pa : Nat) (bs : List Byte) : State :=
  (s.applyDue.write who (who.getD 0) pa bs).noteW pa bs.length s.gtc

/-! ### Fault queues (R215, R216) -/

/-- The 64 bytes of a record (R215). -/
def FRec_bytes (r : FRec) (seq : Word) : List Byte :=
  leBytes 4 seq.toNat ++ leBytes 1 r.cls ++ leBytes 1 r.kind ++ leBytes 1 r.flags ++ leBytes 1 r.peer ++
  leBytes 4 r.tag.toNat ++ leBytes 4 r.lanes.toNat ++ leBytes 8 r.addr.toNat ++ leBytes 8 r.pc.toNat ++
  leBytes 4 r.word.toNat ++ leBytes 2 r.world ++ leBytes 2 r.source ++ leBytes 4 r.team ++ leBytes 2 r.grp ++
  leBytes 2 r.code ++ leBytes 8 r.launch ++ leBytes 8 r.gtc

/-- Physical address of the record that would be written next. -/
def World_fqSlot (w : World) : Nat := w.fqbase.toNat + 64 * (w.fqtail.toNat % 2 ^ w.fqsize)

/-- There is a record to write, and room (R216). -/
def World_fqRoom (w : World) : Bool := w.held ≠ [] && w.fqsize ≠ 0 && decide ((w.fqtail - w.fqhead).toNat < 2 ^ w.fqsize)

/-- A fault that will make a record of a world's queue was detected before a record, and its issue is not recorded yet: a
lane still answers, a fault reply is under way or has landed, or it was raised before the issue's request was sent (R215,
R216). -/
def State.earlierFault (s : State) (world : Nat) (r : FRec) : Bool :=
  let hit (w core : Nat) (f : Flt) (at_ : Nat) : Bool :=
    (if f.cls = 6 then 0 else w) = world && !s.handled w f.cls && !FRec_upTo r at_ core
  (s.lates.any fun x => x.flts.any fun y => hit (s.worldOf (s.team x.team)) x.core y.2.1 y.2.2) ||
    s.escs.any fun q => (s.team? q.team).isSome &&
      ((q.lanes.any fun l => (l.stat = .faulted || l.due) && l.flts.any fun f => hit q.world q.core f l.detAt) ||
        q.early.any fun x => hit q.world q.core x.2.1 x.2.2)

/-- `FAULT_RECORD_WRITE` (R216): the record, then FQTAIL, then vector 0; once its GTC of detection is past, since until then a
lower source may still raise one of it. -/
def execFaultRecordWrite (world : Nat) (s : State) : Out :=
  let w := s.world world
  match w.held with
  | [] => .next s
  | r :: rest =>
    if World_fqRoom w && decide (r.gtc < s.gtc) && !s.earlierFault world r && s.quiet (World_fqSlot w) 64 then
      let s1 := s.putNow none (World_fqSlot w) (FRec_bytes r w.fqtail)
      .next ((s1.modWorld world fun x => { x with held := rest, fqtail := x.fqtail + 1 }).signal world 0)
    else .next s

/-- `FAULT_QUEUE_SETUP` (R216): a write of FQBASE, or of FQSIZE. -/
def execFaultQueueSetup (world : Nat) (size : Bool) (val : Dword) (s : State) : Out :=
  .next (s.modWorld world fun w => World_fqSetup w size val)

/-- `FQHEAD_WRITE` (R216). -/
def execFqheadWrite (world : Nat) (val : Dword) (s : State) : Out := .next (s.modWorld world fun w => World_fqHead w val)

/-- `RETRY` (R217). -/
def execRetry (world : Nat) (tag : Word) (s : State) : Out := .next (s.resume world tag .retry)
/-- `SKIP` (R217). -/
def execSkip (world : Nat) (tag : Word) (s : State) : Out := .next (s.resume world tag .skip)
/-- `KILL` (R217). -/
def execKill (world : Nat) (tag : Word) (s : State) : Out := .next (s.resume world tag .kill)

/-! ### Translation invalidates (R234) -/

/-- `TRANSLATION_INVALIDATE`, by the host. -/
def execTranslationInvalidate (world : Nat) (val : Dword) (s : State) : Out := .next (s.startInval world val none)

/-- Lines that the `KVTRIM` which started an invalidate owns until it completes: what waits for them is not waited for. -/
def State.invalLines (s : State) (id : Nat) : List Nat :=
  s.engines.flatMap fun e => match e.kind with
    | .kvtrim _ (some i) => if i = id then e.lines else []
    | _ => []

/-- Nothing of the world that had a translation when an invalidate began is under way: accesses, walks, passes, engines with
their pins (R109, R212, R234). A sequence operation that has acted and an instruction that has not hold none. -/
def State.invalReady (s : State) (v : Inval) (cut : Nat) : Bool :=
  let own := s.invalLines v.id
  let later (w name : Nat) : Bool := w ≠ v.world || decide (cut ≤ name)
  (s.flights.all fun f => later f.world (f.eng.getD f.id) || linesMeet (spaceLines f.space f.n) own) &&
    (s.walks.all fun f => later f.world f.id || linesMeet (placeLines (s.hopPlaces f)) own) &&
    (s.probes.all fun f => later f.world f.id || f.held.isSome || linesMeet (placeLines (s.probeSpaces f)) own) &&
    (s.engines.all fun f => later f.world f.id || (match f.kind with
      | .kvapp => true
      | .kvtrim .. => true
      | k => linesMeet (placeLines (EngKind_spaces k)) own)) &&
    s.homes.all fun h => later h.world (h.eng.getD h.id) || decide (h.w ≤ s.gtc)

/-- The starter learns the completion time; the frames of a `KVTRIM` may be pushed from then on. -/
def Group_invalDone (g : Group) (id t : Nat) : Group :=
  if g.invs.contains id then { g with invs := g.invs.filter fun x => decide (x ≠ id), invT := w64 (max g.invT.toNat t) } else g

/-- `INVALIDATE_COMPLETION` (R234): the one of a `KVTRIM` begins once its stores are complete, and then completes (R301). -/
def execInvalidateCompletion (id : Nat) (s : State) : Out :=
  match s.invals.find? fun v => v.id = id with
  | none => .next s
  | some v =>
    match v.cut with
    | none =>
      if v.start ≤ s.gtc then
        .next (State.dropSpan { s with invals := mapIf s.invals (fun x => x.id = id) fun x => { x with cut := some s.nextId } }
          v.world v.span v.page)
      else .next s
    | some cut =>
    if !s.invalReady v cut then .next s
    else
      let s1 := s.dropSpan v.world v.span v.page
      let s2 : State := { s1 with
        invals := s1.invals.filter (fun x => decide (x.id ≠ id)),
        engines := s1.engines.map fun e : Engine => match e.kind with
          | .kvtrim fr (some i) => if i = id then { e with kind := .kvtrim fr none, floor := max e.floor s.gtc } else e
          | _ => e }
      let s3 := match v.by_ with
        | some (t, a) => s2.modTeam t fun tm => tm.modActor a fun g => Group_invalDone g id s.gtc
        | none => s2
      .next (s3.modWorld v.world fun w => { w with hostInvs := w.hostInvs.filter (fun x => decide (x ≠ id)), invT := w64 s.gtc })

end Sys2Proof.Machine
end

