-- ==== Sys2Proof/Machine/Context.lean ====
section
/-! DEFINITION. Pre-emption, the saved context and restore (R224 to R232), with the results and replies that a context
not resident receives (R62, R227 to R229). -/

namespace Sys2Proof.Machine

/-! ### The save area as virtual memory -/

/-- A piece of a virtual region within one page: offset in the region, physical address, bytes. -/
structure Chunk where
  off : Nat
  pa : Nat
  n : Nat
  deriving DecidableEq, Repr

/-- The pieces of a region in a world, when every page of it translates with the access asked for. -/
def State.chunks (s : State) (core world : Nat) (base n kind : Nat) : Option (List Chunk) :=
  (pageStarts (w64 base) n).foldl (fun acc va =>
    match acc, (s.globAcc core world va kind false).1 with
    | some l, .ok ⟨.glob pa, _⟩ =>
      some (l ++ [⟨va.toNat - base, pa, min (65536 - va.toNat % 65536) (base + n - va.toNat)⟩])
    | _, _ => none) (some [])

/-- Writes bytes at an offset of a region. -/
def State.putArea (s : State) (world : Nat) (cs : List Chunk) (off : Nat) (bs : List Byte) : State :=
  cs.foldl (fun s c =>
    let a := max off c.off
    let b := min (off + bs.length) (c.off + c.n)
    if a < b then s.putNow (some world) (c.pa + (a - c.off)) ((bs.drop (a - off)).take (b - a)) else s) s

/-- Bytes at an offset of a region. -/
def State.getArea (s : State) (world : Nat) (cs : List Chunk) (off n : Nat) : List Byte :=
  cs.flatMap fun c =>
    let a := max off c.off
    let b := min (off + n) (c.off + c.n)
    if a < b then s.phys (some world) (c.pa + (a - c.off)) (b - a) else []

def State.quietArea (s : State) (cs : List Chunk) : Bool := cs.all fun c => s.quiet c.pa c.n

def wordsLe (ws : List Word) : List Byte := ws.flatMap fun w => leBytes 4 w.toNat
def getLe (bs : List Byte) (off n : Nat) : Nat := leNat ((bs.drop off).take n)

/-! ### Sections (R226) -/

def State.mapOf (s : State) (t : Team) : SaveMap := saveMap (s.hdrOf t) (s.launchOf t).r.g (s.hasLead t)
def State.groupOff (s : State) (t : Team) (g : Nat) : Nat := (s.mapOf t).grp + g * up (grpSecBytes (s.hdrOf t)) 256
def regsOf (h : Header) : Nat := h.h + h.e + h.d

/-- The word a slot register holds (R18, R19): member in bit 0, arrived in bit 1 (log 12). -/
def slotWord (th : Thread) (b : Nat) : Word :=
  (if th.member.getLsbD b then 1 else 0) + if th.arrived.getLsbD b then 2 else 0

/-- Register j of a thread as the context holds it: undefined when it is abroad. -/
def State.savedReg (s : State) (t : Team) (h : Header) (g l j : Nat) : Word :=
  if h.h + h.e ≤ j then slotWord (t.thread g l) (j - (h.h + h.e))
  else if s.abroad t.id g l j then Config.freeWord (s.free + (g * 128 + j) * 32 + l)
  else (t.thread g l).getV j

/-- Visible bytes of a group's section, from 0x1000. -/
def State.groupBytes (s : State) (t : Team) (g : Nat) : List Byte :=
  let h := s.hdrOf t
  let x := t.groupAt g
  let lanes := List.range 32
  wordsLe (lanes.map fun n => x.getG n) ++
  (lanes.map fun l => (t.thread g l).p ||| 0x80) ++ List.replicate 96 0 ++
  (lanes.flatMap fun l => (List.range 8).flatMap fun n => leBytes 16 ((t.thread g l).getC n).val.toNat) ++
  (lanes.flatMap fun l => (List.range 8).map fun n => if ((t.thread g l).getC n).tag then (1 : Byte) else 0) ++
  wordsLe ((List.range (regsOf h)).flatMap fun j => lanes.map fun l => s.savedReg t h g l j)

/-- Bytes of an opaque section of a save. -/
def opaqueBytes (save sec n : Nat) : List Byte := (List.range n).map fun i => Config.ctxByte save sec i

/-- Places and sizes of the opaque sections: team state, then two for each group. -/
def State.opaques (s : State) (t : Team) : List (Nat × Nat) :=
  let h := s.hdrOf t
  ((s.mapOf t).team, 4096) :: (List.range (s.launchOf t).r.g).flatMap fun g =>
    [(s.groupOff t g, 4096), (s.groupOff t g + 0x2200 + 128 * regsOf h, h.streams * 64)]

/-- The check over opaque bytes and the area's address under the world's context key (R226). -/
def State.ctxCheckOf (s : State) (t : Team) (bs : List Byte) : BitVec 128 :=
  Config.ctxCheck (((s.world (s.worldOf t)).keys).getD 0) bs (s.slotAddr t)

/-- An accumulator tile (R226). -/
def tileBytes (x : Tile) (wm : Nat) : List Byte :=
  wordsLe ((List.range 512).map fun i => tabGet x.c i 0) ++ leBytes 4 wm ++ List.replicate 60 0

/-- An entry of the token table (R227); the lead thread is group 0xFF. -/
def tokBytes (e : TokEnt) : List Byte :=
  let grp := match e.who with
    | .grp n => n
    | .conj _ => 0xFE
    | .lead => 0xFF
  [if e.done then 3 else 1, BitVec.ofNat 8 grp, BitVec.ofNat 8 e.reg] ++ List.replicate 5 0 ++ leBytes 8 e.tok.toNat

/-! ### Ellipsis slots (R228) -/

/-- Lanes of a request in ascending home lane: the order of the payload. -/
def EscReq_order (r : EscReq) : List EscLane := sortBy (fun l : EscLane => l.lane) r.lanes
def laneMask (ls : List EscLane) : Word := maskOf (ls.map (·.lane))

def isDiv (e : EStat) : Bool :=
  match e with
  | .diverted => true
  | .divPark => true
  | _ => false
def isDivPark (e : EStat) : Bool :=
  match e with
  | .divPark => true
  | _ => false

/-- The lowest home group of a request. -/
def EscReq_grp (r : EscReq) : Nat := (keysOf (r.lanes.map (·.grp))).headD 0

/-- The 32 bytes of a slot's header. -/
def EscReq_head (r : EscReq) : List Byte :=
  let parked := r.lanes.filter fun l => isDivPark l.stat
  -- lanes that answered with a fault or an error, those landed before the stop among them
  let back := r.lanes.filter fun l => EStat_home l.stat
  let err := back.any fun l => l.flts.any fun f => f.cls = 0x0B
  let flt := back.any fun l => l.flts.any fun f => f.cls ≠ 0x0B
  let st := 1 + (if r.lanes.all fun l => EStat_home l.stat then 2 else 0) + (if flt then 4 else 0) + if err then 8 else 0
  [BitVec.ofNat 8 st, BitVec.ofNat 8 (EscReq_grp r), BitVec.ofNat 8 r.ebase, BitVec.ofNat 8 r.ecnt,
    if r.dcnt = 0 then 0xFF else BitVec.ofNat 8 r.dreg, BitVec.ofNat 8 r.dcnt] ++
  leBytes 2 (escCharge r.lanes.length r.ecnt) ++ leBytes 4 (laneMask r.lanes).toNat ++ leBytes 4 r.landed0.toNat ++
  leBytes 4 (laneMask (r.lanes.filter fun l => isDiv l.stat)).toNat ++ leBytes 4 (laneMask parked).toNat ++
  leBytes 4 (if parked = [] then 0 else r.tag.toNat) ++ List.replicate 4 0

/-- Writes a slot: the payload of every diverted lane, or of the one whose reply has come, then the header (R228, R231).
Destination words of a fault are undefined. -/
def State.putSlot (s : State) (t : Team) (cs : List Chunk) (r : EscReq) (only : Option Nat) : State :=
  let base := (s.mapOf t).slots + 3104 * r.slot
  let w := s.worldOf t
  let sz := (r.ecnt + r.dcnt) * 4
  let s1 := ((EscReq_order r).zipIdx).foldl (fun s x =>
    if isDiv x.1.stat && only.all (fun k => decide (laneKey (x.1.grp, x.1.lane) = k)) then
      let ds := if isDivPark x.1.stat then (List.range r.dcnt).map fun i => Config.freeWord (s.free + i)
        else x.1.dest.map fun d => d.getD 0
      let s' : State := { s with free := s.free + r.dcnt }
      s'.putArea w cs (base + 0x20 + x.2 * sz) (wordsLe (x.1.esc ++ ds))
    else s) s
  s1.putArea w cs base (EscReq_head r)

/-! ### Results of a context that is not resident (R227) -/

/-- The token-table entry of a copy. -/
def Team_tokenTable (t : Team) (id : Nat) (tok : Nat) : Team :=
  { t with toks := t.toks.map fun e => if e.eng = id then { e with done := true, tok := w64 tok } else e }

/-- A copy's token goes to its entry: in the context's memory once it is saved. -/
def State.tokenEntry (s : State) (team id tok : Nat) : State :=
  let s1 := s.modTeam team fun t => Team_tokenTable t id tok
  let t := s1.team team
  match t.place with
  | .stopped _ => s1
  | _ =>
    match s1.chunks t.core (s1.worldOf t) t.saveArea.toNat (s1.mapOf t).fin kWrite with
    | some cs =>
      ((t.toks.zipIdx).filter fun e => e.1.eng = id).foldl
        (fun s e => s.putArea (s.worldOf t) cs ((s.mapOf t).toks + 16 * e.2) (tokBytes e.1)) s1
    | none => s1

/-- Position at which an actor holds a thread. -/
def Team_posOf (t : Team) (a : Actor) (g l : Nat) : Nat :=
  match a with
  | .conj k => ((t.conj.find? fun c => c.id = k).getD {}).pos.findIdx fun p => p = some (g, l)
  | .grp _ => l
  | .lead => 0

/-- The last step of a scoreboarded result of a `g` or `t` register: it can be read from the next cycle on, and results of
one cycle land in the order of R34 and R59. -/
def Pend_pipe (p : Pend) (t : Team) (now : Nat) : List PipeW :=
  ((Pend_words p).zipIdx).map fun w =>
    { id := p.id, due := now + 1, ord := Team_order t p.who + Team_posOf t p.who p.grp p.lane, who := p.who, grp := p.grp,
      lane := p.lane, cls := p.cls, no := p.no + w.2, val := w.1, sb := true, xl := p.xlane, tok := p.tok }

/-- `ACP_COMPLETION` (R199, R224): a copy past its checks goes on while its context is saved, whose scratchpad is then the
section of the save area: DESIGN CHOICE (log 37). -/
def execAcpCompletion (id : Nat) (s : State) : Out :=
  match s.engine? id with
  | none => .next s
  | some e =>
    match e.kind with
    | .acp secs =>
      let t := s.team e.team
      let w := s.worldOf t
      if EngKind_scr e.kind && (t.place = .saved || t.place = .restoring) then
        match s.chunks t.core w t.saveArea.toNat (s.mapOf t).fin kWrite with
        | none => .next s
        | some cs =>
          let size := (s.hdrOf t).scratch
          let s1 := (s.modTeam e.team fun t => { t with scratch := memWrite [] 0 (s.getArea w cs (s.mapOf t).scr size) }).runAcp e secs
          if (s1.engine? id).isSome || !s.quietArea cs then .next s
          else .next (s1.putArea w cs (s.mapOf t).scr (memBytes (s1.team e.team).scratch 0 size))
      else .next (s.runAcp e secs)
    | _ => .next s

/-- `SCOREBOARD_WRITEBACK` (R34, R59, R62). -/
def execScoreboardWriteback (id : Nat) (s : State) : Out :=
  match s.pends.find? fun p => p.id = id with
  | none => .next s
  | some p =>
    if !s.pendReady p then .next s
    else
      let out : State := { s with pends := s.pends.filter fun q => decide (q.id ≠ id) }
      match s.team? p.team with
      | none => .next out
      | some t =>
        if p.acp && t.place ≠ .resident then .next (out.tokenEntry p.team id (p.tok.getD s.gtc))
        else if p.cls = 1 || p.cls = 2 then
          .next (out.modTeam p.team fun t => { t with pipe := t.pipe ++ Pend_pipe p t (s.cycle t.core) })
        else
          let s1 := out.modTeam p.team fun t => Team_writePend t (s.pendTag p)
          let s2 := if p.xlane then s1.settle id p.team p.who p.grp t.launch s.gtc false else s1
          if p.abroad then .next ((s2.landRegs p.team p.grp ((List.range p.cnt).map (· + p.no))).finishExit p.team p.grp p.lane)
          else .next s2

/-! ### Replies (R181, R187, R188, R229) -/

/-- The reply of a lane is ready to be received. -/
def EscLane_ready (l : EscLane) : Bool :=
  match l.stat with
  | .replied => true
  | .faulted => true
  | .out => l.hold ≠ .port && l.dest ≠ [] && l.dest.all Option.isSome
  | _ => false

/-- A reply to the core that holds the team. -/
def State.replyHere (s : State) (r : EscReq) (l : EscLane) : State :=
  match l.stat with
  | .faulted => s.landFault r l
  | _ => s.landLane r l true

/-- A reply to the slot of a context; its fault is recorded with DIV (R229). -/
def State.divert (s : State) (r : EscReq) (l : EscLane) : State :=
  let key := laneKey (l.grp, l.lane)
  if ((s.team r.team).thread l.grp l.lane).gone then s.setEscStat r.id key .landed
  else
    match l.stat with
    | .faulted => (s.reqTag r).2.modEscLane r.id key fun x => { x with stat := .divPark, esc := x.orig, due := true, div := true }
    | _ => s.setEscStat r.id key .diverted

/-- The reply of a lane goes to the slot of its context at this GTC: a restore of the context comes at a later one, since what
the router receives at the bind time goes to the core (R229, R236). -/
def State.divertAt (s : State) (r : EscReq) (l : EscLane) : State :=
  (s.divert r l).modTeam r.team fun t => { t with divT := s.gtc + 1 }

/-- `REPLY` (R229). -/
def execReply (req lane : Nat) (s : State) : Out :=
  match s.escLane? req lane with
  | none => .next s
  | some (r, l) =>
    if !EscLane_ready l then .next s
    else
      match s.team? r.team with
      | none => .next ((s.setEscStat req lane .landed).escDone req)
      | some t =>
        match t.place with
        | .resident => .next (s.replyHere r l)
        | .admitting => .next s
        | .stopped _ => .next ((s.divertAt r l).escDone req)
        | _ =>
          match s.chunks t.core (s.worldOf t) t.saveArea.toNat (s.mapOf t).fin kWrite with
          | none => .next s
          | some cs =>
            let s1 := s.divertAt r l
            .next (((s1.esc? req).elim s1 fun r' => s1.putSlot t cs r' (some lane)).escDone req)

/-! ### Pre-emption (R224, R225) -/

/-- `PREEMPTION_REQUEST` (R224). -/
def execPreemptionRequest (team : Nat) (s : State) : Out :=
  match s.team? team with
  | some t =>
    match t.place with
    | .resident | .admitting => .next (s.modTeam team fun t => { t with preempt := true })
    | _ => .next s
  | none => .next s

/-- What the stop abandons: a gather or scatter in its probe pass, and an `SRPRB` (R206, R224). -/
def probeAbandoned (p : Probe) : Bool :=
  match p.held with
  | some _ => (match p.instr with
    | .srprb .. => true
    | _ => false)
  | none => !p.passed

/-- An instruction in its probe pass is abandoned: its threads stand at it again, but for those that are parked, which stand
as they do (R206, R224). -/
def State.abandonProbe (s : State) (p : Probe) : State :=
  let s1 : State := { s with
    probes := s.probes.filter (fun x => decide (x.id ≠ p.id)), pends := s.pends.filter fun q => !p.pends.contains q.id }
  let s2 := s1.settle p.id p.team p.who 0 p.launch s.gtc false
  let s3 := match p.req.bind s2.esc? with
    | some r => r.lanes.foldl (fun (s : State) l => s.landLane r l false) s2
    | none => s2
  s3.modTeam p.team fun t => p.lanes.foldl (fun (t : Team) (x : PLane) => t.modThread x.grp x.lane fun th =>
    match th.st with
    | .exited | .parked _ | .trapWait _ => th
    | _ => { th with st := .run, pc := p.pc }) t

/-- What the stop does to the threads' surroundings: stream buffers and pins go (R224). -/
def Group_stop (g : Group) : Group :=
  { g with streams := g.streams.map fun x => (x.1, { x.2 with buf := [], pins := [] }), ages := [], fresh := false }

/-- Copies outstanding take the lowest entries of the token table (R227). -/
def State.acpEntries (s : State) (team : Nat) : List TokEnt :=
  (s.pends.filter fun p => p.team = team && p.acp).map fun p =>
    { eng := p.id, who := p.who, reg := p.no, done := false, tok := 0 }

/-- Counts that stop with the team: what remains of expiries (R21, R261). -/
def Group_saved (g : Group) (now : Nat) : Group :=
  { g with
    expiry := g.expiry.map fun e => (e.1, e.2 - now),
    threads := g.threads.map fun th => { th with ready := 0 }, yieldAt := 0, notBefore := 0 }

def Group_rebased (g : Group) (now : Nat) : Group := { g with expiry := g.expiry.map fun e => (e.1, e.2 + now) }

/-- A gather whose destinations are abroad with no escort, as a request: save does not wait for it, and it takes a slot
(R224, R228). -/
def gatherReq (t : Team) (id slot gtc : Nat) (world : Nat) (line : Pend → Nat) (ps : List Pend) (p : Pend) : EscReq :=
  let out (h : Nat × Nat) : Option Pend := ps.find? fun q => q.grp = h.1 && q.lane = h.2
  { id := id, slot := slot, team := t.id, who := p.who, core := t.core, world := world, launch := t.launch, ebase := 0,
    ecnt := 0, dreg := p.no, dcnt := p.cnt, charge := 0, on := none, depart := gtc, pc := 0, len := 0, word := 0,
    lanes := p.peers.map fun h =>
      { grp := h.1, lane := h.2, orig := [], esc := [], dest := ((out h).map (·.vals)).getD [],
        stat := if (out h).isSome then .out else .landed, hold := .slice 0, line := ((out h).map line).getD 0 } }

/-- The physical line that a lane of a gather asks for (R223): of an element that is still out, or of its first index. -/
def State.gatherLine (s : State) (q : Pend) : Nat :=
  let elems := (s.flights.filter fun f => (opTgts f.op).any fun t => match t with
    | .pend i _ => decide (i = q.id)
    | _ => false).map (·.space)
  let idx := (s.probes.filter fun p => p.pends.contains q.id).flatMap fun p =>
    (s.indexAccs { p with lanes := p.lanes.filter fun x => x.grp = q.grp && x.lane = q.lane }).map (·.space)
  (globLines (elems ++ idx)).headD 0

/-- The parts of a gather's result go where its request awaits them. -/
def retarget (ps : List Pend) (req : Nat) (f : Flight) : Flight :=
  match f.op with
  | .load (.pend i j) n sx =>
    match ps.find? fun q => q.id = i with
    | some q => { f with op := .load (.esc req (laneKey (q.grp, q.lane)) j) n sx }
    | none => f
  | _ => f

/-- Every such gather of a team takes the lowest free slot, as far as there are slots; so does one past its pass (R224). -/
def State.slotGathers (s : State) (t : Team) : State :=
  (keysOf ((s.pends.filter fun p => p.abroad && p.team = t.id).map (·.issue))).foldl (fun s k =>
    let ps := s.pends.filter fun p => p.abroad && p.team = t.id && p.issue = k
    let n := s.freeSlot t.id
    match ps with
    | [] => s
    | p :: _ =>
      if n < escSlots (s.hdrOf t) then
        let (id, s1) := s.fresh
        { s1 with
          pends := s1.pends.filter (fun q => !(q.abroad && q.team = t.id && q.issue = k)),
          flights := s1.flights.map (retarget ps id),
          probes := mapIf s1.probes (fun q => q.pends.any fun i => ps.any fun p => p.id = i) fun q => { q with req := some id, pends := [] },
          escs := s1.escs ++ [gatherReq t id n s.gtc (s.worldOf t) s.gatherLine ps p] }
      else s) s

/-- `STOP_TIME` (R225). -/
def execStopTime (team : Nat) (s : State) : Out :=
  match s.team? team with
  | none => .next s
  | some t =>
    if t.place = .resident && t.preempt && s.issueQ.all fun e => e.1.team ≠ team then
      -- the earliest of a thread's comes last: there it stands
      let s0 := ((s.probes.filter fun p => p.team = team && probeAbandoned p).reverse).foldl (fun s p => s.abandonProbe p) s
      let s1 := s0.slotGathers t
      let now := s.cycle t.core
      let stop (g : Group) : Group := Group_stop (Group_saved g now)
      let mine := s1.escs.filter fun r => r.team = team && r.on.isSome
      let s2 : State := { s1 with escs := mapIf s1.escs (fun r => r.team = team) fun r =>
        { r with on := none, landed0 := laneMask (r.lanes.filter fun l => EStat_done l.stat) } }
      let s3 := s2.modCore t.core fun c => { c with used := c.used - sumOf (mine.map (·.charge)) }
      .next (s3.modTeam team fun t =>
        { t with
          place := .stopped s.gtc, toks := s.acpEntries team,
          groups := t.groups.map stop, conj := t.conj.map stop, lead := t.lead.map stop,
          cands := t.cands.map fun c => { c with expiry := c.expiry - now } })
    else .next s

/-- Everything that save waits for is done (R224): results not abroad, instructions that issued and are to act, engines but
copies, fences, accesses that no escort carries; and a gather past its pass has begun its loads. -/
def State.saveWaits (s : State) (t : Team) : Bool :=
  let escOnly (f : Flight) : Bool := opTgts f.op ≠ [] && (opTgts f.op).all fun x => match x with
    | .esc .. => true
    | _ => false
  t.pipe = [] && (s.pends.all fun p => p.team ≠ t.id || p.acp) && (s.flights.all fun f => f.team ≠ t.id || escOnly f) &&
    (s.walks.all fun w => w.team ≠ t.id || w.esc.isSome) && (s.probes.all fun p => decide (p.team ≠ t.id)) && (s.fences.all fun f => f.team ≠ t.id) &&
    (s.engines.all fun e => e.team ≠ t.id || (match e.kind with | .acp _ => true | _ => false)) &&
    (s.egress.all fun r => r.team ≠ t.id || r.esc.isSome)

/-- Visible sections of a context: offsets and bytes (R226). -/
def State.saveSections (s : State) (t : Team) (save : Nat) : List (Nat × List Byte) :=
  let m := s.mapOf t
  let h := s.hdrOf t
  let l := s.launchOf t
  let ops := (s.opaques t).zipIdx.map fun x => (x.1.1, opaqueBytes save x.2 x.1.2)
  let chk := s.ctxCheckOf t (ops.flatMap (·.2))
  let now := s.cycle t.core
  let head := leBytes 8 0x5A435458 ++ leBytes 8 (Launch_lid l) ++ leBytes 8 t.num ++ leBytes 8 l.r.hdr.toNat ++ leBytes 8 s.gtc ++
    leBytes 8 (escSlots h) ++ leBytes 16 chk.toNat ++ List.replicate 192 0
  [(0, head), (m.tregs, wordsLe ((List.range 16).map t.getT))] ++ ops ++
  (match t.lead with
   | some g => [(m.lead, wordsLe ((List.range 64).map fun n => (g.threads.getD 0 noThread).getV n))]
   | none => []) ++
  ((List.range h.acc).map fun i => (m.acc + i * 2112, tileBytes (t.tile i) (Tile_wmAt (t.tile i) (now + 1)))) ++
  [(m.scr, memBytes t.scratch 0 (up h.scratch 256)),
   (m.toks, (t.toks.flatMap tokBytes) ++ List.replicate (1024 - 16 * t.toks.length) 0)] ++
  (t.allGroups.map fun g => (s.groupOff t g + 0x1000, s.groupBytes t g))

/-- Dirty stack sectors of a team. -/
def State.dirtyStack (s : State) (t : Team) : List StackSec := (s.core t.core).stack.filter fun x => x.team = t.id && x.dirty

/-- `SAVE_DONE` (R225, R226): every section is written and complete, the stack lines are back, the core is released. -/
def execSaveDone (team : Nat) (s : State) : Out :=
  match s.team? team with
  | none => .next s
  | some t =>
    match t.place with
    | .stopped _ =>
      let w := s.worldOf t
      match s.chunks t.core w (s.slotAddr t) (s.mapOf t).fin kWrite with
      | none => .next s
      | some cs =>
        if s.saveWaits t && s.quietArea cs && s.flushed team && (s.dirtyStack t).all fun x => s.quiet (32 * x.sec) 32 then
          let s1 := (s.dirtyStack t).foldl (fun s x => s.putNow (some w) (32 * x.sec) x.bytes) s
          let (save, s2) := s1.fresh
          let s3 := (s.saveSections t save).foldl (fun s x => s.putArea w cs x.1 x.2) s2
          let s4 : State := { s3 with free := s3.free + 2 ^ 17 }
          let s5 := (s.escs.filter fun r => r.team = team).foldl (fun s r => s.putSlot t cs r none) s4
          let s6 := s5.modCore t.core fun c =>
            { c with stack := c.stack.filter (fun x => x.team ≠ team), rel := t.banks.foldl insertNat c.rel }
          .next (s6.modTeam team fun t =>
            { t with
              place := .saved, banks := [], saveArea := w64 (s.slotAddr t), savedAt := s.gtc, preempt := false })
        else .next s
    | _ => .next s

/-! ### Restore (R230 to R232) -/

/-- A slot's header breaks R228 when it does not say of its request what R228 has it say (R231, R232). -/
def slotBad (r : EscReq) (bs : List Byte) : Bool := bs.take 32 ≠ EscReq_head r

/-- A group's visible registers, from the bytes at 0x1000 (R226). -/
def Group_load (g : Group) (h : Header) (bs : List Byte) : Group :=
  { g with
    g := (List.range 32).foldl (fun t n => tabSet t n (w32 (getLe bs (4 * n) 4)) 0) [],
    threads := (g.threads.zipIdx).map fun x =>
      let l := x.2
      let slot (b : Nat) : Nat := getLe bs (0x1200 + 128 * (h.h + h.e + b) + 4 * l) 4
      { x.1 with
        p := BitVec.ofNat 8 (getLe bs (128 + l) 1) ||| 0x80,
        c := (List.range 8).foldl (fun t n => tabSet t n
          { val := BitVec.ofNat 128 (getLe bs (256 + (8 * l + n) * 16) 16), tag := getLe bs (4352 + 8 * l + n) 1 % 2 = 1 } {}) [],
        v := (List.range (h.h + h.e)).foldl (fun t j => tabSet t j (w32 (getLe bs (0x1200 + 128 * j + 4 * l) 4)) 0) [],
        member := (List.range h.d).foldl (fun m b => setBit m b (slot b % 2 = 1)) 0,
        arrived := (List.range h.d).foldl (fun m b => setBit m b (slot b / 2 % 2 = 1)) 0 } }

/-- Loads the visible sections (R230 step 2). -/
def State.loadSections (s : State) (t : Team) (cs : List Chunk) : Team :=
  let m := s.mapOf t
  let h := s.hdrOf t
  let rd (off n : Nat) : List Byte := s.getArea (s.worldOf t) cs off n
  let tr := rd m.tregs 64
  let ld := rd m.lead 256
  { t with
    t := (List.range 16).foldl (fun x n => tabSet x n (w32 (getLe tr (4 * n) 4)) 0) [],
    lead := t.lead.map fun g => { g with threads := g.threads.map fun th =>
      { th with v := (List.range 64).foldl (fun x n => tabSet x n (w32 (getLe ld (4 * n) 4)) 0) [] } },
    tiles := (List.range h.acc).foldl (fun x i =>
      let bs := rd (m.acc + i * 2112) 2112
      let wm := getLe bs 2048 4
      tabSet x i { c := (List.range 512).foldl (fun c k => tabSet c k (w32 (getLe bs (4 * k) 4)) 0) [], wm := wm, wmNew := wm } {}) [],
    scratch := memWrite [] 0 (rd m.scr h.scratch),
    groups := (t.groups.zipIdx).map fun x =>
      Group_load x.1 h (rd (s.groupOff t x.2 + 0x1000) (0x1200 + 128 * regsOf h)) }

/-- Marks whose time is reached read as now (R125, R230 step 6). -/
def Group_marksNow (g : Group) (gtc : Nat) : Group :=
  (g.marks.filter fun m => decide (m.2.toNat ≤ gtc)).foldl (fun g m => (g.setG m.1 (w32 gtc)).setTok m.1 gtc) g

/-- A thread in WAITF tests its register again after restore: a marked token that is reached reads as now (R125, R224). -/
def Team_waitsNow (t : Team) (gtc : Nat) : Team :=
  let ms (g : Nat) : List Nat := ((t.groupAt g).marks ++ (t.conj.filter fun c => c.pos.any fun p => p.any fun x => decide (x.1 = g)).flatMap
    (·.marks)).filterMap fun m => if m.2.toNat ≤ gtc then some m.2.toNat else none
  { t with groups := (t.groups.zipIdx).map fun g => { g.1 with threads := g.1.threads.map fun th => match th.st with
      | .tok w => if (ms g.2).any fun m => w32 m = w then { th with st := .tok (w32 gtc) } else th
      | _ => th } }

/-- An entry of the token table as memory holds it: valid and done, the issuer, the register and the token (R226). The
group byte cannot name a conjugate group: then it is the one that issued. -/
def State.tokEntry (s : State) (t : Team) (cs : List Chunk) (e : TokEnt × Nat) : Nat × Actor × Nat × Nat :=
  let bs := s.getArea (s.worldOf t) cs ((s.mapOf t).toks + 16 * e.2) 16
  let g := getLe bs 1 1
  (getLe bs 0 1 % 4, if g = 0xFF then .lead else if g = 0xFE then e.1.who else .grp g, getLe bs 2 1, getLe bs 8 8)

/-- Done entries of the token table go to their registers (R227, R230 step 6). -/
def State.tokensBack (s : State) (t : Team) (cs : List Chunk) (x : Team) : Team :=
  (t.toks.zipIdx).foldl (fun x e =>
    match s.tokEntry t cs e with
    | (3, a, reg, tok) =>
      let now := if tok ≤ s.gtc then s.gtc else tok
      match a with
      | .lead => x.modThread leadGrp 0 fun th => th.setV reg (w32 now)
      | a => x.modActor a fun g => (g.setG reg (w32 now)).setTok reg now
    | _ => x) x

/-- An entry not yet done stays outstanding, for the register it names (R227). -/
def State.tokensOut (s : State) (t : Team) (cs : List Chunk) : State :=
  (t.toks.zipIdx).foldl (fun s' e =>
    match s.tokEntry t cs e with
    | (1, a, reg, _) => { s' with pends := mapIf s'.pends (fun p => p.id = e.1.eng) fun p => { p with who := a, no := reg } }
    | _ => s') s

/-- Places the conjugate groups of a restored team (R230 step 2, R258). -/
def State.placeConj (s : State) (team : Nat) : State :=
  ((s.team team).conj.map (·.id)).foldl (fun s id =>
    let t := s.team team
    let low := ((Team_homes t (.conj id)).head?).getD 0
    let sub := (t.groupAt low).sub
    let act := decide ((s.members t.core sub true).length < 8)
    s.modTeam team fun t => t.modActor (.conj id) fun g =>
      { g with sub := sub, active := act, since := none, pendSince := s.cycle t.core, lastIssue := 0 }) s

/-- One valid slot is read, as memory holds it (R230 step 4): lanes in DIVERTED land, and of these those in PARK are parked;
all of them are, before the faults are recorded or enter the handler. -/
def State.readSlot (s : State) (t : Team) (cs : List Chunk) (r : EscReq) : State :=
  let bs := s.getArea (s.worldOf t) cs ((s.mapOf t).slots + 3104 * r.slot) 3104
  let sz := (r.ecnt + r.dcnt) * 4
  let has (off : Nat) (l : EscLane) : Bool := (getLe bs off 4).testBit l.lane
  if getLe bs 0 1 % 2 = 0 then s
  else
    let xs := (((EscReq_order r).zipIdx).filter fun x => has 0x10 x.1).map fun (x : EscLane × Nat) =>
      let wd (k : Nat) : Word := w32 (getLe bs (0x20 + x.2 * sz + 4 * k) 4)
      { x.1 with esc := (List.range r.ecnt).map wd, dest := (List.range r.dcnt).map fun k => some (wd (r.ecnt + k)) }
    let s1 := s.modTeam t.id fun tm => xs.foldl (fun (tm : Team) (l : EscLane) =>
      if has 0x14 l && !(tm.thread l.grp l.lane).gone then
        Team_park tm [(l.grp, l.lane)] (.parked (w32 (getLe bs 0x18 4))) r.pc
      else tm) tm
    let s2 := xs.foldl (fun (s : State) (l : EscLane) => s.landOne r l (!has 0x14 l)) s1
    xs.foldl (fun (s : State) (l : EscLane) => s.finishExit r.team l.grp l.lane) (s2.escDone r.id)

/-- A refused restore (R232): nothing is loaded, CTX and INTEG are set, the launch is aborted. -/
def State.refuseRestore (s : State) (t : Team) : State :=
  ((s.sticky t.launch eCtx none).sticky t.launch eInteg none).abortLaunch t.launch

/-- `RESTORE` (R230 to R232): the check, the sections, the bind, the slots, the charges, the tokens, the resumes. Candidates of
the Conjugator keep the submission cycles of the core that they came from, which order them against later ones: DESIGN CHOICE
(log 39). -/
def execRestore (team core : Nat) (s : State) : Out :=
  match s.team? team with
  | none => .next s
  | some t =>
    if t.place ≠ .restoring || t.core ≠ core || !s.admitNow core t || decide (s.gtc < t.divT) then .next s
    else
      let w := s.worldOf t
      match s.chunks core w t.saveArea.toNat (s.mapOf t).fin kRead with
      | none => .next s
      | some cs =>
        if cs.any fun c => (s.homes.any fun h => decide (h.w > s.gtc) && decide (h.pa < c.pa + c.n) && decide (c.pa < h.pa + h.n))
        then .next s
        else
          let s0 := s.applyDue
          let ops := (s0.opaques t).flatMap fun x => s0.getArea w cs x.1 x.2
          let head := s0.getArea w cs 0 256
          let reqs := s0.escs.filter fun r => r.team = team
          let bad := decide (getLe head 0 4 ≠ 0x5A435458) || decide (getLe head 0x30 16 ≠ (s0.ctxCheckOf t ops).toNat) ||
            reqs.any fun r => slotBad r (s0.getArea w cs ((s0.mapOf t).slots + 3104 * r.slot) 32)
          if bad then .next (s0.refuseRestore t)
          else
            let now := s.cycle core
            let s1 := s0.modTeam team fun t =>
              let t1 := s0.loadSections t cs
              { t1 with
                conj := t1.conj.map (fun g => Group_rebased g now), groups := t1.groups.map (fun g => Group_rebased g now),
                cands := t1.cands.map fun c => { c with expiry := c.expiry + now } }
            let s2 := ((s1.tokensOut t cs).seat team).placeConj team
            let s3 := reqs.foldl (fun s r => s.readSlot t cs r) s2
            let left := s3.escs.filter fun r => r.team = team
            let s4 : State := { s3 with escs := mapIf s3.escs (fun r => r.team = team) fun r => { r with on := some core } }
            let s5 := s4.modCore core fun c => { c with used := c.used + sumOf (left.map (·.charge)) }
            let s6 := s5.modTeam team fun x =>
              let x0 := Team_waitsNow x s.gtc
              let x1 := { x0 with groups := x0.groups.map (fun g => Group_marksNow g s.gtc), conj := x0.conj.map fun g => Group_marksNow g s.gtc }
              { s0.tokensBack t cs x1 with toks := [], resumes := [], preempt := false }
            .next (t.resumes.foldl (fun s r => s.resumeTag r.tag r.act) s6)

end Sys2Proof.Machine
end

