-- ==== Sys2Proof/Machine/Device.lean ====
section
/-! DEFINITION. What the device's own agents share: generations and sessions (R318), TDI states and keys (R308), and
accesses that no core makes (R103, R240, R242, R309, R324). -/

namespace Sys2Proof.Machine

/-! ### Generations (R318, R331) -/

/-- A session that a generation newer than its own ends; one whose handshake is under way is not yet judged (R331). -/
def Session_old (m : Nat) (x : Session) : Bool := x.finished && !x.ended && decide (x.mgen < m)

/-- MGEN rises by one; the session whose accepted request caused it records the new value, every other open one ends
and vector 3 tells its worlds (R318). -/
def State.raiseMgen (s : State) (by_ : Option Nat) : State :=
  let m := s.mgen + 1
  let ss := mapIf s.sessions (fun x => some x.id = by_) fun x => { x with mgen := m }
  let told := keysOf ((ss.filter (Session_old m)).flatMap (·.worlds))
  let s1 : State := { s with mgen := m, sessions := mapIf ss (Session_old m) fun x => { x with ended := true } }
  told.foldl (fun s w => s.signal w 3) s1

/-! ### TDI states (R308) -/

/-- The registers of R308's last sentence are locked. -/
def State.lockedWorld (s : State) (w : Nat) : Bool :=
  match (s.world w).tdi with
  | .locked => true
  | .run => true
  | _ => false

/-- Keys are erased and sealing ends. -/
def World_dropKeys (x : World) : World := { x with keys := none, sealing := false }

/-- A launch has nothing left to do but to be completed (R242). -/
def Launch_over (l : Launch) : Bool :=
  l.refused || l.aborted || (decide (l.placed = l.r.teams) && decide (l.ended = l.r.teams))

/-- Every launch of a world is aborted. -/
def State.abortWorld (s : State) (w : Nat) : State :=
  ((s.launches.filter fun l => l.world = w && !Launch_over l).map (·.id)).foldl (fun s id => s.abortLaunch id) s

/-- The TDI goes to ERROR (R308). -/
def State.tdiError (s : State) (w : Nat) : State :=
  ((s.abortWorld w).modWorld w fun x => { World_dropKeys x with tdi := .error }).raiseMgen none

/-! ### Accesses of the device and the host -/

/-- A walk from the root, which no TLB serves. -/
def State.rootWalk (s : State) (world va : Nat) : Except Nat TlbEnt :=
  let root := (s.world world).root
  if nodeOk root then
    match walkFrom s world va root 3 [] with
    | .error c => .error c
    | .ok (e, _) => .ok e
  else .error 6

/-- A global access of a world that no core makes: the class of its first failure (R111), or the physical address.
The apertures of R98 belong to no global address. -/
def State.devAcc (s : State) (world : Nat) (va : Dword) (kind : Nat) : Except Nat Nat :=
  if aperOf va ≠ .glob then .error 8
  else if !canonical va then .error 7
  else
    match s.rootWalk world (va.toNat % 2 ^ 56) with
    | .error c => .error c
    | .ok e =>
      if e.fmt ≠ 0 then .error 4
      else if !permOk e kind then .error 2
      else .ok (TlbEnt_pa e (va.toNat % 2 ^ 56))

/-- A record that no instruction raised (R335), with a tag of its own. -/
def State.devRecord (s : State) (queue : Nat) (r : FRec) : Word × State :=
  let (id, s1) := s.fresh
  (w32 id, s1.pushRec queue { r with tag := w32 id, gtc := s.gtc })

/-- A fault stops a queue (R240, R242): STATUS 1, EN 0, and a record for the physical function. -/
def State.ringFault (s : State) (q cls kind : Nat) (va : Dword) (lid : Nat) : State :=
  let s1 := (s.devRecord 0 { cls := cls, kind := kind, addr := va, world := (s.queue q).owner, launch := lid }).2
  s1.modQueue q fun x => { x with status := 1, en := false }

end Sys2Proof.Machine
end

