-- ==== Sys2Proof/Machine/Launches.lean ====
section
/-! DEFINITION. Launch queues, records, waits and completion (R237 to R246), placement and sharing among functions
(R247 to R252), and the host's pushes of frames (R288). -/

namespace Sys2Proof.Machine

/-! ### Queue registers (R237, R238) -/

/-- LQCTL as it reads. -/
def Queue_ctl (x : Queue) : Dword :=
  w64 (x.slots * 2 ^ 48 + x.stk * 2 ^ 36 + x.owner * 2 ^ 29 + x.size * 2 ^ 25 + (if x.priv then 2 ^ 24 else 0) +
    (if x.devq then 2 ^ 16 else 0) + x.status * 2 ^ 8 + if x.en then 1 else 0)

/-- The fields other than EN, as a write of LQCTL would leave them. -/
def Queue_fields (x : Queue) (v : Dword) : Queue :=
  { x with
    slots := field v 48 16, stk := field v 36 12, owner := field v 29 7, size := field v 25 4, priv := v.getLsbD 24,
    devq := v.getLsbD 16 }

/-- Configured queues of a function other than `q` (R237). -/
def State.ownedQueues (s : State) (fn q : Nat) : Nat :=
  (s.queues.filter fun x => decide (x.1 ≠ q) && decide (x.2.slots ≠ 0) && decide (x.2.owner = fn)).length

/-- A write that would leave LQCTL as it is (R237). -/
def State.badQueue (s : State) (q : Nat) (x : Queue) : Bool :=
  x.slots = 0 || decide (x.size < 4) || (x.priv && decide (x.owner ≠ 0)) || decide (x.owner > 64) ||
    decide (s.ownedQueues x.owner q ≥ 16)

/-- Setting EN clears the counts and STATUS; clearing it keeps them. -/
def Queue_enable (x : Queue) (en : Bool) : Queue :=
  if en && !x.en then { x with en := true, head := 0, tail := 0, status := 0, avail := 0, stores := [] } else { x with en := en }

/-- The world of a queue may run its launches: no handover of R322 holds it back. -/
def State.mayEnable (s : State) (w : Nat) : Bool :=
  match (s.world w).mig with
  | .idle => !(s.world w).migGo
  | .run => true
  | _ => false

/-- A write of LQCTL by a function: all fields by the physical function while EN = 0, else EN alone (R237); other values
for the fields of a locked world's queue move its TDI to ERROR, whatever EN is (R308; log 26). -/
def State.lqctl (s : State) (fn q : Nat) (v : Dword) : State :=
  let x := s.queue q
  let en := v.getLsbD 0
  let enable (s : State) (y : Queue) : State := s.modQueue q fun _ => Queue_enable y (en && s.mayEnable y.owner)
  let y := Queue_fields x v
  if q ≥ 1024 then s
  else if fn = 0 && y ≠ x && decide (x.slots ≠ 0) && s.lockedWorld x.owner then s.tdiError x.owner
  else if fn = 0 && !x.en then if s.badQueue q y then s else enable s y
  else if x.slots ≠ 0 && (fn = 0 || x.owner = fn) then enable s x
  else s

/-- `LQCTL_WRITE` (R237): what reaches one queue at one GTC is served in the order of source numbers (R129, R261). -/
def execLqctlWrite (fn q : Nat) (val : Dword) (s : State) : Out :=
  if s.queueTurn q (512 + fn) then .next ((s.queueServe q (512 + fn)).lqctl fn q val) else .next s

/-- A write of LQNOTIFY (R238, R305). -/
def State.notify (s : State) (fn q : Nat) (v : Word) : State :=
  let x := s.queue q
  if s.rdy && decide (q < 1024) && decide (x.slots ≠ 0) && decide (x.owner = fn) && x.en && !x.devq &&
      decide ((v - x.head).toNat ≤ 2 ^ x.size) && decide ((v - x.tail).toNat < 2 ^ 31) then
    s.modQueue q fun x => { x with tail := v, avail := if v = x.tail then x.avail else max x.avail s.gtc }
  else s

/-- `LQNOTIFY` (R238, R261). -/
def execLqnotify (fn q : Nat) (val : Word) (s : State) : Out :=
  if s.queueTurn q (512 + fn) then .next ((s.queueServe q (512 + fn)).notify fn q val) else .next s

/-! ### Records and headers (R72, R73, R239) -/

/-- A launch record; none when a field lies outside its range (R239, R241). -/
def parseRec (bs : List Byte) : Option LaunchRec :=
  let conf := getLe bs 12 4
  let bits (lo n : Nat) : Nat := conf / 2 ^ lo % 2 ^ n
  let waits := (List.range (bits 16 2)).map fun i => (getLe bs (0x16 + 8 * i) 2, w64 (getLe bs (0x10 + 8 * i) 6))
  let ranges := (List.range (bits 13 3)).map fun i =>
    let r := getLe bs (0x20 + 8 * i) 8
    let a := r % 2 ^ 40 * 65536
    ((if a ≥ 2 ^ 55 then a + (2 ^ 64 - 2 ^ 56) else a), r / 2 ^ 40 + 1)
  let r : LaunchRec := {
    hdr := w64 (getLe bs 0 8), teams := getLe bs 8 4 + 1, g := bits 0 6, c := bits 6 4, lead := bits 10 1 = 1,
    prio := bits 11 2, waits := waits, ranges := ranges, sig := if bits 18 1 = 1 then some (bits 19 12) else none,
    args := (List.range 16).map fun i => w32 (getLe bs (0x40 + 4 * i) 4) }
  let ok := bits 31 1 = 0 && decide (bits 16 2 ≤ 2) && decide (bits 13 3 ≤ 4) && decide (1 ≤ r.c) && decide (r.c ≤ 8) &&
    decide (1 ≤ r.g) && decide (r.g ≤ 32) && r.hdr.toNat % 64 = 0 && r.teams % r.c = 0 && waits.all fun w => decide (w.1 < 4096)
  if ok then some r else none

/-- A kernel header; none when it fails R73 for teams of `g` groups. -/
def parseHdr (bs : List Byte) (g : Nat) : Option Header :=
  let b (i : Nat) : Nat := getLe bs i 1
  let h : Header := {
    check := b 6 = 1, h := b 8, e := b 9, gcount := b 10, tregs := b 11, d := b 12, streams := b 13, acc := b 14,
    scratch := getLe bs 0x10 4, esccap := getLe bs 0x14 4, leadoff := getLe bs 0x18 4, groupoff := getLe bs 0x1C 4,
    codebytes := getLe bs 0x20 4 }
  let inCode (o : Nat) : Bool := o % 4 = 0 && decide (64 ≤ o) && decide (o < 64 + h.codebytes)
  let ok := getLe bs 0 4 = 0x5A56485A && getLe bs 4 2 = 1 && decide (getLe bs 6 2 ≤ 1) && decide (h.tregs ≤ 16) &&
    decide (16 ≤ h.gcount) && decide (h.gcount ≤ 32) && decide (h.e ≤ 127) && decide (1 ≤ h.h) && decide (h.h ≤ 128) &&
    b 15 = 0 && decide (h.acc ≤ 64) && decide (h.streams ≤ 16) && decide (h.d ≤ 16) && decide (h.scratch ≤ 491520) &&
    (h.leadoff = 0 || inCode h.leadoff) && inCode h.groupoff && decide (h.codebytes ≠ 0) && h.codebytes % 4 = 0 &&
    ((bs.drop 0x24).take 28).all (fun x => x = 0) && decide (h.h + h.e + h.d ≤ 128) && decide (regBytes h g ≤ 524288)
  if ok then some h else none

/-! ### Core sets (R249) -/

/-- A core that some function's mask names. -/
def State.maskedCore (s : State) (c : Nat) : Bool := s.worlds.any fun w => w.2.fcores.getLsbD c

/-- A function's core set: the cores of its mask, or the shared cores. -/
def State.inSet (s : State) (w c : Nat) : Bool :=
  if (s.world w).fcores = 0 then !s.maskedCore c else (s.world w).fcores.getLsbD c
def State.coreSet (s : State) (w : Nat) : List Nat := (List.range 256).filter fun c => s.inSet w c

/-- Whether a function may have teams on its set now: a mask of its own, or the shared cores held (R252). -/
def State.holds (s : State) (w : Nat) : Bool := (s.world w).fcores ≠ 0 || decide (s.holder = some w)

/-! ### Taking a record (R240, R241) -/

/-- Every record taken before has been refused, aborted or placed whole. -/
def State.headFree (s : State) (q : Nat) : Bool :=
  s.launches.all fun l => decide (l.q ≠ q) || l.refused || l.aborted || decide (l.placed = l.r.teams)

/-- Record `head` can be taken now. -/
def State.canTake (s : State) (q : Nat) : Bool :=
  let x := s.queue q
  s.rdy && decide (x.slots ≠ 0) && x.en && decide (x.tail ≠ x.head) && s.headFree q && decide (x.avail ≤ s.gtc) &&
    x.stores = [] && !s.frozen x.owner && s.mayEnable x.owner

/-- Host-window lines of a world leave the caches (R310). -/
def State.dropHostLines (s : State) (w : Nat) : State :=
  { s with cores := s.cores.map fun c => if c.2.l1 = [] then c
      else (c.1, { c.2 with l1 := c.2.l1.filter fun x => !(x.world = w && decide (x.line * 128 ≥ hostBase)) }) }

/-- The launch of a record that was read, before any refusal. -/
def newLaunch (id q : Nat) (x : Queue) (r : LaunchRec) : Launch :=
  { id := id, q := q, k := x.head.toNat, world := x.owner, r := r, level := if x.priv then .s else .u }

/-- A refusal completes with no team (R241, R242). -/
def Launch_refuse (l : Launch) (gtc : Nat) : Launch := { l with refused := true, stage := .running, latest := max l.latest gtc }

/-- The header of a record in range: read, checked against R73 and R241, or the refusal. -/
def State.acceptHeader (s : State) (x : Queue) (l : Launch) : Launch × State :=
  let w := x.owner
  match s.devAcc w l.r.hdr kRead with
  | .error c =>
    (Launch_refuse l s.gtc, (s.devRecord w { cls := c, kind := 0, addr := l.r.hdr, world := w, launch := Launch_lid l }).2)
  | .ok pa =>
    match parseHdr (s.phys (some w) pa 64) l.r.g with
    | none => (Launch_refuse l s.gtc, s)
    | some h =>
      let bad := (l.r.lead && h.leadoff = 0) || decide (slotBytes h l.r.g (h.leadoff ≠ 0) (x.stk * 16) > x.slotsz) ||
        s.coreSet w = []
      if bad then (Launch_refuse l s.gtc, s) else ({ l with hdr := h }, s)

/-- `LAUNCH_RECORD_TAKE` (R240, R241). -/
def execLaunchRecordTake (q : Nat) (s : State) : Out :=
  if !s.canTake q then .next s
  else
    let s0 := s.applyDue
    let x := s0.queue q
    let va := Queue_recVa x x.head.toNat
    match s0.devAcc x.owner va kRead with
    | .error c => .next (s0.ringFault q c 0 va (q * 2 ^ 32 + x.head.toNat))
    | .ok pa =>
      if s0.owned none (linesOf pa 128) then .next s
      else
        let (id, s1) := s0.fresh
        let s2 := (s1.modQueue q fun x => { x with head := x.head + 1 }).dropHostLines x.owner
        let r := match parseRec (s0.phys (some x.owner) pa 128) with
          | none => (Launch_refuse (newLaunch id q x (parseSig (s0.phys (some x.owner) pa 128))) s.gtc, s2)
          | some r => s2.acceptHeader x (newLaunch id q x r)
        .next { r.2 with launches := r.2.launches ++ [r.1] }
where
  /-- What a refused record still tells: the event it signals. -/
  parseSig (bs : List Byte) : LaunchRec :=
    let conf := getLe bs 12 4
    { sig := if conf / 2 ^ 18 % 2 = 1 then some (conf / 2 ^ 19 % 4096) else none }

/-! ### Waits and migration (R245, R246) -/

/-- A page that does not translate to a resident HBM leaf. -/
def State.awayPage (s : State) (w va : Nat) : Bool :=
  match s.rootWalk w (va % 2 ^ 56) with
  | .ok e => decide (e.pa ≥ hbmTop)
  | .error _ => true

def State.awayRange (s : State) (w : Nat) (r : Nat × Nat) : Bool :=
  (List.range r.2).any fun i => s.awayPage w (r.1 + i * 65536)

/-- The migration requests of a record, in range order; their tags. -/
def State.askMigration (s : State) (l : Launch) : List Word × State :=
  (l.r.ranges.filter fun r => s.awayRange l.world r).foldl (fun (acc : List Word × State) r =>
    let t := acc.2.devRecord 0 {
      cls := 0x11, kind := 5, addr := w64 r.1, lanes := w32 r.2, world := l.world, launch := Launch_lid l }
    (acc.1 ++ [t.1], t.2)) ([], s)

/-- `LAUNCH_WAIT_CHECK` (R245, R246). -/
def execLaunchWaitCheck (q : Nat) (s : State) : Out :=
  match s.launches.find? fun l => l.q = q && l.stage = .waiting && !Launch_over l with
  | none => .next s
  | some l =>
    let s0 := s.applyDue
    if s.rdy && !s.frozen l.world && s.mayEnable l.world && l.r.waits.all fun w => decide (w.2.toNat ≤ s0.eventCount l.world w.1) then
      let r := s0.askMigration l
      .next (r.2.modLaunch l.id fun l =>
        if r.1 = [] then { l with stage := .placing, readyAt := s.gtc } else { l with stage := .migrating r.1 })
    else .next s

/-! ### Placement (R247) -/

/-- C = 1: the most free group places, ties to the lower number. -/
def State.pickCore (s : State) (cs : List Nat) (h : Header) (g : Nat) : Option Nat :=
  (cs.filter fun c => s.roomFor c h g).foldl (fun b c => match b with
    | none => some c
    | some x => if s.freePlaces c > s.freePlaces x then some c else some x) none

/-- C > 1: the lowest core cluster with C such cores, and those cores. -/
def State.pickCluster (s : State) (cs : List Nat) (h : Header) (g c : Nat) : Option (List Nat) :=
  let of_ (k : Nat) : List Nat := cs.filter fun x => x / 8 = k && s.roomFor x h g
  ((List.range 32).find? fun k => decide ((of_ k).length ≥ c)).map fun k => (of_ k).take c

/-- Work slots of a queue that nobody holds, ascending (R243). -/
def freeSlots (x : Queue) (n : Nat) : List Nat := ((List.range (min x.slots (x.held.length + n))).filter fun i => !x.held.contains i).take n

/-- A team at launch (R8, R30, R35, R37, R74). -/
def newTeam (l : Launch) (id num core slot : Nat) : Team :=
  let args : Tab Word := (l.r.args.zipIdx).foldl (fun t x => tabSet t x.2 x.1 0) []
  let th (off : Nat) (v : Tab Word) : Thread := { pc := l.r.hdr + w64 off, level := l.level, v := v }
  { id := id, launch := l.id, num := num, core := core, wslot := slot,
    groups := (List.range l.r.g).map fun g => { g := args, landed := poolAtLaunch l.hdr l.r.g g, spilled := spilledAtLaunch l.hdr l.r.g g, threads := List.replicate 32 (th l.hdr.groupoff []) },
    lead := if l.r.lead then some { threads := [th l.hdr.leadoff args], active := true } else none }

/-- Places a team of a launch. -/
def State.placeTeam (s : State) (l : Launch) (core slot : Nat) : State :=
  let num := (s.launch l.id).placed
  let s1 := (s.modLaunch l.id fun x =>
    { x with placed := x.placed + 1, stage := if x.placed + 1 = x.r.teams then .running else x.stage })
  let s2 := s1.modQueue l.q fun x => { x with held := x.held ++ [slot] }
  { s2 with teams := s2.teams ++ [newTeam l s.nextTeam num core slot], nextTeam := s.nextTeam + 1 }

/-- Places the next team, or the next cluster, of a record, when it can be. -/
def State.tryPlace (s : State) (cs : List Nat) (l : Launch) : Option State :=
  let slots := freeSlots (s.queue l.q) l.r.c
  let cores := if l.r.c = 1 then (s.pickCore cs l.hdr l.r.g).map fun c => [c] else s.pickCluster cs l.hdr l.r.g l.r.c
  match cores with
  | none => none
  | some cores => if slots.length < l.r.c then none
    else some ((cores.zip slots).foldl (fun s x => s.placeTeam l x.1 x.2) s)

/-- Sends a saved team to a core, when one has room (R252). -/
def State.tryRestore (s : State) (cs : List Nat) (t : Team) : Option State :=
  (s.pickCore cs (s.hdrOf t) (s.launchOf t).r.g).map fun c =>
    s.modTeam t.id fun t => { t with place := .restoring, core := c }

/-! ### Decisions (R250, R251) -/

def State.savedOf (s : State) (w : Nat) : List Team :=
  sortBy (fun t : Team => t.savedAt) (s.teams.filter fun t => s.worldOf t = w && t.place = .saved)

/-- Effective priority (R251). -/
def State.effPrio (s : State) (l : Launch) : Nat :=
  let a := (s.world l.world).age
  min 3 (l.r.prio + if a = 0 then 0 else (s.gtc - l.readyAt) / (a * 16000))

/-- Head records of a function that wait for a place, in the order of R251. -/
def State.headsOf (s : State) (w : Nat) : List Launch :=
  sortBy (fun l : Launch => 3 - s.effPrio l) (sortBy (fun l : Launch => l.readyAt) (sortBy (fun l : Launch => l.q)
    (s.launches.filter fun l => l.world = w && l.stage = .placing && !Launch_over l)))

/-- One decision for a function, when anything of it can be placed. -/
def State.decideFor (s : State) (w : Nat) : Option State :=
  if !s.holds w || s.frozen w || !s.mayEnable w then none
  else
    let cs := s.coreSet w
    match (s.savedOf w).findSome? (s.tryRestore cs) with
    | some r => some r
    | none => (s.headsOf w).findSome? (s.tryPlace cs)

/-- Weighted round robin from function `w` on, over `n` functions (R250). One that can place nothing forfeits its
remaining decisions of the round; where none can place anything, the next round begins. -/
def State.decideFrom (s : State) (w left n : Nat) : State :=
  match n with
  | 0 => { s with rrNext := 0, rrLeft := 0 }
  | n + 1 =>
    match s.decideFor w with
    | none => s.decideFrom ((w + 1) % 65) 0 n
    | some r =>
      let rest := (if left = 0 then (s.world w).weight else left) - 1
      { r with rrNext := if rest = 0 then (w + 1) % 65 else w, rrLeft := rest }

/-- `DISPATCH_DECISION` (R250, R251). -/
def execDispatchDecision (s : State) : Out :=
  if s.rdy then .next (s.decideFrom s.rrNext s.rrLeft 65) else .next s

/-! ### The holder of the shared cores (R252) -/

/-- A team stands where its function may have none: outside its set, or on shared cores that another holds. -/
def State.misplaced (s : State) (t : Team) : Bool := !s.inSet (s.worldOf t) t.core || !s.holds (s.worldOf t)

/-- Pre-empts every team that stands where it may not (R224, R249, R252); one not begun goes back to be placed. -/
def State.evictTeams (s : State) : State :=
  { s with teams := s.teams.map fun t =>
      match t.place with
      | .resident | .admitting => if s.misplaced t then { t with preempt := true } else t
      | .restoring => if s.misplaced t then { t with place := .saved } else t
      | _ => t }

/-- Saves of a function's pre-empted teams, which the next holder's slice waits for. -/
def State.leaving (s : State) (w : Nat) : Bool :=
  s.teams.any fun t => s.worldOf t = w && s.misplaced t && (match t.place with
    | .saved => false
    | .restoring => false
    | _ => true)

/-- SLICE in nanoseconds. -/
def State.sliceNs (s : State) (h : Option Nat) : Nat := 1000 * (s.world (h.getD 0)).slice

/-- A slice begins once the previous holder's teams have left. -/
def State.beginSlice (s : State) : State :=
  match s.handing with
  | some w => if s.leaving w then s else { s with handing := none, sliceEnd := s.gtc + s.sliceNs s.holder }
  | none => s

/-- Hands the shared cores over; the slice begins once the teams of `old` have left, or at once. -/
def State.handOver (s : State) (h old : Option Nat) : State :=
  (({ s with holder := h, handing := old, sliceEnd := s.gtc + s.sliceNs h }).evictTeams).beginSlice

/-- Work for a place, or a saved team, that a decision may place (R252). -/
def State.hasWork (s : State) (w : Nat) : Bool := !s.frozen w && s.mayEnable w && (s.savedOf w ≠ [] || s.headsOf w ≠ [])

/-- The first function after the holder, in wrapping order, that the test admits; the holder itself comes last. -/
def State.nextFn (s : State) (p : Nat → Bool) : Option Nat :=
  let h := s.holder.getD 64
  ((List.range 65).map fun i => (h + 1 + i) % 65).find? p

def State.maskless (s : State) (w : Nat) : Bool := (s.world w).fcores = 0

/-- The end of a slice, when it has come (R252): it is renewed, or the cores go to another holder. -/
def State.sliceTurn (s : State) : State :=
  let s0 := s.beginSlice
  match s0.holder with
  | none => s0
  | some h =>
    if s0.handing.isSome || !s0.rdy || decide (s0.gtc < s0.sliceEnd) then s0
    else
      match s0.nextFn fun w => decide (w ≠ h) && s0.maskless w && s0.hasWork w with
      | some w => s0.handOver (some w) (some h)
      | none => { s0 with sliceEnd := s0.sliceEnd + s0.sliceNs (some h) }

/-- `SLICE_END` (R252). -/
def execSliceEnd (s : State) : Out := .next s.sliceTurn

/-- The holder after a write of a mask: another one when the holder has a mask now, or when there was none. One that has
no work begins its slice at once. -/
def State.rehold (s : State) : State :=
  let ok := match s.holder with
    | some h => s.maskless h
    | none => false
  if ok then s.evictTeams
  else
    match s.nextFn fun w => s.maskless w && s.hasWork w with
    | some w => s.handOver (some w) s.holder
    | none => s.handOver (s.nextFn s.maskless) none

/-- A mask with one word replaced. -/
def setMask (m : BitVec 256) (j : Nat) (v : Dword) : BitVec 256 :=
  BitVec.ofNat 256 (m.toNat % 2 ^ (64 * j) + v.toNat * 2 ^ (64 * j) + m.toNat / 2 ^ (64 * (j + 1)) * 2 ^ (64 * (j + 1)))

/-- `FCORES_WRITE` by the physical function (R249, R252, R308, R318). -/
def execFcoresWrite (world j : Nat) (val : Dword) (s : State) : Out :=
  let m := setMask (s.world world).fcores j val
  if world > 64 || j ≥ 4 then .next s
  else if s.lockedWorld world then .next (s.tdiError world)
  else if s.worlds.any fun w => decide (w.1 ≠ world) && decide (w.2.fcores &&& m ≠ 0) then .next s
  else if m = (s.world world).fcores then .next s
  else
    let s1 := s.modWorld world fun x => { x with fcores := m }
    .next ((s1.raiseMgen none).rehold)

/-! ### Completion (R242) -/

/-- The completion entry. -/
def Launch_entry (l : Launch) (tc : Nat) : List Byte :=
  leBytes 8 tc ++ [if l.aborted then 3 else if l.refused then 2 else 1, 0] ++ leBytes 2 l.ctxerr.toNat ++ leBytes 4 l.k

/-- Nothing of a launch is outstanding, and no team of it is left. -/
def State.launchDone (s : State) (l : Launch) : Bool :=
  Launch_over l && (s.teams.all fun t => decide (t.launch ≠ l.id)) && (s.flights.all fun f => decide (f.launch ≠ l.id)) &&
    (s.engines.all fun f => decide (f.launch ≠ l.id)) && (s.walks.all fun f => decide (f.launch ≠ l.id)) &&
    (s.probes.all fun f => decide (f.launch ≠ l.id)) && (s.escs.all fun f => decide (f.launch ≠ l.id)) &&
    s.egress.all fun f => decide (f.launch ≠ l.id)

/-- Error registers that the host reads of a completed launch (R214). -/
def World_keepErr (w : World) (l : Launch) : World :=
  if l.ctxerr = 0 then w else { w with lastErr := l.ctxerr, lastPc := l.errpc, lastWord := l.errword }

/-- The launch's event, after its entry (R242). -/
def State.signalLaunch (s : State) (l : Launch) (a : Nat) : State :=
  match l.r.sig with
  | some e => s.signalEvent l.world e a
  | none => s

/-- `LAUNCH_COMPLETION` (R242). -/
def execLaunchCompletion (launch : Nat) (s : State) : Out :=
  match s.launch? launch with
  | none => .next s
  | some l =>
    let x := s.queue l.q
    let tc := max l.latest s.gtc
    let va := x.cbase + w64 (16 * (l.k % 2 ^ x.size))
    let evs := match l.r.sig with
      | some e => linesOf (s.eventPa l.world e) 16
      | none => []
    if !s.launchDone l || s.owned none evs then .next s
    else
      let s1 := { s with launches := s.launches.filter fun y => decide (y.id ≠ launch) }.modWorld l.world fun w => World_keepErr w l
      match s.devAcc l.world va kWrite with
      | .error c => .next ((s1.ringFault l.q c 1 va (Launch_lid l)).signalLaunch l tc)
      | .ok pa =>
        if s.owned none (linesOf pa 16) then .next s
        else
          let (id, s2) := s1.fresh
          let w := s2.wAt tc pa 16
          let s3 := s2.arriveAt tc id l.world 0 .lead leadGrp 0 pa 16 (.store (Launch_entry l l.latest)) none false false
          .next (s3.signalLaunch l w)

/-- `EVENT_SIGNAL`, from the host, through the function of the world (R129, R244, R311). -/
def execEventSignal (world ev : Nat) (s : State) : Out :=
  let ls := linesOf (s.eventPa world ev) 16
  let src := 512 + world
  if s.rdy && decide (ev < 4096) && decide (world ≤ 64) && !s.owned none ls && s.mayServe ls src s.nextId true then
    .next ((s.signalEvent world ev s.gtc).serve ls src s.nextId false)
  else .next s

/-! ### Frames (R288) -/

/-- `KVPUSH` by the physical function (R288, R308). -/
def execKvpush (world : Nat) (tier : Bool) (cls : BitVec 2) (val : Dword) (s : State) : Out :=
  if s.lockedWorld world then .next (s.tdiError world)
  else .next (s.pushFrame world tier.toNat cls.toNat (val.toNat))

/-- `KVRCL_WRITE` by the physical function: ones clear bits (R288, R308). -/
def execKvrclWrite (world : Nat) (val : Dword) (s : State) : Out :=
  if s.lockedWorld world then .next (s.tdiError world)
  else .next (s.modWorld world fun w => { w with kvrcl := w.kvrcl &&& ~~~ val.setWidth 5 })

end Sys2Proof.Machine
end

