-- ==== Sys2Proof/Machine/Boot.lean ====
section
/-! DEFINITION. Bring-up, host links and new firmware (R304 to R306, R318). -/

namespace Sys2Proof.Machine

/-! ### Power and PERST# (R304) -/

/-- The device stopped: every register at its reset value. What stands outside it stays: memory as it is until
stage 4 zeroes it, the links, what was already sent to the host, and the model's own counters. -/
def State.stopped (s : State) : State :=
  { State.reset with
    mem := s.mem, seals := s.seals, links := s.links, replies := s.replies,
    hostPosts := s.hostPosts, signals := s.signals, agenda := s.agenda, free := s.free, nextId := s.nextId,
    nextTeam := s.nextTeam }

/-- `PERST_ASSERT` (R304). -/
def execPerstAssert (s : State) : Out := .next s.stopped

/-- `PERST_DEASSERT` (R304): stage 1 begins, and MGEN with it (R318). -/
def execPerstDeassert (s : State) : Out :=
  if s.powered then .next s else .next { s with powered := true, clocks := true, stage := 1, mgen := 1 }

/-! ### Stages (R304, R305) -/

/-- The end of stage `n`: the next stage with its effect, or a failure of a unit, which stops the sequence. -/
def State.endStage (s : State) (n : Nat) (ok : Bool) (unit : BitVec 5) (f : State → State) : Out :=
  if !s.powered || s.fail || s.stage ≠ n then .next s
  else if ok then .next (f { s with stage := n + 1 })
  else .next { s with fail := true, failcode := BitVec.ofNat 8 (32 * n + unit.toNat) }

/-- `FIRMWARE_CHECK`: stage 1. -/
def execFirmwareCheck (ok : Bool) (unit : BitVec 5) (s : State) : Out := s.endStage 1 ok unit fun s => s

/-- `PLL_LOCK`: stage 2. -/
def execPllLock (ok : Bool) (unit : BitVec 5) (s : State) : Out := s.endStage 2 ok unit fun s => s

/-- `HBM_TRAINING`: stage 3. -/
def execHbmTraining (ok : Bool) (unit : BitVec 5) (s : State) : Out := s.endStage 3 ok unit fun s => s

/-- HBM, caches, escort stores, TLBs and accumulators after stage 4. -/
def State.zeroed (s : State) : State :=
  { s with
    mem := s.mem.filter (fun c => decide (c.1 ≥ hbmTop)), seals := [], leases := [], lastW := [], homes := [],
    escs := [], memz := true,
    cores := s.cores.map (fun c => (c.1, { c.2 with l1 := [], wc := [], stack := [], tlb := [] })),
    dies := s.dies.map fun d => (d.1, { d.2 with tlb := [], nodes := [] }) }

/-- `MEMORY_ZEROING`: stage 4. -/
def execMemoryZeroing (ok : Bool) (unit : BitVec 5) (s : State) : Out := s.endStage 4 ok unit State.zeroed

/-- `GTC_START`: stage 5. Every core's cycle counter is 0 then (R19); the first slice of the shared cores begins (R252). -/
def execGtcStart (ok : Bool) (unit : BitVec 5) (s : State) : Out :=
  s.endStage 5 ok unit fun s => { s with
    dies := s.dies.map (fun d => (d.1, { d.2 with cycle := 0 })), gtc := 0, gtcOn := true, rdy := true, sliceEnd := s.sliceNs s.holder }

/-- `CONFIGURATION_REQUEST` (R304), on either link. -/
def execConfigurationRequest (s : State) : Out :=
  if !s.powered || !(s.links.1 || s.links.2) then .next s
  else .next { s with replies := s.replies ++ [if s.stage ≤ 1 then .retryStatus else .success] }

/-! ### Links and firmware -/

/-- One link's state replaced: false names link 0. -/
def setLink (l : Bool × Bool) (link up : Bool) : Bool × Bool := if link then (l.1, up) else (up, l.2)

/-- `HOST_LINK_DOWN` (R306). -/
def execHostLinkDown (link : Bool) (s : State) : Out := .next { s with links := setLink s.links link false }

/-- `HOST_LINK_UP` (R306). -/
def execHostLinkUp (link : Bool) (s : State) : Out := .next { s with links := setLink s.links link true }

/-- `FIRMWARE_ACTIVATION` (R318). -/
def execFirmwareActivation (s : State) : Out :=
  if s.powered && decide (s.stage ≥ 2) then .next (s.raiseMgen none) else .next s

end Sys2Proof.Machine
end

