-- ==== Sys2Proof/Machine/Trust.lean ====
section
/-! DEFINITION. TDISP, SPDM and measurements (R305, R308, R316 to R318, R331), L2 way assignment (R319). -/

namespace Sys2Proof.Machine

def State.answer (s : State) (a : Answer) : State := { s with replies := s.replies ++ [a] }

/-! ### Sessions -/

def State.session? (s : State) (id : Nat) : Option Session := s.sessions.find? fun x => x.id = id

def State.dropSession (s : State) (id : Nat) : State :=
  { s with sessions := s.sessions.filter fun x => decide (x.id ≠ id) }

/-- A message in a session: an ended one answers its next message with RequestResynch and is gone (R318). -/
def State.inSession (s : State) (id : Nat) (f : Session → State → State) : State :=
  match s.session? id with
  | none => s.answer (.reqError .notAccepted)
  | some x => if x.ended then (s.dropSession id).answer (.reqError .requestResynch) else f x s

/-! ### SPDM requests (R317) -/

/-- An answer whose body the spec does not give. -/
def State.spdmAnswer (s : State) (code sess : Nat) : State :=
  { s with free := s.free + 1 }.answer (.spdm code (Config.spdmBody code sess s.mgen s.free))

/-- A request other than the first two, which a device that is not ready turns away (R305). -/
def State.spdm (s : State) (f : State → State) : Out :=
  if !s.powered then .next s else .next (if s.rdy then f s else s.answer (.reqError .busy))

/-- `GET_VERSION`. -/
def execGetVersion (s : State) : Out := if s.powered then .next (s.spdmAnswer 0 0) else .next s
/-- `GET_CAPABILITIES`. -/
def execGetCapabilities (s : State) : Out := if s.powered then .next (s.spdmAnswer 1 0) else .next s
/-- `NEGOTIATE_ALGORITHMS`. -/
def execNegotiateAlgorithms (s : State) : Out := s.spdm fun s => s.spdmAnswer 2 0
/-- `GET_DIGESTS`. -/
def execGetDigests (s : State) : Out := s.spdm fun s => s.spdmAnswer 3 0
/-- `GET_CERTIFICATE`. -/
def execGetCertificate (s : State) : Out := s.spdm fun s => s.spdmAnswer 4 0
/-- `CHALLENGE`. -/
def execChallenge (s : State) : Out := s.spdm fun s => s.spdmAnswer 5 0

/-- WSEC as it reads (R313). -/
def World_wsec (w : World) : Nat := (if w.hostlnk then 4 else 0) + (if w.prot then 2 else 0) + if w.keys.isSome then 1 else 0

/-- What the interface report of a world holds of its registers (R316). -/
def World_report (w : World) : Nat :=
  World_wsec w + w.l2ways.toNat * 2 ^ 3 + w.hbmch.toNat * 2 ^ 19 + w.fcores.toNat * 2 ^ 83 +
    (if w.ctxctl.getLsbD 17 then 1 else 0) * 2 ^ 339

/-- A change of a world's report raises MGEN (R318). -/
def State.reported (new old : State) (w : Nat) : State :=
  if World_report (new.world w) ≠ World_report (old.world w) then new.raiseMgen none else new

/-- The value a measurement is taken of: MGEN, a world's report; nothing in State stands for the first three (R316). -/
def State.measured (s : State) (index : Nat) : Option Nat :=
  if 1 ≤ index ∧ index ≤ 3 then some 0
  else if index = 4 then some s.mgen
  else if 0x10 ≤ index ∧ index ≤ 0x10 + 64 then some (World_report (s.world (index - 0x10)))
  else none

/-- `GET_MEASUREMENTS` (R316). -/
def execGetMeasurements (index : Nat) (s : State) : Out :=
  s.spdm fun s => match s.measured index with
    | some v => s.answer (.spdm 6 (Config.measure index v))
    | none => s.answer (.reqError .notAccepted)

/-- `KEY_EXCHANGE`: the lowest session number that is free, while fewer than 16 are open. -/
def execKeyExchange (s : State) : Out :=
  s.spdm fun s =>
    if (s.sessions.filter fun x => !x.ended).length ≥ 16 then s.answer (.reqError .busy)
    else
      let id := ((List.range (s.sessions.length + 1)).find? fun i => (s.session? i).isNone).getD 0
      State.spdmAnswer { s with sessions := s.sessions ++ [{ id := id, mgen := s.mgen, finished := false, ended := false, worlds := [] }] } 7 id

/-- `FINISH`: the session records the generation of its completion (R331). -/
def execFinish (sess : Nat) (s : State) : Out :=
  s.spdm fun s => s.inSession sess fun x s =>
    if x.finished then s.answer (.reqError .notAccepted)
    else { s with sessions := mapIf s.sessions (fun y => y.id = sess) fun y =>
      { y with finished := true, mgen := s.mgen } }.spdmAnswer 8 sess

/-- `HEARTBEAT`. -/
def execHeartbeat (sess : Nat) (s : State) : Out := s.spdm fun s => s.inSession sess fun _ s => s.spdmAnswer 9 sess
/-- `KEY_UPDATE`. -/
def execKeyUpdate (sess : Nat) (s : State) : Out := s.spdm fun s => s.inSession sess fun _ s => s.spdmAnswer 10 sess
/-- `END_SESSION`: the session and its keys are gone. -/
def execEndSession (sess : Nat) (s : State) : Out :=
  s.spdm fun s => s.inSession sess fun _ s => (s.dropSession sess).spdmAnswer 11 sess

/-! ### TDISP (R305, R308, R318) -/

/-- A TDISP request in a session that is open and of the present generation. -/
def State.tdisp (s : State) (world sess : Nat) (ok : Tdi → Bool) (f : State → State) : Out :=
  if !s.powered then .next s
  else if !s.rdy then .next (s.answer (.reqError .notAccepted))
  else
    .next (s.inSession sess fun x s =>
      if x.finished && decide (x.mgen = s.mgen) && decide (1 ≤ world) && decide (world ≤ 64) && ok (s.world world).tdi then
        (f s).answer .success
      else s.answer (.reqError .notAccepted))

/-- The session remembers the worlds it locked or started. -/
def State.sessionWorld (s : State) (sess world : Nat) : State :=
  { s with sessions := mapIf s.sessions (fun x => x.id = sess) fun x => { x with worlds := insertNat x.worlds world } }

/-- `LOCK_INTERFACE`: the keys are generated, and PROT takes effect (R308, R313). -/
def execLockInterface (world sess : Nat) (s : State) : Out :=
  s.tdisp world sess (fun t => t = .unlocked) fun s =>
    let (k, s1) := s.fresh
    ((s1.modWorld world fun w => { w with tdi := .locked, keys := some k, sealing := w.prot }).sessionWorld sess world).raiseMgen
      (some sess)

/-- `START_INTERFACE`. -/
def execStartInterface (world sess : Nat) (s : State) : Out :=
  s.tdisp world sess (fun t => t = .locked) fun s =>
    ((s.modWorld world fun w => { w with tdi := .run }).sessionWorld sess world).raiseMgen (some sess)

/-- A TDI goes to CONFIG_UNLOCKED without its keys. -/
def State.unlock (s : State) (world : Nat) (by_ : Option Nat) : State :=
  if (s.world world).tdi = .unlocked then s
  else (s.modWorld world fun w => { World_dropKeys w with tdi := .unlocked }).raiseMgen by_

/-- `STOP_INTERFACE`. -/
def execStopInterface (world sess : Nat) (s : State) : Out :=
  s.tdisp world sess (fun _ => true) fun s => s.unlock world (some sess)

/-- `FUNCTION_LEVEL_RESET` (R331). -/
def execFunctionLevelReset (world : Nat) (s : State) : Out :=
  if s.powered && decide (world ≤ 64) then .next ((s.abortWorld world).unlock world none) else .next s

/-- `IDE_INTEGRITY_FAILURE` on a world's stream (R308). -/
def execIdeIntegrityFailure (world : Nat) (s : State) : Out :=
  if s.lockedWorld world then .next (s.tdiError world) else .next s

/-! ### L2 ways (R319) -/

/-- Ways that every other world has. -/
def State.otherWays (s : State) (world : Nat) : BitVec 16 :=
  s.worlds.foldl (fun m x => if x.1 = world then m else m ||| x.2.l2ways) 0

def ones16 (m : BitVec 16) : Nat := ((List.range 16).filter fun i => m.getLsbD i).length

/-- A write of L2WAYS by the physical function; lines that leave a way change no result of any access (R116). -/
def State.setL2ways (s : State) (world : Nat) (v : Dword) : State :=
  let m : BitVec 16 := v.setWidth 16
  let rest := s.otherWays world
  if s.lockedWorld world then s.tdiError world
  else if decide (m &&& rest ≠ 0) || decide (ones16 (m ||| rest) > 14) || decide (m = (s.world world).l2ways) then s
  else (s.modWorld world fun w => { w with l2ways := m }).reported s world

/-- `L2WAYS_WRITE` (R319). -/
def execL2waysWrite (world : Nat) (val : Dword) (s : State) : Out :=
  if world ≤ 64 then .next (s.setL2ways world val) else .next s

end Sys2Proof.Machine
end

