-- ==== Sys2Proof/Machine/Migrate.lean ====
section
/-! DEFINITION. Migration handover (R322), with what a package holds as a value without a body. -/

namespace Sys2Proof

/-- What a package brings (R322): the world, its queues, the launches and saved teams (a team names its launch by its
place in the list), and the frames. -/
structure Package where
  world : List Machine.World
  queues : List (Nat × Machine.Queue)
  launches : List Machine.Launch
  teams : List Machine.Team
  frames : List (Nat × List Byte)
  deriving DecidableEq, Repr

namespace Config
/-- Content of a package that another device made, by its number: no rule gives the format (log 7). -/
opaque package : Nat → List Package
end Config

namespace Machine

/-- A change of state signals vector 4 (R322). -/
def State.setMig (s : State) (w : Nat) (m : Mig) : State := (s.modWorld w fun x => { x with mig := m, migGo := false }).signal w 4

/-- MIGWIN in nanoseconds. -/
def World_window (x : World) : Nat := 1000 * x.migwin

/-- The world's teams and launches are no longer here, and its queues stand. -/
def State.dropWorld (s : State) (w : Nat) : State :=
  { s with
    teams := s.teams.filter (fun t => decide (s.worldOf t ≠ w)),
    launches := s.launches.filter (fun l => decide (l.world ≠ w)),
    queues := s.queues.map fun q => if q.2.owner = w then (q.1, { q.2 with en := false, held := [] }) else q }

/-- The device writes bytes from a physical address on, 4 KiB at a time; what would fall on addresses that R102 reserves is not
written: DESIGN CHOICE (log 4). -/
def State.putBuffer (s : State) (pa : Nat) (bs : List Byte) : State :=
  if physExists pa bs.length then s.putNow none pa bs
  else
    (List.range ((bs.length + 4095) / 4096)).foldl (fun s i =>
      let b := (bs.drop (4096 * i)).take 4096
      if physExists (pa + 4096 * i) b.length then s.putNow none (pa + 4096 * i) b else s) s

/-- Writes the buffer, when no access holds it back. -/
def State.intoBuffer (s : State) (w : Nat) (bs : List Byte) (f : State → State) : Out :=
  let pa := (s.world w).migbuf.toNat
  if s.quiet pa bs.length then .next (f (s.putBuffer pa bs)) else .next s

def tokenBytes (sess no kind : Nat) : List Byte := leBytes 32 (Config.migToken sess no kind).toNat

/-- The token at the start of the buffer. -/
def State.bufferHas (s : State) (w : Nat) (kind : Nat) : Bool :=
  let x := s.world w
  physExists x.migbuf.toNat 32 && s.applyDue.phys none x.migbuf.toNat 32 = tokenBytes x.migsess x.migNo kind

/-! ### Commands -/

/-- An EXPORT begins: teams are pre-empted, queues disabled (R224, R322). -/
def State.exportBegin (s : State) (w : Nat) : State :=
  let s1 := s.modWorld w fun x => { x with migGo := true }
  { s1 with
    teams := s1.teams.map (fun t => if s.worldOf t = w then
      (match t.place with
       | .restoring => { t with place := .saved }
       | .saved => t
       | _ => { t with preempt := true }) else t),
    queues := s1.queues.map fun q => if q.2.owner = w then (q.1, { q.2 with en := false }) else q }

/-- Every team of a world is saved. -/
def State.allSaved (s : State) (w : Nat) : Bool := s.teams.all fun t => decide (s.worldOf t ≠ w) || decide (t.place = .saved)

/-- An EXPORT ends: the package, the window, SENT; nothing of the world runs here any more. -/
def State.exportEnd (s : State) (w : Nat) : Out :=
  let x := s.world w
  let no := s.nextId
  let len := Config.packageLen x.migsess no
  let bs := (List.range (min len x.miglen.toNat)).map fun i => Config.packageByte x.migsess no i
  s.intoBuffer w bs fun s1 =>
    let s2 := ({ s1.dropWorld w with nextId := s1.nextId + 1 }).modWorld w fun x =>
      { World_dropKeys x with miglen := w64 len, migNo := no, migEnd := s.gtc + World_window x }
    (s2.reported s w).setMig w .sent

/-- `MIG_EXPORT` (R322): the command, and its end once every team is saved. -/
def execMigExport (world : Nat) (s : State) : Out :=
  let x := s.world world
  if !s.rdy || x.mig ≠ .idle || world > 64 then .next s
  else
    let s1 := if x.migGo then s else s.exportBegin world
    if s1.allSaved world then s1.exportEnd world else .next s1

/-- A group's maps are in their form: keys rise. -/
def Group_tabs (g : Group) : Bool :=
  decide (tabRises g.g) && decide (tabRises g.marks) && decide (tabRises g.streams) && decide (tabRises g.al) &&
    g.threads.all fun th => decide (tabRises th.v) && decide (tabRises th.c)

/-- A team's maps are in their form. -/
def Team_tabs (t : Team) : Bool :=
  Memory.wf t.scratch && decide (tabRises t.t) && decide (tabRises t.tiles) && (t.tiles.all fun x => decide (tabRises x.2.c)) &&
    t.groups.all Group_tabs && t.conj.all Group_tabs && t.lead.toList.all Group_tabs

/-- A value of `Config.package` that stands for a package: one whose maps are in their form (log 7). -/
def Package_wf (p : Package) : Bool := (p.world.all fun x => decide (tabRises x.free)) && p.teams.all Team_tabs

/-- Loads what a package brings, every queue disabled; the queues of other worlds stay theirs (R237, R311). -/
def State.loadPackage (s : State) (w : Nat) (p : Package) : State :=
  let base := s.nextId
  let s0 := s.modWorld w fun x => match p.world with
    | [] => x
    | y :: _ => { y with mig := x.mig, migsess := x.migsess, migwin := x.migwin, migbuf := x.migbuf, miglen := x.miglen, migEnd := x.migEnd,
                         migNo := x.migNo, migGo := x.migGo, msix := x.msix, msiPend := x.msiPend, held := x.held }
  let s1 := p.frames.foldl (fun s f => if physExists f.1 f.2.length then s.putNow none f.1 f.2 else s) s0
  let s2 := p.queues.foldl (fun s q =>
    let old := s.queue q.1
    if decide (q.1 < 1024) && decide (q.2.slots ≠ 0) && (decide (old.slots = 0) || decide (old.owner = w)) then
      s.modQueue q.1 fun _ => { q.2 with owner := w, en := false }
    else s) s1
  { s2 with
    nextId := base + p.launches.length,
    launches := s2.launches ++ (p.launches.zipIdx).map (fun l => { l.1 with id := base + l.2, world := w }),
    nextTeam := s2.nextTeam + p.teams.length,
    teams := s2.teams ++ (p.teams.zipIdx).map fun t =>
      { t.1 with id := s2.nextTeam + t.2, launch := base + t.1.launch, place := .saved, preempt := false } }

/-- `MIG_IMPORT` (R322): a buffer that is not there, or cannot hold the token, does not open. -/
def execMigImport (world : Nat) (s : State) : Out :=
  let x := s.world world
  if !s.rdy || x.mig ≠ .idle || x.migGo || world > 64 then .next s
  else if !physExists x.migbuf.toNat (max x.miglen.toNat 32) then .next (s.setMig world .lost)
  else
    match Config.packageOpens x.migsess (s.applyDue.phys none x.migbuf.toNat x.miglen.toNat) with
    | none => .next (s.setMig world .lost)
    | some no =>
      s.intoBuffer world (tokenBytes x.migsess no 0) fun s1 =>
        let s2 := match (Config.package no).find? Package_wf with
          | some p => s1.loadPackage world p
          | none => s1
        let s3 := s2.modWorld world fun y => { y with migNo := no, migEnd := s.gtc + World_window x }
        (s3.reported s world).setMig world .waitrel

/-- `MIG_CONFIRM` (R322): an expiry at the same GTC comes first. -/
def execMigConfirm (world : Nat) (s : State) : Out :=
  let x := s.world world
  if s.rdy && x.mig = .sent && decide (s.gtc < x.migEnd) && s.bufferHas world 0 then
    s.intoBuffer world (tokenBytes x.migsess x.migNo 1) fun s1 => s1.setMig world .done
  else .next s

/-- `MIG_RELEASE` (R322). -/
def execMigRelease (world : Nat) (s : State) : Out :=
  let x := s.world world
  if s.rdy && x.mig = .waitrel && decide (s.gtc < x.migEnd) && s.bufferHas world 1 then .next (s.setMig world .run)
  else .next s

/-- `MIG_CLEAR` (R322). -/
def execMigClear (world : Nat) (s : State) : Out :=
  match (s.world world).mig with
  | .done | .run | .lost => if s.rdy then .next (s.setMig world .idle) else .next s
  | _ => .next s

/-! ### Windows -/

/-- `MIGRATION_EXPIRY` (R322). -/
def execMigrationExpiry (world : Nat) (s : State) : Out :=
  let x := s.world world
  if s.rdy && x.mig = .sent && decide (x.migEnd ≤ s.gtc) then .next (s.setMig world .lost) else .next s

/-- Registers of a world as after reset, but for those of the handover and of the host's vectors. -/
def World_erase (x : World) : World :=
  { mig := x.mig, migsess := x.migsess, migwin := x.migwin, migbuf := x.migbuf, miglen := x.miglen, migNo := x.migNo,
    migEnd := x.migEnd, msix := x.msix, msiPend := x.msiPend }

/-- A queue as after reset, but still configured, for its owner (R237). -/
def Queue_erase (x : Queue) : Queue := { slots := x.slots, owner := x.owner }

def State.eraseQueues (s : State) (w : Nat) : State :=
  { s with queues := s.queues.map fun q => if q.2.slots ≠ 0 ∧ q.2.owner = w then (q.1, Queue_erase q.2) else q }

/-- `MIGRATION_DEADLINE` (R322): the loaded world is erased, its queues among it. -/
def execMigrationDeadline (world : Nat) (s : State) : Out :=
  let x := s.world world
  if s.rdy && x.mig = .waitrel && decide (x.migEnd ≤ s.gtc) then
    .next (((((s.dropWorld world).eraseQueues world).modWorld world World_erase).reported s world).setMig world .lost)
  else .next s

end Machine

end Sys2Proof
end

