-- ==== Sys2Proof/Machine/Fabric.lean ====
section
/-! DEFINITION. The Capedal fabric: bindings and ingress (R324), replies (R189, R209, R210, R326), ports, time and lane
sparing (R323, R325, R327). -/

namespace Sys2Proof.Machine

/-! ### Bindings (R324) -/

/-- The local world of the first valid entry that matches a source device and world. -/
def State.bindOf (s : State) (sdev sworld : Nat) : Option Nat :=
  ((s.fbind.find? fun e => e.2.getLsbD 63 && decide (field e.2 0 13 = sdev) &&
    (decide (field e.2 22 7 = sworld) || decide (field e.2 22 7 = 0x7F)))).map fun e => field e.2 29 7

/-- Where a remote access of n bytes acts at this device (R209, R324): the bound world and the address, or the class. -/
def State.ingress (s : State) (sdev sworld : Nat) (va : Dword) (n kind : Nat) : Except Nat (Nat × Nat) :=
  match s.bindOf sdev sworld with
  | none => .error 0x0A
  | some w =>
    if n = 0 || va.toNat % n ≠ 0 then .error 9
    else
      match s.devAcc w va kind with
      | .error c => .error c
      | .ok pa => .ok (w, pa)

/-! ### Ingress -/

/-- What a request does by its code: 0 read, 1 write, 2 + k atomic operation k in the order of R192, unsigned, and
2 + 16 + k the same signed; its width is the request's. -/
inductive FabOp where
  | read
  | write
  | atomic (op : Aop) (ty : Ty)
  deriving DecidableEq, Repr

def fabOp (code n : Nat) : FabOp :=
  match code with
  | 0 => .read
  | 1 => .write
  | c =>
    let k := (c - 2) % 16
    let sg := (c - 2) / 16 % 2 = 1
    let op := ([Aop.add, .min, .max, .iand, .ior, .ixor, .exch, .cas, .fadd]).getD k .add
    .atomic op (if op = .fadd then .f32 else if n = 8 then (if sg then .i64 else .n64) else if sg then .i32 else .n32)

def FabOp_kind (o : FabOp) : Nat :=
  match o with
  | .read => kRead
  | .write => kWrite
  | .atomic .. => kAtomic

/-- Bytes of a request that a lane of `LD.C`, `ST.C`, `ATOM.C` or `RED.C` can send. -/
def fabBytes (o : FabOp) (n : Nat) : Bool :=
  match o with
  | .atomic op _ => n = 4 || (n = 8 && decide (op ≠ .fadd))
  | _ => [1, 2, 4, 8, 16].contains n

/-- `FABRIC_INGRESS_REQUEST` (R209, R324): a read performs now; a write or atomic takes its place in home order, and the
reply carries its W. -/
def execFabricIngressRequest (port sdev sworld : Nat) (va : Dword) (n op : Nat) (data : List Byte) (s : State) : Out :=
  let o := fabOp op n
  if !(s.rdy && (s.port port).up && (s.port port).sync && fabBytes o n) then .next s
  else
    let s0 := s.applyDue
    match s0.ingress sdev sworld va n (FabOp_kind o) with
    | .error c => .next (s0.answer (.fabric sdev (some c) [] s.gtc))
    | .ok (w, pa) =>
      let src := 1024 + port
      let turn := s0.mayServe (linesOf pa n) src s0.nextId (o ≠ .read)
      let s0 := s0.serve (linesOf pa n) src s0.nextId (o = .read)
      if s0.owned none (linesOf pa n) || !turn then .next s
      else
        match o with
        | .read => .next (s0.answer (.fabric sdev none (loadWords (s0.seen (some w) w pa n) false) s.gtc))
        | .write =>
          let (id, s1) := s0.fresh
          let t := s1.wAt s.gtc pa n
          let s2 := s1.arrive id w 0 .lead leadGrp 0 pa n (.store ((data ++ List.replicate n 0).take n)) none false true
          .next (s2.answer (.fabric sdev none [] t))
        | .atomic a ty =>
          let (id, s1) := s0.fresh
          let b := w64 (getLe data 0 n)
          let c := w64 (getLe data n n)
          .next (s1.arrive id w 0 .lead leadGrp 0 pa n (.atomic a ty [(.out sdev, b, c)]) none false true)

/-! ### Replies (R189, R209, R210) -/

/-- Words that a reply brings to an access: a load's value, an atomic's old values. -/
def remoteDeliver (op : FOp) (data : List Byte) : List (Tgt × List Word) :=
  match op with
  | .load t n sx => [(t, loadWords (data.take n) sx)]
  | .atomic _ ty ps =>
    let n := if ty.wide then 8 else 4
    (ps.zipIdx).map fun p => (p.1.1, wordsOfVal ty.wide (leNat ((data.drop (n * p.2)).take n)))
  | _ => []

/-- Bytes a reply must bring. -/
def remoteBytes (op : FOp) : Nat :=
  match op with
  | .load _ n _ => n
  | .atomic _ ty ps => ps.length * if ty.wide then 8 else 4
  | _ => 0

/-- A reply that succeeds: what it brings is delivered, and its time is known at the requester (R124). -/
def State.remoteDone (s : State) (r : Remote) (data : List Byte) (w : Nat) : State :=
  let s1 := (remoteDeliver r.op data).foldl (fun s d => s.deliver d.1 d.2)
    { s with egress := s.egress.filter fun x => decide (x.id ≠ r.id) }
  (s1.settle r.id r.team r.who r.grp r.launch w true).lateDone r.issue

/-- Port of a request that loops back: that of the egress store its escort stands in, while it may send, or the first that may
(R323). -/
def State.loopPort (s : State) (r : Remote) : Nat :=
  match r.esc.bind fun e => s.escLane? e.1 e.2 with
  | some (_, l) => (match l.hold with
    | .egress k => if s.upPorts.contains k then k else s.upPorts.headD 0
    | _ => s.upPorts.headD 0)
  | none => s.upPorts.headD 0

/-- A request whose capability names this device loops back through its own ingress (R209). -/
def State.loopBack (s : State) (r : Remote) : State :=
  match s.ingress s.fabid r.world r.va r.n (match r.op with | .load .. => kRead | .store _ => kWrite | _ => kAtomic) with
  | .error c => s.remoteFault r c
  | .ok (w, pa) =>
    let src := 1024 + s.loopPort r
    if s.owned none (linesOf pa r.n) || !s.mayServe (linesOf pa r.n) src r.id (FOp_writes r.op) then s
    else
      let s := s.serve (linesOf pa r.n) src r.id (!FOp_writes r.op)
      match r.op with
      | .load .. => s.remoteDone r (s.seen (some w) w pa r.n) s.gtc
      | op =>
        (({ s with egress := s.egress.filter fun x => decide (x.id ≠ r.id) }.arriveAt r.floor r.id w r.team r.who r.grp r.launch
          pa r.n op none false true).homeLanes r.id [(r.grp, r.lane)]).lateDone r.issue

/-- Requests that act together: the atomics of one instruction that name one word, in ascending home lane (R192). -/
def State.together (s : State) (r : Remote) : List Remote :=
  match r.op with
  | .atomic .. => s.egress.filter fun x => x.issue = r.issue && x.peer = r.peer && !x.group && decide (x.va = r.va)
  | _ => [r]

/-- A request has left, through a port that is up and synchronised: what it waits for is known, and its escort stands in an
egress store (R126, R189, R324, R325). -/
def State.remoteSent (s : State) (r : Remote) : Bool :=
  r.after = [] && decide (r.floor ≤ s.gtc) && s.upPorts ≠ [] && (match r.esc with
    | none => true
    | some (req, key) => match s.escLane? req key with
      | some (_, l) => (match l.hold with | .egress _ => true | _ => false)
      | none => true)

/-- Requests that left earlier for this device itself are delivered earlier: those of one device come in the order in which it
issued them (R324). -/
def State.loopTurn (s : State) (r : Remote) : Bool :=
  s.egress.all fun x => !(x.peer = s.fabid && !x.group && decide (x.id < r.id)) || !s.remoteSent x

/-- `REMOTE_REPLY`: an error with the peer's class, or data and the time that the remote home reports. A loop-back takes
both from this device. -/
def execRemoteReply (id : Nat) (err : Option Nat) (data : List Byte) (w : Dword) (s : State) : Out :=
  match s.egress.find? fun r => r.id = id with
  | none => .next s
  | some r =>
    if !s.remoteSent r then .next s
    else if r.peer = s.fabid && !r.group then
      .next (if (s.together r).all s.remoteSent && ((s.together r).head?.any s.loopTurn) then
        (s.together r).foldl State.loopBack s.applyDue else s)
    else
      match err with
      | some c => .next (s.remoteFault r c)
      | none =>
        if data.length = remoteBytes r.op && decide (r.floor ≤ w.toNat) then .next (s.remoteDone r data w.toNat) else .next s

/-! ### Ports (R323, R325, R327) -/

/-- `PORT_DOWN` (R323). -/
def execPortDown (port : Nat) (s : State) : Out :=
  if s.powered && decide (port < 16) && (s.port port).up then
    .next ((s.modPort port fun p => { p with up := false, sync := false }).signal 0 5)
  else .next s

/-- `PORT_UP` (R327): not used for requests and replies until synchronised (R325). -/
def execPortUp (port : Nat) (s : State) : Out :=
  if s.powered && decide (port < 16) && !(s.port port).up then .next ((s.modPort port fun p => { p with up := true }).signal 0 5)
  else .next s

/-- `TIME_SYNC` (R325): the GTC comes within 64 ns of the fabric time and never runs back; by how much it differs is a
free value (log 7). A GTC that is further ahead is not synchronised. -/
def execTimeSync (port : Nat) (now : Dword) (s : State) : Out :=
  if s.gtcOn && s.clocks && decide (port < 16) && (s.port port).up then
    let t := max s.gtc (now.toNat + (Config.freeWord s.free).toNat % 129 - 64)
    let s1 := s.modPort port fun p => { p with sync := decide (t ≤ now.toNat + 64) }
    .next { s1 with gtc := t, served := if t = s.gtc then s.served else [], free := s.free + 1 }.applyDue
  else .next s

def popcount8 (m : BitVec 8) : Nat := ((List.range 8).filter fun i => m.getLsbD i).length

/-- Weak samples in a row, per lane. -/
def nextRuns (runs : Tab Nat) (weak : BitVec 8) : Tab Nat :=
  (List.range 8).foldl (fun t i => tabSet t i (if weak.getLsbD i then tabGet runs i 0 + 1 else 0) 0) []

/-- Lanes below threshold in a sample, the replaced one apart: a corrected-error rate above CERATE, or an eye margin below
MARGIN (R327). -/
def Port_weakLanes (p : Port) (lanes : List (Nat × Nat)) : BitVec 8 :=
  (lanes.take 8).zipIdx.foldl (fun m x =>
    setBit8 m x.2 (decide (x.2 ≠ p.spared) && (decide (x.1.1 > p.cerate) || decide (x.1.2 < p.margin)))) 0

/-- The lane chosen for sparing after a sample: the one chosen before, or the lowest that is weak three times in a row. -/
def Port_choose (p : Port) (gtc : Nat) : Port :=
  if p.spared ≠ 15 || p.cand.isSome then p
  else
    match (List.range 8).find? fun i => decide (tabGet p.runs i 0 ≥ 3) with
    | some i => { p with cand := some i, candAt := gtc }
    | none => p

/-- `LANE_SAMPLE` (R327): the corrected-error rate and the eye margin of each lane. A lane weak in three samples in a row
is chosen while the spare is free; a further one is reported. -/
def execLaneSample (port : Nat) (lanes : List (Nat × Nat)) (s : State) : Out :=
  if !(s.powered && decide (port < 16) && (s.port port).up) then .next s
  else
    let p := s.port port
    let m := Port_weakLanes p lanes
    let q := Port_choose { p with weak := popcount8 m, runs := nextRuns p.runs m } s.gtc
    let s1 := s.modPort port fun _ => q
    let more := (List.range 8).any fun i => decide (tabGet q.runs i 0 = 3) && decide (q.cand ≠ some i)
    .next (if more then s1.signal 0 5 else s1)

/-- The swap of the chosen lane for the spare: WEAK counts the lanes that are weak still (R327). -/
def State.spareLane (s : State) (port i : Nat) : State :=
  (s.modPort port fun p => { p with spared := i, cand := none, runs := tabDel p.runs i, weak := (tabDel p.runs i).length }).signal 0 5

/-- `QUIET_POINT` (R327). -/
def execQuietPoint (port : Nat) (s : State) : Out :=
  match (s.port port).cand with
  | some i => if decide (port < 16) && (s.port port).up then .next (s.spareLane port i) else .next s
  | none => .next s

/-- `FORCED_IDLE_GAP` (R327): after QUIET without a quiet point. -/
def execForcedIdleGap (port : Nat) (s : State) : Out :=
  match (s.port port).cand with
  | some i =>
    if decide (port < 16) && (s.port port).up && decide (s.gtc ≥ (s.port port).candAt + 1000 * (s.port port).quiet) then
      .next (s.spareLane port i)
    else .next s
  | none => .next s

end Sys2Proof.Machine
end

