-- ==== Sys2Proof/Machine/Power.lean ====
section
/-! DEFINITION. Power and cooling (R329, R330). -/

namespace Sys2Proof.Machine

/-- A DVFS point lowered in one die's four bits. -/
def lowerPoints (p : BitVec 16) : BitVec 16 :=
  BitVec.ofNat 16 ((List.range 4).foldl (fun a d => a + (p.toNat / 16 ^ d % 16 - 1) * 16 ^ d) 0)

/-- `DVFS_WINDOW` (R329): the points and the junction temperature of a window; they change only timing. -/
def execDvfsWindow (points temp : BitVec 16) (s : State) : Out :=
  if s.clocks then .next { s with point := points, temp := temp } else .next s

/-- `THERMAL_THROTTLE` (R329): above 95 °C, in units of 1/16 °C. -/
def execThermalThrottle (s : State) : Out :=
  if s.clocks && decide (s.temp.toNat > 95 * 16) then .next ({ s with point := lowerPoints s.point }.signal 0 6) else .next s

/-- What the stopped clocks leave unfinished: no access of an aborted launch acts any more (R131, R330). -/
def State.haltAccesses (s : State) : State :=
  { s with flights := [], walks := [], probes := [], engines := [], escs := [], egress := [], fences := [], lates := [] }

/-- `THERMAL_TRIP` (R330): at 110 °C the clocks stop, every launch is aborted, THERM is set and RDY clears. The launches'
completion entries follow. -/
def execThermalTrip (s : State) : Out :=
  if s.clocks && decide (s.temp.toNat ≥ 110 * 16) then
    let s1 := (s.launches.filter fun l => !Launch_over l).foldl (fun s l => s.abortLaunch l.id) s
    .next ({ s1.haltAccesses with clocks := false, therm := true, rdy := false }.signal 0 6)
  else .next s

end Sys2Proof.Machine
end

