-- ==== Sys2Proof/Machine/Host.lean ====
section
/-! DEFINITION. The host's BARs (R307): registers written and read through world pages and the device page, and the
device-memory window (R309). -/

namespace Sys2Proof.Machine

/-! ### World registers (R248, R288, R313) -/

/-- FSCHED (R248). -/
def World_setFsched (w : World) (v : Dword) : World :=
  { w with
    weight := if field v 32 8 = 0 then w.weight else field v 32 8,
    slice := if field v 16 16 = 0 then w.slice else field v 16 16, age := field v 8 8 }

def World_fsched (w : World) : Dword := w64 (w.age * 2 ^ 8 + w.slice * 2 ^ 16 + w.weight * 2 ^ 32)

/-- EVBASE: the event array lies in HBM (R244, R313). -/
def World_setEvbase (w : World) (v : Dword) : World :=
  let a := field v 0 48
  if a % 65536 = 0 && inHbm a 65536 then { w with evbase := w64 a } else w

/-- WSEC: PROT only while the TDI is unlocked (R313). -/
def World_setWsec (w : World) (v : Dword) : World :=
  { w with hostlnk := v.getLsbD 2, prot := if w.tdi = .unlocked then v.getLsbD 1 else w.prot }

/-- KVFLBASE: a multiple of 8 in HBM, while the list is empty (R288). -/
def World_setFlbase (w : World) (key : Nat) (v : Dword) : World :=
  let l := World_list w key
  let a := field v 0 48
  if l.count = 0 && a % 8 = 0 && inHbm a 8 then World_setList w key { l with base := w64 a } else w

/-- KVFLCNT: CAP not below COUNT (R288). -/
def World_setFlcnt (w : World) (key : Nat) (v : Dword) : World :=
  let l := World_list w key
  if l.count ≤ field v 32 32 then World_setList w key { l with cap := field v 32 32 } else w

/-- KVQUOTA (R288). -/
def World_setQuota (w : World) (t : Nat) (v : Dword) : World :=
  { w with quota := w.quota.set t (field v 0 32), borrow := w.borrow.set t (field v 32 32) }

/-- Registers of a world page that the physical function alone writes (R248, R288, R313), those of FCORES, L2WAYS,
KVPUSH and KVRCL apart. -/
def World_setReg (w : World) (off : Nat) (v : Dword) : World :=
  if off = 0x4000 then World_setFsched w v
  else if off = 0x4028 then (if v.toNat % 65536 = 0 then { w with hwin := v } else w)
  else if off = 0x4030 then World_setEvbase w v
  else if off = 0x4038 then { w with hbmch := v }
  else if off = 0x4040 then World_setWsec w v
  else if 0x5000 ≤ off ∧ off < 0x5040 then World_setFlbase w ((off - 0x5000) / 8) v
  else if 0x5040 ≤ off ∧ off < 0x5080 then World_setFlcnt w ((off - 0x5040) / 8) v
  else if 0x50C0 ≤ off ∧ off < 0x50D0 then World_setQuota w ((off - 0x50C0) / 8) v
  else w

/-- Offsets of the registers that R308 locks, those in queue blocks apart. -/
def lockedOff (off : Nat) : Bool := (0x4000 ≤ off && off < 0x4050) || (0x5000 ≤ off && off < 0x50E8)

/-! ### Queue registers (R237) -/

/-- LQBASE, LQCBASE, LQWORK or LQSLOTSZ, while EN = 0. -/
def Queue_setBase (x : Queue) (i : Nat) (v : Dword) : Queue :=
  if x.en then x
  else if i = 1 then (if v.toNat % 4096 = 0 then { x with base := v } else x)
  else if i = 2 then (if v.toNat % 64 = 0 then { x with cbase := v } else x)
  else if i = 3 then (if v.toNat % 4096 = 0 then { x with work := v } else x)
  else if i = 4 then (if field v 0 32 % 4096 = 0 then { x with slotsz := field v 0 32 } else x)
  else x

/-- A write of register `i` of a queue block, by a function, in its turn (R129, R237, R238, R261, R311). -/
def State.queueWrite (s : State) (fn q i : Nat) (v : Dword) : State :=
  if i = 0 || i = 7 then
    if s.queueTurn q (512 + fn) then
      let s1 := s.queueServe q (512 + fn)
      if i = 0 then s1.lqctl fn q v else s1.notify fn q (lo v)
    else s
  else if fn = 0 || (decide ((s.queue q).slots ≠ 0) && decide ((s.queue q).owner = fn)) then
    s.modQueue q fun x => Queue_setBase x i v
  else s

/-- Configured queues of a function, ascending (R307). -/
def State.queuesOf (s : State) (w : Nat) : List Nat :=
  (s.queues.filter fun q => decide (q.2.slots ≠ 0) && decide (q.2.owner = w)).map (·.1)

/-- A register of a queue block as it reads; LQNOTIFY reads as zero. -/
def Queue_reg (x : Queue) (i : Nat) : Dword :=
  match i with
  | 0 => Queue_ctl x
  | 1 => x.base
  | 2 => x.cbase
  | 3 => x.work
  | 4 => w64 x.slotsz
  | 5 => zext32 x.head
  | 6 => zext32 x.tail
  | _ => 0

/-! ### World pages -/

/-- A write to world page `w` through function `fn`, of eight bytes at a multiple of eight (R307). -/
def State.worldWrite (s : State) (fn w off : Nat) (v : Dword) : Out :=
  if off % 8 ≠ 0 || w > 64 then .next s
  else if off < 0x2B0 then
    -- MEMCTL is the physical function's alone (R120)
    (if fn ≠ 0 && off = 0x200 then .next s else .next ((s.ctlWrite w (off / 8) v none).reported s w))
  else if lockedOff off && fn ≠ 0 then .next s
  else if lockedOff off && s.lockedWorld w then .next (s.tdiError w)
  else if 0x4008 ≤ off && off < 0x4028 then execFcoresWrite w ((off - 0x4008) / 8) v s
  else if off = 0x4048 then execL2waysWrite w v s
  else if 0x5080 ≤ off && off < 0x50C0 then execKvpush w (decide (off ≥ 0x50A0)) (BitVec.ofNat 2 ((off - 0x5080) / 8)) v s
  else if off = 0x50E0 then execKvrclWrite w v s
  else if lockedOff off then .next ((s.modWorld w fun x => World_setReg x off v).reported s w)
  else if 0x6000 ≤ off && off < 0x6400 then
    match (s.queuesOf w)[(off - 0x6000) / 64]? with
    | some q => .next (s.queueWrite fn q (off % 64 / 8) v)
    | none => .next s
  else if 0x8000 ≤ off && off < 0x8080 then
    -- no Access column gives the physical function another world's vectors (R311)
    if fn ≠ w then .next s else .next ((s.modWorld w fun x => { x with msix := memWrite x.msix (off - 0x8000) (leBytes 8 v.toNat) }).flushVectors w)
  else .next s

/-- CTXERR, ERRPC and ERRWORD of a world page (R214), TLBINV (R234), and the registers of R233 that a world has. -/
def State.ctlRead (s : State) (w n : Nat) : Dword :=
  let x := s.world w
  match n with
  | 0x001 => x.lastErr.setWidth 64
  | 0x002 => x.lastPc
  | 0x003 => zext32 x.lastWord
  | 0x030 => if x.hostInvs = [] then x.invT else 0
  | n => World_ctl x n

/-- A read of a world page (R307). -/
def State.worldRead (s : State) (w off : Nat) : Dword :=
  let x := s.world w
  if off % 8 ≠ 0 || w > 64 then 0
  else if off < 0x2B0 then s.ctlRead w (off / 8)
  else if off = 0x4000 then World_fsched x
  else if 0x4008 ≤ off && off < 0x4028 then (x.fcores.extractLsb' (8 * (off - 0x4008)) 64)
  else if off = 0x4028 then x.hwin
  else if off = 0x4030 then x.evbase
  else if off = 0x4038 then x.hbmch
  else if off = 0x4040 then w64 (World_wsec x)
  else if off = 0x4048 then x.l2ways.setWidth 64
  else if 0x5000 ≤ off && off < 0x5040 then (World_list x ((off - 0x5000) / 8)).base
  else if 0x5040 ≤ off && off < 0x5080 then
    w64 ((World_list x ((off - 0x5040) / 8)).count + (World_list x ((off - 0x5040) / 8)).cap * 2 ^ 32)
  else if 0x50C0 ≤ off && off < 0x50D0 then
    w64 (x.quota.getD ((off - 0x50C0) / 8) 0 + x.borrow.getD ((off - 0x50C0) / 8) 0 * 2 ^ 32)
  else if 0x50D0 ≤ off && off < 0x50E0 then w64 (x.used.getD ((off - 0x50D0) / 8) 0)
  else if off = 0x50E0 then x.kvrcl.setWidth 64
  else if 0x6000 ≤ off && off < 0x6400 then
    match (s.queuesOf w)[(off - 0x6000) / 64]? with
    | some q => Queue_reg (s.queue q) (off % 64 / 8)
    | none => 0
  else if 0x8000 ≤ off && off < 0x8080 then w64 (leNat (memBytes x.msix (off - 0x8000) 8))
  else if off = 0x9000 then x.msiPend.setWidth 64
  else 0

/-! ### The device page -/

/-- DEVSTAT (R305). -/
def State.devstat (s : State) : Dword :=
  w64 ((if s.rdy then 1 else 0) + (if s.memz then 2 else 0) + (if s.fail then 4 else 0) + (if s.therm then 8 else 0) +
    s.stage * 2 ^ 16 + s.failcode.toNat * 2 ^ 24)

/-- PORTST and PORTCFG (R327). -/
def Port_st (p : Port) : Dword := w64 ((if p.up then 2 else 0) + (if p.sync then 4 else 0) + p.weak * 2 ^ 4 + p.spared * 2 ^ 8)
def Port_cfg (p : Port) : Dword := w64 (p.cerate + p.margin * 2 ^ 16 + p.quiet * 2 ^ 32)
def Port_setCfg (p : Port) (v : Dword) : Port := { p with cerate := field v 0 16, margin := field v 16 16, quiet := field v 32 32 }

/-- STATE of MIGCTL (R322). -/
def Mig_code (m : Mig) : Nat :=
  match m with
  | .idle => 0
  | .sent => 1
  | .done => 2
  | .waitrel => 3
  | .run => 4
  | .lost => 5

/-- CMD of MIGCTL (R322). -/
def State.migCmd (s : State) (w cmd : Nat) : Out :=
  match cmd with
  | 1 => execMigExport w s
  | 2 => execMigImport w s
  | 3 => execMigConfirm w s
  | 4 => execMigRelease w s
  | 5 => execMigClear w s
  | _ => .next s

/-- MIGSESS, MIGWIN, MIGBUF, MIGLEN (R322). -/
def World_setMigReg (x : World) (i : Nat) (v : Dword) : World :=
  match i with
  | 1 => { x with migsess := field v 0 8 }
  | 2 => if field v 0 32 = 0 then x else { x with migwin := field v 0 32 }
  | 3 => if v.toNat % 4096 = 0 then { x with migbuf := v } else x
  | 4 => { x with miglen := v }
  | _ => x

/-- POWER.LIMIT (R329). -/
def State.setLimit (s : State) (v : Dword) : State :=
  let l := field v 0 16
  if 300 ≤ l ∧ l ≤ (if Config.isModule then 1600 else 1500) then { s with limit := l } else s

/-- Registers of a die's block (R186, R222, R315). -/
def Die_write (d : Die) (i : Nat) (v : Dword) : Die :=
  match i with
  | 0 => Die_setEscrpl d v
  | 1 => Die_setEscto d v
  | 16 => { d with thresh := field v 0 32 }
  | i => if 8 ≤ i ∧ i < 16 then { d with errs := tabSet d.errs (i - 8) 0 0, errSig := tabSet d.errSig (i - 8) 0 0 } else d

def Die_read (d : Die) (i : Nat) : Dword :=
  match i with
  | 0 => Die_escrpl d
  | 1 => Die_escto d
  | 16 => w64 d.thresh
  | i => if 8 ≤ i ∧ i < 16 then w64 (tabGet d.errs (i - 8) 0) else 0

/-- Writable bits of an FBIND entry (R324). -/
def fbindMask : Dword := 0x8000000FFFC01FFF

/-- A write to the device page (R307). -/
def State.deviceWrite (s : State) (off : Nat) (v : Dword) : Out :=
  if off % 8 ≠ 0 then .next s
  else if off = 0x10 then .next { s with fabid := field v 0 13 }
  else if 0x1000 ≤ off && off < 0x1800 then .next (s.modCore ((off - 0x1000) / 8) fun c => { c with budget := field v 0 24 })
  else if 0x2000 ≤ off && off < 0x2400 then .next (s.modDie ((off - 0x2000) / 256) fun d => Die_write d (off % 256 / 8) v)
  else if 0x3000 ≤ off && off < 0x4040 then
    (if off % 64 = 0 then s.migCmd ((off - 0x3000) / 64) (field v 0 3)
     else .next (s.modWorld ((off - 0x3000) / 64) fun x => World_setMigReg x (off % 64 / 8) v))
  else if 0x4800 ≤ off && off < 0x5000 then .next { s with fbind := tabSet s.fbind ((off - 0x4800) / 8) (v &&& fbindMask) 0 }
  else if 0x5000 ≤ off && off < 0x5400 then
    (if off % 64 = 8 then .next (s.modPort ((off - 0x5000) / 64) fun p => Port_setCfg p v) else .next s)
  else if off = 0x5800 then .next (s.setLimit v)
  else if 0x10000 ≤ off && off < 0x20000 then .next (s.queueWrite 0 ((off - 0x10000) / 64) (off % 64 / 8) v)
  else .next s

/-- A read of the device page (R307). -/
def State.deviceRead (s : State) (off : Nat) : Dword :=
  if off % 8 ≠ 0 then 0
  else if off = 0 then s.devstat
  else if off = 8 then w64 s.mgen
  else if off = 0x10 then w64 s.fabid
  else if 0x1000 ≤ off && off < 0x1800 then Core_escbud (s.core ((off - 0x1000) / 8))
  else if 0x2000 ≤ off && off < 0x2400 then Die_read (s.die ((off - 0x2000) / 256)) (off % 256 / 8)
  else if 0x2400 ≤ off && off < 0x2430 then w64 (slm ((off - 0x2400) / 8))
  else if 0x3000 ≤ off && off < 0x4040 then
    let x := s.world ((off - 0x3000) / 64)
    match off % 64 / 8 with
    | 0 => w64 (Mig_code x.mig * 2 ^ 8)
    | 1 => w64 x.migsess
    | 2 => w64 x.migwin
    | 3 => x.migbuf
    | 4 => x.miglen
    | _ => 0
  else if 0x4800 ≤ off && off < 0x5000 then tabGet s.fbind ((off - 0x4800) / 8) 0
  else if 0x5000 ≤ off && off < 0x5400 then
    (if off % 64 = 0 then Port_st (s.port ((off - 0x5000) / 64)) else if off % 64 = 8 then Port_cfg (s.port ((off - 0x5000) / 64)) else 0)
  else if off = 0x5800 then w64 (s.limit + s.point.toNat * 2 ^ 32 + s.temp.toNat * 2 ^ 48)
  else if 0x10000 ≤ off && off < 0x20000 then Queue_reg (s.queue ((off - 0x10000) / 64)) (off % 64 / 8)
  else 0

/-! ### BAR0 (R307) -/

/-- `REGISTER_WRITE`: eight bytes at an offset of a function's BAR0. -/
def execRegisterWrite (fn offset : Nat) (val : Dword) (s : State) : Out :=
  if !s.powered || fn > 64 then .next s
  else if fn ≠ 0 then (if offset < 0x10000 then s.worldWrite fn fn offset val else .next s)
  else if offset < 0x20000 then s.deviceWrite offset val
  else if offset < 0x430000 then s.worldWrite 0 ((offset - 0x20000) / 0x10000) (offset % 0x10000) val
  else .next s

/-- A read of eight bytes of a function's BAR0, which link 0 carries. No Access column gives the physical function another
world's vectors (R311). -/
def State.barRead (s : State) (fn offset : Nat) : Dword :=
  if fn ≠ 0 then (if offset < 0x10000 then s.worldRead fn offset else 0)
  else if offset < 0x20000 then s.deviceRead offset
  else if 0x30000 ≤ offset && decide (0x8000 ≤ offset % 0x10000) then 0
  else if offset < 0x430000 then s.worldRead ((offset - 0x20000) / 0x10000) (offset % 0x10000)
  else 0

/-- `LOCKED_REGISTER_WRITE`, by the physical function: the write of R307, which R308 turns into ERROR while locked. -/
def execLockedRegisterWrite (world offset : Nat) (val : Dword) (s : State) : Out := s.worldWrite 0 world offset val

/-! ### BAR2 (R309) -/

/-- Whether a function's window traffic is served in its TDI state (R308). -/
def State.bar2Open (s : State) (fn : Nat) (viaIde : Bool) : Bool :=
  match (s.world fn).tdi with
  | .unlocked => true
  | .run => viaIde
  | _ => false

/-- A transaction of the window: one to 4,096 bytes within 4 KiB, inside 16 GiB. -/
def bar2Shape (fn off n : Nat) : Bool :=
  decide (fn ≤ 64) && decide (1 ≤ n) && decide (off % 4096 + n ≤ 4096) && decide (off + n ≤ 2 ^ 34)

/-- Virtual address of the window (R309). -/
def State.bar2Va (s : State) (fn off : Nat) : Dword := (s.world fn).hwin + w64 off

/-- The record of a window fault (R309, R335). -/
def State.bar2Fault (s : State) (fn off cls kind : Nat) : State :=
  (s.devRecord fn { cls := cls, kind := kind, addr := s.bar2Va fn off, world := fn, source := 512 + fn }).2

/-- `BAR2_READ` (R309): it performs now, which is at or after the completion of every earlier write of the function; as
one that reads a protected world's frames it reads ciphertext (R321). -/
def execBar2Read (fn off n : Nat) (viaIde : Bool) (s : State) : Out :=
  if !s.powered || !bar2Shape fn off n then .next s
  else if !s.rdy || !s.bar2Open fn viaIde then .next (s.answer .unsupported)
  else if s.gtc < (s.world fn).bar2T then .next s
  else
    let s0 := s.applyDue
    match s0.devAcc fn (s0.bar2Va fn off) kRead with
    | .error c => .next ((s0.bar2Fault fn off c 0).answer .unsupported)
    | .ok pa =>
      if s0.owned none (linesOf pa n) || !s0.mayServe (linesOf pa n) (512 + fn) s0.nextId false then .next s
      else .next ((s0.serve (linesOf pa n) (512 + fn) s0.nextId true).answer (.data (s0.seen none fn pa n)))

/-- `BAR2_WRITE` (R309). -/
def execBar2Write (fn off : Nat) (data : List Byte) (viaIde : Bool) (s : State) : Out :=
  let n := data.length
  if !s.rdy || !bar2Shape fn off n || !s.bar2Open fn viaIde then .next s
  else
    match s.devAcc fn (s.bar2Va fn off) kWrite with
    | .error c => .next (s.bar2Fault fn off c 1)
    | .ok pa =>
      if s.owned none (linesOf pa n) || !s.mayServe (linesOf pa n) (512 + fn) s.nextId true then .next s
      else
        let (id, s1) := (s.serve (linesOf pa n) (512 + fn) s.nextId false).fresh
        let w := s1.wAt s.gtc pa n
        let s2 := s1.arrive id fn 0 .lead leadGrp 0 pa n (.store data) none true false
        .next (s2.modWorld fn fun x => { x with bar2T := max x.bar2T w })

end Sys2Proof.Machine
end

