-- ==== Sys2Proof/Machine/Dispatch.lean ====
section
/-! DEFINITION. One arm per instruction and event of the opcode table. -/

namespace Sys2Proof.Machine

/-- The effect of an instruction on the machine, its issuing context standing in `cur`; an event that is not enabled has
none. -/
def exec (i : Instr) (s : State) : Host.Outcome State Fault Refusal :=
  match i with
  | .mov stl d a => Sys2Proof.Machine.execMov stl d a s
  | .movi stl d imm => Sys2Proof.Machine.execMovi stl d imm s
  | .iadd stl d a b => Sys2Proof.Machine.execIadd stl d a b s
  | .isub stl d a b => Sys2Proof.Machine.execIsub stl d a b s
  | .imul stl d a b => Sys2Proof.Machine.execImul stl d a b s
  | .imulh stl d a b => Sys2Proof.Machine.execImulh stl d a b s
  | .imin stl d a b => Sys2Proof.Machine.execImin stl d a b s
  | .imax stl d a b => Sys2Proof.Machine.execImax stl d a b s
  | .iand stl d a b => Sys2Proof.Machine.execIand stl d a b s
  | .ior stl d a b => Sys2Proof.Machine.execIor stl d a b s
  | .ixor stl d a b => Sys2Proof.Machine.execIxor stl d a b s
  | .inot stl d a => Sys2Proof.Machine.execInot stl d a s
  | .shl stl d a b => Sys2Proof.Machine.execShl stl d a b s
  | .shr stl d a b => Sys2Proof.Machine.execShr stl d a b s
  | .sar stl d a b => Sys2Proof.Machine.execSar stl d a b s
  | .lea stl d a b => Sys2Proof.Machine.execLea stl d a b s
  | .fadd stl d a b => Sys2Proof.Machine.execFadd stl d a b s
  | .fsub stl d a b => Sys2Proof.Machine.execFsub stl d a b s
  | .fmul stl d a b => Sys2Proof.Machine.execFmul stl d a b s
  | .fmin stl d a b => Sys2Proof.Machine.execFmin stl d a b s
  | .fmax stl d a b => Sys2Proof.Machine.execFmax stl d a b s
  | .ftoi stl d a => Sys2Proof.Machine.execFtoi stl d a s
  | .itof stl d a => Sys2Proof.Machine.execItof stl d a s
  | .frnd stl d a => Sys2Proof.Machine.execFrnd stl d a s
  | .fcvtF16F32 stl d a => Sys2Proof.Machine.execFcvtF16F32 stl d a s
  | .fcvtF32F16 stl d a => Sys2Proof.Machine.execFcvtF32F16 stl d a s
  | .fcvtB16F32 stl d a => Sys2Proof.Machine.execFcvtB16F32 stl d a s
  | .fcvtF32B16 stl d a => Sys2Proof.Machine.execFcvtF32B16 stl d a s
  | .icmpI32 stl cc p a b => Sys2Proof.Machine.execIcmpI32 stl cc p a b s
  | .icmpN32 stl cc p a b => Sys2Proof.Machine.execIcmpN32 stl cc p a b s
  | .fcmpF32 stl cc p a b => Sys2Proof.Machine.execFcmpF32 stl cc p a b s
  | .pand stl p q r => Sys2Proof.Machine.execPand stl p q r s
  | .por stl p q r => Sys2Proof.Machine.execPor stl p q r s
  | .pxor stl p q r => Sys2Proof.Machine.execPxor stl p q r s
  | .pnot stl p q => Sys2Proof.Machine.execPnot stl p q s
  | .pmov stl p q => Sys2Proof.Machine.execPmov stl p q s
  | .bra stl off => Sys2Proof.Machine.execBra stl off s
  | .call stl d off => Sys2Proof.Machine.execCall stl d off s
  | .ret stl a => Sys2Proof.Machine.execRet stl a s
  | .brx stl a => Sys2Proof.Machine.execBrx stl a s
  | .exit stl => Sys2Proof.Machine.execExit stl s
  | .nop stl => Sys2Proof.Machine.execNop stl s
  | .yieldB stl => Sys2Proof.Machine.execYieldB stl s
  | .bkpt stl code => Sys2Proof.Machine.execBkpt stl code s
  | .ld32 stl d a disp => Sys2Proof.Machine.execLd32 stl d a disp s
  | .ld64 stl d a disp => Sys2Proof.Machine.execLd64 stl d a disp s
  | .ld128 stl d a disp => Sys2Proof.Machine.execLd128 stl d a disp s
  | .st32 stl d a disp => Sys2Proof.Machine.execSt32 stl d a disp s
  | .st64 stl d a disp => Sys2Proof.Machine.execSt64 stl d a disp s
  | .st128 stl d a disp => Sys2Proof.Machine.execSt128 stl d a disp s
  | .ld32Ro stl d a disp => Sys2Proof.Machine.execLd32Ro stl d a disp s
  | .ld128Ro stl d a disp => Sys2Proof.Machine.execLd128Ro stl d a disp s
  | .shflIdx stl d a b => Sys2Proof.Machine.execShflIdx stl d a b s
  | .shflUp stl d a b => Sys2Proof.Machine.execShflUp stl d a b s
  | .shflDown stl d a b => Sys2Proof.Machine.execShflDown stl d a b s
  | .shflXor stl d a b => Sys2Proof.Machine.execShflXor stl d a b s
  | .qxchH stl d a => Sys2Proof.Machine.execQxchH stl d a s
  | .qxchV stl d a => Sys2Proof.Machine.execQxchV stl d a s
  | .qxchD stl d a => Sys2Proof.Machine.execQxchD stl d a s
  | .ballot stl d q => Sys2Proof.Machine.execBallot stl d q s
  | .movExt x ty d a => Sys2Proof.Machine.execMovExt x ty d a s
  | .moviExt x ty d imm => Sys2Proof.Machine.execMoviExt x ty d imm s
  | .iaddExt x ty sat d a b => Sys2Proof.Machine.execIaddExt x ty sat d a b s
  | .isubExt x ty sat d a b => Sys2Proof.Machine.execIsubExt x ty sat d a b s
  | .imulExt x ty sat d a b => Sys2Proof.Machine.execImulExt x ty sat d a b s
  | .imulhExt x ty d a b => Sys2Proof.Machine.execImulhExt x ty d a b s
  | .imad x ty sat d a b c => Sys2Proof.Machine.execImad x ty sat d a b c s
  | .iminExt x ty d a b => Sys2Proof.Machine.execIminExt x ty d a b s
  | .imaxExt x ty d a b => Sys2Proof.Machine.execImaxExt x ty d a b s
  | .iabs x ty sat d a => Sys2Proof.Machine.execIabs x ty sat d a s
  | .ineg x ty sat d a => Sys2Proof.Machine.execIneg x ty sat d a s
  | .andExt x ty d a b => Sys2Proof.Machine.execAndExt x ty d a b s
  | .orExt x ty d a b => Sys2Proof.Machine.execOrExt x ty d a b s
  | .xorExt x ty d a b => Sys2Proof.Machine.execXorExt x ty d a b s
  | .notExt x ty d a => Sys2Proof.Machine.execNotExt x ty d a s
  | .shlExt x ty d a b => Sys2Proof.Machine.execShlExt x ty d a b s
  | .shrExt x ty d a b => Sys2Proof.Machine.execShrExt x ty d a b s
  | .sarExt x ty d a b => Sys2Proof.Machine.execSarExt x ty d a b s
  | .bfx x ty d a b => Sys2Proof.Machine.execBfx x ty d a b s
  | .bfi x ty d a b c => Sys2Proof.Machine.execBfi x ty d a b c s
  | .popc x ty d a => Sys2Proof.Machine.execPopc x ty d a s
  | .clz x ty d a => Sys2Proof.Machine.execClz x ty d a s
  | .brev x ty d a => Sys2Proof.Machine.execBrev x ty d a s
  | .leaExt x ty k d a b => Sys2Proof.Machine.execLeaExt x ty k d a b s
  | .sel x ty d a b q nq => Sys2Proof.Machine.execSel x ty d a b q nq s
  | .faddExt x ty m d a b => Sys2Proof.Machine.execFaddExt x ty m d a b s
  | .fsubExt x ty m d a b => Sys2Proof.Machine.execFsubExt x ty m d a b s
  | .fmulExt x ty m d a b => Sys2Proof.Machine.execFmulExt x ty m d a b s
  | .ffma x ty m d a b c => Sys2Proof.Machine.execFfma x ty m d a b c s
  | .fminExt x ty ftz d a b => Sys2Proof.Machine.execFminExt x ty ftz d a b s
  | .fmaxExt x ty ftz d a b => Sys2Proof.Machine.execFmaxExt x ty ftz d a b s
  | .frndExt x ty m d a => Sys2Proof.Machine.execFrndExt x ty m d a s
  | .fdiv x m d a b => Sys2Proof.Machine.execFdiv x m d a b s
  | .rcp x m d a => Sys2Proof.Machine.execRcp x m d a s
  | .rsq x m d a => Sys2Proof.Machine.execRsq x m d a s
  | .sqrt x m d a => Sys2Proof.Machine.execSqrt x m d a s
  | .ex2 x m d a => Sys2Proof.Machine.execEx2 x m d a s
  | .lg2 x m d a => Sys2Proof.Machine.execLg2 x m d a s
  | .fcvt x dt sty m d a b => Sys2Proof.Machine.execFcvt x dt sty m d a b s
  | .ftoiExt x dt sty rm d a => Sys2Proof.Machine.execFtoiExt x dt sty rm d a s
  | .itofExt x dt sty m d a => Sys2Proof.Machine.execItofExt x dt sty m d a s
  | .icmp x ty cc p a b => Sys2Proof.Machine.execIcmp x ty cc p a b s
  | .fcmp x ty cc ftz p a b => Sys2Proof.Machine.execFcmp x ty cc ftz p a b s
  | .pandExt x p q nq r nr => Sys2Proof.Machine.execPandExt x p q nq r nr s
  | .porExt x p q nq r nr => Sys2Proof.Machine.execPorExt x p q nq r nr s
  | .pxorExt x p q nq r nr => Sys2Proof.Machine.execPxorExt x p q nq r nr s
  | .pnotExt x p q nq => Sys2Proof.Machine.execPnotExt x p q nq s
  | .pmovExt x p q nq => Sys2Proof.Machine.execPmovExt x p q nq s
  | .braExt x off => Sys2Proof.Machine.execBraExt x off s
  | .brxExt x a => Sys2Proof.Machine.execBrxExt x a s
  | .callExt x d off => Sys2Proof.Machine.execCallExt x d off s
  | .retExt x a => Sys2Proof.Machine.execRetExt x a s
  | .exitExt x => Sys2Proof.Machine.execExitExt x s
  | .yieldExt x => Sys2Proof.Machine.execYieldExt x s
  | .nopExt x => Sys2Proof.Machine.execNopExt x s
  | .rcvSet x slot => Sys2Proof.Machine.execRcvSet x slot s
  | .rcvWait x p slot n => Sys2Proof.Machine.execRcvWait x p slot n s
  | .barArv x n k => Sys2Proof.Machine.execBarArv x n k s
  | .barWait x n => Sys2Proof.Machine.execBarWait x n s
  | .barSync x n k => Sys2Proof.Machine.execBarSync x n k s
  | .cbar x m => Sys2Proof.Machine.execCbar x m s
  | .dqpush x b => Sys2Proof.Machine.execDqpush x b s
  | .dqpushAll x b => Sys2Proof.Machine.execDqpushAll x b s
  | .dqpop x gd p => Sys2Proof.Machine.execDqpop x gd p s
  | .mfsr x d sl => Sys2Proof.Machine.execMfsr x d sl s
  | .trap x code => Sys2Proof.Machine.execTrap x code s
  | .bkptExt x code => Sys2Proof.Machine.execBkptExt x code s
  | .waitt x a => Sys2Proof.Machine.execWaitt x a s
  | .shflIdxExt x ty seg d a b => Sys2Proof.Machine.execShflIdxExt x ty seg d a b s
  | .shflUpExt x ty seg d a b => Sys2Proof.Machine.execShflUpExt x ty seg d a b s
  | .shflDownExt x ty seg d a b => Sys2Proof.Machine.execShflDownExt x ty seg d a b s
  | .shflXorExt x ty seg d a b => Sys2Proof.Machine.execShflXorExt x ty seg d a b s
  | .qxchHExt x ty d a => Sys2Proof.Machine.execQxchHExt x ty d a s
  | .qxchVExt x ty d a => Sys2Proof.Machine.execQxchVExt x ty d a s
  | .qxchDExt x ty d a => Sys2Proof.Machine.execQxchDExt x ty d a s
  | .voteAny x seg p q => Sys2Proof.Machine.execVoteAny x seg p q s
  | .voteAll x seg p q => Sys2Proof.Machine.execVoteAll x seg p q s
  | .voteEq x seg p q => Sys2Proof.Machine.execVoteEq x seg p q s
  | .ballotExt x d q => Sys2Proof.Machine.execBallotExt x d q s
  | .matchX x ty d a => Sys2Proof.Machine.execMatchX x ty d a s
  | .compact x d q => Sys2Proof.Machine.execCompact x d q s
  | .gscan x ty opn ex seg d a => Sys2Proof.Machine.execGscan x ty opn ex seg d a s
  | .gred x ty opn seg d a => Sys2Proof.Machine.execGred x ty opn seg d a s
  | .ld x hint o fmt d a off => Sys2Proof.Machine.execLd x hint o fmt d a off s
  | .st x hint o fmt a off c => Sys2Proof.Machine.execSt x hint o fmt a off c s
  | .ldC x hint o w sx cap d a disp => Sys2Proof.Machine.execLdC x hint o w sx cap d a disp s
  | .stC x hint o w cap a disp c => Sys2Proof.Machine.execStC x hint o w cap a disp c s
  | .lde x hint o w d a off rp e => Sys2Proof.Machine.execLde x hint o w d a off rp e s
  | .atom x hint o op ty d a b c rp e => Sys2Proof.Machine.execAtom x hint o op ty d a b c rp e s
  | .red x hint o op ty a b => Sys2Proof.Machine.execRed x hint o op ty a b s
  | .atomC x hint o op ty cap d a b c rp e => Sys2Proof.Machine.execAtomC x hint o op ty cap d a b c rp e s
  | .redC x hint o op ty cap a b => Sys2Proof.Machine.execRedC x hint o op ty cap a b s
  | .chs x hint d a b rp e => Sys2Proof.Machine.execChs x hint d a b rp e s
  | .fnc x hint sc gd => Sys2Proof.Machine.execFnc x hint sc gd s
  | .waitf x hint ga => Sys2Proof.Machine.execWaitf x hint ga s
  | .acp x hint gd a b c => Sys2Proof.Machine.execAcp x hint gd a b c s
  | .sraff x hint k lsh lon a b c => Sys2Proof.Machine.execSraff x hint k lsh lon a b c s
  | .srind x hint k lsh lon sc a b c => Sys2Proof.Machine.execSrind x hint k lsh lon sc a b c s
  | .srprb x hint k rp => Sys2Proof.Machine.execSrprb x hint k rp s
  | .srstop x hint k => Sys2Proof.Machine.execSrstop x hint k s
  | .gath x hint km1 sc d a b rp e => Sys2Proof.Machine.execGath x hint km1 sc d a b rp e s
  | .scat x hint km1 sc a b c => Sys2Proof.Machine.execScat x hint km1 sc a b c s
  | .scatAdd x hint ty km1 sc a b c => Sys2Proof.Machine.execScatAdd x hint ty km1 sc a b c s
  | .capld x cd a disp => Sys2Proof.Machine.execCapld x cd a disp s
  | .capst x a disp cs => Sys2Proof.Machine.execCapst x a disp cs s
  | .capnar x cd ca b c mask => Sys2Proof.Machine.execCapnar x cd ca b c mask s
  | .caprst x cd => Sys2Proof.Machine.execCaprst x cd s
  | .capchk x p ca b c mask => Sys2Proof.Machine.execCapchk x p ca b c mask s
  | .csrr x d n => Sys2Proof.Machine.execCsrr x d n s
  | .csrw x n a => Sys2Proof.Machine.execCsrw x n a s
  | .eret x act => Sys2Proof.Machine.execEret x act s
  | .capmk x cd b => Sys2Proof.Machine.execCapmk x cd b s
  | .capmkRec x a b w => Sys2Proof.Machine.execCapmkRec x a b w s
  | .regroup x slot w => Sys2Proof.Machine.execRegroup x slot w s
  | .launch x gd a q => Sys2Proof.Machine.execLaunch x gd a q s
  | .evsig x b => Sys2Proof.Machine.execEvsig x b s
  | .evwait x a b => Sys2Proof.Machine.execEvwait x a b s
  | .mzero x md => Sys2Proof.Machine.execMzero x md s
  | .mrd x d md b => Sys2Proof.Machine.execMrd x d md b s
  | .mwr x md a b => Sys2Proof.Machine.execMwr x md a b s
  | .mwmk x d md => Sys2Proof.Machine.execMwmk x d md s
  | .mldb x ty bl a stride => Sys2Proof.Machine.execMldb x ty bl a stride s
  | .mgata x ty a b stride => Sys2Proof.Machine.execMgata x ty a b stride s
  | .mmq x md bl => Sys2Proof.Machine.execMmq x md bl s
  | .mms x md a gs c => Sys2Proof.Machine.execMms x md a gs c s
  | .mst x ty m gd a md stride => Sys2Proof.Machine.execMst x ty m gd a md stride s
  | .tcut x gd a bud sc => Sys2Proof.Machine.execTcut x gd a bud sc s
  | .infl x n a => Sys2Proof.Machine.execInfl x n a s
  | .attn x absorb gd a md n => Sys2Proof.Machine.execAttn x absorb gd a md n s
  | .kvapp x rm sat gd p a b c => Sys2Proof.Machine.execKvapp x rm sat gd p a b c s
  | .kvtrim x gd p a c => Sys2Proof.Machine.execKvtrim x gd p a c s
  | .kvqry x d a sl => Sys2Proof.Machine.execKvqry x d a sl s
  | .pcAging team grp => Sys2Proof.Machine.execPcAging team grp s
  | .pendingForcedDemotion core sub => Sys2Proof.Machine.execPendingForcedDemotion core sub s
  | .rcvTimeout team grp slot => Sys2Proof.Machine.execRcvTimeout team grp slot s
  | .scoreboardWriteback id => Sys2Proof.Machine.execScoreboardWriteback id s
  | .waitfRelease team grp => Sys2Proof.Machine.execWaitfRelease team grp s
  | .waittRelease team grp => Sys2Proof.Machine.execWaittRelease team grp s
  | .evwaitRelease team grp => Sys2Proof.Machine.execEvwaitRelease team grp s
  | .fncTokenWrite id => Sys2Proof.Machine.execFncTokenWrite id s
  | .teamAdmission team => Sys2Proof.Machine.execTeamAdmission team s
  | .bankConversion core bank => Sys2Proof.Machine.execBankConversion core bank s
  | .reply req lane => Sys2Proof.Machine.execReply req lane s
  | .refill team => Sys2Proof.Machine.execRefill team s
  | .homeRequest id => Sys2Proof.Machine.execHomeRequest id s
  | .storeCompletion id => Sys2Proof.Machine.execStoreCompletion id s
  | .tableWalk core world va => Sys2Proof.Machine.execTableWalk core world va s
  | .escortAccept req lane => Sys2Proof.Machine.execEscortAccept req lane s
  | .escortDrop req lane => Sys2Proof.Machine.execEscortDrop req lane s
  | .backoffExpiry req lane => Sys2Proof.Machine.execBackoffExpiry req lane s
  | .hop id => Sys2Proof.Machine.execHop id s
  | .remoteEscortTimeout id => Sys2Proof.Machine.execRemoteEscortTimeout id s
  | .localEscortTimeout req lane => Sys2Proof.Machine.execLocalEscortTimeout req lane s
  | .streamElementFetch team grp k lane => Sys2Proof.Machine.execStreamElementFetch team grp k lane s
  | .probePass id => Sys2Proof.Machine.execProbePass id s
  | .acpCompletion id => Sys2Proof.Machine.execAcpCompletion id s
  | .scatCompletion id => Sys2Proof.Machine.execScatCompletion id s
  | .matrixOpCompletion id => Sys2Proof.Machine.execMatrixOpCompletion id s
  | .mstCompletion id => Sys2Proof.Machine.execMstCompletion id s
  | .attnCompletion id => Sys2Proof.Machine.execAttnCompletion id s
  | .kvtrimFramePush id => Sys2Proof.Machine.execKvtrimFramePush id s
  | .conjugatorExpiry team => Sys2Proof.Machine.execConjugatorExpiry team s
  | .conjugateGroupFormation team => Sys2Proof.Machine.execConjugateGroupFormation team s
  | .integrityError launch line source => Sys2Proof.Machine.execIntegrityError launch line source s
  | .unconsumedError world line source => Sys2Proof.Machine.execUnconsumedError world line source s
  | .correctedError die cls => Sys2Proof.Machine.execCorrectedError die cls s
  | .faultRecordWrite world => Sys2Proof.Machine.execFaultRecordWrite world s
  | .faultQueueSetup world size val => Sys2Proof.Machine.execFaultQueueSetup world size val s
  | .fqheadWrite world val => Sys2Proof.Machine.execFqheadWrite world val s
  | .retry world tag => Sys2Proof.Machine.execRetry world tag s
  | .skip world tag => Sys2Proof.Machine.execSkip world tag s
  | .kill world tag => Sys2Proof.Machine.execKill world tag s
  | .translationInvalidate world val => Sys2Proof.Machine.execTranslationInvalidate world val s
  | .invalidateCompletion id => Sys2Proof.Machine.execInvalidateCompletion id s
  | .preemptionRequest team => Sys2Proof.Machine.execPreemptionRequest team s
  | .stopTime team => Sys2Proof.Machine.execStopTime team s
  | .saveDone team => Sys2Proof.Machine.execSaveDone team s
  | .restore team core => Sys2Proof.Machine.execRestore team core s
  | .lqnotify fn q val => Sys2Proof.Machine.execLqnotify fn q val s
  | .lqctlWrite fn q val => Sys2Proof.Machine.execLqctlWrite fn q val s
  | .launchRecordTake q => Sys2Proof.Machine.execLaunchRecordTake q s
  | .launchWaitCheck q => Sys2Proof.Machine.execLaunchWaitCheck q s
  | .dispatchDecision => Sys2Proof.Machine.execDispatchDecision s
  | .launchCompletion launch => Sys2Proof.Machine.execLaunchCompletion launch s
  | .eventSignal world ev => Sys2Proof.Machine.execEventSignal world ev s
  | .fcoresWrite world j val => Sys2Proof.Machine.execFcoresWrite world j val s
  | .sliceEnd => Sys2Proof.Machine.execSliceEnd s
  | .kvpush world tier cls val => Sys2Proof.Machine.execKvpush world tier cls val s
  | .kvrclWrite world val => Sys2Proof.Machine.execKvrclWrite world val s
  | .errorCounterWrite die cls => Sys2Proof.Machine.execErrorCounterWrite die cls s
  | .registerWrite fn offset val => Sys2Proof.Machine.execRegisterWrite fn offset val s
  | .perstDeassert => Sys2Proof.Machine.execPerstDeassert s
  | .firmwareCheck ok unit => Sys2Proof.Machine.execFirmwareCheck ok unit s
  | .pllLock ok unit => Sys2Proof.Machine.execPllLock ok unit s
  | .hbmTraining ok unit => Sys2Proof.Machine.execHbmTraining ok unit s
  | .memoryZeroing ok unit => Sys2Proof.Machine.execMemoryZeroing ok unit s
  | .gtcStart ok unit => Sys2Proof.Machine.execGtcStart ok unit s
  | .configurationRequest => Sys2Proof.Machine.execConfigurationRequest s
  | .bar2Read fn off n viaIde => Sys2Proof.Machine.execBar2Read fn off n viaIde s
  | .bar2Write fn off data viaIde => Sys2Proof.Machine.execBar2Write fn off data viaIde s
  | .lockInterface world sess => Sys2Proof.Machine.execLockInterface world sess s
  | .startInterface world sess => Sys2Proof.Machine.execStartInterface world sess s
  | .stopInterface world sess => Sys2Proof.Machine.execStopInterface world sess s
  | .functionLevelReset world => Sys2Proof.Machine.execFunctionLevelReset world s
  | .ideIntegrityFailure world => Sys2Proof.Machine.execIdeIntegrityFailure world s
  | .lockedRegisterWrite world offset val => Sys2Proof.Machine.execLockedRegisterWrite world offset val s
  | .getVersion => Sys2Proof.Machine.execGetVersion s
  | .getCapabilities => Sys2Proof.Machine.execGetCapabilities s
  | .negotiateAlgorithms => Sys2Proof.Machine.execNegotiateAlgorithms s
  | .getDigests => Sys2Proof.Machine.execGetDigests s
  | .getCertificate => Sys2Proof.Machine.execGetCertificate s
  | .challenge => Sys2Proof.Machine.execChallenge s
  | .getMeasurements index => Sys2Proof.Machine.execGetMeasurements index s
  | .keyExchange => Sys2Proof.Machine.execKeyExchange s
  | .finish sess => Sys2Proof.Machine.execFinish sess s
  | .heartbeat sess => Sys2Proof.Machine.execHeartbeat sess s
  | .keyUpdate sess => Sys2Proof.Machine.execKeyUpdate sess s
  | .endSession sess => Sys2Proof.Machine.execEndSession sess s
  | .l2waysWrite world val => Sys2Proof.Machine.execL2waysWrite world val s
  | .migExport world => Sys2Proof.Machine.execMigExport world s
  | .migImport world => Sys2Proof.Machine.execMigImport world s
  | .migConfirm world => Sys2Proof.Machine.execMigConfirm world s
  | .migRelease world => Sys2Proof.Machine.execMigRelease world s
  | .migClear world => Sys2Proof.Machine.execMigClear world s
  | .migrationExpiry world => Sys2Proof.Machine.execMigrationExpiry world s
  | .migrationDeadline world => Sys2Proof.Machine.execMigrationDeadline world s
  | .fabricIngressRequest port sdev sworld va n op data => Sys2Proof.Machine.execFabricIngressRequest port sdev sworld va n op data s
  | .remoteReply id err data w => Sys2Proof.Machine.execRemoteReply id err data w s
  | .portDown port => Sys2Proof.Machine.execPortDown port s
  | .timeSync port now => Sys2Proof.Machine.execTimeSync port now s
  | .laneSample port weak => Sys2Proof.Machine.execLaneSample port weak s
  | .quietPoint port => Sys2Proof.Machine.execQuietPoint port s
  | .forcedIdleGap port => Sys2Proof.Machine.execForcedIdleGap port s
  | .dvfsWindow points temp => Sys2Proof.Machine.execDvfsWindow points temp s
  | .thermalThrottle => Sys2Proof.Machine.execThermalThrottle s
  | .thermalTrip => Sys2Proof.Machine.execThermalTrip s
  | .perstAssert => Sys2Proof.Machine.execPerstAssert s
  | .hostLinkDown link => Sys2Proof.Machine.execHostLinkDown link s
  | .hostLinkUp link => Sys2Proof.Machine.execHostLinkUp link s
  | .portUp port => Sys2Proof.Machine.execPortUp port s
  | .firmwareActivation => Sys2Proof.Machine.execFirmwareActivation s

end Sys2Proof.Machine
end

