-- ==== Sys2Proof/Machine/Turns.lean ====
section
/-! DEFINITION. What a turn does, and whose turn it is when the agenda names nobody (log 2). -/

namespace Sys2Proof.Machine

/-- An event of the opcode table, which has no words. -/
def isEvent (i : Instr) : Bool := i.encode = []

/-- An instruction selected in this cycle that what was executed before it in the cycle holds up: its threads stay at it
(R31, R184, R227). -/
def State.turnHeld (s : State) (c : IssueCtx) (i : Instr) : Bool := s.instrHeld (s.team c.team) c.who i (bits32 c.mask)

/-- An instruction issues: it acts, unless what it reads or works on makes it wait (R13; log 6). -/
def State.issueInstr (s : State) (i : Instr) : Out := if s.mustWait i then .next (s.holdInstr i) else exec i s

/-- The next instruction selected in this cycle, over the threads that still stand at it. -/
def State.runQueue (s : State) : Out :=
  match s.issueQ with
  | [] => .next s
  | (c, i) :: r =>
    let s1 := { s with issueQ := r }.applyDue
    let c1 := s1.liveCtx c
    if c1.mask = 0 || s1.turnHeld c1 i then .next s1 else { s1 with cur := c1 }.issueInstr i

/-! ### What can happen without power or clocks (R304, R330) -/

/-- What happens outside the device. -/
def outsideEvent : Instr → Bool
  | .perstDeassert | .perstAssert | .hostLinkDown .. | .hostLinkUp .. => true
  | _ => false

/-- What the security processor and the host link do (R305, R317, R330). -/
def serviceEvent : Instr → Bool
  | .configurationRequest | .getVersion | .getCapabilities | .negotiateAlgorithms | .getDigests | .getCertificate
  | .challenge | .getMeasurements .. | .keyExchange | .finish .. | .heartbeat .. | .keyUpdate .. | .endSession ..
  | .lockInterface .. | .startInterface .. | .stopInterface .. | .functionLevelReset .. | .firmwareActivation => true
  | _ => false

/-- What the host does through a BAR or through DOE, which link 0 alone has (R306, R307, R317). -/
def barEvent : Instr → Bool
  | .getVersion | .getCapabilities | .negotiateAlgorithms | .getDigests | .getCertificate | .challenge | .getMeasurements ..
  | .keyExchange | .finish .. | .heartbeat .. | .keyUpdate .. | .endSession .. | .lockInterface .. | .startInterface ..
  | .stopInterface .. => true
  | .registerWrite .. | .lockedRegisterWrite .. | .bar2Read .. | .bar2Write .. | .lqctlWrite .. | .lqnotify .. | .eventSignal .. => true
  | .kvpush .. | .kvrclWrite .. | .fcoresWrite .. | .l2waysWrite .. | .errorCounterWrite .. | .faultQueueSetup .. => true
  | .fqheadWrite .. | .retry .. | .skip .. | .kill .. | .translationInvalidate .. => true
  | .migExport .. | .migImport .. | .migConfirm .. | .migRelease .. | .migClear .. => true
  | _ => false

/-- What follows a thermal trip: the entries of the launches that it aborted (R242, R330). -/
def afterTrip : Instr → Bool
  | .launchCompletion .. => true
  | _ => false

/-- An event can happen now. -/
def State.mayHappen (s : State) (i : Instr) : Bool :=
  outsideEvent i || (s.powered && (s.links.1 || !barEvent i) && (s.clocks || serviceEvent i || (s.therm && afterTrip i)))

/-! ### Caches and the outside (R100, R103, R108, R118, R310) -/

/-- An L1 writes back and drops a stack sector (R100). -/
def State.evictStackSec (s : State) (core sec : Nat) : State := s.dropStack core fun x => x.sec = sec

/-- A page whose translation a stream, an engine or a pass that is over holds (R212). -/
def State.pinnedPage (s : State) (world page : Nat) : Bool :=
  (s.engines.any fun e => e.world = world && e.pins.contains page) ||
    (s.probes.any fun p => s.worldOf (s.team p.team) = world && p.pins.contains page) ||
    s.teams.any fun t => s.worldOf t = world &&
      ((t.groups ++ t.conj).any fun g => g.streams.any fun x => x.2.pins.contains page)

/-- A core's and a die's TLB drop what they hold of a page (R108). -/
def State.dropPage (s : State) (die core world page : Nat) : State :=
  if s.pinnedPage world page then s
  else
    let keep (e : TlbEnt) : Bool := !(e.world = world && decide (e.base = page * 65536 / 2 ^ e.bits))
    (s.modCore core fun c => { c with tlb := c.tlb.filter keep }).modDie die fun d =>
      { d with tlb := d.tlb.filter keep, nodes := d.nodes.filter fun n => decide (n.world ≠ world) }

/-! ### Turns -/

/-- A path of a core could issue, and the core has not selected in this cycle (R14, R17, R28). -/
def State.unissued (s : State) (core : Nat) : Bool :=
  decide ((s.core core).lastCyc ≤ s.cycle core) &&
    (((List.range 4).any fun j => s.ready core j ≠ []) || (s.residents core).any fun t => t.lead.isSome && s.pathsF t .lead ≠ [])

/-- A cycle ends once every core has selected in it; as the next begins, groups form whose triggers are met, and slices end
(R17, R252, R258). -/
def State.passTime (s : State) (ns cycles : Nat) : Out :=
  match (if s.clocks && decide (cycles ≠ 0) then s.busyCores.find? s.applyDue.unissued else none) with
  | some c => ({ s with agenda := .time ns cycles :: s.agenda }.applyDue.selectCore c).runQueue
  | none =>
    let s1 := s.beginSlice.timeTurn ns cycles
    .next (if s.clocks then s1.conjAll.sliceTurn else s1)

/-- One turn. Translations and nodes that the TLBs hold stay when a world gets another root: DESIGN CHOICE (log 37). -/
def State.runTurn (s : State) (t : Turn) : Out :=
  match t with
  | .event i => if !isEvent i then .refused .turnNotEvent else if s.mayHappen i then exec i s else .next s
  | .issue c => if s.clocks then (s.applyDue.selectCore c).runQueue else .next s
  | .time ns cycles => s.passTime ns cycles
  | .evict core line => .next (s.modCore core fun c => { c with l1 := c.l1.filter fun x => decide (x.line ≠ line) })
  | .evictStack core sec => .next (s.evictStackSec core sec)
  | .tlbDrop die core w page => .next (s.dropPage die core w page)
  | .setRoot w pa => .next (s.modWorld w fun x => { x with root := pa })
  | .hostStore pa data =>
    .next (if inHost (hostBase + pa) data.length then { s with mem := memWrite s.mem (hostBase + pa) data } else s)

/-! ### The default order -/

/-- Something the device may do by itself. -/
abbrev Act := State → Out

/-- It brings something about. -/
def State.acts (s : State) (a : Act) : Bool :=
  match a s with
  | .next s' => decide (s' ≠ s)
  | _ => true

/-- Group numbers of a team's groups, its lead thread and its conjugate groups in events. -/
def Team_numbers (t : Team) : List Nat :=
  t.allGroups ++ (if t.lead.isSome then [leadGrp] else []) ++ t.conj.map fun c => 64 + c.id

/-- What the memory system may do now. -/
def State.memActs (s : State) : List Act :=
  (s.homes.map fun h => execStoreCompletion h.id) ++ (s.flights.map fun f => execHomeRequest f.id) ++
  (s.escs.flatMap fun r => r.lanes.flatMap fun l =>
    [execEscortAccept r.id (laneKey (l.grp, l.lane)), execBackoffExpiry r.id (laneKey (l.grp, l.lane)),
      execReply r.id (laneKey (l.grp, l.lane))]) ++
  (s.walks.map fun w => execHop w.id) ++ (s.probes.map fun p => execProbePass p.id) ++
  ((s.egress.filter fun r => r.peer = s.fabid && !r.group).map fun r => execRemoteReply r.id none [] 0) ++
  (s.engines.flatMap fun e => [execAcpCompletion e.id, execScatCompletion e.id, execMatrixOpCompletion e.id,
    execMstCompletion e.id, execAttnCompletion e.id, execKvtrimFramePush e.id]) ++
  (s.fences.map fun f => execFncTokenWrite f.id) ++ (s.pends.map fun p => execScoreboardWriteback p.id) ++
  (s.invals.map fun v => execInvalidateCompletion v.id)

/-- Stream elements that a team's streams may fetch next. -/
def Team_fetches (t : Team) : List Act :=
  (Team_numbers t).flatMap fun n => ((t.actor (actorOf n)).streams.filter fun x => x.2.active).flatMap fun x =>
    (List.range 32).map fun l => execStreamElementFetch t.id n (BitVec.ofNat 4 x.1) l

/-- What the threads' surroundings may do now. -/
def State.teamActs (s : State) : List Act :=
  s.teams.flatMap fun t =>
    (Team_numbers t).flatMap (fun n => [execWaitfRelease t.id n, execWaittRelease t.id n, execEvwaitRelease t.id n, execPcAging t.id n]) ++
    (t.allGroups.flatMap fun g => (List.range 16).map fun b => execRcvTimeout t.id g (BitVec.ofNat 4 b)) ++
    Team_fetches t ++ [execConjugatorExpiry t.id, execConjugateGroupFormation t.id, execRefill t.id]

/-- What the scheduler may do now. -/
def State.schedActs (s : State) : List Act :=
  (s.worlds.flatMap fun w => [execFaultRecordWrite w.1, execMigrationExpiry w.1, execMigrationDeadline w.1] ++
    if w.2.migGo then [execMigExport w.1] else []) ++
  (s.teams.flatMap fun t => [execStopTime t.id, execSaveDone t.id, execTeamAdmission t.id, execRestore t.id t.core]) ++
  ((keysOf (s.teams.map (·.core))).flatMap fun c =>
    ((s.l1Banks c).map fun b => execBankConversion c b) ++ (List.range 4).map fun j => execPendingForcedDemotion c j) ++
  (s.launches.map fun l => execLaunchCompletion l.id) ++
  (s.queues.flatMap fun q => [execLaunchRecordTake q.1, execLaunchWaitCheck q.1]) ++
  [execSliceEnd, execDispatchDecision]

/-- Timeouts. -/
def State.lateActs (s : State) : List Act :=
  (s.egress.map fun r => execRemoteEscortTimeout r.id) ++
  s.escs.flatMap fun r => r.lanes.map fun l => execLocalEscortTimeout r.id (laneKey (l.grp, l.lane))

/-- WHAT HAPPENS WHEN THE AGENDA NAMES NOTHING (log 2): the first thing, in a fixed order, that the device can do by
itself; else the issue of a core that has not issued in this cycle; else one cycle passes, of which 19 take ten nanoseconds
(the clock of R2), or one nanosecond while the clocks stand. -/
def State.idle (s : State) : Out :=
  let own :=
    if s.powered && s.clocks then s.memActs ++ s.teamActs ++ s.schedActs ++ s.lateActs
    else if s.powered && s.therm then s.launches.map fun l => execLaunchCompletion l.id
    else []
  match own.find? s.acts with
  | some a => a s
  | none =>
    match s.busyCores.find? fun c => s.acts fun s => s.runTurn (.issue c) with
    | some c => s.runTurn (.issue c)
    | none =>
      s.runTurn (if s.clocks then .time (10 * ((s.die 0).cycle + 1) / 19 - 10 * (s.die 0).cycle / 19) 1 else .time 1 0)

/-- One step: the rest of a cycle's issue, whose sources are read in that cycle (R58); else the agenda's first turn, or what
happens without one. -/
def State.stepOnce (s : State) : Out :=
  if s.issueQ ≠ [] then s.runQueue
  else
    match s.agenda with
    | [] => s.idle
    | t :: r => { s with agenda := r }.runTurn t

end Sys2Proof.Machine
end

