-- ==== Sys2Proof/Machine/Step.lean ====
section
/-! DEFINITION. One step of the machine, and the placing of an instruction for the next step to run. -/

namespace Sys2Proof.Machine

/-- One step. -/
def step (s : State) : Host.Outcome State Fault Refusal := s.stepOnce

/-- The state whose next step fetches and runs the instruction of a table word. -/
def State.withFetchWord (s : State) (nbits w : Nat) : State :=
  let code := tableBytes (w % 2 ^ nbits)
  s.loadCode code (leadOnly code)

end Sys2Proof.Machine
end

