-- ==== Sys2Proof/Safety.lean ====
section
/-! DEFINITION. The terms in which claims speak: a step that completes, an instruction that issues, what an issue
writes and moves, what it leaves alone, a machine that is up, and the form that memory keeps. -/

namespace Sys2Proof.Machine

/-- An outcome that is a next state. -/
def Completes (o : Out) : Prop := ∃ t, o = .next t

/-- The device is up: bring-up has succeeded and its clocks run (R304, R330). -/
def State.Up (s : State) : Prop := s.powered = true ∧ s.clocks = true ∧ s.rdy = true

/-- Memory is in its canonical form: two memories with the same bytes are the same list. -/
def State.MemOk (s : State) : Prop := Memory.wf s.mem = true

/-- Every map by number has rising keys, no two teams share a number, and every number is below the next. -/
structure State.Tables (s : State) : Prop where
  seals : tabRises s.seals
  lastW : tabRises s.lastW
  worlds : tabRises s.worlds
  cores : tabRises s.cores
  free : ∀ x ∈ s.worlds, tabRises x.2.free
  teams : ∀ t ∈ s.teams, Team_tabs t = true
  ids : (s.teams.map (·.id)).Nodup
  below : ∀ t ∈ s.teams, t.id < s.nextTeam

/-! ### Issues -/

/-- The instruction in hand issues (R13): its team is there, and every thread of its path runs at it. -/
structure Issuing (s : State) : Prop where
  team : (s.team? s.cur.team).isSome = true
  path : ∀ L ∈ s.path, (s.cth L).st = .run ∧ (s.cth L).pc = s.cur.pc ∧ (s.cth L).level = s.cur.level

/-- No element that the ports of the operands deliver to an active lane is a fault (R202). -/
def PortsOk (s : State) (x : XHead) (srcs : List OpdB) : Prop :=
  ∀ k ∈ portsOf srcs, ∀ L ∈ s.active x, s.portFlt k L = none

/-- The address of the instruction after the one in hand (R45). -/
def State.nextPc (s : State) : Dword := s.cur.pc + w64 s.cur.len

/-- Two positions hold the same thread. -/
def State.sameHome (s : State) (L M : Nat) : Prop := s.ct.place? s.cur.who L = s.ct.place? s.cur.who M

/-- Every thread of the path goes on at its target, else at the next instruction, and none issues before its stall
count has elapsed (R61, R62). -/
def MovedTo (s t : State) (x : XHead) (tgt : Nat → Option Dword) : Prop :=
  ∀ L ∈ s.path, (∃ M ∈ s.path, s.sameHome L M ∧ (t.cth L).pc = (tgt M).getD s.nextPc) ∧
    (t.cth L).ready = s.now + max x.stall.toNat 1 ∧ (t.cth L).st = .run ∧ (t.cth L).level = s.cur.level

/-- Every thread of the path goes on at the next instruction (R61, R62). -/
def Moved (s t : State) (x : XHead) : Prop :=
  ∀ L ∈ s.path, (t.cth L).pc = s.nextPc ∧ (t.cth L).ready = s.now + max x.stall.toNat 1 ∧ (t.cth L).st = .run ∧
    (t.cth L).level = s.cur.level

/-- Words are on their way to consecutive registers of a position: they are written when a number of cycles has
passed (R62). -/
def Due (s t : State) (lat cls no L : Nat) (vs : List Word) : Prop :=
  ∀ k w, vs[k]? = some w → ∃ p ∈ t.ct.pipe, p.due = s.now + lat ∧ p.cls = cls ∧ p.no = no + k ∧ p.who = s.cur.who ∧
    (p.grp, p.lane) = Team_homeOf s.ct s.cur.who L ∧ p.val = w

/-- A result of fixed latency: each active and helper lane of a v destination, the highest active lane of a g or t
destination (R11, R33, R62). -/
def DueResult (s t : State) (x : XHead) (lat : Nat) (d : Opd) (f : Nat → List Word) : Prop :=
  match d.cls with
  | .g => ∀ L, (s.active x).getLast? = some L → Due s t lat 1 d.no.toNat L (f L)
  | .t => ∀ L, (s.active x).getLast? = some L → Due s t lat 2 d.no.toNat L (f L)
  | _ => ∀ L ∈ s.active x ++ s.helpers x, Due s t lat 0 d.no.toNat L (f L)

/-- A predicate result of fixed latency, of each active and helper lane. -/
def DuePred (s t : State) (x : XHead) (lat : Nat) (p : BitVec 3) (f : Nat → Bool) : Prop :=
  ∀ L ∈ s.active x ++ s.helpers x, Due s t lat 3 p.toNat L [if f L then 1 else 0]

/-- A scoreboarded result whose words are known, of consecutive registers of a position (R62). -/
def Held (s t : State) (cls no L : Nat) (vs : List Word) : Prop :=
  ∃ p ∈ t.pends, p.team = s.cur.team ∧ p.who = s.cur.who ∧ p.cls = cls ∧ p.no = no ∧ p.cnt = vs.length ∧
    (p.grp, p.lane) = Team_homeOf s.ct s.cur.who L ∧ p.vals = vs.map some

/-- A scoreboarded result: each active and helper lane of a v destination, the highest active lane of another. -/
def HeldResult (s t : State) (x : XHead) (d : Opd) (f : Nat → List Word) : Prop :=
  match d.cls with
  | .v => ∀ L ∈ s.active x ++ s.helpers x, Held s t 0 d.no.toNat L (f L)
  | k => ∀ L, (s.active x).getLast? = some L → Held s t (clsCode k) d.no.toNat L (f L)

/-- Scoreboarded words of one register class of each of some positions. -/
def HeldLanes (s t : State) (ls : List Nat) (cls no : Nat) (f : Nat → List Word) : Prop := ∀ L ∈ ls, Held s t cls no L (f L)

/-! ### What an issue leaves alone -/

/-- Everything of a thread but its program counter and the cycle of its next issue. -/
def ThreadKept (a b : Thread) : Prop := { b with pc := a.pc, ready := a.ready } = a

/-- Everything of a group but the streams that ports of the operands read, the times known of the elements they gave, and
the program counters of its threads. -/
structure GroupKept (ports : List Nat) (a b : Group) : Prop where
  rest : { b with streams := a.streams, threads := a.threads, doneT := a.doneT } = a
  done : ports = [] → b.doneT = a.doneT
  threads : List.Forall₂ ThreadKept a.threads b.threads
  streams : tabRises a.streams → tabRises b.streams ∧ ∀ k, k ∉ ports → b.stream k = a.stream k

/-- A register range lies within one that an instruction names as written. -/
def Names (i : Instr) (cls no cnt : Nat) : Prop := ∃ u ∈ i.uses, u.wr = true ∧ useCode u = cls ∧ u.no ≤ no ∧ no + cnt ≤ u.no + u.cnt

/-- The issuer's team after an operation on registers: no register has changed yet, and the results under way go to
registers in D. -/
structure TeamKept (D : Nat → Nat → Nat → Prop) (ports : List Nat) (a b : Team) : Prop where
  rest : { b with pipe := a.pipe, groups := a.groups, lead := a.lead, conj := a.conj } = a
  pipe : ∃ ws, b.pipe = a.pipe ++ ws ∧ ∀ w ∈ ws, D w.cls w.no 1
  groups : List.Forall₂ (GroupKept ports) a.groups b.groups
  conj : List.Forall₂ (GroupKept ports) a.conj b.conj
  lead : Option.Rel (GroupKept ports) a.lead b.lead

/-- The machine after an operation on registers: memory, every other team and everything else as before. -/
structure Kept (D : Nat → Nat → Nat → Prop) (ports : List Nat) (s t : State) : Prop where
  rest : { t with teams := s.teams, pends := s.pends, nextId := s.nextId } = s
  pends : ∃ ps, t.pends = s.pends ++ ps ∧ ∀ p ∈ ps, p.team = s.cur.team ∧ D p.cls p.no p.cnt
  teams : List.Forall₂ (fun a b => if a.id = s.cur.team then TeamKept D ports a b else b = a) s.teams t.teams

/-- Nothing changes but teams, and of these only the issuer's. -/
structure OwnTeam (s t : State) : Prop where
  rest : { t with teams := s.teams } = s
  others : (t.teams.filter fun a => decide (a.id ≠ s.cur.team)) = s.teams.filter fun a => decide (a.id ≠ s.cur.team)

/-! ### Threads by their homes, and kills -/

/-- Home group and lane of a position. -/
def State.home (s : State) (L : Nat) : Nat × Nat := Team_homeOf s.ct s.cur.who L

/-- Afterwards, the thread that stood at a position of the issuer. -/
def State.wasAt (t s : State) (L : Nat) : Thread := (t.team s.cur.team).thread (s.home L).1 (s.home L).2

/-- The registers of a thread, group and team stand as before. -/
structure RegsKept (s t : State) : Prop where
  v : ∀ g l, ((t.team s.cur.team).thread g l).v = (s.ct.thread g l).v
  c : ∀ g l, ((t.team s.cur.team).thread g l).c = (s.ct.thread g l).c
  g : ∀ a, ((t.team s.cur.team).actor a).g = (s.ct.actor a).g
  t : (t.team s.cur.team).t = s.ct.t

/-- The home groups that a kill by the issuer ends: its own, those of a conjugate group's threads, or the whole team
for the lead thread (R71, R213, R260). -/
def State.dying (s : State) : List Nat :=
  match s.cur.who with
  | .lead => s.ct.allGroups ++ [leadGrp]
  | a => Team_homes s.ct a

/-- The issuer is killed under a sticky bit, and the first error of its launch names the instruction (R71, R213, R214). -/
structure Killed (s t : State) (bit : Nat) : Prop where
  threads : t.team? s.cur.team = none ∨ ∀ g ∈ s.dying, ∀ th ∈ ((t.team s.cur.team).groupAt g).threads, th.st = .exited
  sticky : ∀ l ∈ t.launches, l.id = s.ct.launch → l.ctxerr.getLsbD bit = true
  first : ∀ l ∈ s.launches, l.id = s.ct.launch → l.errSet = false →
    ∃ m ∈ t.launches, m.id = l.id ∧ m.errSet = true ∧ m.errpc = s.cur.pc ∧ m.errword = s.cur.word

end Sys2Proof.Machine
end

