-- ==== Sys2Proof/Claims.lean ====
section
/-! DEFINITION. What the spec gives each instruction as its result, in the words of its rule: the tables that claims
compare the machine's meanings with. An integer result is written on bit vectors here, without the exact integers the
meanings go through. -/

namespace Sys2Proof.Machine

/-- An instruction on registers: its head, what it reads, where its result goes and the result of each lane. -/
structure RegOp where
  x : XHead
  srcs : List OpdB
  d : Opd
  f : State → Nat → List Word

/-- An instruction whose result is a predicate. -/
structure CmpOp where
  x : XHead
  srcs : List OpdB
  p : BitVec 3
  f : State → Nat → Bool

/-! ### Integer arithmetic on bit vectors (R84, R133, R135 to R138) -/

/-- One register, or a pair with its low half first (R55). -/
def bothW (ty : Ty) (v64 : Dword) (v32 : Word) : List Word := if ty.wide then [lo v64, hi v64] else [v32]

/-- The number that bits stand for. -/
def bvNum (sg : Bool) {w : Nat} (v : BitVec w) : Int := if sg then v.toInt else v.toNat

/-- A number clamped to the range of a type (R84). -/
def bvClamp (sg : Bool) (w : Nat) (e : Int) : BitVec w :=
  let low : Int := if sg then -2 ^ (w - 1) else 0
  let high : Int := if sg then 2 ^ (w - 1) - 1 else 2 ^ w - 1
  BitVec.ofInt w (if e < low then low else if e > high then high else e)

/-- floor(x · y / 2^w). -/
def bvMulHigh (sg : Bool) {w : Nat} (x y : BitVec w) : BitVec w :=
  if sg then (x.signExtend (2 * w) * y.signExtend (2 * w)).extractLsb' w w
  else (x.zeroExtend (2 * w) * y.zeroExtend (2 * w)).extractLsb' w w

/-- Order of a type. -/
def bvLt (sg : Bool) {w : Nat} (x y : BitVec w) : Bool := if sg then x.slt y else x.ult y

/-- Ends of the field that y names: position, and the first bit above it (R137). -/
def bvField (w : Nat) (y : Word) : Nat × Nat :=
  let pos := (y.extractLsb' 0 8).toNat
  let len := (y.extractLsb' 8 8).toNat
  (pos, if pos + len < w then pos + len else w)

/-- The field shifted to the top and back down. -/
def bvBfx (sg : Bool) {w : Nat} (x : BitVec w) (y : Word) : BitVec w :=
  let f := bvField w y
  if f.2 ≤ f.1 then 0
  else
    let up := x <<< (w - f.2)
    if sg then up.sshiftRight (w - (f.2 - f.1)) else up >>> (w - (f.2 - f.1))

/-- z with x in the field. -/
def bvBfi {w : Nat} (x : BitVec w) (y : Word) (z : BitVec w) : BitVec w :=
  let f := bvField w y
  let mask := (BitVec.allOnes w >>> (w - (f.2 - f.1))) <<< f.1
  (z &&& ~~~mask) ||| ((x <<< f.1) &&& mask)

def bvPop {w : Nat} (x : BitVec w) : Nat := (List.range w).countP fun i => x.getLsbD i
def bvClz {w : Nat} (x : BitVec w) : Nat := ((List.range w).takeWhile fun i => !x.getMsbD i).length

/-- One source. -/
def alu1 (x : XHead) (ty : Ty) (d a : Opd) (g : (w : Nat) → BitVec w → BitVec w) : RegOp :=
  ⟨x, [.reg a], d, fun s L => bothW ty (g 64 (s.reg2 a L)) (g 32 (s.reg1 a L))⟩

/-- Two sources of the type. -/
def alu2 (x : XHead) (ty : Ty) (d a : Opd) (b : OpdB) (g : (w : Nat) → BitVec w → BitVec w → BitVec w) : RegOp :=
  ⟨x, [.reg a, b], d, fun s L => bothW ty (g 64 (s.reg2 a L) (s.src2 b L)) (g 32 (s.reg1 a L) (s.src1 b L))⟩

/-- Two sources, the second of 32 bits whatever the type. -/
def aluSh (x : XHead) (ty : Ty) (d a : Opd) (b : OpdB) (g : (w : Nat) → BitVec w → Word → BitVec w) : RegOp :=
  ⟨x, [.reg a, b], d, fun s L => bothW ty (g 64 (s.reg2 a L) (s.src1 b L)) (g 32 (s.reg1 a L) (s.src1 b L))⟩

/-- A count over the bits of one source: a 32-bit result. -/
def aluCnt (x : XHead) (ty : Ty) (d a : Opd) (g : (w : Nat) → BitVec w → Nat) : RegOp :=
  ⟨x, [.reg a], d, fun s L => [if ty.wide then BitVec.ofNat 32 (g 64 (s.reg2 a L)) else BitVec.ofNat 32 (g 32 (s.reg1 a L))]⟩

/-- `.SAT` clamps the exact result, else it wraps (R84, R136). -/
def bvArith (sg sat : Bool) (e : Int → Int → Int) (g : (w : Nat) → BitVec w → BitVec w → BitVec w) (w : Nat) (x y : BitVec w) : BitVec w :=
  if sat then bvClamp sg w (e (bvNum sg x) (bvNum sg y)) else g w x y

def addOp (x : XHead) (ty : Ty) (sat : Bool) (d a : Opd) (b : OpdB) : RegOp :=
  alu2 x ty d a b (bvArith ty.signed sat (· + ·) fun _ x y => x + y)
def subOp (x : XHead) (ty : Ty) (sat : Bool) (d a : Opd) (b : OpdB) : RegOp :=
  alu2 x ty d a b (bvArith ty.signed sat (· - ·) fun _ x y => x - y)
def mulOp (x : XHead) (ty : Ty) (sat : Bool) (d a : Opd) (b : OpdB) : RegOp :=
  alu2 x ty d a b (bvArith ty.signed sat (· * ·) fun _ x y => x * y)
def mulhOp (x : XHead) (ty : Ty) (d a : Opd) (b : OpdB) : RegOp := alu2 x ty d a b fun _ x y => bvMulHigh ty.signed x y
def minOp (x : XHead) (ty : Ty) (d a : Opd) (b : OpdB) : RegOp := alu2 x ty d a b fun _ x y => if bvLt ty.signed y x then y else x
def maxOp (x : XHead) (ty : Ty) (d a : Opd) (b : OpdB) : RegOp := alu2 x ty d a b fun _ x y => if bvLt ty.signed x y then y else x

/-- `LEA` (R138): 64-bit base, an addend that the type extends or a 64-bit literal, shifted by k. -/
def leaRes (x : XHead) (ty : Ty) (k : Nat) (d a : Opd) (b : OpdB) : RegOp :=
  ⟨x, [.reg a, b], d, fun s L =>
    let y : Dword := match b with
      | .lit w => w
      | .reg o => if ty.signed then (s.reg1 o L).signExtend 64 else (s.reg1 o L).zeroExtend 64
    let r := s.reg2 a L + (y <<< k)
    [lo r, hi r]⟩

/-- The integer and address instructions of R135 to R138 and their base words (R67). -/
def intOp : Instr → Option RegOp
  | .mov stl d a => some (alu1 (baseHead stl) .i32 (vOpd d) (vOpd a) fun _ v => v)
  | .movi stl d imm => some ⟨baseHead stl, [], vOpd d, fun _ _ => [lo imm]⟩
  | .iadd stl d a b => some (addOp (baseHead stl) .i32 false (vOpd d) (vOpd a) (vB b))
  | .isub stl d a b => some (subOp (baseHead stl) .i32 false (vOpd d) (vOpd a) (vB b))
  | .imul stl d a b => some (mulOp (baseHead stl) .i32 false (vOpd d) (vOpd a) (vB b))
  | .imulh stl d a b => some (mulhOp (baseHead stl) .i32 (vOpd d) (vOpd a) (vB b))
  | .imin stl d a b => some (minOp (baseHead stl) .i32 (vOpd d) (vOpd a) (vB b))
  | .imax stl d a b => some (maxOp (baseHead stl) .i32 (vOpd d) (vOpd a) (vB b))
  | .iand stl d a b => some (alu2 (baseHead stl) .n32 (vOpd d) (vOpd a) (vB b) fun _ x y => x &&& y)
  | .ior stl d a b => some (alu2 (baseHead stl) .n32 (vOpd d) (vOpd a) (vB b) fun _ x y => x ||| y)
  | .ixor stl d a b => some (alu2 (baseHead stl) .n32 (vOpd d) (vOpd a) (vB b) fun _ x y => x ^^^ y)
  | .inot stl d a => some (alu1 (baseHead stl) .n32 (vOpd d) (vOpd a) fun _ v => ~~~v)
  | .shl stl d a b => some (aluSh (baseHead stl) .n32 (vOpd d) (vOpd a) (vB b) fun _ x n => x <<< n.toNat)
  | .shr stl d a b => some (aluSh (baseHead stl) .n32 (vOpd d) (vOpd a) (vB b) fun _ x n => x >>> n.toNat)
  | .sar stl d a b => some (aluSh (baseHead stl) .i32 (vOpd d) (vOpd a) (vB b) fun _ x n => x.sshiftRight n.toNat)
  | .lea stl d a b => some (leaRes (baseHead stl) .i64 0 (vOpd d) (vOpd a) (vB b))
  | .movExt x ty d a => some (alu1 x ty d a fun _ v => v)
  | .moviExt x ty d imm => some ⟨x, [], d, fun _ _ => bothW ty imm (lo imm)⟩
  | .iaddExt x ty sat d a b => some (addOp x ty sat d a b)
  | .isubExt x ty sat d a b => some (subOp x ty sat d a b)
  | .imulExt x ty sat d a b => some (mulOp x ty sat d a b)
  | .imulhExt x ty d a b => some (mulhOp x ty d a b)
  | .imad x ty sat d a b c => some ⟨x, [.reg a, b, .reg c], d, fun s L =>
      let g (w : Nat) (x y z : BitVec w) : BitVec w :=
        if sat then bvClamp ty.signed w (bvNum ty.signed x * bvNum ty.signed y + bvNum ty.signed z) else x * y + z
      bothW ty (g 64 (s.reg2 a L) (s.src2 b L) (s.reg2 c L)) (g 32 (s.reg1 a L) (s.src1 b L) (s.reg1 c L))⟩
  | .iminExt x ty d a b => some (minOp x ty d a b)
  | .imaxExt x ty d a b => some (maxOp x ty d a b)
  | .iabs x ty sat d a => some (alu1 x ty d a fun w v =>
      if sat then bvClamp ty.signed w |bvNum ty.signed v| else if ty.signed && v.msb then -v else v)
  | .ineg x ty sat d a => some (alu1 x ty d a fun w v => if sat then bvClamp ty.signed w (-bvNum ty.signed v) else -v)
  | .andExt x ty d a b => some (alu2 x ty d a b fun _ x y => x &&& y)
  | .orExt x ty d a b => some (alu2 x ty d a b fun _ x y => x ||| y)
  | .xorExt x ty d a b => some (alu2 x ty d a b fun _ x y => x ^^^ y)
  | .notExt x ty d a => some (alu1 x ty d a fun _ v => ~~~v)
  | .shlExt x ty d a b => some (aluSh x ty d a b fun _ x n => x <<< n.toNat)
  | .shrExt x ty d a b => some (aluSh x ty d a b fun _ x n => x >>> n.toNat)
  | .sarExt x ty d a b => some (aluSh x ty d a b fun _ x n => x.sshiftRight n.toNat)
  | .bfx x ty d a b => some (aluSh x ty d a b fun _ x y => bvBfx ty.signed x y)
  | .bfi x ty d a b c => some ⟨x, [.reg a, b, .reg c], d, fun s L =>
      bothW ty (bvBfi (s.reg2 a L) (s.src1 b L) (s.reg2 c L)) (bvBfi (s.reg1 a L) (s.src1 b L) (s.reg1 c L))⟩
  | .popc x ty d a => some (aluCnt x ty d a fun _ v => bvPop v)
  | .clz x ty d a => some (aluCnt x ty d a fun _ v => bvClz v)
  | .brev x ty d a => some (alu1 x ty d a fun _ v => v.reverse)
  | .leaExt x ty k d a b => some (leaRes x ty k.toNat d a b)
  | .sel x ty d a b q nq => some ⟨x, [.reg a, b], d, fun s L =>
      let c := (s.cth L).getP q.toNat != nq
      bothW ty (if c then s.reg2 a L else s.src2 b L) (if c then s.reg1 a L else s.src1 b L)⟩
  | _ => none

/-! ### Compares and predicate logic (R144, R145) -/

/-- A condition on bits of a type. -/
def bvCond (sg : Bool) (cc : Cond) {w : Nat} (x y : BitVec w) : Bool :=
  match cc with
  | .eq => x == y
  | .ne => x != y
  | .lt => bvLt sg x y
  | .le => !bvLt sg y x
  | .gt => bvLt sg y x
  | .ge => !bvLt sg x y
  | .num => true
  | .nan => false

def icmpRes (x : XHead) (ty : Ty) (cc : Cond) (p : BitVec 3) (a : Opd) (b : OpdB) : CmpOp :=
  ⟨x, [.reg a, b], p, fun s L =>
    if ty.wide then bvCond ty.signed cc (s.reg2 a L) (s.src2 b L) else bvCond ty.signed cc (s.reg1 a L) (s.src1 b L)⟩

/-- A predicate as an operand: with its negation (R145). -/
def predVal (s : State) (q : BitVec 3) (nq : Bool) (L : Nat) : Bool := (s.cth L).getP q.toNat != nq

/-- Integer compares and predicate logic. -/
def intCmp : Instr → Option CmpOp
  | .icmpI32 stl cc p a b => some (icmpRes (baseHead stl) .i32 cc p (vOpd a) (vB b))
  | .icmpN32 stl cc p a b => some (icmpRes (baseHead stl) .n32 cc p (vOpd a) (vB b))
  | .pand stl p q r => some ⟨baseHead stl, [], p, fun s L => predVal s q false L && predVal s r false L⟩
  | .por stl p q r => some ⟨baseHead stl, [], p, fun s L => predVal s q false L || predVal s r false L⟩
  | .pxor stl p q r => some ⟨baseHead stl, [], p, fun s L => predVal s q false L != predVal s r false L⟩
  | .pnot stl p q => some ⟨baseHead stl, [], p, fun s L => !predVal s q false L⟩
  | .pmov stl p q => some ⟨baseHead stl, [], p, fun s L => predVal s q false L⟩
  | .icmp x ty cc p a b => some (icmpRes x ty cc p a b)
  | .pandExt x p q nq r nr => some ⟨x, [], p, fun s L => predVal s q nq L && predVal s r nr L⟩
  | .porExt x p q nq r nr => some ⟨x, [], p, fun s L => predVal s q nq L || predVal s r nr L⟩
  | .pxorExt x p q nq r nr => some ⟨x, [], p, fun s L => predVal s q nq L != predVal s r nr L⟩
  | .pnotExt x p q nq => some ⟨x, [], p, fun s L => !predVal s q nq L⟩
  | .pmovExt x p q nq => some ⟨x, [], p, fun s L => predVal s q nq L⟩
  | _ => none

/-! ### Floating point (R67, R79 to R89, R140 to R144) -/

/-- Rounded once to the type, as a register image (R141). -/
def rndRes (ty : Ty) (m : FpMod) (v : FVal) : List Word := [BitVec.ofNat 32 ((fpFmt ty).enc (.mode m.rm) m.ftz false v)]

/-- What an FP operand stands for; `.FTZ` takes a subnormal as zero (R80). -/
def fpVal (ty : Ty) (ftz : Bool) (w : Word) : FVal := (fpFmt ty).flush ftz ((fpFmt ty).dec w.toNat)

def fp1 (x : XHead) (ty : Ty) (m : FpMod) (d a : Opd) (e : FVal → FVal) : RegOp :=
  ⟨x, [.reg a], d, fun s L => rndRes ty m (e (fpVal ty m.ftz (s.reg1 a L)))⟩
def fp2 (x : XHead) (ty : Ty) (m : FpMod) (d a : Opd) (b : OpdB) (e : FVal → FVal → FVal) : RegOp :=
  ⟨x, [.reg a, b], d, fun s L => rndRes ty m (e (fpVal ty m.ftz (s.reg1 a L)) (fpVal ty m.ftz (s.src1 b L)))⟩

/-- The FP arithmetic of R141. -/
def fpOp : Instr → Option RegOp
  | .fadd stl d a b => some (fp2 (baseHead stl) .f32 rnMod (vOpd d) (vOpd a) (vB b) (FVal.add .rn))
  | .fsub stl d a b => some (fp2 (baseHead stl) .f32 rnMod (vOpd d) (vOpd a) (vB b) fun p q => FVal.add .rn p q.neg)
  | .fmul stl d a b => some (fp2 (baseHead stl) .f32 rnMod (vOpd d) (vOpd a) (vB b) FVal.mul)
  | .fmin stl d a b => some (fp2 (baseHead stl) .f32 rnMod (vOpd d) (vOpd a) (vB b) (FVal.minMax false))
  | .fmax stl d a b => some (fp2 (baseHead stl) .f32 rnMod (vOpd d) (vOpd a) (vB b) (FVal.minMax true))
  | .frnd stl d a => some (fp1 (baseHead stl) .f32 rnMod (vOpd d) (vOpd a) (FVal.rint .rn))
  | .faddExt x ty m d a b => some (fp2 x ty m d a b (FVal.add m.rm))
  | .fsubExt x ty m d a b => some (fp2 x ty m d a b fun p q => FVal.add m.rm p q.neg)
  | .fmulExt x ty m d a b => some (fp2 x ty m d a b FVal.mul)
  | .ffma x ty m d a b c => some ⟨x, [.reg a, b, .reg c], d, fun s L =>
      rndRes ty m (FVal.add m.rm (FVal.mul (fpVal ty m.ftz (s.reg1 a L)) (fpVal ty m.ftz (s.src1 b L))) (fpVal ty m.ftz (s.reg1 c L)))⟩
  | .fminExt x ty ftz d a b => some (fp2 x ty ⟨.rn, ftz⟩ d a b (FVal.minMax false))
  | .fmaxExt x ty ftz d a b => some (fp2 x ty ⟨.rn, ftz⟩ d a b (FVal.minMax true))
  | .frndExt x ty m d a => some (fp1 x ty m d a (FVal.rint m.rm))
  | _ => none

/-- A conversion between floating formats: the source read exactly, rounded once (R86). -/
def cvRes (dt sty : Ty) (m : CvMod) (rule : RndRule) (v : Dword) : List Word :=
  [BitVec.ofNat 32 ((fpFmt dt).enc rule m.ftz m.sat ((fpFmt sty).flush m.ftz ((fpFmt sty).dec v.toNat)))]

/-- The dither index of a lane: its home lane plus the group's phase (R96). -/
def cvDither (s : State) (m : CvMod) (L : Nat) : RndRule :=
  if m.sr then .dither (s.ct.homeLane s.cur.who L + s.cg.phase.toNat) else .mode m.rm

/-- To an integer: rounded, then the nearest end of the type beyond its range (R85). -/
def ftoiRes (dt sty : Ty) (rm : Rm) (w : Word) : List Word :=
  let v := ((fpFmt sty).dec w.toNat).toInt rm (tyMin dt) (tyMax dt)
  bothW dt (BitVec.ofInt 64 v) (BitVec.ofInt 32 v)

/-- From an integer: the exact value rounded once (R85). -/
def itofRes (dt : Ty) (m : FpMod) (k : Int) : List Word := rndRes dt m (FVal.ofInt false k 0)

/-- The conversions of R142 and R143 and their base words. -/
def cvOpn : Instr → Option RegOp
  | .ftoi stl d a => some ⟨baseHead stl, [.reg (vOpd a)], vOpd d, fun s L => ftoiRes .i32 .f32 .rn (s.reg1 (vOpd a) L)⟩
  | .itof stl d a => some ⟨baseHead stl, [.reg (vOpd a)], vOpd d, fun s L => itofRes .f32 rnMod (s.reg1 (vOpd a) L).toInt⟩
  | .fcvtF16F32 stl d a => some ⟨baseHead stl, [.reg (vOpd a)], vOpd d, fun s L =>
      cvRes .f16 .f32 rnCv (.mode .rn) ((s.reg1 (vOpd a) L).zeroExtend 64)⟩
  | .fcvtF32F16 stl d a => some ⟨baseHead stl, [.reg (vOpd a)], vOpd d, fun s L =>
      cvRes .f32 .f16 rnCv (.mode .rn) ((s.reg1 (vOpd a) L).zeroExtend 64)⟩
  | .fcvtB16F32 stl d a => some ⟨baseHead stl, [.reg (vOpd a)], vOpd d, fun s L =>
      cvRes .b16 .f32 rnCv (.mode .rn) ((s.reg1 (vOpd a) L).zeroExtend 64)⟩
  | .fcvtF32B16 stl d a => some ⟨baseHead stl, [.reg (vOpd a)], vOpd d, fun s L =>
      cvRes .f32 .b16 rnCv (.mode .rn) ((s.reg1 (vOpd a) L).zeroExtend 64)⟩
  | .fcvt x dt sty m d a b => some ⟨x, .reg a :: b.toList, d, fun s L =>
      if dt.isZb then
        -- the block exponent: operand b, else 255
        [BitVec.ofNat 32 (zbEncode dt (cvDither s m L) ((fpFmt .f32).dec (s.reg1 a L).toNat)
          (match b with
           | some o => (s.src1 o L).toNat % 256
           | none => 255))]
      else if sty.isZb then
        rndRes .f32 ⟨m.rm, m.ftz⟩ (zbVal sty ((s.reg1 a L).extractLsb' 16 8).toNat ((s.reg1 a L).getLsbD 8)
          ((s.reg1 a L).toNat % 2 ^ (zbM sty + 1)))
      else cvRes dt sty m (cvDither s m L) (if sty.wide then s.reg2 a L else (s.reg1 a L).zeroExtend 64)⟩
  | .ftoiExt x dt sty rm d a => some ⟨x, [.reg a], d, fun s L => ftoiRes dt sty rm (s.reg1 a L)⟩
  | .itofExt x dt sty m d a => some ⟨x, [.reg a], d, fun s L =>
      itofRes dt m (if sty.wide then bvNum sty.signed (s.reg2 a L) else bvNum sty.signed (s.reg1 a L))⟩
  | _ => none

/-- The special functions of R83 and R141, on FP32. -/
def sfuOp : Instr → Option RegOp
  | .fdiv x m d a b => some (fp2 x .f32 m d a b FVal.div)
  | .rcp x m d a => some (fp1 x .f32 m d a (FVal.div (.fin false 1 0)))
  | .rsq x m d a => some (fp1 x .f32 m d a FVal.rsq)
  | .sqrt x m d a => some (fp1 x .f32 m d a FVal.sqrt)
  | .ex2 x m d a => some (fp1 x .f32 m d a FVal.ex2)
  | .lg2 x m d a => some (fp1 x .f32 m d a FVal.lg2)
  | _ => none

/-- Floating-point compares (R144): false on a NaN but for `.NE` and `.NAN`. -/
def fcmpRes (ty : Ty) (cc : Cond) (p q : FVal) : Bool :=
  let _ := ty
  match FVal.cmp p q with
  | none => cc == .ne || cc == .nan
  | some .eq => [Cond.eq, .le, .ge, .num].contains cc
  | some .lt => [Cond.ne, .lt, .le, .num].contains cc
  | some .gt => [Cond.ne, .gt, .ge, .num].contains cc

def fpCmp : Instr → Option CmpOp
  | .fcmpF32 stl cc p a b => some ⟨baseHead stl, [.reg (vOpd a), vB b], p, fun s L =>
      fcmpRes .f32 cc (fpVal .f32 false (s.reg1 (vOpd a) L)) (fpVal .f32 false (s.src1 (vB b) L))⟩
  | .fcmp x ty cc ftz p a b => some ⟨x, [.reg a, b], p, fun s L =>
      fcmpRes ty cc (fpVal ty ftz (s.reg1 a L)) (fpVal ty ftz (s.src1 b L))⟩
  | _ => none

/-! ### Cross-lane instructions (R160 to R169) -/

/-- A cross-lane instruction: what each lane gets, given the active lanes; helper lanes take part in some (R11). -/
structure LaneOp where
  x : XHead
  srcs : List OpdB
  d : BitVec 7
  help : Bool
  f : State → List Nat → Nat → List Word

/-- The lane that a shuffle reads (R163). -/
def shflIdxSrc (n L k : Nat) : Nat := L - L % n + k % n
def shflUpSrc (n L k : Nat) : Nat := if k ≤ L % n then L - k else L
def shflDownSrc (n L k : Nat) : Nat := if L % n + k < n then L + k else L
def shflXorSrc (n L k : Nat) : Nat := if k < n then L - L % n + (L % n ^^^ k) else L

def shflRes (x : XHead) (src : Nat → Nat → Nat → Nat) (ty : Ty) (n : Nat) (d : BitVec 7) (a : Opd) (b : OpdB) : LaneOp :=
  ⟨x, [b], d, true, fun s _ L => bothW ty (s.reg2 a (src n L (s.src1 b L).toNat)) (s.reg1 a (src n L (s.src1 b L).toNat))⟩

def qxchRes (x : XHead) (k : Nat) (ty : Ty) (d a : BitVec 7) : LaneOp :=
  ⟨x, [], d, true, fun s _ L => bothW ty (s.reg2 (vOpd a) (L ^^^ k)) (s.reg1 (vOpd a) (L ^^^ k))⟩

/-- The mask of the lanes that satisfy a condition. -/
def bitsOf (act : List Nat) (c : Nat → Bool) : Word := maskOf (act.filter c)

def ballotRes (x : XHead) (d : BitVec 7) (q : BitVec 3) : LaneOp :=
  ⟨x, [], d, false, fun s act _ => [bitsOf act fun j => (s.cth j).getP q.toNat]⟩

/-- Active lanes of the segment of L. -/
def segAct (n : Nat) (act : List Nat) (L : Nat) : List Nat :=
  ((List.range n).map fun i => L - L % n + i).filter fun j => act.contains j

/-- The fixed tree over 2^k lanes from a base (R169). -/
def treeOf (op : Opn) (ty : Ty) (u : Nat → Dword) (k base : Nat) : Dword :=
  match k with
  | 0 => u base
  | k + 1 => combine op ty (treeOf op ty u k base) (treeOf op ty u k (base + 2 ^ k))

def valW (ty : Ty) (v : Dword) : List Word := bothW ty v (lo v)

def laneOp : Instr → Option LaneOp
  | .shflIdx stl d a b => some (shflRes (baseHead stl) shflIdxSrc .i32 32 d (vOpd a) (vB b))
  | .shflUp stl d a b => some (shflRes (baseHead stl) shflUpSrc .i32 32 d (vOpd a) (vB b))
  | .shflDown stl d a b => some (shflRes (baseHead stl) shflDownSrc .i32 32 d (vOpd a) (vB b))
  | .shflXor stl d a b => some (shflRes (baseHead stl) shflXorSrc .i32 32 d (vOpd a) (vB b))
  | .qxchH stl d a => some (qxchRes (baseHead stl) 1 .i32 d a)
  | .qxchV stl d a => some (qxchRes (baseHead stl) 2 .i32 d a)
  | .qxchD stl d a => some (qxchRes (baseHead stl) 3 .i32 d a)
  | .ballot stl d q => some (ballotRes (baseHead stl) d q)
  | .shflIdxExt x ty seg d a b => some (shflRes x shflIdxSrc ty (32 >>> seg.toNat) d a b)
  | .shflUpExt x ty seg d a b => some (shflRes x shflUpSrc ty (32 >>> seg.toNat) d a b)
  | .shflDownExt x ty seg d a b => some (shflRes x shflDownSrc ty (32 >>> seg.toNat) d a b)
  | .shflXorExt x ty seg d a b => some (shflRes x shflXorSrc ty (32 >>> seg.toNat) d a b)
  | .qxchHExt x ty d a => some (qxchRes x 1 ty d a)
  | .qxchVExt x ty d a => some (qxchRes x 2 ty d a)
  | .qxchDExt x ty d a => some (qxchRes x 3 ty d a)
  | .ballotExt x d q => some (ballotRes x d q)
  | .matchX x ty d a => some ⟨x, [], d, false, fun s act L =>
      [bitsOf act fun j => if ty.wide then s.reg2 (vOpd a) j == s.reg2 (vOpd a) L else s.reg1 (vOpd a) j == s.reg1 (vOpd a) L]⟩
  | .compact x d q => some ⟨x, [], d, false, fun s act L =>
      let on (j : Nat) : Bool := (s.cth j).getP q.toNat
      [BitVec.ofNat 32 (if on L then act.countP fun j => decide (j < L) && on j
        else act.countP on + act.countP fun j => decide (j < L) && !on j)]⟩
  | .gscan x ty opn ex seg d a => some ⟨x, [], d, false, fun s act L =>
      valW ty (((segAct (32 >>> seg.toNat) act L).filter fun j => decide (j < L) || (!ex && decide (j = L))).foldl
        (fun acc j => combine opn ty acc (if ty.wide then s.reg2 (vOpd a) j else (s.reg1 (vOpd a) j).zeroExtend 64)) (combineId opn ty))⟩
  | .gred x ty opn seg d a => some ⟨x, [], d, false, fun s act L =>
      let n := 32 >>> seg.toNat
      let u (j : Nat) : Dword :=
        if act.contains j then (if ty.wide then s.reg2 (vOpd a) j else (s.reg1 (vOpd a) j).zeroExtend 64) else combineId opn ty
      valW ty (treeOf opn ty u (5 - seg.toNat) (L - L % n))⟩
  | _ => none

/-- A vote over the active lanes of a lane's segment (R165). -/
structure VoteOp where
  x : XHead
  p : BitVec 3
  f : State → List Nat → Nat → Bool

def voteIs : Instr → Option VoteOp
  | .voteAny x seg p q => some ⟨x, p, fun s act L => (segAct (32 >>> seg.toNat) act L).any fun j => (s.cth j).getP q.toNat⟩
  | .voteAll x seg p q => some ⟨x, p, fun s act L => (segAct (32 >>> seg.toNat) act L).all fun j => (s.cth j).getP q.toNat⟩
  | .voteEq x seg p q => some ⟨x, p, fun s act L =>
      let l := segAct (32 >>> seg.toNat) act L
      l.all fun j => l.all fun k => (s.cth j).getP q.toNat == (s.cth k).getP q.toNat⟩
  | _ => none

/-! ### Control transfer (R67, R146, R147) -/

/-- A jump by an offset: its byte offset, and the pair that takes the return address. -/
structure JumpOp where
  x : XHead
  off : Dword
  link : Option (BitVec 7)

/-- A short offset counts words. -/
def baseBytes (o : BaseOff) : Dword :=
  match o with
  | .short n => BitVec.ofInt 64 (4 * n.toInt)
  | .lit w => w
def extBytes (o : ExtOff) : Dword :=
  match o with
  | .short n => BitVec.ofInt 64 (4 * n.toInt)
  | .lit w => w

def jumpOp : Instr → Option JumpOp
  | .bra stl off => some ⟨baseHead stl, baseBytes off, none⟩
  | .call stl d off => some ⟨baseHead stl, baseBytes off, some d⟩
  | .braExt x off => some ⟨x, extBytes off, none⟩
  | .callExt x d off => some ⟨x, extBytes off, some d⟩
  | _ => none

/-- A jump to the address in a pair of each lane. -/
structure PairJump where
  x : XHead
  a : Opd

def pairJump : Instr → Option PairJump
  | .ret stl a => some ⟨baseHead stl, vOpd a⟩
  | .brx stl a => some ⟨baseHead stl, vOpd a⟩
  | .brxExt x a => some ⟨x, a⟩
  | .retExt x a => some ⟨x, a⟩
  | _ => none

/-- Instructions that change nothing but where their path stands (R150, R158): `BKPT` when debugging is off. -/
def noEffect (i : Instr) (s : State) : Option XHead :=
  match i with
  | .nop stl => some (baseHead stl)
  | .nopExt x => some x
  | .bkpt stl _ => if s.debugOn then none else some (baseHead stl)
  | .bkptExt x _ => if s.debugOn then none else some x
  | _ => none

/-- Software traps and breakpoints (R157, R158): class and code. -/
structure TrapOp where
  x : XHead
  cls : Nat
  code : Nat

def trapIs (i : Instr) (s : State) : Option TrapOp :=
  match i with
  | .trap x code => some ⟨x, 0x0C, code.toNat⟩
  | .bkpt stl code => if s.debugOn then some ⟨baseHead stl, 0x0D, code.toNat⟩ else none
  | .bkptExt x code => if s.debugOn then some ⟨x, 0x0D, code.toNat⟩ else none
  | _ => none

/-- `EXIT` and `YIELD`. -/
def exitIs : Instr → Option XHead
  | .exit stl => some (baseHead stl)
  | .exitExt x => some x
  | _ => none
def yieldIs : Instr → Option XHead
  | .yieldB stl => some (baseHead stl)
  | .yieldExt x => some x
  | _ => none

/-- The special values of R156: 32 bits, but for the pair of `GTC`. -/
def specialIs (s : State) (sl : BitVec 8) (L : Nat) : List Word :=
  let one (n : Nat) : List Word := [BitVec.ofNat 32 n]
  if sl = 0x00 then one (s.home L).2
  else if sl = 0x01 then one L
  else if sl = 0x02 then one (s.home L).1
  else if sl = 0x03 then one (s.launch s.ct.launch).r.g
  else if sl = 0x04 then one s.ct.num
  else if sl = 0x05 then one ((s.launch s.ct.launch).r.teams - 1)
  else if sl = 0x06 then one (s.ct.num % (s.launch s.ct.launch).r.c)
  else if sl = 0x07 then one (s.launch s.ct.launch).r.c
  else if sl = 0x08 then one s.ct.core
  else if sl = 0x09 then one (s.launch s.ct.launch).world
  else if sl = 0x0A then [BitVec.ofNat 32 s.gtc, BitVec.ofNat 32 (s.gtc / 2 ^ 32)]
  else if sl = 0x0B then one s.gtc
  else if sl = 0x0C then [s.cg.phase.zeroExtend 32]
  else one (s.cycle s.ct.core)

/-! ### Reconvergence, barriers and the decision queue (R19 to R22, R31, R32, R151 to R155) -/

/-- Some thread of a position's home group is arrived and waiting at a slot. -/
def State.slotBusy (s : State) (L : Nat) (slot : BitVec 4) : Prop :=
  ∃ th ∈ (s.ct.groupAt (s.home L).1).threads, th.arrived.getLsbD slot.toNat = true ∧ th.st ≠ .exited

/-- Every member of a slot of a group has arrived, has exited, or arrives now with the active lanes (R19, R21). -/
def State.slotFull (s : State) (act : List Nat) (g : Nat) (slot : BitVec 4) : Prop :=
  ∀ l th, (s.ct.groupAt g).threads[l]? = some th → th.member.getLsbD slot.toNat = true →
    th.arrived.getLsbD slot.toNat = true ∨ th.st = .exited ∨ ∃ L ∈ act, s.home L = (g, l)

/-- The issuer's number as a participant of its team's barriers (R153): its group, 32 for the lead thread. -/
def State.partNo (s : State) : Nat :=
  match s.cur.who with
  | .grp n => n
  | .lead => 32
  | .conj k => 64 + k

/-- A barrier after an arrival: an issuer arrives once per generation, and the first arrival gives the count (R153). -/
def barArrived (b : Bar) (part k : Nat) : Bar :=
  if part ∈ b.arr then b else { b with k := if b.arr = [] then k else b.k, arr := b.arr ++ [part] }

/-- A generation is complete: every live participant has arrived, or as many as the count (R153). -/
def barFull (b : Bar) (live : List Nat) : Prop := b.arr ≠ [] ∧ if b.k = 0 then ∀ p ∈ live, p ∈ b.arr else b.k ≤ b.arr.length

/-- What a barrier holds after an arrival: the next generation when it completes (R153). -/
structure BarAfter (b new : Bar) (live : List Nat) : Prop where
  full : barFull b live → new.gen = b.gen + 1 ∧ new.arr = [] ∧ new.k = 0
  short : ¬ barFull b live → new.gen = b.gen ∧ new.arr = b.arr ∧ new.k = b.k

/-- The generations a barrier still holds lanes of are over (R123). -/
def holdsBelow (b : Bar) : Prop := ∀ h ∈ b.holds, h.gen < b.gen

/-- The generation that an issuer waits for after its last arrival, unless that is complete (R153). -/
def barPending (b : Bar) (last : Nat) : Option Nat :=
  match last with
  | 0 => none
  | gen + 1 => if b.gen ≤ gen then some gen else none

/-- Instructions that a conjugate group may not issue: it dies with RCV (R260). -/
def wholeOnly : Instr → Bool
  | .barArv .. | .barWait .. | .barSync .. | .cbar .. | .dqpop .. | .regroup .. => true
  | .mzero .. | .mrd .. | .mwr .. | .mwmk .. | .mldb .. | .mgata .. | .mmq .. | .mms .. | .mst .. | .tcut .. => true
  | .infl .. | .attn .. => true
  | _ => false

/-- An entry of the decision queue that has not retired: a plain one until a group takes it, a broadcast one until every group
that has not exited has taken it (R32). -/
def dqStays (live : List Nat) (e : DqEnt) : Bool := if e.bcast then live.any fun g => !e.taken.contains g else e.taken = []

/-- One group, or one lead thread, of a core can issue now, and nothing else there (R13, R14, R28). -/
structure SoleIssuer (s : State) (core : Nat) (t : Team) (a : Actor) : Prop where
  up : s.clocks = true ∧ s.homes = [] ∧ s.issueQ = [] ∧ (s.core core).lastCyc ≤ s.cycle core
  team : s.team? t.id = some t ∧ s.residents core = [t]
  actor : (a ≠ .lead ∧ Team_actors t = [a] ∧ t.lead = none ∧ (t.actor a).sub < 4 ∧ (t.actor a).active = true ∧
      (t.actor a).notBefore ≤ s.cycle core) ∨
    (a = .lead ∧ t.lead.isSome = true ∧ ∀ b ∈ Team_actors t, (t.actor b).active = false ∨ s.pathsF t b = [])

/-- The decision queue's oldest entry that is open to a group (R31, R32). -/
def dqFirst (dq : List DqEnt) (g : Nat) : Option Nat := dq.findIdx? fun e => !e.bcast || !e.taken.contains g

end Sys2Proof.Machine
end

