-- ==== Sys2Proof/MemClaims.lean ====
section
/-! DEFINITION. What the spec gives memory, capability and system instructions, in the terms that claims about them
use. -/

namespace Sys2Proof.Machine

/-! ### Accesses under way -/

/-- The address of a lane (R171). -/
def State.laneVa (s : State) (a : Opd) (off : AddrOff) (L : Nat) : Dword :=
  match off with
  | .none => s.reg2 a L
  | .reg o => s.reg2 a L + (s.reg1 o L).signExtend 64
  | .lit w => s.reg2 a L + w

/-- What the checks of R101, R107 and R111 answer for each active lane of an access of n bytes or elements, after the ports
that its operands name are read. -/
def State.laneChecks (s : State) (x : XHead) (srcs : List OpdB) (va : Nat → Dword) (n kind : Nat) (elem : Bool) :
    List (Nat × Dword × Except Flt Acc) :=
  ((s.takePorts (portsOf srcs) (s.active x)).2.checkAll ((s.active x).map fun L => (L, va L)) n n kind elem).1

/-- No active lane faults. -/
def AllPass (cs : List (Nat × Dword × Except Flt Acc)) : Prop := ∀ c ∈ cs, ∃ a, c.2.2 = .ok a

/-- Registers of a lane wait for a scoreboarded result (R62). -/
def Awaits (s t : State) (L cls no cnt : Nat) (P : Pend → Prop) : Prop :=
  ∃ p ∈ t.pends, p.team = s.cur.team ∧ p.who = s.cur.who ∧ (p.grp, p.lane) = s.home L ∧ p.cls = cls ∧ p.no = no ∧ p.cnt = cnt ∧ P p

/-- An access of a lane is under way. -/
def UnderWay (s t : State) (L : Nat) (sp : Space) (n : Nat) (op : FOp) : Prop :=
  ∃ f ∈ t.flights, f.team = s.cur.team ∧ f.who = s.cur.who ∧ (f.grp, f.lane) = s.home L ∧ f.space = sp ∧ f.n = n ∧ f.op = op

/-- The words of a result from its part i on are known. -/
def KnownWords (p : Pend) (i : Nat) (ws : List Word) : Prop := ∀ k w, ws[k]? = some w → i + k < p.vals.length → p.vals[i + k]? = some (some w)

/-- What an access leaves alone at its issue: memory, the team's registers and predicates, its scratchpad and every other team; it
acts later (R117, R123). -/
structure AccessFrame (s t : State) : Prop where
  mem : t.mem = s.mem
  regs : RegsKept s t
  preds : ∀ g l, ((t.team s.cur.team).thread g l).p = (s.ct.thread g l).p
  scratch : t.ct.scratch = s.ct.scratch
  others : (t.teams.filter fun a => decide (a.id ≠ s.cur.team)) = s.teams.filter fun a => decide (a.id ≠ s.cur.team)

/-! ### Loads and stores (R67, R176 to R179) -/

structure LoadIs where
  x : XHead
  fmt : LdFmt
  d : Opd
  a : Opd
  off : AddrOff

def dispBytes (n : Nat) (o : BaseDisp) : AddrOff :=
  match o with
  | .short k => .lit (BitVec.ofInt 64 (n * k.toInt))
  | .lit w => .lit w

def loadIs : Instr → Option LoadIs
  | .ld32 stl d a disp => some ⟨baseHead stl, .raw .w32 false, vOpd d, vOpd a, dispBytes 4 disp⟩
  | .ld64 stl d a disp => some ⟨baseHead stl, .raw .w64 false, vOpd d, vOpd a, dispBytes 8 disp⟩
  | .ld128 stl d a disp => some ⟨baseHead stl, .raw .w128 false, vOpd d, vOpd a, dispBytes 16 disp⟩
  | .ld32Ro stl d a disp => some ⟨baseHead stl, .raw .w32 false, vOpd d, vOpd a, dispBytes 4 disp⟩
  | .ld128Ro stl d a disp => some ⟨baseHead stl, .raw .w128 false, vOpd d, vOpd a, dispBytes 16 disp⟩
  | .ld x _ _ fmt d a off => some ⟨x, fmt, d, a, off⟩
  | .lde x _ _ w d a off _ e => if e.cnt = 0 then some ⟨x, .raw w false, vOpd d, a, off⟩ else none
  | _ => none

def LoadIs.checks (r : LoadIs) (s : State) : List (Nat × Dword × Except Flt Acc) :=
  match r.fmt with
  | .raw w _ => s.laneChecks r.x (offPorts r.off) (s.laneVa r.a r.off) w.bytes 0 false
  | .elems n _ => s.laneChecks r.x (offPorts r.off) (s.laneVa r.a r.off) n.n 0 true

/-- The lanes whose result a load keeps: each of a v destination, the highest active one of another (R134). -/
def State.keeps (s : State) (x : XHead) (d : Opd) (L : Nat) : Prop := d.cls = .v ∨ (s.active x).getLast? = some L

structure StoreIs where
  x : XHead
  fmt : StFmt
  a : Opd
  off : AddrOff
  c : Opd

def storeIs : Instr → Option StoreIs
  | .st32 stl d a disp => some ⟨baseHead stl, .raw .w32, vOpd a, dispBytes 4 disp, vOpd d⟩
  | .st64 stl d a disp => some ⟨baseHead stl, .raw .w64, vOpd a, dispBytes 8 disp, vOpd d⟩
  | .st128 stl d a disp => some ⟨baseHead stl, .raw .w128, vOpd a, dispBytes 16 disp, vOpd d⟩
  | .st x _ _ fmt a off c => some ⟨x, fmt, a, off, c⟩
  | _ => none

def StoreIs.srcs (r : StoreIs) : List OpdB := offPorts r.off ++ [.reg r.c]
def StoreIs.checks (r : StoreIs) (s : State) : List (Nat × Dword × Except Flt Acc) :=
  match r.fmt with
  | .raw w => s.laneChecks r.x r.srcs (s.laneVa r.a r.off) w.bytes 1 false
  | .elems n _ _ _ => s.laneChecks r.x r.srcs (s.laneVa r.a r.off) n.n 1 true

/-- The low n bytes of registers from c on (R177). -/
def State.storeBytes (s : State) (c : Opd) (n L : Nat) : List Byte :=
  ((List.range 4).flatMap fun k => leBytes 4 (s.regAt c k L).toNat).take n

/-- Element k of a store's data as an FP32 image (R178, R179). -/
def State.storeElem (s : State) (c : Opd) (ty : Ty) (L k : Nat) : Word :=
  if ty = .f32 then s.regAt c k L
  else rnF32 ((fpFmt ty).dec (((s.regAt c (k / 2) L).extractLsb' (16 * (k % 2)) 16).toNat))

/-! ### Atomics (R190, R192) -/

structure AtomIs where
  x : XHead
  op : Aop
  ty : Ty
  d : Option (BitVec 7)
  a : Opd
  b : OpdB
  c : Option Opd

def atomIs : Instr → Option AtomIs
  | .atom x _ _ op ty d a b c _ e => if e.cnt = 0 then some ⟨x, op, ty, some d, a, b, some c⟩ else none
  | .red x _ _ op ty a b => some ⟨x, op, ty, none, a, b, none⟩
  | _ => none

def AtomIs.n (r : AtomIs) : Nat := if r.ty.wide then 8 else 4
def AtomIs.srcs (r : AtomIs) : List OpdB := r.b :: (r.c.map OpdB.reg).toList
def AtomIs.checks (r : AtomIs) (s : State) : List (Nat × Dword × Except Flt Acc) := s.laneChecks r.x r.srcs (s.reg2 r.a) r.n 2 false

/-- Operand and compare value of a lane. -/
def AtomIs.bv (r : AtomIs) (s : State) (L : Nat) : Dword := if r.ty.wide then s.src2 r.b L else (s.src1 r.b L).zeroExtend 64
def AtomIs.cv (r : AtomIs) (s : State) (L : Nat) : Dword :=
  match r.c with
  | some c => if r.ty.wide then s.reg2 c L else (s.reg1 c L).zeroExtend 64
  | none => 0

/-- Where a lane's old value goes: the result that waits for it, or nowhere. -/
def OldTo (s t : State) (L : Nat) (d : Option (BitVec 7)) (cnt : Nat) (tgt : Tgt) : Prop :=
  match d with
  | some d => Awaits s t L 0 d.toNat cnt fun p => tgt = .pend p.id 0
  | none => tgt = .none

/-! ### Accesses that fault as they issue (R110 to R112, R213, R215, R220) -/

/-- An instruction that accesses memory lane by lane: its operands, and what its issue checks of each active lane. -/
structure AccIs where
  x : XHead
  srcs : List OpdB
  checks : State → List (Nat × Dword × Except Flt Acc)

def accIs (i : Instr) : Option AccIs :=
  match loadIs i, storeIs i, atomIs i with
  | some r, _, _ => some ⟨r.x, offPorts r.off, r.checks⟩
  | _, some r, _ => some ⟨r.x, r.srcs, r.checks⟩
  | _, _, some r => some ⟨r.x, r.srcs, r.checks⟩
  | _, _, _ =>
    match i with
    | .capld x _ a disp => some ⟨x, [], fun s => s.laneChecks x [] (s.laneVa a (capDisp disp)) 32 0 false⟩
    | .capst x a disp _ => some ⟨x, [], fun s => s.laneChecks x [] (s.laneVa a (capDisp disp)) 32 1 false⟩
    | _ => none

/-- A lane stands parked at its instruction under a tag, and a queue holds a record of its fault: the physical function's for a
walk-node fault, else its world's (R112, R215, R217). -/
def FaultNoted (s t : State) (tag : Word) (L : Nat) (va : Dword) (f : Flt) : Prop :=
  (t.cth L).st = .parked tag ∧ (t.cth L).pc = s.cur.pc ∧ f.addr = va ∧
  ∃ e ∈ (t.world (if f.cls = 6 then 0 else s.cw)).held, e.cls = f.cls ∧ e.kind = f.kind ∧ e.tag = tag ∧ e.pc = s.cur.pc ∧
    e.word = s.cur.word ∧ e.addr.toNat / 2 ^ 16 = va.toNat / 2 ^ 16 ∧ e.addr.toNat ≤ va.toNat ∧
    e.grp = (if (s.home L).1 = leadGrp then 0xFFFF else (s.home L).1) ∧ ((s.home L).2 < 32 → e.lanes.getLsbD (s.home L).2 = true)

/-! ### Escorted requests (R180 to R183, R190 to R195, R205 to R207, R228) -/

structure EscIs where
  x : XHead
  srcs : List OpdB
  dreg : Nat
  dcnt : Nat
  rp : BitVec 3
  e : EscSet
  /-- global addresses that the request asks for -/
  vas : State → Nat → List Dword

def escIs : Instr → Option EscIs
  | .lde x _ _ w d a off rp e => some ⟨x, offPorts off, d.toNat, w.regs, rp, e, fun s L => [s.laneVa a off L]⟩
  | .atom x _ _ _ ty d a b c rp e => some ⟨x, [b, .reg c], d.toNat, ty.regs, rp, e, fun s L => [s.reg2 a L]⟩
  | .chs x _ d a b rp e => some ⟨x, [b], d.toNat, 2, rp, e, fun s L => [s.reg2 a L]⟩
  | .gath x _ km1 _ d a b rp e => some ⟨x, [], d.toNat, km1.toNat + 1, rp, e, fun s L => [s.reg2 a L, s.src2 b L]⟩
  | _ => none

/-- The charge of a request in sectors of 32 bytes (R182). -/
def sectorsFor (lanes cnt : Nat) : Nat := (lanes * cnt * 4 + 31) / 32

/-- The request is accepted (R182, R183): lanes ask, outside the handler, within the core's budget and the team's escort
slots, for global addresses alone. -/
structure EscFits (s : State) (r : EscIs) : Prop where
  some_ : s.active r.x ≠ [] ∧ r.e.cnt ≠ 0
  level : s.cur.level ≠ .h
  budget : (s.core s.cur.core).used + sectorsFor (s.active r.x).length r.e.cnt.toNat ≤ (s.core s.cur.core).budget
  slots : s.ct.esc + sectorsFor (s.active r.x).length r.e.cnt.toNat ≤ escSlots (s.hdrOf s.ct)
  glob : ∀ L ∈ s.active r.x, ∀ va ∈ r.vas s L, aperOf va = .glob

/-- What an instruction with an escort set checks at issue before its request goes. -/
def escChecks (i : Instr) (s : State) : List (Nat × Dword × Except Flt Acc) :=
  match i with
  | .lde x _ _ w _ a off _ _ => s.laneChecks x (offPorts off) (s.laneVa a off) w.bytes 0 false
  | .atom x _ _ _ ty _ a b c _ _ => s.laneChecks x [b, .reg c] (s.reg2 a) (if ty.wide then 8 else 4) 2 false
  | _ => []

/-- Where the word or words of a lane's result come: its destination, waiting, or the escort that brings it home. -/
def ComesTo (s t : State) (L : Nat) (d : BitVec 7) (cnt : Nat) (req : Option Nat) (tg : Tgt) : Prop :=
  match req with
  | some q => tg = .esc q (laneKey (s.home L)) 0
  | none => Awaits s t L 0 d.toNat cnt fun p => tg = .pend p.id 0

/-- What an instruction with an escort set asks for is under way, for its request or, refused, without one (R183, R190 to R195,
R206). -/
def AsksFor (s t : State) (i : Instr) (req : Option Nat) : Prop :=
  match i with
  | .lde _ _ _ w d _ _ _ _ => ∀ L va acc, (L, va, .ok acc) ∈ escChecks i s →
      ∃ tg, UnderWay s t L acc.space w.bytes (.load tg w.bytes false) ∧ ComesTo s t L d w.regs req tg
  | .atom _ _ _ op ty d _ b c _ _ => ∀ L va acc, (L, va, .ok acc) ∈ escChecks i s →
      ∃ f ∈ t.flights, f.team = s.cur.team ∧ f.space = acc.space ∧ f.n = (if ty.wide then 8 else 4) ∧
        ∃ parts tg, f.op = .atomic op ty parts ∧ ComesTo s t L d ty.regs req tg ∧
          (tg, if ty.wide then s.src2 b L else (s.src1 b L).zeroExtend 64, if ty.wide then s.reg2 c L else (s.reg1 c L).zeroExtend 64) ∈ parts
  | .chs x _ d a b _ e => ∀ L ∈ s.active x, ∃ w ∈ t.walks, w.team = s.cur.team ∧ (w.grp, w.lane) = s.home L ∧ w.node = s.reg2 a L ∧
      w.desc = s.src1 b L ∧ w.esc = req.map (fun q => (q, laneKey (s.home L))) ∧
      (req = none → (Awaits s t L 0 d.toNat 2 fun p => w.dPend = p.id) ∧
        ∀ k < e.cnt.toNat, Awaits s t L 0 (e.base.toNat + k) 1 fun p => w.ePends[k]? = some p.id)
  | .gath x _ km1 _ d _ _ _ _ => ∃ p ∈ t.probes, p.team = s.cur.team ∧ p.instr = i ∧ p.req = req ∧
      (req = none → ∀ L ∈ s.active x, Awaits s t L 0 d.toNat (km1.toNat + 1) fun q => q.abroad = true ∧ q.id ∈ p.pends)
  | _ => False

/-- The request as it stands when it goes (R181, R182, R228). -/
structure EscSent (s t : State) (r : EscIs) (q : EscReq) : Prop where
  mem : q ∈ t.escs
  owner : q.team = s.cur.team ∧ q.who = s.cur.who ∧ q.pc = s.cur.pc ∧ q.core = s.cur.core ∧ q.world = s.cw
  regs : q.ebase = r.e.base.toNat ∧ q.ecnt = r.e.cnt.toNat ∧ q.dreg = r.dreg ∧ q.dcnt = r.dcnt
  charge : q.charge = sectorsFor (s.active r.x).length r.e.cnt.toNat
  lanes : q.lanes.map (fun l => (l.grp, l.lane)) = (s.active r.x).map s.home
  orig : ∀ L ∈ s.active r.x, ∃ l ∈ q.lanes, (l.grp, l.lane) = s.home L ∧ l.stat = .out ∧
    l.orig = (List.range r.e.cnt.toNat).map fun k => (s.cth L).getV (r.e.base.toNat + k)

/-! ### Remote forms (R209, R326) -/

structure RemIs where
  x : XHead
  srcs : List OpdB
  cap : BitVec 3
  right : Nat
  a : Opd
  disp : Dword
  n : Nat

/-- Rights by their bit of the permission field: 0 read, 1 write, 2 atomic; a capability of a group of devices grants
writes and reductions alone (R208, R209, R326). -/
def remIs : Instr → Option RemIs
  | .ldC x _ _ w _ cap _ a disp => some ⟨x, [], cap, 0, a, disp.getD 0, w.bytes⟩
  | .stC x _ _ w cap a disp c => some ⟨x, [.reg c], cap, 1, a, disp.getD 0, w.bytes⟩
  | .atomC x _ _ _ ty cap _ a b c _ _ => some ⟨x, [b, .reg c], cap, 2, a, 0, if ty.wide then 8 else 4⟩
  | .redC x _ _ _ ty cap a b => some ⟨x, [b], cap, 2, a, 0, if ty.wide then 8 else 4⟩
  | _ => none

/-- A group may be read by nobody and answers no atomic. -/
def needsOne : Instr → Bool
  | .ldC .. => true
  | .atomC .. => true
  | _ => false

/-- The check at the egress port (R209). -/
structure CapAllows (c : Capa) (right : Nat) (one : Bool) (off : Dword) (n : Nat) : Prop where
  tag : c.tag = true
  rsv : c.val.extractLsb' 121 7 = 0
  right : c.val.getLsbD (117 + right) = true
  one : one = true → c.val.getLsbD 120 = false
  aligned : off.toNat % n = 0
  len : off.toNat + n ≤ (c.val.extractLsb' 56 48).toNat
  top : (c.val.extractLsb' 0 56).toNat + off.toNat < 2 ^ 56

def RemIs.off (r : RemIs) (s : State) (L : Nat) : Dword := s.reg2 r.a L + r.disp

/-- A lane's request over the fabric (R209, R324). -/
structure Sent (s t : State) (L : Nat) (r : RemIs) (q : Remote) : Prop where
  mem : q ∈ t.egress
  owner : q.team = s.cur.team ∧ q.who = s.cur.who ∧ (q.grp, q.lane) = s.home L ∧ q.sentAt = s.gtc
  peer : q.peer = (((s.cth L).getC r.cap.toNat).val.extractLsb' 104 13).toNat
  group : q.group = ((s.cth L).getC r.cap.toNat).val.getLsbD 120
  va : q.va = BitVec.ofNat 64 (((s.cth L).getC r.cap.toNat).val.extractLsb' 0 56).toNat + r.off s L
  n : q.n = r.n

/-- What the request asks for. -/
def remoteOp (i : Instr) (s t : State) (L : Nat) (op : FOp) : Prop :=
  match i with
  | .ldC x _ _ w sx _ d _ _ => ∃ tg, op = .load tg w.bytes sx ∧
      (s.keeps x d L → Awaits s t L (clsCode d.cls) d.no.toNat w.regs fun p => tg = .pend p.id 0)
  | .stC _ _ _ w _ _ _ c => op = .store (s.storeBytes c w.bytes L)
  | .atomC _ _ _ o ty _ d _ b c _ e => ∃ tg, op = .atomic o ty [(tg, if ty.wide then s.src2 b L else (s.src1 b L).zeroExtend 64,
      if ty.wide then s.reg2 c L else (s.reg1 c L).zeroExtend 64)] ∧
      (e.cnt = 0 → Awaits s t L 0 d.toNat ty.regs fun p => tg = .pend p.id 0)
  | .redC _ _ _ o ty _ _ b => op = .atomic o ty [(.none, if ty.wide then s.src2 b L else (s.src1 b L).zeroExtend 64, 0)]
  | _ => False

/-! ### Capability registers (R208, R211, R328) -/

/-- A capability on its way to a register of each of some lanes. -/
def HeldCap (s t : State) (ls : List Nat) (cd : BitVec 3) (f : Nat → Capa) : Prop :=
  ∀ L ∈ ls, Awaits s t L 4 cd.toNat 1 fun p => p.tag = (f L).tag ∧ p.vals = (List.range 4).map fun k => some ((f L).val.extractLsb' (32 * k) 32)

/-- `CAPNAR`: a capability on part of what another covers. -/
structure Narrowed (c : Capa) (b l : Dword) (mask : BitVec 4) (r : Capa) : Prop where
  base : r.val.extractLsb' 0 56 = c.val.extractLsb' 0 56 + b.extractLsb' 0 56
  len : r.val.extractLsb' 56 48 = l.extractLsb' 0 48
  peer : r.val.extractLsb' 104 13 = c.val.extractLsb' 104 13
  perm : r.val.extractLsb' 117 4 = c.val.extractLsb' 117 4 &&& mask
  rsv : r.val.extractLsb' 121 7 = c.val.extractLsb' 121 7
  tag : r.tag = true ↔ c.tag = true ∧ c.val.extractLsb' 121 7 = 0 ∧ b.toNat + l.toNat ≤ (c.val.extractLsb' 56 48).toNat ∧ l.toNat < 2 ^ 48

/-- `CAPCHK`. -/
def capCovers (c : Capa) (b l : Dword) (mask : BitVec 4) : Bool :=
  c.tag && c.val.extractLsb' 121 7 == 0 && decide (b.toNat + l.toNat ≤ (c.val.extractLsb' 56 48).toNat) &&
    (mask &&& ~~~ c.val.extractLsb' 117 4) == 0

/-- The 128 bits of four registers from b on. -/
def State.quad (s : State) (b : Opd) (L : Nat) : BitVec 128 :=
  (s.regAt b 3 L ++ s.regAt b 2 L ++ s.regAt b 1 L ++ s.regAt b 0 L : BitVec 128)

/-! ### Control registers (R120, R182, R186, R216, R218, R222, R233, R234) -/

/-- Levels that may read and that may write a control register (R233). -/
def csrLevels (n : Nat) : List Level × List Level :=
  if n = 0x000 ∨ n = 0x015 ∨ n = 0x016 ∨ n = 0x041 then ([.h, .s], [.s])
  else if 0x001 ≤ n ∧ n ≤ 0x003 then ([.h, .s], [])
  else if 0x010 ≤ n ∧ n ≤ 0x014 then ([.h], [])
  else if n = 0x020 ∨ n = 0x021 ∨ n = 0x022 ∨ n = 0x030 ∨ n = 0x042 ∨ n = 0x043 then ([.s], [.s])
  else if n = 0x023 ∨ (0x050 ≤ n ∧ n ≤ 0x055) then ([.s], [])
  else if n = 0x024 then ([], [.s])
  else if n = 0x040 then ([.u, .h, .s], [.s])
  else ([], [])

/-- What a read of a control register answers. -/
def State.csrIs (s : State) (n : Nat) : Dword :=
  let l := s.launch s.ct.launch
  let w := s.world s.cw
  let c := s.core s.cur.core
  let d := s.die (s.cur.core / 64)
  match n with
  | 0x000 => w.ctxctl
  | 0x001 => l.ctxerr.zeroExtend 64
  | 0x002 => l.errpc
  | 0x003 => l.errword.zeroExtend 64
  | 0x010 => s.cg.trap.cause
  | 0x011 => s.cg.trap.pc
  | 0x012 => s.cg.trap.addr
  | 0x013 => s.cg.trap.mask
  | 0x014 => s.cg.trap.word
  | 0x015 => w.tvec
  | 0x016 => w.tvlen
  | 0x020 => w.fqbase
  | 0x021 => BitVec.ofNat 64 w.fqsize
  | 0x022 => w.fqhead.zeroExtend 64
  | 0x023 => w.fqtail.zeroExtend 64
  | 0x030 => s.cg.invT
  | 0x040 => BitVec.ofNat 64 (w.lease % 2 ^ 13 + w.roshift * 2 ^ 13)
  | 0x041 => BitVec.ofNat 64 (c.budget + c.used * 2 ^ 24)
  | 0x042 => BitVec.ofNat 64 (d.backoff + d.maxsh * 2 ^ 12 + d.win * 2 ^ 16)
  | 0x043 => BitVec.ofNat 64 (d.toRemote + d.toLocal * 2 ^ 24)
  | _ => BitVec.ofNat 64 (((List.range 41).filter fun i => i % 6 = n - 0x050).foldl (fun a i => a + 2 ^ i) 0)

/-- Bits lo to lo + n - 1 of a value written. -/
def bitsOfW (v : Dword) (lo n : Nat) : Nat := v.toNat / 2 ^ lo % 2 ^ n

/-- A ring of 2 ^ size records of 64 bytes at a physical address is one that R216 accepts. -/
def RingOk (base size : Nat) : Prop :=
  base % 64 = 0 ∧ (size = 0 ∨ 6 ≤ size ∧ size ≤ 16) ∧ base + (if size = 0 then 0 else 64 * 2 ^ size) ≤ 2 ^ 39

/-- A field that a write of 0 leaves as it is. -/
def keep0 (old new : Nat) : Nat := if new = 0 then old else new

/-- What a write of a control register leaves in it. -/
def CsrWritten (s t : State) (n : Nat) (v : Dword) : Prop :=
  let w := s.world s.cw
  let w' := t.world s.cw
  let d := s.die (s.cur.core / 64)
  let d' := t.die (s.cur.core / 64)
  match n with
  | 0x000 => w' = { w with ctxctl := v &&& 0x33FBE }
  | 0x015 => w' = { w with tvec := v &&& ~~~3 }
  | 0x016 => w' = { w with tvlen := v }
  | 0x020 =>
    (RingOk (bitsOfW v 0 48) w.fqsize → w' = { w with fqbase := BitVec.ofNat 64 (bitsOfW v 0 48), fqhead := 0, fqtail := 0 }) ∧
      (¬ RingOk (bitsOfW v 0 48) w.fqsize → w' = w)
  | 0x021 =>
    (RingOk w.fqbase.toNat (bitsOfW v 0 5) → w' = { w with fqsize := bitsOfW v 0 5, fqhead := 0, fqtail := 0 }) ∧
      (¬ RingOk w.fqbase.toNat (bitsOfW v 0 5) → w' = w)
  | 0x022 =>
    let r : Word := w.fqtail - v.extractLsb' 0 32
    (r.toNat ≤ 2 ^ w.fqsize → w' = { w with fqhead := v.extractLsb' 0 32 }) ∧ (2 ^ w.fqsize < r.toNat → w' = w)
  | 0x030 => ∃ i ∈ t.invals, i.world = s.cw ∧ i.span = bitsOfW v 6 2 ∧ i.page = bitsOfW v 16 40 ∧
      i.by_ = some (s.cur.team, s.cur.who) ∧ i.id ∈ t.cg.invs
  | 0x040 => w' = { w with
      roshift := bitsOfW v 13 3,
      lease := if 16 ≤ bitsOfW v 0 13 ∧ bitsOfW v 0 13 ≤ 4096 then bitsOfW v 0 13 else w.lease }
  | 0x041 => t.core s.cur.core = { s.core s.cur.core with budget := bitsOfW v 0 24 }
  | 0x042 => d' = { d with
      backoff := keep0 d.backoff (bitsOfW v 0 12), maxsh := bitsOfW v 12 4, win := keep0 d.win (bitsOfW v 16 8) }
  | 0x043 => d' = { d with
      toRemote := keep0 d.toRemote (bitsOfW v 0 24), toLocal := keep0 d.toLocal (bitsOfW v 24 24) }
  | _ => True

/-! ### Kills (R22, R71, R148, R198, R213, R220, R233, R235, R255, R260, R328) -/

/-- An instruction kills its issuer when it issues, under a bit of CTXERR. -/
inductive Kills (s : State) : Instr → Nat → Prop where
  /-- a target off a word boundary (R148) -/
  | target (i : Instr) (j : PairJump) (L : Nat) : pairJump i = some j → L ∈ s.active j.x →
      (s.reg2 j.a L).extractLsb' 0 2 ≠ 0 → Kills s i eIll
  /-- a slot at which somebody waits (R22) -/
  | slot (x : XHead) (b : BitVec 4) (L : Nat) : L ∈ s.active x → s.slotBusy L b → Kills s (.rcvSet x b) eRcv
  | regroup (x : XHead) (b : BitVec 4) (w : BitVec 10) (L : Nat) : L ∈ s.active x → s.slotBusy L b → Kills s (.regroup x b w) eRcv
  /-- an instruction that a conjugate group may not issue (R260) -/
  | conj (i : Instr) (k : Nat) : s.cur.who = .conj k → wholeOnly i = true → Kills s i eRcv
  /-- a remote form in the handler (R220) -/
  | remote (i : Instr) (r : RemIs) : remIs i = some r → s.cur.level = .h → Kills s i ePriv
  /-- a privileged instruction, or a control register, at a level that R233, R235 or R328 does not grant -/
  | csrr (x : XHead) (d : BitVec 7) (n : BitVec 12) : (Instr.csrr x d n).wf = true → s.cur.level ∉ (csrLevels n.toNat).1 →
      Kills s (.csrr x d n) ePriv
  | csrw (x : XHead) (n : BitVec 12) (a : Opd) : (Instr.csrw x n a).wf = true → s.cur.level ∉ (csrLevels n.toNat).2 →
      Kills s (.csrw x n a) ePriv
  | eret (x : XHead) (a : Action) : s.cur.level ≠ .h → Kills s (.eret x a) ePriv
  | capmk (x : XHead) (cd : BitVec 3) (b : Opd) : s.cur.level ≠ .s → Kills s (.capmk x cd b) ePriv
  | capmkRec (x : XHead) (a b : Opd) (w : BitVec 7) : s.cur.level ≠ .s → Kills s (.capmkRec x a b w) ePriv
  /-- a copy outside what its apertures hold, or onto itself (R198) -/
  | copy (x : XHead) (h : BitVec 2) (gd a : Opd) (b : OpdB) (c : Opd) : s.active x ≠ [] → s.reg1 c 0 ≠ 0 →
      (regionBad (s.hdrOf s.ct).scratch (s.reg2 a 0) (s.reg1 c 0).toNat = true ∨
        regionBad (s.hdrOf s.ct).scratch (s.src2 b 0) (s.reg1 c 0).toNat = true ∨
        regionsMeet (s.reg2 a 0) (s.src2 b 0) (s.reg1 c 0).toNat = true) → Kills s (.acp x h gd a b c) eBnds
  /-- an event that no world has (R255) -/
  | evsig (x : XHead) (b : OpdB) (L : Nat) : (s.active x).getLast? = some L → 4096 ≤ (s.src1 b L).toNat → Kills s (.evsig x b) eBnds
  | evwait (x : XHead) (a : Opd) (b : OpdB) (L : Nat) : (s.active x).getLast? = some L → 4096 ≤ (s.src1 b L).toNat →
      Kills s (.evwait x a b) eBnds

/-! ### Tiles (R262 to R265, R275) -/

/-- An engine of the issuer's team that still writes a row of a tile. -/
def WritesRow (s : State) (e : Engine) (md r : Nat) : Prop :=
  e.team = s.cur.team ∧
    match e.kind with
    | .tile ts rows _ => md ∈ ts ∧ rows.getLsbD r = true
    | .attn ts rows _ => md ∈ ts ∧ rows.getLsbD r = true
    | _ => False

/-- Row and column that an index operand names. -/
def State.cellOf (s : State) (b : OpdB) (L : Nat) : Nat × Nat := ((s.src1 b L).toNat % 32, (s.src1 b L).toNat / 256 % 16)

/-- Every other tile of the team holds what it held. -/
def OtherTiles (s t : State) (mine : Nat → Prop) : Prop :=
  tabRises s.ct.tiles → ∀ k, ¬ mine k → t.ct.tile k = s.ct.tile k

/-- An operation of the issuer on rows of tiles is under way. -/
def TileOpOn (s t : State) (md : Nat) (row : Nat → Prop) : Prop :=
  ∃ e ∈ t.engines, e.who = s.cur.who ∧ ∀ r < 32, WritesRow s e md r ↔ row r

/-- A row lies in an active quarter (R262): the lead thread has all four. -/
def State.rowActive (s : State) (x : XHead) (r : Nat) : Prop := s.active x ≠ [] ∧ (s.cur.who = .lead ∨ ∃ L ∈ s.active x, L / 8 = r / 8)

/-- What a matrix instruction that ends without a fault leaves alone: memory and registers; its threads go on. -/
structure Settled (s t : State) (x : XHead) : Prop where
  moved : Moved s t x
  mem : t.mem = s.mem
  regs : RegsKept s t

/-- A token under way to its register. -/
def TokenDue (s t : State) (gd : Opd) (P : Pend → Prop) : Prop :=
  Awaits s t 0 (clsCode gd.cls) gd.no.toNat 1 P

end Sys2Proof.Machine
end

