-- ==== Sys2Proof/EventClaims.lean ====
section
/-! DEFINITION. What the spec gives the events of the device, in the terms that claims about them use. -/

namespace Sys2Proof.Machine

/-! ### Escorts on their way (R185 to R195) -/

/-- Capacity of a holding point in 32-byte sectors (R185). -/
def holdCapacity (h : Hold) : Nat :=
  match h with
  | .port => 0
  | .slice _ => 256 * 1024 / 32
  | .die _ => 4 * 1024 * 1024 / 32
  | .egress _ => 2 * 1024 * 1024 / 32

/-- A holding point can take one more lane of a request: it packs together the lanes of the request that it holds (R185). -/
def State.canHold (s : State) (r : EscReq) (h : Hold) : Prop :=
  s.holdUse h + sectorsFor (EscReq_at r h + 1) r.ecnt ≤ holdCapacity h + sectorsFor (EscReq_at r h) r.ecnt

/-- Nothing but escorted requests has changed, and of one of them a lane is now as said. -/
def LaneNow (s t : State) (req lane : Nat) (P : EscLane → Prop) : Prop :=
  { t with escs := s.escs } = s ∧ ∃ r l, t.escLane? req lane = some (r, l) ∧ P l

/-- Every lane of a request that bears a key is now as said. -/
def EscNow (t : State) (req key : Nat) (P : EscLane → Prop) : Prop :=
  ∀ r ∈ t.escs, r.id = req → ∀ l ∈ r.lanes, laneKey (l.grp, l.lane) = key → P l

/-- A walk has ended with working values at a last node: they are on their way home, or in the results that wait (R194, R195). -/
structure WalkEnds (t : State) (w : Walk) (e : List Word) : Prop where
  gone : ∀ x ∈ t.walks, x.id ≠ w.id
  escorted : ∀ req key, w.esc = some (req, key) →
    EscNow t req key fun l => l.esc = e ∧ l.dest = [some (lo w.node), some (hi w.node)] ∧ l.stat = .replied
  held : w.esc = none → (w.dPend :: w.ePends).Nodup →
    (∀ p ∈ t.pends, p.id = w.dPend → KnownWords p 0 [lo w.node, hi w.node]) ∧
    ∀ k id, w.ePends[k]? = some id → ∀ p ∈ t.pends, p.id = id → KnownWords p 0 [e.getD k 0]

/-- A thread stands parked at an instruction (R112). -/
def ParkedAt (th : Thread) (pc : Dword) : Prop := (∃ tag, th.st = .parked tag) ∧ th.pc = pc

/-- Something else of an issue is still under way. -/
def State.othersOut (s : State) (issue id : Nat) : Prop :=
  (∃ r ∈ s.egress, r.id ≠ id ∧ r.issue = issue ∧ r.esc = none) ∨ ∃ w ∈ s.walks, w.issue = issue

/-! ### Engines (R127, R199, R207, R277) -/

/-- The writes of an engine are at their homes, in the scratchpad or in stack lines, and the time of the last is known. -/
structure EngineWrote (s t : State) (e : Engine) (ws : List EWrite) : Prop where
  mem : t.mem = s.applyDue.mem
  gone : ∀ x ∈ t.engines, x.id ≠ e.id
  glob : ∃ T, s.gtc ≤ T ∧
    (∀ w ∈ ws, ∀ pa, w.space = .glob pa →
      ∃ h ∈ t.homes, h.world = e.world ∧ h.pa = pa ∧ h.n = w.n ∧ h.op = w.op ∧ h.eng = some e.id ∧ s.gtc ≤ h.w ∧ h.w ≤ T) ∧
    ∀ id, e.pend = some id → ∀ p ∈ t.pends, p.id = id → p.vals = [some (w32 T)] ∧ p.tok = some T
  scr : (s.team? e.team).isSome = true → Memory.wf (s.team e.team).scratch = true →
    ∀ w ∈ ws, ∀ off d, w.space = .scr off → w.op = .store d → d.length = w.n →
      (∀ v ∈ ws, v ≠ w → overlaps w.space w.n v.space v.n = false) → memBytes (t.team e.team).scratch off w.n = d

/-- Places that an engine reads as it writes. -/
def readsOf : EngKind → List (Space × Nat)
  | .acp secs => secs.map fun x => (x.2, 32)
  | _ => []

/-- An engine may make its writes now: what comes before it is over, every line of it is its own, no write-back of a stack is
under way there, and its turn at its homes has come (R100, R117, R121, R127, R129); its scratchpad stands on its core (R224). -/
structure EngineReady (s : State) (e : Engine) (ws : List EWrite) : Prop where
  here : s.engines.find? (fun x => x.id = e.id) = some e
  core : EngKind_scr e.kind = true → (s.team e.team).place ≠ .saved ∧ (s.team e.team).place ≠ .restoring
  free : s.applyDue.engineFree e (ws.map fun w => (w.space, w.n)) (readsOf e.kind) = true

/-- The writes that an engine makes now. -/
def State.writesOf (s : State) (i : Instr) (e : Engine) : Option (List EWrite) :=
  match i, e.kind with
  | .acpCompletion _, .acp secs => some (secs.map fun x => ⟨x.1, .store (s.applyDue.spaceBytes e.core e.team x.2 32), 32⟩)
  | .scatCompletion _, .scat ws => some ws
  | .mstCompletion _, .mst first ws => if s.engines.any fun x => first.contains x.id then none else some ws
  | _, _ => none

/-- A token's time reaches the result that waits for it (R125). -/
def TokenAt (t : State) (e : Engine) (T : Nat) : Prop :=
  ∀ id, e.pend = some id → ∀ p ∈ t.pends, p.id = id → p.vals = [some (w32 T)] ∧ p.tok = some T

def isGather : Instr → Bool
  | .gath .. => true
  | _ => false

/-- Where the element j of the i-th lane of a gather is delivered (R207). -/
def gatherTgt (p : Probe) (x : PLane) (i j : Nat) : Tgt :=
  match p.req with
  | some req => .esc req (laneKey (x.grp, x.lane)) j
  | none => .pend (p.pends.getD i 0) j

/-- A probe pass may be made now: its team is on its core, everything before it is known, no engine owns a line of it, and its
turn at its index words has come (R100, R121, R126, R127, R206, R333). -/
structure ProbeReady (s : State) (p : Probe) : Prop where
  here : s.probes.find? (fun x => x.id = p.id) = some p
  pass : p.held = none
  free : s.probeHeld p = false

/-- The state in which a pass reads: every store due now is done, and the homes and banks of the index words note the read (R117,
R333). -/
def State.passState (s : State) (p : Probe) : State := s.applyDue.serve (s.probeKeys p) (gatherSource p.core) p.id true

/-- The state in which a hop reads its node (R117). -/
def State.hopState (s : State) (w : Walk) : State := s.applyDue.noteRead (placeLines (s.hopPlaces w))

/-- The engine that a completion names. -/
def engineOf : Instr → Option Nat
  | .acpCompletion id => some id
  | .scatCompletion id => some id
  | .mstCompletion id => some id
  | _ => none

/-! ### Interrupts, records, resumes and invalidates (R131, R132, R215 to R217, R234, R314, R315, R335) -/

/-- A vector of a function is signalled: a message when the function does not mask it, else its pending bit (R314). -/
def Signals (s t : State) (w vec : Nat) : Prop :=
  if (memByte (s.world w).msix (16 * vec + 12)).getLsbD 0 then (t.world w).msiPend.getLsbD vec = true else (w, vec) ∈ t.signals

/-- A record waits to be written to a queue. -/
def Recorded (t : State) (w : Nat) (P : FRec → Prop) : Prop := ∃ r ∈ (t.world w).held, P r

/-- A record as R215 lays it out stands at a physical address. -/
def RecordAt (t : State) (pa : Nat) (seq : Word) (r : FRec) : Prop :=
  let at_ (off n : Nat) : Nat := leNat (((t.phys none pa 64).drop off).take n)
  at_ 0x00 4 = seq.toNat ∧ at_ 0x04 1 = r.cls % 256 ∧ at_ 0x05 1 = r.kind % 256 ∧ at_ 0x06 1 = r.flags % 256 ∧ at_ 0x07 1 = r.peer % 256 ∧
  at_ 0x08 4 = r.tag.toNat ∧ at_ 0x0C 4 = r.lanes.toNat ∧ at_ 0x10 8 = r.addr.toNat ∧ at_ 0x18 8 = r.pc.toNat ∧
  at_ 0x20 4 = r.word.toNat ∧ at_ 0x24 2 = r.world % 2 ^ 16 ∧ at_ 0x26 2 = r.source % 2 ^ 16 ∧ at_ 0x28 4 = r.team % 2 ^ 32 ∧
  at_ 0x2C 2 = r.grp % 2 ^ 16 ∧ at_ 0x2E 2 = r.code % 2 ^ 16 ∧ at_ 0x30 8 = r.launch % 2 ^ 64 ∧ at_ 0x38 8 = r.gtc % 2 ^ 64

/-- What an integrity record names (R132, R215). -/
def IntegrityRec (s : State) (line source world launch : Nat) (r : FRec) : Prop :=
  r.cls = 0x10 ∧ r.addr = BitVec.ofNat 64 (line * 128) ∧ r.source = source ∧ r.world = world ∧ r.launch = launch ∧ r.gtc = s.gtc ∧
    r.lanes = 0 ∧ r.kind = 5

/-- A launch is aborted: no team of it is left, and a bit of its error register is set (R131, R213, R242). -/
structure Aborted (t : State) (launch bit : Nat) : Prop where
  teams : ∀ x ∈ t.teams, x.launch ≠ launch
  launch : ∀ x ∈ t.launches, x.id = launch → x.aborted = true ∧ x.ctxerr.getLsbD bit = true

/-- The page, range or world that an invalidate names, as addresses (R234). -/
def inSpan (span page va : Nat) : Prop :=
  span = 3 ∨ (span = 0 ∧ va / 2 ^ 16 = page) ∨ (span = 1 ∧ va / 2 ^ 21 = page * 2 ^ 16 / 2 ^ 21) ∨ (span = 2 ∧ va / 2 ^ 26 = page * 2 ^ 16 / 2 ^ 26)

/-- No TLB translates an address of a span, and none holds a non-leaf entry of its world (R234). -/
structure SpanGone (t : State) (world span page : Nat) : Prop where
  cores : ∀ c ∈ t.cores, ∀ e ∈ c.2.tlb, e.world = world → ∀ va < 2 ^ 56, inSpan span page va → e.base ≠ va / 2 ^ e.bits
  dies : ∀ d ∈ t.dies, ∀ e ∈ d.2.tlb, e.world = world → ∀ va < 2 ^ 56, inSpan span page va → e.base ≠ va / 2 ^ e.bits
  nodes : ∀ d ∈ t.dies, ∀ n ∈ d.2.nodes, n.world ≠ world

/-- A resume that an event asks for: the world whose FQRES is written, the tag, the action (R217). -/
def resumeIs : Instr → Option (Nat × Word × Action)
  | .retry w g => some (w, g, .retry)
  | .skip w g => some (w, g, .skip)
  | .kill w g => some (w, g, .kill)
  | _ => none

/-! ### Launches and the scheduler (R237 to R252, R288) -/

/-- What R237 lets the physical function set in a queue that is not enabled. -/
structure QueueLegal (s : State) (q : Nat) (v : Dword) : Prop where
  slots : bitsOfW v 48 16 ≠ 0
  size : 4 ≤ bitsOfW v 25 4
  priv : bitsOfW v 24 1 = 1 → bitsOfW v 29 7 = 0
  owner : bitsOfW v 29 7 ≤ 64
  room : (s.queues.filter fun x => decide (x.1 ≠ q) && decide (x.2.slots ≠ 0) && decide (x.2.owner = bitsOfW v 29 7)).length < 16

/-- A queue with the fields of a value written to LQCTL. -/
def queueOf (x : Queue) (v : Dword) (en : Bool) : Queue :=
  { x with
    slots := bitsOfW v 48 16, stk := bitsOfW v 36 12, owner := bitsOfW v 29 7, size := bitsOfW v 25 4,
    priv := decide (bitsOfW v 24 1 = 1), devq := decide (bitsOfW v 16 1 = 1), en := en,
    status := if en then 0 else x.status, head := if en then 0 else x.head, tail := if en then 0 else x.tail,
    avail := if en then 0 else x.avail, stores := if en then [] else x.stores }

/-- A launch record as R239 lays it out, every field in its range (R241). -/
structure RecordIs (bs : List Byte) (r : LaunchRec) : Prop where
  hdr : r.hdr.toNat = leNat (bs.take 8) ∧ r.hdr.toNat % 64 = 0
  teams : r.teams = leNat ((bs.drop 8).take 4) + 1 ∧ r.teams % r.c = 0
  conf : let k := leNat ((bs.drop 12).take 4)
    r.g = k % 2 ^ 6 ∧ r.c = k / 2 ^ 6 % 2 ^ 4 ∧ r.lead = decide (k / 2 ^ 10 % 2 = 1) ∧ r.prio = k / 2 ^ 11 % 2 ^ 2 ∧
    r.ranges.length = k / 2 ^ 13 % 2 ^ 3 ∧ r.waits.length = k / 2 ^ 16 % 2 ^ 2 ∧
    r.sig = (if k / 2 ^ 18 % 2 = 1 then some (k / 2 ^ 19 % 2 ^ 12) else none) ∧ k / 2 ^ 31 % 2 = 0
  bounds : 1 ≤ r.g ∧ r.g ≤ 32 ∧ 1 ≤ r.c ∧ r.c ≤ 8 ∧ r.ranges.length ≤ 4 ∧ r.waits.length ≤ 2 ∧ ∀ w ∈ r.waits, w.1 < 4096
  waits : ∀ i w, r.waits[i]? = some w →
    w.1 = leNat ((bs.drop (0x16 + 8 * i)).take 2) ∧ w.2.toNat = leNat ((bs.drop (0x10 + 8 * i)).take 6)
  ranges : ∀ i x, r.ranges[i]? = some x →
    let v := leNat ((bs.drop (0x20 + 8 * i)).take 8)
    x.2 = v / 2 ^ 40 + 1 ∧ x.1 % 2 ^ 56 = v % 2 ^ 40 * 2 ^ 16 ∧ (x.1 / 2 ^ 55 = 0 ∨ x.1 / 2 ^ 55 = 511)
  args : ∀ i < 16, r.args[i]? = some (BitVec.ofNat 32 (leNat ((bs.drop (0x40 + 4 * i)).take 4)))

/-- The core with the most free group places of those with room, ties to the lower number (R247). -/
def BestCore (s : State) (w : Nat) (h : Header) (g c : Nat) : Prop :=
  c ∈ s.coreSet w ∧ s.roomFor c h g = true ∧
    ∀ d ∈ s.coreSet w, s.roomFor d h g = true → s.freePlaces d < s.freePlaces c ∨ (s.freePlaces d = s.freePlaces c ∧ c ≤ d)

/-- The cores that the teams of a cluster go to: those with room in the lowest core cluster that has enough (R247). -/
def ClusterCores (s : State) (w : Nat) (h : Header) (g c : Nat) (cores : List Nat) : Prop :=
  let room (k : Nat) : List Nat := (s.coreSet w).filter fun x => decide (x / 8 = k) && s.roomFor x h g
  ∃ k < 32, c ≤ (room k).length ∧ cores = (room k).take c ∧ ∀ j < k, (room j).length < c

/-- No function before `w`, from `from_` on, can be given a decision (R250). -/
def NoneBefore (s : State) (from_ w : Nat) : Prop :=
  ∃ i < 65, w = (from_ + i) % 65 ∧ ∀ j < i, s.decideFor ((from_ + j) % 65) = none

/-- The next function after the holder, in wrapping order, that has an all-zero mask and work (R252). -/
def NextHolder (s : State) (h w : Nat) : Prop :=
  let p (x : Nat) : Prop := x ≠ h ∧ (s.world x).fcores = 0 ∧ s.hasWork x = true
  ∃ i < 64, w = (h + 1 + i) % 65 ∧ p w ∧ ∀ j < i, ¬ p ((h + 1 + j) % 65)

/-- Decisions may be made for a function now. -/
structure MayPlace (s : State) (w : Nat) : Prop where
  holds : s.holds w = true
  tdi : s.frozen w = false
  mig : s.mayEnable w = true

/-- A team of a launch stands placed: its number, core, work slot, groups and argument registers (R8, R30, R74, R243). -/
structure PlacedTeam (x : Team) (l : Launch) (num core slot : Nat) : Prop where
  at_ : x.launch = l.id ∧ x.num = num ∧ x.core = core ∧ x.wslot = slot ∧ x.place = .admitting
  groups : x.groups.length = l.r.g ∧ ∀ g ∈ x.groups, g.threads.length = 32 ∧
    ∀ th ∈ g.threads, th.st = .run ∧ th.pc = l.r.hdr + BitVec.ofNat 64 l.hdr.groupoff ∧ th.level = l.level
  lead : x.lead.isSome = l.r.lead
  args : ∀ i a, i < 16 → l.r.args[i]? = some a → ∀ g ∈ x.groups, g.getG i = a

/-! ### Bring-up and trust (R304, R308, R317, R318) -/

/-- The stage that an event ends, with its success and the unit that failed (R304). -/
def stageEnd : Instr → Option (Nat × Bool × BitVec 5)
  | .firmwareCheck ok u => some (1, ok, u)
  | .pllLock ok u => some (2, ok, u)
  | .hbmTraining ok u => some (3, ok, u)
  | .memoryZeroing ok u => some (4, ok, u)
  | .gtcStart ok u => some (5, ok, u)
  | _ => none

/-- MGEN rises by one step: a session that caused it records the new value, every other session whose handshake is over and
whose record is older is ended, and its worlds are told (R318, R331). -/
structure MgenRises (s t : State) (cause : Option Nat) : Prop where
  value : t.mgen = s.mgen + 1
  mine : ∀ x ∈ s.sessions, cause = some x.id → x.ended = false → ∃ y ∈ t.sessions, y.id = x.id ∧ y.mgen = s.mgen + 1 ∧ y.ended = false
  others : ∀ x ∈ s.sessions, cause ≠ some x.id → x.finished = true → x.ended = false → x.mgen ≤ s.mgen →
    (∃ y ∈ t.sessions, y.id = x.id ∧ y.ended = true) ∧ ∀ w ∈ x.worlds, (t.world w).msiPend.getLsbD 3 = true ∨ (w, 3) ∈ t.signals

/-- An answer goes to the host. -/
def Answers (s t : State) (a : Answer) : Prop := t.replies = s.replies ++ [a]

/-- The code of an SPDM request, which is its place in the list of R317, and the session it is sent in. -/
def spdmIs : Instr → Option (Nat × Option Nat)
  | .getVersion => some (0, none)
  | .getCapabilities => some (1, none)
  | .negotiateAlgorithms => some (2, none)
  | .getDigests => some (3, none)
  | .getCertificate => some (4, none)
  | .challenge => some (5, none)
  | .heartbeat sess => some (9, some sess)
  | .keyUpdate sess => some (10, some sess)
  | .endSession sess => some (11, some sess)
  | .finish sess => some (8, some sess)
  | _ => none

/-- A session is open and of the present generation (R318). -/
structure OpenSession (s : State) (sess : Nat) (x : Session) : Prop where
  here : s.session? sess = some x
  finished : x.finished = true
  ended : x.ended = false
  mgen : x.mgen = s.mgen

/-- A TDI holds no keys, and its world's accesses are not sealed (R308). -/
def KeysErased (t : State) (w : Nat) : Prop := (t.world w).keys = none ∧ (t.world w).sealing = false

/-- Every launch of a world that is not over is aborted. -/
def WorldAborted (s t : State) (w : Nat) : Prop :=
  ∀ l ∈ s.launches, l.world = w → Launch_over l = false → (∀ x ∈ t.teams, x.launch ≠ l.id) ∧ ∀ x ∈ t.launches, x.id = l.id → x.aborted = true

/-! ### Registers that the host writes (R120, R182, R186, R222, R237, R248, R288, R313, R315, R322 to R329) -/

/-- A field of a register holds what a write left there; every other register of its world as before. -/
def WorldReg (s t : State) (w off : Nat) (v : Dword) : Prop :=
  let x := s.world w
  -- a generation that the write raised may leave a vector pending
  let y := { t.world w with msiPend := x.msiPend }
  let a := bitsOfW v 0 48
  if off = 0x4000 then
    y = { x with weight := keep0 x.weight (bitsOfW v 32 8), slice := keep0 x.slice (bitsOfW v 16 16), age := bitsOfW v 8 8 }
  else if off = 0x4028 then y = if v.toNat % 2 ^ 16 = 0 then { x with hwin := v } else x
  else if off = 0x4030 then y = if a % 2 ^ 16 = 0 ∧ a + 2 ^ 16 ≤ 2 ^ 39 then { x with evbase := BitVec.ofNat 64 a } else x
  else if off = 0x4038 then y = { x with hbmch := v }
  else if off = 0x4040 then
    y = { x with hostlnk := decide (bitsOfW v 2 1 = 1), prot := if x.tdi = .unlocked then decide (bitsOfW v 1 1 = 1) else x.prot }
  else if 0x5000 ≤ off ∧ off < 0x5040 then
    let l := World_list x ((off - 0x5000) / 8)
    World_list y ((off - 0x5000) / 8) = if l.count = 0 ∧ a % 8 = 0 ∧ a + 8 ≤ 2 ^ 39 then { l with base := BitVec.ofNat 64 a } else l
  else if 0x5040 ≤ off ∧ off < 0x5080 then
    let l := World_list x ((off - 0x5040) / 8)
    World_list y ((off - 0x5040) / 8) = if l.count ≤ bitsOfW v 32 32 then { l with cap := bitsOfW v 32 32 } else l
  else if 0x50C0 ≤ off ∧ off < 0x50D0 then
    y = { x with quota := x.quota.set ((off - 0x50C0) / 8) (bitsOfW v 0 32), borrow := x.borrow.set ((off - 0x50C0) / 8) (bitsOfW v 32 32) }
  else False

/-- Offsets of WorldReg in a world page. -/
def worldRegOff (off : Nat) : Bool :=
  off % 8 = 0 && (off = 0x4000 || (0x4028 ≤ off && off < 0x4048) || (0x5000 ≤ off && off < 0x5080) || (0x50C0 ≤ off && off < 0x50D0))

/-- What a write to the device page leaves. -/
def DeviceReg (s t : State) (off : Nat) (v : Dword) : Prop :=
  if off = 0x10 then t = { s with fabid := bitsOfW v 0 13 }
  else if 0x1000 ≤ off ∧ off < 0x1800 then
    t.core ((off - 0x1000) / 8) = { s.core ((off - 0x1000) / 8) with budget := bitsOfW v 0 24 } ∧ { t with cores := s.cores } = s
  else if 0x2000 ≤ off ∧ off < 0x2400 then
    let d := s.die ((off - 0x2000) / 256)
    let d' := t.die ((off - 0x2000) / 256)
    { t with dies := s.dies } = s ∧
    if off % 256 = 0 then d' = { d with backoff := keep0 d.backoff (bitsOfW v 0 12), maxsh := bitsOfW v 12 4, win := keep0 d.win (bitsOfW v 16 8) }
    else if off % 256 = 8 then d' = { d with toRemote := keep0 d.toRemote (bitsOfW v 0 24), toLocal := keep0 d.toLocal (bitsOfW v 24 24) }
    else if off % 256 = 0x80 then d' = { d with thresh := bitsOfW v 0 32 }
    else if 0x40 ≤ off % 256 ∧ off % 256 < 0x80 then tabGet d'.errs (off % 256 / 8 - 8) 0 = 0
    else d' = d
  else if 0x4800 ≤ off ∧ off < 0x5000 then
    tabGet t.fbind ((off - 0x4800) / 8) 0 = v &&& 0x8000000FFFC01FFF ∧ { t with fbind := s.fbind } = s
  else if 0x5000 ≤ off ∧ off < 0x5400 then
    let p := s.port ((off - 0x5000) / 64)
    { t with ports := s.ports } = s ∧ t.port ((off - 0x5000) / 64) =
      if off % 64 = 8 then { p with cerate := bitsOfW v 0 16, margin := bitsOfW v 16 16, quiet := bitsOfW v 32 32 } else p
  else if off = 0x5800 then
    (300 ≤ bitsOfW v 0 16 ∧ bitsOfW v 0 16 ≤ 1500 → t = { s with limit := bitsOfW v 0 16 }) ∧
      (bitsOfW v 0 16 < 300 ∨ 1600 < bitsOfW v 0 16 → t = s)
  else True

/-- Offsets of DeviceReg. -/
def deviceRegOff (off : Nat) : Bool :=
  off % 8 = 0 && (off = 0x10 || (0x1000 ≤ off && off < 0x1800) || (0x2000 ≤ off && off < 0x2400) || (0x4800 ≤ off && off < 0x5000) ||
    (0x5000 ≤ off && off < 0x5400) || off = 0x5800)

/-- The bases of a queue that is not enabled, by the place of the register in its block (R237). -/
def QueueReg (x : Queue) (i : Nat) (v : Dword) : Queue :=
  if i = 1 ∧ v.toNat % 2 ^ 12 = 0 then { x with base := v }
  else if i = 2 ∧ v.toNat % 64 = 0 then { x with cbase := v }
  else if i = 3 ∧ v.toNat % 2 ^ 12 = 0 then { x with work := v }
  else if i = 4 ∧ bitsOfW v 0 32 % 2 ^ 12 = 0 then { x with slotsz := bitsOfW v 0 32 }
  else x

end Sys2Proof.Machine
end

