-- ==== Sys2Proof/Certificates/Slice0/Obligations.lean ====
section
/-! DEFINITION. The statements for the provers. Each says which rules of the spec it formalises. -/

open Sys2Proof Sys2Proof.Machine

/-! ### Operations on registers -/

/-- Integer and address instructions (R84, R133, R135 to R138): the result of each lane, on its way for two cycles. -/
def Obligations.IntegerResults : Prop :=
  ∀ (i : Instr) (r : RegOp), intOp i = some r → i.wf = true → ∀ s : State, Issuing s → PortsOk s r.x r.srcs →
    ∃ t, exec i s = .next t ∧ DueResult s t r.x 2 r.d (r.f s) ∧ Moved s t r.x

/-- Floating-point arithmetic and conversions (R62, R79 to R89, R96, R141 to R143): four cycles. -/
def Obligations.FloatResults : Prop :=
  ∀ (i : Instr) (r : RegOp), fpOp i = some r ∨ cvOpn i = some r → i.wf = true → ∀ s : State, Issuing s → PortsOk s r.x r.srcs →
    ∃ t, exec i s = .next t ∧ DueResult s t r.x 4 r.d (r.f s) ∧ Moved s t r.x

/-- Special functions (R62, R83, R141): scoreboarded results. The values of `EX2` and `LG2` are the model's choice of log 15, an
approximation of 192 bits, and not R83 itself. -/
def Obligations.SpecialFunctionResults : Prop :=
  ∀ (i : Instr) (r : RegOp), sfuOp i = some r → ∀ s : State, Issuing s → PortsOk s r.x r.srcs →
    ∃ t, exec i s = .next t ∧ HeldResult s t r.x r.d (r.f s) ∧ Moved s t r.x

/-- Compares and predicate logic (R62, R65, R144, R145). -/
def Obligations.PredicateResults : Prop :=
  ∀ (i : Instr) (r : CmpOp) (lat : Nat), (intCmp i = some r ∧ lat = 2) ∨ (fpCmp i = some r ∧ lat = 4) → i.wf = true →
    ∀ s : State, Issuing s → PortsOk s r.x r.srcs →
      ∃ t, exec i s = .next t ∧ DuePred s t r.x lat r.p (r.f s) ∧ Moved s t r.x

/-- Cross-lane instructions (R160 to R169): scoreboarded results of each active lane, and of helper lanes for the
exchanges (R11). -/
def Obligations.CrossLaneResults : Prop :=
  ∀ (i : Instr) (r : LaneOp), laneOp i = some r → i.wf = true → ∀ s : State, Issuing s → PortsOk s r.x r.srcs →
    ∃ t, exec i s = .next t ∧
      HeldLanes s t (s.active r.x ++ if r.help then s.helpers r.x else []) 0 r.d.toNat (r.f s (s.active r.x)) ∧ Moved s t r.x

/-- Votes over the active lanes of each lane's segment (R165). -/
def Obligations.VoteResults : Prop :=
  ∀ (i : Instr) (r : VoteOp), voteIs i = some r → ∀ s : State, Issuing s →
    ∃ t, exec i s = .next t ∧
      HeldLanes s t (s.active r.x) 3 r.p.toNat (fun L => [if r.f s (s.active r.x) L then 1 else 0]) ∧ Moved s t r.x

/-- `MFSR` (R156): the special value that its selector names, as read at issue, on its way for two cycles; selectors from
0x0E on are illegal, `GTC` in an odd register, and in the lead slice the four of lane, group and dither phase, no other. -/
def Obligations.SpecialValues : Prop :=
  ∀ (x : XHead) (d : BitVec 7) (sl : BitVec 8),
    (0x0E ≤ sl.toNat → (Instr.mfsr x d sl).wf = false) ∧
    (sl = 0x0A → d.toNat % 2 = 1 → (Instr.mfsr x d sl).wf = false) ∧
    (∀ h : Header, sl ∈ [0x00, 0x01, 0x02, 0x0C] → legalIn h true (.mfsr x d sl) = false) ∧
    (∀ h : Header, x.pg = 7 → d.toNat < 63 → sl.toNat < 0x0E → sl ∉ [0x00, 0x01, 0x02, 0x0C] → legalIn h true (.mfsr x d sl) = true) ∧
    ∀ s : State, (Instr.mfsr x d sl).wf = true → Issuing s →
      ∃ t, exec (.mfsr x d sl) s = .next t ∧ DueResult s t x 2 (vOpd d) (specialIs s sl) ∧ Moved s t x

/-- FRAME of every operation on registers, `MFSR`, the jumps, `NOP` and `YIELD`: memory, other teams, every register and every flag
stand as before; results go to the registers named as destinations alone, and only streams that operands read as ports move on
(R57, R60, R61, R134). `YIELD` notes its cycle beside that (R150). -/
def Obligations.RegisterFrame : Prop :=
  ∀ (i : Instr) (s : State), i.wf = true →
    (∀ r : RegOp, intOp i = some r ∨ fpOp i = some r ∨ cvOpn i = some r ∨ sfuOp i = some r → PortsOk s r.x r.srcs →
      ∀ t, exec i s = .next t → Kept (Names i) (portsOf r.srcs) s t) ∧
    (∀ r : CmpOp, intCmp i = some r ∨ fpCmp i = some r → PortsOk s r.x r.srcs →
      ∀ t, exec i s = .next t → Kept (Names i) (portsOf r.srcs) s t) ∧
    (∀ r : LaneOp, laneOp i = some r → PortsOk s r.x r.srcs → ∀ t, exec i s = .next t → Kept (Names i) (portsOf r.srcs) s t) ∧
    (∀ r : VoteOp, voteIs i = some r → ∀ t, exec i s = .next t → Kept (Names i) [] s t) ∧
    (∀ j : JumpOp, jumpOp i = some j → ∀ t, exec i s = .next t → Kept (Names i) [] s t) ∧
    (∀ x : XHead, noEffect i s = some x → ∀ t, exec i s = .next t → Kept (Names i) [] s t) ∧
    (∀ j : PairJump, pairJump i = some j → (∀ L ∈ s.active j.x, (s.reg2 j.a L).extractLsb' 0 2 = 0) →
      ∀ t, exec i s = .next t → Kept (Names i) [] s t) ∧
    (∀ x d sl, i = .mfsr x d sl → ∀ t, exec i s = .next t → Kept (Names i) [] s t) ∧
    (∀ x : XHead, yieldIs i = some x → ∀ t, exec i s = .next t →
      (s.cur.who = .lead → Kept (Names i) [] s t) ∧
      (s.cur.who ≠ .lead → Kept (Names i) [] (s.modCg fun g => { g with yieldAt := s.now + 1 }) t))

/-! ### Control transfer -/

/-- Jumps (R67, R146 to R148): active lanes of `BRA` and `CALL` go to the instruction's address plus the offset, those
of `BRX` and `RET` to the address in their pair; the others go on; `CALL` writes the return address with the integer latency.
`EXIT` (R35, R149): every active lane's thread is exited, or waits for its registers to come home, and the other lanes go on. The
team ends with it exactly when its last thread has exited, once its stores to its stack have acted and are written back. `NOP`, `BKPT` without debugging, `YIELD` (R150, R158): the path goes on; `YIELD` notes the cycle for its group. -/
def Obligations.ControlTransfers : Prop :=
  ((∀ (i : Instr) (j : JumpOp), jumpOp i = some j → ∀ s : State, Issuing s →
    ∃ t, exec i s = .next t ∧
      MovedTo s t j.x (fun L => if L ∈ s.active j.x then some (s.cur.pc + j.off) else none) ∧
      (∀ d, j.link = some d → ∀ L ∈ s.active j.x, Due s t 2 0 d.toNat L [lo s.nextPc, hi s.nextPc])) ∧
  (∀ (i : Instr) (j : PairJump), pairJump i = some j → ∀ s : State, Issuing s →
    (∀ L ∈ s.active j.x, (s.reg2 j.a L).extractLsb' 0 2 = 0) →
    ∃ t, exec i s = .next t ∧ MovedTo s t j.x (fun L => if L ∈ s.active j.x then some (s.reg2 j.a L) else none))) ∧
  ((∀ (i : Instr) (x : XHead), exitIs i = some x → ∀ s : State, Issuing s →
    let last (g l : Nat) : Prop := ∃ L ∈ s.active x, s.home L = (g, l) ∧ s.anyAbroad s.cur.team g l = false
    let allDone : Prop := ∀ g ∈ s.ct.allGroups ++ [leadGrp], ∀ l th, (s.ct.groupAt g).threads[l]? = some th → th.st = .exited ∨ last g l
    ∃ t, exec i s = .next t ∧
      (t.team? s.cur.team ≠ none →
        (∀ L ∈ s.active x, (t.wasAt s L).st = if s.anyAbroad s.cur.team (s.home L).1 (s.home L).2 then .exiting else .exited) ∧
        ∀ L ∈ s.path, (∀ M ∈ s.active x, s.home M ≠ s.home L) → (t.wasAt s L).st = .run ∧ (t.wasAt s L).pc = s.nextPc) ∧
      (t.team? s.cur.team = none → allDone) ∧
      (allDone → s.active x ≠ [] → s.ct.place ≠ .admitting → (∀ y ∈ (s.core s.ct.core).stack, y.team = s.cur.team → y.dirty = false) →
        s.stackStores s.cur.team = false →
        (∀ h ∈ s.homes, h.wb = true → h.team = s.cur.team → h.w ≤ s.gtc) → t.team? s.cur.team = none)) ∧
  (∀ (i : Instr) (x : XHead) (s : State), Issuing s →
    (noEffect i s = some x → ∃ t, exec i s = .next t ∧ Moved s t x) ∧
    (yieldIs i = some x → ∃ t, exec i s = .next t ∧ Moved s t x ∧ OwnTeam s t ∧ RegsKept s t ∧
      (s.path ≠ [] → s.cur.who ≠ .lead → t.cg.yieldAt = s.now + 1))))

/-- `TRAP` and an enabled `BKPT` (R157, R158, R213, R215, R219): outside the handler, the active lanes stop at the
instruction. When their class does not enter the handler, they are parked under a tag and the world holds a record for
each home group. When it does, and the group has no lane in or before the handler, they go on there at level H, with the
trap registers saying why. A load, store or atomic some of whose lanes fault as it issues (R110 to R112, R215): those lanes are
parked under one tag with a record of each fault, and the others go on. At level H, each of these kills with DTRAP (R220). -/
def Obligations.TrapsTaken : Prop :=
  (∀ (i : Instr) (s : State) (r : TrapOp), trapIs i s = some r → Issuing s → s.cur.level ≠ .h → s.active r.x ≠ [] →
    ∃ t, exec i s = .next t ∧
      (s.handled s.cw r.cls = false → ∃ tag, ∀ L ∈ s.active r.x,
        (t.cth L).st = .parked tag ∧ (t.cth L).pc = s.cur.pc ∧
        ∃ e ∈ (t.world s.cw).held, e.cls = r.cls ∧ e.code = r.code ∧ e.pc = s.cur.pc ∧ e.word = s.cur.word ∧ e.tag = tag ∧
          e.addr = 0 ∧ e.grp = (if (s.home L).1 = leadGrp then 0xFFFF else (s.home L).1) ∧
          ((s.home L).2 < 32 → e.lanes.getLsbD (s.home L).2 = true)) ∧
      (s.handled s.cw r.cls = true → (∀ n, s.cur.who = .grp n → n ≠ leadGrp → Team_inHandler s.ct s.cur.who = false →
        (∀ p ∈ s.parks, p.team = s.cur.team → p.who = s.cur.who → p.handler = none) →
        (∀ L ∈ s.active r.x, (t.cth L).st = .run ∧ (t.cth L).level = .h ∧ (t.cth L).pc = (s.world s.cw).tvec) ∧
        t.cg.trap = ⟨BitVec.ofNat 64 (r.code + 5 * 2 ^ 16 + r.cls * 2 ^ 24), s.cur.pc, 0,
          (maskOf (s.active r.x)).zeroExtend 64, s.cur.word.zeroExtend 64⟩))) ∧
  (∀ (i : Instr) (s : State) (r : TrapOp), trapIs i s = some r → Issuing s → s.cur.level = .h → s.active r.x ≠ [] →
    ∃ t, exec i s = .next t ∧ Killed s t eDtrap) ∧
  ∀ (i : Instr) (r : AccIs), accIs i = some r → i.wf = true → ∀ s : State, Issuing s → PortsOk s r.x r.srcs →
    (s.cur.level ≠ .h → tabRises s.worlds → (∀ c ∈ r.checks s, ∀ f, c.2.2 = .error f → s.handled s.cw f.cls = false) →
      ∃ t tag, exec i s = .next t ∧ (∀ L va f, (L, va, .error f) ∈ r.checks s → FaultNoted s t tag L va f) ∧
        ∀ L va acc, (L, va, .ok acc) ∈ r.checks s → (∀ M v f, (M, v, .error f) ∈ r.checks s → s.home M ≠ s.home L) →
          (t.cth L).st = .run ∧ (t.cth L).pc = s.nextPc) ∧
    (s.cur.level = .h → (∃ c ∈ r.checks s, ∃ f, c.2.2 = .error f) → ∃ t, exec i s = .next t ∧ Killed s t eDtrap)

/-- `WAITT` and `WAITF` (R125, R159, R196): an active lane whose pair the clock has not reached, or whose token g has
(GTC - g) mod 2^32 ≥ 2^31, waits at the instruction; every other lane goes on. -/
def Obligations.TimedWaits : Prop :=
  (∀ (x : XHead) (a : Opd) (s : State), (Instr.waitt x a).wf = true → Issuing s →
    ∃ t, exec (.waitt x a) s = .next t ∧ OwnTeam s t ∧ RegsKept s t ∧ ∀ L ∈ s.path,
      (L ∈ s.active x ∧ s.gtc % 2 ^ 64 < (s.reg2 a L).toNat → (t.cth L).st = .time (s.reg2 a L) ∧ (t.cth L).pc = s.cur.pc) ∧
      (¬(L ∈ s.active x ∧ s.gtc % 2 ^ 64 < (s.reg2 a L).toNat) → (t.cth L).st = .run ∧ (t.cth L).pc = s.nextPc)) ∧
  (∀ (x : XHead) (h : BitVec 2) (ga : Opd) (s : State), (Instr.waitf x h ga).wf = true → Issuing s →
    ∃ t, exec (.waitf x h ga) s = .next t ∧ OwnTeam s t ∧ RegsKept s t ∧ ∀ L ∈ s.path,
      (L ∈ s.active x ∧ (BitVec.ofNat 32 s.gtc - s.reg1 ga L).msb = true →
        (t.cth L).st = .tok (s.reg1 ga L) ∧ (t.cth L).pc = s.cur.pc) ∧
      (¬(L ∈ s.active x ∧ (BitVec.ofNat 32 s.gtc - s.reg1 ga L).msb = true) → (t.cth L).st = .run ∧ (t.cth L).pc = s.nextPc))

/-! ### Reconvergence, barriers and the decision queue -/

/-- `RCV.SET` (R19, R151): its active lanes become members that have not arrived. `RCV.WAIT` (R19 to R21, R151): a
non-member goes on with p true; a member waits, or, when every member of its group has arrived, every waiting member goes on
with its predicate true and is no member any more. The first arrival sets the expiry, and a conjugate group's lane leaves it at
its slot (R21, R260). -/
def Obligations.Reconvergence : Prop :=
  (∀ (x : XHead) (slot : BitVec 4) (s : State), Issuing s → (∀ L ∈ s.active x, ¬ s.slotBusy L slot) →
    ∃ t, exec (.rcvSet x slot) s = .next t ∧ Moved s t x ∧ OwnTeam s t ∧ RegsKept s t ∧ ∀ L ∈ s.active x,
      (t.cth L).member = setBit (s.cth L).member slot.toNat true ∧ (t.cth L).arrived = setBit (s.cth L).arrived slot.toNat false) ∧
  (∀ (x : XHead) (p : BitVec 3) (slot : BitVec 4) (n : BitVec 20) (s : State), Issuing s →
    ∃ t, exec (.rcvWait x p slot n) s = .next t ∧ OwnTeam s t ∧ ∀ L ∈ s.active x,
      ((s.cth L).member.getLsbD slot.toNat = false →
        (t.wasAt s L).getP p.toNat = true ∧ (t.wasAt s L).st = .run ∧ (t.wasAt s L).pc = s.nextPc) ∧
      ((s.cth L).member.getLsbD slot.toNat = true → s.slotFull (s.active x) (s.home L).1 slot →
        (t.wasAt s L).getP p.toNat = true ∧ (t.wasAt s L).st = .run ∧ (t.wasAt s L).pc = s.cur.pc + 12 ∧
        (t.wasAt s L).member.getLsbD slot.toNat = false ∧
        ∀ l q, (s.ct.thread (s.home L).1 l).st = .rcv slot.toNat q → (s.ct.thread (s.home L).1 l).arrived.getLsbD slot.toNat = true →
          ((t.team s.cur.team).thread (s.home L).1 l).getP q.toNat = true ∧ ((t.team s.cur.team).thread (s.home L).1 l).st = .run) ∧
      ((s.cth L).member.getLsbD slot.toNat = true → ¬ s.slotFull (s.active x) (s.home L).1 slot →
        (t.wasAt s L).st = .rcv slot.toNat p ∧ (t.wasAt s L).pc = s.cur.pc ∧ (t.wasAt s L).arrived.getLsbD slot.toNat = true ∧
        (n ≠ 0 → ¬ s.slotBusy L slot → tabGet ((t.team s.cur.team).groupAt (s.home L).1).expiry slot.toNat 0 = s.now + n.toNat)) ∧
      (∀ k, s.cur.who = .conj k → s.cg.slot = slot.toNat → s.cur.level ≠ .h →
        ∀ c ∈ (t.team s.cur.team).conj, some (s.home L) ∉ c.pos))

/-- `BAR.ARV` and `BAR.SYNC` of a team barrier (R123, R152, R153): the barrier after the arrival, the generation
noted, and who waits; lanes of a complete generation go on at once when nothing is left of what its participants had outstanding
as they arrived. `BAR.WAIT` and the waiting mode of `CBAR` (R153, R154): active lanes wait for the generation at which their issuer
last arrived, unless that has completed. `CBAR` that arrives (R154): the cluster barrier after the arrival of this participant of
the cluster. -/
def Obligations.Barriers : Prop :=
  (∀ (x : XHead) (n : BitVec 4) (k : BitVec 6) (i : Instr) (s : State), i = .barArv x n k ∨ i = .barSync x n k →
    Issuing s → (∀ c, s.cur.who ≠ .conj c) →
    (s.active x = [] → ∃ t, exec i s = .next t ∧ Moved s t x ∧ OwnTeam s t ∧ RegsKept s t) ∧
    (s.active x ≠ [] → ∃ t, exec i s = .next t ∧ OwnTeam s t ∧ RegsKept s t ∧
      BarAfter (barArrived (s.ct.bar n.toNat) s.partNo k.toNat) (t.ct.bar n.toNat) s.ct.live ∧
      tabGet t.cg.arr n.toNat 0 = (s.ct.bar n.toNat).gen + 1 ∧
      (i = .barArv x n k → Moved s t x) ∧
      (i = .barSync x n k → ∀ L ∈ s.active x,
        (barFull (barArrived (s.ct.bar n.toNat) s.partNo k.toNat) s.ct.live →
          s.idsDone (s.ct.bar n.toNat).ids = true → s.barIds s.cur.team [s.partNo] = [] →
          (t.cth L).st = .run ∧ (t.cth L).pc = s.cur.pc + 12) ∧
        (¬ barFull (barArrived (s.ct.bar n.toNat) s.partNo k.toNat) s.ct.live → holdsBelow (s.ct.bar n.toNat) →
          (t.cth L).st = .bar n.toNat (s.ct.bar n.toNat).gen ∧ (t.cth L).pc = s.cur.pc)) ∧
      (holdsBelow (s.ct.bar n.toNat) → holdsBelow (t.ct.bar n.toNat)))) ∧
  (∀ (x : XHead) (i : Instr) (s : State) (n : Nat) (b : Bar),
    (∃ m : BitVec 4, i = .barWait x m ∧ n = m.toNat ∧ b = s.ct.bar n) ∨
      (i = .cbar x .wait ∧ n = 16 ∧ b = tabGet (s.launch s.ct.launch).cbars (s.ct.num / (s.launch s.ct.launch).r.c) {} ∧ s.active x ≠ []) →
    Issuing s → (∀ c, s.cur.who ≠ .conj c) →
    ∃ t, exec i s = .next t ∧ OwnTeam s t ∧ RegsKept s t ∧
      (barPending b (tabGet s.cg.arr n 0) = none → Moved s t x) ∧
      (∀ gen, barPending b (tabGet s.cg.arr n 0) = some gen → ∀ L ∈ s.active x,
        (t.cth L).st = .bar n gen ∧ (t.cth L).pc = s.cur.pc)) ∧
  (∀ (x : XHead) (m : CbarMode) (s : State), m ≠ .wait → Issuing s → (∀ c, s.cur.who ≠ .conj c) → s.active x ≠ [] →
    (s.launch? s.ct.launch).isSome = true →
    let cl := s.ct.num / (s.launch s.ct.launch).r.c
    let b := barArrived (tabGet (s.launch s.ct.launch).cbars cl {}) (s.ct.num * 64 + s.partNo) 0
    ∃ t, exec (.cbar x m) s = .next t ∧ t.mem = s.mem ∧ RegsKept s t ∧
      BarAfter b (tabGet (t.launch s.ct.launch).cbars cl {}) (s.clusterLive s.ct.launch cl) ∧
      (m = .arv → Moved s t x) ∧
      (m = .sync → ∀ L ∈ s.active x,
        (¬ barFull b (s.clusterLive s.ct.launch cl) → holdsBelow b →
          (t.cth L).st = .bar 16 (tabGet (s.launch s.ct.launch).cbars cl {}).gen ∧ (t.cth L).pc = s.cur.pc) ∧
        (barFull b (s.clusterLive s.ct.launch cl) → s.idsDone b.ids = true → s.barIds s.cur.team [s.partNo] = [] →
          (t.cth L).st = .run ∧ (t.cth L).pc = s.cur.pc + 12)) ∧
      (holdsBelow b → holdsBelow (tabGet (t.launch s.ct.launch).cbars cl {})))

/-- The decision queue (R31, R32, R155): a push with fewer than 64 entries adds its entry at the end, or drops it when no lane is
active or every group has exited. A pop takes the oldest entry open to its group, with p true: that entry, and no other, is
taken by the group, and of all entries those stay that somebody has still to take. Without an open entry it gives 0 and
false when the lead thread can push no more, and else waits. With no active lane it takes nothing. -/
def Obligations.DecisionQueue : Prop :=
  (∀ (x : XHead) (b : OpdB) (i : Instr) (bc : Bool) (s : State),
    (i = .dqpush x b ∧ bc = false) ∨ (i = .dqpushAll x b ∧ bc = true) → Issuing s → s.ct.dq.length < 64 →
      ∃ t, exec i s = .next t ∧ Moved s t x ∧ OwnTeam s t ∧ RegsKept s t ∧
        t.ct.dq = if s.active x = [] ∨ Team_liveGroups s.ct = [] then s.ct.dq else s.ct.dq ++ [⟨s.src1 b 0, bc, []⟩]) ∧
  (∀ (x : XHead) (gd : BitVec 7) (p : BitVec 3) (s : State), Issuing s → (∀ c, s.cur.who ≠ .conj c) →
    (s.active x = [] → ∃ t, exec (.dqpop x gd p) s = .next t ∧ Moved s t x ∧ OwnTeam s t ∧ RegsKept s t ∧ t.ct.dq = s.ct.dq) ∧
    (s.active x ≠ [] → ∀ n e, dqFirst s.ct.dq s.partNo = some n → s.ct.dq[n]? = some e →
      ∃ t taken, exec (.dqpop x gd p) s = .next t ∧ Moved s t x ∧ t.mem = s.mem ∧ RegsKept s t ∧
        HeldResult s t x ⟨.g, gd⟩ (fun _ => [e.val]) ∧ HeldLanes s t (s.active x) 3 p.toNat (fun _ => [1]) ∧
        (∀ g, g ∈ taken ↔ g = s.partNo ∨ g ∈ e.taken) ∧
        t.ct.dq = (s.ct.dq.take n ++ ⟨e.val, e.bcast, taken⟩ :: s.ct.dq.drop (n + 1)).filter (dqStays (Team_liveGroups s.ct))) ∧
    (s.active x ≠ [] → dqFirst s.ct.dq s.partNo = none → (∀ g, s.ct.lead = some g → ∀ th ∈ g.threads, th.st = .exited) →
      ∃ t, exec (.dqpop x gd p) s = .next t ∧ Moved s t x ∧ t.mem = s.mem ∧ RegsKept s t ∧ t.ct.dq = s.ct.dq ∧
        HeldResult s t x ⟨.g, gd⟩ (fun _ => [0]) ∧ HeldLanes s t (s.active x) 3 p.toNat (fun _ => [0])) ∧
    (s.active x ≠ [] → dqFirst s.ct.dq s.partNo = none → (∃ g th, s.ct.lead = some g ∧ th ∈ g.threads ∧ th.st ≠ .exited) →
      exec (.dqpop x gd p) s = .next s))

/-! ### Memory -/

/-- Loads (R67, R111, R134, R171, R177, R178): when no active lane faults, each lane that keeps its result has its registers
waiting, and an access under way at the place its address translates to. An element load has one access for each record it
touches, at the elements' places in their page, that of a stack window's address too (R91, R100). -/
def Obligations.LoadsIssued : Prop :=
  ∀ (i : Instr) (r : LoadIs), loadIs i = some r → i.wf = true → ∀ s : State, Issuing s → PortsOk s r.x (offPorts r.off) →
    AllPass (r.checks s) →
    ∃ t, exec i s = .next t ∧ Moved s t r.x ∧ AccessFrame s t ∧
      ∀ L va acc, (L, va, .ok acc) ∈ r.checks s → s.keeps r.x r.d L →
        match r.fmt with
        | .raw w sx => Awaits s t L (clsCode r.d.cls) r.d.no.toNat w.regs fun p =>
            UnderWay s t L acc.space w.bytes (.load (.pend p.id 0) w.bytes sx)
        | .elems n ty => ∃ e, acc.ent = some e ∧ Awaits s t L (clsCode r.d.cls) r.d.no.toNat (eltRegs n ty) fun p =>
            p.pack = (if ty = .f32 then .words else .halves) ∧ ∀ k < n.n, ∃ items,
              ((elemPlace e (Acc_off acc e + k)).2, k) ∈ items ∧
              UnderWay s t L (Acc_at acc (elemPlace e (Acc_off acc e + k)).1) (zbRec (fmtTy e.fmt))
                (.eload (.pend p.id 0) e.fmt items ty)

/-- Stores (R58, R67, R112, R177, R179): each active lane's data, as read at issue, is under way to the place its address
translates to. At issue no form changes memory, which changes when the store completes at its home, the scratchpad or a stack line,
which change when it acts there (`AccessesAct`), the team's registers and predicates, or another team. That the data of `ST.128` may
be of class `g` or `t` is the model's choice (log 39). -/
def Obligations.StoresIssued : Prop :=
  ∀ (i : Instr) (r : StoreIs), storeIs i = some r → i.wf = true → ∀ s : State, Issuing s → PortsOk s r.x r.srcs →
    AllPass (r.checks s) →
    ∃ t, exec i s = .next t ∧ Moved s t r.x ∧ AccessFrame s t ∧ (t.core s.cur.core).stack = (s.core s.cur.core).stack ∧
      ∀ L va acc, (L, va, .ok acc) ∈ r.checks s →
        match r.fmt with
        | .raw w => UnderWay s t L acc.space w.bytes (.store (s.storeBytes r.c w.bytes L))
        | .elems n ty rm sr => ∃ e, acc.ent = some e ∧ ∀ k < n.n, ∃ items,
            ((elemPlace e (Acc_off acc e + k)).2, s.storeElem r.c ty L k) ∈ items ∧
            UnderWay s t L (Acc_at acc (elemPlace e (Acc_off acc e + k)).1) (zbRec (fmtTy e.fmt))
              (.estore e.fmt items rm (if sr then some s.cg.phase.toNat else none) false)

/-- `ATOM` without an escort set, and `RED` (R190, R192): one access under way for each word, in which every lane of the word
has its part, and whose old value is the lane's result; memory, the scratchpad, stack lines, the team's registers and predicates, and
other teams stand as before. -/
def Obligations.AtomicsIssued : Prop :=
  ∀ (i : Instr) (r : AtomIs), atomIs i = some r → i.wf = true → ∀ s : State, Issuing s → PortsOk s r.x r.srcs →
    AllPass (r.checks s) →
    ∃ t, exec i s = .next t ∧ Moved s t r.x ∧ AccessFrame s t ∧ (t.core s.cur.core).stack = (s.core s.cur.core).stack ∧
      ∀ L va acc, (L, va, .ok acc) ∈ r.checks s →
        ∃ f ∈ t.flights, f.team = s.cur.team ∧ f.space = acc.space ∧ f.n = r.n ∧
          ∃ parts tg, f.op = .atomic r.op r.ty parts ∧ (tg, r.bv s L, r.cv s L) ∈ parts ∧ OldTo s t L r.d r.ty.regs tg

/-- The escort decision (R180 to R183, R220, R228): an accepted request goes with the registers as they stood, charges its
sectors and sets its predicate; a refused one escorts and charges nothing and clears it. Either way what the instruction asks
for is under way: with the request, or carried out unescorted. -/
def Obligations.EscortDecision : Prop :=
  ∀ (i : Instr) (r : EscIs), escIs i = some r → r.e.cnt ≠ 0 → i.wf = true → ∀ s : State, Issuing s → PortsOk s r.x r.srcs →
    AllPass (escChecks i s) →
    (EscFits s r → ∃ t q, exec i s = .next t ∧ Moved s t r.x ∧ EscSent s t r q ∧
      (t.core s.cur.core).used = (s.core s.cur.core).used + q.charge ∧ AsksFor s t i (some q.id) ∧
      ∀ L ∈ s.active r.x, Due s t 2 3 r.rp.toNat L [1]) ∧
    (s.active r.x ≠ [] → ¬ EscFits s r → ∃ t, exec i s = .next t ∧ Moved s t r.x ∧ t.escs = s.escs ∧
      (t.core s.cur.core).used = (s.core s.cur.core).used ∧ t.ct.esc = s.ct.esc ∧ AsksFor s t i none ∧
      ∀ L ∈ s.active r.x, Due s t 2 3 r.rp.toNat L [0])

/-- `CHS` (R193 to R195): every active lane's walk begins at its node, with its descriptor and the working values of
its escort registers; without an escort its registers wait for the results. `GATH`, `SCAT` and `SCAT.ADD` (R205 to R207): with an
active lane, the instruction enters its probe pass with every lane's bases and sources as they stand; `GATH` without an escort
has its destinations waiting. -/
def Obligations.WalksAndProbesBegin : Prop :=
  (∀ (x : XHead) (h : BitVec 2) (d : BitVec 7) (a : Opd) (b : OpdB) (rp : BitVec 3) (e : EscSet) (s : State),
    (Instr.chs x h d a b rp e).wf = true → Issuing s → PortsOk s x [b] →
    ∃ t, exec (.chs x h d a b rp e) s = .next t ∧ Moved s t x ∧ AccessFrame s t ∧ ∀ L ∈ s.active x,
      ∃ w ∈ t.walks, w.team = s.cur.team ∧ (w.grp, w.lane) = s.home L ∧ w.node = s.reg2 a L ∧ w.hops = 0 ∧
        w.desc = s.src1 b L ∧ (w.e = (List.range e.cnt.toNat).map fun k => (s.cth L).getV (e.base.toNat + k)) ∧
        (w.esc = none → Awaits s t L 0 d.toNat 2 fun p => w.dPend = p.id)) ∧
  (∀ (i : Instr) (x : XHead) (a : Opd) (b : OpdB) (c cnt : Nat) (s : State),
    (∃ h k sc d rp e, i = .gath x h k sc d a b rp e ∧ c = 0 ∧ cnt = 0) ∨
      (∃ h k sc cc, (i = .scat x h k sc a b cc ∨ ∃ ty, i = .scatAdd x h ty k sc a b cc) ∧ c = cc.toNat ∧ cnt = k.toNat + 1) →
    Issuing s → s.active x ≠ [] →
    ∃ t p, exec i s = .next t ∧ Moved s t x ∧ t.mem = s.mem ∧ p ∈ t.probes ∧ p.team = s.cur.team ∧ p.who = s.cur.who ∧
      p.instr = i ∧ p.pc = s.cur.pc ∧
      p.lanes = (s.active x).map (fun L => ⟨L, (s.home L).1, (s.home L).2, s.reg2 a L, s.src2 b L,
        (List.range cnt).map fun j => (s.cth L).getV (c + j)⟩) ∧
      (∀ h k sc d rp, i = .gath x h k sc d a b rp ⟨0, 0⟩ → ∀ L ∈ s.active x,
        Awaits s t L 0 d.toNat (k.toNat + 1) fun q => q.abroad = true ∧ q.id ∈ p.pends))

/-- `FNC` (R124, R196): with an active lane, its token waits for a fence over everything its issuer has under way,
or names the present time when nothing was ever issued. `ACP` (R197 to R199): of zero bytes it is done at once; otherwise
regions within bounds that do not meet, aligned, of at most 2^24 bytes in sectors, and mapped, have their copy started sector by
sector, with the token waiting for it. That a region which begins in global space is judged by its first byte is the model's choice
(log 39). -/
def Obligations.FencesAndCopies : Prop :=
  (∀ (x : XHead) (h : BitVec 2) (sc : Scope) (gd : Opd) (s : State), Issuing s →
    (s.active x = [] → ∃ t, exec (.fnc x h sc gd) s = .next t ∧ Moved s t x ∧ t.fences = s.fences) ∧
    (s.active x ≠ [] → ∃ t f, exec (.fnc x h sc gd) s = .next t ∧ Moved s t x ∧ t.mem = s.mem ∧ f ∈ t.fences ∧
      f.team = s.cur.team ∧ f.who = s.cur.who ∧
      (∃ p ∈ t.pends, p.id = f.pend ∧ p.team = s.cur.team ∧ p.who = s.cur.who ∧ p.cls = clsCode gd.cls ∧ p.no = gd.no.toNat ∧ p.cnt = 1) ∧
      f.waits = s.covered s.cur.team s.cur.who (decide (sc = .y)) ∧
      (f.waits = [] → s.knownT s.cur.team s.cur.who (decide (sc = .y)) = 0 → f.latest = s.gtc ∧ f.y = false) ∧
      (f.waits ≠ [] ∨ s.knownT s.cur.team s.cur.who (decide (sc = .y)) ≠ 0 →
        f.latest = s.knownT s.cur.team s.cur.who (decide (sc = .y)) ∧ f.y = decide (sc = .y)))) ∧
  (∀ (x : XHead) (h : BitVec 2) (gd a : Opd) (b : OpdB) (c : Opd) (s : State), Issuing s → s.active x ≠ [] →
    (s.reg1 c 0 = 0 → ∃ t, exec (.acp x h gd a b c) s = .next t ∧ Moved s t x ∧
      Awaits s t 0 (clsCode gd.cls) gd.no.toNat 1 fun p => p.vals = [some (BitVec.ofNat 32 s.gtc)] ∧ p.tok = some s.gtc) ∧
    (let n := (s.reg1 c 0).toNat
     let dst := s.reg2 a 0
     let src := s.src2 b 0
     let rs := s.regionWalk src n 0
     let rd := rs.2.2.regionWalk dst n 1
     n ≠ 0 → n % 32 = 0 → n ≤ 2 ^ 24 → dst.toNat % 32 = 0 → src.toNat % 32 = 0 →
      regionBad (s.hdrOf s.ct).scratch dst n = false → regionBad (s.hdrOf s.ct).scratch src n = false → regionsMeet dst src n = false →
      rs.1 = [] → rd.1 = [] →
      ∃ t e, exec (.acp x h gd a b c) s = .next t ∧ Moved s t x ∧ t.mem = s.mem ∧ e ∈ t.engines ∧ e.team = s.cur.team ∧
        e.who = s.cur.who ∧ e.kind = .acp ((sectorPlaces rd.2.1 dst n).zip (sectorPlaces rs.2.1 src n)) ∧
        (∀ l, l ∈ e.lines ↔ ∃ pa, Space.glob pa ∈ sectorPlaces rd.2.1 dst n ∧ l = pa / 128) ∧
        Awaits s t 0 (clsCode gd.cls) gd.no.toNat 1 fun p => e.pend = some p.id ∧ p.vals = [none]))

/-- Streams (R174, R200 to R204): `SRAFF` and `SRIND` configure, `SRSTOP` clears, in the issuer or in every group for the
lead thread; every other stream stays, but those that operands read as ports. `SRPRB` (R203): with no page more than 512 and no
fault, the pages of the remaining elements are pinned and the predicate is true; with more pages nothing is pinned and it is false.
That a path configures all 32 lanes, inactive ones too, and that the probe of a stream that is not active gives true and pins nothing,
are the model's choices (log 39); so is that `SRPRB` reads index words in the step that executes (log 6). -/
def Obligations.Streams : Prop :=
  (∀ (i : Instr) (x : XHead) (k : BitVec 4) (srcs : List OpdB) (s : State) (want : Stream → Prop),
    ((∃ h lsh lon a b c, i = .sraff x h k lsh lon a b c ∧ srcs = [b, .reg c] ∧ want = fun y =>
        y.active = true ∧ y.ind = false ∧ y.hint = h.toNat ∧ y.lsh = lsh.toNat ∧ y.lon = lon ∧ y.cur = [] ∧ y.buf = [] ∧ y.pins = [] ∧
        ∀ L < 32, tabGet y.a L 0 = s.reg2 a (if s.cur.who = .lead then 0 else L) ∧
          tabGet y.stride L 0 = s.src1 b (if s.cur.who = .lead then 0 else L) ∧
          tabGet y.count L 0 = (s.reg1 c (if s.cur.who = .lead then 0 else L)).toNat) ∨
     (∃ h lsh lon sc a b c, i = .srind x h k lsh lon sc a b c ∧ srcs = [.reg c] ∧ want = fun y =>
        y.active = true ∧ y.ind = true ∧ y.hint = h.toNat ∧ y.lsh = lsh.toNat ∧ y.lon = lon ∧ y.sc = sc.toNat ∧ y.cur = [] ∧ y.buf = [] ∧ y.pins = [] ∧
        ∀ L < 32, tabGet y.a L 0 = s.reg2 a (if s.cur.who = .lead then 0 else L) ∧
          tabGet y.b L 0 = s.src2 b (if s.cur.who = .lead then 0 else L) ∧
          tabGet y.count L 0 = (s.reg1 c (if s.cur.who = .lead then 0 else L)).toNat) ∨
     (∃ h, i = .srstop x h k ∧ srcs = [] ∧ want = fun y => y = { cfg := y.cfg, floor := y.floor, acqs := y.acqs })) →
    Issuing s → PortsOk s x srcs →
    (s.active x = [] → ∃ t, exec i s = .next t ∧ Moved s t x) ∧
    (s.active x ≠ [] → ∃ t, exec i s = .next t ∧ Moved s t x ∧ t.mem = s.mem ∧
      (s.cur.who ≠ .lead → want (t.cg.stream k.toNat) ∧
        (tabRises s.cg.streams → ∀ j, j ≠ k.toNat → j ∉ portsOf srcs → t.cg.stream j = s.cg.stream j)) ∧
      (s.cur.who = .lead → t.ct.groups.length = s.ct.groups.length ∧ ∀ (n : Nat) (g u : Group),
        s.ct.groups[n]? = some g → t.ct.groups[n]? = some u → (g.exited = true → u = g) ∧
          (g.exited = false → want (u.stream k.toNat) ∧ (tabRises g.streams → ∀ j, j ≠ k.toNat → u.stream j = g.stream j))))) ∧
  (∀ (x : XHead) (h : BitVec 2) (k : BitVec 4) (rp : BitVec 3) (s : State), Issuing s →
    (s.active x = [] → ∃ t, exec (.srprb x h k rp) s = .next t ∧ Moved s t x) ∧ (s.active x ≠ [] →
    let st := s.cg.stream k.toNat
    let r := ((Team_alive s.ct s.cur.who).filter fun L => Stream_live st L).foldl
      (fun (acc : List Nat × List (Nat × Flt) × State) L =>
        let q := acc.2.2.probeLane st L
        (q.1.foldl insertNat acc.1, acc.2.1 ++ q.2.1.map (fun f => (L, f)), q.2.2)) ([], [], s)
    (r.1.length ≤ 512 → r.2.1 = [] → ∃ t, exec (.srprb x h k rp) s = .next t ∧ Moved s t x ∧ t.mem = s.mem ∧
      t.cg.stream k.toNat = { st with pins := r.1 } ∧
      (tabRises s.cg.streams → ∀ j, j ≠ k.toNat → t.cg.stream j = s.cg.stream j) ∧
      HeldLanes s t (s.active x) 3 rp.toNat (fun _ => [1])) ∧
    (r.1.length > 512 → ∃ t, exec (.srprb x h k rp) s = .next t ∧ Moved s t x ∧ t.mem = s.mem ∧
      (∀ j, t.cg.stream j = s.cg.stream j) ∧ HeldLanes s t (s.active x) 3 rp.toNat (fun _ => [0]))))

/-! ### Capabilities and remote accesses -/

/-- `LD.C`, `ST.C`, `ATOM.C` and `RED.C` (R189, R208, R209, R326): outside the handler, when every active lane's capability
allows its access, each lane's request goes to its peer's address. That the data of `ST.C.128` may be of class `g` or `t` is the
model's choice (log 39). -/
def Obligations.RemoteRequests : Prop :=
  ∀ (i : Instr) (r : RemIs), remIs i = some r → i.wf = true → ∀ s : State, Issuing s → PortsOk s r.x r.srcs → s.cur.level ≠ .h →
    (∀ L ∈ s.active r.x, CapAllows ((s.cth L).getC r.cap.toNat) r.right (needsOne i) (r.off s L) r.n) →
    ∃ t, exec i s = .next t ∧ Moved s t r.x ∧ AccessFrame s t ∧
      ∀ L ∈ s.active r.x, ∃ q, Sent s t L r q ∧ remoteOp i s t L q.op

/-- Capability registers (R208, R211, R328): `CAPNAR`, `CAPRST`, `CAPCHK`, and `CAPMK` at level S. -/
def Obligations.CapabilityRegisters : Prop :=
  ∀ (x : XHead) (s : State), Issuing s →
    (∀ cd ca b c mask, ∃ t f, exec (.capnar x cd ca b c mask) s = .next t ∧ Moved s t x ∧ HeldCap s t (s.active x) cd f ∧
      ∀ L, Narrowed ((s.cth L).getC ca.toNat) (s.src2 b L) (s.reg2 c L) mask (f L)) ∧
    (∀ cd, ∃ t, exec (.caprst x cd) s = .next t ∧ Moved s t x ∧ HeldCap s t (s.active x) cd fun _ => ⟨0, false⟩) ∧
    (∀ p ca b c mask, ∃ t, exec (.capchk x p ca b c mask) s = .next t ∧ Moved s t x ∧
      HeldLanes s t (s.active x) 3 p.toNat fun L =>
        [if capCovers ((s.cth L).getC ca.toNat) (s.src2 b L) (s.reg2 c L) mask then 1 else 0]) ∧
    (∀ cd b, s.cur.level = .s → ∃ t, exec (.capmk x cd b) s = .next t ∧ Moved s t x ∧
      HeldCap s t (s.active x) cd fun L => ⟨s.quad b L, true⟩)

/-- Capability records (R211, R328): `CAPLD` reads 32 bytes, which land as `ResultsWritten` says; `CAPST` writes the capability, with
byte 16 one and its check when tagged and zeros when not; `CAPMK.REC`, at level S, writes a record for the world it names, tagged
when that world has keys. That a tagged capability of a world without keys is sealed under epoch 0 is the model's choice (log 37). -/
def Obligations.CapabilityRecords : Prop :=
  ∀ (x : XHead) (a : Opd) (s : State), Issuing s →
    (∀ cd disp, AllPass (s.laneChecks x [] (s.laneVa a (capDisp disp)) 32 0 false) →
      ∃ t, exec (.capld x cd a disp) s = .next t ∧ Moved s t x ∧ AccessFrame s t ∧
        ∀ L va acc, (L, va, .ok acc) ∈ s.laneChecks x [] (s.laneVa a (capDisp disp)) 32 0 false →
          Awaits s t L 4 cd.toNat 1 fun p => p.vals.length = 8 ∧ UnderWay s t L acc.space 32 (.load (.pend p.id 0) 32 false)) ∧
    (∀ (i : Instr) (va : Nat → Dword) (c : Nat → Capa) (w : Nat),
      (∃ disp cs, i = .capst x a disp cs ∧ va = s.laneVa a (capDisp disp) ∧ c = (fun L => (s.cth L).getC cs.toNat) ∧ w = s.cw) ∨
        (∃ b wn, i = .capmkRec x a b wn ∧ s.cur.level = .s ∧ va = s.reg2 a ∧
          c = (fun L => ⟨s.quad b L, (s.world wn.toNat).keys.isSome⟩) ∧ w = wn.toNat) →
      AllPass (s.laneChecks x [] va 32 1 false) →
      ∃ t, exec i s = .next t ∧ Moved s t x ∧ AccessFrame s t ∧
        ∀ L v acc, (L, v, .ok acc) ∈ s.laneChecks x [] va 32 1 false →
          UnderWay s t L acc.space 32 (.store (leBytes 16 (c L).val.toNat ++
            if (c L).tag then 1 :: leBytes 15 (Config.capCheck ((s.world w).keys.getD 0) (c L).val w).toNat
            else List.replicate 16 0)))

/-! ### Kills, control registers and the return from the handler -/

/-- Kills at issue (R22, R71, R148, R198, R213, R214, R220, R233, R235, R255, R260, R328): the issuer's home groups, or for
the lead thread the whole team, exit, the sticky bit of the cause is set, and the first error names the instruction. So does the
issue of a path whose word no instruction has, or that lies outside the code region (R46, R69, R70), and with the checking
scoreboard that of a hazard (R64), at level H with DTRAP (R220). That the level of a control register, a capability or a remote form
is tested before it is asked whether a lane is active is the model's choice (log 37). -/
def Obligations.KillsTaken : Prop :=
  (∀ (i : Instr) (s : State) (bit : Nat), Kills s i bit → Issuing s → ∃ t, exec i s = .next t ∧ Killed s t bit) ∧
  ∀ (s : State) (r : List Turn) (core : Nat) (t : Team) (a : Actor) (p : Path) (f : Fetched) (w : Word) (bit : Nat),
    s.agenda = .issue core :: r → SoleIssuer s core t a → picksOf (t.actor a).ages (s.pathsF t a) = [(p, f)] →
    ((f = .illegal w ∨ f = .outside w) ∧ bit = eIll ∨
      ∃ i len, f = .ok i len w ∧ s.hazard t a p i = true ∧ bit = if p.level = .h then eDtrap else eScb) →
    ∃ u, step s = .next u ∧ u.mem = s.mem ∧ Killed { s with cur := ctxOf core t.id a p 4 w 0 none } u bit

/-- `CSRR` and `CSRW` (R233 to R235): at a level that may, the register is read into the pair of each active lane, or
written from the pair of the highest active one. A read of TLBINV waits for the group's invalidates. A write of FQRES acts as
the resume it names (R217). -/
def Obligations.ControlRegisters : Prop :=
  ∀ (x : XHead) (n : BitVec 12) (s : State), Issuing s →
    (∀ d : BitVec 7, s.cur.level ∈ (csrLevels n.toNat).1 →
      (n = 0x030 → s.cg.invs ≠ [] → exec (.csrr x d n) s = .next s) ∧
      ((n = 0x030 → s.cg.invs = []) → ∃ t, exec (.csrr x d n) s = .next t ∧ Moved s t x ∧ t.mem = s.mem ∧ RegsKept s t ∧
        HeldLanes s t (s.active x) 0 d.toNat fun _ => [lo (s.csrIs n.toNat), hi (s.csrIs n.toNat)])) ∧
    (∀ a : Opd, s.cur.level ∈ (csrLevels n.toNat).2 →
      (s.active x = [] → ∃ t, exec (.csrw x n a) s = .next t ∧ Moved s t x) ∧
      (∀ L, (s.active x).getLast? = some L →
        (n ≠ 0x024 → ∃ t, exec (.csrw x n a) s = .next t ∧ Moved s t x ∧ t.mem = s.mem ∧ RegsKept s t ∧
          CsrWritten s t n.toNat (s.reg2 a L)) ∧
        (n = 0x024 → ∃ u t, exec (.nopExt x) s = .next u ∧ exec (.csrw x n a) s = .next t ∧
          let v := s.reg2 a L
          let tag : Word := v.extractLsb' 0 32
          (v.toNat / 2 ^ 32 = 0 → exec (.retry s.cw tag) u = .next t) ∧ (v.toNat / 2 ^ 32 = 1 → exec (.skip s.cw tag) u = .next t) ∧
          (v.toNat / 2 ^ 32 = 2 → exec (.kill s.cw tag) u = .next t) ∧ (3 ≤ v.toNat / 2 ^ 32 → t = u))))

/-- `ERET` (R219, R235): while no other sub-group waits for the handler, every lane of the group at level H that has not
exited goes on at level U, at TPC or past it; KILL kills the group with FLT, and ERRPC and ERRWORD, unless an earlier error holds
them, name the instruction that trapped (R214). -/
def Obligations.HandlerReturn : Prop :=
  ∀ (x : XHead) (act : Action) (s : State) (p : Park), Issuing s → s.cur.level = .h →
    s.parks.find? (fun q => q.team = s.cur.team && q.who = s.cur.who && q.inH) = some p →
    (∀ q ∈ s.parks, q.team = s.cur.team → q.who = s.cur.who → q.inH = false → q.handler = none) →
    ∃ t, exec (.eret x act) s = .next t ∧
      (act ≠ .kill → OwnTeam s { t with parks := s.parks } ∧ RegsKept s t ∧ p ∉ t.parks ∧
        ∀ L < 32, (s.cth L).level = .h → (s.cth L).st ≠ .exited → (s.cth L).st ≠ .exiting → Team_standsIn s.ct s.cur.who L = true →
          (t.cth L).level = .u ∧ (t.cth L).st = .run ∧
          (t.cth L).pc = if p.trapCls ∨ (act = .skip ∧ p.fetch = false) then s.cg.trap.pc + BitVec.ofNat 64 p.len else s.cg.trap.pc) ∧
      (act = .kill → (∀ l ∈ t.launches, l.id = s.ct.launch → l.ctxerr.getLsbD eFlt = true) ∧
        (∀ l ∈ s.launches, l.id = s.ct.launch → l.errSet = false →
          ∃ m ∈ t.launches, m.id = l.id ∧ m.errSet = true ∧ m.errpc = p.pc ∧ m.errword = p.word) ∧
        (t.team? s.cur.team = none ∨ ∀ g ∈ s.dying, ∀ th ∈ ((t.team s.cur.team).groupAt g).threads, th.st = .exited))

/-! ### Regrouping, launches and events -/

/-- `REGROUP` (R256, R257): its active lanes become members of the slot and candidates submitted now, waiting at the next
instruction; the others go on. -/
def Obligations.RegroupSubmits : Prop :=
  ∀ (x : XHead) (slot : BitVec 4) (w : BitVec 10) (s : State), Issuing s → (∀ c, s.cur.who ≠ .conj c) →
    (∀ L ∈ s.active x, ¬ s.slotBusy L slot) →
    ∃ t, exec (.regroup x slot w) s = .next t ∧ OwnTeam s t ∧ RegsKept s t ∧
      (∀ L ∈ s.path, (t.cth L).pc = s.nextPc ∧ (L ∉ s.active x → (t.cth L).st = .run)) ∧
      ∀ L ∈ s.active x, (t.cth L).st = .submitted ∧ (t.cth L).member = setBit (s.cth L).member slot.toNat true ∧
        (t.cth L).arrived = setBit (s.cth L).arrived slot.toNat false ∧
        (⟨(s.home L).1, (s.home L).2, s.nextPc, s.now, s.now + w.toNat, slot.toNat⟩ : Cand) ∈ t.ct.cands

/-- `EVSIG` and `EVWAIT` (R244, R255) of an event below 4,096: the signal is under way to its record at EVBASE +
16 times its number, a release; a wait whose read may perform now and finds its count reached goes on, as an acquire, and else the
active lanes wait. `LAUNCH` (R254): a record that can be read, for a queue of the issuer's world, is stored at the queue's tail, which
moves on, and the result is the old tail; a queue that is disabled, fed by the host or full gives all ones and changes nothing. That
the record is read in the step that executes is the model's choice (log 6). -/
def Obligations.EventsAndLaunches : Prop :=
  (∀ (x : XHead) (b : OpdB) (s : State), Issuing s →
    (s.active x = [] → (∃ t, exec (.evsig x b) s = .next t ∧ Moved s t x) ∧ ∀ a, ∃ t, exec (.evwait x a b) s = .next t ∧ Moved s t x) ∧
    ∀ L, (s.active x).getLast? = some L → (s.src1 b L).toNat < 4096 →
      let e := (s.src1 b L).toNat
      let pa := (s.world s.cw).evbase.toNat + 16 * e
      (∃ t, exec (.evsig x b) s = .next t ∧ Moved s t x ∧ AccessFrame s t ∧
        ∃ f ∈ t.flights, f.team = s.cur.team ∧ f.who = s.cur.who ∧ f.space = .glob pa ∧ f.n = 16 ∧ f.op = .signal ∧
          s.knownT s.cur.team s.cur.who false ≤ f.floor ∧ ∀ id ∈ s.covered s.cur.team s.cur.who false, id < s.nextId → id ∈ f.after) ∧
      (∀ a : Opd, s.evReady s.ct s.cur.who (s.lanesOf (s.active x)) e = true → (s.reg2 a L).toNat ≤ leNat (s.phys (some s.cw) pa 8) →
        ∃ t, exec (.evwait x a b) s = .next t ∧ Moved s t x ∧ OwnTeam s { t with served := s.served } ∧ RegsKept s t ∧
          s.gtc ≤ t.cg.floor) ∧
      (∀ a : Opd, s.evReady s.ct s.cur.who (s.lanesOf (s.active x)) e = false ∨ leNat (s.phys (some s.cw) pa 8) < (s.reg2 a L).toNat →
        ∃ t, exec (.evwait x a b) s = .next t ∧ OwnTeam s t ∧ RegsKept s t ∧
          (∀ M ∈ s.active x, (t.cth M).st = .event e (s.reg2 a L) s.cur.len ∧ (t.cth M).pc = s.cur.pc) ∧
          ∀ M ∈ s.path, M ∉ s.active x → (t.cth M).st = .run ∧ (t.cth M).pc = s.nextPc)) ∧
  (∀ (x : XHead) (gd a : Opd) (qn : BitVec 10) (s : State) (L : Nat) (acc : Acc), Issuing s → (s.active x).getLast? = some L →
    -- the queue notes that the core has reached it (R129, R261)
    let s0 := s.queueServe qn.toNat s.cur.core
    (s0.access s.cur.core s.cur.team (s.home L).1 (s.home L).2 (s.reg2 a L) 128 128 kRead false).1 = .ok acc →
    let s1 := (s0.access s.cur.core s.cur.team (s.home L).1 (s.home L).2 (s.reg2 a L) 128 128 kRead false).2
    let q := s.queue qn.toNat
    (q.slots ≠ 0 → q.owner = s.cw → (q.priv = true → s.cur.level = .s) →
      ((q.en = false ∨ q.devq = false ∨ (q.tail - q.head).toNat = 2 ^ q.size) →
        ∃ t, exec (.launch x gd a qn) s = .next t ∧ Moved s t x ∧ t.mem = s.mem ∧ t.flights.map (·.id) = s.flights.map (·.id) ∧
          t.queue qn.toNat = { q with avail := (t.queue qn.toNat).avail, stores := (t.queue qn.toNat).stores } ∧
          Awaits s t L (clsCode gd.cls) gd.no.toNat 1 fun p => p.vals = [some 0xFFFFFFFF]) ∧
      (q.en = true → q.devq = true → (q.tail - q.head).toNat ≠ 2 ^ q.size → ∀ d,
        (s1.globAcc s.cur.core s.cw (q.base + BitVec.ofNat 64 (128 * (q.tail.toNat % 2 ^ q.size))) kWrite false).1 = .ok d →
        ∃ t, exec (.launch x gd a qn) s = .next t ∧ Moved s t x ∧ t.mem = s.mem ∧
          (t.queue qn.toNat).tail = q.tail + 1 ∧
          (∃ f ∈ t.flights, f.team = s.cur.team ∧ f.space = d.space ∧ f.n = 128 ∧
            f.op = .store (s1.spaceBytes s.cur.core s.cur.team acc.space 128) ∧ f.id ∈ (t.queue qn.toNat).stores) ∧
          Awaits s t L (clsCode gd.cls) gd.no.toNat 1 fun p => p.vals = [some q.tail])) ∧
    ((q.slots = 0 ∨ q.owner ≠ s.cw ∨ (q.priv = true ∧ s.cur.level ≠ .s)) →
      ∃ t, exec (.launch x gd a qn) s = .next t ∧ Killed s t ePriv))

/-! ### Tiles -/

/-- `MZERO`, `MRD`, `MWR`, `MWMK` (R262 to R265, R275), outside a conjugate group: the tile's cells; a read waits for the
incomplete writers of its row; writes take effect in ascending home lane; the watermark is that of the cycle's start. -/
def Obligations.TileRegisters : Prop :=
  ∀ (x : XHead) (md : BitVec 6) (s : State), Issuing s → (∀ c, s.cur.who ≠ .conj c) →
    let tile := s.ct.tile md.toNat
    (s.active x ≠ [] → ∃ t, exec (.mzero x md) s = .next t ∧ Settled s t x ∧ OtherTiles s t (· = md.toNat) ∧
      (∀ r c, (t.ct.tile md.toNat).cell r c = 0) ∧ TileOpOn s t md.toNat (fun _ => True)) ∧
    (∀ (d : Opd) (b : OpdB), PortsOk s x [b] → ∃ t, exec (.mrd x d md b) s = .next t ∧ Settled s t x ∧
      t.ct.tiles = s.ct.tiles ∧ ∀ L ∈ s.active x, s.keeps x d L → Awaits s t L (clsCode d.cls) d.no.toNat 1 fun p =>
        p.vals = [some (tile.cell (s.cellOf b L).1 (s.cellOf b L).2)] ∧
        ∀ e ∈ s.engines, WritesRow s e md.toNat (s.cellOf b L).1 → e.id ∈ p.tiles) ∧
    (∀ (a : Opd) (b : OpdB), PortsOk s x [.reg a, b] → s.active x ≠ [] →
      ∃ t, exec (.mwr x md a b) s = .next t ∧ Settled s t x ∧ OtherTiles s t (· = md.toNat) ∧
        TileOpOn s t md.toNat (fun r => ∃ L ∈ s.active x, (s.cellOf b L).1 = r) ∧
        (tabRises tile.c →
          (∀ L ∈ s.active x, (∀ M ∈ s.active x, M ≠ L → s.cellOf b M = s.cellOf b L → (s.home M).2 < (s.home L).2) →
            (t.ct.tile md.toNat).cell (s.cellOf b L).1 (s.cellOf b L).2 = s.reg1 a L) ∧
          ∀ r c, r < 32 → c < 16 → (∀ L ∈ s.active x, s.cellOf b L ≠ (r, c)) → (t.ct.tile md.toNat).cell r c = tile.cell r c)) ∧
    (∀ d : Opd, ∃ t, exec (.mwmk x d md) s = .next t ∧ Settled s t x ∧ t.ct.tiles = s.ct.tiles ∧
      ∀ L ∈ s.active x, s.keeps x d L →
        Due s t 2 (clsCode d.cls) d.no.toNat L [BitVec.ofNat 32 (if tile.cyc < s.now then tile.wmNew else tile.wm)])

/-- `MLDB` and `MGATA` (R268 to R272) whose probe finds no fault: the latch holds the elements at the rows' addresses; rows of
inactive lanes of an active quarter, and what lies beyond K, hold zero. That every element is read as it stands when the
instruction issues is the model's choice (log 6): R269 has each sector read at one time between issue and completion. -/
def Obligations.LatchesFilled : Prop :=
  (∀ (x : XHead) (ty : Ty) (bl : Bool) (a : Opd) (stride : BitVec 24) (s : State), Issuing s → (∀ c, s.cur.who ≠ .conj c) →
    s.active x ≠ [] →
    let row (r : Nat) : Dword := s.reg2 a 0 + BitVec.ofNat 64 (r * stride.toNat)
    let k := if ty = .f16 ∨ ty = .b16 then 16 else 32
    let rs := (List.range k).map fun r => (row r, 16 * elemSize ty)
    (∀ r ∈ rs, s.regionKills r = false) → (s.reg2 a 0).toNat % 16 = 0 → stride.toNat % 16 = 0 →
    (s.probePages rs kRead (fmtWant ty)).1 = [] →
    ∃ t, exec (.mldb x ty bl a stride) s = .next t ∧ Settled s t x ∧ t.ct.tiles = s.ct.tiles ∧ t.cg.al = s.cg.al ∧
      (t.cg.latchB (if bl then 1 else 0)).k = k ∧ ∀ r < 32, ∀ j < 16, tabGet (t.cg.latchB (if bl then 1 else 0)).e (32 * r + j) 0 =
        if r < k then s.elemOn (s.probePages rs kRead (fmtWant ty)).2.1 ty (row r + BitVec.ofNat 64 (j * elemSize ty)) else 0) ∧
  (∀ (x : XHead) (ty : Ty) (a : Opd) (b : OpdB) (stride : BitVec 24) (s : State), Issuing s → (∀ c, s.cur.who ≠ .conj c) →
    s.active x ≠ [] →
    let row (L : Nat) : Dword := s.reg2 a 0 + (s.src1 b L).zeroExtend 64 * BitVec.ofNat 64 stride.toNat
    let k := if ty = .f16 ∨ ty = .b16 then 16 else 32
    let r := (s.active x).foldl (fun (acc : List (Nat × Flt) × List (Dword × Acc) × State) L =>
      let q := acc.2.2.probePages [(row L, 32)] kRead (fmtWant ty)
      (acc.1 ++ q.1.map (fun f => (L, f)), acc.2.1 ++ q.2.1, q.2.2)) ([], [], s)
    (∀ L ∈ s.active x, s.regionKills (row L, 32) = false) → (s.reg2 a 0).toNat % 32 = 0 → stride.toNat % 32 = 0 → r.1 = [] →
    tabRises s.cg.al →
    ∃ t, exec (.mgata x ty a b stride) s = .next t ∧ Settled s t x ∧ t.ct.tiles = s.ct.tiles ∧ t.cg.bl = s.cg.bl ∧
      ∀ L < 32, s.rowActive x L → (t.cg.latchA (L / 8)).k = k ∧ ∀ i < 32, tabGet (t.cg.latchA (L / 8)).e (32 * (L % 8) + i) 0 =
        if L ∈ s.active x ∧ i < k then s.elemOn r.2.1 ty (row L + BitVec.ofNat 64 (i * elemSize ty)) else 0)

/-- `MMQ` and `MMS` (R97, R273, R280, R281): to every element of a row of an active quarter is added, with one rounding of
the exact sum and one of the addition, the sum of the products of its row and column; other rows stay. `MMS` without entries
to take, or without an active lane, changes nothing. That `MMS` reads header, entries and rows of B in the step that executes
(log 6), and the sign of an exact sum of negative zeros (log 37), are the model's choices. -/
def Obligations.TileProducts : Prop :=
  ∀ (x : XHead) (md : BitVec 6) (s : State), Issuing s → (∀ c, s.cur.who ≠ .conj c) →
    let tile := s.ct.tile md.toNat
    (∀ bl : Bool, s.active x ≠ [] →
      let bL := s.cg.latchB (if bl then 1 else 0)
      ∃ t, exec (.mmq x md bl) s = .next t ∧ Settled s t x ∧ OtherTiles s t (· = md.toNat) ∧ TileOpOn s t md.toNat (s.rowActive x) ∧
        (tabRises tile.c → ∀ r < 32, ∀ j < 16,
          (s.rowActive x r → (t.ct.tile md.toNat).cell r j = macInto (tile.cell r j) ((List.range bL.k).map fun k =>
            (tabGet (s.cg.latchA (r / 8)).e (32 * (r % 8) + k) 0, tabGet bL.e (32 * k + j) 0))) ∧
          (¬ s.rowActive x r → (t.ct.tile md.toNat).cell r j = tile.cell r j))) ∧
    (∀ a gs c : Opd,
      let n (k : Nat) : Nat := (s.regAt gs k 0).toNat
      let cb := (s.reg1 c 0).toNat
      ((s.active x = [] ∨ n 3 % 512 = 0 ∨ n 2 ≤ n 1) →
        ∃ t, exec (.mms x md a gs c) s = .next t ∧ Settled s t x ∧ t.ct.tiles = s.ct.tiles ∧ t.engines = s.engines) ∧
      (s.active x ≠ [] → n 3 % 512 ≠ 0 → n 1 < n 2 → ∀ h es vp bp s1,
        s.mmsRead (s.reg2 a 0) (n 0) (n 1) (n 2) cb (s.quarters (s.active x)) = .ok (h, es, vp, bp) s1 →
        ∃ t, exec (.mms x md a gs c) s = .next t ∧ Settled s t x ∧ OtherTiles s t (· = md.toNat) ∧ TileOpOn s t md.toNat (s.rowActive x) ∧
          (tabRises tile.c → ∀ r < 32, ∀ j < 16,
            (s.rowActive x r → (t.ct.tile md.toNat).cell r j = macInto (tile.cell r j)
              ((es.filter fun e => e.1 = r % 8).map fun e =>
                (s1.elemOn vp h.vt (h.vals + BitVec.ofNat 64 (e.2.2 * elemSize h.vt)),
                  if cb + 16 * (r / 8) + j < h.n then
                    s1.elemOn bp h.bt (h.bbase + BitVec.ofNat 64 (e.2.1 * h.bstride + (cb + 16 * (r / 8) + j) * elemSize h.bt))
                  else 0))) ∧
            (¬ s.rowActive x r → (t.ct.tile md.toNat).cell r j = tile.cell r j))))

/-- `MST` and `TCUT` (R264, R276 to R279): a store whose probe finds no fault is under way with the elements of the active
quarters as they stand in tile order, after the writers of those rows; with dither the phase moves on by 17. The cutter
answers the next tile of the band, or the end; that it reads header and band in the step that executes is the model's choice
(log 6). -/
def Obligations.TileStoresAndCuts : Prop :=
  (∀ (x : XHead) (ty : Ty) (m : MstMod) (gd a : Opd) (md : BitVec 6) (stride : BitVec 24) (s : State), Issuing s →
    (∀ c, s.cur.who ≠ .conj c) → s.active x ≠ [] →
    let rows := (List.range 32).filter fun r => decide (r / 8 ∈ s.quarters (s.active x))
    let addr := mstAddr m.qc (s.reg2 a 0) stride.toNat (elemSize ty)
    let rs := rows.map fun i => (addr i 0, 16 * elemSize ty)
    let p := s.probePages rs kWrite (fmtWant ty)
    (∀ r ∈ rs, s.regionKills r = false) → (s.reg2 a 0).toNat % 16 = 0 → stride.toNat % 16 = 0 → p.1 = [] →
    ∃ t, exec (.mst x ty m gd a md stride) s = .next t ∧ Settled s t x ∧ t.ct.tiles = s.ct.tiles ∧
      t.cg.phase = (if m.sr then s.cg.phase + 17 else s.cg.phase) ∧
      ∃ e ∈ t.engines, e.team = s.cur.team ∧ e.who = s.cur.who ∧ (TokenDue s t gd fun q => e.pend = some q.id ∧ q.vals = [none]) ∧
        ∃ first ws, e.kind = .mst first ws ∧ (∀ f ∈ s.engines, ∀ r ∈ rows, WritesRow s f md.toNat r → f.id ∈ first) ∧
          ws = if fmtWant ty = 0 then s.mstPlain ty m (s.ct.tile md.toNat) p.2.1 rows addr
               else s.mstZb ty m (s.ct.tile md.toNat) p.2.1 rows addr) ∧
  (∀ (x : XHead) (gd a : Opd) (bud : BitVec 9) (sc : BitVec 2) (s : State), Issuing s → (∀ c, s.cur.who ≠ .conj c) →
    let n (k : Nat) : Nat := (s.regAt gd k 0).toNat
    let row := if (n 3).testBit 31 then n 0 + 8 else n 0
    let k0 := if (n 3).testBit 31 then 0 else n 2
    let answers (t : State) (ws : List Nat) : Prop := Awaits s t 0 (clsCode gd.cls) gd.no.toNat 4 fun p =>
      p.vals = ws.map fun w => some (BitVec.ofNat 32 w)
    ((s.active x = [] ∨ (n 3).testBit 30 = true) → ∃ t, exec (.tcut x gd a bud sc) s = .next t ∧ Settled s t x ∧ t.pends = s.pends) ∧
    (s.active x ≠ [] → (n 3).testBit 30 = false → ∀ h s1, s.sparseHdr (s.reg2 a 0) = .ok h s1 →
      (h.m ≤ row → ∃ t, exec (.tcut x gd a bud sc) s = .next t ∧ Settled s t x ∧ answers t [row, h.k, h.k, 3 * 2 ^ 30]) ∧
      (row < h.m → ∀ es s2 ws, s1.bandEntries h row = .ok es s2 →
        cutBand (es.map fun e => e.2.1) h.k (8 * 2 ^ sc.toNat) bud.toNat row k0 = some ws →
        ∃ t, exec (.tcut x gd a bud sc) s = .next t ∧ Settled s t x ∧ answers t ws)))

/-! ### Attention and sequences -/

/-- `INFL` and `ATTN` (R290 to R297): a record that can be read and is in range fills its slot; a descriptor in range, whose
tiles fit and whose probe finds no fault, puts the rows of attention into its tiles, with an engine under way and a token. That the
record, the query, the weights and the cache are read in the step that executes is the model's choice (logs 6 and 32). -/
def Obligations.AttentionInstructions : Prop :=
  ∀ (x : XHead) (a : Opd) (n : BitVec 2) (s : State), Issuing s → (∀ c, s.cur.who ≠ .conj c) → s.active x ≠ [] →
    (∀ acc sl, regionBad (s.hdrOf s.ct).scratch (s.reg2 a 0) 32 = false → (s.reg2 a 0).toNat % 32 = 0 →
      (s.access s.cur.core s.cur.team 0 0 (s.reg2 a 0) 32 32 kRead false).1 = .ok acc →
      parseInfl ((s.access s.cur.core s.cur.team 0 0 (s.reg2 a 0) 32 32 kRead false).2.spaceBytes s.cur.core s.cur.team acc.space 32) = some sl →
      ∃ t, exec (.infl x n a) s = .next t ∧ Settled s t x ∧ t.ct.tiles = s.ct.tiles ∧ tabFind t.ct.infl n.toNat = some sl) ∧
    (∀ (absorb : Bool) (gd : Opd) (md : BitVec 6) sl d, aperOf (s.reg2 a 0) = .scr →
      let off := (s.reg2 a 0).toNat % 2 ^ 48
      off + 64 ≤ (s.hdrOf s.ct).scratch → (s.reg2 a 0).toNat % 64 = 0 → tabFind s.ct.infl n.toNat = some sl →
      parseDesc sl (s.scratchBytes s.cur.team off 64) = some d → md.toNat + d.dh / 16 < (s.hdrOf s.ct).acc →
      let p := s.attnProbe sl d
      p.1 = [] → tabRises s.ct.tiles →
      ∃ t, exec (.attn x absorb gd a md n) s = .next t ∧ Settled s t x ∧
        (∀ k, (t.ct.tile k).c =
          ((attnTiles s.ct (p.2.2.2.attnEnv p.2.1 p.2.2.1 absorb sl d) d md.toNat (p.2.2.2.attnQuery p.2.1 d)).tile k).c) ∧
        (∀ j ≤ d.dh / 16, TileOpOn s t (md.toNat + j) (fun r => r < d.rows)) ∧
        TokenDue s t gd fun q => q.vals = [none] ∧ ∃ e ∈ t.engines, e.pend = some q.id)

/-- `KVAPP`, `KVTRIM` and `KVQRY` (R284 to R289, R298 to R302) whose probe finds no fault. Lanes are served in order; p says
which were; a token names the completion of the last write, by which the record lines are owned. One lane alone is served
exactly when its tokens and frames fit, and its LEN is written last. A trim that clears entries starts an invalidate, once these are
written, that its frames wait for. A query reads each record, and answers zero for an address that no record can have. That `KVAPP`
and `KVTRIM` read records, sources and entries in the step that executes is the model's choice (log 6). -/
def Obligations.SequenceInstructions : Prop :=
  (∀ (x : XHead) (rm : Rm) (sat : Bool) (gd : Opd) (p : BitVec 3) (a : Opd) (b : OpdB) (c : Opd) (s : State), Issuing s →
    s.active x ≠ [] → ∀ qs s1, s.kvProbe false (s.kvLanes (s.active x) a (some b) c) = .inl (.ok qs s1) →
    let r := qs.foldl (appendLane rm sat) ({}, s1.readMany)
    ∃ t, exec (.kvapp x rm sat gd p a b c) s = .next t ∧ Settled s t x ∧
      HeldLanes s t (s.active x) 3 p.toNat (fun L => [if (r.1.ps.find? fun q => q.1 = L).any (·.2) then 1 else 0]) ∧
      (r.1.any = true → (TokenDue s t gd fun q => q.vals = [some (BitVec.ofNat 32 r.1.last)] ∧ q.tok = some r.1.last) ∧
        ∃ e ∈ t.engines, e.team = s.cur.team ∧ e.kind = .kvapp ∧ e.floor = r.1.last ∧ ∀ q ∈ qs, q.pa / 128 ∈ e.lines) ∧
      ∀ q, qs = [q] →
        let k := cacheClass q.r.ct
        let n := seqPages (SeqRec_rb q.r) (q.r.len + q.n) - seqPages (SeqRec_rb q.r) q.r.len
        let fits := q.r.len + q.n ≤ q.r.cap ∧ s1.canPop s.cw q.r.tier k n = true
        (¬ fits → r.1.ps = [(q.pos, false)] ∧ t.homes = s1.homes) ∧
        (fits → r.1.ps = [(q.pos, true)] ∧
          (World_list (t.world s.cw) (listKey q.r.tier k)).count = (World_list (s.world s.cw) (listKey q.r.tier k)).count - n ∧
          (q.n ≠ 0 → (∃ h ∈ t.homes, h.pa = q.pa + 16 ∧ h.n = 4 ∧ h.op = .store (leBytes 4 (q.r.len + q.n)) ∧ h.w = r.1.last) ∧
            ∀ h ∈ t.homes, h ∈ s1.homes ∨ h.w ≤ r.1.last))) ∧
  (∀ (x : XHead) (gd : Opd) (p : BitVec 3) (a c : Opd) (s : State), Issuing s → s.active x ≠ [] →
    ∀ qs s1, s.kvProbe true (s.kvLanes (s.active x) a none c) = .inl (.ok qs s1) →
    let r := qs.foldl trimLane ({}, s1.readMany)
    ∃ t, exec (.kvtrim x gd p a c) s = .next t ∧ Settled s t x ∧
      HeldLanes s t (s.active x) 3 p.toNat (fun L => [if (r.1.ps.find? fun q => q.1 = L).any (·.2) then 1 else 0]) ∧
      (r.1.cleared = [] → r.1.any = true → (TokenDue s t gd fun q => q.vals = [some (BitVec.ofNat 32 r.1.last)]) ∧
        ∃ e ∈ t.engines, e.team = s.cur.team ∧ e.kind = .kvapp ∧ e.floor = r.1.last ∧ ∀ q ∈ qs, q.pa / 128 ∈ e.lines) ∧
      (r.1.cleared ≠ [] → ∃ v ∈ t.invals, v.world = s.cw ∧ (v.span, v.page) = spanOf r.1.cleared ∧ v.start = r.1.last ∧
        ∃ e ∈ t.engines, e.team = s.cur.team ∧ e.kind = .kvtrim r.1.queued (some v.id) ∧ (∀ q ∈ qs, q.pa / 128 ∈ e.lines) ∧
          TokenDue s t gd fun q => q.vals = [none] ∧ e.pend = some q.id) ∧
      ∀ q, qs = [q] →
        let n := seqPages (SeqRec_rb q.r) q.r.len - seqPages (SeqRec_rb q.r) q.n
        let l := World_list (s.world s.cw) (listKey q.r.tier (cacheClass q.r.ct))
        let fits := q.n ≤ q.r.len ∧ l.count + l.pending + n ≤ l.cap
        (¬ fits → r.1.ps = [(q.pos, false)] ∧ t.homes = s1.homes) ∧
        (fits → r.1.ps = [(q.pos, true)] ∧
          (q.n ≠ q.r.len → ∃ h ∈ t.homes, h.pa = q.pa + 16 ∧ h.n = 4 ∧ h.op = .store (leBytes 4 q.n) ∧ h.w = r.1.last))) ∧
  (∀ (x : XHead) (d a : Opd) (sl : BitVec 3) (s : State), Issuing s →
    let legal (L : Nat) : Bool := aperOf (s.reg2 a L) = .glob && (s.reg2 a L).toNat % 32 = 0
    let cs := (s.checkAll (((s.active x).filter legal).map fun L => (L, s.reg2 a L)) 32 32 kRead false).1
    AllPass cs →
    ∃ t, exec (.kvqry x d a sl) s = .next t ∧ Moved s t x ∧ AccessFrame s t ∧ ∀ L ∈ s.active x, s.keeps x d L →
      (legal L = false → Awaits s t L (clsCode d.cls) d.no.toNat 1 fun p => p.vals = [some 0]) ∧
      (legal L = true → ∃ va acc, (L, va, .ok acc) ∈ cs ∧ Awaits s t L (clsCode d.cls) d.no.toNat 1 fun p =>
        UnderWay s t L acc.space 32 (.kvqry (.pend p.id 0) sl.toNat s.cw)))

/-! ### Events of threads, groups and teams -/

/-- What ends waits (R16, R19, R20, R125, R159, R255): an aged program counter; an expiry; a token, a clock or a count that is
reached, at a time when it may be read. That a group times out as the cycle that reaches its expiry ends, and not within it, is the
model's choice (log 6). -/
def Obligations.WaitsEnd : Prop :=
  ∀ (team grp : Nat) (s : State),
    (∃ t, exec (.pcAging team grp) s = .next t ∧ t.mem = s.mem ∧
      ∀ a ∈ ((s.team team).actor (actorOf grp)).ages, 64 ≤ a.n → ∃ b ∈ ((t.team team).actor (actorOf grp)).ages, b.pc = a.pc ∧ b.aged = true) ∧
    (∀ (slot : BitVec 4) (e : Nat), tabFind ((s.team team).groupAt grp).expiry slot.toNat = some e →
      (s.cycle (s.team team).core ≤ e → exec (.rcvTimeout team grp slot) s = .next s) ∧
      (e < s.cycle (s.team team).core → s.resident team = true → ∃ t, exec (.rcvTimeout team grp slot) s = .next t ∧ t.mem = s.mem ∧
        ∀ l, ((s.team team).thread grp l).st ≠ .exited →
          (((s.team team).thread grp l).arrived.getLsbD slot.toNat = false → (t.team team).thread grp l = (s.team team).thread grp l) ∧
          (∀ p, ((s.team team).thread grp l).st = .rcv slot.toNat p → ((s.team team).thread grp l).arrived.getLsbD slot.toNat = true →
            ((t.team team).thread grp l).st = .run ∧ ((t.team team).thread grp l).pc = ((s.team team).thread grp l).pc + 12 ∧
            (p ≠ 7 → ((t.team team).thread grp l).getP p.toNat = false) ∧
            ((t.team team).thread grp l).member.getLsbD slot.toNat = false))) ∧
    (s.resident team = true →
      (∃ t, exec (.waitfRelease team grp) s = .next t ∧ t.mem = s.mem ∧ ∀ l tok, ((s.team team).thread grp l).st = .tok tok →
        (t.team team).thread grp l = if (BitVec.ofNat 32 s.gtc - tok).msb = true then (s.team team).thread grp l
          else { (s.team team).thread grp l with st := .run, pc := ((s.team team).thread grp l).pc + 12 }) ∧
      (∃ t, exec (.waittRelease team grp) s = .next t ∧ t.mem = s.mem ∧ ∀ l tm, ((s.team team).thread grp l).st = .time tm →
        (t.team team).thread grp l = if s.gtc % 2 ^ 64 < tm.toNat then (s.team team).thread grp l
          else { (s.team team).thread grp l with st := .run, pc := ((s.team team).thread grp l).pc + 12 }) ∧
      (∃ t, exec (.evwaitRelease team grp) s = .next t ∧ t.mem = s.mem ∧ ∀ l e thr len, ((s.team team).thread grp l).st = .event e thr len →
        let n := leNat (s.phys (some (s.worldOf (s.team team))) ((s.world (s.worldOf (s.team team))).evbase.toNat + 16 * e) 8)
        let may := s.evReady (s.team team) (Team_actorOf (s.team team) (grp, l)) [(grp, l)] e
        (t.team team).thread grp l = if n < thr.toNat ∨ may = false then (s.team team).thread grp l
          else { (s.team team).thread grp l with st := .run, pc := ((s.team team).thread grp l).pc + BitVec.ofNat 64 len }))

/-- Groups and teams find their places (R24, R27, R35, R36, R40 to R42, R258, R259): an overdue pending group is promoted, in
place of the active one longest without issue when all eight are taken; candidates that a trigger selects run on as one conjugate
group; waiting teams of a cluster are admitted together when everything of theirs is free; the highest L1 bank becomes
free for a team that wants it; the group spilled earliest is refilled once space has become free. That a conversion empties the
whole L1, where R42 empties the bank's lines, is the model's choice (log 6), and so are the first of several groups that have gone
equally long without issue (log 38), and the first of several program counters whose triggers hold, that of the oldest candidate
(log 39). -/
def Obligations.PlacesFound : Prop :=
  (∀ (core sub : Nat) (s : State) p a,
    (promotionOrder ((s.members core sub false).filter fun x => s.promotable x.1 x.2 && (match (x.1.actor x.2).since with
      | some c => decide (s.cycle core ≥ c + 384)
      | none => false))).head? = some p →
    (sortBy (fun x : Team × Actor => (x.1.actor x.2).lastIssue) (s.members core sub true)).head? = some a →
    (p.1.id, p.2) ≠ (a.1.id, a.2) → s.team? p.1.id = some p.1 → s.team? a.1.id = some a.1 →
    ∃ t, exec (.pendingForcedDemotion core sub) s = .next t ∧ t.mem = s.mem ∧ ((t.team p.1.id).actor p.2).active = true ∧
      (8 ≤ (s.members core sub true).length → ((t.team a.1.id).actor a.2).active = false)) ∧
  (∀ (team : Nat) (full : Bool) (i : Instr) (s : State) (pc : Dword),
    (i = .conjugatorExpiry team ∧ full = false) ∨ (i = .conjugateGroupFormation team ∧ full = true) →
    let tm := s.team team
    let cs (q : Dword) := chooseCands (candOrder (tm.cands.filter fun c => c.pc = q))
    s.resident team = true → s.conjUsed tm.core < 32 →
    ((candPcs tm.cands).find? fun q => candTrigger (candOrder (tm.cands.filter fun c => c.pc = q)) (s.cycle tm.core) full &&
      decide (s.places tm.core (tm.groupAt ((keysOf ((cs q).map (·.grp))).headD 0)).sub < 32)) = some pc →
    (∀ c ∈ cs pc, c.lane < 32 ∧ (tm.thread c.grp c.lane).st = .submitted) →
    ∃ t, exec i s = .next t ∧ t.mem = s.mem ∧ (∀ c ∈ cs pc, c ∉ (t.team team).cands ∧
      ((t.team team).thread c.grp c.lane).st = .run ∧ ((t.team team).thread c.grp c.lane).pc = c.pc) ∧
      ∃ g ∈ (t.team team).conj, ∀ c ∈ cs pc, some (c.grp, c.lane) ∈ g.pos) ∧
  (∀ (team : Nat) (s : State) (tm : Team), s.team? team = some tm → tm.place = .admitting →
    (∀ m ∈ s.mates tm, s.admitNow m.core m = true) →
    ∃ t, exec (.teamAdmission team) s = .next t ∧ t.mem = s.mem ∧ ∀ m ∈ s.mates tm, (t.team m.id).place = .resident) ∧
  (∀ (core bank : Nat) (s : State), s.wantsBank core = true → 1 < (s.l1Banks core).length → (s.l1Banks core).getLast? = some bank →
    ∃ t, exec (.bankConversion core bank) s = .next t ∧ t.mem = s.mem ∧ bank ∈ (t.core core).free ∧ (t.core core).l1 = [] ∧
      (t.core core).stack = []) ∧
  (∀ (team g : Nat) (s : State), s.resident team = true →
    let tm := s.team team
    tm.freed = true → (sortBy (fun g => (tm.groupAt g).spillAt) (tm.allGroups.filter fun g => (tm.groupAt g).spilled ≠ [])).head? = some g →
    Team_landedUnits tm + (tm.groupAt g).spilled.length ≤ shareUnits (s.hdrOf tm) (s.launchOf tm).r.g →
    ∃ t, exec (.refill team) s = .next t ∧ t.mem = s.mem ∧ ((t.team team).groupAt g).spilled = [] ∧
      ∀ r ∈ (tm.groupAt g).spilled, r ∈ ((t.team team).groupAt g).landed)

/-! ### Events of memory -/

/-- Results reach their registers (R34, R59, R62, R124, R125, R211): a result whose words are known is written to a register of a
thread, a predicate or a capability register, which a loaded record tags when byte 16 is one and its check passes; that the check of
a world without keys is made under epoch 0 is the model's choice (log 37). One for a register of its group, with the mark of a token,
or of its team joins the writes that land, in their order, with the next cycle, which is read from the spec by inference (log 19).
A fence whose covered times are all known gives its token the latest, 64 ns later for scope `.Y`. -/
def Obligations.ResultsWritten : Prop :=
  (∀ (s : State) (p : Pend) (tm : Team), s.pends.find? (fun q => q.id = p.id) = some p → s.pendReady p = true →
    s.team? p.team = some tm → (p.acp = false ∨ tm.place = .resident) → p.abroad = false →
    ∃ t, exec (.scoreboardWriteback p.id) s = .next t ∧ t.mem = s.mem ∧ (∀ q ∈ t.pends, q.id ≠ p.id) ∧
      let ws := Pend_words p
      (p.cls = 0 → (tm.thread p.grp p.lane).st ≠ .exited → tabRises (tm.thread p.grp p.lane).v →
        ∀ k w, ws[k]? = some w → ((t.team p.team).thread p.grp p.lane).getV (p.no + k) = w) ∧
      (p.cls = 1 ∨ p.cls = 2 → ∀ k w, ws[k]? = some w → ∃ x ∈ (t.team p.team).pipe, x.due = s.cycle tm.core + 1 ∧ x.sb = true ∧
        x.cls = p.cls ∧ x.no = p.no + k ∧ x.val = w ∧ x.who = p.who ∧ x.tok = p.tok) ∧
      (p.cls = 3 → (tm.thread p.grp p.lane).st ≠ .exited → p.no < 7 →
        ((t.team p.team).thread p.grp p.lane).getP p.no = decide (ws.headD 0 ≠ 0)) ∧
      (p.cls = 4 → p.pack = .words → (tm.thread p.grp p.lane).st ≠ .exited → tabRises (tm.thread p.grp p.lane).c →
        let c := ((t.team p.team).thread p.grp p.lane).getC p.no
        (∀ k < 4, c.val.extractLsb' (32 * k) 32 = ws.getD k 0) ∧ (ws.length ≠ 8 → c.tag = p.tag) ∧
        (ws.length = 8 → (c.tag = true ↔ (ws.drop 4).flatMap (fun w => leBytes 4 w.toNat) =
          1 :: leBytes 15 (Config.capCheck ((s.world (s.worldOf tm)).keys.getD 0) c.val (s.worldOf tm)).toNat)))) ∧
  (∀ (s : State) (team : Nat) (x : PipeW), x ∈ (s.team team).pipe → x.due ≤ s.cycle (s.team team).core → (s.team? team).isSome = true →
    (∀ y ∈ (s.team team).pipe, y.due ≤ s.cycle (s.team team).core → y.cls = x.cls → y.no = x.no → y = x) →
    let t := s.landDue team
    t.mem = s.mem ∧ x ∉ (t.team team).pipe ∧
    (x.cls = 1 → ∀ n, x.who = .grp n → n < (s.team team).groups.length → n ≠ leadGrp →
      let g := (s.team team).groupAt n
      let g' := (t.team team).groupAt n
      tabRises g.g → tabRises g.marks → (x.tok = none → g'.getG x.no = x.val ∧ tabFind g'.marks x.no = none) ∧
        ∀ k, x.tok = some k → g'.getG x.no = BitVec.ofNat 32 k ∧ tabFind g'.marks x.no = some (BitVec.ofNat 64 k)) ∧
    (x.cls = 2 → tabRises (s.team team).t → (t.team team).getT x.no = x.val)) ∧
  (∀ (s : State) (f : Fence), s.fences.find? (fun q => q.id = f.id) = some f → f.waits = [] →
    ∃ t, exec (.fncTokenWrite f.id) s = .next t ∧ t.mem = s.mem ∧ (∀ g ∈ t.fences, g.id ≠ f.id) ∧
      let tok := if f.latest = 0 then 0 else if f.y then f.latest + 64 else f.latest
      ∀ p ∈ t.pends, p.id = f.pend → p.vals = [some (BitVec.ofNat 32 tok)] ∧ p.tok = some tok)

/-- Accesses act (R99, R100, R103, R108, R117, R119, R121, R123, R192): a load that may perform delivers the bytes as every store
up to now left them; a global store or atomic takes its place in home order, at a time not before now, the latest lease or the
last completion at its lines, and changes memory at that time alone. One in the scratchpad or, with room in the L1, in a stack
line acts there at once, and every byte beside its own stays. A walk that succeeds is held by the core's TLB. -/
def Obligations.AccessesAct : Prop :=
  (∀ (s : State) (f : Flight), s.flights.find? (fun g => g.id = f.id) = some f → s.mayAct f = true →
    ∃ t, exec (.homeRequest f.id) s = .next t ∧ (∀ g ∈ t.flights, g.id ≠ f.id) ∧
      (∀ pid n sx, f.op = .load (.pend pid 0) n sx → t.mem = s.applyDue.mem ∧ ∀ p ∈ t.pends, p.id = pid →
        KnownWords p 0 (loadWords (s.applyDue.spaceBytes f.core f.team f.space f.n) sx)) ∧
      (∀ pa, f.space = .glob pa → (∀ tg n sx, f.op ≠ .load tg n sx) → (∀ tg m it ty, f.op ≠ .eload tg m it ty) →
        (∀ tg sl w, f.op ≠ .kvqry tg sl w) → t.mem = s.applyDue.mem ∧
        ∃ h ∈ t.homes, h.id = f.id ∧ h.world = f.world ∧ h.pa = pa ∧ h.n = f.n ∧ h.op = f.op ∧ s.gtc ≤ h.w ∧
          ∀ l ∈ linesOf pa f.n, s.leaseOf l ≤ h.w ∧ s.lastWOf l ≤ h.w ∧ (tabRises s.lastW → h.w ≤ t.lastWOf l)) ∧
      (∀ off, f.space = .scr off → (s.team? f.team).isSome = true → Memory.wf (s.team f.team).scratch = true → t.mem = s.applyDue.mem ∧
        let old := (s.team f.team).scratch
        let new := (t.team f.team).scratch
        (∀ d, f.op = .store d → d.length = f.n → memBytes new off f.n = d) ∧
        (∀ a ty tg b c, f.op = .atomic a ty [(tg, b, c)] → f.n = (if ty.wide then 8 else 4) →
          leNat (memBytes new off f.n) =
            atomNew a ty (leNat (memBytes old off f.n)) (b.toNat % 2 ^ (8 * f.n)) (c.toNat % 2 ^ (8 * f.n)) % 2 ^ (8 * f.n)) ∧
        ((∃ d, f.op = .store d ∧ d.length = f.n) → ∀ a, (a < off ∨ off + f.n ≤ a) → memByte new a = memByte old a)) ∧
      ∀ pa d, f.space = .stk pa → f.op = .store d → d.length = f.n → d ≠ [] →
        let u := s.applyDue
        let w := s.worldOf (s.team f.team)
        (∀ x ∈ (u.core f.core).stack, x.bytes.length = 32) → (Core_stackLines (u.core f.core)).length + f.n ≤ u.l1Cap f.core →
        t.mem = u.mem ∧ t.stackBytes f.core f.team w pa f.n = d ∧
          ∀ q m, (q + m ≤ pa ∨ pa + f.n ≤ q) → t.stackBytes f.core f.team w q m = u.stackBytes f.core f.team w q m) ∧
  (∀ (core world : Nat) (va : Dword) (s : State) (e : TlbEnt), canonical va = true → aperOf va = .glob →
    (s.translate core world (va.toNat % 2 ^ 56)).1 = .ok e →
    ∃ t, exec (.tableWalk core world va) s = .next t ∧ t.mem = s.mem ∧ e ∈ (t.core core).tlb)

/-- Stores complete (R117, R119, R320): every store whose time has come is done, in home order, and no other. A store that is
the only one due leaves its bytes where its own world reads them, sealed or not, and, while nothing is sealed, every other byte
of memory as it was. One to a host window that R308 refuses writes nothing. -/
def Obligations.StoresComplete : Prop :=
  ∀ (s : State) (h : HomeSt), h ∈ s.homes → h.w ≤ s.gtc →
    ∃ t, exec (.storeCompletion h.id) s = .next t ∧ (∀ g ∈ t.homes, s.gtc < g.w ∧ g ∈ s.homes) ∧
      (∀ g ∈ s.homes, s.gtc < g.w → (∀ k ∈ s.homes, k.w ≤ s.gtc → k.id ≠ g.id) → g ∈ t.homes) ∧
      ((∀ g ∈ s.homes, g.w ≤ s.gtc → g = h) → hostBase ≤ h.pa → s.frozen h.world = true → t.mem = s.mem) ∧
      ((∀ g ∈ s.homes, g.w ≤ s.gtc → g = h) → ∀ d, h.op = .store d → d ≠ [] → h.n = d.length → s.MemOk →
        (h.pa < hostBase ∨ s.frozen h.world = false) → (tabRises s.seals → t.phys (if h.raw then none else some h.world) h.pa d.length = d) ∧
        (s.seals = [] → (s.sealKey (some h.world) = none ∨ h.raw = true) →
          ∀ a, (a < h.pa ∨ h.pa + d.length ≤ a) → memByte t.mem a = memByte s.mem a))

/-- Escorts on their way (R185 to R188, R194, R195, R223): a receiver with room takes the first request of a path, without room
drops it, and a dropped one is sent again after its back-off, which doubles; a reply lands its registers and, with the last of
its request, gives the charge back, a fault reply parks its lane with what it held at issue; a hop adds, counts, compares and
goes on, in the base die of its node, to which the escort goes first; a remote reply that is late comes home as fault 0x0B, a local
one is an integrity error of its launch. That a lane parks at the instruction as its own fault comes home, while other lanes are out
and also when its thread has issued on, is read from R188, R215 and R217 by inference (log 14); that a hop on a formatted page
raises the format fault is the model's choice (log 39). -/
def Obligations.EscortEvents : Prop :=
  (∀ (req lane : Nat) (s : State) (r : EscReq) (l : EscLane), s.escLane? req lane = some (r, l) →
    let th := (s.team r.team).thread l.grp l.lane
    let key (m : EscLane) := laneKey (m.grp, m.lane)
    (∀ h, l.stat = .out → l.path ≠ l.hold → l.dropped = false → s.nextHold l = some h → s.canHold r h →
      (∃ q m, (s.sendQueue r l).head? = some (q, m) ∧ q.id = r.id ∧ key m = lane) →
      ∃ t, exec (.escortAccept req lane) s = .next t ∧ LaneNow s { t with nextId := s.nextId } req lane fun m =>
        { m with hold := l.hold, path := l.path, drops := l.drops, arr := l.arr } = l ∧ m.hold = h ∧ m.drops = 0 ∧
          (s.walkOf req lane = none → m.path = h)) ∧
    (l.stat = .out → l.path ≠ l.hold → l.dropped = false → (∀ h, s.nextHold l = some h → ¬ s.canHold r h) →
      let d := s.die (holdDie r.core l.hold)
      ((s.sendQueue r l).filter (·.2.dropped)).length < d.win →
      ∃ t, exec (.escortDrop req lane) s = .next t ∧ LaneNow s t req lane fun m =>
        m = { l with dropped := true, drops := l.drops + 1, retryAt := s.gtc + d.backoff * 2 ^ min l.drops d.maxsh }) ∧
    (l.dropped = true → l.retryAt ≤ s.gtc →
      ∃ t, exec (.backoffExpiry req lane) s = .next t ∧ LaneNow s t req lane fun m => m = { l with dropped := false }) ∧
    (s.resident r.team = true → th.st ≠ .exited → th.st ≠ .exiting → tabRises th.v → r.early = [] →
      (l.stat = .replied ∨ (l.stat = .out ∧ l.hold ≠ .port ∧ l.dest ≠ [] ∧ ∀ w ∈ l.dest, w.isSome = true) → (∀ m ∈ r.lanes, m.due = false) →
        r.ebase + l.esc.length ≤ r.dreg ∨ r.dreg + l.dest.length ≤ r.ebase →
        ∃ t, exec (.reply req lane) s = .next t ∧ t.mem = s.mem ∧ EscNow t req lane (fun m => m.stat = .landed) ∧
          (∀ k w, l.esc[k]? = some w → ((t.team r.team).thread l.grp l.lane).getV (r.ebase + k) = w) ∧
          (∀ k w, l.dest[k]? = some (some w) → ((t.team r.team).thread l.grp l.lane).getV (r.dreg + k) = w) ∧
          ((∀ m ∈ r.lanes, key m ≠ lane → m.stat = .landed) → (∀ q ∈ t.escs, q.id ≠ req) ∧
            (tabRises s.cores → ∀ c, r.on = some c → (t.core c).used = (s.core c).used - r.charge))) ∧
      (l.stat = .faulted → th.level ≠ .h → (∃ m ∈ r.lanes, key m ≠ lane ∧ EStat_home m.stat = false) →
        ∃ t, exec (.reply req lane) s = .next t ∧ t.mem = s.mem ∧ ParkedAt ((t.team r.team).thread l.grp l.lane) r.pc ∧
          (∀ k w, l.orig[k]? = some w → ((t.team r.team).thread l.grp l.lane).getV (r.ebase + k) = w) ∧
          ∀ n, (n < r.ebase ∨ r.ebase + l.orig.length ≤ n) → ((t.team r.team).thread l.grp l.lane).getV n = th.getV n)) ∧
    (EStat_home l.stat = false → (∀ k, l.path ≠ .egress k) →
      r.depart + 1000 * (s.die (dieOf r.core)).toLocal ≤ s.gtc →
      ∃ t, exec (.localEscortTimeout req lane) s = .next t ∧ t.mem = s.mem ∧
        ((∀ m ∈ r.lanes, m.stat ≠ .diverted ∧ m.stat ≠ .divPark) → ∀ q ∈ t.escs, q.id ≠ req) ∧
        ∀ x ∈ t.launches, x.id = r.launch → x.aborted = true ∧ x.ctxerr.getLsbD 7 = true)) ∧
  (∀ (s : State) (w : Walk) (req key : Nat), s.walks.find? (fun x => x.id = w.id) = some w → w.esc = some (req, key) →
    (s.walkAt w = .gone → ∃ t, exec (.hop w.id) s = .next t ∧
      LaneNow s { t with nextId := s.nextId } req key fun l => l.path = .die (s.walkDie w)) ∧
    (s.walkAt w = .away → exec (.hop w.id) s = .next s)) ∧
  (∀ (s : State) (w : Walk), s.walks.find? (fun x => x.id = w.id) = some w → s.walkHeld w = false → s.walkAt w = .here →
    let u := s.hopState w
    (descLim w.desc = 0 → ∃ t, exec (.hop w.id) s = .next t ∧ WalkEnds t w w.e) ∧
    (0 < descLim w.desc →
      (∀ e, (u.hopStep w).1 = .stop e → ∃ t, exec (.hop w.id) s = .next t ∧ WalkEnds t w e) ∧
      (∀ e n, (u.hopStep w).1 = .go e n → n ≠ 0 ∧ w.hops + 1 ≠ descLim w.desc ∧ ∃ t, exec (.hop w.id) s = .next t ∧ t.mem = u.mem ∧
        (∃ x ∈ t.walks, x.id = w.id ∧ x.e = e ∧ x.node = n ∧ x.hops = w.hops + 1 ∧ x.start = w.start ∧ x.desc = w.desc) ∧
        ∀ req key, w.esc = some (req, key) → EscNow t req key fun l => ∃ d, l.path = .die d) ∧
      (∀ f, (u.hopStep w).1 = .flt f → ∀ req key, w.esc = some (req, key) → ∃ t, exec (.hop w.id) s = .next t ∧
        (∀ x ∈ t.walks, x.id ≠ w.id) ∧ EscNow t req key fun l => l.stat = .faulted ∧ l.flts = [f]) ∧
      ∀ e, ((u.hopStep w).1 = .stop e ∨ ∃ n, (u.hopStep w).1 = .go e n) → 2 ≤ w.e.length →
        e.getD 1 0 = w.e.getD 1 0 + 1 ∧ (w.desc.getLsbD 21 = false → e.getD 0 0 = w.e.getD 0 0) ∧
        (w.desc.getLsbD 21 = true → ∃ pa, (∃ en, (u.globAcc w.core w.world (w.node + w64 (descOff w.desc 7 4)) kRead false).1 = .ok ⟨.glob pa, en⟩) ∧
          let p := w32 (leNat (u.seen (some w.world) w.world pa 4))
          e.getD 0 0 = if w.desc.getLsbD 22 then addF32 (w.e.getD 0 0) p else w.e.getD 0 0 + p))) ∧
  (∀ (s : State) (r : Remote), s.egress.find? (fun x => x.id = r.id) = some r →
    (∀ e, r.esc = some e → ∀ q l, s.escLane? e.1 e.2 = some (q, l) → ∃ k, l.hold = .egress k) →
    r.sentAt + 1000 * (s.die (dieOf r.core)).toRemote ≤ s.gtc →
    ∃ t, exec (.remoteEscortTimeout r.id) s = .next t ∧ t.mem = s.mem ∧ (∀ x ∈ t.egress, x.id ≠ r.id) ∧
      (∀ req key, r.esc = some (req, key) → EscNow t req key fun l => l.stat = .faulted ∧ l.flts.map (fun f => (f.cls, f.addr, f.peer)) = [(0x0B, r.va, 0)]) ∧
      (r.esc = none → (∀ id i, Tgt.pend id i ∈ opTgts r.op → ∀ p ∈ t.pends, p.id ≠ id) ∧
        (s.othersOut r.issue r.id → (s.team? r.team).isSome = true →
          let th := (s.team r.team).thread r.grp r.lane
          th.st ≠ .exited → th.level ≠ .h → ParkedAt ((t.team r.team).thread r.grp r.lane) r.pc)))

/-- Engines at work (R125, R127, R199, R202, R206, R207, R265, R277, R297, R301): a copy, a scatter and a tile store place
their writes, and their token is not before the last of these; an element is fetched at one time; a probe pass moves nothing
when a lane faults, pins its pages when none does, and then, with the index words read again, starts the accesses of every lane; an
operation on tiles raises the watermark when nothing else writes; attention completes after the writers before it; the frames of a
trim come back to their lists. That a fault in the second reading of the index words parks as in the pass (logs 22 and 37), and that
a copy reads every sector and places every write at one time (log 37), are the model's choices. -/
def Obligations.EngineEvents : Prop :=
  (∀ (i : Instr) (id : Nat) (s : State) (e : Engine) (ws : List EWrite), engineOf i = some id → id = e.id → EngineReady s e ws →
    s.writesOf i e = some ws → ∃ t, exec i s = .next t ∧ EngineWrote s t e ws) ∧
  (∀ (team grp : Nat) (k : BitVec 4) (lane : Nat) (s : State), s.resident team = true →
    let a := actorOf grp
    let tm := s.team team
    let x := (tm.actor a).stream k.toNat
    let h := Team_homeOf tm a lane
    let n := (x.buf.filter fun e => e.lane = lane).length
    let i := Stream_cursor x lane + n
    let u := s.applyDue
    x.active = true → (tm.threadAt a lane).st ≠ .exited → n < 16 → i < tabGet x.count lane 0 → s.readNow team a h x lane i = true →
    ∃ t v, exec (.streamElementFetch team grp k lane) s = .next t ∧ t.mem = u.mem ∧
      (((t.team team).actor a).stream k.toNat).buf = x.buf ++ [⟨lane, i, v, s.gtc⟩] ∧
      (x.ind = false → ∀ c, (u.access tm.core team h.1 h.2 (tabGet x.a lane 0 + w64 i * (tabGet x.stride lane 0).signExtend 64 + w64 (laneTerm x h))
          4 4 kRead false).1 = c →
        (∀ f, c = .error f → v = .flt f) ∧ (∀ acc, c = .ok acc → v = .val (w32 (leNat (u.spaceBytes tm.core team acc.space 4)))))) ∧
  (∀ (s : State) (p : Probe), ProbeReady s p →
    let u := s.passState p
    let r := (u.probeAll p).1
    ((∃ y ∈ r, ∃ f, Except.error f ∈ y.2) → ∃ t, exec (.probePass p.id) s = .next t ∧ t.mem = u.mem ∧
      ((∀ y ∈ p.lanes, ((s.team p.team).thread y.grp y.lane).st ≠ .exited ∧ ((s.team p.team).thread y.grp y.lane).level ≠ .h) →
        (p.req = none → ∀ y ∈ p.lanes, let th := (t.team p.team).thread y.grp y.lane
          (th.pc = p.pc ∧ ∃ tag, th.st = .parked tag ∨ th.st = .trapWait tag) ∨ (th.level = .h ∧ th.st = .run)) ∧
        ∀ req, p.req = some req → ∀ q ∈ t.escs, q.id = req → ∀ m ∈ q.lanes, m.stat = .faulted) ∧
      (∀ x ∈ t.probes, x.id ≠ p.id) ∧ ∀ x ∈ t.engines, x ∈ s.engines ∨ ∃ y ∈ s.engines, x.id = y.id ∧ x.kind = y.kind) ∧
    ((∀ y ∈ r, ∀ f, Except.error f ∉ y.2) → p.passed = false → ∃ t, exec (.probePass p.id) s = .next t ∧ t.mem = u.mem ∧
      t.flights = u.flights ∧ t.engines = u.engines ∧ t.pends = u.pends ∧
      ∃ q ∈ t.probes, { q with pins := p.pins } = { p with passed := true } ∧
        ∀ y ∈ r, ∀ a, Except.ok a ∈ y.2 → ∀ k ∈ accPins [a], k ∈ q.pins) ∧
    ((∀ y ∈ r, ∀ f, Except.error f ∉ y.2) → p.passed = true → ∃ t, exec (.probePass p.id) s = .next t ∧ t.mem = u.mem ∧
      (∀ x ∈ t.probes, x.id ≠ p.id) ∧
      (isGather p.instr = true → ∀ i x as, r[i]? = some (x, as) → ∀ j a, as[j]? = some (.ok a) →
        ∃ f ∈ t.flights, f.team = p.team ∧ (f.grp, f.lane) = (x.grp, x.lane) ∧ f.space = a.space ∧ f.n = 4 ∧
          f.op = .load (gatherTgt p x i j) 4 false) ∧
      (isGather p.instr = false → ∃ e ∈ t.engines, e.id = p.id ∧ e.team = p.team ∧
        e.kind = .scat (scatWrites p.instr (r.map fun y => (y.1, okAccs y.2)))))) ∧
  (∀ (s : State) (e : Engine), s.engines.find? (fun x => x.id = e.id) = some e →
    (∀ ts rows, e.kind = .tile ts rows 0 → ∃ t, exec (.matrixOpCompletion e.id) s = .next t ∧ t.mem = s.mem ∧ t.pends = s.pends ∧
      t.engines = (s.engines.filter fun x => decide (x.id ≠ e.id)) ∧
      ((s.team? e.team).isSome = true → tabRises (s.team e.team).tiles → ∀ md,
        ((t.team e.team).tile md).c = ((s.team e.team).tile md).c ∧
        let now := s.cycle (s.team e.team).core
        (md ∈ ts → ((s.team e.team).tile md).cyc ≤ now → (∀ x ∈ t.engines, x.team = e.team → EngKind_rows x.kind md = 0) →
          (∀ x ∈ t.probes, x.team = e.team → Probe_rows x md = 0) →
          Tile_wmAt ((t.team e.team).tile md) (now + 1) = 32))) ∧
    (∀ ts rows pd, e.kind = .attn ts rows pd →
      let first := ∃ x ∈ s.engines, x.team = e.team ∧ x.id < e.id ∧ ∃ md ∈ ts, EngKind_rows x.kind md &&& rows ≠ 0
      (first → exec (.attnCompletion e.id) s = .next s) ∧
      (¬ first → ∃ t, exec (.attnCompletion e.id) s = .next t ∧ t.mem = s.mem ∧ (∀ x ∈ t.engines, x.id ≠ e.id) ∧ TokenAt t e s.gtc)) ∧
    (∀ frames, e.kind = .kvtrim frames none → e.floor ≤ s.gtc → ∃ t, exec (.kvtrimFramePush e.id) s = .next t ∧
      (∀ x ∈ t.engines, x.id ≠ e.id) ∧ TokenAt t e e.floor ∧
      (tabRises s.worlds → tabRises (s.world e.world).free →
        (∀ k, (World_list (t.world e.world) k).count = (World_list (s.world e.world) k).count + (frames.filter fun x => x.1 = k).length) ∧
        ∀ k fr, frames = [(k, fr)] → fr < 2 ^ 64 → s.MemOk → tabRises s.seals →
          leNat (t.phys none ((World_list (s.world e.world) k).base.toNat + 8 * (World_list (s.world e.world) k).count) 8) = fr)))

/-- Errors (R130 to R132, R315): an integrity error aborts its launch and no other; one that no launch consumes
is recorded only; corrected ones are counted up to the end of the counter, and signalled by the threshold. Translation
invalidates (R109, R234): that from its start on no TLB holds a translation of the span, where R109 allows either until it
completes, is the model's choice (log 24); it completes when nothing of its world that
began before it is under way, and whoever started it learns the time. One that waits for stores begins when they are complete. -/
def Obligations.ErrorsAndInvalidates : Prop :=
  ((∀ (launch line source : Nat) (s : State) (l : Launch), s.launch? launch = some l → l.aborted = false → l.refused = false →
    ∃ t, exec (.integrityError launch line source) s = .next t ∧ t.mem = s.mem ∧ Aborted t launch 7 ∧ Signals s t l.world 2 ∧
      (tabRises s.worlds → ∀ w, (w = 0 ∨ w = l.world) →
        Recorded t w (IntegrityRec s line source l.world (l.q * 2 ^ 32 + l.k))) ∧
      ((s.teams.map (·.id)).Nodup → ∀ x ∈ s.launches, x.id ≠ launch → x ∈ t.launches)) ∧
  (∀ (world line source : Nat) (s : State),
    ∃ t, exec (.unconsumedError world line source) s = .next t ∧ t.mem = s.mem ∧ t.launches = s.launches ∧ t.teams = s.teams ∧
      Signals s t world 2 ∧
      (tabRises s.worlds → ∀ w, (w = 0 ∨ w = world) → Recorded t w (IntegrityRec s line source world 0))) ∧
  (∀ (die cls : Nat) (s : State), die < 4 → cls < 8 →
    let old := tabGet (s.die die).errs cls 0
    let n := min (old + 1) (2 ^ 64 - 1)
    let hit := (s.die die).thresh ≠ 0 ∧ (s.die die).thresh ≤ n - tabGet (s.die die).errSig cls 0
    (∃ t, exec (.correctedError die cls) s = .next t ∧ t.mem = s.mem ∧ t.launches = s.launches ∧ t.teams = s.teams ∧
      tabGet (t.die die).errs cls 0 = n ∧ (hit → Signals s t 0 5) ∧ (¬ hit → t.signals = s.signals ∧ t.worlds = s.worlds)) ∧
    ∃ t, exec (.errorCounterWrite die cls) s = .next t ∧ { t with dies := s.dies } = s ∧ tabGet (t.die die).errs cls 0 = 0)) ∧
  ((∀ (world : Nat) (v : Dword) (s : State), ∃ t, exec (.translationInvalidate world v) s = .next t ∧ t.mem = s.mem ∧
    SpanGone t world (bitsOfW v 6 2) (bitsOfW v 16 40) ∧
    ∃ i ∈ t.invals, i.world = world ∧ i.span = bitsOfW v 6 2 ∧ i.page = bitsOfW v 16 40 ∧ i.by_ = none ∧ i.id ∈ (t.world world).hostInvs) ∧
  (∀ (s : State) (v : Inval), s.invals.find? (fun x => x.id = v.id) = some v → v.cut = none →
    (s.gtc < v.start → exec (.invalidateCompletion v.id) s = .next s) ∧
    (v.start ≤ s.gtc → ∃ t, exec (.invalidateCompletion v.id) s = .next t ∧ t.mem = s.mem ∧ SpanGone t v.world v.span v.page ∧
      ∃ x ∈ t.invals, x = { v with cut := some s.nextId })) ∧
  ∀ (s : State) (v : Inval) (cut : Nat), s.invals.find? (fun x => x.id = v.id) = some v → v.cut = some cut →
    (∀ f ∈ s.flights, f.world = v.world → cut ≤ f.eng.getD f.id) → (∀ f ∈ s.walks, f.world = v.world → cut ≤ f.id) →
    (∀ f ∈ s.probes, f.world = v.world → cut ≤ f.id) →
    (∀ f ∈ s.engines, f.world = v.world → cut ≤ f.id ∨ f.kind = .kvapp ∨ ∃ fr i, f.kind = .kvtrim fr i) →
    (∀ h ∈ s.homes, h.world = v.world → h.w ≤ s.gtc ∨ cut ≤ h.eng.getD h.id) →
    ∃ t, exec (.invalidateCompletion v.id) s = .next t ∧ t.mem = s.mem ∧ (∀ x ∈ t.invals, x.id ≠ v.id) ∧
      SpanGone t v.world v.span v.page ∧ v.id ∉ (t.world v.world).hostInvs ∧ (t.world v.world).invT = BitVec.ofNat 64 s.gtc ∧
      (∀ tm a, v.by_ = some (tm, a) → (s.team? tm).isSome = true → v.id ∈ ((s.team tm).actor a).invs →
        v.id ∉ ((t.team tm).actor a).invs ∧
          (s.gtc < 2 ^ 64 → ((t.team tm).actor a).invT.toNat = max ((s.team tm).actor a).invT.toNat s.gtc)) ∧
      ∀ e ∈ s.engines, ∀ fr, e.kind = .kvtrim fr (some v.id) → ∃ x ∈ t.engines, x.id = e.id ∧ x.kind = .kvtrim fr none ∧ s.gtc ≤ x.floor)

/-- Fault queues and resumes (R215 to R217, R246): a record whose time of detection is past is written where FQTAIL points when
there is room, then FQTAIL advances, then vector 0 is signalled; a queue is set up afresh by a write that R216 accepts; RETRY and SKIP put the parked
lanes of a tag back, KILL ends their groups, and what no lane is parked under is ignored. -/
def Obligations.FaultQueues : Prop :=
  (∀ (world : Nat) (s : State) (r : FRec) (rest : List FRec),
    let w := s.world world
    let pa := w.fqbase.toNat + 64 * (w.fqtail.toNat % 2 ^ w.fqsize)
    w.held = r :: rest → w.fqsize ≠ 0 → (w.fqtail - w.fqhead).toNat < 2 ^ w.fqsize → r.gtc < s.gtc → s.earlierFault world r = false → s.quiet pa 64 = true →
    ∃ t, exec (.faultRecordWrite world) s = .next t ∧ (t.world world).held = rest ∧ (t.world world).fqtail = w.fqtail + 1 ∧
      Signals s t world 0 ∧ (pa < hostBase → s.MemOk → tabRises s.seals → RecordAt t pa w.fqtail r)) ∧
  (∀ (world : Nat) (v : Dword) (s : State),
    let w := s.world world
    (∃ t, exec (.faultQueueSetup world false v) s = .next t ∧ { t with worlds := s.worlds } = s ∧
      (RingOk (bitsOfW v 0 48) w.fqsize →
        t.world world = { w with fqbase := BitVec.ofNat 64 (bitsOfW v 0 48), fqhead := 0, fqtail := 0 }) ∧
      (¬ RingOk (bitsOfW v 0 48) w.fqsize → t.world world = w)) ∧
    (∃ t, exec (.faultQueueSetup world true v) s = .next t ∧ { t with worlds := s.worlds } = s ∧
      (RingOk w.fqbase.toNat (bitsOfW v 0 5) → t.world world = { w with fqsize := bitsOfW v 0 5, fqhead := 0, fqtail := 0 }) ∧
      (¬ RingOk w.fqbase.toNat (bitsOfW v 0 5) → t.world world = w)) ∧
    ∃ t, exec (.fqheadWrite world v) s = .next t ∧ { t with worlds := s.worlds } = s ∧
      ((w.fqtail - v.extractLsb' 0 32).toNat ≤ 2 ^ w.fqsize → t.world world = { w with fqhead := v.extractLsb' 0 32 }) ∧
      (2 ^ w.fqsize < (w.fqtail - v.extractLsb' 0 32).toNat → t.world world = w)) ∧
  (∀ (i : Instr) (world : Nat) (tag : Word) (act : Action) (s : State), resumeIs i = some (world, tag, act) →
    (∀ p, (s.parks.filter fun q => q.tag = tag) = [p] → p.handler = none → (if p.cls = 6 then 0 else p.world) = world →
      (s.resident p.team = true → act ≠ .kill → ∃ t, exec i s = .next t ∧ t.mem = s.mem ∧ (∀ q ∈ t.parks, q.tag ≠ tag) ∧
        ∀ x ∈ p.lanes, ((s.team p.team).thread x.1 x.2).st = .parked tag →
          ((t.team p.team).thread x.1 x.2).st = .run ∧ ((t.team p.team).thread x.1 x.2).pc =
            if p.trapCls = true ∨ (act = .skip ∧ p.fetch = false) then p.pc + BitVec.ofNat 64 p.len else p.pc) ∧
      (s.resident p.team = true → act = .kill → ∃ t, exec i s = .next t ∧ t.mem = s.mem ∧ (∀ q ∈ t.parks, q.tag ≠ tag) ∧
        (∀ l ∈ t.launches, l.id = (s.team p.team).launch → l.ctxerr.getLsbD 5 = true) ∧
        (t.team? p.team = none ∨ ∀ x ∈ p.lanes, ∀ th ∈ ((t.team p.team).groupAt x.1).threads, th.st = .exited)) ∧
      (∀ tm, s.team? p.team = some tm → tm.place ≠ .resident → tm.place ≠ .admitting → ∃ t, exec i s = .next t ∧
        { t with teams := s.teams } = s ∧ (t.team p.team).resumes = tm.resumes ++ [⟨tag, act⟩])) ∧
    ((∀ q ∈ s.parks, ¬ (q.tag = tag ∧ (if q.cls = 6 then 0 else q.world) = world ∧ q.handler = none)) →
      (world ≠ 0 → exec i s = .next s) ∧
      (world = 0 → ∃ t, exec i s = .next t ∧ { t with launches := s.launches } = s ∧
        ∀ l ∈ s.launches, (∀ tags, l.stage = .migrating tags → tag ∉ tags) → l ∈ t.launches) ∧
      (world = 0 → ∀ l ∈ s.launches, ∀ tags, l.stage = .migrating tags → tag ∈ tags → ∃ t, exec i s = .next t ∧ ∃ m ∈ t.launches, m.id = l.id ∧
        (act = .kill → m.refused = true) ∧ (act ≠ .kill → (∀ x ∈ tags, x = tag) → m.stage = .placing))))

/-- Launch queues and launches (R237 to R246, R308): a doorbell moves LQTAIL forward within the ring, a write of LQCTL sets what R237
lets its writer set, a record is taken in order and refused or checked, one that passes R241 with its header is not refused, waits
and migration requests hold it back, and a launch that is over stores its entry, then signals its event. The model's own choices
(log 26): that a write of LQCTL for a locked world's queue moves the TDI to ERROR when it names other values for the fields, whatever
EN is, that it may set EN alone, that LQNOTIFY acts while the TDI is locked, and that EN stays clear while a handover holds the
world. -/
def Obligations.LaunchesTaken : Prop :=
  (∀ (fn q : Nat) (v : Word) (s : State),
    let x := s.queue q
    let ok := s.rdy = true ∧ q < 1024 ∧ x.slots ≠ 0 ∧ x.owner = fn ∧ x.en = true ∧ x.devq = false ∧
      (v - x.head).toNat ≤ 2 ^ x.size ∧ (v - x.tail).toNat < 2 ^ 31
    (s.queueTurn q (512 + fn) = false → exec (.lqnotify fn q v) s = .next s) ∧
    (s.queueTurn q (512 + fn) = true → ok → ∃ t, exec (.lqnotify fn q v) s = .next t ∧
      { t with queues := s.queues, served := s.served } = s ∧ (t.queue q).tail = v ∧
      { t.queue q with tail := x.tail, avail := x.avail } = x ∧ (v ≠ x.tail → s.gtc ≤ (t.queue q).avail)) ∧
    (s.queueTurn q (512 + fn) = true → ¬ ok → ∃ t, exec (.lqnotify fn q v) s = .next t ∧ { t with served := s.served } = s)) ∧
  (∀ (fn q : Nat) (v : Dword) (s : State), q < 1024 →
    let x := s.queue q
    let same := queueOf x v false = { x with en := false }
    let locked := fn = 0 ∧ ¬ same ∧ x.slots ≠ 0 ∧ s.lockedWorld x.owner = true
    let on (w : Nat) : Bool := decide (bitsOfW v 0 1 = 1) && s.mayEnable w
    (s.queueTurn q (512 + fn) = false → exec (.lqctlWrite fn q v) s = .next s) ∧
    (s.queueTurn q (512 + fn) = true →
      (locked → ∃ t, exec (.lqctlWrite fn q v) s = .next t ∧ t.mem = s.mem ∧ (t.world x.owner).tdi = .error ∧ KeysErased t x.owner ∧
        WorldAborted s t x.owner ∧ MgenRises s t none) ∧
      (¬ locked → fn = 0 → x.en = false → QueueLegal s q v → ∃ t, exec (.lqctlWrite fn q v) s = .next t ∧
        { t with queues := s.queues, served := s.served } = s ∧ t.queue q = queueOf x v (on (bitsOfW v 29 7))) ∧
      (¬ locked → (fn ≠ 0 ∨ x.en = true) → x.slots ≠ 0 → fn = 0 ∨ x.owner = fn → ∃ t, exec (.lqctlWrite fn q v) s = .next t ∧
        { t with queues := s.queues, served := s.served } = s ∧
        ((x.en = true ∨ on x.owner = false) → t.queue q = { x with en := on x.owner }) ∧
        (x.en = false → on x.owner = true →
          t.queue q = { x with en := true, head := 0, tail := 0, status := 0, avail := 0, stores := [] })) ∧
      (¬ locked → (fn = 0 ∧ x.en = false ∧ ¬ QueueLegal s q v) ∨ (fn ≠ 0 ∧ (x.slots = 0 ∨ x.owner ≠ fn)) →
        ∃ t, exec (.lqctlWrite fn q v) s = .next t ∧ { t with served := s.served } = s))) ∧
  (∀ (q : Nat) (s : State) (pa : Nat), s.canTake q = true →
    let u := s.applyDue
    let x := s.queue q
    let bs := u.phys (some x.owner) pa 128
    u.devAcc x.owner (x.base + BitVec.ofNat 64 (128 * (x.head.toNat % 2 ^ x.size))) kRead = .ok pa → u.owned none (linesOf pa 128) = false →
    ∃ t, exec (.launchRecordTake q) s = .next t ∧ t.mem = u.mem ∧ (t.queue q).head = x.head + 1 ∧
      ∃ l, t.launches = u.launches ++ [l] ∧ l.q = q ∧ l.k = x.head.toNat ∧ l.world = x.owner ∧ l.level = (if x.priv then .s else .u) ∧
        (l.refused = true ∨ (RecordIs bs l.r ∧ l.stage = .waiting ∧ (l.r.lead = true → l.hdr.leadoff ≠ 0) ∧
          slotBytes l.hdr l.r.g (decide (l.hdr.leadoff ≠ 0)) (x.stk * 16) ≤ x.slotsz)) ∧
        ((∀ r, ¬ RecordIs bs r) → l.refused = true) ∧
        ∀ r hpa h, RecordIs bs r → u.devAcc x.owner r.hdr kRead = .ok hpa → parseHdr (u.phys (some x.owner) hpa 64) r.g = some h →
          (r.lead = true → h.leadoff ≠ 0) → slotBytes h r.g (decide (h.leadoff ≠ 0)) (x.stk * 16) ≤ x.slotsz → s.coreSet x.owner ≠ [] →
          l.refused = false ∧ l.stage = .waiting ∧ l.hdr = h) ∧
  (∀ (q : Nat) (s : State) (l : Launch), s.launches.find? (fun y => y.q = q && y.stage = .waiting && !Launch_over y) = some l →
    s.rdy = true → s.frozen l.world = false → s.mayEnable l.world = true →
    let u := s.applyDue
    let met := ∀ w ∈ l.r.waits, w.2.toNat ≤ u.eventCount l.world w.1
    (met → ∃ t m, exec (.launchWaitCheck q) s = .next t ∧ t.mem = u.mem ∧ t.launch? l.id = some m ∧
      ((∀ r ∈ l.r.ranges, u.awayRange l.world r = false) → m.stage = .placing ∧ m.readyAt = s.gtc) ∧
      ∀ r ∈ l.r.ranges, u.awayRange l.world r = true → ∃ tags, m.stage = .migrating tags ∧
        Recorded t 0 fun k => k.tag ∈ tags ∧ k.cls = 0x11 ∧ k.kind = 5 ∧ k.addr = BitVec.ofNat 64 r.1 ∧ k.lanes = BitVec.ofNat 32 r.2 ∧
          k.launch = l.q * 2 ^ 32 + l.k) ∧
    (¬ met → exec (.launchWaitCheck q) s = .next s)) ∧
  (∀ (id : Nat) (s : State) (l : Launch) (pa : Nat), s.launch? id = some l → s.launchDone l = true →
    (∀ e, l.r.sig = some e → s.owned none (linesOf ((s.world l.world).evbase.toNat + 16 * e) 16) = false) →
    let x := s.queue l.q
    s.devAcc l.world (x.cbase + BitVec.ofNat 64 (16 * (l.k % 2 ^ x.size))) kWrite = .ok pa → s.owned none (linesOf pa 16) = false →
    ∃ t h, exec (.launchCompletion id) s = .next t ∧ t.mem = s.mem ∧ (∀ y ∈ t.launches, y.id ≠ id) ∧ h ∈ t.homes ∧
      h.world = l.world ∧ h.pa = pa ∧ h.n = 16 ∧ s.gtc ≤ h.w ∧ l.latest ≤ h.w ∧
      h.op = .store (leBytes 8 l.latest ++ [if l.aborted then 3 else if l.refused then 2 else 1, 0] ++ leBytes 2 l.ctxerr.toNat ++ leBytes 4 l.k) ∧
      ∀ e, l.r.sig = some e → ∃ k ∈ t.homes, k.world = l.world ∧ k.pa = (s.world l.world).evbase.toNat + 16 * e ∧ k.op = .signal ∧ h.w ≤ k.w) ∧
  (∀ (world ev : Nat) (s : State), s.rdy = true → ev < 4096 → world ≤ 64 →
    let pa := (s.world world).evbase.toNat + 16 * ev
    s.owned none (linesOf pa 16) = false → s.mayServe (linesOf pa 16) (512 + world) s.nextId true = true →
    ∃ t, exec (.eventSignal world ev) s = .next t ∧ t.mem = s.mem ∧
      ∃ h ∈ t.homes, h.world = world ∧ h.pa = pa ∧ h.n = 16 ∧ h.op = .signal ∧ s.gtc ≤ h.w)

/-- The scheduler decides (R24, R35, R247 to R252, R288): the first function in turn that can be given a place gets it, for its
oldest saved team before its head records, on the cores that R247 names; a team on a core taken from its function, or of a holder
whose slice ends, is pre-empted; the physical function pushes frames and clears reclaim bits. That a slice which nobody else wants
is renewed from its old end, and that a saved team goes back to the core that R247 would name, of those of the set that R252 allows,
are the model's choices (log 27). -/
def Obligations.SchedulerDecides : Prop :=
  (∀ (w : Nat) (s : State), s.rdy = true → s.rrNext < 65 → NoneBefore s s.rrNext w → MayPlace s w →
    (∀ (tm : Team) (c : Nat), s.team? tm.id = some tm → (s.savedOf w).find? (fun y => (s.coreSet w).any fun d => s.roomFor d (s.hdrOf y) (s.launchOf y).r.g) = some tm →
      BestCore s w (s.hdrOf tm) (s.launchOf tm).r.g c →
      ∃ t, exec .dispatchDecision s = .next t ∧ t.mem = s.mem ∧ (t.team tm.id).place = .restoring ∧ (t.team tm.id).core = c) ∧
    (∀ (l : Launch) (cores : List Nat), s.launch? l.id = some l →
      ((s.savedOf w).all fun y => (s.coreSet w).all fun d => !s.roomFor d (s.hdrOf y) (s.launchOf y).r.g) = true →
      (s.headsOf w).head? = some l → l.r.c ≤ (freeSlots (s.queue l.q) l.r.c).length →
      ((l.r.c = 1 ∧ ∃ c, cores = [c] ∧ BestCore s w l.hdr l.r.g c) ∨ (1 < l.r.c ∧ ClusterCores s w l.hdr l.r.g l.r.c cores)) →
      ∃ t, exec .dispatchDecision s = .next t ∧ t.mem = s.mem ∧ (∀ m, t.launch? l.id = some m → m.placed = l.placed + l.r.c) ∧
        ∀ k c slot, cores[k]? = some c → (freeSlots (s.queue l.q) l.r.c)[k]? = some slot →
          ∃ x ∈ t.teams, PlacedTeam x l (l.placed + k) c slot ∧ slot ∈ (t.queue l.q).held)) ∧
  (∀ (world j : Nat) (v : Dword) (s : State), world ≤ 64 → j < 4 → s.lockedWorld world = false →
    let old := (s.world world).fcores
    let bit (i : Nat) : Bool := if i / 64 = j then v.getLsbD (i % 64) else old.getLsbD i
    ((∃ w ∈ s.worlds, w.1 ≠ world ∧ ∃ i < 256, bit i = true ∧ w.2.fcores.getLsbD i = true) → exec (.fcoresWrite world j v) s = .next s) ∧
    ((∀ w ∈ s.worlds, w.1 ≠ world → ∀ i < 256, bit i = true → w.2.fcores.getLsbD i = false) →
      ∃ t, exec (.fcoresWrite world j v) s = .next t ∧ t.mem = s.mem ∧ (∀ i < 256, (t.world world).fcores.getLsbD i = bit i) ∧
        ((∃ i < 256, bit i ≠ old.getLsbD i) → (∃ i < 256, bit i = true) →
          ∀ x ∈ s.teams, s.worldOf x = world → (x.place = .resident ∨ x.place = .admitting) → x.core < 256 → bit x.core = false →
            ∃ y ∈ t.teams, y.id = x.id ∧ y.preempt = true))) ∧
  (∀ (s : State) (h : Nat), s.rdy = true → s.holder = some h → h < 65 → s.handing = none → s.sliceEnd ≤ s.gtc →
    (∀ w, NextHolder s h w → ∃ t, exec .sliceEnd s = .next t ∧ t.mem = s.mem ∧ t.holder = some w ∧ t.sliceEnd = s.gtc + 1000 * (s.world w).slice ∧
      ((s.world h).fcores = 0 → ∀ x ∈ s.teams, s.worldOf x = h → (x.place = .resident ∨ x.place = .admitting) →
        ∃ y ∈ t.teams, y.id = x.id ∧ y.preempt = true)) ∧
    ((∀ w < 65, ¬ NextHolder s h w) → ∃ t, exec .sliceEnd s = .next t ∧ { t with sliceEnd := s.sliceEnd } = s ∧
      t.sliceEnd = s.sliceEnd + 1000 * (s.world h).slice)) ∧
  (∀ (world : Nat) (tier : Bool) (cls : BitVec 2) (v : Dword) (s : State), s.lockedWorld world = false →
    let k := listKey tier.toNat cls.toNat
    let l := World_list (s.world world) k
    let legal := (cls = 0 → v.toNat % 16 = 0) ∧
      (if tier then 0x400000000000 ≤ v.toNat * 4096 ∧ v.toNat * 4096 + classUnits cls.toNat * 4096 ≤ 0x800000000000
        else v.toNat * 4096 + classUnits cls.toNat * 4096 ≤ 2 ^ 39) ∧ l.count < l.cap
    (legal → ∃ t, exec (.kvpush world tier cls v) s = .next t ∧ (World_list (t.world world) k).count = l.count + 1 ∧
      (s.MemOk → tabRises s.seals → leNat (t.phys none (l.base.toNat + 8 * l.count) 8) = v.toNat)) ∧
    (¬ legal → ∃ t, exec (.kvpush world tier cls v) s = .next t ∧ { t with worlds := s.worlds } = s ∧
      t.world world = { s.world world with kvrcl := (s.world world).kvrcl ||| 16 }) ∧
    ∃ t, exec (.kvrclWrite world v) s = .next t ∧ { t with worlds := s.worlds } = s ∧
      t.world world = { s.world world with kvrcl := (s.world world).kvrcl &&& ~~~ v.extractLsb' 0 5 })

/-- Pre-emption, save and restore (R224 to R232): a request is noted; at the stop time nothing of the team issues any more, what
is in its probe pass is abandoned, its stream buffers and pins go, and its requests leave the core; a save that is done gives the core's resources back; a restore whose
check holds brings the team to its core, at a later time than the last reply that went to its slots, and one whose check fails aborts the launch
with CTX and INTEG. -/
def Obligations.ContextsMove : Prop :=
  ∀ (team : Nat) (s : State) (tm : Team), s.team? team = some tm →
    ((tm.place = .resident ∨ tm.place = .admitting) → ∃ t, exec (.preemptionRequest team) s = .next t ∧ { t with teams := s.teams } = s ∧
      t.team team = { tm with preempt := true }) ∧
    (tm.place = .resident → tm.preempt = true → (∀ e ∈ s.issueQ, e.1.team ≠ team) → ∃ t, exec (.stopTime team) s = .next t ∧ t.mem = s.mem ∧
      (∀ x ∈ t.teams, x.id = team → x.place = .stopped s.gtc ∧ ∀ g ∈ x.groups, ∀ k ∈ g.streams, k.2.buf = [] ∧ k.2.pins = []) ∧
      (∀ p ∈ t.probes, p.team = team → (p.held = none → p.passed = true) ∧ ∀ h, p.held = some h → ∀ x hint k rp, p.instr ≠ .srprb x hint k rp) ∧
      (∀ r ∈ t.escs, r.team = team → r.on = none) ∧
      ((∀ p ∈ s.probes, p.team ≠ team) → ∀ g l, { (t.team team).thread g l with ready := (tm.thread g l).ready } = tm.thread g l)) ∧
    (∀ ts cs, tm.place = .stopped ts → s.chunks tm.core (s.worldOf tm) (s.slotAddr tm) (s.mapOf tm).fin kWrite = some cs →
      s.saveWaits tm = true → s.quietArea cs = true → s.flushed team = true → (∀ x ∈ s.dirtyStack tm, s.quiet (32 * x.sec) 32 = true) →
      ∃ t, exec (.saveDone team) s = .next t ∧ (t.team team).place = .saved ∧ (t.team team).savedAt = s.gtc ∧ (t.team team).banks = [] ∧
        (t.team team).preempt = false ∧ ∀ x ∈ (t.core tm.core).stack, x.team ≠ team) ∧
    (∀ core, tm.place = .restoring → tm.core = core → s.gtc < tm.divT → exec (.restore team core) s = .next s) ∧
    (∀ core cs, tm.place = .restoring → tm.core = core → s.admitNow core tm = true → tm.divT ≤ s.gtc →
      s.chunks core (s.worldOf tm) tm.saveArea.toNat (s.mapOf tm).fin kRead = some cs →
      (∀ c ∈ cs, ∀ h ∈ s.homes, s.gtc < h.w → h.pa + h.n ≤ c.pa ∨ c.pa + c.n ≤ h.pa) →
      let u := s.applyDue
      let head := u.getArea (s.worldOf tm) cs 0 256
      let ok := getLe head 0 4 = 0x5A435458 ∧
        getLe head 0x30 16 = (u.ctxCheckOf tm ((u.opaques tm).flatMap fun x => u.getArea (s.worldOf tm) cs x.1 x.2)).toNat ∧
        ∀ r ∈ u.escs, r.team = team → slotBad r (u.getArea (s.worldOf tm) cs ((u.mapOf tm).slots + 3104 * r.slot) 32) = false
      (ok → tm.resumes = [] → ∃ t, exec (.restore team core) s = .next t ∧ t.mem = u.mem ∧
        ∀ x ∈ t.teams, x.id = team → x.place = .resident ∧ x.core = core ∧ x.toks = [] ∧ x.preempt = false) ∧
      (¬ ok → ∃ t, exec (.restore team core) s = .next t ∧ t.mem = u.mem ∧ Aborted t tm.launch 8 ∧ Aborted t tm.launch 7))

/-- Bring-up, links and firmware (R304 to R306, R318): PERST# starts the device in stage 1, each stage ends in the next or in a
failure that stops the sequence, stage 4 leaves HBM zero, stage 5 starts the GTC and the cycle counters at 0 and raises RDY. What an assertion of PERST#
does, which keeps memory and clears everything else, is the model's choice (log 34): R304 speaks of deassertion alone. -/
def Obligations.BringUpStages : Prop :=
  ∀ s : State,
    (∃ t, exec .perstAssert s = .next t ∧ t.mem = s.mem ∧ t.powered = false ∧ t.clocks = false ∧ t.rdy = false ∧ t.gtcOn = false ∧
      t.stage = 0 ∧ t.teams = [] ∧ t.launches = [] ∧ t.sessions = [] ∧ t.worlds = [] ∧ t.queues = [] ∧ t.cores = [] ∧ t.ports = []) ∧
    (s.powered = false → ∃ t, exec .perstDeassert s = .next t ∧ t = { s with powered := true, clocks := true, stage := 1, mgen := 1 }) ∧
    (∀ i n ok (u : BitVec 5), stageEnd i = some (n, ok, u) → s.powered = true →
      (s.fail = true ∨ s.stage ≠ n → exec i s = .next s) ∧
      (s.fail = false → s.stage = n →
        (ok = false → exec i s = .next { s with fail := true, failcode := BitVec.ofNat 8 (n * 2 ^ 5 + u.toNat) }) ∧
        (ok = true → ∃ t, exec i s = .next t ∧ t.stage = n + 1 ∧ t.fail = false ∧
          (n < 4 → t = { s with stage := n + 1 }) ∧
          (n = 4 → t.memz = true ∧ (∀ a < 2 ^ 39, memByte t.mem a = 0) ∧ (s.MemOk → ∀ a, 2 ^ 39 ≤ a → memByte t.mem a = memByte s.mem a) ∧
            t.escs = [] ∧ ∀ c ∈ t.cores, c.2.tlb = [] ∧ c.2.l1 = [] ∧ c.2.wc = [] ∧ c.2.stack = []) ∧
          (n = 5 → t.gtc = 0 ∧ t.gtcOn = true ∧ t.rdy = true ∧ t.mem = s.mem ∧ ∀ d, (t.die d).cycle = 0)))) ∧
    (s.powered = true → s.links.1 = true ∨ s.links.2 = true → ∃ t, exec .configurationRequest s = .next t ∧ { t with replies := s.replies } = s ∧
      Answers s t (if s.stage ≤ 1 then .retryStatus else .success)) ∧
    (∀ link, (∃ t, exec (.hostLinkDown link) s = .next t ∧ t = { s with links := if link then (s.links.1, false) else (false, s.links.2) }) ∧
      ∃ t, exec (.hostLinkUp link) s = .next t ∧ t = { s with links := if link then (s.links.1, true) else (true, s.links.2) }) ∧
    (s.powered = true → 2 ≤ s.stage → ∃ t, exec .firmwareActivation s = .next t ∧ t.mem = s.mem ∧ MgenRises s t none)

/-- Security requests (R305, R308, R316 to R318, R331): before RDY all but the first two are turned away, a session that a
generation ended answers its next message so, and TDISP requests move a TDI between its states, give and erase its keys, and
raise MGEN by one; a function-level reset and an IDE failure abort the launches of the world. The codes of
requests (log 1), how a refusal is answered, and the states in which an IDE failure acts (log 29) are the model's choices. -/
def Obligations.SecurityRequests : Prop :=
  ∀ s : State, s.powered = true →
    (∀ i code, spdmIs i = some (code, none) → (s.rdy = true ∨ code < 2) →
      ∃ t body, exec i s = .next t ∧ Answers s t (.spdm code body) ∧ { t with replies := s.replies, free := s.free } = s) ∧
    (∀ i code sess, spdmIs i = some (code, sess) → s.rdy = false → 2 ≤ code →
      ∃ t, exec i s = .next t ∧ Answers s t (.reqError .busy) ∧ { t with replies := s.replies } = s) ∧
    (∀ i code sess x, spdmIs i = some (code, some sess) → s.rdy = true → s.session? sess = some x →
      (x.ended = true → ∃ t, exec i s = .next t ∧ Answers s t (.reqError .requestResynch) ∧ t.session? sess = none) ∧
      (x.ended = false → (code = 8 → x.finished = false) → ∃ t body, exec i s = .next t ∧ Answers s t (.spdm code body) ∧
        (code = 11 → t.session? sess = none) ∧ (code = 8 → ∃ y, t.session? sess = some y ∧ y.finished = true ∧ y.mgen = s.mgen) ∧
        (code = 9 ∨ code = 10 → t.sessions = s.sessions))) ∧
    (s.rdy = true → ((s.sessions.filter fun x => !x.ended).length < 16 → ∃ t body x, exec .keyExchange s = .next t ∧
        Answers s t (.spdm 7 body) ∧ t.sessions = s.sessions ++ [x] ∧ x.mgen = s.mgen ∧ x.finished = false ∧ x.ended = false ∧
        s.session? x.id = none) ∧
      (16 ≤ (s.sessions.filter fun x => !x.ended).length → ∃ t, exec .keyExchange s = .next t ∧ Answers s t (.reqError .busy) ∧
        t.sessions = s.sessions)) ∧
    (∀ index, s.rdy = true → ((1 ≤ index ∧ index ≤ 4) ∨ (0x10 ≤ index ∧ index ≤ 0x50)) →
      ∃ t d, exec (.getMeasurements index) s = .next t ∧ Answers s t (.spdm 6 d) ∧ { t with replies := s.replies } = s ∧
        (index = 4 → d = Config.measure 4 s.mgen)) ∧
    (∀ world sess x, s.rdy = true → OpenSession s sess x → 1 ≤ world → world ≤ 64 →
      ((s.world world).tdi = .unlocked → ∃ t, exec (.lockInterface world sess) s = .next t ∧ t.mem = s.mem ∧ MgenRises s t (some sess) ∧
        Answers s t .success ∧ (t.world world).tdi = .locked ∧ (t.world world).keys.isSome = true ∧ (t.world world).sealing = (s.world world).prot) ∧
      ((s.world world).tdi = .locked → ∃ t, exec (.startInterface world sess) s = .next t ∧ t.mem = s.mem ∧ MgenRises s t (some sess) ∧
        Answers s t .success ∧ (t.world world).tdi = .run ∧ (t.world world).keys = (s.world world).keys) ∧
      ((s.world world).tdi ≠ .unlocked → ∃ t, exec (.stopInterface world sess) s = .next t ∧ t.mem = s.mem ∧ MgenRises s t (some sess) ∧
        Answers s t .success ∧ (t.world world).tdi = .unlocked ∧ KeysErased t world) ∧
      ((s.world world).tdi ≠ .unlocked → exec (.lockInterface world sess) s = .next { s with replies := s.replies ++ [.reqError .notAccepted] }) ∧
      ((s.world world).tdi ≠ .locked → exec (.startInterface world sess) s = .next { s with replies := s.replies ++ [.reqError .notAccepted] })) ∧
    (∀ world, world ≤ 64 → ∃ t, exec (.functionLevelReset world) s = .next t ∧ t.mem = s.mem ∧ WorldAborted s t world ∧
      (t.world world).tdi = .unlocked ∧ ((s.world world).tdi ≠ .unlocked → KeysErased t world ∧ MgenRises s t none)) ∧
    (∀ world, ((s.world world).tdi = .locked ∨ (s.world world).tdi = .run → ∃ t, exec (.ideIntegrityFailure world) s = .next t ∧ t.mem = s.mem ∧
        WorldAborted s t world ∧ (t.world world).tdi = .error ∧ KeysErased t world ∧ MgenRises s t none) ∧
      ((s.world world).tdi = .unlocked ∨ (s.world world).tdi = .error → exec (.ideIntegrityFailure world) s = .next s))

/-- What the host writes and reads (R186, R222, R237, R248, R288, R307 to R309, R313, R315, R319, R324, R327, R329): registers
of the device page, of world pages and of queues take the fields that their rules give; a virtual function's write to a register
of the physical function is discarded; a write to a locked register moves the TDI to ERROR; BAR2 accesses act at the homes, in
their turn. The size of a register write, that a locked write is not performed, and the sizes of a BAR2 access are the model's
choices (log 28). -/
def Obligations.HostAccesses : Prop :=
  ∀ (s : State) (v : Dword), s.powered = true →
    (∀ off, deviceRegOff off = true → ∃ t, exec (.registerWrite 0 off v) s = .next t ∧ DeviceReg s t off v) ∧
    (∀ w off, w ≤ 64 → worldRegOff off = true → s.lockedWorld w = false →
      ∃ t, exec (.registerWrite 0 (0x20000 + 0x10000 * w + off) v) s = .next t ∧ t.mem = s.mem ∧ WorldReg s t w off v) ∧
    (∀ q i, q < 1024 → 1 ≤ i → i ≤ 4 → ∃ t, exec (.registerWrite 0 (0x10000 + 64 * q + 8 * i) v) s = .next t ∧
      { t with queues := s.queues } = s ∧ t.queue q = if (s.queue q).en then s.queue q else QueueReg (s.queue q) i v) ∧
    (∀ w off, 1 ≤ w → w ≤ 64 → (0x4000 ≤ off ∧ off < 0x4050) ∨ (0x5000 ≤ off ∧ off < 0x50E8) → exec (.registerWrite w off v) s = .next s) ∧
    (∀ w off, w ≤ 64 → off < 0x10000 →
      exec (.lockedRegisterWrite w off v) s = exec (.registerWrite 0 (0x20000 + 0x10000 * w + off) v) s) ∧
    (∀ w off, w ≤ 64 → off % 8 = 0 → (0x4000 ≤ off ∧ off < 0x4050) ∨ (0x5000 ≤ off ∧ off < 0x50E8) →
      (s.world w).tdi = .locked ∨ (s.world w).tdi = .run → ∃ t, exec (.lockedRegisterWrite w off v) s = .next t ∧ t.mem = s.mem ∧
        (t.world w).tdi = .error ∧ KeysErased t w ∧ WorldAborted s t w ∧ MgenRises s t none) ∧
    (∀ w, w ≤ 64 → s.lockedWorld w = false →
      let m : BitVec 16 := v.extractLsb' 0 16
      let free (x : Nat × World) (i : Nat) : Bool := decide (x.1 = w) || !x.2.l2ways.getLsbD i
      let ok := (∀ x ∈ s.worlds, x.1 ≠ w → x.2.l2ways &&& m = 0) ∧
        2 ≤ ((List.range 16).filter fun i => !m.getLsbD i && s.worlds.all fun x => free x i).length
      (ok → ∃ t, exec (.l2waysWrite w v) s = .next t ∧ t.mem = s.mem ∧ (t.world w).l2ways = m) ∧
      (¬ ok → exec (.l2waysWrite w v) s = .next s)) ∧
    (∀ fn off n ide, fn ≤ 64 → 1 ≤ n → off % 4096 + n ≤ 4096 → off + n ≤ 2 ^ 34 → s.rdy = true →
      let open_ := (s.world fn).tdi = .unlocked ∨ ((s.world fn).tdi = .run ∧ ide = true)
      let va := (s.world fn).hwin + BitVec.ofNat 64 off
      let u := s.applyDue
      let rec_ (r : FRec) (c k : Nat) := r.cls = c ∧ r.kind = k ∧ r.addr = va ∧ r.world = fn ∧ r.source = 512 + fn ∧ r.pc = 0 ∧ r.grp = 0xFFFF
      (¬ open_ → ∃ t, exec (.bar2Read fn off n ide) s = .next t ∧ { t with replies := s.replies } = s ∧ Answers s t .unsupported) ∧
      (open_ → (s.world fn).bar2T ≤ s.gtc →
        (∀ pa, u.devAcc fn va kRead = .ok pa → u.owned none (linesOf pa n) = false →
          u.mayServe (linesOf pa n) (512 + fn) u.nextId false = true → ∃ t, exec (.bar2Read fn off n ide) s = .next t ∧ t.mem = u.mem ∧ Answers u t (.data (u.phys none pa n))) ∧
        ∀ c, u.devAcc fn va kRead = .error c → ∃ t, exec (.bar2Read fn off n ide) s = .next t ∧ t.mem = u.mem ∧
          Answers u t .unsupported ∧ Recorded t fn fun r => rec_ r c 0) ∧
      (∀ data : List Byte, data.length = n →
        (¬ open_ → exec (.bar2Write fn off data ide) s = .next s) ∧
        (open_ → (∀ pa, s.devAcc fn va kWrite = .ok pa → s.owned none (linesOf pa n) = false →
            s.mayServe (linesOf pa n) (512 + fn) s.nextId true = true → ∃ t, exec (.bar2Write fn off data ide) s = .next t ∧ t.mem = s.mem ∧ ∃ h ∈ t.homes, h.world = fn ∧ h.pa = pa ∧ h.n = n ∧
              h.op = .store data ∧ h.raw = true ∧ s.gtc ≤ h.w ∧ h.w ≤ (t.world fn).bar2T) ∧
          ∀ c, s.devAcc fn va kWrite = .error c → ∃ t, exec (.bar2Write fn off data ide) s = .next t ∧ t.mem = s.mem ∧
            t.homes = s.homes ∧ Recorded t fn fun r => rec_ r c 1)))

/-- Migration handover (R322): each command acts in its state alone and each change signals vector 4; after an EXPORT nothing of
the world is left here and its keys are erased, and a world loaded by an IMPORT is erased at its deadline. An IMPORT whose buffer
is not there fails; an EXPORT ends wherever its buffer lies. What a package holds, when EXPORT ends and where tokens stand are the
model's choices (log 30). -/
def Obligations.Handover : Prop :=
  ∀ (w : Nat) (s : State), w ≤ 64 → s.rdy = true →
    let x := s.world w
    let buf := x.migbuf.toNat
    let becomes (t : State) (m : Mig) : Prop := (t.world w).mig = m ∧ (t.world w).migGo = false ∧ Signals s t w 4
    let none_ (t : State) : Prop := (∀ y ∈ t.launches, y.world ≠ w) ∧ ∀ q ∈ t.queues, q.2.owner = w → q.2.en = false
    let token (sess no kind : Nat) : List Byte := leBytes 32 (Config.migToken sess no kind).toNat
    (x.mig = .idle → x.migGo = false → (∃ y ∈ s.teams, s.worldOf y = w ∧ y.place ≠ .saved ∧ y.place ≠ .restoring) →
      ∃ t, exec (.migExport w) s = .next t ∧ t.mem = s.mem ∧ (t.world w).mig = .idle ∧ (t.world w).migGo = true ∧
        (∀ q ∈ t.queues, q.2.owner = w → q.2.en = false) ∧
        ∀ y ∈ s.teams, s.worldOf y = w → y.place ≠ .saved → y.place ≠ .restoring → ∃ z ∈ t.teams, z.id = y.id ∧ z.preempt = true) ∧
    (x.mig = .idle → (∀ y ∈ s.teams, s.worldOf y = w → y.place = .saved) →
      s.quiet buf (min (Config.packageLen x.migsess s.nextId) x.miglen.toNat) = true →
      ∃ t, exec (.migExport w) s = .next t ∧ becomes t .sent ∧ none_ t ∧ KeysErased t w ∧
        (t.world w).migEnd = s.gtc + 1000 * x.migwin ∧ (t.world w).miglen = BitVec.ofNat 64 (Config.packageLen x.migsess s.nextId)) ∧
    (x.mig = .idle → x.migGo = false → physExists buf (max x.miglen.toNat 32) = false →
      ∃ t, exec (.migImport w) s = .next t ∧ t.mem = s.mem ∧ becomes t .lost) ∧
    (x.mig = .idle → x.migGo = false → physExists buf (max x.miglen.toNat 32) = true →
      let bs := s.applyDue.phys none buf x.miglen.toNat
      (Config.packageOpens x.migsess bs = none → ∃ t, exec (.migImport w) s = .next t ∧ t.mem = s.mem ∧ becomes t .lost) ∧
      (∀ no, Config.packageOpens x.migsess bs = some no → s.quiet buf 32 = true → ∃ t, exec (.migImport w) s = .next t ∧ becomes t .waitrel ∧
        (t.world w).migEnd = s.gtc + 1000 * x.migwin ∧ (t.world w).migNo = no)) ∧
    (x.mig = .sent → (s.gtc < x.migEnd → s.applyDue.phys none buf 32 = token x.migsess x.migNo 0 → physExists buf 32 = true → s.quiet buf 32 = true →
        ∃ t, exec (.migConfirm w) s = .next t ∧ becomes t .done ∧
          (buf < hostBase → s.MemOk → tabRises s.seals → t.phys none buf 32 = token x.migsess x.migNo 1)) ∧
      (x.migEnd ≤ s.gtc → exec (.migConfirm w) s = .next s ∧ ∃ t, exec (.migrationExpiry w) s = .next t ∧ t.mem = s.mem ∧ becomes t .lost)) ∧
    (x.mig = .waitrel → (s.gtc < x.migEnd → physExists buf 32 = true → s.applyDue.phys none buf 32 = token x.migsess x.migNo 1 →
        ∃ t, exec (.migRelease w) s = .next t ∧ t.mem = s.mem ∧ becomes t .run) ∧
      (x.migEnd ≤ s.gtc → exec (.migRelease w) s = .next s ∧ ∃ t, exec (.migrationDeadline w) s = .next t ∧ t.mem = s.mem ∧
        becomes t .lost ∧ none_ t ∧ KeysErased t w ∧ (t.world w).root = 0 ∧
        ∀ q ∈ t.queues, q.2.slots ≠ 0 → q.2.owner = w → q.2 = { slots := q.2.slots, owner := w })) ∧
    ((x.mig = .done ∨ x.mig = .run ∨ x.mig = .lost) → ∃ t, exec (.migClear w) s = .next t ∧ t.mem = s.mem ∧ becomes t .idle) ∧
    ((x.mig = .idle ∨ x.mig = .sent ∨ x.mig = .waitrel) → exec (.migClear w) s = .next s)

/-- The fabric, power and cooling (R189, R209, R210, R323 to R330): a request from another device acts in the world that FBIND
binds, or is answered with its class; a reply brings its data or the fault 0x0B with the peer's class; ports go down, come up and
are synchronised; a lane below its thresholds three times in a row is spared at a quiet point or in a gap; a thermal trip, at 110 degrees, aborts
every launch. The codes of requests (log 1), and that a request acts at its event, in its turn, that the clock is set within 64 ns
of the fabric's time or left ahead of it, and when a lane is spared (log 31) are the model's choices. -/
def Obligations.FabricAndPower : Prop :=
  ∀ s : State,
    (∀ port sdev sworld (va : Dword) n op (data : List Byte), s.rdy = true → (s.port port).up = true → (s.port port).sync = true →
      fabBytes (fabOp op n) n = true →
      let i := Instr.fabricIngressRequest port sdev sworld va n op data
      let u := s.applyDue
      let dst := u.ingress sdev sworld va n (FabOp_kind (fabOp op n))
      ((∀ e ∈ s.fbind, ¬ (e.2.getLsbD 63 = true ∧ bitsOfW e.2 0 13 = sdev ∧ (bitsOfW e.2 22 7 = sworld ∨ bitsOfW e.2 22 7 = 0x7F))) → dst = .error 0x0A) ∧
      (∀ c, dst = .error c → ∃ t, exec i s = .next t ∧ t.mem = u.mem ∧ t.homes = u.homes ∧ Answers u t (.fabric sdev (some c) [] s.gtc)) ∧
      (∀ w pa, dst = .ok (w, pa) → u.owned none (linesOf pa n) = false →
        u.mayServe (linesOf pa n) (1024 + port) u.nextId (decide (op ≠ 0)) = true →
        (op = 0 → ∃ t, exec i s = .next t ∧ t.mem = u.mem ∧ Answers u t (.fabric sdev none (loadWords (u.seen (some w) w pa n) false) s.gtc)) ∧
        (op = 1 → data.length = n → ∃ t, exec i s = .next t ∧ t.mem = u.mem ∧ ∃ h ∈ t.homes, h.world = w ∧ h.pa = pa ∧ h.n = n ∧
          h.op = .store data ∧ s.gtc ≤ h.w ∧ Answers u t (.fabric sdev none [] h.w)) ∧
        ∀ a ty, fabOp op n = .atomic a ty → ∃ t, exec i s = .next t ∧ t.mem = u.mem ∧ ∃ h ∈ t.homes, h.world = w ∧ h.pa = pa ∧ h.n = n ∧
          h.op = .atomic a ty [(.out sdev, BitVec.ofNat 64 (leNat (data.take n)), BitVec.ofNat 64 (leNat ((data.drop n).take n)))] ∧ s.gtc ≤ h.w)) ∧
    (∀ (r : Remote) err (data : List Byte) (w : Dword), s.egress.find? (fun x => x.id = r.id) = some r → s.remoteSent r = true →
      (r.peer ≠ s.fabid ∨ r.group = true) →
      (∀ c, err = some c → ∃ t, exec (.remoteReply r.id err data w) s = .next t ∧ t.mem = s.mem ∧ (∀ x ∈ t.egress, x.id ≠ r.id) ∧
        ∀ req key, r.esc = some (req, key) → EscNow t req key fun l => l.stat = .faulted ∧ l.flts.map (fun f => (f.cls, f.addr, f.peer)) = [(0x0B, r.va, c)]) ∧
      (err = none → data.length = remoteBytes r.op → r.floor ≤ w.toNat →
        ∃ t, exec (.remoteReply r.id err data w) s = .next t ∧ t.mem = s.mem ∧ (∀ x ∈ t.egress, x.id ≠ r.id) ∧
          (∀ f ∈ t.fences, r.id ∉ f.waits) ∧
          ∀ pid i n sx, r.op = .load (.pend pid i) n sx → ∀ p ∈ t.pends, p.id = pid → KnownWords p i (loadWords (data.take n) sx))) ∧
    (∀ port, s.powered = true → port < 16 →
      ((s.port port).up = true → ∃ t, exec (.portDown port) s = .next t ∧ t.mem = s.mem ∧ t.port port = { s.port port with up := false, sync := false } ∧ Signals s t 0 5) ∧
      ((s.port port).up = false → ∃ t, exec (.portUp port) s = .next t ∧ t.mem = s.mem ∧ t.port port = { s.port port with up := true } ∧ Signals s t 0 5) ∧
      (∀ now : Dword, s.gtcOn = true → s.clocks = true → (s.port port).up = true → ∃ t, exec (.timeSync port now) s = .next t ∧
        ((t.port port).sync = true ↔ t.gtc ≤ now.toNat + 64) ∧ s.gtc ≤ t.gtc ∧ now.toNat - 64 ≤ t.gtc ∧
        (s.gtc ≤ now.toNat + 64 → t.gtc ≤ now.toNat + 64)) ∧
      (∀ lanes : List (Nat × Nat), (s.port port).up = true →
        let p := s.port port
        let isWeak (i : Nat) : Bool := decide (i ≠ p.spared) && (match lanes[i]? with
          | some (rate, eye) => decide (p.cerate < rate) || decide (eye < p.margin)
          | none => false)
        let run (i : Nat) : Nat := if isWeak i then tabGet p.runs i 0 + 1 else 0
        ∃ t, exec (.laneSample port lanes) s = .next t ∧ t.mem = s.mem ∧ (t.port port).weak = ((List.range 8).filter isWeak).length ∧
          (∀ i < 8, tabGet (t.port port).runs i 0 = run i) ∧
          (p.spared = 15 → p.cand = none → ∀ i < 8, 3 ≤ run i → (∀ j < i, run j < 3) →
            (t.port port).cand = some i ∧ (t.port port).candAt = s.gtc) ∧
          (p.spared ≠ 15 ∨ p.cand.isSome = true → (t.port port).cand = p.cand) ∧
          (∀ i < 8, run i = 3 → (t.port port).cand ≠ some i → Signals s t 0 5)) ∧
      (∀ i c, (s.port port).cand = some c → (s.port port).up = true →
        i = .quietPoint port ∨ (i = .forcedIdleGap port ∧ (s.port port).candAt + 1000 * (s.port port).quiet ≤ s.gtc) →
        ∃ t, exec i s = .next t ∧ t.mem = s.mem ∧ (t.port port).spared = c ∧ (t.port port).cand = none ∧ Signals s t 0 5)) ∧
    (s.clocks = true →
      (∀ points temp, exec (.dvfsWindow points temp) s = .next { s with point := points, temp := temp }) ∧
      (95 * 16 < s.temp.toNat → ∃ t, exec .thermalThrottle s = .next t ∧ t.mem = s.mem ∧ Signals s t 0 6 ∧
        ∀ d < 4, t.point.toNat / 16 ^ d % 16 = s.point.toNat / 16 ^ d % 16 - 1) ∧
      (s.temp.toNat < 110 * 16 → exec .thermalTrip s = .next s) ∧
      (110 * 16 ≤ s.temp.toNat → ∃ t, exec .thermalTrip s = .next t ∧ t.mem = s.mem ∧ t.clocks = false ∧ t.therm = true ∧ t.rdy = false ∧
        Signals s t 0 6 ∧ ∀ w, WorldAborted s t w))

/-! ### The machine as a whole -/

/-- The seventh predicate (R57): a write is discarded, whether made at once or landing later, and a read is true. -/
def Obligations.PredicateSeven : Prop :=
  (∀ th : Thread, th.getP 7 = true) ∧ (∀ (th : Thread) (b : Bool), th.setP 7 b = th) ∧
  (∀ (s : State) (x : XHead) (L : Nat), x.pg = 7 → guardHolds (s.cth L) x = !x.pn) ∧
  (∀ (t : Team) (w : PipeW), w.cls = 3 → w.no = 7 → ∀ g l, (Team_land t w).thread g l = t.thread g l) ∧
  ∀ (t : Team) (p : Pend), p.cls = 3 → p.no = 7 → ∀ g l, (Team_writePend t p).thread g l = t.thread g l

/-- Arguments (R30), as every team that `DISPATCH_DECISION` places has them: the 16 words of its launch's record in `g0` to `g15`
of every group and in `s0` to `s15` of the lead thread, and zero in the registers after them. -/
def Obligations.ArgumentsArrive : Prop :=
  ∀ s : State, (∀ y ∈ s.teams, y.id < s.nextTeam) →
    ∃ t, exec .dispatchDecision s = .next t ∧ ∀ x ∈ t.teams, s.nextTeam ≤ x.id →
      ∃ l ∈ s.launches, x.launch = l.id ∧ x.groups.length = l.r.g ∧ x.lead.isSome = l.r.lead ∧ (l.r.args.length = 16 →
        (∀ g ∈ x.groups, (∀ i < 16, l.r.args[i]? = some (g.getG i)) ∧ ∀ i, 16 ≤ i → g.getG i = 0) ∧
        ∀ g, x.lead = some g → g.threads.length = 1 ∧
          ∀ th ∈ g.threads, (∀ i < 16, l.r.args[i]? = some (th.getV i)) ∧ ∀ i, 16 ≤ i → th.getV i = 0)

/-- Decoding and encoding agree (R45 to R70): the words of a well-formed instruction, whatever follows them, decode to it and to
their number, as words and as bytes; and words that decode to an instruction are a well-formed instruction's own words. -/
def Obligations.DecodeEncode : Prop :=
  (∀ i : Instr, i.wf = true → i.encode ≠ [] → ∀ rest : List Word, decodeWords (i.encode ++ rest) = .ok (i, i.encode.length)) ∧
  (∀ i : Instr, i.wf = true → i.encode ≠ [] → ∀ rest : List Byte,
    decode (i.encode.flatMap bytesOfWord ++ rest) = .ok (i, i.encode.length)) ∧
  ∀ (ws : List Word) (i : Instr) (n : Nat), decodeWords ws = .ok (i, n) → i.wf = true ∧ n ≤ ws.length ∧ i.encode = ws.take n

/-- Words written out from the spec's encodings (R45 to R53, R67 to R69) decode to the instructions they stand for, and three
that R69 calls illegal do not decode: a word of a major that no row has, an ill-formed `MOVI`, and a literal out of range. -/
def Obligations.WordsDecode : Prop :=
  decodeWords [0x120C2848] = .ok (.iadd 2 5 3 (.reg 9), 1) ∧
  decodeWords [0x000C284A, 0x64, 0] = .ok (.iadd 2 5 3 (.lit 100), 3) ∧
  decodeWords [0x120C2809, 0x00002820, 0] = .ok (.iaddExt ⟨2, 2, true⟩ .i32 false ⟨.v, 5⟩ ⟨.v, 3⟩ (.reg ⟨.v, 9⟩), 3) ∧
  decodeWords [0x06104031, 0x0881A834, 0] = .ok (.ffma ⟨4, 2, true⟩ .f32 ⟨.rz, false⟩ ⟨.v, 8⟩ ⟨.v, 4⟩ (.reg ⟨.g, 3⟩) ⟨.v, 6⟩, 3) ∧
  decodeWords [0x0E19C3D0] = .ok (.fcmpF32 4 .nan 0 6 (.reg 7), 1) ∧
  decodeWords [0xFFF40404] = .ok (.bra 1 (.short 0x3FFD), 1) ∧
  decodeWords [0x04105504] = .ok (.ld32 1 10 4 (.short 2), 1) ∧
  decodeWords [0x00105506, 0x1000, 0] = .ok (.ld32 1 10 4 (.lit 0x1000), 3) ∧
  decodeWords [0x04106245, 0x00801C00, 0x000041A8] = .ok (.chs ⟨1, 7, false⟩ 0 12 ⟨.v, 4⟩ (.reg ⟨.g, 2⟩) 1 ⟨40, 3⟩, 3) ∧
  decodeWords [0x00000020] = .error .reserved ∧ decodeWords [0x00000700] = .error .unassigned ∧
  decodeWords [0x000C284A, 0xFFFFFFFF, 1] = .error .illFormed

/-- A STEP RUNS THE DECODED INSTRUCTION (R13, R14, R28, R45, R46, R69). What stands at a program counter is the instruction that the
words there decode to, when they lie in the code region, can be fetched and are legal in the slice. The issue of a core with one
issuable path runs that path's instruction, for exactly its threads, in the state that the fetch leaves. An instruction selected
earlier in the cycle runs next, for the threads of its path that still stand at it; without one of these, or held, it is passed over.
One that issues and whose accesses must wait keeps its registers as they stand, its threads go on, and it runs once these may be made
(R13, R58; the model's way of it is log 6). The order of turns is the model's choice (log 2). -/
def Obligations.StepRunsDecoded : Prop :=
  (∀ (s : State) (t : Team) (pc : Dword) (n : Nat) (ws : List Word), s.codeWords t pc n = .ok ws → ws.length = n ∧
    ∀ k < n, ∃ pa e, s.codeWord t (pc + BitVec.ofNat 64 (4 * k)) = .ok (pa, e) ∧ ws[k]? = some (s.wordAt t pa)) ∧
  (∀ (s : State) (t : Team) (lead : Bool) (l : Level) (pc : Dword) (pa : Nat) (e : TlbEnt) (i : Instr) (ws : List Word),
    let w := s.wordAt t pa
    let n := wordsOfLen (Raw.ofWord0 w).len
    let r := s.region t l
    s.codeWord t pc = .ok (pa, e) → s.owned none (linesOf pa 4) = false → r.1 ≤ pc.toNat → pc.toNat + 4 * n ≤ r.1 + r.2 →
    s.codeWords t pc n = .ok ws → decodeWords ws = .ok (i, n) →
    (legalIn (s.hdrOf t) lead i = true → s.peek t lead l pc = .ok i (4 * n) w) ∧
    (legalIn (s.hdrOf t) lead i = false → s.peek t lead l pc = .illegal w)) ∧
  (∀ (s : State) (r : List Turn) (core : Nat) (t : Team) (a : Actor) (p : Path) (i : Instr) (len : Nat) (w : Word),
    s.agenda = .issue core :: r → SoleIssuer s core t a →
    picksOf (t.actor a).ages (s.pathsF t a) = [(p, .ok i len w)] → s.hazard t a p i = false →
    ∃ (u : State) (b : Before), let c := ctxOf core t.id a p len w 0 (some b)
      let v : State := { u with cur := c }
      (v.mustWait i = false → step s = exec i v) ∧ (v.mustWait i = true → step s = .next (v.holdInstr i)) ∧
      (mayWait i = false → v.mustWait i = false) ∧ u.agenda = r ∧ u.issueQ = [] ∧ u.mem = s.mem ∧ u.gtc = s.gtc ∧
      (∀ b L, (u.team t.id).threadAt b L = t.threadAt b L) ∧ (∀ b, ((u.team t.id).actor b).g = (t.actor b).g) ∧ (u.team t.id).t = t.t) ∧
  (∀ (s : State) (c : IssueCtx) (i : Instr) (q : List (IssueCtx × Instr)), s.issueQ = (c, i) :: q →
    let u := { s with issueQ := q }.applyDue
    let v : State := { u with cur := u.liveCtx c }
    ((u.liveCtx c).mask ≠ 0 → u.turnHeld (u.liveCtx c) i = false →
      (v.mustWait i = false → step s = exec i v) ∧ (v.mustWait i = true → step s = .next (v.holdInstr i))) ∧
      ((u.liveCtx c).mask = 0 ∨ u.turnHeld (u.liveCtx c) i = true → step s = .next u)) ∧
  (∀ (s : State) (i : Instr), Issuing s → heldPorts i = [] → s.active (heldHead i) ≠ [] →
    let t := s.holdInstr i
    Moved s t (heldHead i) ∧ t.mem = s.mem ∧ ∃ p h, p ∈ t.probes ∧ p.held = some h ∧ p.instr = i ∧ p.team = s.cur.team ∧
      p.who = s.cur.who ∧ p.lanes.map (·.pos) = s.active (heldHead i) ∧
      h.regs = (s.active (heldHead i)).map (fun L => ((s.cth L).v, (s.cth L).p)) ∧ h.g = s.cg.g ∧ h.t = s.ct.t) ∧
  ∀ (s : State) (p : Probe) (h : Issued) (v : State), s.probes.find? (fun x => x.id = p.id) = some p → p.held = some h →
    mayWait p.instr = true → s.onGoing p = true → s.applyDue.heldFree p h = true →
    let u := s.applyDue
    exec p.instr ({ u with probes := u.probes.filter fun x => decide (x.id ≠ p.id) }.installed p h) = .next v →
    ∃ t, exec (.probePass p.id) s = .next t ∧ t.mem = v.mem ∧ t.gtc = v.gtc ∧ t.launches.map (·.id) = v.launches.map (·.id)

/-- What reset leaves (R6, R115, R120, R182, R186, R222, R237, R248, R304, R305, R308, R313, R318, R322 to R327, R329): no clock
counts, bring-up has not begun, registers hold the values their tables give, and nothing runs. The model's choices: that reset is
the state before PERST# is deasserted (log 34), the values no rule gives (log 8), and that memory, before stage 4 has zeroed it,
reads as zero (log 4). Every map is in its form. -/
def Obligations.ResetValues : Prop :=
  let s := State.reset
  (s.gtcOn = false ∧ s.rdy = false ∧ s.memz = false ∧ s.fail = false ∧ s.therm = false ∧ s.stage = 0 ∧ s.powered = false ∧ s.failcode = 0 ∧ s.mgen = 1) ∧
  (s.teams = [] ∧ s.launches = [] ∧ s.engines = [] ∧ s.sessions = []) ∧
  (s.fabid = 0 ∧ s.fbind = [] ∧ s.temp = 0 ∧ s.point = 0 ∧ s.limit = 1500) ∧
  (∀ c, (s.core c).budget = 8192 ∧ (s.core c).used = 0 ∧ (s.core c).l1 = [] ∧ (s.core c).tlb = []) ∧
  (∀ d, (s.die d).win = 64 ∧ (s.die d).maxsh = 6 ∧ (s.die d).backoff = 32 ∧ (s.die d).toLocal = 100000 ∧
    (s.die d).toRemote = 2000 ∧ (s.die d).cycle = 0) ∧
  (∀ p, (s.port p).up = false ∧ (s.port p).sync = false ∧ (s.port p).spared = 15 ∧ (s.port p).quiet = 10000 ∧
    (s.port p).margin = 0x400 ∧ (s.port p).cerate = 100) ∧
  (∀ q, (s.queue q).slots = 0 ∧ (s.queue q).size = 4 ∧ (s.queue q).en = false ∧ (s.queue q).head = 0 ∧ (s.queue q).tail = 0) ∧
  (∀ w, (s.world w).roshift = 4 ∧ (s.world w).lease = 256 ∧ (s.world w).ctxctl = 0 ∧ (s.world w).hwin = 0 ∧ (s.world w).evbase = 0 ∧
    (s.world w).hbmch = 0xFFFFFFFFFFFFFFFF ∧ (s.world w).l2ways = 0 ∧ (s.world w).weight = 1 ∧ (s.world w).slice = 1000 ∧
    (s.world w).age = 16 ∧ (s.world w).fqsize = 0 ∧ (s.world w).tdi = .unlocked ∧ (s.world w).keys = none ∧
    (s.world w).mig = .idle ∧ (s.world w).migwin = 1000000) ∧
  (∀ a, memByte s.mem a = 0) ∧ s.MemOk ∧ s.Tables

/-- Memory keeps its canonical form: after any step from a state with it, two memories with the same bytes are still the same list
(the model's own invariant, log 4; every store of R117, R128, R197, R207, R216, R226, R277, R309, R310, R320 and R322 goes through
it). -/
def Obligations.MemoryKept : Prop := ∀ s t : State, step s = .next t → s.MemOk → t.MemOk

/-- Maps keep their form, and the numbers of teams stay distinct, at every step (the model's own invariant, on which statements
with a premise about a map rest; log 2). -/
def Obligations.TablesKept : Prop := ∀ s t : State, step s = .next t → s.Tables → t.Tables
end

