-- ==== Sys2Proof/Laws/Encode.lean ====
section
/-! SUPPORT. Laws of the fields of instruction words: what a field of joined fields is, every code read back as what
it stands for, and the fields of the words that fields make. -/

namespace Sys2Proof

/-! ### Fields of joined fields -/

theorem extract_low {v w start len : Nat} (hi : BitVec v) (lo : BitVec w) (h : start + len ≤ w) :
    (hi ++ lo).extractLsb' start len = lo.extractLsb' start len := BitVec.extractLsb'_append_eq_of_add_le h

theorem extract_high {v w start len : Nat} (hi : BitVec v) (lo : BitVec w) (h : w ≤ start) :
    (hi ++ lo).extractLsb' start len = hi.extractLsb' (start - w) len := BitVec.extractLsb'_append_eq_of_le h

@[simp] theorem extract_bit (b : Bool) : (bit b).extractLsb' 0 1 = bit b := by cases b <;> rfl
@[simp] theorem bit_eq_one (b : Bool) : (bit b = 1) = (b = true) := by cases b <;> simp [bit]
@[simp] theorem bit_eq_one' (b : Bool) : (bit b = 1#1) = (b = true) := by cases b <;> simp [bit]

/-! ### Codes -/

@[simp] theorem RClass.ofCode_code (k : RClass) : RClass.ofCode k.code = k := by cases k <;> rfl
@[simp] theorem Ty.ofCode_code (k : Ty) : Ty.ofCode k.code = some k := by cases k <;> rfl
@[simp] theorem Rm.ofCode_code (k : Rm) : Rm.ofCode k.code = k := by cases k <;> rfl
@[simp] theorem Cond.ofCode_code (k : Cond) : Cond.ofCode k.code = some k := by cases k <;> rfl
@[simp] theorem Scope.ofCode_code (k : Scope) : Scope.ofCode k.code = some k := by cases k <;> rfl
@[simp] theorem Wid.ofCode_code (k : Wid) : Wid.ofCode k.code = some k := by cases k <;> rfl
@[simp] theorem Elt.ofCode_code (k : Elt) : Elt.ofCode k.code = some k := by cases k <;> rfl
@[simp] theorem Elt.code_ne (k : Elt) : (k.code = 0) = False := by cases k <;> simp [Elt.code]
@[simp] theorem Elt.code_ne' (k : Elt) : (k.code = 0#3) = False := by cases k <;> simp [Elt.code]
@[simp] theorem Aop.ofCode_code (k : Aop) : Aop.ofCode k.code = some k := by cases k <;> rfl
@[simp] theorem Opn.ofCode_code (k : Opn) : Opn.ofCode k.code = some k := by cases k <;> rfl
@[simp] theorem CbarMode.ofCode_code (k : CbarMode) : CbarMode.ofCode k.code = some k := by cases k <;> rfl
@[simp] theorem Action.ofCode_code (k : Action) : Action.ofCode k.code = some k := by cases k <;> rfl
@[simp] theorem Opd.eta (o : Opd) : (⟨o.cls, o.no⟩ : Opd) = o := rfl
@[simp] theorem XHead.eta (x : XHead) : (⟨x.stall, x.pg, x.pn⟩ : XHead) = x := rfl

/-! ### The words -/

/-- What a form does not have is zero (R47, R49, R50). -/
def Raw.tight (r : Raw) : Prop :=
  (r.len = 0 ∨ r.len = 2 → r.md = 0 ∧ r.kc = 0 ∧ r.kb = 0 ∧ r.ka = 0 ∧ r.c = 0 ∧ r.pn = false ∧ r.pg = 0 ∧ r.sub = 0 ∧
    r.kd = 0 ∧ r.low = 0) ∧ (r.len = 0 ∨ r.len = 1 → r.lit = 0)

theorem lit_halves (w : Dword) : (w.extractLsb' 32 32 ++ w.extractLsb' 0 32 : Dword) = w := by
  apply BitVec.eq_of_getLsbD_eq; intro i hi
  simp only [BitVec.getLsbD_append, BitVec.getLsbD_extractLsb']
  split <;> simp_all; omega

/-- A field of two joined fields: of the lower one, of the upper one, or across both. -/
theorem extract_join {v w start len : Nat} (hi : BitVec v) (lo : BitVec w) :
    (hi ++ lo).extractLsb' start len =
      if start + len ≤ w then lo.extractLsb' start len
      else if w ≤ start then hi.extractLsb' (start - w) len
      else (hi ++ lo).extractLsb' start len := by
  split
  · exact extract_low hi lo ‹_›
  · split
    · exact extract_high hi lo ‹_›
    · rfl

theorem extract_all {w : Nat} (x : BitVec w) : x.extractLsb' 0 w = x := BitVec.extractLsb'_eq_self

theorem ofWord0_words (len : BitVec 2) (stall : BitVec 3) (op : BitVec 6) (d a b : BitVec 7) :
    Raw.ofWord0 (b ++ a ++ d ++ op ++ stall ++ len) = { len := len, stall := stall, op := op, d := d, a := a, b := b } := by
  unfold Raw.ofWord0
  simp (disch := decide) only [extract_low, extract_high, Nat.reduceSub, extract_all]

theorem withExt_words (r : Raw) (md : BitVec 5) (kc kb ka : BitVec 2) (c : BitVec 7) (pn : Bool) (pg : BitVec 3)
    (sub : BitVec 10) (kd : BitVec 2) (low : BitVec 30) :
    r.withExt (md ++ kc ++ kb ++ ka ++ c ++ bit pn ++ pg ++ sub) (kd ++ low) =
      { r with md := md, kc := kc, kb := kb, ka := ka, c := c, pn := pn, pg := pg, sub := sub, kd := kd, low := low } := by
  unfold Raw.withExt
  simp (disch := decide) only [extract_low, extract_high, Nat.reduceSub, extract_all, bit_eq_one, Bool.decide_eq_true]

/-- The words of tight fields read back as those fields. -/
theorem Raw.ofWords_words (r : Raw) (h : r.tight) : Raw.ofWords r.words = some r := by
  obtain ⟨len, stall, op, d, a, b, md, kc, kb, ka, c, pn, pg, sub, kd, low, lit⟩ := r
  have hl : ∀ x : BitVec 2, x = 0 ∨ x = 1 ∨ x = 2 ∨ x = 3 := by decide
  unfold Raw.tight at h
  rcases hl len with rfl | rfl | rfl | rfl <;>
    simp only [Raw.words, Raw.ofWords] <;>
    simp only [reduceIte, BitVec.reduceEq, List.cons_append, List.nil_append, ofWord0_words, withExt_words, Raw.withLit, lit_halves] <;>
    simp_all

/-! ### Where fields go in the opcode maps (R47, R67, R68) -/

theorem Raw.parse_base {r : Raw} (h : r.len = 0 ∨ r.len = 2) : r.parse = parseBase r := by
  rcases h with h | h <;> simp [Raw.parse, h]

theorem Raw.parse_ext {r : Raw} (hl : r.len = 1 ∨ r.len = 3) : r.parse = parseExt r := by
  rcases hl with h | h <;> simp [Raw.parse, h]

theorem Raw.parse_int {r : Raw} (m o : Nat) (hl : r.len = 1 ∨ r.len = 3) (hm : r.op.toNat = m)
    (ho : (r.sub.extractLsb' 4 6).toNat = o) (h : m = 0) : r.parse = parseInt r o := by
  rw [Raw.parse_ext hl, parseExt, hm, ho]; grind

theorem Raw.parse_fp {r : Raw} (m o : Nat) (hl : r.len = 1 ∨ r.len = 3) (hm : r.op.toNat = m)
    (ho : (r.sub.extractLsb' 4 6).toNat = o) (h : 0 < m ∧ m ≤ 2) : r.parse = parseFp r m o := by
  rw [Raw.parse_ext hl, parseExt, hm, ho]; grind

theorem Raw.parse_cvt {r : Raw} (m o : Nat) (hl : r.len = 1 ∨ r.len = 3) (hm : r.op.toNat = m)
    (ho : (r.sub.extractLsb' 4 6).toNat = o) (h : 2 < m ∧ m ≤ 5) : r.parse = parseCvt r m o := by
  rw [Raw.parse_ext hl, parseExt, hm, ho]; grind

theorem Raw.parse_ctl {r : Raw} (m o : Nat) (hl : r.len = 1 ∨ r.len = 3) (hm : r.op.toNat = m)
    (ho : (r.sub.extractLsb' 4 6).toNat = o) (h : 5 < m ∧ m ≤ 0x0B) : r.parse = parseCtl r m o := by
  rw [Raw.parse_ext hl, parseExt, hm, ho]; grind

theorem Raw.parse_xlane {r : Raw} (m o : Nat) (hl : r.len = 1 ∨ r.len = 3) (hm : r.op.toNat = m)
    (ho : (r.sub.extractLsb' 4 6).toNat = o) (h : m = 0x0C) : r.parse = parseXlane r o := by
  rw [Raw.parse_ext hl, parseExt, hm, ho]; grind

theorem Raw.parse_mem {r : Raw} (m o : Nat) (hl : r.len = 1 ∨ r.len = 3) (hm : r.op.toNat = m)
    (ho : (r.sub.extractLsb' 4 6).toNat = o) (h : 0x0C < m ∧ m ≤ 0x11) : r.parse = parseMem r m o := by
  rw [Raw.parse_ext hl, parseExt, hm, ho]; grind

theorem Raw.parse_eng {r : Raw} (m o : Nat) (hl : r.len = 1 ∨ r.len = 3) (hm : r.op.toNat = m)
    (ho : (r.sub.extractLsb' 4 6).toNat = o) (h : 0x11 < m ∧ m ≤ 0x16) : r.parse = parseEng r m o := by
  rw [Raw.parse_ext hl, parseExt, hm, ho]; grind

theorem Raw.parse_sys {r : Raw} (m o : Nat) (hl : r.len = 1 ∨ r.len = 3) (hm : r.op.toNat = m)
    (ho : (r.sub.extractLsb' 4 6).toNat = o) (h : 0x16 < m ∧ m ≤ 0x19) : r.parse = parseSys r m o := by
  rw [Raw.parse_ext hl, parseExt, hm, ho]; grind

theorem Raw.parse_mat {r : Raw} (m o : Nat) (hl : r.len = 1 ∨ r.len = 3) (hm : r.op.toNat = m)
    (ho : (r.sub.extractLsb' 4 6).toNat = o) (h : 0x19 < m) : r.parse = parseMat r m o := by
  rw [Raw.parse_ext hl, parseExt, hm, ho]; grind

/-- The operation in the upper bits of the subcode, whatever the type. -/
theorem sub_op (o : BitVec 6) (k : BitVec 4) : (o ++ k : BitVec 10).extractLsb' 4 6 = o := by
  rw [extract_high _ _ (by decide)]; exact extract_all o

theorem sub_ty (o : BitVec 6) (k : BitVec 4) : (o ++ k : BitVec 10).extractLsb' 0 4 = k := by
  rw [extract_low _ _ (by decide)]; exact extract_all k

theorem halves14 (n : BitVec 14) : (n.extractLsb' 7 7 ++ n.extractLsb' 0 7 : BitVec 14) = n := by
  apply BitVec.eq_of_getLsbD_eq; intro i hi
  simp only [BitVec.getLsbD_append, BitVec.getLsbD_extractLsb']
  split <;> simp_all; omega

/-- Order and scope read back (R53). -/
theorem Raw.ord_eq {r : Raw} {o : MOrd} (h : r.low.extractLsb' 25 5 = o.bits) : r.ord = some o := by
  have hs : r.low.extractLsb' 27 3 = (r.low.extractLsb' 25 5).extractLsb' 2 3 := by
    apply BitVec.eq_of_getLsbD_eq; intro i hi
    simp only [BitVec.getLsbD_extractLsb']; simp [hi, show 2 + i < 5 by omega, show 25 + (2 + i) = 27 + i by omega]
  have ha : r.low.extractLsb' 25 1 = (r.low.extractLsb' 25 5).extractLsb' 0 1 := by
    apply BitVec.eq_of_getLsbD_eq; intro i hi
    simp only [BitVec.getLsbD_extractLsb']; simp [hi, show i < 5 by omega]
  have hr : r.low.extractLsb' 26 1 = (r.low.extractLsb' 25 5).extractLsb' 1 1 := by
    apply BitVec.eq_of_getLsbD_eq; intro i hi
    simp only [BitVec.getLsbD_extractLsb']; simp [hi, show 1 + i < 5 by omega, show 25 + (1 + i) = 26 + i by omega]
  rw [h] at hs ha hr
  simp (disch := decide) only [MOrd.bits, extract_low, extract_high, Nat.reduceSub, extract_all] at hs ha hr
  simp [Raw.ord, Raw.f, Raw.flag, hs, ha, hr]

end Sys2Proof
end

