-- ==== Sys2Proof/Laws/Tab.lean ====
section
/-! SUPPORT. Laws of maps in canonical form and of memory: read after write, other places left alone, and that
every operation keeps the form. -/

namespace Sys2Proof.Machine

section
variable {α : Type} [DecidableEq α]

theorem tabFrom_le {t : List (Nat × α)} {lo lo' : Nat} {d : α} (h : tabFrom t lo d = true) (hl : lo' ≤ lo) :
    tabFrom t lo' d = true := by
  cases t with
  | nil => rfl
  | cons e r =>
    simp only [tabFrom, Bool.and_eq_true, decide_eq_true_eq] at h ⊢
    exact ⟨⟨by omega, h.1.2⟩, h.2⟩

/-- Below the first key nothing is listed. -/
theorem tabGet_below {t : List (Nat × α)} {lo k : Nat} {d : α} (h : tabFrom t lo d = true) (hk : k < lo) :
    tabGet t k d = d := by
  cases t with
  | nil => rfl
  | cons e r =>
    simp only [tabFrom, Bool.and_eq_true, decide_eq_true_eq] at h
    have h1 : k ≠ e.1 := by omega
    have h2 : k < e.1 := by omega
    simp [tabGet, h1, h2]

theorem tabFrom_tabDel {t : List (Nat × α)} {lo k : Nat} {d : α} (h : tabFrom t lo d = true) :
    tabFrom (tabDel t k) lo d = true := by
  induction t generalizing lo with
  | nil => rfl
  | cons e r ih =>
    simp only [tabFrom, Bool.and_eq_true, decide_eq_true_eq] at h
    simp only [tabDel]
    split
    · exact ih (tabFrom_le h.2 (by omega))
    · split <;> simp only [tabFrom, Bool.and_eq_true, decide_eq_true_eq]
      · exact h
      · exact ⟨h.1, ih h.2⟩

theorem tabFrom_tabPut {t : List (Nat × α)} {lo k : Nat} {x d : α} (h : tabFrom t lo d = true) (hk : lo ≤ k) (hx : x ≠ d) :
    tabFrom (tabPut t k x) lo d = true := by
  induction t generalizing lo with
  | nil => simp [tabPut, tabFrom, hk, hx]
  | cons e r ih =>
    simp only [tabFrom, Bool.and_eq_true, decide_eq_true_eq] at h
    simp only [tabPut]
    split
    · subst k; simp [tabFrom, hk, hx, h.2]
    · split <;> simp only [tabFrom, Bool.and_eq_true, decide_eq_true_eq]
      · exact ⟨⟨hk, hx⟩, ⟨by omega, h.1.2⟩, h.2⟩
      · exact ⟨h.1, ih h.2 (by omega)⟩

/-- Every write keeps the canonical form. -/
theorem tabWf_tabSet {t : List (Nat × α)} {k : Nat} {x d : α} (h : tabWf t d = true) : tabWf (tabSet t k x d) d = true := by
  unfold tabSet
  split
  · exact tabFrom_tabDel h
  · exact tabFrom_tabPut h (Nat.zero_le k) ‹_›

omit [DecidableEq α] in
theorem tabGet_tabPut {t : List (Nat × α)} {k j : Nat} {x d : α} :
    tabGet (tabPut t k x) j d = if j = k then x else tabGet t j d := by
  induction t with
  | nil => simp only [tabPut, tabGet]; split <;> simp_all
  | cons e r ih =>
    obtain ⟨k', v⟩ := e
    simp only [tabPut, tabGet]
    split
    · simp only [tabGet]; split <;> simp_all
    · split
      · simp only [tabGet]; split <;> rename_i h3
        · simp
        · have := h3; split <;> [skip; rfl]; have : j ≠ k' := by omega
          have : j < k' := by omega
          simp_all
      · simp only [tabGet, ih]; grind

omit [DecidableEq α] in
/-- A dropped key reads as the default, whatever the map's form. -/
theorem tabGet_tabDel_self {t : List (Nat × α)} {k : Nat} {d : α} : tabGet (tabDel t k) k d = d := by
  induction t with
  | nil => rfl
  | cons e r ih =>
    obtain ⟨k', v⟩ := e
    simp only [tabDel]
    split
    · exact ih
    · split <;> simp_all [tabGet]

theorem tabGet_tabDel {t : List (Nat × α)} {k j : Nat} {d : α} {lo : Nat} (h : tabFrom t lo d = true) :
    tabGet (tabDel t k) j d = if j = k then d else tabGet t j d := by
  by_cases hj : j = k
  · subst hj; simp [tabGet_tabDel_self]
  induction t generalizing lo with
  | nil => simp [tabDel, tabGet]
  | cons e r ih =>
    obtain ⟨k', v⟩ := e
    simp only [tabFrom, Bool.and_eq_true, decide_eq_true_eq] at h
    have hb : ∀ i, i < k' + 1 → tabGet r i d = d := fun i hi => tabGet_below h.2 hi
    rw [if_neg hj] at ih ⊢
    simp only [tabDel, tabGet]
    split
    · subst k'
      rw [ih h.2, if_neg hj]
      split
      · exact hb j (by omega)
      · rfl
    · split
      · simp only [tabGet]
      · simp only [tabGet, ih h.2]

/-- Read after write: the value written there, what was there elsewhere. -/
theorem tabGet_tabSet {t : List (Nat × α)} {k j : Nat} {x d : α} (h : tabWf t d = true) :
    tabGet (tabSet t k x d) j d = if j = k then x else tabGet t j d := by
  unfold tabSet
  split
  · subst x; exact tabGet_tabDel h
  · exact tabGet_tabPut

/-- Read after write of one key, whatever the map's form. -/
theorem tabGet_tabSet_self {t : List (Nat × α)} {k : Nat} {x d : α} : tabGet (tabSet t k x d) k d = x := by
  unfold tabSet
  split
  · subst x; exact tabGet_tabDel_self
  · simp [tabGet_tabPut]

/-- A write leaves every other key alone. -/
theorem tabGet_tabSet_ne {t : List (Nat × α)} {k j : Nat} {x d : α} (hj : j ≠ k) (h : tabWf t d = true) :
    tabGet (tabSet t k x d) j d = tabGet t j d := by
  rw [tabGet_tabSet h, if_neg hj]

/-! ### Rising keys alone -/

omit [DecidableEq α] in
theorem tabRises_cons {e : Nat × α} {r : List (Nat × α)} : tabRises (e :: r) ↔ (∀ x ∈ r, e.1 < x.1) ∧ tabRises r := by
  simp [tabRises]

omit [DecidableEq α] in
theorem mem_tabDel {t : List (Nat × α)} {k : Nat} {e : Nat × α} (h : e ∈ tabDel t k) : e ∈ t := by
  induction t with
  | nil => exact h
  | cons a r ih =>
    simp only [tabDel] at h
    split at h
    · exact .tail _ (ih h)
    · split at h
      · exact h
      · rcases List.mem_cons.mp h with rfl | h
        · exact .head _
        · exact .tail _ (ih h)

omit [DecidableEq α] in
theorem mem_tabPut {t : List (Nat × α)} {k : Nat} {x : α} {e : Nat × α} (h : e ∈ tabPut t k x) : e = (k, x) ∨ e ∈ t := by
  induction t with
  | nil => simpa [tabPut] using h
  | cons a r ih =>
    simp only [tabPut] at h
    split at h
    · rcases List.mem_cons.mp h with rfl | h
      · exact .inl rfl
      · exact .inr (.tail _ h)
    · split at h
      · rcases List.mem_cons.mp h with rfl | h
        · exact .inl rfl
        · exact .inr h
      · rcases List.mem_cons.mp h with rfl | h
        · exact .inr (.head _)
        · exact (ih h).imp id (.tail _)

omit [DecidableEq α] in
theorem tabRises_tabDel {t : List (Nat × α)} {k : Nat} (h : tabRises t) : tabRises (tabDel t k) := by
  induction t with
  | nil => exact h
  | cons a r ih =>
    have hr := tabRises_cons.mp h
    simp only [tabDel]
    split
    · exact ih hr.2
    · split
      · exact h
      · exact tabRises_cons.mpr ⟨fun x hx => hr.1 x (mem_tabDel hx), ih hr.2⟩

omit [DecidableEq α] in
theorem tabRises_tabPut {t : List (Nat × α)} {k : Nat} {x : α} (h : tabRises t) : tabRises (tabPut t k x) := by
  induction t with
  | nil => simp [tabPut, tabRises]
  | cons a r ih =>
    have hr := tabRises_cons.mp h
    simp only [tabPut]
    split
    · rename_i hk; exact tabRises_cons.mpr ⟨fun y hy => hk ▸ hr.1 y hy, hr.2⟩
    · split
      · rename_i h1 h2
        refine tabRises_cons.mpr ⟨fun y hy => ?_, h⟩
        rcases List.mem_cons.mp hy with rfl | hy
        · exact h2
        · exact Nat.lt_trans h2 (hr.1 y hy)
      · refine tabRises_cons.mpr ⟨fun y hy => ?_, ih hr.2⟩
        rcases mem_tabPut hy with rfl | hy
        · simp only at *; omega
        · exact hr.1 y hy

/-- Every write keeps keys rising. -/
theorem tabRises_tabSet {t : List (Nat × α)} {k : Nat} {x d : α} (h : tabRises t) : tabRises (tabSet t k x d) := by
  unfold tabSet
  split
  · exact tabRises_tabDel h
  · exact tabRises_tabPut h

omit [DecidableEq α] in
theorem tabGet_above {t : List (Nat × α)} {j : Nat} {d : α} (h : ∀ x ∈ t, j < x.1) : tabGet t j d = d := by
  cases t with
  | nil => rfl
  | cons e r =>
    have := h e (.head _)
    simp [tabGet, show j ≠ e.1 by omega, this]

omit [DecidableEq α] in
theorem tabGet_tabDel_ne {t : List (Nat × α)} {k j : Nat} {d : α} (hj : j ≠ k) (h : tabRises t) :
    tabGet (tabDel t k) j d = tabGet t j d := by
  induction t with
  | nil => rfl
  | cons a r ih =>
    have hr := tabRises_cons.mp h
    simp only [tabDel]
    split
    · rename_i hk
      rw [ih hr.2]
      simp only [tabGet]
      rw [if_neg (by omega)]
      split
      · exact tabGet_above fun x hx => by have := hr.1 x hx; omega
      · rfl
    · split
      · rfl
      · simp only [tabGet, ih hr.2]

/-- A write leaves every other key alone while keys rise. -/
theorem tabGet_tabSet_other {t : List (Nat × α)} {k j : Nat} {x d : α} (hj : j ≠ k) (h : tabRises t) :
    tabGet (tabSet t k x d) j d = tabGet t j d := by
  unfold tabSet
  split
  · exact tabGet_tabDel_ne hj h
  · rw [tabGet_tabPut, if_neg hj]

omit [DecidableEq α] in
theorem tabRises_map {t : List (Nat × α)} {f : Nat × α → Nat × α} (hf : ∀ x, (f x).1 = x.1) (h : tabRises t) :
    tabRises (t.map f) := by
  have : (Prod.fst ∘ f : Nat × α → Nat) = Prod.fst := funext hf
  simpa [tabRises, List.map_map, this] using h

omit [DecidableEq α] in
theorem tabRises_filter {t : List (Nat × α)} {p : Nat × α → Bool} (h : tabRises t) : tabRises (t.filter p) :=
  List.Pairwise.sublist ((List.filter_sublist).map _) h

end

/-! ### Memory -/

theorem Memory.wf_set {m : List Host.Cell} {a : Nat} {b : Byte} (h : Memory.wf m = true) :
    Memory.wf (memSetByte m a b) = true := tabWf_tabSet h

/-- Every store keeps memory's canonical form. -/
theorem Memory.wf_write {m : List Host.Cell} {a : Nat} {bs : List Byte} (h : Memory.wf m = true) :
    Memory.wf (memWrite m a bs) = true := by
  induction bs generalizing m a with
  | nil => exact h
  | cons b r ih => exact ih (Memory.wf_set h)

theorem memByte_set {m : List Host.Cell} {a x : Nat} {b : Byte} (h : Memory.wf m = true) :
    memByte (memSetByte m a b) x = if x = a then b else memByte m x := tabGet_tabSet h

/-- A store reads back as its bytes; every other address reads as before. -/
theorem memByte_write {m : List Host.Cell} {a x : Nat} {bs : List Byte} (h : Memory.wf m = true) :
    memByte (memWrite m a bs) x = if a ≤ x ∧ x < a + bs.length then bs.getD (x - a) 0 else memByte m x := by
  induction bs generalizing m a with
  | nil => simp [memWrite]
  | cons b r ih =>
    simp only [memWrite, List.length_cons]
    rw [ih (Memory.wf_set h), memByte_set h]
    by_cases h1 : x = a
    · subst x
      have h2 : ¬(a + 1 ≤ a ∧ a < a + 1 + r.length) := by omega
      have h3 : a ≤ a ∧ a < a + (r.length + 1) := by omega
      rw [if_neg h2, if_pos rfl, if_pos h3]; simp
    · rw [if_neg h1]
      by_cases h4 : a + 1 ≤ x ∧ x < a + 1 + r.length
      · have h5 : a ≤ x ∧ x < a + (r.length + 1) := by omega
        rw [if_pos h4, if_pos h5]
        obtain ⟨n, hn⟩ : ∃ n, x - a = n + 1 := ⟨x - a - 1, by omega⟩
        have : x - (a + 1) = n := by omega
        rw [hn, this]; rfl
      · have h5 : ¬(a ≤ x ∧ x < a + (r.length + 1)) := by omega
        rw [if_neg h4, if_neg h5]

theorem length_memBytes (m : List Host.Cell) (a n : Nat) : (memBytes m a n).length = n := by
  induction n generalizing a with
  | zero => rfl
  | succ n ih => simp [memBytes, ih]

theorem getElem?_memBytes (m : List Host.Cell) (a n i : Nat) :
    (memBytes m a n)[i]? = if i < n then some (memByte m (a + i)) else none := by
  induction n generalizing a i with
  | zero => simp [memBytes]
  | succ n ih =>
    cases i with
    | zero => simp [memBytes]
    | succ i => rw [memBytes, List.getElem?_cons_succ, ih, show a + 1 + i = a + (i + 1) by omega]; simp

/-- A part of a range of bytes. -/
theorem memBytes_part (m : List Host.Cell) {a n i k : Nat} (h : i + k ≤ n) :
    ((memBytes m a n).drop i).take k = memBytes m (a + i) k := by
  apply List.ext_getElem?
  intro j
  rw [List.getElem?_take, List.getElem?_drop, getElem?_memBytes, getElem?_memBytes]
  by_cases hj : j < k
  · rw [if_pos hj, if_pos (by omega), if_pos hj, Nat.add_assoc]
  · rw [if_neg hj, if_neg hj]

/-- What was written reads back. -/
theorem memBytes_write (m : List Host.Cell) (a : Nat) (bs : List Byte) (h : Memory.wf m = true) :
    memBytes (memWrite m a bs) a bs.length = bs := by
  apply List.ext_getElem?
  intro j
  rw [getElem?_memBytes, memByte_write h]
  by_cases hj : j < bs.length
  · rw [if_pos hj, if_pos (by omega), Nat.add_sub_cancel_left, List.getD_eq_getElem?_getD, List.getElem?_eq_getElem hj]; rfl
  · rw [if_neg hj, List.getElem?_eq_none (by omega)]

/-- A range apart from what was written reads as before. -/
theorem memBytes_write_other {m : List Host.Cell} {a b n : Nat} {bs : List Byte} (h : Memory.wf m = true)
    (hd : b + n ≤ a ∨ a + bs.length ≤ b) : memBytes (memWrite m a bs) b n = memBytes m b n := by
  apply List.ext_getElem?
  intro j
  rw [getElem?_memBytes, getElem?_memBytes, memByte_write h]
  by_cases hj : j < n
  · rw [if_pos hj, if_pos hj, if_neg (by omega)]
  · rw [if_neg hj, if_neg hj]

theorem length_leBytes (n v : Nat) : (leBytes n v).length = n := by
  induction n generalizing v with
  | zero => rfl
  | succ n ih => simp [leBytes, ih]

/-- Bytes written little-endian read back as the value (R4). -/
theorem leNat_leBytes (n v : Nat) : leNat (leBytes n v) = v % 256 ^ n := by
  induction n generalizing v with
  | zero => simp [leBytes, leNat, Nat.mod_one]
  | succ n ih =>
    have h : v % 256 ^ (n + 1) = v % 256 + 256 * (v / 256 % 256 ^ n) := by rw [Nat.pow_succ', Nat.mod_mul]
    rw [leBytes, leNat, ih, BitVec.toNat_ofNat, h]

end Sys2Proof.Machine
end

