-- ==== Sys2Proof/Laws/State.lean ====
section
/-! SUPPORT. Each named update of the state, field by field: it leaves every other field alone. Then what it does to
the thing it updates. -/

namespace Sys2Proof.Machine

/-! ### modTeam -/

@[simp] theorem State.modTeam_gtc (s : State) (t : Nat) (f : Team → Team) : (s.modTeam t f).gtc = s.gtc := rfl
@[simp] theorem State.modTeam_gtcOn (s : State) (t : Nat) (f : Team → Team) : (s.modTeam t f).gtcOn = s.gtcOn := rfl
@[simp] theorem State.modTeam_rdy (s : State) (t : Nat) (f : Team → Team) : (s.modTeam t f).rdy = s.rdy := rfl
@[simp] theorem State.modTeam_memz (s : State) (t : Nat) (f : Team → Team) : (s.modTeam t f).memz = s.memz := rfl
@[simp] theorem State.modTeam_fail (s : State) (t : Nat) (f : Team → Team) : (s.modTeam t f).fail = s.fail := rfl
@[simp] theorem State.modTeam_therm (s : State) (t : Nat) (f : Team → Team) : (s.modTeam t f).therm = s.therm := rfl
@[simp] theorem State.modTeam_stage (s : State) (t : Nat) (f : Team → Team) : (s.modTeam t f).stage = s.stage := rfl
@[simp] theorem State.modTeam_failcode (s : State) (t : Nat) (f : Team → Team) : (s.modTeam t f).failcode = s.failcode := rfl
@[simp] theorem State.modTeam_powered (s : State) (t : Nat) (f : Team → Team) : (s.modTeam t f).powered = s.powered := rfl
@[simp] theorem State.modTeam_clocks (s : State) (t : Nat) (f : Team → Team) : (s.modTeam t f).clocks = s.clocks := rfl
@[simp] theorem State.modTeam_mgen (s : State) (t : Nat) (f : Team → Team) : (s.modTeam t f).mgen = s.mgen := rfl
@[simp] theorem State.modTeam_fabid (s : State) (t : Nat) (f : Team → Team) : (s.modTeam t f).fabid = s.fabid := rfl
@[simp] theorem State.modTeam_fbind (s : State) (t : Nat) (f : Team → Team) : (s.modTeam t f).fbind = s.fbind := rfl
@[simp] theorem State.modTeam_temp (s : State) (t : Nat) (f : Team → Team) : (s.modTeam t f).temp = s.temp := rfl
@[simp] theorem State.modTeam_point (s : State) (t : Nat) (f : Team → Team) : (s.modTeam t f).point = s.point := rfl
@[simp] theorem State.modTeam_limit (s : State) (t : Nat) (f : Team → Team) : (s.modTeam t f).limit = s.limit := rfl
@[simp] theorem State.modTeam_links (s : State) (t : Nat) (f : Team → Team) : (s.modTeam t f).links = s.links := rfl
@[simp] theorem State.modTeam_ports (s : State) (t : Nat) (f : Team → Team) : (s.modTeam t f).ports = s.ports := rfl
@[simp] theorem State.modTeam_dies (s : State) (t : Nat) (f : Team → Team) : (s.modTeam t f).dies = s.dies := rfl
@[simp] theorem State.modTeam_cores (s : State) (t : Nat) (f : Team → Team) : (s.modTeam t f).cores = s.cores := rfl
@[simp] theorem State.modTeam_mem (s : State) (t : Nat) (f : Team → Team) : (s.modTeam t f).mem = s.mem := rfl
@[simp] theorem State.modTeam_seals (s : State) (t : Nat) (f : Team → Team) : (s.modTeam t f).seals = s.seals := rfl
@[simp] theorem State.modTeam_leases (s : State) (t : Nat) (f : Team → Team) : (s.modTeam t f).leases = s.leases := rfl
@[simp] theorem State.modTeam_lastW (s : State) (t : Nat) (f : Team → Team) : (s.modTeam t f).lastW = s.lastW := rfl
@[simp] theorem State.modTeam_served (s : State) (t : Nat) (f : Team → Team) : (s.modTeam t f).served = s.served := rfl
@[simp] theorem State.modTeam_flights (s : State) (t : Nat) (f : Team → Team) : (s.modTeam t f).flights = s.flights := rfl
@[simp] theorem State.modTeam_homes (s : State) (t : Nat) (f : Team → Team) : (s.modTeam t f).homes = s.homes := rfl
@[simp] theorem State.modTeam_pends (s : State) (t : Nat) (f : Team → Team) : (s.modTeam t f).pends = s.pends := rfl
@[simp] theorem State.modTeam_escs (s : State) (t : Nat) (f : Team → Team) : (s.modTeam t f).escs = s.escs := rfl
@[simp] theorem State.modTeam_walks (s : State) (t : Nat) (f : Team → Team) : (s.modTeam t f).walks = s.walks := rfl
@[simp] theorem State.modTeam_fences (s : State) (t : Nat) (f : Team → Team) : (s.modTeam t f).fences = s.fences := rfl
@[simp] theorem State.modTeam_engines (s : State) (t : Nat) (f : Team → Team) : (s.modTeam t f).engines = s.engines := rfl
@[simp] theorem State.modTeam_probes (s : State) (t : Nat) (f : Team → Team) : (s.modTeam t f).probes = s.probes := rfl
@[simp] theorem State.modTeam_invals (s : State) (t : Nat) (f : Team → Team) : (s.modTeam t f).invals = s.invals := rfl
@[simp] theorem State.modTeam_egress (s : State) (t : Nat) (f : Team → Team) : (s.modTeam t f).egress = s.egress := rfl
@[simp] theorem State.modTeam_lates (s : State) (t : Nat) (f : Team → Team) : (s.modTeam t f).lates = s.lates := rfl
@[simp] theorem State.modTeam_parks (s : State) (t : Nat) (f : Team → Team) : (s.modTeam t f).parks = s.parks := rfl
@[simp] theorem State.modTeam_launches (s : State) (t : Nat) (f : Team → Team) : (s.modTeam t f).launches = s.launches := rfl
@[simp] theorem State.modTeam_queues (s : State) (t : Nat) (f : Team → Team) : (s.modTeam t f).queues = s.queues := rfl
@[simp] theorem State.modTeam_worlds (s : State) (t : Nat) (f : Team → Team) : (s.modTeam t f).worlds = s.worlds := rfl
@[simp] theorem State.modTeam_holder (s : State) (t : Nat) (f : Team → Team) : (s.modTeam t f).holder = s.holder := rfl
@[simp] theorem State.modTeam_sliceEnd (s : State) (t : Nat) (f : Team → Team) : (s.modTeam t f).sliceEnd = s.sliceEnd := rfl
@[simp] theorem State.modTeam_handing (s : State) (t : Nat) (f : Team → Team) : (s.modTeam t f).handing = s.handing := rfl
@[simp] theorem State.modTeam_rrNext (s : State) (t : Nat) (f : Team → Team) : (s.modTeam t f).rrNext = s.rrNext := rfl
@[simp] theorem State.modTeam_rrLeft (s : State) (t : Nat) (f : Team → Team) : (s.modTeam t f).rrLeft = s.rrLeft := rfl
@[simp] theorem State.modTeam_sessions (s : State) (t : Nat) (f : Team → Team) : (s.modTeam t f).sessions = s.sessions := rfl
@[simp] theorem State.modTeam_hostPosts (s : State) (t : Nat) (f : Team → Team) : (s.modTeam t f).hostPosts = s.hostPosts := rfl
@[simp] theorem State.modTeam_signals (s : State) (t : Nat) (f : Team → Team) : (s.modTeam t f).signals = s.signals := rfl
@[simp] theorem State.modTeam_replies (s : State) (t : Nat) (f : Team → Team) : (s.modTeam t f).replies = s.replies := rfl
@[simp] theorem State.modTeam_issueQ (s : State) (t : Nat) (f : Team → Team) : (s.modTeam t f).issueQ = s.issueQ := rfl
@[simp] theorem State.modTeam_cur (s : State) (t : Nat) (f : Team → Team) : (s.modTeam t f).cur = s.cur := rfl
@[simp] theorem State.modTeam_agenda (s : State) (t : Nat) (f : Team → Team) : (s.modTeam t f).agenda = s.agenda := rfl
@[simp] theorem State.modTeam_free (s : State) (t : Nat) (f : Team → Team) : (s.modTeam t f).free = s.free := rfl
@[simp] theorem State.modTeam_nextId (s : State) (t : Nat) (f : Team → Team) : (s.modTeam t f).nextId = s.nextId := rfl
@[simp] theorem State.modTeam_nextTeam (s : State) (t : Nat) (f : Team → Team) : (s.modTeam t f).nextTeam = s.nextTeam := rfl

/-! ### modLaunch -/

@[simp] theorem State.modLaunch_gtc (s : State) (i : Nat) (f : Launch → Launch) : (s.modLaunch i f).gtc = s.gtc := rfl
@[simp] theorem State.modLaunch_gtcOn (s : State) (i : Nat) (f : Launch → Launch) : (s.modLaunch i f).gtcOn = s.gtcOn := rfl
@[simp] theorem State.modLaunch_rdy (s : State) (i : Nat) (f : Launch → Launch) : (s.modLaunch i f).rdy = s.rdy := rfl
@[simp] theorem State.modLaunch_memz (s : State) (i : Nat) (f : Launch → Launch) : (s.modLaunch i f).memz = s.memz := rfl
@[simp] theorem State.modLaunch_fail (s : State) (i : Nat) (f : Launch → Launch) : (s.modLaunch i f).fail = s.fail := rfl
@[simp] theorem State.modLaunch_therm (s : State) (i : Nat) (f : Launch → Launch) : (s.modLaunch i f).therm = s.therm := rfl
@[simp] theorem State.modLaunch_stage (s : State) (i : Nat) (f : Launch → Launch) : (s.modLaunch i f).stage = s.stage := rfl
@[simp] theorem State.modLaunch_failcode (s : State) (i : Nat) (f : Launch → Launch) : (s.modLaunch i f).failcode = s.failcode := rfl
@[simp] theorem State.modLaunch_powered (s : State) (i : Nat) (f : Launch → Launch) : (s.modLaunch i f).powered = s.powered := rfl
@[simp] theorem State.modLaunch_clocks (s : State) (i : Nat) (f : Launch → Launch) : (s.modLaunch i f).clocks = s.clocks := rfl
@[simp] theorem State.modLaunch_mgen (s : State) (i : Nat) (f : Launch → Launch) : (s.modLaunch i f).mgen = s.mgen := rfl
@[simp] theorem State.modLaunch_fabid (s : State) (i : Nat) (f : Launch → Launch) : (s.modLaunch i f).fabid = s.fabid := rfl
@[simp] theorem State.modLaunch_fbind (s : State) (i : Nat) (f : Launch → Launch) : (s.modLaunch i f).fbind = s.fbind := rfl
@[simp] theorem State.modLaunch_temp (s : State) (i : Nat) (f : Launch → Launch) : (s.modLaunch i f).temp = s.temp := rfl
@[simp] theorem State.modLaunch_point (s : State) (i : Nat) (f : Launch → Launch) : (s.modLaunch i f).point = s.point := rfl
@[simp] theorem State.modLaunch_limit (s : State) (i : Nat) (f : Launch → Launch) : (s.modLaunch i f).limit = s.limit := rfl
@[simp] theorem State.modLaunch_links (s : State) (i : Nat) (f : Launch → Launch) : (s.modLaunch i f).links = s.links := rfl
@[simp] theorem State.modLaunch_ports (s : State) (i : Nat) (f : Launch → Launch) : (s.modLaunch i f).ports = s.ports := rfl
@[simp] theorem State.modLaunch_dies (s : State) (i : Nat) (f : Launch → Launch) : (s.modLaunch i f).dies = s.dies := rfl
@[simp] theorem State.modLaunch_cores (s : State) (i : Nat) (f : Launch → Launch) : (s.modLaunch i f).cores = s.cores := rfl
@[simp] theorem State.modLaunch_mem (s : State) (i : Nat) (f : Launch → Launch) : (s.modLaunch i f).mem = s.mem := rfl
@[simp] theorem State.modLaunch_seals (s : State) (i : Nat) (f : Launch → Launch) : (s.modLaunch i f).seals = s.seals := rfl
@[simp] theorem State.modLaunch_leases (s : State) (i : Nat) (f : Launch → Launch) : (s.modLaunch i f).leases = s.leases := rfl
@[simp] theorem State.modLaunch_lastW (s : State) (i : Nat) (f : Launch → Launch) : (s.modLaunch i f).lastW = s.lastW := rfl
@[simp] theorem State.modLaunch_served (s : State) (i : Nat) (f : Launch → Launch) : (s.modLaunch i f).served = s.served := rfl
@[simp] theorem State.modLaunch_flights (s : State) (i : Nat) (f : Launch → Launch) : (s.modLaunch i f).flights = s.flights := rfl
@[simp] theorem State.modLaunch_homes (s : State) (i : Nat) (f : Launch → Launch) : (s.modLaunch i f).homes = s.homes := rfl
@[simp] theorem State.modLaunch_pends (s : State) (i : Nat) (f : Launch → Launch) : (s.modLaunch i f).pends = s.pends := rfl
@[simp] theorem State.modLaunch_escs (s : State) (i : Nat) (f : Launch → Launch) : (s.modLaunch i f).escs = s.escs := rfl
@[simp] theorem State.modLaunch_walks (s : State) (i : Nat) (f : Launch → Launch) : (s.modLaunch i f).walks = s.walks := rfl
@[simp] theorem State.modLaunch_fences (s : State) (i : Nat) (f : Launch → Launch) : (s.modLaunch i f).fences = s.fences := rfl
@[simp] theorem State.modLaunch_engines (s : State) (i : Nat) (f : Launch → Launch) : (s.modLaunch i f).engines = s.engines := rfl
@[simp] theorem State.modLaunch_probes (s : State) (i : Nat) (f : Launch → Launch) : (s.modLaunch i f).probes = s.probes := rfl
@[simp] theorem State.modLaunch_invals (s : State) (i : Nat) (f : Launch → Launch) : (s.modLaunch i f).invals = s.invals := rfl
@[simp] theorem State.modLaunch_egress (s : State) (i : Nat) (f : Launch → Launch) : (s.modLaunch i f).egress = s.egress := rfl
@[simp] theorem State.modLaunch_lates (s : State) (i : Nat) (f : Launch → Launch) : (s.modLaunch i f).lates = s.lates := rfl
@[simp] theorem State.modLaunch_parks (s : State) (i : Nat) (f : Launch → Launch) : (s.modLaunch i f).parks = s.parks := rfl
@[simp] theorem State.modLaunch_teams (s : State) (i : Nat) (f : Launch → Launch) : (s.modLaunch i f).teams = s.teams := rfl
@[simp] theorem State.modLaunch_queues (s : State) (i : Nat) (f : Launch → Launch) : (s.modLaunch i f).queues = s.queues := rfl
@[simp] theorem State.modLaunch_worlds (s : State) (i : Nat) (f : Launch → Launch) : (s.modLaunch i f).worlds = s.worlds := rfl
@[simp] theorem State.modLaunch_holder (s : State) (i : Nat) (f : Launch → Launch) : (s.modLaunch i f).holder = s.holder := rfl
@[simp] theorem State.modLaunch_sliceEnd (s : State) (i : Nat) (f : Launch → Launch) : (s.modLaunch i f).sliceEnd = s.sliceEnd := rfl
@[simp] theorem State.modLaunch_handing (s : State) (i : Nat) (f : Launch → Launch) : (s.modLaunch i f).handing = s.handing := rfl
@[simp] theorem State.modLaunch_rrNext (s : State) (i : Nat) (f : Launch → Launch) : (s.modLaunch i f).rrNext = s.rrNext := rfl
@[simp] theorem State.modLaunch_rrLeft (s : State) (i : Nat) (f : Launch → Launch) : (s.modLaunch i f).rrLeft = s.rrLeft := rfl
@[simp] theorem State.modLaunch_sessions (s : State) (i : Nat) (f : Launch → Launch) : (s.modLaunch i f).sessions = s.sessions := rfl
@[simp] theorem State.modLaunch_hostPosts (s : State) (i : Nat) (f : Launch → Launch) : (s.modLaunch i f).hostPosts = s.hostPosts := rfl
@[simp] theorem State.modLaunch_signals (s : State) (i : Nat) (f : Launch → Launch) : (s.modLaunch i f).signals = s.signals := rfl
@[simp] theorem State.modLaunch_replies (s : State) (i : Nat) (f : Launch → Launch) : (s.modLaunch i f).replies = s.replies := rfl
@[simp] theorem State.modLaunch_issueQ (s : State) (i : Nat) (f : Launch → Launch) : (s.modLaunch i f).issueQ = s.issueQ := rfl
@[simp] theorem State.modLaunch_cur (s : State) (i : Nat) (f : Launch → Launch) : (s.modLaunch i f).cur = s.cur := rfl
@[simp] theorem State.modLaunch_agenda (s : State) (i : Nat) (f : Launch → Launch) : (s.modLaunch i f).agenda = s.agenda := rfl
@[simp] theorem State.modLaunch_free (s : State) (i : Nat) (f : Launch → Launch) : (s.modLaunch i f).free = s.free := rfl
@[simp] theorem State.modLaunch_nextId (s : State) (i : Nat) (f : Launch → Launch) : (s.modLaunch i f).nextId = s.nextId := rfl
@[simp] theorem State.modLaunch_nextTeam (s : State) (i : Nat) (f : Launch → Launch) : (s.modLaunch i f).nextTeam = s.nextTeam := rfl

/-! ### modQueue -/

@[simp] theorem State.modQueue_gtc (s : State) (q : Nat) (f : Queue → Queue) : (s.modQueue q f).gtc = s.gtc := rfl
@[simp] theorem State.modQueue_gtcOn (s : State) (q : Nat) (f : Queue → Queue) : (s.modQueue q f).gtcOn = s.gtcOn := rfl
@[simp] theorem State.modQueue_rdy (s : State) (q : Nat) (f : Queue → Queue) : (s.modQueue q f).rdy = s.rdy := rfl
@[simp] theorem State.modQueue_memz (s : State) (q : Nat) (f : Queue → Queue) : (s.modQueue q f).memz = s.memz := rfl
@[simp] theorem State.modQueue_fail (s : State) (q : Nat) (f : Queue → Queue) : (s.modQueue q f).fail = s.fail := rfl
@[simp] theorem State.modQueue_therm (s : State) (q : Nat) (f : Queue → Queue) : (s.modQueue q f).therm = s.therm := rfl
@[simp] theorem State.modQueue_stage (s : State) (q : Nat) (f : Queue → Queue) : (s.modQueue q f).stage = s.stage := rfl
@[simp] theorem State.modQueue_failcode (s : State) (q : Nat) (f : Queue → Queue) : (s.modQueue q f).failcode = s.failcode := rfl
@[simp] theorem State.modQueue_powered (s : State) (q : Nat) (f : Queue → Queue) : (s.modQueue q f).powered = s.powered := rfl
@[simp] theorem State.modQueue_clocks (s : State) (q : Nat) (f : Queue → Queue) : (s.modQueue q f).clocks = s.clocks := rfl
@[simp] theorem State.modQueue_mgen (s : State) (q : Nat) (f : Queue → Queue) : (s.modQueue q f).mgen = s.mgen := rfl
@[simp] theorem State.modQueue_fabid (s : State) (q : Nat) (f : Queue → Queue) : (s.modQueue q f).fabid = s.fabid := rfl
@[simp] theorem State.modQueue_fbind (s : State) (q : Nat) (f : Queue → Queue) : (s.modQueue q f).fbind = s.fbind := rfl
@[simp] theorem State.modQueue_temp (s : State) (q : Nat) (f : Queue → Queue) : (s.modQueue q f).temp = s.temp := rfl
@[simp] theorem State.modQueue_point (s : State) (q : Nat) (f : Queue → Queue) : (s.modQueue q f).point = s.point := rfl
@[simp] theorem State.modQueue_limit (s : State) (q : Nat) (f : Queue → Queue) : (s.modQueue q f).limit = s.limit := rfl
@[simp] theorem State.modQueue_links (s : State) (q : Nat) (f : Queue → Queue) : (s.modQueue q f).links = s.links := rfl
@[simp] theorem State.modQueue_ports (s : State) (q : Nat) (f : Queue → Queue) : (s.modQueue q f).ports = s.ports := rfl
@[simp] theorem State.modQueue_dies (s : State) (q : Nat) (f : Queue → Queue) : (s.modQueue q f).dies = s.dies := rfl
@[simp] theorem State.modQueue_cores (s : State) (q : Nat) (f : Queue → Queue) : (s.modQueue q f).cores = s.cores := rfl
@[simp] theorem State.modQueue_mem (s : State) (q : Nat) (f : Queue → Queue) : (s.modQueue q f).mem = s.mem := rfl
@[simp] theorem State.modQueue_seals (s : State) (q : Nat) (f : Queue → Queue) : (s.modQueue q f).seals = s.seals := rfl
@[simp] theorem State.modQueue_leases (s : State) (q : Nat) (f : Queue → Queue) : (s.modQueue q f).leases = s.leases := rfl
@[simp] theorem State.modQueue_lastW (s : State) (q : Nat) (f : Queue → Queue) : (s.modQueue q f).lastW = s.lastW := rfl
@[simp] theorem State.modQueue_served (s : State) (q : Nat) (f : Queue → Queue) : (s.modQueue q f).served = s.served := rfl
@[simp] theorem State.modQueue_flights (s : State) (q : Nat) (f : Queue → Queue) : (s.modQueue q f).flights = s.flights := rfl
@[simp] theorem State.modQueue_homes (s : State) (q : Nat) (f : Queue → Queue) : (s.modQueue q f).homes = s.homes := rfl
@[simp] theorem State.modQueue_pends (s : State) (q : Nat) (f : Queue → Queue) : (s.modQueue q f).pends = s.pends := rfl
@[simp] theorem State.modQueue_escs (s : State) (q : Nat) (f : Queue → Queue) : (s.modQueue q f).escs = s.escs := rfl
@[simp] theorem State.modQueue_walks (s : State) (q : Nat) (f : Queue → Queue) : (s.modQueue q f).walks = s.walks := rfl
@[simp] theorem State.modQueue_fences (s : State) (q : Nat) (f : Queue → Queue) : (s.modQueue q f).fences = s.fences := rfl
@[simp] theorem State.modQueue_engines (s : State) (q : Nat) (f : Queue → Queue) : (s.modQueue q f).engines = s.engines := rfl
@[simp] theorem State.modQueue_probes (s : State) (q : Nat) (f : Queue → Queue) : (s.modQueue q f).probes = s.probes := rfl
@[simp] theorem State.modQueue_invals (s : State) (q : Nat) (f : Queue → Queue) : (s.modQueue q f).invals = s.invals := rfl
@[simp] theorem State.modQueue_egress (s : State) (q : Nat) (f : Queue → Queue) : (s.modQueue q f).egress = s.egress := rfl
@[simp] theorem State.modQueue_lates (s : State) (q : Nat) (f : Queue → Queue) : (s.modQueue q f).lates = s.lates := rfl
@[simp] theorem State.modQueue_parks (s : State) (q : Nat) (f : Queue → Queue) : (s.modQueue q f).parks = s.parks := rfl
@[simp] theorem State.modQueue_teams (s : State) (q : Nat) (f : Queue → Queue) : (s.modQueue q f).teams = s.teams := rfl
@[simp] theorem State.modQueue_launches (s : State) (q : Nat) (f : Queue → Queue) : (s.modQueue q f).launches = s.launches := rfl
@[simp] theorem State.modQueue_worlds (s : State) (q : Nat) (f : Queue → Queue) : (s.modQueue q f).worlds = s.worlds := rfl
@[simp] theorem State.modQueue_holder (s : State) (q : Nat) (f : Queue → Queue) : (s.modQueue q f).holder = s.holder := rfl
@[simp] theorem State.modQueue_sliceEnd (s : State) (q : Nat) (f : Queue → Queue) : (s.modQueue q f).sliceEnd = s.sliceEnd := rfl
@[simp] theorem State.modQueue_handing (s : State) (q : Nat) (f : Queue → Queue) : (s.modQueue q f).handing = s.handing := rfl
@[simp] theorem State.modQueue_rrNext (s : State) (q : Nat) (f : Queue → Queue) : (s.modQueue q f).rrNext = s.rrNext := rfl
@[simp] theorem State.modQueue_rrLeft (s : State) (q : Nat) (f : Queue → Queue) : (s.modQueue q f).rrLeft = s.rrLeft := rfl
@[simp] theorem State.modQueue_sessions (s : State) (q : Nat) (f : Queue → Queue) : (s.modQueue q f).sessions = s.sessions := rfl
@[simp] theorem State.modQueue_hostPosts (s : State) (q : Nat) (f : Queue → Queue) : (s.modQueue q f).hostPosts = s.hostPosts := rfl
@[simp] theorem State.modQueue_signals (s : State) (q : Nat) (f : Queue → Queue) : (s.modQueue q f).signals = s.signals := rfl
@[simp] theorem State.modQueue_replies (s : State) (q : Nat) (f : Queue → Queue) : (s.modQueue q f).replies = s.replies := rfl
@[simp] theorem State.modQueue_issueQ (s : State) (q : Nat) (f : Queue → Queue) : (s.modQueue q f).issueQ = s.issueQ := rfl
@[simp] theorem State.modQueue_cur (s : State) (q : Nat) (f : Queue → Queue) : (s.modQueue q f).cur = s.cur := rfl
@[simp] theorem State.modQueue_agenda (s : State) (q : Nat) (f : Queue → Queue) : (s.modQueue q f).agenda = s.agenda := rfl
@[simp] theorem State.modQueue_free (s : State) (q : Nat) (f : Queue → Queue) : (s.modQueue q f).free = s.free := rfl
@[simp] theorem State.modQueue_nextId (s : State) (q : Nat) (f : Queue → Queue) : (s.modQueue q f).nextId = s.nextId := rfl
@[simp] theorem State.modQueue_nextTeam (s : State) (q : Nat) (f : Queue → Queue) : (s.modQueue q f).nextTeam = s.nextTeam := rfl

/-! ### modWorld -/

@[simp] theorem State.modWorld_gtc (s : State) (w : Nat) (f : World → World) : (s.modWorld w f).gtc = s.gtc := rfl
@[simp] theorem State.modWorld_gtcOn (s : State) (w : Nat) (f : World → World) : (s.modWorld w f).gtcOn = s.gtcOn := rfl
@[simp] theorem State.modWorld_rdy (s : State) (w : Nat) (f : World → World) : (s.modWorld w f).rdy = s.rdy := rfl
@[simp] theorem State.modWorld_memz (s : State) (w : Nat) (f : World → World) : (s.modWorld w f).memz = s.memz := rfl
@[simp] theorem State.modWorld_fail (s : State) (w : Nat) (f : World → World) : (s.modWorld w f).fail = s.fail := rfl
@[simp] theorem State.modWorld_therm (s : State) (w : Nat) (f : World → World) : (s.modWorld w f).therm = s.therm := rfl
@[simp] theorem State.modWorld_stage (s : State) (w : Nat) (f : World → World) : (s.modWorld w f).stage = s.stage := rfl
@[simp] theorem State.modWorld_failcode (s : State) (w : Nat) (f : World → World) : (s.modWorld w f).failcode = s.failcode := rfl
@[simp] theorem State.modWorld_powered (s : State) (w : Nat) (f : World → World) : (s.modWorld w f).powered = s.powered := rfl
@[simp] theorem State.modWorld_clocks (s : State) (w : Nat) (f : World → World) : (s.modWorld w f).clocks = s.clocks := rfl
@[simp] theorem State.modWorld_mgen (s : State) (w : Nat) (f : World → World) : (s.modWorld w f).mgen = s.mgen := rfl
@[simp] theorem State.modWorld_fabid (s : State) (w : Nat) (f : World → World) : (s.modWorld w f).fabid = s.fabid := rfl
@[simp] theorem State.modWorld_fbind (s : State) (w : Nat) (f : World → World) : (s.modWorld w f).fbind = s.fbind := rfl
@[simp] theorem State.modWorld_temp (s : State) (w : Nat) (f : World → World) : (s.modWorld w f).temp = s.temp := rfl
@[simp] theorem State.modWorld_point (s : State) (w : Nat) (f : World → World) : (s.modWorld w f).point = s.point := rfl
@[simp] theorem State.modWorld_limit (s : State) (w : Nat) (f : World → World) : (s.modWorld w f).limit = s.limit := rfl
@[simp] theorem State.modWorld_links (s : State) (w : Nat) (f : World → World) : (s.modWorld w f).links = s.links := rfl
@[simp] theorem State.modWorld_ports (s : State) (w : Nat) (f : World → World) : (s.modWorld w f).ports = s.ports := rfl
@[simp] theorem State.modWorld_dies (s : State) (w : Nat) (f : World → World) : (s.modWorld w f).dies = s.dies := rfl
@[simp] theorem State.modWorld_cores (s : State) (w : Nat) (f : World → World) : (s.modWorld w f).cores = s.cores := rfl
@[simp] theorem State.modWorld_mem (s : State) (w : Nat) (f : World → World) : (s.modWorld w f).mem = s.mem := rfl
@[simp] theorem State.modWorld_seals (s : State) (w : Nat) (f : World → World) : (s.modWorld w f).seals = s.seals := rfl
@[simp] theorem State.modWorld_leases (s : State) (w : Nat) (f : World → World) : (s.modWorld w f).leases = s.leases := rfl
@[simp] theorem State.modWorld_lastW (s : State) (w : Nat) (f : World → World) : (s.modWorld w f).lastW = s.lastW := rfl
@[simp] theorem State.modWorld_served (s : State) (w : Nat) (f : World → World) : (s.modWorld w f).served = s.served := rfl
@[simp] theorem State.modWorld_flights (s : State) (w : Nat) (f : World → World) : (s.modWorld w f).flights = s.flights := rfl
@[simp] theorem State.modWorld_homes (s : State) (w : Nat) (f : World → World) : (s.modWorld w f).homes = s.homes := rfl
@[simp] theorem State.modWorld_pends (s : State) (w : Nat) (f : World → World) : (s.modWorld w f).pends = s.pends := rfl
@[simp] theorem State.modWorld_escs (s : State) (w : Nat) (f : World → World) : (s.modWorld w f).escs = s.escs := rfl
@[simp] theorem State.modWorld_walks (s : State) (w : Nat) (f : World → World) : (s.modWorld w f).walks = s.walks := rfl
@[simp] theorem State.modWorld_fences (s : State) (w : Nat) (f : World → World) : (s.modWorld w f).fences = s.fences := rfl
@[simp] theorem State.modWorld_engines (s : State) (w : Nat) (f : World → World) : (s.modWorld w f).engines = s.engines := rfl
@[simp] theorem State.modWorld_probes (s : State) (w : Nat) (f : World → World) : (s.modWorld w f).probes = s.probes := rfl
@[simp] theorem State.modWorld_invals (s : State) (w : Nat) (f : World → World) : (s.modWorld w f).invals = s.invals := rfl
@[simp] theorem State.modWorld_egress (s : State) (w : Nat) (f : World → World) : (s.modWorld w f).egress = s.egress := rfl
@[simp] theorem State.modWorld_lates (s : State) (w : Nat) (f : World → World) : (s.modWorld w f).lates = s.lates := rfl
@[simp] theorem State.modWorld_parks (s : State) (w : Nat) (f : World → World) : (s.modWorld w f).parks = s.parks := rfl
@[simp] theorem State.modWorld_teams (s : State) (w : Nat) (f : World → World) : (s.modWorld w f).teams = s.teams := rfl
@[simp] theorem State.modWorld_launches (s : State) (w : Nat) (f : World → World) : (s.modWorld w f).launches = s.launches := rfl
@[simp] theorem State.modWorld_queues (s : State) (w : Nat) (f : World → World) : (s.modWorld w f).queues = s.queues := rfl
@[simp] theorem State.modWorld_holder (s : State) (w : Nat) (f : World → World) : (s.modWorld w f).holder = s.holder := rfl
@[simp] theorem State.modWorld_sliceEnd (s : State) (w : Nat) (f : World → World) : (s.modWorld w f).sliceEnd = s.sliceEnd := rfl
@[simp] theorem State.modWorld_handing (s : State) (w : Nat) (f : World → World) : (s.modWorld w f).handing = s.handing := rfl
@[simp] theorem State.modWorld_rrNext (s : State) (w : Nat) (f : World → World) : (s.modWorld w f).rrNext = s.rrNext := rfl
@[simp] theorem State.modWorld_rrLeft (s : State) (w : Nat) (f : World → World) : (s.modWorld w f).rrLeft = s.rrLeft := rfl
@[simp] theorem State.modWorld_sessions (s : State) (w : Nat) (f : World → World) : (s.modWorld w f).sessions = s.sessions := rfl
@[simp] theorem State.modWorld_hostPosts (s : State) (w : Nat) (f : World → World) : (s.modWorld w f).hostPosts = s.hostPosts := rfl
@[simp] theorem State.modWorld_signals (s : State) (w : Nat) (f : World → World) : (s.modWorld w f).signals = s.signals := rfl
@[simp] theorem State.modWorld_replies (s : State) (w : Nat) (f : World → World) : (s.modWorld w f).replies = s.replies := rfl
@[simp] theorem State.modWorld_issueQ (s : State) (w : Nat) (f : World → World) : (s.modWorld w f).issueQ = s.issueQ := rfl
@[simp] theorem State.modWorld_cur (s : State) (w : Nat) (f : World → World) : (s.modWorld w f).cur = s.cur := rfl
@[simp] theorem State.modWorld_agenda (s : State) (w : Nat) (f : World → World) : (s.modWorld w f).agenda = s.agenda := rfl
@[simp] theorem State.modWorld_free (s : State) (w : Nat) (f : World → World) : (s.modWorld w f).free = s.free := rfl
@[simp] theorem State.modWorld_nextId (s : State) (w : Nat) (f : World → World) : (s.modWorld w f).nextId = s.nextId := rfl
@[simp] theorem State.modWorld_nextTeam (s : State) (w : Nat) (f : World → World) : (s.modWorld w f).nextTeam = s.nextTeam := rfl

/-! ### modCore -/

@[simp] theorem State.modCore_gtc (s : State) (c : Nat) (f : Core → Core) : (s.modCore c f).gtc = s.gtc := rfl
@[simp] theorem State.modCore_gtcOn (s : State) (c : Nat) (f : Core → Core) : (s.modCore c f).gtcOn = s.gtcOn := rfl
@[simp] theorem State.modCore_rdy (s : State) (c : Nat) (f : Core → Core) : (s.modCore c f).rdy = s.rdy := rfl
@[simp] theorem State.modCore_memz (s : State) (c : Nat) (f : Core → Core) : (s.modCore c f).memz = s.memz := rfl
@[simp] theorem State.modCore_fail (s : State) (c : Nat) (f : Core → Core) : (s.modCore c f).fail = s.fail := rfl
@[simp] theorem State.modCore_therm (s : State) (c : Nat) (f : Core → Core) : (s.modCore c f).therm = s.therm := rfl
@[simp] theorem State.modCore_stage (s : State) (c : Nat) (f : Core → Core) : (s.modCore c f).stage = s.stage := rfl
@[simp] theorem State.modCore_failcode (s : State) (c : Nat) (f : Core → Core) : (s.modCore c f).failcode = s.failcode := rfl
@[simp] theorem State.modCore_powered (s : State) (c : Nat) (f : Core → Core) : (s.modCore c f).powered = s.powered := rfl
@[simp] theorem State.modCore_clocks (s : State) (c : Nat) (f : Core → Core) : (s.modCore c f).clocks = s.clocks := rfl
@[simp] theorem State.modCore_mgen (s : State) (c : Nat) (f : Core → Core) : (s.modCore c f).mgen = s.mgen := rfl
@[simp] theorem State.modCore_fabid (s : State) (c : Nat) (f : Core → Core) : (s.modCore c f).fabid = s.fabid := rfl
@[simp] theorem State.modCore_fbind (s : State) (c : Nat) (f : Core → Core) : (s.modCore c f).fbind = s.fbind := rfl
@[simp] theorem State.modCore_temp (s : State) (c : Nat) (f : Core → Core) : (s.modCore c f).temp = s.temp := rfl
@[simp] theorem State.modCore_point (s : State) (c : Nat) (f : Core → Core) : (s.modCore c f).point = s.point := rfl
@[simp] theorem State.modCore_limit (s : State) (c : Nat) (f : Core → Core) : (s.modCore c f).limit = s.limit := rfl
@[simp] theorem State.modCore_links (s : State) (c : Nat) (f : Core → Core) : (s.modCore c f).links = s.links := rfl
@[simp] theorem State.modCore_ports (s : State) (c : Nat) (f : Core → Core) : (s.modCore c f).ports = s.ports := rfl
@[simp] theorem State.modCore_dies (s : State) (c : Nat) (f : Core → Core) : (s.modCore c f).dies = s.dies := rfl
@[simp] theorem State.modCore_mem (s : State) (c : Nat) (f : Core → Core) : (s.modCore c f).mem = s.mem := rfl
@[simp] theorem State.modCore_seals (s : State) (c : Nat) (f : Core → Core) : (s.modCore c f).seals = s.seals := rfl
@[simp] theorem State.modCore_leases (s : State) (c : Nat) (f : Core → Core) : (s.modCore c f).leases = s.leases := rfl
@[simp] theorem State.modCore_lastW (s : State) (c : Nat) (f : Core → Core) : (s.modCore c f).lastW = s.lastW := rfl
@[simp] theorem State.modCore_served (s : State) (c : Nat) (f : Core → Core) : (s.modCore c f).served = s.served := rfl
@[simp] theorem State.modCore_flights (s : State) (c : Nat) (f : Core → Core) : (s.modCore c f).flights = s.flights := rfl
@[simp] theorem State.modCore_homes (s : State) (c : Nat) (f : Core → Core) : (s.modCore c f).homes = s.homes := rfl
@[simp] theorem State.modCore_pends (s : State) (c : Nat) (f : Core → Core) : (s.modCore c f).pends = s.pends := rfl
@[simp] theorem State.modCore_escs (s : State) (c : Nat) (f : Core → Core) : (s.modCore c f).escs = s.escs := rfl
@[simp] theorem State.modCore_walks (s : State) (c : Nat) (f : Core → Core) : (s.modCore c f).walks = s.walks := rfl
@[simp] theorem State.modCore_fences (s : State) (c : Nat) (f : Core → Core) : (s.modCore c f).fences = s.fences := rfl
@[simp] theorem State.modCore_engines (s : State) (c : Nat) (f : Core → Core) : (s.modCore c f).engines = s.engines := rfl
@[simp] theorem State.modCore_probes (s : State) (c : Nat) (f : Core → Core) : (s.modCore c f).probes = s.probes := rfl
@[simp] theorem State.modCore_invals (s : State) (c : Nat) (f : Core → Core) : (s.modCore c f).invals = s.invals := rfl
@[simp] theorem State.modCore_egress (s : State) (c : Nat) (f : Core → Core) : (s.modCore c f).egress = s.egress := rfl
@[simp] theorem State.modCore_lates (s : State) (c : Nat) (f : Core → Core) : (s.modCore c f).lates = s.lates := rfl
@[simp] theorem State.modCore_parks (s : State) (c : Nat) (f : Core → Core) : (s.modCore c f).parks = s.parks := rfl
@[simp] theorem State.modCore_teams (s : State) (c : Nat) (f : Core → Core) : (s.modCore c f).teams = s.teams := rfl
@[simp] theorem State.modCore_launches (s : State) (c : Nat) (f : Core → Core) : (s.modCore c f).launches = s.launches := rfl
@[simp] theorem State.modCore_queues (s : State) (c : Nat) (f : Core → Core) : (s.modCore c f).queues = s.queues := rfl
@[simp] theorem State.modCore_worlds (s : State) (c : Nat) (f : Core → Core) : (s.modCore c f).worlds = s.worlds := rfl
@[simp] theorem State.modCore_holder (s : State) (c : Nat) (f : Core → Core) : (s.modCore c f).holder = s.holder := rfl
@[simp] theorem State.modCore_sliceEnd (s : State) (c : Nat) (f : Core → Core) : (s.modCore c f).sliceEnd = s.sliceEnd := rfl
@[simp] theorem State.modCore_handing (s : State) (c : Nat) (f : Core → Core) : (s.modCore c f).handing = s.handing := rfl
@[simp] theorem State.modCore_rrNext (s : State) (c : Nat) (f : Core → Core) : (s.modCore c f).rrNext = s.rrNext := rfl
@[simp] theorem State.modCore_rrLeft (s : State) (c : Nat) (f : Core → Core) : (s.modCore c f).rrLeft = s.rrLeft := rfl
@[simp] theorem State.modCore_sessions (s : State) (c : Nat) (f : Core → Core) : (s.modCore c f).sessions = s.sessions := rfl
@[simp] theorem State.modCore_hostPosts (s : State) (c : Nat) (f : Core → Core) : (s.modCore c f).hostPosts = s.hostPosts := rfl
@[simp] theorem State.modCore_signals (s : State) (c : Nat) (f : Core → Core) : (s.modCore c f).signals = s.signals := rfl
@[simp] theorem State.modCore_replies (s : State) (c : Nat) (f : Core → Core) : (s.modCore c f).replies = s.replies := rfl
@[simp] theorem State.modCore_issueQ (s : State) (c : Nat) (f : Core → Core) : (s.modCore c f).issueQ = s.issueQ := rfl
@[simp] theorem State.modCore_cur (s : State) (c : Nat) (f : Core → Core) : (s.modCore c f).cur = s.cur := rfl
@[simp] theorem State.modCore_agenda (s : State) (c : Nat) (f : Core → Core) : (s.modCore c f).agenda = s.agenda := rfl
@[simp] theorem State.modCore_free (s : State) (c : Nat) (f : Core → Core) : (s.modCore c f).free = s.free := rfl
@[simp] theorem State.modCore_nextId (s : State) (c : Nat) (f : Core → Core) : (s.modCore c f).nextId = s.nextId := rfl
@[simp] theorem State.modCore_nextTeam (s : State) (c : Nat) (f : Core → Core) : (s.modCore c f).nextTeam = s.nextTeam := rfl

/-! ### modDie -/

@[simp] theorem State.modDie_gtc (s : State) (d : Nat) (f : Die → Die) : (s.modDie d f).gtc = s.gtc := rfl
@[simp] theorem State.modDie_gtcOn (s : State) (d : Nat) (f : Die → Die) : (s.modDie d f).gtcOn = s.gtcOn := rfl
@[simp] theorem State.modDie_rdy (s : State) (d : Nat) (f : Die → Die) : (s.modDie d f).rdy = s.rdy := rfl
@[simp] theorem State.modDie_memz (s : State) (d : Nat) (f : Die → Die) : (s.modDie d f).memz = s.memz := rfl
@[simp] theorem State.modDie_fail (s : State) (d : Nat) (f : Die → Die) : (s.modDie d f).fail = s.fail := rfl
@[simp] theorem State.modDie_therm (s : State) (d : Nat) (f : Die → Die) : (s.modDie d f).therm = s.therm := rfl
@[simp] theorem State.modDie_stage (s : State) (d : Nat) (f : Die → Die) : (s.modDie d f).stage = s.stage := rfl
@[simp] theorem State.modDie_failcode (s : State) (d : Nat) (f : Die → Die) : (s.modDie d f).failcode = s.failcode := rfl
@[simp] theorem State.modDie_powered (s : State) (d : Nat) (f : Die → Die) : (s.modDie d f).powered = s.powered := rfl
@[simp] theorem State.modDie_clocks (s : State) (d : Nat) (f : Die → Die) : (s.modDie d f).clocks = s.clocks := rfl
@[simp] theorem State.modDie_mgen (s : State) (d : Nat) (f : Die → Die) : (s.modDie d f).mgen = s.mgen := rfl
@[simp] theorem State.modDie_fabid (s : State) (d : Nat) (f : Die → Die) : (s.modDie d f).fabid = s.fabid := rfl
@[simp] theorem State.modDie_fbind (s : State) (d : Nat) (f : Die → Die) : (s.modDie d f).fbind = s.fbind := rfl
@[simp] theorem State.modDie_temp (s : State) (d : Nat) (f : Die → Die) : (s.modDie d f).temp = s.temp := rfl
@[simp] theorem State.modDie_point (s : State) (d : Nat) (f : Die → Die) : (s.modDie d f).point = s.point := rfl
@[simp] theorem State.modDie_limit (s : State) (d : Nat) (f : Die → Die) : (s.modDie d f).limit = s.limit := rfl
@[simp] theorem State.modDie_links (s : State) (d : Nat) (f : Die → Die) : (s.modDie d f).links = s.links := rfl
@[simp] theorem State.modDie_ports (s : State) (d : Nat) (f : Die → Die) : (s.modDie d f).ports = s.ports := rfl
@[simp] theorem State.modDie_cores (s : State) (d : Nat) (f : Die → Die) : (s.modDie d f).cores = s.cores := rfl
@[simp] theorem State.modDie_mem (s : State) (d : Nat) (f : Die → Die) : (s.modDie d f).mem = s.mem := rfl
@[simp] theorem State.modDie_seals (s : State) (d : Nat) (f : Die → Die) : (s.modDie d f).seals = s.seals := rfl
@[simp] theorem State.modDie_leases (s : State) (d : Nat) (f : Die → Die) : (s.modDie d f).leases = s.leases := rfl
@[simp] theorem State.modDie_lastW (s : State) (d : Nat) (f : Die → Die) : (s.modDie d f).lastW = s.lastW := rfl
@[simp] theorem State.modDie_served (s : State) (d : Nat) (f : Die → Die) : (s.modDie d f).served = s.served := rfl
@[simp] theorem State.modDie_flights (s : State) (d : Nat) (f : Die → Die) : (s.modDie d f).flights = s.flights := rfl
@[simp] theorem State.modDie_homes (s : State) (d : Nat) (f : Die → Die) : (s.modDie d f).homes = s.homes := rfl
@[simp] theorem State.modDie_pends (s : State) (d : Nat) (f : Die → Die) : (s.modDie d f).pends = s.pends := rfl
@[simp] theorem State.modDie_escs (s : State) (d : Nat) (f : Die → Die) : (s.modDie d f).escs = s.escs := rfl
@[simp] theorem State.modDie_walks (s : State) (d : Nat) (f : Die → Die) : (s.modDie d f).walks = s.walks := rfl
@[simp] theorem State.modDie_fences (s : State) (d : Nat) (f : Die → Die) : (s.modDie d f).fences = s.fences := rfl
@[simp] theorem State.modDie_engines (s : State) (d : Nat) (f : Die → Die) : (s.modDie d f).engines = s.engines := rfl
@[simp] theorem State.modDie_probes (s : State) (d : Nat) (f : Die → Die) : (s.modDie d f).probes = s.probes := rfl
@[simp] theorem State.modDie_invals (s : State) (d : Nat) (f : Die → Die) : (s.modDie d f).invals = s.invals := rfl
@[simp] theorem State.modDie_egress (s : State) (d : Nat) (f : Die → Die) : (s.modDie d f).egress = s.egress := rfl
@[simp] theorem State.modDie_lates (s : State) (d : Nat) (f : Die → Die) : (s.modDie d f).lates = s.lates := rfl
@[simp] theorem State.modDie_parks (s : State) (d : Nat) (f : Die → Die) : (s.modDie d f).parks = s.parks := rfl
@[simp] theorem State.modDie_teams (s : State) (d : Nat) (f : Die → Die) : (s.modDie d f).teams = s.teams := rfl
@[simp] theorem State.modDie_launches (s : State) (d : Nat) (f : Die → Die) : (s.modDie d f).launches = s.launches := rfl
@[simp] theorem State.modDie_queues (s : State) (d : Nat) (f : Die → Die) : (s.modDie d f).queues = s.queues := rfl
@[simp] theorem State.modDie_worlds (s : State) (d : Nat) (f : Die → Die) : (s.modDie d f).worlds = s.worlds := rfl
@[simp] theorem State.modDie_holder (s : State) (d : Nat) (f : Die → Die) : (s.modDie d f).holder = s.holder := rfl
@[simp] theorem State.modDie_sliceEnd (s : State) (d : Nat) (f : Die → Die) : (s.modDie d f).sliceEnd = s.sliceEnd := rfl
@[simp] theorem State.modDie_handing (s : State) (d : Nat) (f : Die → Die) : (s.modDie d f).handing = s.handing := rfl
@[simp] theorem State.modDie_rrNext (s : State) (d : Nat) (f : Die → Die) : (s.modDie d f).rrNext = s.rrNext := rfl
@[simp] theorem State.modDie_rrLeft (s : State) (d : Nat) (f : Die → Die) : (s.modDie d f).rrLeft = s.rrLeft := rfl
@[simp] theorem State.modDie_sessions (s : State) (d : Nat) (f : Die → Die) : (s.modDie d f).sessions = s.sessions := rfl
@[simp] theorem State.modDie_hostPosts (s : State) (d : Nat) (f : Die → Die) : (s.modDie d f).hostPosts = s.hostPosts := rfl
@[simp] theorem State.modDie_signals (s : State) (d : Nat) (f : Die → Die) : (s.modDie d f).signals = s.signals := rfl
@[simp] theorem State.modDie_replies (s : State) (d : Nat) (f : Die → Die) : (s.modDie d f).replies = s.replies := rfl
@[simp] theorem State.modDie_issueQ (s : State) (d : Nat) (f : Die → Die) : (s.modDie d f).issueQ = s.issueQ := rfl
@[simp] theorem State.modDie_cur (s : State) (d : Nat) (f : Die → Die) : (s.modDie d f).cur = s.cur := rfl
@[simp] theorem State.modDie_agenda (s : State) (d : Nat) (f : Die → Die) : (s.modDie d f).agenda = s.agenda := rfl
@[simp] theorem State.modDie_free (s : State) (d : Nat) (f : Die → Die) : (s.modDie d f).free = s.free := rfl
@[simp] theorem State.modDie_nextId (s : State) (d : Nat) (f : Die → Die) : (s.modDie d f).nextId = s.nextId := rfl
@[simp] theorem State.modDie_nextTeam (s : State) (d : Nat) (f : Die → Die) : (s.modDie d f).nextTeam = s.nextTeam := rfl

/-! ### modPort -/

@[simp] theorem State.modPort_gtc (s : State) (k : Nat) (f : Port → Port) : (s.modPort k f).gtc = s.gtc := rfl
@[simp] theorem State.modPort_gtcOn (s : State) (k : Nat) (f : Port → Port) : (s.modPort k f).gtcOn = s.gtcOn := rfl
@[simp] theorem State.modPort_rdy (s : State) (k : Nat) (f : Port → Port) : (s.modPort k f).rdy = s.rdy := rfl
@[simp] theorem State.modPort_memz (s : State) (k : Nat) (f : Port → Port) : (s.modPort k f).memz = s.memz := rfl
@[simp] theorem State.modPort_fail (s : State) (k : Nat) (f : Port → Port) : (s.modPort k f).fail = s.fail := rfl
@[simp] theorem State.modPort_therm (s : State) (k : Nat) (f : Port → Port) : (s.modPort k f).therm = s.therm := rfl
@[simp] theorem State.modPort_stage (s : State) (k : Nat) (f : Port → Port) : (s.modPort k f).stage = s.stage := rfl
@[simp] theorem State.modPort_failcode (s : State) (k : Nat) (f : Port → Port) : (s.modPort k f).failcode = s.failcode := rfl
@[simp] theorem State.modPort_powered (s : State) (k : Nat) (f : Port → Port) : (s.modPort k f).powered = s.powered := rfl
@[simp] theorem State.modPort_clocks (s : State) (k : Nat) (f : Port → Port) : (s.modPort k f).clocks = s.clocks := rfl
@[simp] theorem State.modPort_mgen (s : State) (k : Nat) (f : Port → Port) : (s.modPort k f).mgen = s.mgen := rfl
@[simp] theorem State.modPort_fabid (s : State) (k : Nat) (f : Port → Port) : (s.modPort k f).fabid = s.fabid := rfl
@[simp] theorem State.modPort_fbind (s : State) (k : Nat) (f : Port → Port) : (s.modPort k f).fbind = s.fbind := rfl
@[simp] theorem State.modPort_temp (s : State) (k : Nat) (f : Port → Port) : (s.modPort k f).temp = s.temp := rfl
@[simp] theorem State.modPort_point (s : State) (k : Nat) (f : Port → Port) : (s.modPort k f).point = s.point := rfl
@[simp] theorem State.modPort_limit (s : State) (k : Nat) (f : Port → Port) : (s.modPort k f).limit = s.limit := rfl
@[simp] theorem State.modPort_links (s : State) (k : Nat) (f : Port → Port) : (s.modPort k f).links = s.links := rfl
@[simp] theorem State.modPort_dies (s : State) (k : Nat) (f : Port → Port) : (s.modPort k f).dies = s.dies := rfl
@[simp] theorem State.modPort_cores (s : State) (k : Nat) (f : Port → Port) : (s.modPort k f).cores = s.cores := rfl
@[simp] theorem State.modPort_mem (s : State) (k : Nat) (f : Port → Port) : (s.modPort k f).mem = s.mem := rfl
@[simp] theorem State.modPort_seals (s : State) (k : Nat) (f : Port → Port) : (s.modPort k f).seals = s.seals := rfl
@[simp] theorem State.modPort_leases (s : State) (k : Nat) (f : Port → Port) : (s.modPort k f).leases = s.leases := rfl
@[simp] theorem State.modPort_lastW (s : State) (k : Nat) (f : Port → Port) : (s.modPort k f).lastW = s.lastW := rfl
@[simp] theorem State.modPort_served (s : State) (k : Nat) (f : Port → Port) : (s.modPort k f).served = s.served := rfl
@[simp] theorem State.modPort_flights (s : State) (k : Nat) (f : Port → Port) : (s.modPort k f).flights = s.flights := rfl
@[simp] theorem State.modPort_homes (s : State) (k : Nat) (f : Port → Port) : (s.modPort k f).homes = s.homes := rfl
@[simp] theorem State.modPort_pends (s : State) (k : Nat) (f : Port → Port) : (s.modPort k f).pends = s.pends := rfl
@[simp] theorem State.modPort_escs (s : State) (k : Nat) (f : Port → Port) : (s.modPort k f).escs = s.escs := rfl
@[simp] theorem State.modPort_walks (s : State) (k : Nat) (f : Port → Port) : (s.modPort k f).walks = s.walks := rfl
@[simp] theorem State.modPort_fences (s : State) (k : Nat) (f : Port → Port) : (s.modPort k f).fences = s.fences := rfl
@[simp] theorem State.modPort_engines (s : State) (k : Nat) (f : Port → Port) : (s.modPort k f).engines = s.engines := rfl
@[simp] theorem State.modPort_probes (s : State) (k : Nat) (f : Port → Port) : (s.modPort k f).probes = s.probes := rfl
@[simp] theorem State.modPort_invals (s : State) (k : Nat) (f : Port → Port) : (s.modPort k f).invals = s.invals := rfl
@[simp] theorem State.modPort_egress (s : State) (k : Nat) (f : Port → Port) : (s.modPort k f).egress = s.egress := rfl
@[simp] theorem State.modPort_lates (s : State) (k : Nat) (f : Port → Port) : (s.modPort k f).lates = s.lates := rfl
@[simp] theorem State.modPort_parks (s : State) (k : Nat) (f : Port → Port) : (s.modPort k f).parks = s.parks := rfl
@[simp] theorem State.modPort_teams (s : State) (k : Nat) (f : Port → Port) : (s.modPort k f).teams = s.teams := rfl
@[simp] theorem State.modPort_launches (s : State) (k : Nat) (f : Port → Port) : (s.modPort k f).launches = s.launches := rfl
@[simp] theorem State.modPort_queues (s : State) (k : Nat) (f : Port → Port) : (s.modPort k f).queues = s.queues := rfl
@[simp] theorem State.modPort_worlds (s : State) (k : Nat) (f : Port → Port) : (s.modPort k f).worlds = s.worlds := rfl
@[simp] theorem State.modPort_holder (s : State) (k : Nat) (f : Port → Port) : (s.modPort k f).holder = s.holder := rfl
@[simp] theorem State.modPort_sliceEnd (s : State) (k : Nat) (f : Port → Port) : (s.modPort k f).sliceEnd = s.sliceEnd := rfl
@[simp] theorem State.modPort_handing (s : State) (k : Nat) (f : Port → Port) : (s.modPort k f).handing = s.handing := rfl
@[simp] theorem State.modPort_rrNext (s : State) (k : Nat) (f : Port → Port) : (s.modPort k f).rrNext = s.rrNext := rfl
@[simp] theorem State.modPort_rrLeft (s : State) (k : Nat) (f : Port → Port) : (s.modPort k f).rrLeft = s.rrLeft := rfl
@[simp] theorem State.modPort_sessions (s : State) (k : Nat) (f : Port → Port) : (s.modPort k f).sessions = s.sessions := rfl
@[simp] theorem State.modPort_hostPosts (s : State) (k : Nat) (f : Port → Port) : (s.modPort k f).hostPosts = s.hostPosts := rfl
@[simp] theorem State.modPort_signals (s : State) (k : Nat) (f : Port → Port) : (s.modPort k f).signals = s.signals := rfl
@[simp] theorem State.modPort_replies (s : State) (k : Nat) (f : Port → Port) : (s.modPort k f).replies = s.replies := rfl
@[simp] theorem State.modPort_issueQ (s : State) (k : Nat) (f : Port → Port) : (s.modPort k f).issueQ = s.issueQ := rfl
@[simp] theorem State.modPort_cur (s : State) (k : Nat) (f : Port → Port) : (s.modPort k f).cur = s.cur := rfl
@[simp] theorem State.modPort_agenda (s : State) (k : Nat) (f : Port → Port) : (s.modPort k f).agenda = s.agenda := rfl
@[simp] theorem State.modPort_free (s : State) (k : Nat) (f : Port → Port) : (s.modPort k f).free = s.free := rfl
@[simp] theorem State.modPort_nextId (s : State) (k : Nat) (f : Port → Port) : (s.modPort k f).nextId = s.nextId := rfl
@[simp] theorem State.modPort_nextTeam (s : State) (k : Nat) (f : Port → Port) : (s.modPort k f).nextTeam = s.nextTeam := rfl

/-! ### fresh -/

@[simp] theorem State.fresh_fst (s : State) : s.fresh.1 = s.nextId := rfl
@[simp] theorem State.fresh_gtc (s : State) : s.fresh.2.gtc = s.gtc := rfl
@[simp] theorem State.fresh_gtcOn (s : State) : s.fresh.2.gtcOn = s.gtcOn := rfl
@[simp] theorem State.fresh_rdy (s : State) : s.fresh.2.rdy = s.rdy := rfl
@[simp] theorem State.fresh_memz (s : State) : s.fresh.2.memz = s.memz := rfl
@[simp] theorem State.fresh_fail (s : State) : s.fresh.2.fail = s.fail := rfl
@[simp] theorem State.fresh_therm (s : State) : s.fresh.2.therm = s.therm := rfl
@[simp] theorem State.fresh_stage (s : State) : s.fresh.2.stage = s.stage := rfl
@[simp] theorem State.fresh_failcode (s : State) : s.fresh.2.failcode = s.failcode := rfl
@[simp] theorem State.fresh_powered (s : State) : s.fresh.2.powered = s.powered := rfl
@[simp] theorem State.fresh_clocks (s : State) : s.fresh.2.clocks = s.clocks := rfl
@[simp] theorem State.fresh_mgen (s : State) : s.fresh.2.mgen = s.mgen := rfl
@[simp] theorem State.fresh_fabid (s : State) : s.fresh.2.fabid = s.fabid := rfl
@[simp] theorem State.fresh_fbind (s : State) : s.fresh.2.fbind = s.fbind := rfl
@[simp] theorem State.fresh_temp (s : State) : s.fresh.2.temp = s.temp := rfl
@[simp] theorem State.fresh_point (s : State) : s.fresh.2.point = s.point := rfl
@[simp] theorem State.fresh_limit (s : State) : s.fresh.2.limit = s.limit := rfl
@[simp] theorem State.fresh_links (s : State) : s.fresh.2.links = s.links := rfl
@[simp] theorem State.fresh_ports (s : State) : s.fresh.2.ports = s.ports := rfl
@[simp] theorem State.fresh_dies (s : State) : s.fresh.2.dies = s.dies := rfl
@[simp] theorem State.fresh_cores (s : State) : s.fresh.2.cores = s.cores := rfl
@[simp] theorem State.fresh_mem (s : State) : s.fresh.2.mem = s.mem := rfl
@[simp] theorem State.fresh_seals (s : State) : s.fresh.2.seals = s.seals := rfl
@[simp] theorem State.fresh_leases (s : State) : s.fresh.2.leases = s.leases := rfl
@[simp] theorem State.fresh_lastW (s : State) : s.fresh.2.lastW = s.lastW := rfl
@[simp] theorem State.fresh_served (s : State) : s.fresh.2.served = s.served := rfl
@[simp] theorem State.fresh_flights (s : State) : s.fresh.2.flights = s.flights := rfl
@[simp] theorem State.fresh_homes (s : State) : s.fresh.2.homes = s.homes := rfl
@[simp] theorem State.fresh_pends (s : State) : s.fresh.2.pends = s.pends := rfl
@[simp] theorem State.fresh_escs (s : State) : s.fresh.2.escs = s.escs := rfl
@[simp] theorem State.fresh_walks (s : State) : s.fresh.2.walks = s.walks := rfl
@[simp] theorem State.fresh_fences (s : State) : s.fresh.2.fences = s.fences := rfl
@[simp] theorem State.fresh_engines (s : State) : s.fresh.2.engines = s.engines := rfl
@[simp] theorem State.fresh_probes (s : State) : s.fresh.2.probes = s.probes := rfl
@[simp] theorem State.fresh_invals (s : State) : s.fresh.2.invals = s.invals := rfl
@[simp] theorem State.fresh_egress (s : State) : s.fresh.2.egress = s.egress := rfl
@[simp] theorem State.fresh_lates (s : State) : s.fresh.2.lates = s.lates := rfl
@[simp] theorem State.fresh_parks (s : State) : s.fresh.2.parks = s.parks := rfl
@[simp] theorem State.fresh_teams (s : State) : s.fresh.2.teams = s.teams := rfl
@[simp] theorem State.fresh_launches (s : State) : s.fresh.2.launches = s.launches := rfl
@[simp] theorem State.fresh_queues (s : State) : s.fresh.2.queues = s.queues := rfl
@[simp] theorem State.fresh_worlds (s : State) : s.fresh.2.worlds = s.worlds := rfl
@[simp] theorem State.fresh_holder (s : State) : s.fresh.2.holder = s.holder := rfl
@[simp] theorem State.fresh_sliceEnd (s : State) : s.fresh.2.sliceEnd = s.sliceEnd := rfl
@[simp] theorem State.fresh_handing (s : State) : s.fresh.2.handing = s.handing := rfl
@[simp] theorem State.fresh_rrNext (s : State) : s.fresh.2.rrNext = s.rrNext := rfl
@[simp] theorem State.fresh_rrLeft (s : State) : s.fresh.2.rrLeft = s.rrLeft := rfl
@[simp] theorem State.fresh_sessions (s : State) : s.fresh.2.sessions = s.sessions := rfl
@[simp] theorem State.fresh_hostPosts (s : State) : s.fresh.2.hostPosts = s.hostPosts := rfl
@[simp] theorem State.fresh_signals (s : State) : s.fresh.2.signals = s.signals := rfl
@[simp] theorem State.fresh_replies (s : State) : s.fresh.2.replies = s.replies := rfl
@[simp] theorem State.fresh_issueQ (s : State) : s.fresh.2.issueQ = s.issueQ := rfl
@[simp] theorem State.fresh_cur (s : State) : s.fresh.2.cur = s.cur := rfl
@[simp] theorem State.fresh_agenda (s : State) : s.fresh.2.agenda = s.agenda := rfl
@[simp] theorem State.fresh_free (s : State) : s.fresh.2.free = s.free := rfl
@[simp] theorem State.fresh_nextId (s : State) : s.fresh.2.nextId = s.nextId + 1 := rfl
@[simp] theorem State.fresh_nextTeam (s : State) : s.fresh.2.nextTeam = s.nextTeam := rfl

/-! ### Names for the same updates -/

@[simp] theorem State.setWorld_eq (s : State) (w : Nat) (x : World) : s.setWorld w x = s.modWorld w fun _ => x := rfl
@[simp] theorem State.modCt_eq (s : State) (f : Team → Team) : s.modCt f = s.modTeam s.cur.team f := rfl
@[simp] theorem State.modCg_eq (s : State) (f : Group → Group) :
    s.modCg f = s.modTeam s.cur.team fun t => t.modActor s.cur.who f := rfl
@[simp] theorem State.noteLaunch_eq (s : State) (i t : Nat) :
    s.noteLaunch i t = s.modLaunch i fun l => { l with latest := max l.latest t } := rfl

/-! ### Reading through an update of something else -/

@[simp] theorem State.world_modTeam (s : State) (t : Nat) (f : Team → Team) (n : Nat) : (s.modTeam t f).world n = s.world n := rfl
@[simp] theorem State.core_modTeam (s : State) (t : Nat) (f : Team → Team) (n : Nat) : (s.modTeam t f).core n = s.core n := rfl
@[simp] theorem State.die_modTeam (s : State) (t : Nat) (f : Team → Team) (n : Nat) : (s.modTeam t f).die n = s.die n := rfl
@[simp] theorem State.port_modTeam (s : State) (t : Nat) (f : Team → Team) (n : Nat) : (s.modTeam t f).port n = s.port n := rfl
@[simp] theorem State.queue_modTeam (s : State) (t : Nat) (f : Team → Team) (n : Nat) : (s.modTeam t f).queue n = s.queue n := rfl
@[simp] theorem State.launchOpt_modTeam (s : State) (t : Nat) (f : Team → Team) (n : Nat) : (s.modTeam t f).launch? n = s.launch? n := rfl
@[simp] theorem State.launch_modTeam (s : State) (t : Nat) (f : Team → Team) (n : Nat) : (s.modTeam t f).launch n = s.launch n := rfl
@[simp] theorem State.cycle_modTeam (s : State) (t : Nat) (f : Team → Team) (n : Nat) : (s.modTeam t f).cycle n = s.cycle n := rfl
@[simp] theorem State.now_modTeam (s : State) (t : Nat) (f : Team → Team) : (s.modTeam t f).now = s.now := rfl
@[simp] theorem State.path_modTeam (s : State) (t : Nat) (f : Team → Team) : (s.modTeam t f).path = s.path := rfl
@[simp] theorem State.world_modLaunch (s : State) (i : Nat) (f : Launch → Launch) (n : Nat) : (s.modLaunch i f).world n = s.world n := rfl
@[simp] theorem State.core_modLaunch (s : State) (i : Nat) (f : Launch → Launch) (n : Nat) : (s.modLaunch i f).core n = s.core n := rfl
@[simp] theorem State.die_modLaunch (s : State) (i : Nat) (f : Launch → Launch) (n : Nat) : (s.modLaunch i f).die n = s.die n := rfl
@[simp] theorem State.port_modLaunch (s : State) (i : Nat) (f : Launch → Launch) (n : Nat) : (s.modLaunch i f).port n = s.port n := rfl
@[simp] theorem State.queue_modLaunch (s : State) (i : Nat) (f : Launch → Launch) (n : Nat) : (s.modLaunch i f).queue n = s.queue n := rfl
@[simp] theorem State.teamOpt_modLaunch (s : State) (i : Nat) (f : Launch → Launch) (n : Nat) : (s.modLaunch i f).team? n = s.team? n := rfl
@[simp] theorem State.team_modLaunch (s : State) (i : Nat) (f : Launch → Launch) (n : Nat) : (s.modLaunch i f).team n = s.team n := rfl
@[simp] theorem State.cycle_modLaunch (s : State) (i : Nat) (f : Launch → Launch) (n : Nat) : (s.modLaunch i f).cycle n = s.cycle n := rfl
@[simp] theorem State.now_modLaunch (s : State) (i : Nat) (f : Launch → Launch) : (s.modLaunch i f).now = s.now := rfl
@[simp] theorem State.path_modLaunch (s : State) (i : Nat) (f : Launch → Launch) : (s.modLaunch i f).path = s.path := rfl
@[simp] theorem State.ct_modLaunch (s : State) (i : Nat) (f : Launch → Launch) : (s.modLaunch i f).ct = s.ct := rfl
@[simp] theorem State.world_modQueue (s : State) (q : Nat) (f : Queue → Queue) (n : Nat) : (s.modQueue q f).world n = s.world n := rfl
@[simp] theorem State.core_modQueue (s : State) (q : Nat) (f : Queue → Queue) (n : Nat) : (s.modQueue q f).core n = s.core n := rfl
@[simp] theorem State.die_modQueue (s : State) (q : Nat) (f : Queue → Queue) (n : Nat) : (s.modQueue q f).die n = s.die n := rfl
@[simp] theorem State.port_modQueue (s : State) (q : Nat) (f : Queue → Queue) (n : Nat) : (s.modQueue q f).port n = s.port n := rfl
@[simp] theorem State.launchOpt_modQueue (s : State) (q : Nat) (f : Queue → Queue) (n : Nat) : (s.modQueue q f).launch? n = s.launch? n := rfl
@[simp] theorem State.launch_modQueue (s : State) (q : Nat) (f : Queue → Queue) (n : Nat) : (s.modQueue q f).launch n = s.launch n := rfl
@[simp] theorem State.teamOpt_modQueue (s : State) (q : Nat) (f : Queue → Queue) (n : Nat) : (s.modQueue q f).team? n = s.team? n := rfl
@[simp] theorem State.team_modQueue (s : State) (q : Nat) (f : Queue → Queue) (n : Nat) : (s.modQueue q f).team n = s.team n := rfl
@[simp] theorem State.cycle_modQueue (s : State) (q : Nat) (f : Queue → Queue) (n : Nat) : (s.modQueue q f).cycle n = s.cycle n := rfl
@[simp] theorem State.now_modQueue (s : State) (q : Nat) (f : Queue → Queue) : (s.modQueue q f).now = s.now := rfl
@[simp] theorem State.path_modQueue (s : State) (q : Nat) (f : Queue → Queue) : (s.modQueue q f).path = s.path := rfl
@[simp] theorem State.ct_modQueue (s : State) (q : Nat) (f : Queue → Queue) : (s.modQueue q f).ct = s.ct := rfl
@[simp] theorem State.core_modWorld (s : State) (w : Nat) (f : World → World) (n : Nat) : (s.modWorld w f).core n = s.core n := rfl
@[simp] theorem State.die_modWorld (s : State) (w : Nat) (f : World → World) (n : Nat) : (s.modWorld w f).die n = s.die n := rfl
@[simp] theorem State.port_modWorld (s : State) (w : Nat) (f : World → World) (n : Nat) : (s.modWorld w f).port n = s.port n := rfl
@[simp] theorem State.queue_modWorld (s : State) (w : Nat) (f : World → World) (n : Nat) : (s.modWorld w f).queue n = s.queue n := rfl
@[simp] theorem State.launchOpt_modWorld (s : State) (w : Nat) (f : World → World) (n : Nat) : (s.modWorld w f).launch? n = s.launch? n := rfl
@[simp] theorem State.launch_modWorld (s : State) (w : Nat) (f : World → World) (n : Nat) : (s.modWorld w f).launch n = s.launch n := rfl
@[simp] theorem State.teamOpt_modWorld (s : State) (w : Nat) (f : World → World) (n : Nat) : (s.modWorld w f).team? n = s.team? n := rfl
@[simp] theorem State.team_modWorld (s : State) (w : Nat) (f : World → World) (n : Nat) : (s.modWorld w f).team n = s.team n := rfl
@[simp] theorem State.cycle_modWorld (s : State) (w : Nat) (f : World → World) (n : Nat) : (s.modWorld w f).cycle n = s.cycle n := rfl
@[simp] theorem State.now_modWorld (s : State) (w : Nat) (f : World → World) : (s.modWorld w f).now = s.now := rfl
@[simp] theorem State.path_modWorld (s : State) (w : Nat) (f : World → World) : (s.modWorld w f).path = s.path := rfl
@[simp] theorem State.ct_modWorld (s : State) (w : Nat) (f : World → World) : (s.modWorld w f).ct = s.ct := rfl
@[simp] theorem State.world_modCore (s : State) (c : Nat) (f : Core → Core) (n : Nat) : (s.modCore c f).world n = s.world n := rfl
@[simp] theorem State.die_modCore (s : State) (c : Nat) (f : Core → Core) (n : Nat) : (s.modCore c f).die n = s.die n := rfl
@[simp] theorem State.port_modCore (s : State) (c : Nat) (f : Core → Core) (n : Nat) : (s.modCore c f).port n = s.port n := rfl
@[simp] theorem State.queue_modCore (s : State) (c : Nat) (f : Core → Core) (n : Nat) : (s.modCore c f).queue n = s.queue n := rfl
@[simp] theorem State.launchOpt_modCore (s : State) (c : Nat) (f : Core → Core) (n : Nat) : (s.modCore c f).launch? n = s.launch? n := rfl
@[simp] theorem State.launch_modCore (s : State) (c : Nat) (f : Core → Core) (n : Nat) : (s.modCore c f).launch n = s.launch n := rfl
@[simp] theorem State.teamOpt_modCore (s : State) (c : Nat) (f : Core → Core) (n : Nat) : (s.modCore c f).team? n = s.team? n := rfl
@[simp] theorem State.team_modCore (s : State) (c : Nat) (f : Core → Core) (n : Nat) : (s.modCore c f).team n = s.team n := rfl
@[simp] theorem State.cycle_modCore (s : State) (c : Nat) (f : Core → Core) (n : Nat) : (s.modCore c f).cycle n = s.cycle n := rfl
@[simp] theorem State.now_modCore (s : State) (c : Nat) (f : Core → Core) : (s.modCore c f).now = s.now := rfl
@[simp] theorem State.path_modCore (s : State) (c : Nat) (f : Core → Core) : (s.modCore c f).path = s.path := rfl
@[simp] theorem State.ct_modCore (s : State) (c : Nat) (f : Core → Core) : (s.modCore c f).ct = s.ct := rfl
@[simp] theorem State.world_modDie (s : State) (d : Nat) (f : Die → Die) (n : Nat) : (s.modDie d f).world n = s.world n := rfl
@[simp] theorem State.core_modDie (s : State) (d : Nat) (f : Die → Die) (n : Nat) : (s.modDie d f).core n = s.core n := rfl
@[simp] theorem State.port_modDie (s : State) (d : Nat) (f : Die → Die) (n : Nat) : (s.modDie d f).port n = s.port n := rfl
@[simp] theorem State.queue_modDie (s : State) (d : Nat) (f : Die → Die) (n : Nat) : (s.modDie d f).queue n = s.queue n := rfl
@[simp] theorem State.launchOpt_modDie (s : State) (d : Nat) (f : Die → Die) (n : Nat) : (s.modDie d f).launch? n = s.launch? n := rfl
@[simp] theorem State.launch_modDie (s : State) (d : Nat) (f : Die → Die) (n : Nat) : (s.modDie d f).launch n = s.launch n := rfl
@[simp] theorem State.teamOpt_modDie (s : State) (d : Nat) (f : Die → Die) (n : Nat) : (s.modDie d f).team? n = s.team? n := rfl
@[simp] theorem State.team_modDie (s : State) (d : Nat) (f : Die → Die) (n : Nat) : (s.modDie d f).team n = s.team n := rfl
@[simp] theorem State.path_modDie (s : State) (d : Nat) (f : Die → Die) : (s.modDie d f).path = s.path := rfl
@[simp] theorem State.ct_modDie (s : State) (d : Nat) (f : Die → Die) : (s.modDie d f).ct = s.ct := rfl
@[simp] theorem State.world_modPort (s : State) (k : Nat) (f : Port → Port) (n : Nat) : (s.modPort k f).world n = s.world n := rfl
@[simp] theorem State.core_modPort (s : State) (k : Nat) (f : Port → Port) (n : Nat) : (s.modPort k f).core n = s.core n := rfl
@[simp] theorem State.die_modPort (s : State) (k : Nat) (f : Port → Port) (n : Nat) : (s.modPort k f).die n = s.die n := rfl
@[simp] theorem State.queue_modPort (s : State) (k : Nat) (f : Port → Port) (n : Nat) : (s.modPort k f).queue n = s.queue n := rfl
@[simp] theorem State.launchOpt_modPort (s : State) (k : Nat) (f : Port → Port) (n : Nat) : (s.modPort k f).launch? n = s.launch? n := rfl
@[simp] theorem State.launch_modPort (s : State) (k : Nat) (f : Port → Port) (n : Nat) : (s.modPort k f).launch n = s.launch n := rfl
@[simp] theorem State.teamOpt_modPort (s : State) (k : Nat) (f : Port → Port) (n : Nat) : (s.modPort k f).team? n = s.team? n := rfl
@[simp] theorem State.team_modPort (s : State) (k : Nat) (f : Port → Port) (n : Nat) : (s.modPort k f).team n = s.team n := rfl
@[simp] theorem State.cycle_modPort (s : State) (k : Nat) (f : Port → Port) (n : Nat) : (s.modPort k f).cycle n = s.cycle n := rfl
@[simp] theorem State.now_modPort (s : State) (k : Nat) (f : Port → Port) : (s.modPort k f).now = s.now := rfl
@[simp] theorem State.path_modPort (s : State) (k : Nat) (f : Port → Port) : (s.modPort k f).path = s.path := rfl
@[simp] theorem State.ct_modPort (s : State) (k : Nat) (f : Port → Port) : (s.modPort k f).ct = s.ct := rfl
@[simp] theorem State.world_fresh (s : State) (n : Nat) : s.fresh.2.world n = s.world n := rfl
@[simp] theorem State.core_fresh (s : State) (n : Nat) : s.fresh.2.core n = s.core n := rfl
@[simp] theorem State.die_fresh (s : State) (n : Nat) : s.fresh.2.die n = s.die n := rfl
@[simp] theorem State.port_fresh (s : State) (n : Nat) : s.fresh.2.port n = s.port n := rfl
@[simp] theorem State.queue_fresh (s : State) (n : Nat) : s.fresh.2.queue n = s.queue n := rfl
@[simp] theorem State.launchOpt_fresh (s : State) (n : Nat) : s.fresh.2.launch? n = s.launch? n := rfl
@[simp] theorem State.launch_fresh (s : State) (n : Nat) : s.fresh.2.launch n = s.launch n := rfl
@[simp] theorem State.teamOpt_fresh (s : State) (n : Nat) : s.fresh.2.team? n = s.team? n := rfl
@[simp] theorem State.team_fresh (s : State) (n : Nat) : s.fresh.2.team n = s.team n := rfl
@[simp] theorem State.cycle_fresh (s : State) (n : Nat) : s.fresh.2.cycle n = s.cycle n := rfl
@[simp] theorem State.now_fresh (s : State) : s.fresh.2.now = s.now := rfl
@[simp] theorem State.path_fresh (s : State) : s.fresh.2.path = s.path := rfl
@[simp] theorem State.ct_fresh (s : State) : s.fresh.2.ct = s.ct := rfl

/-! ### Reading what was updated -/

@[simp] theorem State.world_modWorld (s : State) (w : Nat) (f : World → World) : (s.modWorld w f).world w = f (s.world w) :=
  tabGet_tabSet_self
@[simp] theorem State.core_modCore (s : State) (c : Nat) (f : Core → Core) : (s.modCore c f).core c = f (s.core c) :=
  tabGet_tabSet_self
@[simp] theorem State.die_modDie (s : State) (d : Nat) (f : Die → Die) : (s.modDie d f).die d = f (s.die d) :=
  tabGet_tabSet_self
@[simp] theorem State.port_modPort (s : State) (k : Nat) (f : Port → Port) : (s.modPort k f).port k = f (s.port k) :=
  tabGet_tabSet_self
@[simp] theorem State.queue_modQueue (s : State) (q : Nat) (f : Queue → Queue) : (s.modQueue q f).queue q = f (s.queue q) :=
  tabGet_tabSet_self

theorem find?_mapIf {α : Type} (l : List α) (p q : α → Bool) (f : α → α) (h : ∀ x, q (f x) = q x) :
    (mapIf l p f).find? q = (l.find? q).map fun x => if p x then f x else x := by
  induction l with
  | nil => rfl
  | cons x r ih =>
    have hx : q (if p x then f x else x) = q x := by split <;> simp [h]
    simp only [mapIf, List.map_cons, List.find?_cons, hx]
    cases q x
    · exact ih
    · rfl

@[simp] theorem mapIf_nil {α : Type} (p : α → Bool) (f : α → α) : mapIf [] p f = [] := rfl

theorem State.teamOpt_modTeam (s : State) (t : Nat) (f : Team → Team) (h : ∀ x, (f x).id = x.id) :
    (s.modTeam t f).team? t = (s.team? t).map f := by
  unfold State.team? State.modTeam
  rw [find?_mapIf _ _ _ _ (fun x => by simp [h])]
  cases hf : s.teams.find? (fun x => decide (x.id = t)) with
  | none => rfl
  | some x => have := List.find?_some hf; simp at this; simp [this]

theorem State.teamOpt_modTeam_ne (s : State) {t j : Nat} (f : Team → Team) (h : ∀ x, (f x).id = x.id) (hj : j ≠ t) :
    (s.modTeam t f).team? j = s.team? j := by
  unfold State.team? State.modTeam
  rw [find?_mapIf _ _ _ _ (fun x => by simp [h])]
  cases hf : s.teams.find? (fun x => decide (x.id = j)) with
  | none => rfl
  | some x => have := List.find?_some hf; simp at this; simp [this, hj]

/-- A team that is there is what its update makes of it. -/
theorem State.team_modTeam (s : State) (t : Nat) (f : Team → Team) (h : ∀ x, (f x).id = x.id)
    (ht : (s.team? t).isSome = true) : (s.modTeam t f).team t = f (s.team t) := by
  unfold State.team
  rw [State.teamOpt_modTeam s t f h]
  obtain ⟨x, hx⟩ := Option.isSome_iff_exists.mp ht
  simp [hx]

theorem State.team_modTeam_ne (s : State) {t j : Nat} (f : Team → Team) (h : ∀ x, (f x).id = x.id) (hj : j ≠ t) :
    (s.modTeam t f).team j = s.team j := by
  unfold State.team; rw [State.teamOpt_modTeam_ne s f h hj]

theorem State.launchOpt_modLaunch (s : State) (i : Nat) (f : Launch → Launch) (h : ∀ x, (f x).id = x.id) :
    (s.modLaunch i f).launch? i = (s.launch? i).map f := by
  unfold State.launch? State.modLaunch
  rw [find?_mapIf _ _ _ _ (fun x => by simp [h])]
  cases hf : s.launches.find? (fun x => decide (x.id = i)) with
  | none => rfl
  | some x => have := List.find?_some hf; simp at this; simp [this]

theorem State.launch_modLaunch (s : State) (i : Nat) (f : Launch → Launch) (h : ∀ x, (f x).id = x.id)
    (hi : (s.launch? i).isSome = true) : (s.modLaunch i f).launch i = f (s.launch i) := by
  unfold State.launch
  rw [State.launchOpt_modLaunch s i f h]
  obtain ⟨x, hx⟩ := Option.isSome_iff_exists.mp hi
  simp [hx]

/-! ### Parts of a team -/

@[simp] theorem Team.setGroupAt_id (t : Team) (g : Nat) (x : Group) : (t.setGroupAt g x).id = t.id := by
  unfold Team.setGroupAt; split <;> rfl
@[simp] theorem Team.setGroupAt_launch (t : Team) (g : Nat) (x : Group) : (t.setGroupAt g x).launch = t.launch := by
  unfold Team.setGroupAt; split <;> rfl
@[simp] theorem Team.setGroupAt_num (t : Team) (g : Nat) (x : Group) : (t.setGroupAt g x).num = t.num := by
  unfold Team.setGroupAt; split <;> rfl
@[simp] theorem Team.setGroupAt_core (t : Team) (g : Nat) (x : Group) : (t.setGroupAt g x).core = t.core := by
  unfold Team.setGroupAt; split <;> rfl
@[simp] theorem Team.setGroupAt_place (t : Team) (g : Nat) (x : Group) : (t.setGroupAt g x).place = t.place := by
  unfold Team.setGroupAt; split <;> rfl
@[simp] theorem Team.setGroupAt_t (t : Team) (g : Nat) (x : Group) : (t.setGroupAt g x).t = t.t := by
  unfold Team.setGroupAt; split <;> rfl
@[simp] theorem Team.setGroupAt_conj (t : Team) (g : Nat) (x : Group) : (t.setGroupAt g x).conj = t.conj := by
  unfold Team.setGroupAt; split <;> rfl
@[simp] theorem Team.setGroupAt_cands (t : Team) (g : Nat) (x : Group) : (t.setGroupAt g x).cands = t.cands := by
  unfold Team.setGroupAt; split <;> rfl
@[simp] theorem Team.setGroupAt_pipe (t : Team) (g : Nat) (x : Group) : (t.setGroupAt g x).pipe = t.pipe := by
  unfold Team.setGroupAt; split <;> rfl
@[simp] theorem Team.setGroupAt_scratch (t : Team) (g : Nat) (x : Group) : (t.setGroupAt g x).scratch = t.scratch := by
  unfold Team.setGroupAt; split <;> rfl
@[simp] theorem Team.setGroupAt_banks (t : Team) (g : Nat) (x : Group) : (t.setGroupAt g x).banks = t.banks := by
  unfold Team.setGroupAt; split <;> rfl
@[simp] theorem Team.setGroupAt_tiles (t : Team) (g : Nat) (x : Group) : (t.setGroupAt g x).tiles = t.tiles := by
  unfold Team.setGroupAt; split <;> rfl
@[simp] theorem Team.setGroupAt_infl (t : Team) (g : Nat) (x : Group) : (t.setGroupAt g x).infl = t.infl := by
  unfold Team.setGroupAt; split <;> rfl
@[simp] theorem Team.setGroupAt_bars (t : Team) (g : Nat) (x : Group) : (t.setGroupAt g x).bars = t.bars := by
  unfold Team.setGroupAt; split <;> rfl
@[simp] theorem Team.setGroupAt_dq (t : Team) (g : Nat) (x : Group) : (t.setGroupAt g x).dq = t.dq := by
  unfold Team.setGroupAt; split <;> rfl
@[simp] theorem Team.setGroupAt_wslot (t : Team) (g : Nat) (x : Group) : (t.setGroupAt g x).wslot = t.wslot := by
  unfold Team.setGroupAt; split <;> rfl
@[simp] theorem Team.setGroupAt_esc (t : Team) (g : Nat) (x : Group) : (t.setGroupAt g x).esc = t.esc := by
  unfold Team.setGroupAt; split <;> rfl
@[simp] theorem Team.setGroupAt_toks (t : Team) (g : Nat) (x : Group) : (t.setGroupAt g x).toks = t.toks := by
  unfold Team.setGroupAt; split <;> rfl
@[simp] theorem Team.setGroupAt_resumes (t : Team) (g : Nat) (x : Group) : (t.setGroupAt g x).resumes = t.resumes := by
  unfold Team.setGroupAt; split <;> rfl
@[simp] theorem Team.setGroupAt_saveArea (t : Team) (g : Nat) (x : Group) : (t.setGroupAt g x).saveArea = t.saveArea := by
  unfold Team.setGroupAt; split <;> rfl
@[simp] theorem Team.setGroupAt_savedAt (t : Team) (g : Nat) (x : Group) : (t.setGroupAt g x).savedAt = t.savedAt := by
  unfold Team.setGroupAt; split <;> rfl
@[simp] theorem Team.setGroupAt_preempt (t : Team) (g : Nat) (x : Group) : (t.setGroupAt g x).preempt = t.preempt := by
  unfold Team.setGroupAt; split <;> rfl
@[simp] theorem Team.modGroupAt_id (t : Team) (g : Nat) (f : Group → Group) : (t.modGroupAt g f).id = t.id := by
  simp [Team.modGroupAt]
@[simp] theorem Team.modGroupAt_launch (t : Team) (g : Nat) (f : Group → Group) : (t.modGroupAt g f).launch = t.launch := by
  simp [Team.modGroupAt]
@[simp] theorem Team.modGroupAt_num (t : Team) (g : Nat) (f : Group → Group) : (t.modGroupAt g f).num = t.num := by
  simp [Team.modGroupAt]
@[simp] theorem Team.modGroupAt_core (t : Team) (g : Nat) (f : Group → Group) : (t.modGroupAt g f).core = t.core := by
  simp [Team.modGroupAt]
@[simp] theorem Team.modGroupAt_place (t : Team) (g : Nat) (f : Group → Group) : (t.modGroupAt g f).place = t.place := by
  simp [Team.modGroupAt]
@[simp] theorem Team.modGroupAt_t (t : Team) (g : Nat) (f : Group → Group) : (t.modGroupAt g f).t = t.t := by
  simp [Team.modGroupAt]
@[simp] theorem Team.modGroupAt_conj (t : Team) (g : Nat) (f : Group → Group) : (t.modGroupAt g f).conj = t.conj := by
  simp [Team.modGroupAt]
@[simp] theorem Team.modGroupAt_cands (t : Team) (g : Nat) (f : Group → Group) : (t.modGroupAt g f).cands = t.cands := by
  simp [Team.modGroupAt]
@[simp] theorem Team.modGroupAt_pipe (t : Team) (g : Nat) (f : Group → Group) : (t.modGroupAt g f).pipe = t.pipe := by
  simp [Team.modGroupAt]
@[simp] theorem Team.modGroupAt_scratch (t : Team) (g : Nat) (f : Group → Group) : (t.modGroupAt g f).scratch = t.scratch := by
  simp [Team.modGroupAt]
@[simp] theorem Team.modGroupAt_banks (t : Team) (g : Nat) (f : Group → Group) : (t.modGroupAt g f).banks = t.banks := by
  simp [Team.modGroupAt]
@[simp] theorem Team.modGroupAt_tiles (t : Team) (g : Nat) (f : Group → Group) : (t.modGroupAt g f).tiles = t.tiles := by
  simp [Team.modGroupAt]
@[simp] theorem Team.modGroupAt_infl (t : Team) (g : Nat) (f : Group → Group) : (t.modGroupAt g f).infl = t.infl := by
  simp [Team.modGroupAt]
@[simp] theorem Team.modGroupAt_bars (t : Team) (g : Nat) (f : Group → Group) : (t.modGroupAt g f).bars = t.bars := by
  simp [Team.modGroupAt]
@[simp] theorem Team.modGroupAt_dq (t : Team) (g : Nat) (f : Group → Group) : (t.modGroupAt g f).dq = t.dq := by
  simp [Team.modGroupAt]
@[simp] theorem Team.modGroupAt_wslot (t : Team) (g : Nat) (f : Group → Group) : (t.modGroupAt g f).wslot = t.wslot := by
  simp [Team.modGroupAt]
@[simp] theorem Team.modGroupAt_esc (t : Team) (g : Nat) (f : Group → Group) : (t.modGroupAt g f).esc = t.esc := by
  simp [Team.modGroupAt]
@[simp] theorem Team.modGroupAt_toks (t : Team) (g : Nat) (f : Group → Group) : (t.modGroupAt g f).toks = t.toks := by
  simp [Team.modGroupAt]
@[simp] theorem Team.modGroupAt_resumes (t : Team) (g : Nat) (f : Group → Group) : (t.modGroupAt g f).resumes = t.resumes := by
  simp [Team.modGroupAt]
@[simp] theorem Team.modGroupAt_saveArea (t : Team) (g : Nat) (f : Group → Group) : (t.modGroupAt g f).saveArea = t.saveArea := by
  simp [Team.modGroupAt]
@[simp] theorem Team.modGroupAt_savedAt (t : Team) (g : Nat) (f : Group → Group) : (t.modGroupAt g f).savedAt = t.savedAt := by
  simp [Team.modGroupAt]
@[simp] theorem Team.modGroupAt_preempt (t : Team) (g : Nat) (f : Group → Group) : (t.modGroupAt g f).preempt = t.preempt := by
  simp [Team.modGroupAt]
@[simp] theorem Team.modThread_id (t : Team) (g l : Nat) (f : Thread → Thread) : (t.modThread g l f).id = t.id := by
  simp [Team.modThread]
@[simp] theorem Team.modThread_launch (t : Team) (g l : Nat) (f : Thread → Thread) : (t.modThread g l f).launch = t.launch := by
  simp [Team.modThread]
@[simp] theorem Team.modThread_num (t : Team) (g l : Nat) (f : Thread → Thread) : (t.modThread g l f).num = t.num := by
  simp [Team.modThread]
@[simp] theorem Team.modThread_core (t : Team) (g l : Nat) (f : Thread → Thread) : (t.modThread g l f).core = t.core := by
  simp [Team.modThread]
@[simp] theorem Team.modThread_place (t : Team) (g l : Nat) (f : Thread → Thread) : (t.modThread g l f).place = t.place := by
  simp [Team.modThread]
@[simp] theorem Team.modThread_t (t : Team) (g l : Nat) (f : Thread → Thread) : (t.modThread g l f).t = t.t := by
  simp [Team.modThread]
@[simp] theorem Team.modThread_conj (t : Team) (g l : Nat) (f : Thread → Thread) : (t.modThread g l f).conj = t.conj := by
  simp [Team.modThread]
@[simp] theorem Team.modThread_cands (t : Team) (g l : Nat) (f : Thread → Thread) : (t.modThread g l f).cands = t.cands := by
  simp [Team.modThread]
@[simp] theorem Team.modThread_pipe (t : Team) (g l : Nat) (f : Thread → Thread) : (t.modThread g l f).pipe = t.pipe := by
  simp [Team.modThread]
@[simp] theorem Team.modThread_scratch (t : Team) (g l : Nat) (f : Thread → Thread) : (t.modThread g l f).scratch = t.scratch := by
  simp [Team.modThread]
@[simp] theorem Team.modThread_banks (t : Team) (g l : Nat) (f : Thread → Thread) : (t.modThread g l f).banks = t.banks := by
  simp [Team.modThread]
@[simp] theorem Team.modThread_tiles (t : Team) (g l : Nat) (f : Thread → Thread) : (t.modThread g l f).tiles = t.tiles := by
  simp [Team.modThread]
@[simp] theorem Team.modThread_infl (t : Team) (g l : Nat) (f : Thread → Thread) : (t.modThread g l f).infl = t.infl := by
  simp [Team.modThread]
@[simp] theorem Team.modThread_bars (t : Team) (g l : Nat) (f : Thread → Thread) : (t.modThread g l f).bars = t.bars := by
  simp [Team.modThread]
@[simp] theorem Team.modThread_dq (t : Team) (g l : Nat) (f : Thread → Thread) : (t.modThread g l f).dq = t.dq := by
  simp [Team.modThread]
@[simp] theorem Team.modThread_wslot (t : Team) (g l : Nat) (f : Thread → Thread) : (t.modThread g l f).wslot = t.wslot := by
  simp [Team.modThread]
@[simp] theorem Team.modThread_esc (t : Team) (g l : Nat) (f : Thread → Thread) : (t.modThread g l f).esc = t.esc := by
  simp [Team.modThread]
@[simp] theorem Team.modThread_toks (t : Team) (g l : Nat) (f : Thread → Thread) : (t.modThread g l f).toks = t.toks := by
  simp [Team.modThread]
@[simp] theorem Team.modThread_resumes (t : Team) (g l : Nat) (f : Thread → Thread) : (t.modThread g l f).resumes = t.resumes := by
  simp [Team.modThread]
@[simp] theorem Team.modThread_saveArea (t : Team) (g l : Nat) (f : Thread → Thread) : (t.modThread g l f).saveArea = t.saveArea := by
  simp [Team.modThread]
@[simp] theorem Team.modThread_savedAt (t : Team) (g l : Nat) (f : Thread → Thread) : (t.modThread g l f).savedAt = t.savedAt := by
  simp [Team.modThread]
@[simp] theorem Team.modThread_preempt (t : Team) (g l : Nat) (f : Thread → Thread) : (t.modThread g l f).preempt = t.preempt := by
  simp [Team.modThread]
@[simp] theorem Team.modThreadAt_id (t : Team) (a : Actor) (l : Nat) (f : Thread → Thread) : (t.modThreadAt a l f).id = t.id := by
  unfold Team.modThreadAt; split <;> simp
@[simp] theorem Team.modThreadAt_launch (t : Team) (a : Actor) (l : Nat) (f : Thread → Thread) : (t.modThreadAt a l f).launch = t.launch := by
  unfold Team.modThreadAt; split <;> simp
@[simp] theorem Team.modThreadAt_num (t : Team) (a : Actor) (l : Nat) (f : Thread → Thread) : (t.modThreadAt a l f).num = t.num := by
  unfold Team.modThreadAt; split <;> simp
@[simp] theorem Team.modThreadAt_core (t : Team) (a : Actor) (l : Nat) (f : Thread → Thread) : (t.modThreadAt a l f).core = t.core := by
  unfold Team.modThreadAt; split <;> simp
@[simp] theorem Team.modThreadAt_place (t : Team) (a : Actor) (l : Nat) (f : Thread → Thread) : (t.modThreadAt a l f).place = t.place := by
  unfold Team.modThreadAt; split <;> simp
@[simp] theorem Team.modThreadAt_t (t : Team) (a : Actor) (l : Nat) (f : Thread → Thread) : (t.modThreadAt a l f).t = t.t := by
  unfold Team.modThreadAt; split <;> simp
@[simp] theorem Team.modThreadAt_conj (t : Team) (a : Actor) (l : Nat) (f : Thread → Thread) : (t.modThreadAt a l f).conj = t.conj := by
  unfold Team.modThreadAt; split <;> simp
@[simp] theorem Team.modThreadAt_cands (t : Team) (a : Actor) (l : Nat) (f : Thread → Thread) : (t.modThreadAt a l f).cands = t.cands := by
  unfold Team.modThreadAt; split <;> simp
@[simp] theorem Team.modThreadAt_pipe (t : Team) (a : Actor) (l : Nat) (f : Thread → Thread) : (t.modThreadAt a l f).pipe = t.pipe := by
  unfold Team.modThreadAt; split <;> simp
@[simp] theorem Team.modThreadAt_scratch (t : Team) (a : Actor) (l : Nat) (f : Thread → Thread) : (t.modThreadAt a l f).scratch = t.scratch := by
  unfold Team.modThreadAt; split <;> simp
@[simp] theorem Team.modThreadAt_banks (t : Team) (a : Actor) (l : Nat) (f : Thread → Thread) : (t.modThreadAt a l f).banks = t.banks := by
  unfold Team.modThreadAt; split <;> simp
@[simp] theorem Team.modThreadAt_tiles (t : Team) (a : Actor) (l : Nat) (f : Thread → Thread) : (t.modThreadAt a l f).tiles = t.tiles := by
  unfold Team.modThreadAt; split <;> simp
@[simp] theorem Team.modThreadAt_infl (t : Team) (a : Actor) (l : Nat) (f : Thread → Thread) : (t.modThreadAt a l f).infl = t.infl := by
  unfold Team.modThreadAt; split <;> simp
@[simp] theorem Team.modThreadAt_bars (t : Team) (a : Actor) (l : Nat) (f : Thread → Thread) : (t.modThreadAt a l f).bars = t.bars := by
  unfold Team.modThreadAt; split <;> simp
@[simp] theorem Team.modThreadAt_dq (t : Team) (a : Actor) (l : Nat) (f : Thread → Thread) : (t.modThreadAt a l f).dq = t.dq := by
  unfold Team.modThreadAt; split <;> simp
@[simp] theorem Team.modThreadAt_wslot (t : Team) (a : Actor) (l : Nat) (f : Thread → Thread) : (t.modThreadAt a l f).wslot = t.wslot := by
  unfold Team.modThreadAt; split <;> simp
@[simp] theorem Team.modThreadAt_esc (t : Team) (a : Actor) (l : Nat) (f : Thread → Thread) : (t.modThreadAt a l f).esc = t.esc := by
  unfold Team.modThreadAt; split <;> simp
@[simp] theorem Team.modThreadAt_toks (t : Team) (a : Actor) (l : Nat) (f : Thread → Thread) : (t.modThreadAt a l f).toks = t.toks := by
  unfold Team.modThreadAt; split <;> simp
@[simp] theorem Team.modThreadAt_resumes (t : Team) (a : Actor) (l : Nat) (f : Thread → Thread) : (t.modThreadAt a l f).resumes = t.resumes := by
  unfold Team.modThreadAt; split <;> simp
@[simp] theorem Team.modThreadAt_saveArea (t : Team) (a : Actor) (l : Nat) (f : Thread → Thread) : (t.modThreadAt a l f).saveArea = t.saveArea := by
  unfold Team.modThreadAt; split <;> simp
@[simp] theorem Team.modThreadAt_savedAt (t : Team) (a : Actor) (l : Nat) (f : Thread → Thread) : (t.modThreadAt a l f).savedAt = t.savedAt := by
  unfold Team.modThreadAt; split <;> simp
@[simp] theorem Team.modThreadAt_preempt (t : Team) (a : Actor) (l : Nat) (f : Thread → Thread) : (t.modThreadAt a l f).preempt = t.preempt := by
  unfold Team.modThreadAt; split <;> simp
@[simp] theorem Team.modActor_id (t : Team) (a : Actor) (f : Group → Group) : (t.modActor a f).id = t.id := by
  cases a <;> simp [Team.modActor]
@[simp] theorem Team.modActor_launch (t : Team) (a : Actor) (f : Group → Group) : (t.modActor a f).launch = t.launch := by
  cases a <;> simp [Team.modActor]
@[simp] theorem Team.modActor_num (t : Team) (a : Actor) (f : Group → Group) : (t.modActor a f).num = t.num := by
  cases a <;> simp [Team.modActor]
@[simp] theorem Team.modActor_core (t : Team) (a : Actor) (f : Group → Group) : (t.modActor a f).core = t.core := by
  cases a <;> simp [Team.modActor]
@[simp] theorem Team.modActor_place (t : Team) (a : Actor) (f : Group → Group) : (t.modActor a f).place = t.place := by
  cases a <;> simp [Team.modActor]
@[simp] theorem Team.modActor_t (t : Team) (a : Actor) (f : Group → Group) : (t.modActor a f).t = t.t := by
  cases a <;> simp [Team.modActor]
@[simp] theorem Team.modActor_cands (t : Team) (a : Actor) (f : Group → Group) : (t.modActor a f).cands = t.cands := by
  cases a <;> simp [Team.modActor]
@[simp] theorem Team.modActor_pipe (t : Team) (a : Actor) (f : Group → Group) : (t.modActor a f).pipe = t.pipe := by
  cases a <;> simp [Team.modActor]
@[simp] theorem Team.modActor_scratch (t : Team) (a : Actor) (f : Group → Group) : (t.modActor a f).scratch = t.scratch := by
  cases a <;> simp [Team.modActor]
@[simp] theorem Team.modActor_banks (t : Team) (a : Actor) (f : Group → Group) : (t.modActor a f).banks = t.banks := by
  cases a <;> simp [Team.modActor]
@[simp] theorem Team.modActor_tiles (t : Team) (a : Actor) (f : Group → Group) : (t.modActor a f).tiles = t.tiles := by
  cases a <;> simp [Team.modActor]
@[simp] theorem Team.modActor_infl (t : Team) (a : Actor) (f : Group → Group) : (t.modActor a f).infl = t.infl := by
  cases a <;> simp [Team.modActor]
@[simp] theorem Team.modActor_bars (t : Team) (a : Actor) (f : Group → Group) : (t.modActor a f).bars = t.bars := by
  cases a <;> simp [Team.modActor]
@[simp] theorem Team.modActor_dq (t : Team) (a : Actor) (f : Group → Group) : (t.modActor a f).dq = t.dq := by
  cases a <;> simp [Team.modActor]
@[simp] theorem Team.modActor_wslot (t : Team) (a : Actor) (f : Group → Group) : (t.modActor a f).wslot = t.wslot := by
  cases a <;> simp [Team.modActor]
@[simp] theorem Team.modActor_esc (t : Team) (a : Actor) (f : Group → Group) : (t.modActor a f).esc = t.esc := by
  cases a <;> simp [Team.modActor]
@[simp] theorem Team.modActor_toks (t : Team) (a : Actor) (f : Group → Group) : (t.modActor a f).toks = t.toks := by
  cases a <;> simp [Team.modActor]
@[simp] theorem Team.modActor_resumes (t : Team) (a : Actor) (f : Group → Group) : (t.modActor a f).resumes = t.resumes := by
  cases a <;> simp [Team.modActor]
@[simp] theorem Team.modActor_saveArea (t : Team) (a : Actor) (f : Group → Group) : (t.modActor a f).saveArea = t.saveArea := by
  cases a <;> simp [Team.modActor]
@[simp] theorem Team.modActor_savedAt (t : Team) (a : Actor) (f : Group → Group) : (t.modActor a f).savedAt = t.savedAt := by
  cases a <;> simp [Team.modActor]
@[simp] theorem Team.modActor_preempt (t : Team) (a : Actor) (f : Group → Group) : (t.modActor a f).preempt = t.preempt := by
  cases a <;> simp [Team.modActor]

@[simp] theorem Team.modThread_groups_length (t : Team) (g l : Nat) (f : Thread → Thread) :
    (t.modThread g l f).groups.length = t.groups.length := by
  simp only [Team.modThread, Team.modGroupAt, Team.setGroupAt]; split <;> simp

@[simp] theorem Team.placeOpt_modThread (t : Team) (g l : Nat) (f : Thread → Thread) (a : Actor) (L : Nat) :
    (t.modThread g l f).place? a L = t.place? a L := by
  cases a <;> simp [Team.place?]

@[simp] theorem Team.placeOpt_modThreadAt (t : Team) (b : Actor) (l : Nat) (f : Thread → Thread) (a : Actor) (L : Nat) :
    (t.modThreadAt b l f).place? a L = t.place? a L := by
  cases a <;> simp [Team.place?]

@[simp] theorem Team.positions_modThreadAt (t : Team) (b : Actor) (l : Nat) (f : Thread → Thread) (a : Actor) :
    (t.modThreadAt b l f).positions a = t.positions a := by
  simp [Team.positions]

theorem Team.groupAt_setGroupAt_ne (t : Team) {g j : Nat} (x : Group) (h : j ≠ g) : (t.setGroupAt g x).groupAt j = t.groupAt j := by
  simp only [Team.groupAt, Team.setGroupAt]
  split <;> split <;> simp_all [List.getD, eq_comm]

/-- A group of a team that is there: its place in the list, or the lead thread. -/
def Team_hasGroup (t : Team) (g : Nat) : Prop := (g = leadGrp ∧ t.lead.isSome = true) ∨ (g ≠ leadGrp ∧ g < t.groups.length)

theorem Team.groupAt_setGroupAt (t : Team) (g : Nat) (x : Group) (h : Team_hasGroup t g) : (t.setGroupAt g x).groupAt g = x := by
  rcases h with ⟨h1, h2⟩ | ⟨h1, h2⟩
  · obtain ⟨y, hy⟩ := Option.isSome_iff_exists.mp h2
    simp [Team.groupAt, Team.setGroupAt, h1, hy]
  · simp [Team.groupAt, Team.setGroupAt, h1, List.getD, h2]

/-- A thread that is not exited is there. -/
theorem Team.hasGroup_of_thread {t : Team} {g l : Nat} (h : (t.thread g l).st ≠ .exited) : Team_hasGroup t g := by
  unfold Team.thread Team.groupAt at h
  unfold Team_hasGroup
  split at h
  · left; refine ⟨‹_›, ?_⟩
    cases hl : t.lead with
    | none => simp [hl, noThread] at h
    | some _ => rfl
  · right; refine ⟨‹_›, ?_⟩
    by_contra hc
    simp only [List.getD, List.getElem?_eq_none (Nat.le_of_not_lt hc)] at h
    simp [noThread] at h

theorem Team.thread_lt {t : Team} {g l : Nat} (h : (t.thread g l).st ≠ .exited) : l < (t.groupAt g).threads.length := by
  by_contra hc
  unfold Team.thread at h
  simp only [List.getD, List.getElem?_eq_none (Nat.le_of_not_lt hc)] at h
  exact h rfl

/-- A thread that is there is what its update makes of it. -/
theorem Team.thread_modThread (t : Team) (g l : Nat) (f : Thread → Thread) (h : (t.thread g l).st ≠ .exited) :
    (t.modThread g l f).thread g l = f (t.thread g l) := by
  have h1 := Team.thread_lt h
  unfold Team.modThread Team.modGroupAt
  conv => lhs; unfold Team.thread
  rw [Team.groupAt_setGroupAt t g _ (Team.hasGroup_of_thread h)]
  simp [List.getD, h1, Team.thread]

/-- Every other thread stands as it stood. -/
theorem Team.thread_modThread_ne (t : Team) {g l g' l' : Nat} (f : Thread → Thread) (h : ¬(g' = g ∧ l' = l)) :
    (t.modThread g l f).thread g' l' = t.thread g' l' := by
  unfold Team.modThread Team.modGroupAt
  by_cases hg : g' = g
  · subst hg
    have hl : l' ≠ l := fun e => h ⟨rfl, e⟩
    unfold Team.thread
    simp only [Team.groupAt, Team.setGroupAt]
    split
    · cases hx : t.lead <;> simp [List.getD, Ne.symm hl]
    · by_cases hb : g' < t.groups.length
      · simp [List.getD, hb, Ne.symm hl]
      · simp [List.getD, hb]
  · unfold Team.thread
    rw [Team.groupAt_setGroupAt_ne t _ hg]

end Sys2Proof.Machine
end

