-- ==== Sys2Proof/Laws/Issue.lean ====
section
/-! SUPPORT. What the shared operations of an issue do: the retire of a path, results of fixed latency and
scoreboarded ones, and reads of ports that hold no fault. -/

namespace Sys2Proof.Machine

/-! ### Threads of a path -/

/-- What the retire of one position does to its thread. -/
def retireThread (pc : Dword) (lv : Level) (at_ : Nat) (q : Dword) (th : Thread) : Thread :=
  if th.st = .run ∧ th.pc = pc ∧ th.level = lv then { th with pc := q, ready := at_ } else { th with ready := at_ }

theorem Team.thread_modThreadAt_ne {t : Team} {a : Actor} {L g l : Nat} {f : Thread → Thread} (h : t.place? a L ≠ some (g, l)) :
    (t.modThreadAt a L f).thread g l = t.thread g l := by
  unfold Team.modThreadAt
  split
  · rename_i g' l' hp
    exact Team.thread_modThread_ne t f (fun e => h (by rw [hp, e.1, e.2]))
  · rfl

theorem Team.thread_modThreadAt {t : Team} {a : Actor} {L g l : Nat} {f : Thread → Thread} (h : t.place? a L = some (g, l))
    (hs : (t.thread g l).st ≠ .exited) : (t.modThreadAt a L f).thread g l = f (t.thread g l) := by
  simp only [Team.modThreadAt, h]
  exact Team.thread_modThread t g l f hs

/-- A thread at positions of a retiring path: where it goes, and what stays. -/
theorem retire_fold (a : Actor) (pc : Dword) (lv : Level) (at_ : Nat) (q : Nat → Dword) (g l : Nat) (ls : List Nat) (t : Team)
    (hs : (t.thread g l).st = .run) (hp : (t.thread g l).pc = pc) (hl : (t.thread g l).level = lv) :
    let t' := ls.foldl (fun t L => t.modThreadAt a L (retireThread pc lv at_ (q L))) t
    ((∀ M ∈ ls, t.place? a M ≠ some (g, l)) ∧ t'.thread g l = t.thread g l) ∨
    (∃ M ∈ ls, t.place? a M = some (g, l) ∧ t'.thread g l = { t.thread g l with pc := q M, ready := at_ }) := by
  have moved : ∀ (ls : List Nat) (t : Team) (w : Dword), (t.thread g l).st = .run → (t.thread g l).level = lv →
      (t.thread g l).ready = at_ → (t.thread g l).pc = w →
      ∀ t', t' = ls.foldl (fun t L => t.modThreadAt a L (retireThread pc lv at_ (q L))) t →
      t'.thread g l = t.thread g l ∨ ∃ M ∈ ls, t.place? a M = some (g, l) ∧ t'.thread g l = { t.thread g l with pc := q M } := by
    intro ls
    induction ls with
    | nil => intro t w _ _ _ _ t' ht; left; rw [ht]; rfl
    | cons L r ih =>
      intro t w h1 h2 h3 h4 t' ht
      simp only [List.foldl_cons] at ht
      by_cases hL : t.place? a L = some (g, l)
      · have hth := Team.thread_modThreadAt (f := retireThread pc lv at_ (q L)) hL (by rw [h1]; simp)
        by_cases hc : w = pc
        · have e : (t.modThreadAt a L (retireThread pc lv at_ (q L))).thread g l = { t.thread g l with pc := q L } := by
            rw [hth]; unfold retireThread
            rw [if_pos ⟨h1, h4.trans hc, h2⟩]
            simp only [← h3]
          rcases ih _ (q L) (by rw [e]; exact h1) (by rw [e]; exact h2) (by rw [e]; exact h3) (by rw [e]) t' ht with h | ⟨M, hM, hpl, h⟩
          · right; exact ⟨L, by simp, hL, by rw [h, e]⟩
          · right; refine ⟨M, by simp [hM], by simpa using hpl, by rw [h, e]⟩
        · have e : (t.modThreadAt a L (retireThread pc lv at_ (q L))).thread g l = t.thread g l := by
            rw [hth]; unfold retireThread
            rw [if_neg (fun h => hc (h4.symm.trans h.2.1))]
            simp only [← h3]
          rcases ih _ w (by rw [e]; exact h1) (by rw [e]; exact h2) (by rw [e]; exact h3) (by rw [e]; exact h4) t' ht with h | ⟨M, hM, hpl, h⟩
          · left; rw [h, e]
          · right; exact ⟨M, by simp [hM], by simpa using hpl, by rw [h, e]⟩
      · have e := Team.thread_modThreadAt_ne (f := retireThread pc lv at_ (q L)) hL
        rcases ih _ w (by rw [e]; exact h1) (by rw [e]; exact h2) (by rw [e]; exact h3) (by rw [e]; exact h4) t' ht with h | ⟨M, hM, hpl, h⟩
        · left; rw [h, e]
        · right; exact ⟨M, by simp [hM], by simpa using hpl, by rw [h, e]⟩
  intro t'
  show _ ∨ _
  induction ls generalizing t with
  | nil => left; exact ⟨by simp, rfl⟩
  | cons L r ih =>
    by_cases hL : t.place? a L = some (g, l)
    · right
      have hth := Team.thread_modThreadAt (f := retireThread pc lv at_ (q L)) hL (by rw [hs]; simp)
      have e : (t.modThreadAt a L (retireThread pc lv at_ (q L))).thread g l = { t.thread g l with pc := q L, ready := at_ } := by
        rw [hth]; unfold retireThread; rw [if_pos ⟨hs, hp, hl⟩]
      rcases moved r _ (q L) (by rw [e]; exact hs) (by rw [e]; exact hl) (by rw [e]) (by rw [e]) t' rfl with h | ⟨M, hM, hpl, h⟩
      · exact ⟨L, by simp, hL, by rw [h, e]⟩
      · exact ⟨M, by simp [hM], by simpa using hpl, by rw [h, e]⟩
    · have e := Team.thread_modThreadAt_ne (f := retireThread pc lv at_ (q L)) hL
      rcases ih (t.modThreadAt a L (retireThread pc lv at_ (q L))) (by rw [e]; exact hs) (by rw [e]; exact hp) (by rw [e]; exact hl) with ⟨h1, h2⟩ | ⟨M, hM, hpl, h⟩
      · left
        refine ⟨?_, by rw [← e]; exact h2⟩
        intro M hM
        rcases List.mem_cons.mp hM with rfl | hM
        · exact hL
        · simpa using h1 M hM
      · right; exact ⟨M, by simp [hM], by simpa using hpl, by rw [← e]; exact h⟩

/-! ### Updates that leave threads alone -/

/-- The issuer's team is there as before, with every thread as it stood. -/
structure Quiet (s s' : State) : Prop where
  cur : s'.cur = s.cur
  now : s'.now = s.now
  team : (s'.team? s.cur.team).isSome = (s.team? s.cur.team).isSome
  place : ∀ L, s'.ct.place? s.cur.who L = s.ct.place? s.cur.who L
  thread : ∀ g l, s'.ct.thread g l = s.ct.thread g l

theorem Quiet.refl (s : State) : Quiet s s := ⟨rfl, rfl, rfl, fun _ => rfl, fun _ _ => rfl⟩

theorem Quiet.trans {a b c : State} (h : Quiet a b) (k : Quiet b c) : Quiet a c := by
  refine ⟨k.cur.trans h.cur, k.now.trans h.now, ?_, ?_, ?_⟩
  · have := k.team; rw [h.cur] at this; exact this.trans h.team
  · intro L; have := k.place L; rw [h.cur] at this; exact this.trans (h.place L)
  · intro g l; exact (k.thread g l).trans (h.thread g l)

theorem Quiet.path {s s' : State} (h : Quiet s s') : s'.path = s.path := by simp only [State.path, h.cur]

theorem Quiet.cth {s s' : State} (h : Quiet s s') (L : Nat) : s'.cth L = s.cth L := by
  simp only [State.cth, Team.threadAt, h.cur, h.place L, h.thread]

theorem Quiet.issuing {s s' : State} (h : Quiet s s') (hi : Issuing s) : Issuing s' := by
  refine ⟨by rw [h.cur, h.team]; exact hi.team, fun L hL => ?_⟩
  rw [h.cth, h.cur]; exact hi.path L (h.path ▸ hL)

/-- An update of the issuer's team that keeps its id, its threads and its places. -/
theorem Quiet.modCt (s : State) (f : Team → Team) (hid : ∀ t, (f t).id = t.id) (hp : ∀ t L, (f t).place? s.cur.who L = t.place? s.cur.who L)
    (ht : ∀ t g l, (f t).thread g l = t.thread g l) : Quiet s (s.modCt f) := by
  have hteam : (s.modCt f).team? s.cur.team = (s.team? s.cur.team).map f := State.teamOpt_modTeam s _ f hid
  refine ⟨rfl, rfl, by rw [hteam]; simp, ?_, ?_⟩
  all_goals
    unfold State.ct State.team
    intros
    rw [show (s.modCt f).cur = s.cur from rfl, hteam]
    cases s.team? s.cur.team <;> simp [hp, ht]

theorem Quiet.fresh (s : State) : Quiet s s.fresh.2 := ⟨rfl, rfl, rfl, fun _ => rfl, fun _ _ => rfl⟩

theorem Quiet.addPipe (s : State) (ws : List PipeW) : Quiet s (s.addPipe ws) :=
  Quiet.modCt s _ (fun _ => rfl) (fun _ _ => by cases s.cur.who <;> rfl) (fun _ _ _ => rfl)

theorem Quiet.addPend (s : State) (p : Nat → Pend) : Quiet s (s.addPend p).2 := ⟨rfl, rfl, rfl, fun _ => rfl, fun _ _ => rfl⟩

theorem Quiet.foldl {α : Type} (f : State → α → State) (h : ∀ s x, Quiet s (f s x)) (l : List α) (s : State) : Quiet s (l.foldl f s) := by
  induction l generalizing s with
  | nil => exact Quiet.refl s
  | cons x r ih => exact (h s x).trans (ih _)

/-! ### The retire -/

theorem State.ct_modCt (s : State) (f : Team → Team) (hid : ∀ t, (f t).id = t.id) (h : (s.team? s.cur.team).isSome = true) :
    (s.modCt f).ct = f s.ct := State.team_modTeam s s.cur.team f hid h

theorem foldl_id {α : Type} (f : Team → α → Team) (h : ∀ t x, (f t x).id = t.id) (l : List α) (t : Team) : (l.foldl f t).id = t.id := by
  induction l generalizing t with
  | nil => rfl
  | cons x r ih => rw [List.foldl_cons, ih, h]

theorem foldl_place {α : Type} (f : Team → α → Team) (a : Actor) (L : Nat) (h : ∀ t x, (f t x).place? a L = t.place? a L) (l : List α)
    (t : Team) : (l.foldl f t).place? a L = t.place? a L := by
  induction l generalizing t with
  | nil => rfl
  | cons x r ih => rw [List.foldl_cons, ih, h]

theorem State.retireTo_eq (s : State) (x : XHead) (tgt : Nat → Option Dword) :
    s.retireTo x tgt = s.modCt fun t => s.path.foldl (fun t L => t.modThreadAt s.cur.who L
      (retireThread s.cur.pc s.cur.level (s.now + max x.stall.toNat 1) ((tgt L).getD (s.cur.pc + w64 s.cur.len)))) t := rfl

/-- THE RETIRE of a path: each thread of it at its new program counter, with nothing else changed but its readiness. -/
theorem State.retireTo_cth {s : State} (hi : Issuing s) (x : XHead) (tgt : Nat → Option Dword) {L : Nat} (hL : L ∈ s.path) :
    ∃ M ∈ s.path, s.sameHome L M ∧
      (s.retireTo x tgt).cth L = { s.cth L with pc := (tgt M).getD s.nextPc, ready := s.now + max x.stall.toNat 1 } := by
  have hst := hi.path L hL
  cases hp : s.ct.place? s.cur.who L with
  | none =>
    have : s.cth L = noThread := by simp [State.cth, Team.threadAt, hp]
    rw [this] at hst; simp [noThread] at hst
  | some gl =>
    obtain ⟨g, l⟩ := gl
    have hth : s.cth L = s.ct.thread g l := by simp [State.cth, Team.threadAt, hp]
    rw [hth] at hst ⊢
    have hf := retire_fold s.cur.who s.cur.pc s.cur.level (s.now + max x.stall.toNat 1)
      (fun M => (tgt M).getD (s.cur.pc + w64 s.cur.len)) g l s.path s.ct hst.1 hst.2.1 hst.2.2
    rw [State.retireTo_eq]
    have hct := State.ct_modCt s (fun t => s.path.foldl (fun t L => t.modThreadAt s.cur.who L
      (retireThread s.cur.pc s.cur.level (s.now + max x.stall.toNat 1) ((tgt L).getD (s.cur.pc + w64 s.cur.len)))) t)
      (fun t => foldl_id _ (fun _ _ => by simp) _ _) hi.team
    have hc : ∀ f, (s.modCt f).cth L = (s.modCt f).ct.threadAt s.cur.who L := fun _ => rfl
    rw [hc, hct]
    have hpl := foldl_place (fun t L => t.modThreadAt s.cur.who L
      (retireThread s.cur.pc s.cur.level (s.now + max x.stall.toNat 1) ((tgt L).getD (s.cur.pc + w64 s.cur.len)))) s.cur.who L
      (fun _ _ => by simp) s.path s.ct
    simp only [Team.threadAt, hpl, hp]
    rcases hf with ⟨hno, _⟩ | ⟨M, hM, hMp, hM2⟩
    · exact absurd hp (hno L hL)
    · exact ⟨M, hM, by simp only [State.sameHome, hp, hMp], hM2⟩

/-- After updates that left threads alone, every thread goes on (R61, R62). -/
theorem State.retireTo_moved {s s' : State} (hi : Issuing s) (hq : Quiet s s') (x : XHead) (tgt : Nat → Option Dword) :
    MovedTo s (s'.retireTo x tgt) x tgt := by
  intro L hL
  obtain ⟨M, hM, hs, he⟩ := State.retireTo_cth (hq.issuing hi) x tgt (hq.path.symm ▸ hL)
  have hst := hi.path L hL
  rw [he, hq.cth]
  refine ⟨⟨M, hq.path ▸ hM, ?_, by simp [State.nextPc, hq.cur]⟩, by simp [hq.now], hst.1, hst.2.2⟩
  simpa only [State.sameHome, hq.cur, hq.place] using hs

theorem State.retire_moved {s s' : State} (hi : Issuing s) (hq : Quiet s s') (x : XHead) : Moved s (s'.retire x) x := by
  intro L hL
  obtain ⟨⟨M, _, _, h⟩, h2⟩ := State.retireTo_moved hi hq x (fun _ => none) L hL
  exact ⟨h, h2⟩

/-! ### Ports -/

/-- Streams alone of a group differ. -/
def StreamsOnly (f : Group → Group) : Prop := ∀ g, { f g with streams := g.streams } = g

theorem StreamsOnly.threads {f : Group → Group} (h : StreamsOnly f) (g : Group) : (f g).threads = g.threads := by
  simpa using congrArg Group.threads (h g)
theorem StreamsOnly.id {f : Group → Group} (h : StreamsOnly f) (g : Group) : (f g).id = g.id := by
  simpa using congrArg Group.id (h g)
theorem StreamsOnly.pos {f : Group → Group} (h : StreamsOnly f) (g : Group) : (f g).pos = g.pos := by
  simpa using congrArg Group.pos (h g)

theorem Team.thread_modActor (t : Team) (a : Actor) {f : Group → Group} (h : ∀ g, (f g).threads = g.threads) (g l : Nat) :
    (t.modActor a f).thread g l = t.thread g l := by
  have key : ∀ n, (t.modGroupAt n f).thread g l = t.thread g l := by
    intro n
    unfold Team.thread Team.modGroupAt
    by_cases hg : g = n
    · subst hg
      by_cases hh : Team_hasGroup t g
      · rw [Team.groupAt_setGroupAt t g _ hh, h]
      · have : (t.setGroupAt g (f (t.groupAt g))).groupAt g = t.groupAt g := by
          unfold Team_hasGroup at hh
          simp only [Team.setGroupAt, Team.groupAt]
          split
          · cases hl : t.lead
            · simp
            · exact absurd (Or.inl ⟨‹_›, by simp [hl]⟩) hh
          · have : ¬ g < t.groups.length := fun hx => hh (Or.inr ⟨‹_›, hx⟩)
            simp [List.getD, this]
        rw [this]
    · rw [Team.groupAt_setGroupAt_ne t _ hg]
  cases a with
  | grp n => exact key n
  | lead => exact key leadGrp
  | conj k => rfl

theorem Team.placeOpt_modActor (t : Team) (a : Actor) {f : Group → Group} (hid : ∀ g, (f g).id = g.id) (hpos : ∀ g, (f g).pos = g.pos)
    (b : Actor) (L : Nat) : (t.modActor a f).place? b L = t.place? b L := by
  cases b with
  | grp n => rfl
  | lead => rfl
  | conj j =>
    cases a with
    | grp n => simp [Team.modActor, Team.place?]
    | lead => simp [Team.modActor, Team.place?]
    | conj k =>
      simp only [Team.modActor, Team.place?]
      rw [find?_mapIf _ _ _ _ (fun x => by simp [hid])]
      cases t.conj.find? (fun c => decide (c.id = j)) with
      | none => rfl
      | some c => simp only [Option.map_some, Option.getD_some]; split <;> simp [hpos]

theorem Quiet.modCg (s : State) {f : Group → Group} (hid : ∀ g, (f g).id = g.id) (hpos : ∀ g, (f g).pos = g.pos)
    (ht : ∀ g, (f g).threads = g.threads) : Quiet s (s.modCg f) :=
  Quiet.modCt s _ (fun t => by simp) (fun t L => Team.placeOpt_modActor t _ hid hpos _ L) (fun t g l => Team.thread_modActor t _ ht g l)

theorem StreamsOnly.quiet (s : State) {f : Group → Group} (h : StreamsOnly f) : Quiet s (s.modCg f) :=
  Quiet.modCg s h.id h.pos h.threads

theorem streamsOnly_fold (f : Nat → Stream → Stream) (ks : List Nat) :
    StreamsOnly fun g => ks.foldl (fun g k => g.setStream k (f k (g.stream k))) g := by
  intro g
  have key : ∀ (ks : List Nat) (h : Group), { h with streams := g.streams } = g →
      { ks.foldl (fun g k => g.setStream k (f k (g.stream k))) h with streams := g.streams } = g := by
    intro ks
    induction ks with
    | nil => intro h hh; exact hh
    | cons k r ih => intro h hh; exact ih _ hh
  exact key ks g rfl

/-- A known time leaves threads and places alone. -/
theorem Quiet.noteDone (s : State) (who : Actor) (grp t : Nat) (y : Bool) : Quiet s (s.noteDone s.cur.team who grp t y) := by
  have hid : ∀ n (u : Team), (u.modGroupAt n (Group_done t y)).id = u.id := fun _ _ => by simp
  have hpl : ∀ a (u : Team) b L, (u.modActor a (Group_done t y)).place? b L = u.place? b L := fun a u b L =>
    Team.placeOpt_modActor u a (f := Group_done t y) (fun _ => rfl) (fun _ => rfl) b L
  have hth : ∀ a (u : Team) g l, (u.modActor a (Group_done t y)).thread g l = u.thread g l := fun a u g l =>
    Team.thread_modActor u a (f := Group_done t y) (fun _ => rfl) g l
  have hf : ∀ (ns : List Nat) (u : Team) g l, (ns.foldl (fun tm n => tm.modGroupAt n (Group_done t y)) u).thread g l = u.thread g l := by
    intro ns
    induction ns with
    | nil => intro u g l; rfl
    | cons n r ih => intro u g l; rw [List.foldl_cons, ih]; exact hth (.grp n) u g l
  refine Quiet.modCt s _ (fun u => ?_) (fun u L => ?_) (fun u g l => ?_)
  · cases who with
    | conj k => exact (foldl_id _ (fun _ _ => by simp) _ _).trans (by simp)
    | grp n => exact hid n u
    | lead => exact hid leadGrp u
  · cases who with
    | conj k => exact (foldl_place _ _ _ (fun v n => hpl (.grp n) v _ _) _ _).trans (hpl (.conj k) u _ _)
    | grp n => exact hpl (.grp n) u _ _
    | lead => exact hpl .lead u _ _
  · cases who with
    | conj k => exact (hf _ _ g l).trans (hth (.conj k) u g l)
    | grp n => exact hth (.grp n) u g l
    | lead => exact hth .lead u g l

/-- The delivery of elements notes their times. -/
theorem Quiet.delivered (s : State) (ks ls : List Nat) : Quiet s (s.delivered ks ls) := by
  unfold State.delivered
  generalize ks.flatMap (fun k => ls.filterMap fun L => s.portTime k L) = ts
  cases ts with
  | nil => exact Quiet.refl s
  | cons t r => exact Quiet.noteDone s _ _ _ _

/-- Reads of ports that hold no fault take their elements, in every active lane. -/
theorem State.takePorts_ok {s : State} {x : XHead} {srcs : List OpdB} (hp : PortsOk s x srcs) (hk : portsOf srcs ≠ []) :
    let s2 := (s.delivered (portsOf srcs) (s.active x)).modCg fun g => (portsOf srcs).foldl (fun g k =>
      g.setStream k (Stream_take { g.stream k with buf := (g.stream k).buf.filter fun _ => true } (s.active x) (Team_alive s.ct s.cur.who))) g
    s.takePorts (portsOf srcs) (s.active x) = ((s.active x).filter fun L => (s2.cth L).st = .run, s2) := by
  have hbad : s.portBad (portsOf srcs) (s.active x) = [] := by
    unfold State.portBad
    rw [List.filterMap_eq_nil_iff]
    intro L hL
    have : List.filterMap (fun k => s.portFlt k L) (portsOf srcs) = [] := by
      rw [List.filterMap_eq_nil_iff]; intro k hk'; exact hp k hk' L hL
    rw [this]; rfl
  have htf : ∀ (s1 : State) (c : IssueCtx), s1.takeFault c [] {} = s1 := by
    intro s1 c; simp [State.takeFault]
  simp only [State.takePorts, if_neg hk, State.pullPorts, hbad, List.all_nil, List.filter_true, List.map_nil, List.any_nil, Bool.not_false, htf]

/-- Reads of ports that hold no fault: every active lane goes on, and threads and places stay. -/
theorem State.takePorts_quiet {s : State} (hi : Issuing s) {x : XHead} {srcs : List OpdB} (hp : PortsOk s x srcs) :
    (s.takePorts (portsOf srcs) (s.active x)).1 = s.active x ∧ Quiet s (s.takePorts (portsOf srcs) (s.active x)).2 := by
  by_cases hk : portsOf srcs = []
  · unfold State.takePorts; rw [if_pos hk]; exact ⟨rfl, Quiet.refl s⟩
  · have hq := (Quiet.delivered s (portsOf srcs) (s.active x)).trans (StreamsOnly.quiet _ (streamsOnly_fold (fun k x1 => Stream_take { x1 with buf := x1.buf.filter fun _ => true } (s.active x) (Team_alive s.ct s.cur.who)) (portsOf srcs)))
    rw [State.takePorts_ok hp hk]
    refine ⟨?_, hq⟩
    show List.filter _ (s.active x) = s.active x
    rw [List.filter_eq_self]
    intro L hL
    have hL' : L ∈ s.path := (List.mem_filter.mp hL).1
    have := hq.cth L
    simp only [decide_eq_true_eq]
    refine (congrArg Thread.st (this)).trans (hi.path L hL').1

/-! ### Results of fixed latency -/

theorem State.ct_addPipe {s : State} (h : (s.team? s.cur.team).isSome = true) (ws : List PipeW) :
    (s.addPipe ws).ct = { s.ct with pipe := s.ct.pipe ++ ws } := State.ct_modCt s _ (fun _ => rfl) h

theorem foldl_pipe {α : Type} (f : Team → α → Team) (h : ∀ t x, (f t x).pipe = t.pipe) (l : List α) (t : Team) :
    (l.foldl f t).pipe = t.pipe := by
  induction l generalizing t with
  | nil => rfl
  | cons x r ih => rw [List.foldl_cons, ih, h]

theorem State.retireTo_pipe {s : State} (h : (s.team? s.cur.team).isSome = true) (x : XHead) (tgt : Nat → Option Dword) :
    (s.retireTo x tgt).ct.pipe = s.ct.pipe := by
  rw [State.retireTo_eq, State.ct_modCt s _ (fun t => foldl_id _ (fun _ _ => by simp) _ _) h]
  exact foldl_pipe _ (fun _ _ => by simp) _ _

@[simp] theorem State.retireTo_pends (s : State) (x : XHead) (tgt : Nat → Option Dword) : (s.retireTo x tgt).pends = s.pends := rfl
@[simp] theorem State.retireTo_mem (s : State) (x : XHead) (tgt : Nat → Option Dword) : (s.retireTo x tgt).mem = s.mem := rfl
@[simp] theorem State.retire_mem (s : State) (x : XHead) : (s.retire x).mem = s.mem := rfl
@[simp] theorem State.addPipe_mem (s : State) (ws : List PipeW) : (s.addPipe ws).mem = s.mem := rfl

theorem Quiet.homeOf {s s' : State} (h : Quiet s s') (L : Nat) : Team_homeOf s'.ct s'.cur.who L = Team_homeOf s.ct s.cur.who L := by
  simp only [Team_homeOf, h.cur, h.place]

/-- Each word of a result is among its writes. -/
theorem State.mem_pipeWs {s s' : State} (hq : Quiet s s') (id lat L cls no : Nat) (vs : List Word) (k : Nat) (w : Word)
    (h : vs[k]? = some w) : ∃ p ∈ s'.pipeWs id lat L cls no vs, p.due = s.now + lat ∧ p.cls = cls ∧ p.no = no + k ∧ p.who = s.cur.who ∧
      (p.grp, p.lane) = Team_homeOf s.ct s.cur.who L ∧ p.val = w := by
  obtain ⟨hk, hw⟩ := List.getElem?_eq_some_iff.mp h
  refine ⟨_, List.mem_map_of_mem (List.mem_iff_getElem.mpr ⟨k, by simpa using hk, rfl⟩), ?_⟩
  simp [hq.now, hq.cur, ← hw, Team_homeOf, hq.place]

theorem Due.of_sub {s t : State} {lat cls no L : Nat} {vs : List Word} {ws : List PipeW} {s' : State} {id : Nat} (hq : Quiet s s')
    (hw : ws = s'.pipeWs id lat L cls no vs) (h : ∀ p ∈ ws, p ∈ t.ct.pipe) : Due s t lat cls no L vs := by
  intro k w hk
  obtain ⟨p, hp, h2⟩ := State.mem_pipeWs hq id lat L cls no vs k w hk
  exact ⟨p, h p (hw ▸ hp), h2⟩

/-- AN OPERATION ON REGISTERS of fixed latency (R33, R61, R62): its results are on their way and its path has moved. -/
theorem State.execAlu_done {s : State} (hi : Issuing s) {x : XHead} {lat : Nat} {d : Opd} {srcs : List OpdB} {f : Nat → List Word}
    (hp : PortsOk s x srcs) : DueResult s (s.execAlu x lat d srcs f) x lat d f ∧ Moved s (s.execAlu x lat d srcs f) x := by
  obtain ⟨h1, hq⟩ := State.takePorts_quiet hi hp
  unfold State.execAlu
  simp only []
  generalize hr : s.takePorts (portsOf srcs) (s.active x) = r at h1 hq ⊢
  rw [h1]
  have hi2 := hq.issuing hi
  have pipe : ∀ {s' : State} (ws : List PipeW), Quiet s s' → ∀ p ∈ ws, p ∈ ((s'.addPipe ws).retire x).ct.pipe := by
    intro s' ws h p hpw
    have hi3 := h.issuing hi
    have hi4 := (Quiet.addPipe s' ws).issuing hi3
    unfold State.retire
    rw [State.retireTo_pipe hi4.team, State.ct_addPipe hi3.team]
    exact List.mem_append_right _ hpw
  unfold DueResult
  cases hd : d.cls with
  | v =>
    simp only [State.pushRes, hd]
    refine ⟨fun L hL => Due.of_sub hq rfl (fun p hp => pipe _ hq p (List.mem_flatMap.mpr ⟨L, hL, hp⟩)), ?_⟩
    exact State.retire_moved hi (hq.trans (Quiet.addPipe _ _)) x
  | f =>
    simp only [State.pushRes, hd]
    refine ⟨fun L hL => Due.of_sub hq rfl (fun p hp => pipe _ hq p (List.mem_flatMap.mpr ⟨L, hL, hp⟩)), ?_⟩
    exact State.retire_moved hi (hq.trans (Quiet.addPipe _ _)) x
  | g =>
    simp only [State.pushRes, hd]
    cases ha : (s.active x).getLast? with
    | none => exact ⟨by simp, State.retire_moved hi hq x⟩
    | some M =>
      refine ⟨fun L hL => ?_, State.retire_moved hi (hq.trans (Quiet.addPipe _ _)) x⟩
      cases hL
      exact Due.of_sub hq rfl (fun p hp => pipe _ hq p hp)
  | t =>
    simp only [State.pushRes, hd]
    cases ha : (s.active x).getLast? with
    | none => exact ⟨by simp, State.retire_moved hi hq x⟩
    | some M =>
      have hq2 := hq.trans (Quiet.fresh r.2)
      refine ⟨fun L hL => ?_, State.retire_moved hi (hq2.trans (Quiet.addPipe _ _)) x⟩
      cases hL
      exact Due.of_sub hq2 rfl (fun p hp => pipe _ hq2 p hp)

/-- A compare: the same with a predicate destination. -/
theorem State.execCmp_done {s : State} (hi : Issuing s) {x : XHead} {lat : Nat} {p : BitVec 3} {srcs : List OpdB} {f : Nat → Bool}
    (hp : PortsOk s x srcs) : DuePred s (s.execCmp x lat p srcs f) x lat p f ∧ Moved s (s.execCmp x lat p srcs f) x := by
  obtain ⟨h1, hq⟩ := State.takePorts_quiet hi hp
  unfold State.execCmp
  simp only []
  generalize hr : s.takePorts (portsOf srcs) (s.active x) = r at h1 hq ⊢
  rw [h1]
  have hi3 := hq.issuing hi
  refine ⟨fun L hL => Due.of_sub (id := 0) hq rfl (fun q hq' => ?_), State.retire_moved hi (hq.trans (Quiet.addPipe _ _)) x⟩
  have hi4 := (Quiet.addPipe r.2 ((s.active x ++ s.helpers x).flatMap fun L => r.2.pipeWs 0 lat L 3 p.toNat [if f L then 1 else 0])).issuing hi3
  unfold State.retire State.pushPred
  rw [State.retireTo_pipe hi4.team, State.ct_addPipe hi3.team]
  exact List.mem_append_right _ (List.mem_flatMap.mpr ⟨L, hL, hq'⟩)

/-! ### Scoreboarded results -/

theorem foldl_pends_mono {α : Type} (f : State → α → State) (h : ∀ s x p, p ∈ s.pends → p ∈ (f s x).pends) (l : List α) (s : State)
    (p : Pend) (hp : p ∈ s.pends) : p ∈ (l.foldl f s).pends := by
  induction l generalizing s with
  | nil => exact hp
  | cons x r ih => exact ih _ (h _ _ _ hp)

/-- Each lane of a scoreboarded result has its entry. -/
theorem State.pendLanes_held {s s' : State} (hq : Quiet s s') (cls no : Nat) (xl : Bool) (f : Nat → List Word) (lanes : List Nat) (L : Nat)
    (hL : L ∈ lanes) (x : XHead) : Held s ((lanes.foldl (fun s1 L =>
      (s1.addPend fun id => { s'.mkPend L cls no (f L).length (f L).length id with vals := (f L).map some, xlane := xl }).2) s').retire x)
      cls no L (f L) := by
  have mono : ∀ (s : State) (L : Nat) (p : Pend), p ∈ s.pends → p ∈ ((s.addPend fun id =>
      { s'.mkPend L cls no (f L).length (f L).length id with vals := (f L).map some, xlane := xl }).2).pends := by
    intro s L p hp; exact List.mem_append_left _ hp
  have key : ∀ (lanes : List Nat) (s0 : State), L ∈ lanes → ∃ p ∈ (lanes.foldl (fun s1 L =>
      (s1.addPend fun id => { s'.mkPend L cls no (f L).length (f L).length id with vals := (f L).map some, xlane := xl }).2) s0).pends,
      p.team = s.cur.team ∧ p.who = s.cur.who ∧ p.cls = cls ∧ p.no = no ∧ p.cnt = (f L).length ∧
      (p.grp, p.lane) = Team_homeOf s.ct s.cur.who L ∧ p.vals = (f L).map some := by
    intro lanes
    induction lanes with
    | nil => intro _ h; simp at h
    | cons M r ih =>
      intro s0 h
      by_cases hM : M = L
      · subst hM
        refine ⟨_, foldl_pends_mono _ (fun s x p hp => mono s x p hp) r _ _ (List.mem_append_right _ (List.mem_singleton.mpr rfl)), ?_⟩
        simp [State.mkPend, hq.cur, Team_homeOf, hq.place]
      · rcases List.mem_cons.mp h with h | h
        · exact absurd h.symm hM
        · exact ih _ h
  exact key lanes s' hL

theorem Quiet.pendRes (s : State) (act help : List Nat) (d : Opd) (xl : Bool) (f : Nat → List Word) :
    Quiet s (s.pendRes act help d xl f) := Quiet.foldl _ (fun s _ => Quiet.addPend s _) _ s

/-- A SCOREBOARDED RESULT (R62): its entries are held, threads as they stood. -/
theorem State.pendRes_held {s s' : State} (hq : Quiet s s') (x : XHead) (d : Opd) (xl : Bool) (f : Nat → List Word) :
    HeldResult s ((s'.pendRes (s.active x) (s.helpers x) d xl f).retire x) x d f := by
  unfold HeldResult State.pendRes
  cases hd : d.cls with
  | v => intro L hL; exact State.pendLanes_held hq 0 d.no.toNat xl f (s.active x ++ s.helpers x) L hL x
  | g => intro L hL; exact State.pendLanes_held hq 1 d.no.toNat xl f _ L (by simp [hL]) x
  | t => intro L hL; exact State.pendLanes_held hq 2 d.no.toNat xl f _ L (by simp [hL]) x
  | f => intro L hL; exact State.pendLanes_held hq 0 d.no.toNat xl f _ L (by simp [hL]) x

/-- A SPECIAL FUNCTION (R62, R141): its results are held, and its path has moved. -/
theorem State.execSfu_done {s : State} (hi : Issuing s) {x : XHead} {d : Opd} {srcs : List OpdB} {f : Nat → List Word}
    (hp : PortsOk s x srcs) : HeldResult s (s.execSfu x d srcs f) x d f ∧ Moved s (s.execSfu x d srcs f) x := by
  obtain ⟨h1, hq⟩ := State.takePorts_quiet hi hp
  unfold State.execSfu
  simp only []
  rw [h1]
  exact ⟨State.pendRes_held hq x d false f, State.retire_moved hi (hq.trans (Quiet.pendRes _ _ _ _ _ _)) x⟩

/-- A CROSS-LANE INSTRUCTION (R62, R124, R160): each active lane, and each helper lane where they take part, has its
result held. -/
theorem State.execX_done {s : State} (hi : Issuing s) {x : XHead} {d : BitVec 7} {srcs : List OpdB} {help : Bool}
    {f : List Nat → Nat → List Word} (hp : PortsOk s x srcs) : ∃ t, s.execX x d srcs help f = .next t ∧
      HeldLanes s t (s.active x ++ if help then s.helpers x else []) 0 d.toNat (f (s.active x)) ∧ Moved s t x := by
  obtain ⟨h1, hq⟩ := State.takePorts_quiet hi hp
  refine ⟨_, rfl, ?_⟩
  rw [h1]
  exact ⟨fun L hL => State.pendLanes_held hq 0 d.toNat true _ _ L hL x, State.retire_moved hi (hq.trans (Quiet.pendRes _ _ _ _ _ _)) x⟩

theorem Quiet.pendPred (s : State) (ls : List Nat) (p : BitVec 3) (xl : Bool) (f : Nat → Bool) : Quiet s (s.pendPred ls p xl f) :=
  Quiet.foldl _ (fun s _ => Quiet.addPend s _) _ s

/-- SCOREBOARDED PREDICATES of some lanes. -/
theorem State.pendPred_held {s s' : State} (hq : Quiet s s') (x : XHead) (ls : List Nat) (p : BitVec 3) (xl : Bool) (f : Nat → Bool) :
    HeldLanes s ((s'.pendPred ls p xl f).retire x) ls 3 p.toNat fun L => [if f L then 1 else 0] := fun L hL =>
  State.pendLanes_held hq 3 p.toNat xl (fun L => [if f L then 1 else 0]) ls L hL x

end Sys2Proof.Machine
end

