-- ==== Sys2Proof/Laws/Integer.lean ====
section
/-! SUPPORT. The integer meanings against the bit-vector results of `Claims`: exact integers narrowed at the end are
the arithmetic of words. -/

namespace Sys2Proof.Machine

/-! ### Reading and narrowing -/

theorem low_zext (w : Word) : (zext32 w).extractLsb' 0 32 = w := by
  apply BitVec.eq_of_toNat_eq
  simp only [zext32, BitVec.extractLsb'_toNat, Nat.shiftRight_zero, BitVec.truncate_eq_setWidth, BitVec.toNat_setWidth]
  have := w.isLt
  omega

theorem zext_toNat (w : Word) : (zext32 w).toNat = w.toNat := by
  simp only [zext32, BitVec.truncate_eq_setWidth, BitVec.toNat_setWidth]
  have := w.isLt
  omega

theorem tyInt_word (ty : Ty) (h : ty.wide = false) (w : Word) : tyInt ty (zext32 w) = bvNum ty.signed w := by
  cases ty <;> simp_all only [Ty.wide, Ty.signed, tyInt, bvNum, low_zext, zext_toNat, Bool.false_eq_true, if_true, if_false, reduceCtorEq]

theorem tyInt_pair (ty : Ty) (h : ty.wide = true) (v : Dword) : tyInt ty v = bvNum ty.signed v := by
  cases ty <;> simp_all [Ty.wide, Ty.signed, tyInt, bvNum]

theorem srcTy_word (s : State) (b : OpdB) (L : Nat) : s.srcTy false b L = zext32 (s.src1 b L) := rfl
theorem srcTy_pair (s : State) (b : OpdB) (L : Nat) : s.srcTy true b L = s.src2 b L := rfl
@[simp] theorem State.src1_reg (s : State) (o : Opd) (L : Nat) : s.src1 (.reg o) L = s.reg1 o L := rfl
@[simp] theorem State.src2_reg (s : State) (o : Opd) (L : Nat) : s.src2 (.reg o) L = s.reg2 o L := rfl

theorem resWords_word (w : Word) : resWords false (zext32 w) = [w] := by simp [resWords, low_zext]

/-- What `.SAT` leaves of an exact result. -/
def satOf (ty : Ty) (sat : Bool) (e : Int) : Int := if sat then min (max e (tyMin ty)) (tyMax ty) else e

theorem resWords_narrow (ty : Ty) (sat : Bool) (e : Int) :
    resWords ty.wide (narrow ty sat e) = bothW ty (BitVec.ofInt 64 (satOf ty sat e)) (BitVec.ofInt 32 (satOf ty sat e)) := by
  cases h : ty.wide
  · simp only [narrow, resWords, bothW, satOf, h, Bool.false_eq_true, if_false]
    exact congrArg (fun w => [w]) (low_zext _)
  · simp [narrow, resWords, bothW, satOf, h, lo, hi]

theorem satOf_clamp (ty : Ty) (e : Int) : BitVec.ofInt (tyBits ty) (satOf ty true e) = bvClamp ty.signed (tyBits ty) e := by
  unfold satOf bvClamp
  congr 1
  cases h : ty.wide <;> cases h2 : ty.signed <;> simp [tyMin, tyMax, tyBits, h, h2] <;> split <;> (try split) <;> omega

theorem ofInt_num (sg : Bool) {w : Nat} (x : BitVec w) : BitVec.ofInt w (bvNum sg x) = x := by cases sg <;> simp [bvNum]

theorem ofInt_add_num (sg : Bool) {w : Nat} (x y : BitVec w) : BitVec.ofInt w (bvNum sg x + bvNum sg y) = x + y := by
  rw [BitVec.ofInt_add, ofInt_num, ofInt_num]
theorem ofInt_mul_num (sg : Bool) {w : Nat} (x y : BitVec w) : BitVec.ofInt w (bvNum sg x * bvNum sg y) = x * y := by
  rw [BitVec.ofInt_mul, ofInt_num, ofInt_num]
theorem ofInt_neg_num (sg : Bool) {w : Nat} (x : BitVec w) : BitVec.ofInt w (-bvNum sg x) = -x := by
  rw [BitVec.ofInt_neg, ofInt_num]
theorem ofInt_sub_num (sg : Bool) {w : Nat} (x y : BitVec w) : BitVec.ofInt w (bvNum sg x - bvNum sg y) = x - y := by
  rw [Int.sub_eq_add_neg, BitVec.ofInt_add, ofInt_num, BitVec.ofInt_neg, ofInt_num, BitVec.sub_eq_add_neg]

/-- An exact integer result of two sources, as words. -/
theorem arith_words (ty : Ty) (sat : Bool) (s : State) (a : Opd) (b : OpdB) (L : Nat) (e : Int → Int → Int)
    (g : (w : Nat) → BitVec w → BitVec w → BitVec w)
    (h : ∀ w (x y : BitVec w), BitVec.ofInt w (e (bvNum ty.signed x) (bvNum ty.signed y)) = g w x y) :
    resWords ty.wide (narrow ty sat (e (tyInt ty (s.srcTy ty.wide (.reg a) L)) (tyInt ty (s.srcTy ty.wide b L)))) =
      bothW ty (bvArith ty.signed sat e g 64 (s.reg2 a L) (s.src2 b L)) (bvArith ty.signed sat e g 32 (s.reg1 a L) (s.src1 b L)) := by
  rw [resWords_narrow]
  cases hw : ty.wide with
  | true =>
    have hc := satOf_clamp ty
    rw [show tyBits ty = 64 by simp [tyBits, hw]] at hc
    simp only [srcTy_pair, tyInt_pair ty hw, bothW, hw, if_true, State.src2_reg]
    cases sat with
    | true => rw [hc]; rfl
    | false => simp only [satOf, bvArith, Bool.false_eq_true, if_false, h]
  | false =>
    have hc := satOf_clamp ty
    rw [show tyBits ty = 32 by simp [tyBits, hw]] at hc
    simp only [srcTy_word, tyInt_word ty hw, bothW, hw, Bool.false_eq_true, if_false, State.src1_reg]
    cases sat with
    | true => rw [hc]; rfl
    | false => simp only [satOf, bvArith, Bool.false_eq_true, if_false, h]

/-- The same without saturation. -/
theorem arith_words' (ty : Ty) (s : State) (a : Opd) (b : OpdB) (L : Nat) (e : Int → Int → Int)
    (g : (w : Nat) → BitVec w → BitVec w → BitVec w)
    (h : ∀ w (x y : BitVec w), (w = 32 ∨ w = 64) → (w = 64 ↔ ty.wide = true) →
      BitVec.ofInt w (e (bvNum ty.signed x) (bvNum ty.signed y)) = g w x y) :
    resWords ty.wide (narrow ty false (e (tyInt ty (s.srcTy ty.wide (.reg a) L)) (tyInt ty (s.srcTy ty.wide b L)))) =
      bothW ty (g 64 (s.reg2 a L) (s.src2 b L)) (g 32 (s.reg1 a L) (s.src1 b L)) := by
  rw [resWords_narrow]
  cases hw : ty.wide with
  | true =>
    simp only [srcTy_pair, tyInt_pair ty hw, bothW, hw, if_true, State.src2_reg, satOf, Bool.false_eq_true, if_false]
    rw [h 64 _ _ (Or.inr rfl) (by simp [hw])]
  | false =>
    simp only [srcTy_word, tyInt_word ty hw, bothW, hw, Bool.false_eq_true, if_false, State.src1_reg, satOf]
    rw [h 32 _ _ (Or.inl rfl) (by simp [hw])]

/-! ### Single operations -/

theorem emod_mul_self (P m : Int) (h : 0 < m) : P % (m * m) = P % m + m * (P / m % m) := by
  have h1 := Int.mul_ediv_add_emod P m
  have h2 := Int.mul_ediv_add_emod (P / m) m
  have a1 := Int.emod_nonneg P (ne_of_gt h)
  have a2 := Int.emod_lt_of_pos P h
  have b1 := Int.emod_nonneg (P / m) (ne_of_gt h)
  have b2 := Int.emod_lt_of_pos (P / m) h
  generalize P % m = r at *
  generalize P / m % m = r' at *
  generalize P / m / m = q at *
  have e : P = (r + m * r') + (m * m) * q := by rw [← h1, ← h2]; ring
  rw [e, Int.add_mul_emod_self_left]
  exact Int.emod_eq_of_lt (by positivity) (by nlinarith)

theorem extract_ofInt (w : Nat) (P : Int) : (BitVec.ofInt (2 * w) P).extractLsb' w w = BitVec.ofInt w (P / ((2 ^ w : Nat) : Int)) := by
  apply BitVec.eq_of_toNat_eq
  simp only [BitVec.extractLsb'_toNat, BitVec.toNat_ofInt, Nat.shiftRight_eq_div_pow]
  have h2 : (2 ^ (2 * w) : Nat) = 2 ^ w * 2 ^ w := by rw [Nat.two_mul, Nat.pow_add]
  rw [h2]
  have hp : (0 : Int) < ((2 ^ w : Nat) : Int) := by exact_mod_cast Nat.two_pow_pos w
  generalize ((2 ^ w : Nat)) = m at *
  have e : P % ((m * m : Nat) : Int) = P % m + m * (P / m % m) := by
    push_cast
    exact emod_mul_self P m hp
  have n1 : 0 ≤ P % (m : Int) := Int.emod_nonneg _ (by omega)
  have n2 : 0 ≤ P / (m : Int) % (m : Int) := Int.emod_nonneg _ (by omega)
  have l1 : P % (m : Int) < m := Int.emod_lt_of_pos _ hp
  have l2 : P / (m : Int) % (m : Int) < m := Int.emod_lt_of_pos _ hp
  rw [e]
  obtain ⟨a, ha⟩ := Int.eq_ofNat_of_zero_le n1
  obtain ⟨b, hb⟩ := Int.eq_ofNat_of_zero_le n2
  rw [ha] at l1 ⊢
  rw [hb] at l2 ⊢
  rw [show ((a : Int) + (m : Int) * (b : Int)) = ((a + m * b : Nat) : Int) by push_cast; rfl]
  simp only [Int.toNat_natCast]
  rw [Nat.add_mul_div_left _ _ (by omega), Nat.div_eq_of_lt (by omega), Nat.zero_add, Nat.mod_eq_of_lt (by omega)]

theorem bvMulHigh_eq (sg : Bool) {w : Nat} (x y : BitVec w) :
    BitVec.ofInt w (bvNum sg x * bvNum sg y / ((2 ^ w : Nat) : Int)) = bvMulHigh sg x y := by
  rw [← extract_ofInt, BitVec.ofInt_mul]
  cases sg with
  | true => rfl
  | false =>
    simp only [bvNum, Bool.false_eq_true, if_false, bvMulHigh, BitVec.ofInt_natCast, BitVec.truncate_eq_setWidth]
    have h : ∀ z : BitVec w, BitVec.ofNat (2 * w) z.toNat = z.setWidth (2 * w) := fun z => by
      apply BitVec.eq_of_toNat_eq; simp
    rw [h, h]

theorem bvLt_eq (sg : Bool) {w : Nat} (x y : BitVec w) : bvLt sg x y = decide (bvNum sg x < bvNum sg y) := by
  cases sg
  · simp [bvLt, bvNum, BitVec.ult]
  · simp [bvLt, bvNum, BitVec.slt]

theorem bvMin_eq (sg : Bool) {w : Nat} (x y : BitVec w) :
    BitVec.ofInt w (min (bvNum sg x) (bvNum sg y)) = if bvLt sg y x then y else x := by
  rw [bvLt_eq]
  by_cases h : bvNum sg y < bvNum sg x
  · simp only [h, decide_true, if_true]; rw [min_eq_right (le_of_lt h), ofInt_num]
  · simp only [h, decide_false, Bool.false_eq_true, if_false]; rw [min_eq_left (not_lt.mp h), ofInt_num]

theorem bvMax_eq (sg : Bool) {w : Nat} (x y : BitVec w) :
    BitVec.ofInt w (max (bvNum sg x) (bvNum sg y)) = if bvLt sg x y then y else x := by
  rw [bvLt_eq]
  by_cases h : bvNum sg x < bvNum sg y
  · simp only [h, decide_true, if_true]; rw [max_eq_right (le_of_lt h), ofInt_num]
  · simp only [h, decide_false, Bool.false_eq_true, if_false]; rw [max_eq_left (not_lt.mp h), ofInt_num]

theorem bvAbs_eq (sg : Bool) {w : Nat} (x : BitVec w) :
    BitVec.ofInt w (if bvNum sg x < 0 then -bvNum sg x else bvNum sg x) = if sg && x.msb then -x else x := by
  cases sg with
  | false =>
    have h : ¬ bvNum false x < 0 := by simp [bvNum]
    simp only [h, if_false, Bool.false_and, Bool.false_eq_true]
    exact ofInt_num _ _
  | true =>
    have h : (bvNum true x < 0) ↔ x.msb = true := by
      simp only [bvNum, if_true]
      rw [BitVec.msb_eq_toInt]; simp
    rw [show (if bvNum true x < 0 then -bvNum true x else bvNum true x) = if x.msb = true then -bvNum true x else bvNum true x from
      if_congr h rfl rfl]
    by_cases hm : x.msb = true
    · simp only [if_true, hm, Bool.and_self]
      exact ofInt_neg_num _ _
    · simp only [if_false, hm, Bool.and_false, Bool.false_eq_true]
      exact ofInt_num _ _

theorem bvShl_eq {w : Nat} (x : BitVec w) (n : Nat) :
    (if n ≥ w then (0 : BitVec w) else BitVec.ofInt w ((x.toNat * 2 ^ n : Nat) : Int)) = x <<< n := by
  split
  · rename_i h
    exact (BitVec.shiftLeft_eq_zero h).symm
  · rw [BitVec.ofInt_natCast]
    apply BitVec.eq_of_toNat_eq
    simp [Nat.shiftLeft_eq]

theorem bvShr_eq {w : Nat} (x : BitVec w) (n : Nat) :
    (if n ≥ w then (0 : BitVec w) else BitVec.ofInt w ((x.toNat : Int) / ((2 ^ n : Nat) : Int))) = x >>> n := by
  split
  · rename_i h
    exact (BitVec.ushiftRight_eq_zero h).symm
  · rw [← Int.natCast_ediv, BitVec.ofInt_natCast]
    apply BitVec.eq_of_toNat_eq
    simp only [BitVec.toNat_ofNat, BitVec.toNat_ushiftRight, Nat.shiftRight_eq_div_pow]
    exact Nat.mod_eq_of_lt (lt_of_le_of_lt (Nat.div_le_self _ _) x.isLt)

theorem bvSar_eq {w : Nat} (x : BitVec w) (n : Nat) :
    (if n ≥ w then (if x.toInt < 0 then BitVec.ofInt w (-1) else 0) else BitVec.ofInt w (x.toInt / ((2 ^ n : Nat) : Int))) =
      x.sshiftRight n := by
  rw [BitVec.sshiftRight_eq, Int.shiftRight_eq_div_pow]
  split
  · rename_i h
    have l1 := x.le_toInt
    have l2 := x.toInt_lt
    have hp : (2 : Int) ^ (w - 1) ≤ ((2 ^ n : Nat) : Int) := by
      push_cast
      exact pow_le_pow_right₀ (by omega) (by omega)
    have hq : (0 : Int) < ((2 ^ n : Nat) : Int) := by positivity
    generalize ((2 ^ n : Nat) : Int) = m at *
    split
    · rename_i hn
      congr 1
      symm
      rw [Int.ediv_eq_iff_of_pos hq]
      omega
    · rename_i hn
      rw [Int.ediv_eq_zero_of_lt (by omega) (by omega)]
      simp
  · rfl

theorem bvPop_eq {w : Nat} (x : BitVec w) : popcount x.toNat w = bvPop x := by
  simp [popcount, bvPop, List.countP_eq_length_filter, BitVec.getLsbD]

theorem bvClz_eq {w : Nat} (x : BitVec w) : (if x.toNat = 0 then w else w - 1 - Nat.log2 x.toNat) = bvClz x := by
  unfold bvClz
  have take : ∀ n k, k ≤ n → (∀ i < k, x.getMsbD i = false) → (k = n ∨ x.getMsbD k = true) →
      ((List.range n).takeWhile fun i => !x.getMsbD i).length = k := by
    intro n k hk h1 h2
    obtain ⟨m, rfl⟩ := Nat.exists_eq_add_of_le hk
    rw [List.range_add, List.takeWhile_append_of_pos (fun a ha => by simp [h1 a (List.mem_range.mp ha)])]
    have : ((List.range m).map (k + ·)).takeWhile (fun i => !x.getMsbD i) = [] := by
      cases m with
      | zero => simp
      | succ m =>
        rcases h2 with h2 | h2
        · omega
        · simp [List.range_succ_eq_map, h2]
    simp [this]
  split
  · rename_i h
    have hz : x = 0 := by apply BitVec.eq_of_toNat_eq; simpa using h
    subst hz
    exact (take w w le_rfl (by simp) (Or.inl rfl)).symm
  · rename_i h
    have hl : x.toNat < 2 ^ w := x.isLt
    have h1 : Nat.log2 x.toNat < w := (Nat.log2_lt h).mpr hl
    refine (take w _ (by omega) ?_ (Or.inr ?_)).symm
    · intro i hi
      rw [BitVec.getMsbD]
      simp only [Bool.and_eq_false_iff]
      right
      rw [BitVec.getLsbD]
      apply Nat.testBit_lt_two_pow
      exact (Nat.log2_lt h).mp (by omega)
    · rw [BitVec.getMsbD, BitVec.getLsbD]
      rw [show w - 1 - (w - 1 - x.toNat.log2) = x.toNat.log2 by omega, Nat.testBit_log2 h]
      simp
      omega

/-! ### Fields and reversal -/

theorem fieldOf_eq (ty : Ty) (y : Word) : fieldOf ty y = bvField (tyBits ty) y := by
  have h1 : (y.extractLsb' 0 8).toNat = y.toNat % 256 := by simp
  have h2 : (y.extractLsb' 8 8).toNat = y.toNat / 256 % 256 := by simp [Nat.shiftRight_eq_div_pow]
  simp only [fieldOf, bvField, h1, h2]
  congr 1
  split <;> omega

theorem getLsbD_ofNat' (w n i : Nat) : (BitVec.ofNat w n).getLsbD i = (decide (i < w) && n.testBit i) := by
  simp [BitVec.getLsbD_ofNat]

/-- Bits of a field brought down, with the sign above it. -/
theorem bvBfx_eq (sg : Bool) {w : Nat} (x : BitVec w) (y : Word) :
    (let f := bvField w y
     if f.2 ≤ f.1 then (0 : BitVec w)
     else
       let n := f.2 - f.1
       let v := x.toNat / 2 ^ f.1 % 2 ^ n
       if sg && v / 2 ^ (n - 1) % 2 = 1 then BitVec.ofInt w ((v : Int) - ((2 ^ n : Nat) : Int)) else BitVec.ofInt w (v : Int)) =
      bvBfx sg x y := by
  unfold bvBfx
  have hw : (bvField w y).2 ≤ w := by simp only [bvField]; split <;> omega
  generalize bvField w y = f at *
  obtain ⟨p, q⟩ := f
  simp only at *
  split
  · rfl
  · rename_i h
    have hv : x.toNat / 2 ^ p % 2 ^ (q - p) = (x.extractLsb' p (q - p)).toNat := by
      simp [BitVec.extractLsb'_toNat, Nat.shiftRight_eq_div_pow]
    rw [hv]
    generalize hz : x.extractLsb' p (q - p) = z
    have hb : ∀ i, z.getLsbD i = (decide (i < q - p) && x.getLsbD (p + i)) := by
      intro i; rw [← hz, BitVec.getLsbD_extractLsb']
    have hm : (z.toNat / 2 ^ (q - p - 1) % 2 = 1) ↔ z.msb = true := by
      rw [BitVec.msb_eq_getLsbD_last, BitVec.getLsbD, Nat.testBit_eq_decide_div_mod_eq]; simp
    cases sg with
    | false =>
      simp only [Bool.false_and, Bool.false_eq_true, if_false]
      rw [BitVec.ofInt_natCast]
      apply BitVec.eq_of_getLsbD_eq
      intro i hi
      rw [getLsbD_ofNat', show z.toNat.testBit i = z.getLsbD i from rfl, hb]
      simp only [BitVec.getLsbD_ushiftRight, BitVec.getLsbD_shiftLeft]
      by_cases h1 : i < q - p
      · simp [hi, h1, show w - (q - p) + i < w by omega, show ¬ w - (q - p) + i < w - q by omega,
          show w - (q - p) + i - (w - q) = p + i by omega]
      · simp [hi, h1, show ¬ w - (q - p) + i < w by omega]
    | true =>
      simp only [Bool.true_and, if_true]
      have hse : (if decide (z.toNat / 2 ^ (q - p - 1) % 2 = 1) = true then BitVec.ofInt w ((z.toNat : Int) - ((2 ^ (q - p) : Nat) : Int))
          else BitVec.ofInt w (z.toNat : Int)) = z.signExtend w := by
        unfold BitVec.signExtend
        rw [BitVec.toInt_eq_msb_cond]
        simp only [decide_eq_true_eq]
        by_cases hmm : z.msb = true
        · rw [if_pos (hm.mpr hmm), if_pos hmm]
        · rw [if_neg (fun hh => hmm (hm.mp hh)), if_neg hmm]
      rw [hse]
      apply BitVec.eq_of_getLsbD_eq
      intro i hi
      rw [BitVec.getLsbD_signExtend, BitVec.getLsbD_sshiftRight, hb, BitVec.msb_eq_getLsbD_last, hb]
      rw [BitVec.msb_eq_getLsbD_last]
      simp only [BitVec.getLsbD_shiftLeft]
      by_cases h1 : i < q - p
      · simp [hi, h1, show w - (q - p) + i < w by omega, show ¬ w - (q - p) + i < w - q by omega,
          show w - (q - p) + i - (w - q) = p + i by omega, show ¬ w ≤ i by omega]
      · simp [hi, h1, show ¬ w - (q - p) + i < w by omega, show ¬ w ≤ i by omega, show w - 1 < w by omega,
          show ¬ w - 1 < w - q by omega, show w - 1 - (w - q) = p + (q - p - 1) by omega, show q - p - 1 < q - p by omega]

theorem bvBfi_eq {w : Nat} (x : BitVec w) (y : Word) (z : BitVec w) :
    (let f := bvField w y
     if f.2 ≤ f.1 then BitVec.ofInt w (z.toNat : Int)
     else
       let n := f.2 - f.1
       BitVec.ofInt w ((z.toNat % 2 ^ f.1 + x.toNat % 2 ^ n * 2 ^ f.1 + z.toNat % 2 ^ w / 2 ^ f.2 * 2 ^ f.2 : Nat) : Int)) =
      bvBfi x y z := by
  unfold bvBfi
  have hw : (bvField w y).2 ≤ w := by simp only [bvField]; split <;> omega
  generalize bvField w y = f at *
  obtain ⟨p, q⟩ := f
  simp only at *
  split
  · rename_i h
    rw [BitVec.ofInt_natCast]
    apply BitVec.eq_of_getLsbD_eq
    intro i hi
    simp [hi, show q - p = 0 by omega]
  · rename_i h
    rw [BitVec.ofInt_natCast]
    apply BitVec.eq_of_getLsbD_eq
    intro i hi
    rw [getLsbD_ofNat']
    have e1 : z.toNat % 2 ^ p + x.toNat % 2 ^ (q - p) * 2 ^ p + z.toNat % 2 ^ w / 2 ^ q * 2 ^ q =
        2 ^ q * (z.toNat / 2 ^ q) + (2 ^ p * (x.toNat % 2 ^ (q - p)) + z.toNat % 2 ^ p) := by
      rw [Nat.mod_eq_of_lt z.isLt]; ring
    have lt1 : z.toNat % 2 ^ p < 2 ^ p := Nat.mod_lt _ (Nat.two_pow_pos _)
    have lt2 : x.toNat % 2 ^ (q - p) < 2 ^ (q - p) := Nat.mod_lt _ (Nat.two_pow_pos _)
    have hq : 2 ^ q = 2 ^ p * 2 ^ (q - p) := by rw [← Nat.pow_add]; congr 1; omega
    have lt3 : 2 ^ p * (x.toNat % 2 ^ (q - p)) + z.toNat % 2 ^ p < 2 ^ q := by 
      rw [hq]
      calc _ < 2 ^ p * (x.toNat % 2 ^ (q - p)) + 2 ^ p := by omega
        _ = 2 ^ p * (x.toNat % 2 ^ (q - p) + 1) := by ring
        _ ≤ _ := Nat.mul_le_mul_left _ lt2
    rw [e1, Nat.testBit_two_pow_mul_add _ lt3, Nat.testBit_two_pow_mul_add _ lt1]
    simp only [Nat.testBit_mod_two_pow, Nat.testBit_div_two_pow, BitVec.getLsbD_or, BitVec.getLsbD_and, BitVec.getLsbD_not,
      BitVec.getLsbD_shiftLeft, BitVec.getLsbD_ushiftRight, BitVec.getLsbD_allOnes]
    simp only [BitVec.getLsbD]
    by_cases h1 : i < p
    · simp [hi, h1, show i < q by omega]
    · by_cases h2 : i < q
      · simp [hi, h1, h2, show i - p < q - p by omega, show w - (q - p) + (i - p) < w by omega]
      · simp [hi, h1, h2, show i - q + q = i by omega, show ¬ w - (q - p) + (i - p) < w by omega]

theorem bvRev_eq {w : Nat} (x : BitVec w) :
    BitVec.ofNat w ((List.range w).foldl (fun acc i => acc + (if x.toNat.testBit i then 2 ^ (w - 1 - i) else 0)) 0) = x.reverse := by
  have key : ∀ n, n ≤ w → (∀ j, ((List.range n).foldl (fun acc i => acc + (if x.toNat.testBit i then 2 ^ (w - 1 - i) else 0)) 0).testBit j =
      (decide (w - n ≤ j) && decide (j < w) && x.toNat.testBit (w - 1 - j))) ∧
      2 ^ (w - n) ∣ (List.range n).foldl (fun acc i => acc + (if x.toNat.testBit i then 2 ^ (w - 1 - i) else 0)) 0 := by
    intro n
    induction n with
    | zero => intro _; exact ⟨by intro j; simp, by simp⟩
    | succ n ih =>
      intro hn
      obtain ⟨h1, c, h2⟩ := ih (by omega)
      rw [List.range_succ, List.foldl_append]
      simp only [List.foldl_cons, List.foldl_nil]
      have hb : (if x.toNat.testBit n then 2 ^ (w - 1 - n) else 0) < 2 ^ (w - n) := by
        have : 2 ^ (w - 1 - n) < 2 ^ (w - n) := Nat.pow_lt_pow_right (by omega) (by omega)
        split <;> omega
      refine ⟨fun j => ?_, ?_⟩
      · rw [h2, Nat.testBit_two_pow_mul_add _ hb]
        have h3 := h1 j
        rw [h2] at h3
        have hmul : (2 ^ (w - n) * c).testBit j = (decide (w - n ≤ j) && c.testBit (j - (w - n))) := Nat.testBit_two_pow_mul ..
        rw [hmul] at h3
        split
        · rename_i hj
          by_cases hjj : j = w - 1 - n
          · subst hjj
            have : (decide (w - (n + 1) ≤ w - 1 - n) && decide (w - 1 - n < w) && x.toNat.testBit (w - 1 - (w - 1 - n))) = x.toNat.testBit n := by
              rw [show w - 1 - (w - 1 - n) = n by omega]
              simp; omega
            rw [this]
            cases x.toNat.testBit n <;> simp
          · have : ¬ w - (n + 1) ≤ j := by omega
            simp only [this, decide_false, Bool.false_and]
            split
            · rw [Nat.testBit_two_pow]; simp; omega
            · simp
        · rename_i hj
          simp only [show w - n ≤ j by omega, decide_true, Bool.true_and] at h3
          rw [h3]
          simp [show w - (n + 1) ≤ j by omega]
      · rw [h2]
        have e : w - n = (w - (n + 1)) + 1 := by omega
        refine Nat.dvd_add ?_ ?_
        · rw [e, Nat.pow_succ, Nat.mul_assoc]; exact Nat.dvd_mul_right _ _
        · split
          · rw [show w - 1 - n = w - (n + 1) by omega]
          · exact Nat.dvd_zero _
  apply BitVec.eq_of_getLsbD_eq
  intro i hi
  rw [getLsbD_ofNat', (key w le_rfl).1, BitVec.getLsbD_reverse, BitVec.getMsbD]
  simp [hi, BitVec.getLsbD]

/-! ### The tables -/

/-- One source of a type. -/
theorem un_words (ty : Ty) (s : State) (a : Opd) (L : Nat) (h : Dword → Dword)
    (g : (w : Nat) → BitVec w → BitVec w) (e64 : ∀ v, ty.wide = true → h v = g 64 v)
    (e32 : ∀ w, ty.wide = false → (h (zext32 w)).extractLsb' 0 32 = g 32 w) :
    resWords ty.wide (h (s.srcTy ty.wide (.reg a) L)) = bothW ty (g 64 (s.reg2 a L)) (g 32 (s.reg1 a L)) := by
  cases hw : ty.wide with
  | true => simp only [srcTy_pair, State.src2_reg, e64 _ hw, resWords, bothW, hw, if_true]; rfl
  | false => simp only [srcTy_word, State.src1_reg, resWords, bothW, hw, Bool.false_eq_true, if_false, e32 _ hw]

theorem shr_words (ty : Ty) (hs : ty.signed = false) (s : State) (a : Opd) (n : Nat) (L : Nat) :
    resWords ty.wide (shrTy ty (s.srcTy ty.wide (.reg a) L) n) = bothW ty (s.reg2 a L >>> n) (s.reg1 a L >>> n) := by
  refine un_words ty s a L (fun v => shrTy ty v n) (fun _ v => v >>> n) (fun v hw => ?_) (fun w hw => ?_)
  · rw [← bvShr_eq]
    have h : ¬ (v.toNat : Int) < 0 := by omega
    simp only [shrTy, tyBits, hw, if_true, tyInt_pair ty hw, bvNum, hs, Bool.false_eq_true, if_false, narrow, h]
  · rw [← bvShr_eq]
    have h : ¬ (w.toNat : Int) < 0 := by omega
    simp only [shrTy, tyBits, hw, tyInt_word ty hw, bvNum, hs, Bool.false_eq_true, if_false, narrow, h]
    split
    · rfl
    · exact low_zext _

theorem sar_words (ty : Ty) (hs : ty.signed = true) (s : State) (a : Opd) (n : Nat) (L : Nat) :
    resWords ty.wide (shrTy ty (s.srcTy ty.wide (.reg a) L) n) = bothW ty ((s.reg2 a L).sshiftRight n) ((s.reg1 a L).sshiftRight n) := by
  refine un_words ty s a L (fun v => shrTy ty v n) (fun _ v => v.sshiftRight n) (fun v hw => ?_) (fun w hw => ?_)
  · rw [← bvSar_eq]
    simp only [shrTy, tyBits, hw, if_true, tyInt_pair ty hw, bvNum, hs, narrow, Bool.false_eq_true, if_false]
  · rw [← bvSar_eq]
    simp only [shrTy, tyBits, hw, if_true, tyInt_word ty hw, bvNum, hs, narrow, Bool.false_eq_true, if_false]
    split
    · split
      · exact low_zext _
      · rfl
    · exact low_zext _

theorem shl_words (ty : Ty) (s : State) (a : Opd) (n : Nat) (L : Nat) :
    resWords ty.wide (shlTy ty (s.srcTy ty.wide (.reg a) L) n) = bothW ty (s.reg2 a L <<< n) (s.reg1 a L <<< n) := by
  refine un_words ty s a L (fun v => shlTy ty v n) (fun _ v => v <<< n) (fun v hw => ?_) (fun w hw => ?_)
  · rw [← bvShl_eq]
    simp only [shlTy, tyBits, hw, if_true, narrow, Bool.false_eq_true, if_false]
  · rw [← bvShl_eq]
    simp only [shlTy, tyBits, hw, narrow, Bool.false_eq_true, if_false, zext_toNat]
    split
    · rfl
    · exact low_zext _

theorem bfx_words (ty : Ty) (s : State) (a : Opd) (y : Word) (L : Nat) :
    resWords ty.wide (bfxTy ty (s.srcTy ty.wide (.reg a) L) y) = bothW ty (bvBfx ty.signed (s.reg2 a L) y) (bvBfx ty.signed (s.reg1 a L) y) := by
  refine un_words ty s a L (fun v => bfxTy ty v y) (fun _ v => bvBfx ty.signed v y) (fun v hw => ?_) (fun w hw => ?_)
  · rw [← bvBfx_eq]
    simp only [bfxTy, fieldOf_eq, tyBits, hw, if_true, narrow, Bool.false_eq_true, if_false]
  · rw [← bvBfx_eq]
    simp only [bfxTy, fieldOf_eq, tyBits, hw, narrow, Bool.false_eq_true, if_false, zext_toNat]
    split
    · rfl
    · split
      · exact low_zext _
      · exact low_zext _

theorem bfi_words (ty : Ty) (s : State) (a c : Opd) (y : Word) (L : Nat) :
    resWords ty.wide (bfiTy ty (s.srcTy ty.wide (.reg a) L) y (s.srcTy ty.wide (.reg c) L)) =
      bothW ty (bvBfi (s.reg2 a L) y (s.reg2 c L)) (bvBfi (s.reg1 a L) y (s.reg1 c L)) := by
  refine un_words ty s a L (fun v => bfiTy ty v y (s.srcTy ty.wide (.reg c) L))
    (fun w v => if h : w = 64 then h ▸ bvBfi (h ▸ v) y (s.reg2 c L) else if h : w = 32 then h ▸ bvBfi (h ▸ v) y (s.reg1 c L) else 0)
    (fun v hw => ?_) (fun w hw => ?_)
  · simp only [dite_true]
    rw [← bvBfi_eq]
    simp only [bfiTy, fieldOf_eq, tyBits, hw, if_true, narrow, Bool.false_eq_true, if_false, srcTy_pair, State.src2_reg]
  · simp only [show ¬ (32 = 64) by omega, dite_false, dite_true]
    rw [← bvBfi_eq]
    simp only [bfiTy, fieldOf_eq, tyBits, hw, narrow, Bool.false_eq_true, if_false, zext_toNat, srcTy_word, State.src1_reg]
    split <;> exact low_zext _

theorem min_words (ty : Ty) (s : State) (a : Opd) (b : OpdB) (L : Nat) :
    resWords ty.wide (narrow ty false (min (tyInt ty (s.srcTy ty.wide (.reg a) L)) (tyInt ty (s.srcTy ty.wide b L)))) =
      bothW ty (if bvLt ty.signed (s.src2 b L) (s.reg2 a L) then s.src2 b L else s.reg2 a L)
        (if bvLt ty.signed (s.src1 b L) (s.reg1 a L) then s.src1 b L else s.reg1 a L) :=
  arith_words' ty s a b L min (fun _ x y => if bvLt ty.signed y x then y else x) fun _ x y _ _ => bvMin_eq _ x y

theorem max_words (ty : Ty) (s : State) (a : Opd) (b : OpdB) (L : Nat) :
    resWords ty.wide (narrow ty false (max (tyInt ty (s.srcTy ty.wide (.reg a) L)) (tyInt ty (s.srcTy ty.wide b L)))) =
      bothW ty (if bvLt ty.signed (s.reg2 a L) (s.src2 b L) then s.src2 b L else s.reg2 a L)
        (if bvLt ty.signed (s.reg1 a L) (s.src1 b L) then s.src1 b L else s.reg1 a L) :=
  arith_words' ty s a b L max (fun _ x y => if bvLt ty.signed x y then y else x) fun _ x y _ _ => bvMax_eq _ x y

theorem mulh_words (ty : Ty) (s : State) (a : Opd) (b : OpdB) (L : Nat) :
    resWords ty.wide (narrow ty false (mulHigh ty (tyInt ty (s.srcTy ty.wide (.reg a) L)) (tyInt ty (s.srcTy ty.wide b L)))) =
      bothW ty (bvMulHigh ty.signed (s.reg2 a L) (s.src2 b L)) (bvMulHigh ty.signed (s.reg1 a L) (s.src1 b L)) := by
  refine arith_words' ty s a b L (mulHigh ty) (fun _ x y => bvMulHigh ty.signed x y) fun w x y h1 h2 => ?_
  rw [← bvMulHigh_eq]
  have : tyBits ty = w := by
    unfold tyBits
    by_cases h : ty.wide = true
    · rw [if_pos h, h2.mpr h]
    · rw [if_neg h]; rcases h1 with h1 | h1
      · exact h1.symm
      · exact absurd (h2.mp h1) h
  simp only [mulHigh, this]

/-- An exact result of one source. -/
theorem un_arith (ty : Ty) (sat : Bool) (s : State) (a : Opd) (L : Nat) (e : Int → Int) (g : (w : Nat) → BitVec w → BitVec w)
    (h : ∀ w (x : BitVec w), BitVec.ofInt w (e (bvNum ty.signed x)) = g w x) :
    resWords ty.wide (narrow ty sat (e (tyInt ty (s.srcTy ty.wide (.reg a) L)))) =
      bothW ty (if sat then bvClamp ty.signed 64 (e (bvNum ty.signed (s.reg2 a L))) else g 64 (s.reg2 a L))
        (if sat then bvClamp ty.signed 32 (e (bvNum ty.signed (s.reg1 a L))) else g 32 (s.reg1 a L)) :=
  arith_words ty sat s a (.reg a) L (fun x _ => e x) (fun w x _ => g w x) fun w x _ => h w x

theorem imad_words (ty : Ty) (sat : Bool) (s : State) (a : Opd) (b : OpdB) (c : Opd) (L : Nat) :
    resWords ty.wide (narrow ty sat (tyInt ty (s.srcTy ty.wide (.reg a) L) * tyInt ty (s.srcTy ty.wide b L) +
        tyInt ty (s.srcTy ty.wide (.reg c) L))) =
      bothW ty
        (if sat then bvClamp ty.signed 64 (bvNum ty.signed (s.reg2 a L) * bvNum ty.signed (s.src2 b L) + bvNum ty.signed (s.reg2 c L))
          else s.reg2 a L * s.src2 b L + s.reg2 c L)
        (if sat then bvClamp ty.signed 32 (bvNum ty.signed (s.reg1 a L) * bvNum ty.signed (s.src1 b L) + bvNum ty.signed (s.reg1 c L))
          else s.reg1 a L * s.src1 b L + s.reg1 c L) := by
  have hofs : ∀ w (x y z : BitVec w), BitVec.ofInt w (bvNum ty.signed x * bvNum ty.signed y + bvNum ty.signed z) = x * y + z := by
    intro w x y z; rw [BitVec.ofInt_add, ofInt_mul_num, ofInt_num]
  rw [resWords_narrow]
  have hc := satOf_clamp ty
  cases hw : ty.wide with
  | true =>
    rw [show tyBits ty = 64 by simp [tyBits, hw]] at hc
    simp only [srcTy_pair, tyInt_pair ty hw, bothW, hw, if_true, State.src2_reg]
    cases sat with
    | true => rw [hc]; rfl
    | false => simp only [satOf, Bool.false_eq_true, if_false, hofs]
  | false =>
    rw [show tyBits ty = 32 by simp [tyBits, hw]] at hc
    simp only [srcTy_word, tyInt_word ty hw, bothW, hw, Bool.false_eq_true, if_false, State.src1_reg]
    cases sat with
    | true => rw [hc]; rfl
    | false => simp only [satOf, Bool.false_eq_true, if_false, hofs]

theorem bit_words (ty : Ty) (s : State) (a : Opd) (b : OpdB) (L : Nat) (e : Dword → Dword → Dword)
    (g : (w : Nat) → BitVec w → BitVec w → BitVec w) (h64 : ∀ x y, e x y = g 64 x y)
    (h32 : ∀ x y : Word, (e (zext32 x) (zext32 y)).extractLsb' 0 32 = g 32 x y) :
    resWords ty.wide (e (s.srcTy ty.wide (.reg a) L) (s.srcTy ty.wide b L)) =
      bothW ty (g 64 (s.reg2 a L) (s.src2 b L)) (g 32 (s.reg1 a L) (s.src1 b L)) := by
  cases hw : ty.wide with
  | true => simp only [srcTy_pair, State.src2_reg, h64, resWords, bothW, hw, if_true]; rfl
  | false => simp only [srcTy_word, State.src1_reg, resWords, bothW, hw, Bool.false_eq_true, if_false, h32]

theorem low_bit (i : Nat) (v : Dword) (h : i < 32) : (v.extractLsb' 0 32).getLsbD i = v.getLsbD i := by
  simp [h]
theorem zext_bit (i : Nat) (w : Word) (h : i < 32) : (zext32 w).getLsbD i = w.getLsbD i := by
  simp [zext32, BitVec.getLsbD_setWidth]; omega

theorem and_words (ty : Ty) (s : State) (a : Opd) (b : OpdB) (L : Nat) :
    resWords ty.wide (s.srcTy ty.wide (.reg a) L &&& s.srcTy ty.wide b L) = bothW ty (s.reg2 a L &&& s.src2 b L) (s.reg1 a L &&& s.src1 b L) :=
  bit_words ty s a b L (· &&& ·) (fun _ x y => x &&& y) (fun _ _ => rfl) fun x y => BitVec.eq_of_getLsbD_eq fun i hi => by
    rw [low_bit _ _ hi]; simp [zext_bit, hi]
theorem or_words (ty : Ty) (s : State) (a : Opd) (b : OpdB) (L : Nat) :
    resWords ty.wide (s.srcTy ty.wide (.reg a) L ||| s.srcTy ty.wide b L) = bothW ty (s.reg2 a L ||| s.src2 b L) (s.reg1 a L ||| s.src1 b L) :=
  bit_words ty s a b L (· ||| ·) (fun _ x y => x ||| y) (fun _ _ => rfl) fun x y => BitVec.eq_of_getLsbD_eq fun i hi => by
    rw [low_bit _ _ hi]; simp [zext_bit, hi]
theorem xor_words (ty : Ty) (s : State) (a : Opd) (b : OpdB) (L : Nat) :
    resWords ty.wide (s.srcTy ty.wide (.reg a) L ^^^ s.srcTy ty.wide b L) = bothW ty (s.reg2 a L ^^^ s.src2 b L) (s.reg1 a L ^^^ s.src1 b L) :=
  bit_words ty s a b L (· ^^^ ·) (fun _ x y => x ^^^ y) (fun _ _ => rfl) fun x y => BitVec.eq_of_getLsbD_eq fun i hi => by
    rw [low_bit _ _ hi]; simp [zext_bit, hi]
theorem not_words (ty : Ty) (s : State) (a : Opd) (L : Nat) :
    resWords ty.wide (~~~(s.srcTy ty.wide (.reg a) L)) = bothW ty (~~~(s.reg2 a L)) (~~~(s.reg1 a L)) :=
  un_words ty s a L (fun v => ~~~v) (fun _ v => ~~~v) (fun _ _ => rfl) fun w _ => BitVec.eq_of_getLsbD_eq fun i hi => by
    rw [low_bit _ _ hi]; simp [zext_bit, hi]; omega
theorem id_words (ty : Ty) (s : State) (a : Opd) (L : Nat) :
    resWords ty.wide (s.srcTy ty.wide (.reg a) L) = bothW ty (s.reg2 a L) (s.reg1 a L) :=
  un_words ty s a L (fun v => v) (fun _ v => v) (fun _ _ => rfl) fun w _ => low_zext w
theorem rev_words (ty : Ty) (s : State) (a : Opd) (L : Nat) :
    resWords ty.wide (brevTy ty (s.srcTy ty.wide (.reg a) L)) = bothW ty (s.reg2 a L).reverse (s.reg1 a L).reverse := by
  refine un_words ty s a L (brevTy ty) (fun _ v => v.reverse) (fun v hw => ?_) fun w hw => ?_
  · rw [← bvRev_eq]; simp only [brevTy, tyBits, hw, if_true, brevTy.w64']
  · rw [← bvRev_eq]
    simp only [brevTy, tyBits, hw, Bool.false_eq_true, if_false, brevTy.w64', zext_toNat]
    apply BitVec.eq_of_toNat_eq
    simp only [BitVec.extractLsb'_toNat, Nat.shiftRight_zero, BitVec.toNat_ofNat]
    omega

theorem cnt_word (n : Nat) : (w64 n).extractLsb' 0 32 = BitVec.ofNat 32 n := by
  apply BitVec.eq_of_toNat_eq
  simp only [w64, BitVec.extractLsb'_toNat, Nat.shiftRight_zero, BitVec.toNat_ofNat]
  omega

theorem popcount_low (w : Word) : popcount (zext32 w).toNat 32 = bvPop w := by rw [zext_toNat]; exact bvPop_eq w

theorem clzTy_word (ty : Ty) (h : ty.wide = false) (w : Word) : clzTy ty (zext32 w) = bvClz w := by
  rw [← bvClz_eq]
  simp only [clzTy, tyBits, h, Bool.false_eq_true, if_false, zext_toNat]
  rw [Nat.mod_eq_of_lt w.isLt]
theorem clzTy_pair (ty : Ty) (h : ty.wide = true) (v : Dword) : clzTy ty v = bvClz v := by
  rw [← bvClz_eq]
  simp only [clzTy, tyBits, h, if_true]
  rw [Nat.mod_eq_of_lt v.isLt]

/-- Types that the shifts accept (R135). -/
theorem shr_ty {x : XHead} {ty : Ty} {d a : Opd} {b : OpdB} (h : (Instr.shrExt x ty d a b).wf = true) : ty.signed = false := by
  have h2 : (ty.isNat && litOk false b) = true := (Bool.and_eq_true_iff.mp h).2
  have h3 := (Bool.and_eq_true_iff.mp h2).1
  cases ty <;> first | rfl | exact absurd h3 (by decide)
theorem sar_ty {x : XHead} {ty : Ty} {d a : Opd} {b : OpdB} (h : (Instr.sarExt x ty d a b).wf = true) : ty.signed = true := by
  have h2 : (ty.isInt && ty.signed && litOk false b) = true := (Bool.and_eq_true_iff.mp h).2
  exact (Bool.and_eq_true_iff.mp (Bool.and_eq_true_iff.mp h2).1).2

/-- Every integer and address instruction is one operation on registers, with the result of its table. -/
theorem intOp_exec {i : Instr} {r : RegOp} (h : intOp i = some r) (hw : i.wf = true) (s : State) :
    exec i s = .next (s.execAlu r.x latInt r.d r.srcs (r.f s)) := by
  cases i <;> simp only [intOp, reduceCtorEq, Option.some.injEq] at h <;> subst h
  case mov => exact congrArg (fun f => Host.Outcome.next (s.execAlu _ _ _ _ f)) (funext fun L => id_words .i32 s _ L)
  case movi => rfl
  case iadd => exact congrArg (fun f => Host.Outcome.next (s.execAlu _ _ _ _ f)) (funext fun L => arith_words .i32 false s _ _ L _ _ fun _ x y => ofInt_add_num _ x y)
  case isub => exact congrArg (fun f => Host.Outcome.next (s.execAlu _ _ _ _ f)) (funext fun L => arith_words .i32 false s _ _ L _ _ fun _ x y => ofInt_sub_num _ x y)
  case imul => exact congrArg (fun f => Host.Outcome.next (s.execAlu _ _ _ _ f)) (funext fun L => arith_words .i32 false s _ _ L _ _ fun _ x y => ofInt_mul_num _ x y)
  case imulh => exact congrArg (fun f => Host.Outcome.next (s.execAlu _ _ _ _ f)) (funext fun L => mulh_words .i32 s _ _ L)
  case imin => exact congrArg (fun f => Host.Outcome.next (s.execAlu _ _ _ _ f)) (funext fun L => min_words .i32 s _ _ L)
  case imax => exact congrArg (fun f => Host.Outcome.next (s.execAlu _ _ _ _ f)) (funext fun L => max_words .i32 s _ _ L)
  case iand => exact congrArg (fun f => Host.Outcome.next (s.execAlu _ _ _ _ f)) (funext fun L => and_words .n32 s _ _ L)
  case ior => exact congrArg (fun f => Host.Outcome.next (s.execAlu _ _ _ _ f)) (funext fun L => or_words .n32 s _ _ L)
  case ixor => exact congrArg (fun f => Host.Outcome.next (s.execAlu _ _ _ _ f)) (funext fun L => xor_words .n32 s _ _ L)
  case inot => exact congrArg (fun f => Host.Outcome.next (s.execAlu _ _ _ _ f)) (funext fun L => not_words .n32 s _ L)
  case shl => exact congrArg (fun f => Host.Outcome.next (s.execAlu _ _ _ _ f)) (funext fun L => shl_words .n32 s _ _ L)
  case shr => exact congrArg (fun f => Host.Outcome.next (s.execAlu _ _ _ _ f)) (funext fun L => shr_words .n32 rfl s _ _ L)
  case sar => exact congrArg (fun f => Host.Outcome.next (s.execAlu _ _ _ _ f)) (funext fun L => sar_words .i32 rfl s _ _ L)
  case lea => rfl
  case movExt => exact congrArg (fun f => Host.Outcome.next (s.execAlu _ _ _ _ f)) (funext fun L => id_words _ s _ L)
  case moviExt => rfl
  case iaddExt => exact congrArg (fun f => Host.Outcome.next (s.execAlu _ _ _ _ f)) (funext fun L => arith_words _ _ s _ _ L _ _ fun _ x y => ofInt_add_num _ x y)
  case isubExt => exact congrArg (fun f => Host.Outcome.next (s.execAlu _ _ _ _ f)) (funext fun L => arith_words _ _ s _ _ L _ _ fun _ x y => ofInt_sub_num _ x y)
  case imulExt => exact congrArg (fun f => Host.Outcome.next (s.execAlu _ _ _ _ f)) (funext fun L => arith_words _ _ s _ _ L _ _ fun _ x y => ofInt_mul_num _ x y)
  case imulhExt => exact congrArg (fun f => Host.Outcome.next (s.execAlu _ _ _ _ f)) (funext fun L => mulh_words _ s _ _ L)
  case imad => exact congrArg (fun f => Host.Outcome.next (s.execAlu _ _ _ _ f)) (funext fun L => imad_words _ _ s _ _ _ L)
  case iminExt => exact congrArg (fun f => Host.Outcome.next (s.execAlu _ _ _ _ f)) (funext fun L => min_words _ s _ _ L)
  case imaxExt => exact congrArg (fun f => Host.Outcome.next (s.execAlu _ _ _ _ f)) (funext fun L => max_words _ s _ _ L)
  case iabs x ty sat d a =>
    refine congrArg (fun f => Host.Outcome.next (s.execAlu _ _ _ _ f)) (funext fun L => ?_)
    refine (un_arith ty sat s a L (fun x => if x < 0 then -x else x) (fun _ v => if ty.signed && v.msb then -v else v) fun _ x => bvAbs_eq _ x).trans ?_
    have e : ∀ z : Int, (if z < 0 then -z else z) = |z| := fun z => by
      split
      · rename_i h; exact (abs_of_neg h).symm
      · rename_i h; exact (abs_of_nonneg (not_lt.mp h)).symm
    simp only [e, alu1]
  case ineg x ty sat d a =>
    exact congrArg (fun f => Host.Outcome.next (s.execAlu _ _ _ _ f)) (funext fun L =>
      un_arith ty sat s a L (fun x => -x) (fun _ v => -v) fun _ x => ofInt_neg_num _ x)
  case andExt => exact congrArg (fun f => Host.Outcome.next (s.execAlu _ _ _ _ f)) (funext fun L => and_words _ s _ _ L)
  case orExt => exact congrArg (fun f => Host.Outcome.next (s.execAlu _ _ _ _ f)) (funext fun L => or_words _ s _ _ L)
  case xorExt => exact congrArg (fun f => Host.Outcome.next (s.execAlu _ _ _ _ f)) (funext fun L => xor_words _ s _ _ L)
  case notExt => exact congrArg (fun f => Host.Outcome.next (s.execAlu _ _ _ _ f)) (funext fun L => not_words _ s _ L)
  case shlExt => exact congrArg (fun f => Host.Outcome.next (s.execAlu _ _ _ _ f)) (funext fun L => shl_words _ s _ _ L)
  case shrExt => exact congrArg (fun f => Host.Outcome.next (s.execAlu _ _ _ _ f)) (funext fun L => shr_words _ (shr_ty hw) s _ _ L)
  case sarExt => exact congrArg (fun f => Host.Outcome.next (s.execAlu _ _ _ _ f)) (funext fun L => sar_words _ (sar_ty hw) s _ _ L)
  case bfx => exact congrArg (fun f => Host.Outcome.next (s.execAlu _ _ _ _ f)) (funext fun L => bfx_words _ s _ _ L)
  case bfi => exact congrArg (fun f => Host.Outcome.next (s.execAlu _ _ _ _ f)) (funext fun L => bfi_words _ s _ _ _ L)
  case popc x ty d a =>
    refine congrArg (fun f => Host.Outcome.next (s.execAlu _ _ _ _ f)) (funext fun L => ?_)
    simp only [resWords, Bool.false_eq_true, if_false, cnt_word]
    cases hty : ty.wide with
    | true => simp only [srcTy_pair, State.src2_reg, if_true, tyBits, hty, aluCnt]; rw [bvPop_eq]
    | false => simp only [srcTy_word, State.src1_reg, Bool.false_eq_true, if_false, tyBits, hty, popcount_low, aluCnt]
  case clz x ty d a =>
    refine congrArg (fun f => Host.Outcome.next (s.execAlu _ _ _ _ f)) (funext fun L => ?_)
    simp only [resWords, Bool.false_eq_true, if_false, cnt_word]
    cases hty : ty.wide with
    | true => simp only [srcTy_pair, State.src2_reg, hty, if_true, clzTy_pair _ hty, aluCnt]
    | false => simp only [srcTy_word, State.src1_reg, hty, Bool.false_eq_true, if_false, clzTy_word _ hty, aluCnt]
  case brev => exact congrArg (fun f => Host.Outcome.next (s.execAlu _ _ _ _ f)) (funext fun L => rev_words _ s _ L)
  case leaExt => rfl
  case sel x ty d a b q nq =>
    refine congrArg (fun f => Host.Outcome.next (s.execAlu _ _ _ _ f)) (funext fun L => ?_)
    have hx : ∀ p q : Bool, (p != q) = xor p q := fun p q => by cases p <;> cases q <;> rfl
    simp only [hx]
    cases hty : ty.wide with
    | true => simp only [srcTy_pair, State.src2_reg, bothW, hty, if_true, resWords]; rfl
    | false =>
      simp only [srcTy_word, State.src1_reg, bothW, hty, Bool.false_eq_true, if_false, resWords]
      split <;> simp only [low_zext]

/-! ### Compares and predicates -/

theorem bvCond_eq (sg : Bool) (cc : Cond) {w : Nat} (x y : BitVec w) : condInt cc (bvNum sg x) (bvNum sg y) = bvCond sg cc x y := by
  have hq : (bvNum sg x = bvNum sg y) ↔ x = y := by
    constructor
    · intro h; have := congrArg (BitVec.ofInt w) h; rwa [ofInt_num, ofInt_num] at this
    · rintro rfl; rfl
  cases cc
  case eq => simp only [condInt, bvCond, hq]; rfl
  case ne => simp only [condInt, bvCond, ne_eq, hq]; by_cases h : x = y <;> simp [h]
  case lt => simp only [condInt, bvCond, bvLt_eq]
  case le => simp only [condInt, bvCond, bvLt_eq]; by_cases h : bvNum sg y < bvNum sg x <;> simp [h] <;> omega
  case gt => simp only [condInt, bvCond, bvLt_eq, gt_iff_lt]
  case ge => simp only [condInt, bvCond, bvLt_eq, ge_iff_le]; by_cases h : bvNum sg x < bvNum sg y <;> simp [h] <;> omega
  case num => rfl
  case nan => rfl

theorem icmp_val (ty : Ty) (cc : Cond) (s : State) (a : Opd) (b : OpdB) (L : Nat) :
    condInt cc (tyInt ty (s.srcTy ty.wide (.reg a) L)) (tyInt ty (s.srcTy ty.wide b L)) =
      if ty.wide then bvCond ty.signed cc (s.reg2 a L) (s.src2 b L) else bvCond ty.signed cc (s.reg1 a L) (s.src1 b L) := by
  cases hw : ty.wide with
  | true => simp only [srcTy_pair, tyInt_pair ty hw, if_true, State.src2_reg, bvCond_eq]
  | false => simp only [srcTy_word, tyInt_word ty hw, Bool.false_eq_true, if_false, State.src1_reg, bvCond_eq]

theorem bne_xor (p q : Bool) : (p != q) = xor p q := by cases p <;> cases q <;> rfl

/-- Integer compares and predicate logic are one compare operation with the condition of their table. -/
theorem intCmp_exec {i : Instr} {r : CmpOp} (h : intCmp i = some r) (s : State) :
    exec i s = .next (s.execCmp r.x latInt r.p r.srcs (r.f s)) := by
  cases i <;> simp only [intCmp, reduceCtorEq, Option.some.injEq] at h <;> subst h
  case icmpI32 => exact congrArg (fun f => Host.Outcome.next (s.execCmp _ _ _ _ f)) (funext fun L => icmp_val .i32 _ s _ _ L)
  case icmpN32 => exact congrArg (fun f => Host.Outcome.next (s.execCmp _ _ _ _ f)) (funext fun L => icmp_val .n32 _ s _ _ L)
  case icmp => exact congrArg (fun f => Host.Outcome.next (s.execCmp _ _ _ _ f)) (funext fun L => icmp_val _ _ s _ _ L)
  all_goals
    refine congrArg (fun f => Host.Outcome.next (s.execCmp _ _ _ _ f)) (funext fun L => ?_)
    simp only [predVal, bne_xor] <;> rfl

end Sys2Proof.Machine
end

