-- ==== Sys2Proof/Laws/Fp.lean ====
section
/-! SUPPORT. The floating-point and cross-lane meanings against the results of `Claims`. -/

namespace Sys2Proof.Machine

/-! ### Floating point -/

theorem fpIn_val (ty : Ty) (ftz : Bool) (w : Word) : fpIn ty ftz (zext32 w) = fpVal ty ftz w := by
  simp only [fpIn, fpVal, zext_toNat]

theorem fpOp_exec {i : Instr} {r : RegOp} (h : fpOp i = some r) (s : State) :
    exec i s = .next (s.execAlu r.x latFp r.d r.srcs (r.f s)) := by
  cases i <;> simp only [fpOp, reduceCtorEq, Option.some.injEq] at h <;> subst h
  all_goals
    refine congrArg (fun f => Host.Outcome.next (s.execAlu _ _ _ _ f)) (funext fun L => ?_)
    simp only [fpIn_val, fp1, fp2]
    first | done | rfl

theorem sfuOp_exec {i : Instr} {r : RegOp} (h : sfuOp i = some r) (s : State) :
    exec i s = .next (s.execSfu r.x r.d r.srcs (r.f s)) := by
  cases i <;> simp only [sfuOp, reduceCtorEq, Option.some.injEq] at h <;> subst h
  all_goals
    refine congrArg (fun f => Host.Outcome.next (s.execSfu _ _ _ f)) (funext fun L => ?_)
    simp only [fpIn_val, fp1, fp2]
    first | done | rfl

theorem fcmp_val (ty : Ty) (cc : Cond) (p q : FVal) : condFp cc p q = fcmpRes ty cc p q := by
  unfold condFp fcmpRes
  cases FVal.cmp p q with
  | none => cases cc <;> rfl
  | some o => cases o <;> cases cc <;> rfl

theorem fpCmp_exec {i : Instr} {r : CmpOp} (h : fpCmp i = some r) (s : State) :
    exec i s = .next (s.execCmp r.x latFp r.p r.srcs (r.f s)) := by
  cases i <;> simp only [fpCmp, reduceCtorEq, Option.some.injEq] at h <;> subst h
  case fcmpF32 =>
    refine congrArg (fun f => Host.Outcome.next (s.execCmp _ _ _ _ f)) (funext fun L => ?_)
    simp only [fpIn_val]; exact fcmp_val _ _ _ _
  case fcmp =>
    refine congrArg (fun f => Host.Outcome.next (s.execCmp _ _ _ _ f)) (funext fun L => ?_)
    simp only [fpIn_val]; exact fcmp_val _ _ _ _

theorem ftoi_words (dt sty : Ty) (rm : Rm) (w : Word) : fpToInt dt sty rm w = ftoiRes dt sty rm w := by
  simp only [fpToInt, ftoiRes]
  rw [resWords_narrow]
  simp only [satOf, Bool.false_eq_true, if_false]

theorem itof_words (dt sty : Ty) (m : FpMod) (s : State) (a : Opd) (L : Nat) :
    intToFp dt sty m (s.srcTy sty.wide (.reg a) L) =
      itofRes dt m (if sty.wide then bvNum sty.signed (s.reg2 a L) else bvNum sty.signed (s.reg1 a L)) := by
  cases hw : sty.wide with
  | true => simp only [srcTy_pair, State.src2_reg, if_true, intToFp, tyInt_pair sty hw]; rfl
  | false => simp only [srcTy_word, State.src1_reg, Bool.false_eq_true, if_false, intToFp, tyInt_word sty hw]; rfl

theorem cv_words (dt sty : Ty) (m : CvMod) (rule : RndRule) (v : Dword) : [cvFloat dt sty m rule v] = cvRes dt sty m rule v := rfl

theorem cvOpn_exec {i : Instr} {r : RegOp} (h : cvOpn i = some r) (s : State) :
    exec i s = .next (s.execAlu r.x latFp r.d r.srcs (r.f s)) := by
  cases i <;> simp only [cvOpn, reduceCtorEq, Option.some.injEq] at h <;> subst h
  case ftoi => exact congrArg (fun f => Host.Outcome.next (s.execAlu _ _ _ _ f)) (funext fun L => ftoi_words _ _ _ _)
  case itof => exact congrArg (fun f => Host.Outcome.next (s.execAlu _ _ _ _ f)) (funext fun L => itof_words .f32 .i32 rnMod s _ L)
  case fcvtF16F32 => rfl
  case fcvtF32F16 => rfl
  case fcvtB16F32 => rfl
  case fcvtF32B16 => rfl
  case ftoiExt => exact congrArg (fun f => Host.Outcome.next (s.execAlu _ _ _ _ f)) (funext fun L => ftoi_words _ _ _ _)
  case itofExt => exact congrArg (fun f => Host.Outcome.next (s.execAlu _ _ _ _ f)) (funext fun L => itof_words _ _ _ s _ L)
  case fcvt x dt sty m d a b =>
    refine congrArg (fun f => Host.Outcome.next (s.execAlu _ _ _ _ f)) (funext fun L => ?_)
    split
    · rfl
    · split
      · have h1 : (s.reg1 a L).toNat / 65536 % 256 = ((s.reg1 a L).extractLsb' 16 8).toNat := by simp [Nat.shiftRight_eq_div_pow]
        have h2 : decide ((s.reg1 a L).toNat / 256 % 2 = 1) = (s.reg1 a L).getLsbD 8 := by
          rw [BitVec.getLsbD, Nat.testBit_eq_decide_div_mod_eq]
        simp only [zbDecode, h1, h2]; rfl
      · rw [cv_words]
        cases hw : sty.wide <;> rfl

/-! ### Cross-lane results -/

theorem segSize_eq (seg : BitVec 3) : segSize seg = 32 >>> seg.toNat := by
  rw [Nat.shiftRight_eq_div_pow]; rfl

theorem div_mul_sub (L n : Nat) : L / n * n = L - L % n := by
  have := Nat.div_add_mod L n
  rw [Nat.mul_comm] at this
  omega

theorem shflLane_eq (m : ShflMode) (n L k : Nat) : (shflLane m n L k).getD L =
    (match m with | .idx => shflIdxSrc | .up => shflUpSrc | .down => shflDownSrc | .bxor => shflXorSrc) n L k := by
  cases m
  · simp only [shflLane, shflIdxSrc, div_mul_sub, Option.getD_some]
  · simp only [shflLane, shflUpSrc]; split <;> rfl
  · simp only [shflLane, shflDownSrc]; split <;> rfl
  · simp only [shflLane, shflXorSrc, div_mul_sub]; split <;> rfl

theorem shfl_words (m : ShflMode) (ty : Ty) (seg : BitVec 3) (s : State) (a : Opd) (b : OpdB) (L : Nat)
    (src : Nat → Nat → Nat → Nat) (hs : ∀ n L k, (shflLane m n L k).getD L = src n L k) :
    resWords ty.wide (s.srcTy ty.wide (.reg a) ((shflLane m (segSize seg) L (s.src1 b L).toNat).getD L)) =
      bothW ty (s.reg2 a (src (32 >>> seg.toNat) L (s.src1 b L).toNat)) (s.reg1 a (src (32 >>> seg.toNat) L (s.src1 b L).toNat)) := by
  rw [hs, segSize_eq, id_words]

theorem qxch_words (ty : Ty) (s : State) (a : BitVec 7) (j : Nat) :
    resWords ty.wide (s.laneVal ty.wide a j) = bothW ty (s.reg2 (vOpd a) j) (s.reg1 (vOpd a) j) := id_words ty s (vOpd a) j

theorem seg_lanes (n : Nat) (act : List Nat) (L : Nat) : (segLanes n L).filter act.contains = segAct n act L := by
  simp only [segLanes, segAct, div_mul_sub]

theorem res_valW (ty : Ty) (v : Dword) : resWords ty.wide v = valW ty v := by
  cases hw : ty.wide <;> simp [resWords, valW, bothW, hw, lo, hi]

theorem laneVal_eq (ty : Ty) (s : State) (a : BitVec 7) (j : Nat) :
    s.laneVal ty.wide a j = if ty.wide then s.reg2 (vOpd a) j else (s.reg1 (vOpd a) j).zeroExtend 64 := by
  cases hw : ty.wide <;> rfl

theorem zext_inj (x y : Word) : zext32 x = zext32 y ↔ x = y := by
  constructor
  · intro h; have := congrArg (BitVec.extractLsb' 0 32) h; rwa [low_zext, low_zext] at this
  · rintro rfl; rfl

/-- A scan's results by position: each is the fold of what stands before it. -/
theorem scanSeg_find (op : Opn) (ty : Ty) (ex : Bool) (val : Nat → Dword) (ls : List Nat) (acc : Dword) (hs : ls.Pairwise (· < ·))
    (L : Nat) (hL : L ∈ ls) :
    ((scanSeg op ty ex val ls acc).find? fun y => decide (y.1 = L)).map (·.2) =
      some ((ls.filter fun j => decide (j < L) || (!ex && decide (j = L))).foldl (fun acc j => combine op ty acc (val j)) acc) := by
  induction ls generalizing acc with
  | nil => simp at hL
  | cons j r ih =>
    obtain ⟨hj, hr⟩ := List.pairwise_cons.mp hs
    rw [scanSeg]
    by_cases h : j = L
    · subst h
      have hf : (r.filter fun k => decide (k < j) || (!ex && decide (k = j))) = [] := by
        rw [List.filter_eq_nil_iff]
        intro k hk
        have := hj k hk
        simp; omega
      rw [List.filter_cons, hf]
      cases ex <;> simp
    · have hm : L ∈ r := by simpa [Ne.symm h] using hL
      have hlt : j < L := hj L hm
      simp only [List.find?_cons, h, decide_false]
      rw [ih _ hr hm]
      simp [hlt]

/-- The fixed tree, level by level. -/
theorem treeRed_eq (op : Opn) (ty : Ty) (k : Nat) (u : Nat → Dword) (base : Nat) (fuel : Nat) (hk : k ≤ fuel) :
    treeRed op ty ((List.range (2 ^ k)).map fun i => u (base + i)) fuel = treeOf op ty u k base := by
  have one : ∀ v f, treeRed op ty [v] f = v := by
    intro v f
    induction f with
    | zero => rfl
    | succ f ih => rw [treeRed]; exact ih
  have level : ∀ (n : Nat) (u : Nat → Dword), treeLevel op ty ((List.range (2 * n)).map u) =
      (List.range n).map fun i => combine op ty (u (2 * i)) (u (2 * i + 1)) := by
    intro n
    induction n with
    | zero => intro u; rfl
    | succ n ih =>
      intro u
      have e : (List.range (2 * (n + 1))).map u = u 0 :: u 1 :: (List.range (2 * n)).map fun i => u (i + 2) := by
        rw [show 2 * (n + 1) = 2 * n + 1 + 1 by ring, List.range_succ_eq_map, List.range_succ_eq_map]
        simp [Function.comp_def]
      rw [e, treeLevel, ih, List.range_succ_eq_map]
      simp [Function.comp_def, Nat.mul_add]
  have tree : ∀ (k : Nat) (u : Nat → Dword) (base : Nat),
      treeOf op ty (fun i => combine op ty (u (2 * i)) (u (2 * i + 1))) k base = treeOf op ty u (k + 1) (2 * base) := by
    intro k
    induction k with
    | zero => intro u base; simp [treeOf]
    | succ k ih =>
      intro u base
      rw [treeOf, ih, ih, show treeOf op ty u (k + 1 + 1) (2 * base) =
        combine op ty (treeOf op ty u (k + 1) (2 * base)) (treeOf op ty u (k + 1) (2 * base + 2 ^ (k + 1))) from rfl]
      rw [show 2 * (base + 2 ^ k) = 2 * base + 2 ^ (k + 1) by ring]
  induction k generalizing u base fuel with
  | zero => simp [one, treeOf]
  | succ k ih =>
    cases fuel with
    | zero => omega
    | succ f =>
      rw [treeRed]
      have e := level (2 ^ k) (fun i => u (base + i))
      rw [show 2 * 2 ^ k = 2 ^ (k + 1) by ring] at e
      rw [e]
      have := ih (fun i => combine op ty (u (base + 2 * i)) (u (base + 2 * i + 1))) 0 f (by omega)
      simp only [Nat.zero_add] at this
      rw [show (fun i => combine op ty (u (base + 2 * i)) (u (base + (2 * i + 1)))) =
        fun i => combine op ty (u (base + 2 * i)) (u (base + 2 * i + 1)) from rfl]
      rw [this]
      have t2 := tree k (fun i => u (base + i)) 0
      simp only [Nat.mul_zero] at t2
      rw [show (fun i => combine op ty (u (base + 2 * i)) (u (base + 2 * i + 1))) =
        fun i => combine op ty ((fun i => u (base + i)) (2 * i)) ((fun i => u (base + i)) (2 * i + 1)) from rfl, t2]
      have shift : ∀ (k b : Nat), treeOf op ty (fun i => u (base + i)) k b = treeOf op ty u k (base + b) := by
        intro k
        induction k with
        | zero => intro b; rfl
        | succ k ih => intro b; rw [treeOf, ih, ih, treeOf, Nat.add_assoc]
      exact shift _ _

theorem path_sorted (s : State) (x : XHead) : (s.active x).Pairwise (· < ·) := by
  unfold State.active State.path bits32
  exact (List.pairwise_lt_range.filter _).filter _

theorem seg_cases {seg : BitVec 3} (h : seg.toNat ≤ 4) : ∃ k, k ≤ 5 ∧ 32 >>> seg.toNat = 2 ^ k ∧ 5 - seg.toNat = k := by
  have : seg.toNat = 0 ∨ seg.toNat = 1 ∨ seg.toNat = 2 ∨ seg.toNat = 3 ∨ seg.toNat = 4 := by omega
  rcases this with h | h | h | h | h <;> rw [h]
  · exact ⟨5, by decide⟩
  · exact ⟨4, by decide⟩
  · exact ⟨3, by decide⟩
  · exact ⟨2, by decide⟩
  · exact ⟨1, by decide⟩

theorem gscan_seg {x : XHead} {ty : Ty} {opn : Opn} {ex : Bool} {seg : BitVec 3} {d a : BitVec 7}
    (h : (Instr.gscan x ty opn ex seg d a).wf = true) : seg.toNat ≤ 4 := by
  have h2 : (decide (seg.toNat ≤ 4) && opnOk opn ty) = true := (Bool.and_eq_true_iff.mp h).2
  simpa using (Bool.and_eq_true_iff.mp h2).1
theorem gred_seg {x : XHead} {ty : Ty} {opn : Opn} {seg : BitVec 3} {d a : BitVec 7}
    (h : (Instr.gred x ty opn seg d a).wf = true) : seg.toNat ≤ 4 := by
  have h2 : (decide (seg.toNat ≤ 4) && opnOk opn ty) = true := (Bool.and_eq_true_iff.mp h).2
  simpa using (Bool.and_eq_true_iff.mp h2).1

theorem segAct_sorted (n : Nat) (act : List Nat) (L : Nat) : (segAct n act L).Pairwise (· < ·) := by
  unfold segAct
  apply List.Pairwise.filter
  rw [List.pairwise_map]
  exact List.pairwise_lt_range.imp fun h => by omega

theorem mem_segAct {n : Nat} (hn : 0 < n) {act : List Nat} {L : Nat} (h : L ∈ act) : L ∈ segAct n act L := by
  simp only [segAct, List.mem_filter, List.mem_map, List.mem_range, List.contains_iff_mem]
  exact ⟨⟨L % n, Nat.mod_lt _ hn, by have := Nat.mod_le L n; omega⟩, h⟩

/-- What a cross-lane meaning and its table have in common. -/
def LaneIs (s : State) (o : Out) (r : LaneOp) : Prop :=
  ∃ f, o = s.execX r.x r.d r.srcs r.help f ∧
    ∀ L ∈ s.active r.x ++ (if r.help then s.helpers r.x else []), f (s.active r.x) L = r.f s (s.active r.x) L

theorem shfl_is (m : ShflMode) (src : Nat → Nat → Nat → Nat) (hs : ∀ n L k, (shflLane m n L k).getD L = src n L k)
    (x : XHead) (ty : Ty) (seg : BitVec 3) (n : Nat) (hn : 32 >>> seg.toNat = n) (d : BitVec 7) (a : Opd) (b : OpdB) (s : State) :
    LaneIs s (shflOp x m ty seg d a b s) (shflRes x src ty n d a b) := by
  subst hn
  exact ⟨_, rfl, fun L _ => shfl_words m ty seg s a b L src hs⟩

theorem qxch_is (x : XHead) (k : Nat) (ty : Ty) (d a : BitVec 7) (s : State) : LaneIs s (qxchOp x k ty d a s) (qxchRes x k ty d a) :=
  ⟨_, rfl, fun L _ => qxch_words ty s a (L ^^^ k)⟩

theorem match_is (x : XHead) (ty : Ty) (d a : BitVec 7) (s : State) :
    ∀ r, laneOp (.matchX x ty d a) = some r → LaneIs s (execMatchX x ty d a s) r := by
  intro r h
  simp only [laneOp, Option.some.injEq] at h
  subst h
  refine ⟨_, rfl, fun L _ => ?_⟩
  simp only [bitsOf]
  congr 2
  apply List.filter_congr
  intro j _
  rw [laneVal_eq, laneVal_eq]
  cases hty : ty.wide with
  | true => simp only [if_true]; by_cases h : s.reg2 (vOpd a) j = s.reg2 (vOpd a) L <;> simp [h]
  | false =>
    simp only [Bool.false_eq_true, if_false]
    have := zext_inj (s.reg1 (vOpd a) j) (s.reg1 (vOpd a) L)
    unfold zext32 at this
    by_cases h : s.reg1 (vOpd a) j = s.reg1 (vOpd a) L <;> simp [this, h]

theorem compact_is (x : XHead) (d : BitVec 7) (q : BitVec 3) (s : State) :
    ∀ r, laneOp (.compact x d q) = some r → LaneIs s (execCompact x d q s) r := by
  intro r h
  simp only [laneOp, Option.some.injEq] at h
  subst h
  refine ⟨_, rfl, fun L _ => ?_⟩
  simp only [w32, List.countP_eq_length_filter, List.filter_filter]
  split
  · simp only [Bool.and_comm]
  · simp only [Bool.and_comm]

theorem gscan_is {x : XHead} {ty : Ty} {opn : Opn} {ex : Bool} {seg : BitVec 3} {d a : BitVec 7} (hw : (Instr.gscan x ty opn ex seg d a).wf = true) (s : State) :
    ∀ r, laneOp (.gscan x ty opn ex seg d a) = some r → LaneIs s (execGscan x ty opn ex seg d a s) r := by
  intro r h
  simp only [laneOp, Option.some.injEq] at h
  subst h
  refine ⟨_, rfl, fun L hL => ?_⟩
  simp only [Bool.false_eq_true, if_false, List.append_nil] at hL
  simp only [seg_lanes, segSize_eq, res_valW]
  obtain ⟨k, -, hk, -⟩ := seg_cases (gscan_seg hw)
  rw [scanSeg_find opn ty ex _ _ _ (segAct_sorted _ _ _) L (mem_segAct (by rw [hk]; exact Nat.two_pow_pos k) hL)]
  simp only [Option.getD_some, laneVal_eq]

theorem gred_is {x : XHead} {ty : Ty} {opn : Opn} {seg : BitVec 3} {d a : BitVec 7} (hw : (Instr.gred x ty opn seg d a).wf = true) (s : State) :
    ∀ r, laneOp (.gred x ty opn seg d a) = some r → LaneIs s (execGred x ty opn seg d a s) r := by
  intro r h
  simp only [laneOp, Option.some.injEq] at h
  subst h
  refine ⟨_, rfl, fun L hL => ?_⟩
  obtain ⟨k, hk5, hk, hk2⟩ := seg_cases (gred_seg hw)
  simp only [segSize_eq, segLanes, List.map_map, res_valW, hk, hk2]
  have := treeRed_eq opn ty k (fun j => if (s.active x).contains j then s.laneVal ty.wide a j else combineId opn ty) (L / 2 ^ k * 2 ^ k) 5 hk5
  rw [show ((fun j => if (s.active x).contains j = true then s.laneVal ty.wide a j else combineId opn ty) ∘ fun i => L / 2 ^ k * 2 ^ k + i) =
    fun i => (fun j => if (s.active x).contains j then s.laneVal ty.wide a j else combineId opn ty) (L / 2 ^ k * 2 ^ k + i) from rfl, this]
  simp only [laneVal_eq, div_mul_sub]

/-- Every cross-lane instruction is the one cross-lane operation, whose words are those of its table. -/
theorem laneOp_exec {i : Instr} {r : LaneOp} (h : laneOp i = some r) (hw : i.wf = true) (s : State) :
    LaneIs s (exec i s) r := by
  cases i <;> simp only [laneOp, reduceCtorEq, Option.some.injEq] at h <;> subst h
  case shflIdx => exact shfl_is .idx _ (fun n L k => shflLane_eq .idx n L k) _ _ 0 32 rfl _ _ _ s
  case shflUp => exact shfl_is .up _ (fun n L k => shflLane_eq .up n L k) _ _ 0 32 rfl _ _ _ s
  case shflDown => exact shfl_is .down _ (fun n L k => shflLane_eq .down n L k) _ _ 0 32 rfl _ _ _ s
  case shflXor => exact shfl_is .bxor _ (fun n L k => shflLane_eq .bxor n L k) _ _ 0 32 rfl _ _ _ s
  case qxchH => exact qxch_is _ _ _ _ _ s
  case qxchV => exact qxch_is _ _ _ _ _ s
  case qxchD => exact qxch_is _ _ _ _ _ s
  case ballot => exact ⟨_, rfl, fun L _ => rfl⟩
  case shflIdxExt => exact shfl_is .idx _ (fun n L k => shflLane_eq .idx n L k) _ _ _ _ rfl _ _ _ s
  case shflUpExt => exact shfl_is .up _ (fun n L k => shflLane_eq .up n L k) _ _ _ _ rfl _ _ _ s
  case shflDownExt => exact shfl_is .down _ (fun n L k => shflLane_eq .down n L k) _ _ _ _ rfl _ _ _ s
  case shflXorExt => exact shfl_is .bxor _ (fun n L k => shflLane_eq .bxor n L k) _ _ _ _ rfl _ _ _ s
  case qxchHExt => exact qxch_is _ _ _ _ _ s
  case qxchVExt => exact qxch_is _ _ _ _ _ s
  case qxchDExt => exact qxch_is _ _ _ _ _ s
  case ballotExt => exact ⟨_, rfl, fun L _ => rfl⟩
  case matchX => exact match_is _ _ _ _ s _ rfl
  case compact => exact compact_is _ _ _ s _ rfl
  case gscan => exact gscan_is hw s _ rfl
  case gred => exact gred_is hw s _ rfl

/-- Votes hold their value over the active lanes of the segment. -/
theorem voteIs_exec {i : Instr} {r : VoteOp} (h : voteIs i = some r) (s : State) :
    exec i s = .next ((s.pendPred (s.active r.x) r.p true (r.f s (s.active r.x))).retire r.x) := by
  cases i <;> simp only [voteIs, reduceCtorEq, Option.some.injEq] at h <;> subst h
  case voteAny =>
    refine congrArg (fun f => Host.Outcome.next ((s.pendPred _ _ _ f).retire _)) (funext fun L => ?_)
    simp [seg_lanes, segSize_eq, List.any_map]
  case voteAll =>
    refine congrArg (fun f => Host.Outcome.next ((s.pendPred _ _ _ f).retire _)) (funext fun L => ?_)
    simp [seg_lanes, segSize_eq, List.all_map]
  case voteEq x seg p q =>
    refine congrArg (fun f => Host.Outcome.next ((s.pendPred _ _ _ f).retire _)) (funext fun L => ?_)
    simp only [seg_lanes, segSize_eq, List.all_map, Function.comp_def]
    generalize segAct (32 >>> seg.toNat) (s.active x) L = l
    rw [Bool.eq_iff_iff]
    simp only [Bool.or_eq_true, List.all_eq_true, beq_iff_eq, id_eq, Bool.not_eq_true']
    constructor
    · rintro (h | h) j hj k hk
      · rw [h j hj, h k hk]
      · rw [h j hj, h k hk]
    · intro h
      cases l with
      | nil => left; simp
      | cons j r =>
        cases hv : (s.cth j).getP q.toNat with
        | true => left; intro k hk; rw [h k hk j (by simp), hv]
        | false => right; intro k hk; rw [h k hk j (by simp), hv]

end Sys2Proof.Machine
end

