-- ==== Sys2Proof/Laws/Frame.lean ====
section
/-! SUPPORT. What operations on registers leave alone. -/

namespace Sys2Proof.Machine

variable {D : Nat → Nat → Nat → Prop} {ks : List Nat}

theorem ThreadKept.refl (a : Thread) : ThreadKept a a := rfl
theorem ThreadKept.trans {a b c : Thread} (h : ThreadKept a b) (k : ThreadKept b c) : ThreadKept a c := by
  unfold ThreadKept at *
  rw [← h, ← k]

theorem forall2_refl {α : Type} {R : α → α → Prop} (h : ∀ a, R a a) (l : List α) : List.Forall₂ R l l := by
  induction l with
  | nil => exact .nil
  | cons a r ih => exact .cons (h a) ih
theorem forall2_trans {α : Type} {R : α → α → Prop} (h : ∀ a b c, R a b → R b c → R a c) {l m n : List α}
    (h1 : List.Forall₂ R l m) (h2 : List.Forall₂ R m n) : List.Forall₂ R l n := by
  induction h1 generalizing n with
  | nil => exact h2
  | cons hab _ ih =>
    cases h2 with
    | cons hbc h2 => exact .cons (h _ _ _ hab hbc) (ih h2)
theorem forall2_map {α : Type} {R : α → α → Prop} (f : α → α) (l : List α) (h : ∀ a ∈ l, R a (f a)) : List.Forall₂ R l (l.map f) := by
  induction l with
  | nil => exact .nil
  | cons a r ih => exact .cons (h a (by simp)) (ih fun b hb => h b (by simp [hb]))
theorem forall2_set {α : Type} {R : α → α → Prop} (hr : ∀ a, R a a) (l : List α) (n : Nat) (d : α) (f : α → α) (h : R (l.getD n d) (f (l.getD n d))) :
    List.Forall₂ R l (l.set n (f (l.getD n d))) := by
  induction l generalizing n with
  | nil => exact .nil
  | cons a r ih =>
    cases n with
    | zero => exact .cons (by simpa using h) (forall2_refl hr r)
    | succ n => exact .cons (hr a) (by simpa using ih n (by simpa using h))

theorem GroupKept.refl (a : Group) : GroupKept ks a a := ⟨rfl, fun _ => rfl, forall2_refl ThreadKept.refl _, fun h => ⟨h, fun _ _ => rfl⟩⟩
theorem GroupKept.trans {a b c : Group} (h : GroupKept ks a b) (k : GroupKept ks b c) : GroupKept ks a c := by
  refine ⟨?_, fun e => (k.done e).trans (h.done e), forall2_trans (R := ThreadKept) (fun _ _ _ => ThreadKept.trans) h.threads k.threads,
    fun hw => ⟨(k.streams (h.streams hw).1).1, fun n hn => ((k.streams (h.streams hw).1).2 n hn).trans ((h.streams hw).2 n hn)⟩⟩
  have h1 := h.rest
  have k1 := k.rest
  rw [← h1, ← k1]

theorem GroupKept.setThread (g : Group) (l : Nat) (f : Thread → Thread) (h : ∀ th, ThreadKept th (f th)) :
    GroupKept ks g { g with threads := g.threads.set l (f (g.threads.getD l noThread)) } :=
  ⟨rfl, fun _ => rfl, forall2_set ThreadKept.refl _ _ _ f (h _), fun h => ⟨h, fun _ _ => rfl⟩⟩

theorem GroupKept.setStreams (f : Nat → Stream → Stream) (g : Group) :
    GroupKept ks g (ks.foldl (fun g k => g.setStream k (f k (g.stream k))) g) := by
  have key : ∀ (l : List Nat), (∀ k ∈ l, k ∈ ks) → ∀ h, GroupKept ks g h → GroupKept ks g (l.foldl (fun g k => g.setStream k (f k (g.stream k))) h) := by
    intro l
    induction l with
    | nil => intro _ h hh; exact hh
    | cons k r ih =>
      intro hl h hh
      refine ih (fun j hj => hl j (by simp [hj])) _ (hh.trans ⟨rfl, fun _ => rfl, forall2_refl ThreadKept.refl _, fun hw => ⟨tabRises_tabSet hw, fun n hn => ?_⟩⟩)
      have : n ≠ k := fun e => hn (e ▸ hl k (by simp))
      exact tabGet_tabSet_other this hw
  exact key ks (fun _ h => h) g (GroupKept.refl g)

theorem TeamKept.refl (a : Team) : TeamKept D ks a a :=
  ⟨rfl, ⟨[], by simp, by simp⟩, forall2_refl GroupKept.refl _, forall2_refl GroupKept.refl _, by cases a.lead <;> constructor; exact GroupKept.refl _⟩

theorem optRel_trans {a b c : Option Group} (h : Option.Rel (GroupKept ks) a b) (k : Option.Rel (GroupKept ks) b c) :
    Option.Rel (GroupKept ks) a c := by
  cases h with
  | none => exact k
  | some h => cases k with
    | some k => exact .some (h.trans k)

theorem TeamKept.trans {a b c : Team} (h : TeamKept D ks a b) (k : TeamKept D ks b c) : TeamKept D ks a c := by
  obtain ⟨ws, e1, d1⟩ := h.pipe
  obtain ⟨vs, e2, d2⟩ := k.pipe
  refine ⟨?_, ⟨ws ++ vs, by rw [e2, e1, List.append_assoc], fun w hw => ?_⟩,
    forall2_trans (R := GroupKept ks) (fun _ _ _ => GroupKept.trans) h.groups k.groups, forall2_trans (R := GroupKept ks) (fun _ _ _ => GroupKept.trans) h.conj k.conj,
    optRel_trans h.lead k.lead⟩
  · rw [← h.rest, ← k.rest]
  · rcases List.mem_append.mp hw with hw | hw
    · exact d1 w hw
    · exact d2 w hw

theorem TeamKept.id_eq {a b : Team} (h : TeamKept D ks a b) : b.id = a.id := by simpa using congrArg Team.id h.rest

theorem TeamKept.modGroupAt (t : Team) (n : Nat) (f : Group → Group) (h : ∀ g, GroupKept ks g (f g)) : TeamKept D ks t (t.modGroupAt n f) := by
  unfold Team.modGroupAt Team.setGroupAt Team.groupAt
  split
  · refine ⟨rfl, ⟨[], by simp, by simp⟩, forall2_refl GroupKept.refl _, forall2_refl GroupKept.refl _, ?_⟩
    cases hl : t.lead with
    | none => exact .none
    | some g => simpa [hl] using Option.Rel.some (h g)
  · refine ⟨rfl, ⟨[], by simp, by simp⟩, forall2_set GroupKept.refl _ _ _ f (h _), forall2_refl GroupKept.refl _, ?_⟩
    cases t.lead <;> constructor
    exact GroupKept.refl _

theorem TeamKept.modActor (t : Team) (a : Actor) (f : Group → Group) (h : ∀ g, GroupKept ks g (f g)) : TeamKept D ks t (t.modActor a f) := by
  cases a with
  | grp n => exact TeamKept.modGroupAt t n f h
  | lead => exact TeamKept.modGroupAt t leadGrp f h
  | conj k =>
    refine ⟨rfl, ⟨[], by simp [Team.modActor], by simp⟩, forall2_refl GroupKept.refl _, ?_, ?_⟩
    · exact forall2_map _ _ fun c _ => by
        show GroupKept ks c (if _ then f c else c)
        split
        · exact h c
        · exact GroupKept.refl c
    · show Option.Rel _ t.lead t.lead
      cases t.lead <;> constructor
      exact GroupKept.refl _

theorem TeamKept.modThreadAt (t : Team) (a : Actor) (L : Nat) (f : Thread → Thread) (h : ∀ th, ThreadKept th (f th)) :
    TeamKept D ks t (t.modThreadAt a L f) := by
  unfold Team.modThreadAt
  split
  · exact TeamKept.modGroupAt t _ _ fun g => GroupKept.setThread g _ f h
  · exact TeamKept.refl t

theorem TeamKept.foldl {α : Type} (f : Team → α → Team) (h : ∀ t x, TeamKept D ks t (f t x)) (l : List α) (t : Team) :
    TeamKept D ks t (l.foldl f t) := by
  induction l generalizing t with
  | nil => exact TeamKept.refl t
  | cons x r ih => exact (h t x).trans (ih _)

/-! ### Of the machine -/

theorem Kept.refl (s : State) : Kept D ks s s :=
  ⟨rfl, ⟨[], by simp, by simp⟩, forall2_refl (fun a => by split; exact TeamKept.refl a; rfl) _⟩

theorem Kept.cur_eq {s t : State} (h : Kept D ks s t) : t.cur = s.cur := by simpa using congrArg State.cur h.rest

theorem Kept.trans {a b c : State} (h : Kept D ks a b) (k : Kept D ks b c) : Kept D ks a c := by
  have hc := h.cur_eq
  obtain ⟨ps, e1, d1⟩ := h.pends
  obtain ⟨qs, e2, d2⟩ := k.pends
  refine ⟨?_, ⟨ps ++ qs, by rw [e2, e1, List.append_assoc], fun p hp => ?_⟩, ?_⟩
  · rw [← h.rest, ← k.rest]
  · rcases List.mem_append.mp hp with hp | hp
    · exact d1 p hp
    · have := d2 p hp; rwa [hc] at this
  · have k2 := k.teams
    rw [hc] at k2
    refine forall2_trans (R := fun a' b' => if a'.id = a.cur.team then TeamKept D ks a' b' else b' = a') (fun x y z hxy hyz => ?_) h.teams k2
    by_cases hx : x.id = a.cur.team
    · rw [if_pos hx] at hxy ⊢
      rw [if_pos (hxy.id_eq.trans hx)] at hyz
      exact hxy.trans hyz
    · rw [if_neg hx] at hxy ⊢
      subst hxy
      rwa [if_neg hx] at hyz

theorem Kept.modCt (s : State) (f : Team → Team) (h : ∀ t, TeamKept D ks t (f t)) : Kept D ks s (s.modCt f) :=
  ⟨rfl, ⟨[], by simp [State.modCt, State.modTeam], by simp⟩, forall2_map _ _ fun a _ => by
    show (if a.id = s.cur.team then TeamKept D ks a (if decide (a.id = s.cur.team) = true then f a else a)
      else (if decide (a.id = s.cur.team) = true then f a else a) = a)
    by_cases ha : a.id = s.cur.team
    · rw [if_pos ha]; simpa [ha] using h a
    · rw [if_neg ha]; simp [ha]⟩

theorem Kept.modCg (s : State) (f : Group → Group) (h : ∀ g, GroupKept ks g (f g)) : Kept D ks s (s.modCg f) :=
  Kept.modCt s _ fun t => TeamKept.modActor t _ f h

theorem Kept.fresh (s : State) : Kept D ks s s.fresh.2 :=
  ⟨rfl, ⟨[], by simp [State.fresh], by simp⟩, (Kept.refl s).teams⟩

theorem Kept.addPipe (s : State) (ws : List PipeW) (h : ∀ w ∈ ws, D w.cls w.no 1) : Kept D ks s (s.addPipe ws) :=
  Kept.modCt s _ fun t => ⟨rfl, ⟨ws, rfl, h⟩, (TeamKept.refl (D := D) t).groups, (TeamKept.refl (D := D) t).conj, (TeamKept.refl (D := D) t).lead⟩

theorem Kept.addPend (s : State) (p : Nat → Pend) (h : ∀ n, (p n).team = s.cur.team ∧ D (p n).cls (p n).no (p n).cnt) :
    Kept D ks s (s.addPend p).2 :=
  ⟨rfl, ⟨[p s.nextId], rfl, by simpa using h _⟩, (Kept.refl s).teams⟩

theorem Kept.foldl {α : Type} (f : State → α → State) (l : List α) (h : ∀ s, ∀ x ∈ l, Kept D ks s (f s x)) (s : State) :
    Kept D ks s (l.foldl f s) := by
  induction l generalizing s with
  | nil => exact Kept.refl s
  | cons x r ih => exact (h s x (by simp)).trans (ih (fun s y hy => h s y (by simp [hy])) _)

theorem Kept.retireTo (s : State) (x : XHead) (tgt : Nat → Option Dword) : Kept D ks s (s.retireTo x tgt) := by
  rw [State.retireTo_eq]
  refine Kept.modCt s _ fun t => TeamKept.foldl _ (fun t L => TeamKept.modThreadAt t _ _ _ fun th => ?_) _ t
  unfold retireThread
  split <;> rfl

theorem Kept.retire (s : State) (x : XHead) : Kept D ks s (s.retire x) := Kept.retireTo s x _

/-- The delivery of elements notes their times. -/
theorem GroupKept.groupDone (hk : ks ≠ []) (t : Nat) (g : Group) : GroupKept ks g (Group_done t false g) :=
  ⟨rfl, fun e => absurd e hk, forall2_refl ThreadKept.refl _, fun h => ⟨h, fun _ _ => rfl⟩⟩

theorem Kept.noteDone (s : State) (hk : ks ≠ []) (who : Actor) (grp t : Nat) : Kept D ks s (s.noteDone s.cur.team who grp t false) := by
  refine Kept.modCt s _ fun u => ?_
  have hf : ∀ (ns : List Nat) (u : Team), TeamKept D ks u (ns.foldl (fun tm n => tm.modGroupAt n (Group_done t false)) u) :=
    fun ns u => TeamKept.foldl _ (fun v n => TeamKept.modGroupAt v n _ (GroupKept.groupDone hk t)) ns u
  have h1 := fun a => TeamKept.modActor (D := D) u a _ (GroupKept.groupDone hk t)
  cases who with
  | conj k => exact (h1 (.conj k)).trans (hf _ _)
  | grp n => exact h1 (.grp n)
  | lead => exact h1 .lead

theorem Kept.delivered (s : State) (hk : ks ≠ []) (ns ls : List Nat) : Kept D ks s (s.delivered ns ls) := by
  unfold State.delivered
  generalize ns.flatMap (fun k => ls.filterMap fun L => s.portTime k L) = ts
  cases ts with
  | nil => exact Kept.refl s
  | cons t r => exact Kept.noteDone s hk _ _ _

theorem Kept.takePorts {s : State} {x : XHead} {srcs : List OpdB} (hp : PortsOk s x srcs) :
    Kept D (portsOf srcs) s (s.takePorts (portsOf srcs) (s.active x)).2 := by
  by_cases hk : portsOf srcs = []
  · unfold State.takePorts; rw [if_pos hk]; exact Kept.refl s
  · rw [State.takePorts_ok hp hk]
    exact (Kept.delivered s hk _ _).trans (Kept.modCg _ _ fun g => GroupKept.setStreams
      (fun k x1 => Stream_take { x1 with buf := x1.buf.filter fun _ => true } (s.active x) (Team_alive s.ct s.cur.who)) g)

/-! ### The operations -/

theorem pipeWs_names {s : State} {id lat L cls no : Nat} {vs : List Word} (h : ∀ k < vs.length, D cls (no + k) 1) :
    ∀ w ∈ s.pipeWs id lat L cls no vs, D w.cls w.no 1 := by
  intro w hw
  obtain ⟨x, hx, rfl⟩ := List.mem_map.mp hw
  obtain ⟨h1, _⟩ := List.mem_iff_getElem.mp hx
  have := List.snd_lt_of_mem_zipIdx hx
  exact h x.2 (by simpa using this)

theorem Kept.pushRes (s : State) (lat : Nat) (act help : List Nat) (d : Opd) (f : Nat → List Word)
    (h : ∀ L, ∀ k < (f L).length, D (clsCode d.cls) (d.no.toNat + k) 1) : Kept D ks s (s.pushRes lat act help d f) := by
  unfold State.pushRes
  cases hc : d.cls with
  | g =>
    simp only [hc] at h ⊢
    split
    · exact Kept.addPipe s _ (pipeWs_names (h _))
    · exact Kept.refl s
  | t =>
    simp only [hc] at h ⊢
    split
    · exact (Kept.fresh s).trans (Kept.addPipe _ _ (pipeWs_names (h _)))
    · exact Kept.refl s
  | v =>
    simp only [hc] at h ⊢
    refine Kept.addPipe s _ fun w hw => ?_
    obtain ⟨L, _, hw⟩ := List.mem_flatMap.mp hw
    exact pipeWs_names (h L) w hw
  | f =>
    simp only [hc] at h ⊢
    refine Kept.addPipe s _ fun w hw => ?_
    obtain ⟨L, _, hw⟩ := List.mem_flatMap.mp hw
    exact pipeWs_names (h L) w hw

/-- FRAME of an operation on registers with a fixed latency. -/
theorem Kept.execAlu {s : State} {x : XHead} {srcs : List OpdB} (hp : PortsOk s x srcs) (lat : Nat) (d : Opd)
    (f : Nat → List Word) (h : ∀ L, ∀ k < (f L).length, D (clsCode d.cls) (d.no.toNat + k) 1) :
    Kept D (portsOf srcs) s (s.execAlu x lat d srcs f) :=
  ((Kept.takePorts hp).trans (Kept.pushRes _ _ _ _ _ _ h)).trans (Kept.retire _ _)

theorem Kept.execCmp {s : State} {x : XHead} {srcs : List OpdB} (hp : PortsOk s x srcs) (lat : Nat) (p : BitVec 3)
    (f : Nat → Bool) (h : D 3 p.toNat 1) : Kept D (portsOf srcs) s (s.execCmp x lat p srcs f) := by
  refine ((Kept.takePorts hp).trans (Kept.addPipe _ _ fun w hw => ?_)).trans (Kept.retire _ _)
  obtain ⟨L, _, hw⟩ := List.mem_flatMap.mp hw
  refine pipeWs_names (fun k hk => ?_) w hw
  obtain rfl : k = 0 := by simpa using hk
  exact h

theorem Kept.pendRes (s : State) (act help : List Nat) (d : Opd) (xl : Bool) (f : Nat → List Word)
    (h : ∀ L, D (clsCode d.cls) d.no.toNat (f L).length) : Kept D ks s (s.pendRes act help d xl f) := by
  unfold State.pendRes
  have key : ∀ (l : List Nat) (s1 : State), s1.cur = s.cur → Kept D ks s1 (l.foldl (fun s1 L =>
      (s1.addPend fun id => { s.mkPend L (clsCode d.cls) d.no.toNat (f L).length (f L).length id with
        vals := (f L).map some, xlane := xl }).2) s1) := by
    intro l
    induction l with
    | nil => intro s1 _; exact Kept.refl s1
    | cons L r ih =>
      intro s1 h1
      exact (Kept.addPend s1 _ fun n => ⟨congrArg IssueCtx.team h1.symm, h L⟩).trans (ih _ h1)
  exact key _ s rfl

theorem Kept.pendPred (s : State) (ls : List Nat) (p : BitVec 3) (xl : Bool) (f : Nat → Bool) (h : D 3 p.toNat 1) :
    Kept D ks s (s.pendPred ls p xl f) := by
  unfold State.pendPred
  have key : ∀ (l : List Nat) (s1 : State), s1.cur = s.cur → Kept D ks s1 (l.foldl (fun s1 L =>
      (s1.addPend fun id => { s.mkPend L 3 p.toNat 1 1 id with vals := [some (if f L then 1 else 0)], xlane := xl }).2) s1) := by
    intro l
    induction l with
    | nil => intro s1 _; exact Kept.refl s1
    | cons L r ih =>
      intro s1 h1
      exact (Kept.addPend s1 _ fun n => ⟨congrArg IssueCtx.team h1.symm, h⟩).trans (ih _ h1)
  exact key _ s rfl

theorem Kept.execSfu {s : State} {x : XHead} {srcs : List OpdB} (hp : PortsOk s x srcs) (d : Opd)
    (f : Nat → List Word) (h : ∀ L, D (clsCode d.cls) d.no.toNat (f L).length) : Kept D (portsOf srcs) s (s.execSfu x d srcs f) :=
  ((Kept.takePorts hp).trans (Kept.pendRes _ _ _ _ _ _ h)).trans (Kept.retire _ _)

end Sys2Proof.Machine
end

