-- ==== Sys2Proof/Laws/Memory.lean ====
section
/-! SUPPORT. What the operations over memory do: they keep memory's canonical form, a write is read back, and it leaves
every other byte alone. -/

namespace Sys2Proof.Machine

/-! ### Serving notes what was served, and nothing else -/

theorem State.serve_rest (s : State) (keys : List Nat) (src id : Nat) (rd : Bool) : { s.serve keys src id rd with served := s.served } = s := rfl
theorem State.noteRead_rest (s : State) (keys : List Nat) : { s.noteRead keys with served := s.served } = s := rfl
theorem State.readMany_rest (s : State) : { s.readMany with served := s.served } = s := rfl
theorem State.queueServe_rest (s : State) (q src : Nat) : { s.queueServe q src with served := s.served } = s := rfl

/-! ### What leaves memory as it stands -/

theorem State.mem_modTeam (s : State) (t : Nat) (f : Team → Team) : (s.modTeam t f).mem = s.mem := rfl
theorem State.mem_modCt (s : State) (f : Team → Team) : (s.modCt f).mem = s.mem := rfl
theorem State.mem_modCore (s : State) (c : Nat) (f : Core → Core) : (s.modCore c f).mem = s.mem := rfl
theorem State.mem_modWorld (s : State) (w : Nat) (f : World → World) : (s.modWorld w f).mem = s.mem := rfl
theorem State.mem_modDie (s : State) (d : Nat) (f : Die → Die) : (s.modDie d f).mem = s.mem := rfl
theorem State.mem_noteLaunch (s : State) (l t : Nat) : (s.noteLaunch l t).mem = s.mem := rfl
theorem State.mem_noteW (s : State) (pa n w : Nat) : (s.noteW pa n w).mem = s.mem := rfl
theorem State.mem_l1Trim (s : State) (core : Nat) : (s.l1Trim core).mem = s.mem := by
  simp only [State.l1Trim]; split <;> rfl
theorem State.mem_fillL1 (s : State) (core world pa n : Nat) (long first : Bool) : (s.fillL1 core world pa n long first).mem = s.mem :=
  (State.mem_l1Trim _ core).trans rfl
theorem State.mem_setScratch (s : State) (team off : Nat) (bs : List Byte) : (s.setScratch team off bs).mem = s.mem := rfl
theorem State.mem_deliver (s : State) (t : Tgt) (ws : List Word) : (s.deliver t ws).mem = s.mem := by cases t <;> rfl
theorem State.mem_settle (s : State) (id team : Nat) (who : Actor) (grp launch t : Nat) (y : Bool) :
    (s.settle id team who grp launch t y).mem = s.mem := rfl
theorem State.mem_arriveAt (s : State) (a id world team : Nat) (who : Actor) (grp launch pa n : Nat) (op : FOp) (eng : Option Nat)
    (raw y : Bool) : (s.arriveAt a id world team who grp launch pa n op eng raw y).mem = s.mem := by
  simp only [State.arriveAt, State.mem_settle, State.mem_noteW]
theorem State.mem_arrive (s : State) (id world team : Nat) (who : Actor) (grp launch pa n : Nat) (op : FOp) (eng : Option Nat)
    (raw y : Bool) : (s.arrive id world team who grp launch pa n op eng raw y).mem = s.mem :=
  s.mem_arriveAt s.gtc id world team who grp launch pa n op eng raw y

/-- What a fold keeps when each of its steps keeps it. -/
theorem foldl_keeps {α β : Type} (P : β → Prop) (f : β → α → β) (h : ∀ b a, P b → P (f b a)) (l : List α) (b : β) (hb : P b) :
    P (l.foldl f b) := by
  induction l generalizing b with
  | nil => exact hb
  | cons a r ih => exact ih (f b a) (h b a hb)

theorem foldl_mem {α : Type} (f : State → α → State) (h : ∀ s a, (f s a).mem = s.mem) (l : List α) (s : State) :
    (l.foldl f s).mem = s.mem :=
  foldl_keeps (fun t => t.mem = s.mem) f (fun b a hb => (h b a).trans hb) l s rfl

theorem State.mem_hwStore (s : State) (team pa : Nat) (bs : List Byte) (wb : Bool) : (s.hwStore team pa bs wb).mem = s.mem := rfl
theorem State.mem_dropStack (s : State) (core : Nat) (out : StackSec → Bool) : (s.dropStack core out).mem = s.mem := by
  simp only [State.dropStack, State.mem_modCore]
  exact foldl_mem _ (fun t (x : StackSec) => t.mem_hwStore x.team (32 * x.sec) x.bytes true) _ s
theorem State.mem_stackTrim (s : State) (core : Nat) : (s.stackTrim core).mem = s.mem := by
  simp only [State.stackTrim]
  split
  · rfl
  · exact State.mem_dropStack _ _ _
theorem State.mem_putStack (s : State) (core : Nat) (x : StackSec) : (s.putStack core x).mem = s.mem :=
  (State.mem_stackTrim _ core).trans ((State.mem_l1Trim _ core).trans rfl)
theorem State.mem_setStack (s : State) (core team world pa : Nat) (bs : List Byte) : (s.setStack core team world pa bs).mem = s.mem :=
  foldl_mem _ (fun t sec => t.mem_putStack core
    { t.stackSec core team world sec with bytes := overlay (t.stackSec core team world sec).bytes (32 * sec) pa bs, dirty := true }) _ s

/-! ### The canonical form -/

theorem State.MemOk.of_eq {s t : State} (h : s.MemOk) (e : t.mem = s.mem) : t.MemOk := by
  unfold State.MemOk at *; rw [e]; exact h

theorem State.MemOk.putSector {s : State} (h : s.MemOk) (who : Option Nat) (sec pa : Nat) (bs : List Byte) :
    (s.putSector who sec pa bs).MemOk := Memory.wf_write h

theorem State.MemOk.setPhys {s : State} (h : s.MemOk) (who : Option Nat) (pa : Nat) (bs : List Byte) :
    (s.setPhys who pa bs).MemOk := by
  unfold State.setPhys
  split
  · exact Memory.wf_write h
  · exact foldl_keeps State.MemOk _ (fun t sec ht => ht.putSector who sec pa bs) _ s h

theorem State.MemOk.write {s : State} (h : s.MemOk) (who : Option Nat) (w pa : Nat) (bs : List Byte) : (s.write who w pa bs).MemOk := by
  simp only [State.write]
  split
  · exact h
  · split
    · exact (h.setPhys who pa bs).of_eq rfl
    · exact h.setPhys who pa bs

theorem State.MemOk.applyHome {s : State} (h : s.MemOk) (x : HomeSt) : (s.applyHome x).MemOk := by
  have hd (t : State) (l : List (Tgt × List Word)) : (l.foldl (fun t d => t.deliver d.1 d.2) t).mem = t.mem :=
    foldl_mem _ (fun t d => t.mem_deliver d.1 d.2) l t
  exact State.MemOk.of_eq (h.write _ _ x.pa _) (hd _ _)

theorem MemOk.applyDueFuel (n : Nat) {s : State} (h : s.MemOk) : (applyDueFuel s n).MemOk := by
  induction n generalizing s with
  | zero => exact h
  | succ n ih =>
    unfold Sys2Proof.Machine.applyDueFuel
    split
    · exact h
    · exact ih (h.applyHome _)

theorem State.MemOk.applyDue {s : State} (h : s.MemOk) : s.applyDue.MemOk := MemOk.applyDueFuel _ h

theorem State.MemOk.putNow {s : State} (h : s.MemOk) (who : Option Nat) (pa : Nat) (bs : List Byte) : (s.putNow who pa bs).MemOk :=
  (h.applyDue.write who _ pa bs).of_eq rfl

theorem State.MemOk.evictStackSec {s : State} (h : s.MemOk) (core sec : Nat) : (s.evictStackSec core sec).MemOk :=
  h.of_eq (s.mem_dropStack core _)

/-! ### Reading what was written (R75), where no sector is sealed -/

theorem State.phys_plain {s : State} {who : Option Nat} (hs : s.seals = []) (hk : s.sealKey who = none) (pa n : Nat) :
    s.phys who pa n = memBytes s.mem pa n := by
  simp [State.phys, hs, hk]

theorem State.setPhys_mem {s : State} {who : Option Nat} (hs : s.seals = []) (hk : s.sealKey who = none) (pa : Nat) (bs : List Byte) :
    (s.setPhys who pa bs).mem = memWrite s.mem pa bs := by
  have hc : (decide (s.seals = []) && decide (s.sealKey who = none)) = true := by rw [hs, hk]; rfl
  unfold State.setPhys
  rw [if_pos hc]

theorem State.setPhys_seals {s : State} {who : Option Nat} (hs : s.seals = []) (hk : s.sealKey who = none) (pa : Nat) (bs : List Byte) :
    (s.setPhys who pa bs).seals = [] := by
  have hc : (decide (s.seals = []) && decide (s.sealKey who = none)) = true := by rw [hs, hk]; rfl
  unfold State.setPhys
  rw [if_pos hc]
  exact hs

theorem State.setPhys_worlds (s : State) (who : Option Nat) (pa : Nat) (bs : List Byte) : (s.setPhys who pa bs).worlds = s.worlds := by
  unfold State.setPhys
  have hf : ∀ l : List Nat, (l.foldl (fun t sec => t.putSector who sec pa bs) s).worlds = s.worlds := fun l =>
    foldl_keeps (fun t => t.worlds = s.worlds) (fun t sec => t.putSector who sec pa bs) (fun _ _ h => h) l s rfl
  split
  · rfl
  · exact hf _

theorem State.sealKey_setPhys (s : State) (who who' : Option Nat) (pa : Nat) (bs : List Byte) :
    (s.setPhys who pa bs).sealKey who' = s.sealKey who' := by
  unfold State.sealKey State.world
  rw [State.setPhys_worlds]

/-- A write is read back. -/
theorem State.phys_setPhys {s : State} {who : Option Nat} (h : s.MemOk) (hs : s.seals = []) (hk : s.sealKey who = none) (pa : Nat)
    (bs : List Byte) : (s.setPhys who pa bs).phys who pa bs.length = bs := by
  rw [State.phys_plain (State.setPhys_seals hs hk pa bs) (by rw [State.sealKey_setPhys]; exact hk), State.setPhys_mem hs hk]
  exact memBytes_write _ _ _ h

/-- A write leaves every other byte alone. -/
theorem State.phys_setPhys_other {s : State} {who : Option Nat} (h : s.MemOk) (hs : s.seals = []) (hk : s.sealKey who = none)
    {pa b n : Nat} {bs : List Byte} (hd : b + n ≤ pa ∨ pa + bs.length ≤ b) : (s.setPhys who pa bs).phys who b n = s.phys who b n := by
  rw [State.phys_plain (State.setPhys_seals hs hk pa bs) (by rw [State.sealKey_setPhys]; exact hk), State.setPhys_mem hs hk,
    State.phys_plain hs hk]
  exact memBytes_write_other h hd

end Sys2Proof.Machine
end

