-- ==== Sys2Proof/Laws/Ops.lean ====
section
/-! SUPPORT. What the shared operations leave alone: kills, exits, barriers, records, taking an exception, resumes, the
return from one and aborts touch teams, launches and requests under way, and nothing else of the machine. -/

namespace Sys2Proof.Machine

/-- The machine without teams, launches, queues, worlds, cores and requests under way: time, memory and seals, the device's
own registers, ports and dies, sessions, the agenda and what is being issued. -/
def State.bare (s : State) : State :=
  { s with
    teams := [], launches := [], queues := [], worlds := [], cores := [], parks := [], pends := [], fences := [], escs := [],
    probes := [], lates := [], flights := [], walks := [], engines := [], egress := [], homes := [], leases := [], lastW := [],
    signals := [], nextId := 0 }

theorem State.bare_mem {s t : State} (h : t.bare = s.bare) : t.mem = s.mem :=
  (congrArg State.mem h : t.bare.mem = s.bare.mem)
theorem State.bare_seals {s t : State} (h : t.bare = s.bare) : t.seals = s.seals :=
  (congrArg State.seals h : t.bare.seals = s.bare.seals)
theorem State.bare_gtc {s t : State} (h : t.bare = s.bare) : t.gtc = s.gtc :=
  (congrArg State.gtc h : t.bare.gtc = s.bare.gtc)
theorem State.bare_cur {s t : State} (h : t.bare = s.bare) : t.cur = s.cur :=
  (congrArg State.cur h : t.bare.cur = s.bare.cur)
theorem State.bare_agenda {s t : State} (h : t.bare = s.bare) : t.agenda = s.agenda :=
  (congrArg State.agenda h : t.bare.agenda = s.bare.agenda)
theorem State.bare_dies {s t : State} (h : t.bare = s.bare) : t.dies = s.dies :=
  (congrArg State.dies h : t.bare.dies = s.bare.dies)
theorem State.bare_nextTeam {s t : State} (h : t.bare = s.bare) : t.nextTeam = s.nextTeam :=
  (congrArg State.nextTeam h : t.bare.nextTeam = s.bare.nextTeam)

theorem bare_foldl {α : Type} (f : State → α → State) (h : ∀ s a, (f s a).bare = s.bare) (l : List α) (s : State) :
    (l.foldl f s).bare = s.bare :=
  foldl_keeps (fun t => t.bare = s.bare) f (fun b a hb => (h b a).trans hb) l s rfl

/-! ### Plain updates -/

@[simp] theorem State.bare_modTeam (s : State) (t : Nat) (f : Team → Team) : (s.modTeam t f).bare = s.bare := rfl
@[simp] theorem State.bare_modCt (s : State) (f : Team → Team) : (s.modCt f).bare = s.bare := rfl
@[simp] theorem State.bare_modCg (s : State) (f : Group → Group) : (s.modCg f).bare = s.bare := rfl
@[simp] theorem State.bare_modLaunch (s : State) (l : Nat) (f : Launch → Launch) : (s.modLaunch l f).bare = s.bare := rfl
@[simp] theorem State.bare_modQueue (s : State) (q : Nat) (f : Queue → Queue) : (s.modQueue q f).bare = s.bare := rfl
@[simp] theorem State.bare_modWorld (s : State) (w : Nat) (f : World → World) : (s.modWorld w f).bare = s.bare := rfl
@[simp] theorem State.bare_modCore (s : State) (c : Nat) (f : Core → Core) : (s.modCore c f).bare = s.bare := rfl
@[simp] theorem State.bare_fresh (s : State) : s.fresh.2.bare = s.bare := rfl
@[simp] theorem State.bare_noteLaunch (s : State) (l t : Nat) : (s.noteLaunch l t).bare = s.bare := rfl
@[simp] theorem State.bare_noteW (s : State) (pa n w : Nat) : (s.noteW pa n w).bare = s.bare := rfl
@[simp] theorem State.bare_settle (s : State) (id team : Nat) (who : Actor) (grp launch t : Nat) (y : Bool) :
    (s.settle id team who grp launch t y).bare = s.bare := rfl
theorem State.bare_homes (s : State) (h : List HomeSt) : State.bare { s with homes := h } = s.bare := rfl

@[simp] theorem State.bare_arriveAt (s : State) (a id world team : Nat) (who : Actor) (grp launch pa n : Nat) (op : FOp)
    (eng : Option Nat) (raw y : Bool) : (s.arriveAt a id world team who grp launch pa n op eng raw y).bare = s.bare := by
  simp only [State.arriveAt, State.bare_homes, State.bare_settle, State.bare_noteW]

@[simp] theorem State.bare_arrive (s : State) (id world team : Nat) (who : Actor) (grp launch pa n : Nat) (op : FOp)
    (eng : Option Nat) (raw y : Bool) : (s.arrive id world team who grp launch pa n op eng raw y).bare = s.bare :=
  s.bare_arriveAt s.gtc id world team who grp launch pa n op eng raw y

@[simp] theorem State.bare_hwStore (s : State) (team pa : Nat) (bs : List Byte) (wb : Bool) : (s.hwStore team pa bs wb).bare = s.bare := rfl

@[simp] theorem State.bare_dropStack (s : State) (core : Nat) (out : StackSec → Bool) : (s.dropStack core out).bare = s.bare := by
  simp only [State.dropStack, State.bare_modCore]
  exact bare_foldl _ (fun t (x : StackSec) => t.bare_hwStore x.team (32 * x.sec) x.bytes true) _ s

/-! ### Operations of instructions over registers -/

@[simp] theorem State.bare_retireTo (s : State) (x : XHead) (tgt : Nat → Option Dword) : (s.retireTo x tgt).bare = s.bare := rfl
@[simp] theorem State.bare_retire (s : State) (x : XHead) : (s.retire x).bare = s.bare := rfl
@[simp] theorem State.bare_addPipe (s : State) (ws : List PipeW) : (s.addPipe ws).bare = s.bare := rfl
@[simp] theorem State.bare_addPend (s : State) (p : Nat → Pend) : (s.addPend p).2.bare = s.bare := rfl

/-! ### Errors, barriers, exits and kills (R19, R71, R123, R153, R154, R213, R214) -/

@[simp] theorem State.bare_sticky (s : State) (launch bit : Nat) (tied : Option (Dword × Word)) : (s.sticky launch bit tied).bare = s.bare := rfl

@[simp] theorem State.bare_barCheck (s : State) (team n : Nat) : (s.barCheck team n).bare = s.bare := by
  simp only [State.barCheck]; split <;> rfl

@[simp] theorem State.bare_barRelease (s : State) (team n : Nat) : (s.barRelease team n).bare = s.bare := rfl

@[simp] theorem State.bare_cbarCheck (s : State) (launch cl : Nat) : (s.cbarCheck launch cl).bare = s.bare := by
  simp only [State.cbarCheck]; split <;> rfl

@[simp] theorem State.bare_cbarRelease (s : State) (launch cl : Nat) : (s.cbarRelease launch cl).bare = s.bare := by
  simp only [State.cbarRelease, State.bare_modLaunch]
  exact bare_foldl _ (fun t (h : BarHold) => bare_foldl _ (fun u (x : Team) => State.bare_modTeam u x.id fun y => Team_barEnd y 16 h.gen) _ t) _ s

@[simp] theorem State.bare_barAll (s : State) (team : Nat) : (s.barAll team).bare = s.bare := by
  simp only [State.barAll, State.bare_cbarRelease, State.bare_cbarCheck]
  exact bare_foldl _ (fun t n => by simp only [State.bare_barRelease, State.bare_barCheck]) _ s

@[simp] theorem State.bare_flushStack (s : State) (team : Nat) : (s.flushStack team).bare = s.bare :=
  s.bare_dropStack _ _

@[simp] theorem State.bare_freeCore (s : State) (team : Nat) : (s.freeCore team).bare = s.bare := by
  simp only [State.freeCore, State.bare_modTeam, State.bare_modCore, State.bare_flushStack]

@[simp] theorem State.bare_swapId (s : State) (old : Nat) (news : List Nat) : (s.swapId old news).bare = s.bare := rfl

@[simp] theorem State.bare_forget (s : State) (ids : List Nat) : (s.forget ids).bare = s.bare :=
  bare_foldl _ (fun t i => t.bare_swapId i []) ids s

@[simp] theorem State.bare_wmUpdate (s : State) (team : Nat) (ts : List Nat) : (s.wmUpdate team ts).bare = s.bare :=
  bare_foldl (fun s' md => s'.modTeam team fun t => t.setTile md (Tile_wmSet (t.tile md) (s.cycle (s.team team).core) (s.leadingFinal team md)))
    (fun _ _ => rfl) ts s

@[simp] theorem State.bare_dropProbes (s : State) (gone : Probe → Bool) : (s.dropProbes gone).bare = s.bare := by
  simp only [State.dropProbes]
  exact (bare_foldl _ (fun t (p : Probe) => t.bare_wmUpdate p.team _) _ _).trans (State.bare_forget _ _)

@[simp] theorem State.bare_leaveProbes (s : State) (team g : Nat) : (s.leaveProbes team g).bare = s.bare :=
  (State.bare_dropProbes _ _).trans rfl

theorem State.bare_lists (s : State) (a : List Team) (b : List Pend) (c : List Fence) (d : List EscReq) (e : List Late) (f : List Park) :
    State.bare { s with teams := a, pends := b, fences := c, escs := d, lates := e, parks := f } = s.bare := rfl

@[simp] theorem State.bare_dropTeam (s : State) (team : Nat) : (s.dropTeam team).bare = s.bare := by
  simp only [State.dropTeam, State.bare_lists, State.bare_dropProbes, State.bare_modLaunch, State.bare_modQueue]
  split <;> simp only [State.bare_freeCore]

@[simp] theorem State.bare_endTeam (s : State) (team : Nat) : (s.endTeam team).bare = s.bare := by
  simp only [State.endTeam]
  split
  · rfl
  · split
    · split <;> simp only [State.bare_dropTeam, State.bare_flushStack]
    · rfl

@[simp] theorem State.bare_abandonTeam (s : State) (team : Nat) : (s.abandonTeam team).bare = s.bare := by
  simp only [State.abandonTeam]
  split <;> (try split) <;> simp only [State.bare_dropTeam, State.bare_modTeam, State.bare_flushStack]

@[simp] theorem State.bare_afterExit (s : State) (team g : Nat) : (s.afterExit team g).bare = s.bare := by
  simp only [State.afterExit, State.bare_endTeam, State.bare_barAll, State.bare_modTeam]

@[simp] theorem State.bare_exitThread (s : State) (team g l : Nat) : (s.exitThread team g l).bare = s.bare := rfl

theorem State.bare_killLists (s : State) (b : List Pend) (c : List Fence) (f : List Park) :
    State.bare { s with pends := b, fences := c, parks := f } = s.bare := rfl

@[simp] theorem State.bare_killOne (s : State) (team g : Nat) : (s.killOne team g).bare = s.bare := by
  simp only [State.killOne, State.bare_afterExit, State.bare_killLists, State.bare_forget, State.bare_leaveProbes, State.bare_modTeam]

theorem State.bare_killAll (s : State) (team : Nat) (gs : List Nat) :
    (gs.foldl (fun s g => if (s.team? team).isSome then s.killOne team g else s) s).bare = s.bare :=
  bare_foldl _ (fun t g => by split <;> simp only [State.bare_killOne]) gs s

/-- A kill (R213). -/
@[simp] theorem State.bare_killActor (s : State) (team : Nat) (a : Actor) (bit : Nat) (tied : Option (Dword × Word)) :
    (s.killActor team a bit tied).bare = s.bare := by
  simp only [State.killActor, State.bare_killAll, State.bare_sticky]

@[simp] theorem State.bare_killCur (s : State) (bit : Nat) : (s.killCur bit).bare = s.bare := s.bare_killActor _ _ _ _

/-! ### Records and interrupts (R215, R216, R314) -/

theorem State.bare_signals (s : State) (x : List (Nat × Nat)) : State.bare { s with signals := x } = s.bare := rfl

@[simp] theorem State.bare_signal (s : State) (world vec : Nat) : (s.signal world vec).bare = s.bare := by
  simp only [State.signal]; split <;> rfl

@[simp] theorem State.bare_flushVectors (s : State) (world : Nat) : (s.flushVectors world).bare = s.bare :=
  bare_foldl _ (fun t v => by split <;> simp only [State.bare_signal, State.bare_modWorld]) _ s

@[simp] theorem State.bare_pushRecs (s : State) (world : Nat) (rs : List FRec) : (s.pushRecs world rs).bare = s.bare := rfl

@[simp] theorem State.bare_pushRec (s : State) (world : Nat) (r : FRec) : (s.pushRec world r).bare = s.bare := rfl

/-! ### Taking an exception and returning from one (R112, R217, R219, R235) -/

theorem State.bare_parks (s : State) (p : List Park) : State.bare { s with parks := p } = s.bare := rfl

@[simp] theorem State.bare_leaveHandler (s : State) (p : Park) : (s.leaveHandler p).bare = s.bare := rfl

@[simp] theorem State.bare_yieldHandler (s : State) (team : Nat) (a : Actor) : (s.yieldHandler team a).bare = s.bare := by
  simp only [State.yieldHandler]
  split
  · rfl
  · split <;> simp only [State.bare_leaveHandler]

@[simp] theorem State.bare_enterHandler (s : State) (team : Nat) (a : Actor) : (s.enterHandler team a).bare = s.bare := by
  simp only [State.enterHandler]
  split
  · rfl
  · split
    · rfl
    · simp only [State.bare_parks, State.bare_modTeam]

/-- Taking an exception. -/
@[simp] theorem State.bare_takeFault (s : State) (c : IssueCtx) (fs : List LaneFlt) (way : FltWay) : (s.takeFault c fs way).bare = s.bare := by
  simp only [State.takeFault]
  split
  · rfl
  · split
    · simp only [State.bare_killActor]
    · simp only [apply_ite State.bare, State.bare_enterHandler, State.bare_yieldHandler, State.bare_parks, State.bare_modTeam, State.bare_pushRecs,
        State.bare_fresh, ite_self]

@[simp] theorem State.bare_resumePark (s : State) (p : Park) (act : Action) : (s.resumePark p act).bare = s.bare := by
  simp only [State.resumePark]
  split <;> simp only [State.bare_killAll, State.bare_sticky, State.bare_parks, State.bare_modTeam]

@[simp] theorem State.bare_resumeTag (s : State) (tag : Word) (act : Action) : (s.resumeTag tag act).bare = s.bare := by
  simp only [State.resumeTag]
  split <;> simp only [State.bare_resumePark]

theorem State.bare_launches (s : State) (l : List Launch) : State.bare { s with launches := l } = s.bare := rfl

/-- A resume by FQRES. -/
@[simp] theorem State.bare_resume (s : State) (world : Nat) (tag : Word) (act : Action) : (s.resume world tag act).bare = s.bare := by
  simp only [State.resume]
  split
  · split <;> rfl
  · split <;> simp only [State.bare_resumeTag, State.bare_modTeam]

/-- The return from an exception. -/
@[simp] theorem State.bare_eretActor (s : State) (team : Nat) (a : Actor) (act : Action) : (s.eretActor team a act).bare = s.bare := by
  simp only [State.eretActor]
  split
  · rfl
  · split <;> simp only [State.bare_killActor, State.bare_enterHandler, State.bare_parks, State.bare_modTeam]

/-! ### Aborts (R131, R242) -/

@[simp] theorem State.bare_abortLaunch (s : State) (id : Nat) : (s.abortLaunch id).bare = s.bare := by
  simp only [State.abortLaunch]
  exact (bare_foldl _ (fun t x => by simp only [State.bare_abandonTeam]) _ _).trans rfl

@[simp] theorem State.bare_integrity (s : State) (id line source : Nat) : (s.integrity id line source).bare = s.bare := by
  simp only [State.integrity, State.bare_signal]
  split <;> simp only [State.bare_pushRec, State.bare_abortLaunch, State.bare_sticky, State.bare_fresh]

/-- Memory's form is kept by whatever changes nothing of the bare machine. -/
theorem State.MemOk.of_bare {s t : State} (h : s.MemOk) (e : t.bare = s.bare) : t.MemOk := h.of_eq (State.bare_mem e)

end Sys2Proof.Machine
end

