-- ==== Sys2Proof/Laws/Held.lean ====
section
/-! SUPPORT. What holding an instruction that issued, and installing and putting back its registers, leave alone. -/

namespace Sys2Proof.Machine

/-- Installing an issue changes its team's registers and the instruction in hand. -/
theorem State.bare_installed (s : State) (p : Probe) (h : Issued) :
    (s.installed p h).bare = { s.bare with cur := (s.installed p h).cur } := rfl

@[simp] theorem State.installed_mem (s : State) (p : Probe) (h : Issued) : (s.installed p h).mem = s.mem := rfl
@[simp] theorem State.installed_seals (s : State) (p : Probe) (h : Issued) : (s.installed p h).seals = s.seals := rfl
@[simp] theorem State.installed_gtc (s : State) (p : Probe) (h : Issued) : (s.installed p h).gtc = s.gtc := rfl
@[simp] theorem State.installed_probes (s : State) (p : Probe) (h : Issued) : (s.installed p h).probes = s.probes := rfl
@[simp] theorem State.installed_flights (s : State) (p : Probe) (h : Issued) : (s.installed p h).flights = s.flights := rfl
@[simp] theorem State.installed_engines (s : State) (p : Probe) (h : Issued) : (s.installed p h).engines = s.engines := rfl
@[simp] theorem State.installed_nextId (s : State) (p : Probe) (h : Issued) : (s.installed p h).nextId = s.nextId := rfl

/-- Putting registers back changes teams alone. -/
@[simp] theorem State.bare_putBack (s o : State) (p : Probe) (h : Issued) : (s.putBack o p h).bare = s.bare := rfl

@[simp] theorem State.putBack_mem (s o : State) (p : Probe) (h : Issued) : (s.putBack o p h).mem = s.mem := rfl
@[simp] theorem State.putBack_probes (s o : State) (p : Probe) (h : Issued) : (s.putBack o p h).probes = s.probes := rfl
@[simp] theorem State.putBack_flights (s o : State) (p : Probe) (h : Issued) : (s.putBack o p h).flights = s.flights := rfl

@[simp] theorem State.bare_delivered (s : State) (ks act : List Nat) : (s.delivered ks act).bare = s.bare := by
  unfold State.delivered; split <;> rfl

@[simp] theorem State.bare_takePorts (s : State) (ks act : List Nat) : (s.takePorts ks act).2.bare = s.bare := by
  unfold State.takePorts State.pullPorts
  split
  · rfl
  · simp only [State.bare_takeFault, State.bare_modCg, State.bare_delivered]

/-- HOLDING AN INSTRUCTION touches teams and what is under way: memory and the rest of the machine stand. -/
@[simp] theorem State.bare_holdInstr (s : State) (i : Instr) : (s.holdInstr i).bare = s.bare := by
  have h (t : State) (l : List Probe) : State.bare { t with probes := l } = t.bare := rfl
  unfold State.holdInstr
  simp only
  split
  · simp only [State.bare_retire, State.bare_takePorts]
  · simp only [State.bare_retire, State.bare_wmUpdate]
    split
    · split <;> simp only [State.bare_modCg, h, State.bare_fresh, State.bare_takePorts]
    · simp only [h, State.bare_fresh, State.bare_takePorts]

theorem State.holdInstr_mem (s : State) (i : Instr) : (s.holdInstr i).mem = s.mem := State.bare_mem (s.bare_holdInstr i)

/-- What is held is what issued, for its lanes, with the registers as they stand. -/
theorem State.heldProbe_held (s : State) (id : Nat) (i : Instr) (act : List Nat) :
    ∃ h, (s.heldProbe id i act).held = some h ∧ (s.heldProbe id i act).instr = i ∧ (s.heldProbe id i act).id = id ∧
      (s.heldProbe id i act).lanes.map (·.pos) = act ∧ h.ctx = { s.cur with mask := maskOf act } ∧ h.g = s.cg.g ∧ h.t = s.ct.t ∧
      h.regs = act.map fun L => ((s.cth L).v, (s.cth L).p) := by
  refine ⟨_, rfl, rfl, rfl, ?_, rfl, rfl, rfl, rfl⟩
  simp [State.heldProbe, List.map_map, Function.comp_def]

end Sys2Proof.Machine
end

