-- ==== Sys2Proof/Laws/PerInstr.lean ====
section
/-! SUPPORT. One lemma for each instruction: its words read back as its fields, and its fields as the instruction. -/

namespace Sys2Proof.Laws.Round

/-- The words of a well-formed instruction give its fields back, and the fields the instruction. -/
def Statement (i : Instr) : Prop :=
  i.wf = true → ∀ r, i.raw = some r → Raw.ofWords r.words = some r ∧ r.parse = some i

theorem mov (stl : BitVec 3) (d : BitVec 7) (a : BitVec 7) : Statement (.mov stl d a) := by
  intro hw r hr
  injection hr with hr
  simp only [rawB] at hr
  refine ⟨Raw.ofWords_words _ (by subst hr; simp [Raw.tight]), ?_⟩
  rw [Raw.parse_base (by subst hr; simp), parseBase, show r.op.toNat = 0 by subst hr; rfl]
  simp only []
  subst hr
  simp only []

theorem movi (stl : BitVec 3) (d : BitVec 7) (imm : Dword) : Statement (.movi stl d imm) := by
  intro hw r hr
  injection hr with hr
  simp only [rawB] at hr
  refine ⟨Raw.ofWords_words _ (by subst hr; simp [Raw.tight]), ?_⟩
  rw [Raw.parse_base (by subst hr; simp), parseBase, show r.op.toNat = 1 by subst hr; rfl]
  simp only []
  subst hr
  simp only []

theorem iadd (stl : BitVec 3) (d : BitVec 7) (a : BitVec 7) (b : BaseB) : Statement (.iadd stl d a b) := by
  intro hw r hr
  injection hr with hr
  cases b <;> (
    simp only [rawB, Raw.bB] at hr
    refine ⟨Raw.ofWords_words _ (by subst hr; simp [Raw.tight]), ?_⟩
    rw [Raw.parse_base (by subst hr; simp), parseBase, show r.op.toNat = 2 by subst hr; rfl]
    simp only []
    subst hr
    simp only [Raw.baseB, Raw.isLit]
    simp)

theorem isub (stl : BitVec 3) (d : BitVec 7) (a : BitVec 7) (b : BaseB) : Statement (.isub stl d a b) := by
  intro hw r hr
  injection hr with hr
  cases b <;> (
    simp only [rawB, Raw.bB] at hr
    refine ⟨Raw.ofWords_words _ (by subst hr; simp [Raw.tight]), ?_⟩
    rw [Raw.parse_base (by subst hr; simp), parseBase, show r.op.toNat = 3 by subst hr; rfl]
    simp only []
    subst hr
    simp only [Raw.baseB, Raw.isLit]
    simp)

theorem imul (stl : BitVec 3) (d : BitVec 7) (a : BitVec 7) (b : BaseB) : Statement (.imul stl d a b) := by
  intro hw r hr
  injection hr with hr
  cases b <;> (
    simp only [rawB, Raw.bB] at hr
    refine ⟨Raw.ofWords_words _ (by subst hr; simp [Raw.tight]), ?_⟩
    rw [Raw.parse_base (by subst hr; simp), parseBase, show r.op.toNat = 4 by subst hr; rfl]
    simp only []
    subst hr
    simp only [Raw.baseB, Raw.isLit]
    simp)

theorem imulh (stl : BitVec 3) (d : BitVec 7) (a : BitVec 7) (b : BaseB) : Statement (.imulh stl d a b) := by
  intro hw r hr
  injection hr with hr
  cases b <;> (
    simp only [rawB, Raw.bB] at hr
    refine ⟨Raw.ofWords_words _ (by subst hr; simp [Raw.tight]), ?_⟩
    rw [Raw.parse_base (by subst hr; simp), parseBase, show r.op.toNat = 5 by subst hr; rfl]
    simp only []
    subst hr
    simp only [Raw.baseB, Raw.isLit]
    simp)

theorem imin (stl : BitVec 3) (d : BitVec 7) (a : BitVec 7) (b : BaseB) : Statement (.imin stl d a b) := by
  intro hw r hr
  injection hr with hr
  cases b <;> (
    simp only [rawB, Raw.bB] at hr
    refine ⟨Raw.ofWords_words _ (by subst hr; simp [Raw.tight]), ?_⟩
    rw [Raw.parse_base (by subst hr; simp), parseBase, show r.op.toNat = 6 by subst hr; rfl]
    simp only []
    subst hr
    simp only [Raw.baseB, Raw.isLit]
    simp)

theorem imax (stl : BitVec 3) (d : BitVec 7) (a : BitVec 7) (b : BaseB) : Statement (.imax stl d a b) := by
  intro hw r hr
  injection hr with hr
  cases b <;> (
    simp only [rawB, Raw.bB] at hr
    refine ⟨Raw.ofWords_words _ (by subst hr; simp [Raw.tight]), ?_⟩
    rw [Raw.parse_base (by subst hr; simp), parseBase, show r.op.toNat = 7 by subst hr; rfl]
    simp only []
    subst hr
    simp only [Raw.baseB, Raw.isLit]
    simp)

theorem iand (stl : BitVec 3) (d : BitVec 7) (a : BitVec 7) (b : BaseB) : Statement (.iand stl d a b) := by
  intro hw r hr
  injection hr with hr
  cases b <;> (
    simp only [rawB, Raw.bB] at hr
    refine ⟨Raw.ofWords_words _ (by subst hr; simp [Raw.tight]), ?_⟩
    rw [Raw.parse_base (by subst hr; simp), parseBase, show r.op.toNat = 8 by subst hr; rfl]
    simp only []
    subst hr
    simp only [Raw.baseB, Raw.isLit]
    simp)

theorem ior (stl : BitVec 3) (d : BitVec 7) (a : BitVec 7) (b : BaseB) : Statement (.ior stl d a b) := by
  intro hw r hr
  injection hr with hr
  cases b <;> (
    simp only [rawB, Raw.bB] at hr
    refine ⟨Raw.ofWords_words _ (by subst hr; simp [Raw.tight]), ?_⟩
    rw [Raw.parse_base (by subst hr; simp), parseBase, show r.op.toNat = 9 by subst hr; rfl]
    simp only []
    subst hr
    simp only [Raw.baseB, Raw.isLit]
    simp)

theorem ixor (stl : BitVec 3) (d : BitVec 7) (a : BitVec 7) (b : BaseB) : Statement (.ixor stl d a b) := by
  intro hw r hr
  injection hr with hr
  cases b <;> (
    simp only [rawB, Raw.bB] at hr
    refine ⟨Raw.ofWords_words _ (by subst hr; simp [Raw.tight]), ?_⟩
    rw [Raw.parse_base (by subst hr; simp), parseBase, show r.op.toNat = 10 by subst hr; rfl]
    simp only []
    subst hr
    simp only [Raw.baseB, Raw.isLit]
    simp)

theorem inot (stl : BitVec 3) (d : BitVec 7) (a : BitVec 7) : Statement (.inot stl d a) := by
  intro hw r hr
  injection hr with hr
  simp only [rawB] at hr
  refine ⟨Raw.ofWords_words _ (by subst hr; simp [Raw.tight]), ?_⟩
  rw [Raw.parse_base (by subst hr; simp), parseBase, show r.op.toNat = 11 by subst hr; rfl]
  simp only []
  subst hr
  simp only []

theorem shl (stl : BitVec 3) (d : BitVec 7) (a : BitVec 7) (b : BaseB) : Statement (.shl stl d a b) := by
  intro hw r hr
  injection hr with hr
  cases b <;> (
    simp only [rawB, Raw.bB] at hr
    refine ⟨Raw.ofWords_words _ (by subst hr; simp [Raw.tight]), ?_⟩
    rw [Raw.parse_base (by subst hr; simp), parseBase, show r.op.toNat = 12 by subst hr; rfl]
    simp only []
    subst hr
    simp only [Raw.baseB, Raw.isLit]
    simp)

theorem shr (stl : BitVec 3) (d : BitVec 7) (a : BitVec 7) (b : BaseB) : Statement (.shr stl d a b) := by
  intro hw r hr
  injection hr with hr
  cases b <;> (
    simp only [rawB, Raw.bB] at hr
    refine ⟨Raw.ofWords_words _ (by subst hr; simp [Raw.tight]), ?_⟩
    rw [Raw.parse_base (by subst hr; simp), parseBase, show r.op.toNat = 13 by subst hr; rfl]
    simp only []
    subst hr
    simp only [Raw.baseB, Raw.isLit]
    simp)

theorem sar (stl : BitVec 3) (d : BitVec 7) (a : BitVec 7) (b : BaseB) : Statement (.sar stl d a b) := by
  intro hw r hr
  injection hr with hr
  cases b <;> (
    simp only [rawB, Raw.bB] at hr
    refine ⟨Raw.ofWords_words _ (by subst hr; simp [Raw.tight]), ?_⟩
    rw [Raw.parse_base (by subst hr; simp), parseBase, show r.op.toNat = 14 by subst hr; rfl]
    simp only []
    subst hr
    simp only [Raw.baseB, Raw.isLit]
    simp)

theorem lea (stl : BitVec 3) (d : BitVec 7) (a : BitVec 7) (b : BaseB) : Statement (.lea stl d a b) := by
  intro hw r hr
  injection hr with hr
  cases b <;> (
    simp only [rawB, Raw.bB] at hr
    refine ⟨Raw.ofWords_words _ (by subst hr; simp [Raw.tight]), ?_⟩
    rw [Raw.parse_base (by subst hr; simp), parseBase, show r.op.toNat = 15 by subst hr; rfl]
    simp only []
    subst hr
    simp only [Raw.baseB, Raw.isLit]
    simp)

theorem fadd (stl : BitVec 3) (d : BitVec 7) (a : BitVec 7) (b : BaseB) : Statement (.fadd stl d a b) := by
  intro hw r hr
  injection hr with hr
  cases b <;> (
    simp only [rawB, Raw.bB] at hr
    refine ⟨Raw.ofWords_words _ (by subst hr; simp [Raw.tight]), ?_⟩
    rw [Raw.parse_base (by subst hr; simp), parseBase, show r.op.toNat = 16 by subst hr; rfl]
    simp only []
    subst hr
    simp only [Raw.baseB, Raw.isLit]
    simp)

theorem fsub (stl : BitVec 3) (d : BitVec 7) (a : BitVec 7) (b : BaseB) : Statement (.fsub stl d a b) := by
  intro hw r hr
  injection hr with hr
  cases b <;> (
    simp only [rawB, Raw.bB] at hr
    refine ⟨Raw.ofWords_words _ (by subst hr; simp [Raw.tight]), ?_⟩
    rw [Raw.parse_base (by subst hr; simp), parseBase, show r.op.toNat = 17 by subst hr; rfl]
    simp only []
    subst hr
    simp only [Raw.baseB, Raw.isLit]
    simp)

theorem fmul (stl : BitVec 3) (d : BitVec 7) (a : BitVec 7) (b : BaseB) : Statement (.fmul stl d a b) := by
  intro hw r hr
  injection hr with hr
  cases b <;> (
    simp only [rawB, Raw.bB] at hr
    refine ⟨Raw.ofWords_words _ (by subst hr; simp [Raw.tight]), ?_⟩
    rw [Raw.parse_base (by subst hr; simp), parseBase, show r.op.toNat = 18 by subst hr; rfl]
    simp only []
    subst hr
    simp only [Raw.baseB, Raw.isLit]
    simp)

theorem fmin (stl : BitVec 3) (d : BitVec 7) (a : BitVec 7) (b : BaseB) : Statement (.fmin stl d a b) := by
  intro hw r hr
  injection hr with hr
  cases b <;> (
    simp only [rawB, Raw.bB] at hr
    refine ⟨Raw.ofWords_words _ (by subst hr; simp [Raw.tight]), ?_⟩
    rw [Raw.parse_base (by subst hr; simp), parseBase, show r.op.toNat = 19 by subst hr; rfl]
    simp only []
    subst hr
    simp only [Raw.baseB, Raw.isLit]
    simp)

theorem fmax (stl : BitVec 3) (d : BitVec 7) (a : BitVec 7) (b : BaseB) : Statement (.fmax stl d a b) := by
  intro hw r hr
  injection hr with hr
  cases b <;> (
    simp only [rawB, Raw.bB] at hr
    refine ⟨Raw.ofWords_words _ (by subst hr; simp [Raw.tight]), ?_⟩
    rw [Raw.parse_base (by subst hr; simp), parseBase, show r.op.toNat = 20 by subst hr; rfl]
    simp only []
    subst hr
    simp only [Raw.baseB, Raw.isLit]
    simp)

theorem ftoi (stl : BitVec 3) (d : BitVec 7) (a : BitVec 7) : Statement (.ftoi stl d a) := by
  intro hw r hr
  injection hr with hr
  simp only [rawB] at hr
  refine ⟨Raw.ofWords_words _ (by subst hr; simp [Raw.tight]), ?_⟩
  rw [Raw.parse_base (by subst hr; simp), parseBase, show r.op.toNat = 21 by subst hr; rfl]
  simp only []
  subst hr
  simp only []

theorem itof (stl : BitVec 3) (d : BitVec 7) (a : BitVec 7) : Statement (.itof stl d a) := by
  intro hw r hr
  injection hr with hr
  simp only [rawB] at hr
  refine ⟨Raw.ofWords_words _ (by subst hr; simp [Raw.tight]), ?_⟩
  rw [Raw.parse_base (by subst hr; simp), parseBase, show r.op.toNat = 22 by subst hr; rfl]
  simp only []
  subst hr
  simp only []

theorem frnd (stl : BitVec 3) (d : BitVec 7) (a : BitVec 7) : Statement (.frnd stl d a) := by
  intro hw r hr
  injection hr with hr
  simp only [rawB] at hr
  refine ⟨Raw.ofWords_words _ (by subst hr; simp [Raw.tight]), ?_⟩
  rw [Raw.parse_base (by subst hr; simp), parseBase, show r.op.toNat = 23 by subst hr; rfl]
  simp only []
  subst hr
  simp only []

theorem fcvtF16F32 (stl : BitVec 3) (d : BitVec 7) (a : BitVec 7) : Statement (.fcvtF16F32 stl d a) := by
  intro hw r hr
  injection hr with hr
  simp only [rawB] at hr
  refine ⟨Raw.ofWords_words _ (by subst hr; simp [Raw.tight]), ?_⟩
  rw [Raw.parse_base (by subst hr; simp), parseBase, show r.op.toNat = 24 by subst hr; rfl]
  simp only []
  subst hr
  simp only []

theorem fcvtF32F16 (stl : BitVec 3) (d : BitVec 7) (a : BitVec 7) : Statement (.fcvtF32F16 stl d a) := by
  intro hw r hr
  injection hr with hr
  simp only [rawB] at hr
  refine ⟨Raw.ofWords_words _ (by subst hr; simp [Raw.tight]), ?_⟩
  rw [Raw.parse_base (by subst hr; simp), parseBase, show r.op.toNat = 25 by subst hr; rfl]
  simp only []
  subst hr
  simp only []

theorem fcvtB16F32 (stl : BitVec 3) (d : BitVec 7) (a : BitVec 7) : Statement (.fcvtB16F32 stl d a) := by
  intro hw r hr
  injection hr with hr
  simp only [rawB] at hr
  refine ⟨Raw.ofWords_words _ (by subst hr; simp [Raw.tight]), ?_⟩
  rw [Raw.parse_base (by subst hr; simp), parseBase, show r.op.toNat = 26 by subst hr; rfl]
  simp only []
  subst hr
  simp only []

theorem fcvtF32B16 (stl : BitVec 3) (d : BitVec 7) (a : BitVec 7) : Statement (.fcvtF32B16 stl d a) := by
  intro hw r hr
  injection hr with hr
  simp only [rawB] at hr
  refine ⟨Raw.ofWords_words _ (by subst hr; simp [Raw.tight]), ?_⟩
  rw [Raw.parse_base (by subst hr; simp), parseBase, show r.op.toNat = 27 by subst hr; rfl]
  simp only []
  subst hr
  simp only []

theorem icmpI32 (stl : BitVec 3) (cc : Cond) (p : BitVec 3) (a : BitVec 7) (b : BaseB) : Statement (.icmpI32 stl cc p a b) := by
  intro hw r hr
  injection hr with hr
  cases b <;> (
    simp only [rawB, Raw.bB] at hr
    refine ⟨Raw.ofWords_words _ (by subst hr; simp [Raw.tight]), ?_⟩
    rw [Raw.parse_base (by subst hr; simp), parseBase, show r.op.toNat = 28 by subst hr; rfl]
    simp only []
    subst hr
    simp only [Raw.baseB, Raw.isLit, Raw.dp]
    simp (disch := decide) only [extract_low, extract_high, Nat.reduceSub, extract_all]
    simp)

theorem icmpN32 (stl : BitVec 3) (cc : Cond) (p : BitVec 3) (a : BitVec 7) (b : BaseB) : Statement (.icmpN32 stl cc p a b) := by
  intro hw r hr
  injection hr with hr
  cases b <;> (
    simp only [rawB, Raw.bB] at hr
    refine ⟨Raw.ofWords_words _ (by subst hr; simp [Raw.tight]), ?_⟩
    rw [Raw.parse_base (by subst hr; simp), parseBase, show r.op.toNat = 29 by subst hr; rfl]
    simp only []
    subst hr
    simp only [Raw.baseB, Raw.isLit, Raw.dp]
    simp (disch := decide) only [extract_low, extract_high, Nat.reduceSub, extract_all]
    simp)

theorem fcmpF32 (stl : BitVec 3) (cc : Cond) (p : BitVec 3) (a : BitVec 7) (b : BaseB) : Statement (.fcmpF32 stl cc p a b) := by
  intro hw r hr
  injection hr with hr
  cases b <;> (
    simp only [rawB, Raw.bB] at hr
    refine ⟨Raw.ofWords_words _ (by subst hr; simp [Raw.tight]), ?_⟩
    rw [Raw.parse_base (by subst hr; simp), parseBase, show r.op.toNat = 30 by subst hr; rfl]
    simp only []
    subst hr
    simp only [Raw.baseB, Raw.isLit, Raw.dp]
    simp (disch := decide) only [extract_low, extract_high, Nat.reduceSub, extract_all]
    simp)

theorem pand (stl : BitVec 3) (p : BitVec 3) (q : BitVec 3) (r : BitVec 3) : Statement (.pand stl p q r) := by
  intro hw r hr
  injection hr with hr
  simp only [rawB] at hr
  refine ⟨Raw.ofWords_words _ (by subst hr; simp [Raw.tight]), ?_⟩
  rw [Raw.parse_base (by subst hr; simp), parseBase, show r.op.toNat = 31 by subst hr; rfl]
  simp only []
  subst hr
  simp only [Raw.dp, Raw.ap, Raw.bp]
  simp (disch := decide) only [extract_low, extract_high, Nat.reduceSub, extract_all]
  simp

theorem por (stl : BitVec 3) (p : BitVec 3) (q : BitVec 3) (r : BitVec 3) : Statement (.por stl p q r) := by
  intro hw r hr
  injection hr with hr
  simp only [rawB] at hr
  refine ⟨Raw.ofWords_words _ (by subst hr; simp [Raw.tight]), ?_⟩
  rw [Raw.parse_base (by subst hr; simp), parseBase, show r.op.toNat = 31 by subst hr; rfl]
  simp only []
  subst hr
  simp only [Raw.dp, Raw.ap, Raw.bp]
  simp (disch := decide) only [extract_low, extract_high, Nat.reduceSub, extract_all]
  simp

theorem pxor (stl : BitVec 3) (p : BitVec 3) (q : BitVec 3) (r : BitVec 3) : Statement (.pxor stl p q r) := by
  intro hw r hr
  injection hr with hr
  simp only [rawB] at hr
  refine ⟨Raw.ofWords_words _ (by subst hr; simp [Raw.tight]), ?_⟩
  rw [Raw.parse_base (by subst hr; simp), parseBase, show r.op.toNat = 31 by subst hr; rfl]
  simp only []
  subst hr
  simp only [Raw.dp, Raw.ap, Raw.bp]
  simp (disch := decide) only [extract_low, extract_high, Nat.reduceSub, extract_all]
  simp

theorem pnot (stl : BitVec 3) (p : BitVec 3) (q : BitVec 3) : Statement (.pnot stl p q) := by
  intro hw r hr
  injection hr with hr
  simp only [rawB] at hr
  refine ⟨Raw.ofWords_words _ (by subst hr; simp [Raw.tight]), ?_⟩
  rw [Raw.parse_base (by subst hr; simp), parseBase, show r.op.toNat = 31 by subst hr; rfl]
  simp only []
  subst hr
  simp only [Raw.dp, Raw.ap, Raw.bp]
  simp (disch := decide) only [extract_low, extract_high, Nat.reduceSub, extract_all]
  simp

theorem pmov (stl : BitVec 3) (p : BitVec 3) (q : BitVec 3) : Statement (.pmov stl p q) := by
  intro hw r hr
  injection hr with hr
  simp only [rawB] at hr
  refine ⟨Raw.ofWords_words _ (by subst hr; simp [Raw.tight]), ?_⟩
  rw [Raw.parse_base (by subst hr; simp), parseBase, show r.op.toNat = 31 by subst hr; rfl]
  simp only []
  subst hr
  simp only [Raw.dp, Raw.ap, Raw.bp]
  simp (disch := decide) only [extract_low, extract_high, Nat.reduceSub, extract_all]
  simp

theorem bra (stl : BitVec 3) (off : BaseOff) : Statement (.bra stl off) := by
  intro hw r hr
  injection hr with hr
  cases off <;> (
    simp only [rawB, Raw.bOff] at hr
    refine ⟨Raw.ofWords_words _ (by subst hr; simp [Raw.tight]), ?_⟩
    rw [Raw.parse_base (by subst hr; simp), parseBase, show r.op.toNat = 32 by subst hr; rfl]
    simp only []
    subst hr
    simp only [Raw.baseOff, Raw.isLit]
    try simp (disch := decide) only [halves14]
    simp)

theorem call (stl : BitVec 3) (d : BitVec 7) (off : BaseOff) : Statement (.call stl d off) := by
  intro hw r hr
  injection hr with hr
  cases off <;> (
    simp only [rawB, Raw.bOff] at hr
    refine ⟨Raw.ofWords_words _ (by subst hr; simp [Raw.tight]), ?_⟩
    rw [Raw.parse_base (by subst hr; simp), parseBase, show r.op.toNat = 33 by subst hr; rfl]
    simp only []
    subst hr
    simp only [Raw.baseOff, Raw.isLit]
    try simp (disch := decide) only [halves14]
    simp)

theorem ret (stl : BitVec 3) (a : BitVec 7) : Statement (.ret stl a) := by
  intro hw r hr
  injection hr with hr
  simp only [rawB] at hr
  refine ⟨Raw.ofWords_words _ (by subst hr; simp [Raw.tight]), ?_⟩
  rw [Raw.parse_base (by subst hr; simp), parseBase, show r.op.toNat = 34 by subst hr; rfl]
  simp only []
  subst hr
  simp only []

theorem brx (stl : BitVec 3) (a : BitVec 7) : Statement (.brx stl a) := by
  intro hw r hr
  injection hr with hr
  simp only [rawB] at hr
  refine ⟨Raw.ofWords_words _ (by subst hr; simp [Raw.tight]), ?_⟩
  rw [Raw.parse_base (by subst hr; simp), parseBase, show r.op.toNat = 35 by subst hr; rfl]
  simp only []
  subst hr
  simp only []

theorem exit (stl : BitVec 3) : Statement (.exit stl) := by
  intro hw r hr
  injection hr with hr
  simp only [rawB] at hr
  refine ⟨Raw.ofWords_words _ (by subst hr; simp [Raw.tight]), ?_⟩
  rw [Raw.parse_base (by subst hr; simp), parseBase, show r.op.toNat = 36 by subst hr; rfl]
  simp only []
  subst hr
  simp only []

theorem nop (stl : BitVec 3) : Statement (.nop stl) := by
  intro hw r hr
  injection hr with hr
  simp only [rawB] at hr
  refine ⟨Raw.ofWords_words _ (by subst hr; simp [Raw.tight]), ?_⟩
  rw [Raw.parse_base (by subst hr; simp), parseBase, show r.op.toNat = 37 by subst hr; rfl]
  simp only []
  subst hr
  simp only []

theorem yieldB (stl : BitVec 3) : Statement (.yieldB stl) := by
  intro hw r hr
  injection hr with hr
  simp only [rawB] at hr
  refine ⟨Raw.ofWords_words _ (by subst hr; simp [Raw.tight]), ?_⟩
  rw [Raw.parse_base (by subst hr; simp), parseBase, show r.op.toNat = 38 by subst hr; rfl]
  simp only []
  subst hr
  simp only []

theorem bkpt (stl : BitVec 3) (code : BitVec 14) : Statement (.bkpt stl code) := by
  intro hw r hr
  injection hr with hr
  simp only [rawB] at hr
  refine ⟨Raw.ofWords_words _ (by subst hr; simp [Raw.tight]), ?_⟩
  rw [Raw.parse_base (by subst hr; simp), parseBase, show r.op.toNat = 39 by subst hr; rfl]
  simp only []
  subst hr
  simp only []
  simp (disch := decide) only [halves14]

theorem ld32 (stl : BitVec 3) (d : BitVec 7) (a : BitVec 7) (disp : BaseDisp) : Statement (.ld32 stl d a disp) := by
  intro hw r hr
  injection hr with hr
  cases disp <;> (
    simp only [rawB, Raw.bDisp] at hr
    refine ⟨Raw.ofWords_words _ (by subst hr; simp [Raw.tight]), ?_⟩
    rw [Raw.parse_base (by subst hr; simp), parseBase, show r.op.toNat = 40 by subst hr; rfl]
    simp only []
    subst hr
    simp only [Raw.baseDisp, Raw.isLit]
    simp)

theorem ld64 (stl : BitVec 3) (d : BitVec 7) (a : BitVec 7) (disp : BaseDisp) : Statement (.ld64 stl d a disp) := by
  intro hw r hr
  injection hr with hr
  cases disp <;> (
    simp only [rawB, Raw.bDisp] at hr
    refine ⟨Raw.ofWords_words _ (by subst hr; simp [Raw.tight]), ?_⟩
    rw [Raw.parse_base (by subst hr; simp), parseBase, show r.op.toNat = 41 by subst hr; rfl]
    simp only []
    subst hr
    simp only [Raw.baseDisp, Raw.isLit]
    simp)

theorem ld128 (stl : BitVec 3) (d : BitVec 7) (a : BitVec 7) (disp : BaseDisp) : Statement (.ld128 stl d a disp) := by
  intro hw r hr
  injection hr with hr
  cases disp <;> (
    simp only [rawB, Raw.bDisp] at hr
    refine ⟨Raw.ofWords_words _ (by subst hr; simp [Raw.tight]), ?_⟩
    rw [Raw.parse_base (by subst hr; simp), parseBase, show r.op.toNat = 42 by subst hr; rfl]
    simp only []
    subst hr
    simp only [Raw.baseDisp, Raw.isLit]
    simp)

theorem st32 (stl : BitVec 3) (d : BitVec 7) (a : BitVec 7) (disp : BaseDisp) : Statement (.st32 stl d a disp) := by
  intro hw r hr
  injection hr with hr
  cases disp <;> (
    simp only [rawB, Raw.bDisp] at hr
    refine ⟨Raw.ofWords_words _ (by subst hr; simp [Raw.tight]), ?_⟩
    rw [Raw.parse_base (by subst hr; simp), parseBase, show r.op.toNat = 43 by subst hr; rfl]
    simp only []
    subst hr
    simp only [Raw.baseDisp, Raw.isLit]
    simp)

theorem st64 (stl : BitVec 3) (d : BitVec 7) (a : BitVec 7) (disp : BaseDisp) : Statement (.st64 stl d a disp) := by
  intro hw r hr
  injection hr with hr
  cases disp <;> (
    simp only [rawB, Raw.bDisp] at hr
    refine ⟨Raw.ofWords_words _ (by subst hr; simp [Raw.tight]), ?_⟩
    rw [Raw.parse_base (by subst hr; simp), parseBase, show r.op.toNat = 44 by subst hr; rfl]
    simp only []
    subst hr
    simp only [Raw.baseDisp, Raw.isLit]
    simp)

theorem st128 (stl : BitVec 3) (d : BitVec 7) (a : BitVec 7) (disp : BaseDisp) : Statement (.st128 stl d a disp) := by
  intro hw r hr
  injection hr with hr
  cases disp <;> (
    simp only [rawB, Raw.bDisp] at hr
    refine ⟨Raw.ofWords_words _ (by subst hr; simp [Raw.tight]), ?_⟩
    rw [Raw.parse_base (by subst hr; simp), parseBase, show r.op.toNat = 45 by subst hr; rfl]
    simp only []
    subst hr
    simp only [Raw.baseDisp, Raw.isLit]
    simp)

theorem ld32Ro (stl : BitVec 3) (d : BitVec 7) (a : BitVec 7) (disp : BaseDisp) : Statement (.ld32Ro stl d a disp) := by
  intro hw r hr
  injection hr with hr
  cases disp <;> (
    simp only [rawB, Raw.bDisp] at hr
    refine ⟨Raw.ofWords_words _ (by subst hr; simp [Raw.tight]), ?_⟩
    rw [Raw.parse_base (by subst hr; simp), parseBase, show r.op.toNat = 46 by subst hr; rfl]
    simp only []
    subst hr
    simp only [Raw.baseDisp, Raw.isLit]
    simp)

theorem ld128Ro (stl : BitVec 3) (d : BitVec 7) (a : BitVec 7) (disp : BaseDisp) : Statement (.ld128Ro stl d a disp) := by
  intro hw r hr
  injection hr with hr
  cases disp <;> (
    simp only [rawB, Raw.bDisp] at hr
    refine ⟨Raw.ofWords_words _ (by subst hr; simp [Raw.tight]), ?_⟩
    rw [Raw.parse_base (by subst hr; simp), parseBase, show r.op.toNat = 47 by subst hr; rfl]
    simp only []
    subst hr
    simp only [Raw.baseDisp, Raw.isLit]
    simp)

theorem shflIdx (stl : BitVec 3) (d : BitVec 7) (a : BitVec 7) (b : BaseB) : Statement (.shflIdx stl d a b) := by
  intro hw r hr
  injection hr with hr
  cases b <;> (
    simp only [rawB, Raw.bB] at hr
    refine ⟨Raw.ofWords_words _ (by subst hr; simp [Raw.tight]), ?_⟩
    rw [Raw.parse_base (by subst hr; simp), parseBase, show r.op.toNat = 48 by subst hr; rfl]
    simp only []
    subst hr
    simp only [Raw.baseB, Raw.isLit]
    simp)

theorem shflUp (stl : BitVec 3) (d : BitVec 7) (a : BitVec 7) (b : BaseB) : Statement (.shflUp stl d a b) := by
  intro hw r hr
  injection hr with hr
  cases b <;> (
    simp only [rawB, Raw.bB] at hr
    refine ⟨Raw.ofWords_words _ (by subst hr; simp [Raw.tight]), ?_⟩
    rw [Raw.parse_base (by subst hr; simp), parseBase, show r.op.toNat = 49 by subst hr; rfl]
    simp only []
    subst hr
    simp only [Raw.baseB, Raw.isLit]
    simp)

theorem shflDown (stl : BitVec 3) (d : BitVec 7) (a : BitVec 7) (b : BaseB) : Statement (.shflDown stl d a b) := by
  intro hw r hr
  injection hr with hr
  cases b <;> (
    simp only [rawB, Raw.bB] at hr
    refine ⟨Raw.ofWords_words _ (by subst hr; simp [Raw.tight]), ?_⟩
    rw [Raw.parse_base (by subst hr; simp), parseBase, show r.op.toNat = 50 by subst hr; rfl]
    simp only []
    subst hr
    simp only [Raw.baseB, Raw.isLit]
    simp)

theorem shflXor (stl : BitVec 3) (d : BitVec 7) (a : BitVec 7) (b : BaseB) : Statement (.shflXor stl d a b) := by
  intro hw r hr
  injection hr with hr
  cases b <;> (
    simp only [rawB, Raw.bB] at hr
    refine ⟨Raw.ofWords_words _ (by subst hr; simp [Raw.tight]), ?_⟩
    rw [Raw.parse_base (by subst hr; simp), parseBase, show r.op.toNat = 51 by subst hr; rfl]
    simp only []
    subst hr
    simp only [Raw.baseB, Raw.isLit]
    simp)

theorem qxchH (stl : BitVec 3) (d : BitVec 7) (a : BitVec 7) : Statement (.qxchH stl d a) := by
  intro hw r hr
  injection hr with hr
  simp only [rawB] at hr
  refine ⟨Raw.ofWords_words _ (by subst hr; simp [Raw.tight]), ?_⟩
  rw [Raw.parse_base (by subst hr; simp), parseBase, show r.op.toNat = 52 by subst hr; rfl]
  simp only []
  subst hr
  simp only []

theorem qxchV (stl : BitVec 3) (d : BitVec 7) (a : BitVec 7) : Statement (.qxchV stl d a) := by
  intro hw r hr
  injection hr with hr
  simp only [rawB] at hr
  refine ⟨Raw.ofWords_words _ (by subst hr; simp [Raw.tight]), ?_⟩
  rw [Raw.parse_base (by subst hr; simp), parseBase, show r.op.toNat = 53 by subst hr; rfl]
  simp only []
  subst hr
  simp only []

theorem qxchD (stl : BitVec 3) (d : BitVec 7) (a : BitVec 7) : Statement (.qxchD stl d a) := by
  intro hw r hr
  injection hr with hr
  simp only [rawB] at hr
  refine ⟨Raw.ofWords_words _ (by subst hr; simp [Raw.tight]), ?_⟩
  rw [Raw.parse_base (by subst hr; simp), parseBase, show r.op.toNat = 54 by subst hr; rfl]
  simp only []
  subst hr
  simp only []

theorem ballot (stl : BitVec 3) (d : BitVec 7) (q : BitVec 3) : Statement (.ballot stl d q) := by
  intro hw r hr
  injection hr with hr
  simp only [rawB] at hr
  refine ⟨Raw.ofWords_words _ (by subst hr; simp [Raw.tight]), ?_⟩
  rw [Raw.parse_base (by subst hr; simp), parseBase, show r.op.toNat = 55 by subst hr; rfl]
  simp only []
  subst hr
  simp only [Raw.ap]
  simp (disch := decide) only [extract_low, extract_all]

theorem movExt (x : XHead) (ty : Ty) (d : Opd) (a : Opd) : Statement (.movExt x ty d a) := by
  intro hw r hr
  injection hr with hr
  simp only [rawX, Raw.oA, Raw.oD, Raw.t, sub_op] at hr
  refine ⟨Raw.ofWords_words _ (by subst hr; simp [Raw.tight]), ?_⟩
  rw [Raw.parse_int 0 0 (by subst hr; simp) (by subst hr; rfl) (by subst hr; simp only [sub_op]; rfl) (by decide)]
  simp only [parseInt]
  subst hr
  simp only [Raw.head, Raw.od, Raw.oa, Raw.ty]
  simp (disch := decide) only [extract_low, extract_all]
  simp

theorem moviExt (x : XHead) (ty : Ty) (d : Opd) (imm : Dword) : Statement (.moviExt x ty d imm) := by
  intro hw r hr
  injection hr with hr
  simp only [rawX, Raw.oB, Raw.oD, Raw.t, sub_op] at hr
  refine ⟨Raw.ofWords_words _ (by subst hr; simp [Raw.tight]), ?_⟩
  rw [Raw.parse_int 0 1 (by subst hr; simp) (by subst hr; rfl) (by subst hr; simp only [sub_op]; rfl) (by decide)]
  simp only [parseInt]
  subst hr
  simp only [Raw.head, Raw.od, Raw.ty]
  simp (disch := decide) only [extract_low, extract_all]
  simp

theorem iaddExt (x : XHead) (ty : Ty) (sat : Bool) (d : Opd) (a : Opd) (b : OpdB) : Statement (.iaddExt x ty sat d a b) := by
  intro hw r hr
  injection hr with hr
  cases b <;> (
    simp only [rawX, Raw.oB, Raw.oA, Raw.oD, Raw.t, Raw.mods, sub_op] at hr
    refine ⟨Raw.ofWords_words _ (by subst hr; simp [Raw.tight]), ?_⟩
    rw [Raw.parse_int 0 2 (by subst hr; simp) (by subst hr; rfl) (by subst hr; simp only [sub_op]; rfl) (by decide)]
    simp only [parseInt]
    subst hr
    simp only [Raw.head, Raw.od, Raw.oa, Raw.obr, Raw.isLit, Raw.ob, Raw.ty, Raw.m3]
    simp (disch := decide) only [extract_low, extract_high, Nat.reduceSub, extract_all]
    simp)

theorem isubExt (x : XHead) (ty : Ty) (sat : Bool) (d : Opd) (a : Opd) (b : OpdB) : Statement (.isubExt x ty sat d a b) := by
  intro hw r hr
  injection hr with hr
  cases b <;> (
    simp only [rawX, Raw.oB, Raw.oA, Raw.oD, Raw.t, Raw.mods, sub_op] at hr
    refine ⟨Raw.ofWords_words _ (by subst hr; simp [Raw.tight]), ?_⟩
    rw [Raw.parse_int 0 3 (by subst hr; simp) (by subst hr; rfl) (by subst hr; simp only [sub_op]; rfl) (by decide)]
    simp only [parseInt]
    subst hr
    simp only [Raw.head, Raw.od, Raw.oa, Raw.obr, Raw.isLit, Raw.ob, Raw.ty, Raw.m3]
    simp (disch := decide) only [extract_low, extract_high, Nat.reduceSub, extract_all]
    simp)

theorem imulExt (x : XHead) (ty : Ty) (sat : Bool) (d : Opd) (a : Opd) (b : OpdB) : Statement (.imulExt x ty sat d a b) := by
  intro hw r hr
  injection hr with hr
  cases b <;> (
    simp only [rawX, Raw.oB, Raw.oA, Raw.oD, Raw.t, Raw.mods, sub_op] at hr
    refine ⟨Raw.ofWords_words _ (by subst hr; simp [Raw.tight]), ?_⟩
    rw [Raw.parse_int 0 4 (by subst hr; simp) (by subst hr; rfl) (by subst hr; simp only [sub_op]; rfl) (by decide)]
    simp only [parseInt]
    subst hr
    simp only [Raw.head, Raw.od, Raw.oa, Raw.obr, Raw.isLit, Raw.ob, Raw.ty, Raw.m3]
    simp (disch := decide) only [extract_low, extract_high, Nat.reduceSub, extract_all]
    simp)

theorem imulhExt (x : XHead) (ty : Ty) (d : Opd) (a : Opd) (b : OpdB) : Statement (.imulhExt x ty d a b) := by
  intro hw r hr
  injection hr with hr
  cases b <;> (
    simp only [rawX, Raw.oB, Raw.oA, Raw.oD, Raw.t, sub_op] at hr
    refine ⟨Raw.ofWords_words _ (by subst hr; simp [Raw.tight]), ?_⟩
    rw [Raw.parse_int 0 5 (by subst hr; simp) (by subst hr; rfl) (by subst hr; simp only [sub_op]; rfl) (by decide)]
    simp only [parseInt]
    subst hr
    simp only [Raw.head, Raw.od, Raw.oa, Raw.obr, Raw.isLit, Raw.ob, Raw.ty]
    simp (disch := decide) only [extract_low, extract_all]
    simp)

theorem imad (x : XHead) (ty : Ty) (sat : Bool) (d : Opd) (a : Opd) (b : OpdB) (c : Opd) : Statement (.imad x ty sat d a b c) := by
  intro hw r hr
  injection hr with hr
  cases b <;> (
    simp only [rawX, Raw.oB, Raw.oC, Raw.oA, Raw.oD, Raw.t, Raw.mods, sub_op] at hr
    refine ⟨Raw.ofWords_words _ (by subst hr; simp [Raw.tight]), ?_⟩
    rw [Raw.parse_int 0 6 (by subst hr; simp) (by subst hr; rfl) (by subst hr; simp only [sub_op]; rfl) (by decide)]
    simp only [parseInt]
    subst hr
    simp only [Raw.head, Raw.od, Raw.oa, Raw.obr, Raw.oc, Raw.isLit, Raw.ob, Raw.ty, Raw.m3]
    simp (disch := decide) only [extract_low, extract_high, Nat.reduceSub, extract_all]
    simp)

theorem iminExt (x : XHead) (ty : Ty) (d : Opd) (a : Opd) (b : OpdB) : Statement (.iminExt x ty d a b) := by
  intro hw r hr
  injection hr with hr
  cases b <;> (
    simp only [rawX, Raw.oB, Raw.oA, Raw.oD, Raw.t, sub_op] at hr
    refine ⟨Raw.ofWords_words _ (by subst hr; simp [Raw.tight]), ?_⟩
    rw [Raw.parse_int 0 7 (by subst hr; simp) (by subst hr; rfl) (by subst hr; simp only [sub_op]; rfl) (by decide)]
    simp only [parseInt]
    subst hr
    simp only [Raw.head, Raw.od, Raw.oa, Raw.obr, Raw.isLit, Raw.ob, Raw.ty]
    simp (disch := decide) only [extract_low, extract_all]
    simp)

theorem imaxExt (x : XHead) (ty : Ty) (d : Opd) (a : Opd) (b : OpdB) : Statement (.imaxExt x ty d a b) := by
  intro hw r hr
  injection hr with hr
  cases b <;> (
    simp only [rawX, Raw.oB, Raw.oA, Raw.oD, Raw.t, sub_op] at hr
    refine ⟨Raw.ofWords_words _ (by subst hr; simp [Raw.tight]), ?_⟩
    rw [Raw.parse_int 0 8 (by subst hr; simp) (by subst hr; rfl) (by subst hr; simp only [sub_op]; rfl) (by decide)]
    simp only [parseInt]
    subst hr
    simp only [Raw.head, Raw.od, Raw.oa, Raw.obr, Raw.isLit, Raw.ob, Raw.ty]
    simp (disch := decide) only [extract_low, extract_all]
    simp)

theorem iabs (x : XHead) (ty : Ty) (sat : Bool) (d : Opd) (a : Opd) : Statement (.iabs x ty sat d a) := by
  intro hw r hr
  injection hr with hr
  simp only [rawX, Raw.oA, Raw.oD, Raw.t, Raw.mods, sub_op] at hr
  refine ⟨Raw.ofWords_words _ (by subst hr; simp [Raw.tight]), ?_⟩
  rw [Raw.parse_int 0 9 (by subst hr; simp) (by subst hr; rfl) (by subst hr; simp only [sub_op]; rfl) (by decide)]
  simp only [parseInt]
  subst hr
  simp only [Raw.head, Raw.od, Raw.oa, Raw.ty, Raw.m3]
  simp (disch := decide) only [extract_low, extract_high, Nat.reduceSub, extract_all]
  simp

theorem ineg (x : XHead) (ty : Ty) (sat : Bool) (d : Opd) (a : Opd) : Statement (.ineg x ty sat d a) := by
  intro hw r hr
  injection hr with hr
  simp only [rawX, Raw.oA, Raw.oD, Raw.t, Raw.mods, sub_op] at hr
  refine ⟨Raw.ofWords_words _ (by subst hr; simp [Raw.tight]), ?_⟩
  rw [Raw.parse_int 0 10 (by subst hr; simp) (by subst hr; rfl) (by subst hr; simp only [sub_op]; rfl) (by decide)]
  simp only [parseInt]
  subst hr
  simp only [Raw.head, Raw.od, Raw.oa, Raw.ty, Raw.m3]
  simp (disch := decide) only [extract_low, extract_high, Nat.reduceSub, extract_all]
  simp

theorem andExt (x : XHead) (ty : Ty) (d : Opd) (a : Opd) (b : OpdB) : Statement (.andExt x ty d a b) := by
  intro hw r hr
  injection hr with hr
  cases b <;> (
    simp only [rawX, Raw.oB, Raw.oA, Raw.oD, Raw.t, sub_op] at hr
    refine ⟨Raw.ofWords_words _ (by subst hr; simp [Raw.tight]), ?_⟩
    rw [Raw.parse_int 0 11 (by subst hr; simp) (by subst hr; rfl) (by subst hr; simp only [sub_op]; rfl) (by decide)]
    simp only [parseInt]
    subst hr
    simp only [Raw.head, Raw.od, Raw.oa, Raw.obr, Raw.isLit, Raw.ob, Raw.ty]
    simp (disch := decide) only [extract_low, extract_all]
    simp)

theorem orExt (x : XHead) (ty : Ty) (d : Opd) (a : Opd) (b : OpdB) : Statement (.orExt x ty d a b) := by
  intro hw r hr
  injection hr with hr
  cases b <;> (
    simp only [rawX, Raw.oB, Raw.oA, Raw.oD, Raw.t, sub_op] at hr
    refine ⟨Raw.ofWords_words _ (by subst hr; simp [Raw.tight]), ?_⟩
    rw [Raw.parse_int 0 12 (by subst hr; simp) (by subst hr; rfl) (by subst hr; simp only [sub_op]; rfl) (by decide)]
    simp only [parseInt]
    subst hr
    simp only [Raw.head, Raw.od, Raw.oa, Raw.obr, Raw.isLit, Raw.ob, Raw.ty]
    simp (disch := decide) only [extract_low, extract_all]
    simp)

theorem xorExt (x : XHead) (ty : Ty) (d : Opd) (a : Opd) (b : OpdB) : Statement (.xorExt x ty d a b) := by
  intro hw r hr
  injection hr with hr
  cases b <;> (
    simp only [rawX, Raw.oB, Raw.oA, Raw.oD, Raw.t, sub_op] at hr
    refine ⟨Raw.ofWords_words _ (by subst hr; simp [Raw.tight]), ?_⟩
    rw [Raw.parse_int 0 13 (by subst hr; simp) (by subst hr; rfl) (by subst hr; simp only [sub_op]; rfl) (by decide)]
    simp only [parseInt]
    subst hr
    simp only [Raw.head, Raw.od, Raw.oa, Raw.obr, Raw.isLit, Raw.ob, Raw.ty]
    simp (disch := decide) only [extract_low, extract_all]
    simp)

theorem notExt (x : XHead) (ty : Ty) (d : Opd) (a : Opd) : Statement (.notExt x ty d a) := by
  intro hw r hr
  injection hr with hr
  simp only [rawX, Raw.oA, Raw.oD, Raw.t, sub_op] at hr
  refine ⟨Raw.ofWords_words _ (by subst hr; simp [Raw.tight]), ?_⟩
  rw [Raw.parse_int 0 14 (by subst hr; simp) (by subst hr; rfl) (by subst hr; simp only [sub_op]; rfl) (by decide)]
  simp only [parseInt]
  subst hr
  simp only [Raw.head, Raw.od, Raw.oa, Raw.ty]
  simp (disch := decide) only [extract_low, extract_all]
  simp

theorem shlExt (x : XHead) (ty : Ty) (d : Opd) (a : Opd) (b : OpdB) : Statement (.shlExt x ty d a b) := by
  intro hw r hr
  injection hr with hr
  cases b <;> (
    simp only [rawX, Raw.oB, Raw.oA, Raw.oD, Raw.t, sub_op] at hr
    refine ⟨Raw.ofWords_words _ (by subst hr; simp [Raw.tight]), ?_⟩
    rw [Raw.parse_int 0 15 (by subst hr; simp) (by subst hr; rfl) (by subst hr; simp only [sub_op]; rfl) (by decide)]
    simp only [parseInt]
    subst hr
    simp only [Raw.head, Raw.od, Raw.oa, Raw.obr, Raw.isLit, Raw.ob, Raw.ty]
    simp (disch := decide) only [extract_low, extract_all]
    simp)

theorem shrExt (x : XHead) (ty : Ty) (d : Opd) (a : Opd) (b : OpdB) : Statement (.shrExt x ty d a b) := by
  intro hw r hr
  injection hr with hr
  cases b <;> (
    simp only [rawX, Raw.oB, Raw.oA, Raw.oD, Raw.t, sub_op] at hr
    refine ⟨Raw.ofWords_words _ (by subst hr; simp [Raw.tight]), ?_⟩
    rw [Raw.parse_int 0 16 (by subst hr; simp) (by subst hr; rfl) (by subst hr; simp only [sub_op]; rfl) (by decide)]
    simp only [parseInt]
    subst hr
    simp only [Raw.head, Raw.od, Raw.oa, Raw.obr, Raw.isLit, Raw.ob, Raw.ty]
    simp (disch := decide) only [extract_low, extract_all]
    simp)

theorem sarExt (x : XHead) (ty : Ty) (d : Opd) (a : Opd) (b : OpdB) : Statement (.sarExt x ty d a b) := by
  intro hw r hr
  injection hr with hr
  cases b <;> (
    simp only [rawX, Raw.oB, Raw.oA, Raw.oD, Raw.t, sub_op] at hr
    refine ⟨Raw.ofWords_words _ (by subst hr; simp [Raw.tight]), ?_⟩
    rw [Raw.parse_int 0 17 (by subst hr; simp) (by subst hr; rfl) (by subst hr; simp only [sub_op]; rfl) (by decide)]
    simp only [parseInt]
    subst hr
    simp only [Raw.head, Raw.od, Raw.oa, Raw.obr, Raw.isLit, Raw.ob, Raw.ty]
    simp (disch := decide) only [extract_low, extract_all]
    simp)

theorem bfx (x : XHead) (ty : Ty) (d : Opd) (a : Opd) (b : OpdB) : Statement (.bfx x ty d a b) := by
  intro hw r hr
  injection hr with hr
  cases b <;> (
    simp only [rawX, Raw.oB, Raw.oA, Raw.oD, Raw.t, sub_op] at hr
    refine ⟨Raw.ofWords_words _ (by subst hr; simp [Raw.tight]), ?_⟩
    rw [Raw.parse_int 0 18 (by subst hr; simp) (by subst hr; rfl) (by subst hr; simp only [sub_op]; rfl) (by decide)]
    simp only [parseInt]
    subst hr
    simp only [Raw.head, Raw.od, Raw.oa, Raw.obr, Raw.isLit, Raw.ob, Raw.ty]
    simp (disch := decide) only [extract_low, extract_all]
    simp)

theorem bfi (x : XHead) (ty : Ty) (d : Opd) (a : Opd) (b : OpdB) (c : Opd) : Statement (.bfi x ty d a b c) := by
  intro hw r hr
  injection hr with hr
  cases b <;> (
    simp only [rawX, Raw.oB, Raw.oC, Raw.oA, Raw.oD, Raw.t, sub_op] at hr
    refine ⟨Raw.ofWords_words _ (by subst hr; simp [Raw.tight]), ?_⟩
    rw [Raw.parse_int 0 19 (by subst hr; simp) (by subst hr; rfl) (by subst hr; simp only [sub_op]; rfl) (by decide)]
    simp only [parseInt]
    subst hr
    simp only [Raw.head, Raw.od, Raw.oa, Raw.obr, Raw.oc, Raw.isLit, Raw.ob, Raw.ty]
    simp (disch := decide) only [extract_low, extract_all]
    simp)

theorem popc (x : XHead) (ty : Ty) (d : Opd) (a : Opd) : Statement (.popc x ty d a) := by
  intro hw r hr
  injection hr with hr
  simp only [rawX, Raw.oA, Raw.oD, Raw.t, sub_op] at hr
  refine ⟨Raw.ofWords_words _ (by subst hr; simp [Raw.tight]), ?_⟩
  rw [Raw.parse_int 0 20 (by subst hr; simp) (by subst hr; rfl) (by subst hr; simp only [sub_op]; rfl) (by decide)]
  simp only [parseInt]
  subst hr
  simp only [Raw.head, Raw.od, Raw.oa, Raw.ty]
  simp (disch := decide) only [extract_low, extract_all]
  simp

theorem clz (x : XHead) (ty : Ty) (d : Opd) (a : Opd) : Statement (.clz x ty d a) := by
  intro hw r hr
  injection hr with hr
  simp only [rawX, Raw.oA, Raw.oD, Raw.t, sub_op] at hr
  refine ⟨Raw.ofWords_words _ (by subst hr; simp [Raw.tight]), ?_⟩
  rw [Raw.parse_int 0 21 (by subst hr; simp) (by subst hr; rfl) (by subst hr; simp only [sub_op]; rfl) (by decide)]
  simp only [parseInt]
  subst hr
  simp only [Raw.head, Raw.od, Raw.oa, Raw.ty]
  simp (disch := decide) only [extract_low, extract_all]
  simp

theorem brev (x : XHead) (ty : Ty) (d : Opd) (a : Opd) : Statement (.brev x ty d a) := by
  intro hw r hr
  injection hr with hr
  simp only [rawX, Raw.oA, Raw.oD, Raw.t, sub_op] at hr
  refine ⟨Raw.ofWords_words _ (by subst hr; simp [Raw.tight]), ?_⟩
  rw [Raw.parse_int 0 22 (by subst hr; simp) (by subst hr; rfl) (by subst hr; simp only [sub_op]; rfl) (by decide)]
  simp only [parseInt]
  subst hr
  simp only [Raw.head, Raw.od, Raw.oa, Raw.ty]
  simp (disch := decide) only [extract_low, extract_all]
  simp

theorem leaExt (x : XHead) (ty : Ty) (k : BitVec 3) (d : Opd) (a : Opd) (b : OpdB) : Statement (.leaExt x ty k d a b) := by
  intro hw r hr
  injection hr with hr
  cases b <;> (
    simp only [rawX, Raw.oB, Raw.oA, Raw.oD, Raw.t, Raw.w2, sub_op] at hr
    refine ⟨Raw.ofWords_words _ (by subst hr; simp [Raw.tight]), ?_⟩
    rw [Raw.parse_int 0 23 (by subst hr; simp) (by subst hr; rfl) (by subst hr; simp only [sub_op]; rfl) (by decide)]
    simp only [parseInt]
    subst hr
    simp only [Raw.head, Raw.od, Raw.oa, Raw.obr, Raw.isLit, Raw.ob, Raw.ty, Raw.f]
    simp (disch := decide) only [extract_low, extract_all]
    simp)

theorem sel (x : XHead) (ty : Ty) (d : Opd) (a : Opd) (b : OpdB) (q : BitVec 3) (nq : Bool) : Statement (.sel x ty d a b q nq) := by
  intro hw r hr
  injection hr with hr
  cases b <;> (
    simp only [rawX, Raw.oB, Raw.oA, Raw.oD, Raw.t, Raw.w2, sub_op] at hr
    refine ⟨Raw.ofWords_words _ (by subst hr; simp [Raw.tight]), ?_⟩
    rw [Raw.parse_int 0 24 (by subst hr; simp) (by subst hr; rfl) (by subst hr; simp only [sub_op]; rfl) (by decide)]
    simp only [parseInt]
    subst hr
    simp only [Raw.head, Raw.od, Raw.oa, Raw.obr, Raw.isLit, Raw.ob, Raw.ty, Raw.f, Raw.flag]
    simp (disch := decide) only [extract_low, extract_high, Nat.reduceSub, extract_all]
    simp)

theorem faddExt (x : XHead) (ty : Ty) (m : FpMod) (d : Opd) (a : Opd) (b : OpdB) : Statement (.faddExt x ty m d a b) := by
  intro hw r hr
  injection hr with hr
  cases b <;> (
    simp only [rawX, Raw.oB, Raw.oA, Raw.oD, Raw.t, Raw.mods, sub_op] at hr
    refine ⟨Raw.ofWords_words _ (by subst hr; simp [Raw.tight]), ?_⟩
    rw [Raw.parse_fp 1 0 (by subst hr; simp) (by subst hr; rfl) (by subst hr; simp only [sub_op]; rfl) (by decide)]
    simp only [parseFp]
    subst hr
    simp only [Raw.head, Raw.od, Raw.oa, Raw.obr, Raw.isLit, Raw.ob, Raw.ty, Raw.rm, Raw.m2, Raw.fpm]
    simp (disch := decide) only [extract_low, extract_high, Nat.reduceSub, extract_all]
    simp)

theorem fsubExt (x : XHead) (ty : Ty) (m : FpMod) (d : Opd) (a : Opd) (b : OpdB) : Statement (.fsubExt x ty m d a b) := by
  intro hw r hr
  injection hr with hr
  cases b <;> (
    simp only [rawX, Raw.oB, Raw.oA, Raw.oD, Raw.t, Raw.mods, sub_op] at hr
    refine ⟨Raw.ofWords_words _ (by subst hr; simp [Raw.tight]), ?_⟩
    rw [Raw.parse_fp 1 1 (by subst hr; simp) (by subst hr; rfl) (by subst hr; simp only [sub_op]; rfl) (by decide)]
    simp only [parseFp]
    subst hr
    simp only [Raw.head, Raw.od, Raw.oa, Raw.obr, Raw.isLit, Raw.ob, Raw.ty, Raw.rm, Raw.m2, Raw.fpm]
    simp (disch := decide) only [extract_low, extract_high, Nat.reduceSub, extract_all]
    simp)

theorem fmulExt (x : XHead) (ty : Ty) (m : FpMod) (d : Opd) (a : Opd) (b : OpdB) : Statement (.fmulExt x ty m d a b) := by
  intro hw r hr
  injection hr with hr
  cases b <;> (
    simp only [rawX, Raw.oB, Raw.oA, Raw.oD, Raw.t, Raw.mods, sub_op] at hr
    refine ⟨Raw.ofWords_words _ (by subst hr; simp [Raw.tight]), ?_⟩
    rw [Raw.parse_fp 1 2 (by subst hr; simp) (by subst hr; rfl) (by subst hr; simp only [sub_op]; rfl) (by decide)]
    simp only [parseFp]
    subst hr
    simp only [Raw.head, Raw.od, Raw.oa, Raw.obr, Raw.isLit, Raw.ob, Raw.ty, Raw.rm, Raw.m2, Raw.fpm]
    simp (disch := decide) only [extract_low, extract_high, Nat.reduceSub, extract_all]
    simp)

theorem ffma (x : XHead) (ty : Ty) (m : FpMod) (d : Opd) (a : Opd) (b : OpdB) (c : Opd) : Statement (.ffma x ty m d a b c) := by
  intro hw r hr
  injection hr with hr
  cases b <;> (
    simp only [rawX, Raw.oB, Raw.oC, Raw.oA, Raw.oD, Raw.t, Raw.mods, sub_op] at hr
    refine ⟨Raw.ofWords_words _ (by subst hr; simp [Raw.tight]), ?_⟩
    rw [Raw.parse_fp 1 3 (by subst hr; simp) (by subst hr; rfl) (by subst hr; simp only [sub_op]; rfl) (by decide)]
    simp only [parseFp]
    subst hr
    simp only [Raw.head, Raw.od, Raw.oa, Raw.obr, Raw.oc, Raw.isLit, Raw.ob, Raw.ty, Raw.rm, Raw.m2, Raw.fpm]
    simp (disch := decide) only [extract_low, extract_high, Nat.reduceSub, extract_all]
    simp)

theorem fminExt (x : XHead) (ty : Ty) (ftz : Bool) (d : Opd) (a : Opd) (b : OpdB) : Statement (.fminExt x ty ftz d a b) := by
  intro hw r hr
  injection hr with hr
  cases b <;> (
    simp only [rawX, Raw.oB, Raw.oA, Raw.oD, Raw.t, Raw.mods, sub_op] at hr
    refine ⟨Raw.ofWords_words _ (by subst hr; simp [Raw.tight]), ?_⟩
    rw [Raw.parse_fp 1 4 (by subst hr; simp) (by subst hr; rfl) (by subst hr; simp only [sub_op]; rfl) (by decide)]
    simp only [parseFp]
    subst hr
    simp only [Raw.head, Raw.od, Raw.oa, Raw.obr, Raw.isLit, Raw.ob, Raw.ty, Raw.m2]
    simp (disch := decide) only [extract_low, extract_high, Nat.reduceSub, extract_all]
    simp)

theorem fmaxExt (x : XHead) (ty : Ty) (ftz : Bool) (d : Opd) (a : Opd) (b : OpdB) : Statement (.fmaxExt x ty ftz d a b) := by
  intro hw r hr
  injection hr with hr
  cases b <;> (
    simp only [rawX, Raw.oB, Raw.oA, Raw.oD, Raw.t, Raw.mods, sub_op] at hr
    refine ⟨Raw.ofWords_words _ (by subst hr; simp [Raw.tight]), ?_⟩
    rw [Raw.parse_fp 1 5 (by subst hr; simp) (by subst hr; rfl) (by subst hr; simp only [sub_op]; rfl) (by decide)]
    simp only [parseFp]
    subst hr
    simp only [Raw.head, Raw.od, Raw.oa, Raw.obr, Raw.isLit, Raw.ob, Raw.ty, Raw.m2]
    simp (disch := decide) only [extract_low, extract_high, Nat.reduceSub, extract_all]
    simp)

theorem frndExt (x : XHead) (ty : Ty) (m : FpMod) (d : Opd) (a : Opd) : Statement (.frndExt x ty m d a) := by
  intro hw r hr
  injection hr with hr
  simp only [rawX, Raw.oA, Raw.oD, Raw.t, Raw.mods, sub_op] at hr
  refine ⟨Raw.ofWords_words _ (by subst hr; simp [Raw.tight]), ?_⟩
  rw [Raw.parse_fp 1 6 (by subst hr; simp) (by subst hr; rfl) (by subst hr; simp only [sub_op]; rfl) (by decide)]
  simp only [parseFp]
  subst hr
  simp only [Raw.head, Raw.od, Raw.oa, Raw.ty, Raw.rm, Raw.m2, Raw.fpm]
  simp (disch := decide) only [extract_low, extract_high, Nat.reduceSub, extract_all]
  simp

theorem fdiv (x : XHead) (m : FpMod) (d : Opd) (a : Opd) (b : OpdB) : Statement (.fdiv x m d a b) := by
  intro hw r hr
  injection hr with hr
  cases b <;> (
    simp only [rawX, Raw.oB, Raw.oA, Raw.oD, Raw.t, Raw.mods, sub_op] at hr
    refine ⟨Raw.ofWords_words _ (by subst hr; simp [Raw.tight]), ?_⟩
    rw [Raw.parse_fp 2 0 (by subst hr; simp) (by subst hr; rfl) (by subst hr; simp only [sub_op]; rfl) (by decide)]
    simp only [parseFp]
    subst hr
    simp only [Raw.head, Raw.od, Raw.oa, Raw.obr, Raw.isLit, Raw.ob, Raw.rm, Raw.m2, Raw.fpm]
    simp (disch := decide) only [extract_low, extract_high, Nat.reduceSub, extract_all]
    simp)

theorem rcp (x : XHead) (m : FpMod) (d : Opd) (a : Opd) : Statement (.rcp x m d a) := by
  intro hw r hr
  injection hr with hr
  simp only [rawX, Raw.oA, Raw.oD, Raw.t, Raw.mods, sub_op] at hr
  refine ⟨Raw.ofWords_words _ (by subst hr; simp [Raw.tight]), ?_⟩
  rw [Raw.parse_fp 2 1 (by subst hr; simp) (by subst hr; rfl) (by subst hr; simp only [sub_op]; rfl) (by decide)]
  simp only [parseFp]
  subst hr
  simp only [Raw.head, Raw.od, Raw.oa, Raw.rm, Raw.m2, Raw.fpm]
  simp (disch := decide) only [extract_low, extract_high, Nat.reduceSub, extract_all]
  simp

theorem rsq (x : XHead) (m : FpMod) (d : Opd) (a : Opd) : Statement (.rsq x m d a) := by
  intro hw r hr
  injection hr with hr
  simp only [rawX, Raw.oA, Raw.oD, Raw.t, Raw.mods, sub_op] at hr
  refine ⟨Raw.ofWords_words _ (by subst hr; simp [Raw.tight]), ?_⟩
  rw [Raw.parse_fp 2 2 (by subst hr; simp) (by subst hr; rfl) (by subst hr; simp only [sub_op]; rfl) (by decide)]
  simp only [parseFp]
  subst hr
  simp only [Raw.head, Raw.od, Raw.oa, Raw.rm, Raw.m2, Raw.fpm]
  simp (disch := decide) only [extract_low, extract_high, Nat.reduceSub, extract_all]
  simp

theorem sqrt (x : XHead) (m : FpMod) (d : Opd) (a : Opd) : Statement (.sqrt x m d a) := by
  intro hw r hr
  injection hr with hr
  simp only [rawX, Raw.oA, Raw.oD, Raw.t, Raw.mods, sub_op] at hr
  refine ⟨Raw.ofWords_words _ (by subst hr; simp [Raw.tight]), ?_⟩
  rw [Raw.parse_fp 2 3 (by subst hr; simp) (by subst hr; rfl) (by subst hr; simp only [sub_op]; rfl) (by decide)]
  simp only [parseFp]
  subst hr
  simp only [Raw.head, Raw.od, Raw.oa, Raw.rm, Raw.m2, Raw.fpm]
  simp (disch := decide) only [extract_low, extract_high, Nat.reduceSub, extract_all]
  simp

theorem ex2 (x : XHead) (m : FpMod) (d : Opd) (a : Opd) : Statement (.ex2 x m d a) := by
  intro hw r hr
  injection hr with hr
  simp only [rawX, Raw.oA, Raw.oD, Raw.t, Raw.mods, sub_op] at hr
  refine ⟨Raw.ofWords_words _ (by subst hr; simp [Raw.tight]), ?_⟩
  rw [Raw.parse_fp 2 4 (by subst hr; simp) (by subst hr; rfl) (by subst hr; simp only [sub_op]; rfl) (by decide)]
  simp only [parseFp]
  subst hr
  simp only [Raw.head, Raw.od, Raw.oa, Raw.rm, Raw.m2, Raw.fpm]
  simp (disch := decide) only [extract_low, extract_high, Nat.reduceSub, extract_all]
  simp

theorem lg2 (x : XHead) (m : FpMod) (d : Opd) (a : Opd) : Statement (.lg2 x m d a) := by
  intro hw r hr
  injection hr with hr
  simp only [rawX, Raw.oA, Raw.oD, Raw.t, Raw.mods, sub_op] at hr
  refine ⟨Raw.ofWords_words _ (by subst hr; simp [Raw.tight]), ?_⟩
  rw [Raw.parse_fp 2 5 (by subst hr; simp) (by subst hr; rfl) (by subst hr; simp only [sub_op]; rfl) (by decide)]
  simp only [parseFp]
  subst hr
  simp only [Raw.head, Raw.od, Raw.oa, Raw.rm, Raw.m2, Raw.fpm]
  simp (disch := decide) only [extract_low, extract_high, Nat.reduceSub, extract_all]
  simp

theorem fcvt (x : XHead) (dt : Ty) (sty : Ty) (m : CvMod) (d : Opd) (a : Opd) (b : Option OpdB) : Statement (.fcvt x dt sty m d a b) := by
  intro hw r hr
  injection hr with hr
  have hf : fcvtOk dt sty m b = true := ((Bool.and_eq_true _ _).mp hw).2
  have hb : b.isSome = dt.isZb := by
    simp only [fcvtOk, Bool.and_eq_true] at hf
    cases b <;> simp_all
  rcases b with _ | b | b <;> (
    simp only [rawX, Raw.oB, Raw.oBo, Raw.oA, Raw.oD, Raw.w2, Raw.mods] at hr
    refine ⟨Raw.ofWords_words _ (by subst hr; simp [Raw.tight]), ?_⟩
    rw [Raw.parse_cvt 3 0 (by subst hr; simp) (by subst hr; rfl) (by subst hr; simp only [sub_op]; rfl) (by decide)]
    simp only [parseCvt]
    subst hr
    simp only [Raw.head, Raw.od, Raw.oa, Raw.obr, Raw.isLit, Raw.ob, Raw.rm, Raw.m2, Raw.m3, Raw.m4, Raw.f]
    simp (disch := decide) only [extract_low, extract_high, Nat.reduceSub, extract_all]
    simp_all)

theorem ftoiExt (x : XHead) (dt : Ty) (sty : Ty) (rm : Rm) (d : Opd) (a : Opd) : Statement (.ftoiExt x dt sty rm d a) := by
  intro hw r hr
  injection hr with hr
  simp only [rawX, Raw.oA, Raw.oD, Raw.w2, Raw.mods] at hr
  refine ⟨Raw.ofWords_words _ (by subst hr; simp [Raw.tight]), ?_⟩
  rw [Raw.parse_cvt 3 1 (by subst hr; simp) (by subst hr; rfl) (by subst hr; simp only [sub_op]; rfl) (by decide)]
  simp only [parseCvt]
  subst hr
  simp only [Raw.head, Raw.od, Raw.oa, Raw.rm, Raw.f]
  simp (disch := decide) only [extract_low, extract_high, Nat.reduceSub, extract_all]
  simp

theorem itofExt (x : XHead) (dt : Ty) (sty : Ty) (m : FpMod) (d : Opd) (a : Opd) : Statement (.itofExt x dt sty m d a) := by
  intro hw r hr
  injection hr with hr
  simp only [rawX, Raw.oA, Raw.oD, Raw.w2, Raw.mods] at hr
  refine ⟨Raw.ofWords_words _ (by subst hr; simp [Raw.tight]), ?_⟩
  rw [Raw.parse_cvt 3 2 (by subst hr; simp) (by subst hr; rfl) (by subst hr; simp only [sub_op]; rfl) (by decide)]
  simp only [parseCvt]
  subst hr
  simp only [Raw.head, Raw.od, Raw.oa, Raw.rm, Raw.m2, Raw.fpm, Raw.f]
  simp (disch := decide) only [extract_low, extract_high, Nat.reduceSub, extract_all]
  simp

theorem icmp (x : XHead) (ty : Ty) (cc : Cond) (p : BitVec 3) (a : Opd) (b : OpdB) : Statement (.icmp x ty cc p a b) := by
  intro hw r hr
  injection hr with hr
  cases b <;> (
    simp only [rawX, Raw.oB, Raw.oA, Raw.t, Raw.w2, Raw.dP, sub_op] at hr
    refine ⟨Raw.ofWords_words _ (by subst hr; simp [Raw.tight]), ?_⟩
    rw [Raw.parse_cvt 4 0 (by subst hr; simp) (by subst hr; rfl) (by subst hr; simp only [sub_op]; rfl) (by decide)]
    simp only [parseCvt]
    subst hr
    simp only [Raw.head, Raw.oa, Raw.obr, Raw.isLit, Raw.ob, Raw.ty, Raw.f, Raw.dp]
    simp (disch := decide) only [extract_low, extract_all]
    simp)

theorem fcmp (x : XHead) (ty : Ty) (cc : Cond) (ftz : Bool) (p : BitVec 3) (a : Opd) (b : OpdB) : Statement (.fcmp x ty cc ftz p a b) := by
  intro hw r hr
  injection hr with hr
  cases b <;> (
    simp only [rawX, Raw.oB, Raw.oA, Raw.t, Raw.w2, Raw.mods, Raw.dP, sub_op] at hr
    refine ⟨Raw.ofWords_words _ (by subst hr; simp [Raw.tight]), ?_⟩
    rw [Raw.parse_cvt 4 1 (by subst hr; simp) (by subst hr; rfl) (by subst hr; simp only [sub_op]; rfl) (by decide)]
    simp only [parseCvt]
    subst hr
    simp only [Raw.head, Raw.oa, Raw.obr, Raw.isLit, Raw.ob, Raw.ty, Raw.m2, Raw.f, Raw.dp]
    simp (disch := decide) only [extract_low, extract_high, Nat.reduceSub, extract_all]
    simp)

theorem pandExt (x : XHead) (p : BitVec 3) (q : BitVec 3) (nq : Bool) (r : BitVec 3) (nr : Bool) : Statement (.pandExt x p q nq r nr) := by
  intro hw r hr
  injection hr with hr
  simp only [rawX, Raw.w2, Raw.dP, Raw.aP, Raw.bP] at hr
  refine ⟨Raw.ofWords_words _ (by subst hr; simp [Raw.tight]), ?_⟩
  rw [Raw.parse_cvt 5 0 (by subst hr; simp) (by subst hr; rfl) (by subst hr; simp only [sub_op]; rfl) (by decide)]
  simp only [parseCvt]
  subst hr
  simp only [Raw.head, Raw.flag, Raw.dp, Raw.ap, Raw.bp]
  simp (disch := decide) only [extract_low, extract_high, Nat.reduceSub, extract_all]
  simp

theorem porExt (x : XHead) (p : BitVec 3) (q : BitVec 3) (nq : Bool) (r : BitVec 3) (nr : Bool) : Statement (.porExt x p q nq r nr) := by
  intro hw r hr
  injection hr with hr
  simp only [rawX, Raw.w2, Raw.dP, Raw.aP, Raw.bP] at hr
  refine ⟨Raw.ofWords_words _ (by subst hr; simp [Raw.tight]), ?_⟩
  rw [Raw.parse_cvt 5 1 (by subst hr; simp) (by subst hr; rfl) (by subst hr; simp only [sub_op]; rfl) (by decide)]
  simp only [parseCvt]
  subst hr
  simp only [Raw.head, Raw.flag, Raw.dp, Raw.ap, Raw.bp]
  simp (disch := decide) only [extract_low, extract_high, Nat.reduceSub, extract_all]
  simp

theorem pxorExt (x : XHead) (p : BitVec 3) (q : BitVec 3) (nq : Bool) (r : BitVec 3) (nr : Bool) : Statement (.pxorExt x p q nq r nr) := by
  intro hw r hr
  injection hr with hr
  simp only [rawX, Raw.w2, Raw.dP, Raw.aP, Raw.bP] at hr
  refine ⟨Raw.ofWords_words _ (by subst hr; simp [Raw.tight]), ?_⟩
  rw [Raw.parse_cvt 5 2 (by subst hr; simp) (by subst hr; rfl) (by subst hr; simp only [sub_op]; rfl) (by decide)]
  simp only [parseCvt]
  subst hr
  simp only [Raw.head, Raw.flag, Raw.dp, Raw.ap, Raw.bp]
  simp (disch := decide) only [extract_low, extract_high, Nat.reduceSub, extract_all]
  simp

theorem pnotExt (x : XHead) (p : BitVec 3) (q : BitVec 3) (nq : Bool) : Statement (.pnotExt x p q nq) := by
  intro hw r hr
  injection hr with hr
  simp only [rawX, Raw.w2, Raw.dP, Raw.aP] at hr
  refine ⟨Raw.ofWords_words _ (by subst hr; simp [Raw.tight]), ?_⟩
  rw [Raw.parse_cvt 5 3 (by subst hr; simp) (by subst hr; rfl) (by subst hr; simp only [sub_op]; rfl) (by decide)]
  simp only [parseCvt]
  subst hr
  simp only [Raw.head, Raw.flag, Raw.dp, Raw.ap]
  simp (disch := decide) only [extract_low, extract_all]
  simp

theorem pmovExt (x : XHead) (p : BitVec 3) (q : BitVec 3) (nq : Bool) : Statement (.pmovExt x p q nq) := by
  intro hw r hr
  injection hr with hr
  simp only [rawX, Raw.w2, Raw.dP, Raw.aP] at hr
  refine ⟨Raw.ofWords_words _ (by subst hr; simp [Raw.tight]), ?_⟩
  rw [Raw.parse_cvt 5 4 (by subst hr; simp) (by subst hr; rfl) (by subst hr; simp only [sub_op]; rfl) (by decide)]
  simp only [parseCvt]
  subst hr
  simp only [Raw.head, Raw.flag, Raw.dp, Raw.ap]
  simp (disch := decide) only [extract_low, extract_all]
  simp

theorem braExt (x : XHead) (off : ExtOff) : Statement (.braExt x off) := by
  intro hw r hr
  injection hr with hr
  cases off <;> (
    simp only [rawX, Raw.xOff] at hr
    refine ⟨Raw.ofWords_words _ (by subst hr; simp [Raw.tight]), ?_⟩
    rw [Raw.parse_ctl 8 0 (by subst hr; simp) (by subst hr; rfl) (by subst hr; simp only [sub_op]; rfl) (by decide)]
    simp only [parseCtl]
    subst hr
    simp only [Raw.head, Raw.isLit, Raw.extOff]
    simp)

theorem brxExt (x : XHead) (a : Opd) : Statement (.brxExt x a) := by
  intro hw r hr
  injection hr with hr
  simp only [rawX, Raw.oA] at hr
  refine ⟨Raw.ofWords_words _ (by subst hr; simp [Raw.tight]), ?_⟩
  rw [Raw.parse_ctl 8 1 (by subst hr; simp) (by subst hr; rfl) (by subst hr; simp only [sub_op]; rfl) (by decide)]
  simp only [parseCtl]
  subst hr
  simp only [Raw.head, Raw.oa]
  simp

theorem callExt (x : XHead) (d : BitVec 7) (off : ExtOff) : Statement (.callExt x d off) := by
  intro hw r hr
  injection hr with hr
  cases off <;> (
    simp only [rawX, Raw.oD, Raw.xOff] at hr
    refine ⟨Raw.ofWords_words _ (by subst hr; simp [Raw.tight]), ?_⟩
    rw [Raw.parse_ctl 8 2 (by subst hr; simp) (by subst hr; rfl) (by subst hr; simp only [sub_op]; rfl) (by decide)]
    simp only [parseCtl]
    subst hr
    simp only [Raw.head, Raw.isLit, Raw.extOff]
    simp)

theorem retExt (x : XHead) (a : Opd) : Statement (.retExt x a) := by
  intro hw r hr
  injection hr with hr
  simp only [rawX, Raw.oA] at hr
  refine ⟨Raw.ofWords_words _ (by subst hr; simp [Raw.tight]), ?_⟩
  rw [Raw.parse_ctl 8 3 (by subst hr; simp) (by subst hr; rfl) (by subst hr; simp only [sub_op]; rfl) (by decide)]
  simp only [parseCtl]
  subst hr
  simp only [Raw.head, Raw.oa]
  simp

theorem exitExt (x : XHead) : Statement (.exitExt x) := by
  intro hw r hr
  injection hr with hr
  simp only [rawX] at hr
  refine ⟨Raw.ofWords_words _ (by subst hr; simp [Raw.tight]), ?_⟩
  rw [Raw.parse_ctl 8 4 (by subst hr; simp) (by subst hr; rfl) (by subst hr; simp only [sub_op]; rfl) (by decide)]
  simp only [parseCtl]
  subst hr
  simp only [Raw.head]

theorem yieldExt (x : XHead) : Statement (.yieldExt x) := by
  intro hw r hr
  injection hr with hr
  simp only [rawX] at hr
  refine ⟨Raw.ofWords_words _ (by subst hr; simp [Raw.tight]), ?_⟩
  rw [Raw.parse_ctl 8 5 (by subst hr; simp) (by subst hr; rfl) (by subst hr; simp only [sub_op]; rfl) (by decide)]
  simp only [parseCtl]
  subst hr
  simp only [Raw.head]

theorem nopExt (x : XHead) : Statement (.nopExt x) := by
  intro hw r hr
  injection hr with hr
  simp only [rawX] at hr
  refine ⟨Raw.ofWords_words _ (by subst hr; simp [Raw.tight]), ?_⟩
  rw [Raw.parse_ctl 8 6 (by subst hr; simp) (by subst hr; rfl) (by subst hr; simp only [sub_op]; rfl) (by decide)]
  simp only [parseCtl]
  subst hr
  simp only [Raw.head]

theorem rcvSet (x : XHead) (slot : BitVec 4) : Statement (.rcvSet x slot) := by
  intro hw r hr
  injection hr with hr
  simp only [rawX, Raw.w2] at hr
  refine ⟨Raw.ofWords_words _ (by subst hr; simp [Raw.tight]), ?_⟩
  rw [Raw.parse_ctl 9 0 (by subst hr; simp) (by subst hr; rfl) (by subst hr; simp only [sub_op]; rfl) (by decide)]
  simp only [parseCtl]
  subst hr
  simp only [Raw.head, Raw.f]
  simp (disch := decide) only [extract_low, extract_all]

theorem rcvWait (x : XHead) (p : BitVec 3) (slot : BitVec 4) (n : BitVec 20) : Statement (.rcvWait x p slot n) := by
  intro hw r hr
  injection hr with hr
  simp only [rawX, Raw.w2, Raw.dP] at hr
  refine ⟨Raw.ofWords_words _ (by subst hr; simp [Raw.tight]), ?_⟩
  rw [Raw.parse_ctl 9 1 (by subst hr; simp) (by subst hr; rfl) (by subst hr; simp only [sub_op]; rfl) (by decide)]
  simp only [parseCtl]
  subst hr
  simp only [Raw.head, Raw.f, Raw.dp]
  simp (disch := decide) only [extract_low, extract_high, Nat.reduceSub, extract_all]

theorem barArv (x : XHead) (n : BitVec 4) (k : BitVec 6) : Statement (.barArv x n k) := by
  intro hw r hr
  injection hr with hr
  simp only [rawX, Raw.w2] at hr
  refine ⟨Raw.ofWords_words _ (by subst hr; simp [Raw.tight]), ?_⟩
  rw [Raw.parse_ctl 10 0 (by subst hr; simp) (by subst hr; rfl) (by subst hr; simp only [sub_op]; rfl) (by decide)]
  simp only [parseCtl]
  subst hr
  simp only [Raw.head, Raw.f]
  simp (disch := decide) only [extract_low, extract_high, Nat.reduceSub, extract_all]

theorem barWait (x : XHead) (n : BitVec 4) : Statement (.barWait x n) := by
  intro hw r hr
  injection hr with hr
  simp only [rawX, Raw.w2] at hr
  refine ⟨Raw.ofWords_words _ (by subst hr; simp [Raw.tight]), ?_⟩
  rw [Raw.parse_ctl 10 1 (by subst hr; simp) (by subst hr; rfl) (by subst hr; simp only [sub_op]; rfl) (by decide)]
  simp only [parseCtl]
  subst hr
  simp only [Raw.head, Raw.f]
  simp (disch := decide) only [extract_low, extract_all]

theorem barSync (x : XHead) (n : BitVec 4) (k : BitVec 6) : Statement (.barSync x n k) := by
  intro hw r hr
  injection hr with hr
  simp only [rawX, Raw.w2] at hr
  refine ⟨Raw.ofWords_words _ (by subst hr; simp [Raw.tight]), ?_⟩
  rw [Raw.parse_ctl 10 2 (by subst hr; simp) (by subst hr; rfl) (by subst hr; simp only [sub_op]; rfl) (by decide)]
  simp only [parseCtl]
  subst hr
  simp only [Raw.head, Raw.f]
  simp (disch := decide) only [extract_low, extract_high, Nat.reduceSub, extract_all]

theorem cbar (x : XHead) (m : CbarMode) : Statement (.cbar x m) := by
  intro hw r hr
  injection hr with hr
  simp only [rawX, Raw.w2] at hr
  refine ⟨Raw.ofWords_words _ (by subst hr; simp [Raw.tight]), ?_⟩
  rw [Raw.parse_ctl 10 3 (by subst hr; simp) (by subst hr; rfl) (by subst hr; simp only [sub_op]; rfl) (by decide)]
  simp only [parseCtl]
  subst hr
  simp only [Raw.head, Raw.f]
  simp (disch := decide) only [extract_low, extract_all]
  simp

theorem dqpush (x : XHead) (b : OpdB) : Statement (.dqpush x b) := by
  intro hw r hr
  injection hr with hr
  cases b <;> (
    simp only [rawX, Raw.oB] at hr
    refine ⟨Raw.ofWords_words _ (by subst hr; simp [Raw.tight]), ?_⟩
    rw [Raw.parse_ctl 11 0 (by subst hr; simp) (by subst hr; rfl) (by subst hr; simp only [sub_op]; rfl) (by decide)]
    simp only [parseCtl]
    subst hr
    simp only [Raw.head, Raw.obr, Raw.isLit, Raw.ob]
    simp)

theorem dqpushAll (x : XHead) (b : OpdB) : Statement (.dqpushAll x b) := by
  intro hw r hr
  injection hr with hr
  cases b <;> (
    simp only [rawX, Raw.oB] at hr
    refine ⟨Raw.ofWords_words _ (by subst hr; simp [Raw.tight]), ?_⟩
    rw [Raw.parse_ctl 11 1 (by subst hr; simp) (by subst hr; rfl) (by subst hr; simp only [sub_op]; rfl) (by decide)]
    simp only [parseCtl]
    subst hr
    simp only [Raw.head, Raw.obr, Raw.isLit, Raw.ob]
    simp)

theorem dqpop (x : XHead) (gd : BitVec 7) (p : BitVec 3) : Statement (.dqpop x gd p) := by
  intro hw r hr
  injection hr with hr
  simp only [rawX, Raw.oD, Raw.w2] at hr
  refine ⟨Raw.ofWords_words _ (by subst hr; simp [Raw.tight]), ?_⟩
  rw [Raw.parse_ctl 11 2 (by subst hr; simp) (by subst hr; rfl) (by subst hr; simp only [sub_op]; rfl) (by decide)]
  simp only [parseCtl]
  subst hr
  simp only [Raw.head, Raw.f]
  simp (disch := decide) only [extract_low, extract_all]

theorem mfsr (x : XHead) (d : BitVec 7) (sl : BitVec 8) : Statement (.mfsr x d sl) := by
  intro hw r hr
  injection hr with hr
  simp only [rawX, Raw.oD, Raw.w2] at hr
  refine ⟨Raw.ofWords_words _ (by subst hr; simp [Raw.tight]), ?_⟩
  rw [Raw.parse_ctl 11 3 (by subst hr; simp) (by subst hr; rfl) (by subst hr; simp only [sub_op]; rfl) (by decide)]
  simp only [parseCtl]
  subst hr
  simp only [Raw.head, Raw.f]
  simp (disch := decide) only [extract_low, extract_all]

theorem trap (x : XHead) (code : BitVec 16) : Statement (.trap x code) := by
  intro hw r hr
  injection hr with hr
  simp only [rawX, Raw.w2] at hr
  refine ⟨Raw.ofWords_words _ (by subst hr; simp [Raw.tight]), ?_⟩
  rw [Raw.parse_ctl 11 4 (by subst hr; simp) (by subst hr; rfl) (by subst hr; simp only [sub_op]; rfl) (by decide)]
  simp only [parseCtl]
  subst hr
  simp only [Raw.head, Raw.f]
  simp (disch := decide) only [extract_low, extract_all]

theorem bkptExt (x : XHead) (code : BitVec 14) : Statement (.bkptExt x code) := by
  intro hw r hr
  injection hr with hr
  simp only [rawX, Raw.w2] at hr
  refine ⟨Raw.ofWords_words _ (by subst hr; simp [Raw.tight]), ?_⟩
  rw [Raw.parse_ctl 11 5 (by subst hr; simp) (by subst hr; rfl) (by subst hr; simp only [sub_op]; rfl) (by decide)]
  simp only [parseCtl]
  subst hr
  simp only [Raw.head, Raw.f]
  simp (disch := decide) only [extract_low, extract_all]

theorem waitt (x : XHead) (a : Opd) : Statement (.waitt x a) := by
  intro hw r hr
  injection hr with hr
  simp only [rawX, Raw.oA] at hr
  refine ⟨Raw.ofWords_words _ (by subst hr; simp [Raw.tight]), ?_⟩
  rw [Raw.parse_ctl 11 6 (by subst hr; simp) (by subst hr; rfl) (by subst hr; simp only [sub_op]; rfl) (by decide)]
  simp only [parseCtl]
  subst hr
  simp only [Raw.head, Raw.oa]
  simp

theorem shflIdxExt (x : XHead) (ty : Ty) (seg : BitVec 3) (d : BitVec 7) (a : Opd) (b : OpdB) : Statement (.shflIdxExt x ty seg d a b) := by
  intro hw r hr
  injection hr with hr
  cases b <;> (
    simp only [rawX, Raw.oB, Raw.oA, Raw.oD, Raw.t, Raw.w2, sub_op] at hr
    refine ⟨Raw.ofWords_words _ (by subst hr; simp [Raw.tight]), ?_⟩
    rw [Raw.parse_xlane 12 0 (by subst hr; simp) (by subst hr; rfl) (by subst hr; simp only [sub_op]; rfl) (by decide)]
    simp only [parseXlane]
    subst hr
    simp only [Raw.head, Raw.oa, Raw.obr, Raw.isLit, Raw.ob, Raw.ty, Raw.f]
    simp (disch := decide) only [extract_low, extract_all]
    simp)

theorem shflUpExt (x : XHead) (ty : Ty) (seg : BitVec 3) (d : BitVec 7) (a : Opd) (b : OpdB) : Statement (.shflUpExt x ty seg d a b) := by
  intro hw r hr
  injection hr with hr
  cases b <;> (
    simp only [rawX, Raw.oB, Raw.oA, Raw.oD, Raw.t, Raw.w2, sub_op] at hr
    refine ⟨Raw.ofWords_words _ (by subst hr; simp [Raw.tight]), ?_⟩
    rw [Raw.parse_xlane 12 1 (by subst hr; simp) (by subst hr; rfl) (by subst hr; simp only [sub_op]; rfl) (by decide)]
    simp only [parseXlane]
    subst hr
    simp only [Raw.head, Raw.oa, Raw.obr, Raw.isLit, Raw.ob, Raw.ty, Raw.f]
    simp (disch := decide) only [extract_low, extract_all]
    simp)

theorem shflDownExt (x : XHead) (ty : Ty) (seg : BitVec 3) (d : BitVec 7) (a : Opd) (b : OpdB) : Statement (.shflDownExt x ty seg d a b) := by
  intro hw r hr
  injection hr with hr
  cases b <;> (
    simp only [rawX, Raw.oB, Raw.oA, Raw.oD, Raw.t, Raw.w2, sub_op] at hr
    refine ⟨Raw.ofWords_words _ (by subst hr; simp [Raw.tight]), ?_⟩
    rw [Raw.parse_xlane 12 2 (by subst hr; simp) (by subst hr; rfl) (by subst hr; simp only [sub_op]; rfl) (by decide)]
    simp only [parseXlane]
    subst hr
    simp only [Raw.head, Raw.oa, Raw.obr, Raw.isLit, Raw.ob, Raw.ty, Raw.f]
    simp (disch := decide) only [extract_low, extract_all]
    simp)

theorem shflXorExt (x : XHead) (ty : Ty) (seg : BitVec 3) (d : BitVec 7) (a : Opd) (b : OpdB) : Statement (.shflXorExt x ty seg d a b) := by
  intro hw r hr
  injection hr with hr
  cases b <;> (
    simp only [rawX, Raw.oB, Raw.oA, Raw.oD, Raw.t, Raw.w2, sub_op] at hr
    refine ⟨Raw.ofWords_words _ (by subst hr; simp [Raw.tight]), ?_⟩
    rw [Raw.parse_xlane 12 3 (by subst hr; simp) (by subst hr; rfl) (by subst hr; simp only [sub_op]; rfl) (by decide)]
    simp only [parseXlane]
    subst hr
    simp only [Raw.head, Raw.oa, Raw.obr, Raw.isLit, Raw.ob, Raw.ty, Raw.f]
    simp (disch := decide) only [extract_low, extract_all]
    simp)

theorem qxchHExt (x : XHead) (ty : Ty) (d : BitVec 7) (a : BitVec 7) : Statement (.qxchHExt x ty d a) := by
  intro hw r hr
  injection hr with hr
  simp only [rawX, Raw.oA, Raw.oD, Raw.t, sub_op] at hr
  refine ⟨Raw.ofWords_words _ (by subst hr; simp [Raw.tight]), ?_⟩
  rw [Raw.parse_xlane 12 4 (by subst hr; simp) (by subst hr; rfl) (by subst hr; simp only [sub_op]; rfl) (by decide)]
  simp only [parseXlane]
  subst hr
  simp only [Raw.head, Raw.ty]
  simp (disch := decide) only [extract_low, extract_all]
  simp

theorem qxchVExt (x : XHead) (ty : Ty) (d : BitVec 7) (a : BitVec 7) : Statement (.qxchVExt x ty d a) := by
  intro hw r hr
  injection hr with hr
  simp only [rawX, Raw.oA, Raw.oD, Raw.t, sub_op] at hr
  refine ⟨Raw.ofWords_words _ (by subst hr; simp [Raw.tight]), ?_⟩
  rw [Raw.parse_xlane 12 5 (by subst hr; simp) (by subst hr; rfl) (by subst hr; simp only [sub_op]; rfl) (by decide)]
  simp only [parseXlane]
  subst hr
  simp only [Raw.head, Raw.ty]
  simp (disch := decide) only [extract_low, extract_all]
  simp

theorem qxchDExt (x : XHead) (ty : Ty) (d : BitVec 7) (a : BitVec 7) : Statement (.qxchDExt x ty d a) := by
  intro hw r hr
  injection hr with hr
  simp only [rawX, Raw.oA, Raw.oD, Raw.t, sub_op] at hr
  refine ⟨Raw.ofWords_words _ (by subst hr; simp [Raw.tight]), ?_⟩
  rw [Raw.parse_xlane 12 6 (by subst hr; simp) (by subst hr; rfl) (by subst hr; simp only [sub_op]; rfl) (by decide)]
  simp only [parseXlane]
  subst hr
  simp only [Raw.head, Raw.ty]
  simp (disch := decide) only [extract_low, extract_all]
  simp

theorem voteAny (x : XHead) (seg : BitVec 3) (p : BitVec 3) (q : BitVec 3) : Statement (.voteAny x seg p q) := by
  intro hw r hr
  injection hr with hr
  simp only [rawX, Raw.w2, Raw.dP, Raw.aP] at hr
  refine ⟨Raw.ofWords_words _ (by subst hr; simp [Raw.tight]), ?_⟩
  rw [Raw.parse_xlane 12 7 (by subst hr; simp) (by subst hr; rfl) (by subst hr; simp only [sub_op]; rfl) (by decide)]
  simp only [parseXlane]
  subst hr
  simp only [Raw.head, Raw.ty, Raw.f, Raw.dp, Raw.ap]
  simp (disch := decide) only [extract_low, extract_all]
  simp [Ty.ofCode]

theorem voteAll (x : XHead) (seg : BitVec 3) (p : BitVec 3) (q : BitVec 3) : Statement (.voteAll x seg p q) := by
  intro hw r hr
  injection hr with hr
  simp only [rawX, Raw.w2, Raw.dP, Raw.aP] at hr
  refine ⟨Raw.ofWords_words _ (by subst hr; simp [Raw.tight]), ?_⟩
  rw [Raw.parse_xlane 12 8 (by subst hr; simp) (by subst hr; rfl) (by subst hr; simp only [sub_op]; rfl) (by decide)]
  simp only [parseXlane]
  subst hr
  simp only [Raw.head, Raw.ty, Raw.f, Raw.dp, Raw.ap]
  simp (disch := decide) only [extract_low, extract_all]
  simp [Ty.ofCode]

theorem voteEq (x : XHead) (seg : BitVec 3) (p : BitVec 3) (q : BitVec 3) : Statement (.voteEq x seg p q) := by
  intro hw r hr
  injection hr with hr
  simp only [rawX, Raw.w2, Raw.dP, Raw.aP] at hr
  refine ⟨Raw.ofWords_words _ (by subst hr; simp [Raw.tight]), ?_⟩
  rw [Raw.parse_xlane 12 9 (by subst hr; simp) (by subst hr; rfl) (by subst hr; simp only [sub_op]; rfl) (by decide)]
  simp only [parseXlane]
  subst hr
  simp only [Raw.head, Raw.ty, Raw.f, Raw.dp, Raw.ap]
  simp (disch := decide) only [extract_low, extract_all]
  simp [Ty.ofCode]

theorem ballotExt (x : XHead) (d : BitVec 7) (q : BitVec 3) : Statement (.ballotExt x d q) := by
  intro hw r hr
  injection hr with hr
  simp only [rawX, Raw.oD, Raw.aP] at hr
  refine ⟨Raw.ofWords_words _ (by subst hr; simp [Raw.tight]), ?_⟩
  rw [Raw.parse_xlane 12 10 (by subst hr; simp) (by subst hr; rfl) (by subst hr; simp only [sub_op]; rfl) (by decide)]
  simp only [parseXlane]
  subst hr
  simp only [Raw.head, Raw.ty, Raw.ap]
  simp (disch := decide) only [extract_low, extract_all]
  simp [Ty.ofCode]

theorem matchX (x : XHead) (ty : Ty) (d : BitVec 7) (a : BitVec 7) : Statement (.matchX x ty d a) := by
  intro hw r hr
  injection hr with hr
  simp only [rawX, Raw.oA, Raw.oD, Raw.t, sub_op] at hr
  refine ⟨Raw.ofWords_words _ (by subst hr; simp [Raw.tight]), ?_⟩
  rw [Raw.parse_xlane 12 11 (by subst hr; simp) (by subst hr; rfl) (by subst hr; simp only [sub_op]; rfl) (by decide)]
  simp only [parseXlane]
  subst hr
  simp only [Raw.head, Raw.ty]
  simp (disch := decide) only [extract_low, extract_all]
  simp

theorem compact (x : XHead) (d : BitVec 7) (q : BitVec 3) : Statement (.compact x d q) := by
  intro hw r hr
  injection hr with hr
  simp only [rawX, Raw.oD, Raw.aP] at hr
  refine ⟨Raw.ofWords_words _ (by subst hr; simp [Raw.tight]), ?_⟩
  rw [Raw.parse_xlane 12 12 (by subst hr; simp) (by subst hr; rfl) (by subst hr; simp only [sub_op]; rfl) (by decide)]
  simp only [parseXlane]
  subst hr
  simp only [Raw.head, Raw.ty, Raw.ap]
  simp (disch := decide) only [extract_low, extract_all]
  simp [Ty.ofCode]

theorem gscan (x : XHead) (ty : Ty) (opn : Opn) (ex : Bool) (seg : BitVec 3) (d : BitVec 7) (a : BitVec 7) : Statement (.gscan x ty opn ex seg d a) := by
  intro hw r hr
  injection hr with hr
  simp only [rawX, Raw.oA, Raw.oD, Raw.t, Raw.w2, sub_op] at hr
  refine ⟨Raw.ofWords_words _ (by subst hr; simp [Raw.tight]), ?_⟩
  rw [Raw.parse_xlane 12 13 (by subst hr; simp) (by subst hr; rfl) (by subst hr; simp only [sub_op]; rfl) (by decide)]
  simp only [parseXlane]
  subst hr
  simp only [Raw.head, Raw.ty, Raw.f, Raw.flag]
  simp (disch := decide) only [extract_low, extract_high, Nat.reduceSub, extract_all]
  simp

theorem gred (x : XHead) (ty : Ty) (opn : Opn) (seg : BitVec 3) (d : BitVec 7) (a : BitVec 7) : Statement (.gred x ty opn seg d a) := by
  intro hw r hr
  injection hr with hr
  simp only [rawX, Raw.oA, Raw.oD, Raw.t, Raw.w2, sub_op] at hr
  refine ⟨Raw.ofWords_words _ (by subst hr; simp [Raw.tight]), ?_⟩
  rw [Raw.parse_xlane 12 14 (by subst hr; simp) (by subst hr; rfl) (by subst hr; simp only [sub_op]; rfl) (by decide)]
  simp only [parseXlane]
  subst hr
  simp only [Raw.head, Raw.ty, Raw.f]
  simp (disch := decide) only [extract_low, extract_high, Nat.reduceSub, extract_all]
  simp

theorem ld (x : XHead) (hint : BitVec 2) (o : MOrd) (fmt : LdFmt) (d : Opd) (a : Opd) (off : AddrOff) : Statement (.ld x hint o fmt d a off) := by
  intro hw r hr
  injection hr with hr
  cases fmt <;> cases off <;> (
    simp only [rawX, Raw.oB, Raw.oA, Raw.oD, Raw.hintM, Raw.t, Raw.w2, Raw.oOff, Raw.ldF, sub_op] at hr
    refine ⟨Raw.ofWords_words _ (by subst hr; simp [Raw.tight]), ?_⟩
    rw [Raw.parse_mem 16 0 (by subst hr; simp) (by subst hr; rfl) (by subst hr; simp only [sub_op]; rfl) (by decide)]
    rw [parseMem, Raw.ord_eq (o := o) (by subst hr; simp (disch := decide) only [extract_high, Nat.reduceSub, extract_all])]
    simp only
    subst hr
    simp only [Raw.head, Raw.od, Raw.oa, Raw.obr, Raw.isLit, Raw.ty, Raw.hint, Raw.f, Raw.flag, Raw.off, MOrd.bits, AddrOff.boff, LdFmt.bits]
    simp (disch := decide) only [extract_low, extract_high, Nat.reduceSub, extract_all]
    simp)

theorem st (x : XHead) (hint : BitVec 2) (o : MOrd) (fmt : StFmt) (a : Opd) (off : AddrOff) (c : Opd) : Statement (.st x hint o fmt a off c) := by
  intro hw r hr
  injection hr with hr
  cases fmt <;> cases off <;> (
    simp only [rawX, Raw.oB, Raw.oC, Raw.oA, Raw.hintM, Raw.t, Raw.w2, Raw.oOff, Raw.stF, sub_op] at hr
    refine ⟨Raw.ofWords_words _ (by subst hr; simp [Raw.tight]), ?_⟩
    rw [Raw.parse_mem 16 1 (by subst hr; simp) (by subst hr; rfl) (by subst hr; simp only [sub_op]; rfl) (by decide)]
    rw [parseMem, Raw.ord_eq (o := o) (by subst hr; simp (disch := decide) only [extract_high, Nat.reduceSub, extract_all])]
    simp only
    subst hr
    simp only [Raw.head, Raw.oa, Raw.obr, Raw.oc, Raw.isLit, Raw.ty, Raw.m4, Raw.hint, Raw.f, Raw.flag, Raw.off, MOrd.bits, AddrOff.boff, StFmt.bits]
    simp (disch := decide) only [extract_low, extract_high, Nat.reduceSub, extract_all]
    simp)

theorem ldC (x : XHead) (hint : BitVec 2) (o : MOrd) (w : Wid) (sx : Bool) (cap : BitVec 3) (d : Opd) (a : Opd) (disp : Option Dword) : Statement (.ldC x hint o w sx cap d a disp) := by
  intro hw r hr
  injection hr with hr
  cases disp <;> (
    simp only [rawX, Raw.oB, Raw.oA, Raw.oD, Raw.hintM, Raw.w2, Raw.oDisp] at hr
    refine ⟨Raw.ofWords_words _ (by subst hr; simp [Raw.tight]), ?_⟩
    rw [Raw.parse_mem 16 2 (by subst hr; simp) (by subst hr; rfl) (by subst hr; simp only [sub_op]; rfl) (by decide)]
    rw [parseMem, Raw.ord_eq (o := o) (by subst hr; simp (disch := decide) only [extract_high, Nat.reduceSub, extract_all])]
    simp only
    subst hr
    simp only [Raw.head, Raw.od, Raw.oa, Raw.isLit, Raw.disp, Raw.hint, Raw.f, Raw.flag, MOrd.bits]
    simp (disch := decide) only [extract_low, extract_high, Nat.reduceSub, extract_all]
    simp)

theorem stC (x : XHead) (hint : BitVec 2) (o : MOrd) (w : Wid) (cap : BitVec 3) (a : Opd) (disp : Option Dword) (c : Opd) : Statement (.stC x hint o w cap a disp c) := by
  intro hw r hr
  injection hr with hr
  cases disp <;> (
    simp only [rawX, Raw.oB, Raw.oC, Raw.oA, Raw.hintM, Raw.w2, Raw.oDisp] at hr
    refine ⟨Raw.ofWords_words _ (by subst hr; simp [Raw.tight]), ?_⟩
    rw [Raw.parse_mem 16 3 (by subst hr; simp) (by subst hr; rfl) (by subst hr; simp only [sub_op]; rfl) (by decide)]
    rw [parseMem, Raw.ord_eq (o := o) (by subst hr; simp (disch := decide) only [extract_high, Nat.reduceSub, extract_all])]
    simp only
    subst hr
    simp only [Raw.head, Raw.oa, Raw.oc, Raw.isLit, Raw.disp, Raw.hint, Raw.f, MOrd.bits]
    simp (disch := decide) only [extract_low, extract_high, Nat.reduceSub, extract_all]
    simp)

theorem lde (x : XHead) (hint : BitVec 2) (o : MOrd) (w : Wid) (d : BitVec 7) (a : Opd) (off : AddrOff) (rp : BitVec 3) (e : EscSet) : Statement (.lde x hint o w d a off rp e) := by
  intro hw r hr
  injection hr with hr
  cases off <;> (
    simp only [rawX, Raw.oB, Raw.oA, Raw.oD, Raw.hintM, Raw.w2, Raw.oOff] at hr
    refine ⟨Raw.ofWords_words _ (by subst hr; simp [Raw.tight]), ?_⟩
    rw [Raw.parse_mem 17 0 (by subst hr; simp) (by subst hr; rfl) (by subst hr; simp only [sub_op]; rfl) (by decide)]
    rw [parseMem, Raw.ord_eq (o := o) (by subst hr; simp (disch := decide) only [extract_high, Nat.reduceSub, extract_all])]
    simp only
    subst hr
    simp only [Raw.head, Raw.oa, Raw.obr, Raw.isLit, Raw.hint, Raw.f, Raw.flag, Raw.esc, Raw.off, MOrd.bits, EscSet.bits, AddrOff.boff]
    simp (disch := decide) only [extract_low, extract_high, Nat.reduceSub, extract_all]
    simp)

theorem atom (x : XHead) (hint : BitVec 2) (o : MOrd) (op : Aop) (ty : Ty) (d : BitVec 7) (a : Opd) (b : OpdB) (c : Opd) (rp : BitVec 3) (e : EscSet) : Statement (.atom x hint o op ty d a b c rp e) := by
  intro hw r hr
  injection hr with hr
  cases b <;> (
    simp only [rawX, Raw.oB, Raw.oC, Raw.oA, Raw.oD, Raw.hintM, Raw.t, Raw.w2, sub_op] at hr
    refine ⟨Raw.ofWords_words _ (by subst hr; simp [Raw.tight]), ?_⟩
    rw [Raw.parse_mem 17 1 (by subst hr; simp) (by subst hr; rfl) (by subst hr; simp only [sub_op]; rfl) (by decide)]
    rw [parseMem, Raw.ord_eq (o := o) (by subst hr; simp (disch := decide) only [extract_high, Nat.reduceSub, extract_all])]
    simp only
    subst hr
    simp only [Raw.head, Raw.oa, Raw.obr, Raw.oc, Raw.isLit, Raw.ob, Raw.ty, Raw.hint, Raw.f, Raw.esc, Raw.aop, MOrd.bits, EscSet.bits]
    simp (disch := decide) only [extract_low, extract_high, Nat.reduceSub, extract_all]
    simp)

theorem red (x : XHead) (hint : BitVec 2) (o : MOrd) (op : Aop) (ty : Ty) (a : Opd) (b : OpdB) : Statement (.red x hint o op ty a b) := by
  intro hw r hr
  injection hr with hr
  cases b <;> (
    simp only [rawX, Raw.oB, Raw.oA, Raw.hintM, Raw.t, Raw.w2, sub_op] at hr
    refine ⟨Raw.ofWords_words _ (by subst hr; simp [Raw.tight]), ?_⟩
    rw [Raw.parse_mem 17 2 (by subst hr; simp) (by subst hr; rfl) (by subst hr; simp only [sub_op]; rfl) (by decide)]
    rw [parseMem, Raw.ord_eq (o := o) (by subst hr; simp (disch := decide) only [extract_high, Nat.reduceSub, extract_all])]
    simp only
    subst hr
    simp only [Raw.head, Raw.oa, Raw.obr, Raw.isLit, Raw.ob, Raw.ty, Raw.hint, Raw.f, Raw.aop, MOrd.bits]
    simp (disch := decide) only [extract_low, extract_high, Nat.reduceSub, extract_all]
    simp)

theorem atomC (x : XHead) (hint : BitVec 2) (o : MOrd) (op : Aop) (ty : Ty) (cap : BitVec 3) (d : BitVec 7) (a : Opd) (b : OpdB) (c : Opd) (rp : BitVec 3) (e : EscSet) : Statement (.atomC x hint o op ty cap d a b c rp e) := by
  intro hw r hr
  injection hr with hr
  cases b <;> (
    simp only [rawX, Raw.oB, Raw.oC, Raw.oA, Raw.oD, Raw.hintM, Raw.t, Raw.w2, sub_op] at hr
    refine ⟨Raw.ofWords_words _ (by subst hr; simp [Raw.tight]), ?_⟩
    rw [Raw.parse_mem 17 3 (by subst hr; simp) (by subst hr; rfl) (by subst hr; simp only [sub_op]; rfl) (by decide)]
    rw [parseMem, Raw.ord_eq (o := o) (by subst hr; simp (disch := decide) only [extract_high, Nat.reduceSub, extract_all])]
    simp only
    subst hr
    simp only [Raw.head, Raw.oa, Raw.obr, Raw.oc, Raw.isLit, Raw.ob, Raw.ty, Raw.hint, Raw.f, Raw.esc, Raw.aop, MOrd.bits, EscSet.bits]
    simp (disch := decide) only [extract_low, extract_high, Nat.reduceSub, extract_all]
    simp)

theorem redC (x : XHead) (hint : BitVec 2) (o : MOrd) (op : Aop) (ty : Ty) (cap : BitVec 3) (a : Opd) (b : OpdB) : Statement (.redC x hint o op ty cap a b) := by
  intro hw r hr
  injection hr with hr
  cases b <;> (
    simp only [rawX, Raw.oB, Raw.oA, Raw.hintM, Raw.t, Raw.w2, sub_op] at hr
    refine ⟨Raw.ofWords_words _ (by subst hr; simp [Raw.tight]), ?_⟩
    rw [Raw.parse_mem 17 4 (by subst hr; simp) (by subst hr; rfl) (by subst hr; simp only [sub_op]; rfl) (by decide)]
    rw [parseMem, Raw.ord_eq (o := o) (by subst hr; simp (disch := decide) only [extract_high, Nat.reduceSub, extract_all])]
    simp only
    subst hr
    simp only [Raw.head, Raw.oa, Raw.obr, Raw.isLit, Raw.ob, Raw.ty, Raw.hint, Raw.f, Raw.aop, MOrd.bits]
    simp (disch := decide) only [extract_low, extract_high, Nat.reduceSub, extract_all]
    simp)

theorem chs (x : XHead) (hint : BitVec 2) (d : BitVec 7) (a : Opd) (b : OpdB) (rp : BitVec 3) (e : EscSet) : Statement (.chs x hint d a b rp e) := by
  intro hw r hr
  injection hr with hr
  cases b <;> (
    simp only [rawX, Raw.oB, Raw.oA, Raw.oD, Raw.hintM, Raw.w2] at hr
    refine ⟨Raw.ofWords_words _ (by subst hr; simp [Raw.tight]), ?_⟩
    rw [Raw.parse_eng 18 0 (by subst hr; simp) (by subst hr; rfl) (by subst hr; simp only [sub_op]; rfl) (by decide)]
    simp only [parseEng]
    subst hr
    simp only [Raw.head, Raw.oa, Raw.obr, Raw.isLit, Raw.ob, Raw.hint, Raw.f, Raw.esc, EscSet.bits]
    simp (disch := decide) only [extract_low, extract_high, Nat.reduceSub, extract_all]
    simp)

theorem fnc (x : XHead) (hint : BitVec 2) (sc : Scope) (gd : Opd) : Statement (.fnc x hint sc gd) := by
  intro hw r hr
  injection hr with hr
  simp only [rawX, Raw.oD, Raw.hintM, Raw.w2] at hr
  refine ⟨Raw.ofWords_words _ (by subst hr; simp [Raw.tight]), ?_⟩
  rw [Raw.parse_eng 19 0 (by subst hr; simp) (by subst hr; rfl) (by subst hr; simp only [sub_op]; rfl) (by decide)]
  simp only [parseEng]
  subst hr
  simp only [Raw.head, Raw.od, Raw.hint, Raw.f]
  simp (disch := decide) only [extract_low, extract_high, Nat.reduceSub, extract_all]
  simp

theorem waitf (x : XHead) (hint : BitVec 2) (ga : Opd) : Statement (.waitf x hint ga) := by
  intro hw r hr
  injection hr with hr
  simp only [rawX, Raw.oA, Raw.hintM] at hr
  refine ⟨Raw.ofWords_words _ (by subst hr; simp [Raw.tight]), ?_⟩
  rw [Raw.parse_eng 19 1 (by subst hr; simp) (by subst hr; rfl) (by subst hr; simp only [sub_op]; rfl) (by decide)]
  simp only [parseEng]
  subst hr
  simp only [Raw.head, Raw.oa, Raw.hint]
  simp (disch := decide) only [extract_low, extract_all]
  simp

theorem acp (x : XHead) (hint : BitVec 2) (gd : Opd) (a : Opd) (b : OpdB) (c : Opd) : Statement (.acp x hint gd a b c) := by
  intro hw r hr
  injection hr with hr
  cases b <;> (
    simp only [rawX, Raw.oB, Raw.oC, Raw.oA, Raw.oD, Raw.hintM] at hr
    refine ⟨Raw.ofWords_words _ (by subst hr; simp [Raw.tight]), ?_⟩
    rw [Raw.parse_eng 20 0 (by subst hr; simp) (by subst hr; rfl) (by subst hr; simp only [sub_op]; rfl) (by decide)]
    simp only [parseEng]
    subst hr
    simp only [Raw.head, Raw.od, Raw.oa, Raw.obr, Raw.oc, Raw.isLit, Raw.ob, Raw.hint]
    simp (disch := decide) only [extract_low, extract_all]
    simp)

theorem sraff (x : XHead) (hint : BitVec 2) (k : BitVec 4) (lsh : BitVec 4) (lon : Bool) (a : Opd) (b : OpdB) (c : Opd) : Statement (.sraff x hint k lsh lon a b c) := by
  intro hw r hr
  injection hr with hr
  cases b <;> (
    simp only [rawX, Raw.oB, Raw.oC, Raw.oA, Raw.hintM, Raw.w2] at hr
    refine ⟨Raw.ofWords_words _ (by subst hr; simp [Raw.tight]), ?_⟩
    rw [Raw.parse_eng 21 0 (by subst hr; simp) (by subst hr; rfl) (by subst hr; simp only [sub_op]; rfl) (by decide)]
    simp only [parseEng]
    subst hr
    simp only [Raw.head, Raw.oa, Raw.obr, Raw.oc, Raw.isLit, Raw.ob, Raw.hint, Raw.f, Raw.flag]
    simp (disch := decide) only [extract_low, extract_high, Nat.reduceSub, extract_all]
    simp)

theorem srind (x : XHead) (hint : BitVec 2) (k : BitVec 4) (lsh : BitVec 4) (lon : Bool) (sc : BitVec 3) (a : Opd) (b : OpdB) (c : Opd) : Statement (.srind x hint k lsh lon sc a b c) := by
  intro hw r hr
  injection hr with hr
  cases b <;> (
    simp only [rawX, Raw.oB, Raw.oC, Raw.oA, Raw.hintM, Raw.w2] at hr
    refine ⟨Raw.ofWords_words _ (by subst hr; simp [Raw.tight]), ?_⟩
    rw [Raw.parse_eng 21 1 (by subst hr; simp) (by subst hr; rfl) (by subst hr; simp only [sub_op]; rfl) (by decide)]
    simp only [parseEng]
    subst hr
    simp only [Raw.head, Raw.oa, Raw.obr, Raw.oc, Raw.isLit, Raw.ob, Raw.hint, Raw.f, Raw.flag]
    simp (disch := decide) only [extract_low, extract_high, Nat.reduceSub, extract_all]
    simp)

theorem srprb (x : XHead) (hint : BitVec 2) (k : BitVec 4) (rp : BitVec 3) : Statement (.srprb x hint k rp) := by
  intro hw r hr
  injection hr with hr
  simp only [rawX, Raw.hintM, Raw.w2] at hr
  refine ⟨Raw.ofWords_words _ (by subst hr; simp [Raw.tight]), ?_⟩
  rw [Raw.parse_eng 21 2 (by subst hr; simp) (by subst hr; rfl) (by subst hr; simp only [sub_op]; rfl) (by decide)]
  simp only [parseEng]
  subst hr
  simp only [Raw.head, Raw.hint, Raw.f]
  simp (disch := decide) only [extract_low, extract_high, Nat.reduceSub, extract_all]

theorem srstop (x : XHead) (hint : BitVec 2) (k : BitVec 4) : Statement (.srstop x hint k) := by
  intro hw r hr
  injection hr with hr
  simp only [rawX, Raw.hintM] at hr
  refine ⟨Raw.ofWords_words _ (by subst hr; simp [Raw.tight]), ?_⟩
  rw [Raw.parse_eng 21 3 (by subst hr; simp) (by subst hr; rfl) (by subst hr; simp only [sub_op]; rfl) (by decide)]
  simp only [parseEng]
  subst hr
  simp only [Raw.head, Raw.hint]
  simp (disch := decide) only [extract_low, extract_all]

theorem gath (x : XHead) (hint : BitVec 2) (km1 : BitVec 4) (sc : BitVec 3) (d : BitVec 7) (a : Opd) (b : OpdB) (rp : BitVec 3) (e : EscSet) : Statement (.gath x hint km1 sc d a b rp e) := by
  intro hw r hr
  injection hr with hr
  cases b <;> (
    simp only [rawX, Raw.oB, Raw.oA, Raw.oD, Raw.hintM, Raw.w2] at hr
    refine ⟨Raw.ofWords_words _ (by subst hr; simp [Raw.tight]), ?_⟩
    rw [Raw.parse_eng 22 0 (by subst hr; simp) (by subst hr; rfl) (by subst hr; simp only [sub_op]; rfl) (by decide)]
    simp only [parseEng]
    subst hr
    simp only [Raw.head, Raw.oa, Raw.obr, Raw.isLit, Raw.ob, Raw.hint, Raw.f, Raw.esc, EscSet.bits]
    simp (disch := decide) only [extract_low, extract_high, Nat.reduceSub, extract_all]
    simp)

theorem scat (x : XHead) (hint : BitVec 2) (km1 : BitVec 4) (sc : BitVec 3) (a : Opd) (b : OpdB) (c : BitVec 7) : Statement (.scat x hint km1 sc a b c) := by
  intro hw r hr
  injection hr with hr
  cases b <;> (
    simp only [rawX, Raw.oB, Raw.oC, Raw.oA, Raw.hintM, Raw.w2] at hr
    refine ⟨Raw.ofWords_words _ (by subst hr; simp [Raw.tight]), ?_⟩
    rw [Raw.parse_eng 22 1 (by subst hr; simp) (by subst hr; rfl) (by subst hr; simp only [sub_op]; rfl) (by decide)]
    simp only [parseEng]
    subst hr
    simp only [Raw.head, Raw.oa, Raw.obr, Raw.isLit, Raw.ob, Raw.hint, Raw.f]
    simp (disch := decide) only [extract_low, extract_high, Nat.reduceSub, extract_all]
    simp)

theorem scatAdd (x : XHead) (hint : BitVec 2) (ty : Ty) (km1 : BitVec 4) (sc : BitVec 3) (a : Opd) (b : OpdB) (c : BitVec 7) : Statement (.scatAdd x hint ty km1 sc a b c) := by
  intro hw r hr
  injection hr with hr
  cases b <;> (
    simp only [rawX, Raw.oB, Raw.oC, Raw.oA, Raw.hintM, Raw.t, Raw.w2, sub_op] at hr
    refine ⟨Raw.ofWords_words _ (by subst hr; simp [Raw.tight]), ?_⟩
    rw [Raw.parse_eng 22 2 (by subst hr; simp) (by subst hr; rfl) (by subst hr; simp only [sub_op]; rfl) (by decide)]
    simp only [parseEng]
    subst hr
    simp only [Raw.head, Raw.oa, Raw.obr, Raw.isLit, Raw.ob, Raw.ty, Raw.hint, Raw.f]
    simp (disch := decide) only [extract_low, extract_high, Nat.reduceSub, extract_all]
    simp)

theorem capld (x : XHead) (cd : BitVec 3) (a : Opd) (disp : Option Dword) : Statement (.capld x cd a disp) := by
  intro hw r hr
  injection hr with hr
  cases disp <;> (
    simp only [rawX, Raw.oB, Raw.oA, Raw.oDisp, Raw.dP] at hr
    refine ⟨Raw.ofWords_words _ (by subst hr; simp [Raw.tight]), ?_⟩
    rw [Raw.parse_sys 23 0 (by subst hr; simp) (by subst hr; rfl) (by subst hr; simp only [sub_op]; rfl) (by decide)]
    simp only [parseSys]
    subst hr
    simp only [Raw.head, Raw.oa, Raw.isLit, Raw.disp, Raw.dp]
    simp (disch := decide) only [extract_low, extract_all]
    simp)

theorem capst (x : XHead) (a : Opd) (disp : Option Dword) (cs : BitVec 3) : Statement (.capst x a disp cs) := by
  intro hw r hr
  injection hr with hr
  cases disp <;> (
    simp only [rawX, Raw.oB, Raw.oA, Raw.oDisp, Raw.cP] at hr
    refine ⟨Raw.ofWords_words _ (by subst hr; simp [Raw.tight]), ?_⟩
    rw [Raw.parse_sys 23 1 (by subst hr; simp) (by subst hr; rfl) (by subst hr; simp only [sub_op]; rfl) (by decide)]
    simp only [parseSys]
    subst hr
    simp only [Raw.head, Raw.oa, Raw.isLit, Raw.disp, Raw.cp]
    simp (disch := decide) only [extract_low, extract_all]
    simp)

theorem capnar (x : XHead) (cd : BitVec 3) (ca : BitVec 3) (b : OpdB) (c : Opd) (mask : BitVec 4) : Statement (.capnar x cd ca b c mask) := by
  intro hw r hr
  injection hr with hr
  cases b <;> (
    simp only [rawX, Raw.oB, Raw.oC, Raw.w2, Raw.dP, Raw.aP] at hr
    refine ⟨Raw.ofWords_words _ (by subst hr; simp [Raw.tight]), ?_⟩
    rw [Raw.parse_sys 23 2 (by subst hr; simp) (by subst hr; rfl) (by subst hr; simp only [sub_op]; rfl) (by decide)]
    simp only [parseSys]
    subst hr
    simp only [Raw.head, Raw.obr, Raw.oc, Raw.isLit, Raw.ob, Raw.f, Raw.dp, Raw.ap]
    simp (disch := decide) only [extract_low, extract_all]
    simp)

theorem caprst (x : XHead) (cd : BitVec 3) : Statement (.caprst x cd) := by
  intro hw r hr
  injection hr with hr
  simp only [rawX, Raw.dP] at hr
  refine ⟨Raw.ofWords_words _ (by subst hr; simp [Raw.tight]), ?_⟩
  rw [Raw.parse_sys 23 3 (by subst hr; simp) (by subst hr; rfl) (by subst hr; simp only [sub_op]; rfl) (by decide)]
  simp only [parseSys]
  subst hr
  simp only [Raw.head, Raw.dp]
  simp (disch := decide) only [extract_low, extract_all]

theorem capchk (x : XHead) (p : BitVec 3) (ca : BitVec 3) (b : OpdB) (c : Opd) (mask : BitVec 4) : Statement (.capchk x p ca b c mask) := by
  intro hw r hr
  injection hr with hr
  cases b <;> (
    simp only [rawX, Raw.oB, Raw.oC, Raw.w2, Raw.dP, Raw.aP] at hr
    refine ⟨Raw.ofWords_words _ (by subst hr; simp [Raw.tight]), ?_⟩
    rw [Raw.parse_sys 23 4 (by subst hr; simp) (by subst hr; rfl) (by subst hr; simp only [sub_op]; rfl) (by decide)]
    simp only [parseSys]
    subst hr
    simp only [Raw.head, Raw.obr, Raw.oc, Raw.isLit, Raw.ob, Raw.f, Raw.dp, Raw.ap]
    simp (disch := decide) only [extract_low, extract_all]
    simp)

theorem csrr (x : XHead) (d : BitVec 7) (n : BitVec 12) : Statement (.csrr x d n) := by
  intro hw r hr
  injection hr with hr
  simp only [rawX, Raw.oD, Raw.w2] at hr
  refine ⟨Raw.ofWords_words _ (by subst hr; simp [Raw.tight]), ?_⟩
  rw [Raw.parse_sys 24 0 (by subst hr; simp) (by subst hr; rfl) (by subst hr; simp only [sub_op]; rfl) (by decide)]
  simp only [parseSys]
  subst hr
  simp only [Raw.head, Raw.f]
  simp (disch := decide) only [extract_low, extract_all]

theorem csrw (x : XHead) (n : BitVec 12) (a : Opd) : Statement (.csrw x n a) := by
  intro hw r hr
  injection hr with hr
  simp only [rawX, Raw.oA, Raw.w2] at hr
  refine ⟨Raw.ofWords_words _ (by subst hr; simp [Raw.tight]), ?_⟩
  rw [Raw.parse_sys 24 1 (by subst hr; simp) (by subst hr; rfl) (by subst hr; simp only [sub_op]; rfl) (by decide)]
  simp only [parseSys]
  subst hr
  simp only [Raw.head, Raw.oa, Raw.f]
  simp (disch := decide) only [extract_low, extract_all]
  simp

theorem eret (x : XHead) (act : Action) : Statement (.eret x act) := by
  intro hw r hr
  injection hr with hr
  simp only [rawX, Raw.w2] at hr
  refine ⟨Raw.ofWords_words _ (by subst hr; simp [Raw.tight]), ?_⟩
  rw [Raw.parse_sys 24 2 (by subst hr; simp) (by subst hr; rfl) (by subst hr; simp only [sub_op]; rfl) (by decide)]
  simp only [parseSys]
  subst hr
  simp only [Raw.head, Raw.f]
  simp (disch := decide) only [extract_low, extract_all]
  simp

theorem capmk (x : XHead) (cd : BitVec 3) (b : Opd) : Statement (.capmk x cd b) := by
  intro hw r hr
  injection hr with hr
  simp only [rawX, Raw.oB, Raw.dP] at hr
  refine ⟨Raw.ofWords_words _ (by subst hr; simp [Raw.tight]), ?_⟩
  rw [Raw.parse_sys 24 3 (by subst hr; simp) (by subst hr; rfl) (by subst hr; simp only [sub_op]; rfl) (by decide)]
  simp only [parseSys]
  subst hr
  simp only [Raw.head, Raw.oa, Raw.obr, Raw.f, Raw.flag, Raw.dp]
  simp (disch := decide) only [extract_low, extract_all]
  simp

theorem capmkRec (x : XHead) (a : Opd) (b : Opd) (w : BitVec 7) : Statement (.capmkRec x a b w) := by
  intro hw r hr
  injection hr with hr
  simp only [rawX, Raw.oB, Raw.oA, Raw.w2] at hr
  refine ⟨Raw.ofWords_words _ (by subst hr; simp [Raw.tight]), ?_⟩
  rw [Raw.parse_sys 24 3 (by subst hr; simp) (by subst hr; rfl) (by subst hr; simp only [sub_op]; rfl) (by decide)]
  simp only [parseSys]
  subst hr
  simp only [Raw.head, Raw.oa, Raw.obr, Raw.f, Raw.flag, Raw.dp]
  simp (disch := decide) only [extract_low, extract_high, Nat.reduceSub, extract_all]
  simp

theorem regroup (x : XHead) (slot : BitVec 4) (w : BitVec 10) : Statement (.regroup x slot w) := by
  intro hw r hr
  injection hr with hr
  simp only [rawX, Raw.w2] at hr
  refine ⟨Raw.ofWords_words _ (by subst hr; simp [Raw.tight]), ?_⟩
  rw [Raw.parse_sys 25 0 (by subst hr; simp) (by subst hr; rfl) (by subst hr; simp only [sub_op]; rfl) (by decide)]
  simp only [parseSys]
  subst hr
  simp only [Raw.head, Raw.f]
  simp (disch := decide) only [extract_low, extract_high, Nat.reduceSub, extract_all]

theorem launch (x : XHead) (gd : Opd) (a : Opd) (q : BitVec 10) : Statement (.launch x gd a q) := by
  intro hw r hr
  injection hr with hr
  simp only [rawX, Raw.oA, Raw.oD, Raw.w2] at hr
  refine ⟨Raw.ofWords_words _ (by subst hr; simp [Raw.tight]), ?_⟩
  rw [Raw.parse_sys 25 1 (by subst hr; simp) (by subst hr; rfl) (by subst hr; simp only [sub_op]; rfl) (by decide)]
  simp only [parseSys]
  subst hr
  simp only [Raw.head, Raw.od, Raw.oa, Raw.f]
  simp (disch := decide) only [extract_low, extract_all]
  simp

theorem evsig (x : XHead) (b : OpdB) : Statement (.evsig x b) := by
  intro hw r hr
  injection hr with hr
  cases b <;> (
    simp only [rawX, Raw.oB] at hr
    refine ⟨Raw.ofWords_words _ (by subst hr; simp [Raw.tight]), ?_⟩
    rw [Raw.parse_sys 25 2 (by subst hr; simp) (by subst hr; rfl) (by subst hr; simp only [sub_op]; rfl) (by decide)]
    simp only [parseSys]
    subst hr
    simp only [Raw.head, Raw.obr, Raw.isLit, Raw.ob]
    simp)

theorem evwait (x : XHead) (a : Opd) (b : OpdB) : Statement (.evwait x a b) := by
  intro hw r hr
  injection hr with hr
  cases b <;> (
    simp only [rawX, Raw.oB, Raw.oA] at hr
    refine ⟨Raw.ofWords_words _ (by subst hr; simp [Raw.tight]), ?_⟩
    rw [Raw.parse_sys 25 3 (by subst hr; simp) (by subst hr; rfl) (by subst hr; simp only [sub_op]; rfl) (by decide)]
    simp only [parseSys]
    subst hr
    simp only [Raw.head, Raw.oa, Raw.obr, Raw.isLit, Raw.ob]
    simp)

theorem mzero (x : XHead) (md : BitVec 6) : Statement (.mzero x md) := by
  intro hw r hr
  injection hr with hr
  simp only [rawX, Raw.dM] at hr
  refine ⟨Raw.ofWords_words _ (by subst hr; simp [Raw.tight]), ?_⟩
  rw [Raw.parse_mat 28 0 (by subst hr; simp) (by subst hr; rfl) (by subst hr; simp only [sub_op]; rfl) (by decide)]
  simp only [parseMat]
  subst hr
  simp only [Raw.head]
  simp (disch := decide) only [extract_low, extract_all]

theorem mrd (x : XHead) (d : Opd) (md : BitVec 6) (b : OpdB) : Statement (.mrd x d md b) := by
  intro hw r hr
  injection hr with hr
  cases b <;> (
    simp only [rawX, Raw.oB, Raw.oD, Raw.aM] at hr
    refine ⟨Raw.ofWords_words _ (by subst hr; simp [Raw.tight]), ?_⟩
    rw [Raw.parse_mat 28 1 (by subst hr; simp) (by subst hr; rfl) (by subst hr; simp only [sub_op]; rfl) (by decide)]
    simp only [parseMat]
    subst hr
    simp only [Raw.head, Raw.od, Raw.obr, Raw.isLit, Raw.ob]
    simp (disch := decide) only [extract_low, extract_all]
    simp)

theorem mwr (x : XHead) (md : BitVec 6) (a : Opd) (b : OpdB) : Statement (.mwr x md a b) := by
  intro hw r hr
  injection hr with hr
  cases b <;> (
    simp only [rawX, Raw.oB, Raw.oA, Raw.dM] at hr
    refine ⟨Raw.ofWords_words _ (by subst hr; simp [Raw.tight]), ?_⟩
    rw [Raw.parse_mat 28 2 (by subst hr; simp) (by subst hr; rfl) (by subst hr; simp only [sub_op]; rfl) (by decide)]
    simp only [parseMat]
    subst hr
    simp only [Raw.head, Raw.oa, Raw.obr, Raw.isLit, Raw.ob]
    simp (disch := decide) only [extract_low, extract_all]
    simp)

theorem mwmk (x : XHead) (d : Opd) (md : BitVec 6) : Statement (.mwmk x d md) := by
  intro hw r hr
  injection hr with hr
  simp only [rawX, Raw.oD, Raw.aM] at hr
  refine ⟨Raw.ofWords_words _ (by subst hr; simp [Raw.tight]), ?_⟩
  rw [Raw.parse_mat 28 3 (by subst hr; simp) (by subst hr; rfl) (by subst hr; simp only [sub_op]; rfl) (by decide)]
  simp only [parseMat]
  subst hr
  simp only [Raw.head, Raw.od]
  simp (disch := decide) only [extract_low, extract_all]
  simp

theorem mldb (x : XHead) (ty : Ty) (bl : Bool) (a : Opd) (stride : BitVec 24) : Statement (.mldb x ty bl a stride) := by
  intro hw r hr
  injection hr with hr
  simp only [rawX, Raw.oA, Raw.t, Raw.w2, sub_op] at hr
  refine ⟨Raw.ofWords_words _ (by subst hr; simp [Raw.tight]), ?_⟩
  rw [Raw.parse_mat 28 4 (by subst hr; simp) (by subst hr; rfl) (by subst hr; simp only [sub_op]; rfl) (by decide)]
  simp only [parseMat]
  subst hr
  simp only [Raw.head, Raw.oa, Raw.ty, Raw.f]
  simp (disch := decide) only [extract_low, extract_all]
  simp

theorem mgata (x : XHead) (ty : Ty) (a : Opd) (b : OpdB) (stride : BitVec 24) : Statement (.mgata x ty a b stride) := by
  intro hw r hr
  injection hr with hr
  cases b <;> (
    simp only [rawX, Raw.oB, Raw.oA, Raw.t, Raw.w2, sub_op] at hr
    refine ⟨Raw.ofWords_words _ (by subst hr; simp [Raw.tight]), ?_⟩
    rw [Raw.parse_mat 28 5 (by subst hr; simp) (by subst hr; rfl) (by subst hr; simp only [sub_op]; rfl) (by decide)]
    simp only [parseMat]
    subst hr
    simp only [Raw.head, Raw.oa, Raw.obr, Raw.isLit, Raw.ob, Raw.ty, Raw.f]
    simp (disch := decide) only [extract_low, extract_all]
    simp)

theorem mmq (x : XHead) (md : BitVec 6) (bl : Bool) : Statement (.mmq x md bl) := by
  intro hw r hr
  injection hr with hr
  simp only [rawX, Raw.dM] at hr
  refine ⟨Raw.ofWords_words _ (by subst hr; simp [Raw.tight]), ?_⟩
  rw [Raw.parse_mat 28 6 (by subst hr; simp) (by subst hr; rfl) (by subst hr; simp only [sub_op]; rfl) (by decide)]
  simp only [parseMat]
  subst hr
  simp only [Raw.head]
  simp (disch := decide) only [extract_low, extract_all]
  simp

theorem mms (x : XHead) (md : BitVec 6) (a : Opd) (gs : Opd) (c : Opd) : Statement (.mms x md a gs c) := by
  intro hw r hr
  injection hr with hr
  simp only [rawX, Raw.oB, Raw.oC, Raw.oA, Raw.dM] at hr
  refine ⟨Raw.ofWords_words _ (by subst hr; simp [Raw.tight]), ?_⟩
  rw [Raw.parse_mat 28 7 (by subst hr; simp) (by subst hr; rfl) (by subst hr; simp only [sub_op]; rfl) (by decide)]
  simp only [parseMat]
  subst hr
  simp only [Raw.head, Raw.oa, Raw.obr, Raw.oc]
  simp (disch := decide) only [extract_low, extract_all]
  simp

theorem mst (x : XHead) (ty : Ty) (m : MstMod) (gd : Opd) (a : Opd) (md : BitVec 6) (stride : BitVec 24) : Statement (.mst x ty m gd a md stride) := by
  intro hw r hr
  injection hr with hr
  simp only [rawX, Raw.oA, Raw.oD, Raw.t, Raw.w2, Raw.mods, Raw.bM, sub_op] at hr
  refine ⟨Raw.ofWords_words _ (by subst hr; simp [Raw.tight]), ?_⟩
  rw [Raw.parse_mat 28 8 (by subst hr; simp) (by subst hr; rfl) (by subst hr; simp only [sub_op]; rfl) (by decide)]
  simp only [parseMat]
  subst hr
  simp only [Raw.head, Raw.od, Raw.oa, Raw.ty, Raw.rm, Raw.m2, Raw.m3, Raw.m4, Raw.f]
  simp (disch := decide) only [extract_low, extract_high, Nat.reduceSub, extract_all]
  simp

theorem tcut (x : XHead) (gd : Opd) (a : Opd) (bud : BitVec 9) (sc : BitVec 2) : Statement (.tcut x gd a bud sc) := by
  intro hw r hr
  injection hr with hr
  simp only [rawX, Raw.oA, Raw.oD, Raw.w2] at hr
  refine ⟨Raw.ofWords_words _ (by subst hr; simp [Raw.tight]), ?_⟩
  rw [Raw.parse_mat 29 0 (by subst hr; simp) (by subst hr; rfl) (by subst hr; simp only [sub_op]; rfl) (by decide)]
  simp only [parseMat]
  subst hr
  simp only [Raw.head, Raw.od, Raw.oa, Raw.f]
  simp (disch := decide) only [extract_low, extract_high, Nat.reduceSub, extract_all]
  simp

theorem infl (x : XHead) (n : BitVec 2) (a : Opd) : Statement (.infl x n a) := by
  intro hw r hr
  injection hr with hr
  simp only [rawX, Raw.oA, Raw.w2] at hr
  refine ⟨Raw.ofWords_words _ (by subst hr; simp [Raw.tight]), ?_⟩
  rw [Raw.parse_mat 30 0 (by subst hr; simp) (by subst hr; rfl) (by subst hr; simp only [sub_op]; rfl) (by decide)]
  simp only [parseMat]
  subst hr
  simp only [Raw.head, Raw.oa, Raw.f]
  simp (disch := decide) only [extract_low, extract_all]
  simp

theorem attn (x : XHead) (absorb : Bool) (gd : Opd) (a : Opd) (md : BitVec 6) (n : BitVec 2) : Statement (.attn x absorb gd a md n) := by
  intro hw r hr
  injection hr with hr
  simp only [rawX, Raw.oA, Raw.oD, Raw.w2, Raw.bM] at hr
  refine ⟨Raw.ofWords_words _ (by subst hr; simp [Raw.tight]), ?_⟩
  rw [Raw.parse_mat 30 1 (by subst hr; simp) (by subst hr; rfl) (by subst hr; simp only [sub_op]; rfl) (by decide)]
  simp only [parseMat]
  subst hr
  simp only [Raw.head, Raw.od, Raw.oa, Raw.f, Raw.flag]
  simp (disch := decide) only [extract_low, extract_high, Nat.reduceSub, extract_all]
  simp

theorem kvapp (x : XHead) (rm : Rm) (sat : Bool) (gd : Opd) (p : BitVec 3) (a : Opd) (b : OpdB) (c : Opd) : Statement (.kvapp x rm sat gd p a b c) := by
  intro hw r hr
  injection hr with hr
  cases b <;> (
    simp only [rawX, Raw.oB, Raw.oC, Raw.oA, Raw.oD, Raw.w2, Raw.mods] at hr
    refine ⟨Raw.ofWords_words _ (by subst hr; simp [Raw.tight]), ?_⟩
    rw [Raw.parse_mat 30 2 (by subst hr; simp) (by subst hr; rfl) (by subst hr; simp only [sub_op]; rfl) (by decide)]
    simp only [parseMat]
    subst hr
    simp only [Raw.head, Raw.od, Raw.oa, Raw.obr, Raw.oc, Raw.isLit, Raw.ob, Raw.rm, Raw.m3, Raw.f]
    simp (disch := decide) only [extract_low, extract_high, Nat.reduceSub, extract_all]
    simp)

theorem kvtrim (x : XHead) (gd : Opd) (p : BitVec 3) (a : Opd) (c : Opd) : Statement (.kvtrim x gd p a c) := by
  intro hw r hr
  injection hr with hr
  simp only [rawX, Raw.oC, Raw.oA, Raw.oD, Raw.w2] at hr
  refine ⟨Raw.ofWords_words _ (by subst hr; simp [Raw.tight]), ?_⟩
  rw [Raw.parse_mat 30 3 (by subst hr; simp) (by subst hr; rfl) (by subst hr; simp only [sub_op]; rfl) (by decide)]
  simp only [parseMat]
  subst hr
  simp only [Raw.head, Raw.od, Raw.oa, Raw.oc, Raw.f]
  simp (disch := decide) only [extract_low, extract_all]
  simp

theorem kvqry (x : XHead) (d : Opd) (a : Opd) (sl : BitVec 3) : Statement (.kvqry x d a sl) := by
  intro hw r hr
  injection hr with hr
  simp only [rawX, Raw.oA, Raw.oD, Raw.w2] at hr
  refine ⟨Raw.ofWords_words _ (by subst hr; simp [Raw.tight]), ?_⟩
  rw [Raw.parse_mat 30 4 (by subst hr; simp) (by subst hr; rfl) (by subst hr; simp only [sub_op]; rfl) (by decide)]
  simp only [parseMat]
  subst hr
  simp only [Raw.head, Raw.od, Raw.oa, Raw.f]
  simp (disch := decide) only [extract_low, extract_all]
  simp

theorem pcAging (team : Nat) (grp : Nat) : Statement (.pcAging team grp) := by
  intro _ r hr; injection hr

theorem pendingForcedDemotion (core : Nat) (sub : Nat) : Statement (.pendingForcedDemotion core sub) := by
  intro _ r hr; injection hr

theorem rcvTimeout (team : Nat) (grp : Nat) (slot : BitVec 4) : Statement (.rcvTimeout team grp slot) := by
  intro _ r hr; injection hr

theorem scoreboardWriteback (id : Nat) : Statement (.scoreboardWriteback id) := by
  intro _ r hr; injection hr

theorem waitfRelease (team : Nat) (grp : Nat) : Statement (.waitfRelease team grp) := by
  intro _ r hr; injection hr

theorem waittRelease (team : Nat) (grp : Nat) : Statement (.waittRelease team grp) := by
  intro _ r hr; injection hr

theorem evwaitRelease (team : Nat) (grp : Nat) : Statement (.evwaitRelease team grp) := by
  intro _ r hr; injection hr

theorem fncTokenWrite (id : Nat) : Statement (.fncTokenWrite id) := by
  intro _ r hr; injection hr

theorem teamAdmission (team : Nat) : Statement (.teamAdmission team) := by
  intro _ r hr; injection hr

theorem bankConversion (core : Nat) (bank : Nat) : Statement (.bankConversion core bank) := by
  intro _ r hr; injection hr

theorem reply (req : Nat) (lane : Nat) : Statement (.reply req lane) := by
  intro _ r hr; injection hr

theorem refill (team : Nat) : Statement (.refill team) := by
  intro _ r hr; injection hr

theorem homeRequest (id : Nat) : Statement (.homeRequest id) := by
  intro _ r hr; injection hr

theorem storeCompletion (id : Nat) : Statement (.storeCompletion id) := by
  intro _ r hr; injection hr

theorem tableWalk (core : Nat) (world : Nat) (va : Dword) : Statement (.tableWalk core world va) := by
  intro _ r hr; injection hr

theorem escortAccept (req : Nat) (lane : Nat) : Statement (.escortAccept req lane) := by
  intro _ r hr; injection hr

theorem escortDrop (req : Nat) (lane : Nat) : Statement (.escortDrop req lane) := by
  intro _ r hr; injection hr

theorem backoffExpiry (req : Nat) (lane : Nat) : Statement (.backoffExpiry req lane) := by
  intro _ r hr; injection hr

theorem hop (id : Nat) : Statement (.hop id) := by
  intro _ r hr; injection hr

theorem remoteEscortTimeout (id : Nat) : Statement (.remoteEscortTimeout id) := by
  intro _ r hr; injection hr

theorem localEscortTimeout (req : Nat) (lane : Nat) : Statement (.localEscortTimeout req lane) := by
  intro _ r hr; injection hr

theorem streamElementFetch (team : Nat) (grp : Nat) (k : BitVec 4) (lane : Nat) : Statement (.streamElementFetch team grp k lane) := by
  intro _ r hr; injection hr

theorem probePass (id : Nat) : Statement (.probePass id) := by
  intro _ r hr; injection hr

theorem acpCompletion (id : Nat) : Statement (.acpCompletion id) := by
  intro _ r hr; injection hr

theorem scatCompletion (id : Nat) : Statement (.scatCompletion id) := by
  intro _ r hr; injection hr

theorem matrixOpCompletion (id : Nat) : Statement (.matrixOpCompletion id) := by
  intro _ r hr; injection hr

theorem mstCompletion (id : Nat) : Statement (.mstCompletion id) := by
  intro _ r hr; injection hr

theorem attnCompletion (id : Nat) : Statement (.attnCompletion id) := by
  intro _ r hr; injection hr

theorem kvtrimFramePush (id : Nat) : Statement (.kvtrimFramePush id) := by
  intro _ r hr; injection hr

theorem conjugatorExpiry (team : Nat) : Statement (.conjugatorExpiry team) := by
  intro _ r hr; injection hr

theorem conjugateGroupFormation (team : Nat) : Statement (.conjugateGroupFormation team) := by
  intro _ r hr; injection hr

theorem integrityError (launch : Nat) (line : Nat) (source : Nat) : Statement (.integrityError launch line source) := by
  intro _ r hr; injection hr

theorem unconsumedError (world : Nat) (line : Nat) (source : Nat) : Statement (.unconsumedError world line source) := by
  intro _ r hr; injection hr

theorem correctedError (die : Nat) (cls : Nat) : Statement (.correctedError die cls) := by
  intro _ r hr; injection hr

theorem faultRecordWrite (world : Nat) : Statement (.faultRecordWrite world) := by
  intro _ r hr; injection hr

theorem faultQueueSetup (world : Nat) (size : Bool) (val : Dword) : Statement (.faultQueueSetup world size val) := by
  intro _ r hr; injection hr

theorem fqheadWrite (world : Nat) (val : Dword) : Statement (.fqheadWrite world val) := by
  intro _ r hr; injection hr

theorem retry (world : Nat) (tag : Word) : Statement (.retry world tag) := by
  intro _ r hr; injection hr

theorem skip (world : Nat) (tag : Word) : Statement (.skip world tag) := by
  intro _ r hr; injection hr

theorem kill (world : Nat) (tag : Word) : Statement (.kill world tag) := by
  intro _ r hr; injection hr

theorem translationInvalidate (world : Nat) (val : Dword) : Statement (.translationInvalidate world val) := by
  intro _ r hr; injection hr

theorem invalidateCompletion (id : Nat) : Statement (.invalidateCompletion id) := by
  intro _ r hr; injection hr

theorem preemptionRequest (team : Nat) : Statement (.preemptionRequest team) := by
  intro _ r hr; injection hr

theorem stopTime (team : Nat) : Statement (.stopTime team) := by
  intro _ r hr; injection hr

theorem saveDone (team : Nat) : Statement (.saveDone team) := by
  intro _ r hr; injection hr

theorem restore (team : Nat) (core : Nat) : Statement (.restore team core) := by
  intro _ r hr; injection hr

theorem lqnotify (fn : Nat) (q : Nat) (val : Word) : Statement (.lqnotify fn q val) := by
  intro _ r hr; injection hr

theorem lqctlWrite (fn : Nat) (q : Nat) (val : Dword) : Statement (.lqctlWrite fn q val) := by
  intro _ r hr; injection hr

theorem launchRecordTake (q : Nat) : Statement (.launchRecordTake q) := by
  intro _ r hr; injection hr

theorem launchWaitCheck (q : Nat) : Statement (.launchWaitCheck q) := by
  intro _ r hr; injection hr

theorem dispatchDecision : Statement (.dispatchDecision) := by
  intro _ r hr; injection hr

theorem launchCompletion (launch : Nat) : Statement (.launchCompletion launch) := by
  intro _ r hr; injection hr

theorem eventSignal (world : Nat) (ev : Nat) : Statement (.eventSignal world ev) := by
  intro _ r hr; injection hr

theorem fcoresWrite (world : Nat) (j : Nat) (val : Dword) : Statement (.fcoresWrite world j val) := by
  intro _ r hr; injection hr

theorem sliceEnd : Statement (.sliceEnd) := by
  intro _ r hr; injection hr

theorem kvpush (world : Nat) (tier : Bool) (cls : BitVec 2) (val : Dword) : Statement (.kvpush world tier cls val) := by
  intro _ r hr; injection hr

theorem kvrclWrite (world : Nat) (val : Dword) : Statement (.kvrclWrite world val) := by
  intro _ r hr; injection hr

theorem errorCounterWrite (die : Nat) (cls : Nat) : Statement (.errorCounterWrite die cls) := by
  intro _ r hr; injection hr

theorem registerWrite (fn : Nat) (offset : Nat) (val : Dword) : Statement (.registerWrite fn offset val) := by
  intro _ r hr; injection hr

theorem perstDeassert : Statement (.perstDeassert) := by
  intro _ r hr; injection hr

theorem firmwareCheck (ok : Bool) (unit : BitVec 5) : Statement (.firmwareCheck ok unit) := by
  intro _ r hr; injection hr

theorem pllLock (ok : Bool) (unit : BitVec 5) : Statement (.pllLock ok unit) := by
  intro _ r hr; injection hr

theorem hbmTraining (ok : Bool) (unit : BitVec 5) : Statement (.hbmTraining ok unit) := by
  intro _ r hr; injection hr

theorem memoryZeroing (ok : Bool) (unit : BitVec 5) : Statement (.memoryZeroing ok unit) := by
  intro _ r hr; injection hr

theorem gtcStart (ok : Bool) (unit : BitVec 5) : Statement (.gtcStart ok unit) := by
  intro _ r hr; injection hr

theorem configurationRequest : Statement (.configurationRequest) := by
  intro _ r hr; injection hr

theorem bar2Read (fn : Nat) (off : Nat) (n : Nat) (viaIde : Bool) : Statement (.bar2Read fn off n viaIde) := by
  intro _ r hr; injection hr

theorem bar2Write (fn : Nat) (off : Nat) (data : List Byte) (viaIde : Bool) : Statement (.bar2Write fn off data viaIde) := by
  intro _ r hr; injection hr

theorem lockInterface (world : Nat) (sess : Nat) : Statement (.lockInterface world sess) := by
  intro _ r hr; injection hr

theorem startInterface (world : Nat) (sess : Nat) : Statement (.startInterface world sess) := by
  intro _ r hr; injection hr

theorem stopInterface (world : Nat) (sess : Nat) : Statement (.stopInterface world sess) := by
  intro _ r hr; injection hr

theorem functionLevelReset (world : Nat) : Statement (.functionLevelReset world) := by
  intro _ r hr; injection hr

theorem ideIntegrityFailure (world : Nat) : Statement (.ideIntegrityFailure world) := by
  intro _ r hr; injection hr

theorem lockedRegisterWrite (world : Nat) (offset : Nat) (val : Dword) : Statement (.lockedRegisterWrite world offset val) := by
  intro _ r hr; injection hr

theorem getVersion : Statement (.getVersion) := by
  intro _ r hr; injection hr

theorem getCapabilities : Statement (.getCapabilities) := by
  intro _ r hr; injection hr

theorem negotiateAlgorithms : Statement (.negotiateAlgorithms) := by
  intro _ r hr; injection hr

theorem getDigests : Statement (.getDigests) := by
  intro _ r hr; injection hr

theorem getCertificate : Statement (.getCertificate) := by
  intro _ r hr; injection hr

theorem challenge : Statement (.challenge) := by
  intro _ r hr; injection hr

theorem getMeasurements (index : Nat) : Statement (.getMeasurements index) := by
  intro _ r hr; injection hr

theorem keyExchange : Statement (.keyExchange) := by
  intro _ r hr; injection hr

theorem finish (sess : Nat) : Statement (.finish sess) := by
  intro _ r hr; injection hr

theorem heartbeat (sess : Nat) : Statement (.heartbeat sess) := by
  intro _ r hr; injection hr

theorem keyUpdate (sess : Nat) : Statement (.keyUpdate sess) := by
  intro _ r hr; injection hr

theorem endSession (sess : Nat) : Statement (.endSession sess) := by
  intro _ r hr; injection hr

theorem l2waysWrite (world : Nat) (val : Dword) : Statement (.l2waysWrite world val) := by
  intro _ r hr; injection hr

theorem migExport (world : Nat) : Statement (.migExport world) := by
  intro _ r hr; injection hr

theorem migImport (world : Nat) : Statement (.migImport world) := by
  intro _ r hr; injection hr

theorem migConfirm (world : Nat) : Statement (.migConfirm world) := by
  intro _ r hr; injection hr

theorem migRelease (world : Nat) : Statement (.migRelease world) := by
  intro _ r hr; injection hr

theorem migClear (world : Nat) : Statement (.migClear world) := by
  intro _ r hr; injection hr

theorem migrationExpiry (world : Nat) : Statement (.migrationExpiry world) := by
  intro _ r hr; injection hr

theorem migrationDeadline (world : Nat) : Statement (.migrationDeadline world) := by
  intro _ r hr; injection hr

theorem fabricIngressRequest (port : Nat) (sdev : Nat) (sworld : Nat) (va : Dword) (n : Nat) (op : Nat) (data : List Byte) : Statement (.fabricIngressRequest port sdev sworld va n op data) := by
  intro _ r hr; injection hr

theorem remoteReply (id : Nat) (err : Option Nat) (data : List Byte) (w : Dword) : Statement (.remoteReply id err data w) := by
  intro _ r hr; injection hr

theorem portDown (port : Nat) : Statement (.portDown port) := by
  intro _ r hr; injection hr

theorem timeSync (port : Nat) (now : Dword) : Statement (.timeSync port now) := by
  intro _ r hr; injection hr

theorem laneSample (port : Nat) (lanes : List (Nat × Nat)) : Statement (.laneSample port lanes) := by
  intro _ r hr; injection hr

theorem quietPoint (port : Nat) : Statement (.quietPoint port) := by
  intro _ r hr; injection hr

theorem forcedIdleGap (port : Nat) : Statement (.forcedIdleGap port) := by
  intro _ r hr; injection hr

theorem dvfsWindow (points : BitVec 16) (temp : BitVec 16) : Statement (.dvfsWindow points temp) := by
  intro _ r hr; injection hr

theorem thermalThrottle : Statement (.thermalThrottle) := by
  intro _ r hr; injection hr

theorem thermalTrip : Statement (.thermalTrip) := by
  intro _ r hr; injection hr

theorem perstAssert : Statement (.perstAssert) := by
  intro _ r hr; injection hr

theorem hostLinkDown (link : Bool) : Statement (.hostLinkDown link) := by
  intro _ r hr; injection hr

theorem hostLinkUp (link : Bool) : Statement (.hostLinkUp link) := by
  intro _ r hr; injection hr

theorem portUp (port : Nat) : Statement (.portUp port) := by
  intro _ r hr; injection hr

theorem firmwareActivation : Statement (.firmwareActivation) := by
  intro _ r hr; injection hr

end Sys2Proof.Laws.Round
end

