-- ==== Sys2Proof/Laws/Threads.lean ====
section
/-! SUPPORT. What updates of threads by their homes do: to the threads named, and to no other. -/

namespace Sys2Proof.Machine

/-- A thread that is there. -/
def Team_hasThread (t : Team) (g l : Nat) : Prop := Team_hasGroup t g ∧ l < (t.groupAt g).threads.length

theorem Team.hasThread_of {t : Team} {g l : Nat} (h : (t.thread g l).st ≠ .exited) : Team_hasThread t g l :=
  ⟨Team.hasGroup_of_thread h, Team.thread_lt h⟩

theorem Team.thread_modThread_has {t : Team} {g l : Nat} (h : Team_hasThread t g l) (f : Thread → Thread) :
    (t.modThread g l f).thread g l = f (t.thread g l) := by
  unfold Team.modThread Team.modGroupAt
  conv => lhs; unfold Team.thread
  rw [Team.groupAt_setGroupAt t g _ h.1]
  simp [List.getD, h.2, Team.thread]

theorem Team.hasGroup_modGroupAt (t : Team) (g g' : Nat) (f : Group → Group) : Team_hasGroup (t.modGroupAt g f) g' ↔ Team_hasGroup t g' := by
  unfold Team_hasGroup Team.modGroupAt Team.setGroupAt
  split <;> simp

theorem Team.groupAt_modGroupAt {t : Team} {g : Nat} (h : Team_hasGroup t g) (f : Group → Group) :
    (t.modGroupAt g f).groupAt g = f (t.groupAt g) := Team.groupAt_setGroupAt t g _ h

theorem Team.groupAt_modGroupAt_ne (t : Team) {g j : Nat} (f : Group → Group) (h : j ≠ g) : (t.modGroupAt g f).groupAt j = t.groupAt j :=
  Team.groupAt_setGroupAt_ne t _ h

/-- A group that is not there is not touched. -/
theorem Team.groupAt_modGroupAt_not {t : Team} {g : Nat} (h : ¬ Team_hasGroup t g) (f : Group → Group) (j : Nat) :
    (t.modGroupAt g f).groupAt j = t.groupAt j := by
  by_cases hj : j = g
  · subst hj
    unfold Team.modGroupAt Team.setGroupAt Team.groupAt
    unfold Team_hasGroup at h
    push Not at h
    split
    · rename_i e
      have : t.lead = none := by cases hl : t.lead with
        | none => rfl
        | some _ => exact absurd (h.1 e) (by simp [hl])
      simp [this]
    · rename_i e
      have := h.2 e
      rw [List.set_eq_of_length_le this]
  · exact Team.groupAt_modGroupAt_ne t f hj

/-- What an update of a group leaves of the number of its threads. -/
theorem Team.hasThread_modGroupAt (t : Team) (g : Nat) {f : Group → Group} (h : (f (t.groupAt g)).threads.length = (t.groupAt g).threads.length)
    (g' l' : Nat) : Team_hasThread (t.modGroupAt g f) g' l' ↔ Team_hasThread t g' l' := by
  unfold Team_hasThread
  rw [Team.hasGroup_modGroupAt]
  by_cases hg : g' = g
  · subst hg
    constructor
    · rintro ⟨h1, h2⟩; rw [Team.groupAt_modGroupAt h1, h] at h2; exact ⟨h1, h2⟩
    · rintro ⟨h1, h2⟩; rw [Team.groupAt_modGroupAt h1, h]; exact ⟨h1, h2⟩
  · rw [Team.groupAt_modGroupAt_ne t f hg]

theorem Team.hasThread_modThread (t : Team) (g l : Nat) (f : Thread → Thread) (g' l' : Nat) :
    Team_hasThread (t.modThread g l f) g' l' ↔ Team_hasThread t g' l' :=
  Team.hasThread_modGroupAt t g (by simp) g' l'

/-- Threads named by home, each updated by the same idempotent function. -/
theorem Team.thread_foldHomes {f : Thread → Thread} (hf : ∀ th, f (f th) = f th) (hs : List (Nat × Nat)) {t : Team} {g l : Nat}
    (h : Team_hasThread t g l) :
    (hs.foldl (fun t h => t.modThread h.1 h.2 f) t).thread g l = if (g, l) ∈ hs then f (t.thread g l) else t.thread g l := by
  induction hs generalizing t with
  | nil => simp
  | cons x r ih =>
    rw [List.foldl_cons, ih ((Team.hasThread_modThread t _ _ _ _ _).mpr h)]
    by_cases hx : x = (g, l)
    · subst hx
      rw [Team.thread_modThread_has h]
      simp [hf]
    · have hne : ¬(g = x.1 ∧ l = x.2) := fun e => hx (by rw [e.1, e.2])
      rw [Team.thread_modThread_ne t f hne]
      have : (g, l) ≠ x := fun e => hx e.symm
      simp [this]

theorem Team.hasThread_foldHomes (f : Thread → Thread) (hs : List (Nat × Nat)) (t : Team) (g l : Nat) :
    Team_hasThread (hs.foldl (fun t h => t.modThread h.1 h.2 f) t) g l ↔ Team_hasThread t g l := by
  induction hs generalizing t with
  | nil => rfl
  | cons x r ih => rw [List.foldl_cons, ih, Team.hasThread_modThread]

/-- Positions name threads by their homes. -/
theorem Team.foldAt_eq (a : Actor) (f : Thread → Thread) (ls : List Nat) (t : Team) :
    ls.foldl (fun t L => t.modThreadAt a L f) t = (ls.filterMap (t.place? a)).foldl (fun t h => t.modThread h.1 h.2 f) t := by
  induction ls generalizing t with
  | nil => rfl
  | cons L r ih =>
    rw [List.foldl_cons, ih]
    have hp : ∀ M, (t.modThreadAt a L f).place? a M = t.place? a M := fun M => by simp
    simp only [hp]
    cases hL : t.place? a L with
    | none => simp [hL, Team.modThreadAt]
    | some h => simp [hL, Team.modThreadAt]

/-! ### The issuer's team -/

/-- The issuer's team and its threads' places stay. -/
structure Steady (s s' : State) : Prop where
  cur : s'.cur = s.cur
  now : s'.now = s.now
  team : (s'.team? s.cur.team).isSome = (s.team? s.cur.team).isSome
  place : ∀ L, s'.ct.place? s.cur.who L = s.ct.place? s.cur.who L
  has : ∀ g l, Team_hasThread s'.ct g l ↔ Team_hasThread s.ct g l

theorem Steady.refl (s : State) : Steady s s := ⟨rfl, rfl, rfl, fun _ => rfl, fun _ _ => Iff.rfl⟩

theorem Steady.trans {a b c : State} (h : Steady a b) (k : Steady b c) : Steady a c := by
  refine ⟨k.cur.trans h.cur, k.now.trans h.now, ?_, ?_, fun g l => (k.has g l).trans (h.has g l)⟩
  · have := k.team; rw [h.cur] at this; exact this.trans h.team
  · intro L; have := k.place L; rw [h.cur] at this; exact this.trans (h.place L)

theorem Steady.path {s s' : State} (h : Steady s s') : s'.path = s.path := by simp only [State.path, h.cur]

theorem Steady.home {s s' : State} (h : Steady s s') (L : Nat) : s'.home L = s.home L := by
  simp only [State.home, Team_homeOf, h.cur, h.place]

theorem Steady.modCt {s : State} (ht : (s.team? s.cur.team).isSome = true) (f : Team → Team) (hid : ∀ t, (f t).id = t.id)
    (hp : ∀ L, (f s.ct).place? s.cur.who L = s.ct.place? s.cur.who L) (hh : ∀ g l, Team_hasThread (f s.ct) g l ↔ Team_hasThread s.ct g l) :
    Steady s (s.modCt f) := by
  have hct := State.ct_modCt s f hid ht
  refine ⟨rfl, rfl, ?_, fun L => by rw [hct]; exact hp L, fun g l => by rw [hct]; exact hh g l⟩
  have : (s.modCt f).team? s.cur.team = (s.team? s.cur.team).map f := State.teamOpt_modTeam s _ f hid
  rw [this]; simp

/-- An update of threads by their homes. -/
theorem Steady.modHomes {s : State} (ht : (s.team? s.cur.team).isSome = true) (hs : List (Nat × Nat)) (f : Thread → Thread) :
    Steady s (s.modCt fun t => hs.foldl (fun t h => t.modThread h.1 h.2 f) t) :=
  Steady.modCt ht _ (fun t => foldl_id _ (fun _ _ => by simp) _ _) (fun L => foldl_place _ _ _ (fun _ _ => by simp) _ _)
    (fun g l => Team.hasThread_foldHomes f hs _ g l)

theorem State.ct_modHomes {s : State} (ht : (s.team? s.cur.team).isSome = true) (hs : List (Nat × Nat)) (f : Thread → Thread) :
    (s.modCt fun t => hs.foldl (fun t h => t.modThread h.1 h.2 f) t).ct = hs.foldl (fun t h => t.modThread h.1 h.2 f) s.ct :=
  State.ct_modCt s _ (fun t => foldl_id _ (fun _ _ => by simp) _ _) ht

/-- A lane of an issuing path stands at its home. -/
theorem Issuing.place {s : State} (hi : Issuing s) {L : Nat} (hL : L ∈ s.path) :
    s.ct.place? s.cur.who L = some (s.home L) ∧ s.cth L = s.ct.thread (s.home L).1 (s.home L).2 ∧
      Team_hasThread s.ct (s.home L).1 (s.home L).2 := by
  have hst := (hi.path L hL).1
  cases hp : s.ct.place? s.cur.who L with
  | none =>
    have : s.cth L = noThread := by simp [State.cth, Team.threadAt, hp]
    rw [this] at hst; simp [noThread] at hst
  | some gl =>
    have hh : s.home L = gl := by simp [State.home, Team_homeOf, hp]
    have hc : s.cth L = s.ct.thread gl.1 gl.2 := by simp [State.cth, Team.threadAt, hp]
    rw [hh]
    refine ⟨rfl, hc, Team.hasThread_of ?_⟩
    rw [← hc, hst]; simp

theorem active_sub {s : State} {x : XHead} {L : Nat} (h : L ∈ s.active x) : L ∈ s.path := (List.mem_filter.mp h).1

/-- The homes of an issuing path. -/
def State.pathHomes (s : State) : List (Nat × Nat) := s.path.filterMap (s.ct.place? s.cur.who)

theorem Issuing.mem_pathHomes {s : State} (hi : Issuing s) {L : Nat} (hL : L ∈ s.path) : s.home L ∈ s.pathHomes :=
  List.mem_filterMap.mpr ⟨L, hL, (hi.place hL).1⟩

/-- What the retire of its path does to a thread. -/
def State.retired (s : State) (x : XHead) (th : Thread) : Thread :=
  retireThread s.cur.pc s.cur.level (s.now + max x.stall.toNat 1) s.nextPc th

theorem State.retired_run {s : State} {x : XHead} {th : Thread} (h1 : th.st = .run) (h2 : th.pc = s.cur.pc) (h3 : th.level = s.cur.level) :
    s.retired x th = { th with pc := s.nextPc, ready := s.now + max x.stall.toNat 1 } := by
  unfold State.retired retireThread; rw [if_pos ⟨h1, h2, h3⟩]

theorem State.retired_stop {s : State} {x : XHead} {th : Thread} (h : th.st ≠ .run ∨ th.level ≠ s.cur.level) :
    s.retired x th = { th with ready := s.now + max x.stall.toNat 1 } := by
  unfold State.retired retireThread; rw [if_neg]; rintro ⟨h1, _, h3⟩; exact h.elim (· h1) (· h3)

theorem State.retired_idem (s : State) (x : XHead) (th : Thread) : s.retired x (s.retired x th) = s.retired x th := by
  unfold State.retired retireThread
  by_cases h : th.st = .run ∧ th.pc = s.cur.pc ∧ th.level = s.cur.level
  · rw [if_pos h]
    split <;> rfl
  · rw [if_neg h]
    split
    · rename_i h2; exact absurd h2 h
    · rfl

/-- Everything of a thread but its program counter and readiness stays. -/
theorem State.retired_fields (s : State) (x : XHead) (th : Thread) :
    (s.retired x th).st = th.st ∧ (s.retired x th).v = th.v ∧ (s.retired x th).p = th.p ∧ (s.retired x th).c = th.c ∧
      (s.retired x th).level = th.level ∧ (s.retired x th).member = th.member ∧ (s.retired x th).arrived = th.arrived := by
  unfold State.retired retireThread; split <;> simp

theorem State.retire_eq (s : State) (x : XHead) :
    s.retire x = s.modCt fun t => s.path.foldl (fun t L => t.modThreadAt s.cur.who L (s.retired x)) t := rfl

theorem State.retire_ct {s : State} (ht : (s.team? s.cur.team).isSome = true) (x : XHead) :
    (s.retire x).ct = s.pathHomes.foldl (fun t h => t.modThread h.1 h.2 (s.retired x)) s.ct := by
  rw [State.retire_eq, State.ct_modCt s _ (fun t => foldl_id _ (fun _ _ => by simp) _ _) ht, Team.foldAt_eq]
  rfl

theorem Steady.retire {s : State} (ht : (s.team? s.cur.team).isSome = true) (x : XHead) : Steady s (s.retire x) :=
  Steady.modCt ht _ (fun t => foldl_id _ (fun _ _ => by simp) _ _) (fun L => foldl_place _ _ _ (fun _ _ => by simp) _ _)
    (fun g l => by rw [Team.foldAt_eq]; exact Team.hasThread_foldHomes _ _ _ g l)

/-- THE RETIRE of a path, thread by thread. -/
theorem State.retire_thread {s : State} (ht : (s.team? s.cur.team).isSome = true) (x : XHead) {g l : Nat} (h : Team_hasThread s.ct g l) :
    (s.retire x).ct.thread g l = if (g, l) ∈ s.pathHomes then s.retired x (s.ct.thread g l) else s.ct.thread g l := by
  rw [State.retire_ct ht, Team.thread_foldHomes (State.retired_idem s x) _ h]

theorem Quiet.steady {s s' : State} (h : Quiet s s') (hh : ∀ g l, Team_hasThread s'.ct g l ↔ Team_hasThread s.ct g l) : Steady s s' :=
  ⟨h.cur, h.now, h.team, h.place, hh⟩

theorem Steady.pathHomes {s s' : State} (h : Steady s s') : s'.pathHomes = s.pathHomes := by
  unfold State.pathHomes
  rw [h.path, h.cur]
  congr 1
  funext L
  exact h.place L

theorem Steady.retired {s s' : State} (h : Steady s s') (x : XHead) : s'.retired x = s.retired x := by
  funext th
  simp only [State.retired, State.nextPc, h.cur, h.now]

theorem Steady.isSome {s s' : State} (h : Steady s s') (ht : (s.team? s.cur.team).isSome = true) : (s'.team? s'.cur.team).isSome = true := by
  rw [h.cur, h.team]; exact ht

/-- A path that retires after an update of some threads by their homes. -/
theorem State.retire_after {s s' : State} (h : Steady s s') (ht : (s.team? s.cur.team).isSome = true) (x : XHead) {g l : Nat}
    (hh : Team_hasThread s.ct g l) : (s'.retire x).ct.thread g l =
      if (g, l) ∈ s.pathHomes then s.retired x (s'.ct.thread g l) else s'.ct.thread g l := by
  rw [State.retire_thread (h.isSome ht) x ((h.has g l).mpr hh), h.pathHomes, h.retired]

theorem Steady.cth {s s' : State} (h : Steady s s') (hi : Issuing s) {L : Nat} (hL : L ∈ s.path) :
    s'.cth L = s'.ct.thread (s.home L).1 (s.home L).2 := by
  simp only [State.cth, Team.threadAt, h.cur, h.place, (hi.place hL).1]

theorem OwnTeam.modCt (s : State) (f : Team → Team) (hid : ∀ t, (f t).id = t.id) : OwnTeam s (s.modCt f) := by
  refine ⟨rfl, ?_⟩
  show (mapIf s.teams _ f).filter _ = _
  unfold mapIf
  rw [List.filter_map]
  have : ((fun a : Team => decide (a.id ≠ s.cur.team)) ∘ fun x => if decide (x.id = s.cur.team) = true then f x else x) =
      fun a => decide (a.id ≠ s.cur.team) := by
    funext a; simp only [Function.comp]; split <;> simp_all
  rw [this]
  conv => rhs; rw [← List.map_id (List.filter _ s.teams)]
  apply List.map_congr_left
  intro a ha
  have := List.of_mem_filter ha
  simp at this; simp [this]
theorem OwnTeam.refl (s : State) : OwnTeam s s := ⟨rfl, rfl⟩
theorem OwnTeam.trans {a b c : State} (h : OwnTeam a b) (k : OwnTeam b c) : OwnTeam a c := by
  have hc : b.cur = a.cur := by simpa using congrArg State.cur h.rest
  refine ⟨by rw [← h.rest, ← k.rest], ?_⟩
  have := k.others; rw [hc] at this
  exact this.trans h.others
theorem OwnTeam.retire (s : State) (x : XHead) : OwnTeam s (s.retire x) :=
  OwnTeam.modCt s _ fun t => foldl_id _ (fun _ _ => by simp) _ _

/-! ### What stays -/

/-- Registers of a team. -/
def TeamRegs (a b : Team) : Prop :=
  (∀ g l, (b.thread g l).v = (a.thread g l).v ∧ (b.thread g l).c = (a.thread g l).c) ∧ (∀ k, (b.actor k).g = (a.actor k).g) ∧ b.t = a.t
theorem TeamRegs.refl (a : Team) : TeamRegs a a := ⟨fun _ _ => ⟨rfl, rfl⟩, fun _ => rfl, rfl⟩
theorem TeamRegs.trans {a b c : Team} (h : TeamRegs a b) (k : TeamRegs b c) : TeamRegs a c :=
  ⟨fun g l => ⟨(k.1 g l).1.trans (h.1 g l).1, (k.1 g l).2.trans (h.1 g l).2⟩, fun x => (k.2.1 x).trans (h.2.1 x), k.2.2.trans h.2.2⟩
theorem TeamRegs.modThread (t : Team) (g l : Nat) (f : Thread → Thread) (hv : ∀ th, (f th).v = th.v) (hc : ∀ th, (f th).c = th.c) :
    TeamRegs t (t.modThread g l f) := by
  refine ⟨fun g' l' => ?_, fun k => ?_, ?_⟩
  · by_cases h : g' = g ∧ l' = l
    · obtain ⟨rfl, rfl⟩ := h
      by_cases hh : Team_hasThread t g' l'
      · rw [Team.thread_modThread_has hh]; exact ⟨hv _, hc _⟩
      · have : (t.modThread g' l' f).thread g' l' = t.thread g' l' := by
          by_cases hg : Team_hasGroup t g'
          · have hl : ¬ l' < (t.groupAt g').threads.length := fun h => hh ⟨hg, h⟩
            unfold Team.modThread Team.thread
            rw [Team.groupAt_modGroupAt hg]
            simp only [List.set_eq_of_length_le (Nat.le_of_not_lt hl)]
          · unfold Team.modThread Team.thread
            rw [Team.groupAt_modGroupAt_not hg]
        rw [this]; exact ⟨rfl, rfl⟩
    · rw [Team.thread_modThread_ne t f h]; exact ⟨rfl, rfl⟩
  · have key : ∀ n, ((t.modThread g l f).groupAt n).g = (t.groupAt n).g := by
      intro n
      unfold Team.modThread
      by_cases hn : n = g
      · subst hn
        by_cases hg : Team_hasGroup t n
        · rw [Team.groupAt_modGroupAt hg]
        · rw [Team.groupAt_modGroupAt_not hg]
      · rw [Team.groupAt_modGroupAt_ne t _ hn]
    cases k with
    | grp n => exact key n
    | lead => exact key leadGrp
    | conj n => simp [Team.actor]
  · simp
theorem TeamRegs.foldl {α : Type} (f : Team → α → Team) (h : ∀ t x, TeamRegs t (f t x)) (l : List α) (t : Team) : TeamRegs t (l.foldl f t) := by
  induction l generalizing t with
  | nil => exact TeamRegs.refl t
  | cons x r ih => exact (h t x).trans (ih _)
theorem RegsKept.of {s t : State} (hc : t.cur = s.cur) (h : TeamRegs s.ct t.ct) : RegsKept s t := by
  have : t.team s.cur.team = t.ct := by simp only [State.ct, hc]
  exact ⟨fun g l => by rw [this]; exact (h.1 g l).1, fun g l => by rw [this]; exact (h.1 g l).2, fun a => by rw [this]; exact h.2.1 a, by rw [this]; exact h.2.2⟩

theorem retire_regs {s : State} (ht : (s.team? s.cur.team).isSome = true) (x : XHead) : TeamRegs s.ct (s.retire x).ct := by
  rw [State.retire_ct ht]
  exact TeamRegs.foldl _ (fun t h => TeamRegs.modThread t _ _ _ (fun th => (State.retired_fields s x th).2.1) (fun th => (State.retired_fields s x th).2.2.2.1)) _ _

theorem setBit_idem (m : BitVec 16) (n : Nat) (b : Bool) : setBit (setBit m n b) n b = setBit m n b := by
  unfold setBit; split
  · rw [BitVec.or_assoc, BitVec.or_self]
  · rw [BitVec.and_assoc, BitVec.and_self]
/-- Updates of threads by positions, each with a function of its own that replaces what an earlier one did: some position
of the thread had the last word, or none names it. -/
theorem Team.thread_foldAt {a : Actor} {f : Nat → Thread → Thread} (hf : ∀ L M th, f L (f M th) = f L th) (ls : List Nat) {t : Team}
    {g l : Nat} (h : Team_hasThread t g l) :
    ((∀ M ∈ ls, t.place? a M ≠ some (g, l)) ∧ (ls.foldl (fun t L => t.modThreadAt a L (f L)) t).thread g l = t.thread g l) ∨
      ∃ M ∈ ls, t.place? a M = some (g, l) ∧ (ls.foldl (fun t L => t.modThreadAt a L (f L)) t).thread g l = f M (t.thread g l) := by
  induction ls generalizing t with
  | nil => left; simp
  | cons L r ih =>
    have hh : Team_hasThread (t.modThreadAt a L (f L)) g l := by
      unfold Team.modThreadAt; split
      · exact (Team.hasThread_modThread t _ _ _ _ _).mpr h
      · exact h
    simp only [List.foldl_cons]
    by_cases hL : t.place? a L = some (g, l)
    · have e : (t.modThreadAt a L (f L)).thread g l = f L (t.thread g l) := by
        simp only [Team.modThreadAt, hL]; exact Team.thread_modThread_has h _
      right
      rcases ih hh with ⟨_, h2⟩ | ⟨M, hM, hp, h2⟩
      · exact ⟨L, by simp, hL, by rw [h2, e]⟩
      · exact ⟨M, by simp [hM], by simpa using hp, by rw [h2, e, hf]⟩
    · have e : (t.modThreadAt a L (f L)).thread g l = t.thread g l := Team.thread_modThreadAt_ne hL
      rcases ih hh with ⟨h1, h2⟩ | ⟨M, hM, hp, h2⟩
      · left
        refine ⟨fun M hM => ?_, by rw [h2, e]⟩
        rcases List.mem_cons.mp hM with rfl | hM
        · exact hL
        · simpa using h1 M hM
      · right; exact ⟨M, by simp [hM], by simpa using hp, by rw [h2, e]⟩

theorem Team.hasThread_modThreadAt (t : Team) (a : Actor) (L : Nat) (f : Thread → Thread) (g l : Nat) :
    Team_hasThread (t.modThreadAt a L f) g l ↔ Team_hasThread t g l := by
  unfold Team.modThreadAt; split
  · exact Team.hasThread_modThread t _ _ _ _ _
  · rfl

theorem Team.hasThread_foldl {α : Type} (f : Team → α → Team) (h : ∀ t x g l, Team_hasThread (f t x) g l ↔ Team_hasThread t g l)
    (ls : List α) (t : Team) (g l : Nat) : Team_hasThread (ls.foldl f t) g l ↔ Team_hasThread t g l := by
  induction ls generalizing t with
  | nil => rfl
  | cons x r ih => rw [List.foldl_cons, ih, h]

theorem Steady.modAt {s : State} (ht : (s.team? s.cur.team).isSome = true) (a : Actor) (f : Nat → Thread → Thread) (ls : List Nat) :
    Steady s (s.modCt fun t => ls.foldl (fun t L => t.modThreadAt a L (f L)) t) :=
  Steady.modCt ht _ (fun t => foldl_id _ (fun _ _ => by simp) _ _) (fun L => foldl_place _ _ _ (fun _ _ => by simp) _ _)
    (fun g l => Team.hasThread_foldl _ (fun t L => Team.hasThread_modThreadAt t a L (f L)) _ _ g l)

theorem State.ct_modAt {s : State} (ht : (s.team? s.cur.team).isSome = true) (a : Actor) (f : Nat → Thread → Thread) (ls : List Nat) :
    (s.modCt fun t => ls.foldl (fun t L => t.modThreadAt a L (f L)) t).ct = ls.foldl (fun t L => t.modThreadAt a L (f L)) s.ct :=
  State.ct_modCt s _ (fun t => foldl_id _ (fun _ _ => by simp) _ _) ht

theorem TeamRegs.modThreadAt (t : Team) (a : Actor) (L : Nat) (f : Thread → Thread) (hv : ∀ th, (f th).v = th.v)
    (hc : ∀ th, (f th).c = th.c) : TeamRegs t (t.modThreadAt a L f) := by
  unfold Team.modThreadAt; split
  · exact TeamRegs.modThread t _ _ f hv hc
  · exact TeamRegs.refl t

/-- A thread stopped where it stands. -/
def Thread_stop (why : Nat → TState) (L : Nat) (th : Thread) : Thread := { th with st := why L }

/-- Threads that stop where they stand, for a reason that their lanes give, and the retire of their path: each is stopped at
the instruction, the others go on. -/
theorem State.stop_retire {s : State} (hi : Issuing s) (x : XHead) (blk : List Nat) (hb : ∀ L ∈ blk, L ∈ s.path) (why : Nat → TState)
    (hw : ∀ L, why L ≠ .run) (hsame : ∀ L ∈ blk, ∀ M ∈ s.path, s.home L = s.home M → why M = why L ∧ M ∈ blk) :
    let t := (s.modCt fun t => blk.foldl (fun t L => t.modThreadAt s.cur.who L (Thread_stop why L)) t).retire x
    OwnTeam s t ∧ RegsKept s t ∧ ∀ L ∈ s.path,
      (L ∈ blk → (t.cth L).st = why L ∧ (t.cth L).pc = s.cur.pc) ∧ (L ∉ blk → (t.cth L).st = .run ∧ (t.cth L).pc = s.nextPc) := by
  have hs := Steady.modAt hi.team s.cur.who (Thread_stop why) blk
  have hct := State.ct_modAt hi.team s.cur.who (Thread_stop why) blk
  have hs2 := hs.trans (Steady.retire (hs.isSome hi.team) x)
  have ho : OwnTeam s (s.modCt fun t => blk.foldl (fun t L => t.modThreadAt s.cur.who L (Thread_stop why L)) t) :=
    OwnTeam.modCt s _ fun t => foldl_id _ (fun _ _ => by simp) _ _
  refine ⟨ho.trans (OwnTeam.retire _ _), ?_, ?_⟩
  · refine RegsKept.of hs2.cur ?_
    refine TeamRegs.trans ?_ (retire_regs (hs.isSome hi.team) x)
    rw [hct]
    exact TeamRegs.foldl (fun t L => t.modThreadAt s.cur.who L (Thread_stop why L))
      (fun t L => TeamRegs.modThreadAt t _ _ _ (fun _ => rfl) (fun _ => rfl)) _ _
  · intro L hL
    obtain ⟨h1, h2, h3⟩ := hi.place hL
    obtain ⟨r1, r2, r3⟩ := hi.path L hL
    simp only [hs2.cth hi hL, State.retire_after hs hi.team x h3, if_pos (hi.mem_pathHomes hL), hct]
    rcases Team.thread_foldAt (a := s.cur.who) (f := Thread_stop why) (fun _ _ _ => rfl) blk h3 with
      ⟨hn, he⟩ | ⟨M, hM, hp, he⟩
    · refine ⟨fun hc => absurd h1 (hn L hc), fun _ => ?_⟩
      rw [he, ← h2, State.retired_run r1 r2 r3]
      exact ⟨r1, rfl⟩
    · have hMh : s.home M = s.home L := by
        have := (hi.place (hb M hM)).1
        rw [hp] at this; exact (Option.some.inj this).symm
      obtain ⟨hwL, hLb⟩ := hsame M hM L hL hMh
      refine ⟨fun _ => ?_, fun hc => absurd hLb hc⟩
      have hst : (Thread_stop why M (s.ct.thread (s.home L).1 (s.home L).2)).st ≠ .run := hw M
      rw [he, State.retired_stop (Or.inl hst), ← h2]
      exact ⟨hwL.symm, r2⟩

end Sys2Proof.Machine
end

