-- ==== Sys2Proof/Tests/Slice0.lean ====
section
/-! SUPPORT. Own tests: words of the spec's encodings that decode to their instructions, a refusal by each check of
well-formedness, values that single instructions write, and for every statement a state that meets its hypotheses. -/

namespace Sys2Proof.Tests

open Sys2Proof Sys2Proof.Machine

set_option Elab.async false

/-! ### Decoding -/

/-- The words decode to the instruction and to nothing more. -/
def reads (x : List Word × Instr) : Bool := decide (decodeWords x.1 = .ok (x.2, x.1.length))

def words_base_integer : List (List Word × Instr) := [
  ([0x182804], .mov 1 5 6),
  ([0x382a, 0x3f800000, 0x0], .movi 2 7 0x3F800000),
  ([0x120c2848], .iadd 2 5 3 (.reg 9)),
  ([0x120c2864], .isub 1 5 3 (.reg 9)),
  ([0x120c2884], .imul 1 5 3 (.reg 9)),
  ([0x120c28a4], .imulh 1 5 3 (.reg 9)),
  ([0x120c28c4], .imin 1 5 3 (.reg 9)),
  ([0x120c28e4], .imax 1 5 3 (.reg 9)),
  ([0x120c2904], .iand 1 5 3 (.reg 9)),
  ([0x120c2924], .ior 1 5 3 (.reg 9)),
  ([0xc2946, 0xff, 0x0], .ixor 1 5 3 (.lit 0xFF)),
  ([0xc2964], .inot 1 5 3),
  ([0x120c2984], .shl 1 5 3 (.reg 9)),
  ([0x120c29a4], .shr 1 5 3 (.reg 9)),
  ([0x120c29c4], .sar 1 5 3 (.reg 9)),
  ([0x1031e6, 0x3456789a, 0x12], .lea 1 6 4 (.lit 0x123456789A))]
theorem test_words_base_integer : words_base_integer.all reads = true := by decide +kernel

def words_base_float : List (List Word × Instr) := [
  ([0x120c2a10], .fadd 4 5 3 (.reg 9)),
  ([0x120c2a30], .fsub 4 5 3 (.reg 9)),
  ([0x120c2a50], .fmul 4 5 3 (.reg 9)),
  ([0x120c2a70], .fmin 4 5 3 (.reg 9)),
  ([0x120c2a90], .fmax 4 5 3 (.reg 9)),
  ([0xc2ab0], .ftoi 4 5 3),
  ([0xc2ad0], .itof 4 5 3),
  ([0xc2af0], .frnd 4 5 3),
  ([0xc2b10], .fcvtF16F32 4 5 3),
  ([0xc2b30], .fcvtF32F16 4 5 3),
  ([0xc2b50], .fcvtB16F32 4 5 3),
  ([0xc2b70], .fcvtF32B16 4 5 3)]
theorem test_words_base_float : words_base_float.all reads = true := by decide +kernel

def words_base_predicate : List (List Word × Instr) := [
  ([0xe189b88], .icmpI32 2 .lt 3 6 (.reg 7)),
  ([0xe195ba8], .icmpN32 2 .ge 3 6 (.reg 7)),
  ([0xe19c3d0], .fcmpF32 4 .nan 0 6 (.reg 7)),
  ([0x8080be4], .pand 1 1 2 4),
  ([0x8084be4], .por 1 1 2 4),
  ([0x8088be4], .pxor 1 1 2 4),
  ([0x8cbe4], .pnot 1 1 2),
  ([0x90be4], .pmov 1 1 2)]
theorem test_words_base_predicate : words_base_predicate.all reads = true := by decide +kernel

def words_base_control : List (List Word × Instr) := [
  ([0xfff40404], .bra 1 (.short 0x3FFD)),
  ([0x2143424], .call 1 6 (.short 0x85)),
  ([0x180444], .ret 1 6),
  ([0x180464], .brx 1 6),
  ([0x484], .exit 1),
  ([0x4a0], .nop 0),
  ([0x4c4], .yieldB 1),
  ([0x21404e4], .bkpt 1 0x85)]
theorem test_words_base_control : words_base_control.all reads = true := by decide +kernel

def words_base_memory : List (List Word × Instr) := [
  ([0x4105504], .ld32 1 10 4 (.short 2)),
  ([0xfe105524], .ld64 1 10 4 (.short 127)),
  ([0x4106544], .ld128 1 12 4 (.short 2)),
  ([0x1564], .st32 1 2 0 (.short 0)),
  ([0x2101584], .st64 1 2 4 (.short 1)),
  ([0x22025a4], .st128 1 4 8 (.short 1)),
  ([0x1055c6, 0x1000, 0x0], .ld32Ro 1 10 4 (.lit 0x1000)),
  ([0x41065e4], .ld128Ro 1 12 4 (.short 2))]
theorem test_words_base_memory : words_base_memory.all reads = true := by decide +kernel

def words_base_lanes : List (List Word × Instr) := [
  ([0x120c2e04], .shflIdx 1 5 3 (.reg 9)),
  ([0x120c2e24], .shflUp 1 5 3 (.reg 9)),
  ([0x120c2e44], .shflDown 1 5 3 (.reg 9)),
  ([0xc2e66, 0x1, 0x0], .shflXor 1 5 3 (.lit 1)),
  ([0xc2e84], .qxchH 1 5 3),
  ([0xc2ea4], .qxchV 1 5 3),
  ([0xc2ec4], .qxchD 1 5 3),
  ([0xc2ee4], .ballot 1 5 3)]
theorem test_words_base_lanes : words_base_lanes.all reads = true := by decide +kernel

def words_integer : List (List Word × Instr) := [
  ([0x5, 0x201c00, 0x0], .movExt ⟨1, 7, false⟩ .i32 ⟨.v, 0⟩ ⟨.g, 0⟩),
  ([0xa80b, 0x1c10, 0x40000000, 0xfffe0000, 0x0], .moviExt ⟨2, 7, false⟩ .i32 ⟨.g, 21⟩ 0xFFFE0000),
  ([0x120c2809, 0x2820, 0x0], .iaddExt ⟨2, 2, true⟩ .i32 false ⟨.v, 5⟩ ⟨.v, 3⟩ (.reg ⟨.v, 9⟩)),
  ([0x10103005, 0x40001c33, 0x0], .isubExt ⟨1, 7, false⟩ .n64 true ⟨.v, 6⟩ ⟨.v, 4⟩ (.reg ⟨.v, 8⟩)),
  ([0x20c2805, 0x1001c40, 0x0], .imulExt ⟨1, 7, false⟩ .i32 false ⟨.v, 5⟩ ⟨.v, 3⟩ (.reg ⟨.t, 1⟩)),
  ([0x120c2805, 0x1c51, 0x0], .imulhExt ⟨1, 7, false⟩ .n32 ⟨.v, 5⟩ ⟨.v, 3⟩ (.reg ⟨.v, 9⟩)),
  ([0x6084009, 0x40011c60, 0x0], .imad ⟨2, 7, false⟩ .i32 true ⟨.v, 8⟩ ⟨.v, 2⟩ (.reg ⟨.v, 3⟩) ⟨.v, 4⟩),
  ([0x10103005, 0x1c72, 0x0], .iminExt ⟨1, 7, false⟩ .i64 ⟨.v, 6⟩ ⟨.v, 4⟩ (.reg ⟨.v, 8⟩)),
  ([0x40c2805, 0x1801c80, 0x0], .imaxExt ⟨1, 7, false⟩ .i32 ⟨.v, 5⟩ ⟨.v, 3⟩ (.reg ⟨.f, 2⟩)),
  ([0xc2805, 0x40001c90, 0x0], .iabs ⟨1, 7, false⟩ .i32 true ⟨.v, 5⟩ ⟨.v, 3⟩),
  ([0xc2805, 0x1ca1, 0x0], .ineg ⟨1, 7, false⟩ .n32 false ⟨.v, 5⟩ ⟨.v, 3⟩),
  ([0x120c2805, 0x1cb1, 0x80000000], .andExt ⟨1, 7, false⟩ .n32 ⟨.t, 5⟩ ⟨.v, 3⟩ (.reg ⟨.v, 9⟩)),
  ([0x10103005, 0x1cc3, 0x0], .orExt ⟨1, 7, false⟩ .n64 ⟨.v, 6⟩ ⟨.v, 4⟩ (.reg ⟨.v, 8⟩)),
  ([0xc2807, 0x1cd1, 0x0, 0x3, 0x0], .xorExt ⟨1, 7, false⟩ .n32 ⟨.v, 5⟩ ⟨.v, 3⟩ (.lit 3)),
  ([0xc2805, 0x1ce1, 0x0], .notExt ⟨1, 7, false⟩ .n32 ⟨.v, 5⟩ ⟨.v, 3⟩),
  ([0x18300b, 0x201cf1, 0x0, 0x2, 0x0], .shlExt ⟨2, 7, false⟩ .n32 ⟨.v, 6⟩ ⟨.g, 6⟩ (.lit 2)),
  ([0x120c2805, 0x1d01, 0x0], .shrExt ⟨1, 7, false⟩ .n32 ⟨.v, 5⟩ ⟨.v, 3⟩ (.reg ⟨.v, 9⟩)),
  ([0x12103005, 0x1d12, 0x0], .sarExt ⟨1, 7, false⟩ .i64 ⟨.v, 6⟩ ⟨.v, 4⟩ (.reg ⟨.v, 9⟩)),
  ([0x18280b, 0x1d21, 0x0, 0x804, 0x0], .bfx ⟨2, 7, false⟩ .n32 ⟨.v, 5⟩ ⟨.v, 6⟩ (.lit 0x0804)),
  ([0x120c2805, 0x1dd31, 0x0], .bfi ⟨1, 7, false⟩ .n32 ⟨.v, 5⟩ ⟨.v, 3⟩ (.reg ⟨.v, 9⟩) ⟨.v, 7⟩),
  ([0x102805, 0x1d43, 0x0], .popc ⟨1, 7, false⟩ .n64 ⟨.v, 5⟩ ⟨.v, 4⟩),
  ([0xc2805, 0x1d51, 0x0], .clz ⟨1, 7, false⟩ .n32 ⟨.v, 5⟩ ⟨.v, 3⟩),
  ([0xc2805, 0x1d61, 0x0], .brev ⟨1, 7, false⟩ .n32 ⟨.v, 5⟩ ⟨.v, 3⟩),
  ([0x20104009, 0xa01d72, 0x40000007], .leaExt ⟨2, 7, false⟩ .i64 7 ⟨.g, 8⟩ ⟨.g, 4⟩ (.reg ⟨.g, 16⟩)),
  ([0x120c2805, 0x1d80, 0xb], .sel ⟨1, 7, false⟩ .i32 ⟨.v, 5⟩ ⟨.v, 3⟩ (.reg ⟨.v, 9⟩) 3 true)]
theorem test_words_integer : words_integer.all reads = true := by decide +kernel

def words_float : List (List Word × Instr) := [
  ([0x120c2825, 0x30001c04, 0x0], .faddExt ⟨1, 7, false⟩ .f32 ⟨.ru, true⟩ ⟨.v, 5⟩ ⟨.v, 3⟩ (.reg ⟨.v, 9⟩)),
  ([0x120c2825, 0x18001c15, 0x0], .fsubExt ⟨1, 7, false⟩ .f16 ⟨.rd, false⟩ ⟨.v, 5⟩ ⟨.v, 3⟩ (.reg ⟨.v, 9⟩)),
  ([0x120c2825, 0x1c26, 0x0], .fmulExt ⟨1, 7, false⟩ .b16 ⟨.rn, false⟩ ⟨.v, 5⟩ ⟨.v, 3⟩ (.reg ⟨.v, 9⟩)),
  ([0x6104031, 0x881a834, 0x0], .ffma ⟨4, 2, true⟩ .f32 ⟨.rz, false⟩ ⟨.v, 8⟩ ⟨.v, 4⟩ (.reg ⟨.g, 3⟩) ⟨.v, 6⟩),
  ([0x120c2825, 0x20001c44, 0x0], .fminExt ⟨1, 7, false⟩ .f32 true ⟨.v, 5⟩ ⟨.v, 3⟩ (.reg ⟨.v, 9⟩)),
  ([0x120c2825, 0x1c54, 0x0], .fmaxExt ⟨1, 7, false⟩ .f32 false ⟨.v, 5⟩ ⟨.v, 3⟩ (.reg ⟨.v, 9⟩)),
  ([0xc2825, 0x8001c64, 0x0], .frndExt ⟨1, 7, false⟩ .f32 ⟨.rz, false⟩ ⟨.v, 5⟩ ⟨.v, 3⟩),
  ([0x120c2845, 0x1c04, 0x0], .fdiv ⟨1, 7, false⟩ ⟨.rn, false⟩ ⟨.v, 5⟩ ⟨.v, 3⟩ (.reg ⟨.v, 9⟩)),
  ([0xc2845, 0x1c14, 0x0], .rcp ⟨1, 7, false⟩ ⟨.rn, false⟩ ⟨.v, 5⟩ ⟨.v, 3⟩),
  ([0xc2845, 0x20001c24, 0x0], .rsq ⟨1, 7, false⟩ ⟨.rn, true⟩ ⟨.v, 5⟩ ⟨.v, 3⟩),
  ([0xc2845, 0x1c34, 0x0], .sqrt ⟨1, 7, false⟩ ⟨.rn, false⟩ ⟨.v, 5⟩ ⟨.v, 3⟩),
  ([0xc2845, 0x1c44, 0x0], .ex2 ⟨1, 7, false⟩ ⟨.rn, false⟩ ⟨.v, 5⟩ ⟨.v, 3⟩),
  ([0xc2845, 0x1c54, 0x0], .lg2 ⟨1, 7, false⟩ ⟨.rn, false⟩ ⟨.v, 5⟩ ⟨.v, 3⟩),
  ([0xa103071, 0x80001c00, 0xa4], .fcvt ⟨4, 7, false⟩ .zb5 .f32 ⟨true, false, false, .rn⟩ ⟨.v, 6⟩ ⟨.v, 4⟩ (some (.reg ⟨.v, 5⟩))),
  ([0x183871, 0x1c00, 0x4a], .fcvt ⟨4, 7, false⟩ .f32 .zb5 ⟨false, false, false, .rn⟩ ⟨.v, 7⟩ ⟨.v, 6⟩ none),
  ([0xc3065, 0x8001c10, 0x35], .ftoiExt ⟨1, 7, false⟩ .n64 .f16 .rz ⟨.v, 6⟩ ⟨.v, 3⟩),
  ([0x102865, 0x1c20, 0x62], .itofExt ⟨1, 7, false⟩ .b16 .i64 ⟨.rn, false⟩ ⟨.v, 5⟩ ⟨.v, 4⟩),
  ([0xc100889, 0x1c02, 0x2], .icmp ⟨2, 7, false⟩ .i64 .lt 1 ⟨.v, 4⟩ (.reg ⟨.v, 6⟩)),
  ([0x18480891, 0x814, 0x4], .fcmp ⟨4, 2, false⟩ .f32 .gt false 1 ⟨.v, 18⟩ (.reg ⟨.v, 12⟩)),
  ([0x40418a5, 0x1c00, 0x2], .pandExt ⟨1, 7, false⟩ 3 1 false 2 true),
  ([0x40418a5, 0x1c10, 0x1], .porExt ⟨1, 7, false⟩ 3 1 true 2 false),
  ([0x40418a5, 0x1c20, 0x3], .pxorExt ⟨1, 7, false⟩ 3 1 true 2 true),
  ([0x418a5, 0x1c30, 0x1], .pnotExt ⟨1, 7, false⟩ 3 1 true),
  ([0x418a5, 0x1c40, 0x0], .pmovExt ⟨1, 7, false⟩ 3 1 false)]
theorem test_words_float : words_float.all reads = true := by decide +kernel

def words_control : List (List Word × Instr) := [
  ([0x105, 0x400, 0x3ffffffb], .braExt ⟨1, 1, false⟩ (.short 0x3FFFFFFB)),
  ([0x180105, 0x1c10, 0x0], .brxExt ⟨1, 7, false⟩ ⟨.v, 6⟩),
  ([0x3107, 0x1c20, 0x0, 0x100, 0x0], .callExt ⟨1, 7, false⟩ 6 (.lit 0x100)),
  ([0x180105, 0x201c30, 0x0], .retExt ⟨1, 7, false⟩ ⟨.g, 6⟩),
  ([0x105, 0xc40, 0x0], .exitExt ⟨1, 3, false⟩),
  ([0x105, 0x1c50, 0x0], .yieldExt ⟨1, 7, false⟩),
  ([0x105, 0x1c60, 0x0], .nopExt ⟨1, 7, false⟩),
  ([0x125, 0x1c00, 0x3], .rcvSet ⟨1, 7, false⟩ 3),
  ([0x1125, 0x1c10, 0xc81], .rcvWait ⟨1, 7, false⟩ 2 1 200),
  ([0x145, 0x1c00, 0x213], .barArv ⟨1, 7, false⟩ 3 33),
  ([0x145, 0x1c10, 0x3], .barWait ⟨1, 7, false⟩ 3),
  ([0x145, 0x1c20, 0x0], .barSync ⟨1, 7, false⟩ 0 0),
  ([0x145, 0x1c30, 0x2], .cbar ⟨1, 7, false⟩ .wait),
  ([0x6000165, 0x1001c00, 0x0], .dqpush ⟨1, 7, false⟩ (.reg ⟨.t, 3⟩)),
  ([0x167, 0x1c10, 0x0, 0xffffffff, 0x0], .dqpushAll ⟨1, 7, false⟩ (.lit 0xFFFFFFFF)),
  ([0x3165, 0x1c20, 0x40000001], .dqpop ⟨1, 7, false⟩ 6 1),
  ([0x3165, 0x1c30, 0xa], .mfsr ⟨1, 7, false⟩ 6 10),
  ([0x165, 0x1c40, 0xbeef], .trap ⟨1, 7, false⟩ 0xBEEF),
  ([0x165, 0x1c50, 0x1234], .bkptExt ⟨1, 7, false⟩ 0x1234),
  ([0x180165, 0x201c60, 0x0], .waitt ⟨1, 7, false⟩ ⟨.g, 6⟩)]
theorem test_words_control : words_control.all reads = true := by decide +kernel

def words_lanes : List (List Word × Instr) := [
  ([0x120c2985, 0x1c00, 0x0], .shflIdxExt ⟨1, 7, false⟩ .i32 0 5 ⟨.v, 3⟩ (.reg ⟨.v, 9⟩)),
  ([0x120c2985, 0x1c10, 0x1], .shflUpExt ⟨1, 7, false⟩ .i32 1 5 ⟨.v, 3⟩ (.reg ⟨.v, 9⟩)),
  ([0x12103185, 0x1c22, 0x0], .shflDownExt ⟨1, 7, false⟩ .i64 0 6 ⟨.v, 4⟩ (.reg ⟨.v, 9⟩)),
  ([0xc2987, 0x1c30, 0x4, 0x1, 0x0], .shflXorExt ⟨1, 7, false⟩ .i32 4 5 ⟨.v, 3⟩ (.lit 1)),
  ([0xc2985, 0x1c40, 0x0], .qxchHExt ⟨1, 7, false⟩ .i32 5 3),
  ([0x103185, 0x1c52, 0x0], .qxchVExt ⟨1, 7, false⟩ .i64 6 4),
  ([0xc2985, 0x1c60, 0x0], .qxchDExt ⟨1, 7, false⟩ .i32 5 3),
  ([0x41985, 0x1c70, 0x0], .voteAny ⟨1, 7, false⟩ 0 3 1),
  ([0x41985, 0x1c80, 0x2], .voteAll ⟨1, 7, false⟩ 2 3 1),
  ([0x41985, 0x1c90, 0x0], .voteEq ⟨1, 7, false⟩ 0 3 1),
  ([0xc2985, 0x1ca0, 0x0], .ballotExt ⟨1, 7, false⟩ 5 3),
  ([0xc2985, 0x1cb0, 0x0], .matchX ⟨1, 7, false⟩ .i32 5 3),
  ([0xc2985, 0x1cc0, 0x0], .compact ⟨1, 7, false⟩ 5 3),
  ([0x244985, 0x1cd4, 0x0], .gscan ⟨1, 7, false⟩ .f32 .add false 0 9 9),
  ([0xc2985, 0x1ce1, 0x53], .gred ⟨1, 7, false⟩ .n32 .ixor 3 5 3)]
theorem test_words_lanes : words_lanes.all reads = true := by decide +kernel

def words_memory : List (List Word × Instr) := [
  ([0x184205, 0x8001000, 0x800000], .ld ⟨1, 4, false⟩ 1 ⟨false, false, .l⟩ (.raw .w32 false) ⟨.v, 8⟩ ⟨.v, 6⟩ .none),
  ([0x200207, 0x69410, 0x800000, 0x4, 0x0], .st ⟨1, 5, false⟩ 0 ⟨false, false, .l⟩ (.raw .w32) ⟨.v, 8⟩ (.lit 4) ⟨.v, 26⟩),
  ([0x12182a05, 0x201c00, 0x2a460000], .ld ⟨1, 7, false⟩ 0 ⟨true, false, .d⟩ (.raw .w16 true) ⟨.v, 5⟩ ⟨.g, 6⟩ (.reg ⟨.v, 9⟩)),
  ([0x180205, 0x20029c15, 0x180000], .st ⟨1, 7, false⟩ 0 ⟨false, false, .l⟩ (.elems .x4 .f16 .rz false) ⟨.v, 6⟩ .none ⟨.v, 10⟩),
  ([0x103205, 0x1c20, 0x800800], .ldC ⟨1, 7, false⟩ 0 ⟨false, false, .l⟩ .w32 false 1 ⟨.v, 6⟩ ⟨.v, 4⟩ none),
  ([0x100207, 0x19c30, 0xc01000, 0x10, 0x0], .stC ⟨1, 7, false⟩ 0 ⟨false, false, .l⟩ .w64 2 ⟨.v, 4⟩ (some 16) ⟨.v, 6⟩),
  ([0x105225, 0x1c00, 0x804228], .lde ⟨1, 7, false⟩ 0 ⟨false, false, .l⟩ .w32 10 ⟨.v, 4⟩ .none 1 ⟨40, 4⟩),
  ([0xc106225, 0x1dc11, 0x1c0000], .atom ⟨1, 7, false⟩ 0 ⟨false, false, .l⟩ .cas .n32 12 ⟨.v, 4⟩ (.reg ⟨.v, 6⟩) ⟨.v, 7⟩ 0 ⟨0, 0⟩),
  ([0x50500225, 0x1c21, 0x0], .red ⟨1, 7, false⟩ 0 ⟨false, false, .l⟩ .add .n32 ⟨.v, 20⟩ (.reg ⟨.v, 40⟩)),
  ([0x10103225, 0x1c32, 0x36001800], .atomC ⟨1, 7, false⟩ 0 ⟨true, true, .y⟩ .add .i64 3 6 ⟨.v, 4⟩ (.reg ⟨.v, 8⟩) ⟨.v, 0⟩ 0 ⟨0, 0⟩),
  ([0x10100225, 0x1c41, 0x340c1800], .redC ⟨1, 7, false⟩ 0 ⟨false, true, .y⟩ .iand .n32 3 ⟨.v, 4⟩ (.reg ⟨.v, 8⟩)),
  ([0x4106245, 0x801c00, 0x41a8], .chs ⟨1, 7, false⟩ 0 12 ⟨.v, 4⟩ (.reg ⟨.g, 2⟩) 1 ⟨40, 3⟩),
  ([0x2265, 0x1c00, 0x68000000], .fnc ⟨1, 7, false⟩ 0 .d ⟨.g, 4⟩),
  ([0x100265, 0x201c10, 0x0], .waitf ⟨1, 7, false⟩ 0 ⟨.g, 4⟩),
  ([0x505a85, 0x2a09c00, 0x40000000], .acp ⟨1, 7, false⟩ 0 ⟨.g, 11⟩ ⟨.g, 20⟩ (.reg ⟨.g, 0⟩) ⟨.g, 2⟩),
  ([0x101aa7, 0x19c00, 0x500000, 0x4, 0x0], .sraff ⟨1, 7, false⟩ 0 3 2 true ⟨.v, 4⟩ (.lit 4) ⟨.v, 6⟩),
  ([0x10101aa5, 0x19c10, 0x40000], .srind ⟨1, 7, false⟩ 0 3 0 false 2 ⟨.v, 4⟩ (.reg ⟨.v, 8⟩) ⟨.v, 6⟩),
  ([0x1aa5, 0x1c20, 0x8000], .srprb ⟨1, 7, false⟩ 0 3 2),
  ([0x1aa5, 0x1c30, 0x0], .srstop ⟨1, 7, false⟩ 0 3),
  ([0xc1042c5, 0x1c00, 0x684110], .gath ⟨1, 7, false⟩ 0 3 2 8 ⟨.v, 4⟩ (.reg ⟨.v, 6⟩) 1 ⟨16, 2⟩),
  ([0xc1002c5, 0x21c10, 0x680000], .scat ⟨1, 7, false⟩ 0 3 2 ⟨.v, 4⟩ (.reg ⟨.v, 6⟩) 8),
  ([0xc1002c5, 0x21c24, 0x80000], .scatAdd ⟨1, 7, false⟩ 0 .f32 0 2 ⟨.v, 4⟩ (.reg ⟨.v, 6⟩) 8)]
theorem test_words_memory : words_memory.all reads = true := by decide +kernel

def words_system : List (List Word × Instr) := [
  ([0x1012e7, 0x1c00, 0x0, 0x20, 0x0], .capld ⟨1, 7, false⟩ 2 ⟨.v, 4⟩ (some 32)),
  ([0x1002e5, 0x9c10, 0x0], .capst ⟨1, 7, false⟩ ⟨.v, 4⟩ none 2),
  ([0x80412e5, 0x19c20, 0x3], .capnar ⟨1, 7, false⟩ 2 1 (.reg ⟨.v, 4⟩) ⟨.v, 6⟩ 3),
  ([0x12e5, 0x1c30, 0x0], .caprst ⟨1, 7, false⟩ 2),
  ([0x8041ae5, 0x19c40, 0x1], .capchk ⟨1, 7, false⟩ 3 1 (.reg ⟨.v, 4⟩) ⟨.v, 6⟩ 1),
  ([0x2305, 0x1c00, 0x41], .csrr ⟨1, 7, false⟩ 4 0x41),
  ([0x180305, 0x1c10, 0x24], .csrw ⟨1, 7, false⟩ 0x24 ⟨.v, 6⟩),
  ([0x305, 0x1c20, 0x1], .eret ⟨1, 7, false⟩ .skip),
  ([0x10001305, 0x1c30, 0x0], .capmk ⟨1, 7, false⟩ 2 ⟨.v, 8⟩),
  ([0x10100305, 0x1c30, 0x85], .capmkRec ⟨1, 7, false⟩ ⟨.v, 4⟩ ⟨.v, 8⟩ 5),
  ([0x325, 0x1c00, 0x401], .regroup ⟨1, 7, false⟩ 1 64),
  ([0x203325, 0x201c10, 0x40000005], .launch ⟨1, 7, false⟩ ⟨.g, 6⟩ ⟨.g, 8⟩ 5),
  ([0x6000325, 0x801c20, 0x0], .evsig ⟨1, 7, false⟩ (.reg ⟨.g, 3⟩)),
  ([0x4100325, 0xa01c30, 0x0], .evwait ⟨1, 7, false⟩ ⟨.g, 4⟩ (.reg ⟨.g, 2⟩))]
theorem test_words_system : words_system.all reads = true := by decide +kernel

def words_matrix : List (List Word × Instr) := [
  ([0x1b85, 0x1c00, 0x0], .mzero ⟨1, 7, false⟩ 3),
  ([0xc0c2385, 0x1c10, 0x0], .mrd ⟨1, 7, false⟩ ⟨.v, 4⟩ 3 (.reg ⟨.v, 6⟩)),
  ([0xc101b85, 0x1c20, 0x0], .mwr ⟨1, 7, false⟩ 3 ⟨.v, 4⟩ (.reg ⟨.v, 6⟩)),
  ([0xc2385, 0x1c30, 0x40000000], .mwmk ⟨1, 7, false⟩ ⟨.g, 4⟩ 3),
  ([0x200b85, 0x201c47, 0x40], .mldb ⟨1, 7, false⟩ .e4m3 true ⟨.g, 8⟩ 64),
  ([0xa280385, 0x201c57, 0x20], .mgata ⟨1, 7, false⟩ .e4m3 ⟨.g, 10⟩ (.reg ⟨.v, 5⟩) 32),
  ([0x41b85, 0x1c60, 0x0], .mmq ⟨1, 7, false⟩ 3 true),
  ([0x20201b85, 0x2a31c70, 0x0], .mms ⟨1, 7, false⟩ 3 ⟨.g, 8⟩ ⟨.g, 16⟩ ⟨.g, 12⟩),
  ([0x6203385, 0x201c85, 0x40000020], .mst ⟨1, 7, false⟩ .f16 ⟨false, false, false, .rn⟩ ⟨.g, 6⟩ ⟨.g, 8⟩ 3 32),
  ([0x205385, 0x20200484, 0x40000080], .mst ⟨1, 1, false⟩ .f32 ⟨false, false, true, .rn⟩ ⟨.g, 10⟩ ⟨.g, 8⟩ 0 128),
  ([0x2083a5, 0x201c00, 0x40000280], .tcut ⟨1, 7, false⟩ ⟨.g, 16⟩ ⟨.g, 8⟩ 128 1),
  ([0x2803c5, 0x201c00, 0x1], .infl ⟨1, 7, false⟩ 1 ⟨.g, 10⟩),
  ([0x2033c5, 0x201c10, 0x40000005], .attn ⟨1, 7, false⟩ true ⟨.g, 6⟩ ⟨.g, 8⟩ 0 1),
  ([0x182823c5, 0x39c20, 0x40000002], .kvapp ⟨1, 7, false⟩ .rn false ⟨.g, 4⟩ 2 ⟨.v, 10⟩ (.reg ⟨.v, 12⟩) ⟨.v, 14⟩),
  ([0x2823c5, 0x39c30, 0x40000002], .kvtrim ⟨1, 7, false⟩ ⟨.g, 4⟩ 2 ⟨.v, 10⟩ ⟨.v, 14⟩),
  ([0x28a3c5, 0x1c40, 0x0], .kvqry ⟨1, 7, false⟩ ⟨.v, 20⟩ ⟨.v, 10⟩ 0)]
theorem test_words_matrix : words_matrix.all reads = true := by decide +kernel

/-! ### States for witnesses -/

def placed (lead : Bool) : State := State.reset.loadCode [] lead
def issuer (mask : BitVec 32) (len : Nat) : IssueCtx := { team := 1, mask := mask, pc := w64 (slotHdr + 64), len := len }
/-- Lane 0 issues a base word; lanes 0 and 1 issue an extended instruction; the lead thread issues one. -/
def one : State := { placed false with cur := issuer 1 4 }
def two : State := { placed false with cur := issuer 3 12 }
def lone : State := { placed true with cur := { issuer 1 12 with who := .lead } }
def hx : XHead := ⟨1, 7, false⟩
def hn : XHead := ⟨1, 7, true⟩
def v (n : BitVec 7) : Opd := ⟨.v, n⟩
def g (n : BitVec 7) : Opd := ⟨.g, n⟩

theorem issuing_one : Issuing one := ⟨by decide +kernel, by decide +kernel⟩
theorem issuing_two : Issuing two := ⟨by decide +kernel, by decide +kernel⟩
theorem issuing_lone : Issuing lone := ⟨by decide +kernel, by decide +kernel⟩
theorem noPorts (s : State) (x : XHead) (l : List OpdB) (h : portsOf l = []) : PortsOk s x l := by
  intro k hk; rw [h] at hk; cases hk

theorem witness_IntegerResults : ∃ i r s, intOp i = some r ∧ i.wf = true ∧ Issuing s ∧ PortsOk s r.x r.srcs :=
  ⟨.iadd 1 5 3 (.reg 9), _, one, rfl, by decide, issuing_one, noPorts _ _ _ rfl⟩
theorem witness_FloatResults : (∃ i r s, fpOp i = some r ∧ i.wf = true ∧ Issuing s ∧ PortsOk s r.x r.srcs) ∧
    ∃ i r s, cvOpn i = some r ∧ i.wf = true ∧ Issuing s ∧ PortsOk s r.x r.srcs :=
  ⟨⟨.fadd 4 5 3 (.reg 9), _, one, rfl, by decide, issuing_one, noPorts _ _ _ rfl⟩,
    .itof 4 5 3, _, one, rfl, by decide, issuing_one, noPorts _ _ _ rfl⟩
theorem witness_SpecialFunctionResults : ∃ i r s, sfuOp i = some r ∧ Issuing s ∧ PortsOk s r.x r.srcs :=
  ⟨.ex2 hx ⟨.rn, false⟩ (v 5) (v 3), _, two, rfl, issuing_two, noPorts _ _ _ rfl⟩
theorem witness_PredicateResults : (∃ i r s, intCmp i = some r ∧ i.wf = true ∧ Issuing s ∧ PortsOk s r.x r.srcs) ∧
    ∃ i r s, fpCmp i = some r ∧ i.wf = true ∧ Issuing s ∧ PortsOk s r.x r.srcs :=
  ⟨⟨.icmpI32 2 .lt 3 6 (.reg 7), _, one, rfl, by decide, issuing_one, noPorts _ _ _ rfl⟩,
    .fcmpF32 4 .nan 0 6 (.reg 7), _, one, rfl, by decide, issuing_one, noPorts _ _ _ rfl⟩
theorem witness_CrossLaneResults : ∃ i r s, laneOp i = some r ∧ i.wf = true ∧ Issuing s ∧ PortsOk s r.x r.srcs :=
  ⟨.shflXorExt hx .i32 4 5 (v 3) (.lit 1), _, two, rfl, by decide, issuing_two, noPorts _ _ _ rfl⟩
theorem witness_VoteResults : ∃ i r s, voteIs i = some r ∧ Issuing s := ⟨.voteEq hx 4 3 1, _, two, rfl, issuing_two⟩

/-- Lanes of a mask issue an extended instruction, in a team changed by f. -/
def made (mask : BitVec 32) (f : Team → Team) : State := ({ placed false with cur := issuer mask 12 }).modTeam 1 f
def thr (l : Nat) (f : Thread → Thread) (t : Team) : Team := t.modThread 0 l f
def more (t : Team) : Team := { t with groups := [slotGroup 32, slotGroup 32] }
def world0 (f : World → World) (s : State) : State := s.modWorld 0 f
def noGroups (t : Team) : Team := { t with groups := [{ slotGroup 32 with threads := List.replicate 32 { st := .exited } }] }
def conjOne (t : Team) : Team := { t with conj := [{ active := true, pos := some (0, 0) :: List.replicate 31 none, slot := 2 }] }
def inConj : State := { made 1 conjOne with cur := { issuer 1 12 with who := .conj 0 } }
theorem issuing_inConj : Issuing inConj := ⟨by decide +kernel, by decide +kernel⟩

theorem witness_SpecialValues : ((0x0E : BitVec 8).toNat = 14 ∧ (Instr.mfsr hx 6 0x0E).wf = false) ∧
    ((0x0A : BitVec 8) = 0x0A ∧ (7 : BitVec 7).toNat % 2 = 1) ∧ (0x0C : BitVec 8) ∈ [(0x00 : BitVec 8), 0x01, 0x02, 0x0C] ∧
    (hx.pg = 7 ∧ (62 : BitVec 7).toNat < 63 ∧ (0x0D : BitVec 8).toNat < 0x0E ∧ (0x0D : BitVec 8) ∉ [(0x00 : BitVec 8), 0x01, 0x02, 0x0C]) ∧
    ((Instr.mfsr hx 6 0x0A).wf = true ∧ Issuing two) :=
  ⟨by decide, by decide, by decide, by decide, by decide, issuing_two⟩
theorem witness_RegisterFrame : (Instr.nop 0).wf = true ∧ (noEffect (.nop 0) one).isSome = true ∧ (jumpOp (.bra 1 (.short 3))).isSome = true ∧
    (∃ t, exec (.nop 0) one = .next t) ∧ (∃ t, exec (.bra 1 (.short 3)) one = .next t) ∧
    ((pairJump (.ret 1 6)).isSome = true ∧ (∀ L ∈ one.active (baseHead 1), (one.reg2 (vOpd 6) L).extractLsb' 0 2 = 0) ∧
      ∃ t, exec (.ret 1 6) one = .next t) ∧
    ((Instr.mfsr hx 6 0x00).wf = true ∧ ∃ t, exec (.mfsr hx 6 0x00) two = .next t) ∧
    (yieldIs (.yieldB 1)).isSome = true ∧ (one.cur.who ≠ .lead ∧ ∃ t, exec (.yieldB 1) one = .next t) ∧
    (lone.cur.who = .lead ∧ ∃ t, exec (.yieldExt hx) lone = .next t) :=
  ⟨by decide, by decide +kernel, by decide, ⟨_, rfl⟩, ⟨_, rfl⟩, ⟨by decide, by decide +kernel, _, rfl⟩, ⟨by decide, _, rfl⟩, by decide,
    ⟨by decide, _, rfl⟩, by decide, _, rfl⟩
/-- Only lane 0 has not exited. -/
def last1 : State := made 1 fun t => { t with groups := t.groups.map fun gr => { gr with threads := { pc := w64 (slotHdr + 64) } :: List.replicate 31 { st := .exited } } }
theorem issuing_last1 : Issuing last1 := ⟨by decide +kernel, by decide +kernel⟩
theorem others_last1 : ∀ g ∈ last1.ct.allGroups ++ [leadGrp], ∀ l th, (last1.ct.groupAt g).threads[l]? = some th → th.st = .exited ∨ (g, l) = (0, 0) := by
  have hc : ((last1.ct.allGroups ++ [leadGrp]).all fun g => (List.range (last1.ct.groupAt g).threads.length).all fun l =>
      (last1.ct.groupAt g).threads[l]?.all fun th => decide (th.st = .exited) || decide ((g, l) = (0, 0))) = true := by decide +kernel
  intro g hg l th hth
  have h1 := List.all_eq_true.mp (List.all_eq_true.mp hc g hg) l (List.mem_range.mpr (List.getElem?_eq_some_iff.mp hth).1)
  rw [hth] at h1
  simpa using h1
theorem witness_ControlTransfers : (let s := last1
      Issuing s ∧ s.active hx = [0] ∧ s.home 0 = (0, 0) ∧ s.anyAbroad s.cur.team 0 0 = false ∧
      (∀ g ∈ s.ct.allGroups ++ [leadGrp], ∀ l th, (s.ct.groupAt g).threads[l]? = some th → th.st = .exited ∨ (g, l) = (0, 0)) ∧
      s.ct.place ≠ .admitting ∧ (∀ y ∈ (s.core s.ct.core).stack, y.team = s.cur.team → y.dirty = false) ∧
      (∀ h ∈ s.homes, h.wb = true → h.team = s.cur.team → h.w ≤ s.gtc)) ∧
    (two.path.any (fun L => !(two.active hn).contains L) = true) ∧ (∃ i j s, jumpOp i = some j ∧ Issuing s) ∧
    (∃ i j s, pairJump i = some j ∧ Issuing s ∧ ∀ L ∈ s.active j.x, (s.reg2 j.a L).extractLsb' 0 2 = 0) ∧
    (∃ i x s, exitIs i = some x ∧ Issuing s) ∧ (∃ i x s, noEffect i s = some x ∧ Issuing s) ∧ ∃ i x s, yieldIs i = some x ∧ Issuing s :=
  ⟨⟨issuing_last1, by decide +kernel, by decide +kernel, by decide +kernel, others_last1, by decide +kernel, by decide +kernel, by decide +kernel⟩,
    by decide +kernel, ⟨.bra 1 (.short 3), _, one, rfl, issuing_one⟩, ⟨.ret 1 6, _, one, rfl, issuing_one, by decide +kernel⟩,
    ⟨.exit 1, _, one, rfl, issuing_one⟩, ⟨.nop 0, _, one, rfl, issuing_one⟩, .yieldB 1, _, one, rfl, issuing_one⟩

def hooked : State := world0 (fun w => { w with ctxctl := 0xFFFFFFFFFFFFFFFF }) two
theorem issuing_hooked : Issuing hooked := ⟨by decide +kernel, by decide +kernel⟩
/-- Lane 0 has an address that no page maps. -/
def unmapped (l : Level) : State :=
  { made 3 (thr 0 (fun th => { th.setV 4 0x4000000 with level := l }) ∘ thr 1 fun th => { th with level := l }) with cur := { issuer 3 12 with level := l } }
theorem issuing_unmapped : Issuing (unmapped .u) ∧ Issuing (unmapped .h) := ⟨⟨by decide +kernel, by decide +kernel⟩, by decide +kernel, by decide +kernel⟩
def load1 : Instr := .ld hx 0 ⟨false, false, .l⟩ (.raw .w32 false) (v 12) (v 4) .none
def isErr (r : Except Flt Acc) (p : Flt → Bool) : Bool :=
  match r with
  | .ok _ => false
  | .error f => p f
theorem witness_AccessTraps : ∃ r, accIs load1 = some r ∧ load1.wf = true ∧ PortsOk (unmapped .u) r.x r.srcs ∧ PortsOk (unmapped .h) r.x r.srcs ∧
    (Issuing (unmapped .u) ∧ (unmapped .u).cur.level ≠ .h ∧ tabRises (unmapped .u).worlds ∧
      ((r.checks (unmapped .u)).all fun c => !isErr c.2.2 fun f => (unmapped .u).handled (unmapped .u).cw f.cls) = true ∧
      ((r.checks (unmapped .u)).any fun c => c.1 == 0 && isErr c.2.2 fun _ => true) = true ∧
      ((r.checks (unmapped .u)).any fun c => c.1 == 1 && c.2.2.isOk) = true ∧ (unmapped .u).home 0 ≠ (unmapped .u).home 1) ∧
    Issuing (unmapped .h) ∧ (unmapped .h).cur.level = .h ∧ ((r.checks (unmapped .h)).any fun c => isErr c.2.2 fun _ => true) = true ∧
    trapIs (.trap hx 7) (unmapped .h) = some ⟨hx, 0x0C, 7⟩ ∧ (unmapped .h).active hx ≠ [] :=
  ⟨_, rfl, by decide, noPorts _ _ _ rfl, noPorts _ _ _ rfl, ⟨issuing_unmapped.1, by decide, by decide +kernel, by decide +kernel, by decide +kernel,
    by decide +kernel, by decide +kernel⟩, issuing_unmapped.2, rfl, by decide +kernel, rfl, by decide +kernel⟩
theorem witness_TrapsTaken : (∃ i s r, trapIs i s = some r ∧ Issuing s ∧ s.cur.level ≠ .h ∧ s.active r.x ≠ [] ∧ s.handled s.cw r.cls = false) ∧
    ∃ i s r, trapIs i s = some r ∧ Issuing s ∧ s.cur.level ≠ .h ∧ s.active r.x ≠ [] ∧ s.handled s.cw r.cls = true ∧
      (∀ n, s.cur.who = .grp n → n ≠ leadGrp) ∧ Team_inHandler s.ct s.cur.who = false ∧ s.parks = [] :=
  ⟨⟨.trap hx 7, two, _, rfl, issuing_two, by decide +kernel, by decide +kernel, by decide +kernel⟩,
    .trap hx 7, hooked, _, rfl, issuing_hooked, by decide +kernel, by decide +kernel, by decide +kernel,
    fun n h => by injection h with h; subst h; decide, by decide +kernel, by decide +kernel⟩

/-- Lane 0 holds a pair and a token beyond the clock, lane 1 at it. -/
def timed : State := made 3 (thr 0 fun th => (th.setV 6 1).setV 8 0x80000000)
theorem issuing_timed : Issuing timed := ⟨by decide +kernel, by decide +kernel⟩
theorem witness_TimedWaits : (Instr.waitt hx (v 6)).wf = true ∧ (Instr.waitf hx 0 (v 8)).wf = true ∧ Issuing timed ∧
    (0 ∈ timed.active hx ∧ timed.gtc % 2 ^ 64 < (timed.reg2 (v 6) 0).toNat) ∧ ¬(timed.gtc % 2 ^ 64 < (timed.reg2 (v 6) 1).toNat) ∧
    (BitVec.ofNat 32 timed.gtc - timed.reg1 (v 8) 0).msb = true ∧ (BitVec.ofNat 32 timed.gtc - timed.reg1 (v 8) 1).msb = false :=
  ⟨by decide, by decide, issuing_timed, by decide +kernel, by decide +kernel, by decide +kernel, by decide +kernel⟩

def member (th : Thread) : Thread := { th with member := 4 }
def arrivedAt (th : Thread) : Thread := { th with member := 4, arrived := 4, st := .rcv 2 3 }
/-- Lanes 0 and 1 are members of slot 2 and lane 5 waits there; lane 7 is a member elsewhere. -/
def allHere : State := made 3 (thr 0 member ∘ thr 1 member ∘ thr 5 arrivedAt)
def someAway : State := made 3 (thr 0 member ∘ thr 7 member)
theorem issuing_allHere : Issuing allHere := ⟨by decide +kernel, by decide +kernel⟩
theorem issuing_someAway : Issuing someAway := ⟨by decide +kernel, by decide +kernel⟩
theorem witness_Reconvergence : (Issuing two ∧ ∀ L ∈ two.active hx, ¬ two.slotBusy L 2) ∧
    (0 ∈ two.active hx ∧ (two.cth 0).member.getLsbD 2 = false) ∧
    (Issuing allHere ∧ 0 ∈ allHere.active hx ∧ (allHere.cth 0).member.getLsbD 2 = true ∧ allHere.slotFull (allHere.active hx) 0 2 ∧
      (allHere.ct.thread 0 5).st = .rcv 2 3) ∧
    (Issuing someAway ∧ 0 ∈ someAway.active hx ∧ (someAway.cth 0).member.getLsbD 2 = true ∧ ¬ someAway.slotFull (someAway.active hx) 0 2 ∧
      ¬ someAway.slotBusy 0 2) ∧
    (Issuing inConj ∧ inConj.cur.who = .conj 0 ∧ inConj.cg.slot = 2 ∧ inConj.cur.level ≠ .h) :=
  ⟨⟨issuing_two, by unfold State.slotBusy; decide +kernel⟩, by decide +kernel,
    ⟨issuing_allHere, by decide +kernel, by decide +kernel, full_allHere, by decide +kernel⟩,
    ⟨issuing_someAway, by decide +kernel, by decide +kernel, away_someAway, by unfold State.slotBusy; decide +kernel⟩,
    issuing_inConj, rfl, by decide +kernel, by decide +kernel⟩
where
  full_allHere : allHere.slotFull (allHere.active hx) 0 2 := by
    have h : ∀ l < 32, (allHere.ct.groupAt 0).threads[l]?.all (fun th => !th.member.getLsbD 2 || th.arrived.getLsbD 2 || decide (l < 2)) = true := by
      decide +kernel
    have hl : (allHere.ct.groupAt 0).threads.length = 32 := by decide +kernel
    have ha : allHere.active hx = [0, 1] := by decide +kernel
    intro l th hth hm
    have hlt : l < 32 := by rw [← hl]; exact (List.getElem?_eq_some_iff.mp hth).1
    have := h l hlt
    rw [hth] at this
    have hm' : th.member.getLsbD 2 = true := hm
    simp only [Option.all_some, hm', Bool.not_true, Bool.false_or, Bool.or_eq_true, decide_eq_true_eq] at this
    rcases this with h1 | h1
    · exact .inl h1
    · refine .inr (.inr ⟨l, ?_, rfl⟩)
      rw [ha]
      have : l = 0 ∨ l = 1 := by omega
      rcases this with rfl | rfl <;> simp
  away_someAway : ¬ someAway.slotFull (someAway.active hx) 0 2 := by
    intro h
    have hth : ∃ th, (someAway.ct.groupAt 0).threads[7]? = some th ∧ th.member.getLsbD 2 = true ∧ th.arrived.getLsbD 2 = false ∧ th.st ≠ .exited :=
      ⟨member { pc := w64 (slotHdr + 64) }, by decide +kernel, by decide, by decide, by decide⟩
    obtain ⟨th, h1, h2, h3, h4⟩ := hth
    rcases h 7 th h1 h2 with h5 | h5 | ⟨L, hL, h5⟩
    · have h5' : th.arrived.getLsbD 2 = true := h5
      rw [h3] at h5'; cases h5'
    · exact h4 h5
    · have : someAway.active hx = [0, 1] := by decide +kernel
      rw [this] at hL
      have h6 : (0, L) = (0, 7) := h5
      have : L = 7 := by injection h6
      subst this; simp at hL

/-! ### Barriers and the decision queue -/

theorem onlyGrp (s : State) (n : Nat) (h : s.cur.who = .grp n) : ∀ c, s.cur.who ≠ .conj c := by
  intro c hc; rw [h] at hc; cases hc
theorem onlyLead (s : State) (h : s.cur.who = .lead) : ∀ c, s.cur.who ≠ .conj c := by
  intro c hc; rw [h] at hc; cases hc

/-- No lane is active: the guard is false in both lanes. -/
def idle : XHead := ⟨1, 0, false⟩
def barred (n : Nat) (b : Bar) (t : Team) : Team := { t with bars := [(n, b)] }
/-- Group 0 has arrived in generation 0 of barrier 3, and group 1 has not. -/
def waiting1 : State := made 3 fun t => barred 3 { arr := [0] } { more t with groups := [{ slotGroup 32 with arr := [(3, 1)] }, slotGroup 32] }
theorem issuing_waiting1 : Issuing waiting1 := ⟨by decide +kernel, by decide +kernel⟩
def pair2 : State := made 3 more
theorem issuing_pair2 : Issuing pair2 := ⟨by decide +kernel, by decide +kernel⟩
/-- Group 1 waits for the cluster barrier's generation 0, which completes with group 0. -/
def clustered : State := { pair2 with launches := pair2.launches.map fun l => { l with cbars := [(0, { arr := [0] })] } }

theorem witness_Barriers :
    (Issuing two ∧ (∀ c, two.cur.who ≠ .conj c) ∧ two.active idle = []) ∧
    (two.active hx ≠ [] ∧ barFull (barArrived (two.ct.bar 3) two.partNo 0) two.ct.live ∧
      two.idsDone (two.ct.bar 3).ids = true ∧ two.barIds two.cur.team [two.partNo] = []) ∧
    (Issuing pair2 ∧ (∀ c, pair2.cur.who ≠ .conj c) ∧ pair2.active hx ≠ [] ∧
      ¬ barFull (barArrived (pair2.ct.bar 3) pair2.partNo 0) pair2.ct.live ∧ holdsBelow (pair2.ct.bar 3)) ∧
    (barFull (barArrived (pair2.ct.bar 15) pair2.partNo 1) pair2.ct.live) ∧
    (Issuing waiting1 ∧ (∀ c, waiting1.cur.who ≠ .conj c) ∧ barPending (waiting1.ct.bar 3) (tabGet waiting1.cg.arr 3 0) = some 0) ∧
    (barPending (two.ct.bar 3) (tabGet two.cg.arr 3 0) = none) ∧
    (two.launch? two.ct.launch).isSome = true ∧
    (let cl := two.ct.num / (two.launch two.ct.launch).r.c
     let b := barArrived (tabGet (two.launch two.ct.launch).cbars cl {}) (two.ct.num * 64 + two.partNo) 0
     barFull b (two.clusterLive two.ct.launch cl) ∧ two.idsDone b.ids = true) ∧
    (let cl := pair2.ct.num / (pair2.launch pair2.ct.launch).r.c
     let b := barArrived (tabGet (pair2.launch pair2.ct.launch).cbars cl {}) (pair2.ct.num * 64 + pair2.partNo) 0
     ¬ barFull b (pair2.clusterLive pair2.ct.launch cl) ∧ holdsBelow b) := by
  unfold barFull holdsBelow
  exact ⟨⟨issuing_two, onlyGrp _ 0 rfl, by decide +kernel⟩, by decide +kernel,
    ⟨issuing_pair2, onlyGrp _ 0 rfl, by decide +kernel, by decide +kernel, by decide +kernel⟩, by decide +kernel,
    ⟨issuing_waiting1, onlyGrp _ 0 rfl, by decide +kernel⟩, by decide +kernel, by decide +kernel, by decide +kernel, by decide +kernel⟩

/-- The queue holds an entry for one group; the lead thread has exited. -/
def queued : State := made 3 fun t => { t with dq := [⟨5, true, [0]⟩, ⟨9, false, []⟩] }
def leadDone : State := made 3 fun t => { t with lead := some { threads := [{ st := .exited }] } }
def leadRuns : State := made 3 fun t => { t with lead := some (slotGroup 1) }
theorem issuing_queued : Issuing queued := ⟨by decide +kernel, by decide +kernel⟩
theorem issuing_leadDone : Issuing leadDone := ⟨by decide +kernel, by decide +kernel⟩
theorem issuing_leadRuns : Issuing leadRuns := ⟨by decide +kernel, by decide +kernel⟩
/-- An entry for both groups, which the other has taken. -/
def shared2 : State := made 3 fun t => { more t with dq := [⟨5, true, [1]⟩, ⟨6, true, []⟩] }
theorem witness_BroadcastPop : Issuing shared2 ∧ (∀ c, shared2.cur.who ≠ .conj c) ∧ shared2.active hx ≠ [] ∧
    dqFirst shared2.ct.dq shared2.partNo = some 0 ∧ shared2.ct.dq[0]? = some ⟨5, true, [1]⟩ ∧
    dqStays (Team_liveGroups shared2.ct) ⟨5, true, [1]⟩ = true ∧ dqStays (Team_liveGroups shared2.ct) ⟨5, true, [0, 1]⟩ = false :=
  ⟨⟨by decide +kernel, by decide +kernel⟩, onlyGrp _ 0 rfl, by decide +kernel, by decide +kernel, by decide +kernel, by decide +kernel, by decide +kernel⟩
theorem witness_DecisionQueue : Issuing lone ∧
    (Issuing queued ∧ (∀ c, queued.cur.who ≠ .conj c) ∧ queued.active hx ≠ [] ∧ dqFirst queued.ct.dq queued.partNo = some 1 ∧
      queued.ct.dq[1]? = some ⟨9, false, []⟩) ∧
    (Issuing leadDone ∧ (∀ c, leadDone.cur.who ≠ .conj c) ∧ leadDone.active hx ≠ [] ∧ dqFirst leadDone.ct.dq leadDone.partNo = none ∧
      leadDone.ct.lead.all (fun g => g.threads.all fun th => th.st == .exited) = true) ∧
    (Issuing leadRuns ∧ dqFirst leadRuns.ct.dq leadRuns.partNo = none ∧ ∃ g th, leadRuns.ct.lead = some g ∧ th ∈ g.threads ∧ th.st ≠ .exited) :=
  ⟨issuing_lone, ⟨issuing_queued, onlyGrp _ 0 rfl, by decide +kernel, by decide +kernel, by decide +kernel⟩,
    ⟨issuing_leadDone, onlyGrp _ 0 rfl, by decide +kernel, by decide +kernel, by decide +kernel⟩,
    issuing_leadRuns, by decide +kernel, slotGroup 1, { pc := w64 (slotHdr + 64) }, by decide +kernel, by decide +kernel, by decide⟩

/-! ### Memory -/

theorem allPass (cs : List (Nat × Dword × Except Flt Acc)) (h : cs.all (fun c => c.2.2.isOk) = true) : AllPass cs := by
  intro c hc
  have := List.all_eq_true.mp h c hc
  cases hq : c.2.2 with
  | ok a => exact ⟨a, rfl⟩
  | error f => rw [hq] at this; cases this
theorem somePass {cs : List (Nat × Dword × Except Flt Acc)} (h : AllPass cs) (hn : cs ≠ []) : ∃ L va acc, (L, va, .ok acc) ∈ cs := by
  cases cs with
  | nil => exact absurd rfl hn
  | cons c cs =>
    obtain ⟨a, ha⟩ := h c (.head _)
    exact ⟨c.1, c.2.1, a, by rw [← ha]; exact .head _⟩

theorem stackPass (cs : List (Nat × Dword × Except Flt Acc))
    (h : cs.any (fun c => match c.2.2 with | .ok ⟨.stk _, _⟩ => true | _ => false) = true) :
    ∃ L va pa e, (L, va, .ok ⟨.stk pa, e⟩) ∈ cs := by
  obtain ⟨⟨L, va, r⟩, hc, hr⟩ := List.any_eq_true.mp h
  match r, hr, hc with
  | .ok ⟨.stk pa, e⟩, _, hc => exact ⟨L, va, pa, e, hc⟩
def o0 : MOrd := ⟨false, false, .l⟩
/-- The low 64 KiB are mapped by a leaf of a format. -/
def formatted (fmt geo stride : Nat) : State :=
  let m := memWrite two.mem 0x14000 (leBytes 8 (2 ^ 63 + 0x16000 / 4096))
  let leaf := 2 ^ 63 + 2 ^ 62 + 2 ^ 61 + 2 ^ 60 + fmt * 2 ^ 51 + geo * 2 ^ 49 + stride * 2 ^ 45 + 0x40
  { two with mem := memWrite m 0x16000 (leBytes 8 leaf) }
def zb8 : State := formatted 2 0 0
theorem issuing_zb8 : Issuing zb8 := ⟨by decide +kernel, by decide +kernel⟩
/-- Scratchpad addresses in v4: 16 bytes apart for lanes 0 and 1. -/
def scr (l : Nat) (off : Word) (t : Team) : Team := thr l (fun th => (th.setV 4 off).setV 5 0xFFFE0000) t
def inScr : State := made 3 (scr 0 0 ∘ scr 1 32752)
theorem issuing_inScr : Issuing inScr := ⟨by decide +kernel, by decide +kernel⟩
def onStk : State := made 3 (thr 0 (fun th => (th.setV 4 0).setV 5 0xFFFD0000) ∘ thr 1 (fun th => (th.setV 4 1008).setV 5 0xFFFD0000))
theorem issuing_onStk : Issuing onStk := ⟨by decide +kernel, by decide +kernel⟩

theorem witness_LoadsIssued :
    (∃ i r s, loadIs i = some r ∧ i.wf = true ∧ Issuing s ∧ PortsOk s r.x (offPorts r.off) ∧ AllPass (r.checks s) ∧ r.checks s ≠ [] ∧
      r.fmt = .raw .w128 false) ∧
    ∃ i r s, loadIs i = some r ∧ i.wf = true ∧ Issuing s ∧ PortsOk s r.x (offPorts r.off) ∧ AllPass (r.checks s) ∧ r.checks s ≠ [] ∧
      r.fmt = .elems .x8 .f16 :=
  ⟨⟨.ld128 1 12 4 (.short 2), _, one, rfl, by decide, issuing_one, noPorts _ _ _ rfl, allPass _ (by decide +kernel), by decide +kernel, rfl⟩,
    .ld hx 0 o0 (.elems .x8 .f16) (v 12) (v 4) .none, _, zb8, rfl, by decide, issuing_zb8, noPorts _ _ _ rfl,
    allPass _ (by decide +kernel), by decide +kernel, rfl⟩
theorem witness_StoresIssued :
    (∃ i r s, storeIs i = some r ∧ i.wf = true ∧ Issuing s ∧ PortsOk s r.x r.srcs ∧ AllPass (r.checks s) ∧ r.checks s ≠ [] ∧
      r.fmt = .raw .w32) ∧
    (∃ i r s, storeIs i = some r ∧ i.wf = true ∧ Issuing s ∧ AllPass (r.checks s) ∧ ∃ L va off e, (L, va, .ok ⟨.scr off, e⟩) ∈ r.checks s) ∧
    (∃ i r s, storeIs i = some r ∧ i.wf = true ∧ Issuing s ∧ AllPass (r.checks s) ∧ ∃ L va pa e, (L, va, .ok ⟨.stk pa, e⟩) ∈ r.checks s) ∧
    ∃ i r s, storeIs i = some r ∧ i.wf = true ∧ Issuing s ∧ PortsOk s r.x r.srcs ∧ AllPass (r.checks s) ∧ r.checks s ≠ [] ∧
      r.fmt = .elems .x4 .f32 .rn true :=
  ⟨⟨.st32 1 6 4 (.short 0x3F), _, one, rfl, by decide, issuing_one, noPorts _ _ _ rfl, allPass _ (by decide +kernel), by decide +kernel, rfl⟩,
    ⟨.st hx 0 o0 (.raw .w128) (v 4) .none (v 8), _, inScr, rfl, by decide, issuing_inScr, allPass _ (by decide +kernel),
      1, 0xFFFE000000007FF0, 32752, none, by decide +kernel⟩,
    ⟨.st hx 0 o0 (.raw .w128) (v 4) .none (v 8), _, onStk, rfl, by decide, issuing_onStk, allPass _ (by decide +kernel),
      stackPass _ (by decide +kernel)⟩,
    .st hx 0 o0 (.elems .x4 .f32 .rn true) (v 4) .none (v 8), _, zb8, rfl, by decide, issuing_zb8, noPorts _ _ _ rfl,
    allPass _ (by decide +kernel), by decide +kernel, rfl⟩
theorem witness_AtomicsIssued :
    (∃ i r s, atomIs i = some r ∧ i.wf = true ∧ Issuing s ∧ PortsOk s r.x r.srcs ∧ AllPass (r.checks s) ∧ r.checks s ≠ [] ∧ r.d.isSome = true) ∧
    (∃ i r s, atomIs i = some r ∧ i.wf = true ∧ Issuing s ∧ AllPass (r.checks s) ∧ ∃ L va off e, (L, va, .ok ⟨.scr off, e⟩) ∈ r.checks s) ∧
    ∃ i r s, atomIs i = some r ∧ i.wf = true ∧ Issuing s ∧ AllPass (r.checks s) ∧ ∃ L va pa e, (L, va, .ok ⟨.stk pa, e⟩) ∈ r.checks s :=
  ⟨⟨.atom hx 0 o0 .cas .n32 12 (v 4) (.reg (v 6)) (v 7) 0 ⟨0, 0⟩, _, two, rfl, by decide, issuing_two, noPorts _ _ _ rfl,
      allPass _ (by decide +kernel), by decide +kernel, rfl⟩,
    ⟨.atom hx 0 o0 .add .n64 12 (v 4) (.reg (v 6)) (v 0) 0 ⟨0, 0⟩, _, inScr, rfl, by decide, issuing_inScr, allPass _ (by decide +kernel),
      1, 0xFFFE000000007FF0, 32752, none, by decide +kernel⟩,
    .red hx 0 o0 .add .n32 (v 4) (.reg (v 6)), _, onStk, rfl, by decide, issuing_onStk, allPass _ (by decide +kernel),
      stackPass _ (by decide +kernel)⟩

theorem globAll (s : State) (r : EscIs) (h : ((s.active r.x).all fun L => (r.vas s L).all fun va => aperOf va == .glob) = true) :
    ∀ L ∈ s.active r.x, ∀ va ∈ r.vas s L, aperOf va = .glob := fun L hL va hv =>
  of_decide_eq_true (List.all_eq_true.mp (List.all_eq_true.mp h L hL) va hv)
/-- No budget is left at the core. -/
def spent : State := { two with cores := [(0, { used := 8192 })] }
/-- One sector of budget is left at the core, and the request asks for exactly that. -/
def lastSector : State := { two with cores := [(0, { used := 8191 })] }
theorem issuing_spent : Issuing spent := ⟨by decide +kernel, by decide +kernel⟩
theorem issuing_lastSector : Issuing lastSector := ⟨by decide +kernel, by decide +kernel⟩
theorem witness_EscortDecision :
    (∃ i r s, escIs i = some r ∧ r.e.cnt ≠ 0 ∧ i.wf = true ∧ Issuing s ∧ PortsOk s r.x r.srcs ∧ AllPass (escChecks i s) ∧ escChecks i s ≠ [] ∧
      EscFits s r) ∧
    (∃ i r s, escIs i = some r ∧ r.e.cnt ≠ 0 ∧ i.wf = true ∧ Issuing s ∧ PortsOk s r.x r.srcs ∧ AllPass (escChecks i s) ∧ EscFits s r ∧
      s = lastSector) ∧
    ∃ i r s, escIs i = some r ∧ r.e.cnt ≠ 0 ∧ i.wf = true ∧ Issuing s ∧ PortsOk s r.x r.srcs ∧ AllPass (escChecks i s) ∧
      s.active r.x ≠ [] ∧ ¬ EscFits s r ∧ escChecks i s ≠ [] :=
  ⟨⟨.lde hx 0 o0 .w32 12 (v 4) .none 1 ⟨40, 3⟩, _, two, rfl, by decide, by decide, issuing_two, noPorts _ _ _ rfl,
      allPass _ (by decide +kernel), by decide +kernel, by decide +kernel, by decide +kernel, by decide +kernel, by decide +kernel, globAll _ _ (by decide +kernel)⟩,
    ⟨.chs hx 0 12 (v 4) (.reg (v 6)) 1 ⟨40, 4⟩, _, lastSector, rfl, by decide, by decide, issuing_lastSector, noPorts _ _ _ rfl,
      allPass _ (by decide +kernel), ⟨by decide +kernel, by decide +kernel, by decide +kernel, by decide +kernel, globAll _ _ (by decide +kernel)⟩, rfl⟩,
    .atom hx 0 o0 .add .n32 12 (v 4) (.reg (v 6)) (v 0) 1 ⟨40, 1⟩, _, spent, rfl, by decide, by decide, issuing_spent, noPorts _ _ _ rfl,
      allPass _ (by decide +kernel), by decide +kernel, fun h => absurd h.budget (by decide +kernel), by decide +kernel⟩

theorem witness_WalksAndProbesBegin :
    ((Instr.chs hx 0 12 (v 4) (.reg (v 6)) 1 ⟨40, 3⟩).wf = true ∧ Issuing two ∧ PortsOk two hx [.reg (v 6)] ∧ 1 ∈ two.active hx) ∧
    (∃ h k sc d rp e a b, (Instr.gath hx h k sc d a b rp e) = .gath hx 0 15 3 12 (v 4) (.reg (v 6)) 0 ⟨0, 0⟩) ∧ two.active hx ≠ [] :=
  ⟨⟨by decide, issuing_two, noPorts _ _ _ rfl, by decide +kernel⟩, ⟨_, _, _, _, _, _, _, _, rfl⟩, by decide +kernel⟩

/-- Every copy of the test moves 64 bytes from address 0 to 0x40000. -/
def copying (n : Word) : State := made 1 (thr 0 fun th => ((th.setV 4 0x40000).setV 8 n))
theorem issuing_copying : Issuing (copying 64) := ⟨by decide +kernel, by decide +kernel⟩
/-- The issuer has had an access that completed. -/
def hasDone : State := made 1 fun t => { t with groups := [{ slotGroup 32 with doneT := 77 }] }
theorem issuing_hasDone : Issuing hasDone := ⟨by decide +kernel, by decide +kernel⟩
theorem witness_FencesAndCopies : (Issuing two ∧ two.active idle = []) ∧
    (two.active hx ≠ [] ∧ two.covered two.cur.team two.cur.who true = [] ∧ two.knownT two.cur.team two.cur.who true = 0) ∧
    (Issuing hasDone ∧ hasDone.active hx ≠ [] ∧ hasDone.knownT hasDone.cur.team hasDone.cur.who false ≠ 0) ∧
    two.reg1 (v 8) 0 = 0 ∧
    (let s := copying 64
     let n := (s.reg1 (v 8) 0).toNat
     let dst := s.reg2 (v 4) 0
     let src := s.src2 (.reg (v 6)) 0
     let rs := s.regionWalk src n 0
     let rd := rs.2.2.regionWalk dst n 1
     Issuing s ∧ s.active hx ≠ [] ∧ n ≠ 0 ∧ n % 32 = 0 ∧ n ≤ 2 ^ 24 ∧ dst.toNat % 32 = 0 ∧ src.toNat % 32 = 0 ∧
      regionBad (s.hdrOf s.ct).scratch dst n = false ∧ regionBad (s.hdrOf s.ct).scratch src n = false ∧ regionsMeet dst src n = false ∧
      rs.1 = [] ∧ rd.1 = []) :=
  ⟨⟨issuing_two, by decide +kernel⟩, by decide +kernel, ⟨issuing_hasDone, by decide +kernel, by decide +kernel⟩, by decide +kernel,
    issuing_copying, by decide +kernel⟩

def streaming (a : Dword) (stride : Word) (n : Nat) : State :=
  made 1 fun t => { t with groups := [{ slotGroup 32 with streams := [(2, { active := true, a := [(0, a)], stride := [(0, stride)], count := [(0, n)] })] }] }
def fewPages : State := streaming 0 4 2
/-- Every lane reads 16 pages below those of the lane before, and lane 31 one more. -/
def manyPages : State :=
  made 1 fun t => { t with groups := [{ slotGroup 32 with streams := [(2, {
    active := true, a := (List.range 32).map fun L => (L, BitVec.ofNat 64 (0x0100000000100000 + (16 * (32 - L) + 15) * 65536)),
    stride := (List.range 32).map fun L => (L, 0xFFFF0000),
    count := (List.range 32).map fun L => (L, if L = 31 then 17 else 16) })] }] }
theorem issuing_fewPages : Issuing fewPages := ⟨by decide +kernel, by decide +kernel⟩
theorem issuing_manyPages : Issuing manyPages := ⟨by decide +kernel, by decide +kernel⟩
def probed (s : State) (k : BitVec 4) : List Nat × List (Nat × Flt) × State :=
  let st := s.cg.stream k.toNat
  ((Team_alive s.ct s.cur.who).filter fun L => Stream_live st L).foldl
    (fun (acc : List Nat × List (Nat × Flt) × State) L =>
      let q := acc.2.2.probeLane st L
      (q.1.foldl insertNat acc.1, acc.2.1 ++ q.2.1.map (fun f => (L, f)), q.2.2)) ([], [], s)
theorem witness_Streams : (Issuing two ∧ two.cur.who ≠ .lead ∧ two.active idle = [] ∧ two.active hx ≠ [] ∧ PortsOk two hx [.reg (v 6), .reg (v 7)]) ∧
    (Issuing lone ∧ lone.cur.who = .lead ∧ lone.active hx ≠ [] ∧ PortsOk lone hx [.reg (v 7)]) ∧
    (Issuing fewPages ∧ fewPages.active hx ≠ [] ∧ (probed fewPages 2).1.length ≤ 512 ∧ (probed fewPages 2).1 ≠ [] ∧ (probed fewPages 2).2.1 = []) ∧
    (Issuing manyPages ∧ manyPages.active hx ≠ [] ∧ (probed manyPages 2).1.length > 512) :=
  ⟨⟨issuing_two, by decide +kernel, by decide +kernel, by decide +kernel, noPorts _ _ _ rfl⟩,
    ⟨issuing_lone, rfl, by decide +kernel, noPorts _ _ _ rfl⟩,
    ⟨issuing_fewPages, by decide +kernel, by decide +kernel, by decide +kernel, by decide +kernel⟩,
    issuing_manyPages, by decide +kernel, by decide +kernel⟩

/-! ### Capabilities -/

/-- Capability 1 of lanes 0 and 1: 64 bytes at 0x1000 of device 5, readable, writable, atomic. -/
def capOf (rsv group : Nat) : Capa := ⟨BitVec.ofNat 128 (0x1000 + 64 * 2 ^ 56 + 5 * 2 ^ 104 + (7 + 8 * group) * 2 ^ 117 + rsv * 2 ^ 121), true⟩
def capable (group : Nat) : State := made 3 (thr 0 (fun th => ({ th with c := [(1, capOf 0 group)] }.setV 4 60)) ∘ thr 1 fun th => { th with c := [(1, capOf 0 group)] })
theorem issuing_capable : Issuing (capable 0) ∧ Issuing (capable 1) := ⟨⟨by decide +kernel, by decide +kernel⟩, by decide +kernel, by decide +kernel⟩
theorem witness_RemoteRequests :
    (∃ i r s, remIs i = some r ∧ i.wf = true ∧ Issuing s ∧ PortsOk s r.x r.srcs ∧ s.cur.level ≠ .h ∧ s.active r.x ≠ [] ∧
      ∀ L ∈ s.active r.x, CapAllows ((s.cth L).getC r.cap.toNat) r.right (needsOne i) (r.off s L) r.n) ∧
    ∃ i r s, remIs i = some r ∧ i.wf = true ∧ Issuing s ∧ PortsOk s r.x r.srcs ∧ s.cur.level ≠ .h ∧ s.active r.x ≠ [] ∧ needsOne i = false ∧
      ∀ L ∈ s.active r.x, CapAllows ((s.cth L).getC r.cap.toNat) r.right (needsOne i) (r.off s L) r.n := by
  refine ⟨⟨.ldC hx 0 o0 .w32 false 1 (v 12) (v 4) none, _, capable 0, rfl, by decide, issuing_capable.1, noPorts _ _ _ rfl, by decide +kernel,
      by decide +kernel, ?_⟩,
    .redC hx 0 o0 .add .n32 1 (v 4) (.reg (v 6)), _, capable 1, rfl, by decide, issuing_capable.2, noPorts _ _ _ rfl, by decide +kernel,
      by decide +kernel, by decide, ?_⟩
  · have h : (capable 0).active hx = [0, 1] := by decide +kernel
    intro L hL
    replace hL : L ∈ (capable 0).active hx := hL
    rw [h] at hL
    simp only [List.mem_cons, List.not_mem_nil, or_false] at hL
    rcases hL with rfl | rfl <;>
      exact ⟨by decide +kernel, by decide +kernel, by decide +kernel, by decide +kernel, by decide +kernel, by decide +kernel, by decide +kernel⟩
  · have h : (capable 1).active hx = [0, 1] := by decide +kernel
    intro L hL
    replace hL : L ∈ (capable 1).active hx := hL
    rw [h] at hL
    simp only [List.mem_cons, List.not_mem_nil, or_false] at hL
    rcases hL with rfl | rfl <;>
      exact ⟨by decide +kernel, by decide +kernel, by decide +kernel, by decide +kernel, by decide +kernel, by decide +kernel, by decide +kernel⟩
def atLevel (l : Level) : State := { made 3 (thr 0 (fun th => { th with level := l }) ∘ thr 1 fun th => { th with level := l }) with cur := { issuer 3 12 with level := l } }
theorem issuing_atLevel : Issuing (atLevel .s) ∧ Issuing (atLevel .h) := ⟨⟨by decide +kernel, by decide +kernel⟩, by decide +kernel, by decide +kernel⟩
theorem witness_CapabilityRegisters : Issuing two ∧ Issuing (atLevel .s) ∧ (atLevel .s).cur.level = .s := ⟨issuing_two, issuing_atLevel.1, rfl⟩
theorem witness_CapabilityRecords :
    (Issuing two ∧ AllPass (two.laneChecks hx [] (two.laneVa (v 4) (capDisp none)) 32 0 false) ∧
      two.laneChecks hx [] (two.laneVa (v 4) (capDisp none)) 32 0 false ≠ []) ∧
    (AllPass (two.laneChecks hx [] (two.laneVa (v 4) (capDisp (some 64))) 32 1 false) ∧
      two.laneChecks hx [] (two.laneVa (v 4) (capDisp (some 64))) 32 1 false ≠ []) ∧
    (Issuing (atLevel .s) ∧ AllPass ((atLevel .s).laneChecks hx [] ((atLevel .s).reg2 (v 4)) 32 1 false) ∧
      (atLevel .s).laneChecks hx [] ((atLevel .s).reg2 (v 4)) 32 1 false ≠ []) :=
  ⟨⟨issuing_two, allPass _ (by decide +kernel), by decide +kernel⟩, ⟨allPass _ (by decide +kernel), by decide +kernel⟩,
    issuing_atLevel.1, allPass _ (by decide +kernel), by decide +kernel⟩

/-! ### Kills, control registers, the handler's return -/

def oddTarget : State := made 1 (thr 0 fun th => th.setV 6 2)
def bigEvent : State := made 1 (thr 0 fun th => th.setV 6 4096)
theorem issuing_odd : Issuing oddTarget ∧ Issuing bigEvent := ⟨⟨by decide +kernel, by decide +kernel⟩, by decide +kernel, by decide +kernel⟩
def held2 : State := made 3 (thr 5 arrivedAt)
theorem issuing_held2 : Issuing held2 := ⟨by decide +kernel, by decide +kernel⟩
theorem busy_held2 : held2.slotBusy 0 2 := by unfold State.slotBusy; decide +kernel
/-- A copy of 64 bytes onto itself. -/
def selfCopy : State := made 1 (thr 0 fun th => th.setV 8 64)
theorem issuing_selfCopy : Issuing selfCopy := ⟨by decide +kernel, by decide +kernel⟩
theorem witness_KillsTaken : (∃ i, Kills oddTarget i eIll ∧ Issuing oddTarget) ∧ (∃ x b, Kills held2 (.rcvSet x b) eRcv ∧ Issuing held2) ∧
    (∃ x b w, Kills held2 (.regroup x b w) eRcv) ∧ (∃ i, Kills inConj i eRcv ∧ Issuing inConj) ∧
    (∃ i, Kills (atLevel .h) i ePriv ∧ Issuing (atLevel .h)) ∧ (∃ x d n, Kills two (.csrr x d n) ePriv ∧ Issuing two) ∧
    (∃ x n a, Kills two (.csrw x n a) ePriv) ∧ (∃ x a, Kills two (.eret x a) ePriv) ∧ (∃ x c b, Kills two (.capmk x c b) ePriv) ∧
    (∃ x a b w, Kills two (.capmkRec x a b w) ePriv) ∧ (∃ x h gd a b c, Kills selfCopy (.acp x h gd a b c) eBnds ∧ Issuing selfCopy) ∧
    (∃ x b, Kills bigEvent (.evsig x b) eBnds ∧ Issuing bigEvent) ∧ ∃ x a b, Kills bigEvent (.evwait x a b) eBnds :=
  ⟨⟨.brxExt hx (v 6), .target _ ⟨hx, v 6⟩ 0 rfl (by decide +kernel) (by decide +kernel), issuing_odd.1⟩,
    ⟨hx, 2, .slot _ _ 0 (by decide +kernel) busy_held2, issuing_held2⟩, ⟨hx, 2, 0, .regroup _ _ _ 0 (by decide +kernel) busy_held2⟩,
    ⟨.mzero hx 0, .conj _ 0 rfl rfl, issuing_inConj⟩, ⟨.ldC hx 0 o0 .w32 false 1 (v 12) (v 4) none, .remote _ _ rfl rfl, issuing_atLevel.2⟩,
    ⟨hx, 6, 0x055, .csrr _ _ _ (by decide) (by decide +kernel), issuing_two⟩, ⟨hx, 0x040, v 6, .csrw _ _ _ (by decide) (by decide +kernel)⟩,
    ⟨hx, .retry, .eret _ _ (by decide +kernel)⟩, ⟨hx, 1, v 8, .capmk _ _ _ (by decide +kernel)⟩,
    ⟨hx, v 4, v 8, 64, .capmkRec _ _ _ _ (by decide +kernel)⟩,
    ⟨hx, 0, g 1, v 4, .reg (v 6), v 8, .copy _ _ _ _ _ _ (by decide +kernel) (by decide +kernel) (.inr (.inr (by decide +kernel))), issuing_selfCopy⟩,
    ⟨hx, .reg (v 6), .evsig _ _ 0 (by decide +kernel) (by decide +kernel), issuing_odd.2⟩,
    hx, v 4, .reg (v 6), .evwait _ _ _ 0 (by decide +kernel) (by decide +kernel)⟩

/-- The issue of a path whose words no instruction has, that lies outside the code region, or that waits for a result. -/
def illegalWord : State := State.reset.loadCode (leBytes 4 0x20) false
def outsideWord : State := (State.reset.loadCode [] false).modTeam 1 fun t => { t with groups := [{ slotGroup 32 with threads := List.replicate 32 { pc := 0x30000 } }] }
def hazardous : State :=
  let s := (State.reset.loadCode (leBytes 4 0x120C2848) false).modTeam 1 fun t =>
    { t with pipe := [{ due := 9, ord := 0, who := .grp 0, grp := 0, lane := 4, cls := 0, no := 9, val := 0 }] }
  { s with launches := s.launches.map fun l => { l with hdr := { l.hdr with check := true } } }
def picks (s : State) : List (Path × Fetched) := picksOf ((s.team 1).actor (.grp 0)).ages (s.pathsF (s.team 1) (.grp 0))
def killPick (s : State) : Option (Level × Nat) :=
  match picks s with
  | [(p, .illegal _)] => some (p.level, 0)
  | [(p, .outside _)] => some (p.level, 1)
  | [(p, .ok i _ _)] => if s.hazard (s.team 1) (.grp 0) p i then some (p.level, 2) else none
  | _ => none
theorem witness_IssueKills : killPick illegalWord = some (.u, 0) ∧ killPick outsideWord = some (.u, 1) ∧ killPick hazardous = some (.u, 2) ∧
    ∀ s ∈ [illegalWord, outsideWord, hazardous], let t := s.team 1
      s.agenda = [.issue 0] ∧ s.clocks = true ∧ s.homes = [] ∧ s.issueQ = [] ∧ (s.core 0).lastCyc ≤ s.cycle 0 ∧ s.team? t.id = some t ∧
      s.residents 0 = [t] ∧ Team_actors t = [.grp 0] ∧ t.lead = none ∧ (t.actor (.grp 0)).sub < 4 ∧ (t.actor (.grp 0)).active = true ∧
      (t.actor (.grp 0)).notBefore ≤ s.cycle 0 := by decide +kernel

/-- The issuer has an invalidate under way. -/
def invalidating : State := { atLevel .s with teams := (atLevel .s).teams.map fun t => { t with groups := t.groups.map fun g => { g with invs := [9] } } }
theorem issuing_invalidating : Issuing invalidating := ⟨by decide +kernel, by decide +kernel⟩
theorem witness_ControlRegisters :
    (Issuing two ∧ two.cur.level ∈ (csrLevels 0x040).1) ∧
    (Issuing invalidating ∧ invalidating.cur.level ∈ (csrLevels 0x030).1 ∧ invalidating.cg.invs ≠ []) ∧
    (Issuing (atLevel .s) ∧ (atLevel .s).cg.invs = [] ∧ (atLevel .s).cur.level ∈ (csrLevels 0x043).2 ∧ (atLevel .s).cur.level ∈ (csrLevels 0x024).2 ∧
      (atLevel .s).active idle = [] ∧ ((atLevel .s).active hx).getLast? = some 1) :=
  ⟨⟨issuing_two, by decide +kernel⟩, ⟨issuing_invalidating, by decide +kernel, by decide +kernel⟩, issuing_atLevel.1, by decide +kernel,
    by decide +kernel, by decide +kernel, by decide +kernel, by decide +kernel⟩

def inside : Park :=
  { tag := 7, world := 0, team := 1, who := .grp 0, lanes := [(0, 0), (0, 1)], cls := 1, fetch := false, trapCls := false,
    pc := w64 (slotHdr + 64), len := 12, word := 0, inH := true }
def handling : State := { atLevel .h with parks := [inside] }
theorem issuing_handling : Issuing handling := ⟨by decide +kernel, by decide +kernel⟩
theorem witness_HandlerReturn : Issuing handling ∧ handling.cur.level = .h ∧
    handling.parks.find? (fun q => q.team = handling.cur.team && q.who = handling.cur.who && q.inH) = some inside ∧
    (∀ q ∈ handling.parks, q.team = handling.cur.team → q.who = handling.cur.who → q.inH = false → q.handler = none) ∧
    (handling.cth 1).level = .h ∧ (handling.cth 1).st ≠ .exited ∧ (handling.cth 1).st ≠ .exiting ∧ Team_standsIn handling.ct handling.cur.who 1 = true ∧
    (∃ l ∈ handling.launches, l.id = handling.ct.launch ∧ l.errSet = false) :=
  ⟨issuing_handling, rfl, by decide +kernel, by decide +kernel, by decide +kernel, by decide +kernel, by decide +kernel, by decide +kernel, by decide +kernel⟩

/-! ### Regrouping, launches and events -/

theorem witness_RegroupSubmits : Issuing two ∧ (∀ c, two.cur.who ≠ .conj c) ∧ (∀ L ∈ two.active hx, ¬ two.slotBusy L 15) ∧ 1 ∈ two.active hx ∧
    (1 ∈ two.path ∧ 1 ∉ two.active idle) :=
  ⟨issuing_two, onlyGrp _ 0 rfl, by unfold State.slotBusy; decide +kernel, by decide +kernel, by decide +kernel⟩

/-- Queue 0 takes launches from the device, at a ring in mapped memory. -/
def feeding (en devq : Bool) (tail : Word) : State :=
  { two with queues := [(0, { slots := 1, en := en, devq := devq, base := 0x100000, cbase := 0x180000, work := 0x200000, slotsz := 0x100000,
                              head := 0, tail := tail })] }
def feeds : State := feeding true true 15
def full : State := feeding true true 16
theorem issuing_feeds : Issuing feeds ∧ Issuing full := ⟨⟨by decide +kernel, by decide +kernel⟩, by decide +kernel, by decide +kernel⟩
theorem isOk_get {α : Type} (r : Except α Acc) (h : r.isOk = true) : ∃ a, r = .ok a := by
  cases r with
  | ok a => exact ⟨a, rfl⟩
  | error _ => cases h
theorem witness_EventsAndLaunches :
    (Issuing two ∧ two.active idle = []) ∧ ((two.active hx).getLast? = some 1 ∧ (two.src1 (.lit 4095) 1).toNat < 4096) ∧
    (two.evReady two.ct two.cur.who (two.lanesOf (two.active hx)) 4095 = true ∧
      (two.reg2 (v 4) 1).toNat ≤ leNat (two.phys (some two.cw) ((two.world two.cw).evbase.toNat + 16 * 4095) 8)) ∧
    (Issuing oddTarget ∧ (oddTarget.active hx).getLast? = some 0 ∧
      leNat (oddTarget.phys (some oddTarget.cw) ((oddTarget.world oddTarget.cw).evbase.toNat + 16 * 0) 8) < (oddTarget.reg2 (v 6) 0).toNat) ∧
    (∃ acc, Issuing feeds ∧ (feeds.active hx).getLast? = some 1 ∧
      ((feeds.queueServe 0 feeds.cur.core).access feeds.cur.core feeds.cur.team (feeds.home 1).1 (feeds.home 1).2 (feeds.reg2 (v 4) 1) 128 128 kRead false).1 = .ok acc ∧
      (feeds.queue 0).slots ≠ 0 ∧ (feeds.queue 0).owner = feeds.cw ∧ (feeds.queue 0).priv = false ∧ (feeds.queue 0).en = true ∧
      (feeds.queue 0).devq = true ∧ ((feeds.queue 0).tail - (feeds.queue 0).head).toNat ≠ 2 ^ (feeds.queue 0).size ∧
      ∃ d, (((feeds.queueServe 0 feeds.cur.core).access feeds.cur.core feeds.cur.team (feeds.home 1).1 (feeds.home 1).2 (feeds.reg2 (v 4) 1) 128 128 kRead false).2.globAcc
        feeds.cur.core feeds.cw ((feeds.queue 0).base + BitVec.ofNat 64 (128 * ((feeds.queue 0).tail.toNat % 2 ^ (feeds.queue 0).size)))
        kWrite false).1 = .ok d) ∧
    ((full.queue 0).tail - (full.queue 0).head).toNat = 2 ^ (full.queue 0).size ∧ (feeds.queue 1023).slots = 0 :=
  ⟨⟨issuing_two, by decide +kernel⟩, by decide +kernel, by decide +kernel, ⟨issuing_odd.1, by decide +kernel, by decide +kernel⟩,
    (isOk_get _ (by decide +kernel)).elim fun acc h => ⟨acc, issuing_feeds.1, by decide +kernel, h, by decide +kernel, by decide +kernel,
      by decide +kernel, by decide +kernel, by decide +kernel, by decide +kernel, isOk_get _ (by decide +kernel)⟩,
    by decide +kernel, by decide +kernel⟩

/-! ### Tiles, attention, sequences -/

theorem witness_TileRegisters : Issuing two ∧ (∀ c, two.cur.who ≠ .conj c) ∧ two.active hx ≠ [] ∧ PortsOk two hx [.reg (v 4), .reg (v 6)] ∧
    tabRises (two.ct.tile 63).c ∧ (1 ∈ two.active hx ∧ (two.home 0).2 < (two.home 1).2 ∧ two.cellOf (.reg (v 6)) 0 = two.cellOf (.reg (v 6)) 1) ∧
    (∀ L ∈ two.active hx, two.cellOf (.reg (v 6)) L ≠ (31, 15)) :=
  ⟨issuing_two, onlyGrp _ 0 rfl, by decide +kernel, noPorts _ _ _ rfl, by decide +kernel, by decide +kernel, by decide +kernel⟩

theorem witness_LatchesFilled :
    (let rs := (List.range 32).map fun r => (two.reg2 (v 4) 0 + BitVec.ofNat 64 (r * 16), 16 * elemSize .e4m3)
     Issuing two ∧ (∀ c, two.cur.who ≠ .conj c) ∧ two.active hx ≠ [] ∧ (∀ r ∈ rs, two.regionKills r = false) ∧
      (two.reg2 (v 4) 0).toNat % 16 = 0 ∧ (16 : BitVec 24).toNat % 16 = 0 ∧ (two.probePages rs kRead (fmtWant .e4m3)).1 = []) ∧
    (let row (L : Nat) : Dword := two.reg2 (v 4) 0 + (two.src1 (.reg (v 6)) L).zeroExtend 64 * BitVec.ofNat 64 (32 : BitVec 24).toNat
     let r := (two.active hx).foldl (fun (acc : List (Nat × Flt) × List (Dword × Acc) × State) L =>
      let q := acc.2.2.probePages [(row L, 32)] kRead (fmtWant .f16)
      (acc.1 ++ q.1.map (fun f => (L, f)), acc.2.1 ++ q.2.1, q.2.2)) ([], [], two)
     (∀ L ∈ two.active hx, two.regionKills (row L, 32) = false) ∧ (two.reg2 (v 4) 0).toNat % 32 = 0 ∧ (32 : BitVec 24).toNat % 32 = 0 ∧
      r.1 = [] ∧ tabRises two.cg.al ∧ 0 ∈ two.active hx ∧ 7 ∉ two.active hx) :=
  ⟨⟨issuing_two, onlyGrp _ 0 rfl, by decide +kernel, by decide +kernel, by decide +kernel, by decide +kernel, by decide +kernel⟩,
    by decide +kernel⟩

def isGot {α : Type} (r : Got α) : Bool :=
  match r with
  | .ok _ _ => true
  | .kill _ => false
  | .flt _ _ => false
theorem got_ok {α : Type} (r : Got α) (h : isGot r = true) : ∃ a s, r = .ok a s := by
  cases r with
  | ok a s => exact ⟨a, s, rfl⟩
  | kill _ => cases h
  | flt _ _ => cases h

def gotCut {α β : Type} (r : Got α) (f : α → Option β) : Bool :=
  match r with
  | .ok es _ => (f es).isSome
  | .kill _ => false
  | .flt _ _ => false
theorem got_cut {α β : Type} (r : Got α) (f : α → Option β) (h : gotCut r f = true) : ∃ es s ws, r = .ok es s ∧ f es = some ws := by
  cases r with
  | ok es s => exact (Option.isSome_iff_exists.mp h).elim fun ws hw => ⟨es, s, ws, rfl, hw⟩
  | kill _ => cases h
  | flt _ _ => cases h

/-- A sparse header of m rows in the scratchpad, whose row 0 has one entry in column 0. -/
def sparseBytes (m : Nat) : List Byte :=
  leBytes 8 0x1000 ++ leBytes 8 0x2000 ++ leBytes 8 0x3000 ++ leBytes 8 0x4000 ++ leBytes 4 m ++ leBytes 4 8 ++ leBytes 4 16 ++
    leBytes 4 64 ++ leBytes 4 (5 + 16 * 5) ++ leBytes 12 0
def sparse (m : Nat) : State :=
  let s := made 3 fun t => { scr 0 0 t with
    scratch := memWrite [] 0 (sparseBytes m),
    groups := (scr 0 0 t).groups.map fun gr => { gr with g := [(9, 0), (10, 8), (11, 1)] } }
  { s with mem := memWrite s.mem 0x1004 ((List.range 8).flatMap fun _ => leBytes 4 1) }
def band (m row : Nat) : State :=
  let s := sparse m
  s.modTeam 1 fun t => { t with groups := t.groups.map fun gr => { gr with g := if row = 0 then [] else [(8, BitVec.ofNat 32 row)] } }
theorem issuing_sparse : Issuing (sparse 8) ∧ Issuing (band 8 0) ∧ Issuing (band 8 8) :=
  ⟨⟨by decide +kernel, by decide +kernel⟩, ⟨by decide +kernel, by decide +kernel⟩, by decide +kernel, by decide +kernel⟩
theorem witness_TileProducts : (Issuing two ∧ (∀ c, two.cur.who ≠ .conj c) ∧ two.active hx ≠ [] ∧ tabRises (two.ct.tile 0).c ∧
      two.rowActive hx 7 ∧ ¬ two.rowActive hx 8) ∧
    two.active idle = [] ∧ ((two.regAt (g 8) 3 0).toNat % 512 = 0 ∧ (two.regAt (g 8) 2 0).toNat ≤ (two.regAt (g 8) 1 0).toNat) ∧
    (Issuing (sparse 8) ∧ (sparse 8).active hx ≠ [] ∧ ((sparse 8).regAt (g 8) 3 0).toNat % 512 ≠ 0 ∧
      ((sparse 8).regAt (g 8) 1 0).toNat < ((sparse 8).regAt (g 8) 2 0).toNat ∧ tabRises ((sparse 8).ct.tile 0).c ∧
      ∃ q s1, (sparse 8).mmsRead ((sparse 8).reg2 (v 4) 0) ((sparse 8).regAt (g 8) 0 0).toNat ((sparse 8).regAt (g 8) 1 0).toNat
        ((sparse 8).regAt (g 8) 2 0).toNat ((sparse 8).reg1 (v 12) 0).toNat ((sparse 8).quarters ((sparse 8).active hx)) = .ok q s1) := by
  unfold State.rowActive
  exact ⟨⟨issuing_two, onlyGrp _ 0 rfl, by decide +kernel, by decide +kernel, by decide +kernel, by decide +kernel⟩, by decide +kernel,
    by decide +kernel, issuing_sparse.1, by decide +kernel, by decide +kernel, by decide +kernel, by decide +kernel, got_ok _ (by decide +kernel)⟩

def hdr8 : SparseHdr := ⟨0x1000, 0x2000, 0x3000, 0x4000, 8, 8, 16, 64, .f16, .f16⟩
def cutRow (s : State) : Nat := (s.regAt (g 8) 0 0).toNat
theorem witness_TileStoresAndCuts :
    (let rows := (List.range 32).filter fun r => decide (r / 8 ∈ two.quarters (two.active hx))
     let rs := rows.map fun i => (mstAddr true (two.reg2 (v 4) 0) 64 (elemSize .f32) i 0, 16 * elemSize .f32)
     Issuing two ∧ (∀ c, two.cur.who ≠ .conj c) ∧ two.active hx ≠ [] ∧ (∀ r ∈ rs, two.regionKills r = false) ∧ rs ≠ [] ∧
      (two.reg2 (v 4) 0).toNat % 16 = 0 ∧ (64 : BitVec 24).toNat % 16 = 0 ∧ (two.probePages rs kWrite (fmtWant .f32)).1 = []) ∧
    ((sparse 8).regAt (g 8) 3 0).toNat.testBit 30 = false ∧
    (∃ h s1, Issuing (band 8 8) ∧ (band 8 8).active hx ≠ [] ∧ ((band 8 8).regAt (g 8) 3 0).toNat.testBit 30 = false ∧
      (band 8 8).sparseHdr ((band 8 8).reg2 (v 4) 0) = .ok h s1 ∧ h.m ≤ cutRow (band 8 8)) ∧
    (∃ h s1 es s2 ws, Issuing (band 8 0) ∧ (band 8 0).sparseHdr ((band 8 0).reg2 (v 4) 0) = .ok h s1 ∧ cutRow (band 8 0) < h.m ∧
      s1.bandEntries h (cutRow (band 8 0)) = .ok es s2 ∧ cutBand (es.map fun e => e.2.1) h.k (8 * 2 ^ 0) 256 (cutRow (band 8 0)) 0 = some ws) :=
  ⟨⟨issuing_two, onlyGrp _ 0 rfl, by decide +kernel, by decide +kernel, by decide +kernel, by decide +kernel, by decide +kernel, by decide +kernel⟩,
    by decide +kernel,
    ⟨_, _, issuing_sparse.2.2, by decide +kernel, by decide +kernel, (show _ = Got.ok hdr8 (band 8 8) from rfl), by decide +kernel⟩,
    hdr8, band 8 0, (got_cut _ _ (by decide +kernel)).elim fun es h => h.elim fun s2 h => h.elim fun ws h =>
      ⟨es, s2, ws, issuing_sparse.2.1, rfl, by decide +kernel, h.1, h.2⟩⟩

def sl0 : InflSlot := ⟨0x6000, 0x7000, 16, 16, .f16⟩
def inflBytes : List Byte := leBytes 8 0x6000 ++ leBytes 8 0x7000 ++ leBytes 2 16 ++ leBytes 2 16 ++ [5] ++ leBytes 11 0
def inflects : State :=
  let s := made 3 (thr 0 fun th => th.setV 4 0x5000)
  { s with mem := memWrite s.mem 0x5000 inflBytes }
def descBytes : List Byte := leBytes 8 0x8000 ++ leBytes 8 0x10000 ++ leBytes 4 0 ++ leBytes 4 1 ++ leBytes 4 0x3F800000 ++ leBytes 4 64 ++
  leBytes 2 16 ++ leBytes 2 16 ++ [1, 4, 6, 2] ++ leBytes 24 0
def attends : State := made 3 fun t => { scr 0 0 t with scratch := memWrite [] 0 descBytes, infl := [(3, sl0)] }
theorem issuing_attends : Issuing inflects ∧ Issuing attends := ⟨⟨by decide +kernel, by decide +kernel⟩, by decide +kernel, by decide +kernel⟩
def desc0 : AttnDesc := ⟨0x8000, 0x10000, 0, 1, 0x3F800000, 64, 16, 16, 1, .f32, .b16, false, true, false⟩
theorem witness_AttentionInstructions :
    (∃ acc, Issuing inflects ∧ (∀ c, inflects.cur.who ≠ .conj c) ∧ inflects.active hx ≠ [] ∧
      regionBad (inflects.hdrOf inflects.ct).scratch (inflects.reg2 (v 4) 0) 32 = false ∧ (inflects.reg2 (v 4) 0).toNat % 32 = 0 ∧
      (inflects.access inflects.cur.core inflects.cur.team 0 0 (inflects.reg2 (v 4) 0) 32 32 kRead false).1 = .ok acc ∧
      parseInfl ((inflects.access inflects.cur.core inflects.cur.team 0 0 (inflects.reg2 (v 4) 0) 32 32 kRead false).2.spaceBytes
        inflects.cur.core inflects.cur.team acc.space 32) = some sl0) ∧
    (let off := (attends.reg2 (v 4) 0).toNat % 2 ^ 48
     Issuing attends ∧ (∀ c, attends.cur.who ≠ .conj c) ∧ attends.active hx ≠ [] ∧ aperOf (attends.reg2 (v 4) 0) = .scr ∧
      off + 64 ≤ (attends.hdrOf attends.ct).scratch ∧ (attends.reg2 (v 4) 0).toNat % 64 = 0 ∧ tabFind attends.ct.infl 3 = some sl0 ∧
      parseDesc sl0 (attends.scratchBytes attends.cur.team off 64) = some desc0 ∧ 62 + desc0.dh / 16 < (attends.hdrOf attends.ct).acc ∧
      (attends.attnProbe sl0 desc0).1 = [] ∧ tabRises attends.ct.tiles) :=
  ⟨⟨⟨.glob 0x5000, some ⟨0, 0, 26, 0, true, true, false, 0, 0, 0, 0⟩⟩, issuing_attends.1, onlyGrp _ 0 rfl, by decide +kernel, by decide +kernel,
      by decide +kernel, by decide +kernel, by decide +kernel⟩,
    issuing_attends.2, onlyGrp _ 0 rfl, by decide +kernel, by decide +kernel, by decide +kernel, by decide +kernel, by decide +kernel,
    by decide +kernel, by decide +kernel, by decide +kernel, by decide +kernel⟩

/-- A sequence record at 0x9000 for lane 0, a free list of class 0 with n frames and room for cap, and a quota of one frame. -/
def seqAt (len n cap : Nat) (k : Word) : State :=
  let s := made 1 (thr 0 fun th => (th.setV 4 0x9000).setV 8 k)
  let r := leBytes 8 0x1000000 ++ leBytes 8 0xA000 ++ leBytes 4 len ++ leBytes 4 4 ++ leBytes 2 16 ++ [6, 0] ++ leBytes 4 0
  let w := { s with mem := memWrite s.mem 0x9000 r }
  w.modWorld 0 fun x => { x with free := [(0, { base := 0xB000, cap := cap, count := n })], quota := [1, 0], used := [0, 0] }
def kvGot (s : State) (trim : Bool) : Got (List KvLane) ⊕ (List (Nat × Flt) × State) :=
  s.kvProbe trim (s.kvLanes (s.active hx) (v 4) (if trim then none else some (.reg (v 6))) (v 8))
def kvIs (r : Got (List KvLane) ⊕ (List (Nat × Flt) × State)) (P : KvLane → State → Bool) : Bool :=
  match r with
  | .inl (.ok [q] s1) => P q s1
  | _ => false
theorem kv_is (r : Got (List KvLane) ⊕ (List (Nat × Flt) × State)) (P : KvLane → State → Bool) (h : kvIs r P = true) :
    ∃ q s1, r = .inl (.ok [q] s1) ∧ P q s1 = true := by
  cases r with
  | inr _ => cases h
  | inl r =>
    cases r with
    | kill _ => cases h
    | flt _ _ => cases h
    | ok qs s1 =>
      cases qs with
      | nil => cases h
      | cons q l =>
        cases l with
        | nil => exact ⟨q, s1, rfl, h⟩
        | cons _ _ => cases h
def appFits (s : State) (q : KvLane) (s1 : State) : Bool :=
  q.r.len + q.n ≤ q.r.cap && s1.canPop s.cw q.r.tier (cacheClass q.r.ct) (seqPages (SeqRec_rb q.r) (q.r.len + q.n) - seqPages (SeqRec_rb q.r) q.r.len)
def trimFits (s : State) (q : KvLane) (_ : State) : Bool :=
  let l := World_list (s.world s.cw) (listKey q.r.tier (cacheClass q.r.ct))
  q.n ≤ q.r.len && l.count + l.pending + (seqPages (SeqRec_rb q.r) q.r.len - seqPages (SeqRec_rb q.r) q.n) ≤ l.cap
def app1 : State := seqAt 0 1 1 4
def app0 : State := seqAt 0 0 1 4
def appLong : State := seqAt 0 1 1 5
def trim1 : State := seqAt 4 0 1 0
def trim0 : State := seqAt 4 1 1 0
def trimSame : State := seqAt 4 1 1 3
theorem issuing_seq : Issuing app1 ∧ Issuing app0 ∧ Issuing appLong ∧ Issuing trim1 ∧ Issuing trim0 ∧ Issuing trimSame :=
  ⟨⟨by decide +kernel, by decide +kernel⟩, ⟨by decide +kernel, by decide +kernel⟩, ⟨by decide +kernel, by decide +kernel⟩,
    ⟨by decide +kernel, by decide +kernel⟩, ⟨by decide +kernel, by decide +kernel⟩, by decide +kernel, by decide +kernel⟩
/-- An address that no record can have, for lane 0 alone. -/
def oddRec : State := made 3 (thr 0 fun th => th.setV 4 1)
theorem issuing_oddRec : Issuing oddRec := ⟨by decide +kernel, by decide +kernel⟩
theorem witness_SequenceInstructions :
    (app1.active hx ≠ [] ∧ ∃ q s1, kvGot app1 false = .inl (.ok [q] s1) ∧
      (appFits app1 q s1 && decide (q.n ≠ 0) && (appendLane .rn false ({}, s1) q).1.any) = true) ∧
    (∃ q s1, kvGot app0 false = .inl (.ok [q] s1) ∧ (!appFits app0 q s1) = true) ∧
    (∃ q s1, kvGot appLong false = .inl (.ok [q] s1) ∧ (!appFits appLong q s1) = true) ∧
    (∃ q s1, kvGot trim1 true = .inl (.ok [q] s1) ∧ (trimFits trim1 q s1 && decide (q.n ≠ q.r.len) && decide ((trimLane ({}, s1) q).1.cleared ≠ [])) = true) ∧
    (∃ q s1, kvGot trim0 true = .inl (.ok [q] s1) ∧ (!trimFits trim0 q s1) = true) ∧
    (∃ q s1, kvGot trimSame true = .inl (.ok [q] s1) ∧
      (trimFits trimSame q s1 && decide ((trimLane ({}, s1) q).1.cleared = []) && (trimLane ({}, s1) q).1.any) = true) ∧
    (let legal (L : Nat) : Bool := aperOf (oddRec.reg2 (v 4) L) = .glob && (oddRec.reg2 (v 4) L).toNat % 32 = 0
     let cs := (oddRec.checkAll (((oddRec.active hx).filter legal).map fun L => (L, oddRec.reg2 (v 4) L)) 32 32 kRead false).1
     Issuing oddRec ∧ AllPass cs ∧ 0 ∈ oddRec.active hx ∧ legal 0 = false ∧ 1 ∈ oddRec.active hx ∧ legal 1 = true) :=
  ⟨⟨by decide +kernel, kv_is _ _ (by decide +kernel)⟩, kv_is _ _ (by decide +kernel), kv_is _ _ (by decide +kernel), kv_is _ _ (by decide +kernel),
    kv_is _ _ (by decide +kernel), kv_is _ _ (by decide +kernel), issuing_oddRec, allPass _ (by decide +kernel), by decide +kernel, by decide +kernel,
    by decide +kernel, by decide +kernel⟩

/-! ### Events of threads, groups and teams -/

def here : Dword := w64 (slotHdr + 64)
/-- Lane 0 has arrived at slot 2, lanes 1 to 3 wait for a token, a time and an event; cycle 1. -/
def waits : State :=
  let s := made 1 fun t => thr 0 arrivedAt (thr 1 (fun th => { th with st := .tok 0x80000000 }) (thr 2 (fun th => { th with st := .time 1 })
    (thr 3 (fun th => { th with st := .event 4095 1 12 })
      { t with groups := [{ slotGroup 32 with expiry := [(2, 0), (3, 1)], ages := [⟨here, 64, false⟩] }] })))
  { s with dies := [(0, { cycle := 1 })] }
theorem witness_WaitsEnd : (⟨here, 64, false⟩ : Age) ∈ ((waits.team 1).actor (actorOf 0)).ages ∧
    (tabFind ((waits.team 1).groupAt 0).expiry (3 : BitVec 4).toNat = some 1 ∧ waits.cycle (waits.team 1).core ≤ 1) ∧
    (tabFind ((waits.team 1).groupAt 0).expiry (2 : BitVec 4).toNat = some 0 ∧ 0 < waits.cycle (waits.team 1).core ∧ waits.resident 1 = true ∧
      ((waits.team 1).thread 0 9).st ≠ .exited ∧ ((waits.team 1).thread 0 9).arrived.getLsbD 2 = false ∧
      ((waits.team 1).thread 0 0).st = .rcv 2 3 ∧ ((waits.team 1).thread 0 0).arrived.getLsbD 2 = true ∧ (3 : BitVec 3) ≠ 7) ∧
    ((waits.team 1).thread 0 1).st = .tok 0x80000000 ∧ ((waits.team 1).thread 0 2).st = .time 1 ∧ ((waits.team 1).thread 0 3).st = .event 4095 1 12 ∧
    waits.evReady (waits.team 1) (Team_actorOf (waits.team 1) (0, 3)) [(0, 3)] 4095 = true := by
  decide +kernel

/-- Nine groups in one sub-core: the ninth pends, ready for 384 cycles. -/
def crowded : State :=
  let s := made 1 fun t => { t with groups := List.replicate 8 (slotGroup 32) ++ [{ slotGroup 32 with active := false, since := some 0 }] }
  { s with dies := [(0, { cycle := 384 })] }
def overdue (s : State) : List (Team × Actor) :=
  promotionOrder ((s.members 0 0 false).filter fun x => s.promotable x.1 x.2 && (match (x.1.actor x.2).since with
    | some c => decide (s.cycle 0 ≥ c + 384)
    | none => false))
def longest (s : State) : List (Team × Actor) := sortBy (fun x : Team × Actor => (x.1.actor x.2).lastIssue) (s.members 0 0 true)
/-- Lane 0 is a candidate whose window is over; in the other state 32 lanes of one counter are. -/
def cand (l : Nat) (e : Nat) : Cand := ⟨0, l, here, 0, e, 2⟩
def submitted (n e : Nat) : State :=
  made 1 fun t => { t with
    groups := [{ slotGroup 32 with threads := (List.range 32).map fun l => { pc := here, st := if l < n then .submitted else .run } }],
    cands := (List.range n).map fun l => cand l e }
def formable (s : State) (full : Bool) : Bool :=
  let tm := s.team 1
  let cs (q : Dword) := chooseCands (candOrder (tm.cands.filter fun c => c.pc = q))
  s.resident 1 && decide (s.conjUsed tm.core < 32) &&
    decide (((candPcs tm.cands).find? fun q => candTrigger (candOrder (tm.cands.filter fun c => c.pc = q)) (s.cycle tm.core) full &&
      decide (s.places tm.core (tm.groupAt ((keysOf ((cs q).map (·.grp))).headD 0)).sub < 32)) = some here) &&
    (cs here).all fun c => decide (c.lane < 32) && decide ((tm.thread c.grp c.lane).st = .submitted)
/-- A team waits for its place; its core has the banks, or still uses them for L1. -/
def arriving (free : List Nat) : State :=
  { (made 1 fun t => { t with place := .admitting, banks := [] }) with cores := [(0, { free := free })] }
def spilledTeam : State := made 1 fun t => { t with groups := [{ slotGroup 32 with landed := [], spilled := [3, 4], spillAt := 7 }], freed := true }
theorem witness_PlacesFound :
    (((overdue crowded).head?.isSome && (longest crowded).head?.isSome) = true ∧
      (match (overdue crowded).head?, (longest crowded).head? with
        | some p, some a => decide ((p.1.id, p.2) ≠ (a.1.id, a.2)) && decide (crowded.team? p.1.id = some p.1) && decide (crowded.team? a.1.id = some a.1)
        | _, _ => false) = true ∧ 8 ≤ (crowded.members 0 0 true).length) ∧
    formable (submitted 1 0) false = true ∧ formable (submitted 32 100) true = true ∧
    (let s := arriving (List.range 16)
     s.team? 1 = some (s.team 1) ∧ (s.team 1).place = .admitting ∧ s.mates (s.team 1) = [s.team 1] ∧ s.admitNow 0 (s.team 1) = true) ∧
    (let s := arriving []
     s.wantsBank 0 = true ∧ 1 < (s.l1Banks 0).length ∧ (s.l1Banks 0).getLast? = some 15) ∧
    (let s := spilledTeam
     let tm := s.team 1
     s.resident 1 = true ∧ tm.freed = true ∧ (sortBy (fun g => (tm.groupAt g).spillAt) (tm.allGroups.filter fun g => (tm.groupAt g).spilled ≠ [])).head? = some 0 ∧
      Team_landedUnits tm + (tm.groupAt 0).spilled.length ≤ shareUnits (s.hdrOf tm) (s.launchOf tm).r.g) := by
  decide +kernel

/-! ### Events of memory -/

def result (cls no : Nat) (tok : Option Nat) : Pend :=
  { id := 5, team := 1, who := .grp 0, grp := 0, lane := 0, cls := cls, no := no, cnt := 2, vals := [some 7, some 8], tok := tok }
/-- A capability, and a record of one as `CAPLD` reads it. -/
def result4 (n : Nat) : Pend := { result 4 3 none with cnt := 1, vals := List.replicate n (some 7), tag := true }
def landing (p : Pend) : State := { placed false with pends := [p] }
theorem witness_ResultsWritten :
    (∀ p ∈ [result 0 12 none, result 1 62 none, result 1 63 (some 9), result 2 14 none, result 3 6 none],
      (landing p).pends.find? (fun q => q.id = p.id) = some p ∧ (landing p).pendReady p = true ∧
        (landing p).team? p.team = some ((landing p).team 1) ∧ p.acp = false ∧ p.abroad = false ∧
        (((landing p).team 1).thread p.grp p.lane).st ≠ .exited ∧ tabRises (((landing p).team 1).thread p.grp p.lane).v ∧
        0 < ((landing p).team 1).groups.length ∧ 0 ≠ leadGrp ∧ tabRises (((landing p).team 1).groupAt 0).g ∧
        tabRises (((landing p).team 1).groupAt 0).marks ∧ tabRises ((landing p).team 1).t) ∧
    (∀ p ∈ [result4 4, result4 8], (landing p).pends.find? (fun q => q.id = p.id) = some p ∧ (landing p).pendReady p = true ∧ p.pack = .words ∧
      (((landing p).team 1).thread 0 0).st ≠ .exited ∧ tabRises (((landing p).team 1).thread 0 0).c) ∧ (Pend_words (result4 8)).length = 8 ∧
    (let x : PipeW := { due := 0, ord := 0, who := .grp 0, grp := 0, lane := 0, cls := 1, no := 3, val := 9, tok := some 9 }
     let s := made 1 fun t => { t with pipe := [x, { x with cls := 2 }, { x with due := 1 }] }
     x ∈ (s.team 1).pipe ∧ x.due ≤ s.cycle (s.team 1).core ∧ (s.team? 1).isSome = true ∧
      (∀ y ∈ (s.team 1).pipe, y.due ≤ s.cycle (s.team 1).core → y.cls = x.cls → y.no = x.no → y = x) ∧ 0 < (s.team 1).groups.length ∧
      tabRises ((s.team 1).groupAt 0).g ∧ tabRises ((s.team 1).groupAt 0).marks ∧ tabRises (s.team 1).t) ∧
    (let f : Fence := ⟨6, 1, .grp 0, 5, [], 44, true⟩
     let s := { landing (result 1 3 none) with fences := [f] }
     s.fences.find? (fun q => q.id = f.id) = some f ∧ f.waits = [] ∧ ∃ p ∈ s.pends, p.id = f.pend) := by
  decide +kernel

def accessAt (sp : Space) (op : FOp) : Flight :=
  { id := 8, team := 1, who := .grp 0, grp := 0, lane := 0, source := 0, world := 0, launch := 1, core := 0, space := sp, n := 8, op := op,
    fill := 0, floor := 0, after := [], eng := none, acq := false, acqY := false, relY := false }
def access (op : FOp) : Flight := accessAt (.glob 0x7C) op
def movingAt (sp : Space) (op : FOp) : State := { landing (result 0 12 none) with flights := [accessAt sp op] }
def moving (op : FOp) : State := { landing (result 0 12 none) with flights := [access op] }
theorem witness_AccessesAct :
    (let s := moving (.load (.pend 5 0) 8 false)
     s.flights.find? (fun g => g.id = 8) = some (access (.load (.pend 5 0) 8 false)) ∧ s.mayAct (access (.load (.pend 5 0) 8 false)) = true) ∧
    (let s := moving (.store (leBytes 8 9))
     s.flights.find? (fun g => g.id = 8) = some (access (.store (leBytes 8 9))) ∧ s.mayAct (access (.store (leBytes 8 9))) = true ∧ tabRises s.lastW ∧
      linesOf 0x7C 8 = [0, 1]) ∧
    (∀ op ∈ [FOp.store (leBytes 8 9), .atomic .add .n64 [(.none, 1, 0)]], let s := movingAt (.scr 64) op
      s.flights.find? (fun g => g.id = 8) = some (accessAt (.scr 64) op) ∧ s.mayAct (accessAt (.scr 64) op) = true ∧ (s.team? 1).isSome = true ∧
      Memory.wf (s.team 1).scratch = true) ∧
    (let s := movingAt (.stk 0x240000) (.store (leBytes 8 9))
     s.mayAct (accessAt (.stk 0x240000) (.store (leBytes 8 9))) = true ∧ (∀ x ∈ (s.applyDue.core 0).stack, x.bytes.length = 32) ∧
      (Core_stackLines (s.applyDue.core 0)).length + 8 ≤ s.applyDue.l1Cap 0) ∧
    (∃ e, canonical 0x3FFFFFF = true ∧ aperOf 0x3FFFFFF = .glob ∧ (two.translate 0 0 ((0x3FFFFFF : Dword).toNat % 2 ^ 56)).1 = .ok e) :=
  ⟨by decide +kernel, by decide +kernel, by decide +kernel, by decide +kernel, ⟨0, 0, 26, 0, true, true, false, 0, 0, 0, 0⟩, by decide +kernel, by decide +kernel, by decide +kernel⟩

def storing (raw : Bool) (w : Nat) : HomeSt :=
  { id := 8, world := 0, team := 1, who := .grp 0, launch := 1, pa := 0x7C, n := 2, w := w, op := .store [1, 2], eng := none, raw := raw }
/-- One store is due, one is due a nanosecond later. -/
def stores : State := { two with homes := [storing false 0, { storing false 1 with id := 9 }] }
/-- A store to the host of a world whose TDI is locked. -/
def refusedStore : State := world0 (fun w => { w with tdi := .locked }) { two with homes := [{ storing false 0 with pa := hostBase }] }
theorem witness_RefusedStore : (∀ g ∈ refusedStore.homes, g.w ≤ refusedStore.gtc ∧ hostBase ≤ g.pa ∧ refusedStore.frozen g.world = true) ∧
    refusedStore.homes ≠ [] := by decide +kernel
theorem witness_StoresComplete : storing false 0 ∈ stores.homes ∧ (storing false 0).w ≤ stores.gtc ∧
    ({ storing false 1 with id := 9 } ∈ stores.homes ∧ stores.gtc < 1 ∧ ∀ k ∈ stores.homes, k.w ≤ stores.gtc → k.id ≠ 9) ∧
    (∀ g ∈ stores.homes, g.w ≤ stores.gtc → g = storing false 0) ∧ (storing false 0).n = [(1 : Byte), 2].length ∧ stores.MemOk ∧
    tabRises stores.seals ∧ stores.seals = [] ∧ stores.sealKey (some 0) = none ∧ (0x7C + 2 ≤ 0x7E ∧ 0x7B < 0x7C) := by
  unfold State.MemOk
  decide +kernel

/-- One escorted lane of group 0, and another. -/
def escLane (l : Nat) (st : EStat) (hold path : Hold) (dropped : Bool) : EscLane :=
  { grp := 0, lane := l, orig := [5, 6], esc := [7, 8], dest := [some 9], stat := st, hold := hold, path := path, dropped := dropped, drops := 1,
    retryAt := 0 }
def escReq (ls : List EscLane) : EscReq :=
  { id := 5, slot := 0, team := 1, who := .grp 0, core := 0, world := 0, launch := 1, ebase := 40, ecnt := 2, dreg := 12, dcnt := 1, charge := 1,
    on := some 0, depart := 0, pc := here, len := 12, word := 0, lanes := ls }
def escorting (ls : List EscLane) : State := { placed false with escs := [escReq ls], cores := [(0, { used := 1 })] }
/-- Slice 0 is full of another request. -/
def jammed : State :=
  let s := escorting [escLane 0 .out .port (.slice 0) false]
  { s with escs := s.escs ++ [{ escReq ((List.range 32).map fun l => escLane l .out (.slice 0) (.slice 0) false) with id := 6, ecnt := 2048 }] }
/-- A walk of lane 0 at a node of zeros at 0x4000: it counts, adds the payload and goes on, meets its key, or is unmapped. -/
def walkAt (node : Dword) (desc : Word) (esc : Option (Nat × Nat)) : Walk :=
  ⟨7, 1, .grp 0, 0, 0, 0, 1, 0, desc, node, node, 0, [7, 8], esc, 5, [], 0, [], here, 12, 0, 3⟩
def walking (w : Walk) : State :=
  { escorting [escLane 0 .out (.die 0) (.die 0) false] with walks := [w], mem := memWrite (placed false).mem 0x4000 (leBytes 8 0x5000) }
def hopIs (s : State) (w : Walk) (k : HopRes → Bool) : Bool := k ((s.hopState w).hopStep w).1
def isStop (r : HopRes) : Bool :=
  match r with
  | .stop _ => true
  | _ => false
def isGo (r : HopRes) : Bool :=
  match r with
  | .go _ _ => true
  | _ => false
def isFlt (r : HopRes) : Bool :=
  match r with
  | .flt _ => true
  | _ => false
def hopReady (s : State) (w : Walk) : Prop :=
  s.walks.find? (fun x => x.id = w.id) = some w ∧ s.walkHeld w = false ∧ s.walkAt w = .here ∧ 2 ≤ w.e.length
def remote1 (esc : Option (Nat × Nat)) : Remote := ⟨9, 1, .grp 0, 0, 0, 0, 1, 0, 5, false, 0x1000, 8, .load (.pend 5 0) 8 false, esc, 0, false, 0, [], here, 12, 0, 3⟩
def late (esc : Option (Nat × Nat)) : State :=
  { escorting [escLane 0 .out (.egress 0) (.egress 0) false, escLane 1 .out .port (.egress 0) false] with
    egress := [remote1 esc, { remote1 none with id := 10 }], gtc := 2000000 }
theorem slice_free (s : State) (r : EscReq) (h : Hold)
    (hd : s.holdUse h + sectorsFor (EscReq_at r h + 1) r.ecnt ≤ holdCapacity h + sectorsFor (EscReq_at r h) r.ecnt) : s.canHold r h := hd
theorem slice_full (s : State) (r : EscReq) (h : Hold)
    (hd : ¬ s.holdUse h + sectorsFor (EscReq_at r h + 1) r.ecnt ≤ holdCapacity h + sectorsFor (EscReq_at r h) r.ecnt) : ¬ s.canHold r h := hd
theorem witness_EscortEvents :
    (let l := escLane 0 .out .port (.slice 0) false
     let s := escorting [l]
     s.escLane? 5 0 = some (escReq [l], l) ∧ l.path ≠ l.hold ∧ s.nextHold l = some (.slice 0) ∧ s.canHold (escReq [l]) (.slice 0) ∧
      ((s.sendQueue (escReq [l]) l).head?.any fun q => q.1.id == 5 && laneKey (q.2.grp, q.2.lane) == 0) = true) ∧
    (let l := escLane 0 .out .port (.slice 0) false
     jammed.escLane? 5 0 = some (escReq [l], l) ∧ jammed.nextHold l = some (.slice 0) ∧ ¬ jammed.canHold (escReq [l]) (.slice 0) ∧
      ((jammed.sendQueue (escReq [l]) l).filter (·.2.dropped)).length < (jammed.die (holdDie 0 l.hold)).win) ∧
    (let l := escLane 0 .out .port (.slice 0) true
     let s := escorting [l]
     s.escLane? 5 0 = some (escReq [l], l) ∧ l.dropped = true ∧ l.retryAt ≤ s.gtc) ∧
    (let l := escLane 0 .replied (.slice 0) (.slice 0) false
     let s := escorting [l]
     s.escLane? 5 0 = some (escReq [l], l) ∧ s.resident 1 = true ∧ ((s.team 1).thread 0 0).st ≠ .exited ∧ ((s.team 1).thread 0 0).st ≠ .exiting ∧
      tabRises ((s.team 1).thread 0 0).v ∧ (∀ m ∈ (escReq [l]).lanes, m.due = false) ∧ (escReq [l]).early = [] ∧
      12 + l.dest.length ≤ 40 ∧ tabRises s.cores) ∧
    (let l := escLane 0 .out (.slice 0) (.slice 0) false
     l.stat = .out ∧ l.hold ≠ .port ∧ l.dest ≠ [] ∧ l.dest.all Option.isSome = true) ∧
    (let l := escLane 0 .faulted (.slice 0) (.slice 0) false
     let m := escLane 1 .out (.slice 0) (.slice 0) false
     let s := escorting [l, m]
     s.escLane? 5 0 = some (escReq [l, m], l) ∧ s.resident 1 = true ∧ ((s.team 1).thread 0 0).level ≠ .h ∧ m ∈ (escReq [l, m]).lanes ∧
      laneKey (m.grp, m.lane) ≠ 0 ∧ EStat_home m.stat = false) ∧
    (let l := escLane 0 .out (.slice 0) (.slice 0) false
     let s := { escorting [l] with gtc := 100000000 }
     s.escLane? 5 0 = some (escReq [l], l) ∧ EStat_home l.stat = false ∧ l.path = .slice 0 ∧ 0 + 1000 * (s.die (dieOf 0)).toLocal ≤ s.gtc ∧
      ∀ m ∈ (escReq [l]).lanes, m.stat ≠ .diverted ∧ m.stat ≠ .divPark) ∧
    (hopReady (walking (walkAt 0x4000 0 none)) (walkAt 0x4000 0 none) ∧ descLim 0 = 0) ∧
    (let w := walkAt 0x4000 0x02600000 none
     hopReady (walking w) w ∧ 0 < descLim w.desc ∧ hopIs (walking w) w isGo = true ∧ w.desc.getLsbD 21 = true ∧ w.desc.getLsbD 22 = true) ∧
    (let w := walkAt 0x4000 0x01000000 none
     hopReady (walking w) w ∧ hopIs (walking w) w isStop = true ∧ w.desc.getLsbD 21 = false) ∧
    (let w := walkAt 0x4001 0x01000000 (some (5, 0))
     hopReady (walking w) w ∧ hopIs (walking w) w isFlt = true) ∧
    (let w := walkAt 0x4000 0x01000000 (some (5, 0))
     let at_ (h p : Hold) : State := { walking w with escs := [escReq [escLane 0 .out h p false]] }
     (at_ (.die 7) (.die 7)).walkAt w = .gone ∧ (at_ (.slice 0) (.die 0)).walkAt w = .away) ∧
    (let s := late (some (5, 0))
     s.egress.find? (fun x => x.id = 9) = some (remote1 (some (5, 0))) ∧
      ((s.escLane? 5 0).any fun q => q.2.hold == .egress 0) = true ∧ 0 + 1000 * (s.die (dieOf 0)).toRemote ≤ s.gtc) ∧
    (let s := late none
     s.egress.find? (fun x => x.id = 9) = some (remote1 none) ∧ (∃ x ∈ s.egress, x.id ≠ 9 ∧ x.issue = 3 ∧ x.esc = none) ∧
      (s.team? 1).isSome = true ∧ ((s.team 1).thread 0 0).st ≠ .exited ∧ ((s.team 1).thread 0 0).level ≠ .h) := by
  unfold hopReady State.canHold
  refine ⟨?_, ?_, ?_, ?_, ?_, ?_, ?_, ?_, ?_, ?_, ?_, ?_, ?_, ?_⟩ <;> decide +kernel

/-! ### Engines, probes -/

def engine (k : EngKind) (pend : Option Nat) : Engine := ⟨6, 1, .grp 0, 1, 0, 0, k, pend, [0x1F0], [], 0, [], []⟩
def working (k : EngKind) : State := { landing (result 1 3 none) with engines := [engine k (some 5)] }
def write1 : EWrite := ⟨.glob 0xF800, .store [1, 2, 3, 4], 4⟩
def write2 : EWrite := ⟨.scr 64, .store [5, 6, 7, 8], 4⟩
def engineIsReady (k : EngKind) (ws : List EWrite) : Bool :=
  (working k).applyDue.engineFree (engine k (some 5)) (ws.map fun w => (w.space, w.n)) (readsOf k)
theorem ready_working (k : EngKind) (ws : List EWrite) (h : engineIsReady k ws = true) : EngineReady (working k) (engine k (some 5)) ws :=
  ⟨rfl, fun _ => (show ((placed false).team 1).place ≠ .saved ∧ ((placed false).team 1).place ≠ .restoring by decide +kernel), h⟩
def fetching : State := streaming 0 4 2
def plane (l : Nat) (b : Dword) : PLane := ⟨l, 0, l, 0, b, [1]⟩
def probe1 (i : Instr) (b : Dword) (passed : Bool) : Probe :=
  { id := 7, team := 1, who := .grp 0, launch := 1, world := 0, core := 0, instr := i, pc := here, len := 12, word := 0, lanes := [plane 0 b],
    pends := [5], req := none, floor := 0, after := [], lines := [], passed := passed }
def probing (p : Probe) : State := { landing (result 0 12 none) with probes := [p] }
def gath1 : Instr := .gath hx 0 0 2 12 (v 4) (.reg (v 6)) 0 ⟨0, 0⟩
def scat1 : Instr := .scat hx 0 0 2 (v 4) (.reg (v 6)) 12
theorem ready_probing (p : Probe) (hh : p.held = none) (h : (probing p).probeHeld p = false) : ProbeReady (probing p) p :=
  ⟨show [p].find? (fun x => decide (x.id = p.id)) = some p by simp, hh, h⟩
def passing (p : Probe) : List (PLane × List (Except Flt Acc)) := (((probing p).passState p).probeAll p).1
def hasFlt (r : List (PLane × List (Except Flt Acc))) : Bool := r.any fun y => y.2.any fun a => !a.isOk
def tileEng (w : Nat) : Engine := engine (.tile [3] 0xFF w) none

theorem witness_EngineEvents :
    (∀ i k, (i, k) ∈ [(Instr.acpCompletion 6, EngKind.acp [(.glob 0xF800, .glob 0x40)]), (.scatCompletion 6, .scat [write1, write2]),
        (.mstCompletion 6, .mst [] [write1])] →
      ∃ ws, engineOf i = some 6 ∧ (working k).writesOf i (engine k (some 5)) = some ws ∧ EngineReady (working k) (engine k (some 5)) ws) ∧
    (let s := working (.scat [write1, write2])
     (s.team? 1).isSome = true ∧ Memory.wf (s.team 1).scratch = true ∧ overlaps write2.space 4 write1.space 4 = false) ∧
    (let s := fetching
     let x := ((s.team 1).actor (actorOf 0)).stream 2
     s.resident 1 = true ∧ x.active = true ∧ ((s.team 1).threadAt (actorOf 0) 0).st ≠ .exited ∧ (x.buf.filter fun e => e.lane = 0).length < 16 ∧
      Stream_cursor x 0 + 0 < tabGet x.count 0 0 ∧ s.readNow 1 (actorOf 0) (0, 0) x 0 0 = true ∧ x.ind = false) ∧
    (let p := probe1 gath1 1 false
     ProbeReady (probing p) p ∧ hasFlt (passing p) = true ∧ ((probing p).team 1).thread 0 0 = { pc := here }) ∧
    (let p := probe1 gath1 0 false
     ProbeReady (probing p) p ∧ hasFlt (passing p) = false ∧ p.passed = false) ∧
    (let p := probe1 gath1 0 true
     ProbeReady (probing p) p ∧ hasFlt (passing p) = false ∧ p.passed = true ∧ isGather p.instr = true) ∧
    (let p := probe1 scat1 0 true
     ProbeReady (probing p) p ∧ hasFlt (passing p) = false ∧ p.passed = true ∧ isGather p.instr = false) ∧
    (let e := engine (.tile [3] 0xFF 0) none
     let s := working (.tile [3] 0xFF 0)
     let s1 : State := { s with engines := [e] }
     s1.engines.find? (fun x => x.id = e.id) = some e ∧ tabRises (s.team 1).tiles ∧ 3 ∈ [3] ∧ ((s.team 1).tile 3).cyc ≤ s.cycle 0 ∧
      (match exec (.matrixOpCompletion 6) s1 with
        | .next t => t.engines.isEmpty && t.probes.all fun x => decide (Probe_rows x 3 = 0)
        | _ => false) = true) ∧
    (let e := engine (.attn [3] 0xFF 0) (some 5)
     let s := working e.kind
     let s2 : State := { s with engines := { e with id := 2 } :: s.engines }
     s.engines.find? (fun x => x.id = e.id) = some e ∧ (∀ x ∈ s.engines, ¬ x.id < e.id) ∧ s2.engines.find? (fun x => x.id = e.id) = some e ∧
      ∃ x ∈ s2.engines, x.team = e.team ∧ x.id < e.id ∧ EngKind_rows x.kind 3 &&& 0xFF ≠ 0) ∧
    (let e := engine (.kvtrim [(0, 0x1230)] none) (some 5)
     (working e.kind).engines.find? (fun x => x.id = e.id) = some e ∧ e.floor ≤ (working e.kind).gtc ∧ tabRises (working e.kind).worlds ∧
      tabRises ((working e.kind).world 0).free ∧ tabRises (working e.kind).seals ∧ (working e.kind).MemOk) := by
  refine ⟨fun i k h => ?_, by decide +kernel, by decide +kernel,
    ⟨ready_probing _ rfl (by decide +kernel), by decide +kernel, by decide +kernel⟩, ⟨ready_probing _ rfl (by decide +kernel), by decide +kernel, rfl⟩,
    ⟨ready_probing _ rfl (by decide +kernel), by decide +kernel, rfl, rfl⟩, ⟨ready_probing _ rfl (by decide +kernel), by decide +kernel, rfl, rfl⟩,
    by decide +kernel, by decide +kernel, by unfold State.MemOk; decide +kernel⟩
  simp only [List.mem_cons, Prod.mk.injEq, List.not_mem_nil, or_false] at h
  rcases h with ⟨rfl, rfl⟩ | ⟨rfl, rfl⟩ | ⟨rfl, rfl⟩
  · exact ⟨_, rfl, rfl, ready_working _ _ (by decide +kernel)⟩
  · exact ⟨_, rfl, rfl, ready_working _ _ (by decide +kernel)⟩
  · exact ⟨_, rfl, rfl, ready_working _ _ (by decide +kernel)⟩

/-! ### Errors, fault queues, launches, the scheduler -/

def thresholded (n : Nat) : State := { two with dies := [(3, { errs := [(7, n)], thresh := 4 })] }
def inval9 : Inval := ⟨9, 0, 0, 2, some (1, .grp 0), some 9, 0⟩
/-- An invalidate that the issuer began, with a trim that waits for it. -/
def purging : State :=
  { invalidating with invals := [inval9], engines := [{ engine (.kvtrim [(0, 0x1230)] (some 9)) (some 5) with id := 10, lines := [] }] }
theorem witness_ErrorsAndInvalidates :
    (∃ l, two.launch? 1 = some l ∧ l.aborted = false ∧ l.refused = false ∧ tabRises two.worlds ∧ (two.teams.map (·.id)).Nodup) ∧
    (let s := thresholded 3
     let n := min (tabGet (s.die 3).errs 7 0 + 1) (2 ^ 64 - 1)
     (s.die 3).thresh ≠ 0 ∧ (s.die 3).thresh ≤ n - tabGet (s.die 3).errSig 7 0) ∧
    (let s := thresholded 2
     let n := min (tabGet (s.die 3).errs 7 0 + 1) (2 ^ 64 - 1)
     ¬ ((s.die 3).thresh ≠ 0 ∧ (s.die 3).thresh ≤ n - tabGet (s.die 3).errSig 7 0)) ∧
    (purging.invals.find? (fun x => x.id = inval9.id) = some inval9 ∧ purging.flights = [] ∧ purging.walks = [] ∧ purging.probes = [] ∧
      (∀ f ∈ purging.engines, f.world = inval9.world → 9 ≤ f.id) ∧ purging.homes = [] ∧ (purging.team? 1).isSome = true ∧
      9 ∈ ((purging.team 1).actor (.grp 0)).invs ∧ purging.gtc < 2 ^ 64 ∧ ∃ e ∈ purging.engines, e.kind = .kvtrim [(0, 0x1230)] (some 9)) ∧
    (let v : Inval := { inval9 with cut := none, start := purging.gtc }
     let s : State := { purging with invals := [v] }
     s.invals.find? (fun x => x.id = v.id) = some v ∧ v.cut = none ∧ v.start ≤ s.gtc ∧ s.gtc < { v with start := s.gtc + 1 }.start) :=
  ⟨⟨_, rfl, by decide +kernel, by decide +kernel, by decide +kernel, by decide +kernel⟩, by decide +kernel, by decide +kernel, by decide +kernel, by decide +kernel⟩

/-- A ring of 64 records at 0x40000 that holds all but one of them, with one record waiting. -/
def recording : State := world0 (fun w => { w with fqbase := 0x40000, fqsize := 6, fqtail := 63, held := [{ cls := 1, tag := 7 }] }) { two with gtc := two.gtc + 1 }
def parked7 : Park :=
  { tag := 7, world := 0, team := 1, who := .grp 0, lanes := [(0, 0), (0, 1)], cls := 1, fetch := false, trapCls := false, pc := here,
    len := 12, word := 0 }
def stuck (pl : Place) : State := { (made 3 (fun t => thr 0 (fun th => { th with st := .parked 7 }) { t with place := pl })) with parks := [parked7] }
def asking : State := { two with launches := two.launches.map fun l => { l with stage := .migrating [7] } }
theorem witness_FaultQueues :
    ((recording.world 0).held = [{ cls := 1, tag := 7 }] ∧ (recording.world 0).fqsize ≠ 0 ∧
      ((recording.world 0).fqtail - (recording.world 0).fqhead).toNat < 2 ^ (recording.world 0).fqsize ∧
      ({ cls := 1, tag := 7 } : FRec).gtc < recording.gtc ∧ recording.earlierFault 0 { cls := 1, tag := 7 } = false ∧ (recording.world 0).fqbase.toNat + 64 * 63 < hostBase ∧
      recording.quiet ((recording.world 0).fqbase.toNat + 64 * ((recording.world 0).fqtail.toNat % 2 ^ (recording.world 0).fqsize)) 64 = true ∧
      tabRises recording.seals ∧ recording.MemOk) ∧
    (RingOk (2 ^ 39 - 4096) 6 ∧ ¬ RingOk (2 ^ 39 - 4032) 6 ∧ RingOk 0 16 ∧ ¬ RingOk 0 17 ∧ RingOk 0 0 ∧ ¬ RingOk 0 5) ∧
    (((63 : Word) - 63).toNat ≤ 2 ^ 6 ∧ 2 ^ 6 < ((63 : Word) - 64).toNat) ∧
    (resumeIs (.skip 0 7) = some (0, 7, .skip) ∧ ((stuck .resident).parks.filter fun q => q.tag = 7) = [parked7] ∧ parked7.handler = none ∧
      (if parked7.cls = 6 then 0 else parked7.world) = 0 ∧ (stuck .resident).resident 1 = true ∧ (0, 0) ∈ parked7.lanes ∧
      ((stuck .resident).ct.thread 0 0).st = .parked 7) ∧
    (resumeIs (.kill 0 7) = some (0, 7, .kill)) ∧
    ((stuck .saved).team? 1 = some ((stuck .saved).team 1) ∧ ((stuck .saved).team 1).place ≠ .resident ∧ ((stuck .saved).team 1).place ≠ .admitting) ∧
    (two.parks = [] ∧ asking.parks = [] ∧ ∃ l ∈ asking.launches, l.stage = .migrating [7]) := by
  unfold RingOk State.MemOk
  refine ⟨?_, ?_, ?_, ?_, ?_, ?_, ?_⟩ <;> decide +kernel

/-- Queue 0 holds one record of the host, in mapped memory. -/
def hostRec : List Byte := leBytes 8 0x20000 ++ leBytes 4 0 ++ leBytes 4 (1 + 64) ++ leBytes 112 0
def ringed (owner : Nat) (en : Bool) : State :=
  { two with
    launches := [], teams := [], mem := memWrite two.mem 0x100000 hostRec,
    queues := [(0, { slots := 1, owner := owner, en := en, base := 0x100000, cbase := 0x180000, work := 0x200000, slotsz := 0x100000, tail := 1 })] }
/-- The value of LQCTL: one slot, world 64, 16 records, EN. -/
def ctl : Dword := 0x0001000808000001
def launch1 (st : LStage) (f : Launch → Launch) : State := { ringed 0 true with launches := [f { id := 1, q := 0, k := 0, world := 0, stage := st }] }
theorem isOkN {α : Type} (r : Except α Nat) (h : r.isOk = true) : ∃ pa, r = .ok pa := by
  cases r with
  | ok a => exact ⟨a, rfl⟩
  | error _ => cases h
/-- A header of the smallest kernel at 0x20000. -/
def hdrBytes : List Byte := leBytes 4 0x5A56485A ++ leBytes 2 1 ++ leBytes 2 0 ++ [4, 0, 16, 0, 0, 0, 0, 0] ++ leBytes 8 0 ++ leBytes 4 0 ++
  leBytes 4 64 ++ leBytes 4 64 ++ leBytes 28 0
def hdr1 : Header := { h := 4, codebytes := 64 }
def rec1 : LaunchRec := { hdr := 0x20000, args := List.replicate 16 0 }
def takes : State := { ringed 0 true with mem := memWrite (ringed 0 true).mem 0x20000 hdrBytes }
theorem rec_hostRec : RecordIs hostRec rec1 :=
  ⟨by decide +kernel, by decide +kernel, by decide +kernel, by decide +kernel, (fun _ _ h => nomatch h), (fun _ _ h => nomatch h), by decide +kernel⟩
theorem witness_RecordTaken : takes.canTake 0 = true ∧ takes.devAcc 0 0x100000 kRead = .ok 0x100000 ∧ takes.applyDue.phys (some 0) 0x100000 128 = hostRec ∧
    RecordIs hostRec rec1 ∧ takes.devAcc 0 rec1.hdr kRead = .ok 0x20000 ∧ parseHdr (takes.applyDue.phys (some 0) 0x20000 64) 1 = some hdr1 ∧
    slotBytes hdr1 1 false 0 ≤ (takes.queue 0).slotsz ∧ takes.coreSet 0 ≠ [] :=
  ⟨by decide +kernel, by decide +kernel, by decide +kernel, rec_hostRec, by decide +kernel, by decide +kernel, by decide +kernel, by decide +kernel⟩
/-- The queue's world is locked; the physical function names other values. -/
def lockedQueue : State := world0 (fun w => { w with tdi := .run }) (ringed 0 true)
theorem witness_LockedQueue : (lockedQueue.queue 0).slots ≠ 0 ∧ lockedQueue.lockedWorld 0 = true ∧ lockedQueue.queueTurn 0 512 = true ∧
    queueOf (lockedQueue.queue 0) ctl false ≠ { lockedQueue.queue 0 with en := false } ∧
    { lockedQueue with served := [(2 ^ 50, ⟨513, 0, false⟩)] }.queueTurn 0 512 = false := by decide +kernel
theorem witness_LaunchesTaken :
    (let s := ringed 5 true
     let x := s.queue 0
     s.queueTurn 0 (512 + 5) = true ∧ s.rdy = true ∧ x.slots ≠ 0 ∧ x.owner = 5 ∧ x.en = true ∧ x.devq = false ∧ ((16 : Word) - x.head).toNat ≤ 2 ^ x.size ∧
      ((16 : Word) - x.tail).toNat < 2 ^ 31 ∧ ¬ ((17 : Word) - x.head).toNat ≤ 2 ^ x.size) ∧
    (let s := ringed 0 false
     s.queueTurn 0 512 = true ∧ QueueLegal s 0 ctl ∧ ¬ QueueLegal s 0 0 ∧ s.lockedWorld 0 = false ∧ s.mayEnable (bitsOfW ctl 29 7) = true ∧ (s.queue 0).en = false ∧
      (s.queue 0).slots ≠ 0 ∧ s.mayEnable 0 = true) ∧
    ((ringed 0 true).queue 0).en = true ∧
    (∃ pa, (ringed 0 true).canTake 0 = true ∧ (ringed 0 true).devAcc 0 0x100000 kRead = .ok pa ∧
      (ringed 0 true).applyDue.owned none (linesOf 0x100000 128) = false) ∧
    (let s := launch1 .waiting fun l => { l with r := { waits := [(4095, 0)], ranges := [(0, 1), (0x8000000, 65536)] } }
     (s.launches.find? (fun y => y.q = 0 && y.stage = .waiting && !Launch_over y)).isSome = true ∧ s.rdy = true ∧ s.frozen 0 = false ∧
      s.mayEnable 0 = true ∧ (0 : Dword).toNat ≤ s.applyDue.eventCount 0 4095 ∧ s.applyDue.awayRange 0 (0, 1) = false) ∧
    (let s := { launch1 .waiting id with mem := [] }
     ¬ ((1 : Dword).toNat ≤ s.applyDue.eventCount 0 0)) ∧
    (let s := launch1 .running fun l => { l with placed := 1, ended := 1, r := { sig := some 4095 } }
     (s.launch? 1).isSome = true ∧ s.launchDone (s.launch 1) = true ∧ s.owned none (linesOf ((s.world 0).evbase.toNat + 16 * 4095) 16) = false ∧
      s.owned none (linesOf 0x180000 16) = false ∧ s.devAcc 0 0x180000 kWrite = .ok 0x180000) := by
  refine ⟨by decide +kernel, ⟨by decide +kernel, ⟨by decide +kernel, by decide +kernel, by decide +kernel, by decide +kernel, by decide +kernel⟩,
    fun h => absurd h.slots (by decide +kernel), by decide +kernel⟩, by decide +kernel,
    ⟨0x100000, by decide +kernel, by decide +kernel, by decide +kernel⟩, by decide +kernel, by decide +kernel, by decide +kernel⟩

/-- World 0 has cores 2 and 9 to 11; a launch of C teams waits for a place. -/
def placingOn (c : Nat) (rr : Nat) : State :=
  let s := launch1 .placing fun l => { l with hdr := slotHeader, r := { teams := 2, c := c, args := List.replicate 16 7 } }
  { world0 (fun w => { w with fcores := 0xE04 }) s with
    rrNext := rr, queues := [(0, { slots := 2, en := true, work := 0x200000, slotsz := 0x100000 })] }
/-- A saved team of world 0. -/
def savedTeam : State :=
  { world0 (fun w => { w with fcores := 0xE04 }) two with teams := two.teams.map fun t => { t with place := .saved } }
def sharing (n : Nat) : State := { two with rdy := true, holder := some 0, worlds := [(0, { fcores := 0 }), (1, { fcores := 2 ^ 255 })], sliceEnd := n }
def handed : State := { two with
  worlds := [(0, { root := 0 }), (3, { root := 0 })], teams := two.teams.map fun t => { t with place := .saved },
  launches := two.launches.map fun l => { l with world := 3 } }
theorem mayPlace (s : State) (w : Nat) (h : (s.holds w && !s.frozen w && s.mayEnable w) = true) : MayPlace s w := by
  simp only [Bool.and_eq_true, Bool.not_eq_true'] at h
  exact ⟨h.1.1, h.1.2, h.2⟩
theorem witness_SchedulerDecides :
    (let s := savedTeam
     s.rdy = true ∧ s.rrNext < 65 ∧ NoneBefore s s.rrNext 0 ∧ MayPlace s 0 ∧ s.team? 1 = some (s.team 1) ∧
      (s.savedOf 0).find? (fun y => (s.coreSet 0).any fun d => s.roomFor d (s.hdrOf y) (s.launchOf y).r.g) = some (s.team 1) ∧
      BestCore s 0 (s.hdrOf (s.team 1)) (s.launchOf (s.team 1)).r.g 2) ∧
    (let s := placingOn 1 64
     NoneBefore s s.rrNext 0 ∧ MayPlace s 0 ∧ s.launch? 1 = some (s.launch 1) ∧
      ((s.savedOf 0).all fun y => (s.coreSet 0).all fun d => !s.roomFor d (s.hdrOf y) (s.launchOf y).r.g) = true ∧
      (s.headsOf 0).head? = some (s.launch 1) ∧ 1 ≤ (freeSlots (s.queue 0) 1).length ∧ BestCore s 0 (s.launch 1).hdr 1 2) ∧
    (let s := placingOn 2 0
     (s.headsOf 0).head? = some (s.launch 1) ∧ 2 ≤ (freeSlots (s.queue 0) 2).length ∧ 1 < (s.launch 1).r.c ∧
      ClusterCores s 0 (s.launch 1).hdr 1 2 [9, 10]) ∧
    ((sharing 0).lockedWorld 0 = false ∧ (∃ w ∈ (sharing 0).worlds, w.1 ≠ 0 ∧ w.2.fcores.getLsbD 255 = true)) ∧
    (∀ w ∈ two.worlds, w.1 ≠ 0 → ∀ i < 256, w.2.fcores.getLsbD i = false) ∧ (∃ x ∈ two.teams, two.worldOf x = 0 ∧ x.place = .resident ∧ x.core < 256) ∧
    (let s := handed
     s.rdy = true ∧ s.holder = some 0 ∧ s.handing = none ∧ s.sliceEnd ≤ s.gtc ∧ NextHolder s 0 3 ∧ (s.world 0).fcores = 0) ∧
    ((∀ w < 65, (sharing 0).hasWork w = false) ∧ (sharing 0).sliceEnd ≤ (sharing 0).gtc) ∧
    (let l : FreeList := { base := 0xB000, cap := 1 }
     let s := world0 (fun w => { w with free := [(0, l)] }) two
     s.lockedWorld 0 = false ∧ World_list (s.world 0) (listKey 0 0) = l ∧ l.count < l.cap ∧ s.MemOk ∧ tabRises s.seals ∧
      (0x7FFFFF0 * 4096 + classUnits 0 * 4096 ≤ 2 ^ 39 ∧ 0x7FFFFF0 % 16 = 0 ∧ ¬ (0x7FFFFF8 % 16 = 0))) := by
  unfold BestCore ClusterCores NextHolder State.MemOk NoneBefore
  refine ⟨⟨by decide +kernel, by decide +kernel, ⟨0, by decide, by decide +kernel, fun j h => absurd h (Nat.not_lt_zero _)⟩,
      mayPlace _ _ (by decide +kernel), by decide +kernel, by decide +kernel, by decide +kernel⟩,
    ⟨⟨1, by decide, by decide +kernel, by decide +kernel⟩, mayPlace _ _ (by decide +kernel), by decide +kernel⟩,
    by decide +kernel, by decide +kernel, by decide +kernel, by decide +kernel, by decide +kernel, by decide +kernel, by decide +kernel⟩

def smallHdr : Header := {}
/-- The team at another place, with the smallest header, its core's banks free and its pages held by the TLB. -/
def moved (pl : Place) (m : List Host.Cell) : State :=
  let s := made 1 fun t => { t with place := pl, banks := [], saveArea := 0x300000, wslot := 1 }
  let e : TlbEnt := ⟨0, 0, 26, 0, true, true, false, 0, 0, 0, 0⟩
  { s with mem := m, cores := [(0, { free := List.range 16, tlb := [e] })], launches := s.launches.map fun l => { l with hdr := smallHdr } }
def areaOf : List Chunk := [⟨0, 0x300000, 14592⟩]
def head1 : List Host.Cell := memWrite [] 0x300000 (leBytes 4 0x5A435458)
/-- The check of a saved area whose opaque bytes are zero. -/
def check1 : Nat := ((moved .restoring []).ctxCheckOf ((moved .restoring []).team 1)
  (memBytes head1 0x300100 4096 ++ (memBytes head1 0x301600 4096 ++ []))).toNat
def head2 : List Host.Cell := memWrite head1 0x300030 (leBytes 16 check1)
def good : State := moved .restoring head2
theorem wf_head1 : Memory.wf head1 = true := by decide +kernel
theorem areas_good : good.applyDue.opaques (good.team 1) = [(256, 4096), (5632, 4096), (14464, 0)] := rfl
theorem area_good (off n : Nat) (h : off + n ≤ 14592) (hn : 0 < n) : good.applyDue.getArea 0 areaOf off n = memBytes head2 (0x300000 + off) n := by
  have h1 : (if max off 0 < min (off + n) (0 + 14592) then
      good.applyDue.phys (some 0) (0x300000 + (max off 0 - 0)) (min (off + n) (0 + 14592) - max off 0) else []) =
      memBytes head2 (0x300000 + off) n := by
    rw [if_pos (by omega), show max off 0 - 0 = off by omega, show min (off + n) (0 + 14592) - max off 0 = n by omega]; rfl
  show _ ++ [] = _
  rw [List.append_nil]; exact h1
theorem checked_good :
    let u := good.applyDue
    let head := u.getArea 0 areaOf 0 256
    getLe head 0 4 = 0x5A435458 ∧ getLe head 0x30 16 = (u.ctxCheckOf (good.team 1)
      ((u.opaques (good.team 1)).flatMap fun x => u.getArea 0 areaOf x.1 x.2)).toNat := by
  intro u head
  have hh : head = memBytes head2 0x300000 256 := area_good 0 256 (by decide) (by decide)
  have h2 : getLe head 0x30 16 = check1 := by
    show leNat ((head.drop 0x30).take 16) = _
    rw [hh, memBytes_part _ (by decide), show 0x300000 + 0x30 = 0x300030 from rfl, head2]
    have := memBytes_write head1 0x300030 (leBytes 16 check1) wf_head1
    rw [length_leBytes] at this
    rw [this, leNat_leBytes, Nat.mod_eq_of_lt (show check1 < 256 ^ 16 from BitVec.isLt _)]
  refine ⟨?_, h2.trans ?_⟩
  · show leNat ((head.drop 0).take 4) = _
    rw [hh, memBytes_part _ (by decide), head2, memBytes_write_other wf_head1 (.inl (by decide))]
    decide +kernel
  · have e1 : u.getArea 0 areaOf 256 4096 = memBytes head1 0x300100 4096 := by
      rw [show u.getArea 0 areaOf 256 4096 = memBytes head2 (0x300000 + 256) 4096 from area_good 256 4096 (by decide) (by decide), head2]
      exact memBytes_write_other wf_head1 (.inr (by rw [length_leBytes]; decide))
    have e2 : u.getArea 0 areaOf 5632 4096 = memBytes head1 0x301600 4096 := by
      rw [show u.getArea 0 areaOf 5632 4096 = memBytes head2 (0x300000 + 5632) 4096 from area_good 5632 4096 (by decide) (by decide), head2]
      exact memBytes_write_other wf_head1 (.inr (by rw [length_leBytes]; decide))
    have e3 : ((u.opaques (good.team 1)).flatMap fun x => u.getArea 0 areaOf x.1 x.2) =
        memBytes head1 0x300100 4096 ++ (memBytes head1 0x301600 4096 ++ []) := by
      rw [show u.opaques (good.team 1) = _ from areas_good]
      show u.getArea 0 areaOf 256 4096 ++ (u.getArea 0 areaOf 5632 4096 ++ (u.getArea 0 areaOf 14464 0 ++ [])) = _
      rw [e1, e2]; rfl
    rw [e3]; rfl
theorem admit_good (m : List Host.Cell) : (moved .restoring m).admitNow 0 ((moved .restoring m).team 1) =
    (moved .restoring []).admitNow 0 ((moved .restoring []).team 1) := rfl
def entGood : TlbEnt := ⟨0, 0, 26, 0, true, true, false, 0, 0, 0, 0⟩
theorem glob_good (m : List Host.Cell) : ((moved .restoring m).globAcc 0 0 0x300000 kRead false).1 = .ok ⟨.glob 0x300000, some entGood⟩ := by
  have h0 : ((moved .restoring m).core 0).tlb = [entGood] := rfl
  have h : tlbHit ((moved .restoring m).core 0).tlb 0 ((0x300000 : Dword).toNat % 2 ^ 56) = some entGood := by rw [h0]; decide +kernel
  have ht : (moved .restoring m).translate 0 0 ((0x300000 : Dword).toNat % 2 ^ 56) = (.ok entGood, moved .restoring m) := by
    unfold State.translate; rw [h]
  have hc : canonical (0x300000 : Dword) = true := by decide
  unfold State.globAcc
  rw [hc, ht]
  rfl
theorem chunks_good (m : List Host.Cell) : (moved .restoring m).chunks 0 0 0x300000 14592 kRead = some areaOf := by
  have hp : pageStarts (w64 0x300000) 14592 = [0x300000] := by decide +kernel
  unfold State.chunks
  rw [hp, List.foldl_cons, List.foldl_nil, glob_good]
  rfl
theorem world_good (m : List Host.Cell) : (moved .restoring m).worldOf ((moved .restoring m).team 1) = 0 := by
  have h : (moved .restoring m).launches = (moved .restoring []).launches := rfl
  have h2 : ((moved .restoring m).team 1).launch = 1 := rfl
  show (((moved .restoring m).launches.find? _).getD _).world = 0
  rw [h, h2]
  decide +kernel
theorem slot_good (m : List Host.Cell) : ((moved .restoring m).team 1).saveArea = 0x300000 := rfl
theorem map_good (m : List Host.Cell) : (moved .restoring m).mapOf ((moved .restoring m).team 1) = saveMap smallHdr 1 false := rfl
theorem fin_good : (saveMap smallHdr 1 false).fin = 14592 := by decide +kernel
theorem witness_ContextsMove :
    (two.team? 1 = some (two.team 1) ∧ (two.team 1).place = .resident) ∧
    (let s := made 1 fun t => { t with preempt := true }
     s.team? 1 = some (s.team 1) ∧ (s.team 1).place = .resident ∧ (s.team 1).preempt = true ∧ s.issueQ = [] ∧ s.probes = []) ∧
    (let s := moved (.stopped 5) []
     let tm := s.team 1
     s.team? 1 = some tm ∧ tm.place = .stopped 5 ∧ s.chunks tm.core (s.worldOf tm) (s.slotAddr tm) (s.mapOf tm).fin kWrite = some areaOf ∧
      s.saveWaits tm = true ∧ s.quietArea areaOf = true ∧ s.flushed 1 = true ∧ s.dirtyStack tm = []) ∧
    (good.team? 1 = some (good.team 1) ∧ (good.team 1).place = .restoring ∧ (good.team 1).core = 0 ∧ good.admitNow 0 (good.team 1) = true ∧
      good.chunks 0 0 0x300000 14592 kRead = some areaOf ∧ good.homes = [] ∧ (good.team 1).resumes = [] ∧ good.applyDue.escs = [] ∧
      (good.team 1).divT ≤ good.gtc) ∧
    (let s := moved .restoring []
     let tm := s.team 1
     tm.place = .restoring ∧ s.admitNow 0 tm = true ∧ tm.divT ≤ s.gtc ∧ s.gtc < { tm with divT := s.gtc + 1 }.divT ∧ s.chunks 0 (s.worldOf tm) tm.saveArea.toNat (s.mapOf tm).fin kRead = some areaOf ∧
      ¬ getLe (s.applyDue.getArea (s.worldOf tm) areaOf 0 256) 0 4 = 0x5A435458) :=
  ⟨by decide +kernel, by decide +kernel, by decide +kernel, ⟨rfl, rfl, rfl, (admit_good _).trans (by decide +kernel), chunks_good _, rfl, rfl, rfl, Nat.zero_le _⟩, by decide +kernel⟩

/-! ### Bring-up, trust, the host, handover, the fabric -/

def atStage (n : Nat) (fail : Bool) : State := { State.reset with powered := true, stage := n, fail := fail }
theorem witness_BringUpStages : State.reset.powered = false ∧ (State.reset.links.1 = true ∨ State.reset.links.2 = true) ∧
    (∀ n ∈ [1, 2, 3, 4, 5], (atStage n false).powered = true ∧ (atStage n false).fail = false ∧ (atStage n false).stage = n) ∧
    (stageEnd (.gtcStart true 0) = some (5, true, 0) ∧ stageEnd (.memoryZeroing false 31) = some (4, false, 31)) ∧
    ((atStage 2 true).fail = true ∧ (atStage 2 false).stage ≠ 1) ∧ (atStage 2 false).MemOk ∧ 2 ≤ (atStage 2 false).stage := by
  unfold State.MemOk
  decide +kernel

def session7 (ended : Bool) : Session := ⟨7, 1, true, ended, [1]⟩
def trusting (ended : Bool) (n : Nat) (st : Tdi) : State :=
  { two with sessions := List.replicate n (session7 ended), worlds := [(1, { tdi := st }), (64, { tdi := st })] }
theorem witness_SecurityRequests : (two.powered = true ∧ two.rdy = true ∧ spdmIs .challenge = some (5, none)) ∧
    ((atStage 2 false).powered = true ∧ (atStage 2 false).rdy = false ∧ spdmIs .getCapabilities = some (1, none) ∧ spdmIs .negotiateAlgorithms = some (2, none)) ∧
    (spdmIs (.heartbeat 7) = some (9, some 7) ∧ (trusting true 1 .unlocked).session? 7 = some (session7 true) ∧
      (trusting false 1 .unlocked).session? 7 = some (session7 false)) ∧
    (spdmIs (.finish 7) = some (8, some 7) ∧ { trusting false 1 .unlocked with sessions := [{ session7 false with finished := false }] }.session? 7 =
      some { session7 false with finished := false }) ∧
    (((trusting false 15 .unlocked).sessions.filter fun x => !x.ended).length < 16 ∧
      16 ≤ ((trusting false 16 .unlocked).sessions.filter fun x => !x.ended).length) ∧
    (OpenSession (trusting false 1 .unlocked) 7 (session7 false) ∧ ((trusting false 1 .unlocked).world 64).tdi = .unlocked ∧
      ((trusting false 1 .locked).world 1).tdi = .locked ∧ ((trusting false 1 .error).world 64).tdi = .error) := by
  refine ⟨by decide +kernel, by decide +kernel, by decide +kernel, by decide +kernel, by decide +kernel,
    ⟨by decide +kernel, by decide, by decide, by decide⟩, by decide +kernel, by decide +kernel, by decide +kernel⟩

/-- World 5 is unlocked and maps its first pages; world 6 is locked. -/
def hosting : State :=
  { two with worlds := [(5, { root := slotRoot, msiPend := 0 }), (6, { tdi := .run, root := slotRoot })], queues := [(1023, { en := true })] }
theorem witness_HostAccesses : hosting.powered = true ∧ (deviceRegOff 0x5800 = true ∧ deviceRegOff 0x10 = true ∧ deviceRegOff 0x53F8 = true) ∧
    (worldRegOff 0x4000 = true ∧ worldRegOff 0x50C8 = true ∧ hosting.lockedWorld 5 = false) ∧
    ((hosting.queue 1023).en = true ∧ (hosting.queue 0).en = false) ∧ (0x4000 ≤ 0x404F ∧ 0x404F < 0x4050 ∧ 0x50E7 < 0x50E8) ∧
    (0x5000 % 8 = 0 ∧ (hosting.world 6).tdi = .run) ∧
    (let m : BitVec 16 := 0x3FFF
     let free (x : Nat × World) (i : Nat) : Bool := decide (x.1 = 5) || !x.2.l2ways.getLsbD i
     (∀ x ∈ hosting.worlds, x.1 ≠ 5 → x.2.l2ways &&& m = 0) ∧
      2 ≤ ((List.range 16).filter fun i => !m.getLsbD i && hosting.worlds.all fun x => free x i).length ∧
      ¬ 2 ≤ ((List.range 16).filter fun i => !(0x7FFF : BitVec 16).getLsbD i && hosting.worlds.all fun x => free x i).length) ∧
    ((hosting.world 5).tdi = .unlocked ∧ ¬ ((hosting.world 6).tdi = .unlocked ∨ ((hosting.world 6).tdi = .run ∧ false = true)) ∧
      (hosting.world 5).bar2T ≤ hosting.gtc ∧ (4095 % 4096 + 1 ≤ 4096 ∧ 4095 + 1 ≤ 2 ^ 34)) ∧
    (hosting.applyDue.devAcc 5 ((hosting.world 5).hwin + 4095) kRead = .ok 4095 ∧ hosting.applyDue.owned none (linesOf 4095 1) = false ∧
      hosting.applyDue.mayServe (linesOf 4095 1) (512 + 5) hosting.applyDue.nextId false = true ∧
      hosting.devAcc 5 ((hosting.world 5).hwin + 4095) kWrite = .ok 4095 ∧ hosting.owned none (linesOf 4095 1) = false ∧
      hosting.mayServe (linesOf 4095 1) (512 + 5) hosting.nextId true = true) ∧
    (hosting.applyDue.devAcc 5 ((hosting.world 5).hwin + 0x4000000) kRead = .error 1 ∧
      hosting.devAcc 5 ((hosting.world 5).hwin + 0x4000000) kWrite = .error 1) := by
  refine ⟨?_, ?_, ?_, ?_, ?_, ?_, ?_, ?_, ?_, ?_⟩ <;> decide +kernel

def migrating (m : Mig) (mem : List Host.Cell) (e : Nat) : State :=
  { two with worlds := [(0, { mig := m, migbuf := 0x40000, miglen := 0, migEnd := e })], mem := mem }
def token (k : Nat) : List Byte := leBytes 32 (Config.migToken 0 0 k).toNat
theorem applyDue_migrating (m : Mig) (mem : List Host.Cell) (e : Nat) : (migrating m mem e).applyDue = migrating m mem e := rfl
theorem phys_migrating (m : Mig) (mem : List Host.Cell) (e a n : Nat) : (migrating m mem e).phys none a n = memBytes mem a n := rfl
theorem mig_migrating (m : Mig) (mem : List Host.Cell) (e : Nat) : ((migrating m mem e).world 0).mig = m := rfl
theorem token_length (k : Nat) : (token k).length = 32 := length_leBytes 32 _
theorem written_there (x : List Byte) (n a : Nat) (h : x.length = n) : memBytes (memWrite [] a x) a n = x := by
  rw [← h]; exact memBytes_write [] a x rfl
theorem token_there (m : Mig) (e k : Nat) :
    (migrating m (memWrite [] 0x40000 (token k)) e).applyDue.phys none 0x40000 32 = token k :=
  ((congrArg (fun s => State.phys s none 0x40000 32) (applyDue_migrating m _ e)).trans (phys_migrating m _ e _ _)).trans
    (written_there (token k) 32 0x40000 (token_length k))
theorem quiet_none (s : State) (a n m : Nat) (h : m = 0) (hq : s.quiet a 0 = true) : s.quiet a (min n m) = true := by
  rw [h, Nat.min_zero]; exact hq
theorem witness_Handover : (two.rdy = true) ∧
    (let s := migrating .idle [] 0
     (s.world 0).mig = .idle ∧ (s.world 0).migGo = false ∧ (∃ y ∈ s.teams, s.worldOf y = 0 ∧ y.place ≠ .saved ∧ y.place ≠ .restoring) ∧
      physExists (s.world 0).migbuf.toNat (s.world 0).miglen.toNat = true) ∧
    (let s := { migrating .idle [] 0 with teams := [] }
     s.quiet 0x40000 (min (Config.packageLen 0 s.nextId) (s.world 0).miglen.toNat) = true) ∧
    (physExists (2 ^ 39 - 1) (max 0 32) = false ∧ physExists 0x40000 (max 0 32) = true ∧ physExists 0x40000 32 = true) ∧
    (Config.packageOpens 0 [] = none ∨ ∃ no, Config.packageOpens 0 [] = some no) ∧
    (((migrating .sent (memWrite [] 0x40000 (token 0)) 1).world 0).mig = .sent ∧ (migrating .sent [] 1).gtc < 1 ∧
      (migrating .sent (memWrite [] 0x40000 (token 0)) 1).applyDue.phys none 0x40000 32 = token 0 ∧ (migrating .sent [] 1).quiet 0x40000 32 = true) ∧
    (((migrating .waitrel (memWrite [] 0x40000 (token 1)) 1).world 0).mig = .waitrel ∧
      (migrating .waitrel (memWrite [] 0x40000 (token 1)) 1).applyDue.phys none 0x40000 32 = token 1 ∧ 0 ≤ (migrating .waitrel [] 0).gtc) ∧
    ((migrating .lost [] 0).world 0).mig = .lost := by
  refine ⟨by decide +kernel, by decide +kernel, ?_, by decide +kernel, ?_, ⟨mig_migrating _ _ _, by decide +kernel, token_there _ _ _, by decide +kernel⟩,
    ⟨mig_migrating _ _ _, token_there _ _ _, Nat.zero_le _⟩, mig_migrating _ _ _⟩
  · exact quiet_none _ _ _ _ (by decide +kernel) (by decide +kernel)
  · cases Config.packageOpens 0 [] with
    | none => exact .inl rfl
    | some n => exact .inr ⟨n, rfl⟩

/-- Port 15 is up; requests of device 5 in any world act in world 0. -/
def fabric : State := { late none with
  ports := [(15, { up := true, sync := true, runs := [(7, 2)], cand := none })],
  fbind := [(255, BitVec.ofNat 64 (2 ^ 63 + 5 + 0x7F * 2 ^ 22))], temp := 1521, point := 0x1111 }
theorem witness_FabricAndPower :
    (fabric.rdy = true ∧ (fabric.port 15).up = true ∧ (fabric.port 15).sync = true ∧ fabBytes (fabOp 0 16) 16 = true) ∧
    (∀ e ∈ fabric.fbind, ¬ (e.2.getLsbD 63 = true ∧ bitsOfW e.2 0 13 = 6 ∧ (bitsOfW e.2 22 7 = 0 ∨ bitsOfW e.2 22 7 = 0x7F))) ∧
    (fabric.applyDue.ingress 6 0 0x1000 4 kRead = .error 0x0A) ∧
    (fabric.applyDue.ingress 5 127 0x1000 16 (FabOp_kind (fabOp 0 16)) = .ok (0, 0x1000) ∧ fabric.applyDue.owned none (linesOf 0x1000 16) = false ∧
      fabric.applyDue.mayServe (linesOf 0x1000 16) (1024 + 15) fabric.applyDue.nextId true = true) ∧
    (fabric.applyDue.ingress 5 0 0x1000 1 (FabOp_kind (fabOp 1 1)) = .ok (0, 0x1000) ∧ [(1 : Byte)].length = 1) ∧
    (fabric.applyDue.ingress 5 0 0x1000 8 (FabOp_kind (fabOp 2 8)) = .ok (0, 0x1000) ∧ fabOp 2 8 = .atomic .add .n64) ∧
    (fabric.egress.find? (fun x => x.id = 9) = some (remote1 none) ∧ fabric.remoteSent (remote1 none) = true ∧ (remote1 none).peer ≠ fabric.fabid ∧
      (leBytes 8 77).length = remoteBytes (remote1 none).op ∧ (remote1 none).floor ≤ (0 : Dword).toNat) ∧
    ((fabric.port 14).up = false ∧ fabric.powered = true ∧ fabric.gtcOn = true ∧ fabric.clocks = true) ∧
    (let p := fabric.port 15
     p.spared = 15 ∧ p.cand = none ∧ tabGet p.runs 7 0 = 2 ∧ p.cerate < 101 ∧ ¬ p.cerate < 100 ∧ 0x3FF < p.margin ∧ ¬ 0x400 < p.margin) ∧
    (let p : Port := { up := true, spared := 0, runs := [(7, 2)] }
     p.spared < 8 ∧ p.spared ≠ 15 ∧ tabGet p.runs 7 0 = 2) ∧
    (let s := { fabric with ports := [(15, { up := true, cand := some 7, candAt := 0, quiet := 2000 })] }
     (s.port 15).cand = some 7 ∧ (s.port 15).up = true ∧ (s.port 15).candAt + 1000 * (s.port 15).quiet ≤ s.gtc) ∧
    (95 * 16 < fabric.temp.toNat ∧ fabric.temp.toNat < 110 * 16 ∧ 110 * 16 ≤ { fabric with temp := 1760 }.temp.toNat) := by
  refine ⟨?_, ?_, ?_, ?_, ?_, ?_, ?_, ?_, ?_, ?_, ?_, ?_⟩ <;> decide +kernel

/-! ### The machine as a whole -/

theorem witness_PredicateSeven : (⟨1, 7, true⟩ : XHead).pg = 7 ∧ ({ due := 5, ord := 0, who := .grp 0, grp := 0, lane := 0, cls := 3, no := 7, val := 0 } : PipeW).cls = 3 ∧
    (result 3 7 none).cls = 3 ∧ (result 3 7 none).no = 7 := by decide +kernel
theorem witness_ArgumentsArrive : (∀ y ∈ (placingOn 1 64).teams, y.id < (placingOn 1 64).nextTeam) ∧
    (match exec .dispatchDecision (placingOn 1 64) with
      | .next t => t.teams.any fun x => decide ((placingOn 1 64).nextTeam ≤ x.id) && decide ((t.launch x.launch).r.args.length = 16)
      | _ => false) = true := by decide +kernel
theorem witness_DecodeEncode : ((Instr.ffma ⟨4, 2, true⟩ .f32 ⟨.rz, false⟩ (v 8) (v 4) (.reg (g 3)) (v 6)).wf = true ∧
      (Instr.ffma ⟨4, 2, true⟩ .f32 ⟨.rz, false⟩ (v 8) (v 4) (.reg (g 3)) (v 6)).encode ≠ []) ∧
    decodeWords [0x120C2848, 7] = .ok (.iadd 2 5 3 (.reg 9), 1) := by decide +kernel

def loaded (nbits w : Nat) : State := State.reset.withFetchWord nbits w
def isIssue (s : State) (t : Team) (a : Actor) (l : List (Path × Fetched)) : Bool :=
  match l with
  | [(p, .ok i _ _)] => !s.hazard t a p i
  | _ => false
theorem is_issue (s : State) (t : Team) (a : Actor) (l : List (Path × Fetched)) (h : isIssue s t a l = true) :
    ∃ p i len w, l = [(p, .ok i len w)] ∧ s.hazard t a p i = false := by
  unfold isIssue at h
  split at h
  · exact ⟨_, _, _, _, rfl, by simpa using h⟩
  · cases h
def iadd1 : Instr := .iadd 2 5 3 (.reg 9)
def push1 : Instr := .dqpush ⟨1, 7, false⟩ (.reg ⟨.t, 3⟩)
theorem witness_StepRunsDecoded :
    (let s := loaded 32 0x120C2848
     let t := s.team 1
     s.codeWords t here 1 = .ok [0x120C2848] ∧ s.codeWord t here = .ok (0x20040, ⟨0, 0, 26, 0, true, true, false, 0, 0, 0, 0⟩) ∧
      s.owned none (linesOf 0x20040 4) = false ∧ (s.region t .u).1 ≤ here.toNat ∧ here.toNat + 4 ≤ (s.region t .u).1 + (s.region t .u).2 ∧
      wordsOfLen (Raw.ofWord0 (s.wordAt t 0x20040)).len = 1 ∧ decodeWords [0x120C2848] = .ok (iadd1, 1) ∧ legalIn (s.hdrOf t) false iadd1 = true) ∧
    (decodeWords [0x6000165, 0x1001c00, 0x0] = .ok (push1, 3) ∧ legalIn slotHeader false push1 = false) ∧
    (let s := loaded 32 0x120C2848
     let t := s.team 1
     s.agenda = [.issue 0] ∧ s.clocks = true ∧ s.homes = [] ∧ s.issueQ = [] ∧ (s.core 0).lastCyc ≤ s.cycle 0 ∧ s.team? t.id = some t ∧
      s.residents 0 = [t] ∧ Team_actors t = [.grp 0] ∧ t.lead = none ∧ (t.actor (.grp 0)).sub < 4 ∧ (t.actor (.grp 0)).active = true ∧
      (t.actor (.grp 0)).notBefore ≤ s.cycle 0 ∧ isIssue s t (.grp 0) (picksOf (t.actor (.grp 0)).ages (s.pathsF t (.grp 0))) = true) ∧
    (let s := loaded 96 0x01001C0006000165
     let t := s.team 1
     t.lead.isSome = true ∧ (∀ b ∈ Team_actors t, (t.actor b).active = false ∨ s.pathsF t b = []) ∧
      isIssue s t .lead (picksOf (t.actor .lead).ages (s.pathsF t .lead)) = true) ∧
    (let s := { two with issueQ := [(issuer 3 12, iadd1)] }
     let u := { s with issueQ := [] }.applyDue
     let v : State := { u with cur := u.liveCtx (issuer 3 12) }
     (u.liveCtx (issuer 3 12)).mask ≠ 0 ∧ u.turnHeld (u.liveCtx (issuer 3 12)) iadd1 = false ∧ (u.liveCtx (issuer 0 12)).mask = 0 ∧
      v.mustWait iadd1 = false ∧ mayWait iadd1 = false) ∧
    (let i : Instr := .mldb hx .e4m3 false (v 4) 16
     Issuing two ∧ heldPorts i = [] ∧ two.active (heldHead i) ≠ [] ∧ mayWait i = true) := by
  refine ⟨?_, ?_, ?_, ?_, ?_, issuing_two, ?_⟩ <;> decide +kernel
/-- `MLDB` of group 0 stands issued, and may act. -/
def heldBack : Probe := two.heldProbe 7 (.mldb hx .e4m3 false (v 4) 16) (two.active hx)
def holding : State := { two with probes := [heldBack], nextId := 8 }
theorem witness_HeldRuns : holding.probes.find? (fun x => x.id = heldBack.id) = some heldBack ∧ heldBack.held.isSome = true ∧
    mayWait heldBack.instr = true ∧ holding.onGoing heldBack = true ∧ (heldBack.held.any fun h => holding.applyDue.heldFree heldBack h) = true ∧
    (heldBack.held.any fun h => match exec heldBack.instr
      ({ holding.applyDue with probes := holding.applyDue.probes.filter fun x => decide (x.id ≠ heldBack.id) }.installed heldBack h) with
      | .next _ => true
      | _ => false) = true := by
  refine ⟨?_, ?_, ?_, ?_, ?_, ?_⟩ <;> decide +kernel
/-- The facts of the third part of the witness above make its sole issuer. -/
theorem sole_grp (s : State) (n : Nat) (h : let t := s.team 1
    s.clocks = true ∧ s.homes = [] ∧ s.issueQ = [] ∧ (s.core 0).lastCyc ≤ s.cycle 0 ∧ s.team? t.id = some t ∧ s.residents 0 = [t] ∧
      Team_actors t = [.grp n] ∧ t.lead = none ∧ (t.actor (.grp n)).sub < 4 ∧ (t.actor (.grp n)).active = true ∧
      (t.actor (.grp n)).notBefore ≤ s.cycle 0) : SoleIssuer s 0 (s.team 1) (.grp n) := by
  obtain ⟨h1, h2, h3, h4, h5, h6, h7, h8, h9, h10, h11⟩ := h
  exact ⟨⟨h1, h2, h3, h4⟩, ⟨h5, h6⟩, .inl ⟨(fun h => nomatch h), h7, h8, h9, h10, h11⟩⟩
theorem sole_loaded : SoleIssuer (loaded 32 0x120C2848) 0 ((loaded 32 0x120C2848).team 1) (.grp 0) := sole_grp _ _ (by decide +kernel)
def isNext (o : Out) : Bool :=
  match o with
  | .next _ => true
  | _ => false
theorem is_next (o : Out) (h : isNext o = true) : ∃ t, o = .next t := by
  cases o with
  | next t => exact ⟨t, rfl⟩
  | fault _ => cases h
  | refused _ => cases h
/-- The loaded state is in the form that every step keeps, and its step issues. -/
theorem witness_MemoryKept : (loaded 32 0x120C2848).MemOk ∧ ∃ t, step (loaded 32 0x120C2848) = .next t := by
  unfold State.MemOk
  exact ⟨by decide +kernel, is_next _ (by decide +kernel)⟩
theorem witness_TablesKept : (loaded 32 0x120C2848).Tables ∧ ∃ t, step (loaded 32 0x120C2848) = .next t :=
  ⟨⟨by decide +kernel, by decide +kernel, by decide +kernel, by decide +kernel, by decide +kernel, by decide +kernel, by decide +kernel,
    by decide +kernel⟩, is_next _ (by decide +kernel)⟩

/-! ### Each check of well-formedness refuses something

Each pair differs in the one thing a check looks at; the first is well formed and the second is not. -/

def lit33 : Dword := 0x100000000
def oA : MOrd := ⟨true, false, .d⟩
def oR : MOrd := ⟨false, true, .d⟩
def fp0 : FpMod := ⟨.rn, false⟩
def cv0 : CvMod := ⟨false, false, false, .rn⟩
def e0 : EscSet := ⟨0, 0⟩
def f2 : Opd := ⟨.f, 2⟩
/-- Base words: literals, conditions, offsets, alignment (R49, R55, R67). -/
def illBase : List (Instr × Instr) := [
  (.movi 1 5 0xFFFFFFFF, .movi 1 5 lit33),
  (.iadd 1 5 3 (.lit 7), .iadd 1 5 3 (.lit lit33)),
  (.fadd 1 5 3 (.lit 7), .fadd 1 5 3 (.lit lit33)),
  (.shflIdx 1 5 3 (.lit 7), .shflIdx 1 5 3 (.lit lit33)),
  (.icmpI32 1 .ge 2 3 (.lit 7), .icmpI32 1 .num 2 3 (.lit 7)),
  (.icmpN32 1 .ge 2 3 (.lit 7), .icmpN32 1 .nan 2 3 (.lit 7)),
  (.bra 1 (.lit 8), .bra 1 (.lit 6)),
  (.call 1 6 (.lit 8), .call 1 6 (.lit 6)),
  (.call 1 6 (.lit 8), .call 1 7 (.lit 8)),
  (.ret 1 6, .ret 1 7),
  (.ld64 1 6 4 (.short 0), .ld64 1 5 4 (.short 0)),
  (.ld128 1 8 4 (.short 0), .ld128 1 6 4 (.short 0)),
  (.st32 1 5 4 (.short 0), .st32 1 5 3 (.short 0)),
  (.lea 1 6 4 (.reg 1), .lea 1 6 5 (.reg 1))]
/-- Types and literals of the integer rows, and the classes of operands (R51, R52, R65, R135). -/
def illInt : List (Instr × Instr) := [
  (.movExt hx .n64 (g 2) (v 4), .movExt hx .f32 (g 2) (v 4)),
  (.movExt hx .n64 (g 2) (v 4), .movExt hx .n64 (g 2) (v 3)),
  (.movExt hx .n32 (g 2) f2, .movExt hx .n32 f2 (g 2)),
  (.movExt hx .n32 (g 2) f2, .movExt hx .n64 (g 2) f2),
  (.moviExt hx .n64 (v 4) lit33, .moviExt hx .n32 (v 4) lit33),
  (.iaddExt hx .i64 true (v 4) (v 6) (.lit lit33), .iaddExt hx .i32 true (v 4) (v 6) (.lit lit33)),
  (.iabs hx .i32 false (v 4) (v 6), .iabs hx .n32 false (v 4) (v 6)),
  (.andExt hx .n32 (v 4) (v 6) (.lit 1), .andExt hx .i32 (v 4) (v 6) (.lit 1)),
  (.shlExt hx .n64 (v 4) (v 6) (.lit 1), .shlExt hx .n64 (v 4) (v 6) (.lit lit33)),
  (.sarExt hx .i32 (v 4) (v 6) (.lit 1), .sarExt hx .n32 (v 4) (v 6) (.lit 1)),
  (.bfi hx .n32 (v 4) (v 6) (.lit 1) (v 7), .bfi hx .i32 (v 4) (v 6) (.lit 1) (v 7)),
  (.popc hx .n64 (v 5) (v 6), .popc hx .n64 (v 6) (v 5)),
  (.leaExt hx .n64 2 (v 4) (v 6) (.reg (v 8)), .leaExt hx .n32 2 (v 4) (v 6) (.reg (v 8))),
  (.icmp hx .n32 .ge 1 (v 4) (.lit 7), .icmp hx .n32 .nan 1 (v 4) (.lit 7))]
/-- Formats, modifiers and operand b of the floating-point rows and conversions (R140, R142, R143). -/
def illFp : List (Instr × Instr) := [
  (.faddExt hx .b16 fp0 (v 4) (v 6) (.lit 1), .faddExt hx .e4m3 fp0 (v 4) (v 6) (.lit 1)),
  (.fdiv hx fp0 (v 4) (v 6) (.lit 1), .fdiv hx fp0 (v 4) (v 6) (.lit lit33)),
  (.fcmp hx .f16 .nan false 1 (v 4) (.lit 7), .fcmp hx .i32 .nan false 1 (v 4) (.lit 7)),
  (.fcvt hx .f16 .f32 cv0 (v 4) (v 6) none, .fcvt hx .f32 .f32 cv0 (v 4) (v 6) none),
  (.fcvt hx .f32 .f64 cv0 (v 4) (v 6) none, .fcvt hx .e4m3 .f64 cv0 (v 4) (v 6) none),
  (.fcvt hx .f32 .zb5 cv0 (v 4) (v 6) none, .fcvt hx .f16 .zb5 cv0 (v 4) (v 6) none),
  (.fcvt hx .f16 .f32 { cv0 with ftz := true } (v 4) (v 6) none, .fcvt hx .e4m3 .f32 { cv0 with ftz := true } (v 4) (v 6) none),
  (.fcvt hx .e5m2 .f32 { cv0 with sat := true } (v 4) (v 6) none, .fcvt hx .f16 .f32 { cv0 with sat := true } (v 4) (v 6) none),
  (.fcvt hx .f16 .f32 { cv0 with sr := true } (v 4) (v 6) none, .fcvt hx .f16 .f32 { cv0 with sr := true, rm := .rz } (v 4) (v 6) none),
  (.fcvt hx .f16 .f32 { cv0 with sr := true } (v 4) (v 6) none, .fcvt hx .f32 .f16 { cv0 with sr := true } (v 4) (v 6) none),
  (.fcvt hx .zb8 .f32 cv0 (v 4) (v 6) (some (.lit 3)), .fcvt hx .zb8 .f32 cv0 (v 4) (v 6) none),
  (.fcvt hx .f16 .f32 cv0 (v 4) (v 6) none, .fcvt hx .f16 .f32 cv0 (v 4) (v 6) (some (.lit 3))),
  (.ftoiExt hx .n64 .f32 .rn (v 4) (v 6), .ftoiExt hx .f32 .f32 .rn (v 4) (v 6)),
  (.itofExt hx .f32 .n64 fp0 (v 4) (v 6), .itofExt hx .f32 .f16 fp0 (v 4) (v 6))]
/-- Control, system and cross-lane rows (R146, R151, R152, R155, R160, R167). -/
def illCtl : List (Instr × Instr) := [
  (.braExt hx (.lit 8), .braExt hx (.lit 7)),
  (.callExt hx 6 (.short 1), .callExt hx 7 (.short 1)),
  (.brxExt hx (g 2), .brxExt hx ⟨.t, 2⟩),
  (.barArv hx 1 33, .barArv hx 1 34),
  (.barSync hx 1 33, .barSync hx 1 34),
  (.dqpush hx (.reg ⟨.t, 3⟩), .dqpush hx (.reg f2)),
  (.dqpushAll hx (.lit 1), .dqpushAll hx (.lit lit33)),
  (.mfsr hx 5 0x0D, .mfsr hx 5 0x0E),
  (.mfsr hx 6 0x0A, .mfsr hx 5 0x0A),
  (.shflIdxExt hx .i64 4 6 (v 4) (.lit 1), .shflIdxExt hx .i64 5 6 (v 4) (.lit 1)),
  (.shflIdxExt hx .i32 4 6 (v 4) (.lit 1), .shflIdxExt hx .n32 4 6 (v 4) (.lit 1)),
  (.shflIdxExt hx .i32 4 6 (v 4) (.lit 1), .shflIdxExt hx .i32 4 6 (g 4) (.lit 1)),
  (.qxchHExt hx .i64 6 4, .qxchHExt hx .n64 6 4),
  (.voteEq hx 4 1 2, .voteEq hx 7 1 2),
  (.matchX hx .i64 5 6, .matchX hx .f32 5 6),
  (.gscan hx .f32 .add false 0 5 6, .gscan hx .f32 .ixor false 0 5 6),
  (.gred hx .n64 .iand 0 6 4, .gred hx .i64 .iand 0 6 4)]
/-- Memory rows: orders, scopes, forms, escorts (R53, R56, R172, R173, R176, R180, R192). -/
def illMem : List (Instr × Instr) := [
  (.ld hx 0 oA (.raw .w32 false) (v 5) (v 4) .none, .ld hx 0 oR (.raw .w32 false) (v 5) (v 4) .none),
  (.ld hx 0 o0 (.raw .w32 false) (v 5) (v 4) .none, .ld hx 0 ⟨false, false, .d⟩ (.raw .w32 false) (v 5) (v 4) .none),
  (.ld hx 0 oA (.raw .w32 false) (v 5) (v 4) .none, .ld hx 0 ⟨true, false, .q⟩ (.raw .w32 false) (v 5) (v 4) .none),
  (.ld hx 0 o0 (.raw .w16 true) (v 5) (v 4) .none, .ld hx 0 o0 (.raw .w32 true) (v 5) (v 4) .none),
  (.ld hx 0 o0 (.raw .w128 false) (v 8) (v 4) .none, .ld hx 0 o0 (.raw .w128 false) (g 8) (v 4) .none),
  (.ld hx 0 o0 (.elems .x4 .f32) (v 8) (v 4) .none, .ld hx 0 o0 (.elems .x4 .f32) (v 6) (v 4) .none),
  (.ld hx 0 o0 (.elems .x4 .f16) (v 8) (v 4) .none, .ld hx 0 o0 (.elems .x4 .n32) (v 8) (v 4) .none),
  (.ld hx 0 o0 (.elems .x4 .f16) (v 8) (v 4) .none, .ld hx 0 o0 (.elems .x4 .f16) (g 8) (v 4) .none),
  (.st hx 0 oR (.raw .w32) (v 4) .none (v 5), .st hx 0 oA (.raw .w32) (v 4) .none (v 5)),
  (.st hx 0 o0 (.elems .x2 .f16 .rn true) (v 4) .none (v 5), .st hx 0 o0 (.elems .x2 .f16 .rz true) (v 4) .none (v 5)),
  (.ldC hx 0 ⟨true, false, .y⟩ .w32 false 1 (v 5) (v 4) none, .ldC hx 0 oA .w32 false 1 (v 5) (v 4) none),
  (.stC hx 0 ⟨false, true, .y⟩ .w32 1 (v 4) none (v 5), .stC hx 0 oR .w32 1 (v 4) none (v 5)),
  (.lde hx 0 o0 .w32 5 (v 4) .none 1 ⟨40, 8⟩, .lde hx 0 o0 .w16 5 (v 4) .none 1 ⟨40, 8⟩),
  (.lde hx 0 o0 .w32 5 (v 4) .none 1 ⟨40, 8⟩, .lde hx 0 o0 .w32 5 (v 4) .none 1 ⟨40, 9⟩),
  (.lde hx 0 o0 .w32 39 (v 4) .none 1 ⟨40, 8⟩, .lde hx 0 o0 .w32 40 (v 4) .none 1 ⟨40, 8⟩),
  (.lde hx 0 o0 .w32 5 (v 4) .none 0 e0, .lde hx 0 o0 .w32 5 (v 4) .none 1 e0),
  (.lde hx 0 o0 .w32 5 (v 4) .none 0 e0, .lde hx 0 o0 .w32 5 (v 4) .none 0 ⟨40, 0⟩),
  (.atom hx 0 o0 .add .i32 5 (v 4) (.lit 1) (v 0) 0 e0, .atom hx 0 o0 .add .i32 5 (v 4) (.lit 1) (v 1) 0 e0),
  (.atom hx 0 o0 .cas .n32 5 (v 4) (.lit 1) (v 1) 0 e0, .atom hx 0 o0 .cas .i32 5 (v 4) (.lit 1) (v 1) 0 e0),
  (.atom hx 0 o0 .fadd .f32 5 (v 4) (.lit 1) (v 0) 0 e0, .atom hx 0 o0 .fadd .f16 5 (v 4) (.lit 1) (v 0) 0 e0),
  (.red hx 0 o0 .ixor .n32 (v 4) (.lit 1), .red hx 0 o0 .exch .n32 (v 4) (.lit 1)),
  (.redC hx 0 o0 .ixor .n32 1 (v 4) (.lit 1), .redC hx 0 o0 .cas .n32 1 (v 4) (.lit 1)),
  (.atomC hx 0 ⟨true, true, .y⟩ .add .i32 1 5 (v 4) (.lit 1) (v 0) 0 e0, .atomC hx 0 ⟨true, true, .c⟩ .add .i32 1 5 (v 4) (.lit 1) (v 0) 0 e0),
  (.chs hx 0 6 (v 4) (.lit 1) 1 ⟨40, 2⟩, .chs hx 0 6 (v 4) (.lit 1) 1 ⟨40, 1⟩),
  (.fnc hx 0 .g (g 3), .fnc hx 0 .q (g 3)),
  (.fnc hx 0 .g (g 3), .fnc hx 0 .g ⟨.t, 3⟩),
  (.sraff hx 0 1 0 false (v 4) (.lit 4) (v 6), .sraff hx 0 1 0 false (v 4) (.lit lit33) (v 6)),
  (.gath hx 0 3 2 12 (v 4) (.reg (v 6)) 1 ⟨40, 2⟩, .gath hx 0 3 2 38 (v 4) (.reg (v 6)) 1 ⟨40, 2⟩),
  (.scatAdd hx 0 .n32 0 2 (v 4) (.reg (v 6)) 12, .scatAdd hx 0 .i32 0 2 (v 4) (.reg (v 6)) 12)]
/-- Capability, privileged, scheduling, matrix and attention rows (R211, R233, R235, R253, R267, R292, R328). -/
def illLate : List (Instr × Instr) := [
  (.capld hx 1 (v 4) none, .capld hx 1 ⟨.t, 4⟩ none),
  (.csrr hx 6 0x55, .csrr hx 6 0x56),
  (.csrw hx 0x10 (v 4), .csrw hx 0x0F (v 4)),
  (.eret hx .retry, .eret ⟨1, 3, false⟩ .retry),
  (.eret hx .retry, .eret hn .retry),
  (.capmk hx 1 (v 4), .capmk hx 1 (v 6)),
  (.capmkRec hx (v 4) (v 8) 64, .capmkRec hx (v 4) (v 8) 65),
  (.launch hx (g 3) (g 4) 0, .launch hx ⟨.t, 3⟩ (g 4) 0),
  (.evsig hx (.lit 4), .evsig hx (.lit lit33)),
  (.evwait hx (g 4) (.lit 1), .evwait hx f2 (.lit 1)),
  (.mldb hx .f16 false (g 4) 64, .mldb hx .f32 false (g 4) 64),
  (.mgata hx .zb3 (g 4) (.reg (v 6)) 64, .mgata hx .zb3 (g 4) (.reg (g 6)) 64),
  (.mms hx 3 (g 4) (g 8) (g 1), .mms hx 3 (g 4) (v 8) (g 1)),
  (.mms hx 3 (g 4) (g 8) (g 1), .mms hx 3 (g 4) (g 6) (g 1)),
  (.mst hx .f32 ⟨true, false, false, .rn⟩ (g 3) (g 4) 1 64, .mst hx .f32 ⟨true, false, false, .rz⟩ (g 3) (g 4) 1 64),
  (.mst hx .e4m3 ⟨false, true, false, .rn⟩ (g 3) (g 4) 1 64, .mst hx .f16 ⟨false, true, false, .rn⟩ (g 3) (g 4) 1 64),
  (.tcut hx (g 8) (g 4) 64 0, .tcut hx (g 8) (g 4) 63 0),
  (.tcut hx (g 8) (g 4) 256 2, .tcut hx (g 8) (g 4) 257 2),
  (.tcut hx (g 8) (g 4) 256 2, .tcut hx (g 8) (g 4) 256 3),
  (.tcut hx (g 8) (g 4) 256 2, .tcut hx (g 6) (g 4) 256 2),
  (.kvqry hx (v 5) (v 4) 5, .kvqry hx (v 5) (v 4) 6)]
def refusesOnly (x : Instr × Instr) : Bool := x.1.wf && !x.2.wf
theorem test_ill_formed_base : illBase.all refusesOnly = true := by decide +kernel
theorem test_ill_formed_integer : illInt.all refusesOnly = true := by decide +kernel
theorem test_ill_formed_float : illFp.all refusesOnly = true := by decide +kernel
theorem test_ill_formed_control : illCtl.all refusesOnly = true := by decide +kernel
theorem test_ill_formed_memory : illMem.all refusesOnly = true := by decide +kernel
theorem test_ill_formed_late : illLate.all refusesOnly = true := by decide +kernel

/-- What the header and the issuer forbid (R22, R29, R51, R55, R56, R61): the second of each pair, under
this header and for this issuer. -/
def illHere : List (Bool × Instr × Instr) := [
  (false, .mov 1 5 6, .mov 1 40 6),
  (false, .ld64 1 30 4 (.short 0), .ld128 1 28 4 (.short 0)),
  (false, .ld64 1 34 4 (.short 0), .ld64 1 36 4 (.short 0)),
  (false, .iaddExt hx .i32 false (g 7) (v 3) (.lit 1), .iaddExt hx .i32 false (g 8) (v 3) (.lit 1)),
  (false, .movExt hx .i32 (v 3) ⟨.t, 3⟩, .movExt hx .i32 (v 3) ⟨.t, 4⟩),
  (false, .movExt hx .i32 (v 3) ⟨.f, 1⟩, .movExt hx .i32 (v 3) f2),
  (false, .mzero hx 1, .mzero hx 2),
  (false, .rcvSet hx 1, .rcvSet hx 2),
  (false, .srstop hx 0 1, .srstop hx 0 2),
  (false, .lde hx 0 o0 .w32 5 (v 4) .none 1 ⟨32, 4⟩, .lde hx 0 o0 .w32 5 (v 4) .none 1 ⟨29, 4⟩),
  (false, .dqpop hx 3 1, .dqpush hx (.lit 1)),
  (false, .evsig hx (.reg (g 3)), .evsig hx (.reg (v 3))),
  (true, .dqpush hx (.lit 1), .dqpop hx 3 1),
  (true, .evsig hx (.reg (v 3)), .evsig hx (.reg (g 3))),
  (true, .mov 1 63 6, .mov 1 64 6),
  (true, .nopExt hx, .nopExt ⟨1, 3, false⟩),
  (true, .mfsr hx 5 0x0D, .mfsr hx 5 0x0C),
  (true, .atom hx 0 o0 .add .i32 5 (v 4) (.lit 1) (v 0) 0 e0, .atom hx 0 o0 .add .i32 5 (v 4) (.lit 1) (v 0) 1 ⟨40, 2⟩),
  (true, .mzero hx 1, .mmq hx 1 false)]
def hdrSmall : Header := { ({} : Header) with h := 30, e := 6, gcount := 8, tregs := 4, streams := 2, acc := 2, d := 2 }
def forbidsOnly (x : Bool × Instr × Instr) : Bool :=
  legalIn hdrSmall x.1 x.2.1 && x.2.2.wf && !legalIn hdrSmall x.1 x.2.2
theorem test_illegal_here : illHere.all forbidsOnly = true := by decide +kernel

/-! ### What single instructions write

Lane 0 issues, with a in its v3 (and v2) and b in its v9; the values written are those of the section named. -/

def given (a b : Word) : State := made 1 (thr 0 fun th => ((th.setV 3 a).setV 9 b).setV 2 0)
def wrote (i : Instr) (a b : Word) : List Word :=
  match exec i (given a b) with
  | .next t => (t.team 1).pipe.map fun w => w.val
  | _ => []
def gives (x : Instr × Word × Word × List Word) : Bool := wrote x.1 x.2.1 x.2.2.1 == x.2.2.2
def cvt (dt : Ty) (m : CvMod) : Instr := .fcvt hx dt .f32 m (v 5) (v 3) none
/-- The corner cases that the notes on number formats tabulate, in their order. -/
def cornerCases : List (Instr × Word × Word × List Word) := [
  (cvt .e4m3 cv0, 0x43E80000, 0, [0x7E]),
  (cvt .e4m3 cv0, 0x43EB0000, 0, [0x7F]),
  (cvt .e4m3 { cv0 with rm := .rz }, 0x43EB0000, 0, [0x7E]),
  (cvt .e4m3 { cv0 with rm := .ru }, 0x43EB0000, 0, [0x7F]),
  (cvt .e4m3 { cv0 with sat := true }, 0x43EB0000, 0, [0x7E]),
  (cvt .e5m2 cv0, 0x476A6000, 0, [0x7B]),
  (cvt .e5m2 cv0, 0x47723000, 0, [0x7C]),
  (cvt .e5m2 { cv0 with sat := true }, 0x47723000, 0, [0x7B]),
  (cvt .e4m3 cv0, 0xFF800000, 0, [0x7F]),
  (cvt .e4m3 { cv0 with sat := true }, 0xFF800000, 0, [0xFE]),
  (.ftoiExt hx .i32 .f32 .rn (v 5) (v 3), 0x4F32D05E, 0, [0x7FFFFFFF]),
  (.ftoiExt hx .i32 .f32 .rn (v 5) (v 3), 0x7FC00000, 0, [0]),
  (.ftoiExt hx .i32 .f32 .rn (v 5) (v 3), 0xC0200000, 0, [0xFFFFFFFE]),
  (.ftoiExt hx .i32 .f32 .rd (v 5) (v 3), 0xC0200000, 0, [0xFFFFFFFD])]
theorem test_conversion_corners : cornerCases.all gives = true := by decide +kernel
/-- Cases that R136 to R139 state or that follow from R135 by hand. -/
def integerCases : List (Instr × Word × Word × List Word) := [
  (.iadd 2 5 3 (.reg 9), 0xFFFFFFFF, 2, [1]),
  (.iaddExt hx .i32 true (v 5) (v 3) (.reg (v 9)), 0x7FFFFFFF, 1, [0x7FFFFFFF]),
  (.isubExt hx .n32 true (v 5) (v 3) (.reg (v 9)), 1, 2, [0]),
  (.ineg hx .n32 true (v 5) (v 3), 7, 0, [0]),
  (.imulhExt hx .i32 (v 5) (v 3) (.reg (v 9)), 0xFFFFFFFF, 1, [0xFFFFFFFF]),
  (.imulhExt hx .n32 (v 5) (v 3) (.reg (v 9)), 0xFFFFFFFF, 0xFFFFFFFF, [0xFFFFFFFE]),
  (.shl 2 5 3 (.reg 9), 1, 32, [0]),
  (.sar 2 5 3 (.reg 9), 0x80000000, 40, [0xFFFFFFFF]),
  (.bfx hx .n32 (v 5) (v 3) (.lit 0x0804), 0x12345678, 0, [0x67]),
  (.bfx hx .i32 (v 5) (v 3) (.lit 0x0404), 0x00000080, 0, [0xFFFFFFF8]),
  (.clz hx .n32 (v 5) (v 3), 1, 0, [31]),
  (.brev hx .n32 (v 5) (v 3), 1, 0, [0x80000000]),
  (.leaExt hx .i64 2 (v 6) (v 2) (.reg (v 9)), 0, 0xFFFFFFFF, [0xFFFFFFFC, 0xFFFFFFFF]),
  (.icmpI32 2 .lt 3 3 (.reg 9), 0xFFFFFFFF, 1, [1]),
  (.icmpN32 2 .lt 3 3 (.reg 9), 0xFFFFFFFF, 1, [0])]
theorem test_integer_values : integerCases.all gives = true := by decide +kernel
/-- IEEE 754 results in the formats of R77: sums and products that are exact, a tie, an overflow, NaN. -/
def floatCases : List (Instr × Word × Word × List Word) := [
  (.fadd 4 5 3 (.reg 9), 0x3F800000, 0x40000000, [0x40400000]),
  (.fadd 4 5 3 (.reg 9), 0x4B800000, 0x3F800000, [0x4B800000]),
  (.fsubExt hx .f32 ⟨.rd, false⟩ (v 5) (v 3) (.reg (v 9)), 0x3F800000, 0x3F800000, [0x80000000]),
  (.fmul 4 5 3 (.reg 9), 0x7F000000, 0x40000000, [0x7F800000]),
  (.fmulExt hx .f32 ⟨.rn, true⟩ (v 5) (v 3) (.reg (v 9)), 0x00000001, 0x3F800000, [0]),
  (.fcvtF16F32 4 5 3, 0x477FF000, 0, [0x7C00]),
  (.fcvtF32F16 4 5 3, 0x3C00, 0, [0x3F800000]),
  (.fcmpF32 4 .nan 1 3 (.reg 9), 0x7FC00000, 0, [1]),
  (.fcmpF32 4 .lt 1 3 (.reg 9), 0x7FC00000, 0, [0])]
theorem test_float_values : floatCases.all gives = true := by decide +kernel

end Sys2Proof.Tests
end

section
namespace Sys2Proof.Machine

/-! ### Teams by their threads -/

/-- A team after an update of its threads: it stands where it stood, with the same threads, each related to what it was. -/
structure TeamAfter (R : Thread → Thread → Prop) (a b : Team) : Prop where
  id : b.id = a.id
  launch : b.launch = a.launch
  core : b.core = a.core
  place : b.place = a.place
  has : ∀ g l, Team_hasThread b g l ↔ Team_hasThread a g l
  thread : ∀ g l, Team_hasThread a g l → R (a.thread g l) (b.thread g l)

theorem TeamAfter.refl {R : Thread → Thread → Prop} (hr : ∀ th, R th th) (t : Team) : TeamAfter R t t :=
  ⟨rfl, rfl, rfl, rfl, fun _ _ => Iff.rfl, fun _ _ _ => hr _⟩

theorem TeamAfter.trans {R : Thread → Thread → Prop} (ht : ∀ x y z, R x y → R y z → R x z) {a b c : Team} (h : TeamAfter R a b)
    (k : TeamAfter R b c) : TeamAfter R a c :=
  ⟨k.id.trans h.id, k.launch.trans h.launch, k.core.trans h.core, k.place.trans h.place, fun g l => (k.has g l).trans (h.has g l),
    fun g l hh => ht _ _ _ (h.thread g l hh) (k.thread g l ((h.has g l).mpr hh))⟩

theorem TeamAfter.mono {R Q : Thread → Thread → Prop} (hRQ : ∀ x y, R x y → Q x y) {a b : Team} (h : TeamAfter R a b) : TeamAfter Q a b :=
  ⟨h.id, h.launch, h.core, h.place, h.has, fun g l hh => hRQ _ _ (h.thread g l hh)⟩

theorem Team.mem_threads {t : Team} {g : Nat} {th : Thread} : th ∈ (t.groupAt g).threads ↔ ∃ l, Team_hasThread t g l ∧ t.thread g l = th := by
  constructor
  · intro h
    obtain ⟨l, hl, rfl⟩ := List.mem_iff_getElem.mp h
    refine ⟨l, ⟨?_, hl⟩, by simp [Team.thread, List.getD, hl]⟩
    by_contra hg
    have : t.groupAt g = {} := by
      simp only [Team_hasGroup, not_or, not_and] at hg
      unfold Team.groupAt
      split
      · rename_i e; simpa [Option.isSome_iff_ne_none] using congrArg (·.getD {}) (Option.not_isSome_iff_eq_none.mp (hg.1 e))
      · rename_i e; simp [List.getD, List.getElem?_eq_none (Nat.le_of_not_lt (hg.2 e))]
    simp [this] at hl
  · rintro ⟨l, ⟨_, hl⟩, rfl⟩
    simp [Team.thread, List.getD, hl]

theorem Team.thread_of_getElem? {t : Team} {g l : Nat} {th : Thread} (h : (t.groupAt g).threads[l]? = some th) :
    Team_hasThread t g l ∧ t.thread g l = th := by
  obtain ⟨hl, hth⟩ := List.getElem?_eq_some_iff.mp h
  obtain ⟨l', ⟨hg, _⟩, _⟩ := Team.mem_threads.mp (List.getElem_mem hl)
  exact ⟨⟨hg, hl⟩, by simp [Team.thread, List.getD, hl, hth]⟩

/-- A team has no live part when every thread of it is exited (R8, R35). -/
theorem Team.live_nil_iff {t : Team} : t.live = [] ↔ ∀ g l, Team_hasThread t g l → (t.thread g l).st = .exited := by
  have hex : ∀ g, (t.groupAt g).exited = true ↔ ∀ l, Team_hasThread t g l → (t.thread g l).st = .exited := by
    intro g
    simp only [Group.exited, List.all_eq_true, Thread.gone, decide_eq_true_eq]
    exact ⟨fun h l hl => h _ (Team.mem_threads.mpr ⟨l, hl, rfl⟩),
      fun h th hth => by obtain ⟨l, hl, rfl⟩ := Team.mem_threads.mp hth; exact h l hl⟩
  have hlive : t.live = [] ↔ (∀ g ∈ t.allGroups, (t.groupAt g).exited = true) ∧ (t.groupAt leadGrp).exited = true := by
    unfold Team.live
    rw [List.append_eq_nil_iff, List.filter_eq_nil_iff]
    refine and_congr (by simp) ?_
    cases hl : t.lead <;> simp [Team.groupAt, hl, Group.exited]
  rw [hlive]
  constructor
  · rintro ⟨h1, h2⟩ g l hh
    rcases hh.1 with ⟨rfl, _⟩ | ⟨_, hg⟩
    · exact (hex _).mp h2 l hh
    · exact (hex g).mp (h1 g (by simpa [Team.allGroups] using hg)) l hh
  · intro h
    exact ⟨fun g _ => (hex g).mpr (h g), (hex _).mpr (h _)⟩

/-- An update of one group thread by thread. -/
theorem TeamAfter.modGroupAt {R : Thread → Thread → Prop} (hr : ∀ th, R th th) (t : Team) (g : Nat) {f : Group → Group} {k : Thread → Thread}
    (hf : (f (t.groupAt g)).threads = (t.groupAt g).threads.map k) (hk : ∀ th, R th (k th)) : TeamAfter R t (t.modGroupAt g f) := by
  refine ⟨by simp, by simp, by simp, by simp, Team.hasThread_modGroupAt t g (by simp [hf]), fun g' l hh => ?_⟩
  unfold Team.thread
  by_cases hg : g' = g
  · subst hg
    rw [Team.groupAt_modGroupAt hh.1, hf]
    simpa [List.getD, hh.2] using hk _
  · rw [Team.groupAt_modGroupAt_ne t f hg]; exact hr _

/-- An update of every group thread by thread. -/
theorem TeamAfter.mapGroups {R : Thread → Thread → Prop} (t : Team) {b : Team} {k : Thread → Thread} (hid : b.id = t.id)
    (hla : b.launch = t.launch) (hc : b.core = t.core) (hp : b.place = t.place)
    (hg : b.groups = t.groups.map fun x => { x with threads := x.threads.map k })
    (hl : b.lead = t.lead.map fun x => { x with threads := x.threads.map k }) (hk : ∀ th, R th (k th)) : TeamAfter R t b := by
  have hat : ∀ g, (b.groupAt g).threads = (t.groupAt g).threads.map k := by
    intro g
    unfold Team.groupAt
    rw [hg, hl]
    split
    · cases t.lead <;> simp
    · by_cases h : g < t.groups.length <;> simp [List.getD, h]
  have hh : ∀ g, Team_hasGroup b g ↔ Team_hasGroup t g := fun g => by simp [Team_hasGroup, hg, hl]
  refine ⟨hid, hla, hc, hp, fun g l => ?_, fun g l h => ?_⟩
  · simp [Team_hasThread, hh, hat]
  · simpa [Team.thread, hat, List.getD, h.2] using hk _

/-- An update that leaves groups and lead alone. -/
theorem TeamAfter.of_groups {R : Thread → Thread → Prop} (hr : ∀ th, R th th) {a b : Team} (hid : b.id = a.id) (hla : b.launch = a.launch)
    (hc : b.core = a.core) (hp : b.place = a.place) (hg : b.groups = a.groups) (hl : b.lead = a.lead) : TeamAfter R a b := by
  have hat : ∀ g, b.groupAt g = a.groupAt g := fun g => by simp only [Team.groupAt, hg, hl]
  refine ⟨hid, hla, hc, hp, fun g l => ?_, fun g l _ => ?_⟩
  · simp only [Team_hasThread, Team_hasGroup, hat, hg, hl]
  · simp only [Team.thread, hat]; exact hr _

/-! ### A team of a state after an operation -/

/-- A team is there as before, its threads related to what they were, or it was not there and is not. -/
def Stays (R : Thread → Thread → Prop) (team : Nat) (s t : State) : Prop := Option.Rel (TeamAfter R) (s.team? team) (t.team? team)

section
variable {R : Thread → Thread → Prop} (hr : ∀ th, R th th) (htr : ∀ x y z, R x y → R y z → R x z)

include hr in
theorem Stays.of_eq {team : Nat} {s t : State} (h : t.team? team = s.team? team) : Stays R team s t := by
  unfold Stays
  rw [h]
  cases s.team? team with
  | none => exact .none
  | some a => exact .some (TeamAfter.refl hr a)

include hr in
theorem Stays.refl (team : Nat) (s : State) : Stays R team s s := Stays.of_eq hr rfl

include htr in
theorem Stays.trans {team : Nat} {a b c : State} (h : Stays R team a b) (k : Stays R team b c) : Stays R team a c := by
  unfold Stays at *
  generalize a.team? team = x, b.team? team = y, c.team? team = z at h k
  cases h with
  | none => exact k
  | some h => cases k with
    | some k => exact .some (TeamAfter.trans htr h k)

theorem Stays.mono {Q : Thread → Thread → Prop} (hRQ : ∀ x y, R x y → Q x y) {team : Nat} {s t : State} (h : Stays R team s t) :
    Stays Q team s t := by
  unfold Stays at *
  generalize s.team? team = x, t.team? team = y at h
  cases h with
  | none => exact .none
  | some h => exact .some (h.mono hRQ)

theorem Stays.some {team : Nat} {s t : State} (h : Stays R team s t) {a : Team} (ha : s.team? team = some a) :
    ∃ b, t.team? team = some b ∧ TeamAfter R a b := by
  unfold Stays at h
  rw [ha] at h
  generalize t.team? team = y at h
  cases h with
  | some h => exact ⟨_, rfl, h⟩

theorem Stays.none_iff {team : Nat} {s t : State} (h : Stays R team s t) : t.team? team = none ↔ s.team? team = none := by
  unfold Stays at h
  generalize s.team? team = x, t.team? team = y at h
  cases h <;> simp

include hr in
theorem Stays.modTeam (team j : Nat) (s : State) {f : Team → Team} (hf : ∀ t, TeamAfter R t (f t)) : Stays R team s (s.modTeam j f) := by
  by_cases h : team = j
  · subst h
    unfold Stays
    rw [State.teamOpt_modTeam s team f fun t => (hf t).id]
    cases s.team? team with
    | none => exact .none
    | some a => exact .some (hf a)
  · exact Stays.of_eq hr (State.teamOpt_modTeam_ne s f (fun t => (hf t).id) h)

include hr htr in
theorem Stays.foldl {α : Type} (team : Nat) (f : State → α → State) (h : ∀ s x, Stays R team s (f s x)) (l : List α) (s : State) :
    Stays R team s (l.foldl f s) :=
  foldl_keeps (fun t => Stays R team s t) f (fun t x ht => Stays.trans htr ht (h t x)) l s (Stays.refl hr team s)
end

/-- Updates of one team one after the other are one update. -/
theorem State.modTeam_modTeam (s : State) (t : Nat) (f k : Team → Team) (hf : ∀ x, (f x).id = x.id) :
    (s.modTeam t f).modTeam t k = s.modTeam t fun x => k (f x) := by
  unfold State.modTeam mapIf
  simp only [List.map_map]
  congr 1
  refine List.map_congr_left fun x _ => ?_
  by_cases h : x.id = t <;> simp [h, hf]

theorem State.modTeam_id (s : State) (t : Nat) : (s.modTeam t fun x => x) = s := by
  simp [State.modTeam, mapIf]

theorem State.foldl_modTeam {α : Type} (s : State) (t : Nat) (f : α → Team → Team) (hf : ∀ a x, (f a x).id = x.id) (l : List α) :
    l.foldl (fun s a => s.modTeam t (f a)) s = s.modTeam t fun x => l.foldl (fun x a => f a x) x := by
  induction l generalizing s with
  | nil => simp [State.modTeam_id]
  | cons a r ih => rw [List.foldl_cons, ih, State.modTeam_modTeam _ _ _ _ (hf a)]; rfl

end Sys2Proof.Machine
end

section
namespace Sys2Proof.Machine

/-! ### What exits of threads bring about (R19, R35, R71, R100, R153) -/

/-- A thread after the end of others: one that runs or has executed EXIT stands where it stood, and none that had not exited has. -/
def Thread_freed (a b : Thread) : Prop :=
  ((a.st = .run ∨ a.st = .exited ∨ a.st = .exiting) → b.st = a.st ∧ b.pc = a.pc) ∧ (b.st = .exited → a.st = .exited)

theorem Thread_freed.refl (a : Thread) : Thread_freed a a := ⟨fun _ => ⟨rfl, rfl⟩, id⟩

theorem Thread_freed.trans (a b c : Thread) (h : Thread_freed a b) (k : Thread_freed b c) : Thread_freed a c := by
  refine ⟨fun ha => ?_, fun hc => h.2 (k.2 hc)⟩
  obtain ⟨h1, h2⟩ := h.1 ha
  obtain ⟨k1, k2⟩ := k.1 (h1 ▸ ha)
  exact ⟨k1.trans h1, k2.trans h2⟩

theorem Thread_freed.barEnd (th : Thread) (n gen : Nat) : Thread_freed th (Thread_barEnd th n gen) := by
  unfold Thread_barEnd
  split
  · rename_i h; simp [Thread_freed, h]
  · exact .refl th

theorem Thread_freed.rcvEnd (th : Thread) (v : Bool) : Thread_freed th (Thread_rcvEnd th v) := by
  unfold Thread_rcvEnd
  split
  · rename_i h; simp [Thread_freed, h]
  · exact .refl th

/-- What the completion of a slot does to a thread of its group. -/
def Thread_rcvDone (b : Nat) (th : Thread) : Thread :=
  let th' := if Thread_arrivedAt th b then Thread_rcvEnd th true else th
  { th' with member := setBit th'.member b false, arrived := setBit th'.arrived b false }

theorem Thread_freed.rcvDone (b : Nat) (th : Thread) : Thread_freed th (Thread_rcvDone b th) := by
  have h : Thread_freed th (if Thread_arrivedAt th b then Thread_rcvEnd th true else th) := by
    split
    · exact .rcvEnd th true
    · exact .refl th
  exact h

/-- Completion of a slot changes threads one by one, or nothing. -/
theorem Group_rcvComplete_threads (g : Group) (b : Nat) : (Group_rcvComplete g b).threads = g.threads.map (Thread_rcvDone b) ∨ Group_rcvComplete g b = g := by
  unfold Group_rcvComplete
  simp only
  split
  · exact .inl rfl
  · exact .inr rfl

/-- Completion of every slot, and the group's leaving of its place, change threads one by one. -/
theorem Group_rcvAll_threads (x : Group) : ∃ k : Thread → Thread, (Group_rcvAll x).threads = x.threads.map k ∧ ∀ th, Thread_freed th (k th) := by
  unfold Group_rcvAll
  generalize List.range 16 = bs
  induction bs generalizing x with
  | nil => exact ⟨id, by simp, Thread_freed.refl⟩
  | cons b r ih =>
    rw [List.foldl_cons]
    rcases Group_rcvComplete_threads x b with h | h
    · obtain ⟨k, h1, h2⟩ := ih (Group_rcvComplete x b)
      exact ⟨fun th => k (Thread_rcvDone b th), by rw [h1, h, List.map_map]; rfl,
        fun th => (Thread_freed.rcvDone b th).trans _ _ _ (h2 _)⟩
    · rw [h]; exact ih x

theorem Group_retire_threads (g : Group) : (Group_retire g).threads = g.threads := by
  unfold Group_retire; split <;> rfl

/-- What an exit brings about in the team itself: slots complete, an exited group leaves its place (R19, R23, R40). -/
def Team_exitGroup (g : Nat) (t : Team) : Team :=
  let t1 := t.modGroupAt g fun x => Group_retire (Group_rcvAll x)
  if (t1.groupAt g).exited then Team_freeSpace t1 else t1

theorem TeamAfter.exitGroup (t : Team) (g : Nat) : TeamAfter Thread_freed t (Team_exitGroup g t) := by
  obtain ⟨k, h1, h2⟩ := Group_rcvAll_threads (t.groupAt g)
  have h : TeamAfter Thread_freed t (t.modGroupAt g fun x => Group_retire (Group_rcvAll x)) :=
    TeamAfter.modGroupAt Thread_freed.refl t g ((Group_retire_threads _).trans h1) h2
  unfold Team_exitGroup
  simp only
  split
  · exact TeamAfter.trans Thread_freed.trans h (TeamAfter.of_groups Thread_freed.refl rfl rfl rfl rfl rfl rfl)
  · exact h

theorem TeamAfter.barEnd (t : Team) (n gen : Nat) : TeamAfter Thread_freed t (Team_barEnd t n gen) :=
  TeamAfter.mapGroups t rfl rfl rfl rfl rfl rfl fun th => Thread_freed.barEnd th n gen

/-- Releases of several generations of one barrier. -/
theorem TeamAfter.barEnds (t : Team) (n : Nat) (hs : List BarHold) :
    TeamAfter Thread_freed t (hs.foldl (fun t h => Team_barEnd t n h.gen) t) := by
  induction hs generalizing t with
  | nil => exact TeamAfter.refl Thread_freed.refl t
  | cons h r ih => exact TeamAfter.trans Thread_freed.trans (TeamAfter.barEnd t n h.gen) (ih _)

/-- A change of a team's barriers, queue or share alone. -/
theorem Stays.of_groups (team j : Nat) (s : State) {f : Team → Team} (hid : ∀ t, (f t).id = t.id) (hla : ∀ t, (f t).launch = t.launch)
    (hc : ∀ t, (f t).core = t.core) (hp : ∀ t, (f t).place = t.place) (hg : ∀ t, (f t).groups = t.groups) (hl : ∀ t, (f t).lead = t.lead) :
    Stays Thread_freed team s (s.modTeam j f) :=
  Stays.modTeam Thread_freed.refl team j s fun t => TeamAfter.of_groups Thread_freed.refl (hid t) (hla t) (hc t) (hp t) (hg t) (hl t)

theorem Stays.barCheck (team j n : Nat) (s : State) : Stays Thread_freed team s (s.barCheck j n) := by
  unfold State.barCheck
  simp only
  split
  · exact Stays.of_groups team j s (fun _ => rfl) (fun _ => rfl) (fun _ => rfl) (fun _ => rfl) (fun _ => rfl) fun _ => rfl
  · exact Stays.refl Thread_freed.refl team s

theorem Stays.barRelease (team j n : Nat) (s : State) : Stays Thread_freed team s (s.barRelease j n) :=
  Stays.modTeam Thread_freed.refl team j s fun t =>
    TeamAfter.trans Thread_freed.trans (TeamAfter.barEnds t n _) (TeamAfter.of_groups Thread_freed.refl rfl rfl rfl rfl rfl rfl)

theorem Stays.modLaunch {R : Thread → Thread → Prop} (hr : ∀ th, R th th) (team i : Nat) (s : State) (f : Launch → Launch) :
    Stays R team s (s.modLaunch i f) := Stays.of_eq hr rfl

theorem Stays.cbarCheck (team i cl : Nat) (s : State) : Stays Thread_freed team s (s.cbarCheck i cl) := by
  unfold State.cbarCheck
  simp only
  split
  · exact Stays.modLaunch Thread_freed.refl team i s _
  · exact Stays.refl Thread_freed.refl team s

theorem Stays.cbarRelease (team i cl : Nat) (s : State) : Stays Thread_freed team s (s.cbarRelease i cl) := by
  refine Stays.trans Thread_freed.trans ?_ (Stays.modLaunch Thread_freed.refl team i _ _)
  exact Stays.foldl Thread_freed.refl Thread_freed.trans team _ (fun u (h : BarHold) => Stays.foldl Thread_freed.refl Thread_freed.trans team _
    (fun u (t : Team) => Stays.modTeam Thread_freed.refl team t.id u fun x => TeamAfter.barEnd x 16 h.gen) _ u) _ s

/-- Completions and releases of every barrier of a team and its cluster free threads that wait, and change no others. -/
theorem Stays.barAll (team j : Nat) (s : State) : Stays Thread_freed team s (s.barAll j) := by
  unfold State.barAll
  refine Stays.trans Thread_freed.trans (Stays.trans Thread_freed.trans ?_ (Stays.cbarCheck team _ _ _)) (Stays.cbarRelease team _ _ _)
  exact Stays.foldl Thread_freed.refl Thread_freed.trans team _
    (fun u n => Stays.trans Thread_freed.trans (Stays.barCheck team j n u) (Stays.barRelease team j n _)) _ s

/-- The part of an exit before the end of the team. -/
def State.exitSettled (s : State) (team g : Nat) : State := ((s.modTeam team (Team_exitGroup g)).modTeam team Team_dqRetire).barAll team

theorem State.afterExit_eq (s : State) (team g : Nat) : s.afterExit team g = (s.exitSettled team g).endTeam team := rfl

theorem Stays.exitSettled (team g : Nat) (s : State) : Stays Thread_freed team s (s.exitSettled team g) := by
  have h1 : Stays Thread_freed team s (s.modTeam team (Team_exitGroup g)) :=
    Stays.modTeam Thread_freed.refl team team s fun t => TeamAfter.exitGroup t g
  have h2 : Stays Thread_freed team (s.modTeam team (Team_exitGroup g)) ((s.modTeam team (Team_exitGroup g)).modTeam team Team_dqRetire) :=
    Stays.of_groups team team _ (fun _ => rfl) (fun _ => rfl) (fun _ => rfl) (fun _ => rfl) (fun _ => rfl) fun _ => rfl
  exact Stays.trans Thread_freed.trans (Stays.trans Thread_freed.trans h1 h2) (Stays.barAll team team _)

/-! ### The end of a team -/

theorem foldl_teams {α : Type} (f : State → α → State) (h : ∀ s x, (f s x).teams = s.teams) (l : List α) (s : State) :
    (l.foldl f s).teams = s.teams := foldl_keeps (fun t => t.teams = s.teams) f (fun t x ht => (h t x).trans ht) l s rfl

@[simp] theorem State.hwStore_teams (s : State) (team pa : Nat) (bs : List Byte) (wb : Bool) : (s.hwStore team pa bs wb).teams = s.teams := rfl

@[simp] theorem State.dropStack_teams (s : State) (core : Nat) (out : StackSec → Bool) : (s.dropStack core out).teams = s.teams := by
  unfold State.dropStack
  exact foldl_teams (fun s (x : StackSec) => s.hwStore x.team (32 * x.sec) x.bytes true) (fun _ _ => rfl) _ s

@[simp] theorem State.flushStack_teams (s : State) (team : Nat) : (s.flushStack team).teams = s.teams := State.dropStack_teams _ _ _

theorem State.teamOpt_of_teams {s t : State} (h : t.teams = s.teams) (team : Nat) : t.team? team = s.team? team := by
  unfold State.team?; rw [h]

/-- A team that is dropped is there no more. -/
theorem State.dropTeam_gone (s : State) (team : Nat) : (s.dropTeam team).team? team = none := by
  unfold State.team?
  rw [List.find?_eq_none]
  intro x hx
  have : x.id ≠ team := by simpa using (List.mem_filter.mp hx).2
  simpa using this

/-- The end of a team: it goes when no part of it is live, and else stands as before. -/
theorem State.endTeam_cases (s : State) (team : Nat) :
    ((s.endTeam team).team? team = none ∧ ∃ a, s.team? team = some a ∧ a.live = []) ∨ (s.endTeam team).team? team = s.team? team := by
  unfold State.endTeam
  cases h : s.team? team with
  | none => exact .inr h
  | some a =>
    simp only
    split
    · rename_i hl
      split
      · exact .inl ⟨State.dropTeam_gone _ team, a, rfl, by simp at hl; exact hl.1⟩
      · exact .inr ((State.teamOpt_of_teams (s.flushStack_teams team) team).trans h)
    · exact .inr h

/-- WHAT AN EXIT BRINGS ABOUT: its team stands with waiting threads freed, or it is gone, all its threads exited. -/
theorem State.afterExit_cases (s : State) (team g : Nat) :
    Stays Thread_freed team s (s.afterExit team g) ∨
    (s.afterExit team g).team? team = none ∧ ∃ a, s.team? team = some a ∧ a.live = [] := by
  have hs := Stays.exitSettled team g s
  rw [State.afterExit_eq]
  rcases State.endTeam_cases (s.exitSettled team g) team with ⟨h, b, hb, hlive⟩ | h
  · right
    refine ⟨h, ?_⟩
    cases ha : s.team? team with
    | none => rw [hs.none_iff.mpr ha] at hb; cases hb
    | some a =>
      obtain ⟨b', hb', hab⟩ := hs.some ha
      cases hb.symm.trans hb'
      refine ⟨a, rfl, Team.live_nil_iff.mpr fun g l hh => ?_⟩
      exact (hab.thread g l hh).2 (Team.live_nil_iff.mp hlive g l ((hab.has g l).mpr hh))
  · left
    exact Stays.trans Thread_freed.trans hs (Stays.of_eq Thread_freed.refl h)

/-- The exits of several groups. -/
theorem State.afterExits_cases (team : Nat) (gs : List Nat) (s : State) :
    Stays Thread_freed team s (gs.foldl (fun s g => s.afterExit team g) s) ∨
    (gs.foldl (fun s g => s.afterExit team g) s).team? team = none ∧ ∃ a, s.team? team = some a ∧ a.live = [] := by
  induction gs generalizing s with
  | nil => exact .inl (Stays.refl Thread_freed.refl team s)
  | cons g r ih =>
    rw [List.foldl_cons]
    rcases State.afterExit_cases s team g with h | ⟨h, hl⟩
    · rcases ih (s.afterExit team g) with h2 | ⟨h2, b, hb, hlive⟩
      · exact .inl (Stays.trans Thread_freed.trans h h2)
      · right
        refine ⟨h2, ?_⟩
        cases ha : s.team? team with
        | none => rw [h.none_iff.mpr ha] at hb; cases hb
        | some a =>
          obtain ⟨b', hb', hab⟩ := h.some ha
          cases hb.symm.trans hb'
          exact ⟨a, rfl, Team.live_nil_iff.mpr fun g l hh =>
            (hab.thread g l hh).2 (Team.live_nil_iff.mp hlive g l ((hab.has g l).mpr hh))⟩
    · right
      refine ⟨?_, hl⟩
      rcases ih (s.afterExit team g) with h2 | ⟨h2, _⟩
      · exact h2.none_iff.mpr h
      · exact h2

end Sys2Proof.Machine
end

section
namespace Sys2Proof.Machine

theorem mem_insertNat {l : List Nat} {n m : Nat} : m ∈ insertNat l n ↔ m = n ∨ m ∈ l := by
  induction l with
  | nil => simp [insertNat]
  | cons x r ih =>
    unfold insertNat
    split
    · rename_i h; subst h; simp
    · split
      · simp
      · simp only [List.mem_cons, ih]; tauto

theorem mem_foldl_insertNat {l acc : List Nat} {m : Nat} : m ∈ l.foldl insertNat acc ↔ m ∈ l ∨ m ∈ acc := by
  induction l generalizing acc with
  | nil => simp
  | cons x r ih => rw [List.foldl_cons, ih, mem_insertNat, List.mem_cons]; tauto

theorem mem_keysOf {l : List Nat} {m : Nat} : m ∈ keysOf l ↔ m ∈ l := by
  simp [keysOf, mem_foldl_insertNat]

/-! ### The end of a team that is done -/

/-- Nothing but teams and launches has changed. -/
def OnlyTeams (s t : State) : Prop := { t with teams := s.teams, launches := s.launches } = s

theorem OnlyTeams.refl (s : State) : OnlyTeams s s := rfl

theorem OnlyTeams.trans {a b c : State} (h : OnlyTeams a b) (k : OnlyTeams b c) : OnlyTeams a c := by
  unfold OnlyTeams at *
  rw [← h, ← k]

theorem OnlyTeams.modTeam (s : State) (t : Nat) (f : Team → Team) : OnlyTeams s (s.modTeam t f) := rfl
theorem OnlyTeams.modLaunch (s : State) (i : Nat) (f : Launch → Launch) : OnlyTeams s (s.modLaunch i f) := rfl

theorem OnlyTeams.foldl {α : Type} (f : State → α → State) (h : ∀ s x, OnlyTeams s (f s x)) (l : List α) (s : State) : OnlyTeams s (l.foldl f s) :=
  foldl_keeps (fun t => OnlyTeams s t) f (fun t x ht => ht.trans (h t x)) l s (.refl s)

theorem OnlyTeams.barCheck (s : State) (j n : Nat) : OnlyTeams s (s.barCheck j n) := by
  unfold State.barCheck
  simp only
  split
  · exact .modTeam s j _
  · exact .refl s

theorem OnlyTeams.cbarCheck (s : State) (i cl : Nat) : OnlyTeams s (s.cbarCheck i cl) := by
  unfold State.cbarCheck
  simp only
  split
  · exact .modLaunch s i _
  · exact .refl s

theorem OnlyTeams.cbarRelease (s : State) (i cl : Nat) : OnlyTeams s (s.cbarRelease i cl) := by
  refine .trans ?_ (.modLaunch _ i _)
  exact .foldl _ (fun u (h : BarHold) => .foldl _ (fun u (t : Team) => .modTeam u t.id fun x => Team_barEnd x 16 h.gen) _ u) _ s

theorem OnlyTeams.barAll (s : State) (j : Nat) : OnlyTeams s (s.barAll j) := by
  unfold State.barAll
  refine .trans (.trans ?_ (.cbarCheck _ _ _)) (.cbarRelease _ _ _)
  exact .foldl _ (fun u n => (OnlyTeams.barCheck u j n).trans (.modTeam _ j _)) _ s

theorem OnlyTeams.exitSettled (s : State) (team g : Nat) : OnlyTeams s (s.exitSettled team g) := by
  unfold State.exitSettled
  exact (OnlyTeams.modTeam s team _).trans ((OnlyTeams.modTeam _ team _).trans (OnlyTeams.barAll _ team))

theorem OnlyTeams.homes {s t : State} (h : OnlyTeams s t) : t.homes = s.homes := by unfold OnlyTeams at h; rw [← h]
theorem OnlyTeams.gtc {s t : State} (h : OnlyTeams s t) : t.gtc = s.gtc := by unfold OnlyTeams at h; rw [← h]
theorem OnlyTeams.flights {s t : State} (h : OnlyTeams s t) : t.flights = s.flights := by unfold OnlyTeams at h; rw [← h]
theorem OnlyTeams.engines {s t : State} (h : OnlyTeams s t) : t.engines = s.engines := by unfold OnlyTeams at h; rw [← h]
theorem OnlyTeams.core {s t : State} (h : OnlyTeams s t) (c : Nat) : t.core c = s.core c := by
  unfold OnlyTeams at h; rw [← h]; rfl

/-- Whether a team's stack stores are done is a matter of what is under way, not of teams. -/
theorem State.stackDone_congr {s t : State} (hh : t.homes = s.homes) (hg : t.gtc = s.gtc) (hf : t.flights = s.flights)
    (he : t.engines = s.engines) (team : Nat) : t.stackDone team = s.stackDone team := by
  unfold State.stackDone State.flushed State.stackStores
  rw [hh, hg, hf, he]

/-- A stack without dirty sectors is dropped without a write-back. -/
theorem State.flushStack_clean {s : State} {team : Nat} (h : ∀ y ∈ (s.core (s.team team).core).stack, y.team = team → y.dirty = false) :
    (s.flushStack team).stackDone team = s.stackDone team := by
  have : ((s.core (s.team team).core).stack.filter fun x => decide (x.team = team) && x.dirty) = [] := by
    rw [List.filter_eq_nil_iff]
    intro y hy
    simpa using h y hy
  unfold State.flushStack State.dropStack
  rw [this]
  exact State.stackDone_congr rfl rfl rfl rfl team

/-- A team without a live part, whose stores to its stack are done, is gone at its end (R35, R100). -/
theorem State.endTeam_gone {s : State} {team : Nat} {a : Team} (ha : s.team? team = some a) (hl : a.live = []) (hp : a.place ≠ .admitting)
    (hs : ∀ y ∈ (s.core a.core).stack, y.team = team → y.dirty = false) (hd : s.stackDone team = true) :
    (s.endTeam team).team? team = none := by
  have hc : (s.flushStack team).stackDone team = true := by
    rw [State.flushStack_clean, hd]
    simpa [State.team, ha] using hs
  unfold State.endTeam
  rw [ha]
  simp only [hl, hp, ne_eq, not_false_eq_true, decide_true, Bool.and_self, if_true, hc]
  exact State.dropTeam_gone _ team

/-- An exit that leaves no live part in a team that is done ends it. -/
theorem State.afterExit_gone {s : State} {team : Nat} {a : Team} (g : Nat) (ha : s.team? team = some a)
    (hl : ∀ g l, Team_hasThread a g l → (a.thread g l).st = .exited) (hp : a.place ≠ .admitting)
    (hs : ∀ y ∈ (s.core a.core).stack, y.team = team → y.dirty = false) (hd : s.stackDone team = true) :
    (s.afterExit team g).team? team = none := by
  obtain ⟨b, hb, hab⟩ := (Stays.exitSettled team g s).some ha
  have ho : OnlyTeams s (s.exitSettled team g) := .exitSettled s team g
  rw [State.afterExit_eq]
  refine State.endTeam_gone hb (Team.live_nil_iff.mpr fun g l hh => ?_) (hab.place ▸ hp) ?_ ?_
  · have hx := (hab.has g l).mp hh
    have he := hl g l hx
    exact (((hab.thread g l hx).1 (.inr (.inl he))).1).trans he
  · rw [ho.core, hab.core]; exact hs
  · rw [← hd]
    exact State.stackDone_congr ho.homes ho.gtc ho.flights ho.engines team

/-! ### EXIT (R35, R149, R260) -/

/-- What the EXIT of a thread does to its team: it is exited, or waits for its registers, and has left its conjugate group. -/
def Team_exitOne (why : Nat × Nat → TState) (t : Team) (h : Nat × Nat) : Team :=
  Team_leaveConj (t.modThread h.1 h.2 fun th => { th with st := why h }) h.1 h.2

@[simp] theorem Team_exitOne_id (why : Nat × Nat → TState) (t : Team) (h : Nat × Nat) : (Team_exitOne why t h).id = t.id := by
  simp [Team_exitOne, Team_leaveConj]

/-- The EXIT of several threads. -/
def Team_exits (why : Nat × Nat → TState) (hs : List (Nat × Nat)) (t : Team) : Team := hs.foldl (Team_exitOne why) t

@[simp] theorem Team_exits_id (why : Nat × Nat → TState) (hs : List (Nat × Nat)) (t : Team) : (Team_exits why hs t).id = t.id :=
  foldl_id _ (fun t h => Team_exitOne_id why t h) hs t

/-- The state that a thread has after EXIT: it waits while registers of it are abroad (R35). -/
def State.exitSt (s : State) (h : Nat × Nat) : TState := if s.anyAbroad s.cur.team h.1 h.2 then .exiting else .exited

/-- The EXIT of one thread, by its home. -/
def State.exitOne (s : State) (h : Nat × Nat) : State := (s.exitThread s.cur.team h.1 h.2).modCt fun t => Team_leaveConj t h.1 h.2

theorem State.exitOne_eq (s : State) (h : Nat × Nat) : s.exitOne h = s.modCt fun t => Team_exitOne s.exitSt t h :=
  State.modTeam_modTeam s s.cur.team _ _ fun t => by simp

/-- The exits of several threads are one update of their team. -/
theorem State.exitThreads_eq (s : State) (hs : List (Nat × Nat)) : hs.foldl State.exitOne s = s.modCt (Team_exits s.exitSt hs) := by
  have key : ∀ (hs : List (Nat × Nat)) (F : Team → Team), (∀ t, (F t).id = t.id) →
      hs.foldl State.exitOne (s.modCt F) = s.modCt fun t => Team_exits s.exitSt hs (F t) := by
    intro hs
    induction hs with
    | nil => intro F _; rfl
    | cons h r ih =>
      intro F hF
      have e : (s.modCt F).exitOne h = s.modCt fun t => Team_exitOne s.exitSt (F t) h :=
        (State.exitOne_eq _ h).trans (State.modTeam_modTeam s s.cur.team F _ hF)
      rw [List.foldl_cons, e, ih _ fun t => by simp [hF]]
      rfl
  have h := key hs (fun t => t) fun _ => rfl
  have hid : (s.modCt fun t => t) = s := State.modTeam_id s _
  rwa [hid] at h

theorem Team.thread_leaveConj (t : Team) (g l g' l' : Nat) : (Team_leaveConj t g l).thread g' l' = t.thread g' l' := rfl
theorem Team.has_leaveConj (t : Team) (g l g' l' : Nat) : Team_hasThread (Team_leaveConj t g l) g' l' ↔ Team_hasThread t g' l' := Iff.rfl

theorem Team.has_exitOne (why : Nat × Nat → TState) (t : Team) (h : Nat × Nat) (g l : Nat) :
    Team_hasThread (Team_exitOne why t h) g l ↔ Team_hasThread t g l := Team.hasThread_modThread t h.1 h.2 _ g l

theorem Team.has_exits (why : Nat × Nat → TState) (hs : List (Nat × Nat)) (t : Team) (g l : Nat) :
    Team_hasThread (Team_exits why hs t) g l ↔ Team_hasThread t g l :=
  Team.hasThread_foldl _ (Team.has_exitOne why) hs t g l

theorem Team.thread_exits (why : Nat × Nat → TState) (hs : List (Nat × Nat)) {t : Team} {g l : Nat} (h : Team_hasThread t g l) :
    (Team_exits why hs t).thread g l = if (g, l) ∈ hs then { t.thread g l with st := why (g, l) } else t.thread g l := by
  induction hs generalizing t with
  | nil => rfl
  | cons x r ih =>
    show (Team_exits why r (Team_exitOne why t x)).thread g l = _
    rw [ih ((Team.has_exitOne why t x g l).mpr h)]
    unfold Team_exitOne
    rw [Team.thread_leaveConj]
    by_cases hx : x = (g, l)
    · subst hx
      rw [Team.thread_modThread_has h]
      simp
    · have hne : ¬(g = x.1 ∧ l = x.2) := fun e => hx (by rw [e.1, e.2])
      rw [Team.thread_modThread_ne t _ hne]
      simp [Ne.symm hx]

/-- Who stands in a conjugate group, and is not the one that leaves, stands there still. -/
theorem Team.place_leaveConj {t : Team} {a : Actor} {L : Nat} {h h' : Nat × Nat} (hp : t.place? a L = some h) (hne : h ≠ h') :
    (Team_leaveConj t h'.1 h'.2).place? a L = some h := by
  cases a with
  | grp n => exact hp
  | lead => exact hp
  | conj k =>
    simp only [Team.place?, Team_leaveConj] at hp ⊢
    generalize t.conj = cs at hp ⊢
    induction cs with
    | nil => simp at hp
    | cons c r ih =>
      by_cases hc : c.id = k
      · simp only [List.find?_cons, hc, decide_true, Option.getD_some, List.getD_eq_getElem?_getD] at hp
        have hL : c.pos[L]? = some (some h) := by
          cases e : c.pos[L]? with
          | none => simp [e] at hp
          | some y => simpa [e] using hp
        have hg : (c.pos.map fun p => if p = some (h'.1, h'.2) then none else p)[L]? = some (some h) := by
          simp [hL, hne]
        have hany : (c.pos.map fun p => if p = some (h'.1, h'.2) then none else p).any Option.isSome = true :=
          List.any_eq_true.mpr ⟨some h, List.mem_of_getElem? hg, rfl⟩
        simp only [List.map_cons, List.filter_cons, hany, if_true, List.find?_cons, hc, decide_true, Option.getD_some,
          List.getD_eq_getElem?_getD, hg]
      · simp only [List.find?_cons, hc, decide_false] at hp
        have := ih hp
        simp only [List.map_cons, List.filter_cons]
        split
        · simpa only [List.find?_cons, hc, decide_false] using this
        · exact this

theorem Team.place_exits {why : Nat × Nat → TState} {hs : List (Nat × Nat)} {t : Team} {a : Actor} {L : Nat} {h : Nat × Nat}
    (hp : t.place? a L = some h) (hn : h ∉ hs) : (Team_exits why hs t).place? a L = some h := by
  induction hs generalizing t with
  | nil => exact hp
  | cons x r ih =>
    rw [List.mem_cons, not_or] at hn
    exact ih (Team.place_leaveConj (by rwa [Team.placeOpt_modThread]) hn.1) hn.2

end Sys2Proof.Machine
end

section
namespace Sys2Proof.Machine

/-! ### Cross-lane instructions -/

/-- Held words are those that a function gives at their lane: functions that agree on the lanes hold the same. -/
theorem HeldLanes.congr {s t : State} {ls : List Nat} {cls no : Nat} {f f' : Nat → List Word} (h : HeldLanes s t ls cls no f)
    (he : ∀ L ∈ ls, f L = f' L) : HeldLanes s t ls cls no f' := fun L hL => he L hL ▸ h L hL

/-- Settles O5: every cross-lane instruction is the shared operation `execX`, with the words of its table. -/
theorem crossLaneResults : Obligations.CrossLaneResults := by
  intro i r hr hw s hi hp
  obtain ⟨f, hx, hf⟩ := laneOp_exec hr hw s
  obtain ⟨t, ht, hheld, hmoved⟩ := State.execX_done hi (d := r.d) (help := r.help) (f := f) hp
  exact ⟨t, hx.trans ht, hheld.congr hf, hmoved⟩

end Sys2Proof.Machine
end

section
namespace Sys2Proof.Machine

/-! ### Jumps -/

/-- A short offset counts words (R67, R146). -/
theorem shortOff_eq {n : Nat} (v : BitVec n) : v.signExtend 64 <<< (2 : Nat) = BitVec.ofInt 64 (4 * v.toInt) := by
  rw [BitVec.shiftLeft_eq_mul_twoPow, BitVec.signExtend, ← BitVec.ofInt_toInt (x := BitVec.twoPow 64 2), ← BitVec.ofInt_mul, mul_comm]
  rfl

theorem baseOff_eq (o : BaseOff) : baseOff o = baseBytes o := by
  cases o with
  | short n => exact shortOff_eq n
  | lit w => rfl

theorem extOff_eq (o : ExtOff) : extOff o = extBytes o := by
  cases o with
  | short n => exact shortOff_eq n
  | lit w => rfl

/-- The lanes of a path at their targets: active lanes at theirs, the others at the next instruction. -/
def State.targets (s : State) (x : XHead) (tgt : Nat → Dword) (L : Nat) : Option Dword := if L ∈ s.active x then some (tgt L) else none

theorem State.targets_eq (s : State) (x : XHead) (tgt : Nat → Dword) :
    (fun L => if (s.active x).contains L then some (tgt L) else none) = s.targets x tgt := by
  funext L; simp [State.targets]

theorem braOp_jumps {s : State} (hi : Issuing s) (x : XHead) (off : Dword) :
    ∃ t, braOp x off s = .next t ∧ MovedTo s t x (s.targets x fun _ => s.cur.pc + off) := by
  refine ⟨_, rfl, ?_⟩
  rw [State.targets_eq s x fun _ => s.cur.pc + off]
  exact State.retireTo_moved hi (Quiet.refl s) x _

theorem callOp_jumps {s : State} (hi : Issuing s) (x : XHead) (d : BitVec 7) (off : Dword) :
    ∃ t, callOp x d off s = .next t ∧ MovedTo s t x (s.targets x fun _ => s.cur.pc + off) ∧
      ∀ L ∈ s.active x, Due s t 2 0 d.toNat L [lo s.nextPc, Machine.hi s.nextPc] := by
  refine ⟨_, rfl, ?_⟩
  rw [State.targets_eq s x fun _ => s.cur.pc + off]
  simp only [State.pushRes, vOpd, List.append_nil]
  refine ⟨State.retireTo_moved hi (Quiet.addPipe s _) x _, fun L hL => ?_⟩
  refine Due.of_sub (Quiet.refl s) rfl (id := 0) fun p hp => ?_
  rw [State.retireTo_pipe ((Quiet.addPipe s _).issuing hi).team, State.ct_addPipe hi.team]
  exact List.mem_append_right _ (List.mem_flatMap.mpr ⟨L, hL, hp⟩)

theorem jumpOp_jumps {i : Instr} {j : JumpOp} (h : jumpOp i = some j) {s : State} (hi : Issuing s) :
    ∃ t, exec i s = .next t ∧ MovedTo s t j.x (s.targets j.x fun _ => s.cur.pc + j.off) ∧
      ∀ d, j.link = some d → ∀ L ∈ s.active j.x, Due s t 2 0 d.toNat L [lo s.nextPc, Machine.hi s.nextPc] := by
  cases i <;> simp only [jumpOp, reduceCtorEq, Option.some.injEq] at h <;> subst h
  case bra stl off =>
    obtain ⟨t, ht, hm⟩ := braOp_jumps hi (baseHead stl) (baseBytes off)
    exact ⟨t, by rw [← ht, ← baseOff_eq]; rfl, hm, by simp⟩
  case braExt x off =>
    obtain ⟨t, ht, hm⟩ := braOp_jumps hi x (extBytes off)
    exact ⟨t, by rw [← ht, ← extOff_eq]; rfl, hm, by simp⟩
  case call stl d off =>
    obtain ⟨t, ht, hm, hd⟩ := callOp_jumps hi (baseHead stl) d (baseBytes off)
    exact ⟨t, by rw [← ht, ← baseOff_eq]; rfl, hm, by simpa using hd⟩
  case callExt x d off =>
    obtain ⟨t, ht, hm, hd⟩ := callOp_jumps hi x d (extBytes off)
    exact ⟨t, by rw [← ht, ← extOff_eq]; rfl, hm, by simpa using hd⟩

/-- A jump to word-aligned addresses in pairs (R147, R148). -/
theorem brxOp_jumps {s : State} (hi : Issuing s) (x : XHead) (a : Opd) (hal : ∀ L ∈ s.active x, (s.reg2 a L).extractLsb' 0 2 = 0) :
    ∃ t, brxOp x a s = .next t ∧ MovedTo s t x (s.targets x fun L => s.reg2 a L) := by
  have hno : ((s.active x).any fun L => decide ((s.reg2 a L).toNat % 4 ≠ 0)) = false := by
    rw [List.any_eq_false]
    intro L hL
    have := congrArg BitVec.toNat (hal L hL)
    simpa [BitVec.extractLsb'_toNat] using this
  refine ⟨_, ?_, State.retireTo_moved hi (Quiet.refl s) x (s.targets x fun L => s.reg2 a L)⟩
  unfold brxOp
  simp only [hno, Bool.false_eq_true, if_false]
  rw [State.targets_eq s x fun L => s.reg2 a L]

theorem pairJump_jumps {i : Instr} {j : PairJump} (h : pairJump i = some j) {s : State} (hi : Issuing s)
    (hal : ∀ L ∈ s.active j.x, (s.reg2 j.a L).extractLsb' 0 2 = 0) :
    ∃ t, exec i s = .next t ∧ MovedTo s t j.x (s.targets j.x fun L => s.reg2 j.a L) := by
  cases i <;> simp only [pairJump, reduceCtorEq, Option.some.injEq] at h <;> subst h
  case ret stl a => exact brxOp_jumps hi _ _ hal
  case brx stl a => exact brxOp_jumps hi _ _ hal
  case brxExt x a => exact brxOp_jumps hi _ _ hal
  case retExt x a => exact brxOp_jumps hi _ _ hal

/-! ### NOP and YIELD -/

theorem noEffect_moves {i : Instr} {x : XHead} {s : State} (h : noEffect i s = some x) (hi : Issuing s) :
    ∃ t, exec i s = .next t ∧ Moved s t x := by
  refine ⟨s.retire x, ?_, State.retire_moved hi (Quiet.refl s) x⟩
  have hb : ∀ (y : XHead) (c : BitVec 14), (if s.debugOn then none else some y) = some x → bkptOp y c s = .next (s.retire x) := by
    intro y c hy
    unfold bkptOp
    split at hy
    · cases hy
    · rename_i hd; cases hy; rw [if_neg hd]
  cases i <;> simp only [noEffect, reduceCtorEq, Option.some.injEq] at h
  case nop stl => subst h; rfl
  case nopExt y => subst h; rfl
  case bkpt stl c => exact hb _ c h
  case bkptExt y c => exact hb _ c h

/-- The group-scope object of the issuer after an update of it: that of a group that is there, or of a conjugate group. -/
theorem Team.actor_modActor {t : Team} {a : Actor} {f : Group → Group} (hid : ∀ g, (f g).id = g.id) {L : Nat} {h : Nat × Nat}
    (hp : t.place? a L = some h) (hh : Team_hasGroup t h.1) : (t.modActor a f).actor a = f (t.actor a) := by
  cases a with
  | grp n => cases hp; exact Team.groupAt_modGroupAt hh f
  | lead =>
    simp only [Team.place?] at hp
    split at hp
    · cases hp; exact Team.groupAt_modGroupAt hh f
    · cases hp
  | conj k =>
    simp only [Team.place?, Team.modActor, Team.actor] at hp ⊢
    rw [find?_mapIf _ _ _ _ (fun x => by simp [hid])]
    cases hc : t.conj.find? (fun c => decide (c.id = k)) with
    | none => simp [hc] at hp
    | some c => have := List.find?_some hc; simp at this; simp [this]

/-- An update of a group object that leaves a part of it alone leaves that part of every group object alone. -/
theorem Team.actor_modGroupAt_part {α : Type} (π : Group → α) {f : Group → Group} (hf : ∀ g, π (f g) = π g) (t : Team) (n : Nat) (a : Actor) :
    π ((t.modGroupAt n f).actor a) = π (t.actor a) := by
  have key : ∀ j, π ((t.modGroupAt n f).groupAt j) = π (t.groupAt j) := by
    intro j
    by_cases hj : j = n
    · subst hj
      by_cases hh : Team_hasGroup t j
      · rw [Team.groupAt_modGroupAt hh, hf]
      · rw [Team.groupAt_modGroupAt_not hh]
    · rw [Team.groupAt_modGroupAt_ne t f hj]
  cases a with
  | grp j => exact key j
  | lead => exact key leadGrp
  | conj k => simp [Team.actor]

theorem Team.actor_modActor_part {α : Type} (π : Group → α) {f : Group → Group} (hid : ∀ g, (f g).id = g.id) (hf : ∀ g, π (f g) = π g)
    (t : Team) (b a : Actor) : π ((t.modActor b f).actor a) = π (t.actor a) := by
  cases b with
  | grp n => exact Team.actor_modGroupAt_part π hf t n a
  | lead => exact Team.actor_modGroupAt_part π hf t leadGrp a
  | conj k =>
    cases a with
    | grp j => rfl
    | lead => rfl
    | conj j =>
      simp only [Team.modActor, Team.actor]
      rw [find?_mapIf _ _ _ _ (fun x => by simp [hid])]
      cases t.conj.find? (fun c => decide (c.id = j)) with
      | none => rfl
      | some c => simp only [Option.map_some, Option.getD_some]; split <;> simp [hf]

theorem Team.actor_modThread_part {α : Type} (π : Group → α) (hπ : ∀ g ths, π { g with threads := ths } = π g) (t : Team) (g l : Nat)
    (f : Thread → Thread) (a : Actor) : π ((t.modThread g l f).actor a) = π (t.actor a) :=
  Team.actor_modGroupAt_part π (fun x => hπ x _) t g a

/-- What a retire leaves of the issuer's group object: all but its threads. -/
theorem State.retire_cg_part {α : Type} (π : Group → α) (hπ : ∀ g ths, π { g with threads := ths } = π g) {s : State}
    (ht : (s.team? s.cur.team).isSome = true) (x : XHead) : π (s.retire x).cg = π s.cg := by
  show π ((s.retire x).ct.actor s.cur.who) = _
  rw [State.retire_ct ht]
  exact foldl_keeps (fun t => π (Team.actor t s.cur.who) = π s.cg) _
    (fun t h hb => (Team.actor_modThread_part π hπ t h.1 h.2 _ s.cur.who).trans hb) _ _ rfl

theorem TeamRegs.modActor (t : Team) (b : Actor) {f : Group → Group} (hid : ∀ g, (f g).id = g.id) (hg : ∀ g, (f g).g = g.g)
    (hth : ∀ g, (f g).threads = g.threads) : TeamRegs t (t.modActor b f) :=
  ⟨fun g l => by rw [Team.thread_modActor t b hth]; exact ⟨rfl, rfl⟩, fun a => Team.actor_modActor_part Group.g hid hg t b a, by simp⟩

/-- A note in the issuer's group object and the retire of its path: the path goes on, no register changes. -/
theorem State.noted_retire {s : State} (hi : Issuing s) (x : XHead) {f : Group → Group} (hid : ∀ g, (f g).id = g.id)
    (hpos : ∀ g, (f g).pos = g.pos) (hg : ∀ g, (f g).g = g.g) (hth : ∀ g, (f g).threads = g.threads) :
    Moved s ((s.modCg f).retire x) x ∧ OwnTeam s ((s.modCg f).retire x) ∧ RegsKept s ((s.modCg f).retire x) ∧
      (s.modCg f).ct = s.ct.modActor s.cur.who f := by
  have hq : Quiet s (s.modCg f) := Quiet.modCg s hid hpos hth
  have hct : (s.modCg f).ct = s.ct.modActor s.cur.who f := State.ct_modCt s _ (fun t => by simp) hi.team
  refine ⟨State.retire_moved hi hq x, ?_, ?_, hct⟩
  · exact (OwnTeam.modCt s _ fun t => by simp).trans (OwnTeam.retire _ x)
  · refine RegsKept.of rfl (TeamRegs.trans ?_ (retire_regs (hq.issuing hi).team x))
    rw [hct]
    exact TeamRegs.modActor _ _ hid hg hth

/-- A group that notes the cycle of a YIELD. -/
def Group_yielded (cyc : Nat) (g : Group) : Group := { g with yieldAt := cyc }

/-- `YIELD` (R150): the path goes on, and its group notes the cycle; the lead thread notes none. -/
theorem yieldOp_moves {s : State} (hi : Issuing s) (x : XHead) : ∃ t, yieldOp x s = .next t ∧ Moved s t x ∧ OwnTeam s t ∧ RegsKept s t ∧
    (s.path ≠ [] → s.cur.who ≠ .lead → t.cg.yieldAt = s.now + 1) := by
  refine ⟨_, rfl, ?_⟩
  by_cases hl : s.cur.who = .lead
  · rw [if_pos (by simp [State.isLead, hl])]
    exact ⟨State.retire_moved hi (Quiet.refl s) x, OwnTeam.retire s x, RegsKept.of rfl (retire_regs hi.team x), fun _ h => absurd hl h⟩
  · rw [if_neg (by simp [State.isLead, hl])]
    obtain ⟨h1, h2, h3, hct⟩ := State.noted_retire hi x (f := Group_yielded (s.now + 1)) (fun _ => rfl) (fun _ => rfl)
      (fun _ => rfl) fun _ => rfl
    refine ⟨h1, h2, h3, fun hp _ => ?_⟩
    obtain ⟨L, hL⟩ := List.exists_mem_of_ne_nil _ hp
    obtain ⟨hpl, _, hh⟩ := hi.place hL
    have hq : Quiet s (s.modCg (Group_yielded (s.now + 1))) := Quiet.modCg s (fun _ => rfl) (fun _ => rfl) fun _ => rfl
    show ((s.modCg (Group_yielded (s.now + 1))).retire x).cg.yieldAt = _
    rw [State.retire_cg_part Group.yieldAt (fun _ _ => rfl) (hq.issuing hi).team x]
    show ((s.modCg (Group_yielded (s.now + 1))).ct.actor s.cur.who).yieldAt = s.now + 1
    rw [hct, Team.actor_modActor (f := Group_yielded (s.now + 1)) (fun _ => rfl) hpl hh.1]
    rfl

/-! ### EXIT (R35, R149) -/

/-- The homes of the active lanes. -/
theorem mem_activeHomes {s : State} {x : XHead} {h : Nat × Nat} :
    h ∈ (s.active x).map s.home ↔ ∃ L ∈ s.active x, s.home L = h := List.mem_map

/-- The team after the exits of the active lanes and the retire of their path. -/
def State.exited (s : State) (x : XHead) : State := (s.modCt (Team_exits s.exitSt ((s.active x).map s.home))).retire x

/-- Exits leave the instruction in hand alone. -/
theorem State.afterExits_cur {team : Nat} (gs : List Nat) (s : State) (h : s.cur.team = team) :
    gs.foldl (fun s g => s.afterExit s.cur.team g) s = gs.foldl (fun t g => t.afterExit team g) s := by
  induction gs generalizing s with
  | nil => simp only [List.foldl_nil]
  | cons g r ih =>
    simp only [List.foldl_cons, h]
    exact ih _ (by rw [State.bare_cur (State.bare_afterExit s team g), h])

/-- The groups that lanes leave by EXIT. -/
def State.exitGroups (s : State) (x : XHead) : List Nat := keysOf (((s.active x).map s.home).map (·.1))

theorem exitOp_eq (x : XHead) (s : State) :
    exitOp x s = .next ((s.exitGroups x).foldl (fun t g => t.afterExit s.cur.team g) (s.exited x)) := by
  rw [← State.afterExits_cur (team := s.cur.team) (s.exitGroups x) (s.exited x) rfl, State.exited, ← State.exitThreads_eq]
  rfl

section
variable {s : State} (hi : Issuing s) (x : XHead)
include hi

theorem State.exited_ct : (s.modCt (Team_exits s.exitSt ((s.active x).map s.home))).ct = Team_exits s.exitSt ((s.active x).map s.home) s.ct :=
  State.ct_modCt s _ (fun t => Team_exits_id _ _ t) hi.team

theorem State.exits_isSome : ((s.modCt (Team_exits s.exitSt ((s.active x).map s.home))).team? s.cur.team).isSome = true := by
  show ((s.modTeam _ _).team? _).isSome = true
  rw [State.teamOpt_modTeam s _ _ fun t => Team_exits_id _ _ t]
  simpa using hi.team

theorem State.exited_steady : (s.exited x).cur = s.cur ∧ ((s.exited x).team? s.cur.team).isSome = true ∧
    (∀ g l, Team_hasThread (s.exited x).ct g l ↔ Team_hasThread s.ct g l) := by
  have h1 := State.exits_isSome hi x
  refine ⟨rfl, ?_, fun g l => ?_⟩
  · exact (Steady.retire h1 x).team.trans h1
  · rw [State.exited, (Steady.retire h1 x).has, State.exited_ct hi, Team.has_exits]

/-- The team stands where it stood. -/
theorem State.exited_stands : (s.exited x).ct.core = s.ct.core ∧ (s.exited x).ct.place = s.ct.place := by
  have hm : ∀ (f : Thread → Thread) (hs : List (Nat × Nat)) (t : Team), t.core = s.ct.core ∧ t.place = s.ct.place →
      (hs.foldl (fun t h => t.modThread h.1 h.2 f) t).core = s.ct.core ∧ (hs.foldl (fun t h => t.modThread h.1 h.2 f) t).place = s.ct.place :=
    fun f hs t => foldl_keeps (fun t : Team => t.core = s.ct.core ∧ t.place = s.ct.place) _ (fun t h ht => by simpa using ht) hs t
  have he : ∀ (hs : List (Nat × Nat)), (Team_exits s.exitSt hs s.ct).core = s.ct.core ∧ (Team_exits s.exitSt hs s.ct).place = s.ct.place :=
    fun hs => foldl_keeps (fun t : Team => t.core = s.ct.core ∧ t.place = s.ct.place) _
      (fun t h ht => by simpa [Team_exitOne, Team_leaveConj] using ht) hs s.ct ⟨rfl, rfl⟩
  rw [State.exited, State.retire_ct (State.exits_isSome hi x), State.exited_ct hi]
  exact hm _ _ _ (he _)

/-- Threads after the exits of the active lanes and the retire of the path, up to their readiness. -/
theorem State.exited_thread {g l : Nat} (hh : Team_hasThread s.ct g l) :
    ((s.exited x).ct.thread g l).st = (if (g, l) ∈ (s.active x).map s.home then s.exitSt (g, l) else (s.ct.thread g l).st) := by
  have h1 := State.exited_ct hi x
  have ht := State.exits_isSome hi x
  rw [State.exited, State.retire_thread ht x (by rw [h1]; exact (Team.has_exits _ _ _ _ _).mpr hh), h1, Team.thread_exits _ _ hh]
  have hr : ∀ th, ((s.modCt (Team_exits s.exitSt ((s.active x).map s.home))).retired x th).st = th.st := fun th => (State.retired_fields _ x th).1
  split <;> split <;> simp only [hr]

/-- A lane of the path whose thread is none of those that exit goes on. -/
theorem State.exited_goesOn {L : Nat} (hL : L ∈ s.path) (hn : s.home L ∉ (s.active x).map s.home) :
    ((s.exited x).ct.thread (s.home L).1 (s.home L).2).st = .run ∧ ((s.exited x).ct.thread (s.home L).1 (s.home L).2).pc = s.nextPc := by
  obtain ⟨hpl, hth, hh⟩ := hi.place hL
  obtain ⟨h1, h2, h3⟩ := hi.path L hL
  have hct := State.exited_ct hi x
  have ht := State.exits_isSome hi x
  have hmem : s.home L ∈ (s.modCt (Team_exits s.exitSt ((s.active x).map s.home))).pathHomes := by
    refine List.mem_filterMap.mpr ⟨L, hL, ?_⟩
    rw [hct]
    exact Team.place_exits hpl hn
  rw [State.exited, State.retire_thread ht x (by rw [hct]; exact (Team.has_exits _ _ _ _ _).mpr hh), if_pos hmem, hct,
    Team.thread_exits _ _ hh, if_neg hn, ← hth]
  have he : (s.modCt (Team_exits s.exitSt ((s.active x).map s.home))).retired x (s.cth L) = s.retired x (s.cth L) := rfl
  rw [he, State.retired_run h1 h2 h3]
  exact ⟨h1, rfl⟩

/-- The team is exited after the exits exactly when each of its threads was, or is one of those that exit at once. -/
theorem State.exited_allDone :
    (s.exited x).ct.live = [] ↔ ∀ g l, Team_hasThread s.ct g l →
      (s.ct.thread g l).st = .exited ∨ ∃ L ∈ s.active x, s.home L = (g, l) ∧ s.anyAbroad s.cur.team g l = false := by
  rw [Team.live_nil_iff]
  refine forall_congr' fun g => forall_congr' fun l => ?_
  rw [(State.exited_steady hi x).2.2]
  refine imp_congr_right fun hh => ?_
  rw [State.exited_thread hi x hh]
  by_cases hm : (g, l) ∈ (s.active x).map s.home
  · obtain ⟨L, hL, hLh⟩ := List.mem_map.mp hm
    have hrun : (s.ct.thread g l).st = .run := by
      have := hi.place (active_sub hL)
      rw [hLh] at this
      rw [← this.2.1]; exact (hi.path L (active_sub hL)).1
    rw [if_pos hm, State.exitSt, hrun]
    cases hab : s.anyAbroad s.cur.team g l with
    | true => simp
    | false => simpa [hab] using ⟨L, hL, hLh⟩
  · rw [if_neg hm]
    refine ⟨.inl, ?_⟩
    rintro (h | ⟨L, hL, hLh, _⟩)
    · exact h
    · exact absurd (List.mem_map.mpr ⟨L, hL, hLh⟩) hm
end

/-- Every thread of the team was exited, or is the last of its registers' to exit with the active lanes. -/
theorem allDone_iff {t : Team} {P : Nat → Nat → Prop} :
    (∀ g ∈ t.allGroups ++ [leadGrp], ∀ l th, (t.groupAt g).threads[l]? = some th → th.st = .exited ∨ P g l) ↔
      ∀ g l, Team_hasThread t g l → (t.thread g l).st = .exited ∨ P g l := by
  constructor
  · intro h g l hh
    have hg : g ∈ t.allGroups ++ [leadGrp] := by
      rcases hh.1 with ⟨rfl, _⟩ | ⟨_, hg⟩
      · simp
      · simp [Team.allGroups, hg]
    have hth : (t.groupAt g).threads[l]? = some (t.thread g l) := by simp [Team.thread, List.getD, hh.2]
    exact h g hg l _ hth
  · intro h g _ l th hth
    obtain ⟨hh, rfl⟩ := Team.thread_of_getElem? hth
    exact h g l hh

section
variable {s : State} (hi : Issuing s) (x : XHead)
include hi

/-- The team of a path that exits, as it stands before what the exits bring about. -/
theorem State.exited_team : ∃ a, (s.exited x).team? s.cur.team = some a ∧ (s.exited x).ct = a := by
  obtain ⟨a, ha⟩ := Option.isSome_iff_exists.mp (State.exited_steady hi x).2.1
  exact ⟨a, ha, by show ((s.exited x).team? s.cur.team).getD _ = a; rw [ha]; rfl⟩

/-- Threads of the issuer's team after EXIT, while the team is there: those that exit, and those that go on. -/
theorem exitOp_threads {t : State} (ht : exitOp x s = .next t) (hn : t.team? s.cur.team ≠ none) :
    (∀ L ∈ s.active x, (t.wasAt s L).st = s.exitSt (s.home L)) ∧
      ∀ L ∈ s.path, (∀ M ∈ s.active x, s.home M ≠ s.home L) → (t.wasAt s L).st = .run ∧ (t.wasAt s L).pc = s.nextPc := by
  rw [exitOp_eq] at ht
  cases ht
  rcases State.afterExits_cases s.cur.team (s.exitGroups x) (s.exited x) with h | ⟨h, _⟩
  · obtain ⟨a, ha, hct⟩ := State.exited_team hi x
    obtain ⟨b, hb, hab⟩ := h.some ha
    have hteam : State.team ((s.exitGroups x).foldl (fun t g => t.afterExit s.cur.team g) (s.exited x)) s.cur.team = b := by
      unfold State.team; rw [hb]; rfl
    have hfree : ∀ L ∈ s.path, Thread_freed (a.thread (s.home L).1 (s.home L).2) (b.thread (s.home L).1 (s.home L).2) := fun L hL =>
      hab.thread _ _ (by rw [← hct, (State.exited_steady hi x).2.2]; exact (hi.place hL).2.2)
    simp only [State.wasAt, hteam]
    constructor
    · intro L hL
      have hst := State.exited_thread hi x (hi.place (active_sub hL)).2.2
      rw [if_pos (List.mem_map_of_mem hL), hct] at hst
      have hex : s.exitSt (s.home L) = .exited ∨ s.exitSt (s.home L) = .exiting := by unfold State.exitSt; split <;> simp
      rw [← hst] at hex ⊢
      exact ((hfree L (active_sub hL)).1 (.inr hex)).1
    · intro L hL hno
      have hgo := State.exited_goesOn hi x hL (by simpa using hno)
      rw [hct] at hgo
      obtain ⟨h1, h2⟩ := (hfree L hL).1 (.inl hgo.1)
      exact ⟨h1.trans hgo.1, h2.trans hgo.2⟩
  · exact absurd h hn

/-- A team that is gone after EXIT had no thread left but those that exited. -/
theorem exitOp_gone {t : State} (ht : exitOp x s = .next t) (hn : t.team? s.cur.team = none) : (s.exited x).ct.live = [] := by
  rw [exitOp_eq] at ht
  cases ht
  obtain ⟨a, ha, hct⟩ := State.exited_team hi x
  rcases State.afterExits_cases s.cur.team (s.exitGroups x) (s.exited x) with h | ⟨_, b, hb, hl⟩
  · rw [h.none_iff.mp hn] at ha; cases ha
  · cases ha.symm.trans hb; rw [hct]; exact hl

/-- A team of which EXIT leaves nothing live, and whose stores to its stack are done, ends (R35, R100). -/
theorem exitOp_ends {t : State} (ht : exitOp x s = .next t) (hl : (s.exited x).ct.live = []) (ha : s.active x ≠ [])
    (hp : s.ct.place ≠ .admitting) (hs : ∀ y ∈ (s.core s.ct.core).stack, y.team = s.cur.team → y.dirty = false)
    (hd : s.stackDone s.cur.team = true) : t.team? s.cur.team = none := by
  rw [exitOp_eq] at ht
  cases ht
  obtain ⟨a, hat, hct⟩ := State.exited_team hi x
  have hcp : a.core = s.ct.core ∧ a.place = s.ct.place := by
    rw [← hct]
    exact State.exited_stands hi x
  obtain ⟨g, r, hg⟩ : ∃ g r, s.exitGroups x = g :: r := by
    cases e : s.exitGroups x with
    | cons g r => exact ⟨g, r, rfl⟩
    | nil =>
      obtain ⟨L, hL⟩ := List.exists_mem_of_ne_nil _ ha
      have : (s.home L).1 ∈ s.exitGroups x := mem_keysOf.mpr (List.mem_map_of_mem (List.mem_map_of_mem hL))
      rw [e] at this; cases this
  have hfirst : ((s.exited x).afterExit s.cur.team g).team? s.cur.team = none := by
    rw [hct] at hl
    exact State.afterExit_gone g hat (Team.live_nil_iff.mp hl) (hcp.2 ▸ hp) (by rw [hcp.1]; exact hs) hd
  rw [hg, List.foldl_cons]
  rcases State.afterExits_cases s.cur.team r ((s.exited x).afterExit s.cur.team g) with h | ⟨h, _⟩
  · exact h.none_iff.mpr hfirst
  · exact h

end

/-- `EXIT` as the obligation states it, for either form. -/
theorem exitOp_done {s : State} (hi : Issuing s) (x : XHead) :
    let last (g l : Nat) : Prop := ∃ L ∈ s.active x, s.home L = (g, l) ∧ s.anyAbroad s.cur.team g l = false
    let allDone : Prop := ∀ g ∈ s.ct.allGroups ++ [leadGrp], ∀ l th, (s.ct.groupAt g).threads[l]? = some th → th.st = .exited ∨ last g l
    ∃ t, exitOp x s = .next t ∧
      (t.team? s.cur.team ≠ none →
        (∀ L ∈ s.active x, (t.wasAt s L).st = if s.anyAbroad s.cur.team (s.home L).1 (s.home L).2 then .exiting else .exited) ∧
        ∀ L ∈ s.path, (∀ M ∈ s.active x, s.home M ≠ s.home L) → (t.wasAt s L).st = .run ∧ (t.wasAt s L).pc = s.nextPc) ∧
      (t.team? s.cur.team = none → allDone) ∧
      (allDone → s.active x ≠ [] → s.ct.place ≠ .admitting → (∀ y ∈ (s.core s.ct.core).stack, y.team = s.cur.team → y.dirty = false) →
        s.stackStores s.cur.team = false →
        (∀ h ∈ s.homes, h.wb = true → h.team = s.cur.team → h.w ≤ s.gtc) → t.team? s.cur.team = none) := by
  intro last allDone
  obtain ⟨t, ht⟩ : ∃ t, exitOp x s = .next t := ⟨_, exitOp_eq x s⟩
  have hdone : allDone ↔ (s.exited x).ct.live = [] := allDone_iff.trans (State.exited_allDone hi x).symm
  refine ⟨t, ht, exitOp_threads hi x ht, fun hn => hdone.mpr (exitOp_gone hi x ht hn), fun had hact hpl hstk hst hwb => ?_⟩
  refine exitOp_ends hi x ht (hdone.mp had) hact hpl hstk ?_
  have hfl : s.flushed s.cur.team = true := by
    unfold State.flushed
    rw [List.all_eq_true]
    intro h hh
    have := hwb h hh
    by_cases h1 : h.wb = true <;> by_cases h2 : h.team = s.cur.team <;> simp_all
  simp [State.stackDone, hfl, hst]

/-- Settles O9: jumps and NOP by the retire of the path to its targets, EXIT by `State.afterExits_cases` on the team that its
exits leave, YIELD by a note in its group object. -/
theorem controlTransfers : Obligations.ControlTransfers := by
  refine ⟨⟨fun i j hj s hi => jumpOp_jumps hj hi, fun i j hj s hi hal => pairJump_jumps hj hi hal⟩, fun i x hx s hi => ?_,
    fun i x s hi => ⟨fun hn => noEffect_moves hn hi, fun hy => ?_⟩⟩
  · cases i <;> simp only [exitIs, reduceCtorEq, Option.some.injEq] at hx <;> subst hx
    case exit stl => exact exitOp_done hi _
    case exitExt x => exact exitOp_done hi _
  · cases i <;> simp only [yieldIs, reduceCtorEq, Option.some.injEq] at hy <;> subst hy
    case yieldB stl => exact yieldOp_moves hi _
    case yieldExt x => exact yieldOp_moves hi _

end Sys2Proof.Machine
end

section
namespace Sys2Proof.Machine

/-! ### Teams updated step by step -/

/-- Steps that each update one named thread by the same idempotent function, whatever else they do to its group. -/
theorem Team.thread_foldSteps {k : Team → Nat × Nat → Team} {f : Thread → Thread} (hf : ∀ th, f (f th) = f th)
    (hh : ∀ t h g l, Team_hasThread (k t h) g l ↔ Team_hasThread t g l)
    (hk : ∀ t h, Team_hasThread t h.1 h.2 → (k t h).thread h.1 h.2 = f (t.thread h.1 h.2))
    (hn : ∀ t h g l, (g, l) ≠ h → (k t h).thread g l = t.thread g l) (hs : List (Nat × Nat)) {t : Team} {g l : Nat}
    (h : Team_hasThread t g l) : (hs.foldl k t).thread g l = if (g, l) ∈ hs then f (t.thread g l) else t.thread g l := by
  induction hs generalizing t with
  | nil => simp
  | cons x r ih =>
    rw [List.foldl_cons, ih ((hh t x g l).mpr h)]
    by_cases hx : (g, l) = x
    · subst hx
      rw [hk t (g, l) h]
      simp [hf]
    · rw [hn t x g l hx]
      simp [hx]

/-- Groups each updated by the same idempotent function. -/
theorem Team.groupAt_foldGroups {F : Group → Group} (hF : ∀ x, F (F x) = F x) (gs : List Nat) {t : Team} {g : Nat} (h : Team_hasGroup t g) :
    (gs.foldl (fun t g => t.modGroupAt g F) t).groupAt g = if g ∈ gs then F (t.groupAt g) else t.groupAt g := by
  induction gs generalizing t with
  | nil => simp
  | cons j r ih =>
    rw [List.foldl_cons, ih ((Team.hasGroup_modGroupAt t j g F).mpr h)]
    by_cases hj : g = j
    · subst hj
      rw [Team.groupAt_modGroupAt h]
      simp [hF]
    · rw [Team.groupAt_modGroupAt_ne t F hj]
      simp [hj]

/-- A part of a group that the update of threads leaves alone. -/
theorem State.retire_groupAt_part {α : Type} (π : Group → α) (hπ : ∀ g ths, π { g with threads := ths } = π g) {s : State}
    (ht : (s.team? s.cur.team).isSome = true) (x : XHead) (g : Nat) : π ((s.retire x).ct.groupAt g) = π (s.ct.groupAt g) := by
  rw [State.retire_ct ht]
  exact foldl_keeps (fun t => π (Team.groupAt t g) = π (s.ct.groupAt g)) (fun t (h : Nat × Nat) => t.modThread h.1 h.2 (s.retired x))
    (fun t h hb => (Team.actor_modThread_part π hπ t h.1 h.2 _ (.grp g)).trans hb) _ _ rfl

theorem State.modCt_isSome {s : State} {f : Team → Team} (hid : ∀ t, (f t).id = t.id) (h : (s.team? s.cur.team).isSome = true) :
    ((s.modCt f).team? s.cur.team).isSome = true := by
  have : (s.modCt f).team? s.cur.team = (s.team? s.cur.team).map f := State.teamOpt_modTeam s _ f hid
  rw [this]; simpa using h

/-! ### Predicates and slot bits -/

theorem Thread.getP_setP_self (th : Thread) (n : BitVec 3) : (th.setP n.toNat true).getP n.toNat = true := by
  unfold Thread.setP Thread.getP
  by_cases h : n.toNat = 7
  · simp [h]
  · have hn : n.toNat < 8 := n.isLt
    simp only [h, if_false, decide_false, Bool.false_or, setBit8, if_true, BitVec.getLsbD_or]
    rw [BitVec.getLsbD_ofNat]
    simp [hn, Nat.testBit_two_pow_self]

theorem getLsbD_twoPow_self {w i : Nat} (h : i < w) : (BitVec.ofNat w (2 ^ i)).getLsbD i = true := by
  rw [BitVec.getLsbD_ofNat, Nat.testBit_two_pow_self]
  simp [h]

theorem getLsbD_setBit_true {m : BitVec 16} {i : Nat} (h : i < 16) : (setBit m i true).getLsbD i = true := by
  unfold setBit
  rw [if_pos rfl, BitVec.getLsbD_or, getLsbD_twoPow_self h, Bool.or_true]

theorem getLsbD_setBit_false {m : BitVec 16} {i : Nat} : (setBit m i false).getLsbD i = false := by
  by_cases h : i < 16
  · unfold setBit
    rw [if_neg (by simp), BitVec.getLsbD_and, BitVec.getLsbD_not, getLsbD_twoPow_self h]
    simp
  · exact BitVec.getLsbD_of_ge _ _ (Nat.le_of_not_lt h)

/-! ### Completion of a reconvergence slot (R19) -/

/-- Every member of a slot has arrived or exited. -/
def Group_rcvReady (g : Group) (b : Nat) : Prop := ∀ th ∈ g.threads, th.member.getLsbD b = true → th.arrived.getLsbD b = true ∨ th.st = .exited

/-- Somebody has arrived at a slot and waits. -/
def Group_rcvWaits (g : Group) (b : Nat) : Prop := ∃ th ∈ g.threads, th.arrived.getLsbD b = true ∧ th.st ≠ .exited

/-- A slot that is full and has somebody waiting completes: every thread has left it. -/
theorem Group_rcvComplete_full {g : Group} {b : Nat} (hr : Group_rcvReady g b) (hw : Group_rcvWaits g b) :
    (Group_rcvComplete g b).threads = g.threads.map (Thread_rcvDone b) := by
  have h1 : (g.threads.all fun th => !Thread_memberOf th b || Thread_arrivedAt th b || th.gone) = true := by
    rw [List.all_eq_true]
    intro th hth
    have := hr th hth
    cases hm : th.member.getLsbD b <;> simp_all [Thread_memberOf, Thread_arrivedAt, Thread.gone]
  have h2 : (g.threads.any fun th => Thread_arrivedAt th b && !th.gone) = true := by
    obtain ⟨th, hth, ha, hx⟩ := hw
    exact List.any_eq_true.mpr ⟨th, hth, by simp [Thread_arrivedAt, Thread.gone, ha, hx]⟩
  unfold Group_rcvComplete
  simp only [h1, h2, Bool.and_self, if_true]
  rfl

/-- A slot with a member that has neither arrived nor exited stays as it is. -/
theorem Group_rcvComplete_open {g : Group} {b : Nat} (h : ¬ Group_rcvReady g b) : Group_rcvComplete g b = g := by
  have h1 : (g.threads.all fun th => !Thread_memberOf th b || Thread_arrivedAt th b || th.gone) = false := by
    rw [Bool.eq_false_iff]
    intro hall
    refine h fun th hth hm => ?_
    have := List.all_eq_true.mp hall th hth
    simpa [Thread_memberOf, Thread_arrivedAt, Thread.gone, hm] using this
  unfold Group_rcvComplete
  simp only [h1, Bool.false_and, Bool.false_eq_true, if_false]

/-- A slot that nobody waits at stays as it is. -/
theorem Group_rcvComplete_idle {g : Group} {b : Nat} (h : ¬ Group_rcvWaits g b) : Group_rcvComplete g b = g := by
  have h2 : (g.threads.any fun th => Thread_arrivedAt th b && !th.gone) = false := by
    rw [Bool.eq_false_iff]
    intro hany
    obtain ⟨th, hth, hx⟩ := List.any_eq_true.mp hany
    exact h ⟨th, hth, by simpa [Thread_arrivedAt, Thread.gone] using hx⟩
  unfold Group_rcvComplete
  simp only [h2, Bool.and_false, Bool.false_eq_true, if_false]

/-- A completion leaves nobody at the slot, so that a second one changes nothing. -/
theorem Group_rcvComplete_idem (g : Group) (b : Nat) : Group_rcvComplete (Group_rcvComplete g b) b = Group_rcvComplete g b := by
  by_cases hr : Group_rcvReady g b
  · by_cases hw : Group_rcvWaits g b
    · refine Group_rcvComplete_idle ?_
      rintro ⟨th, hth, ha, _⟩
      rw [Group_rcvComplete_full hr hw] at hth
      obtain ⟨th0, _, rfl⟩ := List.mem_map.mp hth
      have : (Thread_rcvDone b th0).arrived.getLsbD b = false := getLsbD_setBit_false
      rw [this] at ha; cases ha
    · rw [Group_rcvComplete_idle hw]; exact Group_rcvComplete_idle hw
  · rw [Group_rcvComplete_open hr]; exact Group_rcvComplete_open hr

/-- The completion of a slot leaves a thread that runs where it is. -/
theorem Thread_rcvDone_run {th : Thread} (b : Nat) (h : th.st = .run) :
    (Thread_rcvDone b th).st = .run ∧ (Thread_rcvDone b th).pc = th.pc ∧ (Thread_rcvDone b th).p = th.p := by
  have : Thread_rcvEnd th true = th := by simp [Thread_rcvEnd, h]
  unfold Thread_rcvDone
  rw [this]
  simp [h]

theorem Thread.setP_fields (th : Thread) (n : Nat) (v : Bool) : (th.setP n v).st = th.st ∧ (th.setP n v).pc = th.pc ∧
    (th.setP n v).member = th.member ∧ (th.setP n v).arrived = th.arrived ∧ (th.setP n v).level = th.level := by
  unfold Thread.setP; split <;> simp

/-- The completion of a slot sends a thread that has arrived there on, with its predicate true (R19, R151). -/
theorem Thread_rcvDone_wait {th : Thread} {b slot : Nat} {q : BitVec 3} (h : th.st = .rcv slot q) (ha : th.arrived.getLsbD b = true) :
    (Thread_rcvDone b th).st = .run ∧ (Thread_rcvDone b th).pc = th.pc + 12 ∧ (Thread_rcvDone b th).getP q.toNat = true ∧
      (Thread_rcvDone b th).member.getLsbD b = false := by
  have e : Thread_rcvEnd th true = { (th.setP q.toNat true) with st := .run, pc := th.pc + 12 } := by simp [Thread_rcvEnd, h]
  unfold Thread_rcvDone
  rw [Thread_arrivedAt, ha, if_pos rfl, e]
  exact ⟨rfl, rfl, Thread.getP_setP_self th q, getLsbD_setBit_false⟩

end Sys2Proof.Machine
end

section
namespace Sys2Proof.Machine

/-! ### RCV.SET (R19, R151) -/

/-- A thread becomes a member of a slot that has not arrived. -/
def Thread_rcvSet (b : Nat) (th : Thread) : Thread := { th with member := setBit th.member b true, arrived := setBit th.arrived b false }

theorem Thread_rcvSet_idem (b : Nat) (th : Thread) : Thread_rcvSet b (Thread_rcvSet b th) = Thread_rcvSet b th := by
  simp [Thread_rcvSet, setBit_idem]

/-- Nobody waits at a slot that no active lane's home group is busy at. -/
theorem State.rcvSetOp_some {s : State} {x : XHead} {slot : BitVec 4} (h : ∀ L ∈ s.active x, ¬ s.slotBusy L slot) :
    s.rcvSetOp (s.active x) slot.toNat =
      some (s.modCt fun t => (s.homesOf (s.active x)).foldl (fun t h => t.modThread h.1 h.2 (Thread_rcvSet slot.toNat)) t) := by
  unfold State.rcvSetOp
  rw [if_neg]
  · rfl
  · intro hany
    obtain ⟨k, hk, hw⟩ := List.any_eq_true.mp hany
    obtain ⟨L, hL, rfl⟩ := List.mem_map.mp hk
    obtain ⟨th, hth, hx⟩ := List.any_eq_true.mp hw
    exact h L hL ⟨th, hth, by simpa [Thread_arrivedAt, Thread.gone] using hx⟩

theorem rcvSet_done {x : XHead} {slot : BitVec 4} {s : State} (hi : Issuing s) (h : ∀ L ∈ s.active x, ¬ s.slotBusy L slot) :
    ∃ t, exec (.rcvSet x slot) s = .next t ∧ Moved s t x ∧ OwnTeam s t ∧ RegsKept s t ∧ ∀ L ∈ s.active x,
      (t.cth L).member = setBit (s.cth L).member slot.toNat true ∧ (t.cth L).arrived = setBit (s.cth L).arrived slot.toNat false := by
  let s1 := s.modCt fun t => (s.homesOf (s.active x)).foldl (fun t h => t.modThread h.1 h.2 (Thread_rcvSet slot.toNat)) t
  have hs : Steady s s1 := Steady.modHomes hi.team _ _
  have hct : s1.ct = _ := State.ct_modHomes hi.team _ _
  have hs2 : Steady s (s1.retire x) := hs.trans (Steady.retire (hs.isSome hi.team) x)
  have hthread : ∀ L ∈ s.path, (s1.retire x).cth L = s.retired x
      (if s.home L ∈ s.homesOf (s.active x) then Thread_rcvSet slot.toNat (s.cth L) else s.cth L) := by
    intro L hL
    obtain ⟨_, h2, h3⟩ := hi.place hL
    rw [hs2.cth hi hL, State.retire_after hs hi.team x h3, if_pos (hi.mem_pathHomes hL), hct,
      Team.thread_foldHomes (Thread_rcvSet_idem _) _ h3, ← h2]
  refine ⟨s1.retire x, ?_, fun L hL => ?_, ?_, ?_, fun L hL => ?_⟩
  · show execRcvSet x slot s = _
    unfold execRcvSet
    rw [State.rcvSetOp_some h]
  · obtain ⟨r1, r2, r3⟩ := hi.path L hL
    rw [hthread L hL, State.retired_run (by split <;> exact r1) (by split <;> exact r2) (by split <;> exact r3)]
    exact ⟨rfl, rfl, by split <;> exact r1, by split <;> exact r3⟩
  · exact (OwnTeam.modCt s _ fun t => foldl_id _ (fun _ _ => by simp) _ _).trans (OwnTeam.retire _ x)
  · refine RegsKept.of hs2.cur (TeamRegs.trans ?_ (retire_regs (hs.isSome hi.team) x))
    rw [hct]
    exact TeamRegs.foldl (fun t (h : Nat × Nat) => t.modThread h.1 h.2 (Thread_rcvSet slot.toNat))
      (fun t h => TeamRegs.modThread t _ _ _ (fun _ => rfl) fun _ => rfl) _ _
  · obtain ⟨_, _, _, _, _, hm, ha⟩ := State.retired_fields s x (Thread_rcvSet slot.toNat (s.cth L))
    have hmem : s.home L ∈ s.homesOf (s.active x) := List.mem_map_of_mem hL
    rw [hthread L (active_sub hL), if_pos hmem]
    exact ⟨hm, ha⟩

/-! ### RCV.WAIT (R19 to R21, R151, R260) -/

/-- A thread arrives at a slot and waits there. -/
def Thread_arrive (b : Nat) (p : BitVec 3) (th : Thread) : Thread := { th with arrived := setBit th.arrived b true, st := .rcv b p }

theorem Thread_arrive_idem (b : Nat) (p : BitVec 3) (th : Thread) : Thread_arrive b p (Thread_arrive b p th) = Thread_arrive b p th := by
  simp [Thread_arrive, setBit_idem]

/-- An arrival in a team. -/
def Team_arrive (b : Nat) (p : BitVec 3) (exp : Option Nat) (t : Team) (h : Nat × Nat) : Team :=
  t.modGroupAt h.1 fun g => Group_arrive g h.2 b p exp

theorem Group_arrive_threads (g : Group) (l b : Nat) (p : BitVec 3) (exp : Option Nat) :
    (Group_arrive g l b p exp).threads = g.threads.set l (Thread_arrive b p (g.threads.getD l noThread)) := rfl

theorem Team.has_arrive (b : Nat) (p : BitVec 3) (exp : Option Nat) (t : Team) (h : Nat × Nat) (g l : Nat) :
    Team_hasThread (Team_arrive b p exp t h) g l ↔ Team_hasThread t g l :=
  Team.hasThread_modGroupAt t h.1 (by simp [Group_arrive_threads]) g l

theorem Team.thread_arrive (b : Nat) (p : BitVec 3) (exp : Option Nat) (t : Team) (h : Nat × Nat) (hh : Team_hasThread t h.1 h.2) :
    (Team_arrive b p exp t h).thread h.1 h.2 = Thread_arrive b p (t.thread h.1 h.2) := by
  unfold Team_arrive
  conv => lhs; unfold Team.thread
  rw [Team.groupAt_modGroupAt hh.1, Group_arrive_threads]
  simp [List.getD, hh.2, Team.thread]

theorem Team.thread_arrive_ne (b : Nat) (p : BitVec 3) (exp : Option Nat) (t : Team) (h : Nat × Nat) (g l : Nat) (hne : (g, l) ≠ h) :
    (Team_arrive b p exp t h).thread g l = t.thread g l := by
  unfold Team_arrive
  by_cases hg : g = h.1
  · subst hg
    have hl : l ≠ h.2 := fun e => hne (by rw [e])
    by_cases hh : Team_hasGroup t h.1
    · unfold Team.thread
      rw [Team.groupAt_modGroupAt hh, Group_arrive_threads]
      simp [List.getD, Ne.symm hl]
    · unfold Team.thread
      rw [Team.groupAt_modGroupAt_not hh]
  · unfold Team.thread
    rw [Team.groupAt_modGroupAt_ne t _ hg]

theorem Team.place_arrive (b : Nat) (p : BitVec 3) (exp : Option Nat) (t : Team) (h : Nat × Nat) (a : Actor) (L : Nat) :
    (Team_arrive b p exp t h).place? a L = t.place? a L := by
  cases a <;> simp [Team_arrive, Team.place?]

/-- Arrivals of several threads, thread by thread. -/
theorem Team.thread_arrives (b : Nat) (p : BitVec 3) (exp : Option Nat) (hs : List (Nat × Nat)) {t : Team} {g l : Nat}
    (h : Team_hasThread t g l) :
    (hs.foldl (Team_arrive b p exp) t).thread g l = if (g, l) ∈ hs then Thread_arrive b p (t.thread g l) else t.thread g l :=
  Team.thread_foldSteps (Thread_arrive_idem b p) (Team.has_arrive b p exp) (Team.thread_arrive b p exp) (Team.thread_arrive_ne b p exp) hs h

/-- The first arrival at a slot of a group sets its expiry, and later ones leave it (R19). -/
theorem Team.expiry_arrives {b : Nat} (hb : b < 16) (p : BitVec 3) (e : Nat) (hs : List (Nat × Nat)) {t : Team} {g : Nat}
    (hall : ∀ h ∈ hs, Team_hasThread t h.1 h.2) :
    (Group_rcvWaits (t.groupAt g) b → ((hs.foldl (Team_arrive b p (some e)) t).groupAt g).expiry = (t.groupAt g).expiry) ∧
    (¬ Group_rcvWaits (t.groupAt g) b → (∃ l, (g, l) ∈ hs) →
      ((hs.foldl (Team_arrive b p (some e)) t).groupAt g).expiry = tabPut (t.groupAt g).expiry b e) := by
  induction hs generalizing t with
  | nil => simp
  | cons x r ih =>
    have hx : Team_hasThread t x.1 x.2 := hall x List.mem_cons_self
    obtain ⟨ih1, ih2⟩ := ih (t := Team_arrive b p (some e) t x) fun h hh => (Team.has_arrive _ _ _ _ _ _ _).mpr (hall h (List.mem_cons_of_mem _ hh))
    have hany : ∀ y : Group, (y.threads.any fun th => Thread_arrivedAt th b && !th.gone) = true ↔ Group_rcvWaits y b := by
      intro y; simp [Group_rcvWaits, Thread_arrivedAt, Thread.gone]
    rw [List.foldl_cons]
    by_cases hg : x.1 = g
    · have hat : (Team_arrive b p (some e) t x).groupAt g = Group_arrive (t.groupAt g) x.2 b p (some e) := by
        subst hg; exact Team.groupAt_modGroupAt hx.1 _
      have hw : Group_rcvWaits ((Team_arrive b p (some e) t x).groupAt g) b := by
        refine ⟨Thread_arrive b p (t.thread x.1 x.2), ?_, getLsbD_setBit_true hb, by simp [Thread_arrive]⟩
        subst hg
        exact Team.mem_threads.mpr ⟨x.2, (Team.has_arrive _ _ _ _ _ _ _).mpr hx, Team.thread_arrive b p _ t x hx⟩
      rw [ih1 hw, hat]
      constructor
      · intro h
        simp [Group_arrive, (hany _).mpr h]
      · intro h _
        have : ((t.groupAt g).threads.any fun th => Thread_arrivedAt th b && !th.gone) = false := by
          rw [Bool.eq_false_iff]; exact fun c => h ((hany _).mp c)
        simp only [Group_arrive, this, Bool.not_false, if_true]
    · have hat : (Team_arrive b p (some e) t x).groupAt g = t.groupAt g := Team.groupAt_modGroupAt_ne t _ (Ne.symm hg)
      rw [hat] at ih1 ih2
      refine ⟨ih1, fun h hl => ih2 h ?_⟩
      obtain ⟨l, hl⟩ := hl
      rcases List.mem_cons.mp hl with rfl | hl
      · exact absurd rfl hg
      · exact ⟨l, hl⟩

/-- What RCV.WAIT does to a thread that is no member of the slot. -/
def Thread_passes (p : BitVec 3) (th : Thread) : Thread := th.setP p.toNat true

theorem Thread_passes_idem (p : BitVec 3) (th : Thread) : Thread_passes p (Thread_passes p th) = Thread_passes p th := by
  unfold Thread_passes Thread.setP
  split
  · rfl
  · simp [setBit8, BitVec.or_assoc]

/-- Homes of active lanes that are members of a slot, and of those that are not. -/
def State.rcvMem (s : State) (x : XHead) (b : Nat) : List (Nat × Nat) :=
  (s.homesOf (s.active x)).filter fun h : Nat × Nat => Thread_memberOf (s.ct.thread h.1 h.2) b
def State.rcvNon (s : State) (x : XHead) (b : Nat) : List (Nat × Nat) :=
  (s.homesOf (s.active x)).filter fun h : Nat × Nat => !Thread_memberOf (s.ct.thread h.1 h.2) b

/-- The updates of RCV.WAIT before the retire: those that pass, and those that arrive. -/
def State.rcvArrived (s : State) (x : XHead) (b : Nat) (p : BitVec 3) (exp : Option Nat) : State :=
  (s.modCt fun t => (s.rcvNon x b).foldl (fun t h => t.modThread h.1 h.2 (Thread_passes p)) t).modCt fun t =>
    (s.rcvMem x b).foldl (Team_arrive b p exp) t

/-- RCV.WAIT up to the retire of its path. -/
def State.rcvWaited (s : State) (x : XHead) (b : Nat) (p : BitVec 3) (exp : Option Nat) : State := (s.rcvArrived x b p exp).retire x

/-- What RCV.WAIT makes of a thread before the retire: an active lane that is a member arrives, another one passes. -/
def State.rcvThread (s : State) (x : XHead) (b : Nat) (p : BitVec 3) (g l : Nat) : Thread :=
  if (g, l) ∈ s.rcvMem x b then Thread_arrive b p (s.ct.thread g l)
  else if (g, l) ∈ s.rcvNon x b then Thread_passes p (s.ct.thread g l) else s.ct.thread g l

section
variable {s : State} (hi : Issuing s) (x : XHead) (b : Nat) (p : BitVec 3) (exp : Option Nat)

theorem State.mem_rcvMem {L : Nat} (hL : L ∈ s.active x) :
    s.home L ∈ s.rcvMem x b ↔ (s.ct.thread (s.home L).1 (s.home L).2).member.getLsbD b = true := by
  have hh : s.home L ∈ s.homesOf (s.active x) := List.mem_map_of_mem hL
  simp [State.rcvMem, Thread_memberOf, hh]

theorem State.mem_rcvNon {L : Nat} (hL : L ∈ s.active x) :
    s.home L ∈ s.rcvNon x b ↔ (s.ct.thread (s.home L).1 (s.home L).2).member.getLsbD b = false := by
  have hh : s.home L ∈ s.homesOf (s.active x) := List.mem_map_of_mem hL
  simp [State.rcvNon, Thread_memberOf, hh]

theorem State.rcvMem_iff {g l : Nat} : (g, l) ∈ s.rcvMem x b ↔
    (∃ L ∈ s.active x, s.home L = (g, l)) ∧ (s.ct.thread g l).member.getLsbD b = true := by
  have : (g, l) ∈ s.homesOf (s.active x) ↔ ∃ L ∈ s.active x, s.home L = (g, l) := List.mem_map
  simp [State.rcvMem, Thread_memberOf, this]

include hi

theorem State.rcvArrived_steady : Steady s (s.rcvArrived x b p exp) := by
  have h1 : Steady s (s.modCt fun t => (s.rcvNon x b).foldl (fun t h => t.modThread h.1 h.2 (Thread_passes p)) t) :=
    Steady.modHomes hi.team _ _
  refine h1.trans (Steady.modCt (h1.isSome hi.team) _ (fun t => foldl_id _ (fun t h => by simp [Team_arrive]) _ t) (fun L => ?_) fun g l => ?_)
  · exact foldl_place _ _ _ (fun t h => Team.place_arrive b p exp t h _ _) _ _
  · exact Team.hasThread_foldl _ (Team.has_arrive b p exp) _ _ g l

theorem State.rcvArrived_ct : (s.rcvArrived x b p exp).ct = (s.rcvMem x b).foldl (Team_arrive b p exp)
    ((s.rcvNon x b).foldl (fun t h => t.modThread h.1 h.2 (Thread_passes p)) s.ct) := by
  have h1 : Steady s (s.modCt fun t => (s.rcvNon x b).foldl (fun t h => t.modThread h.1 h.2 (Thread_passes p)) t) :=
    Steady.modHomes hi.team _ _
  rw [State.rcvArrived, State.ct_modCt _ _ (fun t => foldl_id _ (fun t h => by simp [Team_arrive]) _ t) (h1.isSome hi.team),
    State.ct_modHomes hi.team]

theorem State.rcvArrived_thread {g l : Nat} (hh : Team_hasThread s.ct g l) : (s.rcvArrived x b p exp).ct.thread g l = s.rcvThread x b p g l := by
  have hx : ¬ ((g, l) ∈ s.rcvMem x b ∧ (g, l) ∈ s.rcvNon x b) := by
    rintro ⟨h1, h2⟩
    have e1 := (List.mem_filter.mp h1).2
    have e2 := (List.mem_filter.mp h2).2
    simp_all
  rw [State.rcvArrived_ct hi, Team.thread_arrives b p exp _ ((Team.hasThread_foldHomes _ _ _ _ _).mpr hh),
    Team.thread_foldHomes (Thread_passes_idem p) _ hh]
  unfold State.rcvThread
  by_cases h1 : (g, l) ∈ s.rcvMem x b
  · have h2 : (g, l) ∉ s.rcvNon x b := fun h2 => hx ⟨h1, h2⟩
    simp only [h1, h2, if_true, if_false]
  · simp only [h1, if_false]

theorem State.rcvWaited_thread {g l : Nat} (hh : Team_hasThread s.ct g l) : (s.rcvWaited x b p exp).ct.thread g l =
    if (g, l) ∈ s.pathHomes then s.retired x (s.rcvThread x b p g l) else s.rcvThread x b p g l := by
  rw [State.rcvWaited, State.retire_after (State.rcvArrived_steady hi x b p exp) hi.team x hh, State.rcvArrived_thread hi x b p exp hh]

theorem State.rcvWaited_has (g l : Nat) : Team_hasThread (s.rcvWaited x b p exp).ct g l ↔ Team_hasThread s.ct g l := by
  have h := State.rcvArrived_steady hi x b p exp
  exact (h.trans (Steady.retire (h.isSome hi.team) x)).has g l

/-- Slot bits and the exit of a thread after RCV.WAIT, before a completion. -/
theorem State.rcvWaited_bits (hb : b < 16) {g l : Nat} (hh : Team_hasThread s.ct g l) :
    let th := (s.rcvWaited x b p exp).ct.thread g l
    th.member = (s.ct.thread g l).member ∧ (th.st = .exited ↔ (s.ct.thread g l).st = .exited ∧ (g, l) ∉ s.rcvMem x b) ∧
      (th.arrived.getLsbD b = true ↔ (s.ct.thread g l).arrived.getLsbD b = true ∨ (g, l) ∈ s.rcvMem x b) := by
  intro th
  have hf : th.member = (s.rcvThread x b p g l).member ∧ th.st = (s.rcvThread x b p g l).st ∧ th.arrived = (s.rcvThread x b p g l).arrived := by
    obtain ⟨h1, _, _, _, _, h6, h7⟩ := State.retired_fields s x (s.rcvThread x b p g l)
    have ht : th = _ := State.rcvWaited_thread hi x b p exp hh
    rw [ht]
    split
    · exact ⟨h6, h1, h7⟩
    · exact ⟨rfl, rfl, rfl⟩
  rw [hf.1, hf.2.1, hf.2.2]
  unfold State.rcvThread
  by_cases hm : (g, l) ∈ s.rcvMem x b
  · rw [if_pos hm]
    simp [Thread_arrive, hm, getLsbD_setBit_true hb]
  · rw [if_neg hm]
    obtain ⟨h1, _, h3, h4, _⟩ := Thread.setP_fields (s.ct.thread g l) p.toNat true
    split <;> simp [Thread_passes, hm, h1, h3, h4]

/-- A slot is full after the arrivals exactly when every member had arrived, had exited or arrives now (R19, R21). -/
theorem State.rcvWaited_ready (slot : BitVec 4) (g : Nat) :
    Group_rcvReady ((s.rcvWaited x slot.toNat p exp).ct.groupAt g) slot.toNat ↔ s.slotFull (s.active x) g slot := by
  have hb : slot.toNat < 16 := slot.isLt
  have hthreads : Group_rcvReady ((s.rcvWaited x slot.toNat p exp).ct.groupAt g) slot.toNat ↔ ∀ l, Team_hasThread s.ct g l →
      (s.ct.thread g l).member.getLsbD slot.toNat = true → (s.ct.thread g l).arrived.getLsbD slot.toNat = true ∨
        (s.ct.thread g l).st = .exited ∨ ∃ L ∈ s.active x, s.home L = (g, l) := by
    have key : ∀ l, Team_hasThread s.ct g l → ((((s.rcvWaited x slot.toNat p exp).ct.thread g l).member.getLsbD slot.toNat = true →
        ((s.rcvWaited x slot.toNat p exp).ct.thread g l).arrived.getLsbD slot.toNat = true ∨ ((s.rcvWaited x slot.toNat p exp).ct.thread g l).st = .exited) ↔
        ((s.ct.thread g l).member.getLsbD slot.toNat = true → (s.ct.thread g l).arrived.getLsbD slot.toNat = true ∨
        (s.ct.thread g l).st = .exited ∨ ∃ L ∈ s.active x, s.home L = (g, l))) := by
      intro l hh
      obtain ⟨h1, h2, h3⟩ := State.rcvWaited_bits hi x slot.toNat p exp hb hh
      rw [h1, h2, h3, State.rcvMem_iff]
      refine imp_congr_right fun hm => ?_
      have hp : ∀ A E C : Prop, (A ∨ C) ∨ (E ∧ ¬ C) ↔ A ∨ E ∨ C := by intro A E C; tauto
      simp only [hm, and_true]
      exact hp _ _ _
    constructor
    · intro h l hh
      exact (key l hh).mp (h _ (Team.mem_threads.mpr ⟨l, (State.rcvWaited_has hi x _ p exp g l).mpr hh, rfl⟩))
    · intro h th hth
      obtain ⟨l, hh, rfl⟩ := Team.mem_threads.mp hth
      have hh' := (State.rcvWaited_has hi x _ p exp g l).mp hh
      exact (key l hh').mpr (h l hh')
  rw [hthreads]
  constructor
  · intro h l th hth hm
    obtain ⟨hh, rfl⟩ := Team.thread_of_getElem? hth
    exact h l hh hm
  · intro h l hh hm
    exact h l _ (by simp [Team.thread, List.getD, hh.2]) hm

end

/-! ### What RCV.WAIT leaves -/

/-- A lane of a conjugate group that waits at the slot of its REGROUP leaves the group (R221, R260). -/
def State.leavesAt (s : State) (b : Nat) : Bool :=
  match s.cur.who with
  | .conj _ => decide (s.cg.slot = b) && decide (s.cur.level ≠ Level.h)
  | _ => false

/-- The lanes named leave their conjugate groups, or none does. -/
def Team_leaveAll (on : Bool) (hs : List (Nat × Nat)) (t : Team) : Team := if on then hs.foldl (fun t h => Team_leaveConj t h.1 h.2) t else t

theorem Team_leaveAll_rest (on : Bool) (hs : List (Nat × Nat)) (t : Team) :
    (Team_leaveAll on hs t).id = t.id ∧ (Team_leaveAll on hs t).groups = t.groups ∧ (Team_leaveAll on hs t).lead = t.lead := by
  unfold Team_leaveAll
  split
  · exact foldl_keeps (fun u : Team => u.id = t.id ∧ u.groups = t.groups ∧ u.lead = t.lead)
      (fun u (h : Nat × Nat) => Team_leaveConj u h.1 h.2) (fun u h hu => hu) hs t ⟨rfl, rfl, rfl⟩
  · exact ⟨rfl, rfl, rfl⟩

/-- A thread that has left every conjugate group stands in none after others leave. -/
theorem Team.leaveConj_out {t : Team} {h : Nat × Nat} (k : Nat × Nat) (ho : ∀ c ∈ t.conj, some h ∉ c.pos) :
    ∀ c ∈ (Team_leaveConj t k.1 k.2).conj, some h ∉ c.pos := by
  intro c hc hm
  obtain ⟨c0, hc0, rfl⟩ := List.mem_map.mp (List.mem_filter.mp hc).1
  obtain ⟨q, hq, hqe⟩ := List.mem_map.mp hm
  split at hqe
  · cases hqe
  · exact ho c0 hc0 (hqe ▸ hq)

theorem Team.leaveConj_self (t : Team) (h : Nat × Nat) : ∀ c ∈ (Team_leaveConj t h.1 h.2).conj, some h ∉ c.pos := by
  intro c hc hm
  obtain ⟨c0, hc0, rfl⟩ := List.mem_map.mp (List.mem_filter.mp hc).1
  obtain ⟨q, hq, hqe⟩ := List.mem_map.mp hm
  split at hqe
  · cases hqe
  · rename_i hne; exact hne hqe

theorem Team.leaveAll_out {hs : List (Nat × Nat)} {t : Team} {h : Nat × Nat} (hm : h ∈ hs) :
    ∀ c ∈ (Team_leaveAll true hs t).conj, some h ∉ c.pos := by
  unfold Team_leaveAll
  rw [if_pos rfl]
  induction hs generalizing t with
  | nil => cases hm
  | cons k r ih =>
    rw [List.foldl_cons]
    rcases List.mem_cons.mp hm with rfl | hm
    · exact foldl_keeps (fun u : Team => ∀ c ∈ u.conj, some h ∉ c.pos) _ (fun u k hu => Team.leaveConj_out k hu) r _ (Team.leaveConj_self t h)
    · exact ih hm

/-- Completion of a slot of several groups. -/
def Team_rcvCompletes (b : Nat) (gs : List Nat) (t : Team) : Team := gs.foldl (fun t g => t.modGroupAt g fun y => Group_rcvComplete y b) t

theorem Team_rcvCompletes_rest (b : Nat) (gs : List Nat) (t : Team) :
    (Team_rcvCompletes b gs t).id = t.id ∧ (Team_rcvCompletes b gs t).conj = t.conj :=
  foldl_keeps (fun u : Team => u.id = t.id ∧ u.conj = t.conj) _ (fun u g hu => by simpa using hu) gs t ⟨rfl, rfl⟩

/-- When the first arrival of an RCV.WAIT lets its slot expire. -/
def State.rcvExpiry (s : State) (n : BitVec 20) : Option Nat := if n = 0 then none else some (s.now + n.toNat)

/-- RCV.WAIT in one piece. -/
def State.rcvEnded (s : State) (x : XHead) (p : BitVec 3) (slot : BitVec 4) (n : BitVec 20) : State :=
  ((s.rcvWaited x slot.toNat p (s.rcvExpiry n)).modCt (Team_leaveAll (s.leavesAt slot.toNat) (s.homesOf (s.active x)))).modCt
    (Team_rcvCompletes slot.toNat (keysOf ((s.homesOf (s.active x)).map (·.1))))

theorem execRcvWait_eq (x : XHead) (p : BitVec 3) (slot : BitVec 4) (n : BitVec 20) (s : State) :
    execRcvWait x p slot n s = .next (s.rcvEnded x p slot n) := by
  have h : execRcvWait x p slot n s = .next ((if s.leavesAt slot.toNat then
      (s.rcvWaited x slot.toNat p (s.rcvExpiry n)).modCt fun t => (s.homesOf (s.active x)).foldl (fun t h => Team_leaveConj t h.1 h.2) t
      else s.rcvWaited x slot.toNat p (s.rcvExpiry n)).modCt (Team_rcvCompletes slot.toNat (keysOf ((s.homesOf (s.active x)).map (·.1))))) := rfl
  rw [h, State.rcvEnded]
  cases s.leavesAt slot.toNat with
  | true => rfl
  | false =>
    have hid : (s.rcvWaited x slot.toNat p (s.rcvExpiry n)).modCt (Team_leaveAll false (s.homesOf (s.active x))) =
        s.rcvWaited x slot.toNat p (s.rcvExpiry n) := State.modTeam_id _ _
    rw [hid]
    rfl

section
variable {s : State} (hi : Issuing s) (x : XHead) (p : BitVec 3) (slot : BitVec 4) (n : BitVec 20)
include hi

theorem State.rcvWaited_isSome (b : Nat) (exp : Option Nat) : ((s.rcvWaited x b p exp).team? s.cur.team).isSome = true := by
  have h := State.rcvArrived_steady hi x b p exp
  exact (h.trans (Steady.retire (h.isSome hi.team) x)).team.trans hi.team

theorem State.rcvEnded_ct : (s.rcvEnded x p slot n).ct = Team_rcvCompletes slot.toNat (keysOf ((s.homesOf (s.active x)).map (·.1)))
    (Team_leaveAll (s.leavesAt slot.toNat) (s.homesOf (s.active x)) (s.rcvWaited x slot.toNat p (s.rcvExpiry n)).ct) := by
  have h1 := State.rcvWaited_isSome hi x p slot.toNat (s.rcvExpiry n)
  have hid : ∀ t, (Team_leaveAll (s.leavesAt slot.toNat) (s.homesOf (s.active x)) t).id = t.id := fun t => (Team_leaveAll_rest _ _ t).1
  rw [State.rcvEnded, State.ct_modCt _ _ (fun t => (Team_rcvCompletes_rest _ _ t).1) (State.modCt_isSome hid h1), State.ct_modCt _ _ hid h1]

/-- A group with an active lane, after RCV.WAIT: its slot has completed, or nothing more has happened. -/
theorem State.rcvEnded_groupAt {L : Nat} (hL : L ∈ s.active x) : (s.rcvEnded x p slot n).ct.groupAt (s.home L).1 =
    Group_rcvComplete ((s.rcvWaited x slot.toNat p (s.rcvExpiry n)).ct.groupAt (s.home L).1) slot.toNat := by
  obtain ⟨_, hg, hl⟩ := Team_leaveAll_rest (s.leavesAt slot.toNat) (s.homesOf (s.active x)) (s.rcvWaited x slot.toNat p (s.rcvExpiry n)).ct
  have hat : ∀ g, (Team_leaveAll (s.leavesAt slot.toNat) (s.homesOf (s.active x)) (s.rcvWaited x slot.toNat p (s.rcvExpiry n)).ct).groupAt g =
      (s.rcvWaited x slot.toNat p (s.rcvExpiry n)).ct.groupAt g := fun g => by simp only [Team.groupAt, hg, hl]
  have hmem : (s.home L).1 ∈ keysOf ((s.homesOf (s.active x)).map (·.1)) :=
    mem_keysOf.mpr (List.mem_map_of_mem (f := Prod.fst) (List.mem_map_of_mem (f := s.home) hL))
  have hgrp : Team_hasGroup (Team_leaveAll (s.leavesAt slot.toNat) (s.homesOf (s.active x)) (s.rcvWaited x slot.toNat p (s.rcvExpiry n)).ct)
      (s.home L).1 := by
    have := ((State.rcvWaited_has hi x slot.toNat p (s.rcvExpiry n) _ _).mpr (hi.place (active_sub hL)).2.2).1
    unfold Team_hasGroup at this ⊢
    rwa [hg, hl]
  rw [State.rcvEnded_ct hi, Team_rcvCompletes, Team.groupAt_foldGroups (fun y => Group_rcvComplete_idem y slot.toNat) _ hgrp, if_pos hmem, hat]

/-- Threads of a group with an active lane whose slot is full: each has left the slot. -/
theorem State.rcvEnded_full {L : Nat} (hL : L ∈ s.active x) (hf : s.slotFull (s.active x) (s.home L).1 slot)
    (hw : Group_rcvWaits ((s.rcvWaited x slot.toNat p (s.rcvExpiry n)).ct.groupAt (s.home L).1) slot.toNat) {l : Nat}
    (hh : Team_hasThread s.ct (s.home L).1 l) : (s.rcvEnded x p slot n).ct.thread (s.home L).1 l =
      Thread_rcvDone slot.toNat ((s.rcvWaited x slot.toNat p (s.rcvExpiry n)).ct.thread (s.home L).1 l) := by
  have hl := ((State.rcvWaited_has hi x slot.toNat p (s.rcvExpiry n) _ _).mpr hh).2
  unfold Team.thread
  rw [State.rcvEnded_groupAt hi x p slot n hL, Group_rcvComplete_full ((State.rcvWaited_ready hi x p _ slot _).mpr hf) hw]
  simp [List.getD, hl]

/-- Threads of a group with an active lane whose slot is not full: nothing more has happened to them. -/
theorem State.rcvEnded_open {L : Nat} (hL : L ∈ s.active x) (hf : ¬ s.slotFull (s.active x) (s.home L).1 slot) :
    (s.rcvEnded x p slot n).ct.groupAt (s.home L).1 = (s.rcvWaited x slot.toNat p (s.rcvExpiry n)).ct.groupAt (s.home L).1 := by
  rw [State.rcvEnded_groupAt hi x p slot n hL, Group_rcvComplete_open fun h => hf ((State.rcvWaited_ready hi x p _ slot _).mp h)]

/-- A lane that is no member passes: it runs at the next instruction with its predicate true, whether or not the slot of its
group completes. -/
theorem State.rcvEnded_passes {L : Nat} (hL : L ∈ s.active x) (hm : (s.cth L).member.getLsbD slot.toNat = false) :
    let th := (s.rcvEnded x p slot n).ct.thread (s.home L).1 (s.home L).2
    th.getP p.toNat = true ∧ th.st = .run ∧ th.pc = s.nextPc := by
  intro th
  obtain ⟨_, hth, hh⟩ := hi.place (active_sub hL)
  obtain ⟨r1, r2, r3⟩ := hi.path L (active_sub hL)
  rw [hth] at hm r1 r2 r3
  have hw : (s.rcvWaited x slot.toNat p (s.rcvExpiry n)).ct.thread (s.home L).1 (s.home L).2 =
      s.retired x (Thread_passes p (s.ct.thread (s.home L).1 (s.home L).2)) := by
    rw [State.rcvWaited_thread hi x _ p _ hh, if_pos (hi.mem_pathHomes (active_sub hL)), State.rcvThread,
      if_neg (by rw [State.mem_rcvMem x _ hL, hm]; simp), if_pos ((State.mem_rcvNon x _ hL).mpr hm)]
  obtain ⟨f1, f2, _, _, f5⟩ := Thread.setP_fields (s.ct.thread (s.home L).1 (s.home L).2) p.toNat true
  rw [State.retired_run (th := Thread_passes p _) (f1.trans r1) (f2.trans r2) (f5.trans r3)] at hw
  have hp : ((s.rcvWaited x slot.toNat p (s.rcvExpiry n)).ct.thread (s.home L).1 (s.home L).2).getP p.toNat = true := by
    rw [hw]; exact Thread.getP_setP_self _ p
  have hst : ((s.rcvWaited x slot.toNat p (s.rcvExpiry n)).ct.thread (s.home L).1 (s.home L).2).st = .run := by
    rw [hw]; exact f1.trans r1
  have hpc : ((s.rcvWaited x slot.toNat p (s.rcvExpiry n)).ct.thread (s.home L).1 (s.home L).2).pc = s.nextPc := by rw [hw]
  have hcase : th = (s.rcvWaited x slot.toNat p (s.rcvExpiry n)).ct.thread (s.home L).1 (s.home L).2 ∨
      th = Thread_rcvDone slot.toNat ((s.rcvWaited x slot.toNat p (s.rcvExpiry n)).ct.thread (s.home L).1 (s.home L).2) := by
    by_cases hf : s.slotFull (s.active x) (s.home L).1 slot
    · by_cases hwt : Group_rcvWaits ((s.rcvWaited x slot.toNat p (s.rcvExpiry n)).ct.groupAt (s.home L).1) slot.toNat
      · exact .inr (State.rcvEnded_full hi x p slot n hL hf hwt hh)
      · left; show Team.thread _ _ _ = _
        unfold Team.thread; rw [State.rcvEnded_groupAt hi x p slot n hL, Group_rcvComplete_idle hwt]
    · left; show Team.thread _ _ _ = _
      unfold Team.thread; rw [State.rcvEnded_open hi x p slot n hL hf]
  rcases hcase with e | e
  · rw [e]; exact ⟨hp, hst, hpc⟩
  · obtain ⟨d1, d2, d3⟩ := Thread_rcvDone_run slot.toNat hst
    rw [e]
    exact ⟨by rw [Thread.getP, d3]; exact hp, d1, d2.trans hpc⟩

/-- A lane that is a member has arrived and stands at the instruction, before a completion. -/
theorem State.rcvWaited_member {L : Nat} (hL : L ∈ s.active x) (hm : (s.cth L).member.getLsbD slot.toNat = true) (exp : Option Nat) :
    let th := (s.rcvWaited x slot.toNat p exp).ct.thread (s.home L).1 (s.home L).2
    th.st = .rcv slot.toNat p ∧ th.pc = s.cur.pc ∧ th.arrived.getLsbD slot.toNat = true := by
  intro th
  obtain ⟨_, hth, hh⟩ := hi.place (active_sub hL)
  have hpc := (hi.path L (active_sub hL)).2.1
  rw [hth] at hm hpc
  have hw : th = s.retired x (Thread_arrive slot.toNat p (s.ct.thread (s.home L).1 (s.home L).2)) := by
    show (s.rcvWaited x slot.toNat p exp).ct.thread _ _ = _
    rw [State.rcvWaited_thread hi x _ p _ hh, if_pos (hi.mem_pathHomes (active_sub hL)), State.rcvThread,
      if_pos ((State.mem_rcvMem x _ hL).mpr hm)]
  rw [State.retired_stop (Or.inl (by simp [Thread_arrive]))] at hw
  rw [hw]
  exact ⟨rfl, hpc, getLsbD_setBit_true slot.isLt⟩

/-- Somebody waits at the slot of a group with an active member. -/
theorem State.rcvWaited_waits {L : Nat} (hL : L ∈ s.active x) (hm : (s.cth L).member.getLsbD slot.toNat = true) (exp : Option Nat) :
    Group_rcvWaits ((s.rcvWaited x slot.toNat p exp).ct.groupAt (s.home L).1) slot.toNat := by
  obtain ⟨h1, _, h3⟩ := State.rcvWaited_member hi x p slot hL hm exp
  exact ⟨_, Team.mem_threads.mpr ⟨(s.home L).2, (State.rcvWaited_has hi x _ p exp _ _).mpr (hi.place (active_sub hL)).2.2, rfl⟩, h3, by rw [h1]; simp⟩

/-- A thread of the group that waited at the slot already stands there after the arrivals. -/
theorem State.rcvWaited_waiting {g l : Nat} {q : BitVec 3} {exp : Option Nat} (hst : (s.ct.thread g l).st = .rcv slot.toNat q)
    (ha : (s.ct.thread g l).arrived.getLsbD slot.toNat = true) :
    let th := (s.rcvWaited x slot.toNat p exp).ct.thread g l
    th.st = .rcv slot.toNat q ∧ th.arrived.getLsbD slot.toNat = true := by
  intro th
  have hh : Team_hasThread s.ct g l := Team.hasThread_of (by rw [hst]; simp)
  have hno : ∀ hs : List (Nat × Nat), hs.Sublist (s.homesOf (s.active x)) → (g, l) ∉ hs := by
    intro hs hsub hmem
    obtain ⟨L, hL, hLh⟩ := List.mem_map.mp (hsub.mem hmem)
    have hrun := (hi.path L (active_sub hL)).1
    rw [(hi.place (active_sub hL)).2.1, show s.home L = (g, l) from hLh, hst] at hrun
    cases hrun
  have hr : s.rcvThread x slot.toNat p g l = s.ct.thread g l := by
    unfold State.rcvThread
    rw [if_neg (hno (s.rcvMem x slot.toNat) List.filter_sublist), if_neg (hno (s.rcvNon x slot.toNat) List.filter_sublist)]
  obtain ⟨h1, _, _, _, _, _, h7⟩ := State.retired_fields s x (s.ct.thread g l)
  have ht : th = _ := State.rcvWaited_thread hi x slot.toNat p exp hh
  rw [ht, hr]
  split
  · exact ⟨h1.trans hst, by rw [h7]; exact ha⟩
  · exact ⟨hst, ha⟩

/-- The expiry of a slot at which nobody waited before is that of the first arrival (R19). -/
theorem State.rcvEnded_expiry {L : Nat} (hL : L ∈ s.active x) (hm : (s.cth L).member.getLsbD slot.toNat = true)
    (hf : ¬ s.slotFull (s.active x) (s.home L).1 slot) (hn : n ≠ 0) (hb : ¬ s.slotBusy L slot) :
    tabGet ((s.rcvEnded x p slot n).ct.groupAt (s.home L).1).expiry slot.toNat 0 = s.now + n.toNat := by
  have hst := State.rcvArrived_steady hi x slot.toNat p (s.rcvExpiry n)
  have hexp : s.rcvExpiry n = some (s.now + n.toNat) := if_neg hn
  have hall : ∀ h ∈ s.rcvMem x slot.toNat, Team_hasThread
      ((s.rcvNon x slot.toNat).foldl (fun t h => t.modThread h.1 h.2 (Thread_passes p)) s.ct) h.1 h.2 := by
    intro h hh
    obtain ⟨⟨M, hM, hMh⟩, _⟩ := (State.rcvMem_iff x slot.toNat (g := h.1) (l := h.2)).mp hh
    have := (hi.place (active_sub hM)).2.2
    rw [hMh] at this
    exact (Team.hasThread_foldHomes _ _ _ _ _).mpr this
  have hidle : ¬ Group_rcvWaits
      (((s.rcvNon x slot.toNat).foldl (fun t h => t.modThread h.1 h.2 (Thread_passes p)) s.ct).groupAt (s.home L).1) slot.toNat := by
    rintro ⟨th, hth, ha, hx⟩
    obtain ⟨l, hh, rfl⟩ := Team.mem_threads.mp hth
    have hh' := (Team.hasThread_foldHomes _ _ _ _ _).mp hh
    rw [Team.thread_foldHomes (Thread_passes_idem p) _ hh'] at ha hx
    obtain ⟨f1, _, _, f4, _⟩ := Thread.setP_fields (s.ct.thread (s.home L).1 l) p.toNat true
    refine hb ⟨_, Team.mem_threads.mpr ⟨l, hh', rfl⟩, ?_, ?_⟩
    · split at ha
      · exact (congrArg (·.getLsbD slot.toNat) f4).symm.trans ha
      · exact ha
    · split at hx
      · exact fun e => hx (f1.trans e)
      · exact hx
  have hmem : ∃ l, ((s.home L).1, l) ∈ s.rcvMem x slot.toNat :=
    ⟨(s.home L).2, (State.mem_rcvMem x _ hL).mpr ((hi.place (active_sub hL)).2.1 ▸ hm)⟩
  have hput := (Team.expiry_arrives slot.isLt p (s.now + n.toNat) _ hall (g := (s.home L).1)).2 hidle hmem
  rw [State.rcvEnded_open hi x p slot n hL hf, State.rcvWaited,
    State.retire_groupAt_part Group.expiry (fun _ _ => rfl) (hst.isSome hi.team) x, State.rcvArrived_ct hi, hexp, hput, tabGet_tabPut, if_pos rfl]

/-- A lane of a conjugate group that waits at its REGROUP's slot stands in no conjugate group any more. -/
theorem State.rcvEnded_leaves {L : Nat} (hL : L ∈ s.active x) {k : Nat} (hw : s.cur.who = .conj k) (hs : s.cg.slot = slot.toNat)
    (hlv : s.cur.level ≠ .h) : ∀ c ∈ (s.rcvEnded x p slot n).ct.conj, some (s.home L) ∉ c.pos := by
  have hon : s.leavesAt slot.toNat = true := by simp [State.leavesAt, hw, hs, hlv]
  rw [State.rcvEnded_ct hi, (Team_rcvCompletes_rest _ _ _).2, hon]
  exact Team.leaveAll_out (List.mem_map_of_mem hL)

end

/-- Settles O12: RCV.SET by its update of the slot words and the retire; RCV.WAIT by what its arrivals make of each thread
(`State.rcvWaited_bits`), the completion of a full slot and nothing at one that is not. -/
theorem reconvergence : Obligations.Reconvergence := by
  refine ⟨fun x slot s hi h => rcvSet_done hi h, fun x p slot n s hi => ⟨s.rcvEnded x p slot n, execRcvWait_eq x p slot n s, ?_, ?_⟩⟩
  · have h1 : OwnTeam s (s.rcvArrived x slot.toNat p (s.rcvExpiry n)) :=
      (OwnTeam.modCt s _ fun t => foldl_id _ (fun _ _ => by simp) _ _).trans
        (OwnTeam.modCt _ _ fun t => foldl_id _ (fun t h => by simp [Team_arrive]) _ _)
    exact ((h1.trans (OwnTeam.retire _ x)).trans (OwnTeam.modCt _ _ fun t => (Team_leaveAll_rest _ _ t).1)).trans
      (OwnTeam.modCt _ _ fun t => (Team_rcvCompletes_rest _ _ t).1)
  · intro L hL
    have hh := (hi.place (active_sub hL)).2.2
    refine ⟨State.rcvEnded_passes hi x p slot n hL, fun hm hf => ?_, fun hm hf => ?_,
      fun k hw hs hlv => State.rcvEnded_leaves hi x p slot n hL hw hs hlv⟩
    · have hwt := State.rcvWaited_waits hi x p slot hL hm (s.rcvExpiry n)
      obtain ⟨m1, m2, m3⟩ := State.rcvWaited_member hi x p slot hL hm (s.rcvExpiry n)
      obtain ⟨d1, d2, d3, d4⟩ := Thread_rcvDone_wait m1 m3
      have hself := State.rcvEnded_full hi x p slot n hL hf hwt hh
      refine ⟨?_, ?_, ?_, ?_, fun l q hst ha => ?_⟩
      · exact (congrArg (·.getP p.toNat) hself).trans d3
      · exact (congrArg Thread.st hself).trans d1
      · exact (congrArg Thread.pc hself).trans (d2.trans (by rw [m2]))
      · exact (congrArg (·.member.getLsbD slot.toNat) hself).trans d4
      · obtain ⟨w1, w2⟩ := State.rcvWaited_waiting hi x p slot (exp := s.rcvExpiry n) hst ha
        obtain ⟨e1, _, e3, _⟩ := Thread_rcvDone_wait w1 w2
        have hl : Team_hasThread s.ct (s.home L).1 l := Team.hasThread_of (by rw [hst]; simp)
        have hself := State.rcvEnded_full hi x p slot n hL hf hwt hl
        exact ⟨(congrArg (·.getP q.toNat) hself).trans e3, (congrArg Thread.st hself).trans e1⟩
    · obtain ⟨m1, m2, m3⟩ := State.rcvWaited_member hi x p slot hL hm (s.rcvExpiry n)
      have hself : (s.rcvEnded x p slot n).ct.thread (s.home L).1 (s.home L).2 =
          (s.rcvWaited x slot.toNat p (s.rcvExpiry n)).ct.thread (s.home L).1 (s.home L).2 := by
        unfold Team.thread; rw [State.rcvEnded_open hi x p slot n hL hf]
      exact ⟨(congrArg Thread.st hself).trans m1, (congrArg Thread.pc hself).trans m2,
        (congrArg (·.arrived.getLsbD slot.toNat) hself).trans m3,
        fun hn hb => State.rcvEnded_expiry hi x p slot n hL hm hf hn hb⟩

end Sys2Proof.Machine
end

section
namespace Sys2Proof.Machine

/-! ### Results held of a group and of its lanes -/

/-- What is held stays held while no result is taken away. -/
theorem Held.mono {s t u : State} {cls no L : Nat} {vs : List Word} (h : Held s t cls no L vs) (hp : ∀ p ∈ t.pends, p ∈ u.pends) :
    Held s u cls no L vs := by
  obtain ⟨p, hpt, hr⟩ := h
  exact ⟨p, hp p hpt, hr⟩

@[simp] theorem State.pendRes_teams (s : State) (act help : List Nat) (d : Opd) (xl : Bool) (f : Nat → List Word) :
    (s.pendRes act help d xl f).teams = s.teams := by
  exact List.foldlRecOn (motive := fun t : State => t.teams = s.teams) _ _ rfl fun _ h _ _ => h

@[simp] theorem State.pendPred_teams (s : State) (ls : List Nat) (p : BitVec 3) (xl : Bool) (f : Nat → Bool) :
    (s.pendPred ls p xl f).teams = s.teams := by
  exact List.foldlRecOn (motive := fun t : State => t.teams = s.teams) _ _ rfl fun _ h _ _ => h

@[simp] theorem State.pendRes_mem (s : State) (act help : List Nat) (d : Opd) (xl : Bool) (f : Nat → List Word) :
    (s.pendRes act help d xl f).mem = s.mem := by
  exact List.foldlRecOn (motive := fun t : State => t.mem = s.mem) _ _ rfl fun _ h _ _ => h

@[simp] theorem State.pendPred_mem (s : State) (ls : List Nat) (p : BitVec 3) (xl : Bool) (f : Nat → Bool) :
    (s.pendPred ls p xl f).mem = s.mem := by
  exact List.foldlRecOn (motive := fun t : State => t.mem = s.mem) _ _ rfl fun _ h _ _ => h

theorem State.pendPred_pends {s : State} {ls : List Nat} {p : BitVec 3} {xl : Bool} {f : Nat → Bool} {q : Pend} (h : q ∈ s.pends) :
    q ∈ (s.pendPred ls p xl f).pends :=
  foldl_pends_mono _ (fun _ _ _ hq => List.mem_append_left _ hq) _ s q h

/-! ### The decision queue (R31, R32, R155) -/

theorem State.partNo_eq (s : State) : Actor_part s.cur.who = s.partNo := by
  unfold Actor_part State.partNo
  cases s.cur.who <;> rfl

/-- The search for the oldest open entry counts from where it begins. -/
theorem dqOpen_eq (dq : List DqEnt) (g i : Nat) : dqOpen dq g i = (dqFirst dq g).map (· + i) := by
  induction dq generalizing i with
  | nil => rfl
  | cons e r ih =>
    unfold dqOpen dqFirst
    rw [List.findIdx?_cons]
    cases hb : e.bcast with
    | false => simp
    | true =>
      cases ht : e.taken.contains g with
      | false => simp
      | true =>
        have hr := ih (i + 1)
        unfold dqFirst at hr
        simp only [if_true, hr, Bool.not_true, Bool.or_self, Bool.false_eq_true, if_false, Option.map_map]
        congr 1
        funext k
        simp only [Function.comp]
        omega

theorem dqOpen_zero (dq : List DqEnt) (g : Nat) : dqOpen dq g 0 = dqFirst dq g := by
  rw [dqOpen_eq]; simp

/-- An entry retires or stays as R32 has it. -/
theorem Team_dqRetire_dq (t : Team) : (Team_dqRetire t).dq = t.dq.filter (dqStays (Team_liveGroups t)) := by
  unfold Team_dqRetire
  simp only
  refine List.filter_congr fun e _ => ?_
  unfold dqStays
  split
  · rw [List.not_all_eq_any_not]
  · rfl

theorem State.retire_dq {s : State} (ht : (s.team? s.cur.team).isSome = true) (x : XHead) : (s.retire x).ct.dq = s.ct.dq := by
  rw [State.retire_ct ht]
  exact foldl_keeps (fun t : Team => t.dq = s.ct.dq) (fun t (h : Nat × Nat) => t.modThread h.1 h.2 (s.retired x)) (fun t h hb => by simpa using hb) _ _ rfl

/-- A change of the queue alone, and the retire of the path. -/
theorem State.dq_retire {s s' : State} (hi : Issuing s) (x : XHead) {dq : List DqEnt} (hq : Quiet s s')
    (hct : s'.ct = { s.ct with dq := dq }) : Moved s (s'.retire x) x ∧ RegsKept s (s'.retire x) ∧ (s'.retire x).ct.dq = dq := by
  refine ⟨State.retire_moved hi hq x, RegsKept.of hq.cur (TeamRegs.trans ?_ (retire_regs (hq.issuing hi).team x)), ?_⟩
  · rw [hct]; exact ⟨fun _ _ => ⟨rfl, rfl⟩, fun k => by cases k <;> rfl, rfl⟩
  · rw [State.retire_dq (hq.issuing hi).team, hct]

theorem State.wholeGroup_eq {s : State} (h : ∀ c, s.cur.who ≠ .conj c) (f : State → Out) : s.wholeGroup f = f s := by
  unfold State.wholeGroup
  split
  · rename_i c hc; exact absurd hc (h c)
  · rfl

/-- The team whose queue has the entry at its end. -/
def Team_push (e : DqEnt) (t : Team) : Team := { t with dq := t.dq ++ [e] }

theorem dqPushOp_done {s : State} (hi : Issuing s) (x : XHead) (bc : Bool) (b : OpdB) :
    ∃ t, dqPushOp x bc b s = .next t ∧ Moved s t x ∧ OwnTeam s t ∧ RegsKept s t ∧
      t.ct.dq = if s.active x = [] ∨ Team_liveGroups s.ct = [] then s.ct.dq else s.ct.dq ++ [⟨s.src1 b 0, bc, []⟩] := by
  refine ⟨_, rfl, ?_⟩
  by_cases h : s.active x = [] ∨ Team_liveGroups s.ct = []
  · have hb : (decide (s.active x = []) || decide (Team_liveGroups s.ct = [])) = true := by simpa using h
    rw [if_pos hb, if_pos h]
    obtain ⟨h1, h2, h3⟩ := State.dq_retire hi x (Quiet.refl s) rfl
    exact ⟨h1, OwnTeam.retire s x, h2, h3⟩
  · have hb : ¬ (decide (s.active x = []) || decide (Team_liveGroups s.ct = [])) = true := by simpa using h
    rw [if_neg hb, if_neg h]
    have hq : Quiet s (s.modCt (Team_push ⟨s.src1 b 0, bc, []⟩)) :=
      Quiet.modCt s _ (fun _ => rfl) (fun _ _ => by cases s.cur.who <;> rfl) fun _ _ _ => rfl
    obtain ⟨h1, h2, h3⟩ := State.dq_retire hi x hq (State.ct_modCt s _ (fun _ => rfl) hi.team)
    exact ⟨h1, (OwnTeam.modCt s (Team_push ⟨s.src1 b 0, bc, []⟩) fun _ => rfl).trans (OwnTeam.retire _ x), h2, h3⟩

/-- What a pop answers: the value in the uniform register, the predicate in each active lane, and the queue as it was left. -/
theorem State.dqResult_done {s s' : State} (hi : Issuing s) (x : XHead) {dq : List DqEnt} (hm : s'.mem = s.mem)
    (hq : Quiet s s') (hct : s'.ct = { s.ct with dq := dq }) (gd : BitVec 7) (p : BitVec 3) (v : Word) (ok : Bool) :
    let t := (s'.dqResult (s.active x) gd p v ok).retire x
    Moved s t x ∧ t.mem = s.mem ∧ RegsKept s t ∧ HeldResult s t x ⟨.g, gd⟩ (fun _ => [v]) ∧
      HeldLanes s t (s.active x) 3 p.toNat (fun _ => [if ok then 1 else 0]) ∧ t.ct.dq = dq := by
  have hq1 : Quiet s (s'.pendRes (s.active x) [] ⟨.g, gd⟩ false fun _ => [v]) := hq.trans (Quiet.pendRes _ _ _ _ _ _)
  have hq2 : Quiet s (s'.dqResult (s.active x) gd p v ok) := hq1.trans (Quiet.pendPred _ _ _ _ _)
  have hteam : (s'.dqResult (s.active x) gd p v ok).teams = s'.teams := by simp [State.dqResult]
  have hct2 : (s'.dqResult (s.active x) gd p v ok).ct = s'.ct := by
    unfold State.ct State.team; rw [State.teamOpt_of_teams hteam, hq2.cur, hq.cur]
  obtain ⟨h1, h2, h3⟩ := State.dq_retire hi x hq2 (hct2.trans hct)
  refine ⟨h1, ?_, h2, fun L hL => ?_, State.pendPred_held hq1 x (s.active x) p false fun _ => ok, h3⟩
  · simpa [State.dqResult] using hm
  · exact Held.mono (State.pendRes_held hq x ⟨.g, gd⟩ false (fun _ => [v]) L hL) fun q hp => State.pendPred_pends hp

/-- The queue after the group has taken an entry. -/
theorem dq_modify {dq : List DqEnt} {n : Nat} {e : DqEnt} (h : dq[n]? = some e) (g : Nat) :
    dq.modify n (fun e => { e with taken := insertNat e.taken g }) = dq.take n ++ ⟨e.val, e.bcast, insertNat e.taken g⟩ :: dq.drop (n + 1) := by
  obtain ⟨hn, he⟩ := List.getElem?_eq_some_iff.mp h
  rw [List.modify_eq_take_cons_drop hn, he]

theorem dqpop_takes {s : State} (hi : Issuing s) {x : XHead} (gd : BitVec 7) (p : BitVec 3) (hw : ∀ c, s.cur.who ≠ .conj c)
    (ha : s.active x ≠ []) {n : Nat} {e : DqEnt} (hn : dqFirst s.ct.dq s.partNo = some n) (he : s.ct.dq[n]? = some e) :
    ∃ t taken, exec (.dqpop x gd p) s = .next t ∧ Moved s t x ∧ t.mem = s.mem ∧ RegsKept s t ∧
      HeldResult s t x ⟨.g, gd⟩ (fun _ => [e.val]) ∧ HeldLanes s t (s.active x) 3 p.toNat (fun _ => [1]) ∧
      (∀ g, g ∈ taken ↔ g = s.partNo ∨ g ∈ e.taken) ∧
      t.ct.dq = (s.ct.dq.take n ++ ⟨e.val, e.bcast, taken⟩ :: s.ct.dq.drop (n + 1)).filter (dqStays (Team_liveGroups s.ct)) := by
  let take (t : Team) : Team := Team_dqRetire { t with dq := t.dq.modify n fun e => { e with taken := insertNat e.taken s.partNo } }
  have hq : Quiet s (s.modCt take) := Quiet.modCt s take (fun _ => rfl) (fun _ _ => by cases s.cur.who <;> rfl) fun _ _ _ => rfl
  have hct : (s.modCt take).ct = { s.ct with dq := (take s.ct).dq } := State.ct_modCt s take (fun _ => rfl) hi.team
  have hdq : (take s.ct).dq =
      (s.ct.dq.take n ++ ⟨e.val, e.bcast, insertNat e.taken s.partNo⟩ :: s.ct.dq.drop (n + 1)).filter (dqStays (Team_liveGroups s.ct)) := by
    rw [← dq_modify he]; exact Team_dqRetire_dq _
  obtain ⟨h1, h2, h3, h4, h5, h6⟩ := State.dqResult_done (s' := s.modCt take) hi x rfl hq hct gd p e.val true
  refine ⟨_, insertNat e.taken s.partNo, ?_, h1, h2, h3, h4, h5, fun g => mem_insertNat, h6.trans hdq⟩
  show execDqpop x gd p s = _
  rw [execDqpop, State.wholeGroup_eq hw]
  simp only [if_neg ha, dqOpen_zero, State.partNo_eq, hn, List.getD_eq_getElem?_getD, he, Option.getD_some]
  rfl

theorem dqpop_none {s : State} {x : XHead} (gd : BitVec 7) (p : BitVec 3) (hw : ∀ c, s.cur.who ≠ .conj c)
    (ha : s.active x ≠ []) (hn : dqFirst s.ct.dq s.partNo = none) : exec (.dqpop x gd p) s =
      if Team_noLead s.ct then .next ((s.dqResult (s.active x) gd p 0 false).retire x) else .next s := by
  show execDqpop x gd p s = _
  rw [execDqpop, State.wholeGroup_eq hw]
  simp only [if_neg ha, dqOpen_zero, State.partNo_eq, hn]

theorem Team_noLead_iff {t : Team} : Team_noLead t = true ↔ ∀ g, t.lead = some g → ∀ th ∈ g.threads, th.st = .exited := by
  unfold Team_noLead
  cases t.lead with
  | none => simp
  | some l => simp [Group.exited, Thread.gone]

/-- Settles O14: pushes and pops change the queue alone (`State.dq_retire`), the search is that of the first open entry. -/
theorem decisionQueue : Obligations.DecisionQueue := by
  refine ⟨?_, fun x gd p s hi hw => ⟨fun ha => ?_, fun ha n e hn he => dqpop_takes hi gd p hw ha hn he, fun ha hn hl => ?_, fun ha hn hl => ?_⟩⟩
  · rintro x b i bc s (⟨rfl, rfl⟩ | ⟨rfl, rfl⟩) hi _
    · exact dqPushOp_done hi x false b
    · exact dqPushOp_done hi x true b
  · obtain ⟨h1, h2, h3⟩ := State.dq_retire hi x (Quiet.refl s) rfl
    refine ⟨s.retire x, ?_, h1, OwnTeam.retire s x, h2, h3⟩
    show execDqpop x gd p s = _
    rw [execDqpop, State.wholeGroup_eq hw]
    simp only [if_pos ha]
  · obtain ⟨h1, h2, h3, h4, h5, h6⟩ := State.dqResult_done hi x rfl (Quiet.refl s) rfl gd p 0 false
    refine ⟨_, ?_, h1, h2, h3, h6, h4, h5⟩
    rw [dqpop_none gd p hw ha hn, if_pos (Team_noLead_iff.mpr hl)]
  · obtain ⟨g, th, hg, hth, hx⟩ := hl
    rw [dqpop_none gd p hw ha hn, if_neg fun h => hx (Team_noLead_iff.mp h g hg th hth)]

end Sys2Proof.Machine
end

section
namespace Sys2Proof.Machine

/-! ### What a kill leaves of errors, and of who stands on which sub-core -/

/-- The error registers of a launch (R214). -/
def Launch_err (l : Launch) : Nat × BitVec 9 × Bool × Dword × Word := (l.id, l.ctxerr, l.errSet, l.errpc, l.errword)

/-- A team after an update that moves none of its groups to another sub-core and makes no conjugate group. -/
structure TeamKin (a b : Team) : Prop where
  core : b.core = a.core
  place : b.place = a.place
  lead : b.lead.isSome = a.lead.isSome
  groups : b.groups.map (·.sub) = a.groups.map (·.sub)
  conj : ∀ c ∈ b.conj, ∃ d ∈ a.conj, d.sub = c.sub

theorem TeamKin.refl (a : Team) : TeamKin a a := ⟨rfl, rfl, rfl, rfl, fun c hc => ⟨c, hc, rfl⟩⟩

theorem TeamKin.trans {a b c : Team} (h : TeamKin a b) (k : TeamKin b c) : TeamKin a c := by
  refine ⟨k.core.trans h.core, k.place.trans h.place, k.lead.trans h.lead, k.groups.trans h.groups, fun x hx => ?_⟩
  obtain ⟨y, hy, hyx⟩ := k.conj x hx
  obtain ⟨z, hz, hzy⟩ := h.conj y hy
  exact ⟨z, hz, hzy.trans hyx⟩

theorem TeamKin.foldl {α : Type} (f : Team → α → Team) (h : ∀ t x, TeamKin t (f t x)) (l : List α) (t : Team) : TeamKin t (l.foldl f t) :=
  foldl_keeps (fun u => TeamKin t u) f (fun u x hu => hu.trans (h u x)) l t (.refl t)

theorem TeamKin.setGroupAt (t : Team) (g : Nat) {x : Group} (hx : x.sub = (t.groupAt g).sub) : TeamKin t (t.setGroupAt g x) := by
  unfold Team.setGroupAt
  split
  · exact ⟨rfl, rfl, by simp, rfl, fun c hc => ⟨c, hc, rfl⟩⟩
  · rename_i hg
    refine ⟨rfl, rfl, rfl, ?_, fun c hc => ⟨c, hc, rfl⟩⟩
    rw [Team.groupAt, if_neg hg] at hx
    refine List.ext_getElem? fun n => ?_
    by_cases hn : g = n
    · subst hn
      by_cases hl : g < t.groups.length
      · simpa [hl, List.getD] using hx
      · simp [hl]
    · simp [hn]

theorem TeamKin.modGroupAt (t : Team) (g : Nat) {f : Group → Group} (hf : ∀ x, (f x).sub = x.sub) : TeamKin t (t.modGroupAt g f) :=
  .setGroupAt t g (hf _)

theorem TeamKin.modConj (t : Team) (k : Nat) {f : Group → Group} (hf : ∀ x, (f x).sub = x.sub) : TeamKin t (t.modActor (.conj k) f) := by
  refine ⟨rfl, rfl, rfl, rfl, fun c hc => ?_⟩
  obtain ⟨d, hd, rfl⟩ := List.mem_map.mp hc
  refine ⟨d, hd, ?_⟩
  split
  · exact (hf d).symm
  · rfl

theorem TeamKin.modActor (t : Team) (a : Actor) {f : Group → Group} (hf : ∀ x, (f x).sub = x.sub) : TeamKin t (t.modActor a f) := by
  cases a with
  | grp n => exact .modGroupAt t n hf
  | conj k => exact .modConj t k hf
  | lead => exact .modGroupAt t leadGrp hf

theorem TeamKin.leaveConj (t : Team) (g l : Nat) : TeamKin t (Team_leaveConj t g l) := by
  refine ⟨rfl, rfl, rfl, rfl, fun c hc => ?_⟩
  obtain ⟨d, hd, rfl⟩ := List.mem_map.mp (List.mem_filter.mp hc).1
  exact ⟨d, hd, rfl⟩

theorem TeamKin.barEnd (t : Team) (n gen : Nat) : TeamKin t (Team_barEnd t n gen) :=
  ⟨rfl, rfl, by simp [Team_barEnd], by simp [Team_barEnd, Group_barEnd], fun c hc => ⟨c, hc, rfl⟩⟩

theorem Group_rcvComplete_sub (g : Group) (b : Nat) : (Group_rcvComplete g b).sub = g.sub := by
  unfold Group_rcvComplete
  simp only
  split <;> rfl

theorem Group_rcvAll_sub (g : Group) : (Group_rcvAll g).sub = g.sub :=
  foldl_keeps (fun x : Group => x.sub = g.sub) Group_rcvComplete (fun x b h => (Group_rcvComplete_sub x b).trans h) _ g rfl

theorem Group_retire_sub (g : Group) : (Group_retire g).sub = g.sub := by
  unfold Group_retire; split <;> rfl

theorem TeamKin.exitGroup (t : Team) (g : Nat) : TeamKin t (Team_exitGroup g t) := by
  have h : TeamKin t (t.modGroupAt g fun x => Group_retire (Group_rcvAll x)) :=
    .modGroupAt t g fun x => (Group_retire_sub _).trans (Group_rcvAll_sub x)
  unfold Team_exitGroup
  simp only
  split
  · exact h.trans ⟨rfl, rfl, rfl, rfl, fun c hc => ⟨c, hc, rfl⟩⟩
  · exact h

/-- A state after an operation that leaves the launches' errors alone and adds nobody to a core. -/
structure Wake (s t : State) : Prop where
  errs : t.launches.map Launch_err = s.launches.map Launch_err
  teams : ∀ b ∈ t.teams, ∃ a ∈ s.teams, TeamKin a b

theorem Wake.of_eq {s t : State} (hl : t.launches = s.launches) (ht : t.teams = s.teams) : Wake s t :=
  ⟨by rw [hl], fun b hb => ⟨b, ht ▸ hb, .refl b⟩⟩

theorem Wake.refl (s : State) : Wake s s := .of_eq rfl rfl

theorem Wake.trans {a b c : State} (h : Wake a b) (k : Wake b c) : Wake a c := by
  refine ⟨k.errs.trans h.errs, fun x hx => ?_⟩
  obtain ⟨y, hy, hyx⟩ := k.teams x hx
  obtain ⟨z, hz, hzy⟩ := h.teams y hy
  exact ⟨z, hz, hzy.trans hyx⟩

theorem Wake.foldl {α : Type} (f : State → α → State) (h : ∀ s x, Wake s (f s x)) (l : List α) (s : State) : Wake s (l.foldl f s) :=
  foldl_keeps (fun t => Wake s t) f (fun t x ht => ht.trans (h t x)) l s (.refl s)

theorem Wake.modTeam (s : State) (i : Nat) {f : Team → Team} (h : ∀ t, TeamKin t (f t)) : Wake s (s.modTeam i f) := by
  refine ⟨rfl, fun b hb => ?_⟩
  obtain ⟨a, ha, rfl⟩ := List.mem_map.mp hb
  refine ⟨a, ha, ?_⟩
  split
  · exact h a
  · exact .refl a

theorem Wake.modTeam_plain (s : State) (i : Nat) {f : Team → Team} (h1 : ∀ t, (f t).core = t.core) (h2 : ∀ t, (f t).place = t.place)
    (h3 : ∀ t, (f t).lead = t.lead) (h4 : ∀ t, (f t).groups = t.groups) (h5 : ∀ t, (f t).conj = t.conj) : Wake s (s.modTeam i f) :=
  .modTeam s i fun t => ⟨h1 t, h2 t, by rw [h3], by rw [h4], fun c hc => ⟨c, h5 t ▸ hc, rfl⟩⟩

theorem Wake.modLaunch (s : State) (i : Nat) {f : Launch → Launch} (h : ∀ l, Launch_err (f l) = Launch_err l) : Wake s (s.modLaunch i f) := by
  refine ⟨?_, fun b hb => ⟨b, hb, .refl b⟩⟩
  unfold State.modLaunch mapIf
  rw [List.map_map]
  refine List.map_congr_left fun l _ => ?_
  simp only [Function.comp]
  split
  · exact h l
  · rfl

theorem Wake.modCore (s : State) (c : Nat) (f : Core → Core) : Wake s (s.modCore c f) := .of_eq rfl rfl
theorem Wake.modQueue (s : State) (q : Nat) (f : Queue → Queue) : Wake s (s.modQueue q f) := .of_eq rfl rfl

theorem Wake.barCheck (s : State) (j n : Nat) : Wake s (s.barCheck j n) := by
  unfold State.barCheck
  simp only
  split
  · exact .modTeam_plain s j (fun _ => rfl) (fun _ => rfl) (fun _ => rfl) (fun _ => rfl) fun _ => rfl
  · exact .refl s

theorem Wake.barRelease (s : State) (j n : Nat) : Wake s (s.barRelease j n) :=
  .modTeam s j fun t => (TeamKin.foldl (fun t (h : BarHold) => Team_barEnd t n h.gen) (fun t h => .barEnd t n h.gen) _ t).trans
    ⟨rfl, rfl, rfl, rfl, fun c hc => ⟨c, hc, rfl⟩⟩

theorem Wake.cbarCheck (s : State) (i cl : Nat) : Wake s (s.cbarCheck i cl) := by
  unfold State.cbarCheck
  simp only
  split
  · exact .modLaunch s i fun _ => rfl
  · exact .refl s

theorem Wake.cbarRelease (s : State) (i cl : Nat) : Wake s (s.cbarRelease i cl) := by
  refine .trans ?_ (.modLaunch _ i fun _ => rfl)
  exact .foldl _ (fun u (h : BarHold) => .foldl _ (fun u (t : Team) => .modTeam u t.id fun x => .barEnd x 16 h.gen) _ u) _ s

theorem Wake.barAll (s : State) (j : Nat) : Wake s (s.barAll j) := by
  unfold State.barAll
  refine .trans (.trans ?_ (.cbarCheck _ _ _)) (.cbarRelease _ _ _)
  exact .foldl _ (fun u n => (Wake.barCheck u j n).trans (.barRelease _ j n)) _ s

theorem Wake.exitSettled (s : State) (team g : Nat) : Wake s (s.exitSettled team g) := by
  unfold State.exitSettled
  exact ((Wake.modTeam s team (f := Team_exitGroup g) fun t => .exitGroup t g).trans
    (.modTeam_plain (f := Team_dqRetire) _ team (fun _ => rfl) (fun _ => rfl) (fun _ => rfl) (fun _ => rfl) fun _ => rfl)).trans (.barAll _ team)

theorem Wake.swapId (s : State) (old : Nat) (news : List Nat) : Wake s (s.swapId old news) := by
  constructor
  · show (s.launches.map _).map Launch_err = _
    rw [List.map_map]
    refine List.map_congr_left fun l _ => ?_
    simp only [Function.comp]
    split <;> rfl
  · intro b hb
    obtain ⟨a, ha, rfl⟩ := List.mem_map.mp hb
    refine ⟨a, ha, ?_⟩
    split
    · exact .refl a
    · exact ⟨rfl, rfl, rfl, rfl, fun c hc => ⟨c, hc, rfl⟩⟩

theorem Wake.forget (s : State) (ids : List Nat) : Wake s (s.forget ids) :=
  .foldl (fun u i => State.swapId u i []) (fun u i => .swapId u i []) ids s

theorem Wake.wmUpdate (s : State) (team : Nat) (ts : List Nat) : Wake s (s.wmUpdate team ts) :=
  .foldl (fun u md => u.modTeam team fun t => t.setTile md (Tile_wmSet (t.tile md) (s.cycle (s.team team).core) (s.leadingFinal team md)))
    (fun u _ => .modTeam_plain u team (fun _ => rfl) (fun _ => rfl) (fun _ => rfl) (fun _ => rfl) fun _ => rfl) ts s

theorem Wake.dropProbes (s : State) (gone : Probe → Bool) : Wake s (s.dropProbes gone) := by
  unfold State.dropProbes
  refine .trans (.trans ?_ (.forget _ _)) (.foldl _ (fun u (p : Probe) => .wmUpdate u p.team _) _ _)
  exact .of_eq rfl rfl

theorem Wake.leaveProbes (s : State) (team g : Nat) : Wake s (s.leaveProbes team g) := by
  unfold State.leaveProbes
  refine .trans ?_ (.dropProbes _ _)
  exact .of_eq rfl rfl

theorem Wake.hwStore (s : State) (team pa : Nat) (bs : List Byte) (wb : Bool) : Wake s (s.hwStore team pa bs wb) := by
  unfold State.hwStore
  refine .trans ?_ (.modLaunch _ _ fun _ => rfl)
  exact .of_eq rfl rfl

theorem Wake.flushStack (s : State) (team : Nat) : Wake s (s.flushStack team) := by
  unfold State.flushStack State.dropStack
  exact (Wake.foldl (fun u (x : StackSec) => u.hwStore x.team (32 * x.sec) x.bytes true) (fun u x => .hwStore u _ _ _ _) _ s).trans (.of_eq rfl rfl)

/-- A team holds no bank any more. -/
def Team_unbanked (t : Team) : Team := { t with banks := [] }

theorem Wake.freeCore (s : State) (team : Nat) : Wake s (s.freeCore team) :=
  ((Wake.flushStack s team).trans (.modCore _ (s.team team).core fun c => { c with rel := (s.team team).banks.foldl insertNat c.rel })).trans
    (.modTeam_plain (f := Team_unbanked) _ team (fun _ => rfl) (fun _ => rfl) (fun _ => rfl) (fun _ => rfl) fun _ => rfl)

/-- A team's core is free, and its slot in the work queue; its launch counts it as ended (R242, R243). -/
def State.teamLeft (s : State) (team : Nat) : State :=
  let s1 := match (s.team team).place with
    | .resident => s.freeCore team
    | .stopped _ => s.freeCore team
    | _ => s
  (s1.modQueue (s.launchOf (s.team team)).q fun q => { q with held := q.held.filter (· ≠ (s.team team).wslot) }).modLaunch (s.team team).launch
    fun l => { l with ended := l.ended + 1, latest := max l.latest s.gtc }

theorem Wake.teamLeft (s : State) (team : Nat) : Wake s (s.teamLeft team) := by
  unfold State.teamLeft
  refine .trans (.trans ?_ (.modQueue _ _ _)) (.modLaunch _ (s.team team).launch fun _ => rfl)
  split
  · exact .freeCore s team
  · exact .freeCore s team
  · exact .refl s

theorem Wake.dropTeam (s : State) (team : Nat) : Wake s (s.dropTeam team) :=
  ((Wake.teamLeft s team).trans (.dropProbes _ fun p => decide (p.team = team))).trans
    ⟨rfl, fun b hb => ⟨b, (List.mem_filter.mp hb).1, .refl b⟩⟩

theorem Wake.endTeam (s : State) (team : Nat) : Wake s (s.endTeam team) := by
  unfold State.endTeam
  split
  · exact .refl s
  · split
    · simp only
      split
      · exact (Wake.flushStack s team).trans (.dropTeam _ team)
      · exact .flushStack s team
    · exact .refl s

theorem Wake.afterExit (s : State) (team g : Nat) : Wake s (s.afterExit team g) := by
  rw [State.afterExit_eq]
  exact (Wake.exitSettled s team g).trans (.endTeam _ team)

end Sys2Proof.Machine
end

section
namespace Sys2Proof.Machine

/-! ### The death of a home group (R71) -/

/-- A thread that has exited stays so. -/
def Thread_stillGone (a b : Thread) : Prop := a.st = .exited → b.st = .exited

theorem Thread_stillGone.refl (a : Thread) : Thread_stillGone a a := id
theorem Thread_stillGone.trans (a b c : Thread) (h : Thread_stillGone a b) (k : Thread_stillGone b c) : Thread_stillGone a c := fun e => k (h e)
theorem Thread_stillGone.of_freed (a b : Thread) (h : Thread_freed a b) : Thread_stillGone a b := fun e => (h.1 (.inr (.inl e))).1.trans e

/-- Every thread of a group is exited, and its streams are stopped. -/
def Group_dead (x : Group) : Group := { x with threads := x.threads.map fun th => { th with st := .exited }, streams := [] }

/-- A home group's threads have left the conjugate groups and are exited, and nothing waits for it or lands in it. -/
def Team_dead (g : Nat) (t : Team) : Team :=
  let t1 := (List.range 32).foldl (fun t l => Team_leaveConj t g l) t
  let t2 := t1.modGroupAt g Group_dead
  { t2 with
    cands := t2.cands.filter (fun c => decide (c.grp ≠ g)),
    pipe := t2.pipe.filter fun p => !goesWith g p.cls p.grp p.who }

/-- What is under way for a home group that dies is dropped; the state is that after its threads were set. -/
def State.dropGroup (s1 : State) (team g : Nat) (lost : List Nat) : State :=
  let s := (s1.leaveProbes team g).forget lost
  { s with
    pends := s.pends.filter (fun p => !(decide (p.team = team) && goesWith g p.cls p.grp p.who)),
    fences := s.fences.filter (fun f => !(decide (f.team = team) && decide (f.who = .grp g))),
    parks := (s.parks.map (fun p => if p.team = team then { p with lanes := p.lanes.filter fun x => x.1 ≠ g } else p)).filter
      (fun p => p.lanes ≠ []) }

/-- Names of the results that a home group's death takes away, `s1` being the state after its threads were set. -/
def State.lost (s s1 : State) (team g : Nat) : List Nat :=
  (s1.pends.filter fun p => p.team = team && goesWith g p.cls p.grp p.who).map (·.id) ++
    (((s.team team).pipe.filter fun p => goesWith g p.cls p.grp p.who).map (·.id)).filter (fun i => decide (i ≠ 0))

theorem State.killOne_eq (s : State) (team g : Nat) : s.killOne team g =
    ((s.modTeam team (Team_dead g)).dropGroup team g (s.lost (s.modTeam team (Team_dead g)) team g)).afterExit team g := rfl

theorem Team_leaves_fold (g : Nat) (ls : List Nat) (t : Team) : ∃ cs, ls.foldl (fun t l => Team_leaveConj t g l) t = { t with conj := cs } :=
  foldl_keeps (fun u => ∃ cs, u = { t with conj := cs }) (fun t l => Team_leaveConj t g l)
    (fun u l h => by obtain ⟨cs, rfl⟩ := h; exact ⟨_, rfl⟩) ls t ⟨t.conj, rfl⟩

theorem TeamAfter.leaves (g : Nat) (ls : List Nat) (t : Team) : TeamAfter Thread_stillGone t (ls.foldl (fun t l => Team_leaveConj t g l) t) := by
  obtain ⟨cs, h⟩ := Team_leaves_fold g ls t
  rw [h]
  exact .of_groups Thread_stillGone.refl rfl rfl rfl rfl rfl rfl

theorem TeamAfter.dead (g : Nat) (t : Team) : TeamAfter Thread_stillGone t (Team_dead g t) := by
  have h1 := TeamAfter.leaves g (List.range 32) t
  have h2 : TeamAfter Thread_stillGone ((List.range 32).foldl (fun t l => Team_leaveConj t g l) t) _ :=
    TeamAfter.modGroupAt (f := Group_dead) (k := fun th => { th with st := .exited })
      Thread_stillGone.refl _ g rfl fun _ _ => rfl
  exact (TeamAfter.trans Thread_stillGone.trans h1 h2).trans Thread_stillGone.trans (.of_groups Thread_stillGone.refl rfl rfl rfl rfl rfl rfl)

/-- Every thread of the group is exited. -/
theorem Team_dead_threads (g : Nat) (t : Team) : ∀ th ∈ ((Team_dead g t).groupAt g).threads, th.st = .exited := by
  intro th hth
  obtain ⟨l, hl, rfl⟩ := Team.mem_threads.mp hth
  have hg : Team_hasGroup ((List.range 32).foldl (fun t l => Team_leaveConj t g l) t) g :=
    ((Team.hasThread_modGroupAt _ g (f := Group_dead) (by simp [Group_dead]) g l).mp hl).1
  have he : (Team_dead g t).groupAt g = Group_dead (((List.range 32).foldl (fun t l => Team_leaveConj t g l) t).groupAt g) :=
    Team.groupAt_modGroupAt hg _
  rw [he] at hth
  obtain ⟨x, _, hx⟩ := List.mem_map.mp hth
  rw [← hx]

theorem TeamKin.dead (g : Nat) (t : Team) : TeamKin t (Team_dead g t) := by
  have h1 : TeamKin t _ := .foldl (fun t l => Team_leaveConj t g l) (fun t l => .leaveConj t g l) (List.range 32) t
  have h2 : TeamKin ((List.range 32).foldl (fun t l => Team_leaveConj t g l) t) _ :=
    .modGroupAt (f := Group_dead) _ g fun _ => rfl
  exact (h1.trans h2).trans ⟨rfl, rfl, rfl, rfl, fun c hc => ⟨c, hc, rfl⟩⟩

theorem Wake.dropGroup (s : State) (team g : Nat) (lost : List Nat) : Wake s (s.dropGroup team g lost) :=
  ((Wake.leaveProbes s team g).trans (.forget _ lost)).trans (.of_eq rfl rfl)

theorem Wake.killOne (s : State) (team g : Nat) : Wake s (s.killOne team g) := by
  rw [State.killOne_eq]
  exact ((Wake.modTeam s team (f := Team_dead g) fun t => .dead g t).trans (.dropGroup _ team g _)).trans (.afterExit _ team g)

/-! ### Dropping what is under way leaves a team's threads alone -/

section
variable {R : Thread → Thread → Prop} (hr : ∀ th, R th th) (htr : ∀ x y z, R x y → R y z → R x z)

include hr in
theorem Stays.swapId (team : Nat) (s : State) (old : Nat) (news : List Nat) : Stays R team s (s.swapId old news) := by
  unfold Stays State.team?
  show Option.Rel _ _ ((s.teams.map _).find? _)
  rw [List.find?_map]
  have hp : ((fun t : Team => decide (t.id = team)) ∘ fun t : Team => if t.bars = [] then t else { t with bars := t.bars.map fun b => (b.1, Bar_swap old news b.2) }) =
      fun t => decide (t.id = team) := by
    funext t
    simp only [Function.comp]
    split <;> rfl
  rw [hp]
  cases s.teams.find? fun t => decide (t.id = team) with
  | none => exact .none
  | some a =>
    refine .some ?_
    simp only
    split
    · exact .refl hr a
    · exact .of_groups hr rfl rfl rfl rfl rfl rfl

include hr htr in
theorem Stays.forget (team : Nat) (s : State) (ids : List Nat) : Stays R team s (s.forget ids) :=
  Stays.foldl hr htr team (fun u i => State.swapId u i []) (fun u i => .swapId hr team u i []) ids s

include hr htr in
theorem Stays.wmUpdate (team : Nat) (s : State) (j : Nat) (ts : List Nat) : Stays R team s (s.wmUpdate j ts) :=
  Stays.foldl hr htr team
    (fun u md => u.modTeam j fun t => t.setTile md (Tile_wmSet (t.tile md) (s.cycle (s.team j).core) (s.leadingFinal j md)))
    (fun u _ => Stays.modTeam hr team j u fun _ => .of_groups hr rfl rfl rfl rfl rfl rfl) ts s

include hr htr in
theorem Stays.dropProbes (team : Nat) (s : State) (gone : Probe → Bool) : Stays R team s (s.dropProbes gone) := by
  unfold State.dropProbes
  refine .trans htr (.trans htr ?_ (.forget hr htr team _ _)) (.foldl hr htr team _ (fun u (p : Probe) => .wmUpdate hr htr team u p.team _) _ _)
  exact .of_eq hr rfl

include hr htr in
theorem Stays.leaveProbes (team : Nat) (s : State) (j g : Nat) : Stays R team s (s.leaveProbes j g) := by
  unfold State.leaveProbes
  refine .trans htr ?_ (.dropProbes hr htr team _ _)
  exact .of_eq hr rfl

include hr htr in
theorem Stays.dropGroup (team : Nat) (s : State) (j g : Nat) (lost : List Nat) : Stays R team s (s.dropGroup j g lost) :=
  .trans htr (.trans htr (.leaveProbes hr htr team s j g) (.forget hr htr team _ lost)) (.of_eq hr rfl)
end

/-- THE DEATH OF A GROUP: its team stands with that group exited and none come back, or is gone. -/
theorem State.killOne_cases {s : State} {team : Nat} {a : Team} (g : Nat) (ha : s.team? team = some a) :
    (s.killOne team g).team? team = none ∨ ∃ b, (s.killOne team g).team? team = some b ∧ TeamAfter Thread_stillGone a b ∧
      ∀ th ∈ (b.groupAt g).threads, th.st = .exited := by
  rw [State.killOne_eq]
  generalize s.lost (s.modTeam team (Team_dead g)) team g = lost
  have h1 : (s.modTeam team (Team_dead g)).team? team = some (Team_dead g a) := by
    rw [State.teamOpt_modTeam s team _ fun t => (TeamAfter.dead g t).id, ha]; rfl
  obtain ⟨b, hb, hab⟩ := (Stays.dropGroup Thread_stillGone.refl Thread_stillGone.trans team _ team g lost).some h1
  rcases State.afterExit_cases ((s.modTeam team (Team_dead g)).dropGroup team g lost) team g with h2 | ⟨h2, _⟩
  · right
    obtain ⟨c, hc, hbc⟩ := (h2.mono Thread_stillGone.of_freed).some hb
    have hac := TeamAfter.trans Thread_stillGone.trans hab hbc
    refine ⟨c, hc, TeamAfter.trans Thread_stillGone.trans (.dead g a) hac, fun th hth => ?_⟩
    obtain ⟨l, hl, rfl⟩ := Team.mem_threads.mp hth
    have hl' := (hac.has g l).mp hl
    exact hac.thread g l hl' (Team_dead_threads g a _ (Team.mem_threads.mpr ⟨l, hl', rfl⟩))
  · exact .inl h2

/-- The death of several groups, one after the other. -/
def State.killGroups (s : State) (team : Nat) (gs : List Nat) : State :=
  gs.foldl (fun s g => if (s.team? team).isSome then s.killOne team g else s) s

theorem Wake.killGroups (s : State) (team : Nat) (gs : List Nat) : Wake s (s.killGroups team gs) :=
  .foldl (fun (s : State) g => if (s.team? team).isSome then s.killOne team g else s)
    (fun s g => by split; exacts [.killOne s team g, .refl s]) gs s

/-- A team that is gone is not killed again. -/
theorem State.killGroups_none {s : State} {team : Nat} (h : s.team? team = none) (gs : List Nat) : s.killGroups team gs = s := by
  induction gs with
  | nil => rfl
  | cons g r ih =>
    unfold State.killGroups at ih ⊢
    rw [List.foldl_cons, if_neg (by simp [h]), ih]

/-- After the death of several groups, their threads are exited, those that had exited too, or the team is gone. -/
theorem State.killGroups_cases (team : Nat) (gs : List Nat) : ∀ (s : State) (a : Team), s.team? team = some a →
    (s.killGroups team gs).team? team = none ∨ ∃ b, (s.killGroups team gs).team? team = some b ∧ TeamAfter Thread_stillGone a b ∧
      ∀ g ∈ gs, ∀ th ∈ (b.groupAt g).threads, th.st = .exited := by
  induction gs with
  | nil => exact fun s a ha => .inr ⟨a, ha, .refl Thread_stillGone.refl a, fun g hg => absurd hg List.not_mem_nil⟩
  | cons g r ih =>
    intro s a ha
    have he : s.killGroups team (g :: r) = (s.killOne team g).killGroups team r := by
      unfold State.killGroups
      rw [List.foldl_cons, if_pos (by simp [ha])]
    rw [he]
    rcases State.killOne_cases g ha with h | ⟨b, hb, hab, hdead⟩
    · left
      rw [State.killGroups_none h, h]
    · rcases ih _ b hb with h | ⟨c, hc, hbc, hrest⟩
      · exact .inl h
      · refine .inr ⟨c, hc, TeamAfter.trans Thread_stillGone.trans hab hbc, fun g' hg' th hth => ?_⟩
        rcases List.mem_cons.mp hg' with rfl | hr
        · obtain ⟨l, hl, rfl⟩ := Team.mem_threads.mp hth
          have hl' := (hbc.has g' l).mp hl
          exact hbc.thread g' l hl' (hdead _ (Team.mem_threads.mpr ⟨l, hl', rfl⟩))
        · exact hrest g' hr th hth

/-- The groups that the kill of an actor ends. -/
def Team_doomed (t : Team) (a : Actor) : List Nat :=
  match a with
  | .lead => t.allGroups ++ [leadGrp]
  | a => Team_homes t a

theorem State.killActor_eq (s : State) (team : Nat) (a : Actor) (bit : Nat) (tied : Option (Dword × Word)) :
    s.killActor team a bit tied = (s.sticky (s.team team).launch bit tied).killGroups team (Team_doomed (s.team team) a) := by
  cases a <;> rfl

theorem State.dying_eq (s : State) : s.dying = Team_doomed s.ct s.cur.who := by
  unfold State.dying Team_doomed
  cases s.cur.who <;> rfl

/-! ### The error registers (R214) -/

theorem Launch_sticky_id (l : Launch) (bit : Nat) (tied : Option (Dword × Word)) : (Launch_sticky l bit tied).id = l.id := by
  unfold Launch_sticky
  split
  · split <;> rfl
  · rfl

theorem Launch_sticky_bit (l : Launch) {bit : Nat} (hb : bit < 9) (tied : Option (Dword × Word)) :
    (Launch_sticky l bit tied).ctxerr.getLsbD bit = true := by
  have h : (l.ctxerr ||| BitVec.ofNat 9 (2 ^ bit)).getLsbD bit = true := by
    rw [BitVec.getLsbD_or, BitVec.getLsbD_ofNat, Nat.testBit_two_pow_self]
    simp [hb]
  unfold Launch_sticky
  split
  · split <;> exact h
  · exact h

theorem Launch_sticky_first {l : Launch} (h : l.errSet = false) (bit : Nat) (pc : Dword) (w : Word) :
    (Launch_sticky l bit (some (pc, w))).errSet = true ∧ (Launch_sticky l bit (some (pc, w))).errpc = pc ∧
      (Launch_sticky l bit (some (pc, w))).errword = w := by
  unfold Launch_sticky
  simp [h]

theorem Wake.sticky_bit {s t : State} {launch bit : Nat} {tied : Option (Dword × Word)} (hw : Wake (s.sticky launch bit tied) t) (hb : bit < 9) :
    ∀ l ∈ t.launches, l.id = launch → l.ctxerr.getLsbD bit = true := by
  intro l hl hid
  have hm : Launch_err l ∈ (s.sticky launch bit tied).launches.map Launch_err := hw.errs ▸ List.mem_map_of_mem hl
  obtain ⟨m, hm, hml⟩ := List.mem_map.mp hm
  obtain ⟨k, _, rfl⟩ := List.mem_map.mp hm
  simp only [Launch_err, Prod.mk.injEq] at hml
  obtain ⟨h1, h2, -⟩ := hml
  rw [← h2]
  split at h1
  · rename_i hk; rw [if_pos hk]; exact Launch_sticky_bit k hb tied
  · rename_i hk; exact absurd (decide_eq_true (h1.trans hid)) hk

theorem Wake.sticky_first {s t : State} {launch bit : Nat} {pc : Dword} {w : Word} (hw : Wake (s.sticky launch bit (some (pc, w))) t) :
    ∀ l ∈ s.launches, l.id = launch → l.errSet = false → ∃ m ∈ t.launches, m.id = l.id ∧ m.errSet = true ∧ m.errpc = pc ∧ m.errword = w := by
  intro l hl hid he
  have h1 : Launch_sticky l bit (some (pc, w)) ∈ (s.sticky launch bit (some (pc, w))).launches :=
    List.mem_map.mpr ⟨l, hl, by rw [if_pos (decide_eq_true hid)]⟩
  have h2 : Launch_err (Launch_sticky l bit (some (pc, w))) ∈ t.launches.map Launch_err := hw.errs ▸ List.mem_map_of_mem h1
  obtain ⟨m, hm, hme⟩ := List.mem_map.mp h2
  obtain ⟨e1, e2, e3⟩ := Launch_sticky_first he bit pc w
  simp only [Launch_err, Prod.mk.injEq, e1, e2, e3, Launch_sticky_id] at hme
  obtain ⟨m1, -, m2, m3, m4⟩ := hme
  exact ⟨m, hm, m1, m2, m3, m4⟩

/-- THE KILL OF AN ACTOR, from a state that has the same launches and the same team but for what is not read here. -/
theorem Killed.of_killActor {s s' : State} {bit : Nat} (hb : bit < 9) (hl : s'.launches = s.launches) {a : Team}
    (ha : s'.team? s.cur.team = some a) (hla : a.launch = s.ct.launch) (hd : Team_doomed a s.cur.who = s.dying) :
    Killed s (s'.killActor s.cur.team s.cur.who bit (some (s.cur.pc, s.cur.word))) bit := by
  have hteam : s'.team s.cur.team = a := by simp [State.team, ha]
  rw [State.killActor_eq, hteam, hd, hla]
  have hw : Wake (s'.sticky s.ct.launch bit (some (s.cur.pc, s.cur.word)))
      ((s'.sticky s.ct.launch bit (some (s.cur.pc, s.cur.word))).killGroups s.cur.team s.dying) := .killGroups _ _ _
  refine ⟨?_, hw.sticky_bit hb, hl ▸ hw.sticky_first⟩
  rcases State.killGroups_cases s.cur.team s.dying (s'.sticky s.ct.launch bit (some (s.cur.pc, s.cur.word))) a ha with h | ⟨b, hbt, -, hdead⟩
  · exact .inl h
  · right
    simpa [State.team, hbt] using hdead

theorem Killed.of_killCur {s : State} (hi : Issuing s) {bit : Nat} (hb : bit < 9) : Killed s (s.killCur bit) bit := by
  obtain ⟨a, ha⟩ := Option.isSome_iff_exists.mp hi.team
  have hct : s.ct = a := by simp [State.ct, State.team, ha]
  exact .of_killActor hb rfl ha (by rw [hct]) (by rw [State.dying_eq, hct])

end Sys2Proof.Machine
end

section
namespace Sys2Proof.Machine

/-! ### Which instructions kill their issuer (R22, R148, R198, R220, R233, R235, R255, R260, R328) -/

theorem brxOp_kills {s : State} {x : XHead} {a : Opd} {L : Nat} (hL : L ∈ s.active x) (h : (s.reg2 a L).extractLsb' 0 2 ≠ 0) :
    brxOp x a s = .next (s.killCur eIll) := by
  have hodd : (s.reg2 a L).toNat % 4 ≠ 0 := fun e => h (by
    refine BitVec.eq_of_toNat_eq ?_
    rw [BitVec.extractLsb'_toNat]
    simpa using e)
  unfold brxOp
  simp only
  rw [if_pos (List.any_eq_true.mpr ⟨L, hL, decide_eq_true hodd⟩)]

theorem pairJump_kills {s : State} {i : Instr} {j : PairJump} {L : Nat} (hj : pairJump i = some j) (hL : L ∈ s.active j.x)
    (h : (s.reg2 j.a L).extractLsb' 0 2 ≠ 0) : exec i s = .next (s.killCur eIll) := by
  have he : exec i s = brxOp j.x j.a s := by
    unfold pairJump at hj
    split at hj
    all_goals cases hj
    all_goals rfl
  rw [he, brxOp_kills hL h]

theorem State.rcvSetOp_busy {s : State} {act : List Nat} {b : BitVec 4} {L : Nat} (hL : L ∈ act) (h : s.slotBusy L b) :
    s.rcvSetOp act b.toNat = none := by
  obtain ⟨th, hth, harr, hst⟩ := h
  have hw : Team_waitsAt s.ct (s.home L).1 b.toNat = true :=
    List.any_eq_true.mpr ⟨th, hth, by simp [Thread_arrivedAt, Thread.gone, harr, hst]⟩
  exact if_pos (List.any_eq_true.mpr ⟨s.home L, List.mem_map_of_mem hL, hw⟩)

theorem State.wholeGroup_conj {s : State} {k : Nat} (h : s.cur.who = .conj k) (f : State → Out) : s.wholeGroup f = .next (s.killCur eRcv) := by
  unfold State.wholeGroup
  rw [h]

theorem wholeOnly_kills {s : State} {i : Instr} {k : Nat} (h : s.cur.who = .conj k) (hw : wholeOnly i = true) :
    exec i s = .next (s.killCur eRcv) := by
  have he : ∃ f, exec i s = s.wholeGroup f := by
    unfold wholeOnly at hw
    split at hw
    case h_19 => cases hw
    all_goals dsimp only [exec]; exact ⟨_, rfl⟩
  obtain ⟨f, hf⟩ := he
  rw [hf, State.wholeGroup_conj h]

theorem remIs_kills {s : State} {i : Instr} {r : RemIs} (hr : remIs i = some r) (h : s.cur.level = .h) : exec i s = .next (s.killCur ePriv) := by
  have he : ∃ f, exec i s = s.notAtH f := by
    unfold remIs at hr
    split at hr
    case h_5 => cases hr
    all_goals dsimp only [exec]; exact ⟨_, rfl⟩
  obtain ⟨f, hf⟩ := he
  rw [hf, State.notAtH, if_pos h]

/-- The levels that the machine lets read and write the numbers of the table of R233. -/
theorem csr_granted_small : ∀ n < 86, ∀ l ∈ [Level.u, Level.h, Level.s], (csrReads l n = true → l ∈ (csrLevels n).1) ∧
    (csrWrites l n = true → l ∈ (csrLevels n).2) := by decide

theorem Level.mem_all (l : Level) : l ∈ [Level.u, Level.h, Level.s] := by cases l <;> decide

theorem csrReads_granted {l : Level} {n : Nat} (h : csrReads l n = true) : l ∈ (csrLevels n).1 := by
  by_cases hn : n < 86
  · exact (csr_granted_small n hn l (Level.mem_all l)).1 h
  · unfold csrReads at h
    grind

theorem csrWrites_granted {l : Level} {n : Nat} (h : csrWrites l n = true) : l ∈ (csrLevels n).2 := by
  by_cases hn : n < 86
  · exact (csr_granted_small n hn l (Level.mem_all l)).2 h
  · simp only [csrWrites, Bool.and_eq_true, List.contains_iff_mem, List.mem_cons, List.not_mem_nil, or_false] at h
    omega

/-- An instruction of the table of kills has its issuer killed. -/
theorem Kills.exec {s : State} {i : Instr} {bit : Nat} (h : Kills s i bit) : exec i s = .next (s.killCur bit) ∧ bit < 9 := by
  refine ⟨?_, by cases h <;> decide⟩
  cases h with
  | target i j L hj hL ho => exact pairJump_kills hj hL ho
  | slot x b L hL hb =>
    show execRcvSet x b s = _
    rw [execRcvSet, State.rcvSetOp_busy hL hb]
  | regroup x b w L hL hb =>
    show execRegroup x b w s = _
    unfold execRegroup State.wholeGroup
    split
    · rfl
    · simp only [State.rcvSetOp_busy hL hb]
  | conj i k hc hw => exact wholeOnly_kills hc hw
  | remote i r hr hl => exact remIs_kills hr hl
  | csrr x d n _ hl =>
    show execCsrr x d n s = _
    rw [execCsrr, if_pos (by simpa using fun e => hl (csrReads_granted e))]
  | csrw x n a _ hl =>
    show execCsrw x n a s = _
    rw [execCsrw, if_pos (by simpa using fun e => hl (csrWrites_granted e))]
  | eret x a hl => exact if_pos hl
  | capmk x cd b hl => exact if_neg hl
  | capmkRec x a b w hl => exact if_neg hl
  | copy x h gd a b c ha hn hbad =>
    show execAcp x h gd a b c s = _
    have hn' : (s.reg1 c 0).toNat ≠ 0 := fun e => hn (BitVec.eq_of_toNat_eq e)
    have hb : (regionBad (s.hdrOf s.ct).scratch (s.reg2 a 0) (s.reg1 c 0).toNat ||
        regionBad (s.hdrOf s.ct).scratch (s.src2 b 0) (s.reg1 c 0).toNat ||
        regionsMeet (s.reg2 a 0) (s.src2 b 0) (s.reg1 c 0).toNat) = true := by
      rcases hbad with h | h | h <;> simp [h]
    unfold execAcp
    simp only
    rw [if_neg ha, if_neg hn', if_pos hb]
  | evsig x b L hL hbig =>
    show execEvsig x b s = _
    unfold execEvsig
    simp only [hL]
    exact if_pos hbig
  | evwait x a b L hL hbig =>
    show execEvwait x a b s = _
    unfold execEvwait
    simp only [hL]
    exact if_pos hbig

end Sys2Proof.Machine
end

section
namespace Sys2Proof.Machine

/-! ### What a fetch reads (R46, R108): nothing of the agenda, of the issue queue, nor of a core beyond its TLB -/

/-- A state with its cores, its agenda and its issue queue replaced. -/
def State.beside (s : State) (cs : List (Nat × Core)) (ag : List Turn) (q : List (IssueCtx × Instr)) : State :=
  { s with cores := cs, agenda := ag, issueQ := q }

theorem walkFrom_beside (s : State) (cs : List (Nat × Core)) (ag : List Turn) (q : List (IssueCtx × Instr)) (world va : Nat) :
    ∀ (level node : Nat) (seen : List NodeEnt), walkFrom (s.beside cs ag q) world va node level seen = walkFrom s world va node level seen := by
  intro level
  induction level with
  | zero =>
    intro node seen
    unfold walkFrom
    rfl
  | succ l ih =>
    intro node seen
    unfold walkFrom
    simp only [ih]
    rfl

section
variable {s : State} {cs : List (Nat × Core)} {core : Nat} (ag : List Turn) (q : List (IssueCtx × Instr))
  (hc : (tabGet cs core {}).tlb = (s.core core).tlb)

theorem State.walk_beside (s : State) (cs : List (Nat × Core)) (ag : List Turn) (q : List (IssueCtx × Instr)) (die world va : Nat) :
    (s.beside cs ag q).walk die world va = s.walk die world va := by
  unfold State.walk
  simp only [walkFrom_beside]
  rfl

theorem walkLines_beside (s : State) (cs : List (Nat × Core)) (ag : List Turn) (q : List (IssueCtx × Instr)) (va : Nat) :
    ∀ level node : Nat, walkLines (s.beside cs ag q) va node level = walkLines s va node level := by
  intro level
  induction level with
  | zero =>
    intro node
    unfold walkLines
    rfl
  | succ l ih =>
    intro node
    unfold walkLines
    simp only [ih]
    rfl

theorem State.noteWalk_beside (s : State) (cs : List (Nat × Core)) (ag : List Turn) (q : List (IssueCtx × Instr)) (start : Nat × Nat)
    (va : Nat) : (s.beside cs ag q).noteWalk start va = (s.noteWalk start va).beside cs ag q := by
  unfold State.noteWalk
  split
  · rfl
  · rw [walkLines_beside]; rfl

/-- The answer of a translation: the entry that a TLB has, or that the walk finds. -/
theorem State.translate_fst (s : State) (core world va : Nat) : (s.translate core world va).1 =
    match tlbHit (s.core core).tlb world va with
    | some e => .ok e
    | none => match tlbHit (s.die (dieOf core)).tlb world va with
      | some e => .ok e
      | none => ((s.noteWalk (s.walkStart (dieOf core) world va) va).walk (dieOf core) world va).map (·.1) := by
  unfold State.translate
  cases tlbHit (s.core core).tlb world va with
  | some e => rfl
  | none =>
    cases tlbHit (s.die (dieOf core)).tlb world va with
    | some e => rfl
    | none =>
      simp only
      cases (s.noteWalk (s.walkStart (dieOf core) world va) va).walk (dieOf core) world va <;> rfl

theorem State.globAcc_fst (s : State) (core world : Nat) (va : Dword) (kind : Nat) (elem : Bool) : (s.globAcc core world va kind elem).1 =
    if !canonical va then .error 7
    else match (s.translate core world (va.toNat % 2 ^ 56)).1 with
      | .error c => .error c
      | .ok e => if (e.fmt ≠ 0) ≠ elem then .error 4
        else if !permOk e kind then .error 2
        else .ok ⟨.glob (TlbEnt_pa e (va.toNat % 2 ^ 56)), some e⟩ := by
  unfold State.globAcc
  split
  · rfl
  · rcases s.translate core world (va.toNat % 2 ^ 56) with ⟨c | e, u⟩
    · rfl
    · simp only
      split
      · rfl
      · split <;> rfl

include hc in
theorem State.globAcc_beside (world : Nat) (va : Dword) (kind : Nat) (elem : Bool) :
    ((s.beside cs ag q).globAcc core world va kind elem).1 = (s.globAcc core world va kind elem).1 := by
  have ht : ∀ va, ((s.beside cs ag q).translate core world va).1 = (s.translate core world va).1 := by
    intro va
    rw [State.translate_fst, State.translate_fst, State.noteWalk_beside, State.walk_beside]
    have h1 : ((s.beside cs ag q).core core).tlb = (s.core core).tlb := hc
    rw [h1]
    rfl
  rw [State.globAcc_fst, State.globAcc_fst, ht]

end

section
variable {s : State} {cs : List (Nat × Core)} {t : Team} (ag : List Turn) (q : List (IssueCtx × Instr))
  (hc : (tabGet cs t.core {}).tlb = (s.core t.core).tlb)

include hc

theorem State.codeWord_beside (pc : Dword) : (s.beside cs ag q).codeWord t pc = s.codeWord t pc := by
  unfold State.codeWord
  have h := State.globAcc_beside ag q hc (s.worldOf t) pc kFetch false
  have hw : (s.beside cs ag q).worldOf t = s.worldOf t := rfl
  rw [hw, h]

theorem State.codeWords_beside (n : Nat) : ∀ pc, (s.beside cs ag q).codeWords t pc n = s.codeWords t pc n := by
  induction n with
  | zero => exact fun _ => rfl
  | succ n ih =>
    intro pc
    unfold State.codeWords
    rw [State.codeWord_beside ag q hc]
    simp only [ih]
    rfl

theorem State.peek_beside (lead : Bool) (l : Level) (pc : Dword) : (s.beside cs ag q).peek t lead l pc = s.peek t lead l pc := by
  unfold State.peek
  simp only [State.codeWord_beside ag q hc, State.codeWords_beside ag q hc]
  rfl

theorem State.pathsF_beside (a : Actor) : (s.beside cs ag q).pathsF t a = s.pathsF t a := by
  unfold State.pathsF
  simp only [State.peek_beside ag q hc]
  rfl

end

/-! ### The choice of a sole issuer (R14, R28) -/

theorem rrPick_nil (last : Option (Nat × Nat)) : rrPick last [] = none := by
  unfold rrPick
  cases last <;> rfl

theorem rrPick_single (last : Option (Nat × Nat)) (t : Team) (a : Actor) : rrPick last [(t, a)] = some (t, a) := by
  unfold rrPick
  cases last with
  | none => rfl
  | some k => by_cases h : keyLt k (rrKey t a) <;> simp [h]

/-- Every group and conjugate group of a team stands on one sub-core, and it has no lead thread. -/
structure AllSub (j : Nat) (b : Team) : Prop where
  lead : b.lead = none
  few : b.groups.length ≤ leadGrp
  groups : ∀ g ∈ b.groups, g.sub = j
  conj : ∀ c ∈ b.conj, c.sub = j

theorem AllSub.of_kin {j : Nat} {a b : Team} (h : AllSub j a) (k : TeamKin a b) : AllSub j b := by
  refine ⟨?_, ?_, fun g hg => ?_, fun c hc => ?_⟩
  · have := k.lead
    rw [h.lead] at this
    simpa using this
  · have := congrArg List.length k.groups
    simp only [List.length_map] at this
    rw [this]; exact h.few
  · have : g.sub ∈ a.groups.map (·.sub) := k.groups ▸ List.mem_map_of_mem hg
    obtain ⟨x, hx, e⟩ := List.mem_map.mp this
    rw [← e]; exact h.groups x hx
  · obtain ⟨d, hd, e⟩ := k.conj c hc
    rw [← e]; exact h.conj d hd

theorem AllSub.actor {j : Nat} {b : Team} (h : AllSub j b) {x : Actor} (hx : x ∈ Team_actors b) : (b.actor x).sub = j := by
  unfold Team_actors at hx
  rcases List.mem_append.mp hx with hx | hx
  · obtain ⟨n, hn, rfl⟩ := List.mem_map.mp hx
    have hn : n < b.groups.length := by simpa [Team.allGroups] using hn
    show (b.groupAt n).sub = j
    have hl : n ≠ leadGrp := fun e => absurd (h.few) (by omega)
    rw [Team.groupAt, if_neg hl]
    simp only [List.getD, List.getElem?_eq_getElem hn, Option.getD_some]
    exact h.groups _ (List.getElem_mem hn)
  · obtain ⟨c, hc, rfl⟩ := List.mem_map.mp hx
    show ((b.conj.find? fun d => d.id = c.id).getD {}).sub = j
    cases hf : b.conj.find? fun d => d.id = c.id with
    | none => exact absurd (decide_eq_true rfl) (List.find?_eq_none.mp hf c hc)
    | some d => exact h.conj d (List.mem_of_find?_eq_some hf)

end Sys2Proof.Machine
end

section
namespace Sys2Proof.Machine

/-! ### A kill at the issue of a path (R46, R64, R69, R70, R71) -/

theorem foldl_once {α β : Type} {f : β → α → β} {b : β} {k : α} {l : List α} (hn : l.Nodup) (hk : k ∈ l)
    (h1 : ∀ j ∈ l, j ≠ k → f b j = b) (h2 : ∀ j ∈ l, j ≠ k → f (f b k) j = f b k) : l.foldl f b = f b k := by
  have rest : ∀ l' : List α, (∀ j ∈ l', j ∈ l ∧ j ≠ k) → l'.foldl f (f b k) = f b k := by
    intro l'
    induction l' with
    | nil => exact fun _ => rfl
    | cons j r ih =>
      intro h
      obtain ⟨hj, hne⟩ := h j List.mem_cons_self
      rw [List.foldl_cons, h2 j hj hne]
      exact ih fun i hi => h i (List.mem_cons_of_mem j hi)
  obtain ⟨l1, l2, rfl⟩ := List.append_of_mem hk
  have hn2 := List.nodup_append.mp hn
  have h0 : l1.foldl f b = b := by
    have : ∀ l' : List α, (∀ j ∈ l', j ∈ l1) → l'.foldl f b = b := by
      intro l'
      induction l' with
      | nil => exact fun _ => rfl
      | cons j r ih =>
        intro h
        have hj := h j List.mem_cons_self
        rw [List.foldl_cons, h1 j (List.mem_append_left _ hj) fun e => hn2.2.2 j hj k List.mem_cons_self e]
        exact ih fun i hi => h i (List.mem_cons_of_mem j hi)
    exact this l1 fun _ h => h
  rw [List.foldl_append, h0, List.foldl_cons]
  refine rest l2 fun j hj => ⟨by simp [hj], fun e => ?_⟩
  subst e
  exact (List.nodup_cons.mp hn2.2.1).1 hj

/-- What a picked path leaves in its actor before it executes. -/
def Group_picked (ages : List Age) (now : Nat) (g : Group) : Group :=
  { g with ages := ages, lastIssue := now, fresh := false, since := none }

theorem State.issueActor_kill {s : State} {core : Nat} {t : Team} {a : Actor} {cut : Nat} {p : Path} {f : Fetched} {bit : Nat} {w : Word}
    (hp : picksOf (t.actor a).ages (s.pathsF t a) = [(p, f)]) (hu : s.slotUse t a p f = .kill bit w) :
    s.issueActor core t a cut = (s.modTeam t.id fun tm => tm.modActor a fun g =>
      Group_picked (nextAges g.ages ((s.pathsF t a).map (·.1)) [p]) (s.cycle core) g).killActor t.id a bit (some (p.pc, w)) := by
  unfold State.issueActor
  simp only [hp, List.map_cons, List.map_nil, hu, List.find?_cons]
  rfl

/-- The groups that a kill ends are those of the actor's threads, whatever has been noted of the actor. -/
theorem Team_doomed_modActor (t : Team) (a : Actor) {f : Group → Group} (hid : ∀ g, (f g).id = g.id) (hpos : ∀ g, (f g).pos = g.pos) :
    Team_doomed (t.modActor a f) a = Team_doomed t a := by
  cases a with
  | grp n => rfl
  | lead => rfl
  | conj k =>
    simp only [Team_doomed, Team_homes, Team.modActor]
    rw [find?_mapIf _ _ _ _ fun x => by simp [hid]]
    cases h : t.conj.find? fun c => decide (c.id = k) with
    | none => rfl
    | some c =>
      simp only [Option.map_some, Option.getD_some]
      split
      · rw [hpos]
      · rfl

/-- A state that has the teams and launches of the one before the cycle, and a fetch sees no difference. -/
theorem State.issueActor_killed {s : State} {cs : List (Nat × Core)} {ag : List Turn} {core : Nat} {t : Team} {a : Actor} {cut : Nat} {p : Path}
    {f : Fetched} {w : Word} {bit : Nat} (ht : s.team? t.id = some t) (hc : (tabGet cs t.core {}).tlb = (s.core t.core).tlb)
    (hp : picksOf (t.actor a).ages (s.pathsF t a) = [(p, f)]) (hu : s.slotUse t a p f = .kill bit w) (hb : bit < 9) :
    let u := (s.beside cs ag []).issueActor core t a cut
    u.mem = s.mem ∧ u.issueQ = [] ∧ Killed { s with cur := ctxOf core t.id a p 4 w 0 none } u bit ∧
      ∀ b ∈ u.teams, ∃ x ∈ s.teams, TeamKin x b := by
  have hp' : picksOf (t.actor a).ages ((s.beside cs ag []).pathsF t a) = [(p, f)] := by rwa [State.pathsF_beside ag [] hc]
  have hu' : (s.beside cs ag []).slotUse t a p f = .kill bit w := hu
  simp only
  rw [State.issueActor_kill hp' hu']
  generalize hG : (fun g => Group_picked (nextAges g.ages (((s.beside cs ag []).pathsF t a).map (·.1)) [p]) ((s.beside cs ag []).cycle core) g) = G
  have hid : ∀ g, (G g).id = g.id := by rw [← hG]; exact fun _ => rfl
  have hpos : ∀ g, (G g).pos = g.pos := by rw [← hG]; exact fun _ => rfl
  have hsub : ∀ g, (G g).sub = g.sub := by rw [← hG]; exact fun _ => rfl
  have hteam : ((s.beside cs ag []).modTeam t.id fun tm => tm.modActor a G).team? t.id = some (t.modActor a G) := by
    rw [State.teamOpt_modTeam _ _ _ fun x => by simp]
    show (s.team? t.id).map _ = _
    rw [ht]; rfl
  have hct : State.ct { s with cur := ctxOf core t.id a p 4 w 0 none } = t := by
    show (s.team? t.id).getD _ = t
    rw [ht]; rfl
  have hbare := State.bare_killActor ((s.beside cs ag []).modTeam t.id fun tm => tm.modActor a G) t.id a bit (some (p.pc, w))
  refine ⟨?_, ?_, ?_, ?_⟩
  · exact State.bare_mem (s := s.beside cs ag []) hbare
  · exact (congrArg State.issueQ hbare :)
  · refine Killed.of_killActor (s := { s with cur := ctxOf core t.id a p 4 w 0 none }) hb rfl hteam ?_ ?_
    · rw [hct]; simp
    · rw [State.dying_eq, hct]
      exact Team_doomed_modActor t a hid hpos
  · rw [State.killActor_eq]
    have h1 : Wake (s.beside cs ag []) ((s.beside cs ag []).modTeam t.id fun tm => tm.modActor a G) := .modTeam _ _ fun x => .modActor x a hsub
    intro b hb'
    obtain ⟨x, hx, hxb⟩ := (Wake.killGroups _ _ _).teams b hb'
    obtain ⟨y, hy, hyx⟩ := h1.teams x hx
    exact ⟨y, hy, hyx.trans hxb⟩

theorem State.issueSub_none {s : State} {core cut j : Nat} (h : s.ready core j = []) : s.issueSub core cut j = s := by
  unfold State.issueSub
  rw [h, rrPick_nil]

theorem State.issueLead_none {s : State} {core cut : Nat} (h : ∀ t ∈ s.residents core, t.lead.isSome = false ∨ s.pathsF t .lead = []) :
    s.issueLead core cut = s := by
  have : ((s.residents core).filter fun t => t.lead.isSome && decide (s.pathsF t .lead ≠ [])) = [] := by
    rw [List.filter_eq_nil_iff]
    intro t ht
    rcases h t ht with h | h <;> simp [h]
  unfold State.issueLead
  simp only [this, List.map_nil, rrPick_nil]

/-- A core's table after a note of the issue keeps its TLB. -/
theorem State.core_noted (s : State) (core : Nat) {f : Core → Core} (hf : ∀ c, (f c).tlb = c.tlb) :
    (tabGet (tabSet s.cores core (f (s.core core)) {}) core {}).tlb = (s.core core).tlb := by
  rw [tabGet_tabSet_self, hf]

theorem mem_residents {s : State} {core : Nat} {t : Team} : t ∈ s.residents core ↔ t ∈ s.teams ∧ t.core = core ∧ t.place = .resident := by
  simp [State.residents]

theorem picksOf_ne {ages : List Age} {pf : List (Path × Fetched)} {x : Path × Fetched} (h : picksOf ages pf = [x]) : pf ≠ [] := by
  rintro rfl
  cases h

/-- Who is ready is found among the residents' actors of the sub-core. -/
theorem State.ready_none {s : State} {core j : Nat}
    (h : ∀ b ∈ s.residents core, ∀ x ∈ Team_actors b, (b.actor x).active = false ∨ (b.actor x).sub ≠ j ∨ s.pathsF b x = []) :
    s.ready core j = [] := by
  unfold State.ready
  rw [List.flatMap_eq_nil_iff]
  intro b hb
  rw [List.map_eq_nil_iff, List.filter_eq_nil_iff]
  intro x hx
  rcases h b hb x hx with h | h | h <;> simp [h]

theorem State.ready_single {s : State} {core : Nat} {t : Team} {a : Actor} (hr : s.residents core = [t]) (ha : Team_actors t = [a])
    (hact : (t.actor a).active = true) (hn : (t.actor a).notBefore ≤ s.cycle core) (hp : s.pathsF t a ≠ []) :
    s.ready core (t.actor a).sub = [(t, a)] := by
  unfold State.ready
  rw [hr, List.flatMap_cons, List.flatMap_nil, ha]
  simp [hact, hn, hp]

/-- A team with one actor and no lead thread has all it has on one sub-core. -/
theorem AllSub.of_sole {t : Team} {a : Actor} (ha : Team_actors t = [a]) (hl : t.lead = none) : AllSub (t.actor a).sub t := by
  have hlen : t.groups.length + t.conj.length = 1 := by
    have := congrArg List.length ha
    simpa [Team_actors, Team.allGroups] using this
  refine ⟨hl, by unfold leadGrp; omega, fun g hg => ?_, fun c hc => ?_⟩
  · obtain ⟨n, hn, rfl⟩ := List.mem_iff_getElem.mp hg
    have hn0 : n = 0 ∧ t.groups.length = 1 := by omega
    have ha' : a = .grp 0 := by
      have hm : Actor.grp 0 ∈ Team_actors t := List.mem_append_left _ (by simp [Team.allGroups, hn0.2])
      rw [ha] at hm
      exact (List.mem_singleton.mp hm).symm
    subst ha'
    obtain ⟨rfl, h1⟩ := hn0
    simp [Team.actor, Team.groupAt, leadGrp, hn]
  · have hg : t.groups = [] := List.eq_nil_of_length_eq_zero (by have := List.length_pos_of_mem hc; omega)
    obtain ⟨d, hd⟩ := List.length_eq_one_iff.mp (show t.conj.length = 1 by rw [hg] at hlen; simpa using hlen)
    rw [hd] at hc
    rw [List.mem_singleton.mp hc]
    have ha' : a = .conj d.id := by
      simpa [Team_actors, Team.allGroups, hg, hd] using ha.symm
    subst ha'
    simp [Team.actor, hd]

theorem State.applyDue_nil {s : State} (h : s.homes = []) : s.applyDue = s := by
  unfold State.applyDue
  rw [h]
  rfl

/-- The selection of a core whose issue ends as it stands after one group's issue. -/
theorem State.selectCore_runs {s u : State} {core : Nat} (hl : (s.core core).lastCyc ≤ s.cycle core) (hq : s.issueQ = [])
    (h : ((List.range 4).foldl (fun t j => t.issueSub core s.nextId j) s).issueLead core s.nextId = u) (hu : u.issueQ = []) :
    (s.selectCore core).runQueue = .next u := by
  have hs : ({ s with issueQ := [] } : State) = s := by
    obtain ⟨⟩ := s
    cases hq
    rfl
  have he : s.selectCore core = { u with issueQ := [] } := by
    unfold State.selectCore
    rw [if_neg (by omega), hs]
    simp only [h, hu, hq]
    rfl
  rw [he]
  have hs' : ({ u with issueQ := [] } : State) = u := by
    obtain ⟨⟩ := u
    cases hu
    rfl
  rw [hs']
  unfold State.runQueue
  rw [hu]

/-- A core notes that its sub-core has issued, and that it has issued in this cycle. -/
def Core_issued (j : Nat) (k : Nat × Nat) (next : Nat) (c : Core) : Core := { c with last := tabPut c.last j k, lastCyc := next }

/-- A core notes that its scalar front end has issued. -/
def Core_ledBy (team next : Nat) (c : Core) : Core := { c with leadLast := team, lastCyc := next }

theorem State.issueSub_single {s : State} {core cut j : Nat} {t : Team} {a : Actor} (ht : s.team? t.id = some t) (h : s.ready core j = [(t, a)]) :
    s.issueSub core cut j =
      (s.modCore core (Core_issued j (rrKey t a) (s.cycle core + 1))).issueActor core t a cut := by
  unfold State.issueSub
  rw [h, rrPick_single]
  simp only [ht, Option.getD_some]
  rfl

theorem State.issueLead_single {s : State} {core cut : Nat} {t : Team} (hr : s.residents core = [t]) (hl : t.lead.isSome = true)
    (hp : s.pathsF t .lead ≠ []) : s.issueLead core cut =
      (s.modCore core (Core_ledBy t.id (s.cycle core + 1))).issueActor core t .lead cut := by
  have hf : ((s.residents core).filter fun t => t.lead.isSome && decide (s.pathsF t .lead ≠ [])) = [t] := by
    rw [hr]
    simp [hl, hp]
  unfold State.issueLead
  simp only [hf, List.map_cons, List.map_nil, rrPick_single]
  rfl

section
variable {s : State} {core : Nat} {t : Team} {p : Path} {f : Fetched} {w : Word} {bit : Nat} (ag : List Turn)
  (up : (s.core core).lastCyc ≤ s.cycle core) (ht : s.team? t.id = some t) (hr : s.residents core = [t]) (hb : bit < 9)

include up ht hr hb

/-- A kill at the issue of the one group of a core. -/
theorem State.selectCore_kill_grp {a : Actor} (ha : Team_actors t = [a]) (hl : t.lead = none) (hs : (t.actor a).sub < 4)
    (hact : (t.actor a).active = true) (hn : (t.actor a).notBefore ≤ s.cycle core) (hp : picksOf (t.actor a).ages (s.pathsF t a) = [(p, f)])
    (hu : s.slotUse t a p f = .kill bit w) :
    ∃ u, ((s.beside s.cores ag []).selectCore core).runQueue = .next u ∧ u.mem = s.mem ∧
      Killed { s with cur := ctxOf core t.id a p 4 w 0 none } u bit := by
  obtain ⟨-, hcore, -⟩ := mem_residents.mp (hr ▸ List.mem_singleton_self t)
  have hall := AllSub.of_sole ha hl
  have hsub := State.issueSub_single (s := s.beside s.cores ag []) (cut := s.nextId) ht
    (State.ready_single hr ha hact hn (by rw [State.pathsF_beside ag [] rfl]; exact picksOf_ne hp))
  obtain ⟨hmem, hq, hk, hkin⟩ := State.issueActor_killed (ag := ag) (core := core) (cut := s.nextId)
    (cs := tabSet s.cores core (Core_issued (t.actor a).sub (rrKey t a) (s.cycle core + 1) (s.core core)) {})
    ht (by rw [hcore]; exact State.core_noted s core (f := Core_issued (t.actor a).sub (rrKey t a) (s.cycle core + 1)) fun _ => rfl) hp hu hb
  refine ⟨_, State.selectCore_runs up rfl ?_ hq, hmem, hk⟩
  have hstay : ∀ b ∈ State.residents (State.issueActor _ core t a s.nextId) core, AllSub (t.actor a).sub b := fun b hb => by
    obtain ⟨hb, hbc, hbp⟩ := mem_residents.mp hb
    obtain ⟨x, hx, hxb⟩ := hkin b hb
    have hxt : x ∈ s.residents core := mem_residents.mpr ⟨hx, hxb.core ▸ hbc, hxb.place ▸ hbp⟩
    rw [hr, List.mem_singleton] at hxt
    subst hxt
    exact hall.of_kin hxb
  have hfold : (List.range 4).foldl (fun t j => t.issueSub core s.nextId j) (s.beside s.cores ag []) =
      ((s.beside s.cores ag []).modCore core (Core_issued (t.actor a).sub (rrKey t a) (s.cycle core + 1))).issueActor core t a s.nextId := by
    refine (foldl_once List.nodup_range (List.mem_range.mpr hs) (fun j _ hj => ?_) fun j _ hj => ?_).trans hsub
    · refine State.issueSub_none (State.ready_none fun b hb x hx => .inr (.inl ?_))
      have hbt : b = t := by simpa [hr] using (show b ∈ s.residents core from hb)
      rw [hbt, ha] at hx
      rw [hbt, List.mem_singleton.mp hx]
      exact Ne.symm hj
    · rw [hsub]
      refine State.issueSub_none (State.ready_none fun b hb x hx => .inr (.inl ?_))
      rw [(hstay b hb).actor hx]
      exact Ne.symm hj
  refine (congrArg (State.issueLead · core s.nextId) hfold).trans (State.issueLead_none fun b hb => .inl ?_)
  rw [(hstay b hb).lead]
  rfl

/-- A kill at the issue of the one lead thread of a core whose groups do not issue. -/
theorem State.selectCore_kill_lead (hl : t.lead.isSome = true) (ho : ∀ b ∈ Team_actors t, (t.actor b).active = false ∨ s.pathsF t b = [])
    (hp : picksOf (t.actor .lead).ages (s.pathsF t .lead) = [(p, f)]) (hu : s.slotUse t .lead p f = .kill bit w) :
    ∃ u, ((s.beside s.cores ag []).selectCore core).runQueue = .next u ∧ u.mem = s.mem ∧
      Killed { s with cur := ctxOf core t.id .lead p 4 w 0 none } u bit := by
  obtain ⟨-, hcore, -⟩ := mem_residents.mp (hr ▸ List.mem_singleton_self t)
  have hpaths : ∀ x, (s.beside s.cores ag []).pathsF t x = s.pathsF t x := fun x => State.pathsF_beside ag [] rfl x
  obtain ⟨hmem, hq, hk, -⟩ := State.issueActor_killed (ag := ag) (core := core) (cut := s.nextId)
    (cs := tabSet s.cores core (Core_ledBy t.id (s.cycle core + 1) (s.core core)) {})
    ht (by rw [hcore]; exact State.core_noted s core (f := Core_ledBy t.id (s.cycle core + 1)) fun _ => rfl) hp hu hb
  refine ⟨_, State.selectCore_runs up rfl ?_ hq, hmem, hk⟩
  have hfold : (List.range 4).foldl (fun t j => t.issueSub core s.nextId j) (s.beside s.cores ag []) = s.beside s.cores ag [] :=
    foldl_keeps (fun u => u = s.beside s.cores ag []) _ (fun u j h => by
      rw [h]
      refine State.issueSub_none (State.ready_none fun b hb x hx => ?_)
      have hbt : b = t := by simpa [hr] using (show b ∈ s.residents core from hb)
      subst hbt
      rw [hpaths]
      exact (ho x hx).imp_right .inr) _ _ rfl
  refine (congrArg (State.issueLead · core s.nextId) hfold).trans ?_
  exact State.issueLead_single hr hl (by rw [hpaths]; exact picksOf_ne hp)

end

/-- The step that issues on a core whose agenda's turn it is. -/
theorem step_issue {s : State} {core : Nat} {r : List Turn} (ha : s.agenda = .issue core :: r) (hc : s.clocks = true) (hh : s.homes = [])
    (hq : s.issueQ = []) : step s = ((s.beside s.cores r []).selectCore core).runQueue := by
  have hs : ({ s with agenda := r } : State) = s.beside s.cores r [] := by
    unfold State.beside
    rw [hq]
  unfold step State.stepOnce
  rw [if_neg (by simp [hq]), ha]
  simp only
  rw [hs]
  unfold State.runTurn
  have hc' : (s.beside s.cores r []).clocks = true := hc
  simp only [hc', if_true]
  rw [State.applyDue_nil (s := s.beside s.cores r []) hh]

/-- A SOLE ISSUER'S KILL: the step of its core's issue. -/
theorem SoleIssuer.step_kill {s : State} {core : Nat} {r : List Turn} {t : Team} {a : Actor} {p : Path} {f : Fetched} {w : Word} {bit : Nat}
    (ha : s.agenda = .issue core :: r) (h : SoleIssuer s core t a) (hp : picksOf (t.actor a).ages (s.pathsF t a) = [(p, f)])
    (hu : s.slotUse t a p f = .kill bit w) (hb : bit < 9) :
    ∃ u, step s = .next u ∧ u.mem = s.mem ∧ Killed { s with cur := ctxOf core t.id a p 4 w 0 none } u bit := by
  obtain ⟨⟨hclk, hh, hq, up⟩, ⟨ht, hr⟩, hact⟩ := h
  rw [step_issue ha hclk hh hq]
  rcases hact with ⟨-, hall, hlead, hsub, hactive, hbefore⟩ | ⟨rfl, hlead, hothers⟩
  · exact State.selectCore_kill_grp r up ht hr hb hall hlead hsub hactive hbefore hp hu
  · exact State.selectCore_kill_lead r up ht hr hb hlead hothers hp hu

/-- Settles O25: each instruction of the table kills at once (`Kills.exec`), and so does a slot that cannot execute
(`SoleIssuer.step_kill`); a kill ends groups one after the other (`State.killGroups_cases`) and leaves the errors alone (`Wake`). -/
theorem killsTaken : Obligations.KillsTaken := by
  refine ⟨fun i s bit h hi => ?_, fun s r core t a p f w bit ha h hp hcause => ?_⟩
  · obtain ⟨he, hb⟩ := h.exec
    exact ⟨_, he, .of_killCur hi hb⟩
  · have hu : s.slotUse t a p f = .kill bit w ∧ bit < 9 := by
      rcases hcause with ⟨rfl | rfl, rfl⟩ | ⟨i, len, rfl, hz, rfl⟩
      · exact ⟨rfl, by decide⟩
      · exact ⟨rfl, by decide⟩
      · refine ⟨if_pos hz, ?_⟩
        split <;> decide
    exact h.step_kill ha hp hu.1 hu.2

end Sys2Proof.Machine
end

section
namespace Sys2Proof.Machine

/-! ### Waits that end (R16, R19, R20, R125, R159, R255) -/

theorem State.isSome_of_resident {s : State} {team : Nat} (h : s.resident team = true) : (s.team? team).isSome = true := by
  unfold State.resident at h
  split at h
  · rename_i t ht; rw [ht]; rfl
  · cases h

/-- What an update of one group does to a thread of it, by its lane. -/
theorem Team.thread_modGroupAt_zip {t : Team} {g l : Nat} (h : Team_hasThread t g l) {f : Group → Group} {k : Thread × Nat → Thread}
    (hf : (f (t.groupAt g)).threads = (t.groupAt g).threads.zipIdx.map k) : (t.modGroupAt g f).thread g l = k (t.thread g l, l) := by
  obtain ⟨hg, hl⟩ := h
  unfold Team.thread
  rw [Team.groupAt_modGroupAt hg, hf]
  simp [List.getD, hl]

/-! #### Ages (R16) -/

/-- An age is marked when its program counter has gone 64 cycles without issue. -/
def Group_aging (g : Group) : Group := { g with ages := g.ages.map fun a => { a with aged := a.aged || decide (a.n ≥ 64) } }

/-- A program counter that has an age in an actor is one of a group, conjugate group or lead thread that is there. -/
theorem Team.ages_modActor {t : Team} {a : Actor} {x : Age} (hx : x ∈ (t.actor a).ages) :
    (t.modActor a Group_aging).actor a = Group_aging (t.actor a) := by
  have hgrp : ∀ g, x ∈ (t.groupAt g).ages → Team_hasGroup t g := fun g hg => by
    by_contra hn
    have he : t.groupAt g = {} := by
      unfold Team_hasGroup at hn
      push Not at hn
      unfold Team.groupAt
      split
      · rename_i e
        have : t.lead = none := by simpa using hn.1 e
        rw [this]; rfl
      · rename_i e
        simp [List.getD, List.getElem?_eq_none (hn.2 e)]
    rw [he] at hg
    exact absurd hg List.not_mem_nil
  cases a with
  | grp n => exact Team.groupAt_modGroupAt (hgrp n hx) _
  | lead => exact Team.groupAt_modGroupAt (hgrp leadGrp hx) _
  | conj k =>
    simp only [Team.actor, Team.modActor] at hx ⊢
    rw [find?_mapIf _ _ _ Group_aging fun c => rfl]
    cases hf : t.conj.find? fun c => decide (c.id = k) with
    | none => rw [hf] at hx; exact absurd hx List.not_mem_nil
    | some c =>
      have hc : c.id = k := of_decide_eq_true (List.find?_some (p := fun c : Group => decide (c.id = k)) hf)
      simp [hc]

theorem execPcAging_ages {s : State} {team grp : Nat} {a : Age} (ha : a ∈ ((s.team team).actor (actorOf grp)).ages) (hn : 64 ≤ a.n) :
    ∃ b ∈ (((s.modTeam team fun t => t.modActor (actorOf grp) Group_aging).team team).actor (actorOf grp)).ages, b.pc = a.pc ∧ b.aged = true := by
  have ht : (s.team? team).isSome = true := by
    by_contra hn
    have he : s.team team = { id := team, launch := 0, num := 0, core := 0 } := by
      simp [State.team, Option.not_isSome_iff_eq_none.mp hn]
    have hno : ∀ x, (Team.actor { id := team, launch := 0, num := 0, core := 0 } x).ages = [] := fun x => by
      cases x <;> simp [Team.actor, Team.groupAt]
    rw [he, hno] at ha
    exact List.not_mem_nil ha
  rw [State.team_modTeam _ _ _ (fun t => by simp) ht, Team.ages_modActor ha]
  exact ⟨_, List.mem_map_of_mem ha, rfl, by simp [hn]⟩

/-! #### Expiries (R19, R20) -/

/-- What the timeout of a slot does to a thread of its group. -/
def Thread_rcvLate (b : Nat) (th : Thread) : Thread :=
  if Thread_arrivedAt th b then
    let th' := Thread_rcvEnd th false
    { th' with member := setBit th'.member b false, arrived := setBit th'.arrived b false }
  else th

theorem Thread.getP_setP_false (th : Thread) {n : BitVec 3} (h : n ≠ 7) : (th.setP n.toNat false).getP n.toNat = false := by
  have h7 : n.toNat ≠ 7 := fun e => h (BitVec.eq_of_toNat_eq e)
  have hn : n.toNat < 8 := n.isLt
  unfold Thread.setP Thread.getP
  simp only [h7, if_false, decide_false, Bool.false_or, setBit8, Bool.false_eq_true, BitVec.getLsbD_and, BitVec.getLsbD_not]
  rw [getLsbD_twoPow_self hn]
  simp

theorem Thread_rcvLate_wait {th : Thread} {b : Nat} {p : BitVec 3} (hst : th.st = .rcv b p) (ha : th.arrived.getLsbD b = true) :
    (Thread_rcvLate b th).st = .run ∧ (Thread_rcvLate b th).pc = th.pc + 12 ∧ (p ≠ 7 → (Thread_rcvLate b th).getP p.toNat = false) ∧
      (Thread_rcvLate b th).member.getLsbD b = false := by
  unfold Thread_rcvLate Thread_rcvEnd Thread_arrivedAt
  rw [if_pos ha, hst]
  exact ⟨rfl, rfl, fun hp => Thread.getP_setP_false th hp, getLsbD_setBit_false⟩

/-! #### Releases (R125, R159, R255) -/

/-- A thread goes on at the next instruction, of some bytes. -/
def Thread_goesOn (len : Nat) (th : Thread) : Thread := { th with st := .run, pc := th.pc + BitVec.ofNat 64 len }

/-- A thread whose wait is over goes on; another stays. -/
def Thread_released (gone : Nat → TState → Option Nat) (th : Thread × Nat) : Thread :=
  match gone th.2 th.1.st with
  | some len => Thread_goesOn len th.1
  | none => th.1

theorem State.releaseThreads_eq {s : State} {team : Nat} (hr : s.resident team = true) (grp : Nat) (gone : Nat → TState → Option Nat) :
    s.releaseThreads team grp gone = s.modTeam team fun t => t.modGroupAt grp fun g =>
      { g with threads := g.threads.zipIdx.map (Thread_released gone) } := if_pos hr

theorem State.releaseThreads_thread {s : State} {team grp l : Nat} (hr : s.resident team = true) (gone : Nat → TState → Option Nat)
    (h : Team_hasThread (s.team team) grp l) :
    ((s.releaseThreads team grp gone).team team).thread grp l = Thread_released gone ((s.team team).thread grp l, l) := by
  rw [State.releaseThreads_eq hr, State.team_modTeam _ _ _ (fun t => by simp) (State.isSome_of_resident hr)]
  exact Team.thread_modGroupAt_zip (f := fun g => { g with threads := g.threads.zipIdx.map (Thread_released gone) }) h rfl

theorem State.releaseThreads_mem (s : State) (team grp : Nat) (gone : Nat → TState → Option Nat) : (s.releaseThreads team grp gone).mem = s.mem := by
  unfold State.releaseThreads; split <;> rfl

theorem tokReached_iff (gtc tok : Word) : tokReached gtc tok = true ↔ (gtc - tok).msb = false := by
  unfold tokReached
  rw [BitVec.msb_eq_decide]
  simp

theorem State.eventOver_event (s : State) (t : Team) (grp lane e : Nat) (thr : Dword) (len : Nat) :
    s.eventOver t grp lane (.event e thr len) =
      if leNat (s.phys (some (s.worldOf t)) ((s.world (s.worldOf t)).evbase.toNat + 16 * e) 8) < thr.toNat ∨
        s.evReady t (Team_actorOf t (grp, lane)) [(grp, lane)] e = false then none else some len := by
  unfold State.eventOver State.eventCount State.eventPa
  simp only [Bool.and_eq_true, decide_eq_true_eq]
  cases s.evReady t (Team_actorOf t (grp, lane)) [(grp, lane)] e with
  | false => simp
  | true =>
    simp only [true_and, Bool.true_eq_false, or_false]
    by_cases h : leNat (s.phys (some (s.worldOf t)) ((s.world (s.worldOf t)).evbase.toNat + 16 * e) 8) < thr.toNat
    · rw [if_neg (Nat.not_le.mpr h), if_pos h]
    · rw [if_pos (Nat.not_lt.mp h), if_neg h]

/-- A released group's acquire, in its home group and in the conjugate groups where threads of it stand. -/
def Team_acquired (grp gtc : Nat) (t : Team) : Team :=
  { t.modGroupAt grp (fun g => Group_acquireNow g gtc) with
    conj := t.conj.map fun c => if c.pos.any (fun p => match p with | some x => x.1 = grp | none => false) then Group_acquireNow c gtc else c }

theorem Team.thread_acquired (t : Team) (grp gtc g l : Nat) : (Team_acquired grp gtc t).thread g l = t.thread g l := by
  show (t.modGroupAt grp fun g => Group_acquireNow g gtc).thread g l = t.thread g l
  unfold Team.thread
  by_cases hg : g = grp
  · subst hg
    by_cases hh : Team_hasGroup t g
    · rw [Team.groupAt_modGroupAt hh]; rfl
    · rw [Team.groupAt_modGroupAt_not hh]
  · rw [Team.groupAt_modGroupAt_ne t _ hg]

theorem execRcvTimeout_eq {s : State} {team grp e : Nat} {slot : BitVec 4}
    (he : tabFind ((s.team team).groupAt grp).expiry slot.toNat = some e) : exec (.rcvTimeout team grp slot) s =
      .next (if s.resident team = true ∧ e < s.cycle (s.team team).core then
        s.modTeam team fun t => t.modGroupAt grp fun g => Group_rcvTimeout g slot.toNat else s) := by
  show execRcvTimeout team grp slot s = _
  unfold execRcvTimeout
  simp only [he, Bool.and_eq_true, decide_eq_true_eq, gt_iff_lt]
  split <;> rfl

theorem State.rcvTimeout_thread {s : State} {team grp l : Nat} (hr : s.resident team = true) (b : Nat)
    (h : Team_hasThread (s.team team) grp l) :
    ((s.modTeam team fun t => t.modGroupAt grp fun g => Group_rcvTimeout g b).team team).thread grp l =
      Thread_rcvLate b ((s.team team).thread grp l) := by
  rw [State.team_modTeam _ _ _ (fun t => by simp) (State.isSome_of_resident hr)]
  refine Team.thread_modGroupAt_zip (f := fun g => Group_rcvTimeout g b) (k := fun x => Thread_rcvLate b x.1) h ?_
  show ((s.team team).groupAt grp).threads.map (Thread_rcvLate b) = _
  show _ = ((s.team team).groupAt grp).threads.zipIdx.map (Thread_rcvLate b ∘ Prod.fst)
  rw [← List.map_map, List.zipIdx_map_fst]

/-- A wait on a token or on the clock that is met, or not. -/
theorem State.releaseThreads_waits {s : State} {team grp l : Nat} (hr : s.resident team = true) {gone : Nat → TState → Option Nat} {st : TState}
    (hst : ((s.team team).thread grp l).st = st) (hne : st ≠ .exited) {len : Nat} {c : Prop} [Decidable c]
    (hgone : gone l st = if c then none else some len) : ((s.releaseThreads team grp gone).team team).thread grp l =
      if c then (s.team team).thread grp l else Thread_goesOn len ((s.team team).thread grp l) := by
  rw [State.releaseThreads_thread hr gone (Team.hasThread_of (by rw [hst]; exact hne))]
  unfold Thread_released
  rw [hst, hgone]
  by_cases hc : c <;> simp [hc]

/-- The reads of the counts of a group's waits, one after the other. -/
def State.evReads (s : State) (t : Team) (met : List (Thread × Nat)) : State :=
  met.foldl (fun s' th => match th.1.st with
    | .event e _ _ => s'.evRead t e
    | _ => s') s

theorem State.evReads_keeps (s : State) (t : Team) (met : List (Thread × Nat)) : (s.evReads t met).mem = s.mem ∧ (s.evReads t met).teams = s.teams :=
  foldl_keeps (fun u : State => u.mem = s.mem ∧ u.teams = s.teams) _ (fun u th h => by split <;> exact h) met s ⟨rfl, rfl⟩

theorem Team_acquired_id (grp gtc : Nat) (t : Team) : (Team_acquired grp gtc t).id = t.id := by
  show (t.modGroupAt grp fun g => Group_acquireNow g gtc).id = t.id
  simp

/-- The threads of a group whose wait on an event is over. -/
def State.evMet (s : State) (team grp : Nat) : List (Thread × Nat) :=
  ((s.team team).groupAt grp).threads.zipIdx.filter fun th => (s.eventOver (s.team team) grp th.2 th.1.st).isSome

theorem execEvwaitRelease_eq {s : State} {team grp : Nat} (hr : s.resident team = true) : exec (.evwaitRelease team grp) s = .next
    (if s.evMet team grp ≠ [] then
      ((s.releaseThreads team grp (s.eventOver (s.team team) grp)).evReads (s.team team) (s.evMet team grp)).modTeam team
        (Team_acquired grp s.gtc)
    else s) := by
  show execEvwaitRelease team grp s = _
  unfold execEvwaitRelease
  simp only [hr, Bool.and_true, decide_eq_true_eq]
  by_cases h : s.evMet team grp ≠ []
  · rw [if_pos h]; exact if_pos h
  · rw [if_neg h]; exact if_neg h

/-- The event's release is that of the threads whose count is met: the reads and the acquires change no thread. -/
theorem execEvwaitRelease_thread {s : State} {team grp : Nat} (hr : s.resident team = true) : ∃ t, exec (.evwaitRelease team grp) s = .next t ∧
    t.mem = s.mem ∧ ∀ l, Team_hasThread (s.team team) grp l →
      (t.team team).thread grp l = ((s.releaseThreads team grp (s.eventOver (s.team team) grp)).team team).thread grp l := by
  refine ⟨_, execEvwaitRelease_eq hr, ?_, fun l hh => ?_⟩
  · split
    · exact (State.evReads_keeps _ _ _).1.trans (State.releaseThreads_mem s team grp _)
    · rfl
  · split
    · have ht := (State.evReads_keeps (s.releaseThreads team grp (s.eventOver (s.team team) grp)) (s.team team) (s.evMet team grp)).2
      generalize State.evReads _ _ _ = u at ht
      have hsome : (u.team? team).isSome = true := by
        rw [State.teamOpt_of_teams ht, State.releaseThreads_eq hr, State.teamOpt_modTeam _ _ _ fun t => by simp]
        simpa using State.isSome_of_resident hr
      rw [State.team_modTeam _ _ _ (Team_acquired_id grp s.gtc) hsome, Team.thread_acquired]
      have hu : u.team team = (s.releaseThreads team grp (s.eventOver (s.team team) grp)).team team := by
        show (u.team? team).getD _ = _
        rw [State.teamOpt_of_teams ht]; rfl
      rw [hu]
    · rename_i hmet
      rw [State.releaseThreads_thread hr _ hh]
      have hmem : ((s.team team).thread grp l, l) ∈ ((s.team team).groupAt grp).threads.zipIdx := by
        rw [List.mem_zipIdx_iff_getElem?]
        simp [Team.thread, List.getD, hh.2]
      have hno := List.filter_eq_nil_iff.mp (not_not.mp hmet) _ hmem
      unfold Thread_released
      rw [Option.not_isSome_iff_eq_none.mp hno]

/-- Settles O36: each event changes threads of its group one by one (`Team.thread_modGroupAt_zip`). -/
theorem waitsEnd : Obligations.WaitsEnd := by
  intro team grp s
  refine ⟨⟨_, rfl, rfl, fun a ha hn => execPcAging_ages ha hn⟩, fun slot e he => ⟨fun hle => ?_, fun hlt hr => ?_⟩, fun hr => ⟨?_, ?_, ?_⟩⟩
  · rw [execRcvTimeout_eq he, if_neg fun h => absurd h.2 (Nat.not_lt.mpr hle)]
  · refine ⟨s.modTeam team fun t => t.modGroupAt grp fun g => Group_rcvTimeout g slot.toNat,
      (execRcvTimeout_eq he).trans (by rw [if_pos ⟨hr, hlt⟩]), rfl, fun l hl => ?_⟩
    rw [State.rcvTimeout_thread hr slot.toNat (Team.hasThread_of hl)]
    exact ⟨fun ha => if_neg (by simp [Thread_arrivedAt, ha]), fun p hst ha => Thread_rcvLate_wait hst ha⟩
  · refine ⟨_, rfl, State.releaseThreads_mem s team grp _, fun l tok hst => ?_⟩
    refine State.releaseThreads_waits hr hst (by simp) ?_
    simp only [tokReached_iff, State.gtc32]
    cases h : (w32 s.gtc - tok).msb <;> simp [w32] at h ⊢ <;> simp [h]
  · refine ⟨_, rfl, State.releaseThreads_mem s team grp _, fun l tm hst => ?_⟩
    refine State.releaseThreads_waits hr hst (by simp) ?_
    by_cases h : s.gtc % 2 ^ 64 < tm.toNat
    · simp only [if_neg (Nat.not_le.mpr h), if_pos h]
    · simp only [if_pos (Nat.not_lt.mp h), if_neg h]
  · obtain ⟨t, ht, hm, hth⟩ := execEvwaitRelease_thread (grp := grp) hr
    refine ⟨t, ht, hm, fun l e thr len hst => ?_⟩
    rw [hth l (Team.hasThread_of (by rw [hst]; simp))]
    exact State.releaseThreads_waits hr hst (by simp) (s.eventOver_event _ grp l e thr len)

end Sys2Proof.Machine
end

section
namespace Sys2Proof.Machine

/-! ### Lists in order of a key -/

theorem insertBy_perm {α : Type} (key : α → Nat) (x : α) (l : List α) : (insertBy key x l).Perm (x :: l) := by
  induction l with
  | nil => exact .refl _
  | cons y r ih =>
    unfold insertBy
    split
    · exact .refl _
    · exact (ih.cons y).trans (.swap x y r)

theorem sortBy_perm {α : Type} (key : α → Nat) (l : List α) : (sortBy key l).Perm l := by
  have h : ∀ (l acc : List α), (l.foldl (fun acc x => insertBy key x acc) acc).Perm (l ++ acc) := by
    intro l
    induction l with
    | nil => exact fun acc => .refl acc
    | cons x r ih =>
      intro acc
      rw [List.foldl_cons]
      exact (ih _).trans ((insertBy_perm key x acc).append_left r |>.trans List.perm_middle)
  have := h l []
  rwa [List.append_nil] at this

theorem mem_sortBy {α : Type} {key : α → Nat} {l : List α} {x : α} : x ∈ sortBy key l ↔ x ∈ l := (sortBy_perm key l).mem_iff

theorem mem_of_head? {α : Type} {l : List α} {x : α} (h : l.head? = some x) : x ∈ l := List.mem_of_head? h

/-! ### An actor that is there, and its updates -/

/-- A group or lead thread that is not there has no threads and holds nothing. -/
theorem Team.groupAt_default {t : Team} {g : Nat} (h : ¬ Team_hasGroup t g) : t.groupAt g = {} := by
  unfold Team_hasGroup at h
  push Not at h
  unfold Team.groupAt
  split
  · rename_i e
    have : t.lead = none := by simpa using h.1 e
    rw [this]; rfl
  · rename_i e
    simp [List.getD, List.getElem?_eq_none (h.2 e)]

/-- The group or conjugate group of an actor is there. -/
def Team_hasActor (t : Team) : Actor → Prop
  | .grp n => Team_hasGroup t n
  | .lead => Team_hasGroup t leadGrp
  | .conj k => (t.conj.find? fun c => c.id = k).isSome = true

theorem Team.actor_modActor_has {t : Team} {a : Actor} (h : Team_hasActor t a) {f : Group → Group} (hid : ∀ g, (f g).id = g.id) :
    (t.modActor a f).actor a = f (t.actor a) := by
  cases a with
  | grp n => exact Team.groupAt_modGroupAt h f
  | lead => exact Team.groupAt_modGroupAt h f
  | conj k =>
    obtain ⟨c, hc⟩ := Option.isSome_iff_exists.mp h
    have hk : c.id = k := of_decide_eq_true (List.find?_some (p := fun c : Group => decide (c.id = k)) hc)
    simp only [Team.actor, Team.modActor]
    rw [find?_mapIf _ _ _ _ fun x => by simp [hid], hc]
    simp [hk]

theorem Team.conj_modGroupAt (t : Team) (g : Nat) (f : Group → Group) : (t.modGroupAt g f).conj = t.conj := by
  unfold Team.modGroupAt Team.setGroupAt
  split <;> rfl

/-- Actors of a team but its lead thread are updated apart. -/
theorem Team.actor_modActor_other {t : Team} {a b : Actor} (hab : b ≠ a) (ha : a ≠ .lead) (hb : b ≠ .lead) {f : Group → Group}
    (hid : ∀ g, (f g).id = g.id) : (t.modActor a f).actor b = t.actor b := by
  cases a with
  | lead => exact absurd rfl ha
  | grp n =>
    cases b with
    | lead => exact absurd rfl hb
    | grp m => exact Team.groupAt_modGroupAt_ne t f fun e => hab (by rw [e])
    | conj k =>
      show ((t.modGroupAt n f).conj.find? _).getD {} = _
      rw [Team.conj_modGroupAt]
      rfl
  | conj k =>
    cases b with
    | lead => exact absurd rfl hb
    | grp m => rfl
    | conj j =>
      have hjk : j ≠ k := fun e => hab (by rw [e])
      simp only [Team.actor, Team.modActor]
      rw [find?_mapIf _ _ _ _ fun x => by simp [hid]]
      cases hf : t.conj.find? fun c => decide (c.id = j) with
      | none => rfl
      | some c =>
        have hc : c.id = j := of_decide_eq_true (List.find?_some (p := fun c : Group => decide (c.id = j)) hf)
        simp [hc, hjk]

theorem Team_hasActor_modActor {t : Team} {a b : Actor} {f : Group → Group} (hid : ∀ g, (f g).id = g.id) (h : Team_hasActor t b) :
    Team_hasActor (t.modActor a f) b := by
  have hgrp : ∀ g n, Team_hasGroup t n → Team_hasGroup (t.modGroupAt g f) n := fun g n => (Team.hasGroup_modGroupAt t g n f).mpr
  have hconj : ∀ g k, ((t.modGroupAt g f).conj.find? fun c => decide (c.id = k)) = t.conj.find? fun c => decide (c.id = k) := fun g k => by
    rw [Team.conj_modGroupAt]
  cases b with
  | grp n => cases a with
    | conj k => exact h
    | grp g => exact hgrp g n h
    | lead => exact hgrp leadGrp n h
  | lead => cases a with
    | conj k => exact h
    | grp g => exact hgrp g leadGrp h
    | lead => exact hgrp leadGrp leadGrp h
  | conj j => cases a with
    | grp g => exact (congrArg Option.isSome (hconj g j)).trans h
    | lead => exact (congrArg Option.isSome (hconj leadGrp j)).trans h
    | conj k =>
      simp only [Team_hasActor, Team.modActor] at h ⊢
      rw [find?_mapIf _ _ _ _ fun x => by simp [hid]]
      simpa using h

theorem Team_actors_ne_lead {t : Team} {a : Actor} (h : a ∈ Team_actors t) : a ≠ .lead := by
  rintro rfl
  simp [Team_actors] at h

theorem Team_hasActor_conj {t : Team} {k : Nat} (h : Actor.conj k ∈ Team_actors t) : Team_hasActor t (.conj k) := by
  obtain ⟨c, hc, hk⟩ : ∃ c ∈ t.conj, c.id = k := by simpa [Team_actors] using h
  simp only [Team_hasActor, List.find?_isSome]
  exact ⟨c, hc, decide_eq_true hk⟩

/-- An actor with an issuable path is there. -/
theorem Team_hasActor_of_path {s : State} {t : Team} {a : Actor} (ha : a ∈ Team_actors t) (h : s.pathsF t a ≠ []) : Team_hasActor t a := by
  cases a with
  | lead => exact absurd rfl (Team_actors_ne_lead ha)
  | conj k => exact Team_hasActor_conj ha
  | grp n =>
    obtain ⟨L, hL⟩ : ∃ L, s.standing t (.grp n) L = true := by
      by_contra hno
      push Not at hno
      have he : ((t.positions (.grp n)).filter fun L => s.standing t (.grp n) L) = [] :=
        List.filter_eq_nil_iff.mpr fun L _ => hno L
      refine h ?_
      unfold State.pathsF
      rw [he]
      rfl
    refine Team.hasGroup_of_thread (l := L) ?_
    have hst : (t.threadAt (.grp n) L).st = .run := by
      unfold State.standing at hL
      simp only [Bool.and_eq_true, decide_eq_true_eq] at hL
      exact hL.1.1
    show (t.threadAt (.grp n) L).st ≠ .exited
    rw [hst]
    exact fun e => nomatch e

/-- An actor that is not gone is there. -/
theorem Team_hasActor_of_not_gone {t : Team} {a : Actor} (ha : a ∈ Team_actors t) (h : Team_actorGone t a = false) : Team_hasActor t a := by
  cases a with
  | lead => exact absurd rfl (Team_actors_ne_lead ha)
  | grp n =>
    by_contra hn
    have he : (t.groupAt n).exited = false := h
    rw [Team.groupAt_default hn] at he
    cases he
  | conj k => exact Team_hasActor_conj ha

end Sys2Proof.Machine
end

section
namespace Sys2Proof.Machine

/-! ### Promotion (R27) -/

theorem mem_members {s : State} {core sub : Nat} {active : Bool} {x : Team × Actor} (h : x ∈ s.members core sub active) :
    x.2 ∈ Team_actors x.1 ∧ (x.1.actor x.2).active = active ∧ Team_actorGone x.1 x.2 = false := by
  unfold State.members at h
  obtain ⟨t, _, ht⟩ := List.mem_flatMap.mp h
  obtain ⟨a, ha, rfl⟩ := List.mem_map.mp ht
  obtain ⟨ha, hp⟩ := List.mem_filter.mp ha
  simp only [Bool.and_eq_true, decide_eq_true_eq, Bool.not_eq_true'] at hp
  exact ⟨ha, hp.1.2, hp.2⟩

/-- A state in which a team is as an update of one of its actors made it. -/
theorem State.team_modActor {s : State} {id : Nat} {t : Team} (ht : s.team? id = some t) (a : Actor) (f : Team → Group → Group) :
    (s.modTeam id fun t => t.modActor a (f t)).team? id = some (t.modActor a (f t)) := by
  rw [State.teamOpt_modTeam _ _ _ fun x => by simp, ht]
  rfl

theorem State.team_of_some {s : State} {id : Nat} {t : Team} (h : s.team? id = some t) : s.team id = t := by
  simp [State.team, h]

/-- What promotion and demotion make of an actor. -/
def Group_promoted (now : Nat) (g : Group) : Group := { g with active := true, notBefore := now + 4, since := none, lastIssue := now }
def Group_demoted (now : Nat) (g : Group) : Group := { g with active := false, since := none, pendSince := now }

theorem Group_promoted_id (now : Nat) (g : Group) : (Group_promoted now g).id = g.id := rfl
theorem Group_demoted_id (now : Nat) (g : Group) : (Group_demoted now g).id = g.id := rfl

theorem State.promote_team {s : State} {x : Team × Actor} {t : Team} (ht : s.team? x.1.id = some t) :
    (s.promote x).team? x.1.id = some (t.modActor x.2 (Group_promoted (s.cycle t.core))) :=
  State.team_modActor ht x.2 fun t => Group_promoted (s.cycle t.core)

theorem State.demote_team {s : State} {x : Team × Actor} {t : Team} (ht : s.team? x.1.id = some t) :
    (s.demote x).team? x.1.id = some (t.modActor x.2 (Group_demoted (s.cycle t.core))) :=
  State.team_modActor ht x.2 fun t => Group_demoted (s.cycle t.core)

theorem State.promote_active {s : State} {x : Team × Actor} {t : Team} (ht : s.team? x.1.id = some t) (ha : Team_hasActor t x.2) :
    (((s.promote x).team x.1.id).actor x.2).active = true := by
  rw [State.team_of_some (State.promote_team ht), Team.actor_modActor_has ha (Group_promoted_id _)]
  rfl

/-- The one promoted and the one that made room for it. -/
theorem State.exchange_active {s : State} {p a : Team × Actor} (hp : s.team? p.1.id = some p.1) (ha : s.team? a.1.id = some a.1)
    (hpa : p.2 ∈ Team_actors p.1) (haa : a.2 ∈ Team_actors a.1) (hhp : Team_hasActor p.1 p.2) (hha : Team_hasActor a.1 a.2)
    (hne : (p.1.id, p.2) ≠ (a.1.id, a.2)) :
    ((((s.demote a).promote p).team p.1.id).actor p.2).active = true ∧ ((((s.demote a).promote p).team a.1.id).actor a.2).active = false := by
  have hda := State.demote_team ha
  by_cases hid : p.1.id = a.1.id
  · have h2 : p.2 ≠ a.2 := fun e => hne (by rw [hid, e])
    have h1 : p.1 = a.1 := by rw [hid, ha] at hp; exact (Option.some.inj hp).symm
    have hdp : (s.demote a).team? p.1.id = some (p.1.modActor a.2 (Group_demoted (s.cycle p.1.core))) := by rw [hid, h1]; exact hda
    refine ⟨State.promote_active hdp (Team_hasActor_modActor (Group_demoted_id _) hhp), ?_⟩
    rw [← hid, State.team_of_some (State.promote_team hdp),
      Team.actor_modActor_other (Ne.symm h2) (Team_actors_ne_lead hpa) (Team_actors_ne_lead haa) (Group_promoted_id _), h1,
      Team.actor_modActor_has hha (Group_demoted_id _)]
    rfl
  · have hdp : (s.demote a).team? p.1.id = some p.1 := by
      unfold State.demote
      rw [State.teamOpt_modTeam_ne _ _ (fun x => by simp) hid, hp]
    refine ⟨State.promote_active hdp hhp, ?_⟩
    have hpa' : ((s.demote a).promote p).team? a.1.id = (s.demote a).team? a.1.id :=
      State.teamOpt_modTeam_ne _ _ (fun x => by simp) (Ne.symm hid)
    rw [State.team_of_some (hpa'.trans hda), Team.actor_modActor_has hha (Group_demoted_id _)]
    rfl

/-- The pending groups of a sub-core that have been issuable for 384 cycles. -/
def State.overdue (s : State) (core sub : Nat) : List (Team × Actor) :=
  (s.members core sub false).filter fun x => s.promotable x.1 x.2 && (match (x.1.actor x.2).since with
    | some c => decide (s.cycle core ≥ c + 384)
    | none => false)

theorem State.forceSub_eq (s : State) (core sub : Nat) : s.forceSub core sub =
    match (promotionOrder (s.overdue core sub)).head?,
      (sortBy (fun x : Team × Actor => (x.1.actor x.2).lastIssue) (s.members core sub true)).head? with
    | some p, some a => if (s.members core sub true).length < 8 then s.promote p else (s.demote a).promote p
    | _, _ => s := rfl

theorem forceSub_places {s : State} {core sub : Nat} {p a : Team × Actor} (hp : (promotionOrder (s.overdue core sub)).head? = some p)
    (ha : (sortBy (fun x : Team × Actor => (x.1.actor x.2).lastIssue) (s.members core sub true)).head? = some a)
    (hne : (p.1.id, p.2) ≠ (a.1.id, a.2)) (htp : s.team? p.1.id = some p.1) (hta : s.team? a.1.id = some a.1) :
    ∃ t, exec (.pendingForcedDemotion core sub) s = .next t ∧ t.mem = s.mem ∧ ((t.team p.1.id).actor p.2).active = true ∧
      (8 ≤ (s.members core sub true).length → ((t.team a.1.id).actor a.2).active = false) := by
  have hpm := List.mem_filter.mp (mem_sortBy.mp (mem_of_head? hp))
  obtain ⟨hpa, -, -⟩ := mem_members hpm.1
  obtain ⟨haa, -, hgone⟩ := mem_members (mem_sortBy.mp (mem_of_head? ha))
  have hhp : Team_hasActor p.1 p.2 := by
    refine Team_hasActor_of_path (s := s) hpa ?_
    have h := hpm.2
    simp only [State.promotable, Bool.and_eq_true, decide_eq_true_eq] at h
    exact h.1.1
  have hex := State.exchange_active htp hta hpa haa hhp (Team_hasActor_of_not_gone haa hgone) hne
  have he : exec (.pendingForcedDemotion core sub) s =
      .next (if (s.members core sub true).length < 8 then s.promote p else (s.demote a).promote p) := by
    show execPendingForcedDemotion core sub s = _
    rw [execPendingForcedDemotion, State.forceSub_eq, hp, ha]
  by_cases hfew : (s.members core sub true).length < 8
  · rw [if_pos hfew] at he
    exact ⟨_, he, rfl, State.promote_active htp hhp, fun h => absurd hfew (by omega)⟩
  · rw [if_neg hfew] at he
    exact ⟨_, he, rfl, hex.1, fun _ => hex.2⟩

/-! ### Regrouping (R258, R259) -/

theorem chooseCands_sub {cs : List Cand} {c : Cand} (h : c ∈ chooseCands cs) : c ∈ cs := by
  have key : ∀ (l acc : List Cand), (∀ x ∈ acc, x ∈ cs) → (∀ x ∈ l, x ∈ cs) → ∀ x ∈ l.foldl (fun acc x =>
      let groups := keysOf (acc.map (·.grp))
      if acc.all (fun y => y.lane ≠ x.lane) && (groups.contains x.grp || decide (groups.length < 8)) then acc ++ [x] else acc) acc, x ∈ cs := by
    intro l
    induction l with
    | nil => exact fun acc ha _ => ha
    | cons y r ih =>
      intro acc ha hl
      rw [List.foldl_cons]
      refine ih _ ?_ fun x hx => hl x (List.mem_cons_of_mem y hx)
      simp only
      split
      · intro x hx
        rcases List.mem_append.mp hx with h | h
        · exact ha x h
        · rw [List.mem_singleton.mp h]; exact hl y List.mem_cons_self
      · exact ha
  exact key cs [] (fun x hx => absurd hx List.not_mem_nil) (fun x hx => hx) c h

/-- The chosen candidates stand in lanes of their own. -/
theorem chooseCands_lanes (cs : List Cand) : ((chooseCands cs).map (·.lane)).Nodup := by
  refine foldl_keeps (fun acc : List Cand => (acc.map (·.lane)).Nodup) _ (fun acc x h => ?_) cs [] List.nodup_nil
  simp only
  split
  · rename_i hx
    simp only [Bool.and_eq_true, List.all_eq_true, decide_eq_true_eq] at hx
    rw [List.map_append, List.nodup_append]
    refine ⟨h, List.nodup_singleton _, fun a ha b hb e => ?_⟩
    obtain ⟨y, hy, rfl⟩ := List.mem_map.mp ha
    have hb : b = x.lane := by simpa using hb
    exact hx.1 y hy (e.trans hb)
  · exact h

/-- Lanes below 32 that all differ are no more than 32. -/
theorem length_le_of_lanes {l : List Nat} (hn : l.Nodup) (h : ∀ x ∈ l, x < 32) : l.length ≤ 32 := by
  have hs : l ⊆ List.range 32 := fun x hx => List.mem_range.mpr (h x hx)
  simpa using (hn.subperm hs).length_le

/-- The candidates go on at their common program counter. -/
theorem Team.thread_regrouped {pc : Dword} (cs : List Cand) (hpc : ∀ c ∈ cs, c.pc = pc) {t : Team} {g l : Nat} (h : Team_hasThread t g l) :
    (cs.foldl (fun t c => t.modThread c.grp c.lane fun th => { th with st := .run, pc := c.pc }) t).thread g l =
      if (g, l) ∈ cs.map (fun c => (c.grp, c.lane)) then { t.thread g l with st := .run, pc := pc } else t.thread g l := by
  rw [← Team.thread_foldHomes (f := fun th => { th with st := .run, pc := pc }) (fun _ => rfl) _ h, List.foldl_map]
  refine congrArg (fun t : Team => t.thread g l) ?_
  refine List.foldl_ext _ _ t fun t c hc => ?_
  rw [hpc c hc]

/-- The conjugate group that chosen candidates form. -/
def State.conjOf (s : State) (team : Nat) (cs : List Cand) : Group :=
  let t := s.team team
  let sub := (t.groupAt ((keysOf (cs.map (·.grp))).headD 0)).sub
  { id := s.nextId, slot := (cs.map (·.slot)).headD 0, sub := sub, active := decide ((s.members t.core sub true).length < 8),
    pendSince := s.cycle t.core,
    pos := (List.range 32).map fun i => ((sortBy (fun c : Cand => c.lane) cs)[i]?).map fun c => (c.grp, c.lane) }

/-- The team that has formed a conjugate group of some candidates. -/
def Team_regrouped (g : Group) (cs : List Cand) (t : Team) : Team :=
  let t1 := cs.foldl (fun t c => t.modThread c.grp c.lane fun th => { th with st := .run, pc := c.pc }) t
  { t1 with conj := t1.conj ++ [g], cands := t1.cands.filter fun c => !cs.contains c }

theorem Team_regrouped_id (g : Group) (cs : List Cand) (t : Team) : (Team_regrouped g cs t).id = t.id :=
  foldl_id _ (fun t (c : Cand) => by simp) cs t

theorem State.formConj_eq (s : State) (team : Nat) (cs : List Cand) :
    s.formConj team cs = s.fresh.2.modTeam team (Team_regrouped (s.conjOf team cs) cs) := rfl

/-- Who is chosen has a position in the group. -/
theorem State.conjOf_pos {s : State} (team : Nat) {cs : List Cand} (hn : (cs.map (·.lane)).Nodup) (hl : ∀ c ∈ cs, c.lane < 32) {c : Cand}
    (hc : c ∈ cs) : some (c.grp, c.lane) ∈ (s.conjOf team cs).pos := by
  have hlen : cs.length ≤ 32 := by
    have := length_le_of_lanes hn fun x hx => by obtain ⟨y, hy, rfl⟩ := List.mem_map.mp hx; exact hl y hy
    simpa using this
  obtain ⟨i, hi, he⟩ := List.mem_iff_getElem.mp (mem_sortBy (key := fun c : Cand => c.lane).mpr hc)
  have hi32 : i < 32 := by
    have := (sortBy_perm (fun c : Cand => c.lane) cs).length_eq
    omega
  refine List.mem_map.mpr ⟨i, List.mem_range.mpr hi32, ?_⟩
  rw [List.getElem?_eq_getElem hi, he]
  rfl

theorem formConj_places {s : State} {team : Nat} {cs : List Cand} {pc : Dword} (ht : (s.team? team).isSome = true) (hpc : ∀ c ∈ cs, c.pc = pc)
    (hn : (cs.map (·.lane)).Nodup) (hc : ∀ c ∈ cs, c.lane < 32 ∧ ((s.team team).thread c.grp c.lane).st = .submitted) :
    (s.formConj team cs).mem = s.mem ∧ (∀ c ∈ cs, c ∉ ((s.formConj team cs).team team).cands ∧
      (((s.formConj team cs).team team).thread c.grp c.lane).st = .run ∧ (((s.formConj team cs).team team).thread c.grp c.lane).pc = c.pc) ∧
      ∃ g ∈ ((s.formConj team cs).team team).conj, ∀ c ∈ cs, some (c.grp, c.lane) ∈ g.pos := by
  have hteam : (s.formConj team cs).team team = Team_regrouped (s.conjOf team cs) cs (s.team team) := by
    rw [State.formConj_eq]
    exact State.team_modTeam s.fresh.2 team _ (Team_regrouped_id _ _) ht
  rw [hteam]
  refine ⟨rfl, fun c hcm => ⟨fun hm => ?_, ?_⟩, s.conjOf team cs, List.mem_append_right _ (List.mem_singleton_self _), fun c hcm =>
    State.conjOf_pos team hn (fun x hx => (hc x hx).1) hcm⟩
  · have hm := (List.mem_filter.mp hm).2
    simp [hcm] at hm
  · have hh : Team_hasThread (s.team team) c.grp c.lane := Team.hasThread_of (by rw [(hc c hcm).2]; simp)
    have hth : (Team_regrouped (s.conjOf team cs) cs (s.team team)).thread c.grp c.lane = _ := Team.thread_regrouped cs hpc hh
    rw [hth, if_pos (List.mem_map_of_mem hcm)]
    exact ⟨rfl, (hpc c hcm).symm⟩

/-- A program counter's candidates in the order of the selection. -/
def Team_candsAt (t : Team) (q : Dword) : List Cand := candOrder (t.cands.filter fun c => c.pc = q)

theorem Team_candsAt_pc {t : Team} {q : Dword} {c : Cand} (h : c ∈ Team_candsAt t q) : c.pc = q := by
  have h := (List.mem_filter.mp (mem_sortBy.mp (mem_sortBy.mp h))).2
  simpa using h

theorem State.tryConj_some {s : State} {team : Nat} {full : Bool} {pc : Dword} (hr : s.resident team = true)
    (hu : s.conjUsed (s.team team).core < 32)
    (hf : ((candPcs (s.team team).cands).find? fun q => candTrigger (Team_candsAt (s.team team) q) (s.cycle (s.team team).core) full &&
      decide (s.places (s.team team).core ((s.team team).groupAt
        ((keysOf ((chooseCands (Team_candsAt (s.team team) q)).map (·.grp))).headD 0)).sub < 32)) = some pc) :
    s.tryConj team full = s.formConj team (chooseCands (Team_candsAt (s.team team) pc)) := by
  unfold State.tryConj
  unfold Team_candsAt at hf
  have hno : ¬ ((!s.resident team || decide (s.conjUsed (s.team team).core ≥ 32)) = true) := by
    simp [hr]
    omega
  simp only [hno, Bool.false_eq_true, if_false, hf]
  rfl

/-! ### Admission (R24, R35, R36) -/

/-- A state in which a team that was resident is so still. -/
def StaysResident (i : Nat) (s t : State) : Prop :=
  ((s.team? i).isSome = true → (t.team? i).isSome = true) ∧ ((s.team i).place = .resident → (t.team i).place = .resident)

theorem StaysResident.refl (i : Nat) (s : State) : StaysResident i s s := ⟨id, id⟩
theorem StaysResident.trans {i : Nat} {a b c : State} (h : StaysResident i a b) (k : StaysResident i b c) : StaysResident i a c :=
  ⟨k.1 ∘ h.1, k.2 ∘ h.2⟩

theorem StaysResident.modTeam (i j : Nat) (s : State) {f : Team → Team} (hid : ∀ t, (f t).id = t.id)
    (hp : ∀ t : Team, t.place = .resident → (f t).place = .resident) : StaysResident i s (s.modTeam j f) := by
  by_cases h : i = j
  · subst h
    constructor
    · intro hs
      rw [State.teamOpt_modTeam s i f hid]
      simpa using hs
    · intro hs
      cases ht : s.team? i with
      | none => rw [State.team, State.teamOpt_modTeam s i f hid, ht]; rw [State.team, ht] at hs; exact hs
      | some t =>
        rw [State.team_modTeam s i f hid (by rw [ht]; rfl)]
        exact hp _ hs
  · rw [StaysResident, State.teamOpt_modTeam_ne s f hid h, State.team_modTeam_ne s f hid h]
    exact ⟨id, id⟩

/-- A team with its seat: its banks, and its groups not yet in a sub-core. -/
def Team_seated (banks : List Nat) (t : Team) : Team :=
  { t with
    place := .resident, banks := banks, groups := t.groups.map (fun g => { g with sub := 4, active := false }),
    conj := t.conj.map (fun g => { g with sub := 4, active := false }) }

theorem Team_seated_id (banks : List Nat) (t : Team) : (Team_seated banks t).id = t.id := rfl

theorem State.seat_eq (s : State) (team : Nat) : s.seat team = (s.team team).allGroups.foldl (fun s g => s.placeGroup team g)
    ((s.modCore (s.team team).core fun c => { c with free := (s.core (s.team team).core).free.drop (bankCount (s.hdrOf (s.team team))) }).modTeam team
      (Team_seated ((s.core (s.team team).core).free.take (bankCount (s.hdrOf (s.team team)))))) := rfl

theorem StaysResident.placeGroups (i team : Nat) (gs : List Nat) (s : State) :
    StaysResident i s (gs.foldl (fun s g => s.placeGroup team g) s) :=
  foldl_keeps (fun t => StaysResident i s t) _ (fun t g h => h.trans (.modTeam i team t (fun x => by simp) fun x hx => by simpa using hx)) gs s (.refl i s)

theorem StaysResident.seat (i team : Nat) (s : State) : StaysResident i s (s.seat team) := by
  rw [State.seat_eq]
  refine .trans (.trans ?_ (.modTeam i team _ (Team_seated_id _) fun _ _ => rfl)) (.placeGroups i team _ _)
  exact .refl i s

theorem State.seat_resident {s : State} {team : Nat} (h : (s.team? team).isSome = true) : ((s.seat team).team team).place = .resident := by
  rw [State.seat_eq]
  refine (StaysResident.placeGroups team team _ _).2 ?_
  exact congrArg Team.place (State.team_modTeam (s.modCore (s.team team).core _) team _ (Team_seated_id _) h)

theorem State.seat_mem (s : State) (team : Nat) : (s.seat team).mem = s.mem :=
  foldl_keeps (fun t : State => t.mem = s.mem) (fun t g => t.placeGroup team g) (fun _ _ h => h) _ _ rfl

theorem State.seats {ms : List Team} {s : State} (h : ∀ m ∈ ms, (s.team? m.id).isSome = true) :
    (ms.foldl (fun s m => s.seat m.id) s).mem = s.mem ∧ ∀ m ∈ ms, ((ms.foldl (fun s m => s.seat m.id) s).team m.id).place = .resident := by
  have hstay : ∀ (i : Nat) (l : List Team) (s : State), StaysResident i s (l.foldl (fun s m => s.seat m.id) s) := fun i l s =>
    foldl_keeps (fun t => StaysResident i s t) (fun s (m : Team) => s.seat m.id) (fun t m ht => ht.trans (.seat i m.id t)) l s (.refl i s)
  induction ms generalizing s with
  | nil => exact ⟨rfl, fun m hm => absurd hm List.not_mem_nil⟩
  | cons x r ih =>
    rw [List.foldl_cons]
    obtain ⟨h1, h2⟩ := ih (s := s.seat x.id) fun m hm => (StaysResident.seat m.id x.id s).1 (h m (List.mem_cons_of_mem x hm))
    refine ⟨h1.trans (s.seat_mem x.id), fun m hm => ?_⟩
    rcases List.mem_cons.mp hm with rfl | hm
    · exact (hstay m.id r _).2 (State.seat_resident (h m List.mem_cons_self))
    · exact h2 m hm

theorem teamAdmission_seats {s : State} {team : Nat} {tm : Team} (ht : s.team? team = some tm) (hp : tm.place = .admitting)
    (ha : ∀ m ∈ s.mates tm, s.admitNow m.core m = true) :
    ∃ t, exec (.teamAdmission team) s = .next t ∧ t.mem = s.mem ∧ ∀ m ∈ s.mates tm, (t.team m.id).place = .resident := by
  have hm : ∀ m ∈ s.mates tm, (s.team? m.id).isSome = true := fun m hm => by
    unfold State.team?
    rw [List.find?_isSome]
    exact ⟨m, (List.mem_filter.mp hm).1, decide_eq_true rfl⟩
  have he : exec (.teamAdmission team) s = .next ((s.mates tm).foldl (fun s m => s.seat m.id) s) := by
    show execTeamAdmission team s = _
    have hall : (decide (tm.place = .admitting) && (s.mates tm).all fun m => s.admitNow m.core m) = true := by
      rw [Bool.and_eq_true, List.all_eq_true]
      exact ⟨decide_eq_true hp, ha⟩
    unfold execTeamAdmission
    simp only [ht]
    exact if_pos hall
  obtain ⟨h1, h2⟩ := State.seats hm
  exact ⟨_, he, h1, h2⟩

/-! ### Bank conversion and refill (R40, R42) -/

theorem State.emptyL1_core (s : State) (core : Nat) : ((s.emptyL1 core).core core).l1 = [] ∧ ((s.emptyL1 core).core core).stack = [] := by
  have h1 : (s.emptyL1 core).core core = { (s.dropStack core fun _ => true).core core with l1 := [] } := tabGet_tabSet_self
  have h2 : ((s.dropStack core fun _ => true).core core).stack = [] := by
    unfold State.dropStack
    have he : ∀ (u : State) (f : Core → Core), (u.modCore core f).core core = f (u.core core) := fun _ _ => tabGet_tabSet_self
    simp only [he, Bool.not_true, List.filter_false]
  rw [h1]
  exact ⟨rfl, h2⟩

theorem State.dropStack_mem (s : State) (core : Nat) (out : StackSec → Bool) : (s.dropStack core out).mem = s.mem := by
  unfold State.dropStack
  exact foldl_mem (fun s (x : StackSec) => s.hwStore x.team (32 * x.sec) x.bytes true) (fun _ _ => rfl) _ s

theorem bankConversion_frees {s : State} {core bank : Nat} (hw : s.wantsBank core = true) (hl : 1 < (s.l1Banks core).length)
    (hb : (s.l1Banks core).getLast? = some bank) :
    ∃ t, exec (.bankConversion core bank) s = .next t ∧ t.mem = s.mem ∧ bank ∈ (t.core core).free ∧ (t.core core).l1 = [] ∧
      (t.core core).stack = [] := by
  have he : exec (.bankConversion core bank) s = .next ((s.emptyL1 core).modCore core fun c => { c with free := insertNat c.free bank }) := by
    show execBankConversion core bank s = _
    unfold execBankConversion
    exact if_pos (by simp [hw, hl, hb])
  have hc : ((s.emptyL1 core).modCore core fun c => { c with free := insertNat c.free bank }).core core =
      { (s.emptyL1 core).core core with free := insertNat ((s.emptyL1 core).core core).free bank } := tabGet_tabSet_self
  refine ⟨_, he, ?_, ?_⟩
  · exact s.dropStack_mem core fun _ => true
  · rw [hc]
    exact ⟨mem_insertNat.mpr (.inl rfl), (s.emptyL1_core core).1, (s.emptyL1_core core).2⟩

/-- A group's spilled registers have landed again. -/
def Group_refilled (regs : List Nat) (x : Group) : Group := { x with landed := regs.foldl insertNat x.landed, spilled := [], fresh := true }

theorem refill_lands {s : State} {team g : Nat} (hr : s.resident team = true) (hf : (s.team team).freed = true)
    (hg : (sortBy (fun g => ((s.team team).groupAt g).spillAt)
      ((s.team team).allGroups.filter fun g => ((s.team team).groupAt g).spilled ≠ [])).head? = some g)
    (hroom : Team_landedUnits (s.team team) + ((s.team team).groupAt g).spilled.length ≤
      shareUnits (s.hdrOf (s.team team)) (s.launchOf (s.team team)).r.g) :
    ∃ t, exec (.refill team) s = .next t ∧ t.mem = s.mem ∧ ((t.team team).groupAt g).spilled = [] ∧
      ∀ r ∈ ((s.team team).groupAt g).spilled, r ∈ ((t.team team).groupAt g).landed := by
  have hsp : ((s.team team).groupAt g).spilled ≠ [] := by
    simpa using (List.mem_filter.mp (mem_sortBy.mp (mem_of_head? hg))).2
  have hgrp : Team_hasGroup (s.team team) g := by
    by_contra hn
    rw [Team.groupAt_default hn] at hsp
    exact hsp rfl
  have he : exec (.refill team) s =
      .next (s.modTeam team fun t => t.modGroupAt g (Group_refilled ((s.team team).groupAt g).spilled)) := by
    have hre : s.refillTeam team = some (s.modTeam team fun t => t.modGroupAt g (Group_refilled ((s.team team).groupAt g).spilled)) := by
      unfold State.refillTeam
      simp only [hg]
      exact if_pos hroom
    show execRefill team s = _
    unfold execRefill
    rw [if_pos (by simp [hr, hf]), hre]
    rfl
  refine ⟨_, he, rfl, ?_⟩
  rw [State.team_modTeam _ _ _ (fun t => by simp) (State.isSome_of_resident hr), Team.groupAt_modGroupAt hgrp]
  exact ⟨rfl, fun r hr => mem_foldl_insertNat.mpr (.inl hr)⟩

/-- Settles O37: each event's state is named (`State.forceSub_eq`, `State.formConj_eq`, `State.seat_eq`), and what it says is read off. -/
theorem placesFound : Obligations.PlacesFound := by
  refine ⟨fun core sub s p a hp ha hne htp hta => forceSub_places hp ha hne htp hta, ?_, fun team s tm ht hp ha => teamAdmission_seats ht hp ha,
    fun core bank s hw hl hb => bankConversion_frees hw hl hb, fun team g s hr hf hg hroom => refill_lands hr hf hg hroom⟩
  intro team full i s pc hi tm cs hr hu hf hc
  have he : exec i s = .next (s.tryConj team full) := by
    rcases hi with ⟨rfl, rfl⟩ | ⟨rfl, rfl⟩
    · rfl
    · rfl
  rw [he, State.tryConj_some hr hu hf]
  exact ⟨_, rfl, formConj_places (State.isSome_of_resident hr) (fun c h => Team_candsAt_pc (chooseCands_sub h)) (chooseCands_lanes _) hc⟩

end Sys2Proof.Machine
end

section
namespace Sys2Proof.Machine

/-! ### What a table lists (after writes and drops) -/

/-- What a table lists of a key is what it reads as, listed values being marked. -/
theorem tabFind_eq {α : Type} (t : List (Nat × α)) (k : Nat) : tabFind t k = tabGet (t.map fun e => (e.1, some e.2)) k none := by
  induction t with
  | nil => rfl
  | cons e r ih =>
    simp only [tabFind, List.map_cons, tabGet, ih]

theorem map_tabDel {α β : Type} (f : α → β) (t : List (Nat × α)) (k : Nat) :
    (tabDel t k).map (fun e => (e.1, f e.2)) = tabDel (t.map fun e => (e.1, f e.2)) k := by
  induction t with
  | nil => rfl
  | cons e r ih =>
    simp only [tabDel, List.map_cons]
    split
    · exact ih
    · split
      · rfl
      · rw [List.map_cons, ih]

theorem map_tabPut {α β : Type} (f : α → β) (t : List (Nat × α)) (k : Nat) (x : α) :
    (tabPut t k x).map (fun e => (e.1, f e.2)) = tabPut (t.map fun e => (e.1, f e.2)) k (f x) := by
  induction t with
  | nil => rfl
  | cons e r ih =>
    simp only [tabPut, List.map_cons]
    split
    · rfl
    · split
      · rfl
      · rw [List.map_cons, ih]

theorem tabFind_tabDel_self {α : Type} {t : List (Nat × α)} {k : Nat} : tabFind (tabDel t k) k = none := by
  rw [tabFind_eq, map_tabDel]
  exact tabGet_tabDel_self

theorem tabFind_tabDel_ne {α : Type} {t : List (Nat × α)} {k j : Nat} (hj : j ≠ k) (h : tabRises t) : tabFind (tabDel t k) j = tabFind t j := by
  rw [tabFind_eq, map_tabDel, tabFind_eq]
  refine tabGet_tabDel_ne hj ?_
  show ((t.map fun e => (e.1, some e.2)).map (·.1)).Pairwise (· < ·)
  rw [List.map_map]
  exact h

theorem tabFind_tabPut {α : Type} {t : List (Nat × α)} {k j : Nat} {x : α} : tabFind (tabPut t k x) j = if j = k then some x else tabFind t j := by
  rw [tabFind_eq, map_tabPut, tabGet_tabPut, tabFind_eq]

/-! ### A fold that reaches a property and keeps it -/

theorem foldl_reaches {α β : Type} {f : β → α → β} {x : α} (I P : β → Prop) : ∀ {l : List α} {b : β}, x ∈ l →
    (∀ b, ∀ a ∈ l, I b → I (f b a)) → (∀ b, I b → P (f b x)) → (∀ b, ∀ a ∈ l, I b → P b → P (f b a)) → I b → P (l.foldl f b) := by
  intro l b hx hI hset hkeep
  have hall : ∀ (l' : List α) (b : β), (∀ a ∈ l', a ∈ l) → I b → P b → P (l'.foldl f b) := by
    intro l'
    induction l' with
    | nil => exact fun b _ _ hp => hp
    | cons a r ih =>
      intro b hs hi hp
      have ha := hs a List.mem_cons_self
      exact ih _ (fun y hy => hs y (List.mem_cons_of_mem a hy)) (hI b a ha hi) (hkeep b a ha hi hp)
  have hgo : ∀ (l' : List α) (b : β), x ∈ l' → (∀ a ∈ l', a ∈ l) → I b → P (l'.foldl f b) := by
    intro l'
    induction l' with
    | nil => exact fun b h => absurd h List.not_mem_nil
    | cons a r ih =>
      intro b hxm hs hi
      have ha := hs a List.mem_cons_self
      have hr := fun y hy => hs y (List.mem_cons_of_mem a hy)
      rcases List.mem_cons.mp hxm with rfl | hm
      · exact hall r _ hr (hI b x ha hi) (hset b hi)
      · exact ih _ hm hr (hI b a ha hi)
  exact hgo l b hx (fun _ h => h)

/-! ### What follows a known time leaves registers alone (R124, R126) -/

/-- Two groups have the same threads and registers. -/
structure GroupCalm (a b : Group) : Prop where
  threads : b.threads = a.threads
  g : b.g = a.g
  marks : b.marks = a.marks

/-- Two teams have the same threads and registers, and the same writes to land. -/
structure TeamCalm (a b : Team) : Prop where
  id : b.id = a.id
  pipe : b.pipe = a.pipe
  t : b.t = a.t
  groups : ∀ n, GroupCalm (a.groupAt n) (b.groupAt n)

theorem GroupCalm.refl (a : Group) : GroupCalm a a := ⟨rfl, rfl, rfl⟩
theorem GroupCalm.trans {a b c : Group} (h : GroupCalm a b) (k : GroupCalm b c) : GroupCalm a c :=
  ⟨k.threads.trans h.threads, k.g.trans h.g, k.marks.trans h.marks⟩

theorem TeamCalm.refl (a : Team) : TeamCalm a a := ⟨rfl, rfl, rfl, fun _ => .refl _⟩
theorem TeamCalm.trans {a b c : Team} (h : TeamCalm a b) (k : TeamCalm b c) : TeamCalm a c :=
  ⟨k.id.trans h.id, k.pipe.trans h.pipe, k.t.trans h.t, fun n => (h.groups n).trans (k.groups n)⟩

theorem TeamCalm.modGroupAt (t : Team) (g : Nat) {f : Group → Group} (hf : ∀ x, GroupCalm x (f x)) : TeamCalm t (t.modGroupAt g f) := by
  refine ⟨by simp, by simp, by simp, fun n => ?_⟩
  by_cases hn : n = g
  · subst hn
    by_cases hh : Team_hasGroup t n
    · rw [Team.groupAt_modGroupAt hh]; exact hf _
    · rw [Team.groupAt_modGroupAt_not hh]; exact .refl _
  · rw [Team.groupAt_modGroupAt_ne t f hn]; exact .refl _

theorem TeamCalm.modActor (t : Team) (a : Actor) {f : Group → Group} (hf : ∀ x, GroupCalm x (f x)) : TeamCalm t (t.modActor a f) := by
  cases a with
  | grp n => exact .modGroupAt t n hf
  | lead => exact .modGroupAt t leadGrp hf
  | conj k => exact ⟨rfl, rfl, rfl, fun _ => .refl _⟩

theorem TeamCalm.thread {a b : Team} (h : TeamCalm a b) (g l : Nat) : b.thread g l = a.thread g l := by
  unfold Team.thread
  rw [(h.groups g).threads]

/-- What a known time does to the team of its access. -/
def Team_noted (who : Actor) (grp t : Nat) (y : Bool) (tm : Team) : Team :=
  let tm1 := tm.modActor who (Group_done t y)
  match who with
  | .conj k =>
    (((tm.conj.find? fun c => c.id = k).getD {}).pos.foldl
      (fun acc p => match p with | some (g, _) => insertNat acc g | none => acc) [grp]).foldl
        (fun tm g => tm.modGroupAt g (Group_done t y)) tm1
  | _ => tm1

theorem TeamCalm.noted (who : Actor) (grp t : Nat) (y : Bool) (tm : Team) : TeamCalm tm (Team_noted who grp t y tm) := by
  have h1 : TeamCalm tm (tm.modActor who (Group_done t y)) := .modActor tm who fun _ => ⟨rfl, rfl, rfl⟩
  unfold Team_noted
  cases who with
  | grp n => exact h1
  | lead => exact h1
  | conj k =>
    exact foldl_keeps (fun u => TeamCalm tm u) (fun (u : Team) g => u.modGroupAt g (Group_done t y))
      (fun u g hu => hu.trans (.modGroupAt u g fun _ => ⟨rfl, rfl, rfl⟩)) _ _ h1

/-- The acquires that an access was one of have their time. -/
def Group_acquires (id t : Nat) (g : Group) : Group :=
  { g with
    floor := (g.acqs.filter (fun a => decide (a.1 = id))).foldl (fun f a => max f (if a.2 then t + 64 else t)) g.floor,
    acqs := g.acqs.filter (fun a => decide (a.1 ≠ id)) }

theorem State.settle_team {s : State} {team : Nat} {a : Team} (ha : s.team? team = some a) (id : Nat) (who : Actor) (grp launch t : Nat) (y : Bool) :
    ∃ b, (s.settle id team who grp launch t y).team? team = some b ∧ TeamCalm a b := by
  have hid1 : ∀ u, (Team_noted who grp t y u).id = u.id := fun u => (TeamCalm.noted who grp t y u).id
  have hid2 : ∀ u, (Team.modActor u who (Group_acquires id t)).id = u.id := fun u => by simp
  refine ⟨(Team_noted who grp t y a).modActor who (Group_acquires id t), ?_, (TeamCalm.noted who grp t y a).trans (.modActor _ who fun _ => ⟨rfl, rfl, rfl⟩)⟩
  have h : (s.settle id team who grp launch t y).team? team =
      (((s.modTeam team (Team_noted who grp t y)).modTeam team fun u => u.modActor who (Group_acquires id t)).team? team) := rfl
  rw [h, State.teamOpt_modTeam _ _ _ hid2, State.teamOpt_modTeam _ _ _ hid1, ha]
  rfl

/-! ### Writes that land (R34, R57, R59, R62, R125) -/

/-- What a write to a register of a group's own does to the group: a token leaves its mark (R125). -/
def Group_land (w : PipeW) (g : Group) : Group :=
  match w.tok with
  | some x => (g.setG w.no w.val).setTok w.no x
  | none => g.setG w.no w.val

/-- The maps of a group's registers and marks have rising keys. -/
def GroupRises (g : Group) : Prop := tabRises g.g ∧ tabRises g.marks

/-- A group's register reads as a write left it, with the mark of a token or none. -/
def LandedG (w : PipeW) (g : Group) : Prop :=
  (w.tok = none → g.getG w.no = w.val ∧ tabFind g.marks w.no = none) ∧
    ∀ k, w.tok = some k → g.getG w.no = BitVec.ofNat 32 k ∧ tabFind g.marks w.no = some (BitVec.ofNat 64 k)

theorem GroupRises.land {g : Group} (h : GroupRises g) (w : PipeW) : GroupRises (Group_land w g) := by
  have h1 : GroupRises (g.setG w.no w.val) := ⟨tabRises_tabSet h.1, tabRises_tabDel h.2⟩
  unfold Group_land
  split
  · exact ⟨tabRises_tabSet h1.1, tabRises_tabPut h1.2⟩
  · exact h1

theorem LandedG.land (w : PipeW) (g : Group) : LandedG w (Group_land w g) := by
  unfold Group_land
  cases hw : w.tok with
  | none => exact ⟨fun _ => ⟨tabGet_tabSet_self, tabFind_tabDel_self⟩, fun k hk => absurd (hw.symm.trans hk) (by simp)⟩
  | some x =>
    refine ⟨fun hk => absurd (hw.symm.trans hk) (by simp), fun k hk => ?_⟩
    rw [hw] at hk
    cases hk
    exact ⟨tabGet_tabSet_self, tabFind_tabPut.trans (if_pos rfl)⟩

/-- A write to another register leaves it so. -/
theorem LandedG.land_other {w y : PipeW} (hn : w.no ≠ y.no) {g : Group} (hr : GroupRises g) (h : LandedG w g) : LandedG w (Group_land y g) := by
  have h1 : (g.setG y.no y.val).getG w.no = g.getG w.no ∧ tabFind (g.setG y.no y.val).marks w.no = tabFind g.marks w.no :=
    ⟨tabGet_tabSet_other hn hr.1, tabFind_tabDel_ne hn hr.2⟩
  have h2 : (Group_land y g).getG w.no = g.getG w.no ∧ tabFind (Group_land y g).marks w.no = tabFind g.marks w.no := by
    unfold Group_land
    split
    · refine ⟨(tabGet_tabSet_other hn (tabRises_tabSet hr.1)).trans h1.1, ?_⟩
      rw [Group.setTok, tabFind_tabPut, if_neg hn]
      exact h1.2
    · exact h1
  unfold LandedG
  rw [h2.1, h2.2]
  exact h

theorem LandedG.congr {w : PipeW} {a b : Group} (hg : b.g = a.g) (hm : b.marks = a.marks) (h : LandedG w a) : LandedG w b := by
  unfold LandedG Group.getG at *
  rw [hg, hm]
  exact h

/-- An update of a group's threads leaves every group's registers alone. -/
theorem Team.groupAt_modThread_regs (t : Team) (k l n : Nat) (f : Thread → Thread) :
    ((t.modThread k l f).groupAt n).g = (t.groupAt n).g ∧ ((t.modThread k l f).groupAt n).marks = (t.groupAt n).marks := by
  unfold Team.modThread
  by_cases hk : n = k
  · subst hk
    by_cases hh : Team_hasGroup t n
    · rw [Team.groupAt_modGroupAt hh]; exact ⟨rfl, rfl⟩
    · rw [Team.groupAt_modGroupAt_not hh]; exact ⟨rfl, rfl⟩
  · rw [Team.groupAt_modGroupAt_ne t _ hk]; exact ⟨rfl, rfl⟩

/-- A write that lands changes a group's registers when it is one of them, and else leaves them alone. -/
theorem Team_land_group {t : Team} {n : Nat} (hn : n ≠ leadGrp) (hg : Team_hasGroup t n) (w : PipeW) :
    Team_hasGroup (Team_land t w) n ∧
      (w.cls = 1 ∧ w.who = .grp n ∧ (Team_land t w).groupAt n = Group_land w (t.groupAt n) ∨
        ¬ (w.cls = 1 ∧ w.who = .grp n) ∧ ((Team_land t w).groupAt n).g = (t.groupAt n).g ∧
          ((Team_land t w).groupAt n).marks = (t.groupAt n).marks) := by
  have hthread : ∀ (k l : Nat) (f : Thread → Thread), Team_hasGroup (t.modThread k l f) n := fun k l f =>
    (Team.hasGroup_modGroupAt t k n _).mpr hg
  unfold Team_land
  split
  · rename_i hc
    exact ⟨hthread _ _ _, .inr ⟨fun h => by omega, Team.groupAt_modThread_regs t _ _ n _⟩⟩
  · rename_i hc
    cases hw : w.who with
    | grp m =>
      refine ⟨(Team.hasGroup_modGroupAt t m n _).mpr hg, ?_⟩
      by_cases hm : m = n
      · subst hm
        exact .inl ⟨hc, rfl, Team.groupAt_modGroupAt hg _⟩
      · right
        refine ⟨fun h => hm (by have := h.2; simpa using this), ?_⟩
        simp only [Team.modActor]
        rw [Team.groupAt_modGroupAt_ne t _ (Ne.symm hm)]
        exact ⟨rfl, rfl⟩
    | lead =>
      refine ⟨(Team.hasGroup_modGroupAt t leadGrp n _).mpr hg, .inr ⟨fun h => (nomatch h.2), ?_⟩⟩
      simp only [Team.modActor]
      rw [Team.groupAt_modGroupAt_ne t _ hn]
      exact ⟨rfl, rfl⟩
    | conj k => exact ⟨hg, .inr ⟨fun h => (nomatch h.2), rfl, rfl⟩⟩
  · rename_i hc
    exact ⟨hg, .inr ⟨fun h => by omega, rfl, rfl⟩⟩
  · rename_i h0 h1 h2
    exact ⟨hthread _ _ _, .inr ⟨fun h => h1 h.1, Team.groupAt_modThread_regs t _ _ n _⟩⟩

/-- The writes of a cycle to a group's registers: the one to a register of that number is there at the end. -/
theorem Team_lands_group {ws : List PipeW} {x : PipeW} {n : Nat} (hx : x ∈ ws) (hc : x.cls = 1) (hw : x.who = .grp n) (hn : n ≠ leadGrp)
    (hu : ∀ y ∈ ws, y.cls = x.cls → y.no = x.no → y = x) {t : Team} (hg : Team_hasGroup t n) (hr : GroupRises (t.groupAt n)) :
    LandedG x ((ws.foldl Team_land t).groupAt n) := by
  refine foldl_reaches (fun t => Team_hasGroup t n ∧ GroupRises (t.groupAt n)) (fun t => LandedG x (t.groupAt n)) hx
    (fun t y _ h => ?_) (fun t h => ?_) (fun t y hy h hl => ?_) ⟨hg, hr⟩
  · obtain ⟨hg, hcase⟩ := Team_land_group hn h.1 y
    refine ⟨hg, ?_⟩
    rcases hcase with ⟨-, -, e⟩ | ⟨-, e1, e2⟩
    · rw [e]; exact h.2.land y
    · unfold GroupRises; rw [e1, e2]; exact h.2
  · obtain ⟨-, ⟨-, -, e⟩ | ⟨hno, -⟩⟩ := Team_land_group hn h.1 x
    · rw [e]; exact .land x _
    · exact absurd ⟨hc, hw⟩ hno
  · obtain ⟨-, ⟨hyc, -, e⟩ | ⟨-, e1, e2⟩⟩ := Team_land_group hn h.1 y
    · rw [e]
      by_cases hno : y.no = x.no
      · rw [hu y hy (hyc.trans hc.symm) hno]; exact .land x _
      · exact hl.land_other (Ne.symm hno) h.2
    · exact hl.congr e1 e2

theorem Team_land_t (t : Team) (w : PipeW) : (Team_land t w).t = if w.cls = 2 then tabSet t.t w.no w.val 0 else t.t := by
  unfold Team_land
  split
  · rename_i h; rw [h]; simp
  · rename_i h; rw [h]; simp
  · rename_i h; rw [h]; rfl
  · rename_i h; rw [if_neg h]; simp

/-- The writes of a cycle to the team's registers. -/
theorem Team_lands_t {ws : List PipeW} {x : PipeW} (hx : x ∈ ws) (hc : x.cls = 2) (hu : ∀ y ∈ ws, y.cls = x.cls → y.no = x.no → y = x)
    {t : Team} (hr : tabRises t.t) : (ws.foldl Team_land t).getT x.no = x.val := by
  refine foldl_reaches (fun t : Team => tabRises t.t) (fun t => t.getT x.no = x.val) hx (fun t y _ h => ?_) (fun t _ => ?_) (fun t y hy h hl => ?_) hr
  · rw [Team_land_t]; split
    · exact tabRises_tabSet h
    · exact h
  · unfold Team.getT
    rw [Team_land_t, if_pos hc]
    exact tabGet_tabSet_self
  · unfold Team.getT at hl ⊢
    rw [Team_land_t]
    split
    · rename_i hyc
      by_cases hno : y.no = x.no
      · rw [hu y hy (hyc.trans hc.symm) hno]; exact tabGet_tabSet_self
      · rw [tabGet_tabSet_other (Ne.symm hno) h]; exact hl
    · exact hl

theorem Team_land_rest (t : Team) (w : PipeW) : (Team_land t w).id = t.id ∧ (Team_land t w).pipe = t.pipe := by
  unfold Team_land
  split <;> simp [Team.setT]

theorem Team_lands_rest (ws : List PipeW) (t : Team) : (ws.foldl Team_land t).id = t.id ∧ (ws.foldl Team_land t).pipe = t.pipe :=
  foldl_keeps (fun u => u.id = t.id ∧ u.pipe = t.pipe) Team_land
    (fun u w h => ⟨(Team_land_rest u w).1.trans h.1, (Team_land_rest u w).2.trans h.2⟩) ws t ⟨rfl, rfl⟩

/-- The writes that are due, in landing order. -/
def Team_dues (t : Team) (now : Nat) : List PipeW :=
  sortBy (fun w : PipeW => w.due) (sortBy (fun w : PipeW => w.ord) (t.pipe.filter fun w => w.due ≤ now))

theorem mem_dues {t : Team} {now : Nat} {w : PipeW} : w ∈ Team_dues t now ↔ w ∈ t.pipe ∧ w.due ≤ now := by
  unfold Team_dues
  rw [mem_sortBy, mem_sortBy, List.mem_filter, decide_eq_true_iff]

/-- A team whose due writes have landed. -/
def Team_landed (now : Nat) (ws : List PipeW) (t : Team) : Team :=
  ws.foldl Team_land { t with pipe := t.pipe.filter fun w => !decide (w.due ≤ now) }

theorem Team_landed_id (now : Nat) (ws : List PipeW) (t : Team) : (Team_landed now ws t).id = t.id := (Team_lands_rest ws _).1

theorem State.landDue_some {s : State} {team : Nat} {a : Team} (ha : s.team? team = some a) {x : PipeW} (hx : x ∈ a.pipe)
    (hd : x.due ≤ s.cycle a.core) : ∃ b, (s.landDue team).team? team = some b ∧ (s.landDue team).mem = s.mem ∧
      TeamCalm (Team_landed (s.cycle a.core) (Team_dues a (s.cycle a.core)) a) b := by
  have hteam : s.team team = a := by simp [State.team, ha]
  have hne : a.pipe.filter (fun w => decide (w.due ≤ s.cycle a.core)) ≠ [] :=
    List.ne_nil_of_mem (List.mem_filter.mpr ⟨hx, decide_eq_true hd⟩)
  have he : s.landDue team = ((Team_dues a (s.cycle a.core)).filter fun w => w.cls = 2 || w.xl).foldl
      (fun s' w => s'.settle w.id team w.who w.grp a.launch s'.gtc false)
      (s.modTeam team (Team_landed (s.cycle a.core) (Team_dues a (s.cycle a.core)))) := by
    unfold State.landDue
    simp only [hteam]
    rw [if_neg hne]
    rfl
  rw [he]
  have h1 : (s.modTeam team (Team_landed (s.cycle a.core) (Team_dues a (s.cycle a.core)))).team? team =
      some (Team_landed (s.cycle a.core) (Team_dues a (s.cycle a.core)) a) := by
    rw [State.teamOpt_modTeam _ _ _ (Team_landed_id _ _), ha]; rfl
  obtain ⟨hm, b, hb, hab⟩ := foldl_keeps (fun u : State => u.mem = s.mem ∧ ∃ b, u.team? team = some b ∧
      TeamCalm (Team_landed (s.cycle a.core) (Team_dues a (s.cycle a.core)) a) b)
    (fun (s' : State) (w : PipeW) => s'.settle w.id team w.who w.grp a.launch s'.gtc false) (fun u w h => by
      obtain ⟨hm, b, hb, hab⟩ := h
      obtain ⟨c, hc, hbc⟩ := State.settle_team hb w.id w.who w.grp a.launch u.gtc false
      exact ⟨hm, c, hc, hab.trans hbc⟩)
    ((Team_dues a (s.cycle a.core)).filter fun w => w.cls = 2 || w.xl)
    (s.modTeam team (Team_landed (s.cycle a.core) (Team_dues a (s.cycle a.core)))) ⟨rfl, _, h1, .refl _⟩
  exact ⟨b, hb, hm, hab⟩

/-- The writes of a cycle, as R34, R59 and R62 have them. -/
theorem State.landDue_lands {s : State} {team : Nat} {x : PipeW} (hx : x ∈ (s.team team).pipe) (hd : x.due ≤ s.cycle (s.team team).core)
    (ht : (s.team? team).isSome = true)
    (hu : ∀ y ∈ (s.team team).pipe, y.due ≤ s.cycle (s.team team).core → y.cls = x.cls → y.no = x.no → y = x) :
    (s.landDue team).mem = s.mem ∧ x ∉ ((s.landDue team).team team).pipe ∧
    (x.cls = 1 → ∀ n, x.who = .grp n → n < (s.team team).groups.length → n ≠ leadGrp → GroupRises ((s.team team).groupAt n) →
      LandedG x (((s.landDue team).team team).groupAt n)) ∧
    (x.cls = 2 → tabRises (s.team team).t → ((s.landDue team).team team).getT x.no = x.val) := by
  obtain ⟨a, ha⟩ := Option.isSome_iff_exists.mp ht
  have hteam := State.team_of_some ha
  rw [hteam] at hx hd hu ⊢
  obtain ⟨b, hb, hm, hcalm⟩ := State.landDue_some ha hx hd
  rw [State.team_of_some hb]
  have hxd : x ∈ Team_dues a (s.cycle a.core) := mem_dues.mpr ⟨hx, hd⟩
  have hud : ∀ y ∈ Team_dues a (s.cycle a.core), y.cls = x.cls → y.no = x.no → y = x := fun y hy =>
    hu y (mem_dues.mp hy).1 (mem_dues.mp hy).2
  refine ⟨hm, ?_, fun hc n hw hn hnl hr => ?_, fun hc hr => ?_⟩
  · rw [hcalm.pipe, Team_landed, (Team_lands_rest _ _).2]
    intro hmem
    simpa [hd] using (List.mem_filter.mp hmem).2
  · exact (Team_lands_group (t := { a with pipe := a.pipe.filter fun w => !decide (w.due ≤ s.cycle a.core) }) hxd hc hw hnl hud
      (.inr ⟨hnl, hn⟩) hr).congr (hcalm.groups n).g (hcalm.groups n).marks
  · unfold Team.getT
    rw [hcalm.t]
    exact Team_lands_t hxd hc hud hr

/-! ### Scoreboarded results (R62, R211) -/

theorem getV_setVs {ws : List Word} {no k : Nat} {w : Word} {th : Thread} (hr : tabRises th.v) (hk : ws[k]? = some w) :
    ((ws.zipIdx).foldl (fun th w => th.setV (no + w.2) w.1) th).getV (no + k) = w := by
  refine foldl_reaches (x := (w, k)) (fun th : Thread => tabRises th.v) (fun th => th.getV (no + k) = w)
    (List.mem_zipIdx_iff_getElem?.mpr hk) (fun th y _ h => tabRises_tabSet h) (fun th _ => tabGet_tabSet_self) (fun th y hy h hw => ?_) hr
  by_cases hyk : y.2 = k
  · have hy' : ws[y.2]? = some y.1 := List.mem_zipIdx_iff_getElem?.mp hy
    rw [hyk, hk] at hy'
    rw [hyk, ← Option.some.inj hy']
    exact tabGet_tabSet_self
  · exact (tabGet_tabSet_other (by omega) h).trans hw

theorem Thread.getP_setP (th : Thread) {n : Nat} (h : n < 7) (b : Bool) : (th.setP n b).getP n = b := by
  have h7 : n ≠ 7 := by omega
  unfold Thread.setP Thread.getP
  simp only [h7, if_false, decide_false, Bool.false_or, setBit8]
  cases b with
  | true => rw [if_pos rfl, BitVec.getLsbD_or, getLsbD_twoPow_self (by omega), Bool.or_true]
  | false =>
    rw [if_neg (by simp), BitVec.getLsbD_and, BitVec.getLsbD_not, getLsbD_twoPow_self (by omega)]
    simp

theorem wordsCap_words (ws : List Word) {k : Nat} (h : k < 4) : (wordsCap ws).extractLsb' (32 * k) 32 = ws.getD k 0 := by
  unfold wordsCap
  refine BitVec.eq_of_getLsbD_eq fun i hi => ?_
  simp only [BitVec.getLsbD_extractLsb', BitVec.getLsbD_append, hi, decide_true, Bool.true_and]
  interval_cases k
  · simp [hi, show i < 64 by omega, show i < 96 by omega]
  · simp [show ¬ 32 + i < 32 by omega, show 32 + i < 64 by omega, show 32 + i < 96 by omega]
  · simp [show ¬ 64 + i < 64 by omega, show 64 + i < 96 by omega]
  · simp [show ¬ 96 + i < 96 by omega]

theorem flatMap_leBytes_drop {ws : List Word} (h : ws.length = 8) :
    (ws.flatMap fun w => leBytes 4 w.toNat).drop 16 = (ws.drop 4).flatMap fun w => leBytes 4 w.toNat := by
  have hlen : ((ws.take 4).flatMap fun w => leBytes 4 w.toNat).length = 16 := by
    rw [List.length_flatMap]
    simp [length_leBytes, h]
  conv_lhs => rw [← List.take_append_drop 4 ws]
  rw [List.flatMap_append, List.drop_append_of_le_length (by omega), ← hlen, List.drop_length, List.nil_append]

theorem Pend_words_of_words {p : Pend} (h : p.pack = .words) : Pend_words p = p.vals.map fun v => v.getD 0 := by
  unfold Pend_words
  rw [h]

/-- A capability as a result gives it: from its first four words, tagged by the check of a record (R211). -/
theorem State.pendTag_words {s : State} {p : Pend} (hc : p.cls = 4) (hp : p.pack = .words) :
    (∀ k < 4, (wordsCap (Pend_words (s.pendTag p))).extractLsb' (32 * k) 32 = (Pend_words p).getD k 0) ∧
      ((Pend_words p).length ≠ 8 → (s.pendTag p).tag = p.tag) ∧
      ((Pend_words p).length = 8 → ((s.pendTag p).tag = true ↔ ((Pend_words p).drop 4).flatMap (fun w => leBytes 4 w.toNat) =
        s.capSeal (s.worldOf (s.team p.team)) (wordsCap (Pend_words (s.pendTag p))))) := by
  have hlen : (Pend_words p).length = p.vals.length := by rw [Pend_words_of_words hp, List.length_map]
  by_cases h8 : p.vals.length = 8
  · have he : s.pendTag p = { p with
        vals := ((Pend_words p).take 4).map some, tag := s.capTagged (s.worldOf (s.team p.team)) (wordsCap ((Pend_words p).take 4))
          (((Pend_words p).flatMap fun w => leBytes 4 w.toNat).drop 16) } := if_pos (by simp [hc, h8])
    have hw : Pend_words (s.pendTag p) = (Pend_words p).take 4 := by
      rw [Pend_words_of_words (p := s.pendTag p) (by rw [he]; exact hp), he]
      simp [Function.comp_def]
    rw [hw]
    refine ⟨fun k hk => ?_, fun h => absurd (hlen.trans h8) h, fun h => ?_⟩
    · rw [wordsCap_words _ hk, List.getD_eq_getElem?_getD, List.getD_eq_getElem?_getD, List.getElem?_take_of_lt hk]
    · rw [he]
      show decide _ = true ↔ _
      rw [decide_eq_true_iff, flatMap_leBytes_drop h]
  · have he : s.pendTag p = p := if_neg (by simp [h8])
    rw [he]
    exact ⟨fun k hk => wordsCap_words _ hk, fun _ => rfl, fun h => absurd (hlen.symm.trans h) h8⟩

theorem State.pendTag_same {s : State} {p : Pend} (hc : p.cls ≠ 4) : s.pendTag p = p := if_neg (by simp [hc])

/-- The state once a result has left the list of those that are awaited. -/
def State.withoutPend (s : State) (id : Nat) : State := { s with pends := s.pends.filter fun q => decide (q.id ≠ id) }

theorem State.withoutPend_gone {s : State} {id : Nat} : ∀ q ∈ (s.withoutPend id).pends, q.id ≠ id := fun q hq => by
  simpa using (List.mem_filter.mp hq).2

theorem Team_writePend_id (p : Pend) (t : Team) : (Team_writePend t p).id = t.id := by
  unfold Team_writePend
  split
  · simp
  · simp
  · exact foldl_id (fun (t : Team) (w : Word × Nat) => t.setT (p.no + w.2) w.1) (fun _ _ => rfl) _ t
  · simp
  · simp

/-- The state with a result written to a team. -/
def State.wrotePend (s : State) (p q : Pend) : State := (s.withoutPend p.id).modTeam p.team fun t => Team_writePend t q

theorem State.wrotePend_team {s : State} {p q : Pend} {tm : Team} (ht : s.team? p.team = some tm) :
    (s.wrotePend p q).team? p.team = some (Team_writePend tm q) := by
  unfold State.wrotePend
  rw [State.teamOpt_modTeam _ _ _ (Team_writePend_id q)]
  exact congrArg (Option.map fun t => Team_writePend t q) ht

theorem State.pends_settle (s : State) (id team : Nat) (who : Actor) (grp launch t : Nat) (y : Bool) :
    (s.settle id team who grp launch t y).pends = s.pends := rfl

theorem acpLost_eq_false {p : Pend} {tm : Team} (h : p.acp = false ∨ tm.place = .resident) : (p.acp && decide (tm.place ≠ .resident)) = false := by
  rcases h with h | h <;> simp [h]

theorem scoreboardWriteback_writes {s : State} {p : Pend} {tm : Team} (hf : s.pends.find? (fun q => q.id = p.id) = some p)
    (hr : s.pendReady p = true) (ht : s.team? p.team = some tm) (ha : p.acp = false ∨ tm.place = .resident) (hab : p.abroad = false)
    (hc : p.cls ≠ 1 ∧ p.cls ≠ 2) :
    exec (.scoreboardWriteback p.id) s = .next (if p.xlane then
      (s.wrotePend p (s.pendTag p)).settle p.id p.team p.who p.grp tm.launch s.gtc false else s.wrotePend p (s.pendTag p)) := by
  show execScoreboardWriteback p.id s = _
  unfold execScoreboardWriteback
  simp only [hf, hr, ht, acpLost_eq_false ha, hab, hc.1, hc.2, Bool.not_true, Bool.false_eq_true, decide_false, Bool.or_self, if_false]
  rfl

/-- A result of a thread's own registers is written, and what waits for its time goes on. -/
theorem scoreboard_writes {s : State} {p : Pend} {tm : Team} (hf : s.pends.find? (fun q => q.id = p.id) = some p) (hr : s.pendReady p = true)
    (ht : s.team? p.team = some tm) (ha : p.acp = false ∨ tm.place = .resident) (hab : p.abroad = false) (hc : p.cls ≠ 1 ∧ p.cls ≠ 2) :
    ∃ t b, exec (.scoreboardWriteback p.id) s = .next t ∧ t.mem = s.mem ∧ (∀ q ∈ t.pends, q.id ≠ p.id) ∧ t.team? p.team = some b ∧
      TeamCalm (Team_writePend tm (s.pendTag p)) b := by
  have he := scoreboardWriteback_writes hf hr ht ha hab hc
  have h1 := State.wrotePend_team (q := s.pendTag p) ht
  by_cases hx : p.xlane = true
  · rw [if_pos hx] at he
    obtain ⟨b, hb, hcalm⟩ := State.settle_team h1 p.id p.who p.grp tm.launch s.gtc false
    refine ⟨_, b, he, State.mem_settle _ _ _ _ _ _ _ _, ?_, hb, hcalm⟩
    rw [State.pends_settle]
    exact State.withoutPend_gone
  · rw [if_neg hx] at he
    exact ⟨_, _, he, rfl, State.withoutPend_gone, h1, .refl _⟩

/-- A team once a result of its own or of a group's registers has joined the writes that land. -/
def Team_joined (s : State) (p : Pend) (t : Team) : Team := { t with pipe := t.pipe ++ Pend_pipe p t (s.cycle t.core) }

theorem Team_joined_id (s : State) (p : Pend) (t : Team) : (Team_joined s p t).id = t.id := rfl

/-- A result of a group's or the team's registers joins the writes that land, with the next cycle. -/
theorem scoreboard_joins {s : State} {p : Pend} {tm : Team} (hf : s.pends.find? (fun q => q.id = p.id) = some p) (hr : s.pendReady p = true)
    (ht : s.team? p.team = some tm) (ha : p.acp = false ∨ tm.place = .resident) (hc : p.cls = 1 ∨ p.cls = 2) :
    ∃ t, exec (.scoreboardWriteback p.id) s = .next t ∧ t.mem = s.mem ∧ (∀ q ∈ t.pends, q.id ≠ p.id) ∧
      (t.team p.team).pipe = tm.pipe ++ Pend_pipe p tm (s.cycle tm.core) := by
  have he : exec (.scoreboardWriteback p.id) s = .next ((s.withoutPend p.id).modTeam p.team (Team_joined s p)) := by
    have hcls : (decide (p.cls = 1) || decide (p.cls = 2)) = true := by simpa using hc
    show execScoreboardWriteback p.id s = _
    unfold execScoreboardWriteback
    simp only [hf, hr, ht, acpLost_eq_false ha, hcls, Bool.not_true, Bool.false_eq_true, if_false, if_true]
    rfl
  refine ⟨_, he, rfl, State.withoutPend_gone, ?_⟩
  have h1 : ((s.withoutPend p.id).modTeam p.team (Team_joined s p)).team? p.team = some (Team_joined s p tm) := by
    rw [State.teamOpt_modTeam _ _ _ (Team_joined_id s p)]
    exact congrArg (Option.map (Team_joined s p)) ht
  rw [State.team_of_some h1]
  rfl

theorem mem_Pend_pipe {p : Pend} {t : Team} {now k : Nat} {w : Word} (h : (Pend_words p)[k]? = some w) :
    ∃ x ∈ Pend_pipe p t now, x.due = now + 1 ∧ x.sb = true ∧ x.cls = p.cls ∧ x.no = p.no + k ∧ x.val = w ∧ x.who = p.who ∧ x.tok = p.tok :=
  ⟨_, List.mem_map.mpr ⟨(w, k), List.mem_zipIdx_iff_getElem?.mpr h, rfl⟩, rfl, rfl, rfl, rfl, rfl, rfl, rfl⟩

/-- A result of one of a thread's registers, as it is written. -/
theorem Team_writePend_thread {s : State} {p : Pend} {tm : Team} (hst : (tm.thread p.grp p.lane).st ≠ .exited) :
    (p.cls = 0 → tabRises (tm.thread p.grp p.lane).v → ∀ k w, (Pend_words p)[k]? = some w →
      ((Team_writePend tm (s.pendTag p)).thread p.grp p.lane).getV (p.no + k) = w) ∧
    (p.cls = 3 → p.no < 7 → ((Team_writePend tm (s.pendTag p)).thread p.grp p.lane).getP p.no = decide ((Pend_words p).headD 0 ≠ 0)) ∧
    (p.cls = 4 → ((Team_writePend tm (s.pendTag p)).thread p.grp p.lane).getC p.no =
      { val := wordsCap (Pend_words (s.pendTag p)), tag := (s.pendTag p).tag }) := by
  have hh := Team.hasThread_of hst
  refine ⟨fun hc hv k w hk => ?_, fun hc hn => ?_, fun hc => ?_⟩
  · rw [State.pendTag_same (by omega)]
    simp only [Team_writePend, hc]
    rw [Team.thread_modThread_has hh]
    exact getV_setVs hv hk
  · rw [State.pendTag_same (by omega)]
    simp only [Team_writePend, hc]
    rw [Team.thread_modThread_has hh]
    exact Thread.getP_setP _ hn _
  · have hsame : (s.pendTag p).cls = 4 ∧ (s.pendTag p).grp = p.grp ∧ (s.pendTag p).lane = p.lane ∧ (s.pendTag p).no = p.no := by
      unfold State.pendTag
      split <;> exact ⟨hc, rfl, rfl, rfl⟩
    obtain ⟨h1, h2, h3, h4⟩ := hsame
    simp only [Team_writePend, h1, h2, h3, h4]
    rw [Team.thread_modThread_has hh]
    exact tabGet_tabSet_self

/-- A FENCE'S TOKEN has the latest covered time. -/
theorem fncTokenWrite_gives {s : State} {f : Fence} (hf : s.fences.find? (fun q => q.id = f.id) = some f) (hw : f.waits = []) :
    ∃ t, exec (.fncTokenWrite f.id) s = .next t ∧ t.mem = s.mem ∧ (∀ g ∈ t.fences, g.id ≠ f.id) ∧
      ∀ p ∈ t.pends, p.id = f.pend → p.vals = [some (BitVec.ofNat 32 (tokenOf f.y f.latest))] ∧ p.tok = some (tokenOf f.y f.latest) := by
  have he : exec (.fncTokenWrite f.id) s = .next { s with
      fences := s.fences.filter (fun x => decide (x.id ≠ f.id)),
      pends := mapIf s.pends (fun p => p.id = f.pend) fun p =>
        { p with vals := [some (w32 (tokenOf f.y f.latest))], tok := some (tokenOf f.y f.latest) } } := by
    show execFncTokenWrite f.id s = _
    unfold execFncTokenWrite
    simp only [hf]
    rw [if_pos hw]
  refine ⟨_, he, rfl, fun g hg => by simpa using (List.mem_filter.mp hg).2, fun p hp hid => ?_⟩
  obtain ⟨q, _, rfl⟩ := List.mem_map.mp hp
  have hq : q.id = f.pend := by
    by_contra hne
    rw [if_neg (by simpa using hne)] at hid
    exact hne hid
  rw [if_pos (decide_eq_true hq)]
  exact ⟨rfl, rfl⟩

/-- Settles O38: a result is written or joins the writes that land (`scoreboard_writes`, `scoreboard_joins`); of a cycle's writes each
reaches its register (`foldl_reaches`). -/
theorem resultsWritten : Obligations.ResultsWritten := by
  refine ⟨fun s p tm hf hr ht ha hab => ?_, fun s team x hx hd ht hu => ?_, fun s f hf hw => fncTokenWrite_gives hf hw⟩
  · by_cases hc : p.cls = 1 ∨ p.cls = 2
    · obtain ⟨t, he, hm, hne, hpipe⟩ := scoreboard_joins hf hr ht ha hc
      refine ⟨t, he, hm, hne, fun h => by omega, fun _ k w hk => ?_, fun h => by omega, fun h => by omega⟩
      obtain ⟨x, hx, hrest⟩ := mem_Pend_pipe (t := tm) (now := s.cycle tm.core) hk
      exact ⟨x, hpipe ▸ List.mem_append_right _ hx, hrest⟩
    · obtain ⟨t, b, he, hm, hne, hb, hcalm⟩ := scoreboard_writes hf hr ht ha hab (not_or.mp hc)
      have hth : (t.team p.team).thread p.grp p.lane = (Team_writePend tm (s.pendTag p)).thread p.grp p.lane := by
        rw [State.team_of_some hb, hcalm.thread]
      refine ⟨t, he, hm, hne, fun h0 hst hv => ?_, fun h => absurd h hc, fun h3 hst hn => ?_, fun h4 hp hst => ?_⟩
      · rw [hth]
        exact (Team_writePend_thread hst).1 h0 hv
      · rw [hth]
        exact (Team_writePend_thread hst).2.1 h3 hn
      · rw [hth, (Team_writePend_thread hst).2.2 h4]
        have hw := State.pendTag_words (s := s) h4 hp
        rw [State.team_of_some ht] at hw
        exact fun _ => hw
  · obtain ⟨h1, h2, h3, h4⟩ := State.landDue_lands hx hd ht hu
    exact ⟨h1, h2, fun hc n hw hn hnl hg hm => h3 hc n hw hn hnl ⟨hg, hm⟩, h4⟩

end Sys2Proof.Machine
end

section
namespace Sys2Proof.Machine

/-! ### Reading what the device wrote in plain (R75, R320), whether or not sectors are sealed -/

theorem State.length_viewSector_none (s : State) (sec : Nat) : (s.viewSector none sec).length = 32 := by
  have h : (s.viewSector none sec) = memBytes s.mem (32 * sec) 32 ∨
      ∃ x, s.viewSector none sec = unpackSector x := by
    unfold State.viewSector
    simp only [State.sealKey]
    split
    · exact .inl rfl
    · split
      · exact .inl rfl
      · exact .inr ⟨_, rfl⟩
  rcases h with h | ⟨x, h⟩
  · rw [h, length_memBytes]
  · rw [h, unpackSector, length_leBytes]

/-- A sector without a tag reads as memory has it. -/
theorem State.viewSector_plain {s : State} {sec : Nat} (h : tabGet s.seals sec (0, 0) = (0, 0)) :
    s.viewSector none sec = memBytes s.mem (32 * sec) 32 := by
  simp [State.viewSector, State.sealKey, h]

theorem memBytes_append (m : List Host.Cell) (a n k : Nat) : memBytes m a n ++ memBytes m (a + n) k = memBytes m a (n + k) := by
  induction n generalizing a with
  | zero => simp [memBytes]
  | succ n ih => rw [memBytes, List.cons_append, show a + (n + 1) = a + 1 + n by omega, ih, show n + 1 + k = n + k + 1 by omega, memBytes]

theorem memBytes_sectors (m : List Host.Cell) (q k : Nat) :
    (((List.range k).map fun i => q + i).flatMap fun sec => memBytes m (32 * sec) 32) = memBytes m (32 * q) (32 * k) := by
  induction k with
  | zero => rfl
  | succ k ih =>
    rw [List.range_succ, List.map_append, List.flatMap_append, ih]
    simp only [List.map_cons, List.map_nil, List.flatMap_cons, List.flatMap_nil, List.append_nil]
    rw [Nat.mul_add, memBytes_append, Nat.mul_succ]

/-- Where no sector of a range has a tag, it reads as memory has it. -/
theorem State.phys_untagged {s : State} {pa n : Nat} (h : ∀ sec ∈ sectorsOf pa n, tabGet s.seals sec (0, 0) = (0, 0)) :
    s.phys none pa n = memBytes s.mem pa n := by
  by_cases hs : s.seals = []
  · exact State.phys_plain hs rfl pa n
  · have he : s.phys none pa n = (((sectorsOf pa n).flatMap fun sec => s.viewSector none sec).drop (pa % 32)).take n := by
      simp [State.phys, hs]
    have hv : ((sectorsOf pa n).flatMap fun sec => s.viewSector none sec) = (sectorsOf pa n).flatMap fun sec => memBytes s.mem (32 * sec) 32 :=
      List.flatMap_congr fun sec hsec => State.viewSector_plain (h sec hsec)
    rw [he, hv, sectorsOf, memBytes_sectors, memBytes_part _ (by omega), Nat.div_add_mod]

theorem mem_sectorsOf {pa n x : Nat} (h : pa ≤ x) (hx : x < pa + n) : x / 32 ∈ sectorsOf pa n :=
  List.mem_map.mpr ⟨x / 32 - pa / 32, List.mem_range.mpr (by omega), by omega⟩

theorem State.putSector_byte {s : State} (hm : s.MemOk) (sec pa : Nat) (bs : List Byte) (x : Nat) :
    memByte (s.putSector none sec pa bs).mem x = if x / 32 = sec then
      (if pa ≤ x ∧ x < pa + bs.length then bs.getD (x - pa) 0 else (s.viewSector none sec).getD (x - 32 * sec) 0) else memByte s.mem x := by
  have hlen : (overlay (s.viewSector none sec) (32 * sec) pa bs).length = 32 := by
    simp [overlay, State.length_viewSector_none]
  have he : (s.putSector none sec pa bs).mem = memWrite s.mem (32 * sec) (overlay (s.viewSector none sec) (32 * sec) pa bs) := rfl
  rw [he, memByte_write hm, hlen]
  by_cases hx : x / 32 = sec
  · rw [if_pos hx, if_pos (by omega), overlay, State.length_viewSector_none, List.getD_eq_getElem?_getD, List.getElem?_map,
      List.getElem?_range (by omega)]
    simp only [Option.map_some, Option.getD_some, show 32 * sec + (x - 32 * sec) = x by omega, Bool.and_eq_true, decide_eq_true_eq]
  · rw [if_neg hx, if_neg (by omega)]

theorem State.putSector_seals (s : State) (sec pa : Nat) (bs : List Byte) :
    (s.putSector none sec pa bs).seals = tabDel s.seals sec := by
  simp [State.putSector, State.sealKey, tabSet]

/-- A write in plain leaves no tag on a sector it touches. -/
theorem foldl_putSector_seals {l : List Nat} {sec : Nat} (hsec : sec ∈ l) {s : State} (hr : tabRises s.seals) (pa : Nat) (bs : List Byte) :
    tabGet (l.foldl (fun (t : State) x => t.putSector none x pa bs) s).seals sec (0, 0) = (0, 0) := by
  refine foldl_reaches (fun t : State => tabRises t.seals) (fun t => tabGet t.seals sec (0, 0) = (0, 0)) hsec
    (fun t x _ h => ?_) (fun t _ => ?_) (fun t x _ h hs => ?_) hr
  · rw [State.putSector_seals]; exact tabRises_tabDel h
  · rw [State.putSector_seals]; exact tabGet_tabDel_self
  · rw [State.putSector_seals]
    by_cases hx : sec = x
    · rw [hx]; exact tabGet_tabDel_self
    · rw [tabGet_tabDel_ne hx h]; exact hs

theorem foldl_putSector_byte {l : List Nat} {pa x : Nat} {bs : List Byte} (hl : x / 32 ∈ l) {s : State} (hm : s.MemOk) (h : pa ≤ x)
    (hx : x < pa + bs.length) : memByte (l.foldl (fun (t : State) y => t.putSector none y pa bs) s).mem x = bs.getD (x - pa) 0 := by
  refine foldl_reaches State.MemOk (fun t => memByte t.mem x = bs.getD (x - pa) 0) hl (fun t y _ ht => ht.putSector none y pa bs)
    (fun t ht => ?_) (fun t y _ ht hb => ?_) hm
  · rw [State.putSector_byte ht, if_pos rfl, if_pos ⟨h, hx⟩]
  · rw [State.putSector_byte ht]
    split
    · rw [if_pos ⟨h, hx⟩]
    · exact hb

/-- What is written in plain reads back in plain. -/
theorem State.phys_setPhys_none {s : State} (hm : s.MemOk) (hr : tabRises s.seals) (pa : Nat) (bs : List Byte) :
    (s.setPhys none pa bs).phys none pa bs.length = bs := by
  by_cases hs : s.seals = []
  · exact State.phys_setPhys hm hs rfl pa bs
  · have he : s.setPhys none pa bs = (sectorsOf pa bs.length).foldl (fun (t : State) sec => t.putSector none sec pa bs) s := by
      simp [State.setPhys, hs]
    rw [he, State.phys_untagged fun sec hsec => foldl_putSector_seals hsec hr pa bs]
    refine List.ext_getElem? fun j => ?_
    rw [getElem?_memBytes]
    by_cases hj : j < bs.length
    · rw [if_pos hj, foldl_putSector_byte (mem_sectorsOf (by omega) (by omega)) hm (by omega) (by omega), Nat.add_sub_cancel_left,
        List.getD_eq_getElem?_getD, List.getElem?_eq_getElem hj, Option.getD_some]
    · rw [if_neg hj, List.getElem?_eq_none (by omega)]

end Sys2Proof.Machine
end

section
namespace Sys2Proof.Machine

/-! ### Teams of a launch as they are placed (R8, R30, R35, R247) -/

/-- The table of a launch's argument words. -/
def argTable (args : List Word) : Tab Word := (args.zipIdx).foldl (fun t x => tabSet t x.2 x.1 0) []

theorem tabGet_argTable {args : List Word} {i : Nat} {a : Word} (h : args[i]? = some a) : tabGet (argTable args) i 0 = a := by
  refine foldl_reaches (fun t : Tab Word => tabRises t) (fun t => tabGet t i 0 = a) (x := (a, i)) (List.mem_zipIdx_iff_getElem?.mpr h)
    (fun t x _ ht => tabRises_tabSet ht) (fun t _ => tabGet_tabSet_self) (fun t x hx ht hi => ?_) List.Pairwise.nil
  by_cases hxi : x.2 = i
  · have hx' : args[x.2]? = some x.1 := List.mem_zipIdx_iff_getElem?.mp hx
    rw [hxi, h] at hx'
    rw [hxi, ← Option.some.inj hx']
    exact tabGet_tabSet_self
  · rw [tabGet_tabSet_other (Ne.symm hxi) ht]; exact hi

theorem tabGet_argTable_beyond {args : List Word} {i : Nat} (h : args.length ≤ i) : tabGet (argTable args) i 0 = 0 := by
  have hkeep : ∀ (l : List (Word × Nat)) (t : Tab Word), (∀ x ∈ l, x.2 < i) → tabRises t → tabGet t i 0 = 0 →
      tabGet (l.foldl (fun t x => tabSet t x.2 x.1 0) t) i 0 = 0 := by
    intro l
    induction l with
    | nil => exact fun t _ _ h => h
    | cons x r ih =>
      intro t hl ht hi
      have hne : i ≠ x.2 := Nat.ne_of_gt (hl x List.mem_cons_self)
      exact ih _ (fun y hy => hl y (List.mem_cons_of_mem x hy)) (tabRises_tabSet ht) ((tabGet_tabSet_other hne ht).trans hi)
  refine hkeep _ _ (fun x hx => ?_) List.Pairwise.nil rfl
  have hlt : x.2 < args.length := (List.getElem?_eq_some_iff.mp (List.mem_zipIdx_iff_getElem?.mp hx)).1
  omega

/-- The 16 argument words, and zero after them. -/
theorem argTable_holds {args : List Word} (h : args.length = 16) :
    (∀ i < 16, args[i]? = some (tabGet (argTable args) i 0)) ∧ ∀ i, 16 ≤ i → tabGet (argTable args) i 0 = 0 := by
  refine ⟨fun i hi => ?_, fun i hi => tabGet_argTable_beyond (h.trans_le hi)⟩
  have hg : args[i]? = some args[i] := List.getElem?_eq_getElem (by omega)
  rw [hg, tabGet_argTable hg]

theorem newTeam_groups {l : Launch} {id num core slot : Nat} {g : Group} (hg : g ∈ (newTeam l id num core slot).groups) :
    g.g = argTable l.r.args ∧ g.threads.length = 32 ∧
      ∀ th ∈ g.threads, th.st = .run ∧ th.pc = l.r.hdr + BitVec.ofNat 64 l.hdr.groupoff ∧ th.level = l.level := by
  obtain ⟨k, -, rfl⟩ := List.mem_map.mp hg
  refine ⟨rfl, List.length_replicate, fun th hth => ?_⟩
  rw [List.eq_of_mem_replicate hth]
  exact ⟨rfl, rfl, rfl⟩

theorem newTeam_length (l : Launch) (id num core slot : Nat) : (newTeam l id num core slot).groups.length = l.r.g := by
  simp [newTeam]

theorem newTeam_lead_isSome (l : Launch) (id num core slot : Nat) : (newTeam l id num core slot).lead.isSome = l.r.lead := by
  cases h : l.r.lead <;> simp [newTeam, h]

theorem newTeam_lead {l : Launch} {id num core slot : Nat} {g : Group} (hg : (newTeam l id num core slot).lead = some g) :
    ∃ th : Thread, g.threads = [th] ∧ th.v = argTable l.r.args := by
  cases h : l.r.lead with
  | false => simp [newTeam, h] at hg
  | true =>
    simp only [newTeam, h, if_true, Option.some.injEq] at hg
    subst hg
    exact ⟨_, rfl, rfl⟩

/-! ### What a decision can do (R250, R251) -/

/-- The teams of a state are those of another, maybe elsewhere, and new ones of its launches, numbered from its next number. -/
structure NewTeams (s t : State) : Prop where
  next : s.nextTeam ≤ t.nextTeam
  teams : ∀ x ∈ t.teams, (∃ y ∈ s.teams, y.id = x.id) ∨ ∃ l ∈ s.launches, ∃ id num core slot, x = newTeam l id num core slot

theorem NewTeams.refl (s : State) : NewTeams s s := ⟨le_refl _, fun x hx => .inl ⟨x, hx, rfl⟩⟩

theorem NewTeams.placeTeam {s t : State} {l : Launch} (h : NewTeams s t) (hl : l ∈ s.launches) (core slot : Nat) :
    NewTeams s (t.placeTeam l core slot) := by
  refine ⟨h.next.trans (Nat.le_succ _), fun x hx => ?_⟩
  have hx' : x ∈ t.teams ++ [newTeam l t.nextTeam (t.launch l.id).placed core slot] := hx
  rcases List.mem_append.mp hx' with hx | hx
  · exact h.teams x hx
  · exact .inr ⟨l, hl, _, _, _, _, List.mem_singleton.mp hx⟩

theorem State.tryPlace_some {s t : State} {cs : List Nat} {l : Launch} (h : s.tryPlace cs l = some t) :
    ∃ places : List (Nat × Nat), t = places.foldl (fun (s : State) x => s.placeTeam l x.1 x.2) s := by
  unfold State.tryPlace at h
  simp only at h
  split at h
  · cases h
  · split at h
    · cases h
    · exact ⟨_, (Option.some.inj h).symm⟩

theorem NewTeams.tryPlace {s t : State} {cs : List Nat} {l : Launch} (hl : l ∈ s.launches) (h : s.tryPlace cs l = some t) :
    NewTeams s t := by
  obtain ⟨places, rfl⟩ := State.tryPlace_some h
  exact foldl_keeps (NewTeams s) (fun (u : State) (x : Nat × Nat) => u.placeTeam l x.1 x.2) (fun u x hu => hu.placeTeam hl x.1 x.2)
    places s (.refl s)

/-- A team on its way back to a core (R252). -/
def Team_sent (c : Nat) (t : Team) : Team := { t with place := .restoring, core := c }

theorem State.tryRestore_eq (s : State) (cs : List Nat) (t : Team) :
    s.tryRestore cs t = (s.pickCore cs (s.hdrOf t) (s.launchOf t).r.g).map fun c => s.modTeam t.id (Team_sent c) := rfl

theorem NewTeams.tryRestore {s t : State} {cs : List Nat} {x : Team} (h : s.tryRestore cs x = some t) : NewTeams s t := by
  rw [State.tryRestore_eq] at h
  obtain ⟨c, -, rfl⟩ := Option.map_eq_some_iff.mp h
  refine ⟨le_refl _, fun y hy => .inl ?_⟩
  obtain ⟨z, hz, rfl⟩ := List.mem_map.mp hy
  refine ⟨z, hz, ?_⟩
  split <;> rfl

theorem mem_headsOf {s : State} {w : Nat} {l : Launch} (h : l ∈ s.headsOf w) : l ∈ s.launches := by
  unfold State.headsOf at h
  rw [mem_sortBy, mem_sortBy, mem_sortBy] at h
  exact (List.mem_filter.mp h).1

theorem NewTeams.decideFor {s t : State} {w : Nat} (h : s.decideFor w = some t) : NewTeams s t := by
  unfold State.decideFor at h
  split at h
  · cases h
  · simp only at h
    split at h
    · rename_i r hr
      obtain ⟨x, -, hx⟩ := List.exists_of_findSome?_eq_some hr
      cases h
      exact .tryRestore hx
    · obtain ⟨l, hl, hx⟩ := List.exists_of_findSome?_eq_some h
      exact .tryPlace (mem_headsOf hl) hx

/-- The turn of the round robin says nothing of teams. -/
def State.turned (s : State) (next left : Nat) : State := { s with rrNext := next, rrLeft := left }

theorem State.decideFrom_cases (s : State) (w left n : Nat) :
    ∃ next rest, s.decideFrom w left n = s.turned next rest ∨ ∃ v r, s.decideFor v = some r ∧ s.decideFrom w left n = r.turned next rest := by
  induction n generalizing w left with
  | zero => exact ⟨0, 0, .inl rfl⟩
  | succ n ih =>
    unfold State.decideFrom
    split
    · exact ih _ _
    · rename_i r hr
      exact ⟨_, _, .inr ⟨w, r, hr, rfl⟩⟩

theorem NewTeams.turned {s t : State} (h : NewTeams s t) (next left : Nat) : NewTeams s (t.turned next left) := ⟨h.next, h.teams⟩

theorem NewTeams.dispatch (s : State) : ∃ t, exec .dispatchDecision s = .next t ∧ NewTeams s t := by
  show ∃ t, execDispatchDecision s = .next t ∧ _
  unfold execDispatchDecision
  split
  · obtain ⟨next, rest, h | ⟨v, r, hr, h⟩⟩ := s.decideFrom_cases s.rrNext s.rrLeft 65
    · exact ⟨_, rfl, h ▸ (NewTeams.refl s).turned next rest⟩
    · exact ⟨_, rfl, h ▸ (NewTeams.decideFor hr).turned next rest⟩
  · exact ⟨s, rfl, .refl s⟩

/-- Settles O54: a team that a decision has added is a `newTeam` of a launch (`NewTeams.dispatch`), whose registers are its
`argTable`. -/
theorem argumentsArrive : Obligations.ArgumentsArrive := by
  intro s hids
  obtain ⟨t, he, hnew⟩ := NewTeams.dispatch s
  refine ⟨t, he, fun x hx hid => ?_⟩
  rcases hnew.teams x hx with ⟨y, hy, hyx⟩ | ⟨l, hl, id, num, core, slot, rfl⟩
  · have := hids y hy
    omega
  · refine ⟨l, hl, rfl, newTeam_length l id num core slot, newTeam_lead_isSome l id num core slot, fun hargs => ⟨fun g hg => ?_, fun g hg => ?_⟩⟩
    · simp only [Group.getG, (newTeam_groups hg).1]
      exact argTable_holds hargs
    · obtain ⟨th, hths, hv⟩ := newTeam_lead hg
      rw [hths]
      refine ⟨rfl, fun th' hth' => ?_⟩
      simp only [List.mem_singleton.mp hth', Thread.getV, hv]
      exact argTable_holds hargs

end Sys2Proof.Machine
end

section
namespace Sys2Proof.Machine

/-! ### The turn (R250) -/

/-- The first function in turn that can be given something is given it. -/
theorem State.decideFrom_reaches {s r : State} {w : Nat} (hr : s.decideFor w = some r) : ∀ {i n from_ left : Nat}, i < n → from_ < 65 →
    w = (from_ + i) % 65 → (∀ j < i, s.decideFor ((from_ + j) % 65) = none) → ∃ next rest, s.decideFrom from_ left n = r.turned next rest := by
  intro i
  induction i with
  | zero =>
    intro n from_ left hn hf hw _
    obtain ⟨m, rfl⟩ : ∃ m, n = m + 1 := ⟨n - 1, by omega⟩
    rw [Nat.add_zero, Nat.mod_eq_of_lt hf] at hw
    subst hw
    unfold State.decideFrom
    rw [hr]
    exact ⟨_, _, rfl⟩
  | succ i ih =>
    intro n from_ left hn hf hw hnone
    obtain ⟨m, rfl⟩ : ∃ m, n = m + 1 := ⟨n - 1, by omega⟩
    have h0 : s.decideFor from_ = none := by
      have := hnone 0 (by omega)
      rwa [Nat.add_zero, Nat.mod_eq_of_lt hf] at this
    unfold State.decideFrom
    rw [h0]
    refine ih (by omega) (Nat.mod_lt _ (by omega)) (by omega) fun j hj => ?_
    rw [show ((from_ + 1) % 65 + j) % 65 = (from_ + (j + 1)) % 65 by omega]
    exact hnone (j + 1) (by omega)

/-- The decision falls on the first function that can be given something. -/
theorem dispatchDecision_gives {s r : State} {w : Nat} (hrdy : s.rdy = true) (hn : s.rrNext < 65) (hb : NoneBefore s s.rrNext w)
    (hr : s.decideFor w = some r) : ∃ next rest, exec .dispatchDecision s = .next (r.turned next rest) := by
  obtain ⟨i, hi, hw, hnone⟩ := hb
  obtain ⟨next, rest, he⟩ := State.decideFrom_reaches hr (left := s.rrLeft) hi hn hw hnone
  refine ⟨next, rest, ?_⟩
  show execDispatchDecision s = _
  rw [execDispatchDecision, if_pos hrdy, he]

theorem State.decideFor_restores {s r : State} {w : Nat} (h : MayPlace s w)
    (hr : (s.savedOf w).findSome? (s.tryRestore (s.coreSet w)) = some r) : s.decideFor w = some r := by
  simp [State.decideFor, h.holds, h.tdi, h.mig, hr]

theorem State.decideFor_places {s r : State} {w : Nat} (h : MayPlace s w) (hn : (s.savedOf w).findSome? (s.tryRestore (s.coreSet w)) = none)
    (hr : (s.headsOf w).findSome? (s.tryPlace (s.coreSet w)) = some r) : s.decideFor w = some r := by
  simp [State.decideFor, h.holds, h.tdi, h.mig, hn, hr]

/-! ### The core of a team (R247) -/

/-- One of two cores: the one with more free group places, the first of equals. -/
def State.better (s : State) (b : Option Nat) (c : Nat) : Option Nat :=
  match b with
  | none => some c
  | some x => if s.freePlaces c > s.freePlaces x then some c else some x

theorem State.pickCore_eq (s : State) (cs : List Nat) (h : Header) (g : Nat) :
    s.pickCore cs h g = (cs.filter fun c => s.roomFor c h g).foldl s.better none := rfl

/-- Of a rising list the fold finds the core that is better than all before it and no worse than any after it. -/
theorem State.foldl_better {s : State} {l : List Nat} {c : Nat} (hl : l.Pairwise (· < ·)) (hc : c ∈ l)
    (hbest : ∀ d ∈ l, s.freePlaces d < s.freePlaces c ∨ (s.freePlaces d = s.freePlaces c ∧ c ≤ d)) : l.foldl s.better none = some c := by
  obtain ⟨a, b, rfl⟩ := List.append_of_mem hc
  have hbefore : ∀ d ∈ a, s.freePlaces d < s.freePlaces c := fun d hd => by
    have hlt : d < c := (List.pairwise_append.mp hl).2.2 d hd c List.mem_cons_self
    rcases hbest d (List.mem_append_left _ hd) with h | ⟨-, h⟩
    · exact h
    · omega
  have hworse : ∀ x, a.foldl s.better none = some x → s.freePlaces x < s.freePlaces c := by
    refine List.foldlRecOn (motive := fun b => ∀ x, b = some x → s.freePlaces x < s.freePlaces c) a s.better (fun x hx => nomatch hx)
      fun b hb d hd x hx => ?_
    unfold State.better at hx
    split at hx
    · cases hx; exact hbefore _ hd
    · split at hx
      · cases hx; exact hbefore _ hd
      · cases hx; exact hb _ rfl
  have hat : s.better (a.foldl s.better none) c = some c := by
    unfold State.better
    split
    · rfl
    · rename_i x hx
      rw [if_pos (hworse x hx)]
  rw [List.foldl_append, List.foldl_cons, hat]
  refine List.foldlRecOn (motive := fun b => b = some c) b s.better rfl fun x hx d hd => ?_
  rw [hx]
  have hle := hbest d (List.mem_append_right _ (List.mem_cons_of_mem c hd))
  exact if_neg (by omega)

theorem State.coreSet_rises (s : State) (w : Nat) : (s.coreSet w).Pairwise (· < ·) := List.pairwise_lt_range.sublist List.filter_sublist

theorem State.pickCore_best {s : State} {w g c : Nat} {h : Header} (hb : BestCore s w h g c) : s.pickCore (s.coreSet w) h g = some c := by
  obtain ⟨hc, hroom, hbest⟩ := hb
  rw [State.pickCore_eq]
  exact State.foldl_better ((s.coreSet_rises w).sublist List.filter_sublist) (List.mem_filter.mpr ⟨hc, hroom⟩)
    fun d hd => hbest d (List.mem_filter.mp hd).1 (List.mem_filter.mp hd).2

theorem State.pickCore_none {s : State} {cs : List Nat} {h : Header} {g : Nat} (hn : ∀ c ∈ cs, s.roomFor c h g = false) :
    s.pickCore cs h g = none := by
  rw [State.pickCore_eq, List.filter_eq_nil_iff.mpr fun c hc => by simp [hn c hc]]
  rfl

theorem State.tryRestore_none {s : State} {cs : List Nat} {t : Team}
    (h : cs.any (fun d => s.roomFor d (s.hdrOf t) (s.launchOf t).r.g) = false) : s.tryRestore cs t = none := by
  have hno : ∀ c ∈ cs, s.roomFor c (s.hdrOf t) (s.launchOf t).r.g = false := fun c hc =>
    Bool.eq_false_iff.mpr (List.any_eq_false.mp h c hc)
  rw [State.tryRestore_eq, State.pickCore_none hno, Option.map_none]

/-- What is found first and gives something, where nothing that is not looked for does, is the first that gives something. -/
theorem findSome?_of_find? {α β : Type} {l : List α} {p : α → Bool} {f : α → Option β} {x : α} {b : β} (hf : l.find? p = some x)
    (hn : ∀ y, p y = false → f y = none) (hx : f x = some b) : l.findSome? f = some b := by
  induction l with
  | nil => cases hf
  | cons y r ih =>
    cases hy : p y with
    | true =>
      rw [List.find?_cons_of_pos hy] at hf
      cases hf
      exact List.findSome?_cons_of_isSome (by rw [hx]; rfl) |>.trans hx
    | false =>
      rw [List.find?_cons_of_neg (by simp [hy])] at hf
      rw [List.findSome?_cons, hn y hy]
      exact ih hf

/-- The oldest saved team that some core has room for goes to the best core. -/
theorem dispatch_restores {s : State} {w c : Nat} {tm : Team} (hrdy : s.rdy = true) (hn : s.rrNext < 65) (hb : NoneBefore s s.rrNext w)
    (hm : MayPlace s w) (hid : s.team? tm.id = some tm)
    (hf : (s.savedOf w).find? (fun y => (s.coreSet w).any fun d => s.roomFor d (s.hdrOf y) (s.launchOf y).r.g) = some tm)
    (hbest : BestCore s w (s.hdrOf tm) (s.launchOf tm).r.g c) :
    ∃ t, exec .dispatchDecision s = .next t ∧ t.mem = s.mem ∧ (t.team tm.id).place = .restoring ∧ (t.team tm.id).core = c := by
  have hr : s.tryRestore (s.coreSet w) tm = some (s.modTeam tm.id (Team_sent c)) := by
    rw [State.tryRestore_eq, State.pickCore_best hbest, Option.map_some]
  obtain ⟨next, rest, he⟩ := dispatchDecision_gives hrdy hn hb
    (State.decideFor_restores hm (findSome?_of_find? hf (fun y hy => State.tryRestore_none hy) hr))
  have hteam : ((s.modTeam tm.id (Team_sent c)).turned next rest).team tm.id = Team_sent c (s.team tm.id) :=
    State.team_modTeam s tm.id (Team_sent c) (fun _ => rfl) (by rw [hid]; rfl)
  exact ⟨_, he, rfl, by rw [hteam]; rfl, by rw [hteam]; rfl⟩

/-! ### Teams that are placed (R243, R247) -/

/-- A launch with one more team placed. -/
def Launch_placedOne (x : Launch) : Launch :=
  { x with placed := x.placed + 1, stage := if x.placed + 1 = x.r.teams then .running else x.stage }

theorem Launch_placedOne_id (x : Launch) : (Launch_placedOne x).id = x.id := rfl

theorem State.placeTeam_launch (s : State) (l : Launch) (core slot : Nat) :
    (s.placeTeam l core slot).launch? l.id = (s.launch? l.id).map Launch_placedOne :=
  State.launchOpt_modLaunch s l.id Launch_placedOne Launch_placedOne_id

theorem State.placeTeam_held (s : State) (l : Launch) (core slot : Nat) :
    ((s.placeTeam l core slot).queue l.q).held = (s.queue l.q).held ++ [slot] :=
  congrArg Queue.held (tabGet_tabSet_self (t := s.queues) (k := l.q) (x := { s.queue l.q with held := (s.queue l.q).held ++ [slot] }) (d := {}))

theorem State.placeTeam_teams (s : State) (l : Launch) (core slot : Nat) :
    (s.placeTeam l core slot).teams = s.teams ++ [newTeam l s.nextTeam (s.launch l.id).placed core slot] := rfl

/-- Teams of a launch stand placed, numbered from `n`, at their cores and in their slots. -/
structure PlacedAll (l : Launch) (n : Nat) (places : List (Nat × Nat)) (s t : State) : Prop where
  mem : t.mem = s.mem
  launch : ∃ m, t.launch? l.id = some m ∧ m.placed = n + places.length
  old : ∀ x ∈ s.teams, x ∈ t.teams
  oldHeld : ∀ k ∈ (s.queue l.q).held, k ∈ (t.queue l.q).held
  new : ∀ (k : Nat) (p : Nat × Nat), places[k]? = some p → (∃ id, newTeam l id (n + k) p.1 p.2 ∈ t.teams) ∧ p.2 ∈ (t.queue l.q).held

theorem State.foldl_placeTeam (l : Launch) : ∀ (places : List (Nat × Nat)) (s : State) (m : Launch), s.launch? l.id = some m →
    PlacedAll l m.placed places s (places.foldl (fun (s : State) x => s.placeTeam l x.1 x.2) s) := by
  intro places
  induction places with
  | nil => exact fun s m hm => ⟨rfl, ⟨m, hm, rfl⟩, fun _ h => h, fun _ h => h, fun k p h => nomatch h⟩
  | cons p r ih =>
    intro s m hm
    have hl : (s.placeTeam l p.1 p.2).launch? l.id = some (Launch_placedOne m) := by
      rw [State.placeTeam_launch, hm]; rfl
    have hnum : (s.launch l.id).placed = m.placed := by rw [State.launch, hm]; rfl
    have hrest := ih (s.placeTeam l p.1 p.2) _ hl
    have hteams := State.placeTeam_teams s l p.1 p.2
    have hheld := State.placeTeam_held s l p.1 p.2
    obtain ⟨m', hm', hp⟩ := hrest.launch
    refine ⟨hrest.mem, ⟨m', hm', ?_⟩, fun x hx => hrest.old x ?_, fun k hk => hrest.oldHeld k ?_, fun k q hk => ?_⟩
    · rw [hp, List.length_cons]
      show m.placed + 1 + r.length = _
      omega
    · rw [hteams]; exact List.mem_append_left _ hx
    · rw [hheld]; exact List.mem_append_left _ hk
    · cases k with
      | zero =>
        cases hk
        refine ⟨⟨s.nextTeam, hrest.old _ ?_⟩, hrest.oldHeld _ ?_⟩
        · rw [hteams, hnum]; exact List.mem_append_right _ (List.mem_singleton_self _)
        · rw [hheld]; exact List.mem_append_right _ (List.mem_singleton_self _)
      | succ k =>
        have := hrest.new k q hk
        rwa [show (Launch_placedOne m).placed + k = m.placed + (k + 1) from Nat.add_right_comm m.placed 1 k] at this

theorem PlacedTeam.newTeam (l : Launch) (id num core slot : Nat) : PlacedTeam (newTeam l id num core slot) l num core slot where
  at_ := ⟨rfl, rfl, rfl, rfl, rfl⟩
  groups := ⟨newTeam_length l id num core slot, fun _ hg => (newTeam_groups hg).2⟩
  lead := newTeam_lead_isSome l id num core slot
  args := fun i a _ ha g hg => by rw [Group.getG, (newTeam_groups hg).1]; exact tabGet_argTable ha

theorem State.pickCluster_cores {s : State} {w g c : Nat} {h : Header} {cores : List Nat} (hc : ClusterCores s w h g c cores) :
    s.pickCluster (s.coreSet w) h g c = some cores ∧ cores.length = c := by
  obtain ⟨k, hk, hlen, rfl, hlow⟩ := hc
  have hfind : (List.range 32).find? (fun k => decide (((s.coreSet w).filter fun x => decide (x / 8 = k) && s.roomFor x h g).length ≥ c)) =
      some k := by
    rw [List.find?_range_eq_some]
    exact ⟨decide_eq_true hlen, List.mem_range.mpr hk, fun j hj => by simpa using hlow j hj⟩
  refine ⟨?_, List.length_take_of_le hlen⟩
  unfold State.pickCluster
  dsimp only
  rw [hfind]
  rfl

theorem State.tryPlace_cores {s : State} {w : Nat} {l : Launch} {cores : List Nat} (hs : l.r.c ≤ (freeSlots (s.queue l.q) l.r.c).length)
    (hc : (l.r.c = 1 ∧ ∃ c, cores = [c] ∧ BestCore s w l.hdr l.r.g c) ∨ (1 < l.r.c ∧ ClusterCores s w l.hdr l.r.g l.r.c cores)) :
    cores.length = l.r.c ∧ s.tryPlace (s.coreSet w) l =
      some ((cores.zip (freeSlots (s.queue l.q) l.r.c)).foldl (fun (s : State) x => s.placeTeam l x.1 x.2) s) := by
  have hpick : cores.length = l.r.c ∧ (if l.r.c = 1 then (s.pickCore (s.coreSet w) l.hdr l.r.g).map fun c => [c]
      else s.pickCluster (s.coreSet w) l.hdr l.r.g l.r.c) = some cores := by
    rcases hc with ⟨h1, c, rfl, hb⟩ | ⟨h1, hcl⟩
    · rw [if_pos h1, State.pickCore_best hb]
      exact ⟨h1.symm, rfl⟩
    · rw [if_neg (by omega)]
      exact ⟨(State.pickCluster_cores hcl).2, (State.pickCluster_cores hcl).1⟩
  refine ⟨hpick.1, ?_⟩
  unfold State.tryPlace
  simp only [hpick.2]
  rw [if_neg (by omega)]

/-- Where no saved team can go back, the first head record is given its places. -/
theorem dispatch_places {s : State} {w : Nat} {l : Launch} {cores : List Nat} (hrdy : s.rdy = true) (hn : s.rrNext < 65)
    (hb : NoneBefore s s.rrNext w) (hm : MayPlace s w) (hl : s.launch? l.id = some l)
    (hno : ((s.savedOf w).all fun y => (s.coreSet w).all fun d => !s.roomFor d (s.hdrOf y) (s.launchOf y).r.g) = true)
    (hh : (s.headsOf w).head? = some l) (hs : l.r.c ≤ (freeSlots (s.queue l.q) l.r.c).length)
    (hc : (l.r.c = 1 ∧ ∃ c, cores = [c] ∧ BestCore s w l.hdr l.r.g c) ∨ (1 < l.r.c ∧ ClusterCores s w l.hdr l.r.g l.r.c cores)) :
    ∃ t, exec .dispatchDecision s = .next t ∧ t.mem = s.mem ∧ (∀ m, t.launch? l.id = some m → m.placed = l.placed + l.r.c) ∧
      ∀ k c slot, cores[k]? = some c → (freeSlots (s.queue l.q) l.r.c)[k]? = some slot →
        ∃ x ∈ t.teams, PlacedTeam x l (l.placed + k) c slot ∧ slot ∈ (t.queue l.q).held := by
  obtain ⟨hlen, hplace⟩ := State.tryPlace_cores hs hc
  have hsaved : (s.savedOf w).findSome? (s.tryRestore (s.coreSet w)) = none := List.findSome?_eq_none_iff.mpr fun y hy => by
    refine State.tryRestore_none (List.any_eq_false.mpr fun d hd => ?_)
    simpa using List.all_eq_true.mp (List.all_eq_true.mp hno y hy) d hd
  obtain ⟨rest, hrest⟩ := List.head?_eq_some_iff.mp hh
  have hheads : (s.headsOf w).findSome? (s.tryPlace (s.coreSet w)) = s.tryPlace (s.coreSet w) l := by
    rw [hrest, List.findSome?_cons, hplace]
  obtain ⟨next, left, he⟩ := dispatchDecision_gives hrdy hn hb (State.decideFor_places hm hsaved (hheads.trans hplace))
  have hall := State.foldl_placeTeam l (cores.zip (freeSlots (s.queue l.q) l.r.c)) s l hl
  obtain ⟨m, hlm, hp⟩ := hall.launch
  refine ⟨_, he, hall.mem, fun m' hm' => ?_, fun k c slot hk hslot => ?_⟩
  · have hmm : some m = some m' := hlm.symm.trans hm'
    cases hmm
    rw [hp, List.length_zip, hlen, Nat.min_eq_left hs]
  · obtain ⟨⟨id, hx⟩, hheld⟩ := hall.new k (c, slot) (List.getElem?_zip_eq_some.mpr ⟨hk, hslot⟩)
    exact ⟨_, hx, .newTeam l id _ c slot, hheld⟩

/-! ### The holder of the shared cores (R252) -/

theorem State.beginSlice_keeps (s : State) : s.beginSlice.teams = s.teams ∧ s.beginSlice.mem = s.mem ∧ s.beginSlice.worlds = s.worlds ∧
    s.beginSlice.holder = s.holder ∧ (s.beginSlice.sliceEnd = s.sliceEnd ∨ s.beginSlice.sliceEnd = s.gtc + s.sliceNs s.holder) := by
  unfold State.beginSlice
  split
  · split
    · exact ⟨rfl, rfl, rfl, rfl, .inl rfl⟩
    · exact ⟨rfl, rfl, rfl, rfl, .inr rfl⟩
  · exact ⟨rfl, rfl, rfl, rfl, .inl rfl⟩

/-- A team with a request for pre-emption. -/
def Preempted (t : State) (x : Team) : Prop := ∃ y ∈ t.teams, y.id = x.id ∧ y.preempt = true

theorem State.evictTeams_preempts {s : State} {x : Team} (hx : x ∈ s.teams) (hp : x.place = .resident ∨ x.place = .admitting)
    (hm : s.misplaced x = true) : Preempted s.evictTeams x := by
  refine ⟨{ x with preempt := true }, List.mem_map.mpr ⟨x, hx, ?_⟩, rfl, rfl⟩
  rcases hp with hp | hp
  · simp only [hp, hm, if_true]
  · simp only [hp, hm, if_true]

/-- The state in which the shared cores have another holder. -/
def State.heldBy (s : State) (h old : Option Nat) : State := { s with holder := h, handing := old, sliceEnd := s.gtc + s.sliceNs h }

theorem State.handOver_eq (s : State) (h old : Option Nat) : s.handOver h old = (s.heldBy h old).evictTeams.beginSlice := rfl

theorem State.handOver_gives (s : State) (h old : Option Nat) : (s.handOver h old).mem = s.mem ∧ (s.handOver h old).worlds = s.worlds ∧
    (s.handOver h old).holder = h ∧ (s.handOver h old).sliceEnd = s.gtc + s.sliceNs h := by
  obtain ⟨-, hm, hw, hh, he⟩ := State.beginSlice_keeps (s.heldBy h old).evictTeams
  rw [State.handOver_eq]
  refine ⟨hm.trans rfl, hw.trans rfl, hh.trans rfl, ?_⟩
  rcases he with he | he
  · exact he.trans rfl
  · exact he.trans rfl

theorem State.handOver_preempts {s : State} {h old : Option Nat} {x : Team} (hx : x ∈ s.teams)
    (hp : x.place = .resident ∨ x.place = .admitting) (hm : (s.heldBy h old).misplaced x = true) : Preempted (s.handOver h old) x := by
  have he := State.evictTeams_preempts (s := s.heldBy h old) hx hp hm
  unfold Preempted at he ⊢
  rw [State.handOver_eq, (State.beginSlice_keeps _).1]
  exact he

/-- The wrapping order from the function after the holder on. -/
theorem find?_turns {h : Nat} {p : Nat → Bool} {w : Nat} (hw : ((List.range 65).map fun i => (h + 1 + i) % 65).find? p = some w) :
    ∃ i < 65, w = (h + 1 + i) % 65 ∧ p w = true ∧ ∀ j < i, p ((h + 1 + j) % 65) = false := by
  rw [List.find?_map, Option.map_eq_some_iff] at hw
  obtain ⟨i, hi, rfl⟩ := hw
  rw [List.find?_range_eq_some] at hi
  obtain ⟨hpi, hmem, hlow⟩ := hi
  exact ⟨i, List.mem_range.mp hmem, rfl, hpi, fun j hj => by simpa using hlow j hj⟩

theorem find?_turns_of {h i : Nat} {p : Nat → Bool} (hi : i < 65) (hp : p ((h + 1 + i) % 65) = true)
    (hlow : ∀ j < i, p ((h + 1 + j) % 65) = false) :
    ((List.range 65).map fun i => (h + 1 + i) % 65).find? p = some ((h + 1 + i) % 65) := by
  rw [List.find?_map, Option.map_eq_some_iff]
  refine ⟨i, ?_, rfl⟩
  rw [List.find?_range_eq_some]
  exact ⟨hp, List.mem_range.mpr hi, fun j hj => by simpa using hlow j hj⟩

/-- Another function with an all-zero mask has work. -/
def State.wants (s : State) (h w : Nat) : Bool := decide (w ≠ h) && s.maskless w && s.hasWork w

theorem State.wants_iff {s : State} {h w : Nat} : s.wants h w = true ↔ w ≠ h ∧ (s.world w).fcores = 0 ∧ s.hasWork w = true := by
  simp [State.wants, State.maskless, and_assoc]

theorem nextHolder_iff {s : State} {h w : Nat} (hs : s.holder = some h) (hh : h < 65) : NextHolder s h w ↔ s.nextFn (s.wants h) = some w := by
  have he : s.nextFn (s.wants h) = ((List.range 65).map fun i => (h + 1 + i) % 65).find? (s.wants h) := by
    rw [State.nextFn, hs]; rfl
  rw [he]
  constructor
  · rintro ⟨i, hi, rfl, hp, hlow⟩
    exact find?_turns_of (by omega) (State.wants_iff.mpr hp) fun j hj => Bool.eq_false_iff.mpr fun h => hlow j hj (State.wants_iff.mp h)
  · intro hf
    obtain ⟨i, hi, rfl, hp, hlow⟩ := find?_turns hf
    have hw := State.wants_iff.mp hp
    have hi64 : i ≠ 64 := fun h64 => hw.1 (by omega)
    exact ⟨i, by omega, rfl, hw, fun j hj h => by simpa [State.wants_iff.mpr h] using hlow j hj⟩

/-- What becomes of a slice that has ended: the next holder takes the shared cores, or the slice is renewed. -/
def State.sliceOver (s : State) (h : Nat) : State :=
  match s.nextFn (s.wants h) with
  | some w => s.handOver (some w) (some h)
  | none => { s with sliceEnd := s.sliceEnd + s.sliceNs (some h) }

theorem sliceEnd_eq {s : State} {h : Nat} (hrdy : s.rdy = true) (hs : s.holder = some h) (hhand : s.handing = none) (hend : s.sliceEnd ≤ s.gtc) :
    exec .sliceEnd s = .next (s.sliceOver h) := by
  have hb : s.beginSlice = s := by simp [State.beginSlice, hhand]
  have hno : ¬ (s.handing.isSome || !s.rdy || decide (s.gtc < s.sliceEnd)) = true := by
    simp [hhand, hrdy, hend]
  show execSliceEnd s = _
  unfold execSliceEnd State.sliceTurn
  rw [hb]
  dsimp only
  split
  · rename_i hn; cases hs.symm.trans hn
  · rename_i k hk
    cases hs.symm.trans hk
    rw [if_neg hno]
    rfl

theorem State.sliceOver_some {s : State} {h w : Nat} (hn : s.nextFn (s.wants h) = some w) : s.sliceOver h = s.handOver (some w) (some h) := by
  rw [State.sliceOver, hn]

theorem State.sliceOver_none {s : State} {h : Nat} (hn : s.nextFn (s.wants h) = none) :
    s.sliceOver h = { s with sliceEnd := s.sliceEnd + s.sliceNs (some h) } := by
  rw [State.sliceOver, hn]

/-- A team whose function holds the shared cores no more, or has them not in its set, stands where it may not. -/
theorem State.misplaced_of_holds {s : State} {x : Team} (h : s.holds (s.worldOf x) = false) : s.misplaced x = true := by
  simp [State.misplaced, h]

theorem State.misplaced_of_inSet {s : State} {x : Team} (h : s.inSet (s.worldOf x) x.core = false) : s.misplaced x = true := by
  simp [State.misplaced, h]

theorem sliceEnd_handsOver {s : State} {h w : Nat} (hrdy : s.rdy = true) (hs : s.holder = some h) (hh : h < 65) (hhand : s.handing = none)
    (hend : s.sliceEnd ≤ s.gtc) (hw : NextHolder s h w) :
    ∃ t, exec .sliceEnd s = .next t ∧ t.mem = s.mem ∧ t.holder = some w ∧ t.sliceEnd = s.gtc + 1000 * (s.world w).slice ∧
      ((s.world h).fcores = 0 → ∀ x ∈ s.teams, s.worldOf x = h → (x.place = .resident ∨ x.place = .admitting) → Preempted t x) := by
  have hnext := (nextHolder_iff hs hh).mp hw
  obtain ⟨-, -, -, ⟨hne, -, -⟩, -⟩ := hw
  obtain ⟨hm, -, hhold, hsl⟩ := State.handOver_gives s (some w) (some h)
  refine ⟨_, by rw [sliceEnd_eq hrdy hs hhand hend, State.sliceOver_some hnext], hm, hhold, hsl, fun hz x hx hxw hp => ?_⟩
  refine State.handOver_preempts hx hp (State.misplaced_of_holds ?_)
  have hx' : (s.heldBy (some w) (some h)).worldOf x = h := hxw
  rw [hx', State.holds]
  have hz' : ((s.heldBy (some w) (some h)).world h).fcores = 0 := hz
  have hh' : (s.heldBy (some w) (some h)).holder = some w := rfl
  simp [hz', hh', hne]

theorem sliceEnd_renews {s : State} {h : Nat} (hrdy : s.rdy = true) (hs : s.holder = some h) (hh : h < 65) (hhand : s.handing = none)
    (hend : s.sliceEnd ≤ s.gtc) (hw : ∀ w < 65, ¬ NextHolder s h w) :
    ∃ t, exec .sliceEnd s = .next t ∧ { t with sliceEnd := s.sliceEnd } = s ∧ t.sliceEnd = s.sliceEnd + 1000 * (s.world h).slice := by
  have hnone : s.nextFn (s.wants h) = none := by
    by_contra hsome
    obtain ⟨w, hf⟩ := Option.ne_none_iff_exists'.mp hsome
    have hn := (nextHolder_iff hs hh).mpr hf
    obtain ⟨i, -, hi, -⟩ := hn
    exact hw w (by omega) ((nextHolder_iff hs hh).mpr hf)
  refine ⟨s.sliceOver h, sliceEnd_eq hrdy hs hhand hend, ?_⟩
  rw [State.sliceOver_none hnone]
  exact ⟨rfl, rfl⟩

/-! ### Masks (R249, R308, R318) -/

theorem setMask_bit (m : BitVec 256) {j : Nat} (v : Dword) {i : Nat} (hi : i < 256) :
    (setMask m j v).getLsbD i = if i / 64 = j then v.getLsbD (i % 64) else m.getLsbD i := by
  have he : m.toNat % 2 ^ (64 * j) + v.toNat * 2 ^ (64 * j) + m.toNat / 2 ^ (64 * (j + 1)) * 2 ^ (64 * (j + 1)) =
      2 ^ (64 * j) * (2 ^ 64 * (m.toNat / 2 ^ (64 * (j + 1))) + v.toNat) + m.toNat % 2 ^ (64 * j) := by
    rw [show 64 * (j + 1) = 64 * j + 64 by ring, pow_add]
    ring
  rw [setMask, BitVec.getLsbD_ofNat, he, Nat.testBit_two_pow_mul_add _ (Nat.mod_lt _ (Nat.two_pow_pos _)),
    Nat.testBit_two_pow_mul_add _ v.isLt, Nat.testBit_mod_two_pow, Nat.testBit_div_two_pow]
  simp only [hi, decide_true, Bool.true_and, BitVec.getLsbD]
  by_cases h1 : i < 64 * j
  · rw [if_pos h1, if_neg (by omega)]
    simp [h1]
  · rw [if_neg h1]
    by_cases h2 : i - 64 * j < 64
    · rw [if_pos h2, if_pos (by omega), show i - 64 * j = i % 64 by omega]
    · rw [if_neg h2, if_neg (by omega), show i - 64 * j - 64 + 64 * (j + 1) = i by omega]

theorem fcores_and_ne_zero {a b : BitVec 256} : a &&& b ≠ 0 ↔ ∃ i < 256, b.getLsbD i = true ∧ a.getLsbD i = true := by
  constructor
  · intro h
    by_contra hno
    refine h (BitVec.eq_of_getLsbD_eq fun i hi => ?_)
    have := fun hb => fun ha => hno ⟨i, hi, hb, ha⟩
    rw [BitVec.getLsbD_and]
    cases ha : a.getLsbD i <;> cases hb : b.getLsbD i <;> simp_all
  · rintro ⟨i, -, hb, ha⟩ h
    have := congrArg (fun x => x.getLsbD i) h
    simp [ha, hb] at this

/-- Telling a world that its generation has passed keeps every mask. -/
theorem State.signal_three (s : State) (w : Nat) : (s.signal w 3).mem = s.mem ∧ (s.signal w 3).teams = s.teams ∧
    (s.signal w 3).launches = s.launches ∧ ∀ v, ((s.signal w 3).world v).fcores = (s.world v).fcores := by
  unfold State.signal
  split
  · refine ⟨rfl, rfl, rfl, fun v => ?_⟩
    have hne : ({ s.world w with msiPend := setBit8 (s.world w).msiPend 3 true } : World) ≠ {} := fun h => by
      have hbit : (setBit8 (s.world w).msiPend 3 true).getLsbD 3 = false := by
        rw [show setBit8 (s.world w).msiPend 3 true = ({} : World).msiPend from congrArg World.msiPend h]; rfl
      rw [setBit8, if_pos rfl, BitVec.getLsbD_or, getLsbD_twoPow_self (by omega), Bool.or_true] at hbit
      cases hbit
    show (tabGet (tabSet s.worlds w _ {}) v {}).fcores = _
    rw [tabSet, if_neg hne, tabGet_tabPut]
    split
    · rename_i hv; rw [hv]
    · rfl
  · exact ⟨rfl, rfl, rfl, fun _ => rfl⟩

theorem State.raiseMgen_keeps (s : State) (cause : Option Nat) : (s.raiseMgen cause).mem = s.mem ∧ (s.raiseMgen cause).teams = s.teams ∧
    (s.raiseMgen cause).launches = s.launches ∧ ∀ v, ((s.raiseMgen cause).world v).fcores = (s.world v).fcores := by
  unfold State.raiseMgen
  refine foldl_keeps (fun u : State => u.mem = s.mem ∧ u.teams = s.teams ∧ u.launches = s.launches ∧
    ∀ v, (u.world v).fcores = (s.world v).fcores) (fun (u : State) w => u.signal w 3) (fun u w hu => ?_) _ _
    ⟨rfl, rfl, rfl, fun _ => rfl⟩
  obtain ⟨h1, h2, h3, h4⟩ := hu
  obtain ⟨k1, k2, k3, k4⟩ := u.signal_three w
  exact ⟨k1.trans h1, k2.trans h2, k3.trans h3, fun v => (k4 v).trans (h4 v)⟩

/-- After a write of a mask the shared cores keep their holder, or get another. -/
theorem State.rehold_cases (s : State) : s.rehold = s.evictTeams ∨ ∃ h old, s.rehold = s.handOver h old := by
  have hnew : ∃ h old, (match s.nextFn fun w => s.maskless w && s.hasWork w with
      | some w => s.handOver (some w) s.holder
      | none => s.handOver (s.nextFn s.maskless) none) = s.handOver h old := by
    split
    · exact ⟨_, _, rfl⟩
    · exact ⟨_, _, rfl⟩
  unfold State.rehold
  cases hh : s.holder with
  | none =>
    rw [hh] at hnew
    exact .inr hnew
  | some h =>
    rw [hh] at hnew
    cases hm : s.maskless h with
    | true => exact .inl (if_pos hm)
    | false =>
      obtain ⟨k, old, he⟩ := hnew
      exact .inr ⟨k, old, (if_neg (by simp [hm])).trans he⟩

/-- Either way, teams outside their function's set leave. -/
theorem State.rehold_gives (s : State) : s.rehold.mem = s.mem ∧ s.rehold.worlds = s.worlds ∧
    ∀ x ∈ s.teams, (x.place = .resident ∨ x.place = .admitting) → s.inSet (s.worldOf x) x.core = false → Preempted s.rehold x := by
  rcases s.rehold_cases with he | ⟨h, old, he⟩
  · rw [he]
    exact ⟨rfl, rfl, fun x hx hp hi => State.evictTeams_preempts hx hp (State.misplaced_of_inSet hi)⟩
  · obtain ⟨hm, hw, -, -⟩ := State.handOver_gives s h old
    rw [he]
    exact ⟨hm, hw, fun x hx hp hi => State.handOver_preempts hx hp (State.misplaced_of_inSet (s := s.heldBy h old) hi)⟩

theorem State.worldOf_of_launches {s t : State} (h : t.launches = s.launches) (x : Team) : t.worldOf x = s.worldOf x := by
  unfold State.worldOf State.launchOf State.launch State.launch?
  rw [h]

/-- The state with the mask of a function written. -/
def State.masked (s : State) (world : Nat) (m : BitVec 256) : State := s.modWorld world fun x => { x with fcores := m }

theorem State.masked_fcores (s : State) (world : Nat) (m : BitVec 256) : ((s.masked world m).world world).fcores = m :=
  congrArg World.fcores (tabGet_tabSet_self (t := s.worlds) (k := world) (x := { s.world world with fcores := m }) (d := {}))

theorem fcoresWrite_eq {s : State} {world j : Nat} (v : Dword) (hw : world ≤ 64) (hj : j < 4) (hl : s.lockedWorld world = false) :
    exec (.fcoresWrite world j v) s =
      if s.worlds.any (fun w => decide (w.1 ≠ world) && decide (w.2.fcores &&& setMask (s.world world).fcores j v ≠ 0)) then .next s
      else if setMask (s.world world).fcores j v = (s.world world).fcores then .next s
      else .next (((s.masked world (setMask (s.world world).fcores j v)).raiseMgen none).rehold) := by
  show execFcoresWrite world j v s = _
  unfold execFcoresWrite
  have hr : (decide (world > 64) || decide (j ≥ 4)) = false := by simp; omega
  simp only [hr, hl, Bool.false_eq_true, if_false]
  rfl

/-- The masks of two functions share a core. -/
theorem any_mask_iff {s : State} {world : Nat} {m : BitVec 256} :
    (s.worlds.any fun w => decide (w.1 ≠ world) && decide (w.2.fcores &&& m ≠ 0)) = true ↔
      ∃ w ∈ s.worlds, w.1 ≠ world ∧ ∃ i < 256, m.getLsbD i = true ∧ w.2.fcores.getLsbD i = true := by
  rw [List.any_eq_true]
  refine exists_congr fun w => and_congr_right fun _ => ?_
  rw [Bool.and_eq_true, decide_eq_true_iff, decide_eq_true_iff, fcores_and_ne_zero]

theorem fcoresWrite_gives {s : State} {world : Nat} {m : BitVec 256} : ∃ t, ((s.masked world m).raiseMgen none).rehold = t ∧ t.mem = s.mem ∧
    (t.world world).fcores = m ∧ (m ≠ 0 → ∀ x ∈ s.teams, s.worldOf x = world → (x.place = .resident ∨ x.place = .admitting) →
      m.getLsbD x.core = false → Preempted t x) := by
  obtain ⟨hm, hteams, hlaunches, hf⟩ := (s.masked world m).raiseMgen_keeps none
  obtain ⟨hm', hworlds, hpre⟩ := ((s.masked world m).raiseMgen none).rehold_gives
  have hmask : (((s.masked world m).raiseMgen none).world world).fcores = m := (hf world).trans (s.masked_fcores world m)
  refine ⟨_, rfl, hm'.trans hm, ?_, fun hne x hx hxw hp hbit => ?_⟩
  · rw [State.world, hworlds]; exact hmask
  · refine hpre x (by rw [hteams]; exact hx) hp ?_
    have hx' : ((s.masked world m).raiseMgen none).worldOf x = world := (State.worldOf_of_launches hlaunches x).trans hxw
    rw [hx', State.inSet, hmask, if_neg hne]
    exact hbit

/-! ### Frames (R287, R288) -/

theorem frameOk_iff {tier : Bool} {cls : BitVec 2} {v : Nat} : frameOk tier.toNat cls.toNat v = true ↔
    (cls = 0 → v % 16 = 0) ∧ (if tier then 0x400000000000 ≤ v * 4096 ∧ v * 4096 + classUnits cls.toNat * 4096 ≤ 0x800000000000
      else v * 4096 + classUnits cls.toNat * 4096 ≤ 2 ^ 39) := by
  have hc : cls.toNat ≠ 0 ↔ cls ≠ 0 := not_congr (BitVec.toNat_eq (y := 0)).symm
  unfold frameOk
  rw [Bool.and_eq_true, Bool.or_eq_true, decide_eq_true_iff, decide_eq_true_iff, hc]
  refine and_congr (by tauto) ?_
  cases tier
  · exact decide_eq_true_iff
  · exact Bool.and_eq_true_iff.trans (and_congr decide_eq_true_iff decide_eq_true_iff)

theorem State.pushFrame_takes {s : State} {w t k frame : Nat} (h : frameOk t k frame = true)
    (hc : (World_list (s.world w) (listKey t k)).count < (World_list (s.world w) (listKey t k)).cap) :
    s.pushFrame w t k frame = (s.setPhys none ((World_list (s.world w) (listKey t k)).base.toNat + 8 * (World_list (s.world w) (listKey t k)).count)
      (leBytes 8 frame)).modWorld w fun x => World_setList x (listKey t k)
        { World_list (s.world w) (listKey t k) with count := (World_list (s.world w) (listKey t k)).count + 1 } := by
  unfold State.pushFrame
  simp only [h, hc, decide_true, Bool.and_self, if_true]

theorem State.pushFrame_drops {s : State} {w t k frame : Nat} (h : ¬ (frameOk t k frame = true ∧
    (World_list (s.world w) (listKey t k)).count < (World_list (s.world w) (listKey t k)).cap)) :
    s.pushFrame w t k frame = s.modWorld w fun x => { x with kvrcl := x.kvrcl ||| 16 } := by
  unfold State.pushFrame
  simp only
  rw [if_neg (by simpa using h)]

theorem kvpush_eq {s : State} {world : Nat} {tier : Bool} {cls : BitVec 2} {v : Dword} (hl : s.lockedWorld world = false) :
    exec (.kvpush world tier cls v) s = .next (s.pushFrame world tier.toNat cls.toNat v.toNat) := by
  show execKvpush world tier cls v s = _
  rw [execKvpush, if_neg (by simp [hl])]

/-- A frame that is pushed stands at the end of its list. -/
theorem State.pushFrame_list {s : State} {w t k frame : Nat} (h : frameOk t k frame = true)
    (hc : (World_list (s.world w) (listKey t k)).count < (World_list (s.world w) (listKey t k)).cap) :
    World_list ((s.pushFrame w t k frame).world w) (listKey t k) =
      { World_list (s.world w) (listKey t k) with count := (World_list (s.world w) (listKey t k)).count + 1 } := by
  rw [State.pushFrame_takes h hc]
  unfold State.modWorld State.setWorld State.world
  rw [tabGet_tabSet_self]
  exact tabGet_tabSet_self

theorem State.pushFrame_mem {s : State} {w t k frame : Nat} (h : frameOk t k frame = true)
    (hc : (World_list (s.world w) (listKey t k)).count < (World_list (s.world w) (listKey t k)).cap) (hf : frame < 2 ^ 64)
    (hm : s.MemOk) (hr : tabRises s.seals) :
    leNat ((s.pushFrame w t k frame).phys none ((World_list (s.world w) (listKey t k)).base.toNat + 8 * (World_list (s.world w) (listKey t k)).count) 8) =
      frame := by
  have hread := State.phys_setPhys_none hm hr
    ((World_list (s.world w) (listKey t k)).base.toNat + 8 * (World_list (s.world w) (listKey t k)).count) (leBytes 8 frame)
  rw [length_leBytes] at hread
  rw [State.pushFrame_takes h hc]
  refine (congrArg leNat hread).trans ?_
  rw [leNat_leBytes, Nat.mod_eq_of_lt (by simpa using hf)]

theorem kvrclWrite_eq {s : State} {world : Nat} {v : Dword} (hl : s.lockedWorld world = false) :
    exec (.kvrclWrite world v) s = .next (s.modWorld world fun w => { w with kvrcl := w.kvrcl &&& ~~~ v.setWidth 5 }) := by
  show execKvrclWrite world v s = _
  rw [execKvrclWrite, if_neg (by simp [hl])]

/-- Settles O46: the first function in turn decides (`dispatchDecision_gives`); a decision restores (`dispatch_restores`) or places
(`dispatch_places`); a mask and a slice's end pre-empt (`State.rehold_gives`, `sliceEnd_handsOver`); frames are `State.pushFrame`'s. -/
theorem schedulerDecides : Obligations.SchedulerDecides := by
  refine ⟨fun w s hrdy hn hb hm => ⟨fun tm c hid hf hbest => dispatch_restores hrdy hn hb hm hid hf hbest,
    fun l cores hl hno hh hs hc => dispatch_places hrdy hn hb hm hl hno hh hs hc⟩, fun world j v s hw hj hl => ?_,
    fun s h hrdy hs hh hhand hend => ⟨fun w hw => sliceEnd_handsOver hrdy hs hh hhand hend hw,
      fun hw => sliceEnd_renews hrdy hs hh hhand hend hw⟩, fun world tier cls v s hl => ?_⟩
  · intro old bit
    have hbit : ∀ i < 256, bit i = (setMask old j v).getLsbD i := fun i hi => (setMask_bit old v hi).symm
    rw [fcoresWrite_eq v hw hj hl]
    refine ⟨fun ⟨w, hwm, hne, i, hi, hb, hwb⟩ => ?_, fun hno => ?_⟩
    · rw [if_pos (any_mask_iff.mpr ⟨w, hwm, hne, i, hi, (hbit i hi).symm.trans hb, hwb⟩)]
    · rw [if_neg fun hany => by
        obtain ⟨w, hwm, hne, i, hi, hb, hwb⟩ := any_mask_iff.mp hany
        rw [hno w hwm hne i hi ((hbit i hi).trans hb)] at hwb
        cases hwb]
      by_cases hsame : setMask (s.world world).fcores j v = (s.world world).fcores
      · rw [if_pos hsame]
        refine ⟨s, rfl, rfl, fun i hi => by rw [hbit i hi, hsame], fun ⟨i, hi, hd⟩ => absurd ?_ hd⟩
        rw [hbit i hi, hsame]
      · rw [if_neg hsame]
        obtain ⟨t, ht, hm, hf, hpre⟩ := fcoresWrite_gives (s := s) (world := world) (m := setMask (s.world world).fcores j v)
        refine ⟨t, by rw [ht], hm, fun i hi => by rw [hf, hbit i hi], fun _ ⟨i, hi, hset⟩ x hx hxw hp hcore hout => ?_⟩
        refine hpre (fun hz => ?_) x hx hxw hp ((hbit _ hcore).symm.trans hout)
        rw [hbit i hi, hz] at hset
        simp at hset
  · intro k l legal
    have hleg : legal ↔ frameOk tier.toNat cls.toNat v.toNat = true ∧ l.count < l.cap := by
      rw [frameOk_iff, and_assoc]
    refine ⟨fun h => ?_, fun h => ?_, ?_⟩
    · obtain ⟨hok, hc⟩ := hleg.mp h
      refine ⟨_, kvpush_eq hl, ?_, fun hm hr => State.pushFrame_mem hok hc v.isLt hm hr⟩
      rw [State.pushFrame_list hok hc]
    · refine ⟨_, kvpush_eq hl, ?_⟩
      rw [State.pushFrame_drops fun hc => h (hleg.mpr hc)]
      exact ⟨rfl, State.world_modWorld _ _ _⟩
    · exact ⟨_, kvrclWrite_eq hl, rfl, State.world_modWorld _ _ _⟩

end Sys2Proof.Machine
end

section

-- Elaborated side by side, so many short proofs would exhaust the memory that a check may take: one after the other instead.
set_option Elab.async false

section
namespace Sys2Proof.Laws.Round

/-- Every instruction reads back: the laws of `Laws.Round`, one for each constructor. -/
theorem statement_all : ∀ i : Instr, Statement i
  | .mov .. => mov _ _ _
  | .movi .. => movi _ _ _
  | .iadd .. => iadd _ _ _ _
  | .isub .. => isub _ _ _ _
  | .imul .. => imul _ _ _ _
  | .imulh .. => imulh _ _ _ _
  | .imin .. => imin _ _ _ _
  | .imax .. => imax _ _ _ _
  | .iand .. => iand _ _ _ _
  | .ior .. => ior _ _ _ _
  | .ixor .. => ixor _ _ _ _
  | .inot .. => inot _ _ _
  | .shl .. => shl _ _ _ _
  | .shr .. => shr _ _ _ _
  | .sar .. => sar _ _ _ _
  | .lea .. => lea _ _ _ _
  | .fadd .. => fadd _ _ _ _
  | .fsub .. => fsub _ _ _ _
  | .fmul .. => fmul _ _ _ _
  | .fmin .. => fmin _ _ _ _
  | .fmax .. => fmax _ _ _ _
  | .ftoi .. => ftoi _ _ _
  | .itof .. => itof _ _ _
  | .frnd .. => frnd _ _ _
  | .fcvtF16F32 .. => fcvtF16F32 _ _ _
  | .fcvtF32F16 .. => fcvtF32F16 _ _ _
  | .fcvtB16F32 .. => fcvtB16F32 _ _ _
  | .fcvtF32B16 .. => fcvtF32B16 _ _ _
  | .icmpI32 .. => icmpI32 _ _ _ _ _
  | .icmpN32 .. => icmpN32 _ _ _ _ _
  | .fcmpF32 .. => fcmpF32 _ _ _ _ _
  | .pand .. => pand _ _ _ _
  | .por .. => por _ _ _ _
  | .pxor .. => pxor _ _ _ _
  | .pnot .. => pnot _ _ _
  | .pmov .. => pmov _ _ _
  | .bra .. => bra _ _
  | .call .. => call _ _ _
  | .ret .. => ret _ _
  | .brx .. => brx _ _
  | .exit .. => exit _
  | .nop .. => nop _
  | .yieldB .. => yieldB _
  | .bkpt .. => bkpt _ _
  | .ld32 .. => ld32 _ _ _ _
  | .ld64 .. => ld64 _ _ _ _
  | .ld128 .. => ld128 _ _ _ _
  | .st32 .. => st32 _ _ _ _
  | .st64 .. => st64 _ _ _ _
  | .st128 .. => st128 _ _ _ _
  | .ld32Ro .. => ld32Ro _ _ _ _
  | .ld128Ro .. => ld128Ro _ _ _ _
  | .shflIdx .. => shflIdx _ _ _ _
  | .shflUp .. => shflUp _ _ _ _
  | .shflDown .. => shflDown _ _ _ _
  | .shflXor .. => shflXor _ _ _ _
  | .qxchH .. => qxchH _ _ _
  | .qxchV .. => qxchV _ _ _
  | .qxchD .. => qxchD _ _ _
  | .ballot .. => ballot _ _ _
  | .movExt .. => movExt _ _ _ _
  | .moviExt .. => moviExt _ _ _ _
  | .iaddExt .. => iaddExt _ _ _ _ _ _
  | .isubExt .. => isubExt _ _ _ _ _ _
  | .imulExt .. => imulExt _ _ _ _ _ _
  | .imulhExt .. => imulhExt _ _ _ _ _
  | .imad .. => imad _ _ _ _ _ _ _
  | .iminExt .. => iminExt _ _ _ _ _
  | .imaxExt .. => imaxExt _ _ _ _ _
  | .iabs .. => iabs _ _ _ _ _
  | .ineg .. => ineg _ _ _ _ _
  | .andExt .. => andExt _ _ _ _ _
  | .orExt .. => orExt _ _ _ _ _
  | .xorExt .. => xorExt _ _ _ _ _
  | .notExt .. => notExt _ _ _ _
  | .shlExt .. => shlExt _ _ _ _ _
  | .shrExt .. => shrExt _ _ _ _ _
  | .sarExt .. => sarExt _ _ _ _ _
  | .bfx .. => bfx _ _ _ _ _
  | .bfi .. => bfi _ _ _ _ _ _
  | .popc .. => popc _ _ _ _
  | .clz .. => clz _ _ _ _
  | .brev .. => brev _ _ _ _
  | .leaExt .. => leaExt _ _ _ _ _ _
  | .sel .. => sel _ _ _ _ _ _ _
  | .faddExt .. => faddExt _ _ _ _ _ _
  | .fsubExt .. => fsubExt _ _ _ _ _ _
  | .fmulExt .. => fmulExt _ _ _ _ _ _
  | .ffma .. => ffma _ _ _ _ _ _ _
  | .fminExt .. => fminExt _ _ _ _ _ _
  | .fmaxExt .. => fmaxExt _ _ _ _ _ _
  | .frndExt .. => frndExt _ _ _ _ _
  | .fdiv .. => fdiv _ _ _ _ _
  | .rcp .. => rcp _ _ _ _
  | .rsq .. => rsq _ _ _ _
  | .sqrt .. => sqrt _ _ _ _
  | .ex2 .. => ex2 _ _ _ _
  | .lg2 .. => lg2 _ _ _ _
  | .fcvt .. => fcvt _ _ _ _ _ _ _
  | .ftoiExt .. => ftoiExt _ _ _ _ _ _
  | .itofExt .. => itofExt _ _ _ _ _ _
  | .icmp .. => icmp _ _ _ _ _ _
  | .fcmp .. => fcmp _ _ _ _ _ _ _
  | .pandExt .. => pandExt _ _ _ _ _ _
  | .porExt .. => porExt _ _ _ _ _ _
  | .pxorExt .. => pxorExt _ _ _ _ _ _
  | .pnotExt .. => pnotExt _ _ _ _
  | .pmovExt .. => pmovExt _ _ _ _
  | .braExt .. => braExt _ _
  | .brxExt .. => brxExt _ _
  | .callExt .. => callExt _ _ _
  | .retExt .. => retExt _ _
  | .exitExt .. => exitExt _
  | .yieldExt .. => yieldExt _
  | .nopExt .. => nopExt _
  | .rcvSet .. => rcvSet _ _
  | .rcvWait .. => rcvWait _ _ _ _
  | .barArv .. => barArv _ _ _
  | .barWait .. => barWait _ _
  | .barSync .. => barSync _ _ _
  | .cbar .. => cbar _ _
  | .dqpush .. => dqpush _ _
  | .dqpushAll .. => dqpushAll _ _
  | .dqpop .. => dqpop _ _ _
  | .mfsr .. => mfsr _ _ _
  | .trap .. => trap _ _
  | .bkptExt .. => bkptExt _ _
  | .waitt .. => waitt _ _
  | .shflIdxExt .. => shflIdxExt _ _ _ _ _ _
  | .shflUpExt .. => shflUpExt _ _ _ _ _ _
  | .shflDownExt .. => shflDownExt _ _ _ _ _ _
  | .shflXorExt .. => shflXorExt _ _ _ _ _ _
  | .qxchHExt .. => qxchHExt _ _ _ _
  | .qxchVExt .. => qxchVExt _ _ _ _
  | .qxchDExt .. => qxchDExt _ _ _ _
  | .voteAny .. => voteAny _ _ _ _
  | .voteAll .. => voteAll _ _ _ _
  | .voteEq .. => voteEq _ _ _ _
  | .ballotExt .. => ballotExt _ _ _
  | .matchX .. => matchX _ _ _ _
  | .compact .. => compact _ _ _
  | .gscan .. => gscan _ _ _ _ _ _ _
  | .gred .. => gred _ _ _ _ _ _
  | .ld .. => ld _ _ _ _ _ _ _
  | .st .. => st _ _ _ _ _ _ _
  | .ldC .. => ldC _ _ _ _ _ _ _ _ _
  | .stC .. => stC _ _ _ _ _ _ _ _
  | .lde .. => lde _ _ _ _ _ _ _ _ _
  | .atom .. => atom _ _ _ _ _ _ _ _ _ _ _
  | .red .. => red _ _ _ _ _ _ _
  | .atomC .. => atomC _ _ _ _ _ _ _ _ _ _ _ _
  | .redC .. => redC _ _ _ _ _ _ _ _
  | .chs .. => chs _ _ _ _ _ _ _
  | .fnc .. => fnc _ _ _ _
  | .waitf .. => waitf _ _ _
  | .acp .. => acp _ _ _ _ _ _
  | .sraff .. => sraff _ _ _ _ _ _ _ _
  | .srind .. => srind _ _ _ _ _ _ _ _ _
  | .srprb .. => srprb _ _ _ _
  | .srstop .. => srstop _ _ _
  | .gath .. => gath _ _ _ _ _ _ _ _ _
  | .scat .. => scat _ _ _ _ _ _ _
  | .scatAdd .. => scatAdd _ _ _ _ _ _ _ _
  | .capld .. => capld _ _ _ _
  | .capst .. => capst _ _ _ _
  | .capnar .. => capnar _ _ _ _ _ _
  | .caprst .. => caprst _ _
  | .capchk .. => capchk _ _ _ _ _ _
  | .csrr .. => csrr _ _ _
  | .csrw .. => csrw _ _ _
  | .eret .. => eret _ _
  | .capmk .. => capmk _ _ _
  | .capmkRec .. => capmkRec _ _ _ _
  | .regroup .. => regroup _ _ _
  | .launch .. => launch _ _ _ _
  | .evsig .. => evsig _ _
  | .evwait .. => evwait _ _ _
  | .mzero .. => mzero _ _
  | .mrd .. => mrd _ _ _ _
  | .mwr .. => mwr _ _ _ _
  | .mwmk .. => mwmk _ _ _
  | .mldb .. => mldb _ _ _ _ _
  | .mgata .. => mgata _ _ _ _ _
  | .mmq .. => mmq _ _ _
  | .mms .. => mms _ _ _ _ _
  | .mst .. => mst _ _ _ _ _ _ _
  | .tcut .. => tcut _ _ _ _ _
  | .infl .. => infl _ _ _
  | .attn .. => attn _ _ _ _ _ _
  | .kvapp .. => kvapp _ _ _ _ _ _ _ _
  | .kvtrim .. => kvtrim _ _ _ _ _
  | .kvqry .. => kvqry _ _ _ _
  | .pcAging .. => pcAging _ _
  | .pendingForcedDemotion .. => pendingForcedDemotion _ _
  | .rcvTimeout .. => rcvTimeout _ _ _
  | .scoreboardWriteback .. => scoreboardWriteback _
  | .waitfRelease .. => waitfRelease _ _
  | .waittRelease .. => waittRelease _ _
  | .evwaitRelease .. => evwaitRelease _ _
  | .fncTokenWrite .. => fncTokenWrite _
  | .teamAdmission .. => teamAdmission _
  | .bankConversion .. => bankConversion _ _
  | .reply .. => reply _ _
  | .refill .. => refill _
  | .homeRequest .. => homeRequest _
  | .storeCompletion .. => storeCompletion _
  | .tableWalk .. => tableWalk _ _ _
  | .escortAccept .. => escortAccept _ _
  | .escortDrop .. => escortDrop _ _
  | .backoffExpiry .. => backoffExpiry _ _
  | .hop .. => hop _
  | .remoteEscortTimeout .. => remoteEscortTimeout _
  | .localEscortTimeout .. => localEscortTimeout _ _
  | .streamElementFetch .. => streamElementFetch _ _ _ _
  | .probePass .. => probePass _
  | .acpCompletion .. => acpCompletion _
  | .scatCompletion .. => scatCompletion _
  | .matrixOpCompletion .. => matrixOpCompletion _
  | .mstCompletion .. => mstCompletion _
  | .attnCompletion .. => attnCompletion _
  | .kvtrimFramePush .. => kvtrimFramePush _
  | .conjugatorExpiry .. => conjugatorExpiry _
  | .conjugateGroupFormation .. => conjugateGroupFormation _
  | .integrityError .. => integrityError _ _ _
  | .unconsumedError .. => unconsumedError _ _ _
  | .correctedError .. => correctedError _ _
  | .faultRecordWrite .. => faultRecordWrite _
  | .faultQueueSetup .. => faultQueueSetup _ _ _
  | .fqheadWrite .. => fqheadWrite _ _
  | .retry .. => retry _ _
  | .skip .. => skip _ _
  | .kill .. => kill _ _
  | .translationInvalidate .. => translationInvalidate _ _
  | .invalidateCompletion .. => invalidateCompletion _
  | .preemptionRequest .. => preemptionRequest _
  | .stopTime .. => stopTime _
  | .saveDone .. => saveDone _
  | .restore .. => restore _ _
  | .lqnotify .. => lqnotify _ _ _
  | .lqctlWrite .. => lqctlWrite _ _ _
  | .launchRecordTake .. => launchRecordTake _
  | .launchWaitCheck .. => launchWaitCheck _
  | .dispatchDecision .. => dispatchDecision
  | .launchCompletion .. => launchCompletion _
  | .eventSignal .. => eventSignal _ _
  | .fcoresWrite .. => fcoresWrite _ _ _
  | .sliceEnd .. => sliceEnd
  | .kvpush .. => kvpush _ _ _ _
  | .kvrclWrite .. => kvrclWrite _ _
  | .errorCounterWrite .. => errorCounterWrite _ _
  | .registerWrite .. => registerWrite _ _ _
  | .perstDeassert .. => perstDeassert
  | .firmwareCheck .. => firmwareCheck _ _
  | .pllLock .. => pllLock _ _
  | .hbmTraining .. => hbmTraining _ _
  | .memoryZeroing .. => memoryZeroing _ _
  | .gtcStart .. => gtcStart _ _
  | .configurationRequest .. => configurationRequest
  | .bar2Read .. => bar2Read _ _ _ _
  | .bar2Write .. => bar2Write _ _ _ _
  | .lockInterface .. => lockInterface _ _
  | .startInterface .. => startInterface _ _
  | .stopInterface .. => stopInterface _ _
  | .functionLevelReset .. => functionLevelReset _
  | .ideIntegrityFailure .. => ideIntegrityFailure _
  | .lockedRegisterWrite .. => lockedRegisterWrite _ _ _
  | .getVersion .. => getVersion
  | .getCapabilities .. => getCapabilities
  | .negotiateAlgorithms .. => negotiateAlgorithms
  | .getDigests .. => getDigests
  | .getCertificate .. => getCertificate
  | .challenge .. => challenge
  | .getMeasurements .. => getMeasurements _
  | .keyExchange .. => keyExchange
  | .finish .. => finish _
  | .heartbeat .. => heartbeat _
  | .keyUpdate .. => keyUpdate _
  | .endSession .. => endSession _
  | .l2waysWrite .. => l2waysWrite _ _
  | .migExport .. => migExport _
  | .migImport .. => migImport _
  | .migConfirm .. => migConfirm _
  | .migRelease .. => migRelease _
  | .migClear .. => migClear _
  | .migrationExpiry .. => migrationExpiry _
  | .migrationDeadline .. => migrationDeadline _
  | .fabricIngressRequest .. => fabricIngressRequest _ _ _ _ _ _ _
  | .remoteReply .. => remoteReply _ _ _ _
  | .portDown .. => portDown _
  | .timeSync .. => timeSync _ _
  | .laneSample .. => laneSample _ _
  | .quietPoint .. => quietPoint _
  | .forcedIdleGap .. => forcedIdleGap _
  | .dvfsWindow .. => dvfsWindow _ _
  | .thermalThrottle .. => thermalThrottle
  | .thermalTrip .. => thermalTrip
  | .perstAssert .. => perstAssert
  | .hostLinkDown .. => hostLinkDown _
  | .hostLinkUp .. => hostLinkUp _
  | .portUp .. => portUp _
  | .firmwareActivation .. => firmwareActivation

end Sys2Proof.Laws.Round
end

section
namespace Sys2Proof

/-! ### Words and their fields (R45 to R50) -/

theorem len_cases (l : BitVec 2) : l = 0 ∨ l = 1 ∨ l = 2 ∨ l = 3 := by
  revert l
  decide

theorem Raw.length_words (r : Raw) : r.words.length = wordsOfLen r.len := by
  obtain h | h | h | h := len_cases r.len <;> simp [Raw.words, wordsOfLen, h]

/-- Words behind an instruction's own change nothing of its fields. -/
theorem Raw.ofWords_append {ws : List Word} {r : Raw} (h : Raw.ofWords ws = some r) (rest : List Word) :
    Raw.ofWords (ws ++ rest) = some r := by
  cases ws with
  | nil => cases h
  | cons w0 ws =>
    simp only [Raw.ofWords, List.cons_append] at h ⊢
    split
    next h0 => simpa [h0] using h
    next h0 =>
    split
    next h1 => rcases ws with _ | ⟨w1, _ | ⟨w2, ws⟩⟩ <;> simp_all
    next h1 =>
    split
    next h2 => rcases ws with _ | ⟨w1, _ | ⟨w2, ws⟩⟩ <;> simp_all
    next h2 => rcases ws with _ | ⟨w1, _ | ⟨w2, _ | ⟨w3, _ | ⟨w4, ws⟩⟩⟩⟩ <;> simp_all

theorem bit_extract (w : Word) (start : Nat) : bit (decide (w.extractLsb' start 1 = 1)) = w.extractLsb' start 1 := by
  generalize w.extractLsb' start 1 = x
  revert x
  decide

theorem join_word0 (w : Word) :
    w.extractLsb' 25 7 ++ w.extractLsb' 18 7 ++ w.extractLsb' 11 7 ++ w.extractLsb' 5 6 ++ w.extractLsb' 2 3 ++ w.extractLsb' 0 2 = w := by
  iterate 5 rw [BitVec.extractLsb'_append_extractLsb'_eq_extractLsb' (by decide)]
  exact extract_all w

theorem join_word1 (w : Word) :
    w.extractLsb' 27 5 ++ w.extractLsb' 25 2 ++ w.extractLsb' 23 2 ++ w.extractLsb' 21 2 ++ w.extractLsb' 14 7 ++
      bit (decide (w.extractLsb' 13 1 = 1)) ++ w.extractLsb' 10 3 ++ w.extractLsb' 0 10 = w := by
  rw [bit_extract]
  iterate 7 rw [BitVec.extractLsb'_append_extractLsb'_eq_extractLsb' (by decide)]
  exact extract_all w

theorem join_word2 (w : Word) : w.extractLsb' 30 2 ++ w.extractLsb' 0 30 = w := by
  iterate 1 rw [BitVec.extractLsb'_append_extractLsb'_eq_extractLsb' (by decide)]
  exact extract_all w

theorem lit_low (lo hi : Word) : (hi ++ lo : Dword).extractLsb' 0 32 = lo := by
  rw [extract_low _ _ (by decide), extract_all]

theorem lit_high (lo hi : Word) : (hi ++ lo : Dword).extractLsb' 32 32 = hi := by
  rw [extract_high _ _ (by decide)]; exact extract_all hi

theorem Raw.word0_ofWord0 (w : Word) : let r := Raw.ofWord0 w
    (r.b ++ r.a ++ r.d ++ r.op ++ r.stall ++ r.len : Word) = w := join_word0 w

/-- Fields read from words give back the words read: as many as the L field says, all of them there. -/
theorem Raw.words_ofWords {ws : List Word} {r : Raw} (h : Raw.ofWords ws = some r) :
    r.words = ws.take (wordsOfLen r.len) ∧ wordsOfLen r.len ≤ ws.length := by
  cases ws with
  | nil => cases h
  | cons w0 ws =>
    have hw0 := word0_ofWord0 w0
    simp only [Raw.ofWords] at h
    obtain hl | hl | hl | hl := len_cases (Raw.ofWord0 w0).len
    all_goals simp only [hl] at hw0
    · obtain rfl : Raw.ofWord0 w0 = r := by simpa [hl] using h
      simp [Raw.words, wordsOfLen, hl]
      exact hw0
    · rcases ws with _ | ⟨w1, _ | ⟨w2, ws⟩⟩ <;> simp [hl] at h
      subst h
      simp [Raw.words, wordsOfLen, Raw.withExt, hl, join_word2]
      exact ⟨hw0, join_word1 w1⟩
    · rcases ws with _ | ⟨w1, _ | ⟨w2, ws⟩⟩ <;> simp [hl] at h
      subst h
      simp [Raw.words, wordsOfLen, Raw.withLit, hl, lit_low, lit_high]
      exact hw0
    · rcases ws with _ | ⟨w1, _ | ⟨w2, _ | ⟨w3, _ | ⟨w4, ws⟩⟩⟩⟩ <;> simp [hl] at h
      subst h
      simp [Raw.words, wordsOfLen, Raw.withExt, Raw.withLit, hl, lit_low, lit_high, join_word2]
      exact ⟨hw0, join_word1 w1⟩

/-! ### Decoding and encoding agree (R45 to R70) -/

theorem wordsOfBytes_bytesOfWord (w : Word) (bs : List Byte) : wordsOfBytes (bytesOfWord w ++ bs) = w :: wordsOfBytes bs := by
  simp only [bytesOfWord, List.cons_append, List.nil_append, wordsOfBytes, List.cons.injEq, and_true]
  iterate 3 rw [BitVec.extractLsb'_append_extractLsb'_eq_extractLsb' (by decide)]
  exact extract_all w

theorem wordsOfBytes_flatMap (ws : List Word) (bs : List Byte) :
    wordsOfBytes (ws.flatMap bytesOfWord ++ bs) = ws ++ wordsOfBytes bs := by
  induction ws with
  | nil => rfl
  | cons w ws ih => rw [List.flatMap_cons, List.append_assoc, wordsOfBytes_bytesOfWord, ih, List.cons_append]

/-- The words of a well-formed instruction decode to it, whatever follows them. -/
theorem decodeWords_encode {i : Instr} (hw : i.wf = true) (hne : i.encode ≠ []) (rest : List Word) :
    decodeWords (i.encode ++ rest) = .ok (i, i.encode.length) := by
  cases hr : i.raw with
  | none => simp [Instr.encode, hr] at hne
  | some r =>
    obtain ⟨hread, hparse⟩ := Laws.Round.statement_all i hw r hr
    have henc : i.encode = r.words := by simp [Instr.encode, hr]
    rw [henc, decodeWords, Raw.ofWords_append hread]
    simp [hparse, hr, hw, Raw.length_words]

/-- What words decode to is well formed, and its own words are those that were read. -/
theorem encode_of_decodeWords {ws : List Word} {i : Instr} {n : Nat} (h : decodeWords ws = .ok (i, n)) :
    i.wf = true ∧ n ≤ ws.length ∧ i.encode = ws.take n := by
  unfold decodeWords at h
  split at h
  · cases h
  next r hread =>
  split at h
  · cases h
  next j hparse =>
  split at h
  next hraw =>
    split at h
    next hwf =>
      cases h
      obtain ⟨hwords, hlen⟩ := Raw.words_ofWords hread
      exact ⟨hwf, hlen, by simpa [Instr.encode, hraw] using hwords⟩
    · cases h
  · cases h

/-- Settles O55: well-formed words read back (`decodeWords_encode`), as bytes through their words, and what decodes gives back what
was read (`encode_of_decodeWords`). -/
theorem decodeEncode : Obligations.DecodeEncode := by
  refine ⟨fun i hw hne rest => decodeWords_encode hw hne rest, fun i hw hne rest => ?_, fun ws i n h => encode_of_decodeWords h⟩
  rw [decode, wordsOfBytes_flatMap]
  exact decodeWords_encode hw hne _

end Sys2Proof
end

section
namespace Sys2Proof.Machine

/-! ### Results of operations on registers -/

/-- Settles O2: arithmetic and conversions are the shared operation `execAlu` with the words of their tables, four cycles late. -/
theorem floatResults : Obligations.FloatResults := by
  intro i r hr _ s hi hp
  have hexec : exec i s = .next (s.execAlu r.x latFp r.d r.srcs (r.f s)) := hr.elim (fpOp_exec · s) (cvOpn_exec · s)
  exact ⟨_, hexec, State.execAlu_done hi hp⟩

/-- Settles O3: every special function is the shared operation `execSfu` with the words of its table. -/
theorem specialFunctionResults : Obligations.SpecialFunctionResults := by
  intro i r hr s hi hp
  exact ⟨_, sfuOp_exec hr s, State.execSfu_done hi hp⟩

/-- Settles O4: integer and floating-point compares are the shared operation `execCmp`, at the latency of their kind. -/
theorem predicateResults : Obligations.PredicateResults := by
  intro i r lat hr _ s hi hp
  obtain ⟨hr, rfl⟩ | ⟨hr, rfl⟩ := hr
  · exact ⟨_, intCmp_exec hr s, State.execCmp_done hi hp⟩
  · exact ⟨_, fpCmp_exec hr s, State.execCmp_done hi hp⟩

end Sys2Proof.Machine
end

section
namespace Sys2Proof.Machine

/-! ### The seventh predicate (R57) -/

theorem set_getD_self {α : Type} (l : List α) (n : Nat) (d : α) : l.set n (l.getD n d) = l := by
  by_cases h : n < l.length
  · rw [List.getD_eq_getElem l d h, List.set_getElem_self]
  · exact List.set_eq_of_length_le (Nat.le_of_not_lt h)

/-- A group put back where it stands. -/
theorem Team.setGroupAt_groupAt (t : Team) (g : Nat) : t.setGroupAt g (t.groupAt g) = t := by
  unfold Team.setGroupAt Team.groupAt
  split
  · have : t.lead.map (fun _ => t.lead.getD {}) = t.lead := by cases t.lead <;> rfl
    rw [this]
  · rw [set_getD_self]

/-- An update that leaves the thread it names as it is leaves the team as it is. -/
theorem Team.modThread_fixed {t : Team} {g l : Nat} {f : Thread → Thread} (h : f (t.thread g l) = t.thread g l) : t.modThread g l f = t := by
  unfold Team.thread at h
  rw [Team.modThread, Team.modGroupAt, h, set_getD_self]
  exact Team.setGroupAt_groupAt t g

theorem Thread.getP_seven (th : Thread) : th.getP 7 = true := rfl
theorem Thread.setP_seven (th : Thread) (b : Bool) : th.setP 7 b = th := rfl

theorem guardHolds_seven {th : Thread} {x : XHead} (h : x.pg = 7) : guardHolds th x = !x.pn := by
  rw [guardHolds, h]
  exact (congrArg (xor · x.pn) th.getP_seven).trans (Bool.true_xor x.pn)

theorem Team_land_seven {t : Team} {w : PipeW} (hc : w.cls = 3) (hn : w.no = 7) : Team_land t w = t := by
  rw [Team_land, hc, hn]
  exact Team.modThread_fixed (Thread.setP_seven _ _)

theorem Team_writePend_seven {t : Team} {p : Pend} (hc : p.cls = 3) (hn : p.no = 7) : Team_writePend t p = t := by
  rw [Team_writePend, hc, hn]
  exact Team.modThread_fixed (Thread.setP_seven _ _)

/-- Settles O53: `setP` at seven changes no thread, so a write that lands there changes no team. -/
theorem predicateSeven : Obligations.PredicateSeven :=
  ⟨Thread.getP_seven, Thread.setP_seven, fun _ _ _ h => guardHolds_seven h,
    fun _ _ hc hn _ _ => by rw [Team_land_seven hc hn], fun _ _ hc hn _ _ => by rw [Team_writePend_seven hc hn]⟩

end Sys2Proof.Machine
end

section
namespace Sys2Proof

/-! ### Words written out (R45 to R53, R67 to R69) -/

/-- Settles O56: each word evaluates under the decoder. -/
theorem wordsDecode : Obligations.WordsDecode := by
  unfold Obligations.WordsDecode
  decide +kernel

end Sys2Proof
end

section
namespace Sys2Proof.Machine

/-! ### What an instruction names as written -/

@[simp] theorem length_bothW (ty : Ty) (v : Dword) (w : Word) : (bothW ty v w).length = ty.regs := by
  unfold bothW Ty.regs
  split <;> rfl

@[simp] theorem regs_i32 : Ty.regs .i32 = 1 := rfl
@[simp] theorem regs_n32 : Ty.regs .n32 = 1 := rfl
@[simp] theorem length_rndRes (ty : Ty) (m : FpMod) (v : FVal) : (rndRes ty m v).length = 1 := rfl
@[simp] theorem length_cvRes (dt sty : Ty) (m : CvMod) (rule : RndRule) (v : Dword) : (cvRes dt sty m rule v).length = 1 := rfl
@[simp] theorem length_ftoiRes (dt sty : Ty) (rm : Rm) (w : Word) : (ftoiRes dt sty rm w).length = dt.regs := length_bothW _ _ _

/-- An instruction names n registers from a destination on as written. -/
def Writes (i : Instr) (d : Opd) (n : Nat) : Prop := ∃ k, (k = .dst ∨ k = .vee) ∧ mkUse k d n true ∈ i.uses

theorem Writes.dst {i : Instr} {d : Opd} {n : Nat} (h : mkUse .dst d n true ∈ i.uses) : Writes i d n := ⟨_, .inl rfl, h⟩
theorem Writes.vee {i : Instr} {d : Opd} {n : Nat} (h : mkUse .vee d n true ∈ i.uses) : Writes i d n := ⟨_, .inr rfl, h⟩

/-- A well-formed destination is of class v, g or t (R51), so its code is that of its class. -/
theorem Writes.names {i : Instr} (hw : i.wf = true) {d : Opd} {n : Nat} (h : Writes i d n) {no cnt : Nat} (h1 : d.no.toNat ≤ no)
    (h2 : no + cnt ≤ d.no.toNat + n) : Names i (clsCode d.cls) no cnt := by
  obtain ⟨k, hk, hu⟩ := h
  have hok : (mkUse k d n true).clsOk = true :=
    (Bool.and_eq_true_iff.mp (List.all_eq_true.mp (Bool.and_eq_true_iff.mp hw).1 _ hu)).1
  refine ⟨_, hu, rfl, ?_, h1, h2⟩
  cases hc : d.cls with
  | v => simp [useCode, mkUse, hc, RClass.u, clsCode]
  | g => simp [useCode, mkUse, hc, RClass.u, clsCode]
  | t => simp [useCode, mkUse, hc, RClass.u, clsCode]
  | f => rcases hk with rfl | rfl <;> simp [Use.clsOk, mkUse, hc, RClass.u] at hok

/-- An instruction names a predicate as written. -/
def WritesPred (i : Instr) (p : BitVec 3) : Prop := (⟨.pred, .p, p.toNat, 1, 1, true⟩ : Use) ∈ i.uses

theorem WritesPred.names {i : Instr} {p : BitVec 3} (h : WritesPred i p) : Names i 3 p.toNat 1 := ⟨_, h, rfl, rfl, le_rfl, le_rfl⟩

theorem writes_iff {i : Instr} {d : Opd} {n : Nat} : Writes i d n ↔ mkUse .dst d n true ∈ i.uses ∨ mkUse .vee d n true ∈ i.uses := by
  simp [Writes, or_and_right, exists_or]

theorem intOp_writes {i : Instr} {r : RegOp} (h : intOp i = some r) (s : State) (L : Nat) : Writes i r.d (r.f s L).length := by
  rw [writes_iff]
  cases i <;> simp only [intOp, reduceCtorEq, Option.some.injEq] at h <;> subst h
  all_goals unfold Instr.uses
  all_goals simp [wrt, vw, vOpd, alu1, alu2, aluSh, aluCnt, addOp, subOp, mulOp, mulhOp, minOp, maxOp, leaRes]

theorem fpOp_writes {i : Instr} {r : RegOp} (h : fpOp i = some r) (s : State) (L : Nat) : Writes i r.d (r.f s L).length := by
  rw [writes_iff]
  cases i <;> simp only [fpOp, reduceCtorEq, Option.some.injEq] at h <;> subst h
  all_goals unfold Instr.uses
  all_goals simp [wrt, vw, vOpd, fp1, fp2]

theorem cvOpn_writes {i : Instr} {r : RegOp} (h : cvOpn i = some r) (s : State) (L : Nat) : Writes i r.d (r.f s L).length := by
  rw [writes_iff]
  cases i <;> simp only [cvOpn, reduceCtorEq, Option.some.injEq] at h <;> subst h
  all_goals unfold Instr.uses
  case fcvt x dt sty m d a b => simp [wrt, apply_ite List.length]
  all_goals simp [wrt, vw, vOpd, itofRes]

theorem sfuOp_writes {i : Instr} {r : RegOp} (h : sfuOp i = some r) (s : State) (L : Nat) : Writes i r.d (r.f s L).length := by
  rw [writes_iff]
  cases i <;> simp only [sfuOp, reduceCtorEq, Option.some.injEq] at h <;> subst h
  all_goals unfold Instr.uses
  all_goals simp [wrt, fp1, fp2]

theorem intCmp_writes {i : Instr} {r : CmpOp} (h : intCmp i = some r) : WritesPred i r.p := by
  cases i <;> simp only [intCmp, reduceCtorEq, Option.some.injEq] at h <;> subst h
  all_goals unfold WritesPred Instr.uses
  all_goals simp [pw, icmpRes]

theorem fpCmp_writes {i : Instr} {r : CmpOp} (h : fpCmp i = some r) : WritesPred i r.p := by
  cases i <;> simp only [fpCmp, reduceCtorEq, Option.some.injEq] at h <;> subst h
  all_goals unfold WritesPred Instr.uses
  all_goals simp [pw]

theorem voteIs_writes {i : Instr} {r : VoteOp} (h : voteIs i = some r) : WritesPred i r.p := by
  cases i <;> simp only [voteIs, reduceCtorEq, Option.some.injEq] at h <;> subst h
  all_goals unfold WritesPred Instr.uses
  all_goals simp [pw]

theorem laneOp_writes {i : Instr} {r : LaneOp} (h : laneOp i = some r) (s : State) (act : List Nat) (L : Nat) :
    Writes i (vOpd r.d) (r.f s act L).length := by
  rw [writes_iff]
  cases i <;> simp only [laneOp, reduceCtorEq, Option.some.injEq] at h <;> subst h
  all_goals unfold Instr.uses
  all_goals simp [wrt, vw, vOpd, shflRes, qxchRes, ballotRes, valW]

theorem jumpOp_link {i : Instr} {j : JumpOp} (h : jumpOp i = some j) {d : BitVec 7} (hd : j.link = some d) : Writes i (vOpd d) 2 := by
  rw [writes_iff]
  cases i <;> simp only [jumpOp, reduceCtorEq, Option.some.injEq] at h <;> subst h
  all_goals cases hd
  all_goals unfold Instr.uses
  all_goals simp [wrt, vw, vOpd]

theorem length_special (s : State) (sl : BitVec 8) (L : Nat) : (s.special sl L).length = if sl = 0x0A then 2 else 1 := by
  have hsl : sl = 0x0A ↔ sl.toNat = 10 := ⟨fun h => by rw [h]; rfl, fun h => BitVec.eq_of_toNat_eq h⟩
  rw [if_congr hsl rfl rfl]
  unfold State.special
  simp only []
  split <;> simp_all [resWords]

/-! ### Frames of the operations (R57, R60, R61, R134, R150) -/

section
variable {i : Instr} {s t : State} (hw : i.wf = true)
include hw

/-- A result of fixed latency in a destination that the instruction names. -/
theorem Kept.alu {x : XHead} {lat : Nat} {d : Opd} {srcs : List OpdB} {f : Nat → List Word} (hf : ∀ L, Writes i d (f L).length)
    (hp : PortsOk s x srcs) (he : exec i s = .next (s.execAlu x lat d srcs f)) (ht : exec i s = .next t) :
    Kept (Names i) (portsOf srcs) s t := by
  cases he.symm.trans ht
  exact Kept.execAlu hp lat d f fun L k hk => (hf L).names hw (by omega) (by omega)

/-- A scoreboarded result in a destination that the instruction names. -/
theorem Kept.sfu {x : XHead} {d : Opd} {srcs : List OpdB} {f : Nat → List Word} (hf : ∀ L, Writes i d (f L).length)
    (hp : PortsOk s x srcs) (he : exec i s = .next (s.execSfu x d srcs f)) (ht : exec i s = .next t) :
    Kept (Names i) (portsOf srcs) s t := by
  cases he.symm.trans ht
  exact Kept.execSfu hp d f fun L => (hf L).names hw le_rfl le_rfl

end

theorem Kept.cmp {i : Instr} {s t : State} {r : CmpOp} {lat : Nat} (hn : WritesPred i r.p) (hp : PortsOk s r.x r.srcs)
    (he : exec i s = .next (s.execCmp r.x lat r.p r.srcs (r.f s))) (ht : exec i s = .next t) : Kept (Names i) (portsOf r.srcs) s t := by
  cases he.symm.trans ht
  exact Kept.execCmp hp lat r.p (r.f s) hn.names

theorem Kept.vote {i : Instr} {s t : State} {r : VoteOp} (h : voteIs i = some r) (ht : exec i s = .next t) : Kept (Names i) [] s t := by
  cases (voteIs_exec h s).symm.trans ht
  exact (Kept.pendPred s _ r.p true _ (voteIs_writes h).names).trans (Kept.retire _ _)

/-- The lanes that reads of ports leave active were active. -/
theorem State.takePorts_sub {s : State} {x : XHead} {srcs : List OpdB} (hp : PortsOk s x srcs) :
    ∀ L ∈ (s.takePorts (portsOf srcs) (s.active x)).1, L ∈ s.active x := by
  by_cases hk : portsOf srcs = []
  · unfold State.takePorts; rw [if_pos hk]; exact fun _ h => h
  · rw [State.takePorts_ok hp hk]
    exact fun L h => (List.mem_filter.mp h).1

/-- A scoreboarded result depends on the words of its lanes alone. -/
theorem State.pendRes_congr (s : State) {act help : List Nat} (d : Opd) (xl : Bool) {f f' : Nat → List Word}
    (h : ∀ L ∈ act ++ help, f L = f' L) : s.pendRes act help d xl f = s.pendRes act help d xl f' := by
  refine List.foldl_ext _ _ _ fun u L hL => ?_
  have hm : L ∈ act ++ help := by
    split at hL
    · exact hL
    · exact List.mem_append_left _ (List.mem_of_getLast? (Option.mem_toList.mp hL))
  rw [h L hm]

theorem Kept.lane {i : Instr} {s t : State} {r : LaneOp} (h : laneOp i = some r) (hw : i.wf = true) (hp : PortsOk s r.x r.srcs)
    (ht : exec i s = .next t) : Kept (Names i) (portsOf r.srcs) s t := by
  obtain ⟨f, he, hf⟩ := laneOp_exec h hw s
  cases he.symm.trans ht
  have hsub := State.takePorts_sub hp
  rw [State.pendRes_congr _ (f' := r.f s (s.active r.x)) _ _ fun L hL => hf L (by
    rcases List.mem_append.mp hL with h1 | h1
    · exact List.mem_append_left _ (hsub L h1)
    · exact List.mem_append_right _ h1)]
  exact ((Kept.takePorts hp).trans (Kept.pendRes _ _ _ _ _ _ fun L => (laneOp_writes h s _ L).names hw le_rfl le_rfl)).trans (Kept.retire _ _)

theorem jumpOp_exec {i : Instr} {j : JumpOp} (h : jumpOp i = some j) (s : State) :
    exec i s = match j.link with | none => braOp j.x j.off s | some d => callOp j.x d j.off s := by
  cases i <;> simp only [jumpOp, reduceCtorEq, Option.some.injEq] at h <;> subst h
  case bra stl off => rw [← baseOff_eq]; rfl
  case call stl d off => rw [← baseOff_eq]; rfl
  case braExt x off => rw [← extOff_eq]; rfl
  case callExt x d off => rw [← extOff_eq]; rfl

theorem Kept.jump {i : Instr} {s t : State} {j : JumpOp} (h : jumpOp i = some j) (hw : i.wf = true) (ht : exec i s = .next t) :
    Kept (Names i) [] s t := by
  rw [jumpOp_exec h s] at ht
  cases hl : j.link with
  | none =>
    simp only [hl] at ht
    cases ht
    exact Kept.retireTo s j.x _
  | some d =>
    simp only [hl] at ht
    cases ht
    refine (Kept.pushRes s _ _ _ _ _ fun L k hk => (jumpOp_link h hl).names hw (by omega) ?_).trans (Kept.retireTo _ _ _)
    exact Nat.add_le_add_left hk _

theorem noEffect_exec {i : Instr} {x : XHead} {s : State} (h : noEffect i s = some x) : exec i s = .next (s.retire x) := by
  have hb : ∀ (y : XHead) (c : BitVec 14), (if s.debugOn then none else some y) = some x → bkptOp y c s = .next (s.retire x) := by
    intro y c hy
    unfold bkptOp
    split at hy
    · cases hy
    next hd => cases hy; rw [if_neg hd]
  cases i <;> simp only [noEffect, reduceCtorEq, Option.some.injEq] at h
  case nop stl => subst h; rfl
  case nopExt y => subst h; rfl
  case bkpt stl c => exact hb _ c h
  case bkptExt y c => exact hb _ c h

/-- A jump to word-aligned addresses in pairs is a retire to them (R147, R148). -/
theorem brxOp_eq {s : State} {x : XHead} {a : Opd} (hal : ∀ L ∈ s.active x, (s.reg2 a L).extractLsb' 0 2 = 0) :
    brxOp x a s = .next (s.retireTo x (s.targets x fun L => s.reg2 a L)) := by
  have hno : ((s.active x).any fun L => decide ((s.reg2 a L).toNat % 4 ≠ 0)) = false := by
    rw [List.any_eq_false]
    intro L hL
    have := congrArg BitVec.toNat (hal L hL)
    simpa [BitVec.extractLsb'_toNat] using this
  rw [brxOp, hno, if_neg Bool.false_ne_true, State.targets_eq s x fun L => s.reg2 a L]

theorem Kept.pairJump {i : Instr} {s t : State} {j : PairJump} (h : pairJump i = some j)
    (hal : ∀ L ∈ s.active j.x, (s.reg2 j.a L).extractLsb' 0 2 = 0) (ht : exec i s = .next t) : Kept (Names i) [] s t := by
  have he : exec i s = brxOp j.x j.a s := by
    cases i <;> simp only [Machine.pairJump, reduceCtorEq, Option.some.injEq] at h <;> subst h
    all_goals rfl
  cases (he.trans (brxOp_eq hal)).symm.trans ht
  exact Kept.retireTo s j.x _

theorem Kept.mfsr {x : XHead} {d : BitVec 7} {sl : BitVec 8} (hw : (Instr.mfsr x d sl).wf = true) {s t : State}
    (ht : exec (.mfsr x d sl) s = .next t) : Kept (Names (.mfsr x d sl)) [] s t := by
  refine Kept.alu hw (d := vOpd d) (srcs := []) (x := x) (fun L => ?_) (fun _ hk => nomatch hk) rfl ht
  rw [length_special]
  exact .vee (by unfold Instr.uses; simp [vw, wrt, vOpd])

theorem Kept.yield {i : Instr} {x : XHead} (h : yieldIs i = some x) {s t : State} (ht : exec i s = .next t) :
    (s.cur.who = .lead → Kept (Names i) [] s t) ∧
      (s.cur.who ≠ .lead → Kept (Names i) [] (s.modCg fun g => { g with yieldAt := s.now + 1 }) t) := by
  have he : exec i s = yieldOp x s := by
    cases i <;> simp only [yieldIs, reduceCtorEq, Option.some.injEq] at h <;> subst h
    all_goals rfl
  cases he.symm.trans ht
  refine ⟨fun hl => ?_, fun hl => ?_⟩
  · rw [if_pos (by simp [State.isLead, hl])]
    exact Kept.retire s x
  · rw [if_neg (by simp [State.isLead, hl])]
    exact Kept.retire _ x

/-- Settles O8: each operation is one of the shared ones, whose frame is that of its parts (`Kept.trans`), in registers that the
instruction names as written (`Writes.names`). -/
theorem registerFrame : Obligations.RegisterFrame := by
  refine fun i s hw => ⟨fun r hr hp t ht => ?_, fun r hr hp t ht => ?_, fun r hr hp t ht => Kept.lane hr hw hp ht,
    fun r hr t ht => Kept.vote hr ht, fun j hj t ht => Kept.jump hj hw ht, fun x hx t ht => ?_,
    fun j hj hal t ht => Kept.pairJump hj hal ht, fun x d sl hi t ht => ?_, fun x hx t ht => Kept.yield hx ht⟩
  · rcases hr with hr | hr | hr | hr
    · exact Kept.alu hw (intOp_writes hr s) hp (intOp_exec hr hw s) ht
    · exact Kept.alu hw (fpOp_writes hr s) hp (fpOp_exec hr s) ht
    · exact Kept.alu hw (cvOpn_writes hr s) hp (cvOpn_exec hr s) ht
    · exact Kept.sfu hw (sfuOp_writes hr s) hp (sfuOp_exec hr s) ht
  · rcases hr with hr | hr
    · exact Kept.cmp (intCmp_writes hr) hp (intCmp_exec hr s) ht
    · exact Kept.cmp (fpCmp_writes hr) hp (fpCmp_exec hr s) ht
  · cases (noEffect_exec hx).symm.trans ht
    exact Kept.retire s x
  · subst hi
    exact Kept.mfsr hw ht

end Sys2Proof.Machine
end

section
namespace Sys2Proof.Machine

/-! ### Teams that keep threads, registers and scratchpad -/

/-- A team after updates that leave its threads, their places, its registers and its scratchpad alone. -/
structure TeamStill (a b : Team) : Prop where
  id : b.id = a.id
  place : ∀ k L, b.place? k L = a.place? k L
  thread : ∀ g l, b.thread g l = a.thread g l
  g : ∀ k, (b.actor k).g = (a.actor k).g
  phase : ∀ k, (b.actor k).phase = (a.actor k).phase
  t : b.t = a.t
  scratch : b.scratch = a.scratch

theorem TeamStill.refl (a : Team) : TeamStill a a := ⟨rfl, fun _ _ => rfl, fun _ _ => rfl, fun _ => rfl, fun _ => rfl, rfl, rfl⟩

theorem TeamStill.trans {a b c : Team} (h : TeamStill a b) (k : TeamStill b c) : TeamStill a c :=
  ⟨k.id.trans h.id, fun w L => (k.place w L).trans (h.place w L), fun g l => (k.thread g l).trans (h.thread g l),
    fun w => (k.g w).trans (h.g w), fun w => (k.phase w).trans (h.phase w), k.t.trans h.t, k.scratch.trans h.scratch⟩

theorem TeamStill.foldl {α : Type} (f : Team → α → Team) (h : ∀ t x, TeamStill t (f t x)) (l : List α) (t : Team) :
    TeamStill t (l.foldl f t) := foldl_keeps (TeamStill t) f (fun u x hu => hu.trans (h u x)) l t (.refl t)

/-- What an update of a group object must leave alone: its name, positions, threads, registers and dither phase. -/
def GroupStill (f : Group → Group) : Prop :=
  ∀ g, (f g).id = g.id ∧ (f g).pos = g.pos ∧ (f g).threads = g.threads ∧ (f g).g = g.g ∧ (f g).phase = g.phase

theorem TeamStill.modActor (t : Team) (a : Actor) {f : Group → Group} (h : GroupStill f) : TeamStill t (t.modActor a f) := by
  have hid := fun g => (h g).1
  exact ⟨by simp, Team.placeOpt_modActor t a hid fun g => (h g).2.1, Team.thread_modActor t a fun g => (h g).2.2.1,
    Team.actor_modActor_part Group.g hid (fun g => (h g).2.2.2.1) t a, Team.actor_modActor_part Group.phase hid (fun g => (h g).2.2.2.2) t a,
    by simp, by simp⟩

theorem GroupStill.done (t : Nat) (y : Bool) : GroupStill (Group_done t y) := fun _ => ⟨rfl, rfl, rfl, rfl, rfl⟩

/-- Streams alone of a group change, one after the other. -/
theorem GroupStill.setStreams (f : Nat → Stream → Stream) (ks : List Nat) :
    GroupStill fun g => ks.foldl (fun g k => g.setStream k (f k (g.stream k))) g := fun g => by
  have h := streamsOnly_fold f ks g
  refine ⟨StreamsOnly.id (streamsOnly_fold f ks) g, StreamsOnly.pos (streamsOnly_fold f ks) g, StreamsOnly.threads (streamsOnly_fold f ks) g, ?_, ?_⟩
  · simpa using congrArg Group.g h
  · simpa using congrArg Group.phase h

/-! ### States whose accesses have been started -/

/-- Checks were made and accesses started: results wait and accesses are under way beside those that were, the caches of translations
may hold more, and threads, registers, memory, scratchpad, stack lines and other teams are as they were. -/
structure Begun (s t : State) : Prop where
  quiet : Quiet s t
  team : TeamStill s.ct t.ct
  others : (t.teams.filter fun a => decide (a.id ≠ s.cur.team)) = s.teams.filter fun a => decide (a.id ≠ s.cur.team)
  mem : t.mem = s.mem
  stack : (t.core s.cur.core).stack = (s.core s.cur.core).stack
  pends : ∀ p ∈ s.pends, p ∈ t.pends
  flights : ∀ f ∈ s.flights, f ∈ t.flights

theorem Begun.refl (s : State) : Begun s s := ⟨.refl s, .refl _, rfl, rfl, rfl, fun _ h => h, fun _ h => h⟩

theorem Begun.trans {a b c : State} (h : Begun a b) (k : Begun b c) : Begun a c := by
  have hk := k.others
  have hs := k.stack
  rw [h.quiet.cur] at hk hs
  exact ⟨h.quiet.trans k.quiet, h.team.trans k.team, hk.trans h.others, k.mem.trans h.mem, hs.trans h.stack,
    fun p hp => k.pends p (h.pends p hp), fun f hf => k.flights f (h.flights f hf)⟩

theorem Begun.foldl {α : Type} (f : State → α → State) (h : ∀ s x, Begun s (f s x)) (l : List α) (s : State) : Begun s (l.foldl f s) :=
  foldl_keeps (Begun s) f (fun u x hu => hu.trans (h u x)) l s (.refl s)

theorem Begun.modCt (s : State) {f : Team → Team} (h : ∀ t, TeamStill t (f t)) : Begun s (s.modCt f) := by
  refine ⟨Quiet.modCt s f (fun t => (h t).id) (fun t => (h t).place _) (fun t => (h t).thread), ?_,
    (OwnTeam.modCt s f fun t => (h t).id).others, rfl, rfl, fun _ hp => hp, fun _ hf => hf⟩
  cases ht : s.team? s.cur.team with
  | some a => rw [State.ct_modCt s f (fun t => (h t).id) (by simp [ht])]; exact h _
  | none =>
    have h2 : (s.modCt f).team? s.cur.team = none := by
      rw [show s.modCt f = s.modTeam s.cur.team f from rfl, State.teamOpt_modTeam s _ f (fun t => (h t).id), ht]; rfl
    have hct : (s.modCt f).ct = s.ct := by simp only [State.ct, State.team, State.modCt_eq, State.modTeam_cur, ht] at h2 ⊢; rw [h2]
    rw [hct]; exact .refl _

theorem Begun.fresh (s : State) : Begun s s.fresh.2 := ⟨.fresh s, .refl _, rfl, rfl, rfl, fun _ h => h, fun _ h => h⟩

theorem Begun.addPend (s : State) (p : Nat → Pend) : Begun s (s.addPend p).2 :=
  ⟨.addPend s p, .refl _, rfl, rfl, rfl, fun _ h => List.mem_append_left _ h, fun _ h => h⟩

theorem Begun.loadPend (s : State) (sh : LoadShape) (L : Nat) : Begun s (s.loadPend sh L).2 := .addPend s _

/-- A core's translations and a die's. -/
theorem Begun.modCore (s : State) {c : Nat} (hc : c = s.cur.core) {f : Core → Core} (h : ∀ c, (f c).stack = c.stack) :
    Begun s (s.modCore c f) := by
  subst hc
  exact ⟨⟨rfl, rfl, rfl, fun _ => rfl, fun _ _ => rfl⟩, .refl _, rfl, rfl, by rw [State.core_modCore, h], fun _ h => h, fun _ h => h⟩

theorem Begun.modDie (s : State) {d : Nat} (hd : d = dieOf s.cur.core) {f : Die → Die} (h : ∀ d, (f d).cycle = d.cycle) :
    Begun s (s.modDie d f) := by
  subst hd
  refine ⟨⟨rfl, ?_, rfl, fun _ => rfl, fun _ _ => rfl⟩, .refl _, rfl, rfl, rfl, fun _ h => h, fun _ h => h⟩
  show ((s.modDie (dieOf s.cur.core) f).die (dieOf s.cur.core)).cycle = _
  rw [State.die_modDie, h]
  rfl

/-- A translation enters both caches. -/
theorem Begun.fill (s : State) {c d : Nat} (hc : c = s.cur.core) (hd : d = dieOf s.cur.core) {f : Core → Core} {g : Die → Die}
    (hf : ∀ c, (f c).stack = c.stack) (hg : ∀ d, (g d).cycle = d.cycle) : Begun s ((s.modCore c f).modDie d g) :=
  (Begun.modCore s hc hf).trans (Begun.modDie (s.modCore c f) hd hg)

theorem Begun.noteRead (s : State) (keys : List Nat) : Begun s (s.noteRead keys) :=
  ⟨⟨rfl, rfl, rfl, fun _ => rfl, fun _ _ => rfl⟩, .refl _, rfl, rfl, rfl, fun _ h => h, fun _ h => h⟩

/-! ### The checks of an access (R101, R107, R111) -/

theorem Begun.translate (s : State) (world va : Nat) : Begun s (s.translate s.cur.core world va).2 := by
  unfold State.translate
  split
  · exact .refl s
  · split
    · dsimp only
      exact Begun.modCore s rfl fun _ => rfl
    · have hw : Begun s (s.noteWalk (s.walkStart (dieOf s.cur.core) world va) va) := by
        unfold State.noteWalk
        split
        · exact .refl s
        · exact .noteRead s _
      simp only []
      split
      · exact hw
      · have hc := hw.quiet.cur
        dsimp only
        exact hw.trans (Begun.fill _ (congrArg (·.core) hc).symm (congrArg (dieOf ·.core) hc).symm (fun _ => rfl) fun _ => rfl)

theorem Begun.globAcc (s : State) (world : Nat) (va : Dword) (kind : Nat) (elem : Bool) :
    Begun s (s.globAcc s.cur.core world va kind elem).2 := by
  have h := Begun.translate s world (va.toNat % 2 ^ 56)
  unfold State.globAcc
  split
  · exact .refl s
  · generalize s.translate s.cur.core world (va.toNat % 2 ^ 56) = r at h
    obtain ⟨e | e, s'⟩ := r
    · exact h
    · simp only []
      split
      · exact h
      · split <;> exact h

theorem State.globAcc_ent {s : State} {core w k : Nat} {v : Dword} {el : Bool} {a : Acc}
    (h : (s.globAcc core w v k el).1 = .ok a) : ∃ e, a.ent = some e := by
  unfold State.globAcc at h
  split at h
  · cases h
  · split at h
    · cases h
    · split at h
      · cases h
      · split at h
        · cases h
        · cases h
          exact ⟨_, rfl⟩

/-- The check of an access: translations alone may be noted; an access by elements that passes answers the entry of its page. -/
theorem Begun.access (s : State) (g l : Nat) (va : Dword) (n al kind : Nat) (elem : Bool) :
    Begun s (s.access s.cur.core s.cur.team g l va n al kind elem).2 ∧
      ∀ a, (s.access s.cur.core s.cur.team g l va n al kind elem).1 = .ok a → elem = true → ∃ e, a.ent = some e := by
  have h := fun w v => Begun.globAcc s w v kind elem
  have he := fun w v a => State.globAcc_ent (s := s) (core := s.cur.core) (w := w) (v := v) (k := kind) (el := elem) (a := a)
  unfold State.access
  simp only []
  split
  · split
    · exact ⟨.refl s, by simp⟩
    · split
      · exact ⟨.refl s, by simp⟩
      · split <;> simp_all [Begun.refl]
  · split
    · exact ⟨.refl s, by simp⟩
    · split
      · exact ⟨.refl s, by simp⟩
      · generalize s.stackVa (s.team s.cur.team) g l (va.toNat % 2 ^ 48) = v
        specialize h (s.worldOf (s.team s.cur.team)) v
        specialize he (s.worldOf (s.team s.cur.team)) v
        generalize s.globAcc s.cur.core (s.worldOf (s.team s.cur.team)) v kind elem = r at h he
        obtain ⟨c | ⟨sp, e⟩, s'⟩ := r
        · exact ⟨h, by simp⟩
        · have hent := he _ rfl
          cases sp <;> refine ⟨h, fun a ha _ => ?_⟩ <;> cases ha <;> exact hent
  · split
    · exact ⟨.refl s, by simp⟩
    · split
      · exact ⟨.refl s, by simp⟩
      · specialize h (s.worldOf (s.team s.cur.team)) va
        specialize he (s.worldOf (s.team s.cur.team)) va
        generalize s.globAcc s.cur.core (s.worldOf (s.team s.cur.team)) va kind elem = r at h he
        obtain ⟨c | a, s'⟩ := r
        · exact ⟨h, by simp⟩
        · exact ⟨h, fun b hb _ => by cases hb; exact he _ rfl⟩

/-- One access checked after the others. -/
def checkNext (n al kind : Nat) (elem : Bool) (acc : List (Nat × Dword × Except Flt Acc) × State) (v : Nat × Dword) :
    List (Nat × Dword × Except Flt Acc) × State :=
  let h := Team_homeOf acc.2.ct acc.2.cur.who v.1
  let r := acc.2.access acc.2.cur.core acc.2.cur.team h.1 h.2 v.2 n al kind elem
  (acc.1 ++ [(v.1, v.2, r.1)], r.2)

theorem State.checkAll_eq (s : State) (vas : List (Nat × Dword)) (n al kind : Nat) (elem : Bool) :
    s.checkAll vas n al kind elem = vas.foldl (checkNext n al kind elem) ([], s) := rfl

/-- The checks of some positions: translations alone may be noted, and those of accesses by elements that pass answer their pages. -/
theorem Begun.checkAll (s : State) (vas : List (Nat × Dword)) (n al kind : Nat) (elem : Bool) :
    Begun s (s.checkAll vas n al kind elem).2 ∧ ∀ L va a, (L, va, .ok a) ∈ (s.checkAll vas n al kind elem).1 → elem = true →
      ∃ e, a.ent = some e := by
  rw [State.checkAll_eq]
  refine foldl_keeps (fun r : List (Nat × Dword × Except Flt Acc) × State => Begun s r.2 ∧ ∀ (L : Nat) (va : Dword) (a : Acc),
    (L, va, .ok a) ∈ r.1 → elem = true → ∃ e, a.ent = some e) _ ?_ vas ([], s)
    ⟨.refl s, by simp⟩
  intro r v ⟨hb, he⟩
  obtain ⟨h1, h2⟩ := Begun.access r.2 (Team_homeOf r.2.ct r.2.cur.who v.1).1 (Team_homeOf r.2.ct r.2.cur.who v.1).2 v.2 n al kind elem
  refine ⟨hb.trans h1, fun L va a hm => ?_⟩
  rcases List.mem_append.mp hm with hm | hm
  · exact he L va a hm
  · simp only [List.mem_singleton, Prod.mk.injEq] at hm
    exact h2 a hm.2.2.symm

/-- The checks are those of the positions asked for, in their order. -/
theorem State.checkAll_lanes (s : State) (vas : List (Nat × Dword)) (n al kind : Nat) (elem : Bool) :
    (s.checkAll vas n al kind elem).1.map (·.1) = vas.map (·.1) := by
  have key : ∀ (vas : List (Nat × Dword)) r, (vas.foldl (checkNext n al kind elem) r).1.map (·.1) = r.1.map (·.1) ++ vas.map (·.1) := by
    intro vas
    induction vas with
    | nil => simp
    | cons v vs ih => intro r; rw [List.foldl_cons, ih]; simp [checkNext]
  rw [State.checkAll_eq, key]
  rfl

theorem mem_passed {cs : List (Nat × Dword × Except Flt Acc)} {L : Nat} {va : Dword} {a : Acc} :
    (L, va, a) ∈ passed cs ↔ (L, va, .ok a) ∈ cs := by
  unfold passed
  rw [List.mem_filterMap]
  constructor
  · rintro ⟨⟨L', va', r⟩, hm, h⟩
    cases r <;> simp at h
    obtain ⟨rfl, rfl, rfl⟩ := h
    exact hm
  · exact fun h => ⟨_, h, rfl⟩

/-- When every check passes, the positions that passed are those checked. -/
theorem AllPass.lanes {cs : List (Nat × Dword × Except Flt Acc)} (h : AllPass cs) : (passed cs).map (·.1) = cs.map (·.1) := by
  induction cs with
  | nil => rfl
  | cons c r ih =>
    obtain ⟨a, ha⟩ := h c List.mem_cons_self
    have := ih fun x hx => h x (List.mem_cons_of_mem c hx)
    simp only [passed, List.filterMap_cons, ha, List.map_cons, List.cons.injEq, true_and] at this ⊢
    exact this

theorem AllPass.failed {cs : List (Nat × Dword × Except Flt Acc)} (h : AllPass cs) : failed cs = [] := by
  unfold Machine.failed
  rw [List.filterMap_eq_nil_iff]
  intro c hc
  obtain ⟨a, ha⟩ := h c hc
  rw [ha]

theorem State.parkFailed_nil (s : State) (way : FltWay) : s.parkFailed [] way = s := by simp [State.parkFailed, State.takeFault]

/-! ### Ports that deliver no fault -/

theorem Begun.noteDone (s : State) (who : Actor) (grp t : Nat) (y : Bool) : Begun s (s.noteDone s.cur.team who grp t y) := by
  refine Begun.modCt s fun u => ?_
  have h1 := TeamStill.modActor u who (GroupStill.done t y)
  cases who with
  | conj k =>
    exact h1.trans (TeamStill.foldl _ (fun u n => TeamStill.modActor u (.grp n) (GroupStill.done t y)) _ _)
  | grp n => exact h1
  | lead => exact h1

theorem Begun.delivered (s : State) (ks ls : List Nat) : Begun s (s.delivered ks ls) := by
  unfold State.delivered
  generalize ks.flatMap (fun k => ls.filterMap fun L => s.portTime k L) = ts
  cases ts with
  | nil => exact .refl s
  | cons t r => exact .noteDone s _ _ _ _

/-- Reads of ports that hold no fault: every active lane goes on, as in `State.takePorts`. -/
theorem State.pullPorts_ok {s : State} {x : XHead} {srcs : List OpdB} (hp : PortsOk s x srcs) :
    s.pullPorts (portsOf srcs) (s.active x) = ([], s.active x, (s.takePorts (portsOf srcs) (s.active x)).2) := by
  by_cases hk : portsOf srcs = []
  · simp [State.pullPorts, State.takePorts, hk]
  · have hbad : s.portBad (portsOf srcs) (s.active x) = [] := by
      unfold State.portBad
      rw [List.filterMap_eq_nil_iff]
      intro L hL
      rw [List.filterMap_eq_nil_iff.mpr fun k hk' => hp k hk' L hL]
      rfl
    rw [State.takePorts_ok hp hk]
    simp only [State.pullPorts, if_neg hk, hbad, List.all_nil, List.filter_true, List.any_nil, Bool.not_false]

theorem Begun.takePorts {s : State} {x : XHead} {srcs : List OpdB} (hp : PortsOk s x srcs) :
    Begun s (s.takePorts (portsOf srcs) (s.active x)).2 := by
  by_cases hk : portsOf srcs = []
  · unfold State.takePorts; rw [if_pos hk]; exact .refl s
  · rw [State.takePorts_ok hp hk]
    exact (Begun.delivered s _ _).trans (Begun.modCt _ fun t => TeamStill.modActor t _ (GroupStill.setStreams
      (fun k x1 => Stream_take { x1 with buf := x1.buf.filter fun _ => true } (s.active x) (Team_alive s.ct s.cur.who)) _))

/-! ### Accesses started (R117, R123, R177 to R179) -/

theorem Begun.start (s : State) (f : Flight) (ht : f.team = s.cur.team) : Begun s (s.start f) := by
  have h1 : Begun s (if f.acq then s.modTeam f.team fun t => t.modActor f.who fun g => { g with acqs := g.acqs ++ [(f.id, f.acqY)] } else s) := by
    split
    · rw [ht]
      exact Begun.modCt s fun t => TeamStill.modActor t _ fun _ => ⟨rfl, rfl, rfl, rfl, rfl⟩
    · exact .refl s
  refine h1.trans ?_
  exact ⟨⟨rfl, rfl, rfl, fun _ => rfl, fun _ _ => rfl⟩, .refl _, rfl, rfl, rfl, fun _ h => h, fun _ h => List.mem_append_left _ h⟩

theorem UnderWay.mono {s s0 t u : State} {L n : Nat} {sp : Space} {op : FOp} (hq : Quiet s s0) (h : UnderWay s0 t L sp n op)
    (hu : ∀ f ∈ t.flights, f ∈ u.flights) : UnderWay s u L sp n op := by
  obtain ⟨f, hf, ht, hw, hh, hr⟩ := h
  have hc := hq.cur
  refine ⟨f, hu f hf, by rw [ht, hc], by rw [hw, hc], ?_, hr⟩
  rw [hh]
  exact hq.homeOf L

/-- An access under its own name is started: it is under way. -/
theorem State.start_mkFlight (s : State) (L : Nat) (o : MOrd) (sp : Space) (n : Nat) (op : FOp) (fill first : Nat) (chain : Bool) :
    let t := s.fresh.2.start (s.fresh.2.mkFlight s.fresh.1 L o sp n op fill first chain)
    Begun s t ∧ UnderWay s t L sp n op :=
  ⟨(Begun.fresh s).trans (Begun.start _ _ rfl), _, List.mem_append_right _ (List.mem_singleton_self _), rfl, rfl, rfl, rfl, rfl, rfl⟩

/-- Each element of a position is among the items of the record that holds it (R91, R178). -/
theorem mem_recItems {e : TlbEnt} {off n k : Nat} (hk : k < n) :
    ∃ r ∈ recItems e off n, r.1 = (elemPlace e (off + k)).1 ∧ ((elemPlace e (off + k)).2, k) ∈ r.2 := by
  unfold recItems
  have hmem : (elemPlace e (off + k), k) ∈ (List.range n).map fun i => (elemPlace e (off + i), i) :=
    List.mem_map.mpr ⟨k, List.mem_range.mpr hk, rfl⟩
  refine ⟨_, List.mem_map.mpr ⟨(elemPlace e (off + k)).1, mem_keysOf.mpr ?_, rfl⟩, rfl, ?_⟩
  · exact List.mem_map.mpr ⟨_, hmem, rfl⟩
  · exact List.mem_map.mpr ⟨_, List.mem_filter.mpr ⟨hmem, by simp⟩, rfl⟩

/-- Accesses started one after the other from a list are all under way. -/
theorem Begun.each {α : Type} {f : State → α → State} {L : α → Nat} {sp : α → Space} {n : α → Nat} {op : α → FOp} (l : List α) (s : State)
    (h : ∀ b a, Begun s b → Begun b (f b a) ∧ UnderWay b (f b a) (L a) (sp a) (n a) (op a)) :
    Begun s (l.foldl f s) ∧ ∀ a ∈ l, UnderWay s (l.foldl f s) (L a) (sp a) (n a) (op a) := by
  refine ⟨foldl_keeps (Begun s) f (fun b a hb => hb.trans (h b a hb).1) l s (.refl s), fun a ha => ?_⟩
  refine foldl_reaches (Begun s) (fun t => UnderWay s t (L a) (sp a) (n a) (op a)) ha (fun b c _ hb => hb.trans (h b c hb).1)
    (fun b hb => (h b a hb).2.mono hb.quiet fun _ hf => hf) (fun b c _ hb hp => hp.mono (.refl s) (h b c hb).1.flights) (.refl s)

/-! ### One position's load -/

/-- The accesses of a position's load are under way, one for each record of an element load (R91, R178). -/
def LoadSent (s t : State) (L : Nat) (a : Acc) (tgt : Tgt) : LdFmt → Prop
  | .raw w sx => UnderWay s t L a.space w.bytes (.load tgt w.bytes sx)
  | .elems n ty => ∃ e, a.ent = some e ∧ ∀ k < n.n, ∃ items, ((elemPlace e (Acc_off a e + k)).2, k) ∈ items ∧
      UnderWay s t L (Acc_at a (elemPlace e (Acc_off a e + k)).1) (zbRec (fmtTy e.fmt)) (.eload tgt e.fmt items ty)

theorem LoadSent.mono {s s0 t u : State} {L : Nat} {a : Acc} {tgt : Tgt} {fmt : LdFmt} (hq : Quiet s s0) (h : LoadSent s0 t L a tgt fmt)
    (hu : ∀ f ∈ t.flights, f ∈ u.flights) : LoadSent s u L a tgt fmt := by
  cases fmt with
  | raw w sx => exact UnderWay.mono hq h hu
  | elems n ty =>
    obtain ⟨e, he, h⟩ := h
    refine ⟨e, he, fun k hk => ?_⟩
    obtain ⟨items, hm, hw⟩ := h k hk
    exact ⟨items, hm, hw.mono hq hu⟩

theorem State.startLoad_sent (s : State) (L : Nat) (a : Acc) (o : MOrd) (hint : BitVec 2) (fmt : LdFmt) (tgt : Tgt) (first : Nat) :
    Begun s (s.startLoad L a o hint fmt tgt first) ∧
      ((ldElem fmt = true → ∃ e, a.ent = some e) → LoadSent s (s.startLoad L a o hint fmt tgt first) L a tgt fmt) := by
  cases fmt with
  | raw w sx =>
    obtain ⟨h1, h2⟩ := State.start_mkFlight s L o a.space w.bytes (.load tgt w.bytes sx) (match tgt with | .esc .. => 0 | _ => fillOf hint a.ent) first false
    exact ⟨h1, fun _ => h2⟩
  | elems n ty =>
    unfold State.startLoad
    cases hent : a.ent with
    | none => exact ⟨.refl s, fun h => by obtain ⟨e, he⟩ := h rfl; exact absurd he (by simp)⟩
    | some e =>
      obtain ⟨h1, h2⟩ := Begun.each (recItems e (Acc_off a e) n.n) s fun b (r : Nat × List (Nat × Nat)) _ =>
        State.start_mkFlight b L o (Acc_at a r.1) (zbRec (fmtTy e.fmt)) (.eload tgt e.fmt r.2 ty)
          (match tgt with | .esc .. => 0 | _ => fillOf hint (some e)) first false
      refine ⟨h1, fun _ => ⟨e, hent, fun k hk => ?_⟩⟩
      obtain ⟨r, hr, hp, hi⟩ := mem_recItems (e := e) (off := Acc_off a e) hk
      exact ⟨r.2, hi, hp ▸ h2 r hr⟩

/-- Registers of a position wait for what its load delivers. -/
def LoadAwaited (s t : State) (L : Nat) (a : Acc) (sh : LoadShape) (fmt : LdFmt) : Prop :=
  Awaits s t L (clsCode sh.d.cls) sh.d.no.toNat sh.cnt fun p => p.pack = sh.pack ∧ LoadSent s t L a (.pend p.id 0) fmt

theorem LoadAwaited.mono {s s0 t u : State} {L : Nat} {a : Acc} {sh : LoadShape} {fmt : LdFmt} (hq : Quiet s s0)
    (h : LoadAwaited s0 t L a sh fmt) (hp : ∀ p ∈ t.pends, p ∈ u.pends) (hf : ∀ f ∈ t.flights, f ∈ u.flights) :
    LoadAwaited s u L a sh fmt := by
  obtain ⟨p, hm, ht, hw, hh, hc, hn, hk, hpk, hl⟩ := h
  have hcur := hq.cur
  refine ⟨p, hp p hm, by rw [ht, hcur], by rw [hw, hcur], ?_, hc, hn, hk, hpk, hl.mono hq hf⟩
  rw [hh]
  exact hq.homeOf L

/-- The load of a position whose result is kept: its registers wait, and its accesses are under way. -/
theorem State.loadPend_awaited (s : State) (sh : LoadShape) (L : Nat) (a : Acc) (o : MOrd) (hint : BitVec 2) (fmt : LdFmt) (first : Nat) :
    let t := (s.loadPend sh L).2.startLoad L a o hint fmt (.pend (s.loadPend sh L).1 0) first
    Begun s t ∧ ((ldElem fmt = true → ∃ e, a.ent = some e) → LoadAwaited s t L a sh fmt) := by
  have h1 := Begun.loadPend s sh L
  obtain ⟨h2, h3⟩ := State.startLoad_sent (s.loadPend sh L).2 L a o hint fmt (.pend (s.loadPend sh L).1 0) first
  refine ⟨h1.trans h2, fun he => ⟨_, h2.pends _ (List.mem_append_right _ (List.mem_singleton_self _)), rfl, rfl, rfl, rfl, rfl, rfl, rfl, ?_⟩⟩
  exact (h3 he).mono h1.quiet fun _ h => h

/-! ### The load of a path (R134, R177) -/

/-- The load of an active position: its registers wait when its result is kept. -/
def loadLane (d : Opd) (sh : LoadShape) (o : MOrd) (hint : BitVec 2) (fmt : LdFmt) (first : Nat) (top : Option Nat) (s : State)
    (r : Nat × Dword × Acc) : State :=
  if d.cls = .v || top = some r.1 then
    (s.loadPend sh r.1).2.startLoad r.1 r.2.2 o hint fmt (.pend (s.loadPend sh r.1).1 0) first
  else s.startLoad r.1 r.2.2 o hint fmt .none first

theorem Begun.loadLane (d : Opd) (sh : LoadShape) (o : MOrd) (hint : BitVec 2) (fmt : LdFmt) (first : Nat) (top : Option Nat) (s : State)
    (r : Nat × Dword × Acc) : Begun s (loadLane d sh o hint fmt first top s r) := by
  unfold Machine.loadLane
  split
  · exact (State.loadPend_awaited s sh r.1 r.2.2 o hint fmt first).1
  · exact (State.startLoad_sent s r.1 r.2.2 o hint fmt .none first).1

/-- The loads of helper positions follow, which receive zero where they would fault (R11). -/
def loadHelpers (d : Opd) (sh : LoadShape) (o : MOrd) (hint : BitVec 2) (fmt : LdFmt) (first : Nat) (cs : List (Nat × Dword × Except Flt Acc))
    (s : State) : State :=
  let s4 := if d.cls ≠ .v then s else (passed cs).foldl (fun s r =>
    (s.loadPend sh r.1).2.startLoad r.1 r.2.2 o hint fmt (.pend (s.loadPend sh r.1).1 0) first) s
  if d.cls ≠ .v then s4 else (failed cs).foldl (fun s r =>
    (s.addPend fun id => { s.mkPend r.1 0 d.no.toNat sh.cnt sh.parts id with
      vals := List.replicate sh.parts (some 0), pack := sh.pack }).2) s4

theorem Begun.loadHelpers (d : Opd) (sh : LoadShape) (o : MOrd) (hint : BitVec 2) (fmt : LdFmt) (first : Nat)
    (cs : List (Nat × Dword × Except Flt Acc)) (s : State) : Begun s (loadHelpers d sh o hint fmt first cs s) := by
  unfold Machine.loadHelpers
  split
  · exact .refl s
  · refine (Begun.foldl _ ?_ (passed cs) s).trans (Begun.foldl _ ?_ (failed cs) _)
    · exact fun s r => (State.loadPend_awaited s sh r.1 r.2.2 o hint fmt first).1
    · exact fun s r => Begun.addPend s _

/-- The state in which an access's checks have been made, its active lanes' first. -/
def State.loadChecked (s : State) (x : XHead) (helpers : Bool) (fmt : LdFmt) (a : Opd) (off : AddrOff) :
    (List (Nat × Dword × Except Flt Acc)) × State :=
  let s1 := (s.takePorts (portsOf (offPorts off)) (s.active x)).2
  let s2 := (s1.checkAll ((s.active x).map fun L => (L, s.addrOf a off L)) (ldWidth fmt) (ldWidth fmt) kRead (ldElem fmt)).2
  s2.checkAll ((if helpers then s.helpers x else []).map fun L => (L, s.addrOf a off L)) (ldWidth fmt) (ldWidth fmt) kRead (ldElem fmt)

theorem State.addrOf_eq_laneVa (s : State) (a : Opd) (off : AddrOff) : s.addrOf a off = s.laneVa a off := by
  funext L
  cases off <;> rfl

/-- A position of the path has not exited, once quiet updates have been made. -/
theorem Issuing.not_gone {s t : State} (hi : Issuing s) (hq : Quiet s t) {x : XHead} {L : Nat} (hL : L ∈ s.active x) :
    (t.cth L).gone = false := by
  rw [hq.cth, Thread.gone, (hi.path L (active_sub hL)).1]
  rfl

/-- Positions that passed and have not exited are all that passed. -/
theorem Issuing.filter_passed {s t : State} (hi : Issuing s) (hq : Quiet s t) {x : XHead} {cs : List (Nat × Dword × Except Flt Acc)}
    (hl : (passed cs).map (·.1) = s.active x) : ((passed cs).filter fun r => !(t.cth r.1).gone) = passed cs := by
  rw [List.filter_eq_self]
  intro r hr
  rw [hi.not_gone hq (x := x) (hl ▸ List.mem_map_of_mem hr)]
  rfl

/-- LD when no active lane faults. -/
theorem loadOp_eq {s : State} (hi : Issuing s) {x : XHead} {off : AddrOff} (hp : PortsOk s x (offPorts off)) {a : Opd} {fmt : LdFmt}
    (ha : AllPass (s.laneChecks x (offPorts off) (s.laneVa a off) (ldWidth fmt) kRead (ldElem fmt))) (helpers : Bool) (hint : BitVec 2)
    (o : MOrd) (d : Opd) :
    let c := s.loadChecked x helpers fmt a off
    loadOp x helpers hint o fmt d a off s = .next ((loadHelpers d (ldShape fmt d) o hint fmt c.2.nextId c.1
      ((passed (s.laneChecks x (offPorts off) (s.laneVa a off) (ldWidth fmt) kRead (ldElem fmt))).foldl
        (loadLane d (ldShape fmt d) o hint fmt c.2.nextId (s.active x).getLast?) c.2)).retire x) := by
  rw [← State.addrOf_eq_laneVa] at ha ⊢
  simp only []
  have hl : (passed (s.laneChecks x (offPorts off) (s.addrOf a off) (ldWidth fmt) kRead (ldElem fmt))).map (·.1) = s.active x := by
    rw [ha.lanes, State.laneChecks, State.checkAll_lanes, List.map_map]
    exact List.map_id _
  have hq : Quiet s (s.loadChecked x helpers fmt a off).2 :=
    ((Begun.takePorts hp).trans ((Begun.checkAll _ _ _ _ _ _).1.trans (Begun.checkAll _ _ _ _ _ _).1)).quiet
  have hf := hi.filter_passed hq hl
  unfold loadOp
  simp only [State.pullPorts_ok hp, List.nil_append]
  unfold State.loadChecked State.laneChecks at *
  simp only [ha.failed, State.parkFailed_nil, hf, hl]
  rfl

/-! ### The retire of a path whose accesses have been started -/

/-- A part of every thread that an update of one keeps. -/
theorem Team.thread_modThread_part {α : Type} {π : Thread → α} {f : Thread → Thread} (hf : ∀ th, π (f th) = π th) (t : Team) (a b g l : Nat) :
    π ((t.modThread a b f).thread g l) = π (t.thread g l) := by
  by_cases h : g = a ∧ l = b
  · obtain ⟨rfl, rfl⟩ := h
    by_cases hg : Team_hasGroup t g
    · by_cases hl : l < (t.groupAt g).threads.length
      · rw [Team.thread_modThread_has ⟨hg, hl⟩, hf]
      · unfold Team.modThread Team.thread
        rw [Team.groupAt_modGroupAt hg]
        simp only [List.set_eq_of_length_le (Nat.le_of_not_lt hl)]
    · unfold Team.modThread Team.thread
      rw [Team.groupAt_modGroupAt_not hg]
  · rw [Team.thread_modThread_ne t f h]

/-- The retire changes no predicate and no scratchpad. -/
theorem State.retire_still {s : State} (ht : (s.team? s.cur.team).isSome = true) (x : XHead) :
    (∀ g l, ((s.retire x).ct.thread g l).p = (s.ct.thread g l).p) ∧ (s.retire x).ct.scratch = s.ct.scratch := by
  rw [State.retire_ct ht]
  refine foldl_keeps (fun t : Team => (∀ g l, (t.thread g l).p = (s.ct.thread g l).p) ∧ t.scratch = s.ct.scratch) _ ?_ s.pathHomes s.ct
    ⟨fun _ _ => rfl, rfl⟩
  intro t h ⟨hp, hs⟩
  refine ⟨fun g l => ?_, by simp [hs]⟩
  rw [Team.thread_modThread_part (π := Thread.p) (fun th => (s.retired_fields x th).2.2.1), hp]

/-- Accesses started, then the path retired: the path moves on, and nothing else that the issue of an access must leave alone changes. -/
theorem Begun.retire {s u : State} (hi : Issuing s) (h : Begun s u) (x : XHead) :
    Moved s (u.retire x) x ∧ AccessFrame s (u.retire x) ∧ ((u.retire x).core s.cur.core).stack = (s.core s.cur.core).stack := by
  have hq := h.quiet
  have ht := (hq.issuing hi).team
  have hcur := hq.cur
  obtain ⟨hp, hs⟩ := State.retire_still ht x
  have hct : (u.retire x).team s.cur.team = (u.retire x).ct := by
    rw [State.ct, show (u.retire x).cur = u.cur from rfl, hcur]
  have hregs : TeamRegs s.ct u.ct :=
    ⟨fun g l => by rw [h.team.thread]; exact ⟨rfl, rfl⟩, h.team.g, h.team.t⟩
  refine ⟨State.retire_moved hi hq x, ⟨h.mem, RegsKept.of hcur (hregs.trans (retire_regs ht x)), fun g l => ?_, hs.trans h.team.scratch, ?_⟩, h.stack⟩
  · rw [hct, hp, h.team.thread]
  · have := (OwnTeam.retire u x).others
    rw [hcur] at this
    exact this.trans h.others

/-! ### Loads (R67, R134, R177, R178) -/

theorem ldShape_eq (fmt : LdFmt) (d : Opd) : (ldShape fmt d).d = d := by
  unfold ldShape
  repeat' split
  all_goals rfl

/-- LD when no active lane faults: the path moves on, and the registers of each position whose result is kept wait for its accesses. -/
theorem loadOp_issued {s : State} (hi : Issuing s) {x : XHead} {off : AddrOff} (hp : PortsOk s x (offPorts off)) {a : Opd} {fmt : LdFmt}
    (ha : AllPass (s.laneChecks x (offPorts off) (s.laneVa a off) (ldWidth fmt) kRead (ldElem fmt))) (helpers : Bool) (hint : BitVec 2)
    (o : MOrd) (d : Opd) :
    ∃ t, loadOp x helpers hint o fmt d a off s = .next t ∧ Moved s t x ∧ AccessFrame s t ∧
      ∀ L va acc, (L, va, .ok acc) ∈ s.laneChecks x (offPorts off) (s.laneVa a off) (ldWidth fmt) kRead (ldElem fmt) →
        s.keeps x d L → LoadAwaited s t L acc (ldShape fmt d) fmt := by
  have heq := loadOp_eq hi hp ha helpers hint o d
  simp only [] at heq
  generalize hcs : s.laneChecks x (offPorts off) (s.laneVa a off) (ldWidth fmt) kRead (ldElem fmt) = cs at ha heq ⊢
  have hents : ∀ L va acc, (L, va, .ok acc) ∈ cs → ldElem fmt = true → ∃ e, acc.ent = some e := by
    intro L va acc hm
    rw [← hcs] at hm
    exact (Begun.checkAll _ _ _ _ _ _).2 L va acc hm
  have hc : Begun s (s.loadChecked x helpers fmt a off).2 :=
    (Begun.takePorts hp).trans ((Begun.checkAll _ _ _ _ _ _).1.trans (Begun.checkAll _ _ _ _ _ _).1)
  generalize s.loadChecked x helpers fmt a off = c at heq hc
  have hlane := fun b r => Begun.loadLane d (ldShape fmt d) o hint fmt c.2.nextId (s.active x).getLast? b r
  have hhelp := fun b => Begun.loadHelpers d (ldShape fmt d) o hint fmt c.2.nextId c.1 b
  have hlanes := hc.trans (Begun.foldl _ hlane (passed cs) c.2)
  obtain ⟨hm, hf, _⟩ := (hlanes.trans (hhelp _)).retire hi x
  refine ⟨_, heq, hm, hf, fun L va acc hmem hk => ?_⟩
  have hfold : LoadAwaited s ((passed cs).foldl (loadLane d (ldShape fmt d) o hint fmt c.2.nextId (s.active x).getLast?) c.2) L acc (ldShape fmt d) fmt := by
    refine foldl_reaches (Begun s) (fun t => LoadAwaited s t L acc (ldShape fmt d) fmt) (mem_passed.mpr hmem)
      (fun b r _ hb => hb.trans (hlane b r)) (fun b hb => ?_) (fun b r _ _ hb => hb.mono (.refl s) (hlane b r).pends (hlane b r).flights) hc
    have hkeep : (decide (d.cls = .v) || decide ((s.active x).getLast? = some L)) = true := by
      rcases hk with h | h <;> simp [h]
    rw [loadLane, if_pos hkeep]
    exact ((State.loadPend_awaited b _ L acc o hint fmt _).2 (hents L va acc hmem)).mono hb.quiet (fun _ h => h) fun _ h => h
  exact hfold.mono (.refl s) (fun p h => (hhelp _).pends p h) fun f h => (hhelp _).flights f h

/-- The displacement of a base load or store as bytes (R67). -/
theorem baseDisp_eq (n : Nat) (o : BaseDisp) : baseDisp n o = dispBytes n o := by
  cases o with
  | short k =>
    show AddrOff.lit _ = AddrOff.lit _
    rw [BitVec.ofInt_mul, mul_comm]
    rfl
  | lit w => rfl

/-- A load is `LD`'s operation on its operands. -/
theorem exec_load {i : Instr} {r : LoadIs} (h : loadIs i = some r) (s : State) :
    ∃ helpers hint o, exec i s = loadOp r.x helpers hint o r.fmt r.d r.a r.off s := by
  cases i <;> simp only [loadIs, Option.some.injEq, reduceCtorEq] at h
  case lde x hint o w d a off rp e =>
    split at h
    · rename_i he
      cases h
      refine ⟨false, hint, o, ?_⟩
      show execLde x hint o w d a off rp e s = _
      rw [execLde, if_pos he]
    · cases h
  case ld x hint o fmt d a off => subst h; exact ⟨true, hint, o, rfl⟩
  all_goals
    subst h
    rw [← baseDisp_eq]
    exact ⟨true, _, _, rfl⟩

theorem LoadIs.checks_eq (r : LoadIs) (s : State) :
    r.checks s = s.laneChecks r.x (offPorts r.off) (s.laneVa r.a r.off) (ldWidth r.fmt) kRead (ldElem r.fmt) := by
  unfold LoadIs.checks
  cases r.fmt <;> rfl

/-- Settles O15, by the operation that every load is. -/
theorem loadsIssued : Obligations.LoadsIssued := by
  intro i r hr _ s hi hp ha
  obtain ⟨helpers, hint, o, he⟩ := exec_load hr s
  rw [LoadIs.checks_eq] at ha ⊢
  obtain ⟨t, ht, hm, hf, hl⟩ := loadOp_issued hi hp ha helpers hint o r.d
  refine ⟨t, he.trans ht, hm, hf, fun L va acc hmem hk => ?_⟩
  obtain ⟨p, hpm, hteam, hwho, hhome, hcls, hno, hcnt, hpack, hsent⟩ := hl L va acc hmem hk
  rw [ldShape_eq] at hcls hno
  cases hfmt : r.fmt with
  | raw w sx =>
    rw [hfmt] at hcnt hsent
    exact ⟨p, hpm, hteam, hwho, hhome, hcls, hno, hcnt, hsent⟩
  | elems n ty =>
    rw [hfmt] at hcnt hsent hpack
    obtain ⟨e, hent, hw⟩ := hsent
    refine ⟨e, hent, p, hpm, hteam, hwho, hhome, hcls, hno, ?_, ?_, hw⟩
    · rw [hcnt, ldShape, eltRegs]
      split <;> simp_all
    · rw [hpack, ldShape]
      split <;> rfl

end Sys2Proof.Machine
end

section
namespace Sys2Proof.Machine

/-! ### One position's store (R177, R179) -/

/-- The accesses of a position's store are under way, one for each record of an element store. -/
def StoreSent (s t : State) (L : Nat) (a : Acc) (ws : List Word) : StFmt → Prop
  | .raw w => UnderWay s t L a.space w.bytes (.store (wordBytes ws w.bytes))
  | .elems n ty rm sr => ∃ e, a.ent = some e ∧ ∀ k < n.n, ∃ items, ((elemPlace e (Acc_off a e + k)).2, elemOf ty ws k) ∈ items ∧
      UnderWay s t L (Acc_at a (elemPlace e (Acc_off a e + k)).1) (zbRec (fmtTy e.fmt))
        (.estore e.fmt items rm (if sr then some s.cg.phase.toNat else none) false)

/-- The issuer's dither phase stands. -/
theorem Begun.phase {s t : State} (h : Begun s t) : t.cg.phase = s.cg.phase := by
  unfold State.cg
  rw [h.quiet.cur]
  exact h.team.phase s.cur.who

theorem StoreSent.mono {s s0 t u : State} {L : Nat} {a : Acc} {ws : List Word} {fmt : StFmt} (hb : Begun s s0)
    (h : StoreSent s0 t L a ws fmt) (hu : ∀ f ∈ t.flights, f ∈ u.flights) : StoreSent s u L a ws fmt := by
  cases fmt with
  | raw w => exact UnderWay.mono hb.quiet h hu
  | elems n ty rm sr =>
    obtain ⟨e, he, h⟩ := h
    rw [hb.phase] at h
    refine ⟨e, he, fun k hk => ?_⟩
    obtain ⟨items, hm, hw⟩ := h k hk
    exact ⟨items, hm, hw.mono hb.quiet hu⟩

/-- The store of one record is started: its dither phase is that of the store's issue. -/
theorem State.start_estore {s b : State} (hb : Begun s b) (L : Nat) (a : Acc) (e : TlbEnt) (o : MOrd) (ty : Ty) (rm : Rm) (sr : Bool)
    (ws : List Word) (first : Nat) (r : Nat × List (Nat × Nat)) :
    let t := b.fresh.2.start (b.fresh.2.mkFlight b.fresh.1 L o (Acc_at a r.1) (zbRec (fmtTy e.fmt))
      (.estore e.fmt (r.2.map fun p => (p.1, elemOf ty ws p.2)) rm (if sr then some b.cg.phase.toNat else none) false) 0 first true)
    Begun b t ∧ UnderWay b t L (Acc_at a r.1) (zbRec (fmtTy e.fmt))
      (.estore e.fmt (r.2.map fun p => (p.1, elemOf ty ws p.2)) rm (if sr then some s.cg.phase.toNat else none) false) := by
  have h := State.start_mkFlight b L o (Acc_at a r.1) (zbRec (fmtTy e.fmt))
    (.estore e.fmt (r.2.map fun p => (p.1, elemOf ty ws p.2)) rm (if sr then some b.cg.phase.toNat else none) false) 0 first true
  rw [hb.phase] at h ⊢
  exact h

theorem State.startStore_sent (s : State) (L : Nat) (a : Acc) (o : MOrd) (fmt : StFmt) (ws : List Word) (first : Nat) :
    Begun s (s.startStore L a o fmt ws first) ∧
      ((stElem fmt = true → ∃ e, a.ent = some e) → StoreSent s (s.startStore L a o fmt ws first) L a ws fmt) := by
  cases fmt with
  | raw w =>
    obtain ⟨h1, h2⟩ := State.start_mkFlight s L o a.space w.bytes (.store (wordBytes ws w.bytes)) 0 first true
    exact ⟨h1, fun _ => h2⟩
  | elems n ty rm sr =>
    unfold State.startStore
    cases hent : a.ent with
    | none => exact ⟨.refl s, fun h => by obtain ⟨e, he⟩ := h rfl; exact absurd he (by simp)⟩
    | some e =>
      obtain ⟨h1, h2⟩ := Begun.each (recItems e (Acc_off a e) n.n) s fun _ r hb => State.start_estore hb L a e o ty rm sr ws first r
      refine ⟨h1, fun _ => ⟨e, hent, fun k hk => ?_⟩⟩
      obtain ⟨r, hr, hp, hi⟩ := mem_recItems (e := e) (off := Acc_off a e) hk
      exact ⟨r.2.map fun p => (p.1, elemOf ty ws p.2), List.mem_map.mpr ⟨_, hi, rfl⟩, hp ▸ h2 r hr⟩

/-! ### The store of a path (R177, R179) -/

/-- The state in which a store's checks have been made. -/
def State.storeChecked (s : State) (x : XHead) (srcs : List OpdB) (fmt : StFmt) (a : Opd) (off : AddrOff) : State :=
  ((s.takePorts (portsOf srcs) (s.active x)).2.checkAll ((s.active x).map fun L => (L, s.addrOf a off L)) (stWidth fmt) (stWidth fmt) kWrite
    (stElem fmt)).2

/-- ST when no active lane faults. -/
theorem storeOp_eq {s : State} (hi : Issuing s) {x : XHead} {a : Opd} {off : AddrOff} {c : Opd} (hp : PortsOk s x (offPorts off ++ [.reg c]))
    {fmt : StFmt} (ha : AllPass (s.laneChecks x (offPorts off ++ [.reg c]) (s.laneVa a off) (stWidth fmt) kWrite (stElem fmt))) (o : MOrd) :
    let u := s.storeChecked x (offPorts off ++ [.reg c]) fmt a off
    storeOp x o fmt a off c s = .next (((s.byHome (fun r : Nat × Dword × Acc => r.1)
      (passed (s.laneChecks x (offPorts off ++ [.reg c]) (s.laneVa a off) (stWidth fmt) kWrite (stElem fmt)))).foldl
        (fun s' r => s'.startStore r.1 r.2.2 o fmt (s.dataWords c (stRegs fmt) r.1) u.nextId) u).retire x) := by
  rw [← State.addrOf_eq_laneVa] at ha ⊢
  simp only []
  have hl : (passed (s.laneChecks x (offPorts off ++ [.reg c]) (s.addrOf a off) (stWidth fmt) kWrite (stElem fmt))).map (·.1) = s.active x := by
    rw [ha.lanes, State.laneChecks, State.checkAll_lanes, List.map_map]
    exact List.map_id _
  have hq : Quiet s (s.storeChecked x (offPorts off ++ [.reg c]) fmt a off) := ((Begun.takePorts hp).trans (Begun.checkAll _ _ _ _ _ _).1).quiet
  have hf := hi.filter_passed hq hl
  unfold storeOp
  simp only [State.pullPorts_ok hp, List.nil_append]
  unfold State.storeChecked State.laneChecks at *
  simp only [ha.failed, State.parkFailed_nil, hf]

/-- ST when no active lane faults: the path moves on, and each active position's data is under way. -/
theorem storeOp_issued {s : State} (hi : Issuing s) {x : XHead} {a : Opd} {off : AddrOff} {c : Opd} (hp : PortsOk s x (offPorts off ++ [.reg c]))
    {fmt : StFmt} (ha : AllPass (s.laneChecks x (offPorts off ++ [.reg c]) (s.laneVa a off) (stWidth fmt) kWrite (stElem fmt))) (o : MOrd) :
    ∃ t, storeOp x o fmt a off c s = .next t ∧ Moved s t x ∧ AccessFrame s t ∧ (t.core s.cur.core).stack = (s.core s.cur.core).stack ∧
      ∀ L va acc, (L, va, .ok acc) ∈ s.laneChecks x (offPorts off ++ [.reg c]) (s.laneVa a off) (stWidth fmt) kWrite (stElem fmt) →
        StoreSent s t L acc (s.dataWords c (stRegs fmt) L) fmt := by
  have heq := storeOp_eq hi hp ha o
  simp only [] at heq
  generalize hcs : s.laneChecks x (offPorts off ++ [.reg c]) (s.laneVa a off) (stWidth fmt) kWrite (stElem fmt) = cs at ha heq ⊢
  have hents : ∀ L va acc, (L, va, .ok acc) ∈ cs → stElem fmt = true → ∃ e, acc.ent = some e := by
    intro L va acc hm
    rw [← hcs] at hm
    exact (Begun.checkAll _ _ _ _ _ _).2 L va acc hm
  have hc : Begun s (s.storeChecked x (offPorts off ++ [.reg c]) fmt a off) := (Begun.takePorts hp).trans (Begun.checkAll _ _ _ _ _ _).1
  generalize s.storeChecked x (offPorts off ++ [.reg c]) fmt a off = u at heq hc
  have hone := fun (b : State) (r : Nat × Dword × Acc) => State.startStore_sent b r.1 r.2.2 o fmt (s.dataWords c (stRegs fmt) r.1) u.nextId
  obtain ⟨hm, hf, hst⟩ := (hc.trans (Begun.foldl _ (fun b r => (hone b r).1) (s.byHome (fun r => r.1) (passed cs)) u)).retire hi x
  refine ⟨_, heq, hm, hf, hst, fun L va acc hmem => ?_⟩
  have hin : (L, va, acc) ∈ s.byHome (fun r : Nat × Dword × Acc => r.1) (passed cs) := mem_sortBy.mpr (mem_passed.mpr hmem)
  have hfold := foldl_reaches (Begun s) (fun t => StoreSent s t L acc (s.dataWords c (stRegs fmt) L) fmt) hin
    (fun b r _ hb => hb.trans (hone b r).1) (fun b hb => ((hone b (L, va, acc)).2 (hents L va acc hmem)).mono hb fun _ h => h)
    (fun b r _ _ hs => hs.mono (.refl s) (hone b r).1.flights) hc
  exact hfold.mono (.refl s) fun _ h => h

/-! ### The data of a store -/

theorem length_wordBytes_flatMap (ws : List Word) : (ws.flatMap fun w => leBytes 4 w.toNat).length = 4 * ws.length := by
  induction ws with
  | nil => rfl
  | cons w r ih => rw [List.flatMap_cons, List.length_append, ih, length_leBytes, List.length_cons]; omega

/-- The low bytes of the registers an access reads are those of four (R177). -/
theorem wordBytes_dataWords (s : State) (c : Opd) (L : Nat) {k n : Nat} (hk : k ≤ 4) (hn : n ≤ 4 * k) :
    wordBytes (s.dataWords c k L) n = s.storeBytes c n L := by
  have h4 : List.range 4 = List.range k ++ (List.range (4 - k)).map (k + ·) := by
    rw [← List.range_add, Nat.add_sub_cancel' hk]
  rw [wordBytes, State.storeBytes, State.dataWords, h4, List.flatMap_append, List.take_append_of_le_length, List.flatMap_map]
  rw [← List.flatMap_map (f := fun k => s.regAt c k L) (g := fun w : Word => leBytes 4 w.toNat), length_wordBytes_flatMap]
  simpa using hn

theorem dataWords_getD (s : State) (c : Opd) {cnt k : Nat} (L : Nat) (hk : k < cnt) : (s.dataWords c cnt L).getD k 0 = s.regAt c k L := by
  simp [State.dataWords, List.getD_eq_getElem?_getD, hk]

theorem halfword_toNat (w : Word) (k : Nat) :
    (w.extractLsb' (16 * (k % 2)) 16).toNat = if k % 2 = 0 then w.toNat % 65536 else w.toNat / 65536 := by
  rw [BitVec.extractLsb'_toNat, Nat.shiftRight_eq_div_pow]
  rcases Nat.mod_two_eq_zero_or_one k with h | h
  · simp [h]
  · have := w.isLt
    rw [h, if_neg one_ne_zero]
    omega

/-- An element of a store's data (R178, R179). -/
theorem elemOf_dataWords (s : State) (c : Opd) (L : Nat) {n : Elt} {ty : Ty} {k : Nat} (hk : k < n.n) :
    elemOf ty (s.dataWords c (eltRegs n ty) L) k = s.storeElem c ty L k := by
  unfold elemOf State.storeElem eltRegs
  split
  · exact dataWords_getD s c L hk
  · rw [dataWords_getD s c L (by omega), halfword_toNat]

/-- A store is `ST`'s operation on its operands. -/
theorem exec_store {i : Instr} {r : StoreIs} (h : storeIs i = some r) (s : State) : ∃ o, exec i s = storeOp r.x o r.fmt r.a r.off r.c s := by
  cases i <;> simp only [storeIs, Option.some.injEq, reduceCtorEq] at h
  case st x hint o fmt a off c => subst h; exact ⟨o, rfl⟩
  all_goals
    subst h
    rw [← baseDisp_eq]
    exact ⟨_, rfl⟩

theorem StoreIs.checks_eq (r : StoreIs) (s : State) :
    r.checks s = s.laneChecks r.x (offPorts r.off ++ [.reg r.c]) (s.laneVa r.a r.off) (stWidth r.fmt) kWrite (stElem r.fmt) := by
  unfold StoreIs.checks
  cases r.fmt <;> rfl

/-- Settles O16, by the operation that every store is. -/
theorem storesIssued : Obligations.StoresIssued := by
  intro i r hr _ s hi hp ha
  obtain ⟨o, he⟩ := exec_store hr s
  rw [StoreIs.checks_eq] at ha ⊢
  obtain ⟨t, ht, hm, hf, hst, hl⟩ := storeOp_issued hi hp ha o
  refine ⟨t, he.trans ht, hm, hf, hst, fun L va acc hmem => ?_⟩
  have hsent := hl L va acc hmem
  cases hfmt : r.fmt with
  | raw w =>
    rw [hfmt] at hsent
    have hbytes := wordBytes_dataWords s r.c L (k := w.regs) (n := w.bytes) (by cases w <;> decide) (by cases w <;> decide)
    show UnderWay s t L acc.space w.bytes (.store (s.storeBytes r.c w.bytes L))
    rw [← hbytes]
    exact hsent
  | elems n ty rm sr =>
    rw [hfmt] at hsent
    obtain ⟨e, hent, hw⟩ := hsent
    refine ⟨e, hent, fun k hk => ?_⟩
    rw [← elemOf_dataWords s r.c L hk]
    exact hw k hk

end Sys2Proof.Machine
end

section
namespace Sys2Proof.Machine

/-! ### The form of the maps of threads, groups, teams and worlds

A held instruction acts on the registers that its issue found (R58), which its probe keeps and no map's form is asked of; they stand
in its team while it acts, and what was there is put back. So the form is asked of register maps at some places of each team only. -/

/-- Places of a team where register maps are asked to be in their form: its own registers, those of its groups by number (none for the
lead thread), of its conjugate groups by name, and of threads by group and lane. -/
structure Places where
  t : Prop
  grp : Option Nat → Prop
  conj : Nat → Prop
  th : Option Nat → Nat → Prop

/-- Every place. -/
def Places.all : Places := ⟨True, fun _ => True, fun _ => True, fun _ _ => True⟩

/-- A thread's maps rise, that of its registers where it is asked. -/
structure Thread.Tabs (r : Prop) (th : Thread) : Prop where
  v : r → tabRises th.v
  c : tabRises th.c

/-- A group object's maps rise, those of registers and streams where the group's name is asked, those of threads where their lanes are. -/
structure Group.Tabs (R T : Nat → Prop) (x : Group) : Prop where
  g : R x.id → tabRises x.g
  marks : tabRises x.marks
  streams : R x.id → tabRises x.streams
  al : tabRises x.al
  threads : ∀ (l : Nat) (th : Thread), x.threads[l]? = some th → th.Tabs (T l)

/-- A team's maps are in their form at some places. -/
structure Team.Tabs (E : Places) (x : Team) : Prop where
  scratch : Memory.wf x.scratch = true
  t : E.t → tabRises x.t
  tiles : tabRises x.tiles
  cells : ∀ y ∈ x.tiles, tabRises y.2.c
  groups : ∀ (n : Nat) (g : Group), x.groups[n]? = some g → g.Tabs (fun _ => E.grp (some n)) (E.th (some n))
  conj : ∀ g ∈ x.conj, g.Tabs E.conj fun _ => True
  lead : ∀ g, x.lead = some g → g.Tabs (fun _ => E.grp none) (E.th none)

/-- A world's free lists rise. -/
def World.Tabs (w : World) : Prop := tabRises w.free

theorem forall_mem_iff_getElem? {α : Type} {P : α → Prop} {l : List α} : (∀ x ∈ l, P x) ↔ ∀ (n : Nat) (x : α), l[n]? = some x → P x :=
  ⟨fun h _ x hx => h x (List.mem_of_getElem? hx), fun h x hx => by
    obtain ⟨n, hn⟩ := List.mem_iff_getElem?.mp hx
    exact h n x hn⟩

theorem Group_tabs_iff {g : Group} : Group_tabs g = true ↔ g.Tabs (fun _ => True) fun _ => True := by
  simp only [Group_tabs, Bool.and_eq_true, decide_eq_true_eq, List.all_eq_true]
  rw [forall_mem_iff_getElem?]
  exact ⟨fun ⟨⟨⟨⟨h1, h2⟩, h3⟩, h4⟩, h5⟩ => ⟨fun _ => h1, h2, fun _ => h3, h4, fun l th hm => ⟨fun _ => (h5 l th hm).1, (h5 l th hm).2⟩⟩,
    fun ⟨h1, h2, h3, h4, h5⟩ => ⟨⟨⟨⟨h1 trivial, h2⟩, h3 trivial⟩, h4⟩, fun l th hm => ⟨(h5 l th hm).v trivial, (h5 l th hm).c⟩⟩⟩

theorem Team_tabs_iff {t : Team} : Team_tabs t = true ↔ t.Tabs .all := by
  simp only [Team_tabs, Bool.and_eq_true, decide_eq_true_eq, List.all_eq_true, Group_tabs_iff, Option.mem_toList]
  rw [forall_mem_iff_getElem? (l := t.groups)]
  exact ⟨fun ⟨⟨⟨⟨⟨⟨h1, h2⟩, h3⟩, h4⟩, h5⟩, h6⟩, h7⟩ => ⟨h1, fun _ => h2, h3, h4, h5, h6, h7⟩,
    fun ⟨h1, h2, h3, h4, h5, h6, h7⟩ => ⟨⟨⟨⟨⟨⟨h1, h2 trivial⟩, h3⟩, h4⟩, h5⟩, h6⟩, h7⟩⟩

/-! ### Threads -/

section
variable {r : Prop} {th : Thread}

theorem Thread.tabs_iff : th.Tabs r ↔ (r → tabRises th.v) ∧ tabRises th.c := ⟨fun h => ⟨h.v, h.c⟩, fun h => ⟨h.1, h.2⟩⟩

theorem noThread_tabs : noThread.Tabs r := ⟨fun _ => .nil, .nil⟩

theorem Thread.Tabs.setV (h : th.Tabs r) {n : Nat} {w : Word} : (th.setV n w).Tabs r := ⟨fun k => tabRises_tabSet (h.v k), h.c⟩
theorem Thread.Tabs.setC (h : th.Tabs r) {n : Nat} {x : Capa} : (th.setC n x).Tabs r := ⟨h.v, tabRises_tabSet h.c⟩
theorem Thread.Tabs.setP (h : th.Tabs r) {n : Nat} {b : Bool} : (th.setP n b).Tabs r := by
  unfold Thread.setP
  split
  · exact h
  · exact ⟨h.v, h.c⟩
end

/-! ### Groups -/

section
variable {R T : Nat → Prop} {g : Group}

theorem Group.tabs_iff : g.Tabs R T ↔ (R g.id → tabRises g.g) ∧ tabRises g.marks ∧ (R g.id → tabRises g.streams) ∧ tabRises g.al ∧
    ∀ (l : Nat) (th : Thread), g.threads[l]? = some th → th.Tabs (T l) :=
  ⟨fun h => ⟨h.g, h.marks, h.streams, h.al, h.threads⟩, fun ⟨a, b, c, d, e⟩ => ⟨a, b, c, d, e⟩⟩

theorem Group.tabs_default : ({} : Group).Tabs R T := ⟨fun _ => .nil, .nil, fun _ => .nil, .nil, by simp⟩

theorem Group.Tabs.setG (h : g.Tabs R T) {n : Nat} {w : Word} : (g.setG n w).Tabs R T :=
  ⟨fun k => tabRises_tabSet (h.g k), tabRises_tabDel h.marks, h.streams, h.al, h.threads⟩

theorem Group.Tabs.setTok (h : g.Tabs R T) {n t : Nat} : (g.setTok n t).Tabs R T :=
  ⟨fun k => tabRises_tabSet (h.g k), tabRises_tabPut h.marks, h.streams, h.al, h.threads⟩

theorem Group.Tabs.setStream (h : g.Tabs R T) {k : Nat} {x : Stream} : (g.setStream k x).Tabs R T :=
  ⟨h.g, h.marks, fun r => tabRises_tabSet (h.streams r), h.al, h.threads⟩

/-- Threads replaced by threads in their form. -/
theorem Group.Tabs.withThreads (h : g.Tabs R T) {ths : List Thread} (ht : ∀ (l : Nat) (th : Thread), ths[l]? = some th → th.Tabs (T l)) :
    ({ g with threads := ths } : Group).Tabs R T := ⟨h.g, h.marks, h.streams, h.al, ht⟩

/-- What holds of each element by its number holds after one is set. -/
theorem getElem?_set_of {α : Type} {P : Nat → α → Prop} {l : List α} (h : ∀ (n : Nat) (x : α), l[n]? = some x → P n x) {k : Nat} {y : α}
    (hy : P k y) :
    ∀ (n : Nat) (x : α), (l.set k y)[n]? = some x → P n x := by
  intro n x hx
  rw [List.getElem?_set] at hx
  split at hx
  · next hk =>
    split at hx
    · cases hx; exact hk ▸ hy
    · cases hx
  · exact h n x hx

theorem getElem?_map_of {α β : Type} {P : Nat → α → Prop} {Q : Nat → β → Prop} {l : List α}
    (h : ∀ (n : Nat) (x : α), l[n]? = some x → P n x) {f : α → β}
    (hf : ∀ n x, P n x → Q n (f x)) : ∀ (n : Nat) (y : β), (l.map f)[n]? = some y → Q n y := by
  intro n y hy
  rw [List.getElem?_map] at hy
  obtain ⟨x, hx, rfl⟩ := Option.map_eq_some_iff.mp hy
  exact hf n x (h n x hx)

theorem getElem?_zipIdx_map_of {α β : Type} {P : Nat → α → Prop} {Q : Nat → β → Prop} {l : List α}
    (h : ∀ (n : Nat) (x : α), l[n]? = some x → P n x)
    {f : α × Nat → β} (hf : ∀ n x, P n x → Q n (f (x, n))) : ∀ (n : Nat) (y : β), (l.zipIdx.map f)[n]? = some y → Q n y := by
  intro n y hy
  rw [List.getElem?_map, List.getElem?_zipIdx] at hy
  obtain ⟨p, hp, rfl⟩ := Option.map_eq_some_iff.mp hy
  obtain ⟨x, hx, rfl⟩ := Option.map_eq_some_iff.mp hp
  simpa using hf n x (h n x hx)

theorem getD_of {α : Type} {P : Nat → α → Prop} {l : List α} (h : ∀ (n : Nat) (x : α), l[n]? = some x → P n x) {d : α} (n : Nat)
    (hd : P n d) :
    P n (l.getD n d) := by
  rw [List.getD_eq_getElem?_getD]
  cases hn : l[n]? with
  | none => exact hd
  | some x => exact h n x hn

theorem Group.Tabs.thread (h : g.Tabs R T) (n : Nat) : (g.threads.getD n noThread).Tabs (T n) :=
  getD_of (P := fun n (th : Thread) => th.Tabs (T n)) h.threads n noThread_tabs

theorem Group.Tabs.setThread (h : g.Tabs R T) {n : Nat} {th : Thread} (ht : th.Tabs (T n)) :
    ({ g with threads := g.threads.set n th } : Group).Tabs R T :=
  h.withThreads (getElem?_set_of (P := fun n (th : Thread) => th.Tabs (T n)) h.threads ht)

theorem Group.Tabs.mapThreads (h : g.Tabs R T) {f : Thread → Thread} (hf : ∀ {r : Prop} (th : Thread), th.Tabs r → (f th).Tabs r) :
    ({ g with threads := g.threads.map f } : Group).Tabs R T :=
  h.withThreads (getElem?_map_of (P := fun n (th : Thread) => th.Tabs (T n)) h.threads fun _ th ht => hf th ht)
end

/-! ### Teams -/

section
variable {E : Places} {t : Team}

theorem Team.tabs_iff : t.Tabs E ↔ Memory.wf t.scratch = true ∧ (E.t → tabRises t.t) ∧ tabRises t.tiles ∧ (∀ y ∈ t.tiles, tabRises y.2.c) ∧
    (∀ (n : Nat) (g : Group), t.groups[n]? = some g → g.Tabs (fun _ => E.grp (some n)) (E.th (some n))) ∧
    (∀ g ∈ t.conj, g.Tabs E.conj fun _ => True) ∧ ∀ g, t.lead = some g → g.Tabs (fun _ => E.grp none) (E.th none) :=
  ⟨fun h => ⟨h.scratch, h.t, h.tiles, h.cells, h.groups, h.conj, h.lead⟩, fun ⟨a, b, c, d, e, f, g⟩ => ⟨a, b, c, d, e, f, g⟩⟩

/-- The place of a group: by its number, or the lead thread's. -/
def groupPlace (g : Nat) : Option Nat := if g = leadGrp then none else some g

theorem Team.Tabs.groupAt (h : t.Tabs E) (g : Nat) : (t.groupAt g).Tabs (fun _ => E.grp (groupPlace g)) (E.th (groupPlace g)) := by
  unfold Team.groupAt groupPlace
  split
  · cases hl : t.lead with
    | none => exact Group.tabs_default
    | some x => exact h.lead x hl
  · exact getD_of (P := fun n (x : Group) => x.Tabs (fun _ => E.grp (some n)) (E.th (some n))) h.groups g Group.tabs_default

theorem Team.Tabs.thread (h : t.Tabs E) (g l : Nat) : (t.thread g l).Tabs (E.th (groupPlace g) l) := (h.groupAt g).thread l

theorem Team.Tabs.conjAt (h : t.Tabs E) (k : Nat) : ((t.conj.find? fun c => c.id = k).getD {}).Tabs E.conj fun _ => True := by
  cases hf : t.conj.find? fun c => c.id = k with
  | none => exact Group.tabs_default
  | some g => exact h.conj g (List.mem_of_find?_eq_some hf)

theorem Team.Tabs.setGroupAt (h : t.Tabs E) {g : Nat} {x : Group} (hx : x.Tabs (fun _ => E.grp (groupPlace g)) (E.th (groupPlace g))) :
    (t.setGroupAt g x).Tabs E := by
  unfold Team.setGroupAt
  unfold groupPlace at hx
  split
  · next hg =>
    rw [if_pos hg] at hx
    refine ⟨h.scratch, h.t, h.tiles, h.cells, h.groups, h.conj, fun y hy => ?_⟩
    obtain ⟨z, _, rfl⟩ := Option.map_eq_some_iff.mp hy
    exact hx
  · next hg =>
    rw [if_neg hg] at hx
    exact ⟨h.scratch, h.t, h.tiles, h.cells,
      getElem?_set_of (P := fun n (x : Group) => x.Tabs (fun _ => E.grp (some n)) (E.th (some n))) h.groups hx, h.conj, h.lead⟩

theorem Team.Tabs.modGroupAt (h : t.Tabs E) {g : Nat} {f : Group → Group}
    (hf : ∀ {R T : Nat → Prop} (x : Group), x.Tabs R T → (f x).Tabs R T) :
    (t.modGroupAt g f).Tabs E := h.setGroupAt (hf _ (h.groupAt g))

theorem Team.Tabs.modThread (h : t.Tabs E) {g l : Nat} {f : Thread → Thread} (hf : ∀ {r : Prop} (x : Thread), x.Tabs r → (f x).Tabs r) :
    (t.modThread g l f).Tabs E := h.modGroupAt fun _ hx => hx.setThread (hf _ (hx.thread l))

theorem Team.Tabs.modThreadAt (h : t.Tabs E) {a : Actor} {L : Nat} {f : Thread → Thread}
    (hf : ∀ {r : Prop} (x : Thread), x.Tabs r → (f x).Tabs r) : (t.modThreadAt a L f).Tabs E := by
  unfold Team.modThreadAt
  split
  · exact h.modThread hf
  · exact h

theorem forall_mem_map {α β : Type} {P : β → Prop} {f : α → β} {l : List α} (h : ∀ x ∈ l, P (f x)) : ∀ y ∈ l.map f, P y := by
  intro y hy
  obtain ⟨x, hx, rfl⟩ := List.mem_map.mp hy
  exact h x hx

theorem forall_mem_mapIf {α : Type} {P : α → Prop} {l : List α} (h : ∀ x ∈ l, P x) {p : α → Bool} {f : α → α} (hf : ∀ x, P x → P (f x)) :
    ∀ y ∈ mapIf l p f, P y := by
  refine forall_mem_map fun x hx => ?_
  split
  · exact hf x (h x hx)
  · exact h x hx

theorem Team.Tabs.withConj (h : t.Tabs E) {gs : List Group} (hg : ∀ g ∈ gs, g.Tabs E.conj fun _ => True) :
    ({ t with conj := gs } : Team).Tabs E :=
  ⟨h.scratch, h.t, h.tiles, h.cells, h.groups, hg, h.lead⟩

theorem Team.Tabs.modActor (h : t.Tabs E) {a : Actor} {f : Group → Group}
    (hf : ∀ {R T : Nat → Prop} (x : Group), x.Tabs R T → (f x).Tabs R T) :
    (t.modActor a f).Tabs E := by
  cases a with
  | grp n => exact h.modGroupAt hf
  | lead => exact h.modGroupAt hf
  | conj k => exact h.withConj (forall_mem_mapIf h.conj hf)

theorem Team.Tabs.setT (h : t.Tabs E) {n : Nat} {w : Word} : (t.setT n w).Tabs E :=
  ⟨h.scratch, fun k => tabRises_tabSet (h.t k), h.tiles, h.cells, h.groups, h.conj, h.lead⟩

/-- What holds of every value listed, and of a value set, holds of every value listed then. -/
theorem forall_tabSet {α : Type} [DecidableEq α] {P : α → Prop} {t : List (Nat × α)} (h : ∀ x ∈ t, P x.2) {k : Nat} {x d : α} (hx : P x) :
    ∀ y ∈ tabSet t k x d, P y.2 := by
  intro y hy
  unfold tabSet at hy
  split at hy
  · exact h y (mem_tabDel hy)
  · rcases mem_tabPut hy with rfl | hy
    · exact hx
    · exact h y hy

theorem tabGet_of_forall {α : Type} {P : α → Prop} {t : List (Nat × α)} (h : ∀ x ∈ t, P x.2) (k : Nat) {d : α} (hd : P d) :
    P (tabGet t k d) := by
  induction t with
  | nil => exact hd
  | cons e r ih =>
    unfold tabGet
    split
    · exact h e List.mem_cons_self
    · split
      · exact hd
      · exact ih fun x hx => h x (List.mem_cons_of_mem e hx)

theorem Team.Tabs.tile (h : t.Tabs E) (n : Nat) : tabRises (t.tile n).c :=
  tabGet_of_forall (P := fun x : Tile => tabRises x.c) h.cells n .nil

theorem Team.Tabs.setTile (h : t.Tabs E) {n : Nat} {x : Tile} (hx : tabRises x.c) : (t.setTile n x).Tabs E :=
  ⟨h.scratch, h.t, tabRises_tabSet h.tiles, forall_tabSet (P := fun x : Tile => tabRises x.c) h.cells hx, h.groups, h.conj, h.lead⟩

theorem Tile.setCell_tabs {x : Tile} (h : tabRises x.c) {r c : Nat} {w : Word} : tabRises (x.setCell r c w).c := tabRises_tabSet h

/-- Updates, one after the other, that each keep the form. -/
theorem Team.Tabs.foldl {α : Type} {f : Team → α → Team} {l : List α} (h : t.Tabs E) (hf : ∀ (t : Team) a, t.Tabs E → (f t a).Tabs E) :
    (l.foldl f t).Tabs E := foldl_keeps (Team.Tabs E) f (fun b a hb => hf b a hb) l t h

theorem Group.Tabs.foldl {α : Type} {R T : Nat → Prop} {f : Group → α → Group} {l : List α} {g : Group} (h : g.Tabs R T)
    (hf : ∀ (g : Group) a, g.Tabs R T → (f g a).Tabs R T) : (l.foldl f g).Tabs R T :=
      foldl_keeps (Group.Tabs R T) f (fun b a hb => hf b a hb) l g h

theorem Thread.Tabs.foldl {α : Type} {r : Prop} {f : Thread → α → Thread} {l : List α} {th : Thread} (h : th.Tabs r)
    (hf : ∀ (th : Thread) a, th.Tabs r → (f th a).Tabs r) : (l.foldl f th).Tabs r :=
      foldl_keeps (Thread.Tabs r) f (fun b a hb => hf b a hb) l th h
end

/-! ### The machine -/

/-- Every map is in its form, those of registers at the places that each team's number names. -/
structure State.Forms (X : Nat → Places) (s : State) : Prop where
  seals : tabRises s.seals
  lastW : tabRises s.lastW
  worlds : tabRises s.worlds
  cores : tabRises s.cores
  free : ∀ x ∈ s.worlds, x.2.Tabs
  teams : ∀ t ∈ s.teams, t.Tabs (X t.id)
  ids : (s.teams.map (·.id)).Nodup
  below : ∀ t ∈ s.teams, t.id < s.nextTeam

theorem State.tables_iff {s : State} : s.Tables ↔ s.Forms fun _ => .all :=
  ⟨fun h => ⟨h.seals, h.lastW, h.worlds, h.cores, h.free, fun t ht => Team_tabs_iff.mp (h.teams t ht), h.ids, h.below⟩,
    fun h => ⟨h.seals, h.lastW, h.worlds, h.cores, h.free, fun t ht => Team_tabs_iff.mpr (h.teams t ht), h.ids, h.below⟩⟩

section
variable {X : Nat → Places} {s : State}

/-- The parts that the form is about stand. -/
theorem State.Forms.congr {t : State} (h : s.Forms X) (h1 : t.seals = s.seals) (h2 : t.lastW = s.lastW) (h3 : t.worlds = s.worlds)
    (h4 : t.cores = s.cores) (h5 : t.teams = s.teams) (h6 : t.nextTeam = s.nextTeam) : t.Forms X := by
  obtain ⟨a, b, c, d, e, f, g, i⟩ := h
  exact ⟨h1 ▸ a, h2 ▸ b, h3 ▸ c, h4 ▸ d, h3 ▸ e, h5 ▸ f, h5 ▸ g, h5 ▸ h6 ▸ i⟩

theorem State.Forms.foldl {α : Type} {f : State → α → State} {l : List α} (h : s.Forms X)
    (hf : ∀ (s : State) a, s.Forms X → (f s a).Forms X) :
    (l.foldl f s).Forms X := foldl_keeps (State.Forms X) f (fun b a hb => hf b a hb) l s h

theorem State.Forms.ite {t : State} (hs : s.Forms X) (ht : t.Forms X) {p : Prop} [Decidable p] : (if p then s else t).Forms X := by
  split
  · exact hs
  · exact ht

theorem State.Forms.ite_snd {α : Type} {a b : α × State} (ha : a.2.Forms X) (hb : b.2.Forms X) {p : Prop} [Decidable p] :
    (if p then a else b).2.Forms X := by
  split
  · exact ha
  · exact hb

/-- The same, where the updates answer something beside the state. -/
theorem State.Forms.foldl_snd {α β : Type} {f : β × State → α → β × State} {l : List α} {r : β × State} (h : r.2.Forms X)
    (hf : ∀ (r : β × State) a, r.2.Forms X → (f r a).2.Forms X) : (l.foldl f r).2.Forms X := foldl_keeps (fun r => r.2.Forms X) f hf l r h

theorem State.Forms.foldl_snd_snd {α β γ : Type} {f : β × γ × State → α → β × γ × State} {l : List α} {r : β × γ × State}
    (h : r.2.2.Forms X) (hf : ∀ (r : β × γ × State) a, r.2.2.Forms X → (f r a).2.2.Forms X) : (l.foldl f r).2.2.Forms X :=
  foldl_keeps (fun r => r.2.2.Forms X) f hf l r h

theorem Team.tabs_default {E : Places} (id launch num core : Nat) :
    ({ id := id, launch := launch, num := num, core := core } : Team).Tabs E :=
  ⟨rfl, fun _ => .nil, .nil, by simp, by simp, by simp, by simp⟩

theorem State.Forms.team (h : s.Forms X) (k : Nat) : (s.team k).Tabs (X k) := by
  unfold State.team State.team?
  cases hf : s.teams.find? fun x => x.id = k with
  | none => exact Team.tabs_default _ _ _ _
  | some t =>
    have hid : t.id = k := by simpa using List.find?_some hf
    exact hid ▸ h.teams t (List.mem_of_find?_eq_some hf)

theorem State.Forms.ct (h : s.Forms X) : s.ct.Tabs (X s.cur.team) := h.team _

/-- Teams rewritten one by one, under their numbers. -/
theorem State.Forms.mapTeams (h : s.Forms X) {f : Team → Team} (hf : ∀ {E : Places} (t : Team), t.Tabs E → (f t).Tabs E)
    (hid : ∀ t, (f t).id = t.id) : ({ s with teams := s.teams.map f } : State).Forms X := by
  have hids : (s.teams.map f).map (·.id) = s.teams.map (·.id) := by
    rw [List.map_map]; exact List.map_congr_left fun t _ => hid t
  refine ⟨h.seals, h.lastW, h.worlds, h.cores, h.free, forall_mem_map fun t ht => ?_, ?_, forall_mem_map fun t ht => ?_⟩
  · rw [hid]; exact hf t (h.teams t ht)
  · exact hids ▸ h.ids
  · rw [hid]; exact h.below t ht

theorem State.Forms.mapIfTeams (h : s.Forms X) {p : Team → Bool} {f : Team → Team} (hf : ∀ {E : Places} (t : Team), t.Tabs E → (f t).Tabs E)
    (hid : ∀ t, (f t).id = t.id) : ({ s with teams := mapIf s.teams p f } : State).Forms X := by
  refine h.mapTeams (fun t ht => ?_) fun t => ?_ <;> split
  · exact hf t ht
  · exact ht
  · exact hid t
  · rfl

/-- Some teams are no longer there. -/
theorem State.Forms.dropTeams (h : s.Forms X) (p : Team → Bool) : ({ s with teams := s.teams.filter p } : State).Forms X :=
  ⟨h.seals, h.lastW, h.worlds, h.cores, h.free, fun t ht => h.teams t (List.mem_of_mem_filter ht),
    h.ids.sublist (List.filter_sublist.map _), fun t ht => h.below t (List.mem_of_mem_filter ht)⟩

theorem State.Forms.modTeam (h : s.Forms X) {k : Nat} {f : Team → Team} (hf : ∀ {E : Places} (t : Team), t.Tabs E → (f t).Tabs E)
    (hid : ∀ t, (f t).id = t.id) : (s.modTeam k f).Forms X := h.mapIfTeams hf hid

/-- One team's register maps are now asked about at other places. -/
theorem State.Forms.modTeamTo {Y : Nat → Places} (h : s.Forms X) {k : Nat} {f : Team → Team} (hY : ∀ i, i ≠ k → Y i = X i)
    (hf : ∀ t : Team, t.Tabs (X k) → (f t).Tabs (Y k)) (hid : ∀ t, (f t).id = t.id) : (s.modTeam k f).Forms Y := by
  have hids : (mapIf s.teams (fun t => t.id = k) f).map (·.id) = s.teams.map (·.id) := by
    unfold mapIf
    rw [List.map_map]
    refine List.map_congr_left fun t _ => ?_
    show (if _ then _ else _ : Team).id = t.id
    split
    · exact hid t
    · rfl
  refine ⟨h.seals, h.lastW, h.worlds, h.cores, h.free, forall_mem_map fun t ht => ?_, ?_, forall_mem_map fun t ht => ?_⟩
  · split
    · next hk =>
      have hk : t.id = k := by simpa using hk
      rw [hid, hk]
      exact hf t (hk ▸ h.teams t ht)
    · next hk =>
      have hk : t.id ≠ k := by simpa using hk
      rw [hY _ hk]
      exact h.teams t ht
  · exact hids ▸ h.ids
  · split
    · rw [hid]; exact h.below t ht
    · exact h.below t ht

theorem State.Forms.modCt (h : s.Forms X) {f : Team → Team} (hf : ∀ {E : Places} (t : Team), t.Tabs E → (f t).Tabs E)
    (hid : ∀ t, (f t).id = t.id) : (s.modCt f).Forms X := h.modTeam hf hid

theorem State.Forms.modCg (h : s.Forms X) {f : Group → Group} (hf : ∀ {R T : Nat → Prop} (g : Group), g.Tabs R T → (f g).Tabs R T) :
    (s.modCg f).Forms X := h.modCt (fun _ ht => ht.modActor hf) fun _ => Team.modActor_id _ _ _

theorem State.Forms.modCore (h : s.Forms X) {k : Nat} {f : Core → Core} : (s.modCore k f).Forms X :=
  ⟨h.seals, h.lastW, h.worlds, tabRises_tabSet h.cores, h.free, h.teams, h.ids, h.below⟩

theorem State.Forms.world (h : s.Forms X) (w : Nat) : (s.world w).Tabs := tabGet_of_forall (P := World.Tabs) h.free w .nil

theorem State.Forms.setWorld (h : s.Forms X) {w : Nat} {x : World} (hx : x.Tabs) : (s.setWorld w x).Forms X :=
  ⟨h.seals, h.lastW, tabRises_tabSet h.worlds, h.cores, forall_tabSet (P := World.Tabs) h.free hx, h.teams, h.ids, h.below⟩

theorem State.Forms.modWorld (h : s.Forms X) {w : Nat} {f : World → World} (hf : ∀ x : World, x.Tabs → (f x).Tabs) :
    (s.modWorld w f).Forms X :=
  h.setWorld (hf _ (h.world w))

theorem State.Forms.modDie (h : s.Forms X) {k : Nat} {f : Die → Die} : (s.modDie k f).Forms X := h.congr rfl rfl rfl rfl rfl rfl
theorem State.Forms.modPort (h : s.Forms X) {k : Nat} {f : Port → Port} : (s.modPort k f).Forms X := h.congr rfl rfl rfl rfl rfl rfl
theorem State.Forms.modQueue (h : s.Forms X) {k : Nat} {f : Queue → Queue} : (s.modQueue k f).Forms X := h.congr rfl rfl rfl rfl rfl rfl
theorem State.Forms.modLaunch (h : s.Forms X) {k : Nat} {f : Launch → Launch} : (s.modLaunch k f).Forms X := h.congr rfl rfl rfl rfl rfl rfl
theorem State.Forms.fresh (h : s.Forms X) : s.fresh.2.Forms X := h.congr rfl rfl rfl rfl rfl rfl
end

/-- A state that a call answers beside something else. -/
theorem State.Forms.of_eq2 {X : Nat → Places} {α : Type} {p : α × State} {a : α} {t : State} (e : p = (a, t)) (h : p.2.Forms X) :
    t.Forms X := by
  rw [e] at h
  exact h

/-- The state of an answer written out. -/
theorem State.Forms.snd_mk {X : Nat → Places} {α : Type} {a : α} {t : State} (h : t.Forms X) : (a, t).2.Forms X := h
theorem State.Forms.snd_snd_mk {X : Nat → Places} {α β : Type} {a : α} {b : β} {t : State} (h : t.Forms X) : (a, b, t).2.2.Forms X := h

theorem State.Forms.ite_snd_snd {X : Nat → Places} {α β : Type} {a b : α × β × State} (ha : a.2.2.Forms X) (hb : b.2.2.Forms X) {p : Prop}
    [Decidable p] :
    (if p then a else b).2.2.Forms X := by
  split
  · exact ha
  · exact hb

/-! Fields that the form is not about. -/

section
variable {X : Nat → Places} {s : State}

theorem State.Forms.withFlights (h : s.Forms X) {l : List Flight} : ({ s with flights := l } : State).Forms X :=
  h.congr rfl rfl rfl rfl rfl rfl

theorem State.Forms.withPends (h : s.Forms X) {l : List Pend} : ({ s with pends := l } : State).Forms X := h.congr rfl rfl rfl rfl rfl rfl
theorem State.Forms.withEscs (h : s.Forms X) {l : List EscReq} : ({ s with escs := l } : State).Forms X := h.congr rfl rfl rfl rfl rfl rfl
theorem State.Forms.withWalks (h : s.Forms X) {l : List Walk} : ({ s with walks := l } : State).Forms X := h.congr rfl rfl rfl rfl rfl rfl
theorem State.Forms.withProbes (h : s.Forms X) {l : List Probe} : ({ s with probes := l } : State).Forms X :=
  h.congr rfl rfl rfl rfl rfl rfl

theorem State.Forms.withInvals (h : s.Forms X) {l : List Inval} : ({ s with invals := l } : State).Forms X :=
  h.congr rfl rfl rfl rfl rfl rfl

theorem State.Forms.withEgress (h : s.Forms X) {l : List Remote} : ({ s with egress := l } : State).Forms X :=
  h.congr rfl rfl rfl rfl rfl rfl

theorem State.Forms.withLates (h : s.Forms X) {l : List Late} : ({ s with lates := l } : State).Forms X := h.congr rfl rfl rfl rfl rfl rfl
theorem State.Forms.withParks (h : s.Forms X) {l : List Park} : ({ s with parks := l } : State).Forms X := h.congr rfl rfl rfl rfl rfl rfl
theorem State.Forms.withIssueQ (h : s.Forms X) {l : List (IssueCtx × Instr)} : ({ s with issueQ := l } : State).Forms X :=
  h.congr rfl rfl rfl rfl rfl rfl

theorem State.Forms.withAgenda (h : s.Forms X) {l : List Turn} : ({ s with agenda := l } : State).Forms X := h.congr rfl rfl rfl rfl rfl rfl
theorem State.Forms.withEngines (h : s.Forms X) {l : List Engine} : ({ s with engines := l } : State).Forms X :=
  h.congr rfl rfl rfl rfl rfl rfl

theorem State.Forms.withFree (h : s.Forms X) {n : Nat} : ({ s with free := n } : State).Forms X := h.congr rfl rfl rfl rfl rfl rfl
theorem State.Forms.withHomes (h : s.Forms X) {l : List HomeSt} : ({ s with homes := l } : State).Forms X := h.congr rfl rfl rfl rfl rfl rfl
theorem State.Forms.withFences (h : s.Forms X) {l : List Fence} : ({ s with fences := l } : State).Forms X :=
  h.congr rfl rfl rfl rfl rfl rfl

theorem State.Forms.withLaunches (h : s.Forms X) {l : List Launch} : ({ s with launches := l } : State).Forms X :=
  h.congr rfl rfl rfl rfl rfl rfl

theorem State.Forms.withQueues (h : s.Forms X) {l : Tab Queue} : ({ s with queues := l } : State).Forms X := h.congr rfl rfl rfl rfl rfl rfl
theorem State.Forms.withStage (h : s.Forms X) {x : Nat} : ({ s with stage := x } : State).Forms X := h.congr rfl rfl rfl rfl rfl rfl
theorem State.Forms.withPoint (h : s.Forms X) {x : BitVec 16} : ({ s with point := x } : State).Forms X := h.congr rfl rfl rfl rfl rfl rfl
theorem State.Forms.withNextId (h : s.Forms X) {x : Nat} : ({ s with nextId := x } : State).Forms X := h.congr rfl rfl rfl rfl rfl rfl
theorem State.Forms.withSessions (h : s.Forms X) {l : List Session} : ({ s with sessions := l } : State).Forms X :=
  h.congr rfl rfl rfl rfl rfl rfl
end

/-- What an operation may leave: it completes in a state whose maps are in their form, or not at all. -/
def OutForms (X : Nat → Places) (o : Out) : Prop := ∀ t, o = .next t → t.Forms X

theorem OutForms.next {X : Nat → Places} {s : State} (h : s.Forms X) : OutForms X (.next s) := fun t e => by cases e; exact h

theorem OutForms.refused {X : Nat → Places} {r : Refusal} : OutForms X (.refused r) := fun t e => by cases e

theorem OutForms.ite {X : Nat → Places} {o o' : Out} (h : OutForms X o) (h' : OutForms X o') {p : Prop} [Decidable p] :
    OutForms X (if p then o else o') := by
  split
  · exact h
  · exact h'

end Sys2Proof.Machine
end

section
namespace Sys2Proof.Machine

/-! ### Updates of threads that keep the form of their maps -/

/-- Nothing changes but what the form is not about. -/
theorem Thread.Tabs.congr {r : Prop} {a b : Thread} (h : a.Tabs r) (hv : b.v = a.v) (hc : b.c = a.c) : b.Tabs r := ⟨hv ▸ h.v, hc ▸ h.c⟩

theorem Thread_rcvEnd_tabs {r : Prop} {th : Thread} (h : th.Tabs r) {v : Bool} : (Thread_rcvEnd th v).Tabs r := by
  unfold Thread_rcvEnd
  split
  · exact h.setP.congr rfl rfl
  · exact h

theorem Thread_barEnd_tabs {r : Prop} {th : Thread} (h : th.Tabs r) {n gen : Nat} : (Thread_barEnd th n gen).Tabs r := by
  unfold Thread_barEnd
  split
  · exact h.congr rfl rfl
  · exact h

theorem Thread_putRegs_tabs {r : Prop} {th : Thread} (h : th.Tabs r) {no : Nat} {ws : List Word} : (Thread_putRegs th no ws).Tabs r :=
  h.foldl fun _ _ h => h.setV

/-! ### Updates of group objects -/

theorem Group.Tabs.congr {R T : Nat → Prop} {a b : Group} (h : a.Tabs R T) (hid : b.id = a.id) (hg : b.g = a.g) (hm : b.marks = a.marks)
    (hs : b.streams = a.streams) (hl : b.al = a.al)
    (ht : b.threads = a.threads) : b.Tabs R T := ⟨hid ▸ hg ▸ h.g, hm ▸ h.marks, hid ▸ hs ▸ h.streams, hl ▸ h.al, ht ▸ h.threads⟩

/-- Streams rewritten where they are listed. -/
theorem Group.Tabs.mapStreams {R T : Nat → Prop} {g : Group} (h : g.Tabs R T) {f : Nat × Stream → Stream} :
    ({ g with streams := g.streams.map fun x => (x.1, f x) } : Group).Tabs R T :=
  ⟨h.g, h.marks, fun k => tabRises_map (fun _ => rfl) (h.streams k), h.al, h.threads⟩

theorem Group_done_tabs {R T : Nat → Prop} {g : Group} (h : g.Tabs R T) {t : Nat} {y : Bool} : (Group_done t y g).Tabs R T :=
  h.congr rfl rfl rfl rfl rfl rfl

theorem Group_endPins_tabs {R T : Nat → Prop} {g : Group} (h : g.Tabs R T) {r : Nat × Nat} : (Group_endPins g r).Tabs R T := h.mapStreams

theorem Group_rcvComplete_tabs {R T : Nat → Prop} {g : Group} (h : g.Tabs R T) {b : Nat} : (Group_rcvComplete g b).Tabs R T := by
  unfold Group_rcvComplete
  dsimp only
  split
  · refine (h.mapThreads fun th ht => ?_).congr rfl rfl rfl rfl rfl rfl
    split
    · exact (Thread_rcvEnd_tabs ht).congr rfl rfl
    · exact ht.congr rfl rfl
  · exact h

theorem Group_rcvTimeout_tabs {R T : Nat → Prop} {g : Group} (h : g.Tabs R T) {b : Nat} : (Group_rcvTimeout g b).Tabs R T := by
  unfold Group_rcvTimeout
  refine (h.mapThreads fun th ht => ?_).congr rfl rfl rfl rfl rfl rfl
  dsimp only
  split
  · exact (Thread_rcvEnd_tabs ht).congr rfl rfl
  · exact ht

theorem Group_rcvAll_tabs {R T : Nat → Prop} {g : Group} (h : g.Tabs R T) : (Group_rcvAll g).Tabs R T :=
  h.foldl fun _ _ h => Group_rcvComplete_tabs h

theorem Group_expire_tabs {R T : Nat → Prop} {g : Group} (h : g.Tabs R T) {now : Nat} : (Group_expire g now).Tabs R T :=
  h.foldl fun _ _ h => Group_rcvTimeout_tabs h

theorem Group_barEnd_tabs {R T : Nat → Prop} {g : Group} (h : g.Tabs R T) {n gen : Nat} : (Group_barEnd g n gen).Tabs R T :=
  h.mapThreads fun _ h => Thread_barEnd_tabs h

theorem Group_retire_tabs {R T : Nat → Prop} {g : Group} (h : g.Tabs R T) : (Group_retire g).Tabs R T := by
  unfold Group_retire
  split
  · exact h.congr rfl rfl rfl rfl rfl rfl
  · exact h

theorem Group_arrive_tabs {R T : Nat → Prop} {g : Group} (h : g.Tabs R T) {l b : Nat} {p : BitVec 3} {exp : Option Nat} :
    (Group_arrive g l b p exp).Tabs R T := by
  unfold Group_arrive
  refine Group.Tabs.congr (h.setThread (n := l) ?_) rfl rfl rfl rfl rfl rfl
  exact (h.thread l).congr rfl rfl

theorem Group_configure_tabs {R T : Nat → Prop} {g : Group} (h : g.Tabs R T) {k id : Nat} {x : Stream} :
    (Group_configure k id x g).Tabs R T :=
  h.setStream

theorem Group_acquireNow_tabs {R T : Nat → Prop} {g : Group} (h : g.Tabs R T) {gtc : Nat} : (Group_acquireNow g gtc).Tabs R T :=
  h.congr rfl rfl rfl rfl rfl rfl

theorem Group_invalDone_tabs {R T : Nat → Prop} {g : Group} (h : g.Tabs R T) {id t : Nat} : (Group_invalDone g id t).Tabs R T := by
  unfold Group_invalDone
  split
  · exact h.congr rfl rfl rfl rfl rfl rfl
  · exact h

theorem Group_stop_tabs {R T : Nat → Prop} {g : Group} (h : g.Tabs R T) : (Group_stop g).Tabs R T :=
  (h.mapStreams).congr rfl rfl rfl rfl rfl rfl

theorem Group_saved_tabs {R T : Nat → Prop} {g : Group} (h : g.Tabs R T) {now : Nat} : (Group_saved g now).Tabs R T :=
  (h.mapThreads (f := fun th => { th with ready := 0 }) fun _ ht => ht.congr rfl rfl).congr rfl rfl rfl rfl rfl rfl

theorem Group_rebased_tabs {R T : Nat → Prop} {g : Group} (h : g.Tabs R T) {now : Nat} : (Group_rebased g now).Tabs R T :=
  h.congr rfl rfl rfl rfl rfl rfl

/-- A map built by writes from the empty one rises. -/
theorem tabRises_build {α β : Type} [DecidableEq α] (l : List β) (k : β → Nat) (x : β → α) (d : α) :
    tabRises (l.foldl (fun t n => tabSet t (k n) (x n) d) []) :=
  foldl_keeps (fun t : List (Nat × α) => tabRises t) _ (fun _ _ h => tabRises_tabSet h) l [] .nil

theorem Group_load_tabs {R T : Nat → Prop} {g : Group} (h : g.Tabs R T) {hd : Header} {bs : List Byte} : (Group_load g hd bs).Tabs R T := by
  unfold Group_load
  exact ⟨fun _ => tabRises_build _ _ _ _, h.marks, h.streams, h.al,
    getElem?_zipIdx_map_of (P := fun n (th : Thread) => th.Tabs (T n)) h.threads fun _ _ _ =>
      ⟨fun _ => tabRises_build _ _ _ _, tabRises_build _ _ _ _⟩⟩

theorem Group_marksNow_tabs {R T : Nat → Prop} {g : Group} (h : g.Tabs R T) {gtc : Nat} : (Group_marksNow g gtc).Tabs R T :=
  h.foldl fun _ _ h => h.setG.setTok

/-! ### Updates of teams -/

theorem Team.Tabs.congr {E : Places} {a b : Team} (h : a.Tabs E) (h1 : b.scratch = a.scratch) (h2 : b.t = a.t) (h3 : b.tiles = a.tiles)
    (h4 : b.groups = a.groups) (h5 : b.conj = a.conj) (h6 : b.lead = a.lead) : b.Tabs E :=
  ⟨h1 ▸ h.scratch, h2 ▸ h.t, h3 ▸ h.tiles, h3 ▸ h.cells, h4 ▸ h.groups, h5 ▸ h.conj, h6 ▸ h.lead⟩

theorem forall_map_some {α β : Type} {P : β → Prop} {o : Option α} {f : α → β} (h : ∀ x, o = some x → P (f x)) :
    ∀ y, o.map f = some y → P y := by
  intro y hy
  obtain ⟨x, hx, rfl⟩ := Option.map_eq_some_iff.mp hy
  exact h x hx

theorem Team.Tabs.ite {E : Places} {a b : Team} (ha : a.Tabs E) (hb : b.Tabs E) {p : Prop} [Decidable p] : (if p then a else b).Tabs E := by
  split
  · exact ha
  · exact hb

theorem Team.Tabs.withGroups {E : Places} {t : Team} (h : t.Tabs E) {gs : List Group}
    (hg : ∀ (n : Nat) (g : Group), gs[n]? = some g → g.Tabs (fun _ => E.grp (some n)) (E.th (some n))) :
      ({ t with groups := gs } : Team).Tabs E :=
  ⟨h.scratch, h.t, h.tiles, h.cells, hg, h.conj, h.lead⟩

theorem Team.Tabs.mapOnlyGroups {E : Places} {t : Team} (h : t.Tabs E) {f : Group → Group}
    (hf : ∀ {R T : Nat → Prop} (g : Group), g.Tabs R T → (f g).Tabs R T) : ({ t with groups := t.groups.map f } : Team).Tabs E :=
  h.withGroups (getElem?_map_of (P := fun n (x : Group) => x.Tabs (fun _ => E.grp (some n)) (E.th (some n))) h.groups fun _ g hg => hf g hg)

/-- Every group and the lead thread rewritten. -/
theorem Team.Tabs.mapGroups {E : Places} {t : Team} (h : t.Tabs E) {f : Group → Group}
    (hf : ∀ {R T : Nat → Prop} (g : Group), g.Tabs R T → (f g).Tabs R T) {cs : List Group} (hc : ∀ g ∈ cs, g.Tabs E.conj fun _ => True) :
    ({ t with groups := t.groups.map f, lead := t.lead.map f, conj := cs } : Team).Tabs E :=
  ⟨h.scratch, h.t, h.tiles, h.cells,
    getElem?_map_of (P := fun n (x : Group) => x.Tabs (fun _ => E.grp (some n)) (E.th (some n))) h.groups fun _ g hg => hf g hg, hc,
    forall_map_some fun g hg => hf g (h.lead g hg)⟩

theorem Team_barEnd_tabs {E : Places} {t : Team} (h : t.Tabs E) {n gen : Nat} : (Team_barEnd t n gen).Tabs E :=
  h.mapGroups (fun _ h => Group_barEnd_tabs h) h.conj

theorem Team_barEnd_id (t : Team) (n gen : Nat) : (Team_barEnd t n gen).id = t.id := rfl

theorem Team_dqRetire_tabs {E : Places} {t : Team} (h : t.Tabs E) : (Team_dqRetire t).Tabs E := h.congr rfl rfl rfl rfl rfl rfl
theorem Team_dqRetire_id (t : Team) : (Team_dqRetire t).id = t.id := rfl

/-- A group all of whose threads have exited. -/
theorem Group.Tabs.exited {R T : Nat → Prop} {g : Group} (h : g.Tabs R T) :
    ({ g with threads := g.threads.map (fun th => { th with st := .exited }), active := false } : Group).Tabs R T :=
  (h.mapThreads (f := fun th => { th with st := .exited }) fun _ ht => ht.congr rfl rfl).congr rfl rfl rfl rfl rfl rfl

theorem Team_exitAll_tabs {E : Places} {t : Team} (h : t.Tabs E) : (Team_exitAll t).Tabs E :=
  ⟨h.scratch, h.t, h.tiles, h.cells,
    getElem?_map_of (P := fun n (x : Group) => x.Tabs (fun _ => E.grp (some n)) (E.th (some n))) h.groups fun _ g hg => hg.exited,
    by simp [Team_exitAll], forall_map_some fun g hg => (h.lead g hg).exited⟩

theorem Team_exitAll_id (t : Team) : (Team_exitAll t).id = t.id := rfl

theorem Team_freeSpace_tabs {E : Places} {t : Team} (h : t.Tabs E) : (Team_freeSpace t).Tabs E := h.congr rfl rfl rfl rfl rfl rfl
theorem Team_freeSpace_id (t : Team) : (Team_freeSpace t).id = t.id := rfl

theorem Team_leaveConj_tabs {E : Places} {t : Team} (h : t.Tabs E) {g l : Nat} : (Team_leaveConj t g l).Tabs E := by
  refine h.withConj fun c hc => ?_
  obtain ⟨d, hd, rfl⟩ := List.mem_map.mp (List.mem_of_mem_filter hc)
  exact (h.conj d hd).congr rfl rfl rfl rfl rfl rfl

theorem Team_leaveConj_id (t : Team) (g l : Nat) : (Team_leaveConj t g l).id = t.id := rfl

theorem Team_park_tabs {E : Places} {t : Team} (h : t.Tabs E) {ls : List (Nat × Nat)} {st : TState} {pc : Dword} :
    (Team_park t ls st pc).Tabs E :=
  h.foldl fun _ _ h => h.modThread fun _ ht => ht.congr rfl rfl

theorem Team_park_id (t : Team) (ls : List (Nat × Nat)) (st : TState) (pc : Dword) : (Team_park t ls st pc).id = t.id :=
  foldl_id _ (fun _ _ => Team.modThread_id _ _ _ _) _ _

theorem Team_unpark_tabs {E : Places} {t : Team} (h : t.Tabs E) {p : Park} {act : Action} : (Team_unpark t p act).Tabs E :=
  h.foldl fun _ _ h => h.modThread fun _ ht => by
    split
    · exact ht.congr rfl rfl
    · exact ht

theorem Team_unpark_id (t : Team) (p : Park) (act : Action) : (Team_unpark t p act).id = t.id :=
  foldl_id _ (fun _ _ => Team.modThread_id _ _ _ _) _ _

theorem Team_land_tabs {E : Places} {t : Team} (h : t.Tabs E) {w : PipeW} : (Team_land t w).Tabs E := by
  unfold Team_land
  split
  · exact h.modThread fun _ ht => ht.setV
  · refine h.modActor fun _ hg => ?_
    split
    · exact hg.setG.setTok
    · exact hg.setG
  · exact h.setT
  · exact h.modThread fun _ ht => ht.setP

theorem Team_writePend_tabs {E : Places} {t : Team} (h : t.Tabs E) {p : Pend} : (Team_writePend t p).Tabs E := by
  unfold Team_writePend
  dsimp only
  split
  · exact h.modThread fun _ ht => ht.foldl fun _ _ h => h.setV
  · refine h.modActor fun _ hg => ?_
    have h1 := hg.foldl (l := (Pend_words p).zipIdx) (f := fun g w => g.setG (p.no + w.2) w.1) fun _ _ h => h.setG
    split
    · exact h1.setTok
    · exact h1
  · exact h.foldl fun _ _ h => h.setT
  · exact h.modThread fun _ ht => ht.setP
  · exact h.modThread fun _ ht => ht.setC

theorem Team_tokenTable_tabs {E : Places} {t : Team} (h : t.Tabs E) {id tok : Nat} : (Team_tokenTable t id tok).Tabs E :=
  h.congr rfl rfl rfl rfl rfl rfl

theorem Team_tokenTable_id (t : Team) (id tok : Nat) : (Team_tokenTable t id tok).id = t.id := rfl

theorem Team_waitsNow_tabs {E : Places} {t : Team} (h : t.Tabs E) {gtc : Nat} : (Team_waitsNow t gtc).Tabs E := by
  refine ⟨h.scratch, h.t, h.tiles, h.cells,
    getElem?_zipIdx_map_of (P := fun n (x : Group) => x.Tabs (fun _ => E.grp (some n)) (E.th (some n))) h.groups fun n x hx => ?_, h.conj,
      h.lead⟩
  refine hx.mapThreads fun th ht => ?_
  split
  · split
    · exact ht.congr rfl rfl
    · exact ht
  · exact ht

theorem foldl_setCell_tabs {α : Type} {l : List α} {r c : α → Nat} {w : α → Word} {x : Tile} (h : tabRises x.c) :
    tabRises (l.foldl (fun x a => x.setCell (r a) (c a) (w a)) x).c :=
  foldl_keeps (fun x : Tile => tabRises x.c) _ (fun _ _ h => Tile.setCell_tabs h) l x h

theorem attnTiles_tabs {E : Places} {t : Team} (h : t.Tabs E) {v : AttnEnv} {d : AttnDesc} {md : Nat} {query : Nat → Nat → Word} :
    (attnTiles t v d md query).Tabs E := by
  refine h.foldl fun t i h => ?_
  have h1 := h.foldl (l := (attnRow v d i ((List.range d.dh).map (query i))
    (if d.init then { m := ninfF32, l := 0, o := List.replicate d.dh 0 }
      else { m := (t.tile (md + d.dh / 16)).cell i 0, l := (t.tile (md + d.dh / 16)).cell i 1,
             o := (List.range d.dh).map fun j => (t.tile (md + j / 16)).cell i (j % 16) })).o.zipIdx)
    (f := fun t x => t.setTile (md + x.2 / 16) ((t.tile (md + x.2 / 16)).setCell i (x.2 % 16) x.1))
    fun t x h => h.setTile (Tile.setCell_tabs (h.tile _))
  exact h1.setTile (foldl_setCell_tabs (h1.tile _))

theorem Team.setTile_id (t : Team) (n : Nat) (x : Tile) : (t.setTile n x).id = t.id := rfl
theorem attnTiles_id (t : Team) (v : AttnEnv) (d : AttnDesc) (md : Nat) (query : Nat → Nat → Word) :
    (attnTiles t v d md query).id = t.id := by
  unfold attnTiles
  refine foldl_id _ (fun t i => ?_) _ _
  dsimp only
  rw [Team.setTile_id]
  exact foldl_id _ (fun _ _ => Team.setTile_id _ _ _) _ _

/-- A team read back from its area (R224). -/
theorem State.loadSections_tabs {E : Places} {t : Team} (h : t.Tabs E) {s : State} {cs : List Chunk} : (s.loadSections t cs).Tabs E := by
  unfold State.loadSections
  refine ⟨Memory.wf_write rfl, fun _ => tabRises_build _ _ _ _, tabRises_build _ _ _ _, ?_,
    getElem?_zipIdx_map_of (P := fun n (x : Group) => x.Tabs (fun _ => E.grp (some n)) (E.th (some n))) h.groups fun _ _ hx =>
      Group_load_tabs hx,
    h.conj, forall_map_some fun g hg => ?_⟩
  · refine foldl_keeps (fun x : List (Nat × Tile) => ∀ y ∈ x, tabRises y.2.c) _ (fun x i hx => ?_) _ [] (by simp)
    generalize List.range 512 = l
    exact forall_tabSet (P := fun x : Tile => tabRises x.c) hx (tabRises_build l _ _ 0)
  · exact (h.lead g hg).mapThreads fun th ht => ⟨fun _ => tabRises_build _ _ _ _, ht.c⟩

/-- A token's register and mark written back. -/
def Team_tokBack (x : Team) (a : Actor) (reg now : Nat) : Team :=
  match a with
  | .lead => x.modThread leadGrp 0 fun th => th.setV reg (w32 now)
  | a => x.modActor a fun g => (g.setG reg (w32 now)).setTok reg now

theorem Team_tokBack_tabs {E : Places} {x : Team} (h : x.Tabs E) {a : Actor} {reg now : Nat} : (Team_tokBack x a reg now).Tabs E := by
  unfold Team_tokBack
  cases a with
  | lead => exact h.modThread fun _ ht => ht.setV
  | grp n => exact h.modActor fun _ hg => hg.setG.setTok
  | conj k => exact h.modActor fun _ hg => hg.setG.setTok

theorem Team_tokBack_id (x : Team) (a : Actor) (reg now : Nat) : (Team_tokBack x a reg now).id = x.id := by
  cases a with
  | lead => exact Team.modThread_id _ _ _ _
  | grp n => exact Team.modActor_id _ _ _
  | conj k => exact Team.modActor_id _ _ _

theorem State.tokensBack_eq (s : State) (t : Team) (cs : List Chunk) (x : Team) :
    s.tokensBack t cs x = (t.toks.zipIdx).foldl (fun x e => match s.tokEntry t cs e with
      | (3, a, reg, tok) => Team_tokBack x a reg (if tok ≤ s.gtc then s.gtc else tok)
      | _ => x) x := rfl

theorem State.tokensBack_tabs {E : Places} {x : Team} (h : x.Tabs E) {s : State} {t : Team} {cs : List Chunk} :
    (s.tokensBack t cs x).Tabs E := by
  rw [State.tokensBack_eq]
  refine h.foldl fun x e h => ?_
  split
  · exact Team_tokBack_tabs h
  · exact h

theorem State.tokensBack_id (s : State) (t : Team) (cs : List Chunk) (x : Team) : (s.tokensBack t cs x).id = x.id := by
  rw [State.tokensBack_eq]
  refine foldl_id _ (fun x e => ?_) _ _
  split
  · exact Team_tokBack_id _ _ _ _
  · rfl

theorem newTeam_tabs {E : Places} (l : Launch) (id num core slot : Nat) : (newTeam l id num core slot).Tabs E := by
  have hargs : tabRises ((l.r.args.zipIdx).foldl (fun t x => tabSet t x.2 x.1 0) []) :=
    tabRises_build (l.r.args.zipIdx) (fun x => x.2) (fun x => x.1) 0
  refine ⟨rfl, fun _ => .nil, .nil, by simp [newTeam], fun n g hg => ?_, by simp [newTeam], fun g hg => ?_⟩
  · obtain ⟨k, _, rfl⟩ := List.mem_map.mp (List.mem_of_getElem? hg)
    refine ⟨fun _ => hargs, .nil, fun _ => .nil, .nil, fun l th ht => ?_⟩
    rw [List.eq_of_mem_replicate (List.mem_of_getElem? ht)]
    exact ⟨fun _ => .nil, .nil⟩
  · unfold newTeam at hg
    dsimp only at hg
    split at hg
    · cases hg
      refine ⟨fun _ => .nil, .nil, fun _ => .nil, .nil, fun l th ht => ?_⟩
      rw [List.mem_singleton.mp (List.mem_of_getElem? ht)]
      exact ⟨fun _ => hargs, .nil⟩
    · cases hg

/-! ### Updates of worlds -/

theorem World_setList_tabs {w : World} (h : w.Tabs) {key : Nat} {l : FreeList} : (World_setList w key l).Tabs :=
  tabRises_tabSet (t := w.free) h

/-- Free lists as before. -/
theorem World.Tabs.congr {a b : World} (h : a.Tabs) (hf : b.free = a.free) : b.Tabs := by unfold World.Tabs; rw [hf]; exact h

theorem World_fqSetup_tabs {w : World} (h : w.Tabs) {size : Bool} {v : Dword} : (World_fqSetup w size v).Tabs := by
  refine h.congr ?_
  unfold World_fqSetup
  dsimp only
  generalize (if size then field v 0 5 else w.fqsize) = sz
  generalize (if size then w.fqbase else w64 (field v 0 48)) = base
  split <;> rfl

theorem World_fqHead_tabs {w : World} (h : w.Tabs) {v : Dword} : (World_fqHead w v).Tabs := by
  refine h.congr ?_
  unfold World_fqHead
  split <;> rfl

theorem World_memctl_tabs {w : World} (h : w.Tabs) {v : Dword} : (World_memctl w v).Tabs := h.congr rfl
theorem World_dropKeys_tabs {w : World} (h : w.Tabs) : (World_dropKeys w).Tabs := h.congr rfl
theorem World_keepErr_tabs {w : World} (h : w.Tabs) {l : Launch} : (World_keepErr w l).Tabs := by
  refine h.congr ?_
  unfold World_keepErr
  split <;> rfl

theorem World_erase_tabs (w : World) : (World_erase w).Tabs := .nil
theorem World_setFsched_tabs {w : World} (h : w.Tabs) {v : Dword} : (World_setFsched w v).Tabs := h.congr rfl
theorem World_setEvbase_tabs {w : World} (h : w.Tabs) {v : Dword} : (World_setEvbase w v).Tabs := by
  refine h.congr ?_
  unfold World_setEvbase
  dsimp only
  split <;> rfl

theorem World_setWsec_tabs {w : World} (h : w.Tabs) {v : Dword} : (World_setWsec w v).Tabs := h.congr rfl
theorem World_setFlbase_tabs {w : World} (h : w.Tabs) {key : Nat} {v : Dword} : (World_setFlbase w key v).Tabs := by
  unfold World_setFlbase
  dsimp only
  split
  · exact World_setList_tabs h
  · exact h

theorem World_setFlcnt_tabs {w : World} (h : w.Tabs) {key : Nat} {v : Dword} : (World_setFlcnt w key v).Tabs := by
  unfold World_setFlcnt
  dsimp only
  split
  · exact World_setList_tabs h
  · exact h

theorem World_setQuota_tabs {w : World} (h : w.Tabs) {t : Nat} {v : Dword} : (World_setQuota w t v).Tabs := h.congr rfl
theorem World_setReg_tabs {w : World} (h : w.Tabs) {off : Nat} {v : Dword} : (World_setReg w off v).Tabs := by
  unfold World_setReg
  split
  · exact World_setFsched_tabs h
  split
  · split
    · exact h.congr rfl
    · exact h
  split
  · exact World_setEvbase_tabs h
  split
  · exact h.congr rfl
  split
  · exact World_setWsec_tabs h
  split
  · exact World_setFlbase_tabs h
  split
  · exact World_setFlcnt_tabs h
  split
  · exact World_setQuota_tabs h
  · exact h

theorem World_setMigReg_tabs {w : World} (h : w.Tabs) {i : Nat} {v : Dword} : (World_setMigReg w i v).Tabs := by
  refine h.congr ?_
  unfold World_setMigReg
  split
  · rfl
  · split <;> rfl
  · split <;> rfl
  · rfl
  · rfl

end Sys2Proof.Machine
end

section
namespace Sys2Proof.Machine

/-! ### The places whose register maps a held instruction's issue fills -/

/-- The place of an actor's own registers is among those asked about. -/
def Places.of (E : Places) : Actor → Prop
  | .grp n => E.grp (groupPlace n)
  | .lead => E.grp (groupPlace leadGrp)
  | .conj k => E.conj k

/-- Every place but those that a held instruction's issue fills: the team's registers, those of its actor, and those of its lanes. -/
def Places.but (a : Actor) (ls : List PLane) : Places where
  t := False
  grp o := match a with
    | .grp n => o ≠ groupPlace n
    | .lead => o ≠ groupPlace leadGrp
    | .conj _ => True
  conj k := a ≠ .conj k
  th o l := ∀ x ∈ ls, ¬ (groupPlace x.grp = o ∧ x.lane = l)

theorem Places.not_but_of (a : Actor) (ls : List PLane) : ¬ (Places.but a ls).of a := by
  cases a <;> simp [Places.of, Places.but]

theorem Thread.Tabs.mono {r r' : Prop} {th : Thread} (h : th.Tabs r) (hr : r' → r) : th.Tabs r' := ⟨fun k => h.v (hr k), h.c⟩

theorem Group.Tabs.mono {R T R' T' : Nat → Prop} {g : Group} (h : g.Tabs R T) (hR : R' g.id → R g.id) (hT : ∀ l, T' l → T l) :
    g.Tabs R' T' :=
  ⟨fun k => h.g (hR k), h.marks, fun k => h.streams (hR k), h.al, fun l th hl => (h.threads l th hl).mono (hT l)⟩

theorem Team.Tabs.mono {E E' : Places} {t : Team} (h : t.Tabs E) (ht : E'.t → E.t) (hg : ∀ o, E'.grp o → E.grp o)
    (hc : ∀ k, E'.conj k → E.conj k)
    (hth : ∀ o l, E'.th o l → E.th o l) : t.Tabs E' :=
  ⟨h.scratch, fun k => h.t (ht k), h.tiles, h.cells, fun n g hm => (h.groups n g hm).mono (hg _) (hth _),
    fun g hm => (h.conj g hm).mono (hc _) fun _ k => k, fun g hm => (h.lead g hm).mono (hg _) (hth _)⟩

/-- A map in its form everywhere is so where it is asked about. -/
theorem Team.Tabs.of_all {E : Places} {t : Team} (h : t.Tabs .all) : t.Tabs E :=
  h.mono (fun _ => trivial) (fun _ _ => trivial) (fun _ _ => trivial) fun _ _ _ => trivial

/-- An actor's group object, its own registers asked about or not, is rewritten. -/
theorem Team.Tabs.modActorOf {E : Places} {t : Team} (h : t.Tabs E) {a : Actor} {f : Group → Group}
    (hf : ∀ {R T : Nat → Prop} (x : Group), (R x.id ↔ E.of a) → x.Tabs R T → (f x).Tabs R T) : (t.modActor a f).Tabs E := by
  cases a with
  | grp n => exact h.setGroupAt (hf _ Iff.rfl (h.groupAt n))
  | lead => exact h.setGroupAt (hf _ Iff.rfl (h.groupAt leadGrp))
  | conj k =>
    refine h.withConj (forall_mem_map fun c hc => ?_)
    split
    · next hk =>
      have hk : c.id = k := by simpa using hk
      exact hf c (hk ▸ Iff.rfl) (h.conj c hc)
    · exact h.conj c hc

theorem Team.Tabs.modThreadOf {E : Places} {t : Team} (h : t.Tabs E) {g l : Nat} {f : Thread → Thread}
    (hf : ∀ th : Thread, th.Tabs (E.th (groupPlace g) l) → (f th).Tabs (E.th (groupPlace g) l)) : (t.modThread g l f).Tabs E :=
  h.setGroupAt ((h.groupAt g).setThread (hf _ ((h.groupAt g).thread l)))

/-- A group object is replaced, and the group's place is asked about as the new one allows. -/
theorem Team.Tabs.setGroupTo {E : Places} {t : Team} (h : t.Tabs E) {g : Nat} {x : Group} {R : Option Nat → Prop}
    {T : Option Nat → Nat → Prop}
    (hR : ∀ o, o ≠ groupPlace g → R o → E.grp o) (hT : ∀ o, o ≠ groupPlace g → ∀ l, T o l → E.th o l)
    (hx : x.Tabs (fun _ => R (groupPlace g)) (T (groupPlace g))) : (t.setGroupAt g x).Tabs { E with grp := R, th := T } := by
  have hrest : ∀ o, o ≠ groupPlace g → ∀ y : Group, y.Tabs (fun _ => E.grp o) (E.th o) → y.Tabs (fun _ => R o) (T o) :=
    fun o ho y hy => hy.mono (hR o ho) (hT o ho)
  unfold Team.setGroupAt
  split
  · next hg =>
    have hp : groupPlace g = none := if_pos hg
    rw [hp] at hx hrest
    refine ⟨h.scratch, h.t, h.tiles, h.cells, fun n y hy => hrest _ (by simp) y (h.groups n y hy), h.conj, fun y hy => ?_⟩
    obtain ⟨z, _, rfl⟩ := Option.map_eq_some_iff.mp hy
    exact hx
  · next hg =>
    have hp : groupPlace g = some g := if_neg hg
    rw [hp] at hx hrest
    refine ⟨h.scratch, h.t, h.tiles, h.cells, fun n y hy => ?_, h.conj, fun y hy => hrest _ (by simp) y (h.lead y hy)⟩
    rw [List.getElem?_set] at hy
    split at hy
    · next hn =>
      split at hy
      · cases hy; exact hn ▸ hx
      · cases hy
    · next hn => exact hrest _ (by simpa using fun h => hn h.symm) y (h.groups n y hy)

end Sys2Proof.Machine
end

section
namespace Sys2Proof.Machine

/-! ### What a held instruction's issue found is installed, and put back -/

/-- A conjugate group stands with the positions of its issue. -/
def Team_conjFound (a : Actor) (pos : List (Option (Nat × Nat))) (t : Team) : Team :=
  match a with
  | .conj k =>
    if t.conj.any fun c => c.id = k then { t with conj := mapIf t.conj (fun c => c.id = k) fun c => { c with pos := pos } }
    else { t with conj := t.conj ++ [{ id := k, pos := pos }] }
  | _ => t

/-- A team with the registers that a held instruction's issue found. -/
def Team_installed (p : Probe) (h : Issued) (t : Team) : Team :=
  (p.lanes.zip h.regs).foldl
    (fun t x => t.modThread x.1.grp x.1.lane fun th => { th with v := x.2.1, p := x.2.2, st := .run, pc := h.ctx.pc })
    (({ Team_conjFound p.who h.pos t with t := h.t }).modActor p.who fun g =>
      { g with g := h.g, phase := h.phase, streams := h.streams, acqs := [], floor := p.floor })

theorem Team_conjFound_id (a : Actor) (pos : List (Option (Nat × Nat))) (t : Team) : (Team_conjFound a pos t).id = t.id := by
  unfold Team_conjFound
  split
  · split <;> rfl
  · rfl

theorem Team_conjFound_tabs {E : Places} {t : Team} (h : t.Tabs E) {a : Actor} {pos : List (Option (Nat × Nat))} :
    (Team_conjFound a pos t).Tabs E := by
  unfold Team_conjFound
  split
  · split
    · exact h.withConj (forall_mem_mapIf h.conj fun _ hc => hc.congr rfl rfl rfl rfl rfl rfl)
    · refine h.withConj fun c hc => ?_
      rcases List.mem_append.mp hc with hc | hc
      · exact h.conj c hc
      · rw [List.mem_singleton.mp hc]
        exact ⟨fun _ => .nil, .nil, fun _ => .nil, .nil, by simp⟩
  · exact h

theorem Team_installed_id (p : Probe) (h : Issued) (t : Team) : (Team_installed p h t).id = t.id :=
  (foldl_id _ (fun _ _ => Team.modThread_id _ _ _ _) _ _).trans ((Team.modActor_id _ _ _).trans (Team_conjFound_id _ _ t))

theorem Team_installed_tabs {p : Probe} {h : Issued} {t : Team} (ht : t.Tabs .all) : (Team_installed p h t).Tabs (.but p.who p.lanes) := by
  have h0 : (Team_conjFound p.who h.pos t).Tabs (.but p.who p.lanes) := Team_conjFound_tabs ht.of_all
  have h1 : ({ Team_conjFound p.who h.pos t with t := h.t } : Team).Tabs (.but p.who p.lanes) :=
    ⟨h0.scratch, False.elim, h0.tiles, h0.cells, h0.groups, h0.conj, h0.lead⟩
  refine List.foldlRecOn _ _ (motive := fun t : Team => t.Tabs (.but p.who p.lanes)) (h1.modActorOf fun x hx hg => ?_) fun u hu x hx => ?_
  · have hno := fun k => Places.not_but_of p.who p.lanes (hx.mp k)
    exact ⟨fun k => (hno k).elim, hg.marks, fun k => (hno k).elim, hg.al, hg.threads⟩
  · refine hu.modThreadOf fun th hth => ⟨fun k => ?_, hth.c⟩
    exact (k x.1 (List.of_mem_zip hx).1 ⟨rfl, rfl⟩).elim

/-- Where register maps are asked about while a held instruction of a team acts. -/
def heldPlaces (p : Probe) (i : Nat) : Places := if i = p.team then .but p.who p.lanes else .all

theorem State.Forms.installed {s : State} (hs : s.Forms fun _ => .all) {p : Probe} {h : Issued} :
    (s.installed p h).Forms (heldPlaces p) := by
  have h1 : (s.modTeam p.team (Team_installed p h)).Forms (heldPlaces p) :=
    hs.modTeamTo (fun i hi => if_neg hi) (fun t ht => by rw [heldPlaces, if_pos rfl]; exact Team_installed_tabs ht) (Team_installed_id p h)
  exact h1.congr rfl rfl rfl rfl rfl rfl

/-- A thread's registers as they were, and its state where it has not changed. -/
def Thread_putBack (o th : Thread) : Thread :=
  let regs : Thread := { th with v := o.v, p := o.p }
  if th.st = .run ∧ th.level = o.level then { regs with st := o.st, pc := o.pc, ready := o.ready } else regs

/-- The threads of a held instruction's lanes as they were. -/
def Team_lanesBack (o : Team) (ls : List PLane) (t : Team) : Team :=
  ls.foldl (fun (t : Team) (x : PLane) => t.modThread x.grp x.lane fun th => Thread_putBack (o.thread x.grp x.lane) th) t

/-- A conjugate group stands with the positions that it had, or is gone as it was. -/
def Team_conjBack (o : Team) (a : Actor) (t : Team) : Team :=
  match a with
  | .conj k =>
    (match o.conj.find? fun c => c.id = k with
    | some oc => { t with conj := mapIf t.conj (fun c => c.id = k) fun c =>
        { c with pos := oc.pos.map fun q => q.bind fun x => if (t.thread x.1 x.2).gone then none else q } }
    | none => { t with conj := t.conj.filter fun c => decide (c.id ≠ k) })
  | _ => t

/-- An actor's group object with the registers and streams that it had. -/
def Group_putBack (ot : Team) (p : Probe) (h : Issued) (g : Group) : Group :=
  let og := ot.actor p.who
  { g with g := og.g, phase := og.phase, streams := heldPins ot p h g.streams og.streams, acqs := og.acqs, floor := max g.floor og.floor }

theorem State.putBack_eq (s o : State) (p : Probe) (h : Issued) : s.putBack o p h = s.modTeam p.team fun t =>
    Team_conjBack (o.team p.team) p.who (({ Team_lanesBack (o.team p.team) p.lanes t with t := (o.team p.team).t }).modActor p.who
      (Group_putBack (o.team p.team) p h)) := rfl

theorem Thread_putBack_tabs {o th : Thread} (ho : tabRises o.v) (hc : tabRises th.c) {r : Prop} : (Thread_putBack o th).Tabs r := by
  unfold Thread_putBack
  dsimp only
  split
  · exact ⟨fun _ => ho, hc⟩
  · exact ⟨fun _ => ho, hc⟩

/-- Each lane's registers stand as they were, and are asked about again. -/
theorem Team_lanesBack_tabs {o : Team} (ho : o.Tabs .all) {E : Places} (ls : List PLane) {t : Team}
    (h : t.Tabs { E with th := fun q l => ∀ x ∈ ls, ¬ (groupPlace x.grp = q ∧ x.lane = l) }) :
    (Team_lanesBack o ls t).Tabs { E with th := fun _ _ => True } := by
  induction ls generalizing t with
  | nil =>
    have e : (fun (q : Option Nat) (l : Nat) => ∀ x ∈ ([] : List PLane), ¬ (groupPlace x.grp = q ∧ x.lane = l)) = fun _ _ => True := by simp
    rw [e] at h
    exact h
  | cons x xs ih =>
    refine ih ?_
    refine h.setGroupTo (fun _ _ k => k) (fun q hq l k => ?_) ?_
    · intro y hy
      rcases List.mem_cons.mp hy with rfl | hy
      · exact fun e => hq e.1.symm
      · exact k y hy
    · have hg := h.groupAt x.grp
      refine ⟨hg.g, hg.marks, hg.streams, hg.al, fun l th hl => ?_⟩
      rw [List.getElem?_set] at hl
      split at hl
      · split at hl
        · cases hl
          exact Thread_putBack_tabs ((ho.thread _ _).v trivial) (hg.thread _).c
        · cases hl
      · next hne =>
        refine (hg.threads l th hl).mono fun k y hy => ?_
        rcases List.mem_cons.mp hy with rfl | hy
        · exact fun e => hne e.2
        · exact k y hy

theorem Team_lanesBack_id (o : Team) (ls : List PLane) (t : Team) : (Team_lanesBack o ls t).id = t.id :=
  foldl_id _ (fun _ _ => Team.modThread_id _ _ _ _) _ _

theorem Team_conjBack_id (o : Team) (a : Actor) (t : Team) : (Team_conjBack o a t).id = t.id := by
  unfold Team_conjBack
  split
  · split <;> rfl
  · rfl

theorem Team_conjBack_tabs {E : Places} {o : Team} {a : Actor} {t : Team} (h : t.Tabs E) : (Team_conjBack o a t).Tabs E := by
  unfold Team_conjBack
  split
  · split
    · exact h.withConj (forall_mem_mapIf h.conj fun _ hc => hc.congr rfl rfl rfl rfl rfl rfl)
    · exact h.withConj fun c hc => h.conj c (List.mem_of_mem_filter hc)
  · exact h

theorem heldPins_tabs {t : Team} {p : Probe} {h : Issued} {now old : Tab Stream} (ho : tabRises old) :
    tabRises (heldPins t p h now old) := by
  unfold heldPins
  split
  · dsimp only
    split
    · exact tabRises_tabSet ho
    · exact ho
  · exact ho

theorem Team.Tabs.actor {t : Team} (h : t.Tabs .all) (a : Actor) : (t.actor a).Tabs (fun _ => True) fun _ => True := by
  cases a with
  | grp n => exact h.groupAt n
  | lead => exact h.groupAt leadGrp
  | conj k => exact h.conjAt k

theorem Group_putBack_tabs {ot : Team} (ho : ot.Tabs .all) {p : Probe} {h : Issued} {R R' T : Nat → Prop} {g : Group} (hg : g.Tabs R T) :
    (Group_putBack ot p h g).Tabs R' T :=
  ⟨fun _ => (ho.actor p.who).g trivial, hg.marks, fun _ => heldPins_tabs ((ho.actor p.who).streams trivial), hg.al, hg.threads⟩

/-- The places of a team but an actor's own. -/
def Places.butActor (a : Actor) : Places :=
  { t := True, grp := (Places.but a []).grp, conj := (Places.but a []).conj, th := fun _ _ => True }

/-- An actor's registers stand as they were, and are asked about again. -/
theorem Team.Tabs.actorBack {a : Actor} {t : Team} (h : t.Tabs (.butActor a)) {f : Group → Group}
    (hf : ∀ {R R' T : Nat → Prop} (x : Group), x.Tabs R T → (f x).Tabs R' T) : (t.modActor a f).Tabs .all := by
  have hgrp : ∀ n, (∀ o, o ≠ groupPlace n → (Places.butActor a).grp o) → (∀ k, (Places.butActor a).conj k) → (t.modGroupAt n f).Tabs .all :=
    fun n hn hc => (h.setGroupTo (R := fun _ => True) (T := fun _ _ => True) (fun o ho _ => hn o ho) (fun _ _ _ _ => trivial)
      (hf _ (h.groupAt n))).mono (fun _ => trivial) (fun _ _ => trivial) (fun k _ => hc k) fun _ _ _ => trivial
  cases a with
  | grp n => exact hgrp n (fun _ ho => ho) fun _ => nofun
  | lead => exact hgrp leadGrp (fun _ ho => ho) fun _ => nofun
  | conj k =>
    refine ⟨h.scratch, h.t, h.tiles, h.cells, fun n g hg => h.groups n g hg, forall_mem_map fun c hc => ?_, fun g hg => h.lead g hg⟩
    split
    · exact hf c (h.conj c hc)
    · next hk =>
      have hk : c.id ≠ k := by simpa using hk
      refine (h.conj c hc).mono (fun _ e => ?_) fun _ k => k
      exact hk (Actor.conj.inj e).symm

theorem State.Forms.putBack {s o : State} {p : Probe} {h : Issued} (hs : s.Forms (heldPlaces p)) (ho : o.Forms fun _ => .all) :
    (s.putBack o p h).Forms fun _ => .all := by
  rw [State.putBack_eq]
  refine hs.modTeamTo (fun i hi => (if_neg hi).symm) (fun t ht => ?_) fun t => ?_
  · rw [heldPlaces, if_pos rfl] at ht
    have h1 : (Team_lanesBack (o.team p.team) p.lanes t).Tabs { Places.but p.who p.lanes with th := fun _ _ => True } :=
      Team_lanesBack_tabs (ho.team p.team) p.lanes ht
    have h2 : ({ Team_lanesBack (o.team p.team) p.lanes t with t := (o.team p.team).t } : Team).Tabs (.butActor p.who) :=
      ⟨h1.scratch, (ho.team p.team).t, h1.tiles, h1.cells, h1.groups, h1.conj, h1.lead⟩
    exact Team_conjBack_tabs (h2.actorBack fun _ hg => Group_putBack_tabs (ho.team p.team) hg)
  · exact (Team_conjBack_id _ _ _).trans ((Team.modActor_id _ _ _).trans (Team_lanesBack_id _ _ _))

end Sys2Proof.Machine
end

section
namespace Sys2Proof.Machine

/-! The functions of the model that answer a state, in the model's order and under its headings: each keeps the form, by what it calls. A
proof goes along the function's calls and branches; `hs.a.b` reads: from `s` by `a`, then by `b`. -/

/-! ### Registers of a thread, a group and a team -/

theorem State.Forms.noteLaunch {X : Nat → Places} {s : State} {launch t : Nat} (hs : s.Forms X) : (s.noteLaunch launch t).Forms X :=
  hs.modLaunch

/-! ### Sealing (R320, R321) -/

theorem State.Forms.putSector {X : Nat → Places} {s : State} {who : Option Nat} {sec pa : Nat} {bs : List Byte} (hs : s.Forms X) :
    (s.putSector who sec pa bs).Forms X := ⟨tabRises_tabSet hs.seals, hs.lastW, hs.worlds, hs.cores, hs.free, hs.teams, hs.ids, hs.below⟩

theorem State.Forms.setPhys {X : Nat → Places} {s : State} {who : Option Nat} {pa : Nat} {bs : List Byte} (hs : s.Forms X) :
    (s.setPhys who pa bs).Forms X := by
  unfold State.setPhys
  split
  · exact hs.congr rfl rfl rfl rfl rfl rfl
  · exact hs.foldl (fun _ _ h => h.putSector)

/-! ### The host window (R306, R308, R310) -/

theorem State.Forms.write {X : Nat → Places} {s : State} {who : Option Nat} {w pa : Nat} {bs : List Byte} (hs : s.Forms X) :
    (s.write who w pa bs).Forms X := by
  unfold State.write
  split
  · exact hs
  split
  · exact hs.setPhys.congr rfl rfl rfl rfl rfl rfl
  · exact hs.setPhys

/-! ### Leases and completion times -/

theorem State.Forms.noteW {X : Nat → Places} {s : State} {pa n w : Nat} (hs : s.Forms X) : (s.noteW pa n w).Forms X :=
  ⟨hs.seals, foldl_keeps (fun t : Tab Nat => tabRises t) _ (fun _ _ h => tabRises_tabSet h) _ _ hs.lastW, hs.worlds, hs.cores, hs.free,
    hs.teams,
    hs.ids, hs.below⟩

theorem State.Forms.l1Trim {X : Nat → Places} {s : State} {core : Nat} (hs : s.Forms X) : (s.l1Trim core).Forms X := hs.ite hs.modCore

theorem State.Forms.grant {X : Nat → Places} {s : State} {line e : Nat} (hs : s.Forms X) : (s.grant line e).Forms X :=
  hs.congr rfl rfl rfl rfl rfl rfl

theorem State.Forms.fillL1 {X : Nat → Places} {s : State} {core world pa n : Nat} {long first : Bool} (hs : s.Forms X) :
    (s.fillL1 core world pa n long first).Forms X := hs.grant.modCore.l1Trim

theorem State.Forms.fillWc {X : Nat → Places} {s : State} {core world pa n : Nat} {long : Bool} (hs : s.Forms X) :
    (s.fillWc core world pa n long).Forms X := hs.ite hs.grant.modCore

theorem State.Forms.fillBy {X : Nat → Places} {s : State} {core world pa n fill : Nat} (hs : s.Forms X) :
    (s.fillBy core world pa n fill).Forms X := hs.ite hs.fillL1

/-! ### Serving (R117, R129, R333) -/

theorem State.Forms.noteRead {X : Nat → Places} {s : State} {keys : List Nat} (hs : s.Forms X) : (s.noteRead keys).Forms X :=
  hs.congr rfl rfl rfl rfl rfl rfl

theorem State.Forms.serve {X : Nat → Places} {s : State} {keys : List Nat} {src id : Nat} {load : Bool} (hs : s.Forms X) :
    (s.serve keys src id load).Forms X := hs.congr rfl rfl rfl rfl rfl rfl

/-! ### Results -/

theorem State.Forms.deliver {X : Nat → Places} {s : State} {t : Tgt} {ws : List Word} (hs : s.Forms X) : (s.deliver t ws).Forms X := by
  unfold State.deliver
  split
  · exact hs
  · exact hs.withPends
  · exact hs.withEscs
  · exact hs.congr rfl rfl rfl rfl rfl rfl

/-! ### A known time -/

theorem State.Forms.noteDone {X : Nat → Places} {s : State} {team : Nat} {who : Actor} {grp t : Nat} {y : Bool} (hs : s.Forms X) :
    (s.noteDone team who grp t y).Forms X := by
  refine hs.modTeam (fun u hu => ?_) fun u => ?_
  · have h1 := hu.modActor (a := who) (f := Group_done t y) fun _ h => Group_done_tabs h
    cases who with
    | conj k => exact h1.foldl fun _ _ h => h.modGroupAt fun _ h => Group_done_tabs h
    | grp n => exact h1
    | lead => exact h1
  · have h1 := Team.modActor_id u who (Group_done t y)
    cases who with
    | conj k => exact (foldl_id _ (fun _ _ => Team.modGroupAt_id _ _ _) _ _).trans h1
    | grp n => exact h1
    | lead => exact h1

theorem State.Forms.settle {X : Nat → Places} {s : State} {id team : Nat} {who : Actor} {grp launch t : Nat} {y : Bool} (hs : s.Forms X) :
    (s.settle id team who grp launch t y).Forms X := by
  apply State.Forms.noteLaunch
  apply State.Forms.modTeam
  · apply State.Forms.noteDone
    exact hs.congr rfl rfl rfl rfl rfl rfl
  · exact fun _ hu => hu.modActor fun _ hg => hg.congr rfl rfl rfl rfl rfl rfl
  · exact fun _ => Team.modActor_id _ _ _

theorem State.Forms.swapId {X : Nat → Places} {s : State} {old : Nat} {news : List Nat} (hs : s.Forms X) : (s.swapId old news).Forms X := by
  refine (hs.mapTeams (f := fun t : Team => if t.bars = [] then t else { t with bars := t.bars.map fun b => (b.1, Bar_swap old news b.2) })
    (fun t ht => ?_) fun t => ?_).congr rfl rfl rfl rfl rfl rfl <;> split
  · exact ht
  · exact ht.congr rfl rfl rfl rfl rfl rfl
  · rfl
  · rfl

/-! ### Stores and atomics at their home -/

theorem State.Forms.applyHome {X : Nat → Places} {s : State} {h : HomeSt} (hs : s.Forms X) : (s.applyHome h).Forms X :=
  hs.write.withHomes.foldl (fun _ _ h => h.deliver)

theorem applyDueFuel_tables {X : Nat → Places} {s : State} {fuel : Nat} (hs : s.Forms X) : (applyDueFuel s fuel).Forms X := by
  induction fuel generalizing s with
  | zero => exact hs
  | succ n ih =>
    unfold applyDueFuel
    split
    · exact hs
    · exact ih hs.applyHome

theorem State.Forms.applyDue {X : Nat → Places} {s : State} (hs : s.Forms X) : (s.applyDue).Forms X := applyDueFuel_tables hs

theorem State.Forms.arriveAt {X : Nat → Places} {s : State} {a id world team : Nat} {who : Actor} {grp launch pa n : Nat} {op : FOp}
    {eng : Option Nat} {raw y : Bool} (hs : s.Forms X) : (s.arriveAt a id world team who grp launch pa n op eng raw y).Forms X :=
  hs.noteW.settle.withHomes

theorem State.Forms.homeLanes {X : Nat → Places} {s : State} {id : Nat} {ls : List (Nat × Nat)} (hs : s.Forms X) :
    (s.homeLanes id ls).Forms X := hs.withHomes

theorem State.Forms.arrive {X : Nat → Places} {s : State} {id world team : Nat} {who : Actor} {grp launch pa n : Nat} {op : FOp}
    {eng : Option Nat} {raw y : Bool} (hs : s.Forms X) : (s.arrive id world team who grp launch pa n op eng raw y).Forms X := hs.arriveAt

/-! ### Scratchpad and stack (R99, R100, R123) -/

theorem State.Forms.setScratch {X : Nat → Places} {s : State} {team off : Nat} {bs : List Byte} (hs : s.Forms X) :
    (s.setScratch team off bs).Forms X :=
      hs.modTeam (fun _ ht => ⟨Memory.wf_write ht.scratch, ht.t, ht.tiles, ht.cells, ht.groups, ht.conj, ht.lead⟩) fun _ => rfl

theorem State.Forms.hwStore {X : Nat → Places} {s : State} {team pa : Nat} {bs : List Byte} {wb : Bool} (hs : s.Forms X) :
    (s.hwStore team pa bs wb).Forms X := by
  unfold State.hwStore
  dsimp only
  exact hs.fresh.noteW.withHomes.noteLaunch

theorem State.Forms.dropStack {X : Nat → Places} {s : State} {core : Nat} {out : StackSec → Bool} (hs : s.Forms X) :
    (s.dropStack core out).Forms X := by
  unfold State.dropStack
  exact (hs.foldl (fun _ _ h => h.hwStore)).modCore

theorem State.Forms.stackTrim {X : Nat → Places} {s : State} {core : Nat} (hs : s.Forms X) : (s.stackTrim core).Forms X :=
  hs.ite hs.dropStack

theorem State.Forms.putStack {X : Nat → Places} {s : State} {core : Nat} {x : StackSec} (hs : s.Forms X) : (s.putStack core x).Forms X :=
  hs.modCore.l1Trim.stackTrim

theorem State.Forms.touchStack {X : Nat → Places} {s : State} {core team world pa n : Nat} (hs : s.Forms X) :
    (s.touchStack core team world pa n).Forms X := hs.foldl (fun _ _ h => h.putStack)

theorem State.Forms.setStack {X : Nat → Places} {s : State} {core team world pa : Nat} {bs : List Byte} (hs : s.Forms X) :
    (s.setStack core team world pa bs).Forms X := hs.foldl (fun _ _ h => h.putStack)

/-! ### Ownership by engines (R127) -/

theorem State.Forms.queueServe {X : Nat → Places} {s : State} {q src : Nat} (hs : s.Forms X) : (s.queueServe q src).Forms X := hs.serve

/-! ### Page tables (R103 to R106) -/

theorem State.Forms.noteWalk {X : Nat → Places} {s : State} {start : Nat × Nat} {va : Nat} (hs : s.Forms X) :
    (s.noteWalk start va).Forms X :=
  hs.ite hs.noteRead

theorem State.Forms.translate {X : Nat → Places} {s : State} {core world va : Nat} (hs : s.Forms X) :
    (s.translate core world va).2.Forms X := by
  unfold State.translate
  split
  · exact hs
  split
  · dsimp only
    exact hs.modCore
  dsimp only
  split
  · exact hs.noteWalk
  · dsimp only
    exact hs.noteWalk.modCore.modDie

/-- The pins of a team's streams that touch a range end. -/
def Team_endPins (r : Nat × Nat) (t : Team) : Team :=
  { t with groups := t.groups.map (fun g => Group_endPins g r), conj := t.conj.map fun g => Group_endPins g r }

theorem Team_endPins_tabs {E : Places} {t : Team} (h : t.Tabs E) {r : Nat × Nat} : (Team_endPins r t).Tabs E :=
  ⟨h.scratch, h.t, h.tiles, h.cells,
    getElem?_map_of (P := fun n (x : Group) => x.Tabs (fun _ => E.grp (some n)) (E.th (some n))) h.groups fun _ _ hg =>
      Group_endPins_tabs hg,
    forall_mem_map fun g hg => Group_endPins_tabs (h.conj g hg), h.lead⟩

theorem State.Forms.dropSpan {X : Nat → Places} {s : State} {world span page : Nat} (hs : s.Forms X) :
    (s.dropSpan world span page).Forms X := by
  have h1 := hs.mapTeams (f := fun t => if s.worldOf t = world then Team_endPins (spanRange span page) t else t)
    (fun t ht => by split; exacts [Team_endPins_tabs ht, ht]) fun t => by split <;> rfl
  refine ⟨h1.seals, h1.lastW, h1.worlds, tabRises_map (fun c => ?_) hs.cores, h1.free, h1.teams, h1.ids, h1.below⟩
  split <;> rfl

/-! ### Apertures (R98) -/

theorem State.Forms.globAcc {X : Nat → Places} {s : State} {core world : Nat} {va : Dword} {kind : Nat} {elem : Bool} (hs : s.Forms X) :
    (s.globAcc core world va kind elem).2.Forms X := by
  unfold State.globAcc
  split
  · exact hs
  split
  · next he => exact (State.Forms.of_eq2 he hs.translate)
  next he =>
    split
    · exact (State.Forms.of_eq2 he hs.translate)
    split
    · exact (State.Forms.of_eq2 he hs.translate)
    · exact (State.Forms.of_eq2 he hs.translate)

/-- The answer of a page access is told as a fault of the lane, and its state stands. -/
theorem State.Forms.tagged {X : Nat → Places} {r : Except Nat Acc × State} {f : Nat → Except Flt Acc} : r.2.Forms X →
    (match r with
      | (.error c, s') => (f c, s')
      | (.ok a, s') => (.ok a, s') : Except Flt Acc × State).2.Forms X := by
  obtain ⟨e, s⟩ := r
  cases e with
  | error c => exact id
  | ok a => exact id

theorem State.Forms.access {X : Nat → Places} {s : State} {core team g l : Nat} {va : Dword} {n al kind : Nat} {elem : Bool}
    (hs : s.Forms X) : (s.access core team g l va n al kind elem).2.Forms X := by
  unfold State.access
  dsimp only
  split
  · exact .ite_snd hs (.ite_snd hs (.ite_snd hs hs))
  · refine .ite_snd hs (.ite_snd hs ?_)
    split
    · next he => exact State.Forms.of_eq2 he (State.Forms.tagged hs.globAcc)
    · exact State.Forms.tagged hs.globAcc
  · refine .ite_snd hs (.ite_snd hs ?_)
    exact State.Forms.tagged hs.globAcc

end Sys2Proof.Machine
end

section
namespace Sys2Proof.Machine

/-! ### Error registers (R214) -/

theorem State.Forms.sticky {X : Nat → Places} {s : State} {launch bit : Nat} {tied : Option (Dword × Word)} (hs : s.Forms X) :
    (s.sticky launch bit tied).Forms X := hs.modLaunch

/-! ### Tile order and watermarks (R264, R265, R275) -/

theorem State.Forms.wmUpdateAt {X : Nat → Places} {s : State} {at_ team : Nat} {ts : List Nat} (hs : s.Forms X) :
    (s.wmUpdateAt at_ team ts).Forms X :=
      hs.foldl fun _ _ h => h.modTeam (fun t ht => ht.setTile (by unfold Tile_wmSet; split <;> exact ht.tile _)) fun _ => rfl

theorem State.Forms.wmUpdate {X : Nat → Places} {s : State} {team : Nat} {ts : List Nat} (hs : s.Forms X) : (s.wmUpdate team ts).Forms X :=
  hs.wmUpdateAt

/-! ### Barriers (R123, R153, R154) -/

theorem State.Forms.barCheck {X : Nat → Places} {s : State} {team n : Nat} (hs : s.Forms X) : (s.barCheck team n).Forms X := by
  unfold State.barCheck
  dsimp only
  split
  · exact hs.modTeam (fun _ ht => ht.congr rfl rfl rfl rfl rfl rfl) fun _ => rfl
  · exact hs

theorem State.Forms.barRelease {X : Nat → Places} {s : State} {team n : Nat} (hs : s.Forms X) : (s.barRelease team n).Forms X := by
  refine hs.modTeam (fun t ht => ?_) fun t => ?_
  · have h1 := ht.foldl (l := ((s.team team).bar n).holds.filter fun h => s.idsDone h.ids) (f := fun t h => Team_barEnd t n h.gen)
      fun _ _ h => Team_barEnd_tabs h
    exact h1.congr rfl rfl rfl rfl rfl rfl
  · exact foldl_id (fun t (h : BarHold) => Team_barEnd t n h.gen) (fun _ _ => rfl) _ t

theorem State.Forms.cbarCheck {X : Nat → Places} {s : State} {launch cl : Nat} (hs : s.Forms X) : (s.cbarCheck launch cl).Forms X :=
  hs.modLaunch.ite hs

theorem State.Forms.cbarRelease {X : Nat → Places} {s : State} {launch cl : Nat} (hs : s.Forms X) : (s.cbarRelease launch cl).Forms X := by
  unfold State.cbarRelease
  refine (hs.foldl ?_).modLaunch
  intro _ _ h
  refine h.foldl ?_
  intro _ _ h1
  refine h1.modTeam ?_ ?_
  · exact fun _ ht => Team_barEnd_tabs ht
  · exact fun _ => Team_barEnd_id _ _ _

theorem State.Forms.barAll {X : Nat → Places} {s : State} {team : Nat} (hs : s.Forms X) : (s.barAll team).Forms X :=
  ((hs.foldl (fun _ _ h => h.barCheck.barRelease)).cbarCheck).cbarRelease

/-! ### Exits, kills and the end of a team (R8, R35, R71, R100) -/

theorem State.Forms.flushStack {X : Nat → Places} {s : State} {team : Nat} (hs : s.Forms X) : (s.flushStack team).Forms X := hs.dropStack

theorem State.Forms.freeCore {X : Nat → Places} {s : State} {team : Nat} (hs : s.Forms X) : (s.freeCore team).Forms X :=
  hs.flushStack.modCore.modTeam (fun _ ht => ht.congr rfl rfl rfl rfl rfl rfl) fun _ => rfl

theorem State.Forms.forget {X : Nat → Places} {s : State} {ids : List Nat} (hs : s.Forms X) : (s.forget ids).Forms X :=
  hs.foldl (fun _ _ h => h.swapId)

theorem State.Forms.dropProbes {X : Nat → Places} {s : State} {gone : Probe → Bool} (hs : s.Forms X) : (s.dropProbes gone).Forms X := by
  have h1 : ∀ {ps : List Probe} {es : List EscReq}, ({ s with probes := ps, escs := es } : State).Forms X :=
    hs.congr rfl rfl rfl rfl rfl rfl
  exact State.Forms.foldl (State.Forms.forget h1) fun _ _ h => h.wmUpdate

theorem State.Forms.dropTeam {X : Nat → Places} {s : State} {team : Nat} (hs : s.Forms X) : (s.dropTeam team).Forms X := by
  unfold State.dropTeam
  dsimp only
  have h1 : (match (s.team team).place with
    | .resident => s.freeCore team
    | .stopped _ => s.freeCore team
    | _ => s).Forms X := by
    split
    · exact hs.freeCore
    · exact hs.freeCore
    · exact hs
  exact ((h1.modQueue.modLaunch.dropProbes).dropTeams fun x => decide (x.id ≠ team)).congr rfl rfl rfl rfl rfl rfl

theorem State.Forms.abandonTeam {X : Nat → Places} {s : State} {team : Nat} (hs : s.Forms X) : (s.abandonTeam team).Forms X := by
  unfold State.abandonTeam
  dsimp only
  split
  · refine hs.flushStack.dropTeam.ite (hs.flushStack.modTeam ?_ ?_)
    · exact fun _ ht => Team_exitAll_tabs ht
    · exact fun _ => Team_exitAll_id _
  · refine hs.flushStack.dropTeam.ite (hs.flushStack.modTeam ?_ ?_)
    · exact fun _ ht => Team_exitAll_tabs ht
    · exact fun _ => Team_exitAll_id _
  · exact hs.dropTeam

theorem State.Forms.endTeam {X : Nat → Places} {s : State} {team : Nat} (hs : s.Forms X) : (s.endTeam team).Forms X := by
  unfold State.endTeam
  split
  · exact hs
  · exact (hs.flushStack.dropTeam.ite hs.flushStack).ite hs

/-- A team whose group has retired, its registers' room given back when the group is over. -/
def Team_groupOver (g : Nat) (t : Team) : Team :=
  let t1 := t.modGroupAt g fun x => Group_retire (Group_rcvAll x)
  if (t1.groupAt g).exited then Team_freeSpace t1 else t1

theorem Team_groupOver_tabs {E : Places} {t : Team} (h : t.Tabs E) {g : Nat} : (Team_groupOver g t).Tabs E := by
  have h1 : (t.modGroupAt g fun x => Group_retire (Group_rcvAll x)).Tabs E :=
    h.modGroupAt fun _ hg => Group_retire_tabs (Group_rcvAll_tabs hg)
  exact (Team_freeSpace_tabs h1).ite h1

theorem State.afterExit_groupOver (s : State) (team g : Nat) :
    s.afterExit team g = (((s.modTeam team (Team_groupOver g)).modTeam team Team_dqRetire).barAll team).endTeam team := rfl

theorem Team_groupOver_id (g : Nat) (t : Team) : (Team_groupOver g t).id = t.id := by
  unfold Team_groupOver
  dsimp only
  split
  · exact (Team_freeSpace_id _).trans (Team.modGroupAt_id _ _ _)
  · exact Team.modGroupAt_id _ _ _

theorem State.Forms.afterExit {X : Nat → Places} {s : State} {team g : Nat} (hs : s.Forms X) : (s.afterExit team g).Forms X := by
  have h1 : (s.modTeam team (Team_groupOver g)).Forms X := hs.modTeam (fun _ ht => Team_groupOver_tabs ht) (Team_groupOver_id g)
  have h2 : ((s.modTeam team (Team_groupOver g)).modTeam team Team_dqRetire).Forms X :=
    h1.modTeam (fun _ ht => Team_dqRetire_tabs ht) Team_dqRetire_id
  rw [State.afterExit_groupOver]
  exact h2.barAll.endTeam

theorem State.Forms.exitThread {X : Nat → Places} {s : State} {team g l : Nat} (hs : s.Forms X) : (s.exitThread team g l).Forms X :=
  hs.modTeam (fun _ ht => ht.modThread fun _ h => h.congr rfl rfl) fun _ => Team.modThread_id _ _ _ _

theorem State.Forms.leaveProbes {X : Nat → Places} {s : State} {team g : Nat} (hs : s.Forms X) : (s.leaveProbes team g).Forms X := by
  have h1 : ∀ {ps : List Probe} {es : List EscReq}, ({ s with probes := ps, escs := es } : State).Forms X :=
    hs.congr rfl rfl rfl rfl rfl rfl
  exact State.Forms.dropProbes h1

/-- A dead group object: its threads are exited, its streams gone. -/
theorem Group.Tabs.killed {R T : Nat → Prop} {g : Group} (h : g.Tabs R T) :
    ({ g with threads := g.threads.map fun th => { th with st := .exited }, streams := [] } : Group).Tabs R T :=
  ⟨h.g, h.marks, fun _ => .nil, h.al,
    (h.mapThreads (f := fun th => { th with st := .exited }) fun _ ht => ht.congr rfl rfl).threads⟩

theorem State.Forms.killOne {X : Nat → Places} {s : State} {team g : Nat} (hs : s.Forms X) : (s.killOne team g).Forms X := by
  rw [State.killOne_eq]
  apply State.Forms.afterExit
  unfold State.dropGroup
  refine State.Forms.congr (State.Forms.forget (State.Forms.leaveProbes ?_)) rfl rfl rfl rfl rfl rfl
  refine hs.modTeam (fun t ht => ?_) fun t => ?_
  · have h1 := Team.Tabs.foldl (l := List.range 32) (f := fun t l => Team_leaveConj t g l) ht fun _ _ h => Team_leaveConj_tabs h
    exact (h1.modGroupAt (f := Group_dead) fun _ hg => hg.killed).congr rfl rfl rfl rfl rfl rfl
  · show (Team.modGroupAt _ _ _).id = _
    rw [Team.modGroupAt_id]
    exact foldl_id _ (fun _ _ => Team_leaveConj_id _ _ _) _ _

theorem State.Forms.killActor {X : Nat → Places} {s : State} {team : Nat} {a : Actor} {bit : Nat} {tied : Option (Dword × Word)}
    (hs : s.Forms X) : (s.killActor team a bit tied).Forms X := hs.sticky.foldl (fun _ _ h => h.killOne.ite h)

theorem State.Forms.killCur {X : Nat → Places} {s : State} {bit : Nat} (hs : s.Forms X) : (s.killCur bit).Forms X := hs.killActor

/-! ### Interrupts and records (R215, R216, R314) -/

/-- A world rewritten but for its free lists. -/
theorem State.Forms.modWorldRest {X : Nat → Places} {s : State} (hs : s.Forms X) {w : Nat} {f : World → World}
    (hf : ∀ x, (f x).free = x.free) :
    (s.modWorld w f).Forms X := hs.modWorld fun _ hx => hx.congr (hf _)

theorem State.Forms.signal {X : Nat → Places} {s : State} {world vec : Nat} (hs : s.Forms X) : (s.signal world vec).Forms X := by
  unfold State.signal
  split
  · exact hs.modWorldRest fun _ => rfl
  · exact hs.congr rfl rfl rfl rfl rfl rfl

theorem State.Forms.flushVectors {X : Nat → Places} {s : State} {world : Nat} (hs : s.Forms X) : (s.flushVectors world).Forms X := by
  refine hs.foldl fun _ _ h => ?_
  split
  · apply State.Forms.signal
    exact h.modWorldRest fun _ => rfl
  · exact h

theorem State.Forms.pushRecs {X : Nat → Places} {s : State} {world : Nat} {rs : List FRec} (hs : s.Forms X) :
    (s.pushRecs world rs).Forms X := by
  unfold State.pushRecs
  exact hs.modWorldRest fun _ => rfl

theorem State.Forms.pushRec {X : Nat → Places} {s : State} {world : Nat} {r : FRec} (hs : s.Forms X) : (s.pushRec world r).Forms X :=
  hs.pushRecs

/-! ### Taking an exception (R112, R213, R215, R219, R220) -/

theorem State.Forms.leaveHandler {X : Nat → Places} {s : State} {p : Park} (hs : s.Forms X) : (s.leaveHandler p).Forms X := by
  refine (hs.modTeam (fun _ ht => ht.foldl fun _ _ h => h.modThread fun _ hth => ?_) fun _ => ?_).congr rfl rfl rfl rfl rfl rfl
  · split
    · exact hth
    · exact hth.congr rfl rfl
  · exact foldl_id _ (fun _ _ => Team.modThread_id _ _ _ _) _ _

theorem State.Forms.yieldHandler {X : Nat → Places} {s : State} {team : Nat} {a : Actor} (hs : s.Forms X) :
    (s.yieldHandler team a).Forms X := by
  unfold State.yieldHandler
  split
  · exact hs
  · exact hs.leaveHandler.ite hs

theorem State.Forms.enterHandler {X : Nat → Places} {s : State} {team : Nat} {a : Actor} (hs : s.Forms X) :
    (s.enterHandler team a).Forms X := by
  unfold State.enterHandler
  dsimp only
  split
  · exact hs
  · split
    · exact hs
    · refine State.Forms.congr (hs.modTeam ?_ ?_) rfl rfl rfl rfl rfl rfl
      · intro _ _ ht
        refine Team.Tabs.foldl (Team.Tabs.modActor ht ?_) ?_
        · exact fun _ hg => hg.congr rfl rfl rfl rfl rfl rfl
        · exact fun _ _ h => h.modThread fun _ hth => hth.congr rfl rfl
      · exact fun _ => (foldl_id _ (fun _ _ => Team.modThread_id _ _ _ _) _ _).trans (Team.modActor_id _ _ _)

/-- Lanes parked. -/
theorem State.Forms.park {X : Nat → Places} {s : State} (hs : s.Forms X) {k : Nat} {ls : List (Nat × Nat)} {st : TState} {pc : Dword} :
    (s.modTeam k fun t => Team_park t ls st pc).Forms X := hs.modTeam (fun _ ht => Team_park_tabs ht) fun _ => Team_park_id _ _ _ _

/-- Threads parked for the fault queues, when any are. -/
theorem State.Forms.parkQueued {X : Nat → Places} {s : State} (hs : s.Forms X) {p : Prop} [Decidable p] {k w : Nat} {ls : List (Nat × Nat)}
    {st : TState} {pc : Dword}
    {ps : List Park} {rs rs' : List FRec} :
    (if p then s else
      (({ s.modTeam k (fun t => Team_park t ls st pc) with parks := ps } : State).pushRecs 0 rs).pushRecs w rs').Forms X := by
  split
  · exact hs
  · apply State.Forms.pushRecs
    apply State.Forms.pushRecs
    exact hs.park.congr rfl rfl rfl rfl rfl rfl

/-- Threads parked for the handler, when any are. -/
theorem State.Forms.parkHandled {X : Nat → Places} {s : State} (hs : s.Forms X) {p : Prop} [Decidable p] {k : Nat} {a : Actor}
    {ls : List (Nat × Nat)} {st : TState}
    {pc : Dword} {ps : List Park} :
    (if p then s else
      (({ s.modTeam k (fun t => Team_park t ls st pc) with parks := ps } : State).yieldHandler k a).enterHandler k a).Forms X := by
  split
  · exact hs
  · apply State.Forms.enterHandler
    apply State.Forms.yieldHandler
    exact hs.park.congr rfl rfl rfl rfl rfl rfl

theorem State.Forms.takeFault {X : Nat → Places} {s : State} {c : IssueCtx} {fs : List LaneFlt} {way : FltWay} (hs : s.Forms X) :
    (s.takeFault c fs way).Forms X := by
  unfold State.takeFault
  dsimp only
  split
  · exact hs
  split
  · exact hs.killActor
  · exact State.Forms.parkHandled (State.Forms.parkQueued hs.fresh)

/-! ### Resumes and the return from an exception (R217, R219, R221, R235) -/

theorem State.Forms.resumePark {X : Nat → Places} {s : State} {p : Park} {act : Action} (hs : s.Forms X) :
    (s.resumePark p act).Forms X := by
  unfold State.resumePark
  dsimp only
  split
  · exact hs.withParks.sticky.foldl (fun _ _ h => h.killOne.ite h)
  refine hs.withParks.modTeam ?_ ?_
  · exact fun _ ht => Team_unpark_tabs ht
  · exact fun _ => Team_unpark_id _ _ _

theorem State.Forms.resumeTag {X : Nat → Places} {s : State} {tag : Word} {act : Action} (hs : s.Forms X) :
    (s.resumeTag tag act).Forms X := by
  unfold State.resumeTag
  split
  · exact hs
  · exact hs.resumePark

theorem State.Forms.resume {X : Nat → Places} {s : State} {world : Nat} {tag : Word} {act : Action} (hs : s.Forms X) :
    (s.resume world tag act).Forms X := by
  unfold State.resume
  split
  · split
    · exact hs.congr rfl rfl rfl rfl rfl rfl
    · exact hs
  · split
    · exact hs.resumeTag
    · exact hs
    · exact hs.modTeam (fun _ ht => ht.congr rfl rfl rfl rfl rfl rfl) fun _ => rfl

theorem State.Forms.eretActor {X : Nat → Places} {s : State} {team : Nat} {a : Actor} {act : Action} (hs : s.Forms X) :
    (s.eretActor team a act).Forms X := by
  unfold State.eretActor
  dsimp only
  split
  · exact hs
  · split
    · apply State.Forms.killActor
      exact hs.congr rfl rfl rfl rfl rfl rfl
    · apply State.Forms.enterHandler
      apply State.Forms.modTeam
      · exact hs.congr rfl rfl rfl rfl rfl rfl
      · exact fun _ ht => ht.foldl fun _ _ h => h.modThreadAt fun _ hth => by
          split
          · exact hth.congr rfl rfl
          · exact hth
      · exact fun _ => foldl_id _ (fun _ _ => Team.modThreadAt_id _ _ _ _) _ _

/-! ### Aborts (R131, R242) -/

theorem State.Forms.abortLaunch {X : Nat → Places} {s : State} {id : Nat} (hs : s.Forms X) : (s.abortLaunch id).Forms X :=
  hs.modLaunch.foldl (fun _ _ h => h.abandonTeam)

theorem State.Forms.integrity {X : Nat → Places} {s : State} {id line source : Nat} (hs : s.Forms X) :
    (s.integrity id line source).Forms X := by
  unfold State.integrity
  dsimp only
  exact (hs.fresh.sticky.abortLaunch.pushRec.ite hs.fresh.sticky.abortLaunch.pushRec.pushRec).signal

end Sys2Proof.Machine
end

section
namespace Sys2Proof.Machine

/-! ### Streams as ports (R200 to R204) -/

theorem State.Forms.readTrace {X : Nat → Places} {s : State} {core team : Nat} {a : Acc} {n : Nat} {hint : BitVec 2} (hs : s.Forms X) :
    (s.readTrace core team a n hint).Forms X := by
  unfold State.readTrace
  dsimp only
  split
  · exact hs.fillBy
  · exact hs.touchStack
  · exact hs

theorem State.Forms.readServed {X : Nat → Places} {s : State} {core team : Nat} {a : Acc} {n : Nat} {hint : BitVec 2} (hs : s.Forms X) :
    (s.readServed core team a n hint).Forms X := hs.ite hs.serve

theorem State.Forms.streamWord {X : Nat → Places} {s : State} {team : Nat} {home : Nat × Nat} {x : Stream} {va : Dword} (hs : s.Forms X) :
    (s.streamWord team home x va).2.Forms X := by
  unfold State.streamWord
  dsimp only
  split
  · next he => exact (((State.Forms.of_eq2 he hs.access)).readServed).readTrace
  · next he => exact (State.Forms.of_eq2 he hs.access)

theorem State.Forms.elemAddr {X : Nat → Places} {s : State} {team : Nat} {home : Nat × Nat} {x : Stream} {L i : Nat} (hs : s.Forms X) :
    (s.elemAddr team home x L i).2.Forms X := by
  unfold State.elemAddr
  dsimp only
  split
  · split
    · next he => exact (State.Forms.of_eq2 he hs.streamWord)
    · next he => exact (State.Forms.of_eq2 he hs.streamWord)
  · exact hs

theorem State.Forms.elemNow {X : Nat → Places} {s : State} {team : Nat} {home : Nat × Nat} {x : Stream} {L i : Nat} (hs : s.Forms X) :
    (s.elemNow team home x L i).2.Forms X := by
  unfold State.elemNow
  split
  · next he => exact ((State.Forms.of_eq2 he hs.elemAddr)).streamWord
  · next he => exact (State.Forms.of_eq2 he hs.elemAddr)

theorem State.Forms.delivered {X : Nat → Places} {s : State} {ks ls : List Nat} (hs : s.Forms X) : (s.delivered ks ls).Forms X := by
  unfold State.delivered
  split
  · exact hs
  · exact hs.noteDone

theorem State.Forms.pullPorts {X : Nat → Places} {s : State} {ks act : List Nat} (hs : s.Forms X) : (s.pullPorts ks act).2.2.Forms X := by
  unfold State.pullPorts
  split
  · exact hs
  refine hs.delivered.modCg ?_
  exact fun _ hg => hg.foldl (fun _ _ hg => hg.setStream)

theorem State.Forms.takePorts {X : Nat → Places} {s : State} {ks act : List Nat} (hs : s.Forms X) : (s.takePorts ks act).2.Forms X := by
  unfold State.takePorts
  split
  · exact hs
  · exact hs.pullPorts.takeFault

/-! ### Results -/

theorem State.Forms.addPipe {X : Nat → Places} {s : State} {ws : List PipeW} (hs : s.Forms X) : (s.addPipe ws).Forms X :=
  hs.modCt (fun _ ht => ht.congr rfl rfl rfl rfl rfl rfl) fun _ => rfl

theorem State.Forms.pushRes {X : Nat → Places} {s : State} {lat : Nat} {act help : List Nat} {d : Opd} {f : Nat → List Word}
    (hs : s.Forms X) : (s.pushRes lat act help d f).Forms X := by
  unfold State.pushRes
  split
  · split
    · exact hs.addPipe
    · exact hs
  · split
    · dsimp only
      exact hs.fresh.addPipe
    · exact hs
  · exact hs.addPipe

theorem State.Forms.pushPred {X : Nat → Places} {s : State} {lat : Nat} {lanes : List Nat} {p : BitVec 3} {f : Nat → Bool} (hs : s.Forms X)
    : (s.pushPred lat lanes p f).Forms X := hs.addPipe

theorem Team_landed_tabs {E : Places} {t : Team} (h : t.Tabs E) {now : Nat} {ws : List PipeW} : (Team_landed now ws t).Tabs E := by
  refine Team.Tabs.foldl (h.congr rfl rfl rfl rfl rfl rfl) ?_
  exact fun _ _ h => Team_land_tabs h

theorem State.Forms.landDue {X : Nat → Places} {s : State} {team : Nat} (hs : s.Forms X) : (s.landDue team).Forms X := by
  unfold State.landDue
  dsimp only
  split
  · exact hs
  · refine State.Forms.foldl (hs.modTeam (f := Team_landed _ _) (fun _ ht => Team_landed_tabs ht) fun _ => Team_landed_id _ _ _) ?_
    exact fun _ _ h => h.settle

theorem State.Forms.addPend {X : Nat → Places} {s : State} {p : Nat → Pend} (hs : s.Forms X) : (s.addPend p).2.Forms X := by
  unfold State.addPend
  dsimp only
  exact hs.fresh.withPends

theorem State.Forms.pendRes {X : Nat → Places} {s : State} {act help : List Nat} {d : Opd} {xlane : Bool} {f : Nat → List Word}
    (hs : s.Forms X) : (s.pendRes act help d xlane f).Forms X := hs.foldl (fun _ _ h => h.addPend)

theorem State.Forms.pendPred {X : Nat → Places} {s : State} {lanes : List Nat} {p : BitVec 3} {xlane : Bool} {f : Nat → Bool}
    (hs : s.Forms X) : (s.pendPred lanes p xlane f).Forms X := hs.foldl (fun _ _ h => h.addPend)

theorem State.Forms.pendTok {X : Nat → Places} {s : State} {d : Opd} (hs : s.Forms X) : (s.pendTok d).2.Forms X := hs.addPend

/-! ### The end of an issue -/

theorem State.Forms.retireTo {X : Nat → Places} {s : State} {x : XHead} {tgt : Nat → Option Dword} (hs : s.Forms X) :
    (s.retireTo x tgt).Forms X := by
  refine hs.modCt (fun _ ht => ht.foldl fun _ _ h => h.modThreadAt fun _ hth => ?_) fun _ =>
    foldl_id _ (fun _ _ => Team.modThreadAt_id _ _ _ _) _ _
  split
  · exact hth.congr rfl rfl
  · exact hth.congr rfl rfl

theorem State.Forms.retire {X : Nat → Places} {s : State} {x : XHead} (hs : s.Forms X) : (s.retire x).Forms X := hs.retireTo

theorem State.Forms.execAlu {X : Nat → Places} {s : State} {x : XHead} {lat : Nat} {d : Opd} {srcs : List OpdB} {f : Nat → List Word}
    (hs : s.Forms X) : (s.execAlu x lat d srcs f).Forms X := hs.takePorts.pushRes.retire

theorem State.Forms.execCmp {X : Nat → Places} {s : State} {x : XHead} {lat : Nat} {p : BitVec 3} {srcs : List OpdB} {f : Nat → Bool}
    (hs : s.Forms X) : (s.execCmp x lat p srcs f).Forms X := hs.takePorts.pushPred.retire

theorem State.Forms.execSfu {X : Nat → Places} {s : State} {x : XHead} {d : Opd} {srcs : List OpdB} {f : Nat → List Word} (hs : s.Forms X) :
    (s.execSfu x d srcs f).Forms X := hs.takePorts.pendRes.retire

/-! ### Shared operations -/

theorem intUn_tables {X : Nat → Places} {x : XHead} {ty : Ty} {sat : Bool} {d a : Opd} {e : Int → Int} {s : State} (hs : s.Forms X) :
    OutForms X (intUn x ty sat d a e s) := .next hs.execAlu

theorem intBin_tables {X : Nat → Places} {x : XHead} {ty : Ty} {sat : Bool} {d a : Opd} {b : OpdB} {e : Int → Int → Int} {s : State}
    (hs : s.Forms X) : OutForms X (intBin x ty sat d a b e s) := .next hs.execAlu

theorem bitBin_tables {X : Nat → Places} {x : XHead} {ty : Ty} {d a : Opd} {b : OpdB} {e : Dword → Dword → Dword} {s : State}
    (hs : s.Forms X) : OutForms X (bitBin x ty d a b e s) := .next hs.execAlu

theorem bitSh_tables {X : Nat → Places} {x : XHead} {ty : Ty} {d a : Opd} {b : OpdB} {e : Dword → Word → Dword} {s : State} (hs : s.Forms X)
    : OutForms X (bitSh x ty d a b e s) := .next hs.execAlu

theorem bitUn_tables {X : Nat → Places} {x : XHead} {ty : Ty} {wide : Bool} {d a : Opd} {e : Dword → Dword} {s : State} (hs : s.Forms X) :
    OutForms X (bitUn x ty wide d a e s) := .next hs.execAlu

theorem leaOp_tables {X : Nat → Places} {x : XHead} {ty : Ty} {k : Nat} {d a : Opd} {b : OpdB} {s : State} (hs : s.Forms X) :
    OutForms X (leaOp x ty k d a b s) := .next hs.execAlu

theorem predOp_tables {X : Nat → Places} {x : XHead} {p q : BitVec 3} {nq : Bool} {r : BitVec 3} {nr : Bool} {e : Bool → Bool → Bool}
    {s : State} (hs : s.Forms X) : OutForms X (predOp x p q nq r nr e s) := .next hs.execCmp

theorem icmpOp_tables {X : Nat → Places} {x : XHead} {ty : Ty} {cc : Cond} {p : BitVec 3} {a : Opd} {b : OpdB} {s : State} (hs : s.Forms X)
    : OutForms X (icmpOp x ty cc p a b s) := .next hs.execCmp

/-! ### Extended forms -/

theorem execMovExt_tables {X : Nat → Places} {x : XHead} {ty : Ty} {d a : Opd} {s : State} (hs : s.Forms X) :
    OutForms X (execMovExt x ty d a s) := bitUn_tables hs

theorem execMoviExt_tables {X : Nat → Places} {x : XHead} {ty : Ty} {d : Opd} {imm : Dword} {s : State} (hs : s.Forms X) :
    OutForms X (execMoviExt x ty d imm s) := .next hs.execAlu

theorem execIaddExt_tables {X : Nat → Places} {x : XHead} {ty : Ty} {sat : Bool} {d a : Opd} {b : OpdB} {s : State} (hs : s.Forms X) :
    OutForms X (execIaddExt x ty sat d a b s) := intBin_tables hs

theorem execIsubExt_tables {X : Nat → Places} {x : XHead} {ty : Ty} {sat : Bool} {d a : Opd} {b : OpdB} {s : State} (hs : s.Forms X) :
    OutForms X (execIsubExt x ty sat d a b s) := intBin_tables hs

theorem execImulExt_tables {X : Nat → Places} {x : XHead} {ty : Ty} {sat : Bool} {d a : Opd} {b : OpdB} {s : State} (hs : s.Forms X) :
    OutForms X (execImulExt x ty sat d a b s) := intBin_tables hs

theorem execImulhExt_tables {X : Nat → Places} {x : XHead} {ty : Ty} {d a : Opd} {b : OpdB} {s : State} (hs : s.Forms X) :
    OutForms X (execImulhExt x ty d a b s) := intBin_tables hs

theorem execImad_tables {X : Nat → Places} {x : XHead} {ty : Ty} {sat : Bool} {d a : Opd} {b : OpdB} {c : Opd} {s : State} (hs : s.Forms X)
    : OutForms X (execImad x ty sat d a b c s) := .next hs.execAlu

theorem execIminExt_tables {X : Nat → Places} {x : XHead} {ty : Ty} {d a : Opd} {b : OpdB} {s : State} (hs : s.Forms X) :
    OutForms X (execIminExt x ty d a b s) := intBin_tables hs

theorem execImaxExt_tables {X : Nat → Places} {x : XHead} {ty : Ty} {d a : Opd} {b : OpdB} {s : State} (hs : s.Forms X) :
    OutForms X (execImaxExt x ty d a b s) := intBin_tables hs

theorem execIabs_tables {X : Nat → Places} {x : XHead} {ty : Ty} {sat : Bool} {d a : Opd} {s : State} (hs : s.Forms X) :
    OutForms X (execIabs x ty sat d a s) := intUn_tables hs

theorem execIneg_tables {X : Nat → Places} {x : XHead} {ty : Ty} {sat : Bool} {d a : Opd} {s : State} (hs : s.Forms X) :
    OutForms X (execIneg x ty sat d a s) := intUn_tables hs

theorem execAndExt_tables {X : Nat → Places} {x : XHead} {ty : Ty} {d a : Opd} {b : OpdB} {s : State} (hs : s.Forms X) :
    OutForms X (execAndExt x ty d a b s) := bitBin_tables hs

theorem execOrExt_tables {X : Nat → Places} {x : XHead} {ty : Ty} {d a : Opd} {b : OpdB} {s : State} (hs : s.Forms X) :
    OutForms X (execOrExt x ty d a b s) := bitBin_tables hs

theorem execXorExt_tables {X : Nat → Places} {x : XHead} {ty : Ty} {d a : Opd} {b : OpdB} {s : State} (hs : s.Forms X) :
    OutForms X (execXorExt x ty d a b s) := bitBin_tables hs

theorem execNotExt_tables {X : Nat → Places} {x : XHead} {ty : Ty} {d a : Opd} {s : State} (hs : s.Forms X) :
    OutForms X (execNotExt x ty d a s) := bitUn_tables hs

theorem execShlExt_tables {X : Nat → Places} {x : XHead} {ty : Ty} {d a : Opd} {b : OpdB} {s : State} (hs : s.Forms X) :
    OutForms X (execShlExt x ty d a b s) := bitSh_tables hs

theorem execShrExt_tables {X : Nat → Places} {x : XHead} {ty : Ty} {d a : Opd} {b : OpdB} {s : State} (hs : s.Forms X) :
    OutForms X (execShrExt x ty d a b s) := bitSh_tables hs

theorem execSarExt_tables {X : Nat → Places} {x : XHead} {ty : Ty} {d a : Opd} {b : OpdB} {s : State} (hs : s.Forms X) :
    OutForms X (execSarExt x ty d a b s) := bitSh_tables hs

theorem execBfx_tables {X : Nat → Places} {x : XHead} {ty : Ty} {d a : Opd} {b : OpdB} {s : State} (hs : s.Forms X) :
    OutForms X (execBfx x ty d a b s) := bitSh_tables hs

theorem execBfi_tables {X : Nat → Places} {x : XHead} {ty : Ty} {d a : Opd} {b : OpdB} {c : Opd} {s : State} (hs : s.Forms X) :
    OutForms X (execBfi x ty d a b c s) := .next hs.execAlu

theorem execPopc_tables {X : Nat → Places} {x : XHead} {ty : Ty} {d a : Opd} {s : State} (hs : s.Forms X) :
    OutForms X (execPopc x ty d a s) :=
  bitUn_tables hs

theorem execClz_tables {X : Nat → Places} {x : XHead} {ty : Ty} {d a : Opd} {s : State} (hs : s.Forms X) :
    OutForms X (execClz x ty d a s) :=
  bitUn_tables hs

theorem execBrev_tables {X : Nat → Places} {x : XHead} {ty : Ty} {d a : Opd} {s : State} (hs : s.Forms X) :
    OutForms X (execBrev x ty d a s) :=
  bitUn_tables hs

theorem execLeaExt_tables {X : Nat → Places} {x : XHead} {ty : Ty} {k : BitVec 3} {d a : Opd} {b : OpdB} {s : State} (hs : s.Forms X) :
    OutForms X (execLeaExt x ty k d a b s) := leaOp_tables hs

theorem execSel_tables {X : Nat → Places} {x : XHead} {ty : Ty} {d a : Opd} {b : OpdB} {q : BitVec 3} {nq : Bool} {s : State}
    (hs : s.Forms X) : OutForms X (execSel x ty d a b q nq s) := .next hs.execAlu

theorem execIcmp_tables {X : Nat → Places} {x : XHead} {ty : Ty} {cc : Cond} {p : BitVec 3} {a : Opd} {b : OpdB} {s : State}
    (hs : s.Forms X) : OutForms X (execIcmp x ty cc p a b s) := icmpOp_tables hs

theorem execPandExt_tables {X : Nat → Places} {x : XHead} {p q : BitVec 3} {nq : Bool} {r : BitVec 3} {nr : Bool} {s : State}
    (hs : s.Forms X) : OutForms X (execPandExt x p q nq r nr s) := predOp_tables hs

theorem execPorExt_tables {X : Nat → Places} {x : XHead} {p q : BitVec 3} {nq : Bool} {r : BitVec 3} {nr : Bool} {s : State}
    (hs : s.Forms X) : OutForms X (execPorExt x p q nq r nr s) := predOp_tables hs

theorem execPxorExt_tables {X : Nat → Places} {x : XHead} {p q : BitVec 3} {nq : Bool} {r : BitVec 3} {nr : Bool} {s : State}
    (hs : s.Forms X) : OutForms X (execPxorExt x p q nq r nr s) := predOp_tables hs

theorem execPnotExt_tables {X : Nat → Places} {x : XHead} {p q : BitVec 3} {nq : Bool} {s : State} (hs : s.Forms X) :
    OutForms X (execPnotExt x p q nq s) := predOp_tables hs

theorem execPmovExt_tables {X : Nat → Places} {x : XHead} {p q : BitVec 3} {nq : Bool} {s : State} (hs : s.Forms X) :
    OutForms X (execPmovExt x p q nq s) := predOp_tables hs

/-! ### Base words (R67) -/

theorem execMov_tables {X : Nat → Places} {stl : BitVec 3} {d a : BitVec 7} {s : State} (hs : s.Forms X) : OutForms X (execMov stl d a s) :=
  bitUn_tables hs

theorem execMovi_tables {X : Nat → Places} {stl : BitVec 3} {d : BitVec 7} {imm : Dword} {s : State} (hs : s.Forms X) :
    OutForms X (execMovi stl d imm s) := .next hs.execAlu

theorem execIadd_tables {X : Nat → Places} {stl : BitVec 3} {d a : BitVec 7} {b : BaseB} {s : State} (hs : s.Forms X) :
    OutForms X (execIadd stl d a b s) := intBin_tables hs

theorem execIsub_tables {X : Nat → Places} {stl : BitVec 3} {d a : BitVec 7} {b : BaseB} {s : State} (hs : s.Forms X) :
    OutForms X (execIsub stl d a b s) := intBin_tables hs

theorem execImul_tables {X : Nat → Places} {stl : BitVec 3} {d a : BitVec 7} {b : BaseB} {s : State} (hs : s.Forms X) :
    OutForms X (execImul stl d a b s) := intBin_tables hs

theorem execImulh_tables {X : Nat → Places} {stl : BitVec 3} {d a : BitVec 7} {b : BaseB} {s : State} (hs : s.Forms X) :
    OutForms X (execImulh stl d a b s) := intBin_tables hs

theorem execImin_tables {X : Nat → Places} {stl : BitVec 3} {d a : BitVec 7} {b : BaseB} {s : State} (hs : s.Forms X) :
    OutForms X (execImin stl d a b s) := intBin_tables hs

theorem execImax_tables {X : Nat → Places} {stl : BitVec 3} {d a : BitVec 7} {b : BaseB} {s : State} (hs : s.Forms X) :
    OutForms X (execImax stl d a b s) := intBin_tables hs

theorem execIand_tables {X : Nat → Places} {stl : BitVec 3} {d a : BitVec 7} {b : BaseB} {s : State} (hs : s.Forms X) :
    OutForms X (execIand stl d a b s) := bitBin_tables hs

theorem execIor_tables {X : Nat → Places} {stl : BitVec 3} {d a : BitVec 7} {b : BaseB} {s : State} (hs : s.Forms X) :
    OutForms X (execIor stl d a b s) := bitBin_tables hs

theorem execIxor_tables {X : Nat → Places} {stl : BitVec 3} {d a : BitVec 7} {b : BaseB} {s : State} (hs : s.Forms X) :
    OutForms X (execIxor stl d a b s) := bitBin_tables hs

theorem execInot_tables {X : Nat → Places} {stl : BitVec 3} {d a : BitVec 7} {s : State} (hs : s.Forms X) :
    OutForms X (execInot stl d a s) :=
  bitUn_tables hs

theorem execShl_tables {X : Nat → Places} {stl : BitVec 3} {d a : BitVec 7} {b : BaseB} {s : State} (hs : s.Forms X) :
    OutForms X (execShl stl d a b s) := bitSh_tables hs

theorem execShr_tables {X : Nat → Places} {stl : BitVec 3} {d a : BitVec 7} {b : BaseB} {s : State} (hs : s.Forms X) :
    OutForms X (execShr stl d a b s) := bitSh_tables hs

theorem execSar_tables {X : Nat → Places} {stl : BitVec 3} {d a : BitVec 7} {b : BaseB} {s : State} (hs : s.Forms X) :
    OutForms X (execSar stl d a b s) := bitSh_tables hs

theorem execLea_tables {X : Nat → Places} {stl : BitVec 3} {d a : BitVec 7} {b : BaseB} {s : State} (hs : s.Forms X) :
    OutForms X (execLea stl d a b s) := leaOp_tables hs

theorem execIcmpI32_tables {X : Nat → Places} {stl : BitVec 3} {cc : Cond} {p : BitVec 3} {a : BitVec 7} {b : BaseB} {s : State}
    (hs : s.Forms X) : OutForms X (execIcmpI32 stl cc p a b s) := icmpOp_tables hs

theorem execIcmpN32_tables {X : Nat → Places} {stl : BitVec 3} {cc : Cond} {p : BitVec 3} {a : BitVec 7} {b : BaseB} {s : State}
    (hs : s.Forms X) : OutForms X (execIcmpN32 stl cc p a b s) := icmpOp_tables hs

theorem execPand_tables {X : Nat → Places} {stl : BitVec 3} {p q r : BitVec 3} {s : State} (hs : s.Forms X) :
    OutForms X (execPand stl p q r s) := predOp_tables hs

theorem execPor_tables {X : Nat → Places} {stl : BitVec 3} {p q r : BitVec 3} {s : State} (hs : s.Forms X) :
    OutForms X (execPor stl p q r s) := predOp_tables hs

theorem execPxor_tables {X : Nat → Places} {stl : BitVec 3} {p q r : BitVec 3} {s : State} (hs : s.Forms X) :
    OutForms X (execPxor stl p q r s) := predOp_tables hs

theorem execPnot_tables {X : Nat → Places} {stl : BitVec 3} {p q : BitVec 3} {s : State} (hs : s.Forms X) :
    OutForms X (execPnot stl p q s) :=
  predOp_tables hs

theorem execPmov_tables {X : Nat → Places} {stl : BitVec 3} {p q : BitVec 3} {s : State} (hs : s.Forms X) :
    OutForms X (execPmov stl p q s) :=
  predOp_tables hs

/-! ### Shared operations -/

theorem fpUn_tables {X : Nat → Places} {x : XHead} {ty : Ty} {m : FpMod} {d a : Opd} {e : FVal → FVal} {s : State} (hs : s.Forms X) :
    OutForms X (fpUn x ty m d a e s) := .next hs.execAlu

theorem fpBin_tables {X : Nat → Places} {x : XHead} {ty : Ty} {m : FpMod} {d a : Opd} {b : OpdB} {e : FVal → FVal → FVal} {s : State}
    (hs : s.Forms X) : OutForms X (fpBin x ty m d a b e s) := .next hs.execAlu

theorem sfuUn_tables {X : Nat → Places} {x : XHead} {m : FpMod} {d a : Opd} {e : FVal → FVal} {s : State} (hs : s.Forms X) :
    OutForms X (sfuUn x m d a e s) := .next hs.execSfu

theorem cvOp_tables {X : Nat → Places} {x : XHead} {lat : Nat} {d : Opd} {srcs : List OpdB} {f : Nat → List Word} {s : State}
    (hs : s.Forms X) : OutForms X (cvOp x lat d srcs f s) := .next hs.execAlu

theorem fcmpOp_tables {X : Nat → Places} {x : XHead} {ty : Ty} {cc : Cond} {ftz : Bool} {p : BitVec 3} {a : Opd} {b : OpdB} {s : State}
    (hs : s.Forms X) : OutForms X (fcmpOp x ty cc ftz p a b s) := .next hs.execCmp

/-! ### Extended forms -/

theorem execFaddExt_tables {X : Nat → Places} {x : XHead} {ty : Ty} {m : FpMod} {d a : Opd} {b : OpdB} {s : State} (hs : s.Forms X) :
    OutForms X (execFaddExt x ty m d a b s) := fpBin_tables hs

theorem execFsubExt_tables {X : Nat → Places} {x : XHead} {ty : Ty} {m : FpMod} {d a : Opd} {b : OpdB} {s : State} (hs : s.Forms X) :
    OutForms X (execFsubExt x ty m d a b s) := fpBin_tables hs

theorem execFmulExt_tables {X : Nat → Places} {x : XHead} {ty : Ty} {m : FpMod} {d a : Opd} {b : OpdB} {s : State} (hs : s.Forms X) :
    OutForms X (execFmulExt x ty m d a b s) := fpBin_tables hs

theorem execFfma_tables {X : Nat → Places} {x : XHead} {ty : Ty} {m : FpMod} {d a : Opd} {b : OpdB} {c : Opd} {s : State} (hs : s.Forms X) :
    OutForms X (execFfma x ty m d a b c s) := .next hs.execAlu

theorem execFminExt_tables {X : Nat → Places} {x : XHead} {ty : Ty} {ftz : Bool} {d a : Opd} {b : OpdB} {s : State} (hs : s.Forms X) :
    OutForms X (execFminExt x ty ftz d a b s) := fpBin_tables hs

theorem execFmaxExt_tables {X : Nat → Places} {x : XHead} {ty : Ty} {ftz : Bool} {d a : Opd} {b : OpdB} {s : State} (hs : s.Forms X) :
    OutForms X (execFmaxExt x ty ftz d a b s) := fpBin_tables hs

theorem execFrndExt_tables {X : Nat → Places} {x : XHead} {ty : Ty} {m : FpMod} {d a : Opd} {s : State} (hs : s.Forms X) :
    OutForms X (execFrndExt x ty m d a s) := fpUn_tables hs

theorem execFdiv_tables {X : Nat → Places} {x : XHead} {m : FpMod} {d a : Opd} {b : OpdB} {s : State} (hs : s.Forms X) :
    OutForms X (execFdiv x m d a b s) := .next hs.execSfu

theorem execRcp_tables {X : Nat → Places} {x : XHead} {m : FpMod} {d a : Opd} {s : State} (hs : s.Forms X) :
    OutForms X (execRcp x m d a s) :=
  sfuUn_tables hs

theorem execRsq_tables {X : Nat → Places} {x : XHead} {m : FpMod} {d a : Opd} {s : State} (hs : s.Forms X) :
    OutForms X (execRsq x m d a s) :=
  sfuUn_tables hs

theorem execSqrt_tables {X : Nat → Places} {x : XHead} {m : FpMod} {d a : Opd} {s : State} (hs : s.Forms X) :
    OutForms X (execSqrt x m d a s) := sfuUn_tables hs

theorem execEx2_tables {X : Nat → Places} {x : XHead} {m : FpMod} {d a : Opd} {s : State} (hs : s.Forms X) :
    OutForms X (execEx2 x m d a s) :=
  sfuUn_tables hs

theorem execLg2_tables {X : Nat → Places} {x : XHead} {m : FpMod} {d a : Opd} {s : State} (hs : s.Forms X) :
    OutForms X (execLg2 x m d a s) :=
  sfuUn_tables hs

theorem execFcvt_tables {X : Nat → Places} {x : XHead} {dt sty : Ty} {m : CvMod} {d a : Opd} {b : Option OpdB} {s : State} (hs : s.Forms X)
    : OutForms X (execFcvt x dt sty m d a b s) := cvOp_tables hs

theorem execFtoiExt_tables {X : Nat → Places} {x : XHead} {dt sty : Ty} {rm : Rm} {d a : Opd} {s : State} (hs : s.Forms X) :
    OutForms X (execFtoiExt x dt sty rm d a s) := cvOp_tables hs

theorem execItofExt_tables {X : Nat → Places} {x : XHead} {dt sty : Ty} {m : FpMod} {d a : Opd} {s : State} (hs : s.Forms X) :
    OutForms X (execItofExt x dt sty m d a s) := cvOp_tables hs

theorem execFcmp_tables {X : Nat → Places} {x : XHead} {ty : Ty} {cc : Cond} {ftz : Bool} {p : BitVec 3} {a : Opd} {b : OpdB} {s : State}
    (hs : s.Forms X) : OutForms X (execFcmp x ty cc ftz p a b s) := fcmpOp_tables hs

/-! ### Base words (R67) -/

theorem execFadd_tables {X : Nat → Places} {stl : BitVec 3} {d a : BitVec 7} {b : BaseB} {s : State} (hs : s.Forms X) :
    OutForms X (execFadd stl d a b s) := fpBin_tables hs

theorem execFsub_tables {X : Nat → Places} {stl : BitVec 3} {d a : BitVec 7} {b : BaseB} {s : State} (hs : s.Forms X) :
    OutForms X (execFsub stl d a b s) := fpBin_tables hs

theorem execFmul_tables {X : Nat → Places} {stl : BitVec 3} {d a : BitVec 7} {b : BaseB} {s : State} (hs : s.Forms X) :
    OutForms X (execFmul stl d a b s) := fpBin_tables hs

theorem execFmin_tables {X : Nat → Places} {stl : BitVec 3} {d a : BitVec 7} {b : BaseB} {s : State} (hs : s.Forms X) :
    OutForms X (execFmin stl d a b s) := fpBin_tables hs

theorem execFmax_tables {X : Nat → Places} {stl : BitVec 3} {d a : BitVec 7} {b : BaseB} {s : State} (hs : s.Forms X) :
    OutForms X (execFmax stl d a b s) := fpBin_tables hs

theorem execFtoi_tables {X : Nat → Places} {stl : BitVec 3} {d a : BitVec 7} {s : State} (hs : s.Forms X) :
    OutForms X (execFtoi stl d a s) :=
  cvOp_tables hs

theorem execItof_tables {X : Nat → Places} {stl : BitVec 3} {d a : BitVec 7} {s : State} (hs : s.Forms X) :
    OutForms X (execItof stl d a s) :=
  cvOp_tables hs

theorem execFrnd_tables {X : Nat → Places} {stl : BitVec 3} {d a : BitVec 7} {s : State} (hs : s.Forms X) :
    OutForms X (execFrnd stl d a s) :=
  fpUn_tables hs

theorem execFcvtF16F32_tables {X : Nat → Places} {stl : BitVec 3} {d a : BitVec 7} {s : State} (hs : s.Forms X) :
    OutForms X (execFcvtF16F32 stl d a s) := cvOp_tables hs

theorem execFcvtF32F16_tables {X : Nat → Places} {stl : BitVec 3} {d a : BitVec 7} {s : State} (hs : s.Forms X) :
    OutForms X (execFcvtF32F16 stl d a s) := cvOp_tables hs

theorem execFcvtB16F32_tables {X : Nat → Places} {stl : BitVec 3} {d a : BitVec 7} {s : State} (hs : s.Forms X) :
    OutForms X (execFcvtB16F32 stl d a s) := cvOp_tables hs

theorem execFcvtF32B16_tables {X : Nat → Places} {stl : BitVec 3} {d a : BitVec 7} {s : State} (hs : s.Forms X) :
    OutForms X (execFcvtF32B16 stl d a s) := cvOp_tables hs

theorem execFcmpF32_tables {X : Nat → Places} {stl : BitVec 3} {cc : Cond} {p : BitVec 3} {a : BitVec 7} {b : BaseB} {s : State}
    (hs : s.Forms X) : OutForms X (execFcmpF32 stl cc p a b s) := fcmpOp_tables hs

theorem State.Forms.execX {X : Nat → Places} {s : State} {x : XHead} {d : BitVec 7} {srcs : List OpdB} {helpers : Bool}
    {f : List Nat → Nat → List Word} (hs : s.Forms X) : OutForms X (s.execX x d srcs helpers f) := .next hs.takePorts.pendRes.retire

theorem shflOp_tables {X : Nat → Places} {x : XHead} {m : ShflMode} {ty : Ty} {seg : BitVec 3} {d : BitVec 7} {a : Opd} {b : OpdB}
    {s : State} (hs : s.Forms X) : OutForms X (shflOp x m ty seg d a b s) := hs.execX

theorem qxchOp_tables {X : Nat → Places} {x : XHead} {k : Nat} {ty : Ty} {d a : BitVec 7} {s : State} (hs : s.Forms X) :
    OutForms X (qxchOp x k ty d a s) := hs.execX

theorem voteOp_tables {X : Nat → Places} {x : XHead} {seg : BitVec 3} {p q : BitVec 3} {e : List Bool → Bool} {s : State} (hs : s.Forms X) :
    OutForms X (voteOp x seg p q e s) := .next hs.pendPred.retire

theorem ballotOp_tables {X : Nat → Places} {x : XHead} {d : BitVec 7} {q : BitVec 3} {s : State} (hs : s.Forms X) :
    OutForms X (ballotOp x d q s) := hs.execX

/-! ### Extended forms -/

theorem execShflIdxExt_tables {X : Nat → Places} {x : XHead} {ty : Ty} {seg : BitVec 3} {d : BitVec 7} {a : Opd} {b : OpdB} {s : State}
    (hs : s.Forms X) : OutForms X (execShflIdxExt x ty seg d a b s) := shflOp_tables hs

theorem execShflUpExt_tables {X : Nat → Places} {x : XHead} {ty : Ty} {seg : BitVec 3} {d : BitVec 7} {a : Opd} {b : OpdB} {s : State}
    (hs : s.Forms X) : OutForms X (execShflUpExt x ty seg d a b s) := shflOp_tables hs

theorem execShflDownExt_tables {X : Nat → Places} {x : XHead} {ty : Ty} {seg : BitVec 3} {d : BitVec 7} {a : Opd} {b : OpdB} {s : State}
    (hs : s.Forms X) : OutForms X (execShflDownExt x ty seg d a b s) := shflOp_tables hs

theorem execShflXorExt_tables {X : Nat → Places} {x : XHead} {ty : Ty} {seg : BitVec 3} {d : BitVec 7} {a : Opd} {b : OpdB} {s : State}
    (hs : s.Forms X) : OutForms X (execShflXorExt x ty seg d a b s) := shflOp_tables hs

theorem execQxchHExt_tables {X : Nat → Places} {x : XHead} {ty : Ty} {d a : BitVec 7} {s : State} (hs : s.Forms X) :
    OutForms X (execQxchHExt x ty d a s) := qxchOp_tables hs

theorem execQxchVExt_tables {X : Nat → Places} {x : XHead} {ty : Ty} {d a : BitVec 7} {s : State} (hs : s.Forms X) :
    OutForms X (execQxchVExt x ty d a s) := qxchOp_tables hs

theorem execQxchDExt_tables {X : Nat → Places} {x : XHead} {ty : Ty} {d a : BitVec 7} {s : State} (hs : s.Forms X) :
    OutForms X (execQxchDExt x ty d a s) := qxchOp_tables hs

theorem execVoteAny_tables {X : Nat → Places} {x : XHead} {seg : BitVec 3} {p q : BitVec 3} {s : State} (hs : s.Forms X) :
    OutForms X (execVoteAny x seg p q s) := voteOp_tables hs

theorem execVoteAll_tables {X : Nat → Places} {x : XHead} {seg : BitVec 3} {p q : BitVec 3} {s : State} (hs : s.Forms X) :
    OutForms X (execVoteAll x seg p q s) := voteOp_tables hs

theorem execVoteEq_tables {X : Nat → Places} {x : XHead} {seg : BitVec 3} {p q : BitVec 3} {s : State} (hs : s.Forms X) :
    OutForms X (execVoteEq x seg p q s) := voteOp_tables hs

theorem execBallotExt_tables {X : Nat → Places} {x : XHead} {d : BitVec 7} {q : BitVec 3} {s : State} (hs : s.Forms X) :
    OutForms X (execBallotExt x d q s) := ballotOp_tables hs

theorem execMatchX_tables {X : Nat → Places} {x : XHead} {ty : Ty} {d a : BitVec 7} {s : State} (hs : s.Forms X) :
    OutForms X (execMatchX x ty d a s) := hs.execX

theorem execCompact_tables {X : Nat → Places} {x : XHead} {d : BitVec 7} {q : BitVec 3} {s : State} (hs : s.Forms X) :
    OutForms X (execCompact x d q s) := hs.execX

theorem execGscan_tables {X : Nat → Places} {x : XHead} {ty : Ty} {opn : Opn} {ex : Bool} {seg : BitVec 3} {d a : BitVec 7} {s : State}
    (hs : s.Forms X) : OutForms X (execGscan x ty opn ex seg d a s) := hs.execX

theorem execGred_tables {X : Nat → Places} {x : XHead} {ty : Ty} {opn : Opn} {seg : BitVec 3} {d a : BitVec 7} {s : State} (hs : s.Forms X)
    : OutForms X (execGred x ty opn seg d a s) := hs.execX

/-! ### Base words (R67) -/

theorem execShflIdx_tables {X : Nat → Places} {stl : BitVec 3} {d a : BitVec 7} {b : BaseB} {s : State} (hs : s.Forms X) :
    OutForms X (execShflIdx stl d a b s) := shflOp_tables hs

theorem execShflUp_tables {X : Nat → Places} {stl : BitVec 3} {d a : BitVec 7} {b : BaseB} {s : State} (hs : s.Forms X) :
    OutForms X (execShflUp stl d a b s) := shflOp_tables hs

theorem execShflDown_tables {X : Nat → Places} {stl : BitVec 3} {d a : BitVec 7} {b : BaseB} {s : State} (hs : s.Forms X) :
    OutForms X (execShflDown stl d a b s) := shflOp_tables hs

theorem execShflXor_tables {X : Nat → Places} {stl : BitVec 3} {d a : BitVec 7} {b : BaseB} {s : State} (hs : s.Forms X) :
    OutForms X (execShflXor stl d a b s) := shflOp_tables hs

theorem execQxchH_tables {X : Nat → Places} {stl : BitVec 3} {d a : BitVec 7} {s : State} (hs : s.Forms X) :
    OutForms X (execQxchH stl d a s) := qxchOp_tables hs

theorem execQxchV_tables {X : Nat → Places} {stl : BitVec 3} {d a : BitVec 7} {s : State} (hs : s.Forms X) :
    OutForms X (execQxchV stl d a s) := qxchOp_tables hs

theorem execQxchD_tables {X : Nat → Places} {stl : BitVec 3} {d a : BitVec 7} {s : State} (hs : s.Forms X) :
    OutForms X (execQxchD stl d a s) := qxchOp_tables hs

theorem execBallot_tables {X : Nat → Places} {stl : BitVec 3} {d : BitVec 7} {q : BitVec 3} {s : State} (hs : s.Forms X) :
    OutForms X (execBallot stl d q s) := ballotOp_tables hs

end Sys2Proof.Machine
end

section
namespace Sys2Proof.Machine

/-! ### Shared operations -/

theorem braOp_tables {X : Nat → Places} {x : XHead} {off : Dword} {s : State} (hs : s.Forms X) : OutForms X (braOp x off s) :=
  .next hs.retireTo

theorem callOp_tables {X : Nat → Places} {x : XHead} {d : BitVec 7} {off : Dword} {s : State} (hs : s.Forms X) :
    OutForms X (callOp x d off s) := .next hs.pushRes.retireTo

theorem brxOp_tables {X : Nat → Places} {x : XHead} {a : Opd} {s : State} (hs : s.Forms X) : OutForms X (brxOp x a s) := by
  unfold brxOp
  dsimp only
  split
  · exact .next hs.killCur
  · exact .next hs.retireTo

theorem exitOp_tables {X : Nat → Places} {x : XHead} {s : State} (hs : s.Forms X) : OutForms X (exitOp x s) := by
  unfold exitOp
  refine .next (((hs.foldl ?_).retire).foldl (fun _ _ h => h.afterExit))
  intro _ _ h
  refine h.exitThread.modCt ?_ ?_
  · exact fun _ ht => Team_leaveConj_tabs ht
  · exact fun _ => Team_leaveConj_id _ _ _

theorem yieldOp_tables {X : Nat → Places} {x : XHead} {s : State} (hs : s.Forms X) : OutForms X (yieldOp x s) := by
  unfold yieldOp
  refine .next ((hs.ite (hs.modCg ?_)).retire)
  exact fun _ hg => hg.congr rfl rfl rfl rfl rfl rfl

theorem trapOp_tables {X : Nat → Places} {x : XHead} {cls code : Nat} {s : State} (hs : s.Forms X) : OutForms X (trapOp x cls code s) :=
  .next hs.takeFault.retire

theorem bkptOp_tables {X : Nat → Places} {x : XHead} {code : BitVec 14} {s : State} (hs : s.Forms X) : OutForms X (bkptOp x code s) := by
  unfold bkptOp
  split
  · exact trapOp_tables hs
  · exact .next hs.retire

/-! ### Extended forms -/

theorem execBraExt_tables {X : Nat → Places} {x : XHead} {off : ExtOff} {s : State} (hs : s.Forms X) : OutForms X (execBraExt x off s) :=
  braOp_tables hs

theorem execBrxExt_tables {X : Nat → Places} {x : XHead} {a : Opd} {s : State} (hs : s.Forms X) : OutForms X (execBrxExt x a s) :=
  brxOp_tables hs

theorem execCallExt_tables {X : Nat → Places} {x : XHead} {d : BitVec 7} {off : ExtOff} {s : State} (hs : s.Forms X) :
    OutForms X (execCallExt x d off s) := callOp_tables hs

theorem execRetExt_tables {X : Nat → Places} {x : XHead} {a : Opd} {s : State} (hs : s.Forms X) : OutForms X (execRetExt x a s) :=
  brxOp_tables hs

theorem execExitExt_tables {X : Nat → Places} {x : XHead} {s : State} (hs : s.Forms X) : OutForms X (execExitExt x s) := exitOp_tables hs

theorem execYieldExt_tables {X : Nat → Places} {x : XHead} {s : State} (hs : s.Forms X) : OutForms X (execYieldExt x s) := yieldOp_tables hs

theorem execNopExt_tables {X : Nat → Places} {x : XHead} {s : State} (hs : s.Forms X) : OutForms X (execNopExt x s) := .next hs.retire

theorem execTrap_tables {X : Nat → Places} {x : XHead} {code : BitVec 16} {s : State} (hs : s.Forms X) : OutForms X (execTrap x code s) :=
  trapOp_tables hs

theorem execBkptExt_tables {X : Nat → Places} {x : XHead} {code : BitVec 14} {s : State} (hs : s.Forms X) :
    OutForms X (execBkptExt x code s) := bkptOp_tables hs

theorem execWaitt_tables {X : Nat → Places} {x : XHead} {a : Opd} {s : State} (hs : s.Forms X) : OutForms X (execWaitt x a s) := by
  unfold execWaitt
  refine .next ((hs.modCt ?_ ?_).retire)
  · exact fun _ ht => ht.foldl (fun _ _ ht => ht.modThreadAt (fun _ hth => hth.congr rfl rfl))
  · exact fun _ => foldl_id _ (fun _ _ => Team.modThreadAt_id _ _ _ _) _ _

theorem execMfsr_tables {X : Nat → Places} {x : XHead} {d : BitVec 7} {sl : BitVec 8} {s : State} (hs : s.Forms X) :
    OutForms X (execMfsr x d sl s) := .next hs.execAlu

/-! ### Base words (R67) -/

theorem execBra_tables {X : Nat → Places} {stl : BitVec 3} {off : BaseOff} {s : State} (hs : s.Forms X) : OutForms X (execBra stl off s) :=
  braOp_tables hs

theorem execCall_tables {X : Nat → Places} {stl : BitVec 3} {d : BitVec 7} {off : BaseOff} {s : State} (hs : s.Forms X) :
    OutForms X (execCall stl d off s) := callOp_tables hs

theorem execRet_tables {X : Nat → Places} {stl : BitVec 3} {a : BitVec 7} {s : State} (hs : s.Forms X) : OutForms X (execRet stl a s) :=
  brxOp_tables hs

theorem execBrx_tables {X : Nat → Places} {stl : BitVec 3} {a : BitVec 7} {s : State} (hs : s.Forms X) : OutForms X (execBrx stl a s) :=
  brxOp_tables hs

theorem execExit_tables {X : Nat → Places} {stl : BitVec 3} {s : State} (hs : s.Forms X) : OutForms X (execExit stl s) := exitOp_tables hs

theorem execNop_tables {X : Nat → Places} {stl : BitVec 3} {s : State} (hs : s.Forms X) : OutForms X (execNop stl s) := .next hs.retire

theorem execYieldB_tables {X : Nat → Places} {stl : BitVec 3} {s : State} (hs : s.Forms X) : OutForms X (execYieldB stl s) :=
  yieldOp_tables hs

theorem execBkpt_tables {X : Nat → Places} {stl : BitVec 3} {code : BitVec 14} {s : State} (hs : s.Forms X) :
    OutForms X (execBkpt stl code s) := bkptOp_tables hs

/-! ### Free lists (R287, R288) -/

theorem State.Forms.reclaim {X : Nat → Places} {s : State} {w bit : Nat} (hs : s.Forms X) : (s.reclaim w bit).Forms X := by
  unfold State.reclaim
  refine (hs.modWorld ?_).signal
  exact fun _ hw => hw.congr rfl

theorem State.Forms.pushFrame {X : Nat → Places} {s : State} {w t k frame : Nat} (hs : s.Forms X) : (s.pushFrame w t k frame).Forms X := by
  unfold State.pushFrame
  refine (hs.setPhys.modWorld ?_).ite (hs.modWorld ?_)
  · exact fun _ hw => World_setList_tabs hw
  · exact fun _ hw => hw.congr rfl

theorem State.Forms.popFrame {X : Nat → Places} {s : State} {w t k : Nat} (hs : s.Forms X) : (s.popFrame w t k).2.Forms X := by
  unfold State.popFrame
  refine ((hs.modWorld ?_).reclaim).ite (hs.modWorld ?_)
  · exact fun _ hw => (World_setList_tabs hw).congr rfl
  · exact fun _ hw => (World_setList_tabs hw).congr rfl

/-! ### Accesses -/

theorem State.Forms.deliverLoad {X : Nat → Places} {s : State} {op : FOp} {bs : List Byte} (hs : s.Forms X) :
    (s.deliverLoad op bs).Forms X := by
  unfold State.deliverLoad
  split
  · exact hs.deliver
  · refine hs.foldl ?_
    intro _ _ h
    split
    · exact h.deliver
    · exact h.deliver
    · exact h
  · exact hs.deliver
  · exact hs

theorem State.Forms.putSpace {X : Nat → Places} {s : State} {core team : Nat} {sp : Space} {bs : List Byte} (hs : s.Forms X) :
    (s.putSpace core team sp bs).Forms X := by
  unfold State.putSpace
  split
  · exact hs.write
  · exact hs.setScratch
  · exact hs.setStack

/-- What a flight reads passes through the caches of its core. -/
theorem State.Forms.fetched {X : Nat → Places} {s : State} (hs : s.Forms X) {f : Flight} :
    (match f.space with
      | .glob pa => s.fillBy f.core f.world pa f.n f.fill
      | .stk pa => s.touchStack f.core f.team f.world pa f.n
      | .scr _ => s).Forms X := by
  split
  · exact hs.fillBy
  · exact hs.touchStack
  · exact hs

theorem State.Forms.perform {X : Nat → Places} {s : State} {f : Flight} (hs : s.Forms X) : (s.perform f).Forms X := by
  unfold State.perform
  dsimp only
  split
  · exact hs.withFlights.fetched.deliverLoad.settle
  · exact hs.withFlights.fetched.deliverLoad.settle
  · exact hs.withFlights.fetched.deliverLoad.settle
  split
  · exact hs.withFlights.arrive.homeLanes
  · exact (hs.withFlights.putSpace.foldl fun _ _ h => h.deliver).settle

theorem State.Forms.start {X : Nat → Places} {s : State} {f : Flight} (hs : s.Forms X) : (s.start f).Forms X := by
  unfold State.start
  refine ((hs.modTeam ?_ ?_).ite hs).withFlights
  · exact fun _ ht => ht.modActor (fun _ hg => hg.congr rfl rfl rfl rfl rfl rfl)
  · exact fun _ => Team.modActor_id _ _ _

theorem State.Forms.checkAll {X : Nat → Places} {s : State} {vas : List (Nat × Dword)} {n al kind : Nat} {elem : Bool} (hs : s.Forms X) :
    (s.checkAll vas n al kind elem).2.Forms X := by
  refine foldl_keeps (fun r : List (Nat × Dword × Except Flt Acc) × State => r.2.Forms X) _ (fun r v h => ?_) vas ([], s) hs
  exact h.access

theorem State.Forms.parkFailed {X : Nat → Places} {s : State} {fs : List (Nat × Flt)} {way : FltWay} (hs : s.Forms X) :
    (s.parkFailed fs way).Forms X := hs.takeFault

/-! ### Loads -/

theorem State.Forms.startLoad {X : Nat → Places} {s : State} {L : Nat} {a : Acc} {o : MOrd} {hint : BitVec 2} {fmt : LdFmt} {tgt : Tgt}
    {first : Nat} (hs : s.Forms X) : (s.startLoad L a o hint fmt tgt first).Forms X := by
  unfold State.startLoad
  dsimp only
  split
  · exact hs.fresh.start
  split
  · exact hs
  · exact hs.foldl (fun _ _ h => h.fresh.start)

theorem State.Forms.loadPend {X : Nat → Places} {s : State} {sh : LoadShape} {L : Nat} (hs : s.Forms X) : (s.loadPend sh L).2.Forms X :=
  hs.addPend

theorem loadOp_tables {X : Nat → Places} {x : XHead} {helpers : Bool} {hint : BitVec 2} {o : MOrd} {fmt : LdFmt} {d a : Opd} {off : AddrOff}
    {s : State} (hs : s.Forms X) : OutForms X (loadOp x helpers hint o fmt d a off s) := by
  unfold loadOp
  refine .next
    ((((hs.pullPorts.checkAll.checkAll.parkFailed.foldl ?_).ite ((hs.pullPorts.checkAll.checkAll.parkFailed.foldl ?_).foldl ?_)).ite
    (((hs.pullPorts.checkAll.checkAll.parkFailed.foldl ?_).ite ((hs.pullPorts.checkAll.checkAll.parkFailed.foldl ?_).foldl ?_)).foldl
    (fun _ _ h => h.addPend))).retire)
  · intro _ _ h
    split
    · split
      · dsimp only
        exact h.loadPend.startLoad
      · exact h.startLoad
    split
    · dsimp only
      exact h.loadPend.startLoad
    · exact h.startLoad
  · intro _ _ h
    split
    · split
      · dsimp only
        exact h.loadPend.startLoad
      · exact h.startLoad
    split
    · dsimp only
      exact h.loadPend.startLoad
    · exact h.startLoad
  · intro _ _ h
    dsimp only
    exact h.loadPend.startLoad
  · intro _ _ h
    split
    · split
      · dsimp only
        exact h.loadPend.startLoad
      · exact h.startLoad
    split
    · dsimp only
      exact h.loadPend.startLoad
    · exact h.startLoad
  · intro _ _ h
    split
    · split
      · dsimp only
        exact h.loadPend.startLoad
      · exact h.startLoad
    split
    · dsimp only
      exact h.loadPend.startLoad
    · exact h.startLoad
  · intro _ _ h
    dsimp only
    exact h.loadPend.startLoad

/-! ### Stores -/

theorem State.Forms.startStore {X : Nat → Places} {s : State} {L : Nat} {a : Acc} {o : MOrd} {fmt : StFmt} {ws : List Word} {first : Nat}
    (hs : s.Forms X) : (s.startStore L a o fmt ws first).Forms X := by
  unfold State.startStore
  split
  · dsimp only
    exact hs.fresh.start
  split
  · exact hs
  refine hs.foldl ?_
  intro _ _ h
  dsimp only
  exact h.fresh.start

theorem storeOp_tables {X : Nat → Places} {x : XHead} {o : MOrd} {fmt : StFmt} {a : Opd} {off : AddrOff} {c : Opd} {s : State}
    (hs : s.Forms X) : OutForms X (storeOp x o fmt a off c s) :=
      .next ((hs.pullPorts.checkAll.parkFailed.foldl (fun _ _ h => h.startStore)).retire)

/-! ### The landing pool (R38 to R40) -/

/-- The registers that a group spills or takes back into its landing pool are noted. -/
theorem State.Forms.modPool {X : Nat → Places} {s : State} (hs : s.Forms X) {team g : Nat} {f : Team → Group → Group} 
    (hf : ∀ {R T : Nat → Prop} (t : Team) (x : Group), x.Tabs R T → (f t x).Tabs R T) :
    (s.modTeam team fun t => t.modGroupAt g (f t)).Forms X :=
      hs.modTeam (fun t ht => ht.modGroupAt (hf t)) fun _ => Team.modGroupAt_id _ _ _

theorem State.Forms.spill {X : Nat → Places} {s : State} {team g : Nat} {regs : List Nat} (hs : s.Forms X) :
    (s.spill team g regs).Forms X := by
  unfold State.spill
  dsimp only
  refine State.Forms.modPool (State.Forms.foldl hs fun u r h => ?_) ?_
  rotate_left
  · exact fun _ _ hg => hg.congr rfl rfl rfl rfl rfl rfl
  have h1 := fun w v => h.globAcc (core := (s.team team).core) (world := w) (va := v) (kind := kWrite) (elem := false)
  split
  · rename_i he
    have h2 := h1 (u.worldOf (s.team team)) (u.backVa (s.team team) g (r - (s.hdrOf (s.team team)).h))
    rw [he] at h2
    exact State.Forms.hwStore h2
  · rename_i he
    have h2 := h1 (u.worldOf (s.team team)) (u.backVa (s.team team) g (r - (s.hdrOf (s.team team)).h))
    rw [he] at h2
    exact h2

theorem State.Forms.releasePool {X : Nat → Places} {s : State} {team g : Nat} {regs : List Nat} (hs : s.Forms X) :
    (s.releasePool team g regs).Forms X := by
  unfold State.releasePool
  dsimp only
  split
  · exact hs
  · refine hs.modTeam (fun _ ht => Team_freeSpace_tabs (ht.modGroupAt fun _ hg => ?_)) fun _ => Team.modGroupAt_id _ _ _
    exact hg.congr rfl rfl rfl rfl rfl rfl

theorem State.Forms.landRegs {X : Nat → Places} {s : State} {team g : Nat} {regs : List Nat} (hs : s.Forms X) :
    (s.landRegs team g regs).Forms X := by
  have hput : ∀ {u : State} {new : List Nat}, u.Forms X → (u.modTeam team fun t => t.modGroupAt g fun x =>
      { x with landed := new.foldl insertNat x.landed, spilled := x.spilled.filter fun r => !new.contains r }).Forms X :=
    fun h => h.modPool fun _ _ hg => hg.congr rfl rfl rfl rfl rfl rfl
  unfold State.landRegs
  dsimp only
  split
  · exact hs
  split
  · exact hput hs
  split
  · have h1 : ∀ v, ((s.spill team v ((s.team team).groupAt v).landed).modTeam team Team_freeSpace).Forms X :=
      fun v => hs.spill.modTeam (fun _ ht => Team_freeSpace_tabs ht) fun _ => rfl
    split
    · exact hput (h1 _)
    · exact (h1 _).spill
  · exact hs.spill

theorem State.Forms.refillTeam {X : Nat → Places} {s : State} {team : Nat} {t : State} (hs : s.Forms X) (e : s.refillTeam team = some t) :
    t.Forms X := by
  unfold State.refillTeam at e
  dsimp only at e
  split at e
  · cases e
  split at e
  · cases e
    exact hs.modPool fun _ _ hg => hg.congr rfl rfl rfl rfl rfl rfl
  split at e
  · split at e
    · cases e
      exact (hs.spill.modTeam (fun _ ht => Team_freeSpace_tabs ht) fun _ => rfl).modPool fun _ _ hg => hg.congr rfl rfl rfl rfl rfl rfl
    · cases e
  · cases e

/-! ### Escorted requests -/

theorem State.Forms.escSend {X : Nat → Places} {s : State} {e : EscSet} {act : List Nat} {dreg dcnt : Nat} {line : Nat → Nat}
    {path : Nat → Hold} (hs : s.Forms X) : (s.escSend e act dreg dcnt line path).2.Forms X := by
  refine State.Forms.foldl ?_ fun _ _ h => h.releasePool
  have h1 := (hs.fresh.modCore (k := s.cur.core) (f := fun c => { c with used := c.used + escCharge act.length e.cnt.toNat })).modCt
    (f := fun t => { t with esc := t.esc + escCharge act.length e.cnt.toNat }) (fun _ ht => ht.congr rfl rfl rfl rfl rfl rfl) fun _ => rfl
  exact h1.congr rfl rfl rfl rfl rfl rfl

theorem State.Forms.modEscLane {X : Nat → Places} {s : State} {id key : Nat} {f : EscLane → EscLane} (hs : s.Forms X) :
    (s.modEscLane id key f).Forms X := hs.withEscs

/-! ### Faults found after issue (R112, R188, R215) -/

theorem State.Forms.reqTag {X : Nat → Places} {s : State} {r : EscReq} (hs : s.Forms X) : (s.reqTag r).2.Forms X := by
  unfold State.reqTag
  split
  · exact hs
  dsimp only
  exact hs.fresh.withEscs

/-! ### Faults of lanes that answer one by one (R112, R215) -/

theorem State.Forms.lateFault {X : Nat → Places} {s : State} {key : Nat} {c : IssueCtx} {h : Nat × Nat} {f : Flt} (hs : s.Forms X) :
    (s.lateFault key c h f).Forms X := by
  unfold State.lateFault
  split
  · exact hs
  dsimp only
  split
  · exact hs
  split
  · exact hs.killActor
  split
  · exact hs.park.withLates
  · exact hs.fresh.withLates.park.withLates

theorem State.Forms.lateDone {X : Nat → Places} {s : State} {key : Nat} (hs : s.Forms X) : (s.lateDone key).Forms X := by
  unfold State.lateDone
  split
  · exact hs
  split
  · exact hs
  dsimp only
  split
  · exact hs.withLates
  · exact hs.withLates.takeFault

theorem State.Forms.capPark {X : Nat → Places} {s : State} {key : Nat} {bad : List (Nat × Flt)} {sends : Bool} (hs : s.Forms X) :
    (s.capPark key bad sends).Forms X := (hs.foldl (fun _ _ h => h.lateFault)).ite hs.parkFailed

theorem State.Forms.escEarly {X : Nat → Places} {s : State} {id : Nat} {fs : List LaneFlt} (hs : s.Forms X) :
    (s.escEarly id fs).Forms X := by
  unfold State.escEarly
  split
  · split
    · exact hs
    dsimp only
    refine (hs.reqTag.modTeam ?_ ?_).withEscs
    · exact fun _ ht => Team_park_tabs ht
    · exact fun _ => Team_park_id _ _ _ _
  · exact hs

theorem State.Forms.reqFaults {X : Nat → Places} {s : State} {id : Nat} (hs : s.Forms X) : (s.reqFaults id).Forms X := by
  unfold State.reqFaults
  split
  · exact hs
  split
  · exact hs
  · exact hs.ite hs.withEscs.takeFault

theorem State.Forms.escDone {X : Nat → Places} {s : State} {id : Nat} (hs : s.Forms X) : (s.escDone id).Forms X := by
  unfold State.escDone
  split
  · exact hs
  split
  · rename_i r _ _
    have h1 : ((s.reqFaults id).modTeam r.team fun t => { t with esc := t.esc - r.charge }).Forms X :=
      hs.reqFaults.modTeam (fun _ ht => ht.congr rfl rfl rfl rfl rfl rfl) fun _ => rfl
    cases r.on with
    | some c =>
      dsimp only
      split
      · exact (h1.modCore (k := c) (f := fun x => { x with used := x.used - r.charge })).congr rfl rfl rfl rfl rfl rfl
      · exact (h1.modCore (k := c) (f := fun x => { x with used := x.used - r.charge })).congr rfl rfl rfl rfl rfl rfl
    | none =>
      dsimp only
      split
      · exact h1.congr rfl rfl rfl rfl rfl rfl
      · exact h1.congr rfl rfl rfl rfl rfl rfl
  · exact hs

theorem State.Forms.finishExit {X : Nat → Places} {s : State} {team g l : Nat} (hs : s.Forms X) : (s.finishExit team g l).Forms X := by
  unfold State.finishExit
  refine (hs.ite ((hs.modTeam ?_ ?_).afterExit)).ite hs
  · exact fun _ ht => ht.modThread (fun _ hth => hth.congr rfl rfl)
  · exact fun _ => Team.modThread_id _ _ _ _

theorem State.Forms.landOne {X : Nat → Places} {s : State} {r : EscReq} {l : EscLane} {withDest : Bool} (hs : s.Forms X) :
    (s.landOne r l withDest).Forms X := by
  unfold State.landOne
  dsimp only
  split
  · exact hs.modEscLane
  · refine State.Forms.landRegs (hs.modEscLane.modTeam (fun _ ht => ht.modThread fun _ h => ?_) fun _ => Team.modThread_id _ _ _ _)
    exact Thread_putRegs_tabs (Thread_putRegs_tabs h)

theorem State.Forms.landLane {X : Nat → Places} {s : State} {r : EscReq} {l : EscLane} {withDest : Bool} (hs : s.Forms X) :
    (s.landLane r l withDest).Forms X := hs.landOne.escDone.finishExit

theorem State.Forms.landFault {X : Nat → Places} {s : State} {r : EscReq} {l : EscLane} (hs : s.Forms X) : (s.landFault r l).Forms X := by
  unfold State.landFault
  dsimp only
  refine hs.landLane.ite (hs.killActor.landLane.ite (((hs.reqTag.modTeam ?_ ?_).modEscLane).landLane))
  · exact fun _ ht => Team_park_tabs ht
  · exact fun _ => Team_park_id _ _ _ _

theorem State.Forms.escFaulted {X : Nat → Places} {s : State} {req : Nat} {fs : List LaneFlt} (hs : s.Forms X) :
    (s.escFaulted req fs).Forms X := hs.withEscs

theorem State.Forms.pushRp {X : Nat → Places} {s : State} {act : List Nat} {e : EscSet} {rp : BitVec 3} {ok : Bool} (hs : s.Forms X) :
    (s.pushRp act e rp ok).Forms X := hs.ite hs.pushPred

theorem State.Forms.wholeGroup {X : Nat → Places} {s : State} {f : State → Out} (hs : s.Forms X)
    (h_f : ∀ s : State, s.Forms X → OutForms X (f s)) : OutForms X (s.wholeGroup f) := by
  unfold State.wholeGroup
  split
  · exact .next hs.killCur
  · exact h_f _ hs

/-! ### Reconvergence -/

theorem State.Forms.rcvSetOp {X : Nat → Places} {s : State} {act : List Nat} {b : Nat} {t : State} (hs : s.Forms X)
    (e : s.rcvSetOp act b = some t) : t.Forms X := by
  unfold State.rcvSetOp at e
  dsimp only at e
  split at e
  · cases e
  · cases e
    refine hs.modCt (fun _ ht => ht.foldl fun _ _ h => h.modThread fun _ hth => hth.congr rfl rfl) fun _ => ?_
    exact foldl_id _ (fun _ _ => Team.modThread_id _ _ _ _) _ _

theorem execRcvSet_tables {X : Nat → Places} {x : XHead} {slot : BitVec 4} {s : State} (hs : s.Forms X) :
    OutForms X (execRcvSet x slot s) := by
  unfold execRcvSet
  split
  · exact .next hs.killCur
  · next he => exact .next (hs.rcvSetOp he).retire

theorem execRcvWait_tables {X : Nat → Places} {x : XHead} {p : BitVec 3} {slot : BitVec 4} {n : BitVec 20} {s : State} (hs : s.Forms X) :
    OutForms X (execRcvWait x p slot n s) := by
  unfold execRcvWait
  refine .next ((((((hs.modCt ?_ ?_).modCt ?_ ?_).retire).modCt ?_ ?_).ite (((hs.modCt ?_ ?_).modCt ?_ ?_).retire)).modCt ?_ ?_)
  · exact fun _ ht => ht.foldl (fun _ _ ht => ht.modThread (fun _ hth => hth.setP))
  · exact fun _ => foldl_id _ (fun _ _ => Team.modThread_id _ _ _ _) _ _
  · exact fun _ ht => ht.foldl (fun _ _ ht => ht.modGroupAt (fun _ hg => Group_arrive_tabs hg))
  · exact fun _ => foldl_id _ (fun _ _ => Team.modGroupAt_id _ _ _) _ _
  · exact fun _ ht => ht.foldl (fun _ _ ht => Team_leaveConj_tabs ht)
  · exact fun _ => foldl_id _ (fun _ _ => Team_leaveConj_id _ _ _) _ _
  · exact fun _ ht => ht.foldl (fun _ _ ht => ht.modThread (fun _ hth => hth.setP))
  · exact fun _ => foldl_id _ (fun _ _ => Team.modThread_id _ _ _ _) _ _
  · exact fun _ ht => ht.foldl (fun _ _ ht => ht.modGroupAt (fun _ hg => Group_arrive_tabs hg))
  · exact fun _ => foldl_id _ (fun _ _ => Team.modGroupAt_id _ _ _) _ _
  · exact fun _ ht => ht.foldl (fun _ _ ht => ht.modGroupAt (fun _ hg => Group_rcvComplete_tabs hg))
  · exact fun _ => foldl_id _ (fun _ _ => Team.modGroupAt_id _ _ _) _ _

/-! ### Barriers -/

theorem State.Forms.barWaitFor {X : Nat → Places} {s : State} {act : List Nat} {n gen : Nat} (hs : s.Forms X) :
    (s.barWaitFor act n gen).Forms X := by
  unfold State.barWaitFor
  refine hs.modCt ?_ ?_
  · exact fun _ ht => ht.foldl (fun _ _ ht => ht.modThreadAt (fun _ hth => hth.congr rfl rfl))
  · exact fun _ => foldl_id _ (fun _ _ => Team.modThreadAt_id _ _ _ _) _ _

theorem State.Forms.arriveBar {X : Nat → Places} {s : State} {n k : Nat} (hs : s.Forms X) : (s.arriveBar n k).Forms X := by
  unfold State.arriveBar
  dsimp only
  refine State.Forms.modCg (hs.modCt ?_ ?_) ?_
  · exact fun _ ht => ht.congr rfl rfl rfl rfl rfl rfl
  · exact fun _ => rfl
  · exact fun _ hg => hg.congr rfl rfl rfl rfl rfl rfl

theorem execBarArv_tables {X : Nat → Places} {x : XHead} {n : BitVec 4} {k : BitVec 6} {s : State} (hs : s.Forms X) :
    OutForms X (execBarArv x n k s) := by
  unfold execBarArv
  refine hs.wholeGroup ?_
  intro s hs
  split
  · exact .next hs.retire
  · exact .next hs.arriveBar.retire.barCheck.barRelease

theorem execBarWait_tables {X : Nat → Places} {x : XHead} {n : BitVec 4} {s : State} (hs : s.Forms X) : OutForms X (execBarWait x n s) := by
  unfold execBarWait
  refine hs.wholeGroup ?_
  intro s hs
  split
  · exact .next hs.retire
  · exact .next hs.barWaitFor.retire

theorem execBarSync_tables {X : Nat → Places} {x : XHead} {n : BitVec 4} {k : BitVec 6} {s : State} (hs : s.Forms X) :
    OutForms X (execBarSync x n k s) := by
  unfold execBarSync
  refine hs.wholeGroup ?_
  intro s hs
  dsimp only
  split
  · exact .next hs.retire
  · exact .next hs.arriveBar.barWaitFor.retire.barCheck.barRelease

theorem State.Forms.arriveCbar {X : Nat → Places} {s : State} (hs : s.Forms X) : (s.arriveCbar).Forms X :=
  hs.modLaunch.modCg fun _ hg => hg.congr rfl rfl rfl rfl rfl rfl

theorem execCbar_tables {X : Nat → Places} {x : XHead} {m : CbarMode} {s : State} (hs : s.Forms X) : OutForms X (execCbar x m s) := by
  unfold execCbar
  refine hs.wholeGroup ?_
  intro s hs
  dsimp only
  split
  · exact .next hs.retire
  split
  · exact .next hs.arriveCbar.barWaitFor.retire.cbarCheck.cbarRelease
  · exact .next hs.arriveCbar.retire.cbarCheck.cbarRelease
  split
  · exact .next hs.retire
  · exact .next hs.barWaitFor.retire

/-! ### The decision queue -/

/-- The issuer's team rewritten but for its maps, groups and number. -/
theorem State.Forms.modCtRest {X : Nat → Places} {s : State} (hs : s.Forms X) {f : Team → Team} (hid : ∀ t, (f t).id = t.id)
    (h1 : ∀ t, (f t).scratch = t.scratch)
    (h2 : ∀ t, (f t).t = t.t) (h3 : ∀ t, (f t).tiles = t.tiles) (h4 : ∀ t, (f t).groups = t.groups) (h5 : ∀ t, (f t).conj = t.conj)
    (h6 : ∀ t, (f t).lead = t.lead) : (s.modCt f).Forms X :=
  hs.modCt (fun t ht => ht.congr (h1 t) (h2 t) (h3 t) (h4 t) (h5 t) (h6 t)) hid

theorem dqPushOp_tables {X : Nat → Places} {x : XHead} {bcast : Bool} {b : OpdB} {s : State} (hs : s.Forms X) :
    OutForms X (dqPushOp x bcast b s) := by
  unfold dqPushOp
  dsimp only
  split
  · exact .next hs.retire
  · exact .next (State.Forms.retire
      (hs.modCtRest (fun _ => rfl) (fun _ => rfl) (fun _ => rfl) (fun _ => rfl) (fun _ => rfl) (fun _ => rfl) fun _ => rfl))

theorem execDqpush_tables {X : Nat → Places} {x : XHead} {b : OpdB} {s : State} (hs : s.Forms X) : OutForms X (execDqpush x b s) :=
  dqPushOp_tables hs

theorem execDqpushAll_tables {X : Nat → Places} {x : XHead} {b : OpdB} {s : State} (hs : s.Forms X) : OutForms X (execDqpushAll x b s) :=
  dqPushOp_tables hs

theorem State.Forms.dqResult {X : Nat → Places} {s : State} {act : List Nat} {gd : BitVec 7} {p : BitVec 3} {v : Word} {ok : Bool}
    (hs : s.Forms X) : (s.dqResult act gd p v ok).Forms X := hs.pendRes.pendPred

theorem execDqpop_tables {X : Nat → Places} {x : XHead} {gd : BitVec 7} {p : BitVec 3} {s : State} (hs : s.Forms X) :
    OutForms X (execDqpop x gd p s) := by
  refine State.Forms.wholeGroup hs fun s hs => ?_
  dsimp only
  split
  · exact .next hs.retire
  split
  · refine .next (State.Forms.retire (State.Forms.dqResult (hs.modCt ?_ fun _ => rfl)))
    exact fun _ ht => Team_dqRetire_tabs (ht.congr rfl rfl rfl rfl rfl rfl)
  split
  · exact .next hs.dqResult.retire
  · exact .next hs

end Sys2Proof.Machine
end

section
namespace Sys2Proof.Machine

/-! ### Loads and stores -/

theorem execLd_tables {X : Nat → Places} {x : XHead} {hint : BitVec 2} {o : MOrd} {fmt : LdFmt} {d a : Opd} {off : AddrOff} {s : State}
    (hs : s.Forms X) : OutForms X (execLd x hint o fmt d a off s) := loadOp_tables hs

theorem execSt_tables {X : Nat → Places} {x : XHead} {_hint : BitVec 2} {o : MOrd} {fmt : StFmt} {a : Opd} {off : AddrOff} {c : Opd}
    {s : State} (hs : s.Forms X) : OutForms X (execSt x _hint o fmt a off c s) := storeOp_tables hs

theorem baseLoad_tables {X : Nat → Places} {stl : BitVec 3} {hint : BitVec 2} {w : Wid} {d a : BitVec 7} {disp : BaseDisp} {s : State}
    (hs : s.Forms X) : OutForms X (baseLoad stl hint w d a disp s) := loadOp_tables hs

theorem baseStore_tables {X : Nat → Places} {stl : BitVec 3} {w : Wid} {d a : BitVec 7} {disp : BaseDisp} {s : State} (hs : s.Forms X) :
    OutForms X (baseStore stl w d a disp s) := storeOp_tables hs

theorem execLd32_tables {X : Nat → Places} {stl : BitVec 3} {d a : BitVec 7} {disp : BaseDisp} {s : State} (hs : s.Forms X) :
    OutForms X (execLd32 stl d a disp s) := baseLoad_tables hs

theorem execLd64_tables {X : Nat → Places} {stl : BitVec 3} {d a : BitVec 7} {disp : BaseDisp} {s : State} (hs : s.Forms X) :
    OutForms X (execLd64 stl d a disp s) := baseLoad_tables hs

theorem execLd128_tables {X : Nat → Places} {stl : BitVec 3} {d a : BitVec 7} {disp : BaseDisp} {s : State} (hs : s.Forms X) :
    OutForms X (execLd128 stl d a disp s) := baseLoad_tables hs

theorem execSt32_tables {X : Nat → Places} {stl : BitVec 3} {d a : BitVec 7} {disp : BaseDisp} {s : State} (hs : s.Forms X) :
    OutForms X (execSt32 stl d a disp s) := baseStore_tables hs

theorem execSt64_tables {X : Nat → Places} {stl : BitVec 3} {d a : BitVec 7} {disp : BaseDisp} {s : State} (hs : s.Forms X) :
    OutForms X (execSt64 stl d a disp s) := baseStore_tables hs

theorem execSt128_tables {X : Nat → Places} {stl : BitVec 3} {d a : BitVec 7} {disp : BaseDisp} {s : State} (hs : s.Forms X) :
    OutForms X (execSt128 stl d a disp s) := baseStore_tables hs

theorem execLd32Ro_tables {X : Nat → Places} {stl : BitVec 3} {d a : BitVec 7} {disp : BaseDisp} {s : State} (hs : s.Forms X) :
    OutForms X (execLd32Ro stl d a disp s) := baseLoad_tables hs

theorem execLd128Ro_tables {X : Nat → Places} {stl : BitVec 3} {d a : BitVec 7} {disp : BaseDisp} {s : State} (hs : s.Forms X) :
    OutForms X (execLd128Ro stl d a disp s) := baseLoad_tables hs

/-! ### Escorted loads and atomics -/

theorem State.Forms.escIssue {X : Nat → Places} {s : State} {act : List Nat} {e : EscSet} {rp : BitVec 3} {dreg dcnt : Nat}
    {addrs : List Dword} {line : Nat → Nat} {path : Nat → Hold} {bad early : List (Nat × Flt)} {late : Option Nat} (hs : s.Forms X) :
    (s.escIssue act e rp dreg dcnt addrs line path bad early late).2.Forms X := by
  unfold State.escIssue
  dsimp only
  split
  · exact hs.pushRp.escSend.escFaulted.escEarly
  dsimp only
  split
  · exact hs.pushRp.capPark
  · exact hs.pushRp.parkFailed

theorem execLde_tables {X : Nat → Places} {x : XHead} {hint : BitVec 2} {o : MOrd} {w : Wid} {d : BitVec 7} {a : Opd} {off : AddrOff}
    {rp : BitVec 3} {e : EscSet} {s : State} (hs : s.Forms X) : OutForms X (execLde x hint o w d a off rp e s) := by
  unfold execLde
  split
  · exact loadOp_tables hs
  refine .next ((hs.pullPorts.checkAll.escIssue.foldl ?_).retire)
  intro _ _ h
  split
  · exact h.startLoad
  dsimp only
  exact h.loadPend.startLoad

theorem State.Forms.startAtoms {X : Nat → Places} {s : State} {o : MOrd} {op : Aop} {ty : Ty}
    {ps : List (Nat × Space × Tgt × Dword × Dword)} (hs : s.Forms X) : (s.startAtoms o op ty ps).Forms X := by
  unfold State.startAtoms
  refine hs.foldl ?_
  intro _ _ h
  dsimp only
  exact h.fresh.start

theorem execAtom_tables {X : Nat → Places} {x : XHead} {_hint : BitVec 2} {o : MOrd} {op : Aop} {ty : Ty} {d : BitVec 7} {a : Opd}
    {b : OpdB} {c : Opd} {rp : BitVec 3} {e : EscSet} {s : State} (hs : s.Forms X) :
      OutForms X (execAtom x _hint o op ty d a b c rp e s) := by
  unfold execAtom
  dsimp only
  refine .next (State.Forms.retire (State.Forms.startAtoms (State.Forms.foldl_snd hs.pullPorts.checkAll.escIssue fun _ _ h => ?_)))
  split
  · exact h
  · exact h.loadPend

theorem execRed_tables {X : Nat → Places} {x : XHead} {_hint : BitVec 2} {o : MOrd} {op : Aop} {ty : Ty} {a : Opd} {b : OpdB} {s : State}
    (hs : s.Forms X) : OutForms X (execRed x _hint o op ty a b s) := .next hs.pullPorts.checkAll.parkFailed.startAtoms.retire

/-! ### Hop-engine walks -/

theorem execChs_tables {X : Nat → Places} {x : XHead} {_hint : BitVec 2} {d : BitVec 7} {a : Opd} {b : OpdB} {rp : BitVec 3} {e : EscSet}
    {s : State} (hs : s.Forms X) : OutForms X (execChs x _hint d a b rp e s) := by
  refine .next (State.Forms.retire (State.Forms.foldl hs.takePorts.escIssue fun u L h => ?_))
  split
  · exact h.fresh.congr rfl rfl rfl rfl rfl rfl
  · have h1 := State.Forms.foldl_snd (l := List.range e.cnt.toNat) (r := ([], (u.addPend fun id => s.mkPend L 0 d.toNat 2 2 id).2))
      (f := fun (acc : List Nat × State) k => (acc.1 ++ [(acc.2.addPend fun id => s.mkPend L 0 (e.base.toNat + k) 1 1 id).1],
        (acc.2.addPend fun id => s.mkPend L 0 (e.base.toNat + k) 1 1 id).2)) h.addPend fun _ _ h => h.addPend
    exact h1.fresh.congr rfl rfl rfl rfl rfl rfl

/-! ### Fences -/

theorem execFnc_tables {X : Nat → Places} {x : XHead} {_hint : BitVec 2} {sc : Scope} {gd : Opd} {s : State} (hs : s.Forms X) :
    OutForms X (execFnc x _hint sc gd s) := by
  unfold execFnc
  split
  · exact .next hs.retire
  dsimp only
  exact .next hs.pendTok.fresh.withFences.retire

theorem execWaitf_tables {X : Nat → Places} {x : XHead} {_hint : BitVec 2} {ga : Opd} {s : State} (hs : s.Forms X) :
    OutForms X (execWaitf x _hint ga s) := by
  unfold execWaitf
  refine .next ((hs.modCt ?_ ?_).retire)
  · exact fun _ ht => ht.foldl (fun _ _ ht => ht.modThreadAt (fun _ hth => hth.congr rfl rfl))
  · exact fun _ => foldl_id _ (fun _ _ => Team.modThreadAt_id _ _ _ _) _ _

/-! ### Asynchronous copy -/

theorem State.Forms.regionWalk {X : Nat → Places} {s : State} {base : Dword} {n kind : Nat} (hs : s.Forms X) :
    (s.regionWalk base n kind).2.2.Forms X := by
  unfold State.regionWalk
  refine State.Forms.foldl_snd_snd hs ?_
  intro _ _ h
  dsimp only
  split
  · exact h.access
  · exact h.access

theorem State.Forms.readMany {X : Nat → Places} {s : State} (hs : s.Forms X) : (s.readMany).Forms X := hs.serve

theorem State.Forms.addEngine {X : Nat → Places} {s : State} {hs : List (Nat × Nat)} {k : EngKind} {pend : Option Nat}
    {lines pins : List Nat} (hT : s.Forms X) : (s.addEngine hs k pend lines pins).2.Forms X := by
  unfold State.addEngine
  dsimp only
  exact hT.fresh.withEngines

theorem State.Forms.parkAll {X : Nat → Places} {s : State} {act : List Nat} {fs : List Flt} (hs : s.Forms X) : (s.parkAll act fs).Forms X :=
  hs.takeFault

theorem State.Forms.tokNow {X : Nat → Places} {s : State} {gd : Opd} (hs : s.Forms X) : (s.tokNow gd).Forms X := hs.addPend

theorem execAcp_tables {X : Nat → Places} {x : XHead} {_hint : BitVec 2} {gd a : Opd} {b : OpdB} {c : Opd} {s : State} (hs : s.Forms X) :
    OutForms X (execAcp x _hint gd a b c s) := by
  unfold execAcp
  dsimp only
  split
  · exact .next hs.retire
  split
  · exact .next hs.tokNow.retire
  split
  · exact .next hs.killCur
  split
  · exact .next hs.parkAll.retire
  split
  · exact .next hs.parkAll.retire
  split
  · exact .next hs.parkAll.retire
  split
  · exact .next hs.regionWalk.regionWalk.parkAll.retire
  · exact .next hs.regionWalk.regionWalk.pendTok.withPends.addEngine.retire

/-! ### Streams -/

theorem State.Forms.putStream {X : Nat → Places} {s : State} {k : Nat} {x : Stream} (hs : s.Forms X) : (s.putStream k x).Forms X := by
  unfold State.putStream
  dsimp only
  split
  · refine hs.fresh.modCt (fun t ht => ⟨ht.scratch, ht.t, ht.tiles, ht.cells, getElem?_map_of
      (P := fun n (x : Group) => x.Tabs (fun _ => _) _) ht.groups fun n g hg => ?_, ht.conj, ht.lead⟩) fun _ => rfl
    split
    · exact hg
    · exact Group_configure_tabs hg
  · exact hs.fresh.modCg fun _ hg => Group_configure_tabs hg

theorem execSraff_tables {X : Nat → Places} {x : XHead} {hint : BitVec 2} {k lsh : BitVec 4} {lon : Bool} {a : Opd} {b : OpdB} {c : Opd}
    {s : State} (hs : s.Forms X) : OutForms X (execSraff x hint k lsh lon a b c s) := by
  unfold execSraff
  dsimp only
  split
  · exact .next hs.takePorts.retire
  · exact .next hs.takePorts.putStream.retire

theorem execSrind_tables {X : Nat → Places} {x : XHead} {hint : BitVec 2} {k lsh : BitVec 4} {lon : Bool} {sc : BitVec 3} {a : Opd}
    {b : OpdB} {c : Opd} {s : State} (hs : s.Forms X) : OutForms X (execSrind x hint k lsh lon sc a b c s) := by
  unfold execSrind
  dsimp only
  split
  · exact .next hs.takePorts.retire
  · exact .next hs.takePorts.putStream.retire

theorem State.Forms.probeLane {X : Nat → Places} {s : State} {x : Stream} {L : Nat} (hs : s.Forms X) : (s.probeLane x L).2.2.Forms X := by
  unfold State.probeLane
  dsimp only
  refine State.Forms.foldl_snd_snd hs ?_
  intro _ _ h
  split
  · exact h.elemAddr
  · exact h.elemAddr.access

theorem execSrprb_tables {X : Nat → Places} {x : XHead} {_hint : BitVec 2} {k : BitVec 4} {rp : BitVec 3} {s : State} (hs : s.Forms X) :
    OutForms X (execSrprb x _hint k rp s) := by
  unfold execSrprb
  dsimp only
  split
  · exact .next hs.retire
  have h1 := fun (st : Stream) (l : List Nat) => State.Forms.foldl_snd_snd (l := l) (r := (([] : List Nat), ([] : List (Nat × Flt)), s))
    (f := fun acc L =>
      ((acc.2.2.probeLane st L).1.foldl insertNat acc.1, acc.2.1 ++ (acc.2.2.probeLane st L).2.1.map (fun f => (L, f)),
        (acc.2.2.probeLane st L).2.2)) hs
    fun _ _ h => h.probeLane
  split
  · exact .next (State.Forms.retire (State.Forms.pendPred (h1 _ _)))
  split
  · exact .next (State.Forms.retire (State.Forms.takeFault (h1 _ _)))
  · refine .next (State.Forms.retire (State.Forms.pendPred (State.Forms.modCg (h1 _ _) ?_)))
    exact fun _ hg => hg.setStream

theorem execSrstop_tables {X : Nat → Places} {x : XHead} {_hint : BitVec 2} {k : BitVec 4} {s : State} (hs : s.Forms X) :
    OutForms X (execSrstop x _hint k s) := by
  unfold execSrstop
  split
  · exact .next hs.retire
  · exact .next hs.putStream.retire

/-! ### Gather and scatter -/

theorem State.Forms.probeIndex {X : Nat → Places} {s : State} {p : Probe} {x : PLane} {j : Nat} (hs : s.Forms X) :
    (s.probeIndex p x j).2.Forms X := hs.access

theorem State.Forms.probeElem {X : Nat → Places} {s : State} {p : Probe} {x : PLane} {sc kind j : Nat} (hs : s.Forms X) :
    (s.probeElem p x sc kind j).2.Forms X := by
  unfold State.probeElem
  split
  · next he => exact (State.Forms.of_eq2 he hs.probeIndex)
  next he =>
    dsimp only
    exact ((State.Forms.of_eq2 he hs.probeIndex)).access

theorem State.Forms.probeLaneAll {X : Nat → Places} {s : State} {p : Probe} {x : PLane} {k sc kind : Nat} (hs : s.Forms X) :
    (s.probeLaneAll p x k sc kind).2.Forms X := State.Forms.foldl_snd hs (fun _ _ h => h.probeElem)

theorem State.Forms.addProbe {X : Nat → Places} {s : State} {i : Instr} {lanes : List PLane} {pends : List Nat} {req : Option Nat}
    (hs : s.Forms X) : (s.addProbe i lanes pends req).Forms X := by
  unfold State.addProbe
  dsimp only
  exact hs.fresh.withProbes

theorem execGath_tables {X : Nat → Places} {x : XHead} {hint : BitVec 2} {km1 : BitVec 4} {sc : BitVec 3} {d : BitVec 7} {a : Opd}
    {b : OpdB} {rp : BitVec 3} {e : EscSet} {s : State} (hs : s.Forms X) : OutForms X (execGath x hint km1 sc d a b rp e s) := by
  unfold execGath
  dsimp only
  split
  · exact .next hs.retire
  refine .next (State.Forms.retire (State.Forms.addProbe ?_))
  split
  · exact hs.escIssue
  · refine State.Forms.foldl_snd hs.escIssue fun _ _ h => ?_
    dsimp only
    exact h.addPend

theorem execScat_tables {X : Nat → Places} {x : XHead} {hint : BitVec 2} {km1 : BitVec 4} {sc : BitVec 3} {a : Opd} {b : OpdB}
    {c : BitVec 7} {s : State} (hs : s.Forms X) : OutForms X (execScat x hint km1 sc a b c s) := by
  unfold execScat
  dsimp only
  split
  · exact .next hs.retire
  · exact .next hs.addProbe.retire

theorem execScatAdd_tables {X : Nat → Places} {x : XHead} {hint : BitVec 2} {ty : Ty} {km1 : BitVec 4} {sc : BitVec 3} {a : Opd} {b : OpdB}
    {c : BitVec 7} {s : State} (hs : s.Forms X) : OutForms X (execScatAdd x hint ty km1 sc a b c s) := by
  unfold execScatAdd
  dsimp only
  split
  · exact .next hs.retire
  · exact .next hs.addProbe.retire

/-! ### Tiles and tile order -/

theorem State.Forms.tileOp {X : Nat → Places} {s : State} {md : Nat} {rows : Word} {due : Nat} (hs : s.Forms X) :
    (s.tileOp md rows due).Forms X := hs.addEngine.wmUpdate

theorem State.Forms.tileDone {X : Nat → Places} {s : State} {id at_ : Nat} (hs : s.Forms X) : (s.tileDone id at_).Forms X := by
  unfold State.tileDone
  split
  · split
    · exact hs.withEngines.wmUpdateAt
    · exact hs
  · exact hs

theorem State.Forms.tilesDue {X : Nat → Places} {s : State} {team : Nat} (hs : s.Forms X) : (s.tilesDue team).Forms X :=
  hs.foldl (fun _ _ h => h.tileDone)

theorem State.Forms.performedNow {X : Nat → Places} {s : State} (hs : s.Forms X) : (s.performedNow).Forms X := hs.readMany.settle

/-! ### The probe and the gather unit's reads (R268, R269) -/

theorem State.Forms.fmtAccess {X : Nat → Places} {s : State} {va : Dword} {kind want : Nat} (hs : s.Forms X) :
    (s.fmtAccess va kind want).2.Forms X := by
  unfold State.fmtAccess
  dsimp only
  split
  · exact hs.access
  split
  · split
    · exact hs.access
    · exact hs.access
  · exact hs.access

theorem State.Forms.probePages {X : Nat → Places} {s : State} {rs : List (Dword × Nat)} {kind want : Nat} (hs : s.Forms X) :
    (s.probePages rs kind want).2.2.Forms X := by
  unfold State.probePages
  refine State.Forms.foldl_snd_snd hs ?_
  intro _ _ h
  split
  · exact h
  dsimp only
  split
  · exact h.fmtAccess
  · exact h.fmtAccess

theorem State.Forms.probeFault {X : Nat → Places} {s : State} {x : XHead} {act : List Nat} {fs : List Flt} (hs : s.Forms X) :
    OutForms X (s.probeFault x act fs) := .next hs.parkAll.retire

/-! ### Tiles and registers (R275) -/

/-- A tile of the issuer's team is rewritten, and its cells stay a map in its form. -/
theorem State.Forms.modTile {X : Nat → Places} {s : State} (hs : s.Forms X) {n : Nat} {f : Team → Tile}
    (hf : ∀ {E : Places} (t : Team), t.Tabs E → tabRises (f t).c) :
    (s.modCt fun t => t.setTile n (f t)).Forms X := hs.modCt (fun _ ht => ht.setTile (hf _ ht)) fun _ => rfl

theorem execMzero_tables {X : Nat → Places} {x : XHead} {md : BitVec 6} {s : State} (hs : s.Forms X) : OutForms X (execMzero x md s) := by
  refine State.Forms.wholeGroup hs fun s hs => ?_
  split
  · exact .next hs.retire
  · exact .next (State.Forms.retire (State.Forms.tileOp (hs.modTile fun _ _ => .nil)))

theorem execMrd_tables {X : Nat → Places} {x : XHead} {d : Opd} {md : BitVec 6} {b : OpdB} {s : State} (hs : s.Forms X) :
    OutForms X (execMrd x d md b s) := hs.wholeGroup (fun s hs => .next ((hs.takePorts.foldl (fun _ _ h => h.addPend)).retire))

theorem execMwr_tables {X : Nat → Places} {x : XHead} {md : BitVec 6} {a : Opd} {b : OpdB} {s : State} (hs : s.Forms X) :
    OutForms X (execMwr x md a b s) := by
  refine State.Forms.wholeGroup hs fun s hs => ?_
  dsimp only
  split
  · exact .next hs.takePorts.retire
  · refine .next (State.Forms.retire (State.Forms.tileOp (hs.takePorts.modTile fun _ ht => ?_)))
    exact foldl_setCell_tabs (ht.tile _)

theorem execMwmk_tables {X : Nat → Places} {x : XHead} {d : Opd} {md : BitVec 6} {s : State} (hs : s.Forms X) :
    OutForms X (execMwmk x d md s) := hs.wholeGroup (fun s hs => .next hs.pushRes.retire)

/-! ### Operand latches (R270 to R272) -/

theorem execMldb_tables {X : Nat → Places} {x : XHead} {ty : Ty} {bl : Bool} {a : Opd} {stride : BitVec 24} {s : State} (hs : s.Forms X) :
    OutForms X (execMldb x ty bl a stride s) := by
  refine State.Forms.wholeGroup hs fun s hs => ?_
  dsimp only
  split
  · exact .next hs.retire
  split
  · exact .next hs.killCur
  split
  · exact hs.probeFault
  split
  · exact hs.probePages.probeFault
  · exact .next (State.Forms.retire (State.Forms.performedNow (hs.probePages.modCg fun _ hg => hg.congr rfl rfl rfl rfl rfl rfl)))

theorem execMgata_tables {X : Nat → Places} {x : XHead} {ty : Ty} {a : Opd} {b : OpdB} {stride : BitVec 24} {s : State} (hs : s.Forms X) :
    OutForms X (execMgata x ty a b stride s) := by
  refine State.Forms.wholeGroup hs fun s hs => ?_
  dsimp only
  split
  · exact .next hs.retire
  split
  · exact .next hs.killCur
  split
  · exact hs.probeFault
  have hr := State.Forms.foldl_snd_snd (l := s.active x) (r := ([], [], s))
    (f := fun (acc : List (Nat × Flt) × List (Dword × Acc) × State) L =>
    (acc.1 ++ (acc.2.2.probePages [(s.reg2 a 0 + zext32 (s.src1 b L) * w64 stride.toNat, 32)] kRead (fmtWant ty)).1.map (fun f => (L, f)),
      acc.2.1 ++ (acc.2.2.probePages [(s.reg2 a 0 + zext32 (s.src1 b L) * w64 stride.toNat, 32)] kRead (fmtWant ty)).2.1,
      (acc.2.2.probePages [(s.reg2 a 0 + zext32 (s.src1 b L) * w64 stride.toNat, 32)] kRead (fmtWant ty)).2.2)) hs fun _ _ h => h.probePages
  split
  · exact .next hr.takeFault.retire
  · refine .next (State.Forms.retire (State.Forms.performedNow (hr.modCg fun g hg => ⟨hg.g, hg.marks, hg.streams, ?_, hg.threads⟩)))
    exact foldl_keeps (fun t : Tab Latch => tabRises t) _ (fun _ _ h => tabRises_tabSet h) _ _ hg.al

/-! ### Quarter operations (R273, R281) -/

theorem execMmq_tables {X : Nat → Places} {x : XHead} {md : BitVec 6} {bl : Bool} {s : State} (hs : s.Forms X) :
    OutForms X (execMmq x md bl s) := by
  refine State.Forms.wholeGroup hs fun s hs => ?_
  dsimp only
  split
  · exact .next hs.retire
  · refine .next (State.Forms.retire (State.Forms.tileOp (hs.modTile fun _ ht => ?_)))
    exact foldl_keeps (fun x : Tile => tabRises x.c) _ (fun _ _ h => foldl_keeps (fun x : Tile => tabRises x.c) _
      (fun _ _ h => Tile.setCell_tabs h) _ _ h) _ _ (ht.tile _)

/-! ### Tile stores (R276, R277) -/

theorem execMst_tables {X : Nat → Places} {x : XHead} {ty : Ty} {m : MstMod} {gd a : Opd} {md : BitVec 6} {stride : BitVec 24} {s : State}
    (hs : s.Forms X) : OutForms X (execMst x ty m gd a md stride s) := by
  unfold execMst
  refine hs.wholeGroup ?_
  intro s hs
  dsimp only
  split
  · exact .next hs.retire
  split
  · exact .next hs.killCur
  split
  · exact hs.probeFault
  split
  · exact hs.probePages.probeFault
  refine .next (((hs.probePages.pendTok.addEngine.modCg ?_).ite hs.probePages.pendTok.addEngine).retire)
  exact fun _ hg => hg.congr rfl rfl rfl rfl rfl rfl

/-! ### The tile cutter (R279) -/

theorem State.Forms.gotBad {X : Nat → Places} {s : State} {x : XHead} {act : List Nat} {fs : Option (List Flt)} (hs : s.Forms X) :
    OutForms X (s.gotBad x act fs) := by
  unfold State.gotBad
  split
  · exact hs.probeFault
  · exact .next hs.killCur

theorem State.Forms.tcutResult {X : Nat → Places} {s : State} {gd : Opd} {ws : List Nat} (hs : s.Forms X) : (s.tcutResult gd ws).Forms X :=
  hs.addPend

/-- What reading on the way can leave. -/
def Got.Forms {α : Type} (X : Nat → Places) : Got α → Prop
  | .ok _ s => s.Forms X
  | .kill s => s.Forms X
  | .flt _ s => s.Forms X

/-! ### The sparse header (R278) -/

theorem Got_then_tables {X : Nat → Places} {α β : Type} {g : Got α} {f : α → State → Got β} (h : g.Forms X)
    (hf : ∀ a (s : State), s.Forms X → (f a s).Forms X) :
    (Got_then g f).Forms X := by
  cases g with
  | ok a s => exact hf a s h
  | kill s => exact h
  | flt fs s => exact h

theorem State.Forms.sparseHdr {X : Nat → Places} {s : State} (hs : s.Forms X) {va : Dword} : (s.sparseHdr va).Forms X := by
  unfold State.sparseHdr
  dsimp only
  split
  · exact hs
  split
  · exact hs
  split <;> exact hs

theorem State.Forms.gatherAll {X : Nat → Places} {s : State} (hs : s.Forms X) {gs : List SrcRegs} : (s.gatherAll gs).Forms X := by
  unfold State.gatherAll
  split
  · exact hs
  split
  · exact hs
  · have hp := State.Forms.foldl_snd_snd (l := gs) (r := ([], [], s)) (f := fun (acc : List Flt × List (List (Dword × Acc)) × State) g =>
      (acc.1 ++ (acc.2.2.probePages g.rs kRead g.want).1, acc.2.1 ++ [(acc.2.2.probePages g.rs kRead g.want).2.1],
        (acc.2.2.probePages g.rs kRead g.want).2.2)) hs fun _ _ h => h.probePages
    dsimp only
    split <;> exact hp

theorem State.Forms.gatherPages {X : Nat → Places} {s : State} (hs : s.Forms X) {base : Dword} {al : Nat} {rs : List (Dword × Nat)}
    {want : Nat} :
    (s.gatherPages base al rs want).Forms X := Got_then_tables hs.gatherAll fun _ _ h => h

theorem State.Forms.bandEntries {X : Nat → Places} {s : State} (hs : s.Forms X) {h : SparseHdr} {row : Nat} :
    (s.bandEntries h row).Forms X := by
  unfold State.bandEntries
  dsimp only
  split
  · exact hs
  · exact Got_then_tables hs.gatherPages fun _ _ h1 => Got_then_tables h1.gatherPages fun _ _ h2 => h2

/-! ### The tile cutter (R279) -/

theorem State.Forms.mmsRead {X : Nat → Places} {s : State} (hs : s.Forms X) {va : Dword} {row klo khi cb : Nat} {qs : List Nat} :
    (s.mmsRead va row klo khi cb qs).Forms X := by
  refine Got_then_tables hs.sparseHdr fun _ _ h1 => Got_then_tables h1.bandEntries fun _ _ h2 => ?_
  dsimp only
  split
  · exact h2
  · exact Got_then_tables h2.gatherAll fun _ _ h3 => h3

theorem execTcut_tables {X : Nat → Places} {x : XHead} {gd a : Opd} {bud : BitVec 9} {sc : BitVec 2} {s : State} (hs : s.Forms X) :
    OutForms X (execTcut x gd a bud sc s) := by
  refine State.Forms.wholeGroup hs fun s hs => ?_
  dsimp only
  split
  · exact .next hs.retire
  have h0 := hs.sparseHdr (va := s.reg2 a 0)
  generalize s.sparseHdr (s.reg2 a 0) = g at h0
  cases g with
  | kill s1 => exact State.Forms.gotBad h0
  | flt fs s1 => exact State.Forms.gotBad h0
  | ok h s1 =>
    dsimp only
    generalize (if ((s.regAt gd 3 0).toNat).testBit 31 then (s.regAt gd 0 0).toNat + 8 else (s.regAt gd 0 0).toNat) = row
    split
    · exact .next (State.Forms.retire (State.Forms.tcutResult (State.Forms.performedNow h0)))
    have h1 := State.Forms.bandEntries (s := s1) h0 (h := h) (row := row)
    generalize s1.bandEntries h row = g at h1
    cases g with
    | kill s2 => exact State.Forms.gotBad h1
    | flt fs s2 => exact State.Forms.gotBad h1
    | ok es s2 =>
      dsimp only
      split
      · exact .next (State.Forms.killCur h1)
      · exact .next (State.Forms.retire (State.Forms.tcutResult (State.Forms.performedNow h1)))

theorem execMms_tables {X : Nat → Places} {x : XHead} {md : BitVec 6} {a gs c : Opd} {s : State} (hs : s.Forms X) :
    OutForms X (execMms x md a gs c s) := by
  refine State.Forms.wholeGroup hs fun s hs => ?_
  dsimp only
  split
  · exact .next hs.retire
  have h0 := hs.mmsRead (va := s.reg2 a 0) (row := (s.regAt gs 0 0).toNat) (klo := (s.regAt gs 1 0).toNat) (khi := (s.regAt gs 2 0).toNat)
    (cb := (s.reg1 c 0).toNat) (qs := s.quarters (s.active x))
  generalize s.mmsRead (s.reg2 a 0) (s.regAt gs 0 0).toNat (s.regAt gs 1 0).toNat (s.regAt gs 2 0).toNat (s.reg1 c 0).toNat
    (s.quarters (s.active x)) = g at h0
  cases g with
  | kill s1 => exact State.Forms.gotBad h0
  | flt fs s1 => exact State.Forms.gotBad h0
  | ok r s1 =>
    refine .next (State.Forms.retire (State.Forms.tileOp (State.Forms.performedNow (State.Forms.modTile h0 fun _ ht => ?_))))
    exact foldl_keeps (fun x : Tile => tabRises x.c) _ (fun _ _ h => foldl_keeps (fun x : Tile => tabRises x.c) _
      (fun _ _ h => Tile.setCell_tabs h) _ _ h) _ _ (ht.tile _)

/-! ### The Inflector (R290, R291) -/

theorem State.Forms.cacheWeights {X : Nat → Places} {s : State} {pages : List (Dword × Acc)} {base : Dword} {n : Nat} (hs : s.Forms X) :
    (s.cacheWeights pages base n).Forms X := by
  unfold State.cacheWeights
  refine hs.foldl ?_
  intro _ _ h
  split
  · dsimp only
    split
    · exact h
    · exact h.foldl (fun _ _ h1 => h1.fillWc)
  · exact h

theorem State.Forms.startWeights {X : Nat → Places} {s : State} {sl : InflSlot} (hs : s.Forms X) : (s.startWeights sl).Forms X :=
  hs.foldl fun u _ h => State.Forms.cacheWeights (State.Forms.foldl_snd h fun r va h => by
    have h1 := h.access (core := u.cur.core) (team := u.cur.team) (g := 0) (l := 0) (va := va) (n := 32) (al := 32) (kind := kRead)
      (elem := false)
    dsimp only
    split <;> exact h1)

theorem execInfl_tables {X : Nat → Places} {x : XHead} {n : BitVec 2} {a : Opd} {s : State} (hs : s.Forms X) :
    OutForms X (execInfl x n a s) := by
  refine State.Forms.wholeGroup hs fun s hs => ?_
  dsimp only
  split
  · exact .next hs.retire
  split
  · exact .next hs.killCur
  split
  · exact .next hs.access.takeFault.retire
  split
  · exact .next hs.access.killCur
  · refine .next (State.Forms.retire (State.Forms.startWeights (State.Forms.performedNow (hs.access.modCt ?_ ?_))))
    · exact fun _ ht => ht.congr rfl rfl rfl rfl rfl rfl
    · exact fun _ => rfl

/-! ### The probe of attention (R295) -/

theorem State.Forms.seqPageFlt {X : Nat → Places} {s : State} {va : Dword} {kind : Nat} {ct : Ty} {dl : Nat} (hs : s.Forms X) :
    (s.seqPageFlt va kind ct dl).2.Forms X := by
  unfold State.seqPageFlt
  dsimp only
  split
  · exact hs.fmtAccess
  split
  · split
    · exact hs.fmtAccess
    · exact hs.fmtAccess
  · exact hs.fmtAccess

theorem State.Forms.seqProbe {X : Nat → Places} {s : State} {base : Dword} {n kind : Nat} {ct : Ty} {dl : Nat} (hs : s.Forms X) :
    (s.seqProbe base n kind ct dl).2.2.Forms X := by
  unfold State.seqProbe
  refine State.Forms.foldl_snd_snd hs ?_
  intro _ _ h
  dsimp only
  split
  · exact h.seqPageFlt
  · exact h.seqPageFlt

theorem State.Forms.attnProbe {X : Nat → Places} {s : State} {sl : InflSlot} {d : AttnDesc} (hs : s.Forms X) :
    (s.attnProbe sl d).2.2.2.Forms X := by
  unfold State.attnProbe
  dsimp only
  split
  · exact hs.probePages
  · exact hs.probePages.seqProbe

/-! ### Attention arithmetic (R296) -/

theorem execAttn_tables {X : Nat → Places} {x : XHead} {absorb : Bool} {gd a : Opd} {md : BitVec 6} {n : BitVec 2} {s : State}
    (hs : s.Forms X) : OutForms X (execAttn x absorb gd a md n s) := by
  refine State.Forms.wholeGroup hs fun s hs => ?_
  dsimp only
  split
  · exact .next hs.retire
  split
  · exact .next hs.killCur
  split
  · exact .next hs.killCur
  split
  · exact .next hs.killCur
  split
  · exact hs.attnProbe.probeFault
  · refine .next (State.Forms.retire (State.Forms.wmUpdate (State.Forms.addEngine (State.Forms.modCt ?_ ?_ ?_))))
    · exact hs.attnProbe.cacheWeights.cacheWeights.pendTok
    · exact fun _ ht => attnTiles_tabs ht
    · exact fun _ => attnTiles_id _ _ _ _ _

/-! ### Appending and trimming (R298 to R301) -/

theorem State.Forms.recAccess {X : Nat → Places} {s : State} {va : Dword} (hs : s.Forms X) : (s.recAccess va).2.Forms X := by
  unfold State.recAccess
  dsimp only
  split
  · exact hs.access
  · exact hs.access.access

theorem State.Forms.checkList {X : Nat → Places} {s : State} {L : Nat} {vas : List Dword} {n al kind : Nat} (hs : s.Forms X) :
    (s.checkList L vas n al kind).2.Forms X := by
  unfold State.checkList
  dsimp only
  refine State.Forms.foldl_snd hs ?_
  intro _ _ h
  split
  · exact h.access
  · exact h.access

/-- Faults told of an access: the state is what the access left. -/
theorem State.Forms.seqTold {X : Nat → Places} {α : Type} {r : Except Flt Acc × State} {a : α} {f : Flt → α} (h : r.2.Forms X) :
    (match r.1 with
      | .ok _ => (a, r.2)
      | .error e => (f e, r.2)).2.Forms X := by
  split
  · exact h
  · exact h

theorem State.Forms.appendCheck {X : Nat → Places} {s : State} {q : KvLane} {len : Nat} (hs : s.Forms X) :
    (s.appendCheck q len).2.Forms X := by
  have hsrc {p r : Prop} [Decidable p] [Decidable r] {a b : List (Nat × Flt)} {L : Nat} {vas : List Dword} {n al kind : Nat} :
      (if p then (a, s) else if r then (b, s) else s.checkList L vas n al kind).2.Forms X := .ite_snd hs (.ite_snd hs hs.checkList)
  unfold State.appendCheck
  refine .ite_snd (.snd_mk (State.Forms.checkList hsrc)) (State.Forms.seqTold ?_)
  exact State.Forms.seqPageFlt (State.Forms.checkList hsrc)

theorem State.Forms.trimCheck {X : Nat → Places} {s : State} {q : KvLane} {len : Nat} (hs : s.Forms X) : (s.trimCheck q len).2.Forms X := by
  unfold State.trimCheck
  exact .snd_mk hs.checkList.checkList

theorem State.Forms.engWrite {X : Nat → Places} {s : State} {a : Nat} {sp : Space} {op : FOp} {n : Nat} (hs : s.Forms X) :
    (s.engWrite a sp op n).2.Forms X := by
  unfold State.engWrite
  split
  · dsimp only
    exact hs.fresh.arriveAt.serve
  · exact hs.putSpace.performedNow

theorem State.Forms.writeEntry {X : Nat → Places} {s : State} {r : SeqRec} {j v : Nat} (hs : s.Forms X) :
    (s.writeEntry r j v).2.Forms X := by
  unfold State.writeEntry
  split
  · next he => exact ((State.Forms.of_eq2 he hs.access)).engWrite
  · next he => exact (State.Forms.of_eq2 he hs.access)

theorem appendLane_tables {X : Nat → Places} {rm : Rm} {sat : Bool} {st : KvRun × State} {q : KvLane} (hs : st.2.Forms X) :
    (appendLane rm sat st q).2.Forms X := by
  unfold appendLane
  refine .ite_snd (.snd_mk hs) (.ite_snd (.snd_mk (hs.ite hs.reclaim)) (.snd_mk (State.Forms.engWrite ?_)))
  refine State.Forms.foldl_snd (.snd_mk (State.Forms.foldl_snd_snd (.snd_snd_mk hs) ?_)) ?_
  · exact fun _ _ h => .snd_snd_mk h.popFrame.writeEntry
  · exact fun _ _ h => .snd_mk h.engWrite

theorem State.Forms.tokAt {X : Nat → Places} {s : State} {gd : Opd} {any : Bool} {t : Nat} (hs : s.Forms X) : (s.tokAt gd any t).Forms X :=
  hs.addPend.ite hs.addPend.withFree

theorem State.Forms.kvFault {X : Nat → Places} {s : State} {x : XHead} {act : List Nat} {fs : List (Nat × Flt)} (hs : s.Forms X) :
    OutForms X (s.kvFault x act fs) := .next hs.takeFault.retire

theorem State.Forms.ownUntil {X : Nat → Places} {s : State} {k : EngKind} {pend : Option Nat} {lines : List Nat} {t : Nat} (hs : s.Forms X)
    : (s.ownUntil k pend lines t).Forms X := hs.addEngine.withEngines

/-- What the probe of `KVAPP` and `KVTRIM` can leave. -/
def KvProbed (X : Nat → Places) (r : Got (List KvLane) ⊕ (List (Nat × Flt) × State)) : Prop :=
  match r with
  | .inl g => g.Forms X
  | .inr p => p.2.Forms X

theorem State.Forms.kvProbe {X : Nat → Places} {s : State} (hs : s.Forms X) {trim : Bool} {lanes : List KvLane} :
    KvProbed X (s.kvProbe trim lanes) := by
  unfold State.kvProbe
  split
  · exact hs
  generalize hp : List.foldl _ _ lanes = p
  have h1 : p.2.2.Forms X := by
    rw [← hp]
    refine State.Forms.foldl_snd_snd (.snd_snd_mk hs) fun r q h => ?_
    have h2 := h.recAccess (va := q.va)
    generalize r.2.2.recAccess q.va = r' at h2
    dsimp only
    split
    · exact h2
    · exact h2
    · exact h2
  clear hp
  dsimp only
  split
  · exact h1
  split
  · exact h1
  generalize hc : List.foldl _ _ (List.filterMap _ _) = c
  have h2 : c.2.2.Forms X := by
    rw [← hc]
    refine State.Forms.foldl_snd_snd (.snd_snd_mk h1) fun r q h => ?_
    exact .ite_snd_snd (.ite_snd_snd h (.snd_snd_mk h.trimCheck)) (.ite_snd_snd h (.ite_snd_snd h (.snd_snd_mk h.appendCheck)))
  clear hc
  split
  · exact h2
  · exact h2

theorem State.Forms.ownUntilIf {X : Nat → Places} {s : State} (hs : s.Forms X) {b : Bool} {k : EngKind} {pend : Option Nat}
    {lines : List Nat} {t : Nat} :
    (if b then s.ownUntil k pend lines t else s).Forms X := hs.ownUntil.ite hs

theorem execKvapp_tables {X : Nat → Places} {x : XHead} {rm : Rm} {sat : Bool} {gd : Opd} {p : BitVec 3} {a : Opd} {b : OpdB} {c : Opd}
    {s : State} (hs : s.Forms X) : OutForms X (execKvapp x rm sat gd p a b c s) := by
  unfold execKvapp
  dsimp only
  split
  · exact .next hs.retire
  have h0 := hs.kvProbe (trim := false) (lanes := s.kvLanes (s.active x) a (some b) c)
  generalize s.kvProbe false (s.kvLanes (s.active x) a (some b) c) = r at h0
  match r, h0 with
  | .inr (fs, s1), h0 => exact State.Forms.kvFault h0
  | .inl (.kill s1), h0 => exact .next (State.Forms.killCur h0)
  | .inl (.flt fs s1), h0 => exact State.Forms.probeFault h0
  | .inl (.ok qs s1), h0 =>
    have h1 := State.Forms.foldl_snd (l := qs) (r := ({}, s1.readMany)) (f := appendLane rm sat) (State.Forms.readMany h0)
      fun _ _ h => appendLane_tables h
    exact .next h1.pendPred.tokAt.ownUntilIf.retire

theorem trimLane_tables {X : Nat → Places} {st : KvRun × State} {q : KvLane} (hs : st.2.Forms X) : (trimLane st q).2.Forms X := by
  unfold trimLane
  refine .ite_snd (.snd_mk hs) (.snd_mk (State.Forms.engWrite (State.Forms.foldl_snd_snd (.snd_snd_mk hs) fun _ _ h => ?_)))
  refine .snd_snd_mk (State.Forms.writeEntry (State.Forms.ite (h.modWorld fun w hw => ?_) h))
  exact tabRises_tabSet (t := w.free) hw

theorem execKvtrim_tables {X : Nat → Places} {x : XHead} {gd : Opd} {p : BitVec 3} {a c : Opd} {s : State} (hs : s.Forms X) :
    OutForms X (execKvtrim x gd p a c s) := by
  unfold execKvtrim
  dsimp only
  split
  · exact .next hs.retire
  have h0 := hs.kvProbe (trim := true) (lanes := s.kvLanes (s.active x) a none c)
  generalize s.kvProbe true (s.kvLanes (s.active x) a none c) = r at h0
  match r, h0 with
  | .inr (fs, s1), h0 => exact State.Forms.kvFault h0
  | .inl (.kill s1), h0 => exact .next (State.Forms.killCur h0)
  | .inl (.flt fs s1), h0 => exact State.Forms.probeFault h0
  | .inl (.ok qs s1), h0 =>
    have h1 := State.Forms.foldl_snd (l := qs) (r := ({}, s1.readMany)) (f := trimLane) (State.Forms.readMany h0) fun _ _ h =>
      trimLane_tables h
    dsimp only
    split
    · exact .next h1.pendPred.tokAt.ownUntilIf.retire
    · apply OutForms.next
      apply State.Forms.retire
      apply State.Forms.ownUntil
      apply State.Forms.pendTok
      exact h1.pendPred.fresh.congr rfl rfl rfl rfl rfl rfl

theorem execKvqry_tables {X : Nat → Places} {x : XHead} {d a : Opd} {sl : BitVec 3} {s : State} (hs : s.Forms X) :
    OutForms X (execKvqry x d a sl s) := by
  refine .next (State.Forms.retire (State.Forms.foldl (State.Forms.foldl hs.checkAll.parkFailed fun _ _ h => ?_) fun _ _ h => ?_))
  · split
    · exact h.addPend.fresh.start
    · exact h
  · split
    · exact h.addPend
    · exact h

end Sys2Proof.Machine
end

section
namespace Sys2Proof.Machine

/-! ### The check at the egress port (R209) -/

theorem State.Forms.sendRemote {X : Nat → Places} {s : State} {key : Nat} {L : Nat} {cap : BitVec 3} {off : Dword} {n : Nat} {o : MOrd}
    {op : FOp} {esc : Option (Nat × Nat)} (hs : s.Forms X) : (s.sendRemote key L cap off n o op esc).Forms X := by
  unfold State.sendRemote
  dsimp only
  refine State.Forms.congr (State.Forms.ite (hs.fresh.modCg ?_) hs.fresh) rfl rfl rfl rfl rfl rfl
  exact fun _ hg => hg.congr rfl rfl rfl rfl rfl rfl

theorem State.Forms.notAtH {X : Nat → Places} {s : State} {f : State → Out} (hs : s.Forms X)
    (h_f : ∀ s : State, s.Forms X → OutForms X (f s)) : OutForms X (s.notAtH f) := by
  unfold State.notAtH
  split
  · exact .next hs.killCur
  · exact h_f _ hs

theorem execLdC_tables {X : Nat → Places} {x : XHead} {_hint : BitVec 2} {o : MOrd} {w : Wid} {sx : Bool} {cap : BitVec 3} {d a : Opd}
    {disp : Option Dword} {s : State} (hs : s.Forms X) : OutForms X (execLdC x _hint o w sx cap d a disp s) := by
  unfold execLdC
  refine hs.notAtH ?_
  intro s hs
  refine .next ((hs.capPark.foldl ?_).retire)
  intro _ _ h
  split
  · dsimp only
    exact h.loadPend.sendRemote
  · exact h.sendRemote

theorem execStC_tables {X : Nat → Places} {x : XHead} {_hint : BitVec 2} {o : MOrd} {w : Wid} {cap : BitVec 3} {a : Opd}
    {disp : Option Dword} {c : Opd} {s : State} (hs : s.Forms X) : OutForms X (execStC x _hint o w cap a disp c s) :=
  hs.notAtH (fun s hs => .next ((hs.pullPorts.capPark.foldl (fun _ _ h => h.sendRemote)).retire))

theorem execAtomC_tables {X : Nat → Places} {x : XHead} {_hint : BitVec 2} {o : MOrd} {op : Aop} {ty : Ty} {cap : BitVec 3} {d : BitVec 7}
    {a : Opd} {b : OpdB} {c : Opd} {rp : BitVec 3} {e : EscSet} {s : State} (hs : s.Forms X) :
    OutForms X (execAtomC x _hint o op ty cap d a b c rp e s) := by
  unfold execAtomC
  refine hs.notAtH ?_
  intro s hs
  refine .next ((hs.pullPorts.escIssue.foldl ?_).retire)
  intro _ _ h
  dsimp only
  split
  · exact h.sendRemote
  · exact h.loadPend.sendRemote

theorem execRedC_tables {X : Nat → Places} {x : XHead} {_hint : BitVec 2} {o : MOrd} {op : Aop} {ty : Ty} {cap : BitVec 3} {a : Opd}
    {b : OpdB} {s : State} (hs : s.Forms X) : OutForms X (execRedC x _hint o op ty cap a b s) :=
  hs.notAtH (fun s hs => .next ((hs.pullPorts.capPark.foldl (fun _ _ h => h.sendRemote)).retire))

/-! ### Capability records (R211) -/

theorem execCapld_tables {X : Nat → Places} {x : XHead} {cd : BitVec 3} {a : Opd} {disp : Option Dword} {s : State} (hs : s.Forms X) :
    OutForms X (execCapld x cd a disp s) := by
  unfold execCapld
  refine .next ((hs.checkAll.parkFailed.foldl ?_).retire)
  intro _ _ h
  dsimp only
  exact h.addPend.fresh.start

theorem State.Forms.store32 {X : Nat → Places} {s : State} {x : XHead} {va : Nat → Dword} {bytes : Nat → List Byte} (hs : s.Forms X) :
    OutForms X (s.store32 x va bytes) := by
  unfold State.store32
  refine .next ((hs.checkAll.parkFailed.foldl ?_).retire)
  intro _ _ h
  dsimp only
  exact h.fresh.start

theorem execCapst_tables {X : Nat → Places} {x : XHead} {a : Opd} {disp : Option Dword} {cs : BitVec 3} {s : State} (hs : s.Forms X) :
    OutForms X (execCapst x a disp cs s) := hs.store32

/-! ### Capability registers -/

theorem State.Forms.pendCap {X : Nat → Places} {s : State} {act : List Nat} {cd : BitVec 3} {f : Nat → Capa} (hs : s.Forms X) :
    (s.pendCap act cd f).Forms X := hs.foldl (fun _ _ h => h.addPend)

theorem execCapnar_tables {X : Nat → Places} {x : XHead} {cd ca : BitVec 3} {b : OpdB} {c : Opd} {mask : BitVec 4} {s : State}
    (hs : s.Forms X) : OutForms X (execCapnar x cd ca b c mask s) := .next hs.pendCap.retire

theorem execCaprst_tables {X : Nat → Places} {x : XHead} {cd : BitVec 3} {s : State} (hs : s.Forms X) : OutForms X (execCaprst x cd s) :=
  .next hs.pendCap.retire

theorem execCapchk_tables {X : Nat → Places} {x : XHead} {p ca : BitVec 3} {b : OpdB} {c : Opd} {mask : BitVec 4} {s : State}
    (hs : s.Forms X) : OutForms X (execCapchk x p ca b c mask s) := .next hs.pendPred.retire

theorem State.Forms.atS {X : Nat → Places} {s : State} {f : State → Out} (hs : s.Forms X) (h_f : ∀ s : State, s.Forms X → OutForms X (f s))
    : OutForms X (s.atS f) := by
  unfold State.atS
  split
  · exact h_f _ hs
  · exact .next hs.killCur

theorem execCapmk_tables {X : Nat → Places} {x : XHead} {cd : BitVec 3} {b : Opd} {s : State} (hs : s.Forms X) :
    OutForms X (execCapmk x cd b s) := hs.atS (fun s hs => .next hs.pendCap.retire)

theorem execCapmkRec_tables {X : Nat → Places} {x : XHead} {a b : Opd} {w : BitVec 7} {s : State} (hs : s.Forms X) :
    OutForms X (execCapmkRec x a b w s) := hs.atS (fun s hs => hs.store32)

/-! ### Registers of a world -/

theorem State.Forms.startInval {X : Nat → Places} {s : State} {w : Nat} {v : Dword} {by_ : Option (Nat × Actor)} (hs : s.Forms X) :
    (s.startInval w v by_).Forms X := by
  unfold State.startInval
  dsimp only
  split
  · refine hs.fresh.withInvals.dropSpan.modTeam ?_ fun _ => Team.modActor_id _ _ _
    exact fun _ ht => ht.modActor fun _ hg => hg.congr rfl rfl rfl rfl rfl rfl
  · exact hs.fresh.withInvals.dropSpan.modWorldRest fun _ => rfl

theorem State.Forms.fqres {X : Nat → Places} {s : State} {w : Nat} {v : Dword} (hs : s.Forms X) : (s.fqres w v).Forms X := by
  unfold State.fqres
  split
  · exact hs
  split
  · exact hs.resume
  · exact hs.resume
  · exact hs.resume
  · exact hs

theorem State.Forms.ctlWrite {X : Nat → Places} {s : State} {w n : Nat} {v : Dword} {by_ : Option (Nat × Actor)} (hs : s.Forms X) :
    (s.ctlWrite w n v by_).Forms X := by
  unfold State.ctlWrite
  split
  · refine hs.modWorld ?_
    exact fun _ hw => hw.congr rfl
  · refine hs.modWorld ?_
    exact fun _ hw => hw.congr rfl
  · refine hs.modWorld ?_
    exact fun _ hw => hw.congr rfl
  · refine hs.modWorld ?_
    exact fun _ hw => World_fqSetup_tabs hw
  · refine hs.modWorld ?_
    exact fun _ hw => World_fqSetup_tabs hw
  · refine hs.modWorld ?_
    exact fun _ hw => World_fqHead_tabs hw
  · exact hs.fqres
  · exact hs.startInval
  · refine hs.modWorld ?_
    exact fun _ hw => World_memctl_tabs hw
  · exact hs

/-! ### Registers of cores and dies -/

theorem State.Forms.hwWrite {X : Nat → Places} {s : State} {core n : Nat} {v : Dword} (hs : s.Forms X) : (s.hwWrite core n v).Forms X := by
  unfold State.hwWrite
  split
  · exact hs.modCore
  · exact hs.modDie
  · exact hs.modDie
  · exact hs

/-! ### Access by level (R233) -/

theorem execCsrr_tables {X : Nat → Places} {x : XHead} {d : BitVec 7} {n : BitVec 12} {s : State} (hs : s.Forms X) :
    OutForms X (execCsrr x d n s) := by
  unfold execCsrr
  split
  · exact .next hs.killCur
  split
  · exact .next hs
  · exact .next hs.pendRes.retire

theorem execCsrw_tables {X : Nat → Places} {x : XHead} {n : BitVec 12} {a : Opd} {s : State} (hs : s.Forms X) :
    OutForms X (execCsrw x n a s) := by
  unfold execCsrw
  split
  · exact .next hs.killCur
  split
  · exact .next hs.retire
  · exact .next hs.retire.ctlWrite.hwWrite

theorem execEret_tables {X : Nat → Places} {x : XHead} {act : Action} {s : State} (hs : s.Forms X) : OutForms X (execEret x act s) := by
  unfold execEret
  split
  · exact .next hs.killCur
  · exact .next hs.eretActor.retire

/-! ### REGROUP (R257) -/

theorem execRegroup_tables {X : Nat → Places} {x : XHead} {slot : BitVec 4} {w : BitVec 10} {s : State} (hs : s.Forms X) :
    OutForms X (execRegroup x slot w s) := by
  refine State.Forms.wholeGroup hs fun s hs => ?_
  dsimp only
  cases he : s.rcvSetOp (s.active x) slot.toNat with
  | none => exact .next hs.killCur
  | some s1 =>
    refine .next (State.Forms.modCt (State.Forms.retire (hs.rcvSetOp he)) (fun t ht => ?_) fun t => ?_)
    · have h1 := Team.Tabs.foldl (l := s.homesOf (s.active x))
        (f := fun t h => t.modThread h.1 h.2 fun th => { th with st := .submitted }) ht
        fun _ _ h => h.modThread fun _ hth => hth.congr rfl rfl
      exact h1.congr rfl rfl rfl rfl rfl rfl
    · exact foldl_id (fun t (h : Nat × Nat) => t.modThread h.1 h.2 fun th => { th with st := .submitted })
        (fun _ _ => Team.modThread_id _ _ _ _) _ t

/-! ### Events (R244) -/

theorem State.Forms.signalEvent {X : Nat → Places} {s : State} {w e a : Nat} (hs : s.Forms X) : (s.signalEvent w e a).Forms X := by
  unfold State.signalEvent
  dsimp only
  exact hs.fresh.arriveAt

theorem execEvsig_tables {X : Nat → Places} {x : XHead} {b : OpdB} {s : State} (hs : s.Forms X) : OutForms X (execEvsig x b s) := by
  unfold execEvsig
  split
  · exact .next hs.retire
  dsimp only
  split
  · exact .next hs.killCur
  · exact .next hs.fresh.start.retire

theorem State.Forms.evRead {X : Nat → Places} {s : State} {t : Team} {e : Nat} (hs : s.Forms X) : (s.evRead t e).Forms X := hs.serve

theorem execEvwait_tables {X : Nat → Places} {x : XHead} {a : Opd} {b : OpdB} {s : State} (hs : s.Forms X) :
    OutForms X (execEvwait x a b s) := by
  unfold execEvwait
  dsimp only
  split
  · exact .next hs.retire
  split
  · exact .next hs.killCur
  split
  · refine .next ((hs.evRead.modCg ?_).retire)
    exact fun _ hg => Group_acquireNow_tabs hg
  refine .next ((hs.modCt ?_ ?_).retire)
  · exact fun _ ht => ht.foldl (fun _ _ ht => ht.modThreadAt (fun _ hth => hth.congr rfl rfl))
  · exact fun _ => foldl_id _ (fun _ _ => Team.modThreadAt_id _ _ _ _) _ _

/-! ### LAUNCH (R254) -/

theorem State.Forms.parkShared {X : Nat → Places} {s : State} {act : List Nat} {f : Flt} (hs : s.Forms X) : (s.parkShared act f).Forms X :=
  hs.takeFault

theorem execLaunch_tables {X : Nat → Places} {x : XHead} {gd a : Opd} {qn : BitVec 10} {s : State} (hs : s.Forms X) :
    OutForms X (execLaunch x gd a qn s) := by
  unfold execLaunch
  dsimp only
  split
  · exact .next hs.retire
  split
  · exact .next hs.queueServe.access.parkShared.retire
  split
  · exact .next hs.queueServe.access.killCur
  split
  · exact .next hs.queueServe.access.performedNow.addPend.retire
  split
  · exact .next hs.queueServe.access.globAcc.parkShared.retire
  · exact .next hs.queueServe.access.globAcc.performedNow.fresh.modQueue.start.addPend.retire

end Sys2Proof.Machine
end

section
namespace Sys2Proof.Machine

/-! ### Fetch -/

theorem State.Forms.fetchTrace {X : Nat → Places} {s : State} {t : Team} {pc : Dword} {n : Nat} (hs : s.Forms X) :
    (s.fetchTrace t pc n).Forms X := by
  induction n generalizing s pc with
  | zero => exact hs
  | succ n ih =>
    unfold State.fetchTrace
    refine ih ?_
    split
    · exact hs.globAcc.fillBy
    · exact hs.globAcc

/-! ### One cycle of a core -/

theorem State.Forms.issueActor {X : Nat → Places} {s : State} {core : Nat} {t : Team} {a : Actor} {cut : Nat} (hs : s.Forms X) :
    (s.issueActor core t a cut).Forms X := by
  unfold State.issueActor
  dsimp only
  have h0 : ∀ {f : Group → Group}, (∀ {R T : Nat → Prop} (g : Group), g.Tabs R T → (f g).Tabs R T) →
      (s.modTeam t.id fun tm => tm.modActor a f).Forms X :=
    fun hf => hs.modTeam (fun _ ht => ht.modActor hf) fun _ => Team.modActor_id _ _ _
  split
  · refine State.Forms.killActor (h0 ?_)
    exact fun _ hg => hg.congr rfl rfl rfl rfl rfl rfl
  · refine State.Forms.foldl (h0 ?_) fun u x h => ?_
    · exact fun _ hg => hg.congr rfl rfl rfl rfl rfl rfl
    · split
      · exact h.fetchTrace.congr rfl rfl rfl rfl rfl rfl
      · exact h.takeFault
      · exact h

theorem State.Forms.issueSub {X : Nat → Places} {s : State} {core cut sub : Nat} (hs : s.Forms X) : (s.issueSub core cut sub).Forms X := by
  unfold State.issueSub
  split
  · exact hs
  · exact hs.modCore.issueActor

theorem State.Forms.issueLead {X : Nat → Places} {s : State} {core cut : Nat} (hs : s.Forms X) : (s.issueLead core cut).Forms X := by
  unfold State.issueLead
  dsimp only
  split
  · exact hs
  · exact hs.modCore.issueActor

theorem State.Forms.selectCore {X : Nat → Places} {s : State} {core : Nat} (hs : s.Forms X) : (s.selectCore core).Forms X := by
  unfold State.selectCore
  split
  · exact hs
  · exact (State.Forms.foldl hs.withIssueQ fun _ _ h => h.issueSub).issueLead.withIssueQ

end Sys2Proof.Machine
end

section
namespace Sys2Proof.Machine

/-! ### Active and pending sets (R25 to R27) -/

theorem State.Forms.promote {X : Nat → Places} {s : State} {x : Team × Actor} (hs : s.Forms X) : (s.promote x).Forms X := by
  unfold State.promote
  refine hs.modTeam ?_ ?_
  · exact fun _ ht => ht.modActor (fun _ hg => hg.congr rfl rfl rfl rfl rfl rfl)
  · exact fun _ => Team.modActor_id _ _ _

theorem State.Forms.demote {X : Nat → Places} {s : State} {x : Team × Actor} (hs : s.Forms X) : (s.demote x).Forms X := by
  unfold State.demote
  refine hs.modTeam ?_ ?_
  · exact fun _ ht => ht.modActor (fun _ hg => hg.congr rfl rfl rfl rfl rfl rfl)
  · exact fun _ => Team.modActor_id _ _ _

theorem State.Forms.forceSub {X : Nat → Places} {s : State} {core sub : Nat} (hs : s.Forms X) : (s.forceSub core sub).Forms X := by
  unfold State.forceSub
  dsimp only
  split
  · exact hs.promote.ite hs.demote.promote
  · exact hs

theorem State.Forms.balanceSub {X : Nat → Places} {s : State} {core sub : Nat} (hs : s.Forms X) : (s.balanceSub core sub).Forms X := by
  unfold State.balanceSub
  dsimp only
  split
  · exact hs
  refine State.Forms.forceSub (State.Forms.foldl (State.Forms.foldl hs fun _ _ h => h.modTeam ?_ ?_) fun _ p h => State.Forms.promote ?_)
  · exact fun _ ht => ht.modActor fun _ hg => hg.congr rfl rfl rfl rfl rfl rfl
  · exact fun _ => Team.modActor_id _ _ _
  split
  · exact h.demote
  · exact h

theorem State.Forms.balance {X : Nat → Places} {s : State} (hs : s.Forms X) : (s.balance).Forms X :=
  hs.foldl (fun _ _ h => h.foldl (fun _ _ h1 => h1.balanceSub))

/-! ### Time -/

theorem State.Forms.expire {X : Nat → Places} {s : State} (hs : s.Forms X) : (s.expire).Forms X :=
  hs.mapIfTeams (fun _ ht => ht.mapOnlyGroups fun _ hg => Group_expire_tabs hg) fun _ => rfl

theorem State.Forms.claimBanks {X : Nat → Places} {s : State} {core : Nat} (hs : s.Forms X) : (s.claimBanks core).Forms X :=
  hs.ite hs.modCore

theorem State.Forms.giveToken {X : Nat → Places} {s : State} {pend : Option Nat} {t : Nat} (hs : s.Forms X) :
    (s.giveToken pend t).Forms X := by
  unfold State.giveToken
  split
  · exact hs
  · exact hs.withPends

theorem State.Forms.engineDone {X : Nat → Places} {s : State} {e : Engine} {t : Nat} (hs : s.Forms X) : (s.engineDone e t).Forms X :=
  hs.withEngines.giveToken.settle

theorem State.Forms.kvappsDone {X : Nat → Places} {s : State} (hs : s.Forms X) : (s.kvappsDone).Forms X :=
  hs.foldl (fun _ _ h => h.engineDone)

theorem State.Forms.endCycle {X : Nat → Places} {s : State} (hs : s.Forms X) : (s.endCycle).Forms X :=
  hs.balance.expire.foldl (fun _ _ h => h.claimBanks)

theorem State.Forms.tick {X : Nat → Places} {s : State} {ns cycles : Nat} (hs : s.Forms X) : (s.tick ns cycles).Forms X :=
  hs.congr rfl rfl rfl rfl rfl rfl

theorem State.Forms.dawn {X : Nat → Places} {s : State} {team : Nat} (hs : s.Forms X) : (s.dawn team).Forms X :=
  hs.landDue.tilesDue.barAll.endTeam

theorem State.Forms.timeTurn {X : Nat → Places} {s : State} {ns cycles : Nat} (hs : s.Forms X) : (s.timeTurn ns cycles).Forms X :=
  ((((hs.endCycle.ite hs).tick).applyDue).kvappsDone).foldl (fun _ _ h => h.dawn)

/-! ### Events of the issue stages -/

theorem execPcAging_tables {X : Nat → Places} {team grp : Nat} {s : State} (hs : s.Forms X) : OutForms X (execPcAging team grp s) := by
  unfold execPcAging
  refine .next (hs.modTeam ?_ ?_)
  · exact fun _ ht => ht.modActor (fun _ hg => hg.congr rfl rfl rfl rfl rfl rfl)
  · exact fun _ => Team.modActor_id _ _ _

theorem execPendingForcedDemotion_tables {X : Nat → Places} {core sub : Nat} {s : State} (hs : s.Forms X) :
    OutForms X (execPendingForcedDemotion core sub s) := .next hs.forceSub

theorem execRcvTimeout_tables {X : Nat → Places} {team grp : Nat} {slot : BitVec 4} {s : State} (hs : s.Forms X) :
    OutForms X (execRcvTimeout team grp slot s) := by
  unfold execRcvTimeout
  dsimp only
  split
  · split
    · refine .next (hs.modTeam ?_ ?_)
      · exact fun _ ht => ht.modGroupAt (fun _ hg => Group_rcvTimeout_tabs hg)
      · exact fun _ => Team.modGroupAt_id _ _ _
    · exact .next hs
  · exact .next hs

/-! ### Results (R62, R124, R125) -/

theorem execFncTokenWrite_tables {X : Nat → Places} {id : Nat} {s : State} (hs : s.Forms X) : OutForms X (execFncTokenWrite id s) := by
  unfold execFncTokenWrite
  split
  · exact .next hs
  split
  · refine .next ?_
    exact hs.congr rfl rfl rfl rfl rfl rfl
  · exact .next hs

/-! ### Waits that end -/

theorem State.Forms.releaseThreads {X : Nat → Places} {s : State} {team grp : Nat} {gone : Nat → TState → Option Nat} (hs : s.Forms X) :
    (s.releaseThreads team grp gone).Forms X := by
  unfold State.releaseThreads
  split
  · refine hs.modTeam (fun _ ht => ht.modGroupAt fun {_ T} _ hg => hg.withThreads
      (getElem?_zipIdx_map_of (P := fun n (th : Thread) => th.Tabs (T n)) hg.threads fun n th hth => ?_)) fun _ => Team.modGroupAt_id _ _ _
    dsimp only
    split
    · exact hth.congr rfl rfl
    · exact hth
  · exact hs

theorem execWaitfRelease_tables {X : Nat → Places} {team grp : Nat} {s : State} (hs : s.Forms X) :
    OutForms X (execWaitfRelease team grp s) :=
  .next hs.releaseThreads

theorem execWaittRelease_tables {X : Nat → Places} {team grp : Nat} {s : State} (hs : s.Forms X) :
    OutForms X (execWaittRelease team grp s) :=
  .next hs.releaseThreads

theorem execEvwaitRelease_tables {X : Nat → Places} {team grp : Nat} {s : State} (hs : s.Forms X) :
    OutForms X (execEvwaitRelease team grp s) := by
  unfold execEvwaitRelease
  dsimp only
  split
  · refine .next
      (State.Forms.modTeam (State.Forms.foldl hs.releaseThreads fun _ _ h => ?_) (fun t ht => ?_) fun _ => Team.modGroupAt_id _ _ _)
    · split
      · exact h.evRead
      · exact h
    · refine Team.Tabs.withConj (ht.modGroupAt fun _ hg => Group_acquireNow_tabs hg) (forall_mem_map fun c hc => ?_)
      split
      · exact Group_acquireNow_tabs (ht.conj c hc)
      · exact ht.conj c hc
  · exact .next hs

/-! ### Admission (R24, R35, R36, R42) -/

theorem State.Forms.placeGroup {X : Nat → Places} {s : State} {team g : Nat} (hs : s.Forms X) : (s.placeGroup team g).Forms X := by
  unfold State.placeGroup
  refine hs.modTeam ?_ ?_
  · exact fun _ ht => ht.modGroupAt (fun _ hg => hg.congr rfl rfl rfl rfl rfl rfl)
  · exact fun _ => Team.modGroupAt_id _ _ _

theorem Team_seated_tabs {E : Places} {t : Team} (h : t.Tabs E) {banks : List Nat} : (Team_seated banks t).Tabs E := by
  refine Team.Tabs.congr (Team.Tabs.withConj (h.mapOnlyGroups (f := fun g : Group => { g with sub := 4, active := false }) ?_)
    (forall_mem_map (f := fun g : Group => { g with sub := 4, active := false }) fun c hc => ?_)) rfl rfl rfl rfl rfl rfl
  · exact fun _ hg => hg.congr rfl rfl rfl rfl rfl rfl
  · exact (h.conj c hc).congr rfl rfl rfl rfl rfl rfl

theorem State.Forms.seat {X : Nat → Places} {s : State} {team : Nat} (hs : s.Forms X) : (s.seat team).Forms X := by
  rw [State.seat_eq]
  refine State.Forms.foldl (hs.modCore.modTeam ?_ ?_) fun _ _ h => h.placeGroup
  · exact fun _ ht => Team_seated_tabs ht
  · exact fun _ => Team_seated_id _ _

theorem execTeamAdmission_tables {X : Nat → Places} {team : Nat} {s : State} (hs : s.Forms X) : OutForms X (execTeamAdmission team s) := by
  unfold execTeamAdmission
  split
  · exact .next hs
  dsimp only
  split
  · exact .next (hs.foldl (fun _ _ h => h.seat))
  · exact .next hs

theorem State.Forms.emptyL1 {X : Nat → Places} {s : State} {core : Nat} (hs : s.Forms X) : (s.emptyL1 core).Forms X := hs.dropStack.modCore

theorem execBankConversion_tables {X : Nat → Places} {core bank : Nat} {s : State} (hs : s.Forms X) :
    OutForms X (execBankConversion core bank s) := by
  unfold execBankConversion
  dsimp only
  split
  · exact .next hs.emptyL1.modCore
  · exact .next hs

theorem execRefill_tables {X : Nat → Places} {team : Nat} {s : State} (hs : s.Forms X) : OutForms X (execRefill team s) := by
  unfold execRefill
  split
  · cases he : s.refillTeam team with
    | none => exact .next (hs.modTeam (fun _ ht => ht.congr rfl rfl rfl rfl rfl rfl) fun _ => rfl)
    | some t => exact .next (hs.refillTeam he)
  · exact .next hs

theorem slotGroup_tabs {R T : Nat → Prop} (n : Nat) : (slotGroup n).Tabs R T := by
  refine ⟨fun _ => .nil, .nil, fun _ => .nil, .nil, fun l th hl => ?_⟩
  rw [List.eq_of_mem_replicate (List.mem_of_getElem? hl)]
  exact ⟨fun _ => .nil, .nil⟩

/-- A world's free lists stand in the map of worlds, and another is put there. -/
theorem State.Forms.putWorld {X : Nat → Places} {s : State} (hs : s.Forms X) {w : Nat} {x : World} (hx : x.Tabs) :
    ({ s with worlds := tabPut s.worlds w x } : State).Forms X := by
  refine ⟨hs.seals, hs.lastW, tabRises_tabPut hs.worlds, hs.cores, fun y hy => ?_, hs.teams, hs.ids, hs.below⟩
  rcases mem_tabPut hy with rfl | hy
  · exact hx
  · exact hs.free y hy

theorem State.Forms.loadCode {X : Nat → Places} {s : State} {code : List Byte} {lead : Bool} (hs : s.Forms X) :
    (s.loadCode code lead).Forms X := by
  have h1 : ({ s with
      worlds := tabPut s.worlds 0
        { s.world 0 with root := slotRoot, sealing := false, hbmch := 0xFFFFFFFFFFFFFFFF, ctxctl := 0 } } : State).Forms X :=
      hs.putWorld ((hs.world 0).congr rfl)
  unfold State.loadCode
  refine ⟨.nil, h1.lastW, h1.worlds, .nil, h1.free, fun t ht => ?_, by simp, fun t ht => ?_⟩
  · rw [List.mem_singleton.mp ht]
    refine ⟨rfl, fun _ => .nil, .nil, by simp, fun n g hg => ?_, by simp, fun g hg => ?_⟩
    · have hg := List.mem_singleton.mp (List.mem_of_getElem? hg)
      subst hg
      split
      · refine (slotGroup_tabs 32).withThreads fun l th hl => ?_
        rw [List.eq_of_mem_replicate (List.mem_of_getElem? hl)]
        exact ⟨fun _ => .nil, .nil⟩
      · exact slotGroup_tabs 32
    · dsimp only at hg
      split at hg
      · cases hg; exact slotGroup_tabs 1
      · cases hg
  · rw [List.mem_singleton.mp ht]
    exact lt_of_lt_of_le Nat.one_lt_two (le_max_right _ _)

/-! ### Holding and acting -/

theorem State.Forms.holdInstr {X : Nat → Places} {s : State} {i : Instr} (hs : s.Forms X) : (s.holdInstr i).Forms X := by
  unfold State.holdInstr
  dsimp only
  split
  · exact hs.takePorts.retire
  · refine State.Forms.retire (State.Forms.wmUpdate ?_)
    have h1 : ∀ {ps : List Probe}, ({ (s.takePorts (heldPorts i) (s.active (heldHead i))).2.fresh.2 with probes := ps } : State).Forms X :=
      hs.takePorts.fresh.congr rfl rfl rfl rfl rfl rfl
    split
    · split
      · refine h1.modCg ?_
        exact fun _ hg => hg.congr rfl rfl rfl rfl rfl rfl
      · exact h1
    · exact h1

theorem execHeld_tables {X : Nat → Places} {i : Instr} {s : State} (hs : s.Forms X) : OutForms X (execHeld i s) := by
  unfold execHeld
  split
  · exact execMzero_tables hs
  · exact execMrd_tables hs
  · exact execMwr_tables hs
  · exact execMldb_tables hs
  · exact execMgata_tables hs
  · exact execMmq_tables hs
  · exact execMms_tables hs
  · exact execMst_tables hs
  · exact execTcut_tables hs
  · exact execInfl_tables hs
  · exact execAttn_tables hs
  · exact execKvapp_tables hs
  · exact execKvtrim_tables hs
  · exact execLaunch_tables hs
  · exact execSrprb_tables hs
  · exact .next hs

theorem State.Forms.runHeld {s : State} {p : Probe} {h : Issued} (hs : s.Forms fun _ => .all) :
    OutForms (fun _ => .all) (s.runHeld p h) := by
  unfold State.runHeld
  dsimp only
  have h0 : ({ s with probes := s.probes.filter fun x => decide (x.id ≠ p.id) } : State).Forms fun _ => .all :=
    hs.congr rfl rfl rfl rfl rfl rfl
  have h1 := execHeld_tables (i := p.instr) (h0.installed (p := p) (h := h))
  split
  · next s1 he =>
    refine .next (State.Forms.foldl (State.Forms.wmUpdate (State.Forms.settle (State.Forms.swapId ?_))) fun _ _ h => h.finishExit)
    exact ((h1 s1 he).putBack h0).congr rfl rfl rfl rfl rfl rfl
  · next o hno => exact fun t e => (hno t e).elim

end Sys2Proof.Machine
end

section
namespace Sys2Proof.Machine

/-! ### Homes -/

theorem State.Forms.act {X : Nat → Places} {s : State} {f : Flight} (hs : s.Forms X) : (s.act f).Forms X := hs.perform.ite hs.perform.serve

theorem execHomeRequest_tables {X : Nat → Places} {id : Nat} {s : State} (hs : s.Forms X) : OutForms X (execHomeRequest id s) := by
  unfold execHomeRequest
  split
  · exact .next hs
  split
  · exact .next hs.applyDue.act.barAll
  · exact .next hs

theorem execStoreCompletion_tables {X : Nat → Places} {id : Nat} {s : State} (hs : s.Forms X) : OutForms X (execStoreCompletion id s) := by
  unfold execStoreCompletion
  split
  · exact .next hs.applyDue
  · exact .next hs

theorem execTableWalk_tables {X : Nat → Places} {core world : Nat} {va : Dword} {s : State} (hs : s.Forms X) :
    OutForms X (execTableWalk core world va s) := by
  unfold execTableWalk
  split
  · exact .next hs.translate
  · exact .next hs

/-! ### Escorts on their way (R185 to R187) -/

theorem State.Forms.sendOn {X : Nat → Places} {s : State} {req key : Nat} {h : Hold} {line : Option Nat} (hs : s.Forms X) :
    (s.sendOn req key h line).Forms X := by
  unfold State.sendOn
  dsimp only
  exact hs.fresh.modEscLane

theorem execEscortAccept_tables {X : Nat → Places} {req lane : Nat} {s : State} (hs : s.Forms X) :
    OutForms X (execEscortAccept req lane s) := by
  unfold execEscortAccept
  split
  · exact .next hs
  split
  · exact .next hs
  split
  · split
    · exact .next hs.modEscLane.sendOn
    · exact .next hs
  · exact .next hs

theorem execEscortDrop_tables {X : Nat → Places} {req lane : Nat} {s : State} (hs : s.Forms X) :
    OutForms X (execEscortDrop req lane s) := by
  unfold execEscortDrop
  split
  · exact .next hs
  dsimp only
  split
  · split
    · exact .next hs.modEscLane
    · exact .next hs
  split
  · exact .next hs.modEscLane
  · exact .next hs

theorem execBackoffExpiry_tables {X : Nat → Places} {req lane : Nat} {s : State} (hs : s.Forms X) :
    OutForms X (execBackoffExpiry req lane s) := by
  unfold execBackoffExpiry
  split
  · split
    · exact .next hs.modEscLane
    · exact .next hs
  · exact .next hs

theorem State.Forms.setEscStat {X : Nat → Places} {s : State} {req key : Nat} {st : EStat} (hs : s.Forms X) :
    (s.setEscStat req key st).Forms X := hs.modEscLane

theorem State.Forms.failEsc {X : Nat → Places} {s : State} {req key : Nat} {f : Flt} (hs : s.Forms X) : (s.failEsc req key f).Forms X :=
  hs.modEscLane

/-! ### Hop-engine walks (R193 to R195) -/

theorem State.Forms.hopRead {X : Nat → Places} {s : State} {w : Walk} {off n : Nat} (hs : s.Forms X) : (s.hopRead w off n).2.Forms X := by
  unfold State.hopRead
  dsimp only
  split
  · next he => exact (State.Forms.of_eq2 he hs.globAcc)
  · next he => exact (State.Forms.of_eq2 he hs.globAcc)
  · next he => exact (State.Forms.of_eq2 he hs.globAcc)

/-- A read of a walk that is made only if the descriptor asks for it. -/
theorem State.Forms.hopReadIf {X : Nat → Places} {s : State} {c : Prop} [Decidable c] {w : Walk} {o n d : Nat} (hs : s.Forms X) :
    (if c then s.hopRead w o n else (.ok d, s)).2.Forms X :=
  .ite_snd hs.hopRead hs

/-- What a walk makes of the address of its next node leaves the state that the read left. -/
theorem State.Forms.hopTold {X : Nat → Places} {r : Except Flt Nat × State} {e : List Word} {n m : Nat} : r.2.Forms X →
    (match r with
      | (.error f, s1) => (.flt f, s1)
      | (.ok nx, s1) => if nx = 0 || n = m then (.stop e, s1) else (.go e (w64 nx), s1) : HopRes × State).2.Forms X := by
  obtain ⟨o, s⟩ := r
  cases o with
  | error f => exact id
  | ok nx =>
    intro h
    dsimp only
    split
    · exact h
    · exact h

theorem State.Forms.hopStep {X : Nat → Places} {s : State} {w : Walk} (hs : s.Forms X) : (s.hopStep w).2.Forms X := by
  unfold State.hopStep
  dsimp only
  split
  · exact hs
  split
  · exact hs.hopReadIf
  split
  · exact hs.hopReadIf.hopReadIf
  refine State.Forms.ite_snd ?_ (State.Forms.hopTold ?_)
  · dsimp only
    exact hs.hopReadIf.hopReadIf
  · exact hs.hopReadIf.hopReadIf.hopRead

theorem State.Forms.dropWalk {X : Nat → Places} {s : State} {w : Walk} (hs : s.Forms X) : (s.dropWalk w).Forms X := hs.withWalks.settle

theorem State.Forms.endWalk {X : Nat → Places} {s : State} {w : Walk} {e : List Word} (hs : s.Forms X) : (s.endWalk w e).Forms X := by
  unfold State.endWalk
  dsimp only
  split
  · exact hs.dropWalk.modEscLane
  · exact (hs.dropWalk.deliver.foldl (fun _ _ h => h.deliver)).lateDone

theorem State.Forms.faultWalk {X : Nat → Places} {s : State} {w : Walk} {f : Flt} (hs : s.Forms X) : (s.faultWalk w f).Forms X := by
  unfold State.faultWalk
  dsimp only
  split
  · exact hs.dropWalk.failEsc
  · exact hs.dropWalk.withPends.lateFault.lateDone

theorem execHop_tables {X : Nat → Places} {id : Nat} {s : State} (hs : s.Forms X) : OutForms X (execHop id s) := by
  unfold execHop
  split
  · exact .next hs
  next w hw =>
    have h1 := (hs.applyDue.noteRead (keys := placeLines (s.hopPlaces w))).hopStep (w := w)
    dsimp only
    split
    · exact .next hs
    · refine .next ?_
      split
      · exact hs.sendOn
      · exact hs
    split
    · exact .next hs
    split
    · exact .next hs.endWalk
    split
    · next he => rw [he] at h1; exact .next (State.Forms.faultWalk h1)
    · next he => rw [he] at h1; exact .next (State.Forms.endWalk h1)
    · next he =>
      rw [he] at h1
      refine .next ?_
      split
      · exact State.Forms.sendOn (State.Forms.withWalks h1)
      · exact State.Forms.withWalks h1

/-! ### Timeouts (R222, R223) -/

theorem State.Forms.remoteFault {X : Nat → Places} {s : State} {r : Remote} {cls : Nat} (hs : s.Forms X) :
    (s.remoteFault r cls).Forms X := by
  unfold State.remoteFault
  dsimp only
  split
  · exact hs.withEgress.settle.failEsc
  · exact hs.withEgress.settle.withPends.lateFault.lateDone

theorem execRemoteEscortTimeout_tables {X : Nat → Places} {id : Nat} {s : State} (hs : s.Forms X) :
    OutForms X (execRemoteEscortTimeout id s) := by
  unfold execRemoteEscortTimeout
  split
  · exact .next hs
  dsimp only
  split
  · split
    · exact .next hs.remoteFault
    · exact .next hs
  split
  · exact .next hs.remoteFault
  · exact .next hs

theorem State.Forms.discardEsc {X : Nat → Places} {s : State} {req : Nat} (hs : s.Forms X) : (s.discardEsc req).Forms X := by
  unfold State.discardEsc
  split
  · exact hs
  · exact hs.withEscs.escDone

theorem execLocalEscortTimeout_tables {X : Nat → Places} {req lane : Nat} {s : State} (hs : s.Forms X) :
    OutForms X (execLocalEscortTimeout req lane s) := by
  unfold execLocalEscortTimeout
  split
  · exact .next hs
  dsimp only
  split
  · split
    · exact .next hs.discardEsc.integrity
    · exact .next hs
  split
  · exact .next hs.discardEsc.integrity
  · exact .next hs

/-! ### Streams (R201, R202) -/

theorem execStreamElementFetch_tables {X : Nat → Places} {team grp : Nat} {k : BitVec 4} {lane : Nat} {s : State} (hs : s.Forms X) :
    OutForms X (execStreamElementFetch team grp k lane s) := by
  unfold execStreamElementFetch
  dsimp only
  split
  · refine .next ((hs.applyDue.elemNow.modTeam ?_ ?_).noteLaunch)
    · exact fun _ ht => ht.modActor (fun _ hg => hg.setStream)
    · exact fun _ => Team.modActor_id _ _ _
  · exact .next hs

/-! ### Engine writes -/

theorem State.Forms.engineWrite {X : Nat → Places} {s : State} {e : Engine} {w : EWrite} (hs : s.Forms X) :
    (s.engineWrite e w).2.Forms X := by
  unfold State.engineWrite
  split
  · dsimp only
    exact hs.fresh.arrive
  · exact hs.putSpace

theorem State.Forms.engineWrites {X : Nat → Places} {s : State} {e : Engine} {ws : List EWrite} (hs : s.Forms X) :
    (s.engineWrites e ws).2.Forms X := State.Forms.foldl_snd hs (fun _ _ h => h.engineWrite)

theorem State.Forms.engineServed {X : Nat → Places} {s : State} {e : Engine} {ws rs : List (Space × Nat)} (hs : s.Forms X) :
    (s.engineServed e ws rs).Forms X := hs.serve.serve

theorem State.Forms.runEngine {X : Nat → Places} {s : State} {e : Engine} {ws : List EWrite} {rs : List (Space × Nat)} (hs : s.Forms X) :
    (s.runEngine e ws rs).Forms X := hs.engineWrites.engineDone.engineServed.ite hs

theorem State.Forms.runAcp {X : Nat → Places} {s : State} {e : Engine} {secs : List (Space × Space)} (hs : s.Forms X) :
    (s.runAcp e secs).Forms X := hs.applyDue.runEngine

theorem execScatCompletion_tables {X : Nat → Places} {id : Nat} {s : State} (hs : s.Forms X) : OutForms X (execScatCompletion id s) := by
  unfold execScatCompletion
  split
  · split
    · exact .next hs.applyDue.runEngine
    · exact .next hs
  · exact .next hs

theorem execMatrixOpCompletion_tables {X : Nat → Places} {id : Nat} {s : State} (hs : s.Forms X) :
    OutForms X (execMatrixOpCompletion id s) := by
  unfold execMatrixOpCompletion
  split
  · split
    · exact .next hs.tileDone
    · exact .next hs
  · exact .next hs

theorem execMstCompletion_tables {X : Nat → Places} {id : Nat} {s : State} (hs : s.Forms X) : OutForms X (execMstCompletion id s) := by
  unfold execMstCompletion
  split
  · split
    · split
      · exact .next hs.applyDue.runEngine
      · exact .next hs
    · exact .next hs
  · exact .next hs

theorem execAttnCompletion_tables {X : Nat → Places} {id : Nat} {s : State} (hs : s.Forms X) : OutForms X (execAttnCompletion id s) := by
  unfold execAttnCompletion
  split
  · split
    · split
      · exact .next hs
      · exact .next hs.engineDone.wmUpdate
    · exact .next hs
  · exact .next hs

theorem State.Forms.pushQueued {X : Nat → Places} {s : State} {w : Nat} {x : Nat × Nat} (hs : s.Forms X) : (s.pushQueued w x).Forms X := by
  unfold State.pushQueued
  refine hs.setPhys.modWorld ?_
  exact fun _ hw => World_setList_tabs hw

theorem execKvtrimFramePush_tables {X : Nat → Places} {id : Nat} {s : State} (hs : s.Forms X) : OutForms X (execKvtrimFramePush id s) := by
  unfold execKvtrimFramePush
  split
  · split
    · split
      · exact .next ((hs.foldl (fun _ _ h => h.pushQueued)).engineDone)
      · exact .next hs
    · exact .next hs
  · exact .next hs

/-! ### Probe passes (R206, R207) -/

/-- An escorted request, when there is one, is rewritten. -/
theorem State.Forms.escsOf {X : Nat → Places} {s : State} (hs : s.Forms X) {o : Option Nat} {f : Nat → List EscReq} :
    (match o with
      | none => s
      | some req => ({ s with escs := f req } : State)).Forms X := by
  split
  · exact hs
  · exact hs.withEscs

theorem State.Forms.probeFaulted {X : Nat → Places} {s : State} {p : Probe} {fs : List LaneFlt} (hs : s.Forms X) :
    (s.probeFaulted p fs).Forms X := by
  have h1 : ({ s with probes := s.probes.filter (fun x => decide (x.id ≠ p.id)), pends := s.pends.filter fun q => !p.pends.contains q.id } :
      State).Forms X := hs.congr rfl rfl rfl rfl rfl rfl
  unfold State.probeFaulted
  dsimp only
  split
  · exact h1.settle.escsOf
  split
  · exact h1.settle.escsOf.takeFault
  · exact h1.settle.escsOf

theorem State.Forms.startGather {X : Nat → Places} {s : State} {p : Probe} {ls : List (PLane × List Acc)} (hs : s.Forms X) :
    (s.startGather p ls).Forms X := by
  unfold State.startGather
  refine State.Forms.swapId (State.Forms.withProbes (State.Forms.foldl_snd hs fun _ _ h => State.Forms.foldl_snd h fun _ _ h => ?_))
  exact h.fresh.withFlights

theorem State.Forms.probeAll {X : Nat → Places} {s : State} {p : Probe} (hs : s.Forms X) : (s.probeAll p).2.Forms X := by
  unfold State.probeAll
  dsimp only
  exact State.Forms.foldl_snd hs (fun _ _ h => h.probeLaneAll)

theorem State.Forms.afterProbe {X : Nat → Places} {s : State} {p : Probe} {ls : List (PLane × List Acc)} (hs : s.Forms X) :
    (s.afterProbe p ls).Forms X := by
  unfold State.afterProbe
  have h1 : ∀ {ps : List Probe} {es : List Engine}, ({ s with probes := ps, engines := es } : State).Forms X :=
    hs.congr rfl rfl rfl rfl rfl rfl
  split
  · exact hs.startGather
  · exact State.Forms.foldl h1 fun _ _ h => h.finishExit

theorem execProbePass_tables {id : Nat} {s : State} (hs : s.Forms fun _ => .all) : OutForms (fun _ => .all) (execProbePass id s) := by
  unfold execProbePass
  split
  · exact .next hs
  split
  · split
    · exact hs.applyDue.runHeld
    · exact .next hs
  split
  · exact .next hs
  dsimp only
  split
  · exact .next hs.applyDue.serve.probeAll.probeFaulted
  split
  · exact .next hs.applyDue.serve.probeAll.afterProbe
  · exact .next hs.applyDue.serve.probeAll.withProbes

end Sys2Proof.Machine
end

section
namespace Sys2Proof.Machine

/-! ### Probe passes (R206, R207) -/

theorem State.conjOf_tabs {R T : Nat → Prop} (s : State) (team : Nat) (cs : List Cand) : (s.conjOf team cs).Tabs R T :=
  ⟨fun _ => .nil, .nil, fun _ => .nil, .nil, by simp [State.conjOf]⟩

theorem Team_regrouped_tabs {E : Places} {t : Team} (h : t.Tabs E) {g : Group} (hg : g.Tabs E.conj fun _ => True) {cs : List Cand} :
    (Team_regrouped g cs t).Tabs E := by
  have h1 : (cs.foldl (fun (t : Team) (c : Cand) => t.modThread c.grp c.lane fun th => { th with st := .run, pc := c.pc }) t).Tabs E :=
    h.foldl fun _ _ h => h.modThread fun _ hth => hth.congr rfl rfl
  refine (h1.withConj fun c hc => ?_).congr rfl rfl rfl rfl rfl rfl
  rcases List.mem_append.mp hc with hc | hc
  · exact h1.conj c hc
  · exact List.mem_singleton.mp hc ▸ hg

theorem State.Forms.formConj {X : Nat → Places} {s : State} {team : Nat} {cs : List Cand} (hs : s.Forms X) :
    (s.formConj team cs).Forms X := by
  rw [State.formConj_eq]
  exact hs.fresh.modTeam (fun _ ht => Team_regrouped_tabs ht (State.conjOf_tabs s team cs)) fun _ => Team_regrouped_id _ _ _

theorem State.Forms.tryConj {X : Nat → Places} {s : State} {team : Nat} {full : Bool} (hs : s.Forms X) : (s.tryConj team full).Forms X := by
  unfold State.tryConj
  dsimp only
  split
  · exact hs
  split
  · exact hs.formConj
  · exact hs

theorem execConjugatorExpiry_tables {X : Nat → Places} {team : Nat} {s : State} (hs : s.Forms X) :
    OutForms X (execConjugatorExpiry team s) :=
  .next hs.tryConj

theorem State.Forms.conjTeam {X : Nat → Places} {s : State} {team n : Nat} (hs : s.Forms X) : (s.conjTeam team n).Forms X := by
  induction n generalizing s with
  | zero => exact hs
  | succ n ih =>
    unfold State.conjTeam
    dsimp only
    split
    · exact hs
    · exact ih hs.tryConj

theorem State.Forms.conjAll {X : Nat → Places} {s : State} (hs : s.Forms X) : (s.conjAll).Forms X := hs.foldl (fun _ _ h => h.conjTeam)

theorem execConjugateGroupFormation_tables {X : Nat → Places} {team : Nat} {s : State} (hs : s.Forms X) :
    OutForms X (execConjugateGroupFormation team s) := .next hs.tryConj

/-! ### Errors -/

theorem execIntegrityError_tables {X : Nat → Places} {launch : Nat} {line : Nat} {source : Nat} {s : State} (hs : s.Forms X) :
    OutForms X (execIntegrityError launch line source s) := by
  unfold execIntegrityError
  split
  · split
    · exact .next hs
    · exact .next hs.integrity
  · exact .next hs

theorem execUnconsumedError_tables {X : Nat → Places} {world : Nat} {line : Nat} {source : Nat} {s : State} (hs : s.Forms X) :
    OutForms X (execUnconsumedError world line source s) := by
  unfold execUnconsumedError
  dsimp only
  exact .next ((hs.fresh.pushRec.ite hs.fresh.pushRec.pushRec).signal)

theorem execCorrectedError_tables {X : Nat → Places} {die cls : Nat} {s : State} (hs : s.Forms X) :
    OutForms X (execCorrectedError die cls s) := by
  unfold execCorrectedError
  split
  · exact .next (hs.modDie.signal.ite hs.modDie)
  · exact .next hs

theorem execErrorCounterWrite_tables {X : Nat → Places} {die cls : Nat} {s : State} (hs : s.Forms X) :
    OutForms X (execErrorCounterWrite die cls s) := by
  unfold execErrorCounterWrite
  split
  · exact .next hs.modDie
  · exact .next hs

/-! ### Device writes to fixed physical addresses -/

theorem State.Forms.putNow {X : Nat → Places} {s : State} {who : Option Nat} {pa : Nat} {bs : List Byte} (hs : s.Forms X) :
    (s.putNow who pa bs).Forms X := hs.applyDue.write.noteW

/-! ### Fault queues (R215, R216) -/

theorem execFaultRecordWrite_tables {X : Nat → Places} {world : Nat} {s : State} (hs : s.Forms X) :
    OutForms X (execFaultRecordWrite world s) := by
  unfold execFaultRecordWrite
  dsimp only
  split
  · exact .next hs
  split
  · refine .next ((hs.putNow.modWorld ?_).signal)
    exact fun _ hw => hw.congr rfl
  · exact .next hs

theorem execFaultQueueSetup_tables {X : Nat → Places} {world : Nat} {size : Bool} {val : Dword} {s : State} (hs : s.Forms X) :
    OutForms X (execFaultQueueSetup world size val s) := by
  unfold execFaultQueueSetup
  refine .next (hs.modWorld ?_)
  exact fun _ hw => World_fqSetup_tabs hw

theorem execFqheadWrite_tables {X : Nat → Places} {world : Nat} {val : Dword} {s : State} (hs : s.Forms X) :
    OutForms X (execFqheadWrite world val s) := by
  unfold execFqheadWrite
  refine .next (hs.modWorld ?_)
  exact fun _ hw => World_fqHead_tabs hw

theorem execRetry_tables {X : Nat → Places} {world : Nat} {tag : Word} {s : State} (hs : s.Forms X) : OutForms X (execRetry world tag s) :=
  .next hs.resume

theorem execSkip_tables {X : Nat → Places} {world : Nat} {tag : Word} {s : State} (hs : s.Forms X) : OutForms X (execSkip world tag s) :=
  .next hs.resume

theorem execKill_tables {X : Nat → Places} {world : Nat} {tag : Word} {s : State} (hs : s.Forms X) : OutForms X (execKill world tag s) :=
  .next hs.resume

/-! ### Translation invalidates (R234) -/

theorem execTranslationInvalidate_tables {X : Nat → Places} {world : Nat} {val : Dword} {s : State} (hs : s.Forms X) :
    OutForms X (execTranslationInvalidate world val s) := .next hs.startInval

theorem execInvalidateCompletion_tables {X : Nat → Places} {id : Nat} {s : State} (hs : s.Forms X) :
    OutForms X (execInvalidateCompletion id s) := by
  unfold execInvalidateCompletion
  split
  · exact .next hs
  split
  · split
    · exact .next hs.withInvals.dropSpan
    · exact .next hs
  split
  · exact .next hs
  dsimp only
  refine .next (State.Forms.modWorldRest ?_ fun _ => rfl)
  split
  · refine State.Forms.modTeam ?_ ?_ fun _ => Team.modActor_id _ _ _
    · exact hs.dropSpan.congr rfl rfl rfl rfl rfl rfl
    · exact fun _ ht => ht.modActor fun _ hg => Group_invalDone_tabs hg
  · exact hs.dropSpan.congr rfl rfl rfl rfl rfl rfl

/-! ### The save area as virtual memory -/

theorem State.Forms.putArea {X : Nat → Places} {s : State} {world : Nat} {cs : List Chunk} {off : Nat} {bs : List Byte} (hs : s.Forms X) :
    (s.putArea world cs off bs).Forms X := hs.foldl (fun _ _ h => h.putNow.ite h)

/-! ### Ellipsis slots (R228) -/

theorem State.Forms.putSlot {X : Nat → Places} {s : State} {t : Team} {cs : List Chunk} {r : EscReq} {only : Option Nat} (hs : s.Forms X) :
    (s.putSlot t cs r only).Forms X := (hs.foldl (fun _ _ h => h.withFree.putArea.ite h)).putArea

/-! ### Results of a context that is not resident (R227) -/

theorem State.Forms.tokenEntry {X : Nat → Places} {s : State} {team id tok : Nat} (hs : s.Forms X) :
    (s.tokenEntry team id tok).Forms X := by
  unfold State.tokenEntry
  dsimp only
  split
  · refine hs.modTeam ?_ ?_
    · exact fun _ ht => Team_tokenTable_tabs ht
    · exact fun _ => Team_tokenTable_id _ _ _
  split
  · refine (hs.modTeam ?_ ?_).foldl (fun _ _ h => h.putArea)
    · exact fun _ ht => Team_tokenTable_tabs ht
    · exact fun _ => Team_tokenTable_id _ _ _
  refine hs.modTeam ?_ ?_
  · exact fun _ ht => Team_tokenTable_tabs ht
  · exact fun _ => Team_tokenTable_id _ _ _

/-- A team's scratchpad is rewritten. -/
theorem State.Forms.modScratch {X : Nat → Places} {s : State} (hs : s.Forms X) {k : Nat} {f : Team → List Host.Cell}
    (hf : ∀ t, Memory.wf (f t) = true) :
    (s.modTeam k fun t => { t with scratch := f t }).Forms X :=
  hs.modTeam (fun t ht => ⟨hf t, ht.t, ht.tiles, ht.cells, ht.groups, ht.conj, ht.lead⟩) fun _ => rfl

theorem execAcpCompletion_tables {X : Nat → Places} {id : Nat} {s : State} (hs : s.Forms X) : OutForms X (execAcpCompletion id s) := by
  unfold execAcpCompletion
  split
  · exact .next hs
  split
  · dsimp only
    split
    · split
      · exact .next hs
      · split
        · exact .next hs
        · refine .next (State.Forms.putArea (State.Forms.runAcp (hs.modScratch ?_)))
          exact fun _ => Memory.wf_write rfl
    · exact .next hs.runAcp
  · exact .next hs

theorem execScoreboardWriteback_tables {X : Nat → Places} {id : Nat} {s : State} (hs : s.Forms X) :
    OutForms X (execScoreboardWriteback id s) := by
  unfold execScoreboardWriteback
  split
  · exact .next hs
  next p _ =>
    split
    · exact .next hs
    dsimp only
    split
    · exact .next hs.withPends
    next t _ =>
      split
      · exact .next hs.withPends.tokenEntry
      split
      · exact .next (hs.withPends.modTeam (fun _ ht => ht.congr rfl rfl rfl rfl rfl rfl) fun _ => rfl)
      have h1 : (({ s with pends := s.pends.filter fun q => decide (q.id ≠ id) } : State).modTeam p.team
          fun t => Team_writePend t (s.pendTag p)).Forms X :=
        hs.withPends.modTeam (fun _ ht => Team_writePend_tabs ht) fun _ => Team_writePend_id _ _
      have h2 := h1.settle (id := id) (team := p.team) (who := p.who) (grp := p.grp) (launch := t.launch) (t := s.gtc) (y := false)
      split
      · exact .next (State.Forms.finishExit (State.Forms.landRegs (h2.ite h1)))
      · exact .next (h2.ite h1)

/-! ### Replies (R181, R187, R188, R229) -/

theorem State.Forms.replyHere {X : Nat → Places} {s : State} {r : EscReq} {l : EscLane} (hs : s.Forms X) : (s.replyHere r l).Forms X := by
  unfold State.replyHere
  split
  · exact hs.landFault
  · exact hs.landLane

theorem State.Forms.divert {X : Nat → Places} {s : State} {r : EscReq} {l : EscLane} (hs : s.Forms X) : (s.divert r l).Forms X := by
  unfold State.divert
  dsimp only
  split
  · exact hs.setEscStat
  split
  · exact hs.reqTag.modEscLane
  · exact hs.setEscStat

theorem State.Forms.divertAt {X : Nat → Places} {s : State} {r : EscReq} {l : EscLane} (hs : s.Forms X) : (s.divertAt r l).Forms X :=
  hs.divert.modTeam (fun _ ht => ht.congr rfl rfl rfl rfl rfl rfl) fun _ => rfl

theorem execReply_tables {X : Nat → Places} {req lane : Nat} {s : State} (hs : s.Forms X) : OutForms X (execReply req lane s) := by
  unfold execReply
  split
  · exact .next hs
  split
  · exact .next hs
  split
  · exact .next hs.setEscStat.escDone
  split
  · exact .next hs.replyHere
  · exact .next hs
  · exact .next hs.divertAt.escDone
  split
  · exact .next hs
  · refine .next (State.Forms.escDone ?_)
    generalize (State.esc? _ req) = o
    cases o with
    | none => exact hs.divertAt
    | some r => exact hs.divertAt.putSlot

/-! ### Pre-emption (R224, R225) -/

theorem execPreemptionRequest_tables {X : Nat → Places} {team : Nat} {s : State} (hs : s.Forms X) :
    OutForms X (execPreemptionRequest team s) := by
  unfold execPreemptionRequest
  split
  · split
    · exact .next (hs.modTeam (fun _ ht => ht.congr rfl rfl rfl rfl rfl rfl) fun _ => rfl)
    · exact .next (hs.modTeam (fun _ ht => ht.congr rfl rfl rfl rfl rfl rfl) fun _ => rfl)
    · exact .next hs
  · exact .next hs

theorem State.Forms.abandonProbe {X : Nat → Places} {s : State} {p : Probe} (hs : s.Forms X) : (s.abandonProbe p).Forms X := by
  have h1 : ∀ {ps : List Probe} {ws : List Pend}, ({ s with probes := ps, pends := ws } : State).Forms X := hs.congr rfl rfl rfl rfl rfl rfl
  unfold State.abandonProbe
  dsimp only
  refine State.Forms.modTeam ?_ (fun _ ht => ht.foldl fun _ _ h => h.modThread fun _ hth => ?_) fun _ =>
    foldl_id _ (fun _ _ => Team.modThread_id _ _ _ _) _ _
  · split
    · exact State.Forms.foldl (State.Forms.settle h1) fun _ _ h => h.landLane
    · exact State.Forms.settle h1
  · split
    · exact hth
    · exact hth
    · exact hth
    · exact hth.congr rfl rfl

theorem State.Forms.slotGathers {X : Nat → Places} {s : State} {t : Team} (hs : s.Forms X) : (s.slotGathers t).Forms X := by
  refine hs.foldl fun _ _ h => ?_
  dsimp only
  split
  · exact h
  split
  · exact h.fresh.congr rfl rfl rfl rfl rfl rfl
  · exact h

theorem execStopTime_tables {X : Nat → Places} {team : Nat} {s : State} (hs : s.Forms X) : OutForms X (execStopTime team s) := by
  unfold execStopTime
  split
  · exact .next hs
  dsimp only
  split
  · next t _ _ =>
    refine .next
      (State.Forms.modTeam (State.Forms.modCore (State.Forms.withEscs (State.Forms.slotGathers (hs.foldl fun _ _ h => h.abandonProbe))))
      (fun u hu => ?_) fun _ => rfl)
    refine (hu.mapGroups (f := fun g => Group_stop (Group_saved g (s.cycle t.core))) ?_ ?_).congr rfl rfl rfl rfl rfl rfl
    · exact fun _ hg => Group_stop_tabs (Group_saved_tabs hg)
    · exact forall_mem_map fun c hc => Group_stop_tabs (Group_saved_tabs (hu.conj c hc))
  · exact .next hs

theorem execSaveDone_tables {X : Nat → Places} {team : Nat} {s : State} (hs : s.Forms X) : OutForms X (execSaveDone team s) := by
  unfold execSaveDone
  split
  · exact .next hs
  split
  · dsimp only
    split
    · exact .next hs
    split
    · refine .next (State.Forms.modTeam (State.Forms.modCore (State.Forms.foldl (State.Forms.withFree (State.Forms.foldl (State.Forms.fresh
        (State.Forms.foldl hs ?_)) ?_)) ?_)) ?_ fun _ => rfl)
      · exact fun _ _ h => h.putNow
      · exact fun _ _ h => h.putArea
      · exact fun _ _ h => h.putSlot
      · exact fun _ ht => ht.congr rfl rfl rfl rfl rfl rfl
    · exact .next hs
  · exact .next hs

/-! ### Restore (R230 to R232) -/

theorem State.Forms.tokensOut {X : Nat → Places} {s : State} {t : Team} {cs : List Chunk} (hs : s.Forms X) :
    (s.tokensOut t cs).Forms X := by
  unfold State.tokensOut
  refine hs.foldl ?_
  intro _ _ h
  split
  · exact h.withPends
  · exact h

theorem State.Forms.placeConj {X : Nat → Places} {s : State} {team : Nat} (hs : s.Forms X) : (s.placeConj team).Forms X := by
  unfold State.placeConj
  refine hs.foldl ?_
  intro _ _ h
  refine h.modTeam ?_ ?_
  · exact fun _ ht => ht.modActor (fun _ hg => hg.congr rfl rfl rfl rfl rfl rfl)
  · exact fun _ => Team.modActor_id _ _ _

theorem State.Forms.readSlot {X : Nat → Places} {s : State} {t : Team} {cs : List Chunk} {r : EscReq} (hs : s.Forms X) :
    (s.readSlot t cs r).Forms X := by
  unfold State.readSlot
  dsimp only
  split
  · exact hs
  refine State.Forms.foldl
    (State.Forms.escDone (State.Forms.foldl (hs.modTeam (fun _ ht => ht.foldl fun _ _ h => ?_) fun u => ?_) fun _ _ h => h.landOne))
    fun _ _ h => h.finishExit
  · exact (Team_park_tabs h).ite h
  · refine foldl_id _ (fun _ _ => ?_) _ u
    split
    · exact Team_park_id _ _ _ _
    · rfl

theorem State.Forms.refuseRestore {X : Nat → Places} {s : State} {t : Team} (hs : s.Forms X) : (s.refuseRestore t).Forms X :=
  hs.sticky.sticky.abortLaunch

/-- A team read back, its clocks moved on. -/
theorem State.reloaded_tabs {E : Places} {t : Team} (h : t.Tabs E) {s : State} {cs : List Chunk} {now : Nat} {cands : List Cand} :
    ({ s.loadSections t cs with
        conj := (s.loadSections t cs).conj.map (fun g => Group_rebased g now),
        groups := (s.loadSections t cs).groups.map (fun g => Group_rebased g now),
        cands := cands } : Team).Tabs E := by
  have h1 := State.loadSections_tabs h (s := s) (cs := cs)
  refine Team.Tabs.congr (Team.Tabs.withConj (h1.mapOnlyGroups (f := fun g => Group_rebased g now) fun _ hg => Group_rebased_tabs hg)
    (gs := (s.loadSections t cs).conj.map fun g => Group_rebased g now) ?_) rfl rfl rfl rfl rfl rfl
  exact forall_mem_map fun c hc => Group_rebased_tabs (h1.conj c hc)

/-- A restored team's waits, tokens and marks. -/
theorem State.awake_tabs {E : Places} {x t : Team} (h : x.Tabs E) {s : State} {cs : List Chunk} {gtc : Nat} {toks : List TokEnt}
    {rs : List Resume} :
    ({ s.tokensBack t cs { Team_waitsNow x gtc with
          groups := (Team_waitsNow x gtc).groups.map (fun g => Group_marksNow g gtc),
          conj := (Team_waitsNow x gtc).conj.map fun g => Group_marksNow g gtc } with
        toks := toks, resumes := rs, preempt := false } : Team).Tabs E := by
  have h1 := Team_waitsNow_tabs h (gtc := gtc)
  refine Team.Tabs.congr
    (State.tokensBack_tabs (Team.Tabs.withConj (h1.mapOnlyGroups (f := fun g => Group_marksNow g gtc) fun _ hg => Group_marksNow_tabs hg)
    (gs := (Team_waitsNow x gtc).conj.map fun g => Group_marksNow g gtc) ?_)) rfl rfl rfl rfl rfl rfl
  exact forall_mem_map fun c hc => Group_marksNow_tabs (h1.conj c hc)

theorem execRestore_tables {X : Nat → Places} {team core : Nat} {s : State} (hs : s.Forms X) : OutForms X (execRestore team core s) := by
  unfold execRestore
  split
  · exact .next hs
  split
  · exact .next hs
  dsimp only
  split
  · exact .next hs
  split
  · exact .next hs
  split
  · exact .next hs.applyDue.refuseRestore
  · refine .next
      (State.Forms.foldl (State.Forms.modTeam (State.Forms.modCore (State.Forms.withEscs (State.Forms.foldl (State.Forms.placeConj
      (State.Forms.seat (State.Forms.tokensOut (hs.applyDue.modTeam ?_ ?_)))) fun _ _ h => h.readSlot))) ?_ ?_) fun _ _ h => h.resumeTag)
    · exact fun _ ht => State.reloaded_tabs ht
    · exact fun _ => rfl
    · exact fun _ ht => State.awake_tabs ht
    · exact fun _ => State.tokensBack_id _ _ _ _

end Sys2Proof.Machine
end

section
namespace Sys2Proof.Machine

/-! ### Generations (R318, R331) -/

theorem State.Forms.raiseMgen {X : Nat → Places} {s : State} {by_ : Option Nat} (hs : s.Forms X) : (s.raiseMgen by_).Forms X := by
  refine State.Forms.foldl ?_ fun _ _ h => h.signal
  exact hs.congr rfl rfl rfl rfl rfl rfl

/-! ### TDI states (R308) -/

theorem State.Forms.abortWorld {X : Nat → Places} {s : State} {w : Nat} (hs : s.Forms X) : (s.abortWorld w).Forms X :=
  hs.foldl (fun _ _ h => h.abortLaunch)

theorem State.Forms.tdiError {X : Nat → Places} {s : State} {w : Nat} (hs : s.Forms X) : (s.tdiError w).Forms X := by
  unfold State.tdiError
  refine (hs.abortWorld.modWorld ?_).raiseMgen
  exact fun _ hw => (World_dropKeys_tabs hw).congr rfl

/-! ### Accesses of the device and the host -/

theorem State.Forms.devRecord {X : Nat → Places} {s : State} {queue : Nat} {r : FRec} (hs : s.Forms X) :
    (s.devRecord queue r).2.Forms X := by
  unfold State.devRecord
  dsimp only
  exact hs.fresh.pushRec

theorem State.Forms.ringFault {X : Nat → Places} {s : State} {q cls kind : Nat} {va : Dword} {lid : Nat} (hs : s.Forms X) :
    (s.ringFault q cls kind va lid).Forms X := by
  unfold State.ringFault
  exact hs.devRecord.modQueue

/-! ### Queue registers (R237, R238) -/

theorem State.Forms.lqctl {X : Nat → Places} {s : State} {fn q : Nat} {v : Dword} (hs : s.Forms X) : (s.lqctl fn q v).Forms X :=
  hs.ite (hs.tdiError.ite ((hs.ite hs.modQueue).ite (hs.modQueue.ite hs)))

theorem execLqctlWrite_tables {X : Nat → Places} {fn q : Nat} {val : Dword} {s : State} (hs : s.Forms X) :
    OutForms X (execLqctlWrite fn q val s) := by
  unfold execLqctlWrite
  split
  · exact .next hs.queueServe.lqctl
  · exact .next hs

theorem State.Forms.notify {X : Nat → Places} {s : State} {fn q : Nat} {v : Word} (hs : s.Forms X) : (s.notify fn q v).Forms X :=
  hs.modQueue.ite hs

theorem execLqnotify_tables {X : Nat → Places} {fn q : Nat} {val : Word} {s : State} (hs : s.Forms X) :
    OutForms X (execLqnotify fn q val s) := by
  unfold execLqnotify
  split
  · exact .next hs.queueServe.notify
  · exact .next hs

/-! ### Taking a record (R240, R241) -/

theorem State.Forms.dropHostLines {X : Nat → Places} {s : State} {w : Nat} (hs : s.Forms X) : (s.dropHostLines w).Forms X := by
  refine ⟨hs.seals, hs.lastW, hs.worlds, tabRises_map (fun c => ?_) hs.cores, hs.free, hs.teams, hs.ids, hs.below⟩
  split <;> rfl

theorem State.Forms.acceptHeader {X : Nat → Places} {s : State} {x : Queue} {l : Launch} (hs : s.Forms X) :
    (s.acceptHeader x l).2.Forms X := by
  unfold State.acceptHeader
  dsimp only
  split
  · exact hs.devRecord
  split
  · exact hs
  split
  · exact hs
  · exact hs

theorem execLaunchRecordTake_tables {X : Nat → Places} {q : Nat} {s : State} (hs : s.Forms X) : OutForms X (execLaunchRecordTake q s) := by
  unfold execLaunchRecordTake
  split
  · exact .next hs
  dsimp only
  split
  · exact .next hs.applyDue.ringFault
  split
  · exact .next hs
  split
  · exact .next hs.applyDue.fresh.modQueue.dropHostLines.withLaunches
  · exact .next hs.applyDue.fresh.modQueue.dropHostLines.acceptHeader.withLaunches

/-! ### Waits and migration (R245, R246) -/

theorem State.Forms.askMigration {X : Nat → Places} {s : State} {l : Launch} (hs : s.Forms X) : (s.askMigration l).2.Forms X :=
  State.Forms.foldl_snd hs (fun _ _ h => h.devRecord)

theorem execLaunchWaitCheck_tables {X : Nat → Places} {q : Nat} {s : State} (hs : s.Forms X) : OutForms X (execLaunchWaitCheck q s) := by
  unfold execLaunchWaitCheck
  split
  · exact .next hs
  dsimp only
  split
  · exact .next hs.applyDue.askMigration.modLaunch
  · exact .next hs

/-! ### Placement (R247) -/

/-- A team comes, under the next number. -/
theorem State.Forms.addTeam {X : Nat → Places} {s : State} (hs : s.Forms X) {x : Team} (hx : ∀ {E : Places}, x.Tabs E)
    (hid : x.id = s.nextTeam) :
    ({ s with teams := s.teams ++ [x], nextTeam := s.nextTeam + 1 } : State).Forms X := by
  refine ⟨hs.seals, hs.lastW, hs.worlds, hs.cores, hs.free, fun t ht => ?_, ?_, fun t ht => ?_⟩
  · rcases List.mem_append.mp ht with ht | ht
    · exact hs.teams t ht
    · exact List.mem_singleton.mp ht ▸ hx
  · have hnew : ∀ t ∈ s.teams, t.id ≠ x.id := fun t ht => by have := hs.below t ht; omega
    rw [List.map_append, List.nodup_append]
    refine ⟨hs.ids, by simp, fun a ha b hb => ?_⟩
    obtain ⟨t, ht, rfl⟩ := List.mem_map.mp ha
    rw [List.map_singleton, List.mem_singleton] at hb
    exact hb ▸ hnew t ht
  · rcases List.mem_append.mp ht with ht | ht
    · exact Nat.lt_succ_of_lt (hs.below t ht)
    · rw [List.mem_singleton.mp ht, hid]
      exact Nat.lt_succ_self _

theorem State.Forms.placeTeam {X : Nat → Places} {s : State} {l : Launch} {core slot : Nat} (hs : s.Forms X) :
    (s.placeTeam l core slot).Forms X := (hs.modLaunch.modQueue).addTeam (newTeam_tabs _ _ _ _ _) rfl

theorem State.Forms.tryPlace {X : Nat → Places} {s : State} {cs : List Nat} {l : Launch} {t : State} (hs : s.Forms X)
    (e : s.tryPlace cs l = some t) : t.Forms X := by
  unfold State.tryPlace at e
  dsimp only at e
  generalize (if l.r.c = 1 then _ else _ : Option (List Nat)) = cores at e
  cases cores with
  | none => cases e
  | some cores =>
    dsimp only at e
    split at e
    · cases e
    · cases e
      exact hs.foldl fun _ _ h => h.placeTeam

theorem State.Forms.tryRestore {X : Nat → Places} {s t : State} {cs : List Nat} {x : Team} (hs : s.Forms X)
    (e : s.tryRestore cs x = some t) :
    t.Forms X := by
  obtain ⟨c, _, rfl⟩ := Option.map_eq_some_iff.mp e
  exact hs.modTeam (fun _ ht => ht.congr rfl rfl rfl rfl rfl rfl) fun _ => rfl

/-! ### Decisions (R250, R251) -/

theorem State.Forms.decideFor {X : Nat → Places} {s : State} {w : Nat} {t : State} (hs : s.Forms X) (e : s.decideFor w = some t) :
    t.Forms X := by
  unfold State.decideFor at e
  split at e
  · cases e
  dsimp only at e
  split at e
  · next hr =>
    cases e
    obtain ⟨x, _, hx⟩ := List.exists_of_findSome?_eq_some hr
    exact hs.tryRestore hx
  · obtain ⟨x, _, hx⟩ := List.exists_of_findSome?_eq_some e
    exact hs.tryPlace hx

theorem State.Forms.decideFrom {X : Nat → Places} {s : State} {w left n : Nat} (hs : s.Forms X) : (s.decideFrom w left n).Forms X := by
  induction n generalizing w left with
  | zero => exact hs.congr rfl rfl rfl rfl rfl rfl
  | succ n ih =>
    unfold State.decideFrom
    split
    · exact ih
    · next r hr => exact (hs.decideFor hr).congr rfl rfl rfl rfl rfl rfl

theorem execDispatchDecision_tables {X : Nat → Places} {s : State} (hs : s.Forms X) : OutForms X (execDispatchDecision s) := by
  unfold execDispatchDecision
  split
  · exact .next hs.decideFrom
  · exact .next hs

/-! ### The holder of the shared cores (R252) -/

theorem State.Forms.evictTeams {X : Nat → Places} {s : State} (hs : s.Forms X) : (s.evictTeams).Forms X := by
  refine hs.mapTeams (fun t ht => ?_) fun t => ?_
  · split
    · split
      · exact ht.congr rfl rfl rfl rfl rfl rfl
      · exact ht
    · split
      · exact ht.congr rfl rfl rfl rfl rfl rfl
      · exact ht
    · split
      · exact ht.congr rfl rfl rfl rfl rfl rfl
      · exact ht
    · exact ht
  · repeat' split
    all_goals rfl

theorem State.Forms.beginSlice {X : Nat → Places} {s : State} (hs : s.Forms X) : (s.beginSlice).Forms X := by
  unfold State.beginSlice
  split
  · split
    · exact hs
    · exact hs.congr rfl rfl rfl rfl rfl rfl
  · exact hs

theorem State.Forms.handOver {X : Nat → Places} {s : State} {h old : Option Nat} (hs : s.Forms X) : (s.handOver h old).Forms X := by
  have h1 : ∀ {h o : Option Nat} {n : Nat}, ({ s with holder := h, handing := o, sliceEnd := n } : State).Forms X :=
    hs.congr rfl rfl rfl rfl rfl rfl
  exact State.Forms.beginSlice (State.Forms.evictTeams h1)

theorem State.Forms.sliceTurn {X : Nat → Places} {s : State} (hs : s.Forms X) : (s.sliceTurn).Forms X := by
  unfold State.sliceTurn
  dsimp only
  split
  · exact hs.beginSlice
  split
  · exact hs.beginSlice
  split
  · exact hs.beginSlice.handOver
  · exact hs.beginSlice.congr rfl rfl rfl rfl rfl rfl

theorem execSliceEnd_tables {X : Nat → Places} {s : State} (hs : s.Forms X) : OutForms X (execSliceEnd s) := .next hs.sliceTurn

theorem State.Forms.rehold {X : Nat → Places} {s : State} (hs : s.Forms X) : (s.rehold).Forms X := by
  unfold State.rehold
  dsimp only
  split
  · split
    · exact hs.evictTeams
    split
    · exact hs.handOver
    · exact hs.handOver
  split
  · exact hs.evictTeams
  split
  · exact hs.handOver
  · exact hs.handOver

theorem execFcoresWrite_tables {X : Nat → Places} {world j : Nat} {val : Dword} {s : State} (hs : s.Forms X) :
    OutForms X (execFcoresWrite world j val s) := by
  unfold execFcoresWrite
  dsimp only
  split
  · exact .next hs
  split
  · exact .next hs.tdiError
  split
  · exact .next hs
  split
  · exact .next hs
  refine .next (((hs.modWorld ?_).raiseMgen).rehold)
  exact fun _ hw => hw.congr rfl

/-! ### Completion (R242) -/

theorem State.Forms.signalLaunch {X : Nat → Places} {s : State} {l : Launch} {a : Nat} (hs : s.Forms X) : (s.signalLaunch l a).Forms X := by
  unfold State.signalLaunch
  split
  · exact hs.signalEvent
  · exact hs

theorem execLaunchCompletion_tables {X : Nat → Places} {launch : Nat} {s : State} (hs : s.Forms X) :
    OutForms X (execLaunchCompletion launch s) := by
  unfold execLaunchCompletion
  split
  · exact .next hs
  extract_lets x tc va evs s1
  have h1 : s1.Forms X := hs.withLaunches.modWorld fun _ hw => World_keepErr_tabs hw
  split
  · exact .next hs
  split
  · exact .next h1.ringFault.signalLaunch
  split
  · exact .next hs
  · exact .next h1.fresh.arriveAt.signalLaunch

theorem execEventSignal_tables {X : Nat → Places} {world ev : Nat} {s : State} (hs : s.Forms X) :
    OutForms X (execEventSignal world ev s) := by
  unfold execEventSignal
  dsimp only
  split
  · exact .next hs.signalEvent.serve
  · exact .next hs

/-! ### Frames (R288) -/

theorem execKvpush_tables {X : Nat → Places} {world : Nat} {tier : Bool} {cls : BitVec 2} {val : Dword} {s : State} (hs : s.Forms X) :
    OutForms X (execKvpush world tier cls val s) := by
  unfold execKvpush
  split
  · exact .next hs.tdiError
  · exact .next hs.pushFrame

theorem execKvrclWrite_tables {X : Nat → Places} {world : Nat} {val : Dword} {s : State} (hs : s.Forms X) :
    OutForms X (execKvrclWrite world val s) := by
  unfold execKvrclWrite
  split
  · exact .next hs.tdiError
  refine .next (hs.modWorld ?_)
  exact fun _ hw => hw.congr rfl

end Sys2Proof.Machine
end

section
namespace Sys2Proof.Machine

/-! ### Power and PERST# (R304) -/

theorem State.Forms.stopped {X : Nat → Places} {s : State} (hs : s.Forms X) : (s.stopped).Forms X :=
  ⟨hs.seals, .nil, .nil, .nil, by simp [State.stopped, State.reset], by simp [State.stopped, State.reset], by simp
    [State.stopped, State.reset],
  by simp [State.stopped, State.reset]⟩

theorem execPerstAssert_tables {X : Nat → Places} {s : State} (hs : s.Forms X) : OutForms X (execPerstAssert s) := .next hs.stopped

theorem execPerstDeassert_tables {X : Nat → Places} {s : State} (hs : s.Forms X) : OutForms X (execPerstDeassert s) := by
  unfold execPerstDeassert
  split
  · exact .next hs
  · exact .next (hs.congr rfl rfl rfl rfl rfl rfl)

/-! ### Stages (R304, R305) -/

theorem State.Forms.endStage {X : Nat → Places} {s : State} {n : Nat} {ok : Bool} {unit : BitVec 5} {f : State → State} (hs : s.Forms X)
    (h_f : ∀ s : State, s.Forms X → (f s).Forms X) : OutForms X (s.endStage n ok unit f) := by
  unfold State.endStage
  split
  · exact .next hs
  split
  · exact .next (h_f _ hs.withStage)
  · exact .next (hs.congr rfl rfl rfl rfl rfl rfl)

theorem execFirmwareCheck_tables {X : Nat → Places} {ok : Bool} {unit : BitVec 5} {s : State} (hs : s.Forms X) :
    OutForms X (execFirmwareCheck ok unit s) := hs.endStage (fun _ h => h)

theorem execPllLock_tables {X : Nat → Places} {ok : Bool} {unit : BitVec 5} {s : State} (hs : s.Forms X) :
    OutForms X (execPllLock ok unit s) := hs.endStage (fun _ h => h)

theorem execHbmTraining_tables {X : Nat → Places} {ok : Bool} {unit : BitVec 5} {s : State} (hs : s.Forms X) :
    OutForms X (execHbmTraining ok unit s) := hs.endStage (fun _ h => h)

theorem State.Forms.zeroed {X : Nat → Places} {s : State} (hs : s.Forms X) : (s.zeroed).Forms X :=
  ⟨.nil, .nil, hs.worlds, tabRises_map (fun _ => rfl) hs.cores, hs.free, hs.teams, hs.ids, hs.below⟩

theorem execMemoryZeroing_tables {X : Nat → Places} {ok : Bool} {unit : BitVec 5} {s : State} (hs : s.Forms X) :
    OutForms X (execMemoryZeroing ok unit s) := hs.endStage (fun _ h => h.zeroed)

theorem execGtcStart_tables {X : Nat → Places} {ok : Bool} {unit : BitVec 5} {s : State} (hs : s.Forms X) :
    OutForms X (execGtcStart ok unit s) := hs.endStage (fun _ h => h.congr rfl rfl rfl rfl rfl rfl)

theorem execConfigurationRequest_tables {X : Nat → Places} {s : State} (hs : s.Forms X) : OutForms X (execConfigurationRequest s) := by
  unfold execConfigurationRequest
  split
  · exact .next hs
  · exact .next (hs.congr rfl rfl rfl rfl rfl rfl)

/-! ### Links and firmware -/

theorem execHostLinkDown_tables {X : Nat → Places} {link : Bool} {s : State} (hs : s.Forms X) : OutForms X (execHostLinkDown link s) :=
  .next (hs.congr rfl rfl rfl rfl rfl rfl)

theorem execHostLinkUp_tables {X : Nat → Places} {link : Bool} {s : State} (hs : s.Forms X) : OutForms X (execHostLinkUp link s) :=
  .next (hs.congr rfl rfl rfl rfl rfl rfl)

theorem execFirmwareActivation_tables {X : Nat → Places} {s : State} (hs : s.Forms X) : OutForms X (execFirmwareActivation s) := by
  unfold execFirmwareActivation
  split
  · exact .next hs.raiseMgen
  · exact .next hs

theorem State.Forms.answer {X : Nat → Places} {s : State} {a : Answer} (hs : s.Forms X) : (s.answer a).Forms X :=
  hs.congr rfl rfl rfl rfl rfl rfl

/-! ### Sessions -/

theorem State.Forms.dropSession {X : Nat → Places} {s : State} {id : Nat} (hs : s.Forms X) : (s.dropSession id).Forms X := hs.withSessions

theorem State.Forms.inSession {X : Nat → Places} {s : State} {id : Nat} {f : Session → State → State} (hs : s.Forms X)
    (h_f : ∀ x (s : State), s.Forms X → (f x s).Forms X) : (s.inSession id f).Forms X := by
  unfold State.inSession
  split
  · exact hs.answer
  split
  · exact hs.dropSession.answer
  · exact h_f _ _ hs

/-! ### SPDM requests (R317) -/

theorem State.Forms.spdmAnswer {X : Nat → Places} {s : State} {code sess : Nat} (hs : s.Forms X) : (s.spdmAnswer code sess).Forms X :=
  hs.withFree.answer

theorem State.Forms.spdm {X : Nat → Places} {s : State} {f : State → State} (hs : s.Forms X) (h_f : ∀ s : State, s.Forms X → (f s).Forms X)
    : OutForms X (s.spdm f) := by
  unfold State.spdm
  split
  · exact .next hs
  · exact .next ((h_f _ hs).ite hs.answer)

theorem execGetVersion_tables {X : Nat → Places} {s : State} (hs : s.Forms X) : OutForms X (execGetVersion s) := by
  unfold execGetVersion
  split
  · exact .next hs.spdmAnswer
  · exact .next hs

theorem execGetCapabilities_tables {X : Nat → Places} {s : State} (hs : s.Forms X) : OutForms X (execGetCapabilities s) := by
  unfold execGetCapabilities
  split
  · exact .next hs.spdmAnswer
  · exact .next hs

theorem execNegotiateAlgorithms_tables {X : Nat → Places} {s : State} (hs : s.Forms X) : OutForms X (execNegotiateAlgorithms s) :=
  hs.spdm (fun _ h => h.spdmAnswer)

theorem execGetDigests_tables {X : Nat → Places} {s : State} (hs : s.Forms X) : OutForms X (execGetDigests s) :=
  hs.spdm (fun _ h => h.spdmAnswer)

theorem execGetCertificate_tables {X : Nat → Places} {s : State} (hs : s.Forms X) : OutForms X (execGetCertificate s) :=
  hs.spdm (fun _ h => h.spdmAnswer)

theorem execChallenge_tables {X : Nat → Places} {s : State} (hs : s.Forms X) : OutForms X (execChallenge s) :=
  hs.spdm (fun _ h => h.spdmAnswer)

theorem State.Forms.reported {X : Nat → Places} {new old : State} {w : Nat} (hs : new.Forms X) : (new.reported old w).Forms X := by
  unfold State.reported
  exact hs.raiseMgen.ite hs

theorem execGetMeasurements_tables {X : Nat → Places} {index : Nat} {s : State} (hs : s.Forms X) :
    OutForms X (execGetMeasurements index s) := by
  unfold execGetMeasurements
  refine hs.spdm ?_
  intro _ h
  split
  · exact h.answer
  · exact h.answer

theorem execKeyExchange_tables {X : Nat → Places} {s : State} (hs : s.Forms X) : OutForms X (execKeyExchange s) :=
  hs.spdm (fun _ h => h.answer.ite h.withSessions.spdmAnswer)

theorem execFinish_tables {X : Nat → Places} {sess : Nat} {s : State} (hs : s.Forms X) : OutForms X (execFinish sess s) :=
  hs.spdm (fun _ h => h.inSession (fun _ _ h1 => h1.answer.ite h1.withSessions.spdmAnswer))

theorem execHeartbeat_tables {X : Nat → Places} {sess : Nat} {s : State} (hs : s.Forms X) : OutForms X (execHeartbeat sess s) :=
  hs.spdm (fun _ h => h.inSession (fun _ _ h1 => h1.spdmAnswer))

theorem execKeyUpdate_tables {X : Nat → Places} {sess : Nat} {s : State} (hs : s.Forms X) : OutForms X (execKeyUpdate sess s) :=
  hs.spdm (fun _ h => h.inSession (fun _ _ h1 => h1.spdmAnswer))

theorem execEndSession_tables {X : Nat → Places} {sess : Nat} {s : State} (hs : s.Forms X) : OutForms X (execEndSession sess s) :=
  hs.spdm (fun _ h => h.inSession (fun _ _ h1 => h1.dropSession.spdmAnswer))

/-! ### TDISP (R305, R308, R318) -/

theorem State.Forms.tdisp {X : Nat → Places} {s : State} {world sess : Nat} {ok : Tdi → Bool} {f : State → State} (hs : s.Forms X)
    (h_f : ∀ s : State, s.Forms X → (f s).Forms X) : OutForms X (s.tdisp world sess ok f) := by
  unfold State.tdisp
  split
  · exact .next hs
  split
  · exact .next hs.answer
  · exact .next (hs.inSession (fun _ _ h => ((h_f _ h).answer).ite h.answer))

theorem State.Forms.sessionWorld {X : Nat → Places} {s : State} {sess world : Nat} (hs : s.Forms X) : (s.sessionWorld sess world).Forms X :=
  hs.withSessions

theorem execLockInterface_tables {X : Nat → Places} {world sess : Nat} {s : State} (hs : s.Forms X) :
    OutForms X (execLockInterface world sess s) := by
  unfold execLockInterface
  refine hs.tdisp ?_
  intro _ h
  dsimp only
  refine ((h.fresh.modWorld ?_).sessionWorld).raiseMgen
  exact fun _ hw => hw.congr rfl

theorem execStartInterface_tables {X : Nat → Places} {world sess : Nat} {s : State} (hs : s.Forms X) :
    OutForms X (execStartInterface world sess s) := by
  unfold execStartInterface
  refine hs.tdisp ?_
  intro _ h
  refine ((h.modWorld ?_).sessionWorld).raiseMgen
  exact fun _ hw => hw.congr rfl

theorem State.Forms.unlock {X : Nat → Places} {s : State} {world : Nat} {by_ : Option Nat} (hs : s.Forms X) :
    (s.unlock world by_).Forms X := by
  unfold State.unlock
  refine hs.ite ((hs.modWorld ?_).raiseMgen)
  exact fun _ hw => (World_dropKeys_tabs hw).congr rfl

theorem execStopInterface_tables {X : Nat → Places} {world sess : Nat} {s : State} (hs : s.Forms X) :
    OutForms X (execStopInterface world sess s) := hs.tdisp (fun _ h => h.unlock)

theorem execFunctionLevelReset_tables {X : Nat → Places} {world : Nat} {s : State} (hs : s.Forms X) :
    OutForms X (execFunctionLevelReset world s) := by
  unfold execFunctionLevelReset
  split
  · exact .next hs.abortWorld.unlock
  · exact .next hs

theorem execIdeIntegrityFailure_tables {X : Nat → Places} {world : Nat} {s : State} (hs : s.Forms X) :
    OutForms X (execIdeIntegrityFailure world s) := by
  unfold execIdeIntegrityFailure
  split
  · exact .next hs.tdiError
  · exact .next hs

/-! ### L2 ways (R319) -/

theorem State.Forms.setL2ways {X : Nat → Places} {s : State} {world : Nat} {v : Dword} (hs : s.Forms X) :
    (s.setL2ways world v).Forms X := by
  unfold State.setL2ways
  refine hs.tdiError.ite (hs.ite ((hs.modWorld ?_).reported))
  exact fun _ hw => hw.congr rfl

theorem execL2waysWrite_tables {X : Nat → Places} {world : Nat} {val : Dword} {s : State} (hs : s.Forms X) :
    OutForms X (execL2waysWrite world val s) := by
  unfold execL2waysWrite
  split
  · exact .next hs.setL2ways
  · exact .next hs

theorem State.Forms.setMig {X : Nat → Places} {s : State} {w : Nat} {m : Mig} (hs : s.Forms X) : (s.setMig w m).Forms X := by
  unfold State.setMig
  refine (hs.modWorld ?_).signal
  exact fun _ hw => hw.congr rfl

theorem State.Forms.dropWorld {X : Nat → Places} {s : State} {w : Nat} (hs : s.Forms X) : (s.dropWorld w).Forms X :=
  (hs.dropTeams fun t => decide (s.worldOf t ≠ w)).congr rfl rfl rfl rfl rfl rfl

theorem State.Forms.putBuffer {X : Nat → Places} {s : State} {pa : Nat} {bs : List Byte} (hs : s.Forms X) : (s.putBuffer pa bs).Forms X :=
  hs.putNow.ite (hs.foldl (fun _ _ h => h.putNow.ite h))

theorem State.Forms.intoBuffer {X : Nat → Places} {s : State} {w : Nat} {bs : List Byte} {f : State → State} (hs : s.Forms X)
    (h_f : ∀ s : State, s.Forms X → (f s).Forms X) : OutForms X (s.intoBuffer w bs f) := by
  unfold State.intoBuffer
  dsimp only
  split
  · exact .next (h_f _ hs.putBuffer)
  · exact .next hs

/-! ### Commands -/

theorem State.Forms.exportBegin {X : Nat → Places} {s : State} {w : Nat} (hs : s.Forms X) : (s.exportBegin w).Forms X := by
  have h1 : (s.modWorld w fun x => { x with migGo := true }).Forms X := hs.modWorldRest fun _ => rfl
  refine (h1.mapTeams (f := fun t => if s.worldOf t = w then
      (match t.place with
       | .restoring => { t with place := .saved }
       | .saved => t
       | _ => { t with preempt := true }) else t) (fun t ht => ?_) fun t => ?_).congr rfl rfl rfl rfl rfl rfl
  · split
    · split
      · exact ht.congr rfl rfl rfl rfl rfl rfl
      · exact ht
      · exact ht.congr rfl rfl rfl rfl rfl rfl
    · exact ht
  · split
    · split <;> rfl
    · rfl

theorem State.Forms.exportEnd {X : Nat → Places} {s : State} {w : Nat} (hs : s.Forms X) : OutForms X (s.exportEnd w) := by
  unfold State.exportEnd
  refine hs.intoBuffer ?_
  intro _ h
  refine ((h.dropWorld.withNextId.modWorld ?_).reported).setMig
  exact fun _ hw => (World_dropKeys_tabs hw).congr rfl

theorem execMigExport_tables {X : Nat → Places} {world : Nat} {s : State} (hs : s.Forms X) : OutForms X (execMigExport world s) := by
  unfold execMigExport
  dsimp only
  split
  · exact .next hs
  split
  · split
    · exact hs.exportEnd
    · exact .next hs
  split
  · exact hs.exportBegin.exportEnd
  · exact .next hs.exportBegin

/-- A package's world is taken over, but for what a device keeps of its own. -/
def World_taken (ws : List World) (x : World) : World :=
  match ws with
  | [] => x
  | y :: _ => { y with mig := x.mig, migsess := x.migsess, migwin := x.migwin, migbuf := x.migbuf, miglen := x.miglen, migEnd := x.migEnd,
                       migNo := x.migNo, migGo := x.migGo, msix := x.msix, msiPend := x.msiPend, held := x.held }

theorem World_taken_tabs {ws : List World} {x : World} (hx : x.Tabs) (hw : ∀ y ∈ ws, y.Tabs) : (World_taken ws x).Tabs := by
  cases ws with
  | nil => exact hx
  | cons y ys => exact (hw y List.mem_cons_self).congr rfl

/-- A package's queue is taken over, where the device's is free or the world's own. -/
def State.takeQueue (w : Nat) (s : State) (q : Nat × Queue) : State :=
  let old := s.queue q.1
  if decide (q.1 < 1024) && decide (q.2.slots ≠ 0) && (decide (old.slots = 0) || decide (old.owner = w)) then
    s.modQueue q.1 fun _ => { q.2 with owner := w, en := false }
  else s

/-- The machine with a package's world, frames and queues. -/
def State.packageTaken (s : State) (w : Nat) (p : Package) : State :=
  p.queues.foldl (State.takeQueue w) (p.frames.foldl (fun s f => if physExists f.1 f.2.length then s.putNow none f.1 f.2 else s)
    (s.modWorld w (World_taken p.world)))

theorem State.Forms.packageTaken {X : Nat → Places} {s : State} (hs : s.Forms X) {w : Nat} {p : Package} (hw : ∀ y ∈ p.world, y.Tabs) :
    (s.packageTaken w p).Forms X := by
  refine State.Forms.foldl (State.Forms.foldl (hs.modWorld fun _ hx => World_taken_tabs hx hw) fun _ _ h => h.putNow.ite h) fun u q h => ?_
  exact h.modQueue.ite h

theorem State.loadPackage_eq (s : State) (w : Nat) (p : Package) : s.loadPackage w p =
    { s.packageTaken w p with
      nextId := s.nextId + p.launches.length,
      launches := (s.packageTaken w p).launches ++ (p.launches.zipIdx).map (fun l => { l.1 with id := s.nextId + l.2, world := w }),
      nextTeam := (s.packageTaken w p).nextTeam + p.teams.length,
      teams := (s.packageTaken w p).teams ++ (p.teams.zipIdx).map fun t =>
        { t.1 with id := (s.packageTaken w p).nextTeam + t.2, launch := s.nextId + t.1.launch, place := .saved, preempt := false } } := rfl

/-- Teams come, under the next numbers. -/
theorem State.Forms.addTeams {X : Nat → Places} {s : State} (hs : s.Forms X) {xs : List Team} (hx : ∀ x ∈ xs, ∀ {E : Places}, x.Tabs E)
    {f : Team × Nat → Team} (hf : ∀ {E : Places} (x : Team) i, x.Tabs E → (f (x, i)).Tabs E) (hid : ∀ p, (f p).id = s.nextTeam + p.2) :
    ({ s with nextTeam := s.nextTeam + xs.length, teams := s.teams ++ xs.zipIdx.map f } : State).Forms X := by
  have hids : (xs.zipIdx.map f).map (·.id) = List.range' s.nextTeam xs.length := by
    rw [List.map_map]
    have : (fun x => x.id) ∘ f = (fun i => s.nextTeam + i) ∘ Prod.snd := funext hid
    rw [this, ← List.map_map, List.zipIdx_map_snd, ← List.range_eq_range', List.range'_eq_map_range]
  have hnew : ∀ t ∈ xs.zipIdx.map f, s.nextTeam ≤ t.id ∧ t.id < s.nextTeam + xs.length := fun t ht => by
    have : t.id ∈ List.range' s.nextTeam xs.length := hids ▸ List.mem_map_of_mem ht
    simpa [List.mem_range'_1] using this
  refine ⟨hs.seals, hs.lastW, hs.worlds, hs.cores, hs.free, fun t ht => ?_, ?_, fun t ht => ?_⟩
  · rcases List.mem_append.mp ht with ht | ht
    · exact hs.teams t ht
    · obtain ⟨p, hp, rfl⟩ := List.mem_map.mp ht
      exact hf _ _ (hx _ (List.fst_mem_of_mem_zipIdx hp))
  · rw [List.map_append, List.nodup_append]
    refine ⟨hs.ids, hids ▸ List.nodup_range', fun a ha b hb => ?_⟩
    obtain ⟨t, ht, rfl⟩ := List.mem_map.mp ha
    obtain ⟨u, hu, rfl⟩ := List.mem_map.mp hb
    have := hs.below t ht
    have := (hnew u hu).1
    omega
  · rcases List.mem_append.mp ht with ht | ht
    · exact Nat.lt_of_lt_of_le (hs.below t ht) (Nat.le_add_right _ _)
    · exact (hnew t ht).2

theorem State.Forms.loadPackage {X : Nat → Places} {s : State} {w : Nat} {p : Package} (hs : s.Forms X) (hp : Package_wf p = true) :
    (s.loadPackage w p).Forms X := by
  obtain ⟨hw, ht⟩ := Bool.and_eq_true_iff.mp hp
  have hw : ∀ y ∈ p.world, y.Tabs := fun y hy => by simpa [World.Tabs] using List.all_eq_true.mp hw y hy
  have ht : ∀ t ∈ p.teams, ∀ {E : Places}, t.Tabs E := fun t h => (Team_tabs_iff.mp (List.all_eq_true.mp ht t h)).of_all
  rw [State.loadPackage_eq]
  refine ((hs.packageTaken (w := w) hw).addTeams ht ?_ ?_).congr rfl rfl rfl rfl rfl rfl
  · exact fun _ _ h => h.congr rfl rfl rfl rfl rfl rfl
  · exact fun _ => rfl

theorem execMigImport_tables {X : Nat → Places} {world : Nat} {s : State} (hs : s.Forms X) : OutForms X (execMigImport world s) := by
  unfold execMigImport
  dsimp only
  split
  · exact .next hs
  split
  · exact .next hs.setMig
  split
  · exact .next hs.setMig
  · refine State.Forms.intoBuffer hs fun u hu => State.Forms.setMig (State.Forms.reported (State.Forms.modWorldRest ?_ fun _ => rfl))
    split
    · next hp => exact hu.loadPackage (List.find?_some hp)
    · exact hu

theorem execMigConfirm_tables {X : Nat → Places} {world : Nat} {s : State} (hs : s.Forms X) : OutForms X (execMigConfirm world s) := by
  unfold execMigConfirm
  dsimp only
  split
  · exact hs.intoBuffer (fun _ h => h.setMig)
  · exact .next hs

theorem execMigRelease_tables {X : Nat → Places} {world : Nat} {s : State} (hs : s.Forms X) : OutForms X (execMigRelease world s) := by
  unfold execMigRelease
  dsimp only
  split
  · exact .next hs.setMig
  · exact .next hs

theorem execMigClear_tables {X : Nat → Places} {world : Nat} {s : State} (hs : s.Forms X) : OutForms X (execMigClear world s) := by
  unfold execMigClear
  split
  · split
    · exact .next hs.setMig
    · exact .next hs
  · split
    · exact .next hs.setMig
    · exact .next hs
  · split
    · exact .next hs.setMig
    · exact .next hs
  · exact .next hs

/-! ### Windows -/

theorem execMigrationExpiry_tables {X : Nat → Places} {world : Nat} {s : State} (hs : s.Forms X) :
    OutForms X (execMigrationExpiry world s) := by
  unfold execMigrationExpiry
  dsimp only
  split
  · exact .next hs.setMig
  · exact .next hs

theorem State.Forms.eraseQueues {X : Nat → Places} {s : State} {w : Nat} (hs : s.Forms X) : (s.eraseQueues w).Forms X := hs.withQueues

theorem execMigrationDeadline_tables {X : Nat → Places} {world : Nat} {s : State} (hs : s.Forms X) :
    OutForms X (execMigrationDeadline world s) := by
  unfold execMigrationDeadline
  dsimp only
  split
  · refine .next (State.Forms.setMig (State.Forms.reported (hs.dropWorld.eraseQueues.modWorld ?_)))
    exact fun x _ => World_erase_tabs x
  · exact .next hs

/-! ### Ingress -/

theorem execFabricIngressRequest_tables {X : Nat → Places} {port sdev sworld : Nat} {va : Dword} {n op : Nat} {data : List Byte} {s : State}
    (hs : s.Forms X) : OutForms X (execFabricIngressRequest port sdev sworld va n op data s) := by
  unfold execFabricIngressRequest
  dsimp only
  split
  · exact .next hs
  split
  · exact .next hs.applyDue.answer
  split
  · exact .next hs
  split
  · exact .next hs.applyDue.serve.answer
  · exact .next hs.applyDue.serve.fresh.arrive.answer
  · exact .next hs.applyDue.serve.fresh.arrive

/-! ### Replies (R189, R209, R210) -/

theorem State.Forms.remoteDone {X : Nat → Places} {s : State} {r : Remote} {data : List Byte} {w : Nat} (hs : s.Forms X) :
    (s.remoteDone r data w).Forms X := ((hs.withEgress.foldl (fun _ _ h => h.deliver)).settle).lateDone

theorem State.Forms.loopBack {X : Nat → Places} {s : State} {r : Remote} (hs : s.Forms X) : (s.loopBack r).Forms X := by
  unfold State.loopBack
  split
  · exact hs.remoteFault
  dsimp only
  split
  · exact hs
  split
  · exact hs.serve.remoteDone
  · exact hs.serve.withEgress.arriveAt.homeLanes.lateDone

theorem execRemoteReply_tables {X : Nat → Places} {id : Nat} {err : Option Nat} {data : List Byte} {w : Dword} {s : State} (hs : s.Forms X)
    : OutForms X (execRemoteReply id err data w s) := by
  unfold execRemoteReply
  split
  · exact .next hs
  split
  · exact .next hs
  split
  · exact .next ((hs.applyDue.foldl (fun _ _ h => h.loopBack)).ite hs)
  split
  · exact .next hs.remoteFault
  split
  · exact .next hs.remoteDone
  · exact .next hs

/-! ### Ports (R323, R325, R327) -/

theorem execPortDown_tables {X : Nat → Places} {port : Nat} {s : State} (hs : s.Forms X) : OutForms X (execPortDown port s) := by
  unfold execPortDown
  split
  · exact .next hs.modPort.signal
  · exact .next hs

theorem execPortUp_tables {X : Nat → Places} {port : Nat} {s : State} (hs : s.Forms X) : OutForms X (execPortUp port s) := by
  unfold execPortUp
  split
  · exact .next hs.modPort.signal
  · exact .next hs

theorem execTimeSync_tables {X : Nat → Places} {port : Nat} {now : Dword} {s : State} (hs : s.Forms X) :
    OutForms X (execTimeSync port now s) := by
  unfold execTimeSync
  dsimp only
  split
  · have h1 : ∀ {f : Port → Port} {t n : Nat} {l : Tab Served},
      ({ s.modPort port f with gtc := t, served := l, free := n } : State).Forms X :=
      (hs.modPort (k := port) (f := id)).congr rfl rfl rfl rfl rfl rfl
    exact .next h1.applyDue
  · exact .next hs

theorem execLaneSample_tables {X : Nat → Places} {port : Nat} {lanes : List (Nat × Nat)} {s : State} (hs : s.Forms X) :
    OutForms X (execLaneSample port lanes s) := by
  unfold execLaneSample
  split
  · exact .next hs
  · exact .next (hs.modPort.signal.ite hs.modPort)

theorem State.Forms.spareLane {X : Nat → Places} {s : State} {port i : Nat} (hs : s.Forms X) : (s.spareLane port i).Forms X :=
  hs.modPort.signal

theorem execQuietPoint_tables {X : Nat → Places} {port : Nat} {s : State} (hs : s.Forms X) : OutForms X (execQuietPoint port s) := by
  unfold execQuietPoint
  split
  · split
    · exact .next hs.spareLane
    · exact .next hs
  · exact .next hs

theorem execForcedIdleGap_tables {X : Nat → Places} {port : Nat} {s : State} (hs : s.Forms X) : OutForms X (execForcedIdleGap port s) := by
  unfold execForcedIdleGap
  split
  · split
    · exact .next hs.spareLane
    · exact .next hs
  · exact .next hs

theorem execDvfsWindow_tables {X : Nat → Places} {points temp : BitVec 16} {s : State} (hs : s.Forms X) :
    OutForms X (execDvfsWindow points temp s) := by
  unfold execDvfsWindow
  split
  · exact .next (hs.congr rfl rfl rfl rfl rfl rfl)
  · exact .next hs

theorem execThermalThrottle_tables {X : Nat → Places} {s : State} (hs : s.Forms X) : OutForms X (execThermalThrottle s) := by
  unfold execThermalThrottle
  split
  · exact .next hs.withPoint.signal
  · exact .next hs

theorem State.Forms.haltAccesses {X : Nat → Places} {s : State} (hs : s.Forms X) : (s.haltAccesses).Forms X :=
  hs.congr rfl rfl rfl rfl rfl rfl

theorem execThermalTrip_tables {X : Nat → Places} {s : State} (hs : s.Forms X) : OutForms X (execThermalTrip s) := by
  unfold execThermalTrip
  dsimp only
  split
  · refine .next (State.Forms.signal ?_)
    exact (State.Forms.haltAccesses (hs.foldl fun _ _ h => h.abortLaunch)).congr rfl rfl rfl rfl rfl rfl
  · exact .next hs

end Sys2Proof.Machine
end

section
namespace Sys2Proof.Machine

/-! ### Queue registers (R237) -/

theorem State.Forms.queueWrite {X : Nat → Places} {s : State} {fn q i : Nat} {v : Dword} (hs : s.Forms X) :
    (s.queueWrite fn q i v).Forms X :=
  ((hs.queueServe.lqctl.ite hs.queueServe.notify).ite hs).ite (hs.modQueue.ite hs)

/-! ### World pages -/

theorem State.Forms.worldWrite {X : Nat → Places} {s : State} {fn w off : Nat} {v : Dword} (hs : s.Forms X) :
    OutForms X (s.worldWrite fn w off v) := by
  have hreg : ((s.modWorld w fun x => World_setReg x off v).reported s w).Forms X :=
    State.Forms.reported (hs.modWorld fun _ hx => World_setReg_tabs hx)
  have hmsix : ((s.modWorld w fun x => { x with msix := memWrite x.msix (off - 0x8000) (leBytes 8 v.toNat) }).flushVectors w).Forms X :=
    State.Forms.flushVectors (hs.modWorldRest fun _ => rfl)
  unfold State.worldWrite
  refine .ite (.next hs) (.ite (.ite (.next hs) (.next hs.ctlWrite.reported)) (.ite (.next hs) (.ite (.next hs.tdiError)
    (.ite (execFcoresWrite_tables hs) (.ite (execL2waysWrite_tables hs) (.ite (execKvpush_tables hs) (.ite (execKvrclWrite_tables hs)
    (.ite (.next hreg) (.ite ?_ (.ite (.ite (.next hs) (.next hmsix)) (.next hs)))))))))))
  split
  · exact .next hs.queueWrite
  · exact .next hs

/-! ### The device page -/

theorem State.Forms.migCmd {X : Nat → Places} {s : State} {w cmd : Nat} (hs : s.Forms X) : OutForms X (s.migCmd w cmd) := by
  unfold State.migCmd
  split
  · exact execMigExport_tables hs
  · exact execMigImport_tables hs
  · exact execMigConfirm_tables hs
  · exact execMigRelease_tables hs
  · exact execMigClear_tables hs
  · exact .next hs

theorem State.Forms.setLimit {X : Nat → Places} {s : State} {v : Dword} (hs : s.Forms X) : (s.setLimit v).Forms X := by
  unfold State.setLimit
  dsimp only
  split
  · split
    · exact hs.congr rfl rfl rfl rfl rfl rfl
    · exact hs
  split
  · exact hs.congr rfl rfl rfl rfl rfl rfl
  · exact hs

theorem State.Forms.deviceWrite {X : Nat → Places} {s : State} {off : Nat} {v : Dword} (hs : s.Forms X) :
    OutForms X (s.deviceWrite off v) := by
  have hfab : ∀ {n : Nat}, ({ s with fabid := n } : State).Forms X := hs.congr rfl rfl rfl rfl rfl rfl
  have hbind : ∀ {b : Tab Dword}, ({ s with fbind := b } : State).Forms X := hs.congr rfl rfl rfl rfl rfl rfl
  unfold State.deviceWrite
  refine .ite (.next hs) (.ite (.next hfab) (.ite (.next hs.modCore) (.ite (.next hs.modDie) (.ite (.ite hs.migCmd (.next (hs.modWorld ?_)))
    (.ite (.next hbind) (.ite (.ite (.next hs.modPort) (.next hs)) (.ite (.next hs.setLimit) (.ite (.next hs.queueWrite) (.next hs)))))))))
  exact fun _ hx => World_setMigReg_tabs hx

/-! ### BAR0 (R307) -/

theorem execRegisterWrite_tables {X : Nat → Places} {fn offset : Nat} {val : Dword} {s : State} (hs : s.Forms X) :
    OutForms X (execRegisterWrite fn offset val s) := by
  unfold execRegisterWrite
  exact .ite (.next hs) (.ite (.ite hs.worldWrite (.next hs)) (.ite hs.deviceWrite (.ite hs.worldWrite (.next hs))))

theorem execLockedRegisterWrite_tables {X : Nat → Places} {world offset : Nat} {val : Dword} {s : State} (hs : s.Forms X) :
    OutForms X (execLockedRegisterWrite world offset val s) := hs.worldWrite

/-! ### BAR2 (R309) -/

theorem State.Forms.bar2Fault {X : Nat → Places} {s : State} {fn off cls kind : Nat} (hs : s.Forms X) :
    (s.bar2Fault fn off cls kind).Forms X := hs.devRecord

theorem execBar2Read_tables {X : Nat → Places} {fn off n : Nat} {viaIde : Bool} {s : State} (hs : s.Forms X) :
    OutForms X (execBar2Read fn off n viaIde s) := by
  unfold execBar2Read
  split
  · exact .next hs
  split
  · exact .next hs.answer
  split
  · exact .next hs
  dsimp only
  split
  · exact .next hs.applyDue.bar2Fault.answer
  split
  · exact .next hs
  · exact .next hs.applyDue.serve.answer

theorem execBar2Write_tables {X : Nat → Places} {fn off : Nat} {data : List Byte} {viaIde : Bool} {s : State} (hs : s.Forms X) :
    OutForms X (execBar2Write fn off data viaIde s) := by
  unfold execBar2Write
  dsimp only
  split
  · exact .next hs
  split
  · exact .next hs.bar2Fault
  split
  · exact .next hs
  refine .next (hs.serve.fresh.arrive.modWorld ?_)
  exact fun _ hw => hw.congr rfl

end Sys2Proof.Machine
end

section
namespace Sys2Proof.Machine

theorem exec_tables {s : State} (hs : s.Forms fun _ => .all) (i : Instr) : OutForms (fun _ => .all) (exec i s) :=
  match i with
  | .mov .. => execMov_tables hs
  | .movi .. => execMovi_tables hs
  | .iadd .. => execIadd_tables hs
  | .isub .. => execIsub_tables hs
  | .imul .. => execImul_tables hs
  | .imulh .. => execImulh_tables hs
  | .imin .. => execImin_tables hs
  | .imax .. => execImax_tables hs
  | .iand .. => execIand_tables hs
  | .ior .. => execIor_tables hs
  | .ixor .. => execIxor_tables hs
  | .inot .. => execInot_tables hs
  | .shl .. => execShl_tables hs
  | .shr .. => execShr_tables hs
  | .sar .. => execSar_tables hs
  | .lea .. => execLea_tables hs
  | .fadd .. => execFadd_tables hs
  | .fsub .. => execFsub_tables hs
  | .fmul .. => execFmul_tables hs
  | .fmin .. => execFmin_tables hs
  | .fmax .. => execFmax_tables hs
  | .ftoi .. => execFtoi_tables hs
  | .itof .. => execItof_tables hs
  | .frnd .. => execFrnd_tables hs
  | .fcvtF16F32 .. => execFcvtF16F32_tables hs
  | .fcvtF32F16 .. => execFcvtF32F16_tables hs
  | .fcvtB16F32 .. => execFcvtB16F32_tables hs
  | .fcvtF32B16 .. => execFcvtF32B16_tables hs
  | .icmpI32 .. => execIcmpI32_tables hs
  | .icmpN32 .. => execIcmpN32_tables hs
  | .fcmpF32 .. => execFcmpF32_tables hs
  | .pand .. => execPand_tables hs
  | .por .. => execPor_tables hs
  | .pxor .. => execPxor_tables hs
  | .pnot .. => execPnot_tables hs
  | .pmov .. => execPmov_tables hs
  | .bra .. => execBra_tables hs
  | .call .. => execCall_tables hs
  | .ret .. => execRet_tables hs
  | .brx .. => execBrx_tables hs
  | .exit .. => execExit_tables hs
  | .nop .. => execNop_tables hs
  | .yieldB .. => execYieldB_tables hs
  | .bkpt .. => execBkpt_tables hs
  | .ld32 .. => execLd32_tables hs
  | .ld64 .. => execLd64_tables hs
  | .ld128 .. => execLd128_tables hs
  | .st32 .. => execSt32_tables hs
  | .st64 .. => execSt64_tables hs
  | .st128 .. => execSt128_tables hs
  | .ld32Ro .. => execLd32Ro_tables hs
  | .ld128Ro .. => execLd128Ro_tables hs
  | .shflIdx .. => execShflIdx_tables hs
  | .shflUp .. => execShflUp_tables hs
  | .shflDown .. => execShflDown_tables hs
  | .shflXor .. => execShflXor_tables hs
  | .qxchH .. => execQxchH_tables hs
  | .qxchV .. => execQxchV_tables hs
  | .qxchD .. => execQxchD_tables hs
  | .ballot .. => execBallot_tables hs
  | .movExt .. => execMovExt_tables hs
  | .moviExt .. => execMoviExt_tables hs
  | .iaddExt .. => execIaddExt_tables hs
  | .isubExt .. => execIsubExt_tables hs
  | .imulExt .. => execImulExt_tables hs
  | .imulhExt .. => execImulhExt_tables hs
  | .imad .. => execImad_tables hs
  | .iminExt .. => execIminExt_tables hs
  | .imaxExt .. => execImaxExt_tables hs
  | .iabs .. => execIabs_tables hs
  | .ineg .. => execIneg_tables hs
  | .andExt .. => execAndExt_tables hs
  | .orExt .. => execOrExt_tables hs
  | .xorExt .. => execXorExt_tables hs
  | .notExt .. => execNotExt_tables hs
  | .shlExt .. => execShlExt_tables hs
  | .shrExt .. => execShrExt_tables hs
  | .sarExt .. => execSarExt_tables hs
  | .bfx .. => execBfx_tables hs
  | .bfi .. => execBfi_tables hs
  | .popc .. => execPopc_tables hs
  | .clz .. => execClz_tables hs
  | .brev .. => execBrev_tables hs
  | .leaExt .. => execLeaExt_tables hs
  | .sel .. => execSel_tables hs
  | .faddExt .. => execFaddExt_tables hs
  | .fsubExt .. => execFsubExt_tables hs
  | .fmulExt .. => execFmulExt_tables hs
  | .ffma .. => execFfma_tables hs
  | .fminExt .. => execFminExt_tables hs
  | .fmaxExt .. => execFmaxExt_tables hs
  | .frndExt .. => execFrndExt_tables hs
  | .fdiv .. => execFdiv_tables hs
  | .rcp .. => execRcp_tables hs
  | .rsq .. => execRsq_tables hs
  | .sqrt .. => execSqrt_tables hs
  | .ex2 .. => execEx2_tables hs
  | .lg2 .. => execLg2_tables hs
  | .fcvt .. => execFcvt_tables hs
  | .ftoiExt .. => execFtoiExt_tables hs
  | .itofExt .. => execItofExt_tables hs
  | .icmp .. => execIcmp_tables hs
  | .fcmp .. => execFcmp_tables hs
  | .pandExt .. => execPandExt_tables hs
  | .porExt .. => execPorExt_tables hs
  | .pxorExt .. => execPxorExt_tables hs
  | .pnotExt .. => execPnotExt_tables hs
  | .pmovExt .. => execPmovExt_tables hs
  | .braExt .. => execBraExt_tables hs
  | .brxExt .. => execBrxExt_tables hs
  | .callExt .. => execCallExt_tables hs
  | .retExt .. => execRetExt_tables hs
  | .exitExt .. => execExitExt_tables hs
  | .yieldExt .. => execYieldExt_tables hs
  | .nopExt .. => execNopExt_tables hs
  | .rcvSet .. => execRcvSet_tables hs
  | .rcvWait .. => execRcvWait_tables hs
  | .barArv .. => execBarArv_tables hs
  | .barWait .. => execBarWait_tables hs
  | .barSync .. => execBarSync_tables hs
  | .cbar .. => execCbar_tables hs
  | .dqpush .. => execDqpush_tables hs
  | .dqpushAll .. => execDqpushAll_tables hs
  | .dqpop .. => execDqpop_tables hs
  | .mfsr .. => execMfsr_tables hs
  | .trap .. => execTrap_tables hs
  | .bkptExt .. => execBkptExt_tables hs
  | .waitt .. => execWaitt_tables hs
  | .shflIdxExt .. => execShflIdxExt_tables hs
  | .shflUpExt .. => execShflUpExt_tables hs
  | .shflDownExt .. => execShflDownExt_tables hs
  | .shflXorExt .. => execShflXorExt_tables hs
  | .qxchHExt .. => execQxchHExt_tables hs
  | .qxchVExt .. => execQxchVExt_tables hs
  | .qxchDExt .. => execQxchDExt_tables hs
  | .voteAny .. => execVoteAny_tables hs
  | .voteAll .. => execVoteAll_tables hs
  | .voteEq .. => execVoteEq_tables hs
  | .ballotExt .. => execBallotExt_tables hs
  | .matchX .. => execMatchX_tables hs
  | .compact .. => execCompact_tables hs
  | .gscan .. => execGscan_tables hs
  | .gred .. => execGred_tables hs
  | .ld .. => execLd_tables hs
  | .st _ hint .. => execSt_tables (_hint := hint) hs
  | .ldC _ hint .. => execLdC_tables (_hint := hint) hs
  | .stC _ hint .. => execStC_tables (_hint := hint) hs
  | .lde .. => execLde_tables hs
  | .atom _ hint .. => execAtom_tables (_hint := hint) hs
  | .red _ hint .. => execRed_tables (_hint := hint) hs
  | .atomC _ hint .. => execAtomC_tables (_hint := hint) hs
  | .redC _ hint .. => execRedC_tables (_hint := hint) hs
  | .chs _ hint .. => execChs_tables (_hint := hint) hs
  | .fnc _ hint .. => execFnc_tables (_hint := hint) hs
  | .waitf _ hint .. => execWaitf_tables (_hint := hint) hs
  | .acp _ hint .. => execAcp_tables (_hint := hint) hs
  | .sraff .. => execSraff_tables hs
  | .srind .. => execSrind_tables hs
  | .srprb _ hint .. => execSrprb_tables (_hint := hint) hs
  | .srstop _ hint .. => execSrstop_tables (_hint := hint) hs
  | .gath .. => execGath_tables hs
  | .scat .. => execScat_tables hs
  | .scatAdd .. => execScatAdd_tables hs
  | .capld .. => execCapld_tables hs
  | .capst .. => execCapst_tables hs
  | .capnar .. => execCapnar_tables hs
  | .caprst .. => execCaprst_tables hs
  | .capchk .. => execCapchk_tables hs
  | .csrr .. => execCsrr_tables hs
  | .csrw .. => execCsrw_tables hs
  | .eret .. => execEret_tables hs
  | .capmk .. => execCapmk_tables hs
  | .capmkRec .. => execCapmkRec_tables hs
  | .regroup .. => execRegroup_tables hs
  | .launch .. => execLaunch_tables hs
  | .evsig .. => execEvsig_tables hs
  | .evwait .. => execEvwait_tables hs
  | .mzero .. => execMzero_tables hs
  | .mrd .. => execMrd_tables hs
  | .mwr .. => execMwr_tables hs
  | .mwmk .. => execMwmk_tables hs
  | .mldb .. => execMldb_tables hs
  | .mgata .. => execMgata_tables hs
  | .mmq .. => execMmq_tables hs
  | .mms .. => execMms_tables hs
  | .mst .. => execMst_tables hs
  | .tcut .. => execTcut_tables hs
  | .infl .. => execInfl_tables hs
  | .attn .. => execAttn_tables hs
  | .kvapp .. => execKvapp_tables hs
  | .kvtrim .. => execKvtrim_tables hs
  | .kvqry .. => execKvqry_tables hs
  | .pcAging .. => execPcAging_tables hs
  | .pendingForcedDemotion .. => execPendingForcedDemotion_tables hs
  | .rcvTimeout .. => execRcvTimeout_tables hs
  | .scoreboardWriteback .. => execScoreboardWriteback_tables hs
  | .waitfRelease .. => execWaitfRelease_tables hs
  | .waittRelease .. => execWaittRelease_tables hs
  | .evwaitRelease .. => execEvwaitRelease_tables hs
  | .fncTokenWrite .. => execFncTokenWrite_tables hs
  | .teamAdmission .. => execTeamAdmission_tables hs
  | .bankConversion .. => execBankConversion_tables hs
  | .reply .. => execReply_tables hs
  | .refill .. => execRefill_tables hs
  | .homeRequest .. => execHomeRequest_tables hs
  | .storeCompletion .. => execStoreCompletion_tables hs
  | .tableWalk .. => execTableWalk_tables hs
  | .escortAccept .. => execEscortAccept_tables hs
  | .escortDrop .. => execEscortDrop_tables hs
  | .backoffExpiry .. => execBackoffExpiry_tables hs
  | .hop .. => execHop_tables hs
  | .remoteEscortTimeout .. => execRemoteEscortTimeout_tables hs
  | .localEscortTimeout .. => execLocalEscortTimeout_tables hs
  | .streamElementFetch .. => execStreamElementFetch_tables hs
  | .probePass .. => execProbePass_tables hs
  | .acpCompletion .. => execAcpCompletion_tables hs
  | .scatCompletion .. => execScatCompletion_tables hs
  | .matrixOpCompletion .. => execMatrixOpCompletion_tables hs
  | .mstCompletion .. => execMstCompletion_tables hs
  | .attnCompletion .. => execAttnCompletion_tables hs
  | .kvtrimFramePush .. => execKvtrimFramePush_tables hs
  | .conjugatorExpiry .. => execConjugatorExpiry_tables hs
  | .conjugateGroupFormation .. => execConjugateGroupFormation_tables hs
  | .integrityError .. => execIntegrityError_tables hs
  | .unconsumedError .. => execUnconsumedError_tables hs
  | .correctedError .. => execCorrectedError_tables hs
  | .faultRecordWrite .. => execFaultRecordWrite_tables hs
  | .faultQueueSetup .. => execFaultQueueSetup_tables hs
  | .fqheadWrite .. => execFqheadWrite_tables hs
  | .retry .. => execRetry_tables hs
  | .skip .. => execSkip_tables hs
  | .kill .. => execKill_tables hs
  | .translationInvalidate .. => execTranslationInvalidate_tables hs
  | .invalidateCompletion .. => execInvalidateCompletion_tables hs
  | .preemptionRequest .. => execPreemptionRequest_tables hs
  | .stopTime .. => execStopTime_tables hs
  | .saveDone .. => execSaveDone_tables hs
  | .restore .. => execRestore_tables hs
  | .lqnotify .. => execLqnotify_tables hs
  | .lqctlWrite .. => execLqctlWrite_tables hs
  | .launchRecordTake .. => execLaunchRecordTake_tables hs
  | .launchWaitCheck .. => execLaunchWaitCheck_tables hs
  | .dispatchDecision .. => execDispatchDecision_tables hs
  | .launchCompletion .. => execLaunchCompletion_tables hs
  | .eventSignal .. => execEventSignal_tables hs
  | .fcoresWrite .. => execFcoresWrite_tables hs
  | .sliceEnd .. => execSliceEnd_tables hs
  | .kvpush .. => execKvpush_tables hs
  | .kvrclWrite .. => execKvrclWrite_tables hs
  | .errorCounterWrite .. => execErrorCounterWrite_tables hs
  | .registerWrite .. => execRegisterWrite_tables hs
  | .perstDeassert .. => execPerstDeassert_tables hs
  | .firmwareCheck .. => execFirmwareCheck_tables hs
  | .pllLock .. => execPllLock_tables hs
  | .hbmTraining .. => execHbmTraining_tables hs
  | .memoryZeroing .. => execMemoryZeroing_tables hs
  | .gtcStart .. => execGtcStart_tables hs
  | .configurationRequest .. => execConfigurationRequest_tables hs
  | .bar2Read .. => execBar2Read_tables hs
  | .bar2Write .. => execBar2Write_tables hs
  | .lockInterface .. => execLockInterface_tables hs
  | .startInterface .. => execStartInterface_tables hs
  | .stopInterface .. => execStopInterface_tables hs
  | .functionLevelReset .. => execFunctionLevelReset_tables hs
  | .ideIntegrityFailure .. => execIdeIntegrityFailure_tables hs
  | .lockedRegisterWrite .. => execLockedRegisterWrite_tables hs
  | .getVersion .. => execGetVersion_tables hs
  | .getCapabilities .. => execGetCapabilities_tables hs
  | .negotiateAlgorithms .. => execNegotiateAlgorithms_tables hs
  | .getDigests .. => execGetDigests_tables hs
  | .getCertificate .. => execGetCertificate_tables hs
  | .challenge .. => execChallenge_tables hs
  | .getMeasurements .. => execGetMeasurements_tables hs
  | .keyExchange .. => execKeyExchange_tables hs
  | .finish .. => execFinish_tables hs
  | .heartbeat .. => execHeartbeat_tables hs
  | .keyUpdate .. => execKeyUpdate_tables hs
  | .endSession .. => execEndSession_tables hs
  | .l2waysWrite .. => execL2waysWrite_tables hs
  | .migExport .. => execMigExport_tables hs
  | .migImport .. => execMigImport_tables hs
  | .migConfirm .. => execMigConfirm_tables hs
  | .migRelease .. => execMigRelease_tables hs
  | .migClear .. => execMigClear_tables hs
  | .migrationExpiry .. => execMigrationExpiry_tables hs
  | .migrationDeadline .. => execMigrationDeadline_tables hs
  | .fabricIngressRequest .. => execFabricIngressRequest_tables hs
  | .remoteReply .. => execRemoteReply_tables hs
  | .portDown .. => execPortDown_tables hs
  | .timeSync .. => execTimeSync_tables hs
  | .laneSample .. => execLaneSample_tables hs
  | .quietPoint .. => execQuietPoint_tables hs
  | .forcedIdleGap .. => execForcedIdleGap_tables hs
  | .dvfsWindow .. => execDvfsWindow_tables hs
  | .thermalThrottle .. => execThermalThrottle_tables hs
  | .thermalTrip .. => execThermalTrip_tables hs
  | .perstAssert .. => execPerstAssert_tables hs
  | .hostLinkDown .. => execHostLinkDown_tables hs
  | .hostLinkUp .. => execHostLinkUp_tables hs
  | .portUp .. => execPortUp_tables hs
  | .firmwareActivation .. => execFirmwareActivation_tables hs

theorem State.Forms.issueInstr {s : State} {i : Instr} (hs : s.Forms fun _ => .all) : OutForms (fun _ => .all) (s.issueInstr i) := by
  unfold State.issueInstr
  split
  · exact .next hs.holdInstr
  · exact exec_tables hs _

theorem State.Forms.runQueue {s : State} (hs : s.Forms fun _ => .all) : OutForms (fun _ => .all) s.runQueue := by
  unfold State.runQueue
  split
  · exact .next hs
  dsimp only
  split
  · exact .next hs.withIssueQ.applyDue
  · exact State.Forms.issueInstr (hs.withIssueQ.applyDue.congr rfl rfl rfl rfl rfl rfl)

theorem State.Forms.dropPage {X : Nat → Places} {s : State} {die core world page : Nat} (hs : s.Forms X) :
    (s.dropPage die core world page).Forms X := by
  unfold State.dropPage
  split
  · exact hs
  · exact hs.modCore.modDie

theorem State.Forms.passTime {s : State} {ns cycles : Nat} (hs : s.Forms fun _ => .all) :
    OutForms (fun _ => .all) (s.passTime ns cycles) := by
  unfold State.passTime
  split
  · exact hs.withAgenda.applyDue.selectCore.runQueue
  · exact .next (hs.beginSlice.timeTurn.conjAll.sliceTurn.ite hs.beginSlice.timeTurn)

theorem State.Forms.runTurn {s : State} {t : Turn} (hs : s.Forms fun _ => .all) : OutForms (fun _ => .all) (s.runTurn t) := by
  unfold State.runTurn
  split
  · split
    · exact .refused
    split
    · exact exec_tables hs _
    · exact .next hs
  · split
    · exact hs.applyDue.selectCore.runQueue
    · exact .next hs
  · exact hs.passTime
  · exact .next hs.modCore
  · exact .next hs.dropStack
  · exact .next hs.dropPage
  · exact .next (hs.modWorldRest fun _ => rfl)
  · refine .next (State.Forms.ite ?_ hs)
    exact hs.congr rfl rfl rfl rfl rfl rfl

/-- What the machine does of its own accord keeps the form. -/
def ActForms (a : Act) : Prop := ∀ s : State, (s.Forms fun _ => .all) → OutForms (fun _ => .all) (a s)

theorem State.memActs_forms (s : State) : ∀ a ∈ s.memActs, ActForms a := by
  simp only [State.memActs, List.forall_mem_append, List.forall_mem_map, List.forall_mem_flatMap, List.forall_mem_cons]
  refine ⟨⟨⟨⟨⟨⟨⟨⟨⟨?_, ?_⟩, fun _ _ _ _ => ⟨?_, ?_, ?_, nofun⟩⟩, ?_⟩, ?_⟩, ?_⟩, fun _ _ => ⟨?_, ?_, ?_, ?_, ?_, ?_, nofun⟩⟩, ?_⟩, ?_⟩, ?_⟩
  · exact fun _ _ _ hs => execStoreCompletion_tables hs
  · exact fun _ _ _ hs => execHomeRequest_tables hs
  · exact fun _ hs => execEscortAccept_tables hs
  · exact fun _ hs => execBackoffExpiry_tables hs
  · exact fun _ hs => execReply_tables hs
  · exact fun _ _ _ hs => execHop_tables hs
  · exact fun _ _ _ hs => execProbePass_tables hs
  · exact fun _ _ _ hs => execRemoteReply_tables hs
  · exact fun _ hs => execAcpCompletion_tables hs
  · exact fun _ hs => execScatCompletion_tables hs
  · exact fun _ hs => execMatrixOpCompletion_tables hs
  · exact fun _ hs => execMstCompletion_tables hs
  · exact fun _ hs => execAttnCompletion_tables hs
  · exact fun _ hs => execKvtrimFramePush_tables hs
  · exact fun _ _ _ hs => execFncTokenWrite_tables hs
  · exact fun _ _ _ hs => execScoreboardWriteback_tables hs
  · exact fun _ _ _ hs => execInvalidateCompletion_tables hs

theorem State.teamActs_forms (s : State) : ∀ a ∈ s.teamActs, ActForms a := by
  simp only [State.teamActs, Team_fetches, List.forall_mem_append, List.forall_mem_map, List.forall_mem_flatMap, List.forall_mem_cons]
  refine fun _ _ => ⟨⟨⟨fun _ _ => ⟨?_, ?_, ?_, ?_, nofun⟩, ?_⟩, ?_⟩, ?_, ?_, ?_, nofun⟩
  · exact fun _ hs => execWaitfRelease_tables hs
  · exact fun _ hs => execWaittRelease_tables hs
  · exact fun _ hs => execEvwaitRelease_tables hs
  · exact fun _ hs => execPcAging_tables hs
  · exact fun _ _ _ _ _ hs => execRcvTimeout_tables hs
  · exact fun _ _ _ _ _ _ _ hs => execStreamElementFetch_tables hs
  · exact fun _ hs => execConjugatorExpiry_tables hs
  · exact fun _ hs => execConjugateGroupFormation_tables hs
  · exact fun _ hs => execRefill_tables hs

theorem State.schedActs_forms (s : State) : ∀ a ∈ s.schedActs, ActForms a := by
  simp only [State.schedActs, List.forall_mem_append, List.forall_mem_map, List.forall_mem_flatMap, List.forall_mem_cons]
  refine ⟨⟨⟨⟨⟨fun _ _ => ⟨⟨?_, ?_, ?_, nofun⟩, fun x hx => ?_⟩, fun _ _ => ⟨?_, ?_, ?_, ?_, nofun⟩⟩, fun _ _ => ⟨?_, ?_⟩⟩, ?_⟩,
    fun _ _ => ⟨?_, ?_, nofun⟩⟩, ?_, ?_, nofun⟩
  · exact fun _ hs => execFaultRecordWrite_tables hs
  · exact fun _ hs => execMigrationExpiry_tables hs
  · exact fun _ hs => execMigrationDeadline_tables hs
  · split at hx
    · rw [List.mem_singleton.mp hx]
      exact fun _ hs => execMigExport_tables hs
    · cases hx
  · exact fun _ hs => execStopTime_tables hs
  · exact fun _ hs => execSaveDone_tables hs
  · exact fun _ hs => execTeamAdmission_tables hs
  · exact fun _ hs => execRestore_tables hs
  · exact fun _ _ _ hs => execBankConversion_tables hs
  · exact fun _ _ _ hs => execPendingForcedDemotion_tables hs
  · exact fun _ _ _ hs => execLaunchCompletion_tables hs
  · exact fun _ hs => execLaunchRecordTake_tables hs
  · exact fun _ hs => execLaunchWaitCheck_tables hs
  · exact fun _ hs => execSliceEnd_tables hs
  · exact fun _ hs => execDispatchDecision_tables hs

theorem State.lateActs_forms (s : State) : ∀ a ∈ s.lateActs, ActForms a := by
  simp only [State.lateActs, List.forall_mem_append, List.forall_mem_map, List.forall_mem_flatMap]
  refine ⟨?_, ?_⟩
  · exact fun _ _ _ hs => execRemoteEscortTimeout_tables hs
  · exact fun _ _ _ _ _ hs => execLocalEscortTimeout_tables hs

theorem State.Forms.idle {s : State} (hs : s.Forms fun _ => .all) : OutForms (fun _ => .all) s.idle := by
  unfold State.idle
  dsimp only
  split
  · next a ha =>
    refine (?_ : ActForms a) s hs
    have hm := List.mem_of_find?_eq_some ha
    split at hm
    · simp only [List.mem_append] at hm
      rcases hm with ((hm | hm) | hm) | hm
      · exact s.memActs_forms a hm
      · exact s.teamActs_forms a hm
      · exact s.schedActs_forms a hm
      · exact s.lateActs_forms a hm
    split at hm
    · obtain ⟨l, _, rfl⟩ := List.mem_map.mp hm
      exact fun _ hs => execLaunchCompletion_tables hs
    · cases hm
  split
  · exact hs.runTurn
  · exact hs.runTurn

theorem step_tables {s : State} (hs : s.Forms fun _ => .all) : OutForms (fun _ => .all) (step s) := by
  unfold step State.stepOnce
  split
  · exact hs.runQueue
  split
  · exact hs.idle
  · exact hs.withAgenda.runTurn

/-- Settles O60: the form asked of every place is the invariant itself, and what a step does, an event's instruction, a held
instruction, a turn of its list or what the machine does of its own accord, keeps it. -/
theorem tablesKept : Obligations.TablesKept := by
  unfold Obligations.TablesKept
  exact fun s t h hs => State.tables_iff.mpr (step_tables (State.tables_iff.mp hs) t h)

end Sys2Proof.Machine
end

end

section
namespace Sys2Proof.Machine

/-! ### Results of integer and address operations -/

/-- Settles O1: integer and address instructions are the shared operation `execAlu` with the words of their table, two cycles late. -/
theorem integerResults : Obligations.IntegerResults := by
  intro i r hr hw s hi hp
  exact ⟨_, intOp_exec hr hw s, State.execAlu_done hi hp⟩

end Sys2Proof.Machine
end

section
namespace Sys2Proof.Machine

/-! ### What the gather unit's reads leave (R268, R269, R278) -/

theorem State.translate_teams (s : State) (core world va : Nat) : (s.translate core world va).2.teams = s.teams := by
  have hw : ∀ n, (s.noteWalk n va).teams = s.teams := fun n => by unfold State.noteWalk; split <;> rfl
  unfold State.translate
  split
  · rfl
  · split
    · rfl
    · dsimp only
      split
      · exact hw _
      · exact hw _

theorem State.globAcc_teams (s : State) (core world : Nat) (va : Dword) (kind : Nat) (elem : Bool) :
    (s.globAcc core world va kind elem).2.teams = s.teams := by
  have h := s.translate_teams core world (va.toNat % 2 ^ 56)
  unfold State.globAcc
  generalize s.translate core world (va.toNat % 2 ^ 56) = r at h
  split
  · rfl
  · cases r with
    | mk res s' =>
      cases res with
      | error c => exact h
      | ok e =>
        dsimp only
        split
        · exact h
        · split <;> exact h

theorem State.access_teams (s : State) (core team g l : Nat) (va : Dword) (n al kind : Nat) (elem : Bool) :
    (s.access core team g l va n al kind elem).2.teams = s.teams := by
  have h := fun v => s.globAcc_teams core (s.worldOf (s.team team)) v kind elem
  unfold State.access
  dsimp only
  split
  case h_1 => split <;> [rfl; (split <;> [rfl; (split <;> rfl)])]
  case h_2 =>
    specialize h (s.stackVa (s.team team) g l (va.toNat % 2 ^ 48))
    generalize s.globAcc core (s.worldOf (s.team team)) (s.stackVa (s.team team) g l (va.toNat % 2 ^ 48)) kind elem = r at h
    obtain ⟨c | ⟨sp, e⟩, s'⟩ := r
    · split <;> [rfl; (split <;> [rfl; exact h])]
    · split <;> [rfl; (split <;> [rfl; (cases sp <;> exact h)])]
  case h_3 =>
    specialize h va
    generalize s.globAcc core (s.worldOf (s.team team)) va kind elem = r at h
    obtain ⟨c | a, s'⟩ := r
    · split <;> [rfl; (split <;> [rfl; exact h])]
    · split <;> [rfl; (split <;> [rfl; exact h])]

/-- Reads were made on the way to an operation: no team has changed, and of the rest no more than by checks of accesses. -/
structure Gathered (s t : State) : Prop where
  begun : Begun s t
  teams : t.teams = s.teams

theorem Gathered.refl (s : State) : Gathered s s := ⟨.refl s, rfl⟩
theorem Gathered.trans {a b c : State} (h : Gathered a b) (k : Gathered b c) : Gathered a c :=
  ⟨h.begun.trans k.begun, k.teams.trans h.teams⟩

theorem Gathered.ct {s t : State} (h : Gathered s t) : t.ct = s.ct := by
  simp only [State.ct, State.team, h.begun.quiet.cur, State.teamOpt_of_teams h.teams]

theorem Gathered.fmtAccess (s : State) (va : Dword) (kind want : Nat) : Gathered s (s.fmtAccess va kind want).2 := by
  have h (e : Bool) : Gathered s (s.access s.cur.core s.cur.team 0 0 va 1 1 kind e).2 :=
    ⟨(Begun.access s 0 0 va 1 1 kind e).1, s.access_teams s.cur.core s.cur.team 0 0 va 1 1 kind e⟩
  unfold State.fmtAccess
  dsimp only
  split
  · exact h _
  · split
    · split <;> exact h _
    · exact h _

theorem Gathered.probePages (s : State) (rs : List (Dword × Nat)) (kind want : Nat) : Gathered s (s.probePages rs kind want).2.2 := by
  unfold State.probePages
  refine foldl_keeps (fun acc : List Flt × List (Dword × Acc) × State => Gathered s acc.2.2) _ (fun acc va h => ?_) _ ([], [], s) (.refl s)
  have hstep := h.trans (Gathered.fmtAccess acc.2.2 va kind want)
  dsimp only
  split
  · exact h
  · split <;> exact hstep

/-- Reading in two steps succeeds when each does. -/
theorem Got_then_ok {α β : Type} {g : Got α} {f : α → State → Got β} {b : β} {t : State} (h : Got_then g f = .ok b t) :
    ∃ a u, g = .ok a u ∧ f a u = .ok b t := by
  cases g with
  | ok a u => exact ⟨a, u, rfl, h⟩
  | kill u => cases h
  | flt fs u => cases h

theorem State.sparseHdr_ok {s t : State} {va : Dword} {h : SparseHdr} (hok : s.sparseHdr va = .ok h t) : t = s := by
  unfold State.sparseHdr at hok
  dsimp only at hok
  split at hok
  · cases hok
  · split at hok
    · cases hok
    · split at hok <;> cases hok
      rfl

theorem Gathered.gatherAll {s t : State} {gs : List SrcRegs} {ps : List (List (Dword × Acc))} (h : s.gatherAll gs = .ok ps t) :
    Gathered s t := by
  unfold State.gatherAll at h
  split at h
  · cases h
  · split at h
    · cases h
    · dsimp only at h
      split at h <;> cases h
      exact foldl_keeps (fun acc : List Flt × List (List (Dword × Acc)) × State => Gathered s acc.2.2) _
        (fun acc g ha => ha.trans (Gathered.probePages acc.2.2 g.rs kRead g.want)) gs ([], [], s) (.refl s)

theorem Gathered.gatherPages {s t : State} {base : Dword} {al : Nat} {rs : List (Dword × Nat)} {want : Nat} {p : List (Dword × Acc)}
    (h : s.gatherPages base al rs want = .ok p t) : Gathered s t := by
  obtain ⟨ps, u, hu, ht⟩ := Got_then_ok h
  cases ht
  exact .gatherAll hu

theorem Gathered.bandEntries {s t : State} {h : SparseHdr} {row : Nat} {es : List (Nat × Nat × Nat)}
    (hok : s.bandEntries h row = .ok es t) : Gathered s t := by
  unfold State.bandEntries at hok
  dsimp only at hok
  split at hok
  · cases hok; exact .refl s
  · obtain ⟨ps, u, hu, hrest⟩ := Got_then_ok hok
    obtain ⟨cs, w, hw, ht⟩ := Got_then_ok hrest
    cases ht
    exact (Gathered.gatherPages hu).trans (.gatherPages hw)

/-- What `MMS` reads leaves every team as it was. -/
theorem Gathered.mmsRead {s t : State} {va : Dword} {row klo khi cb : Nat} {qs : List Nat}
    {r : SparseHdr × List (Nat × Nat × Nat) × List (Dword × Acc) × List (Dword × Acc)}
    (h : s.mmsRead va row klo khi cb qs = .ok r t) : Gathered s t := by
  obtain ⟨hd, u, hu, hrest⟩ := Got_then_ok h
  cases State.sparseHdr_ok hu
  obtain ⟨all, w, hw, hrest⟩ := Got_then_ok hrest
  dsimp only at hrest
  split at hrest
  · cases hrest
  · obtain ⟨ps, y, hy, ht⟩ := Got_then_ok hrest
    cases ht
    exact (Gathered.bandEntries hw).trans (.gatherAll hy)

/-! ### States in which a matrix instruction has acted on tiles alone -/

/-- Threads, their places, registers, scratchpad and memory stand as they did. Accesses under way may learn a time, which `Begun` does
not allow. -/
structure Undisturbed (s t : State) : Prop where
  quiet : Quiet s t
  team : TeamStill s.ct t.ct
  mem : t.mem = s.mem

theorem Undisturbed.refl (s : State) : Undisturbed s s := ⟨.refl s, .refl _, rfl⟩
theorem Undisturbed.trans {a b c : State} (h : Undisturbed a b) (k : Undisturbed b c) : Undisturbed a c :=
  ⟨h.quiet.trans k.quiet, h.team.trans k.team, k.mem.trans h.mem⟩

theorem Begun.undisturbed {s t : State} (h : Begun s t) : Undisturbed s t := ⟨h.quiet, h.team, h.mem⟩

theorem Undisturbed.modCt (s : State) {f : Team → Team} (h : ∀ t, TeamStill t (f t)) : Undisturbed s (s.modCt f) :=
  (Begun.modCt s h).undisturbed

theorem TeamStill.setTile (t : Team) (n : Nat) (y : Tile) : TeamStill t (t.setTile n y) :=
  ⟨rfl, fun k _ => by cases k <;> rfl, fun _ _ => rfl, fun k => by cases k <;> rfl, fun k => by cases k <;> rfl, rfl, rfl⟩

/-- States that agree in their teams, the issue in hand, its cycle and memory. -/
theorem Undisturbed.of_eq {s t : State} (hteams : t.teams = s.teams) (hcur : t.cur = s.cur) (hnow : t.now = s.now) (hmem : t.mem = s.mem) :
    Undisturbed s t := by
  have hct : t.ct = s.ct := by simp only [State.ct, State.team, hcur, State.teamOpt_of_teams hteams]
  refine ⟨⟨hcur, hnow, by rw [State.teamOpt_of_teams hteams], fun L => by rw [hct], fun g l => by rw [hct]⟩, ?_, hmem⟩
  rw [hct]
  exact .refl _

/-- A known time of an access of the issuer's team. -/
theorem Undisturbed.settle (s : State) (id : Nat) (who : Actor) (grp launch t : Nat) (y : Bool) :
    Undisturbed s (s.settle id s.cur.team who grp launch t y) :=
  ((Begun.noteDone s who grp t y).undisturbed.trans
    (.modCt _ fun u => TeamStill.modActor u who (f := Group_acquires id t) fun _ => ⟨rfl, rfl, rfl, rfl, rfl⟩)).trans
      (.of_eq rfl rfl rfl rfl)

theorem Undisturbed.performedNow (s : State) : Undisturbed s s.performedNow :=
  (Undisturbed.of_eq rfl rfl rfl rfl : Undisturbed s s.readMany).trans (.settle s.readMany 0 s.cur.who 0 s.ct.launch s.gtc false)

theorem Undisturbed.tileOp (s : State) (md : Nat) (rows : Word) (due : Nat) : Undisturbed s (s.tileOp md rows due) :=
  (Undisturbed.of_eq rfl rfl rfl rfl : Undisturbed s (s.addEngine [] (.tile [md] rows due) none [] []).2).trans
    (.modCt _ fun t => TeamStill.setTile t md _)

/-- The retire after it settles the instruction. -/
theorem Undisturbed.settled {s u : State} (hi : Issuing s) (h : Undisturbed s u) (x : XHead) : Settled s (u.retire x) x := by
  have hregs : TeamRegs s.ct u.ct := ⟨fun g l => by rw [h.team.thread]; exact ⟨rfl, rfl⟩, h.team.g, h.team.t⟩
  exact ⟨State.retire_moved hi h.quiet x, h.mem, RegsKept.of h.quiet.cur (hregs.trans (retire_regs (h.quiet.issuing hi).team x))⟩

/-! ### Which tiles stand as they did -/

/-- An update of the issuer's team that leaves its tiles. -/
theorem State.tiles_modCt (s : State) {f : Team → Team} (hid : ∀ t, (f t).id = t.id) (h : ∀ t, (f t).tiles = t.tiles) :
    (s.modCt f).ct.tiles = s.ct.tiles := by
  have hteam : (s.modCt f).team? s.cur.team = (s.team? s.cur.team).map f := State.teamOpt_modTeam s _ f hid
  unfold State.ct State.team
  rw [show (s.modCt f).cur = s.cur from rfl, hteam]
  cases s.team? s.cur.team with
  | none => rfl
  | some t => exact h t

theorem State.tiles_retire (s : State) (x : XHead) : (s.retire x).ct.tiles = s.ct.tiles :=
  s.tiles_modCt (fun t => foldl_id _ (fun _ _ => by simp) _ t)
    fun t => foldl_keeps (fun u : Team => u.tiles = t.tiles) _ (fun u L hu => by simp [hu]) s.path t rfl

theorem Team_noted_tiles (who : Actor) (grp t : Nat) (y : Bool) (tm : Team) : (Team_noted who grp t y tm).tiles = tm.tiles := by
  unfold Team_noted
  cases who with
  | grp n => simp
  | lead => simp
  | conj k => exact foldl_keeps (fun u : Team => u.tiles = tm.tiles) _ (fun u g hu => by simp [hu]) _ _ (by simp)

theorem State.tiles_settle (s : State) (id : Nat) (who : Actor) (grp launch t : Nat) (y : Bool) :
    (s.settle id s.cur.team who grp launch t y).ct.tiles = s.ct.tiles :=
  ((s.modCt (Team_noted who grp t y)).tiles_modCt (f := fun u => u.modActor who (Group_acquires id t)) (fun _ => by simp) fun _ => by simp).trans
    (s.tiles_modCt (fun u => (TeamCalm.noted who grp t y u).id) (Team_noted_tiles who grp t y))

theorem State.tiles_performedNow (s : State) : s.performedNow.ct.tiles = s.ct.tiles :=
  s.readMany.tiles_settle 0 s.cur.who 0 s.ct.launch s.gtc false

/-! ### An operation on a tile (R264, R265) -/

/-- The note of a watermark leaves the cells. -/
theorem Tile_wmSet_c (y : Tile) (now new : Nat) : (Tile_wmSet y now new).c = y.c := by
  unfold Tile_wmSet
  split <;> rfl

theorem Tile.cell_of_c {y z : Tile} (h : z.c = y.c) (r j : Nat) : z.cell r j = y.cell r j := by simp only [Tile.cell, h]

/-- An operation takes its place in tile order: of its tile no more than the watermark changes. -/
theorem State.tiles_tileOp {s : State} (ht : (s.team? s.cur.team).isSome = true) (md : Nat) (rows : Word) (due : Nat) :
    ∃ y : Tile, (s.tileOp md rows due).ct.tiles = tabSet s.ct.tiles md y {} ∧ y.c = (s.ct.tile md).c :=
  ⟨_, congrArg Team.tiles (State.ct_modCt (s.addEngine [] (.tile [md] rows due) none [] []).2 (fun t => t.setTile md _) (fun _ => rfl) ht),
    Tile_wmSet_c _ _ _⟩

/-- A tile's cells are written, the operation takes its place in tile order, and its path retires. -/
theorem State.tileOp_retired {s u : State} (hi : Issuing s) (h : Undisturbed s u) {md : Nat} {y : Tile}
    (hy : u.ct.tiles = tabSet s.ct.tiles md y {}) (rows : Word) (due : Nat) (x : XHead) :
    let t := (u.tileOp md rows due).retire x
    Settled s t x ∧ OtherTiles s t (· = md) ∧ TileOpOn s t md (fun r => rows.getLsbD r = true) ∧
      ∀ r j, (t.ct.tile md).cell r j = y.cell r j := by
  intro t
  obtain ⟨z, hz, hzc⟩ := State.tiles_tileOp (h.quiet.issuing hi).team md rows due
  have htiles : t.ct.tiles = tabSet (tabSet s.ct.tiles md y {}) md z {} := (State.tiles_retire _ x).trans (by rw [hz, hy])
  refine ⟨(h.trans (.tileOp u md rows due)).settled hi x, fun hrise k hk => ?_, ?_, fun r j => ?_⟩
  · simp only [Team.tile, htiles]
    rw [tabGet_tabSet_other hk (tabRises_tabSet hrise), tabGet_tabSet_other hk hrise]
  · refine ⟨_, List.mem_append_right _ (List.mem_singleton_self _), congrArg (·.who) h.quiet.cur, fun r _ => ?_⟩
    have hteam : u.cur.team = s.cur.team := congrArg (·.team) h.quiet.cur
    simp [WritesRow, hteam]
  · have hmd : t.ct.tile md = z := by
      simp only [Team.tile, htiles]
      exact tabGet_tabSet_self
    have hold : u.ct.tile md = y := by
      simp only [Team.tile, hy]
      exact tabGet_tabSet_self
    rw [hmd, Tile.cell_of_c hzc, hold]

/-! ### Rows of active quarters (R262) -/

/-- The rows of the quarters that a test keeps are the rows whose quarter it keeps. -/
theorem quarterRows_filter (p : Nat → Bool) (qs : List Nat) : quarterRows (qs.filter p) = (quarterRows qs).filter fun r => p (r / 8) := by
  induction qs with
  | nil => rfl
  | cons q qs ih =>
    have hcons : ∀ qs, quarterRows (q :: qs) = ((List.range 8).map fun i => 8 * q + i) ++ quarterRows qs := fun _ => rfl
    have hown : ∀ r ∈ (List.range 8).map fun i => 8 * q + i, p (r / 8) = p q := by
      intro r hr
      obtain ⟨i, hi, rfl⟩ := List.mem_map.mp hr
      rw [show (8 * q + i) / 8 = q by have := List.mem_range.mp hi; omega]
    rw [hcons, List.filter_append, List.filter_congr hown, ← ih, List.filter_cons]
    cases p q with
    | false => simp
    | true => simp [hcons]

/-- The rows that `MMQ` and `MMS` work on, in order. -/
def State.activeRows (s : State) (x : XHead) : List Nat := quarterRows (s.quarters (s.active x))

theorem State.activeRows_eq (s : State) (x : XHead) :
    s.activeRows x = (List.range 32).filter fun r => (s.isLead && s.active x ≠ []) || (s.active x).any fun L => L / 8 = r / 8 :=
  quarterRows_filter _ (List.range 4)

theorem State.nodup_activeRows (s : State) (x : XHead) : (s.activeRows x).Nodup := by
  rw [State.activeRows_eq]
  exact List.nodup_range.filter _

theorem State.mem_activeRows {s : State} {x : XHead} {r : Nat} (hr : r < 32) : r ∈ s.activeRows x ↔ s.rowActive x r := by
  simp only [State.activeRows_eq, State.isLead, List.mem_filter, List.mem_range, hr, true_and, Bool.or_eq_true, Bool.and_eq_true,
    decide_eq_true_eq, List.any_eq_true, State.rowActive]
  constructor
  · rintro (⟨hlead, hne⟩ | ⟨L, hL, hq⟩)
    · exact ⟨hne, .inl hlead⟩
    · exact ⟨List.ne_nil_of_mem hL, .inr ⟨L, hL, hq⟩⟩
  · rintro ⟨hne, hlead | hlane⟩
    · exact .inl ⟨hlead, hne⟩
    · exact .inr hlane

/-- A mask holds the positions of its list. -/
theorem getLsbD_maskOf (l : List Nat) {i : Nat} (hi : i < 32) : (maskOf l).getLsbD i = true ↔ i ∈ l := by
  have key : ∀ (l : List Nat) (m : BitVec 32),
      (l.foldl (fun m i => m ||| BitVec.ofNat 32 (2 ^ i)) m).getLsbD i = true ↔ m.getLsbD i = true ∨ i ∈ l := by
    intro l
    induction l with
    | nil => simp
    | cons a l ih =>
      intro m
      have hbit : (BitVec.ofNat 32 (2 ^ a)).getLsbD i = true ↔ i = a := by
        rw [BitVec.getLsbD_ofNat, Nat.testBit_two_pow, decide_eq_true hi, Bool.true_and, decide_eq_true_eq, eq_comm]
      rw [List.foldl_cons, ih, BitVec.getLsbD_or, Bool.or_eq_true, hbit, List.mem_cons, or_assoc]
  simpa [maskOf] using key l 0

/-! ### Cells written one by one (R273, R281) -/

theorem Tile.cell_setCell {y : Tile} (h : tabRises y.c) {r j r' j' : Nat} (hj : j < 16) (hj' : j' < 16) (w : Word) :
    (y.setCell r j w).cell r' j' = if (r', j') = (r, j) then w else y.cell r' j' := by
  simp only [Tile.cell, Tile.setCell, Prod.mk.injEq]
  split
  case isTrue hsame => rw [hsame.1, hsame.2]; exact tabGet_tabSet_self
  case isFalse hne => exact tabGet_tabSet_other (by omega) h

/-- Each element of some rows is replaced by a function of its place and of what it held. -/
def Tile.mapRows (rows : List Nat) (f : Nat → Nat → Word → Word) (y : Tile) : Tile :=
  rows.foldl (fun y r => (List.range 16).foldl (fun y j => y.setCell r j (f r j (y.cell r j))) y) y

/-- Elements replaced in the order of a list that names each place once. -/
theorem Tile.cell_foldl_setCell (f : Nat → Nat → Word → Word) (ps : List (Nat × Nat)) (hps : ps.Nodup) (hcol : ∀ p ∈ ps, p.2 < 16)
    {y : Tile} (h : tabRises y.c) (r : Nat) {j : Nat} (hj : j < 16) :
    (ps.foldl (fun y p => y.setCell p.1 p.2 (f p.1 p.2 (y.cell p.1 p.2))) y).cell r j =
      if (r, j) ∈ ps then f r j (y.cell r j) else y.cell r j := by
  induction ps generalizing y with
  | nil => simp
  | cons p ps ih =>
    obtain ⟨hp, hnd⟩ := List.nodup_cons.mp hps
    rw [List.foldl_cons, ih hnd (fun q hq => hcol q (List.mem_cons_of_mem p hq)) (Tile.setCell_tabs h),
      Tile.cell_setCell h (hcol p List.mem_cons_self) hj]
    by_cases hrj : (r, j) = p
    · subst hrj
      simp [hp]
    · simp [hrj]

theorem Tile.cell_mapRows {rows : List Nat} (hrows : rows.Nodup) (f : Nat → Nat → Word → Word) {y : Tile} (h : tabRises y.c) (r : Nat)
    {j : Nat} (hj : j < 16) : (y.mapRows rows f).cell r j = if r ∈ rows then f r j (y.cell r j) else y.cell r j := by
  have hflat : y.mapRows rows f =
      (rows ×ˢ List.range 16).foldl (fun y p => y.setCell p.1 p.2 (f p.1 p.2 (y.cell p.1 p.2))) y := by
    simp only [Tile.mapRows, SProd.sprod, List.product, List.foldl_flatMap, List.foldl_map]
  rw [hflat, Tile.cell_foldl_setCell f _ (hrows.product List.nodup_range) (fun p hp => List.mem_range.mp (List.mem_product.mp hp).2) h r hj]
  simp [List.mem_product, hj]

/-! ### Sums of products added to a tile (R97, R273, R280, R281) -/

/-- The sum of products of each element's row and column is added to the rows of active quarters. -/
def State.addProducts (s u : State) (x : XHead) (md : Nat) (ps : Nat → Nat → List (Word × Word)) : State :=
  u.modCt fun t => t.setTile md ((t.tile md).mapRows (s.activeRows x) fun r j w => macInto w (ps r j))

/-- What `MMQ` and `MMS` leave, with the products that they add. -/
def ProductsAdded (s t : State) (x : XHead) (md : Nat) (ps : Nat → Nat → List (Word × Word)) : Prop :=
  Settled s t x ∧ OtherTiles s t (· = md) ∧ TileOpOn s t md (s.rowActive x) ∧
    (tabRises (s.ct.tile md).c → ∀ r < 32, ∀ j < 16,
      (s.rowActive x r → (t.ct.tile md).cell r j = macInto ((s.ct.tile md).cell r j) (ps r j)) ∧
      (¬ s.rowActive x r → (t.ct.tile md).cell r j = (s.ct.tile md).cell r j))

/-- After reads on the way (`u`) and what follows the sums without touching tiles (`v`), the operation is what it should be. -/
theorem State.addProducts_retired {s u v : State} (hi : Issuing s) (hu : Gathered s u) (x : XHead) (md : Nat)
    (ps : Nat → Nat → List (Word × Word)) (hv : Undisturbed (s.addProducts u x md ps) v)
    (htiles : v.ct.tiles = (s.addProducts u x md ps).ct.tiles) :
    ProductsAdded s ((v.tileOp md (maskOf (s.activeRows x)) 0).retire x) x md ps := by
  have hteam := (hu.begun.quiet.issuing hi).team
  have hsum : v.ct.tiles = tabSet s.ct.tiles md ((s.ct.tile md).mapRows (s.activeRows x) fun r j w => macInto w (ps r j)) {} := by
    rw [htiles, State.addProducts, State.ct_modCt u (fun t => t.setTile md _) (fun _ => rfl) hteam, hu.ct]
    rfl
  have hstill : Undisturbed s v := (hu.begun.undisturbed.trans (.modCt u fun t => TeamStill.setTile t md _)).trans hv
  obtain ⟨hset, hother, ⟨e, he, hwho, hrow⟩, hcell⟩ := State.tileOp_retired hi hstill hsum (maskOf (s.activeRows x)) 0 x
  refine ⟨hset, hother, ⟨e, he, hwho, fun r hr => ?_⟩, fun hrise r hr j hj => ?_⟩
  · exact (hrow r hr).trans ((getLsbD_maskOf _ hr).trans (State.mem_activeRows hr))
  · rw [hcell, Tile.cell_mapRows (s.nodup_activeRows x) _ hrise r hj]
    exact ⟨fun hact => if_pos ((State.mem_activeRows hr).mpr hact), fun hact => if_neg fun hm => hact ((State.mem_activeRows hr).mp hm)⟩

/-- `MMQ` with an active lane adds the products of the latches. -/
theorem execMmq_adds {s : State} (hi : Issuing s) (hw : ∀ c, s.cur.who ≠ .conj c) {x : XHead} (hact : s.active x ≠ []) (md : BitVec 6)
    (bl : Bool) :
    let bL := s.cg.latchB (if bl then 1 else 0)
    ∃ t, exec (.mmq x md bl) s = .next t ∧ ProductsAdded s t x md.toNat fun r j => (List.range bL.k).map fun k =>
      (tabGet (s.cg.latchA (r / 8)).e (32 * (r % 8) + k) 0, tabGet bL.e (32 * k + j) 0) := by
  refine ⟨_, ?_, State.addProducts_retired hi (.refl s) x md.toNat _ (.refl _) rfl⟩
  show execMmq x md bl s = _
  rw [execMmq, State.wholeGroup_eq hw]
  exact if_neg hact

/-- `MMS` without entries to take, or without an active lane, goes on. -/
theorem execMms_none {s : State} (hw : ∀ c, s.cur.who ≠ .conj c) {x : XHead} (md : BitVec 6) (a gs c : Opd)
    (h : s.active x = [] ∨ (s.regAt gs 3 0).toNat % 512 = 0 ∨ (s.regAt gs 2 0).toNat ≤ (s.regAt gs 1 0).toNat) :
    exec (.mms x md a gs c) s = .next (s.retire x) := by
  show execMms x md a gs c s = _
  rw [execMms, State.wholeGroup_eq hw]
  exact if_pos (by simpa [or_assoc] using h)

/-- `MMS` whose reads find no fault adds the products of the entries that it takes. -/
theorem execMms_adds {s : State} (hi : Issuing s) (hw : ∀ c, s.cur.who ≠ .conj c) {x : XHead} (hact : s.active x ≠ []) (md : BitVec 6)
    (a gs c : Opd) (hcnt : (s.regAt gs 3 0).toNat % 512 ≠ 0) (hlt : (s.regAt gs 1 0).toNat < (s.regAt gs 2 0).toNat)
    {h : SparseHdr} {es : List (Nat × Nat × Nat)} {vp bp : List (Dword × Acc)} {s1 : State}
    (hread : s.mmsRead (s.reg2 a 0) (s.regAt gs 0 0).toNat (s.regAt gs 1 0).toNat (s.regAt gs 2 0).toNat (s.reg1 c 0).toNat
      (s.quarters (s.active x)) = .ok (h, es, vp, bp) s1) :
    let cb := (s.reg1 c 0).toNat
    ∃ t, exec (.mms x md a gs c) s = .next t ∧ ProductsAdded s t x md.toNat fun r j => (es.filter fun e => e.1 = r % 8).map fun e =>
      (s1.elemOn vp h.vt (h.vals + BitVec.ofNat 64 (e.2.2 * elemSize h.vt)),
        if cb + 16 * (r / 8) + j < h.n then
          s1.elemOn bp h.bt (h.bbase + BitVec.ofNat 64 (e.2.1 * h.bstride + (cb + 16 * (r / 8) + j) * elemSize h.bt))
        else 0) := by
  refine ⟨_, ?_, State.addProducts_retired hi (.mmsRead hread) x md.toNat _ (.performedNow _) (State.tiles_performedNow _)⟩
  show execMms x md a gs c s = _
  rw [execMms, State.wholeGroup_eq hw]
  dsimp only
  rw [if_neg (by simp [hact, hcnt, hlt]), hread]
  rfl

/-- Settles O32: both instructions add products to the rows of active quarters (`State.addProducts_retired`), `MMQ` those of the
latches, `MMS` those of the entries that its reads give. -/
theorem tileProducts : Obligations.TileProducts := by
  intro x md s hi hw
  refine ⟨fun bl hact => execMmq_adds hi hw hact md bl, fun a gs c => ⟨fun h => ?_, fun hact hcnt hlt h es vp bp s1 hread => ?_⟩⟩
  · exact ⟨_, execMms_none hw md a gs c h, (Undisturbed.refl s).settled hi x, State.tiles_retire s x, rfl⟩
  · exact execMms_adds hi hw hact md a gs c hcnt hlt hread

end Sys2Proof.Machine
end
